-- ==== Sys2Proof/Word.lean ====
section
/-! DEFINITION. The word types of the node: bytes, 32-bit register words and 64-bit scalars (R8, R32). -/
namespace Sys2Proof

/-- One byte. -/
abbrev Byte := BitVec 8

/-- A register word (R8) or one binary32 pattern. -/
abbrev Word := BitVec 32

/-- A scalar register or an instruction word (R32, R74). -/
abbrev DWord := BitVec 64

end Sys2Proof
end

