-- ==== Sys2Proof/Syntax.lean ====
section
/-! DEFINITION. The commands of the block: one constructor of `Instr` per row of the opcode table, with the operands of the
row. An instruction command carries the operand fields of its word (R74), and an event carries what the outside brings. -/
namespace Sys2Proof

/-- Who makes a register or BAR access: a PCIe function (0 physical, 1 to 15 virtual, R420), or the Shift boss. -/
inductive Src where
  | fn (n : Nat)
  | boss
deriving DecidableEq, Repr

/-- The operand fields of a Filaux instruction word (R74), with the strand that issues it: CLASS and FUNC are the
constructor. -/
structure Insn where
  /-- the strand's identifier in the machine -/
  strand : Nat
  pneg : Bool
  pidx : Nat
  dst : Nat
  a : Nat
  b : Nat
  imm : BitVec 28
  /-- the extension words -/
  ext : List DWord
deriving DecidableEq, Repr

/-- The operation of a Carousel packet (Tables 12.1 and 12.2). -/
inductive PktOp where
  | ld | st | get | put | atom | atomn | inv | invalidate
  /-- a claim at a ledger, with the entry that it would write (R478) -/
  | claim
  | ldData | getData | fill | ack | atomOld | invAck | nak
deriving DecidableEq, Repr

/-- A Carousel packet: the fields of Table 12.2 and the payload. -/
structure Packet where
  op : PktOp
  vc : Nat
  src : Nat
  dst : Nat
  act : Nat
  size : Nat
  wide : Bool
  copyOk : Bool
  seq : Nat
  key : Nat
  addr : Nat
  /-- the length asked for, or the payload length -/
  len : Nat
  /-- the atomic opcode, or a status code in a response -/
  aux : Nat
  /-- the atomic operand and compare value; `cmp` of a response is the VC of the request that it answers -/
  opnd : Nat
  cmp : Nat
  /-- the payload asks for Crusher compression on the wire (R161) -/
  squeeze : Bool
  data : List Byte
deriving DecidableEq, Repr

/-- A broadcast on the CTL channel (R369), or a marker between two nodes of a rebalance (R192). -/
inductive Bcast where
  /-- an accepted install (R167) -/
  | install (act node activeBeat crc : Nat)
  /-- a pending rebalance (R192 step 1) -/
  | pending (act seam source target beat : Nat)
  /-- the target of a rebalance is ready (R192 step 3) -/
  | ready (act seam : Nat)
  /-- the rebalance is cancelled (R192 step 3) -/
  | cancel (act seam beat : Nat)
  /-- the source has sent its last record before the switch (R192 step 4) -/
  | close (act seam : Nat)
  /-- the source has released the seam (R192 step 6) -/
  | released (act seam : Nat)
  /-- a retirement (R195) -/
  | retire (act seam beat : Nat)
  /-- a membership change: an admission with the SIZE and PAIR_EN of the Carousel and its members, or a planned leave, and the beat of the
  write that asked for it (R353, R355) -/
  | enter (position beat written size pairEn members : Nat) (leave : Bool)
  /-- an unplanned loss of a position, or of a position on one ring (R347, R355) -/
  | loss (position beat : Nat) (ring : Option Nat)
  /-- a Calliope handover (R404) -/
  | handover (node beat : Nat)
  /-- a wall-time anchor (R406) -/
  | wall (beat sec ns : Nat)
deriving DecidableEq, Repr


/-- The parameter page of a flash die, and the chip enable that it answers (Table 11.1): data and spare bytes of a page, whether its cells
are QLC with an SLC mode, whether it supports NV-DDR3 and the operations of the table, its highest rate in 100 MT/s, its planes, its
longest program times in µs, its blocks, the pages of a QLC block, and its rated erase count. -/
structure DiePage where
  enable : Nat
  pageBytes : Nat
  spareBytes : Nat
  cells : Bool
  onfi : Bool
  rate : Nat
  planes : Nat
  qlcUs : Nat
  slcUs : Nat
  blocks : Nat
  blockPages : Nat
  rated : Nat
deriving DecidableEq, Repr

/-- What the node finds on its flash channels at a boot: for each channel its dies, and the pages, by act and page, whose tag or data
fails its CRC in a tag scan (R316, R338). -/
structure FlashBoot where
  chans : List (List (Option DiePage))
  torn : List (Nat × Nat)
deriving DecidableEq, Repr

/-- Which of a program, by its write sequence, and the erase of a block, by channel and stripe, fails (R334). -/
inductive CellFail where
  | program (wseq : Nat)
  | erase (chan stripe : Nat)
deriving DecidableEq, Repr

/-- The flash card as bring-up found it (R316): for each of the 32 channels the dies present, and the planes, the interface rate
in 100 MT/s, the rated erase count, the blocks per die, the data bytes of a QLC block and the pages of a block. A channel that fails
the requirements presents no die. -/
structure FlashCard where
  dies : List Nat
  planes : Nat
  rate : Nat
  rated : Nat
  blocks : Nat
  blockBytes : Nat
  blockPages : Nat
deriving DecidableEq, Repr

/-- A record on its way to the home of a seam: an append with its vector as binary32 patterns, or a tombstone, with the instruction
that issued it; or, from the source of a rebalance, the bytes of a record that the source has committed (R185, R192). -/
structure SeamRecord where
  act : Nat
  seam : Nat
  tomb : Bool
  id : Nat
  attr : Nat
  extra : Nat
  vec : List Nat
  node : Nat
  strand : Nat
  tag : Nat
  raw : List Byte
deriving DecidableEq, Repr

/-- The bulk copy of a seam to the target of a rebalance (R192 step 2): the newest version's header fields, its code and attribute
blocks, both lists from the oldest retained sequence numbers, and a backfill that is pending. -/
structure SeamCopy where
  act : Nat
  seam : Nat
  num : Nat
  count : Nat
  cut : Nat
  publish : Nat
  sideSeq : Nat
  tombSeq : Nat
  body : List Byte
  sideFirst : Nat
  side : List Byte
  tombFirst : Nat
  tomb : List Byte
  backfill : Option Nat
deriving DecidableEq, Repr

/-- What CAROUSEL_RESPONSE_RECEIVE takes: a packet that answers a request, or the answer of a seam's home to a record. -/
inductive Reply where
  | packet (p : Packet)
  | record (strand tag cause commit : Nat)
deriving DecidableEq, Repr

/-- A host read that fails (R426): the SEQ words of a ring, a descriptor, or what a job or loader call reads before it runs. -/
inductive HostRead where
  | seq (act ring : Nat)
  | descriptor (act ring num : Nat)
  | job (id : Nat)
deriving DecidableEq, Repr

/-- The commands: one constructor per row of the opcode table. -/
inductive Instr where
  /-- A write to a register that has no behaviour row of its own stores or clears its fields as the access codes state; out-of-range fields are left unchanged. (R4) -/
  | registerWrite (src : Src) (off word : Nat) (high : Option Nat)
  /-- A read of an RC field returns its value and clears it, with a set in the same cycle winning. (R4) -/
  | readClearRegisterRead (src : Src) (off : Nat) (wide : Bool)
  /-- A narrow, unaligned or unassigned register access completes with zero or no effect, and HIF logs the first such offset. (R10) -/
  | unalignedRegisterAccess (src : Src) (off len : Nat) (write : Bool)
  /-- A read of TAL_BEAT_LO snapshots beat and sub-beat for the reading source, so that its later reads of TAL_BEAT_HI and TAL_SUB return the snapshot. (R414) -/
  | tallySnapshotRead (src : Src) (wide : Bool)
  /-- At an act's poll beat the node reads the SEQ words of each enabled ring and takes the run of matching new descriptors. (R428) -/
  | ringPoll (act : Nat) (words : List (List Nat))
  /-- A full descriptor read from host memory arrives, and the descriptor is picked up in sequence order. (R428) -/
  | descriptorFetchComplete (act ring num : Nat) (desc : List Byte)
  /-- A host read for a job, a descriptor or a SEQ word completes with an error or times out; the job ends with 0x0062, or the ring is disabled with FETCH_ERR set. (R426) -/
  | hostReadError (what : HostRead)
  /-- A job held for a future SNAPSHOT is released once the stable beat reaches it. (R57) -/
  | jobSnapshotRelease (job : Nat)
  /-- A job held for its snapshot ends with status 0x0030 when its deadline arrives, or after ACT_SNAP_WAIT.BEATS beats if it has no deadline. (R58) -/
  | jobSnapshotTimeout (job : Nat)
  /-- When a job's deadline beat arrives, the node fixes the rerank cut and sends unfinished expansions to the expand-at-use path. (R64) -/
  | deadlineArrival (job : Nat)
  /-- When the last strand ends, or a strand faults, the job writes its result area if allowed and queues its completion. (R60) -/
  | jobEnd (job : Nat) (ledger : Option (List Byte × List Byte))
  /-- A completion entry is written to its completion ring once CQ space and the ring's ordering allow it. (R432) -/
  | completionWrite (job : Nat)
  /-- TIMER beats after the first uncounted NOTIFY completion, the ring sends its MSI-X message. (R437) -/
  | msixTimerExpiry (act ring : Nat)
  /-- Unmasking a vector with its pending bit set sends the held message. (R437) -/
  | msixUnmask (src : Src) (fn vec : Nat)
  /-- Software advances CQ_HEAD, which frees completion-ring space for waiting completions. (R432) -/
  | cqHeadWrite (src : Src) (act ring count : Nat)
  /-- A write of ENABLE = 1 to an idle, empty ring zeroes RING_SEQ, CQ_TAIL and CQ_HEAD and starts polling. (R430) -/
  | ringEnable (src : Src) (act ring word : Nat)
  /-- A write of ENABLE = 0 stops pick-up from the next poll, while picked-up jobs run on. (R430) -/
  | ringDisable (src : Src) (act ring word : Nat)
  /-- The loader with s1 = 0 checks a routine image in order, lowers it and returns a routine handle. (R27) -/
  | loadRoutine (job : Nat)
  /-- The loader with s1 = 1 makes later jobs naming the handle refused. (R30) -/
  | unloadRoutine (job : Nat)
  /-- An unloaded routine's native code and pool are released once every job that named it has completed. (R30) -/
  | routineRelease (act handle : Nat)
  /-- A loader call with an s1 not in Table 2.1a is refused with 0x0061 and DETAIL 0x15. (R26) -/
  | loaderUnknownOperation (job : Nat)
  /-- The loader with s1 = 2 imports every tile of a pack, or none of them. (R160) -/
  | importTilePack (job : Nat)
  /-- The loader with s1 = 3 checks and accepts an index install or headframe rebuild. (R166) -/
  | installIndex (job : Nat)
  /-- A node receives another node's report of an accepted install, which counts toward releasing the hold on its committed beat. (R167) -/
  | installReportReceive (act activeBeat crc node : Nat)
  /-- An install whose reports are incomplete by ACTIVE_BEAT − 256 is withdrawn and counted. (R167) -/
  | installWithdraw (act activeBeat : Nat)
  /-- The loader with s1 = 5 checks and zeroes an exchange area, exports it, and returns its key. (R208) -/
  | openExchange (job : Nat)
  /-- Table control OP 0 checks a block of hot-row moves and starts their migration. (R278) -/
  | tableMigrate (job : Nat)
  /-- Table control OP 1 writes the load report of the last complete window. (R276) -/
  | tableReport (job : Nat)
  /-- Table control OP 2 requests that a table be undefined. (R275) -/
  | tableUndefine (job : Nat)
  /-- An UNDEFINE takes effect once no registered WNZ instruction, migration or swap involves the table. (R275) -/
  | tableUndefineEffect (act num : Nat)
  /-- Flash control FORMAT erases every block, writes an empty journal and clears every attachment. (R319) -/
  | flashFormat (job : Nat)
  /-- Flash control ATTACH binds surviving maps to an act; with FINAL set it attaches the act. (R320) -/
  | flashAttach (job : Nat)
  /-- Flash control OPEN creates an empty page map for a free segment. (R319) -/
  | flashSegmentOpen (job : Nat)
  /-- Flash control SEAL writes partly filled vector pages, waits for arrived writes, folds the pages and replaces the page map with a run map. (R328) -/
  | flashSegmentSeal (job : Nat)
  /-- Flash control REOPEN expands a sealed segment's run map into a page map. (R319) -/
  | flashSegmentReopen (job : Nat)
  /-- Flash control FREE discards every page of a segment and releases its map. (R328) -/
  | flashSegmentFree (job : Nat)
  /-- The loader with s1 = 8 exports a range of region space with rights and returns a new region key. (R356) -/
  | exportRegion (job : Nat)
  /-- The loader with s1 = 9 withdraws an export for accesses that arrive after its pick-up. (R357) -/
  | unexportRegion (job : Nat)
  /-- The unexport job completes once every reading copy of the export has been invalidated. (R357) -/
  | unexportComplete (job : Nat)
  /-- The loader with s1 = 10 sends a JOB message over a Midway port. (R374) -/
  | sendMidwayMessage (job : Nat)
  /-- The loader with s1 = 11 returns a signed quote of the measurement registers followed by the log. (R464) -/
  | attestationQuote (job : Nat)
  /-- The loader with s1 = 12 pairs a slice with a partner node through a ledger. (R475) -/
  | pairSlice (job remote : Nat)
  /-- A pair takes effect at the first step boundary at least 1,024 beats after pick-up, and its held jobs are released. (R477) -/
  | pairTakeEffect (job : Nat)
  /-- A paired job waiting for the previous phase's winning result is released once the ledger holds it. (R479) -/
  | ledgerArgumentRelease (job : Nat) (ledger : Option (List Byte × List Byte))
  /-- Does nothing. (R86) -/
  | ctlNop (o : Insn)
  /-- Continues at the word index plus SIMM. (R86) -/
  | ctlBr (o : Insn)
  /-- Writes the return index to sD and branches. (R86) -/
  | ctlCall (o : Insn)
  /-- Continues at word index sA, and faults with ALIGN on a bad target. (R86) -/
  | ctlJmpr (o : Insn)
  /-- Decrements sD and branches while it is not zero. (R86) -/
  | ctlLoop (o : Insn)
  /-- Fences, releases the strand's tile handles and ends the strand. (R86) -/
  | ctlEnd (o : Insn)
  /-- Loads SIMM into sD. (R87) -/
  | sclLi (o : Insn)
  /-- Loads ext0 into sD. (R87) -/
  | sclLix (o : Insn)
  /-- Adds two scalars modulo 2^64. (R87) -/
  | sclAdd (o : Insn)
  /-- Adds SIMM to a scalar. (R87) -/
  | sclAddi (o : Insn)
  /-- Subtracts two scalars modulo 2^64. (R87) -/
  | sclSub (o : Insn)
  /-- Writes the low 64 bits of a product. (R87) -/
  | sclMul (o : Insn)
  /-- Writes the high 64 bits of an unsigned product. (R87) -/
  | sclMulhu (o : Insn)
  /-- Writes an unsigned quotient, or all ones on division by zero. (R87) -/
  | sclDivu (o : Insn)
  /-- Writes an unsigned remainder, or sA on division by zero. (R87) -/
  | sclRemu (o : Insn)
  /-- Bitwise AND. (R87) -/
  | sclAnd (o : Insn)
  /-- Bitwise OR. (R87) -/
  | sclOr (o : Insn)
  /-- Bitwise XOR. (R87) -/
  | sclXor (o : Insn)
  /-- Shifts left by sB[5:0]. (R87) -/
  | sclShl (o : Insn)
  /-- Shifts right logically. (R87) -/
  | sclShr (o : Insn)
  /-- Shifts right arithmetically. (R87) -/
  | sclSar (o : Insn)
  /-- Writes an integer comparison to a predicate. (R87) -/
  | sclCmp (o : Insn)
  /-- Combines two predicates logically. (R87) -/
  | sclPlog (o : Insn)
  /-- Selects sA or sB by a predicate. (R87) -/
  | sclSel (o : Insn)
  /-- Loads 1 to 8 bytes through a descriptor. (R87) -/
  | sclLd (o : Insn)
  /-- Stores 1 to 8 bytes through a descriptor. (R87) -/
  | sclSt (o : Insn)
  /-- Adds binary32 values. (R87) -/
  | sclFadd (o : Insn)
  /-- Multiplies binary32 values. (R87) -/
  | sclFmul (o : Insn)
  /-- Performs a fused multiply-add in binary32. (R87) -/
  | sclFfma (o : Insn)
  /-- Compares binary32 values under the total order. (R88) -/
  | sclFcmp (o : Insn)
  /-- Converts between binary32 and signed 64-bit integers. (R87) -/
  | sclFcvt (o : Insn)
  /-- Sets a descriptor from two scalars. (R89) -/
  | movDset (o : Insn)
  /-- Reads one half of a descriptor into a scalar. (R89) -/
  | movDget (o : Insn)
  /-- Forms a sub-descriptor with a new base and length. (R89) -/
  | movDsub (o : Insn)
  /-- Copies bytes between descriptors as if all were read before any was written. (R89) -/
  | movCopy (o : Insn) (data : Option (List Byte))
  /-- Opens a persistent tile, expanding it at load or reading it at use. (R89) -/
  | movTopen (o : Insn)
  /-- An expand-at-load expansion finishes, and the handles waiting on it use it. (R158) -/
  | expansionComplete (tile : Nat)
  /-- Allocates a new zeroed tile. (R89) -/
  | movTalloc (o : Insn)
  /-- Makes a new tile, a list tile included, from memory and computes its CRC. (R89) -/
  | movTloadm (o : Insn)
  /-- Writes a tile's raw contents, or the next page of a list, through a descriptor. (R207) -/
  | movTstore (o : Insn)
  /-- Makes a tile persistent, optionally packed, and returns its name. (R89) -/
  | movTsave (o : Insn)
  /-- Invalidates a tile handle. (R89) -/
  | movTfree (o : Insn)
  /-- Requests deletion of a persistent tile. (R89) -/
  | movTdrop (o : Insn)
  /-- A dropped tile is deleted once its expansion and every handle to it have ended. (R158) -/
  | tileDelete (tile : Nat)
  /-- Records a tier placement preference for a tile. (R89) -/
  | movTplace (o : Insn)
  /-- Multiply-accumulates two quantised tiles into an accumulator tile in the fixed order. (R120) -/
  | hewMma (o : Insn)
  /-- Computes an elementwise operation. (R123) -/
  | hewEw (o : Insn)
  /-- Applies an activation function. (R124) -/
  | hewAct (o : Insn)
  /-- Reduces rows or columns by SUM or MAX. (R125) -/
  | hewRed (o : Insn)
  /-- Converts a tile exactly to FP32 or BF16. (R126) -/
  | hewCvt (o : Insn)
  /-- Contributes a tile to an ordered reduction slot, which completes when all N contributions arrive. (R91) -/
  | hewOred (o : Insn)
  /-- A reduction slot that is incomplete after FENCE_LIMIT beats faults with FENCE_TIMEOUT. (R92) -/
  | oredSlotTimeout (job : Nat) (hew : Bool) (slot : Nat)
  /-- Computes a scale tile with outliers, a tensor scale and block scales. (R141) -/
  | qntPrepass (o : Insn)
  /-- Quantises a tile with a scale tile, counting saturations. (R143) -/
  | qntCvt (o : Insn)
  /-- Writes the outlier channels of a tile as BF16. (R145) -/
  | qntSplit (o : Insn)
  /-- Tests for drift against a calibration tile and applies the RERUN or ADAPT policy. (R146) -/
  | qntDrift (o : Insn)
  /-- Compresses a tile into a Crusher stream, or keeps it raw. (R152) -/
  | cruPack (o : Insn)
  /-- Checks and expands a Crusher stream. (R156) -/
  | cruUnpack (o : Insn)
  /-- Writes whether a stream passes every consistency check. (R156) -/
  | cruCheck (o : Insn)
  /-- A sluice scans a side list for a cage, using only entries committed at or before the snapshot. (R218) -/
  | sluScan (o : Insn)
  /-- Computes full-precision distances, in list form fetching full vectors for rerank. (R224) -/
  | sluDist (o : Insn)
  /-- An index instruction whose s62 was ahead of the stable beat proceeds once the stable beat reaches it. (R201) -/
  | snapshotWaitRelease (strand : Nat)
  /-- A home node serves a rerank fetch from its stack cache copy or from flash, without a job. (R224) -/
  | rerankFetchServe (node act loc id pos : Nat) (media : List Nat)
  /-- A fetched full vector arrives at the issuing node and is scored. (R224) -/
  | rerankFetchArrive (id pos : Nat) (vec : Option (List Byte)) (cached : Bool)
  /-- Dispatches a caged PQ scan of a code block to the Winze units. (R97) -/
  | wnzScan (o : Insn)
  /-- Pools table rows into exact sums or means per bag. (R245) -/
  | wnzBag (o : Insn)
  /-- Applies update records to table rows in place, in record order. (R248) -/
  | wnzUpd (o : Insn)
  /-- Copies whole table rows to a destination. (R246) -/
  | wnzGather (o : Insn)
  /-- The last registration of a WNZ instruction's ranges is acknowledged, and its parts may start. (R233) -/
  | winzeRegistrationPoint (id : Nat)
  /-- A part waiting at the dispatcher enters its stack's command queue once there is room and the act's limit allows it. (R235) -/
  | winzeCommandQueued (id stack : Nat)
  /-- A Winze command reaches the base die and its CMD_CRC is checked. (R236) -/
  | winzeCommandArrival (id stack : Nat) (cmd : List Byte)
  /-- A unit finishes a chunk and sends its contenders or accumulators up to the collector or combiner. (R240) -/
  | winzeChunkComplete (id stack unit : Nat)
  /-- A WNZ instruction's last part completes, its registrations are released, and held accesses proceed. (R233) -/
  | winzeCompletionPoint (id : Nat)
  /-- A unit fails during a chunk, and the chunk is redone or resumed on another unit. (R256) -/
  | winzeUnitFailure (stack unit : Nat)
  /-- A WNZ_SPARE write with GO = 1 retires a unit at a chunk boundary and enables the spare. (R261) -/
  | winzeSpare (src : Src) (stack unit : Nat)
  /-- Selects the first K entries of a list. (R220) -/
  | jigTopk (o : Insn)
  /-- Merges two sorted lists with deduplication and an exact left-out sum. (R220) -/
  | jigMerge (o : Insn)
  /-- Rounds a lane's selected and left-out sums once to binary32. (R223) -/
  | jigSums (o : Insn)
  /-- Opens one part of the seam version visible at the snapshot. (R173) -/
  | idxOpen (o : Insn)
  /-- Walks the headframe graph and returns NPROBE seams with their homes. (R191) -/
  | idxRoute (o : Insn)
  /-- Codes a vector, writes and journals its side-list entry, and returns the commit beat. (R185) -/
  | idxAppend (o : Insn)
  /-- Appends a vector with an extra attribute word. (R185) -/
  | idxAppendx (o : Insn)
  /-- Commits a tombstone for a vector ID in a seam. (R185) -/
  | idxDelete (o : Insn)
  /-- Removes list entries covered by tombstones visible at the snapshot. (R184) -/
  | idxTomb (o : Insn)
  /-- Appends held at 131,072 side-list entries proceed once the pending backfill is published. (R187) -/
  | appendRelease (act seam : Nat)
  /-- A rebalance target receives a committed or forwarded record for the seam and writes it. (R192) -/
  | forwardedRecordReceive (r : SeamRecord)
  /-- The index engine writes a vector-area page when it is full or at the next journal flush beat. (R328) -/
  | vectorPageWrite (act page : Nat)
  /-- Builds a query's quantised distance table in a slot. (R176) -/
  | tblBuild (o : Insn)
  /-- Loads a slot image after checking its CRC and fields. (R177) -/
  | tblLoad (o : Insn)
  /-- Loads a filter predicate into a slot. (R179) -/
  | tblFilter (o : Insn)
  /-- Sets a slot's threshold. (R103) -/
  | tblThresh (o : Insn)
  /-- Writes a slot image with its CRC. (R177) -/
  | tblStore (o : Insn)
  /-- Defines an embedding table on an extent with a row format. (R263) -/
  | tblTdef (o : Insn)
  /-- Schedules the replacement of a table's extent at a swap beat. (R282) -/
  | tblSwap (o : Insn)
  /-- At the swap beat, later lookups use the new extent and pending migrations of the table are cancelled. (R104) -/
  | tableSwapEvent (act num : Nat)
  /-- Returns the beat at which the last lookup of the replaced version completed. (R104) -/
  | tblVer (o : Insn)
  /-- Loads from a rack address. (R360) -/
  | carLd (o : Insn)
  /-- Stores to a rack address. (R360) -/
  | carSt (o : Insn)
  /-- Copies a rack range to a node range, possibly from reading copies. (R363) -/
  | carGet (o : Insn)
  /-- Copies a node range to a rack range over BULK, optionally SQUEEZEd. (R161) -/
  | carPut (o : Insn)
  /-- Performs an atomic at the target and returns the old value. (R361) -/
  | carAtom (o : Insn)
  /-- Performs an atomic at the target without a returned value. (R361) -/
  | carAtomn (o : Insn)
  /-- Invalidates every reading copy of a rack range. (R364) -/
  | carInv (o : Insn)
  /-- Reads logical flash pages into memory. (R324) -/
  | adtRead (o : Insn) (media : List Nat)
  /-- Writes logical pages, completing when they are durable. (R325) -/
  | adtWrite (o : Insn)
  /-- Discards logical pages. (R326) -/
  | adtDiscard (o : Insn)
  /-- Returns the current beat. (R107) -/
  | talNow (o : Insn)
  /-- Holds the strand until a beat, or until its deadline. (R54) -/
  | talWaitb (o : Insn)
  /-- A strand held by TAL.WAITB is released at its beat or deadline and its predicate is set. (R54) -/
  | waitbRelease (strand : Nat)
  /-- Returns the current stable beat. (R107) -/
  | talStable (o : Insn)
  /-- Returns beat × 1,024 plus the sub-beat. (R399) -/
  | talSub (o : Insn)
  /-- Holds later instructions until every earlier engine instruction has completed. (R50) -/
  | synFence (o : Insn)
  /-- Holds later instructions until every earlier WNZ instruction has completed. (R50) -/
  | synWfence (o : Insn)
  /-- Holds later instructions until earlier CAR writes are acknowledged. (R50) -/
  | synCfence (o : Insn)
  /-- Fences and waits at a barrier until all strands reach it. (R52) -/
  | synBar (o : Insn)
  /-- Contributes a scalar to an ordered reduction. (R91) -/
  | synOred (o : Insn)
  /-- A waiting fence's condition comes to hold, and the strand continues. (R50) -/
  | fenceRelease (strand : Nat)
  /-- An engine instruction reaches its completion point, its results become visible and dependent instructions may issue. (R47) -/
  | engineCompletion (strand tag : Nat)
  /-- A fence or barrier not satisfied after FENCE_LIMIT beats faults with FENCE_TIMEOUT. (R53) -/
  | fenceTimeout (strand : Nat)
  /-- Reads a register at management level. (R107) -/
  | sysRreg (o : Insn)
  /-- Writes a register at management level. (R107) -/
  | sysWreg (o : Insn)
  /-- Returns a telemetry counter. (R107) -/
  | sysTelem (o : Insn)
  /-- Schedules a backfill, rebalance or retirement of a seam homed on this node. (R514) -/
  | sysIdxop (o : Insn)
  /-- Schedules the recomposition of a slice at a beat. (R19) -/
  | sysSlice (o : Insn)
  /-- At its beat, a slice's new composition takes effect for newly admitted jobs. (R19) -/
  | sliceRecompose
  /-- A resource joins its new slice once its last old job completes. (R19) -/
  | sliceResourceJoin (res : Nat)
  /-- A member receives another member's committed-beat publication. (R407) -/
  | committedBeatReceive (node beat : Nat)
  /-- At beat F the engine gathers the newest version and the changes up to F and writes a new version. (R188) -/
  | backfillCut (act seam : Nat)
  /-- After its last byte is written, a backfill's version is published. (R188) -/
  | backfillPublish (act seam : Nat)
  /-- A seam version is released once a newer version is old enough and its readers have ended. (R190) -/
  | versionRelease (act seam num : Nat)
  /-- A node receives a pending rebalance broadcast and sets NEXT_HOME and NEXT_BEAT. (R192) -/
  | rebalancePendingReceive (act seam source target beat : Nat)
  /-- The target receives the bulk copy of a seam's version and list extents. (R192) -/
  | rebalanceCopyReceive (c : SeamCopy)
  /-- When the bulk copy completes, the target broadcasts READY. (R192) -/
  | rebalanceReady (act seam : Nat)
  /-- A node receives READY and may let its committed beat pass H. (R193) -/
  | rebalanceReadyReceive (act seam : Nat)
  /-- Without READY by H − 16, the source broadcasts CANCEL. (R192) -/
  | rebalanceCancel (act seam : Nat)
  /-- A node receives CANCEL, clears NEXT_BEAT, and the target discards its copy. (R192) -/
  | rebalanceCancelReceive (act seam beat : Nat)
  /-- From H − 1 the source stops writing the seam's records, forwards them, and sends a close marker. (R192) -/
  | rebalanceForwardStart (act seam : Nat)
  /-- The target receives the close marker and may publish committed beats at or past H. (R193) -/
  | closeMarkerReceive (act seam : Nat) (backfill : Option Nat)
  /-- The source releases the seam once O reaches H and its readers end, and every node sets HOME. (R192) -/
  | rebalanceRelease (act seam : Nat)
  /-- A node receives a retirement broadcast, sets STATE and STATE_BEAT, and holds its committed beat until all acknowledge. (R195) -/
  | retirementReceive (act seam beat : Nat)
  /-- A retired seam's storage is released once O reaches R and its readers end. (R195) -/
  | seamStorageRelease (act seam : Nat)
  /-- The acknowledgements of a broadcast return, and the broadcast completes. (R369) -/
  | broadcastAckReceive (b : Bcast)
  /-- Once per beat the index engine reads the SUMMARY words and admits new probe seams into cages. (R212) -/
  | cageAdmission (act : Nat)
  /-- A cage closes when CAGE_WAIT beats have passed since it opened. (R213) -/
  | cageWaitExpiry (act : Nat)
  /-- A cage closes at DEADLINE − GUARD of any of its lanes. (R213) -/
  | cageGuardExpiry (act : Nat)
  /-- A row enters MOVING at the first beat with no registered WNZ.UPD of its table. (R278) -/
  | migrationMovingEnter (act num : Nat)
  /-- The background copy of a moving row to its target completes. (R278) -/
  | migrationCopyComplete (act num row : Nat)
  /-- At FLIP_BEAT copied rows become HOME at their targets and their held records are applied. (R278) -/
  | migrationFlip (act num : Nat)
  /-- The source slot is released once earlier lookups complete, and the loader job completes. (R278) -/
  | migrationSourceRelease (act num job : Nat)
  /-- At each multiple of 65,536 beats a load window closes and its counts become the reported window. (R276) -/
  | loadWindowEnd
  /-- After the copy and its verification, the tile's home changes to the target at an instruction boundary. (R294) -/
  | tierMoveFlip (id : Nat)
  /-- A move's source is released and uncharged once the reads begun before the flip complete. (R294) -/
  | tierSourceRelease (id : Nat)
  /-- The home of a tile's old contents is released once earlier reads complete. (R291) -/
  | tileHomeRelease (id : Nat)
  /-- A quota write takes effect at once, dropping cache copies and demoting crew tiles as needed. (R300) -/
  | quotaWrite (src : Src) (act kind word : Nat)
  /-- A MEM_POOL write takes effect only with every act idle and no allocation below the new boundary, and otherwise sets POOL_REFUSED. (R287) -/
  | memPoolWrite (src : Src) (gib : Nat)
  /-- At each round start the scrubber reads its blocks and rewrites those that it corrects. (R306) -/
  | scrubRound
  /-- After the copy the row map flips between two controller accesses. (R308) -/
  | rowRetireFlip (kind unit sub index : Nat)
  /-- At each stack or SRAM period boundary the rows' hit counts are cleared. (R308) -/
  | hitPeriodBoundary
  /-- MEM_SPARE with GO = 1 and DEAD = 0 starts a copy of a channel to a spare channel. (R309) -/
  | memSpareCopy (src : Src) (stack chan : Nat)
  /-- MEM_SPARE with GO = 1 and DEAD = 1 substitutes a spare channel at once, with every lost-map bit set. (R309) -/
  | memSpareDead (src : Src) (stack chan : Nat)
  /-- A finished channel copy flips the mapping between two accesses. (R309) -/
  | channelSpareFlip (stack : Nat)
  /-- A channel fails with no spare left, is marked dead, and its reads report uncorrectable. (R310) -/
  | channelFailure (stack chan : Nat)
  /-- A write of MEM_FLIP_CTRL with ARM = 1 arms corruption of the next write of the target. (R311) -/
  | flipMaskArm (src : Src) (word : Nat)
  /-- CREW_SPARE with HEW_GO = 1 retires a hewer and enables the spare. (R135) -/
  | crewHewerSpare (src : Src) (crew hewer : Nat)
  /-- CREW_SPARE with CORE_GO = 1 retires a control core and enables the spare. (R135) -/
  | crewCoreSpare (src : Src) (crew core : Nat)
  /-- A hewer fails, and its in-flight instructions are issued again on another hewer. (R130) -/
  | hewerFailure (crew hewer : Nat)
  /-- A control core fails with no spare left, and the crew's usable cores fall. (R131) -/
  | controlCoreFailure (crew core : Nat)
  /-- A page program finishes and the page becomes durable, completing its write. (R325) -/
  | flashProgramComplete (wseq : Nat)
  /-- A program or erase fails, and the block is retired with its valid pages relocated. (R334) -/
  | flashProgramFail (what : CellFail)
  /-- A write waiting on a full SLC buffer proceeds once folding frees space. (R331) -/
  | flashWriteResume (wseq : Nat)
  /-- Folding starts copying SLC pages to QLC runs when the buffer is above C / 2, or for a SEAL. (R331) -/
  | foldStart
  /-- A verified fold or relocation copy flips its map entry, unless a newer write or discard cancels the flip. (R332) -/
  | foldFlip (act page : Nat) (verified : Bool)
  /-- When the erase-count spread exceeds 5%, the runs of the least-worn blocks are relocated. (R334) -/
  | wearRelocate (act page : Nat)
  /-- At each multiple of 2,048 beats, or at 32 MiB buffered, the journal is flushed and the next blocks are allocated. (R335) -/
  | journalFlush
  /-- A journal flush completes, releasing pending discards and allowing erase of folded-out blocks. (R335) -/
  | journalFlushComplete
  /-- A die that has not answered status polling for 64 beats is retired and rebuilt. (R334) -/
  | dieAutoRetire (chan die : Nat)
  /-- An ADT_DIE_RETIRE write with GO = 1 retires a die and starts its rebuild. (R342) -/
  | adtDieRetire (src : Src) (chan die : Nat)
  /-- The rebuild of a retired die's pages completes and REBUILDING clears. (R334) -/
  | dieRebuildComplete
  /-- A filtered change of HOLDUP_OK makes hold-up short or not short. (R336) -/
  | holdupChange (low : Bool) (held : Nat)
  /-- PWR_FAIL_N asserted starts the power-down flush of programs, journal and power-down record. (R337) -/
  | powerFailAssert (held : Nat)
  /-- PWR_FAIL_N deasserted for 1,024 beats with supplies good makes the firmware raise a warm software reset. (R487) -/
  | powerFailClearReset
  /-- A lane over the corrected-symbol limit, or out of lock, is replaced by the spare lane, or takes the link down. (R346) -/
  | laneBad (link lane : Nat)
  /-- Transmit power below 50% switches to the spare laser, or takes the link down. (R347) -/
  | laserPowerLow (link : Nat)
  /-- CAR_LINKl_CTRL with LANE_GO = 1 moves a data lane to the spare lane. (R378) -/
  | linkLaneGo (src : Src) (link lane : Nat)
  /-- CAR_LINKl_CTRL with LASER_GO = 1 switches to the spare laser. (R378) -/
  | linkLaserGo (src : Src) (link : Nat)
  /-- A link frame arrives, is checked by CRC and link decoder, and is delivered once or refused. (R368) -/
  | carouselFrameReceive (link seq : Nat) (crcOk : Bool) (head : List Byte) (stream : Option (List Byte)) (p : Packet)
  /-- A refused frame is resent from the retry buffer, in mode 0 after two refusals. (R368) -/
  | linkFrameResend (link seq : Nat)
  /-- A target receives a REQ packet, checks the export, key and rights, and performs it once. (R358) -/
  | carouselRequestReceive (p : Packet)
  /-- A target receives PUT payload on BULK and writes it. (R161) -/
  | putPayloadReceive (p : Packet)
  /-- A response, acknowledgement or refusal arrives for an outstanding request. (R367) -/
  | carouselResponseReceive (r : Reply)
  /-- A request unacknowledged for REPLAY_BEATS is resent, and exhausted replay faults with UNMAPPED. (R367) -/
  | requestReplayTimeout (dst vc seq : Nat)
  /-- A page fill arrives, serves its read, and is kept as a copy unless invalidated meanwhile. (R363) -/
  | copyFillReceive (p : Packet)
  /-- A sharer receives an invalidation, drops its copy and acknowledges. (R364) -/
  | invalidationReceive (p : Packet)
  /-- The home receives invalidation acknowledgements, clears the sharers, and completes CAR.INV. (R364) -/
  | invalidationAckReceive (p : Packet)
  /-- CAR_CTRL.JOIN = 1 puts the node in listening to lock to the beat and await admission. (R353) -/
  | carJoin (src : Src)
  /-- CAR_ADMIT with GO = 1 and LEAVE = 0 broadcasts an admission, or founds a Carousel on an ALONE node. (R353) -/
  | carAdmit (src : Src) (pos : Nat)
  /-- CAR_ADMIT with GO = 1 and LEAVE = 1 schedules a planned leave of a position. (R355) -/
  | carRemove (src : Src) (pos : Nat)
  /-- CAR_CTRL.LEAVE = 1 schedules the node's own planned leave 1,024 beats ahead. (R355) -/
  | carLeave (src : Src)
  /-- An admission broadcast is received, acknowledged, or taken by the joining node to enter joining. (R353) -/
  | admissionReceive (pos beat written size pairEn members : Nat) (leave : Bool)
  /-- A listening node with no marker for 64 beats after JOIN sets ALONE. (R354) -/
  | aloneDetect
  /-- At a membership beat positions are added or removed, switches move, and routes are recomputed. (R353) -/
  | membershipBeat (elected : Nat)
  /-- A hello arrives on a lit link of a joining position. (R353) -/
  | helloReceive (link size pos : Nat)
  /-- With matching hellos on every lit link, the joining node becomes member and GLB_NODE_ID is set. (R353) -/
  | joinConfirm
  /-- Without matching hellos within 64 beats, the node returns to listening and is removed at admission + 128. (R353) -/
  | joinTimeout
  /-- When markers of two founders meet, the higher-position founder closes its switches and listens. (R354) -/
  | founderConflict (pos : Nat)
  /-- Neighbours seeing no light or hellos for 4 beats broadcast a loss with a removal beat. (R355) -/
  | neighbourLossDetect (pos : Nat)
  /-- A member receives an unplanned-loss broadcast and schedules the removal. (R355) -/
  | lossBroadcastReceive (pos beat : Nat) (ring : Option Nat)
  /-- A Midway frame arrives and is checked, dropped or delivered by type. (R372) -/
  | midwayFrameReceive (port : Nat) (fcsOk : Bool) (fec : Nat) (frame : List Byte)
  /-- A complete JOB message is entered on the act's Midway ring, or dropped. (R374) -/
  | midwayJobReceive
  /-- A RESULT message completes the waiting send, or is dropped. (R374) -/
  | midwayResultReceive
  /-- A fragment acknowledgement arrives, and the send completes when all are acknowledged. (R373) -/
  | midwayAckReceive
  /-- An unacknowledged fragment is resent after RTO, and exhaustion makes the peer unreachable. (R373) -/
  | midwayFragmentTimeout (mac act msg frag : Nat)
  /-- A PTP event message is timestamped at the PCS and queued. (R375) -/
  | ptpEventTimestamp (port domain dir type seq : Nat)
  /-- A write of POP = 1 discards the head timestamp. (R379) -/
  | ptpTsPop (src : Src)
  /-- At a unit boundary the channel colours and selects the next unit to send. (R388) -/
  | egressUnitComplete (chan : Nat)
  /-- A gate entry's INTERVAL expires and the next entry of the cycle begins. (R387) -/
  | gateEntryAdvance (chan : Nat)
  /-- A write of ARM = 1 checks the pending gate list and arms its takeover, or refuses it. (R386) -/
  | gateListArm (src : Src) (chan entries cycleM1 : Nat)
  /-- A write of ARM = 0 before the takeover cancels it and sets CANCELLED. (R387) -/
  | gateListCancel (src : Src) (chan : Nat)
  /-- At beat T the pending gate list becomes active. (R387) -/
  | gateTakeover (chan : Nat)
  /-- A write of APPLY = 1 submits new meter fields, or is refused and logged. (R393) -/
  | meterApply (src : Src) (act group cls mode : Nat) (redDrop : Bool)
  /-- At the next beat boundary the meter fields take effect and buckets are cut to their caps. (R393) -/
  | meterApplyEffect
  /-- A write of a channel's RESERVE takes effect, or is refused and logged. (R394) -/
  | reserveWrite (src : Src) (chan cells : Nat)
  /-- A producer waiting for pool cells proceeds once cells are freed. (R394) -/
  | poolCellsRelease
  /-- At each sample beat the node writes one record per sampled queue, or drops the whole sample. (R395) -/
  | queueSample
  /-- The sub-beat wraps and the beat advances by one. (R399) -/
  | beatAdvance (mean estimate : Nat) (calIn : Bool) (readings : List (Nat × Int))
  /-- A member locks to the upstream marker, loading its Tally at lock. (R402) -/
  | beatMarkerReceive (beat : Nat) (err : Int) (calliope : Nat)
  /-- No marker for 4 beats sets HOLDOVER, and after 1,024 beats LOCKED clears. (R403) -/
  | markerTimeout
  /-- TAL_CAL_CTRL.HANDOVER = 1 broadcasts a handover to this node at the handover beat. (R404) -/
  | calliopeHandoverRequest (src : Src)
  /-- A member receives a Calliope handover broadcast. (R404) -/
  | handoverBroadcastReceive (node beat : Nat)
  /-- At the handover beat the node becomes Calliope and the old one stops sending markers. (R404) -/
  | calliopeHandover
  /-- CAL_IN out of tolerance, or loss of REFCLK_SYS, sets CLOCK_FAIL and raises reset source 0x7. (R405) -/
  | clockFailure (refclk : Bool)
  /-- TAL_WALL_CTRL.PUBLISH = 1 on the Calliope broadcasts the wall-time anchor. (R406) -/
  | wallPublish (src : Src)
  /-- A member loads a received anchor at the next beat boundary. (R406) -/
  | wallAnchorReceive (beat sec ns : Nat)
  /-- A domain starts waking ahead of its next known event. (R411) -/
  | domainWakeStart (crew : Bool) (n : Nat)
  /-- A waking domain reaches P0 and its waiting work proceeds. (R411) -/
  | domainWakeComplete (crew : Bool) (n : Nat)
  /-- PWR_P4_REQ.GO = 1 enters P4 when every condition holds. (R412) -/
  | p4Enter (src : Src)
  /-- PWR_P4_REQ.WAKE = 1 wakes the node from P4. (R412) -/
  | p4Wake (src : Src)
  /-- The node leaves P4 at PWR_P4_WAKE. (R412) -/
  | p4TimedWake
  /-- A host read through BAR2 reaches node memory, or completes with UR or CA. (R424) -/
  | bar2Read (fn x len : Nat)
  /-- A host write through BAR2 reaches node memory, or is discarded. (R424) -/
  | bar2Write (fn x : Nat) (data : List Byte)
  /-- The PCIe link retrains or changes speed or width without ending any job. (R418) -/
  | linkRetrain (speed width : Nat) (flit : Bool)
  /-- PERST_N resets the link and configuration space and disables every ring. (R453) -/
  | perstAssert (held : Nat)
  /-- HIF_OST_CTRL.ENABLE = 1 enters Ost service mode when its conditions hold. (R439) -/
  | ostEnable (src : Src)
  /-- HIF_OST_CTRL.ENABLE = 0 requests the end of Ost service mode. (R440) -/
  | ostDisable (src : Src)
  /-- Ost service mode ends once act 0 is idle. (R440) -/
  | ostExit
  /-- Once the rails have been good for 10 ms in stage order, power-on reset is raised at cold level. (R501) -/
  | powerOnReset
  /-- A rail below 92% for 200 ns raises source 0x2 at cold level. (R502) -/
  | brownOut (rail held : Nat)
  /-- A filtered assertion of RESET_N raises source 0x3. (R452) -/
  | resetPinAssert (held : Nat)
  /-- RESET_N deasserted for the filter width lets the reset sequence continue. (R452) -/
  | resetPinDeassert (held : Nat)
  /-- The watchdog count reaches zero and raises source 0x4. (R457) -/
  | watchdogExpiry
  /-- A write of 0x4B1C to RST_WDT_KICK restarts the watchdog count. (R457) -/
  | watchdogKick (src : Src) (key : Nat)
  /-- RST_SW with GO = 1 and the key raises source 0x5 at the requested level or deeper. (R447) -/
  | softwareReset (src : Src) (level key : Nat)
  /-- A nested exception, or 65,536 beats without a retired instruction, in the Shift boss raises source 0x8. (R445) -/
  | lockupReset
  /-- A cold, warm or compute reset stops work, flushes, closes the net and holds logic in reset. (R450) -/
  | resetSequence
  /-- After at least 64 beats in reset the logic is released and the ROM runs the boot. (R450) -/
  | resetRelease (image : Option (List Byte)) (flash : FlashBoot)
  /-- ASY_CTRL.HOST_LOAD = 1 while the ROM waits makes it load and check a host image. (R458) -/
  | hostImageLoad (image : Option (List Byte)) (flash : FlashBoot)
  /-- ASY_CTRL.COMMIT_SVN = 1 raises the fused SVN to the image's SVN. (R461) -/
  | commitSvn (src : Src)
  /-- ASY_CTRL.EXT_GO = 1 extends register EXT_INDEX with ASY_EXT_DATA. (R463) -/
  | measurementExtGo (src : Src) (index : Nat)
  /-- RST_ACT_CTRL with GO = 1 halts an act, ends its jobs and releases its resources. (R454) -/
  | actReset (src : Src) (act : Nat)
  /-- RST_BLK_CTRL with GO = 1 stops new work to a block and asks it to go idle. (R455) -/
  | blockReset (src : Src) (block : Nat)
  /-- A block going idle is reset and released. (R455) -/
  | blockResetIdle
  /-- A block not idle within RST_BLK_TIMEOUT is reset anyway, with TIMEOUT set. (R455) -/
  | blockResetTimeout
  /-- DBG_CTRL.SUBMIT = 1 checks the token and opens debug, drawing a new nonce. (R466) -/
  | debugSubmit (src : Src)
  /-- DBG_CTRL.REQ = 1 while debug is open raises source 0x6. (R445) -/
  | debugResetRequest (src : Src)
  /-- DBG_CTRL.CLOSE = 1 locks debug. (R466) -/
  | debugClose (src : Src)
  /-- The Shift boss takes the node out by planned leave when a condition of Table 17.1 holds. (R472) -/
  | firmwareNodeLeave
  /-- With AUTO_EN the firmware brings a spare in for a failed or repeatedly failing unit and logs it. (R483) -/
  | autoSpare (kind unit index fails : Nat) (dead : Bool)
  /-- A FUN_CTRL write with the key sets or clears EN. (R484) -/
  | funhouseEnable (src : Src) (word : Nat)
  /-- A write of a slot's ARM bit arms or disarms a perturbation slot. (R490) -/
  | perturbationArm (src : Src) (slot word : Nat)
  /-- An armed slot fires at its first opportunity, producing its fault. (R484) -/
  | perturbationFire (slot act : Nat)
  /-- A die or stack reaching the warning temperature asserts ALERT_N and holds work back. (R507) -/
  | thermalWarning (crew : Bool) (n : Nat)
  /-- A die or stack reaching the trip temperature asserts THERMTRIP_N and closes the safety net. (R507) -/
  | thermalTrip (crew : Bool) (n : Nat)
  /-- Links into and out of an admitted position finish training and report TX_UP and RX_UP, releasing the packets that members held for them. (R353) -/
  | linkTrained (link : Nat)
  /-- A host read for a job's argument block, or for a loader image at a host address, completes and the data is copied into crew store so that the job or loader call can go on. (R57) -/
  | hostReadComplete (job : Nat) (data : List Byte)
  /-- A write to a virtual function's SR-IOV capability enables or disables that function, which governs whether its act's rings are polled and whether ACT_CTRL.ENABLE can be set. (R420) -/
  | vfEnable (f : Nat) (enable : Bool)
  /-- A filtered deassertion of PERST_N lets the PCIe link and configuration space come out of reset. (R453) -/
  | perstDeassert (held : Nat)
  /-- PWR_FAIL_N is deasserted, which starts the re-arm of the latched alarm after the filter width and starts the 1,024-beat count of R487. (R485) -/
  | powerFailDeassert (held : Nat)
  /-- The temperature falls 3 °C below the warning threshold, and the node releases the hold on crew issue and Winze scans. (R507) -/
  | thermalWarningClear (crew : Bool) (n : Nat)
  /-- A stack's temperature crosses 85 °C, and the stack's refresh rate doubles or returns to normal. (R507) -/
  | stackRefreshDouble (stack : Nat) (double : Bool)
  /-- A Midway port gains or loses link, PCS lock or a fault state, which changes MDW_pSTATUS and port 0xFF selection. (R374) -/
  | midwayLinkChange (port : Nat) (up lock localFault remoteFault : Bool)
  /-- A received IEEE 802.1Qbb priority flow control frame pauses or resumes a priority on a Midway port while PFC_EN is 1. (R371) -/
  | pfcPauseReceive (port prio : Nat) (pause : Bool)
  /-- A red unit at the head of its queue is tested again in a later ns as its meter buckets refill, and it is sent once it is no longer red. (R392) -/
  | redUnitRetest (chan act cls : Nat)
deriving DecidableEq, Repr

end Sys2Proof
end

