-- ==== Sys2Proof/Config.lean ====
section
/-! DEFINITION. The values that the spec leaves open or that manufacture fixes: constants without a body, so that no proof can see
one. -/
namespace Sys2Proof.Config

/-- The n-th draw of the node's random source (R356, R466). -/
opaque random : Nat → Nat → Nat

/-- A free value of a width: which draw, and its number of bits. -/
opaque freeBits : Nat → Nat → Nat

/-- Whether an entry passes a filter that lies outside Table 6.7: the filter, the attribute word and the extra word (R177, R178). -/
opaque oddFilter : List Byte → Nat → Nat → Bool

/-- The bytes of a journal record by its kind, and the pages of the checkpoint part that a flush writes, by how many maps there are
(R335). -/
opaque journalBytes : Nat → Nat
opaque checkpointPages : Nat → Nat

/-- The operation code of a Carousel packet by its kind (R370), and the bytes that a CTL transmission takes on a link by its kind
(R369, R380). -/
opaque opCode : Nat → Nat
opaque ctlBytes : Nat → Nat

/-- A field of the tag of a journal or parity page (Table 11.5): KIND, which page by two numbers, and the field's offset. -/
opaque nodeTag : Nat → Nat → Nat → Nat → Nat

/-- The bytes of native code that an image lowers to (R28). -/
opaque nativeBytes : List Byte → Nat

/-- The bank of a stack row: stack, channel and row (R308). -/
opaque bankOf : Nat → Nat → Nat → Nat

/-- Whether an ECDSA P-521 signature verifies: public key, digest, and the two halves of the signature (R460, R466). -/
opaque ecdsaVerify : List Byte → List Byte → List Byte → List Byte → Bool

/-- The signature by the identity key over a digest: its two halves of 66 bytes (R464). -/
opaque ecdsaSign : List Byte → List Byte × List Byte

/-- The identity public key, of 133 bytes (R462). -/
opaque idPub : List Byte

/-- The fused root hash, of 64 bytes (R460). -/
opaque rootHash : List Byte

/-- What the ROM extends ASY_MEAS0 with: its version digest and the fuse contents (R458). -/
opaque romDigest : List Byte

/-- The words of DBG_NONCE at reset (R469). -/
opaque nonce : Nat → BitVec 32

end Sys2Proof.Config
end

