-- ==== Sys2Proof/Machine/Bits.lean ====
section
/-! DEFINITION. Bit fields, little-endian byte strings, CRC-32C and the sorted key and value lists that memory, the register
bank and the counters are held in. -/
namespace Sys2Proof.Machine

/-- Bits `[lo + w - 1 : lo]` of a number. -/
def bits (n lo w : Nat) : Nat := (n / 2 ^ lo) % 2 ^ w

/-- Bit `i` of a number. -/
def bitOf (n i : Nat) : Bool := n.testBit i

/-- A number with bits `[lo + w - 1 : lo]` replaced. -/
def putBits (n lo w v : Nat) : Nat :=
  n - bits n lo w * 2 ^ lo + (v % 2 ^ w) * 2 ^ lo

/-- A Boolean as a bit. -/
def b2n (b : Bool) : Nat := if b then 1 else 0

/-- The number that a byte string spells, lowest byte first. -/
def leNat : List Byte → Nat
  | [] => 0
  | b :: t => b.toNat + 256 * leNat t

/-- The `k` bytes of a number, lowest first. -/
def leBytes : Nat → Nat → List Byte
  | _, 0 => []
  | n, k + 1 => BitVec.ofNat 8 n :: leBytes (n / 256) k

/-- `len` items of a list from item `off`. -/
def slice {α : Type} (l : List α) (off len : Nat) : List α := (l.drop off).take len

/-- The number in the `k` bytes of a byte string at `off`. -/
def leAt (l : List Byte) (off k : Nat) : Nat := leNat (slice l off k)

/-- A list cut or extended with `d` to `n` items. -/
def padTo {α : Type} (d : α) (n : Nat) (l : List α) : List α := l.take n ++ List.replicate (n - l.length) d

/-- `n` zero bytes. -/
def zeros (n : Nat) : List Byte := List.replicate n 0#8

/-- A list with item `i` changed by `f`. -/
def updAt {α : Type} : List α → Nat → (α → α) → List α
  | [], _, _ => []
  | a :: t, 0, f => f a :: t
  | a :: t, i + 1, f => a :: updAt t i f

/-- Every item that satisfies `p`, changed by `f`. -/
def updWhere {α : Type} (p : α → Bool) (f : α → α) (l : List α) : List α :=
  l.map fun a => if p a then f a else a

/-- A byte string with `b` written over it at `off`. -/
def overlay (l : List Byte) (off : Nat) (b : List Byte) : List Byte :=
  l.take off ++ b ++ l.drop (off + b.length)

/-- `n` divided by `k`, rounded up. -/
def ceilDiv (n k : Nat) : Nat := (n + k - 1) / k

/-- `n` rounded up to a multiple of `k`. -/
def roundUp (n k : Nat) : Nat := ceilDiv n k * k

/-- A binary predicate over numbers as a total order for sorting: insertion of one item. -/
def insertBy {α : Type} (lt : α → α → Bool) (a : α) : List α → List α
  | [] => [a]
  | b :: t => if lt b a then b :: insertBy lt a t else a :: b :: t

/-- A stable sort by insertion: of equal items the earlier stays first. -/
def sortBy {α : Type} (lt : α → α → Bool) (l : List α) : List α := l.foldr (insertBy lt) []

/-- The first number at or above `n`, of the `fuel` numbers tried, that `used` does not hold. -/
def firstUnused (used : Nat → Bool) : Nat → Nat → Nat
  | n, 0 => n
  | n, fuel + 1 => if used n then firstUnused used (n + 1) fuel else n

/-! ## CRC-32C -/

/-- One bit of the reflected CRC-32C division. -/
def crcBit (c : Nat) : Nat := if c % 2 = 1 then (c / 2) ^^^ 0x82F63B78 else c / 2

/-- One byte of CRC-32C. -/
def crcByte (c : Nat) (b : Byte) : Nat :=
  let x := c ^^^ b.toNat
  crcBit (crcBit (crcBit (crcBit (crcBit (crcBit (crcBit (crcBit x)))))))

/-- CRC-32C of a byte string: reflected, all ones first and complemented last. -/
def crc32c (l : List Byte) : Nat := (l.foldl crcByte 0xFFFFFFFF) ^^^ 0xFFFFFFFF

/-! ## Sorted lists of keys and values

A list holds only the keys whose value differs from the default `d`, in rising order, so equal contents are equal lists. -/

/-- The value at key `k`. -/
def kvGet {α : Type} (d : α) : List (Nat × α) → Nat → α
  | [], _ => d
  | (a, v) :: t, k => if a = k then v else kvGet d t k

/-- A list without a key. -/
def kvErase {α : Type} (k : Nat) (l : List (Nat × α)) : List (Nat × α) := l.filter fun e => !(e.1 == k)

/-- The list with `v` at key `k`; writing the default removes the entry. A read of `k` then gives `v`, in whatever order the list is. -/
def kvSet {α : Type} [DecidableEq α] (d : α) : List (Nat × α) → Nat → α → List (Nat × α)
  | [], k, v => if v = d then [] else [(k, v)]
  | (a, w) :: t, k, v =>
    if k < a then (if v = d then kvErase k ((a, w) :: t) else (k, v) :: (a, w) :: t)
    else if a = k then (if v = d then kvErase k t else (k, v) :: t)
    else (a, w) :: kvSet d t k v

/-- The entries that a run of values from key `k` on needs. -/
def kvRun {α : Type} [DecidableEq α] (d : α) : Nat → List α → List (Nat × α)
  | _, [] => []
  | k, v :: t => if v = d then kvRun d (k + 1) t else (k, v) :: kvRun d (k + 1) t

/-- The list with a run of values from key `k` on. -/
def kvPut {α : Type} [DecidableEq α] (d : α) (l : List (Nat × α)) (k : Nat) (vs : List α) : List (Nat × α) :=
  l.filter (fun e => decide (e.1 < k)) ++ kvRun d k vs ++ l.filter (fun e => decide (k + vs.length ≤ e.1))

/-- The canonical form: keys strictly rising, and no value equal to the default. -/
def kvWf {α : Type} [DecidableEq α] (d : α) : List (Nat × α) → Bool
  | [] => true
  | (_, v) :: [] => decide (v ≠ d)
  | (a, v) :: (b, w) :: t => decide (v ≠ d) && decide (a < b) && kvWf d ((b, w) :: t)

/-- The list with every key that satisfies `p` back at the default. -/
def kvDrop {α : Type} (p : Nat → Bool) (l : List (Nat × α)) : List (Nat × α) :=
  l.filter fun e => !p e.1

end Sys2Proof.Machine
end

