-- ==== Sys2Proof/Machine/Regs.lean ====
section
/-! DEFINITION. The register space of R7 to R11: one row per register of the spec's register tables, with the place, width,
access code (R4), reset value and range of every field, and a name for every field that the machine reads or writes. -/
namespace Sys2Proof.Machine

/-- The access codes of Table 0.2 (R4). -/
inductive Acc where
  | ro | rw | w1c | wo | rc
deriving DecidableEq, Repr

/-- A field's reset value. Most are constants. -/
inductive RstVal where
  /-- the same value in every instance -/
  | const (v : Nat)
  /-- `a` in instance 0 and `b` in every other -/
  | inst0 (a b : Nat)
  /-- `a` in the first entry of the second index and `b` elsewhere -/
  | second0 (a b : Nat)
  /-- the channel's minimum window F of Table 13.1 -/
  | chanF
  /-- the channel's reservation of Table 13.5 -/
  | chanReserve
deriving DecidableEq, Repr

/-- The values that a write may put in a field: a write out of range leaves the field unchanged. -/
inductive Rng where
  | any
  | range (lo hi : Nat)
  /-- a signed field between minus `m` and `m` -/
  | signed (m : Nat)
  /-- sixteen two-bit values, each at most 2 -/
  | pairsLe2
  /-- below the value of the field at `lo`, `w` of the same register -/
  | below (lo w : Nat)
deriving DecidableEq, Repr

/-- One field of a register. -/
structure FieldRow where
  lo : Nat
  width : Nat
  acc : Acc
  reset : RstVal
  rng : Rng
deriving DecidableEq, Repr

/-- One register, or one family of registers at one or two strides. -/
structure RegRow where
  name : String
  base : Nat
  n1 : Nat
  s1 : Nat
  n2 : Nat
  s2 : Nat
  fields : List FieldRow
deriving DecidableEq, Repr

/-- A field by its place: the register's BAR0 offset, the field's lowest bit and its width. -/
structure FieldRef where
  off : Nat
  lo : Nat
  width : Nat
deriving DecidableEq, Repr

/-- The registers of the GLB window. -/
def regsGlb : List RegRow := [
  ⟨"GLB_PART_ID", 0x0, 1, 0x4000000, 1, 0x4000000, [⟨16, 16, .ro, .const 0x4B47, .any⟩, ⟨0, 16, .ro, .const 0x4E18, .any⟩]⟩,
  ⟨"GLB_SILICON_REV", 0x4, 1, 0x4000000, 1, 0x4000000, [⟨8, 8, .ro, .const 0x41, .any⟩, ⟨0, 8, .ro, .const 0x1, .any⟩]⟩,
  ⟨"GLB_FILAUX_VER", 0x8, 1, 0x4000000, 1, 0x4000000, [⟨16, 16, .ro, .const 0x1, .any⟩, ⟨0, 16, .ro, .const 0x0, .any⟩]⟩,
  ⟨"GLB_NODE_ID", 0xC, 1, 0x4000000, 1, 0x4000000, [⟨31, 1, .ro, .const 0x0, .any⟩, ⟨0, 6, .ro, .const 0x0, .any⟩]⟩,
  ⟨"GLB_SCRATCH", 0x10, 1, 0x4000000, 1, 0x4000000, [⟨0, 32, .rw, .const 0x0, .any⟩]⟩]

/-- The registers of the ACT window. -/
def regsAct : List RegRow := [
  ⟨"ACT_CTRL", 0x800000, 16, 0x80000, 1, 0x4000000, [⟨0, 1, .rw, .inst0 1 0, .any⟩, ⟨1, 1, .rw, .const 0x0, .any⟩, ⟨16, 16, .rw, .const 0x1000, .any⟩]⟩,
  ⟨"ACT_STATUS", 0x800004, 16, 0x80000, 1, 0x4000000, [⟨0, 1, .ro, .const 0x1, .any⟩, ⟨1, 1, .ro, .inst0 1 0, .any⟩, ⟨2, 1, .w1c, .const 0x0, .any⟩, ⟨8, 9, .ro, .const 0x0, .any⟩, ⟨17, 15, .ro, .const 0x0, .any⟩]⟩,
  ⟨"ACT_SNAP_WAIT", 0x800008, 16, 0x80000, 1, 0x4000000, [⟨0, 32, .rw, .const 0x4000, .any⟩]⟩,
  ⟨"ACT_FAULT_CAUSE", 0x800010, 16, 0x80000, 1, 0x4000000, [⟨0, 8, .ro, .const 0x0, .any⟩, ⟨8, 5, .ro, .const 0x0, .any⟩, ⟨13, 7, .ro, .const 0x0, .any⟩, ⟨20, 6, .ro, .const 0x0, .any⟩, ⟨26, 4, .ro, .const 0x0, .any⟩]⟩,
  ⟨"ACT_FAULT_WORD_LO", 0x800018, 16, 0x80000, 1, 0x4000000, [⟨0, 17, .ro, .const 0x0, .any⟩]⟩,
  ⟨"ACT_FAULT_WORD_HI", 0x80001C, 16, 0x80000, 1, 0x4000000, [⟨0, 32, .ro, .const 0x0, .any⟩]⟩,
  ⟨"ACT_FAULT_ADDR_LO", 0x800020, 16, 0x80000, 1, 0x4000000, [⟨0, 32, .ro, .const 0x0, .any⟩]⟩,
  ⟨"ACT_FAULT_ADDR_HI", 0x800024, 16, 0x80000, 1, 0x4000000, [⟨0, 20, .ro, .const 0x0, .any⟩]⟩,
  ⟨"ACT_FAULT_JOB_LO", 0x800028, 16, 0x80000, 1, 0x4000000, [⟨0, 32, .ro, .const 0x0, .any⟩]⟩,
  ⟨"ACT_FAULT_JOB_HI", 0x80002C, 16, 0x80000, 1, 0x4000000, [⟨0, 32, .ro, .const 0x0, .any⟩]⟩,
  ⟨"ACT_DEGRADE_COUNT", 0x800030, 16, 0x80000, 1, 0x4000000, [⟨0, 32, .rc, .const 0x0, .any⟩]⟩,
  ⟨"ACT_REGIONn_BASE_LO", 0x800100, 16, 0x80000, 32, 0x10, [⟨12, 20, .rw, .const 0x0, .any⟩]⟩,
  ⟨"ACT_REGIONn_BASE_HI", 0x800104, 16, 0x80000, 32, 0x10, [⟨0, 14, .rw, .const 0x0, .any⟩]⟩,
  ⟨"ACT_REGIONn_SIZE", 0x800108, 16, 0x80000, 32, 0x10, [⟨0, 32, .rw, .const 0x0, .any⟩]⟩,
  ⟨"ACT_REGIONn_ATTR", 0x80010C, 16, 0x80000, 32, 0x10, [⟨0, 1, .rw, .const 0x0, .any⟩, ⟨1, 1, .rw, .const 0x0, .any⟩, ⟨2, 1, .rw, .const 0x0, .any⟩]⟩]

/-- The registers of the CREW window. -/
def regsCrew : List RegRow := [
  ⟨"CREW_STATUS", 0x1000000, 16, 0x10000, 1, 0x4000000, [⟨0, 3, .ro, .const 0x4, .any⟩, ⟨3, 1, .ro, .const 0x0, .any⟩, ⟨4, 4, .ro, .const 0xC, .any⟩, ⟨8, 1, .ro, .const 0x0, .any⟩, ⟨9, 1, .ro, .const 0x1, .any⟩, ⟨10, 1, .ro, .const 0x0, .any⟩]⟩,
  ⟨"CREW_CORE_MAP", 0x1000004, 16, 0x10000, 1, 0x4000000, [⟨0, 5, .ro, .const 0xF, .any⟩, ⟨5, 5, .ro, .const 0x0, .any⟩]⟩,
  ⟨"CREW_HEW_MAP", 0x1000008, 16, 0x10000, 1, 0x4000000, [⟨0, 13, .ro, .const 0xFFF, .any⟩]⟩,
  ⟨"CREW_HEW_FAILED", 0x100000C, 16, 0x10000, 1, 0x4000000, [⟨0, 13, .ro, .const 0x0, .any⟩]⟩,
  ⟨"CREW_SLICE", 0x1000010, 16, 0x10000, 1, 0x4000000, [⟨0, 8, .ro, .const 0x0, .any⟩, ⟨8, 4, .ro, .const 0x0, .any⟩, ⟨15, 1, .ro, .const 0x0, .any⟩]⟩,
  ⟨"CREW_STORE_USE", 0x1000014, 16, 0x10000, 1, 0x4000000, [⟨0, 12, .ro, .const 0x0, .any⟩, ⟨16, 12, .ro, .const 0x0, .any⟩]⟩,
  ⟨"CREW_SAT_COUNT", 0x1000018, 16, 0x10000, 1, 0x4000000, [⟨0, 32, .rc, .const 0x0, .any⟩]⟩,
  ⟨"CREW_CTRL", 0x100001C, 16, 0x10000, 1, 0x4000000, [⟨0, 1, .rw, .const 0x0, .any⟩]⟩,
  ⟨"CREW_MMA_LO", 0x1000020, 16, 0x10000, 1, 0x4000000, [⟨0, 32, .ro, .const 0x0, .any⟩]⟩,
  ⟨"CREW_MMA_HI", 0x1000024, 16, 0x10000, 1, 0x4000000, [⟨0, 32, .ro, .const 0x0, .any⟩]⟩,
  ⟨"CREW_SPARE", 0x1000028, 16, 0x10000, 1, 0x4000000, [⟨0, 4, .wo, .const 0x0, .any⟩, ⟨4, 1, .wo, .const 0x0, .any⟩, ⟨8, 3, .wo, .const 0x0, .any⟩, ⟨11, 1, .wo, .const 0x0, .any⟩]⟩]

/-- The registers of the CRU window. -/
def regsCru : List RegRow := [
  ⟨"CRU_CTRL", 0x1C00000, 1, 0x4000000, 1, 0x4000000, [⟨0, 1, .rw, .const 0x1, .any⟩]⟩,
  ⟨"CRU_STATUS", 0x1C00004, 1, 0x4000000, 1, 0x4000000, [⟨0, 3, .ro, .const 0x0, .any⟩, ⟨4, 8, .ro, .const 0x0, .any⟩, ⟨12, 8, .ro, .const 0x0, .any⟩]⟩,
  ⟨"CRU_DAMAGE", 0x1C00008, 1, 0x4000000, 1, 0x4000000, [⟨0, 1, .w1c, .const 0x0, .any⟩, ⟨1, 4, .ro, .const 0x0, .any⟩, ⟨5, 3, .ro, .const 0x0, .any⟩, ⟨8, 4, .ro, .const 0x0, .any⟩, ⟨12, 6, .ro, .const 0x0, .any⟩]⟩,
  ⟨"CRU_DAMAGE_COUNT", 0x1C0000C, 1, 0x4000000, 1, 0x4000000, [⟨0, 32, .rc, .const 0x0, .any⟩]⟩,
  ⟨"CRU_PACK_IN_LO", 0x1C00010, 1, 0x4000000, 1, 0x4000000, [⟨0, 32, .ro, .const 0x0, .any⟩]⟩,
  ⟨"CRU_PACK_IN_HI", 0x1C00014, 1, 0x4000000, 1, 0x4000000, [⟨0, 32, .ro, .const 0x0, .any⟩]⟩,
  ⟨"CRU_PACK_OUT_LO", 0x1C00018, 1, 0x4000000, 1, 0x4000000, [⟨0, 32, .ro, .const 0x0, .any⟩]⟩,
  ⟨"CRU_PACK_OUT_HI", 0x1C0001C, 1, 0x4000000, 1, 0x4000000, [⟨0, 32, .ro, .const 0x0, .any⟩]⟩,
  ⟨"CRU_RAW_KEPT", 0x1C00020, 1, 0x4000000, 1, 0x4000000, [⟨0, 32, .rc, .const 0x0, .any⟩]⟩,
  ⟨"CRU_ATUSE_COUNT", 0x1C00024, 1, 0x4000000, 1, 0x4000000, [⟨0, 32, .rc, .const 0x0, .any⟩]⟩,
  ⟨"CRU_QNT_DRIFT_COUNT", 0x1C00100, 1, 0x4000000, 1, 0x4000000, [⟨0, 32, .rc, .const 0x0, .any⟩]⟩,
  ⟨"CRU_QNT_ADAPT_COUNT", 0x1C00104, 1, 0x4000000, 1, 0x4000000, [⟨0, 32, .rc, .const 0x0, .any⟩]⟩,
  ⟨"CRU_QNT_RERUN_COUNT", 0x1C00108, 1, 0x4000000, 1, 0x4000000, [⟨0, 32, .rc, .const 0x0, .any⟩]⟩,
  ⟨"CRU_QNT_SAT_COUNT", 0x1C0010C, 1, 0x4000000, 1, 0x4000000, [⟨0, 32, .rc, .const 0x0, .any⟩]⟩,
  ⟨"CRU_QNT_NONFINITE_COUNT", 0x1C00110, 1, 0x4000000, 1, 0x4000000, [⟨0, 32, .rc, .const 0x0, .any⟩]⟩]

/-- The registers of the WNZ window. -/
def regsWnz : List RegRow := [
  ⟨"WNZ_STATUS", 0x1400000, 24, 0x4000, 1, 0x4000000, [⟨0, 3, .ro, .const 0x4, .any⟩, ⟨3, 1, .ro, .const 0x0, .any⟩, ⟨4, 1, .ro, .const 0x0, .any⟩, ⟨5, 1, .ro, .const 0x0, .any⟩, ⟨8, 7, .ro, .const 0x0, .any⟩, ⟨16, 9, .ro, .const 0x0, .any⟩]⟩,
  ⟨"WNZ_UNIT_MAP", 0x1400004, 24, 0x4000, 1, 0x4000000, [⟨0, 5, .ro, .const 0xF, .any⟩, ⟨5, 5, .ro, .const 0x0, .any⟩]⟩,
  ⟨"WNZ_CTRL", 0x1400008, 24, 0x4000, 1, 0x4000000, [⟨0, 7, .rw, .const 0x10, .range 1 64⟩, ⟨8, 1, .rw, .const 0x0, .any⟩]⟩,
  ⟨"WNZ_SPARE", 0x140000C, 24, 0x4000, 1, 0x4000000, [⟨0, 3, .wo, .const 0x0, .any⟩, ⟨3, 1, .wo, .const 0x0, .any⟩]⟩,
  ⟨"WNZ_HOLD_COUNT", 0x1400010, 24, 0x4000, 1, 0x4000000, [⟨0, 32, .rc, .const 0x0, .any⟩]⟩,
  ⟨"WNZ_ROWWAIT_MAX", 0x1400014, 24, 0x4000, 1, 0x4000000, [⟨0, 16, .rc, .const 0x0, .any⟩]⟩,
  ⟨"WNZ_CORRECTED", 0x1400018, 24, 0x4000, 1, 0x4000000, [⟨0, 32, .rc, .const 0x0, .any⟩]⟩,
  ⟨"WNZ_UNCORR", 0x140001C, 24, 0x4000, 1, 0x4000000, [⟨0, 32, .rc, .const 0x0, .any⟩]⟩,
  ⟨"WNZ_CMD_LO", 0x1400020, 24, 0x4000, 1, 0x4000000, [⟨0, 32, .ro, .const 0x0, .any⟩]⟩,
  ⟨"WNZ_CMD_HI", 0x1400024, 24, 0x4000, 1, 0x4000000, [⟨0, 32, .ro, .const 0x0, .any⟩]⟩,
  ⟨"WNZ_SUBQ_LO", 0x1400028, 24, 0x4000, 1, 0x4000000, [⟨0, 32, .ro, .const 0x0, .any⟩]⟩,
  ⟨"WNZ_SUBQ_HI", 0x140002C, 24, 0x4000, 1, 0x4000000, [⟨0, 32, .ro, .const 0x0, .any⟩]⟩,
  ⟨"WNZ_RESEND", 0x1400030, 24, 0x4000, 1, 0x4000000, [⟨0, 32, .rc, .const 0x0, .any⟩]⟩,
  ⟨"WNZ_FAULT", 0x1400034, 24, 0x4000, 1, 0x4000000, [⟨0, 1, .w1c, .const 0x0, .any⟩, ⟨1, 2, .ro, .const 0x0, .any⟩, ⟨4, 4, .ro, .const 0x0, .any⟩, ⟨8, 8, .ro, .const 0x0, .any⟩]⟩]

/-- The registers of the MEM window. -/
def regsMem : List RegRow := [
  ⟨"MEM_CTRL", 0x1800000, 1, 0x4000000, 1, 0x4000000, [⟨0, 1, .rw, .const 0x1, .any⟩, ⟨1, 1, .rw, .const 0x1, .any⟩, ⟨2, 1, .rw, .const 0x1, .any⟩]⟩,
  ⟨"MEM_STATUS", 0x1800004, 1, 0x4000000, 1, 0x4000000, [⟨0, 1, .w1c, .const 0x0, .any⟩, ⟨1, 1, .w1c, .const 0x0, .any⟩, ⟨2, 1, .w1c, .const 0x0, .any⟩, ⟨3, 1, .ro, .const 0x0, .any⟩, ⟨4, 1, .ro, .const 0x0, .any⟩]⟩,
  ⟨"MEM_POOL", 0x1800008, 1, 0x4000000, 1, 0x4000000, [⟨0, 8, .rw, .const 0x70, .range 0 128⟩]⟩,
  ⟨"MEM_SCRUB", 0x180000C, 1, 0x4000000, 1, 0x4000000, [⟨0, 6, .rw, .const 0x24, .range 28 38⟩, ⟨8, 6, .rw, .const 0x1C, .range 20 32⟩, ⟨16, 6, .rw, .const 0x4, .range 1 32⟩]⟩,
  ⟨"MEM_CORR_COUNT", 0x1800010, 1, 0x4000000, 1, 0x4000000, [⟨0, 32, .rc, .const 0x0, .any⟩]⟩,
  ⟨"MEM_UNCORR_COUNT", 0x1800014, 1, 0x4000000, 1, 0x4000000, [⟨0, 32, .rc, .const 0x0, .any⟩]⟩,
  ⟨"MEM_ROWS_RETIRED", 0x1800018, 1, 0x4000000, 1, 0x4000000, [⟨0, 16, .ro, .const 0x0, .any⟩, ⟨16, 16, .ro, .const 0x0, .any⟩]⟩,
  ⟨"MEM_MOVE_ABANDON", 0x180001C, 1, 0x4000000, 1, 0x4000000, [⟨0, 32, .rc, .const 0x0, .any⟩]⟩,
  ⟨"MEM_ERR", 0x1800020, 1, 0x4000000, 1, 0x4000000, [⟨0, 1, .w1c, .const 0x0, .any⟩, ⟨1, 1, .ro, .const 0x0, .any⟩, ⟨2, 2, .ro, .const 0x0, .any⟩, ⟨4, 1, .ro, .const 0x0, .any⟩, ⟨5, 5, .ro, .const 0x0, .any⟩, ⟨10, 5, .ro, .const 0x0, .any⟩, ⟨15, 4, .ro, .const 0x0, .any⟩, ⟨19, 5, .ro, .const 0x0, .any⟩]⟩,
  ⟨"MEM_ERR_ADDR_LO", 0x1800028, 1, 0x4000000, 1, 0x4000000, [⟨6, 26, .ro, .const 0x0, .any⟩]⟩,
  ⟨"MEM_ERR_ADDR_HI", 0x180002C, 1, 0x4000000, 1, 0x4000000, [⟨0, 14, .ro, .const 0x0, .any⟩]⟩,
  ⟨"MEM_FLIP_CTRL", 0x1800030, 1, 0x4000000, 1, 0x4000000, [⟨0, 1, .rw, .const 0x0, .any⟩, ⟨1, 2, .rw, .const 0x0, .range 0 2⟩, ⟨3, 5, .rw, .const 0x0, .any⟩, ⟨8, 5, .rw, .const 0x0, .any⟩, ⟨13, 1, .rw, .const 0x0, .any⟩, ⟨14, 1, .w1c, .const 0x0, .any⟩, ⟨16, 4, .rw, .const 0x0, .any⟩]⟩,
  ⟨"MEM_FLIP_MASK", 0x1800034, 1, 0x4000000, 1, 0x4000000, [⟨0, 32, .rw, .const 0x0, .any⟩]⟩,
  ⟨"MEM_FLIP_CHECK_ROW", 0x1800038, 1, 0x4000000, 1, 0x4000000, [⟨0, 16, .rw, .const 0x0, .any⟩]⟩,
  ⟨"MEM_FLIP_CHECK_COL", 0x180003C, 1, 0x4000000, 1, 0x4000000, [⟨0, 32, .rw, .const 0x0, .any⟩]⟩,
  ⟨"MEM_FLIP_ADDR_LO", 0x1800040, 1, 0x4000000, 1, 0x4000000, [⟨6, 26, .rw, .const 0x0, .any⟩]⟩,
  ⟨"MEM_FLIP_ADDR_HI", 0x1800044, 1, 0x4000000, 1, 0x4000000, [⟨0, 14, .rw, .const 0x0, .any⟩]⟩,
  ⟨"MEM_FLIP_HIT_LO", 0x1800048, 1, 0x4000000, 1, 0x4000000, [⟨6, 26, .ro, .const 0x0, .any⟩]⟩,
  ⟨"MEM_FLIP_HIT_HI", 0x180004C, 1, 0x4000000, 1, 0x4000000, [⟨0, 14, .ro, .const 0x0, .any⟩]⟩,
  ⟨"MEM_SPARE", 0x1800050, 1, 0x4000000, 1, 0x4000000, [⟨0, 5, .wo, .const 0x0, .any⟩, ⟨5, 5, .wo, .const 0x0, .any⟩, ⟨10, 1, .wo, .const 0x0, .any⟩, ⟨11, 1, .wo, .const 0x0, .any⟩]⟩,
  ⟨"MEM_STACKs_STATUS", 0x1801000, 24, 0x10, 1, 0x4000000, [⟨0, 2, .ro, .const 0x2, .any⟩, ⟨2, 1, .ro, .const 0x0, .any⟩, ⟨3, 5, .ro, .const 0x0, .any⟩, ⟨8, 1, .ro, .const 0x0, .any⟩, ⟨9, 5, .ro, .const 0x0, .any⟩, ⟨16, 16, .ro, .const 0x20, .any⟩]⟩,
  ⟨"MEM_STACKs_SUB", 0x1801004, 24, 0x10, 1, 0x4000000, [⟨0, 5, .ro, .const 0x0, .any⟩, ⟨5, 1, .ro, .const 0x0, .any⟩, ⟨8, 5, .ro, .const 0x0, .any⟩, ⟨13, 1, .ro, .const 0x0, .any⟩]⟩,
  ⟨"MEM_STACKs_LOST", 0x1801008, 24, 0x10, 1, 0x4000000, [⟨0, 32, .ro, .const 0x0, .any⟩]⟩,
  ⟨"MEM_CREWc_STATUS", 0x1801200, 16, 0x4, 1, 0x4000000, [⟨0, 5, .ro, .const 0x10, .any⟩, ⟨16, 16, .ro, .const 0x0, .any⟩]⟩,
  ⟨"MEM_Qa_STACK", 0x1802000, 16, 0x20, 1, 0x4000000, [⟨0, 32, .rw, .inst0 3221225472 0, .range 0 3221225472⟩]⟩,
  ⟨"MEM_Qa_EXPAND", 0x1802004, 16, 0x20, 1, 0x4000000, [⟨0, 32, .rw, .const 0x0, .any⟩]⟩,
  ⟨"MEM_Qa_CREW", 0x1802008, 16, 0x20, 1, 0x4000000, [⟨0, 20, .rw, .inst0 786432 0, .range 0 786432⟩]⟩,
  ⟨"MEM_Qa_CACHE", 0x180200C, 16, 0x20, 1, 0x4000000, [⟨0, 32, .rw, .const 0x0, .any⟩]⟩,
  ⟨"MEM_Ua_STACK", 0x1802010, 16, 0x20, 1, 0x4000000, [⟨0, 32, .ro, .const 0x0, .any⟩]⟩,
  ⟨"MEM_Ua_EXPAND", 0x1802014, 16, 0x20, 1, 0x4000000, [⟨0, 32, .ro, .const 0x0, .any⟩]⟩,
  ⟨"MEM_Ua_CREW", 0x1802018, 16, 0x20, 1, 0x4000000, [⟨0, 20, .ro, .const 0x0, .any⟩]⟩,
  ⟨"MEM_Ua_CACHE", 0x180201C, 16, 0x20, 1, 0x4000000, [⟨0, 32, .ro, .const 0x0, .any⟩]⟩]

/-- The registers of the ADT window. -/
def regsAdt : List RegRow := [
  ⟨"ADT_CTRL", 0x2000000, 1, 0x4000000, 1, 0x4000000, [⟨0, 1, .rw, .const 0x1, .any⟩, ⟨1, 1, .rw, .const 0x0, .any⟩, ⟨2, 1, .rw, .const 0x1, .any⟩]⟩,
  ⟨"ADT_STATUS", 0x2000004, 1, 0x4000000, 1, 0x4000000, [⟨0, 1, .ro, .const 0x0, .any⟩, ⟨1, 1, .ro, .const 0x0, .any⟩, ⟨2, 1, .ro, .const 0x0, .any⟩, ⟨3, 1, .w1c, .const 0x0, .any⟩, ⟨4, 1, .ro, .const 0x0, .any⟩, ⟨5, 1, .ro, .const 0x0, .any⟩, ⟨6, 1, .ro, .const 0x0, .any⟩, ⟨8, 9, .ro, .const 0x0, .any⟩]⟩,
  ⟨"ADT_RECOVERY", 0x2000008, 1, 0x4000000, 1, 0x4000000, [⟨0, 2, .ro, .const 0x0, .any⟩, ⟨2, 1, .ro, .const 0x0, .any⟩, ⟨16, 16, .ro, .const 0x0, .any⟩]⟩,
  ⟨"ADT_CHAN_PRESENT", 0x200000C, 1, 0x4000000, 1, 0x4000000, [⟨0, 32, .ro, .const 0x0, .any⟩]⟩,
  ⟨"ADT_GEOM", 0x2000010, 1, 0x4000000, 1, 0x4000000, [⟨0, 5, .ro, .const 0x0, .any⟩, ⟨5, 3, .ro, .const 0x0, .any⟩, ⟨8, 8, .ro, .const 0x0, .any⟩]⟩,
  ⟨"ADT_RAW_GB", 0x2000014, 1, 0x4000000, 1, 0x4000000, [⟨0, 32, .ro, .const 0x0, .any⟩]⟩,
  ⟨"ADT_LOGICAL_GIB", 0x2000018, 1, 0x4000000, 1, 0x4000000, [⟨0, 32, .ro, .const 0x0, .any⟩]⟩,
  ⟨"ADT_BOUND_GIB", 0x200001C, 1, 0x4000000, 1, 0x4000000, [⟨0, 32, .ro, .const 0x0, .any⟩]⟩,
  ⟨"ADT_SLC_CAP_MIB", 0x2000020, 1, 0x4000000, 1, 0x4000000, [⟨0, 32, .ro, .const 0x0, .any⟩]⟩,
  ⟨"ADT_SLC_USED_MIB", 0x2000024, 1, 0x4000000, 1, 0x4000000, [⟨0, 32, .ro, .const 0x0, .any⟩]⟩,
  ⟨"ADT_OP", 0x2000028, 1, 0x4000000, 1, 0x4000000, [⟨0, 10, .ro, .const 0x0, .any⟩]⟩,
  ⟨"ADT_WSEQ_LO", 0x2000030, 1, 0x4000000, 1, 0x4000000, [⟨0, 32, .ro, .const 0x0, .any⟩]⟩,
  ⟨"ADT_WSEQ_HI", 0x2000034, 1, 0x4000000, 1, 0x4000000, [⟨0, 32, .ro, .const 0x0, .any⟩]⟩,
  ⟨"ADT_FLUSH_LO", 0x2000038, 1, 0x4000000, 1, 0x4000000, [⟨0, 32, .ro, .const 0x0, .any⟩]⟩,
  ⟨"ADT_FLUSH_HI", 0x200003C, 1, 0x4000000, 1, 0x4000000, [⟨0, 32, .ro, .const 0x0, .any⟩]⟩,
  ⟨"ADT_ERR", 0x2000040, 1, 0x4000000, 1, 0x4000000, [⟨0, 1, .w1c, .const 0x0, .any⟩, ⟨1, 5, .ro, .const 0x0, .any⟩, ⟨6, 4, .ro, .const 0x0, .any⟩, ⟨10, 2, .ro, .const 0x0, .any⟩, ⟨12, 4, .ro, .const 0x0, .any⟩]⟩,
  ⟨"ADT_UNCORR_COUNT", 0x2000044, 1, 0x4000000, 1, 0x4000000, [⟨0, 32, .rc, .const 0x0, .any⟩]⟩,
  ⟨"ADT_REBUILT_COUNT", 0x2000048, 1, 0x4000000, 1, 0x4000000, [⟨0, 32, .rc, .const 0x0, .any⟩]⟩,
  ⟨"ADT_RETRY_COUNT", 0x200004C, 1, 0x4000000, 1, 0x4000000, [⟨0, 32, .rc, .const 0x0, .any⟩]⟩,
  ⟨"ADT_WEAR", 0x2000050, 1, 0x4000000, 1, 0x4000000, [⟨0, 16, .ro, .const 0x0, .any⟩, ⟨16, 16, .ro, .const 0x0, .any⟩]⟩,
  ⟨"ADT_RETIRED", 0x2000054, 1, 0x4000000, 1, 0x4000000, [⟨0, 16, .ro, .const 0x0, .any⟩, ⟨16, 9, .ro, .const 0x0, .any⟩]⟩,
  ⟨"ADT_DIE_RETIRE", 0x2000058, 1, 0x4000000, 1, 0x4000000, [⟨0, 5, .wo, .const 0x0, .any⟩, ⟨5, 4, .wo, .const 0x0, .any⟩, ⟨9, 1, .wo, .const 0x0, .any⟩]⟩,
  ⟨"ADT_ACTa_SEG", 0x2001000, 16, 0x10, 1, 0x4000000, [⟨0, 9, .rw, .inst0 256 16, .range 0 256⟩, ⟨16, 9, .ro, .const 0x0, .any⟩, ⟨25, 1, .ro, .const 0x0, .any⟩]⟩,
  ⟨"ADT_ACTa_BOUND", 0x2001004, 16, 0x10, 1, 0x4000000, [⟨0, 21, .ro, .const 0x0, .any⟩]⟩,
  ⟨"ADT_CHc_STATUS", 0x2002000, 32, 0x4, 1, 0x4000000, [⟨0, 16, .ro, .const 0x0, .any⟩, ⟨16, 16, .ro, .const 0x0, .any⟩]⟩]

/-- The registers of the CAR window. -/
def regsCar : List RegRow := [
  ⟨"CAR_CTRL", 0x2800000, 1, 0x4000000, 1, 0x4000000, [⟨0, 1, .rw, .const 0x0, .any⟩, ⟨1, 1, .rw, .const 0x1, .any⟩, ⟨2, 1, .wo, .const 0x0, .any⟩, ⟨8, 8, .rw, .const 0x10, .range 1 255⟩, ⟨16, 4, .rw, .const 0x8, .range 1 15⟩]⟩,
  ⟨"CAR_STATUS", 0x2800004, 1, 0x4000000, 1, 0x4000000, [⟨0, 3, .ro, .const 0x0, .any⟩, ⟨3, 1, .ro, .const 0x1, .any⟩, ⟨4, 4, .ro, .const 0x0, .any⟩, ⟨8, 1, .ro, .const 0x0, .any⟩, ⟨9, 1, .ro, .const 0x0, .any⟩]⟩,
  ⟨"CAR_CFG", 0x2800008, 1, 0x4000000, 1, 0x4000000, [⟨0, 7, .rw, .const 0x1, .range 1 64⟩, ⟨8, 6, .rw, .const 0x0, .below 0 7⟩, ⟨16, 4, .rw, .const 0xF, .any⟩]⟩,
  ⟨"CAR_ADMIT", 0x280000C, 1, 0x4000000, 1, 0x4000000, [⟨0, 6, .wo, .const 0x0, .any⟩, ⟨6, 1, .wo, .const 0x0, .any⟩, ⟨7, 1, .wo, .const 0x0, .any⟩]⟩,
  ⟨"CAR_ADMIT_BEAT_LO", 0x2800010, 1, 0x4000000, 1, 0x4000000, [⟨0, 32, .rw, .const 0x0, .any⟩]⟩,
  ⟨"CAR_ADMIT_BEAT_HI", 0x2800014, 1, 0x4000000, 1, 0x4000000, [⟨0, 32, .rw, .const 0x0, .any⟩]⟩,
  ⟨"CAR_MEMBERS_LO", 0x2800018, 1, 0x4000000, 1, 0x4000000, [⟨0, 32, .ro, .const 0x0, .any⟩]⟩,
  ⟨"CAR_MEMBERS_HI", 0x280001C, 1, 0x4000000, 1, 0x4000000, [⟨0, 32, .ro, .const 0x0, .any⟩]⟩,
  ⟨"CAR_BYPASSED_LO", 0x2800020, 1, 0x4000000, 1, 0x4000000, [⟨0, 32, .ro, .const 0x0, .any⟩]⟩,
  ⟨"CAR_BYPASSED_HI", 0x2800024, 1, 0x4000000, 1, 0x4000000, [⟨0, 32, .ro, .const 0x0, .any⟩]⟩,
  ⟨"CAR_ERR", 0x2800028, 1, 0x4000000, 1, 0x4000000, [⟨0, 1, .w1c, .const 0x0, .any⟩, ⟨1, 3, .ro, .const 0x0, .any⟩, ⟨4, 6, .ro, .const 0x0, .any⟩, ⟨10, 4, .ro, .const 0x0, .any⟩]⟩,
  ⟨"CAR_COPY_BASE_LO", 0x2800030, 1, 0x4000000, 1, 0x4000000, [⟨12, 20, .rw, .const 0x0, .any⟩]⟩,
  ⟨"CAR_COPY_BASE_HI", 0x2800034, 1, 0x4000000, 1, 0x4000000, [⟨0, 14, .rw, .const 0x0, .any⟩]⟩,
  ⟨"CAR_COPY_SIZE", 0x2800038, 1, 0x4000000, 1, 0x4000000, [⟨0, 17, .rw, .const 0x0, .range 0 65536⟩]⟩,
  ⟨"CAR_KEY_NAK_COUNT", 0x2800040, 1, 0x4000000, 1, 0x4000000, [⟨0, 32, .rc, .const 0x0, .any⟩]⟩,
  ⟨"CAR_REPLAY_COUNT", 0x2800044, 1, 0x4000000, 1, 0x4000000, [⟨0, 32, .rc, .const 0x0, .any⟩]⟩,
  ⟨"CAR_DUP_COUNT", 0x2800048, 1, 0x4000000, 1, 0x4000000, [⟨0, 32, .rc, .const 0x0, .any⟩]⟩,
  ⟨"CAR_INV_COUNT", 0x280004C, 1, 0x4000000, 1, 0x4000000, [⟨0, 32, .rc, .const 0x0, .any⟩]⟩,
  ⟨"CAR_LINKl_STATUS", 0x2801000, 8, 0x20, 1, 0x4000000, [⟨0, 1, .ro, .const 0x0, .any⟩, ⟨1, 1, .ro, .const 0x0, .any⟩, ⟨2, 9, .ro, .const 0x0, .any⟩, ⟨11, 4, .ro, .const 0x0, .any⟩, ⟨15, 1, .ro, .const 0x0, .any⟩, ⟨16, 1, .ro, .const 0x0, .any⟩, ⟨17, 1, .ro, .const 0x0, .any⟩]⟩,
  ⟨"CAR_LINKl_CTRL", 0x2801004, 8, 0x20, 1, 0x4000000, [⟨0, 4, .wo, .const 0x0, .any⟩, ⟨4, 1, .wo, .const 0x0, .any⟩, ⟨5, 1, .wo, .const 0x0, .any⟩]⟩,
  ⟨"CAR_LINKl_FEC_CORR", 0x2801008, 8, 0x20, 1, 0x4000000, [⟨0, 32, .rc, .const 0x0, .any⟩]⟩,
  ⟨"CAR_LINKl_FEC_UNCORR", 0x280100C, 8, 0x20, 1, 0x4000000, [⟨0, 32, .rc, .const 0x0, .any⟩]⟩,
  ⟨"CAR_LINKl_RETRY", 0x2801010, 8, 0x20, 1, 0x4000000, [⟨0, 32, .rc, .const 0x0, .any⟩]⟩,
  ⟨"CAR_LINKl_POWER", 0x2801014, 8, 0x20, 1, 0x4000000, [⟨0, 16, .ro, .const 0x0, .any⟩, ⟨16, 16, .ro, .const 0x0, .any⟩]⟩,
  ⟨"CAR_ACTa_EXPORTS", 0x2802000, 16, 0x10, 1, 0x4000000, [⟨0, 9, .ro, .const 0x0, .any⟩]⟩]

/-- The registers of the MDW window. -/
def regsMdw : List RegRow := [
  ⟨"MDW_ID", 0x3400000, 1, 0x4000000, 1, 0x4000000, [⟨0, 16, .rw, .const 0x0, .any⟩]⟩,
  ⟨"MDW_CTRL", 0x3400004, 1, 0x4000000, 1, 0x4000000, [⟨0, 16, .rw, .const 0x88B5, .any⟩, ⟨16, 8, .rw, .const 0x40, .range 1 255⟩, ⟨24, 4, .rw, .const 0x8, .range 1 15⟩]⟩,
  ⟨"MDW_ERR", 0x3400008, 1, 0x4000000, 1, 0x4000000, [⟨0, 1, .w1c, .const 0x0, .any⟩, ⟨1, 2, .ro, .const 0x0, .any⟩, ⟨3, 1, .ro, .const 0x0, .any⟩, ⟨4, 4, .ro, .const 0x0, .any⟩]⟩,
  ⟨"MDW_DROP_COUNT", 0x340000C, 1, 0x4000000, 1, 0x4000000, [⟨0, 32, .rc, .const 0x0, .any⟩]⟩,
  ⟨"MDW_pCTRL", 0x3401000, 2, 0x100, 1, 0x4000000, [⟨0, 1, .rw, .const 0x0, .any⟩, ⟨1, 2, .rw, .const 0x0, .range 0 2⟩, ⟨3, 1, .rw, .const 0x0, .any⟩, ⟨16, 14, .rw, .const 0x2400, .range 1518 9216⟩]⟩,
  ⟨"MDW_pSTATUS", 0x3401004, 2, 0x100, 1, 0x4000000, [⟨0, 1, .ro, .const 0x0, .any⟩, ⟨1, 1, .ro, .const 0x0, .any⟩, ⟨2, 1, .ro, .const 0x0, .any⟩, ⟨3, 1, .ro, .const 0x0, .any⟩]⟩,
  ⟨"MDW_pMAC_LO", 0x3401008, 2, 0x100, 1, 0x4000000, [⟨0, 32, .rw, .const 0x0, .any⟩]⟩,
  ⟨"MDW_pMAC_HI", 0x340100C, 2, 0x100, 1, 0x4000000, [⟨0, 16, .rw, .const 0x0, .any⟩]⟩,
  ⟨"MDW_pTX_FRAMES_LO", 0x3401010, 2, 0x100, 1, 0x4000000, [⟨0, 32, .ro, .const 0x0, .any⟩]⟩,
  ⟨"MDW_pTX_FRAMES_HI", 0x3401014, 2, 0x100, 1, 0x4000000, [⟨0, 32, .ro, .const 0x0, .any⟩]⟩,
  ⟨"MDW_pRX_FRAMES_LO", 0x3401018, 2, 0x100, 1, 0x4000000, [⟨0, 32, .ro, .const 0x0, .any⟩]⟩,
  ⟨"MDW_pRX_FRAMES_HI", 0x340101C, 2, 0x100, 1, 0x4000000, [⟨0, 32, .ro, .const 0x0, .any⟩]⟩,
  ⟨"MDW_pFCS_ERR", 0x3401020, 2, 0x100, 1, 0x4000000, [⟨0, 32, .rc, .const 0x0, .any⟩]⟩,
  ⟨"MDW_pFEC_UNCORR", 0x3401024, 2, 0x100, 1, 0x4000000, [⟨0, 32, .rc, .const 0x0, .any⟩]⟩,
  ⟨"MDW_pPFC_PAUSED", 0x3401028, 2, 0x100, 1, 0x4000000, [⟨0, 32, .rc, .const 0x0, .any⟩]⟩,
  ⟨"MDW_PTP_CTRL", 0x3402000, 1, 0x4000000, 1, 0x4000000, [⟨0, 1, .rw, .const 0x0, .any⟩, ⟨1, 1, .rw, .const 0x0, .any⟩, ⟨2, 8, .rw, .const 0x0, .any⟩]⟩,
  ⟨"MDW_PTP_TS_INFO", 0x3402004, 1, 0x4000000, 1, 0x4000000, [⟨0, 5, .ro, .const 0x0, .any⟩, ⟨5, 1, .w1c, .const 0x0, .any⟩, ⟨6, 1, .ro, .const 0x0, .any⟩, ⟨8, 4, .ro, .const 0x0, .any⟩, ⟨16, 16, .ro, .const 0x0, .any⟩]⟩,
  ⟨"MDW_PTP_TS_BEAT_LO", 0x3402008, 1, 0x4000000, 1, 0x4000000, [⟨0, 32, .ro, .const 0x0, .any⟩]⟩,
  ⟨"MDW_PTP_TS_BEAT_HI", 0x340200C, 1, 0x4000000, 1, 0x4000000, [⟨0, 32, .ro, .const 0x0, .any⟩]⟩,
  ⟨"MDW_PTP_TS_SUB", 0x3402010, 1, 0x4000000, 1, 0x4000000, [⟨0, 10, .ro, .const 0x0, .any⟩]⟩,
  ⟨"MDW_PTP_TS_POP", 0x3402014, 1, 0x4000000, 1, 0x4000000, [⟨0, 1, .wo, .const 0x0, .any⟩]⟩,
  ⟨"MDW_ACTa_KEY", 0x3403000, 16, 0x10, 1, 0x4000000, [⟨0, 32, .rw, .const 0x0, .any⟩]⟩,
  ⟨"MDW_ACTa_CTRL", 0x3403004, 16, 0x10, 1, 0x4000000, [⟨0, 1, .rw, .const 0x0, .any⟩]⟩]

/-- The registers of the RGM window. -/
def regsRgm : List RegRow := [
  ⟨"RGM_CTRL", 0x3000000, 1, 0x4000000, 1, 0x4000000, [⟨0, 1, .rw, .const 0x1, .any⟩, ⟨1, 1, .rw, .const 0x1, .any⟩, ⟨2, 1, .rw, .const 0x0, .any⟩]⟩,
  ⟨"RGM_ERR", 0x3000004, 1, 0x4000000, 1, 0x4000000, [⟨0, 1, .w1c, .const 0x0, .any⟩, ⟨1, 3, .ro, .const 0x0, .any⟩, ⟨4, 6, .ro, .const 0x0, .any⟩, ⟨10, 4, .ro, .const 0x0, .any⟩]⟩,
  ⟨"RGM_POOL_FREE", 0x3000008, 1, 0x4000000, 1, 0x4000000, [⟨0, 19, .ro, .const 0x40000, .any⟩]⟩,
  ⟨"RGM_POOL_SHARED", 0x300000C, 1, 0x4000000, 1, 0x4000000, [⟨0, 19, .ro, .const 0x20000, .any⟩]⟩,
  ⟨"RGM_PCP_MAP", 0x3000010, 1, 0x4000000, 1, 0x4000000, [⟨0, 12, .rw, .const 0x2CF, .any⟩]⟩,
  ⟨"RGM_SAMPLE_CTRL", 0x3000014, 1, 0x4000000, 1, 0x4000000, [⟨0, 5, .rw, .const 0x6, .range 0 16⟩, ⟨8, 5, .rw, .const 0xC, .range 8 24⟩]⟩,
  ⟨"RGM_SAMPLE_BASE_LO", 0x3000018, 1, 0x4000000, 1, 0x4000000, [⟨12, 20, .rw, .const 0x0, .any⟩]⟩,
  ⟨"RGM_SAMPLE_BASE_HI", 0x300001C, 1, 0x4000000, 1, 0x4000000, [⟨0, 14, .rw, .const 0x0, .any⟩]⟩,
  ⟨"RGM_SAMPLE_WR", 0x3000020, 1, 0x4000000, 1, 0x4000000, [⟨0, 32, .ro, .const 0x0, .any⟩]⟩,
  ⟨"RGM_SAMPLE_RD", 0x3000024, 1, 0x4000000, 1, 0x4000000, [⟨0, 32, .rw, .const 0x0, .any⟩]⟩,
  ⟨"RGM_SAMPLE_DROP", 0x3000028, 1, 0x4000000, 1, 0x4000000, [⟨0, 32, .rc, .const 0x0, .any⟩]⟩,
  ⟨"RGM_SAMPLE_CH_LO", 0x3000030, 1, 0x4000000, 1, 0x4000000, [⟨0, 32, .rw, .const 0x0, .any⟩]⟩,
  ⟨"RGM_SAMPLE_CH_HI", 0x3000034, 1, 0x4000000, 1, 0x4000000, [⟨0, 11, .rw, .const 0x0, .any⟩]⟩,
  ⟨"RGM_CHn_GCL_CTRL", 0x3001000, 43, 0x400, 1, 0x4000000, [⟨0, 7, .rw, .const 0x1, .range 1 64⟩, ⟨8, 16, .rw, .const 0x0, .range 0 65534⟩, ⟨24, 1, .rw, .const 0x0, .any⟩]⟩,
  ⟨"RGM_CHn_GCL_STATUS", 0x3001004, 43, 0x400, 1, 0x4000000, [⟨0, 6, .ro, .const 0x0, .any⟩, ⟨6, 1, .w1c, .const 0x0, .any⟩, ⟨7, 1, .w1c, .const 0x0, .any⟩]⟩,
  ⟨"RGM_CHn_TAKEOVER_LO", 0x3001008, 43, 0x400, 1, 0x4000000, [⟨0, 32, .rw, .const 0x0, .any⟩]⟩,
  ⟨"RGM_CHn_TAKEOVER_HI", 0x300100C, 43, 0x400, 1, 0x4000000, [⟨0, 32, .rw, .const 0x0, .any⟩]⟩,
  ⟨"RGM_CHn_ACTIVE_LO", 0x3001010, 43, 0x400, 1, 0x4000000, [⟨0, 32, .ro, .const 0x0, .any⟩]⟩,
  ⟨"RGM_CHn_ACTIVE_HI", 0x3001014, 43, 0x400, 1, 0x4000000, [⟨0, 32, .ro, .const 0x0, .any⟩]⟩,
  ⟨"RGM_CHn_RESERVE", 0x3001018, 43, 0x400, 1, 0x4000000, [⟨0, 19, .rw, .chanReserve, .any⟩]⟩,
  ⟨"RGM_CHn_MAX", 0x300101C, 43, 0x400, 1, 0x4000000, [⟨0, 19, .rw, .const 0x40000, .any⟩]⟩,
  ⟨"RGM_CHn_USED", 0x3001020, 43, 0x400, 1, 0x4000000, [⟨0, 19, .ro, .const 0x0, .any⟩]⟩,
  ⟨"RGM_CHn_HOLD_MAX", 0x3001024, 43, 0x400, 1, 0x4000000, [⟨0, 21, .rc, .const 0x0, .any⟩]⟩,
  ⟨"RGM_CHn_BOUND", 0x3001028, 43, 0x400, 1, 0x4000000, [⟨0, 21, .ro, .chanF, .any⟩]⟩,
  ⟨"RGM_CHn_PENDi", 0x3001100, 43, 0x400, 64, 0x4, [⟨0, 32, .rw, .const 0x0, .any⟩]⟩,
  ⟨"RGM_CHn_ACTIVEi", 0x3001200, 43, 0x400, 64, 0x4, [⟨0, 32, .ro, .second0 0x00700400 0, .any⟩]⟩,
  ⟨"RGM_MTRm_CTRL", 0x3020000, 192, 0x20, 1, 0x4000000, [⟨0, 2, .rw, .const 0x0, .range 0 2⟩, ⟨2, 1, .rw, .const 0x0, .any⟩, ⟨3, 1, .wo, .const 0x0, .any⟩]⟩,
  ⟨"RGM_MTRm_CIR", 0x3020004, 192, 0x20, 1, 0x4000000, [⟨0, 24, .rw, .const 0x0, .any⟩]⟩,
  ⟨"RGM_MTRm_PIR", 0x3020008, 192, 0x20, 1, 0x4000000, [⟨0, 24, .rw, .const 0x0, .any⟩]⟩,
  ⟨"RGM_MTRm_CBS", 0x302000C, 192, 0x20, 1, 0x4000000, [⟨0, 32, .rw, .const 0x0, .any⟩]⟩,
  ⟨"RGM_MTRm_PBS", 0x3020010, 192, 0x20, 1, 0x4000000, [⟨0, 32, .rw, .const 0x0, .any⟩]⟩,
  ⟨"RGM_MTRm_GREEN", 0x3020014, 192, 0x20, 1, 0x4000000, [⟨0, 32, .rc, .const 0x0, .any⟩]⟩,
  ⟨"RGM_MTRm_YELLOW", 0x3020018, 192, 0x20, 1, 0x4000000, [⟨0, 32, .rc, .const 0x0, .any⟩]⟩,
  ⟨"RGM_MTRm_RED", 0x302001C, 192, 0x20, 1, 0x4000000, [⟨0, 32, .rc, .const 0x0, .any⟩]⟩,
  ⟨"RGM_ACTa_SHARE", 0x3010000, 16, 0x10, 1, 0x4000000, [⟨0, 8, .rw, .const 0x10, .any⟩, ⟨8, 8, .rw, .const 0x10, .any⟩, ⟨16, 8, .rw, .const 0x10, .any⟩]⟩,
  ⟨"RGM_ACTa_POOL_MAX", 0x3010004, 16, 0x10, 1, 0x4000000, [⟨0, 19, .rw, .const 0x40000, .any⟩]⟩,
  ⟨"RGM_ACTa_POOL_USED", 0x3010008, 16, 0x10, 1, 0x4000000, [⟨0, 19, .ro, .const 0x0, .any⟩]⟩]

/-- The registers of the TAL window. -/
def regsTal : List RegRow := [
  ⟨"TAL_BEAT_LO", 0x100000, 1, 0x4000000, 1, 0x4000000, [⟨0, 32, .ro, .const 0x0, .any⟩]⟩,
  ⟨"TAL_BEAT_HI", 0x100004, 1, 0x4000000, 1, 0x4000000, [⟨0, 32, .ro, .const 0x0, .any⟩]⟩,
  ⟨"TAL_SUB", 0x100008, 1, 0x4000000, 1, 0x4000000, [⟨0, 10, .ro, .const 0x0, .any⟩]⟩,
  ⟨"TAL_CAL_CTRL", 0x100010, 1, 0x4000000, 1, 0x4000000, [⟨0, 1, .rw, .const 0x0, .any⟩, ⟨1, 2, .rw, .const 0x0, .range 0 2⟩, ⟨3, 1, .wo, .const 0x0, .any⟩]⟩,
  ⟨"TAL_STATUS", 0x100014, 1, 0x4000000, 1, 0x4000000, [⟨0, 1, .ro, .const 0x0, .any⟩, ⟨1, 1, .ro, .const 0x0, .any⟩, ⟨2, 1, .ro, .const 0x0, .any⟩, ⟨3, 1, .ro, .const 0x0, .any⟩, ⟨4, 1, .w1c, .const 0x0, .any⟩, ⟨5, 1, .w1c, .const 0x0, .any⟩, ⟨6, 6, .ro, .const 0x0, .any⟩]⟩,
  ⟨"TAL_RATE_ADJ", 0x100018, 1, 0x4000000, 1, 0x4000000, [⟨0, 32, .rw, .const 0x0, .signed 200000⟩]⟩,
  ⟨"TAL_PHASE_ERR", 0x10001C, 1, 0x4000000, 1, 0x4000000, [⟨0, 16, .ro, .const 0x0, .any⟩]⟩,
  ⟨"TAL_STABLE_LO", 0x100020, 1, 0x4000000, 1, 0x4000000, [⟨0, 32, .ro, .const 0x0, .any⟩]⟩,
  ⟨"TAL_STABLE_HI", 0x100024, 1, 0x4000000, 1, 0x4000000, [⟨0, 32, .ro, .const 0x0, .any⟩]⟩,
  ⟨"TAL_COMMITTED_LO", 0x100028, 1, 0x4000000, 1, 0x4000000, [⟨0, 32, .ro, .const 0x0, .any⟩]⟩,
  ⟨"TAL_COMMITTED_HI", 0x10002C, 1, 0x4000000, 1, 0x4000000, [⟨0, 32, .ro, .const 0x0, .any⟩]⟩,
  ⟨"TAL_HANDOVER_BEAT_LO", 0x100030, 1, 0x4000000, 1, 0x4000000, [⟨0, 32, .rw, .const 0x0, .any⟩]⟩,
  ⟨"TAL_HANDOVER_BEAT_HI", 0x100034, 1, 0x4000000, 1, 0x4000000, [⟨0, 32, .rw, .const 0x0, .any⟩]⟩,
  ⟨"TAL_WALL_BEAT_LO", 0x100040, 1, 0x4000000, 1, 0x4000000, [⟨0, 32, .rw, .const 0x0, .any⟩]⟩,
  ⟨"TAL_WALL_BEAT_HI", 0x100044, 1, 0x4000000, 1, 0x4000000, [⟨0, 32, .rw, .const 0x0, .any⟩]⟩,
  ⟨"TAL_WALL_SEC_LO", 0x100048, 1, 0x4000000, 1, 0x4000000, [⟨0, 32, .rw, .const 0x0, .any⟩]⟩,
  ⟨"TAL_WALL_SEC_HI", 0x10004C, 1, 0x4000000, 1, 0x4000000, [⟨0, 16, .rw, .const 0x0, .any⟩]⟩,
  ⟨"TAL_WALL_NS", 0x100050, 1, 0x4000000, 1, 0x4000000, [⟨0, 30, .rw, .const 0x0, .range 0 999999999⟩]⟩,
  ⟨"TAL_WALL_CTRL", 0x100054, 1, 0x4000000, 1, 0x4000000, [⟨0, 1, .wo, .const 0x0, .any⟩]⟩,
  ⟨"TAL_EVT_USED", 0x100060, 1, 0x4000000, 1, 0x4000000, [⟨0, 15, .ro, .const 0x0, .any⟩]⟩,
  ⟨"TAL_EVT_LATE", 0x100064, 1, 0x4000000, 1, 0x4000000, [⟨0, 32, .rc, .const 0x0, .any⟩]⟩,
  ⟨"TAL_EVT_NEXT_LO", 0x100068, 1, 0x4000000, 1, 0x4000000, [⟨0, 32, .ro, .const 0x0, .any⟩]⟩,
  ⟨"TAL_EVT_NEXT_HI", 0x10006C, 1, 0x4000000, 1, 0x4000000, [⟨0, 32, .ro, .const 0x0, .any⟩]⟩]

/-- The registers of the PWR window. -/
def regsPwr : List RegRow := [
  ⟨"PWR_CTRL", 0x300000, 1, 0x4000000, 1, 0x4000000, [⟨0, 1, .rw, .const 0x1, .any⟩, ⟨1, 1, .rw, .const 0x0, .any⟩, ⟨16, 16, .rw, .const 0x400, .any⟩]⟩,
  ⟨"PWR_STATUS", 0x300004, 1, 0x4000000, 1, 0x4000000, [⟨0, 1, .ro, .const 0x0, .any⟩, ⟨1, 1, .ro, .const 0x0, .any⟩]⟩,
  ⟨"PWR_CREW_MAX", 0x300008, 1, 0x4000000, 1, 0x4000000, [⟨0, 32, .rw, .const 0xAAAAAAAA, .pairsLe2⟩]⟩,
  ⟨"PWR_STACK_MAX", 0x30000C, 1, 0x4000000, 1, 0x4000000, [⟨0, 24, .rw, .const 0x0, .any⟩]⟩,
  ⟨"PWR_CREW_STATE", 0x300010, 1, 0x4000000, 1, 0x4000000, [⟨0, 32, .ro, .const 0x0, .any⟩]⟩,
  ⟨"PWR_STACK_STATE", 0x300014, 1, 0x4000000, 1, 0x4000000, [⟨0, 24, .ro, .const 0x0, .any⟩]⟩,
  ⟨"PWR_P4_REQ", 0x300018, 1, 0x4000000, 1, 0x4000000, [⟨0, 1, .wo, .const 0x0, .any⟩, ⟨1, 1, .wo, .const 0x0, .any⟩]⟩,
  ⟨"PWR_P4_WAKE_LO", 0x300020, 1, 0x4000000, 1, 0x4000000, [⟨0, 32, .rw, .const 0x0, .any⟩]⟩,
  ⟨"PWR_P4_WAKE_HI", 0x300024, 1, 0x4000000, 1, 0x4000000, [⟨0, 32, .rw, .const 0x0, .any⟩]⟩,
  ⟨"PWR_POWER", 0x300028, 1, 0x4000000, 1, 0x4000000, [⟨0, 16, .ro, .const 0x0, .any⟩]⟩,
  ⟨"PWR_WAKE_LATE", 0x30002C, 1, 0x4000000, 1, 0x4000000, [⟨0, 32, .rc, .const 0x0, .any⟩]⟩]

/-- The registers of the HIF window. -/
def regsHif : List RegRow := [
  ⟨"HIF_LINK_STATUS", 0x400000, 1, 0x4000000, 1, 0x4000000, [⟨0, 3, .ro, .const 0x0, .any⟩, ⟨3, 3, .ro, .const 0x0, .any⟩, ⟨6, 1, .ro, .const 0x0, .any⟩, ⟨7, 1, .ro, .const 0x0, .any⟩]⟩,
  ⟨"HIF_LINK_CTRL", 0x400004, 1, 0x4000000, 1, 0x4000000, [⟨0, 3, .rw, .const 0x7, .range 5 7⟩, ⟨3, 1, .rw, .const 0x1, .any⟩, ⟨4, 1, .rw, .const 0x1, .any⟩]⟩,
  ⟨"HIF_ACC_ERR", 0x400008, 1, 0x4000000, 1, 0x4000000, [⟨0, 26, .ro, .const 0x0, .any⟩, ⟨26, 4, .ro, .const 0x0, .any⟩, ⟨30, 1, .ro, .const 0x0, .any⟩, ⟨31, 1, .w1c, .const 0x0, .any⟩]⟩,
  ⟨"HIF_BAR2_ERR", 0x40000C, 1, 0x4000000, 1, 0x4000000, [⟨0, 2, .ro, .const 0x0, .any⟩, ⟨26, 4, .ro, .const 0x0, .any⟩, ⟨30, 1, .ro, .const 0x0, .any⟩, ⟨31, 1, .w1c, .const 0x0, .any⟩]⟩,
  ⟨"HIF_BAR2_ERR_ADDR_LO", 0x400010, 1, 0x4000000, 1, 0x4000000, [⟨0, 32, .ro, .const 0x0, .any⟩]⟩,
  ⟨"HIF_BAR2_ERR_ADDR_HI", 0x400014, 1, 0x4000000, 1, 0x4000000, [⟨0, 14, .ro, .const 0x0, .any⟩]⟩,
  ⟨"HIF_VF_STATUS", 0x400018, 1, 0x4000000, 1, 0x4000000, [⟨1, 15, .ro, .const 0x0, .any⟩]⟩,
  ⟨"HIF_OST_CTRL", 0x400020, 1, 0x4000000, 1, 0x4000000, [⟨0, 1, .rw, .const 0x0, .any⟩, ⟨1, 1, .ro, .const 0x0, .any⟩]⟩,
  ⟨"HIF_OST_ROUTINE", 0x400024, 1, 0x4000000, 1, 0x4000000, [⟨0, 32, .rw, .const 0x0, .any⟩]⟩,
  ⟨"HIF_FNf_BAR2", 0x410000, 16, 0x10000, 1, 0x4000000, [⟨0, 16, .rw, .const 0x0, .any⟩, ⟨31, 1, .rw, .const 0x0, .any⟩]⟩,
  ⟨"HIF_FNf_POLL", 0x410004, 16, 0x10000, 1, 0x4000000, [⟨0, 16, .rw, .const 0x4, .range 1 65535⟩, ⟨16, 16, .rw, .const 0x0, .below 0 16⟩]⟩,
  ⟨"SQ_BASE_LO", 0x410100, 16, 0x10000, 4, 0x40, [⟨12, 20, .rw, .const 0x0, .any⟩]⟩,
  ⟨"SQ_BASE_HI", 0x410104, 16, 0x10000, 4, 0x40, [⟨0, 32, .rw, .const 0x0, .any⟩]⟩,
  ⟨"CQ_BASE_LO", 0x410108, 16, 0x10000, 4, 0x40, [⟨12, 20, .rw, .const 0x0, .any⟩]⟩,
  ⟨"CQ_BASE_HI", 0x41010C, 16, 0x10000, 4, 0x40, [⟨0, 32, .rw, .const 0x0, .any⟩]⟩,
  ⟨"RING_CTRL", 0x410110, 16, 0x10000, 4, 0x40, [⟨0, 1, .rw, .const 0x0, .any⟩, ⟨1, 5, .rw, .const 0x6, .range 6 16⟩, ⟨8, 13, .rw, .const 0x100, .range 1 4096⟩, ⟨21, 4, .rw, .const 0x0, .any⟩]⟩,
  ⟨"RING_SEQ", 0x410114, 16, 0x10000, 4, 0x40, [⟨0, 32, .ro, .const 0x0, .any⟩]⟩,
  ⟨"CQ_HEAD", 0x410118, 16, 0x10000, 4, 0x40, [⟨0, 32, .rw, .const 0x0, .any⟩]⟩,
  ⟨"CQ_TAIL", 0x41011C, 16, 0x10000, 4, 0x40, [⟨0, 32, .ro, .const 0x0, .any⟩]⟩,
  ⟨"RING_MOD", 0x410120, 16, 0x10000, 4, 0x40, [⟨0, 8, .rw, .const 0x1, .range 1 255⟩, ⟨8, 16, .rw, .const 0x0, .any⟩]⟩,
  ⟨"RING_STATUS", 0x410124, 16, 0x10000, 4, 0x40, [⟨0, 13, .ro, .const 0x0, .any⟩, ⟨13, 1, .ro, .const 0x0, .any⟩, ⟨14, 1, .w1c, .const 0x0, .any⟩]⟩,
  ⟨"MSIX_ADDR_LO", 0x418000, 16, 0x10000, 16, 0x10, [⟨0, 32, .rw, .const 0x0, .any⟩]⟩,
  ⟨"MSIX_ADDR_HI", 0x418004, 16, 0x10000, 16, 0x10, [⟨0, 32, .rw, .const 0x0, .any⟩]⟩,
  ⟨"MSIX_DATA", 0x418008, 16, 0x10000, 16, 0x10, [⟨0, 32, .rw, .const 0x0, .any⟩]⟩,
  ⟨"MSIX_CTRL", 0x41800C, 16, 0x10000, 16, 0x10, [⟨0, 1, .rw, .const 0x1, .any⟩, ⟨1, 31, .rw, .const 0x0, .any⟩]⟩,
  ⟨"MSIX_PBA", 0x419000, 16, 0x10000, 1, 0x4000000, [⟨0, 16, .ro, .const 0x0, .any⟩]⟩]

/-- The registers of the RST window. -/
def regsRst : List RegRow := [
  ⟨"RST_CAUSE", 0x200000, 1, 0x4000000, 1, 0x4000000, [⟨0, 4, .ro, .const 0x1, .any⟩, ⟨4, 2, .ro, .const 0x0, .any⟩, ⟨6, 1, .w1c, .const 0x0, .any⟩]⟩,
  ⟨"RST_CAUSE_BEAT_LO", 0x200008, 1, 0x4000000, 1, 0x4000000, [⟨0, 32, .ro, .const 0x0, .any⟩]⟩,
  ⟨"RST_CAUSE_BEAT_HI", 0x20000C, 1, 0x4000000, 1, 0x4000000, [⟨0, 32, .ro, .const 0x0, .any⟩]⟩,
  ⟨"RST_LEVEL_MAP", 0x200010, 1, 0x4000000, 1, 0x4000000, [⟨0, 16, .ro, .const 0x5640, .any⟩]⟩,
  ⟨"RST_PIN_MAP", 0x200014, 1, 0x4000000, 1, 0x4000000, [⟨0, 10, .ro, .const 0x2C6, .any⟩]⟩,
  ⟨"RST_FILTER", 0x200018, 1, 0x4000000, 1, 0x4000000, [⟨0, 8, .ro, .const 0x18, .any⟩]⟩,
  ⟨"RST_SW", 0x200020, 1, 0x4000000, 1, 0x4000000, [⟨0, 2, .wo, .const 0x0, .any⟩, ⟨2, 1, .wo, .const 0x0, .any⟩, ⟨16, 16, .wo, .const 0x0, .any⟩]⟩,
  ⟨"RST_WDT_CTRL", 0x200030, 1, 0x4000000, 1, 0x4000000, [⟨0, 1, .rw, .const 0x0, .any⟩, ⟨1, 5, .rw, .const 0x10, .range 10 24⟩]⟩,
  ⟨"RST_WDT_KICK", 0x200034, 1, 0x4000000, 1, 0x4000000, [⟨0, 16, .wo, .const 0x0, .any⟩]⟩,
  ⟨"RST_WDT_LEFT", 0x200038, 1, 0x4000000, 1, 0x4000000, [⟨0, 25, .ro, .const 0x0, .any⟩]⟩,
  ⟨"RST_BLK_CTRL", 0x200040, 1, 0x4000000, 1, 0x4000000, [⟨0, 6, .wo, .const 0x0, .any⟩, ⟨6, 1, .wo, .const 0x0, .any⟩]⟩,
  ⟨"RST_BLK_STATUS", 0x200044, 1, 0x4000000, 1, 0x4000000, [⟨0, 6, .ro, .const 0x0, .any⟩, ⟨6, 1, .ro, .const 0x0, .any⟩, ⟨7, 1, .w1c, .const 0x0, .any⟩, ⟨8, 1, .w1c, .const 0x0, .any⟩]⟩,
  ⟨"RST_BLK_TIMEOUT", 0x200048, 1, 0x4000000, 1, 0x4000000, [⟨0, 16, .rw, .const 0x1000, .range 1 65535⟩]⟩,
  ⟨"RST_ACT_CTRL", 0x200050, 1, 0x4000000, 1, 0x4000000, [⟨0, 4, .wo, .const 0x0, .any⟩, ⟨4, 1, .wo, .const 0x0, .any⟩]⟩,
  ⟨"RST_ACT_STATUS", 0x200054, 1, 0x4000000, 1, 0x4000000, [⟨0, 16, .ro, .const 0x0, .any⟩, ⟨16, 1, .w1c, .const 0x0, .any⟩]⟩]

/-- The registers of the ASY window. -/
def regsAsy : List RegRow := [
  ⟨"ASY_STATUS", 0x3800000, 1, 0x4000000, 1, 0x4000000, [⟨0, 2, .ro, .const 0x0, .any⟩, ⟨2, 8, .ro, .const 0x0, .any⟩, ⟨10, 1, .ro, .const 0x0, .any⟩, ⟨11, 1, .ro, .const 0x0, .any⟩]⟩,
  ⟨"ASY_SVN", 0x3800004, 1, 0x4000000, 1, 0x4000000, [⟨0, 6, .ro, .const 0, .any⟩, ⟨8, 6, .ro, .const 0x0, .any⟩]⟩,
  ⟨"ASY_CTRL", 0x3800008, 1, 0x4000000, 1, 0x4000000, [⟨0, 1, .rw, .const 0x0, .any⟩, ⟨1, 1, .rw, .const 0x0, .any⟩, ⟨2, 1, .wo, .const 0x0, .any⟩, ⟨4, 3, .rw, .const 0x5, .any⟩, ⟨7, 1, .wo, .const 0x0, .any⟩]⟩,
  ⟨"ASY_HOST_IMG_LO", 0x3800010, 1, 0x4000000, 1, 0x4000000, [⟨0, 32, .rw, .const 0x0, .any⟩]⟩,
  ⟨"ASY_HOST_IMG_HI", 0x3800014, 1, 0x4000000, 1, 0x4000000, [⟨0, 32, .rw, .const 0x0, .any⟩]⟩,
  ⟨"ASY_HOST_IMG_LEN", 0x3800018, 1, 0x4000000, 1, 0x4000000, [⟨0, 23, .rw, .const 0x0, .any⟩]⟩,
  ⟨"ASY_LOG_COUNT", 0x3800020, 1, 0x4000000, 1, 0x4000000, [⟨0, 11, .ro, .const 0x0, .any⟩]⟩,
  ⟨"ASY_ID_HASHi", 0x3800100, 16, 0x4, 1, 0x4000000, [⟨0, 32, .ro, .const 0, .any⟩]⟩,
  ⟨"ASY_MEASm_i", 0x3800200, 8, 0x40, 16, 0x4, [⟨0, 32, .ro, .const 0x0, .any⟩]⟩,
  ⟨"ASY_EXT_DATAi", 0x3800400, 16, 0x4, 1, 0x4000000, [⟨0, 32, .rw, .const 0x0, .any⟩]⟩]

/-- The registers of the DBG window. -/
def regsDbg : List RegRow := [
  ⟨"DBG_STATUS", 0x3E00000, 1, 0x4000000, 1, 0x4000000, [⟨0, 2, .ro, .const 0, .any⟩, ⟨2, 2, .ro, .const 0x0, .any⟩, ⟨4, 3, .ro, .const 0x0, .any⟩]⟩,
  ⟨"DBG_CTRL", 0x3E00004, 1, 0x4000000, 1, 0x4000000, [⟨0, 1, .wo, .const 0x0, .any⟩, ⟨1, 1, .wo, .const 0x0, .any⟩, ⟨2, 1, .wo, .const 0x0, .any⟩]⟩,
  ⟨"DBG_NONCEi", 0x3E00040, 16, 0x4, 1, 0x4000000, [⟨0, 32, .ro, .const 0, .any⟩]⟩,
  ⟨"DBG_TOKENi", 0x3E00100, 128, 0x4, 1, 0x4000000, [⟨0, 32, .wo, .const 0x0, .any⟩]⟩]

/-- The registers of the FUN window. -/
def regsFun : List RegRow := [
  ⟨"FUN_CTRL", 0x3C00000, 1, 0x4000000, 1, 0x4000000, [⟨0, 1, .rw, .const 0x0, .any⟩, ⟨16, 16, .wo, .const 0x0, .any⟩]⟩,
  ⟨"FUN_STATUS", 0x3C00004, 1, 0x4000000, 1, 0x4000000, [⟨0, 16, .w1c, .const 0x0, .any⟩, ⟨16, 1, .ro, .const 0x0, .any⟩]⟩,
  ⟨"FUN_SPARE_POLICY", 0x3C00010, 1, 0x4000000, 1, 0x4000000, [⟨0, 4, .rw, .const 0x2, .range 1 15⟩, ⟨4, 5, .rw, .const 0x18, .range 16 30⟩, ⟨16, 8, .rw, .const 0x40, .range 1 255⟩, ⟨24, 1, .rw, .const 0x1, .any⟩]⟩,
  ⟨"FUN_SPARE_LOG", 0x3C00014, 1, 0x4000000, 1, 0x4000000, [⟨0, 1, .w1c, .const 0x0, .any⟩, ⟨1, 3, .ro, .const 0x0, .any⟩, ⟨4, 5, .ro, .const 0x0, .any⟩, ⟨9, 5, .ro, .const 0x0, .any⟩, ⟨14, 1, .ro, .const 0x0, .any⟩]⟩,
  ⟨"FUN_INPUTS", 0x3C00018, 1, 0x4000000, 1, 0x4000000, [⟨0, 1, .ro, .const 0x0, .any⟩, ⟨1, 1, .ro, .const 0x0, .any⟩, ⟨2, 1, .ro, .const 0x0, .any⟩, ⟨3, 1, .ro, .const 0x0, .any⟩, ⟨4, 1, .ro, .const 0x0, .any⟩]⟩,
  ⟨"FUN_Pn_CTRL", 0x3C00100, 16, 0x20, 1, 0x4000000, [⟨0, 1, .rw, .const 0x0, .any⟩, ⟨1, 5, .rw, .const 0x0, .any⟩, ⟨8, 8, .rw, .const 0x1, .range 1 255⟩, ⟨16, 1, .rw, .const 0x0, .any⟩, ⟨17, 4, .rw, .const 0x0, .any⟩]⟩,
  ⟨"FUN_Pn_TARGET", 0x3C00104, 16, 0x20, 1, 0x4000000, [⟨0, 16, .rw, .const 0x0, .any⟩]⟩,
  ⟨"FUN_Pn_PARAM", 0x3C00108, 16, 0x20, 1, 0x4000000, [⟨0, 32, .rw, .const 0x0, .any⟩]⟩,
  ⟨"FUN_Pn_BEAT_LO", 0x3C00110, 16, 0x20, 1, 0x4000000, [⟨0, 32, .rw, .const 0x0, .any⟩]⟩,
  ⟨"FUN_Pn_BEAT_HI", 0x3C00114, 16, 0x20, 1, 0x4000000, [⟨0, 32, .rw, .const 0x0, .any⟩]⟩,
  ⟨"FUN_Pn_LEFT", 0x3C00118, 16, 0x20, 1, 0x4000000, [⟨0, 8, .ro, .const 0x0, .any⟩]⟩]

/-- The registers of the block window (Table 0.3) that holds `off`. -/
def regsOfWindow (off : Nat) : List RegRow :=
  if off < 0x100000 then regsGlb
  else if off < 0x200000 then regsTal
  else if off < 0x300000 then regsRst
  else if off < 0x400000 then regsPwr
  else if off < 0x800000 then regsHif
  else if off < 0x1000000 then regsAct
  else if off < 0x1400000 then regsCrew
  else if off < 0x1800000 then regsWnz
  else if off < 0x1C00000 then regsMem
  else if off < 0x2000000 then regsCru
  else if off < 0x2800000 then regsAdt
  else if off < 0x3000000 then regsCar
  else if off < 0x3400000 then regsRgm
  else if off < 0x3800000 then regsMdw
  else if off < 0x3C00000 then regsAsy
  else if off < 0x3E00000 then regsFun
  else if off < 0x4000000 then regsDbg
  else []

/-- The two instance numbers of a register of row `r` at offset `off`, if there is one there. -/
def RegRow.index (r : RegRow) (off : Nat) : Option (Nat × Nat) :=
  let d := off - r.base
  let i := d / r.s1
  let e := d % r.s1
  let j := e / r.s2
  if r.base ≤ off ∧ i < r.n1 ∧ j < r.n2 ∧ e % r.s2 = 0 then some (i, j) else none

/-- The register at offset `off` with its instance numbers (Table 13.8: a meter of class 0 is unassigned). -/
def findReg (off : Nat) : Option (RegRow × Nat × Nat) :=
  if 0x3020000 ≤ off ∧ off < 0x3022000 ∧ (off / 0x20) % 4 = 0 then none
  else (regsOfWindow off).findSome? fun r => (r.index off).map fun p => (r, p)

/-- The shortest window F of channel `n`, in ns (Table 13.1). -/
def chanF (n : Nat) : Nat :=
  if n < 8 then 32 else if n < 10 then 64 else if n < 42 then 4096 else 128

/-- The reset reservation of channel `n`, in cells (Table 13.5). -/
def chanReserve (n : Nat) : Nat :=
  if n < 8 then 4096 else if n < 10 then 8192 else if n < 42 then 2048 else 16384

/-- A field's reset value in instance `i`, `j`. -/
def RstVal.at (v : RstVal) (i j : Nat) : Nat :=
  match v with
  | .const n => n
  | .inst0 a b => if i = 0 then a else b
  | .second0 a b => if j = 0 then a else b
  | .chanF => Sys2Proof.Machine.chanF i
  | .chanReserve => Sys2Proof.Machine.chanReserve i

/-- A register's reset word. -/
def RegRow.resetWord (r : RegRow) (i j : Nat) : BitVec 32 :=
  r.fields.foldl (fun w f => w ||| (BitVec.ofNat 32 ((f.reset.at i j % 2 ^ f.width) <<< f.lo))) 0#32

/-- What the register at `off` holds at reset, and zero where there is none. -/
def resetWord (off : Nat) : BitVec 32 :=
  match findReg off with
  | some (r, i, j) => r.resetWord i j
  | none => 0#32

/-! The registers and fields of Table 0.4, R14, by name. -/
def F.glbPartId_family : FieldRef := ⟨0x0, 16, 16⟩
def F.glbPartId_part : FieldRef := ⟨0x0, 0, 16⟩
def Reg.glbPartId : Nat := 0x0
def F.glbSiliconRev_major : FieldRef := ⟨0x4, 8, 8⟩
def F.glbSiliconRev_minor : FieldRef := ⟨0x4, 0, 8⟩
def Reg.glbSiliconRev : Nat := 0x4
def F.glbFilauxVer_major : FieldRef := ⟨0x8, 16, 16⟩
def F.glbFilauxVer_minor : FieldRef := ⟨0x8, 0, 16⟩
def Reg.glbFilauxVer : Nat := 0x8
def F.glbNodeId_valid : FieldRef := ⟨0xC, 31, 1⟩
def F.glbNodeId_node : FieldRef := ⟨0xC, 0, 6⟩
def Reg.glbNodeId : Nat := 0xC
def F.glbScratch_value : FieldRef := ⟨0x10, 0, 32⟩
def Reg.glbScratch : Nat := 0x10
/-! The registers and fields of Table 2.11, R70, by name. -/
def F.actCtrl_enable (a : Nat) : FieldRef := ⟨0x800000 + a * 0x80000, 0, 1⟩
def F.actCtrl_halt (a : Nat) : FieldRef := ⟨0x800000 + a * 0x80000, 1, 1⟩
def F.actCtrl_fenceLimit (a : Nat) : FieldRef := ⟨0x800000 + a * 0x80000, 16, 16⟩
def Reg.actCtrl (a : Nat) : Nat := 0x800000 + a * 0x80000
def F.actStatus_idle (a : Nat) : FieldRef := ⟨0x800004 + a * 0x80000, 0, 1⟩
def F.actStatus_priv (a : Nat) : FieldRef := ⟨0x800004 + a * 0x80000, 1, 1⟩
def F.actStatus_faulted (a : Nat) : FieldRef := ⟨0x800004 + a * 0x80000, 2, 1⟩
def F.actStatus_routines (a : Nat) : FieldRef := ⟨0x800004 + a * 0x80000, 8, 9⟩
def F.actStatus_running (a : Nat) : FieldRef := ⟨0x800004 + a * 0x80000, 17, 15⟩
def Reg.actStatus (a : Nat) : Nat := 0x800004 + a * 0x80000
def F.actSnapWait_beats (a : Nat) : FieldRef := ⟨0x800008 + a * 0x80000, 0, 32⟩
def Reg.actSnapWait (a : Nat) : Nat := 0x800008 + a * 0x80000
def F.actFaultCause_cause (a : Nat) : FieldRef := ⟨0x800010 + a * 0x80000, 0, 8⟩
def F.actFaultCause_class (a : Nat) : FieldRef := ⟨0x800010 + a * 0x80000, 8, 5⟩
def F.actFaultCause_function (a : Nat) : FieldRef := ⟨0x800010 + a * 0x80000, 13, 7⟩
def F.actFaultCause_strand (a : Nat) : FieldRef := ⟨0x800010 + a * 0x80000, 20, 6⟩
def F.actFaultCause_crew (a : Nat) : FieldRef := ⟨0x800010 + a * 0x80000, 26, 4⟩
def Reg.actFaultCause (a : Nat) : Nat := 0x800010 + a * 0x80000
def F.actFaultWordLo_word (a : Nat) : FieldRef := ⟨0x800018 + a * 0x80000, 0, 17⟩
def Reg.actFaultWordLo (a : Nat) : Nat := 0x800018 + a * 0x80000
def F.actFaultWordHi_routine (a : Nat) : FieldRef := ⟨0x80001C + a * 0x80000, 0, 32⟩
def Reg.actFaultWordHi (a : Nat) : Nat := 0x80001C + a * 0x80000
def F.actFaultAddrLo_addr (a : Nat) : FieldRef := ⟨0x800020 + a * 0x80000, 0, 32⟩
def Reg.actFaultAddrLo (a : Nat) : Nat := 0x800020 + a * 0x80000
def F.actFaultAddrHi_addr (a : Nat) : FieldRef := ⟨0x800024 + a * 0x80000, 0, 20⟩
def Reg.actFaultAddrHi (a : Nat) : Nat := 0x800024 + a * 0x80000
def F.actFaultJobLo_jobId (a : Nat) : FieldRef := ⟨0x800028 + a * 0x80000, 0, 32⟩
def Reg.actFaultJobLo (a : Nat) : Nat := 0x800028 + a * 0x80000
def F.actFaultJobHi_jobId (a : Nat) : FieldRef := ⟨0x80002C + a * 0x80000, 0, 32⟩
def Reg.actFaultJobHi (a : Nat) : Nat := 0x80002C + a * 0x80000
def F.actDegradeCount_count (a : Nat) : FieldRef := ⟨0x800030 + a * 0x80000, 0, 32⟩
def Reg.actDegradeCount (a : Nat) : Nat := 0x800030 + a * 0x80000
def F.actRegionBaseLo_base (a n : Nat) : FieldRef := ⟨0x800100 + a * 0x80000 + n * 0x10, 12, 20⟩
def Reg.actRegionBaseLo (a n : Nat) : Nat := 0x800100 + a * 0x80000 + n * 0x10
def F.actRegionBaseHi_base (a n : Nat) : FieldRef := ⟨0x800104 + a * 0x80000 + n * 0x10, 0, 14⟩
def Reg.actRegionBaseHi (a n : Nat) : Nat := 0x800104 + a * 0x80000 + n * 0x10
def F.actRegionSize_pages (a n : Nat) : FieldRef := ⟨0x800108 + a * 0x80000 + n * 0x10, 0, 32⟩
def Reg.actRegionSize (a n : Nat) : Nat := 0x800108 + a * 0x80000 + n * 0x10
def F.actRegionAttr_read (a n : Nat) : FieldRef := ⟨0x80010C + a * 0x80000 + n * 0x10, 0, 1⟩
def F.actRegionAttr_write (a n : Nat) : FieldRef := ⟨0x80010C + a * 0x80000 + n * 0x10, 1, 1⟩
def F.actRegionAttr_winze (a n : Nat) : FieldRef := ⟨0x80010C + a * 0x80000 + n * 0x10, 2, 1⟩
def Reg.actRegionAttr (a n : Nat) : Nat := 0x80010C + a * 0x80000 + n * 0x10
/-! The registers and fields of Table 4.6, R134, by name. -/
def F.crewStatus_cores (c : Nat) : FieldRef := ⟨0x1000000 + c * 0x10000, 0, 3⟩
def F.crewStatus_coreSpareUsed (c : Nat) : FieldRef := ⟨0x1000000 + c * 0x10000, 3, 1⟩
def F.crewStatus_hewers (c : Nat) : FieldRef := ⟨0x1000000 + c * 0x10000, 4, 4⟩
def F.crewStatus_hewSpareUsed (c : Nat) : FieldRef := ⟨0x1000000 + c * 0x10000, 8, 1⟩
def F.crewStatus_online (c : Nat) : FieldRef := ⟨0x1000000 + c * 0x10000, 9, 1⟩
def F.crewStatus_drained (c : Nat) : FieldRef := ⟨0x1000000 + c * 0x10000, 10, 1⟩
def Reg.crewStatus (c : Nat) : Nat := 0x1000000 + c * 0x10000
def F.crewCoreMap_enabled (c : Nat) : FieldRef := ⟨0x1000004 + c * 0x10000, 0, 5⟩
def F.crewCoreMap_failed (c : Nat) : FieldRef := ⟨0x1000004 + c * 0x10000, 5, 5⟩
def Reg.crewCoreMap (c : Nat) : Nat := 0x1000004 + c * 0x10000
def F.crewHewMap_enabled (c : Nat) : FieldRef := ⟨0x1000008 + c * 0x10000, 0, 13⟩
def Reg.crewHewMap (c : Nat) : Nat := 0x1000008 + c * 0x10000
def F.crewHewFailed_failed (c : Nat) : FieldRef := ⟨0x100000C + c * 0x10000, 0, 13⟩
def Reg.crewHewFailed (c : Nat) : Nat := 0x100000C + c * 0x10000
def F.crewSlice_slice (c : Nat) : FieldRef := ⟨0x1000010 + c * 0x10000, 0, 8⟩
def F.crewSlice_act (c : Nat) : FieldRef := ⟨0x1000010 + c * 0x10000, 8, 4⟩
def F.crewSlice_assigned (c : Nat) : FieldRef := ⟨0x1000010 + c * 0x10000, 15, 1⟩
def Reg.crewSlice (c : Nat) : Nat := 0x1000010 + c * 0x10000
def F.crewStoreUse_used (c : Nat) : FieldRef := ⟨0x1000014 + c * 0x10000, 0, 12⟩
def F.crewStoreUse_tiles (c : Nat) : FieldRef := ⟨0x1000014 + c * 0x10000, 16, 12⟩
def Reg.crewStoreUse (c : Nat) : Nat := 0x1000014 + c * 0x10000
def F.crewSatCount_count (c : Nat) : FieldRef := ⟨0x1000018 + c * 0x10000, 0, 32⟩
def Reg.crewSatCount (c : Nat) : Nat := 0x1000018 + c * 0x10000
def F.crewCtrl_drain (c : Nat) : FieldRef := ⟨0x100001C + c * 0x10000, 0, 1⟩
def Reg.crewCtrl (c : Nat) : Nat := 0x100001C + c * 0x10000
def F.crewMmaLo_count (c : Nat) : FieldRef := ⟨0x1000020 + c * 0x10000, 0, 32⟩
def Reg.crewMmaLo (c : Nat) : Nat := 0x1000020 + c * 0x10000
def F.crewMmaHi_count (c : Nat) : FieldRef := ⟨0x1000024 + c * 0x10000, 0, 32⟩
def Reg.crewMmaHi (c : Nat) : Nat := 0x1000024 + c * 0x10000
def F.crewSpare_hewer (c : Nat) : FieldRef := ⟨0x1000028 + c * 0x10000, 0, 4⟩
def F.crewSpare_hewGo (c : Nat) : FieldRef := ⟨0x1000028 + c * 0x10000, 4, 1⟩
def F.crewSpare_core (c : Nat) : FieldRef := ⟨0x1000028 + c * 0x10000, 8, 3⟩
def F.crewSpare_coreGo (c : Nat) : FieldRef := ⟨0x1000028 + c * 0x10000, 11, 1⟩
def Reg.crewSpare (c : Nat) : Nat := 0x1000028 + c * 0x10000
/-! The registers and fields of Table 5.7, R162, by name. -/
def F.cruCtrl_squeezeEn : FieldRef := ⟨0x1C00000, 0, 1⟩
def Reg.cruCtrl : Nat := 0x1C00000
def F.cruStatus_sharedBusy : FieldRef := ⟨0x1C00004, 0, 3⟩
def F.cruStatus_linkTx : FieldRef := ⟨0x1C00004, 4, 8⟩
def F.cruStatus_linkRx : FieldRef := ⟨0x1C00004, 12, 8⟩
def Reg.cruStatus : Nat := 0x1C00004
def F.cruDamage_valid : FieldRef := ⟨0x1C00008, 0, 1⟩
def F.cruDamage_check : FieldRef := ⟨0x1C00008, 1, 4⟩
def F.cruDamage_path : FieldRef := ⟨0x1C00008, 5, 3⟩
def F.cruDamage_act : FieldRef := ⟨0x1C00008, 8, 4⟩
def F.cruDamage_node : FieldRef := ⟨0x1C00008, 12, 6⟩
def Reg.cruDamage : Nat := 0x1C00008
def F.cruDamageCount_count : FieldRef := ⟨0x1C0000C, 0, 32⟩
def Reg.cruDamageCount : Nat := 0x1C0000C
def F.cruPackInLo_bytes : FieldRef := ⟨0x1C00010, 0, 32⟩
def Reg.cruPackInLo : Nat := 0x1C00010
def F.cruPackInHi_bytes : FieldRef := ⟨0x1C00014, 0, 32⟩
def Reg.cruPackInHi : Nat := 0x1C00014
def F.cruPackOutLo_bytes : FieldRef := ⟨0x1C00018, 0, 32⟩
def Reg.cruPackOutLo : Nat := 0x1C00018
def F.cruPackOutHi_bytes : FieldRef := ⟨0x1C0001C, 0, 32⟩
def Reg.cruPackOutHi : Nat := 0x1C0001C
def F.cruRawKept_count : FieldRef := ⟨0x1C00020, 0, 32⟩
def Reg.cruRawKept : Nat := 0x1C00020
def F.cruAtuseCount_count : FieldRef := ⟨0x1C00024, 0, 32⟩
def Reg.cruAtuseCount : Nat := 0x1C00024
def F.cruQntDriftCount_count : FieldRef := ⟨0x1C00100, 0, 32⟩
def Reg.cruQntDriftCount : Nat := 0x1C00100
def F.cruQntAdaptCount_count : FieldRef := ⟨0x1C00104, 0, 32⟩
def Reg.cruQntAdaptCount : Nat := 0x1C00104
def F.cruQntRerunCount_count : FieldRef := ⟨0x1C00108, 0, 32⟩
def Reg.cruQntRerunCount : Nat := 0x1C00108
def F.cruQntSatCount_count : FieldRef := ⟨0x1C0010C, 0, 32⟩
def Reg.cruQntSatCount : Nat := 0x1C0010C
def F.cruQntNonfiniteCount_count : FieldRef := ⟨0x1C00110, 0, 32⟩
def Reg.cruQntNonfiniteCount : Nat := 0x1C00110
/-! The registers and fields of Table 8.7, R260, by name. -/
def F.wnzStatus_units (s : Nat) : FieldRef := ⟨0x1400000 + s * 0x4000, 0, 3⟩
def F.wnzStatus_spareUsed (s : Nat) : FieldRef := ⟨0x1400000 + s * 0x4000, 3, 1⟩
def F.wnzStatus_relay (s : Nat) : FieldRef := ⟨0x1400000 + s * 0x4000, 4, 1⟩
def F.wnzStatus_drained (s : Nat) : FieldRef := ⟨0x1400000 + s * 0x4000, 5, 1⟩
def F.wnzStatus_queued (s : Nat) : FieldRef := ⟨0x1400000 + s * 0x4000, 8, 7⟩
def F.wnzStatus_ranges (s : Nat) : FieldRef := ⟨0x1400000 + s * 0x4000, 16, 9⟩
def Reg.wnzStatus (s : Nat) : Nat := 0x1400000 + s * 0x4000
def F.wnzUnitMap_enabled (s : Nat) : FieldRef := ⟨0x1400004 + s * 0x4000, 0, 5⟩
def F.wnzUnitMap_failed (s : Nat) : FieldRef := ⟨0x1400004 + s * 0x4000, 5, 5⟩
def Reg.wnzUnitMap (s : Nat) : Nat := 0x1400004 + s * 0x4000
def F.wnzCtrl_actMax (s : Nat) : FieldRef := ⟨0x1400008 + s * 0x4000, 0, 7⟩
def F.wnzCtrl_drain (s : Nat) : FieldRef := ⟨0x1400008 + s * 0x4000, 8, 1⟩
def Reg.wnzCtrl (s : Nat) : Nat := 0x1400008 + s * 0x4000
def F.wnzSpare_unit (s : Nat) : FieldRef := ⟨0x140000C + s * 0x4000, 0, 3⟩
def F.wnzSpare_go (s : Nat) : FieldRef := ⟨0x140000C + s * 0x4000, 3, 1⟩
def Reg.wnzSpare (s : Nat) : Nat := 0x140000C + s * 0x4000
def F.wnzHoldCount_count (s : Nat) : FieldRef := ⟨0x1400010 + s * 0x4000, 0, 32⟩
def Reg.wnzHoldCount (s : Nat) : Nat := 0x1400010 + s * 0x4000
def F.wnzRowwaitMax_ns (s : Nat) : FieldRef := ⟨0x1400014 + s * 0x4000, 0, 16⟩
def Reg.wnzRowwaitMax (s : Nat) : Nat := 0x1400014 + s * 0x4000
def F.wnzCorrected_count (s : Nat) : FieldRef := ⟨0x1400018 + s * 0x4000, 0, 32⟩
def Reg.wnzCorrected (s : Nat) : Nat := 0x1400018 + s * 0x4000
def F.wnzUncorr_count (s : Nat) : FieldRef := ⟨0x140001C + s * 0x4000, 0, 32⟩
def Reg.wnzUncorr (s : Nat) : Nat := 0x140001C + s * 0x4000
def F.wnzCmdLo_count (s : Nat) : FieldRef := ⟨0x1400020 + s * 0x4000, 0, 32⟩
def Reg.wnzCmdLo (s : Nat) : Nat := 0x1400020 + s * 0x4000
def F.wnzCmdHi_count (s : Nat) : FieldRef := ⟨0x1400024 + s * 0x4000, 0, 32⟩
def Reg.wnzCmdHi (s : Nat) : Nat := 0x1400024 + s * 0x4000
def F.wnzSubqLo_count (s : Nat) : FieldRef := ⟨0x1400028 + s * 0x4000, 0, 32⟩
def Reg.wnzSubqLo (s : Nat) : Nat := 0x1400028 + s * 0x4000
def F.wnzSubqHi_count (s : Nat) : FieldRef := ⟨0x140002C + s * 0x4000, 0, 32⟩
def Reg.wnzSubqHi (s : Nat) : Nat := 0x140002C + s * 0x4000
def F.wnzResend_count (s : Nat) : FieldRef := ⟨0x1400030 + s * 0x4000, 0, 32⟩
def Reg.wnzResend (s : Nat) : Nat := 0x1400030 + s * 0x4000
def F.wnzFault_valid (s : Nat) : FieldRef := ⟨0x1400034 + s * 0x4000, 0, 1⟩
def F.wnzFault_op (s : Nat) : FieldRef := ⟨0x1400034 + s * 0x4000, 1, 2⟩
def F.wnzFault_act (s : Nat) : FieldRef := ⟨0x1400034 + s * 0x4000, 4, 4⟩
def F.wnzFault_cause (s : Nat) : FieldRef := ⟨0x1400034 + s * 0x4000, 8, 8⟩
def Reg.wnzFault (s : Nat) : Nat := 0x1400034 + s * 0x4000
/-! The registers and fields of Table 10.5, R313, by name. -/
def F.memCtrl_scrubEn : FieldRef := ⟨0x1800000, 0, 1⟩
def F.memCtrl_packEn : FieldRef := ⟨0x1800000, 1, 1⟩
def F.memCtrl_retireEn : FieldRef := ⟨0x1800000, 2, 1⟩
def Reg.memCtrl : Nat := 0x1800000
def F.memStatus_poolRefused : FieldRef := ⟨0x1800004, 0, 1⟩
def F.memStatus_poolFull : FieldRef := ⟨0x1800004, 1, 1⟩
def F.memStatus_rowSparesOut : FieldRef := ⟨0x1800004, 2, 1⟩
def F.memStatus_channelDead : FieldRef := ⟨0x1800004, 3, 1⟩
def F.memStatus_copying : FieldRef := ⟨0x1800004, 4, 1⟩
def Reg.memStatus : Nat := 0x1800004
def F.memPool_gib : FieldRef := ⟨0x1800008, 0, 8⟩
def Reg.memPool : Nat := 0x1800008
def F.memScrub_pStack : FieldRef := ⟨0x180000C, 0, 6⟩
def F.memScrub_qSram : FieldRef := ⟨0x180000C, 8, 6⟩
def F.memScrub_share : FieldRef := ⟨0x180000C, 16, 6⟩
def Reg.memScrub : Nat := 0x180000C
def F.memCorrCount_count : FieldRef := ⟨0x1800010, 0, 32⟩
def Reg.memCorrCount : Nat := 0x1800010
def F.memUncorrCount_count : FieldRef := ⟨0x1800014, 0, 32⟩
def Reg.memUncorrCount : Nat := 0x1800014
def F.memRowsRetired_stack : FieldRef := ⟨0x1800018, 0, 16⟩
def F.memRowsRetired_sram : FieldRef := ⟨0x1800018, 16, 16⟩
def Reg.memRowsRetired : Nat := 0x1800018
def F.memMoveAbandon_count : FieldRef := ⟨0x180001C, 0, 32⟩
def Reg.memMoveAbandon : Nat := 0x180001C
def F.memErr_valid : FieldRef := ⟨0x1800020, 0, 1⟩
def F.memErr_uncorr : FieldRef := ⟨0x1800020, 1, 1⟩
def F.memErr_source : FieldRef := ⟨0x1800020, 2, 2⟩
def F.memErr_crew : FieldRef := ⟨0x1800020, 4, 1⟩
def F.memErr_unit : FieldRef := ⟨0x1800020, 5, 5⟩
def F.memErr_channel : FieldRef := ⟨0x1800020, 10, 5⟩
def F.memErr_row : FieldRef := ⟨0x1800020, 15, 4⟩
def F.memErr_bit : FieldRef := ⟨0x1800020, 19, 5⟩
def Reg.memErr : Nat := 0x1800020
def F.memErrAddrLo_addr : FieldRef := ⟨0x1800028, 6, 26⟩
def Reg.memErrAddrLo : Nat := 0x1800028
def F.memErrAddrHi_addr : FieldRef := ⟨0x180002C, 0, 14⟩
def Reg.memErrAddrHi : Nat := 0x180002C
def F.memFlipCtrl_arm : FieldRef := ⟨0x1800030, 0, 1⟩
def F.memFlipCtrl_kind : FieldRef := ⟨0x1800030, 1, 2⟩
def F.memFlipCtrl_unit : FieldRef := ⟨0x1800030, 3, 5⟩
def F.memFlipCtrl_channel : FieldRef := ⟨0x1800030, 8, 5⟩
def F.memFlipCtrl_match : FieldRef := ⟨0x1800030, 13, 1⟩
def F.memFlipCtrl_fired : FieldRef := ⟨0x1800030, 14, 1⟩
def F.memFlipCtrl_row : FieldRef := ⟨0x1800030, 16, 4⟩
def Reg.memFlipCtrl : Nat := 0x1800030
def F.memFlipMask_data : FieldRef := ⟨0x1800034, 0, 32⟩
def Reg.memFlipMask : Nat := 0x1800034
def F.memFlipCheckRow_mask : FieldRef := ⟨0x1800038, 0, 16⟩
def Reg.memFlipCheckRow : Nat := 0x1800038
def F.memFlipCheckCol_mask : FieldRef := ⟨0x180003C, 0, 32⟩
def Reg.memFlipCheckCol : Nat := 0x180003C
def F.memFlipAddrLo_addr : FieldRef := ⟨0x1800040, 6, 26⟩
def Reg.memFlipAddrLo : Nat := 0x1800040
def F.memFlipAddrHi_addr : FieldRef := ⟨0x1800044, 0, 14⟩
def Reg.memFlipAddrHi : Nat := 0x1800044
def F.memFlipHitLo_addr : FieldRef := ⟨0x1800048, 6, 26⟩
def Reg.memFlipHitLo : Nat := 0x1800048
def F.memFlipHitHi_addr : FieldRef := ⟨0x180004C, 0, 14⟩
def Reg.memFlipHitHi : Nat := 0x180004C
def F.memSpare_stack : FieldRef := ⟨0x1800050, 0, 5⟩
def F.memSpare_channel : FieldRef := ⟨0x1800050, 5, 5⟩
def F.memSpare_dead : FieldRef := ⟨0x1800050, 10, 1⟩
def F.memSpare_go : FieldRef := ⟨0x1800050, 11, 1⟩
def Reg.memSpare : Nat := 0x1800050
def F.memStackStatus_sparesLeft (s : Nat) : FieldRef := ⟨0x1801000 + s * 0x10, 0, 2⟩
def F.memStackStatus_copying (s : Nat) : FieldRef := ⟨0x1801000 + s * 0x10, 2, 1⟩
def F.memStackStatus_copyCh (s : Nat) : FieldRef := ⟨0x1801000 + s * 0x10, 3, 5⟩
def F.memStackStatus_dead (s : Nat) : FieldRef := ⟨0x1801000 + s * 0x10, 8, 1⟩
def F.memStackStatus_deadCh (s : Nat) : FieldRef := ⟨0x1801000 + s * 0x10, 9, 5⟩
def F.memStackStatus_rowSparesMin (s : Nat) : FieldRef := ⟨0x1801000 + s * 0x10, 16, 16⟩
def Reg.memStackStatus (s : Nat) : Nat := 0x1801000 + s * 0x10
def F.memStackSub_sub0 (s : Nat) : FieldRef := ⟨0x1801004 + s * 0x10, 0, 5⟩
def F.memStackSub_sub0Valid (s : Nat) : FieldRef := ⟨0x1801004 + s * 0x10, 5, 1⟩
def F.memStackSub_sub1 (s : Nat) : FieldRef := ⟨0x1801004 + s * 0x10, 8, 5⟩
def F.memStackSub_sub1Valid (s : Nat) : FieldRef := ⟨0x1801004 + s * 0x10, 13, 1⟩
def Reg.memStackSub (s : Nat) : Nat := 0x1801004 + s * 0x10
def F.memStackLost_blocks (s : Nat) : FieldRef := ⟨0x1801008 + s * 0x10, 0, 32⟩
def Reg.memStackLost (s : Nat) : Nat := 0x1801008 + s * 0x10
def F.memCrewStatus_rowSparesMin (c : Nat) : FieldRef := ⟨0x1801200 + c * 0x4, 0, 5⟩
def F.memCrewStatus_retired (c : Nat) : FieldRef := ⟨0x1801200 + c * 0x4, 16, 16⟩
def Reg.memCrewStatus (c : Nat) : Nat := 0x1801200 + c * 0x4
def F.memQStack_kib (a : Nat) : FieldRef := ⟨0x1802000 + a * 0x20, 0, 32⟩
def Reg.memQStack (a : Nat) : Nat := 0x1802000 + a * 0x20
def F.memQExpand_kib (a : Nat) : FieldRef := ⟨0x1802004 + a * 0x20, 0, 32⟩
def Reg.memQExpand (a : Nat) : Nat := 0x1802004 + a * 0x20
def F.memQCrew_kib (a : Nat) : FieldRef := ⟨0x1802008 + a * 0x20, 0, 20⟩
def Reg.memQCrew (a : Nat) : Nat := 0x1802008 + a * 0x20
def F.memQCache_kib (a : Nat) : FieldRef := ⟨0x180200C + a * 0x20, 0, 32⟩
def Reg.memQCache (a : Nat) : Nat := 0x180200C + a * 0x20
def F.memUStack_kib (a : Nat) : FieldRef := ⟨0x1802010 + a * 0x20, 0, 32⟩
def Reg.memUStack (a : Nat) : Nat := 0x1802010 + a * 0x20
def F.memUExpand_kib (a : Nat) : FieldRef := ⟨0x1802014 + a * 0x20, 0, 32⟩
def Reg.memUExpand (a : Nat) : Nat := 0x1802014 + a * 0x20
def F.memUCrew_kib (a : Nat) : FieldRef := ⟨0x1802018 + a * 0x20, 0, 20⟩
def Reg.memUCrew (a : Nat) : Nat := 0x1802018 + a * 0x20
def F.memUCache_kib (a : Nat) : FieldRef := ⟨0x180201C + a * 0x20, 0, 32⟩
def Reg.memUCache (a : Nat) : Nat := 0x180201C + a * 0x20
/-! The registers and fields of Table 11.7, R341, by name. -/
def F.adtCtrl_foldEn : FieldRef := ⟨0x2000000, 0, 1⟩
def F.adtCtrl_forceShort : FieldRef := ⟨0x2000000, 1, 1⟩
def F.adtCtrl_qlcDirectEn : FieldRef := ⟨0x2000000, 2, 1⟩
def Reg.adtCtrl : Nat := 0x2000000
def F.adtStatus_formatted : FieldRef := ⟨0x2000004, 0, 1⟩
def F.adtStatus_recovering : FieldRef := ⟨0x2000004, 1, 1⟩
def F.adtStatus_short : FieldRef := ⟨0x2000004, 2, 1⟩
def F.adtStatus_shortSeen : FieldRef := ⟨0x2000004, 3, 1⟩
def F.adtStatus_slcFull : FieldRef := ⟨0x2000004, 4, 1⟩
def F.adtStatus_rebuilding : FieldRef := ⟨0x2000004, 5, 1⟩
def F.adtStatus_readOnly : FieldRef := ⟨0x2000004, 6, 1⟩
def F.adtStatus_open : FieldRef := ⟨0x2000004, 8, 9⟩
def Reg.adtStatus : Nat := 0x2000004
def F.adtRecovery_mode : FieldRef := ⟨0x2000008, 0, 2⟩
def F.adtRecovery_noPdRecord : FieldRef := ⟨0x2000008, 2, 1⟩
def F.adtRecovery_ms : FieldRef := ⟨0x2000008, 16, 16⟩
def Reg.adtRecovery : Nat := 0x2000008
def F.adtChanPresent_map : FieldRef := ⟨0x200000C, 0, 32⟩
def Reg.adtChanPresent : Nat := 0x200000C
def F.adtGeom_diesMax : FieldRef := ⟨0x2000010, 0, 5⟩
def F.adtGeom_planes : FieldRef := ⟨0x2000010, 5, 3⟩
def F.adtGeom_rate : FieldRef := ⟨0x2000010, 8, 8⟩
def Reg.adtGeom : Nat := 0x2000010
def F.adtRawGb_gb : FieldRef := ⟨0x2000014, 0, 32⟩
def Reg.adtRawGb : Nat := 0x2000014
def F.adtLogicalGib_gib : FieldRef := ⟨0x2000018, 0, 32⟩
def Reg.adtLogicalGib : Nat := 0x2000018
def F.adtBoundGib_gib : FieldRef := ⟨0x200001C, 0, 32⟩
def Reg.adtBoundGib : Nat := 0x200001C
def F.adtSlcCapMib_mib : FieldRef := ⟨0x2000020, 0, 32⟩
def Reg.adtSlcCapMib : Nat := 0x2000020
def F.adtSlcUsedMib_mib : FieldRef := ⟨0x2000024, 0, 32⟩
def Reg.adtSlcUsedMib : Nat := 0x2000024
def F.adtOp_permille : FieldRef := ⟨0x2000028, 0, 10⟩
def Reg.adtOp : Nat := 0x2000028
def F.adtWseqLo_wseq : FieldRef := ⟨0x2000030, 0, 32⟩
def Reg.adtWseqLo : Nat := 0x2000030
def F.adtWseqHi_wseq : FieldRef := ⟨0x2000034, 0, 32⟩
def Reg.adtWseqHi : Nat := 0x2000034
def F.adtFlushLo_beat : FieldRef := ⟨0x2000038, 0, 32⟩
def Reg.adtFlushLo : Nat := 0x2000038
def F.adtFlushHi_beat : FieldRef := ⟨0x200003C, 0, 32⟩
def Reg.adtFlushHi : Nat := 0x200003C
def F.adtErr_valid : FieldRef := ⟨0x2000040, 0, 1⟩
def F.adtErr_channel : FieldRef := ⟨0x2000040, 1, 5⟩
def F.adtErr_die : FieldRef := ⟨0x2000040, 6, 4⟩
def F.adtErr_kind : FieldRef := ⟨0x2000040, 10, 2⟩
def F.adtErr_act : FieldRef := ⟨0x2000040, 12, 4⟩
def Reg.adtErr : Nat := 0x2000040
def F.adtUncorrCount_count : FieldRef := ⟨0x2000044, 0, 32⟩
def Reg.adtUncorrCount : Nat := 0x2000044
def F.adtRebuiltCount_count : FieldRef := ⟨0x2000048, 0, 32⟩
def Reg.adtRebuiltCount : Nat := 0x2000048
def F.adtRetryCount_count : FieldRef := ⟨0x200004C, 0, 32⟩
def Reg.adtRetryCount : Nat := 0x200004C
def F.adtWear_maxPe : FieldRef := ⟨0x2000050, 0, 16⟩
def F.adtWear_ratedPe : FieldRef := ⟨0x2000050, 16, 16⟩
def Reg.adtWear : Nat := 0x2000050
def F.adtRetired_blocks : FieldRef := ⟨0x2000054, 0, 16⟩
def F.adtRetired_dies : FieldRef := ⟨0x2000054, 16, 9⟩
def Reg.adtRetired : Nat := 0x2000054
def F.adtDieRetire_channel : FieldRef := ⟨0x2000058, 0, 5⟩
def F.adtDieRetire_die : FieldRef := ⟨0x2000058, 5, 4⟩
def F.adtDieRetire_go : FieldRef := ⟨0x2000058, 9, 1⟩
def Reg.adtDieRetire : Nat := 0x2000058
def F.adtActSeg_openMax (a : Nat) : FieldRef := ⟨0x2001000 + a * 0x10, 0, 9⟩
def F.adtActSeg_open (a : Nat) : FieldRef := ⟨0x2001000 + a * 0x10, 16, 9⟩
def F.adtActSeg_attached (a : Nat) : FieldRef := ⟨0x2001000 + a * 0x10, 25, 1⟩
def Reg.adtActSeg (a : Nat) : Nat := 0x2001000 + a * 0x10
def F.adtActBound_segs (a : Nat) : FieldRef := ⟨0x2001004 + a * 0x10, 0, 21⟩
def Reg.adtActBound (a : Nat) : Nat := 0x2001004 + a * 0x10
def F.adtChStatus_dies (c : Nat) : FieldRef := ⟨0x2002000 + c * 0x4, 0, 16⟩
def F.adtChStatus_retired (c : Nat) : FieldRef := ⟨0x2002000 + c * 0x4, 16, 16⟩
def Reg.adtChStatus (c : Nat) : Nat := 0x2002000 + c * 0x4
/-! The registers and fields of Tables 12.6 and 12.7, R377, R379, by name. -/
def F.carCtrl_join : FieldRef := ⟨0x2800000, 0, 1⟩
def F.carCtrl_copyEn : FieldRef := ⟨0x2800000, 1, 1⟩
def F.carCtrl_leave : FieldRef := ⟨0x2800000, 2, 1⟩
def F.carCtrl_replayBeats : FieldRef := ⟨0x2800000, 8, 8⟩
def F.carCtrl_replayMax : FieldRef := ⟨0x2800000, 16, 4⟩
def Reg.carCtrl : Nat := 0x2800000
def F.carStatus_state : FieldRef := ⟨0x2800004, 0, 3⟩
def F.carStatus_netClosed : FieldRef := ⟨0x2800004, 3, 1⟩
def F.carStatus_pairs : FieldRef := ⟨0x2800004, 4, 4⟩
def F.carStatus_beatLock : FieldRef := ⟨0x2800004, 8, 1⟩
def F.carStatus_alone : FieldRef := ⟨0x2800004, 9, 1⟩
def Reg.carStatus : Nat := 0x2800004
def F.carCfg_size : FieldRef := ⟨0x2800008, 0, 7⟩
def F.carCfg_position : FieldRef := ⟨0x2800008, 8, 6⟩
def F.carCfg_pairEn : FieldRef := ⟨0x2800008, 16, 4⟩
def Reg.carCfg : Nat := 0x2800008
def F.carAdmit_position : FieldRef := ⟨0x280000C, 0, 6⟩
def F.carAdmit_leave : FieldRef := ⟨0x280000C, 6, 1⟩
def F.carAdmit_go : FieldRef := ⟨0x280000C, 7, 1⟩
def Reg.carAdmit : Nat := 0x280000C
def F.carAdmitBeatLo_beat : FieldRef := ⟨0x2800010, 0, 32⟩
def Reg.carAdmitBeatLo : Nat := 0x2800010
def F.carAdmitBeatHi_beat : FieldRef := ⟨0x2800014, 0, 32⟩
def Reg.carAdmitBeatHi : Nat := 0x2800014
def F.carMembersLo_map : FieldRef := ⟨0x2800018, 0, 32⟩
def Reg.carMembersLo : Nat := 0x2800018
def F.carMembersHi_map : FieldRef := ⟨0x280001C, 0, 32⟩
def Reg.carMembersHi : Nat := 0x280001C
def F.carBypassedLo_map : FieldRef := ⟨0x2800020, 0, 32⟩
def Reg.carBypassedLo : Nat := 0x2800020
def F.carBypassedHi_map : FieldRef := ⟨0x2800024, 0, 32⟩
def Reg.carBypassedHi : Nat := 0x2800024
def F.carErr_valid : FieldRef := ⟨0x2800028, 0, 1⟩
def F.carErr_kind : FieldRef := ⟨0x2800028, 1, 3⟩
def F.carErr_node : FieldRef := ⟨0x2800028, 4, 6⟩
def F.carErr_act : FieldRef := ⟨0x2800028, 10, 4⟩
def Reg.carErr : Nat := 0x2800028
def F.carCopyBaseLo_base : FieldRef := ⟨0x2800030, 12, 20⟩
def Reg.carCopyBaseLo : Nat := 0x2800030
def F.carCopyBaseHi_base : FieldRef := ⟨0x2800034, 0, 14⟩
def Reg.carCopyBaseHi : Nat := 0x2800034
def F.carCopySize_mib : FieldRef := ⟨0x2800038, 0, 17⟩
def Reg.carCopySize : Nat := 0x2800038
def F.carKeyNakCount_count : FieldRef := ⟨0x2800040, 0, 32⟩
def Reg.carKeyNakCount : Nat := 0x2800040
def F.carReplayCount_count : FieldRef := ⟨0x2800044, 0, 32⟩
def Reg.carReplayCount : Nat := 0x2800044
def F.carDupCount_count : FieldRef := ⟨0x2800048, 0, 32⟩
def Reg.carDupCount : Nat := 0x2800048
def F.carInvCount_count : FieldRef := ⟨0x280004C, 0, 32⟩
def Reg.carInvCount : Nat := 0x280004C
def F.carLinkStatus_txUp (l : Nat) : FieldRef := ⟨0x2801000 + l * 0x20, 0, 1⟩
def F.carLinkStatus_rxUp (l : Nat) : FieldRef := ⟨0x2801000 + l * 0x20, 1, 1⟩
def F.carLinkStatus_lanesBad (l : Nat) : FieldRef := ⟨0x2801000 + l * 0x20, 2, 9⟩
def F.carLinkStatus_spareFor (l : Nat) : FieldRef := ⟨0x2801000 + l * 0x20, 11, 4⟩
def F.carLinkStatus_spareUsed (l : Nat) : FieldRef := ⟨0x2801000 + l * 0x20, 15, 1⟩
def F.carLinkStatus_laserSpareUsed (l : Nat) : FieldRef := ⟨0x2801000 + l * 0x20, 16, 1⟩
def F.carLinkStatus_laserFail (l : Nat) : FieldRef := ⟨0x2801000 + l * 0x20, 17, 1⟩
def Reg.carLinkStatus (l : Nat) : Nat := 0x2801000 + l * 0x20
def F.carLinkCtrl_lane (l : Nat) : FieldRef := ⟨0x2801004 + l * 0x20, 0, 4⟩
def F.carLinkCtrl_laneGo (l : Nat) : FieldRef := ⟨0x2801004 + l * 0x20, 4, 1⟩
def F.carLinkCtrl_laserGo (l : Nat) : FieldRef := ⟨0x2801004 + l * 0x20, 5, 1⟩
def Reg.carLinkCtrl (l : Nat) : Nat := 0x2801004 + l * 0x20
def F.carLinkFecCorr_count (l : Nat) : FieldRef := ⟨0x2801008 + l * 0x20, 0, 32⟩
def Reg.carLinkFecCorr (l : Nat) : Nat := 0x2801008 + l * 0x20
def F.carLinkFecUncorr_count (l : Nat) : FieldRef := ⟨0x280100C + l * 0x20, 0, 32⟩
def Reg.carLinkFecUncorr (l : Nat) : Nat := 0x280100C + l * 0x20
def F.carLinkRetry_count (l : Nat) : FieldRef := ⟨0x2801010 + l * 0x20, 0, 32⟩
def Reg.carLinkRetry (l : Nat) : Nat := 0x2801010 + l * 0x20
def F.carLinkPower_txUw (l : Nat) : FieldRef := ⟨0x2801014 + l * 0x20, 0, 16⟩
def F.carLinkPower_rxUw (l : Nat) : FieldRef := ⟨0x2801014 + l * 0x20, 16, 16⟩
def Reg.carLinkPower (l : Nat) : Nat := 0x2801014 + l * 0x20
def F.carActExports_count (a : Nat) : FieldRef := ⟨0x2802000 + a * 0x10, 0, 9⟩
def Reg.carActExports (a : Nat) : Nat := 0x2802000 + a * 0x10
def F.mdwId_rack : FieldRef := ⟨0x3400000, 0, 16⟩
def Reg.mdwId : Nat := 0x3400000
def F.mdwCtrl_ethertype : FieldRef := ⟨0x3400004, 0, 16⟩
def F.mdwCtrl_rto : FieldRef := ⟨0x3400004, 16, 8⟩
def F.mdwCtrl_retryMax : FieldRef := ⟨0x3400004, 24, 4⟩
def Reg.mdwCtrl : Nat := 0x3400004
def F.mdwErr_valid : FieldRef := ⟨0x3400008, 0, 1⟩
def F.mdwErr_kind : FieldRef := ⟨0x3400008, 1, 2⟩
def F.mdwErr_port : FieldRef := ⟨0x3400008, 3, 1⟩
def F.mdwErr_act : FieldRef := ⟨0x3400008, 4, 4⟩
def Reg.mdwErr : Nat := 0x3400008
def F.mdwDropCount_count : FieldRef := ⟨0x340000C, 0, 32⟩
def Reg.mdwDropCount : Nat := 0x340000C
def F.mdwPortCtrl_enable (p : Nat) : FieldRef := ⟨0x3401000 + p * 0x100, 0, 1⟩
def F.mdwPortCtrl_pmd (p : Nat) : FieldRef := ⟨0x3401000 + p * 0x100, 1, 2⟩
def F.mdwPortCtrl_pfcEn (p : Nat) : FieldRef := ⟨0x3401000 + p * 0x100, 3, 1⟩
def F.mdwPortCtrl_mtu (p : Nat) : FieldRef := ⟨0x3401000 + p * 0x100, 16, 14⟩
def Reg.mdwPortCtrl (p : Nat) : Nat := 0x3401000 + p * 0x100
def F.mdwPortStatus_linkUp (p : Nat) : FieldRef := ⟨0x3401004 + p * 0x100, 0, 1⟩
def F.mdwPortStatus_pcsLock (p : Nat) : FieldRef := ⟨0x3401004 + p * 0x100, 1, 1⟩
def F.mdwPortStatus_localFault (p : Nat) : FieldRef := ⟨0x3401004 + p * 0x100, 2, 1⟩
def F.mdwPortStatus_remoteFault (p : Nat) : FieldRef := ⟨0x3401004 + p * 0x100, 3, 1⟩
def Reg.mdwPortStatus (p : Nat) : Nat := 0x3401004 + p * 0x100
def F.mdwPortMacLo_mac (p : Nat) : FieldRef := ⟨0x3401008 + p * 0x100, 0, 32⟩
def Reg.mdwPortMacLo (p : Nat) : Nat := 0x3401008 + p * 0x100
def F.mdwPortMacHi_mac (p : Nat) : FieldRef := ⟨0x340100C + p * 0x100, 0, 16⟩
def Reg.mdwPortMacHi (p : Nat) : Nat := 0x340100C + p * 0x100
def F.mdwPortTxFramesLo_count (p : Nat) : FieldRef := ⟨0x3401010 + p * 0x100, 0, 32⟩
def Reg.mdwPortTxFramesLo (p : Nat) : Nat := 0x3401010 + p * 0x100
def F.mdwPortTxFramesHi_count (p : Nat) : FieldRef := ⟨0x3401014 + p * 0x100, 0, 32⟩
def Reg.mdwPortTxFramesHi (p : Nat) : Nat := 0x3401014 + p * 0x100
def F.mdwPortRxFramesLo_count (p : Nat) : FieldRef := ⟨0x3401018 + p * 0x100, 0, 32⟩
def Reg.mdwPortRxFramesLo (p : Nat) : Nat := 0x3401018 + p * 0x100
def F.mdwPortRxFramesHi_count (p : Nat) : FieldRef := ⟨0x340101C + p * 0x100, 0, 32⟩
def Reg.mdwPortRxFramesHi (p : Nat) : Nat := 0x340101C + p * 0x100
def F.mdwPortFcsErr_count (p : Nat) : FieldRef := ⟨0x3401020 + p * 0x100, 0, 32⟩
def Reg.mdwPortFcsErr (p : Nat) : Nat := 0x3401020 + p * 0x100
def F.mdwPortFecUncorr_count (p : Nat) : FieldRef := ⟨0x3401024 + p * 0x100, 0, 32⟩
def Reg.mdwPortFecUncorr (p : Nat) : Nat := 0x3401024 + p * 0x100
def F.mdwPortPfcPaused_beats (p : Nat) : FieldRef := ⟨0x3401028 + p * 0x100, 0, 32⟩
def Reg.mdwPortPfcPaused (p : Nat) : Nat := 0x3401028 + p * 0x100
def F.mdwPtpCtrl_enable : FieldRef := ⟨0x3402000, 0, 1⟩
def F.mdwPtpCtrl_port : FieldRef := ⟨0x3402000, 1, 1⟩
def F.mdwPtpCtrl_domain : FieldRef := ⟨0x3402000, 2, 8⟩
def Reg.mdwPtpCtrl : Nat := 0x3402000
def F.mdwPtpTsInfo_count : FieldRef := ⟨0x3402004, 0, 5⟩
def F.mdwPtpTsInfo_overflow : FieldRef := ⟨0x3402004, 5, 1⟩
def F.mdwPtpTsInfo_dir : FieldRef := ⟨0x3402004, 6, 1⟩
def F.mdwPtpTsInfo_msgtype : FieldRef := ⟨0x3402004, 8, 4⟩
def F.mdwPtpTsInfo_seqid : FieldRef := ⟨0x3402004, 16, 16⟩
def Reg.mdwPtpTsInfo : Nat := 0x3402004
def F.mdwPtpTsBeatLo_beat : FieldRef := ⟨0x3402008, 0, 32⟩
def Reg.mdwPtpTsBeatLo : Nat := 0x3402008
def F.mdwPtpTsBeatHi_beat : FieldRef := ⟨0x340200C, 0, 32⟩
def Reg.mdwPtpTsBeatHi : Nat := 0x340200C
def F.mdwPtpTsSub_sub : FieldRef := ⟨0x3402010, 0, 10⟩
def Reg.mdwPtpTsSub : Nat := 0x3402010
def F.mdwPtpTsPop_pop : FieldRef := ⟨0x3402014, 0, 1⟩
def Reg.mdwPtpTsPop : Nat := 0x3402014
def F.mdwActKey_key (a : Nat) : FieldRef := ⟨0x3403000 + a * 0x10, 0, 32⟩
def Reg.mdwActKey (a : Nat) : Nat := 0x3403000 + a * 0x10
def F.mdwActCtrl_accept (a : Nat) : FieldRef := ⟨0x3403004 + a * 0x10, 0, 1⟩
def Reg.mdwActCtrl (a : Nat) : Nat := 0x3403004 + a * 0x10
/-! The registers and fields of Table 13.8, R397, by name. -/
def F.rgmCtrl_gatesEn : FieldRef := ⟨0x3000000, 0, 1⟩
def F.rgmCtrl_metersEn : FieldRef := ⟨0x3000000, 1, 1⟩
def F.rgmCtrl_sampleEn : FieldRef := ⟨0x3000000, 2, 1⟩
def Reg.rgmCtrl : Nat := 0x3000000
def F.rgmErr_valid : FieldRef := ⟨0x3000004, 0, 1⟩
def F.rgmErr_kind : FieldRef := ⟨0x3000004, 1, 3⟩
def F.rgmErr_channel : FieldRef := ⟨0x3000004, 4, 6⟩
def F.rgmErr_act : FieldRef := ⟨0x3000004, 10, 4⟩
def Reg.rgmErr : Nat := 0x3000004
def F.rgmPoolFree_cells : FieldRef := ⟨0x3000008, 0, 19⟩
def Reg.rgmPoolFree : Nat := 0x3000008
def F.rgmPoolShared_cells : FieldRef := ⟨0x300000C, 0, 19⟩
def Reg.rgmPoolShared : Nat := 0x300000C
def F.rgmPcpMap_pcp : FieldRef := ⟨0x3000010, 0, 12⟩
def Reg.rgmPcpMap : Nat := 0x3000010
def F.rgmSampleCtrl_periodLog2 : FieldRef := ⟨0x3000014, 0, 5⟩
def F.rgmSampleCtrl_ringLog2 : FieldRef := ⟨0x3000014, 8, 5⟩
def Reg.rgmSampleCtrl : Nat := 0x3000014
def F.rgmSampleBaseLo_base : FieldRef := ⟨0x3000018, 12, 20⟩
def Reg.rgmSampleBaseLo : Nat := 0x3000018
def F.rgmSampleBaseHi_base : FieldRef := ⟨0x300001C, 0, 14⟩
def Reg.rgmSampleBaseHi : Nat := 0x300001C
def F.rgmSampleWr_index : FieldRef := ⟨0x3000020, 0, 32⟩
def Reg.rgmSampleWr : Nat := 0x3000020
def F.rgmSampleRd_index : FieldRef := ⟨0x3000024, 0, 32⟩
def Reg.rgmSampleRd : Nat := 0x3000024
def F.rgmSampleDrop_count : FieldRef := ⟨0x3000028, 0, 32⟩
def Reg.rgmSampleDrop : Nat := 0x3000028
def F.rgmSampleChLo_sample : FieldRef := ⟨0x3000030, 0, 32⟩
def Reg.rgmSampleChLo : Nat := 0x3000030
def F.rgmSampleChHi_sample : FieldRef := ⟨0x3000034, 0, 11⟩
def Reg.rgmSampleChHi : Nat := 0x3000034
def F.rgmChGclCtrl_entries (n : Nat) : FieldRef := ⟨0x3001000 + n * 0x400, 0, 7⟩
def F.rgmChGclCtrl_cycleM1 (n : Nat) : FieldRef := ⟨0x3001000 + n * 0x400, 8, 16⟩
def F.rgmChGclCtrl_arm (n : Nat) : FieldRef := ⟨0x3001000 + n * 0x400, 24, 1⟩
def Reg.rgmChGclCtrl (n : Nat) : Nat := 0x3001000 + n * 0x400
def F.rgmChGclStatus_entry (n : Nat) : FieldRef := ⟨0x3001004 + n * 0x400, 0, 6⟩
def F.rgmChGclStatus_tookOver (n : Nat) : FieldRef := ⟨0x3001004 + n * 0x400, 6, 1⟩
def F.rgmChGclStatus_cancelled (n : Nat) : FieldRef := ⟨0x3001004 + n * 0x400, 7, 1⟩
def Reg.rgmChGclStatus (n : Nat) : Nat := 0x3001004 + n * 0x400
def F.rgmChTakeoverLo_beat (n : Nat) : FieldRef := ⟨0x3001008 + n * 0x400, 0, 32⟩
def Reg.rgmChTakeoverLo (n : Nat) : Nat := 0x3001008 + n * 0x400
def F.rgmChTakeoverHi_beat (n : Nat) : FieldRef := ⟨0x300100C + n * 0x400, 0, 32⟩
def Reg.rgmChTakeoverHi (n : Nat) : Nat := 0x300100C + n * 0x400
def F.rgmChActiveLo_beat (n : Nat) : FieldRef := ⟨0x3001010 + n * 0x400, 0, 32⟩
def Reg.rgmChActiveLo (n : Nat) : Nat := 0x3001010 + n * 0x400
def F.rgmChActiveHi_beat (n : Nat) : FieldRef := ⟨0x3001014 + n * 0x400, 0, 32⟩
def Reg.rgmChActiveHi (n : Nat) : Nat := 0x3001014 + n * 0x400
def F.rgmChReserve_cells (n : Nat) : FieldRef := ⟨0x3001018 + n * 0x400, 0, 19⟩
def Reg.rgmChReserve (n : Nat) : Nat := 0x3001018 + n * 0x400
def F.rgmChMax_cells (n : Nat) : FieldRef := ⟨0x300101C + n * 0x400, 0, 19⟩
def Reg.rgmChMax (n : Nat) : Nat := 0x300101C + n * 0x400
def F.rgmChUsed_cells (n : Nat) : FieldRef := ⟨0x3001020 + n * 0x400, 0, 19⟩
def Reg.rgmChUsed (n : Nat) : Nat := 0x3001020 + n * 0x400
def F.rgmChHoldMax_ns (n : Nat) : FieldRef := ⟨0x3001024 + n * 0x400, 0, 21⟩
def Reg.rgmChHoldMax (n : Nat) : Nat := 0x3001024 + n * 0x400
def F.rgmChBound_ns (n : Nat) : FieldRef := ⟨0x3001028 + n * 0x400, 0, 21⟩
def Reg.rgmChBound (n : Nat) : Nat := 0x3001028 + n * 0x400
def F.rgmChPend_entry (n i : Nat) : FieldRef := ⟨0x3001100 + n * 0x400 + i * 0x4, 0, 32⟩
def Reg.rgmChPend (n i : Nat) : Nat := 0x3001100 + n * 0x400 + i * 0x4
def F.rgmChActive_entry (n i : Nat) : FieldRef := ⟨0x3001200 + n * 0x400 + i * 0x4, 0, 32⟩
def Reg.rgmChActive (n i : Nat) : Nat := 0x3001200 + n * 0x400 + i * 0x4
def F.rgmMtrCtrl_mode (m : Nat) : FieldRef := ⟨0x3020000 + m * 0x20, 0, 2⟩
def F.rgmMtrCtrl_redDrop (m : Nat) : FieldRef := ⟨0x3020000 + m * 0x20, 2, 1⟩
def F.rgmMtrCtrl_apply (m : Nat) : FieldRef := ⟨0x3020000 + m * 0x20, 3, 1⟩
def Reg.rgmMtrCtrl (m : Nat) : Nat := 0x3020000 + m * 0x20
def F.rgmMtrCir_mbps (m : Nat) : FieldRef := ⟨0x3020004 + m * 0x20, 0, 24⟩
def Reg.rgmMtrCir (m : Nat) : Nat := 0x3020004 + m * 0x20
def F.rgmMtrPir_mbps (m : Nat) : FieldRef := ⟨0x3020008 + m * 0x20, 0, 24⟩
def Reg.rgmMtrPir (m : Nat) : Nat := 0x3020008 + m * 0x20
def F.rgmMtrCbs_bytes (m : Nat) : FieldRef := ⟨0x302000C + m * 0x20, 0, 32⟩
def Reg.rgmMtrCbs (m : Nat) : Nat := 0x302000C + m * 0x20
def F.rgmMtrPbs_bytes (m : Nat) : FieldRef := ⟨0x3020010 + m * 0x20, 0, 32⟩
def Reg.rgmMtrPbs (m : Nat) : Nat := 0x3020010 + m * 0x20
def F.rgmMtrGreen_count (m : Nat) : FieldRef := ⟨0x3020014 + m * 0x20, 0, 32⟩
def Reg.rgmMtrGreen (m : Nat) : Nat := 0x3020014 + m * 0x20
def F.rgmMtrYellow_count (m : Nat) : FieldRef := ⟨0x3020018 + m * 0x20, 0, 32⟩
def Reg.rgmMtrYellow (m : Nat) : Nat := 0x3020018 + m * 0x20
def F.rgmMtrRed_count (m : Nat) : FieldRef := ⟨0x302001C + m * 0x20, 0, 32⟩
def Reg.rgmMtrRed (m : Nat) : Nat := 0x302001C + m * 0x20
def F.rgmActShare_class1 (a : Nat) : FieldRef := ⟨0x3010000 + a * 0x10, 0, 8⟩
def F.rgmActShare_class2 (a : Nat) : FieldRef := ⟨0x3010000 + a * 0x10, 8, 8⟩
def F.rgmActShare_class3 (a : Nat) : FieldRef := ⟨0x3010000 + a * 0x10, 16, 8⟩
def Reg.rgmActShare (a : Nat) : Nat := 0x3010000 + a * 0x10
def F.rgmActPoolMax_cells (a : Nat) : FieldRef := ⟨0x3010004 + a * 0x10, 0, 19⟩
def Reg.rgmActPoolMax (a : Nat) : Nat := 0x3010004 + a * 0x10
def F.rgmActPoolUsed_cells (a : Nat) : FieldRef := ⟨0x3010008 + a * 0x10, 0, 19⟩
def Reg.rgmActPoolUsed (a : Nat) : Nat := 0x3010008 + a * 0x10
/-! The registers and fields of Tables 14.3 and 14.4, R414, R415, by name. -/
def F.talBeatLo_beat : FieldRef := ⟨0x100000, 0, 32⟩
def Reg.talBeatLo : Nat := 0x100000
def F.talBeatHi_beat : FieldRef := ⟨0x100004, 0, 32⟩
def Reg.talBeatHi : Nat := 0x100004
def F.talSub_sub : FieldRef := ⟨0x100008, 0, 10⟩
def Reg.talSub : Nat := 0x100008
def F.talCalCtrl_eligible : FieldRef := ⟨0x100010, 0, 1⟩
def F.talCalCtrl_source : FieldRef := ⟨0x100010, 1, 2⟩
def F.talCalCtrl_handover : FieldRef := ⟨0x100010, 3, 1⟩
def Reg.talCalCtrl : Nat := 0x100010
def F.talStatus_calliope : FieldRef := ⟨0x100014, 0, 1⟩
def F.talStatus_locked : FieldRef := ⟨0x100014, 1, 1⟩
def F.talStatus_holdover : FieldRef := ⟨0x100014, 2, 1⟩
def F.talStatus_calInOk : FieldRef := ⟨0x100014, 3, 1⟩
def F.talStatus_stepped : FieldRef := ⟨0x100014, 4, 1⟩
def F.talStatus_clockFail : FieldRef := ⟨0x100014, 5, 1⟩
def F.talStatus_calliopeNode : FieldRef := ⟨0x100014, 6, 6⟩
def Reg.talStatus : Nat := 0x100014
def F.talRateAdj_ppb : FieldRef := ⟨0x100018, 0, 32⟩
def Reg.talRateAdj : Nat := 0x100018
def F.talPhaseErr_ns : FieldRef := ⟨0x10001C, 0, 16⟩
def Reg.talPhaseErr : Nat := 0x10001C
def F.talStableLo_beat : FieldRef := ⟨0x100020, 0, 32⟩
def Reg.talStableLo : Nat := 0x100020
def F.talStableHi_beat : FieldRef := ⟨0x100024, 0, 32⟩
def Reg.talStableHi : Nat := 0x100024
def F.talCommittedLo_beat : FieldRef := ⟨0x100028, 0, 32⟩
def Reg.talCommittedLo : Nat := 0x100028
def F.talCommittedHi_beat : FieldRef := ⟨0x10002C, 0, 32⟩
def Reg.talCommittedHi : Nat := 0x10002C
def F.talHandoverBeatLo_beat : FieldRef := ⟨0x100030, 0, 32⟩
def Reg.talHandoverBeatLo : Nat := 0x100030
def F.talHandoverBeatHi_beat : FieldRef := ⟨0x100034, 0, 32⟩
def Reg.talHandoverBeatHi : Nat := 0x100034
def F.talWallBeatLo_beat : FieldRef := ⟨0x100040, 0, 32⟩
def Reg.talWallBeatLo : Nat := 0x100040
def F.talWallBeatHi_beat : FieldRef := ⟨0x100044, 0, 32⟩
def Reg.talWallBeatHi : Nat := 0x100044
def F.talWallSecLo_sec : FieldRef := ⟨0x100048, 0, 32⟩
def Reg.talWallSecLo : Nat := 0x100048
def F.talWallSecHi_sec : FieldRef := ⟨0x10004C, 0, 16⟩
def Reg.talWallSecHi : Nat := 0x10004C
def F.talWallNs_ns : FieldRef := ⟨0x100050, 0, 30⟩
def Reg.talWallNs : Nat := 0x100050
def F.talWallCtrl_publish : FieldRef := ⟨0x100054, 0, 1⟩
def Reg.talWallCtrl : Nat := 0x100054
def F.talEvtUsed_count : FieldRef := ⟨0x100060, 0, 15⟩
def Reg.talEvtUsed : Nat := 0x100060
def F.talEvtLate_count : FieldRef := ⟨0x100064, 0, 32⟩
def Reg.talEvtLate : Nat := 0x100064
def F.talEvtNextLo_beat : FieldRef := ⟨0x100068, 0, 32⟩
def Reg.talEvtNextLo : Nat := 0x100068
def F.talEvtNextHi_beat : FieldRef := ⟨0x10006C, 0, 32⟩
def Reg.talEvtNextHi : Nat := 0x10006C
def F.pwrCtrl_autoEn : FieldRef := ⟨0x300000, 0, 1⟩
def F.pwrCtrl_p4En : FieldRef := ⟨0x300000, 1, 1⟩
def F.pwrCtrl_marginNs : FieldRef := ⟨0x300000, 16, 16⟩
def Reg.pwrCtrl : Nat := 0x300000
def F.pwrStatus_p4 : FieldRef := ⟨0x300004, 0, 1⟩
def F.pwrStatus_waking : FieldRef := ⟨0x300004, 1, 1⟩
def Reg.pwrStatus : Nat := 0x300004
def F.pwrCrewMax_max : FieldRef := ⟨0x300008, 0, 32⟩
def Reg.pwrCrewMax : Nat := 0x300008
def F.pwrStackMax_allowP3 : FieldRef := ⟨0x30000C, 0, 24⟩
def Reg.pwrStackMax : Nat := 0x30000C
def F.pwrCrewState_state : FieldRef := ⟨0x300010, 0, 32⟩
def Reg.pwrCrewState : Nat := 0x300010
def F.pwrStackState_inP3 : FieldRef := ⟨0x300014, 0, 24⟩
def Reg.pwrStackState : Nat := 0x300014
def F.pwrP4Req_go : FieldRef := ⟨0x300018, 0, 1⟩
def F.pwrP4Req_wake : FieldRef := ⟨0x300018, 1, 1⟩
def Reg.pwrP4Req : Nat := 0x300018
def F.pwrP4WakeLo_beat : FieldRef := ⟨0x300020, 0, 32⟩
def Reg.pwrP4WakeLo : Nat := 0x300020
def F.pwrP4WakeHi_beat : FieldRef := ⟨0x300024, 0, 32⟩
def Reg.pwrP4WakeHi : Nat := 0x300024
def F.pwrPower_watts : FieldRef := ⟨0x300028, 0, 16⟩
def Reg.pwrPower : Nat := 0x300028
def F.pwrWakeLate_count : FieldRef := ⟨0x30002C, 0, 32⟩
def Reg.pwrWakeLate : Nat := 0x30002C
/-! The registers and fields of Table 15.6, R442, by name. -/
def F.hifLinkStatus_speed : FieldRef := ⟨0x400000, 0, 3⟩
def F.hifLinkStatus_width : FieldRef := ⟨0x400000, 3, 3⟩
def F.hifLinkStatus_flit : FieldRef := ⟨0x400000, 6, 1⟩
def F.hifLinkStatus_dlUp : FieldRef := ⟨0x400000, 7, 1⟩
def Reg.hifLinkStatus : Nat := 0x400000
def F.hifLinkCtrl_maxSpeed : FieldRef := ⟨0x400004, 0, 3⟩
def F.hifLinkCtrl_roEn : FieldRef := ⟨0x400004, 3, 1⟩
def F.hifLinkCtrl_l1En : FieldRef := ⟨0x400004, 4, 1⟩
def Reg.hifLinkCtrl : Nat := 0x400004
def F.hifAccErr_offset : FieldRef := ⟨0x400008, 0, 26⟩
def F.hifAccErr_func : FieldRef := ⟨0x400008, 26, 4⟩
def F.hifAccErr_write : FieldRef := ⟨0x400008, 30, 1⟩
def F.hifAccErr_valid : FieldRef := ⟨0x400008, 31, 1⟩
def Reg.hifAccErr : Nat := 0x400008
def F.hifBar2Err_kind : FieldRef := ⟨0x40000C, 0, 2⟩
def F.hifBar2Err_func : FieldRef := ⟨0x40000C, 26, 4⟩
def F.hifBar2Err_write : FieldRef := ⟨0x40000C, 30, 1⟩
def F.hifBar2Err_valid : FieldRef := ⟨0x40000C, 31, 1⟩
def Reg.hifBar2Err : Nat := 0x40000C
def F.hifBar2ErrAddrLo_addr : FieldRef := ⟨0x400010, 0, 32⟩
def Reg.hifBar2ErrAddrLo : Nat := 0x400010
def F.hifBar2ErrAddrHi_addr : FieldRef := ⟨0x400014, 0, 14⟩
def Reg.hifBar2ErrAddrHi : Nat := 0x400014
def F.hifVfStatus_enabled : FieldRef := ⟨0x400018, 1, 15⟩
def Reg.hifVfStatus : Nat := 0x400018
def F.hifOstCtrl_enable : FieldRef := ⟨0x400020, 0, 1⟩
def F.hifOstCtrl_active : FieldRef := ⟨0x400020, 1, 1⟩
def Reg.hifOstCtrl : Nat := 0x400020
def F.hifOstRoutine_handle : FieldRef := ⟨0x400024, 0, 32⟩
def Reg.hifOstRoutine : Nat := 0x400024
def F.hifFnBar2_gib (f : Nat) : FieldRef := ⟨0x410000 + f * 0x10000, 0, 16⟩
def F.hifFnBar2_enable (f : Nat) : FieldRef := ⟨0x410000 + f * 0x10000, 31, 1⟩
def Reg.hifFnBar2 (f : Nat) : Nat := 0x410000 + f * 0x10000
def F.hifFnPoll_period (f : Nat) : FieldRef := ⟨0x410004 + f * 0x10000, 0, 16⟩
def F.hifFnPoll_phase (f : Nat) : FieldRef := ⟨0x410004 + f * 0x10000, 16, 16⟩
def Reg.hifFnPoll (f : Nat) : Nat := 0x410004 + f * 0x10000
def F.sqBaseLo_base (f r : Nat) : FieldRef := ⟨0x410100 + f * 0x10000 + r * 0x40, 12, 20⟩
def Reg.sqBaseLo (f r : Nat) : Nat := 0x410100 + f * 0x10000 + r * 0x40
def F.sqBaseHi_base (f r : Nat) : FieldRef := ⟨0x410104 + f * 0x10000 + r * 0x40, 0, 32⟩
def Reg.sqBaseHi (f r : Nat) : Nat := 0x410104 + f * 0x10000 + r * 0x40
def F.cqBaseLo_base (f r : Nat) : FieldRef := ⟨0x410108 + f * 0x10000 + r * 0x40, 12, 20⟩
def Reg.cqBaseLo (f r : Nat) : Nat := 0x410108 + f * 0x10000 + r * 0x40
def F.cqBaseHi_base (f r : Nat) : FieldRef := ⟨0x41010C + f * 0x10000 + r * 0x40, 0, 32⟩
def Reg.cqBaseHi (f r : Nat) : Nat := 0x41010C + f * 0x10000 + r * 0x40
def F.ringCtrl_enable (f r : Nat) : FieldRef := ⟨0x410110 + f * 0x10000 + r * 0x40, 0, 1⟩
def F.ringCtrl_sizeLog2 (f r : Nat) : FieldRef := ⟨0x410110 + f * 0x10000 + r * 0x40, 1, 5⟩
def F.ringCtrl_inflightMax (f r : Nat) : FieldRef := ⟨0x410110 + f * 0x10000 + r * 0x40, 8, 13⟩
def F.ringCtrl_vector (f r : Nat) : FieldRef := ⟨0x410110 + f * 0x10000 + r * 0x40, 21, 4⟩
def Reg.ringCtrl (f r : Nat) : Nat := 0x410110 + f * 0x10000 + r * 0x40
def F.ringSeq_next (f r : Nat) : FieldRef := ⟨0x410114 + f * 0x10000 + r * 0x40, 0, 32⟩
def Reg.ringSeq (f r : Nat) : Nat := 0x410114 + f * 0x10000 + r * 0x40
def F.cqHead_count (f r : Nat) : FieldRef := ⟨0x410118 + f * 0x10000 + r * 0x40, 0, 32⟩
def Reg.cqHead (f r : Nat) : Nat := 0x410118 + f * 0x10000 + r * 0x40
def F.cqTail_count (f r : Nat) : FieldRef := ⟨0x41011C + f * 0x10000 + r * 0x40, 0, 32⟩
def Reg.cqTail (f r : Nat) : Nat := 0x41011C + f * 0x10000 + r * 0x40
def F.ringMod_count (f r : Nat) : FieldRef := ⟨0x410120 + f * 0x10000 + r * 0x40, 0, 8⟩
def F.ringMod_timer (f r : Nat) : FieldRef := ⟨0x410120 + f * 0x10000 + r * 0x40, 8, 16⟩
def Reg.ringMod (f r : Nat) : Nat := 0x410120 + f * 0x10000 + r * 0x40
def F.ringStatus_inflight (f r : Nat) : FieldRef := ⟨0x410124 + f * 0x10000 + r * 0x40, 0, 13⟩
def F.ringStatus_cqFull (f r : Nat) : FieldRef := ⟨0x410124 + f * 0x10000 + r * 0x40, 13, 1⟩
def F.ringStatus_fetchErr (f r : Nat) : FieldRef := ⟨0x410124 + f * 0x10000 + r * 0x40, 14, 1⟩
def Reg.ringStatus (f r : Nat) : Nat := 0x410124 + f * 0x10000 + r * 0x40
def F.msixAddrLo_addr (f v : Nat) : FieldRef := ⟨0x418000 + f * 0x10000 + v * 0x10, 0, 32⟩
def Reg.msixAddrLo (f v : Nat) : Nat := 0x418000 + f * 0x10000 + v * 0x10
def F.msixAddrHi_addr (f v : Nat) : FieldRef := ⟨0x418004 + f * 0x10000 + v * 0x10, 0, 32⟩
def Reg.msixAddrHi (f v : Nat) : Nat := 0x418004 + f * 0x10000 + v * 0x10
def F.msixData_data (f v : Nat) : FieldRef := ⟨0x418008 + f * 0x10000 + v * 0x10, 0, 32⟩
def Reg.msixData (f v : Nat) : Nat := 0x418008 + f * 0x10000 + v * 0x10
def F.msixCtrl_mask (f v : Nat) : FieldRef := ⟨0x41800C + f * 0x10000 + v * 0x10, 0, 1⟩
def F.msixCtrl_rest (f v : Nat) : FieldRef := ⟨0x41800C + f * 0x10000 + v * 0x10, 1, 31⟩
def Reg.msixCtrl (f v : Nat) : Nat := 0x41800C + f * 0x10000 + v * 0x10
def F.msixPba_pending (f : Nat) : FieldRef := ⟨0x419000 + f * 0x10000, 0, 16⟩
def Reg.msixPba (f : Nat) : Nat := 0x419000 + f * 0x10000
/-! The registers and fields of Tables 16.9 to 16.11, R467 to R469, by name. -/
def F.rstCause_code : FieldRef := ⟨0x200000, 0, 4⟩
def F.rstCause_level : FieldRef := ⟨0x200000, 4, 2⟩
def F.rstCause_absorbed : FieldRef := ⟨0x200000, 6, 1⟩
def Reg.rstCause : Nat := 0x200000
def F.rstCauseBeatLo_beat : FieldRef := ⟨0x200008, 0, 32⟩
def Reg.rstCauseBeatLo : Nat := 0x200008
def F.rstCauseBeatHi_beat : FieldRef := ⟨0x20000C, 0, 32⟩
def Reg.rstCauseBeatHi : Nat := 0x20000C
def F.rstLevelMap_map : FieldRef := ⟨0x200010, 0, 16⟩
def Reg.rstLevelMap : Nat := 0x200010
def F.rstPinMap_map : FieldRef := ⟨0x200014, 0, 10⟩
def Reg.rstPinMap : Nat := 0x200014
def F.rstFilter_width : FieldRef := ⟨0x200018, 0, 8⟩
def Reg.rstFilter : Nat := 0x200018
def F.rstSw_level : FieldRef := ⟨0x200020, 0, 2⟩
def F.rstSw_go : FieldRef := ⟨0x200020, 2, 1⟩
def F.rstSw_key : FieldRef := ⟨0x200020, 16, 16⟩
def Reg.rstSw : Nat := 0x200020
def F.rstWdtCtrl_en : FieldRef := ⟨0x200030, 0, 1⟩
def F.rstWdtCtrl_periodLog2 : FieldRef := ⟨0x200030, 1, 5⟩
def Reg.rstWdtCtrl : Nat := 0x200030
def F.rstWdtKick_key : FieldRef := ⟨0x200034, 0, 16⟩
def Reg.rstWdtKick : Nat := 0x200034
def F.rstWdtLeft_beats : FieldRef := ⟨0x200038, 0, 25⟩
def Reg.rstWdtLeft : Nat := 0x200038
def F.rstBlkCtrl_block : FieldRef := ⟨0x200040, 0, 6⟩
def F.rstBlkCtrl_go : FieldRef := ⟨0x200040, 6, 1⟩
def Reg.rstBlkCtrl : Nat := 0x200040
def F.rstBlkStatus_block : FieldRef := ⟨0x200044, 0, 6⟩
def F.rstBlkStatus_busy : FieldRef := ⟨0x200044, 6, 1⟩
def F.rstBlkStatus_timeout : FieldRef := ⟨0x200044, 7, 1⟩
def F.rstBlkStatus_absorbed : FieldRef := ⟨0x200044, 8, 1⟩
def Reg.rstBlkStatus : Nat := 0x200044
def F.rstBlkTimeout_beats : FieldRef := ⟨0x200048, 0, 16⟩
def Reg.rstBlkTimeout : Nat := 0x200048
def F.rstActCtrl_act : FieldRef := ⟨0x200050, 0, 4⟩
def F.rstActCtrl_go : FieldRef := ⟨0x200050, 4, 1⟩
def Reg.rstActCtrl : Nat := 0x200050
def F.rstActStatus_busy : FieldRef := ⟨0x200054, 0, 16⟩
def F.rstActStatus_absorbed : FieldRef := ⟨0x200054, 16, 1⟩
def Reg.rstActStatus : Nat := 0x200054
def F.asyStatus_bootState : FieldRef := ⟨0x3800000, 0, 2⟩
def F.asyStatus_bootErr : FieldRef := ⟨0x3800000, 2, 8⟩
def F.asyStatus_debugOpened : FieldRef := ⟨0x3800000, 10, 1⟩
def F.asyStatus_logFull : FieldRef := ⟨0x3800000, 11, 1⟩
def Reg.asyStatus : Nat := 0x3800000
def F.asySvn_fused : FieldRef := ⟨0x3800004, 0, 6⟩
def F.asySvn_image : FieldRef := ⟨0x3800004, 8, 6⟩
def Reg.asySvn : Nat := 0x3800004
def F.asyCtrl_hostLoad : FieldRef := ⟨0x3800008, 0, 1⟩
def F.asyCtrl_writeBack : FieldRef := ⟨0x3800008, 1, 1⟩
def F.asyCtrl_commitSvn : FieldRef := ⟨0x3800008, 2, 1⟩
def F.asyCtrl_extIndex : FieldRef := ⟨0x3800008, 4, 3⟩
def F.asyCtrl_extGo : FieldRef := ⟨0x3800008, 7, 1⟩
def Reg.asyCtrl : Nat := 0x3800008
def F.asyHostImgLo_addr : FieldRef := ⟨0x3800010, 0, 32⟩
def Reg.asyHostImgLo : Nat := 0x3800010
def F.asyHostImgHi_addr : FieldRef := ⟨0x3800014, 0, 32⟩
def Reg.asyHostImgHi : Nat := 0x3800014
def F.asyHostImgLen_bytes : FieldRef := ⟨0x3800018, 0, 23⟩
def Reg.asyHostImgLen : Nat := 0x3800018
def F.asyLogCount_count : FieldRef := ⟨0x3800020, 0, 11⟩
def Reg.asyLogCount : Nat := 0x3800020
def F.asyIdHash_bytes (i : Nat) : FieldRef := ⟨0x3800100 + i * 0x4, 0, 32⟩
def Reg.asyIdHash (i : Nat) : Nat := 0x3800100 + i * 0x4
def F.asyMeas_bytes (m i : Nat) : FieldRef := ⟨0x3800200 + m * 0x40 + i * 0x4, 0, 32⟩
def Reg.asyMeas (m i : Nat) : Nat := 0x3800200 + m * 0x40 + i * 0x4
def F.asyExtData_bytes (i : Nat) : FieldRef := ⟨0x3800400 + i * 0x4, 0, 32⟩
def Reg.asyExtData (i : Nat) : Nat := 0x3800400 + i * 0x4
def F.dbgStatus_state : FieldRef := ⟨0x3E00000, 0, 2⟩
def F.dbgStatus_result : FieldRef := ⟨0x3E00000, 2, 2⟩
def F.dbgStatus_scope : FieldRef := ⟨0x3E00000, 4, 3⟩
def Reg.dbgStatus : Nat := 0x3E00000
def F.dbgCtrl_submit : FieldRef := ⟨0x3E00004, 0, 1⟩
def F.dbgCtrl_req : FieldRef := ⟨0x3E00004, 1, 1⟩
def F.dbgCtrl_close : FieldRef := ⟨0x3E00004, 2, 1⟩
def Reg.dbgCtrl : Nat := 0x3E00004
def F.dbgNonce_bytes (i : Nat) : FieldRef := ⟨0x3E00040 + i * 0x4, 0, 32⟩
def Reg.dbgNonce (i : Nat) : Nat := 0x3E00040 + i * 0x4
def F.dbgToken_bytes (i : Nat) : FieldRef := ⟨0x3E00100 + i * 0x4, 0, 32⟩
def Reg.dbgToken (i : Nat) : Nat := 0x3E00100 + i * 0x4
/-! The registers and fields of Table 17.7, R489, by name. -/
def F.funCtrl_en : FieldRef := ⟨0x3C00000, 0, 1⟩
def F.funCtrl_key : FieldRef := ⟨0x3C00000, 16, 16⟩
def Reg.funCtrl : Nat := 0x3C00000
def F.funStatus_fired : FieldRef := ⟨0x3C00004, 0, 16⟩
def F.funStatus_touched : FieldRef := ⟨0x3C00004, 16, 1⟩
def Reg.funStatus : Nat := 0x3C00004
def F.funSparePolicy_testFails : FieldRef := ⟨0x3C00010, 0, 4⟩
def F.funSparePolicy_windowLog2 : FieldRef := ⟨0x3C00010, 4, 5⟩
def F.funSparePolicy_chRowLimit : FieldRef := ⟨0x3C00010, 16, 8⟩
def F.funSparePolicy_autoEn : FieldRef := ⟨0x3C00010, 24, 1⟩
def Reg.funSparePolicy : Nat := 0x3C00010
def F.funSpareLog_valid : FieldRef := ⟨0x3C00014, 0, 1⟩
def F.funSpareLog_kind : FieldRef := ⟨0x3C00014, 1, 3⟩
def F.funSpareLog_unit : FieldRef := ⟨0x3C00014, 4, 5⟩
def F.funSpareLog_index : FieldRef := ⟨0x3C00014, 9, 5⟩
def F.funSpareLog_exhausted : FieldRef := ⟨0x3C00014, 14, 1⟩
def Reg.funSpareLog : Nat := 0x3C00014
def F.funInputs_resetHeld : FieldRef := ⟨0x3C00018, 0, 1⟩
def F.funInputs_perstAsserted : FieldRef := ⟨0x3C00018, 1, 1⟩
def F.funInputs_pwrFailLatched : FieldRef := ⟨0x3C00018, 2, 1⟩
def F.funInputs_holdupLow : FieldRef := ⟨0x3C00018, 3, 1⟩
def F.funInputs_calInFault : FieldRef := ⟨0x3C00018, 4, 1⟩
def Reg.funInputs : Nat := 0x3C00018
def F.funPCtrl_arm (n : Nat) : FieldRef := ⟨0x3C00100 + n * 0x20, 0, 1⟩
def F.funPCtrl_kind (n : Nat) : FieldRef := ⟨0x3C00100 + n * 0x20, 1, 5⟩
def F.funPCtrl_count (n : Nat) : FieldRef := ⟨0x3C00100 + n * 0x20, 8, 8⟩
def F.funPCtrl_actMatch (n : Nat) : FieldRef := ⟨0x3C00100 + n * 0x20, 16, 1⟩
def F.funPCtrl_act (n : Nat) : FieldRef := ⟨0x3C00100 + n * 0x20, 17, 4⟩
def Reg.funPCtrl (n : Nat) : Nat := 0x3C00100 + n * 0x20
def F.funPTarget_target (n : Nat) : FieldRef := ⟨0x3C00104 + n * 0x20, 0, 16⟩
def Reg.funPTarget (n : Nat) : Nat := 0x3C00104 + n * 0x20
def F.funPParam_param (n : Nat) : FieldRef := ⟨0x3C00108 + n * 0x20, 0, 32⟩
def Reg.funPParam (n : Nat) : Nat := 0x3C00108 + n * 0x20
def F.funPBeatLo_beat (n : Nat) : FieldRef := ⟨0x3C00110 + n * 0x20, 0, 32⟩
def Reg.funPBeatLo (n : Nat) : Nat := 0x3C00110 + n * 0x20
def F.funPBeatHi_beat (n : Nat) : FieldRef := ⟨0x3C00114 + n * 0x20, 0, 32⟩
def Reg.funPBeatHi (n : Nat) : Nat := 0x3C00114 + n * 0x20
def F.funPLeft_left (n : Nat) : FieldRef := ⟨0x3C00118 + n * 0x20, 0, 8⟩
def Reg.funPLeft (n : Nat) : Nat := 0x3C00118 + n * 0x20

end Sys2Proof.Machine
end

