-- ==== Sys2Proof/Machine/State.lean ====
section
/-! DEFINITION. The state of the node, as plain data: the register bank and the structures behind it, the memories with their
check bits, the Filaux state, the rings, and every engine's work in progress. Also the machine right after reset, and the reasons
a command can stop. -/
namespace Sys2Proof.Machine

/-! ## Memory (chapter 10) -/

/-- A row of a stack channel or of a crew-store macro: kind 0 stack, 1 SRAM; its unit (stack or crew), its channel or macro,
and its number there (R308). -/
structure RowId where
  kind : Nat
  unit : Nat
  sub : Nat
  row : Nat
deriving DecidableEq, Repr

/-- A row's hits in the current period: the last syndrome counted for each block, and the count (R308). -/
structure RowHits where
  row : RowId
  last : List (Nat × BitVec 48)
  count : Nat
deriving DecidableEq, Repr

/-- The memories: the bytes of the stacks and crew stores by physical address (stack view or crew-store window), and for each
64-byte block the difference between its stored check bits and those of its data (R301). Only differences from an empty memory are
listed. -/
structure MemSt where
  bytes : List Host.Cell
  /-- stored check bits XOR the check bits of the stored data, by block number -/
  syn : List (Nat × BitVec 48)
  /-- channels whose lost map began with every bit set: stack, channel (R309) -/
  lostCh : List (Nat × Nat)
  /-- blocks whose lost-map bit differs from its channel's start -/
  lostX : List (Nat × Bool)
  /-- dead channels: stack, channel (R310) -/
  deadCh : List (Nat × Nat)
  /-- sparing copies that run: stack, channel (R309) -/
  copies : List (Nat × Nat)
  hits : List RowHits
  /-- rows whose retirement copy runs -/
  retiring : List RowId
  retired : List RowId
  /-- rows retired in the current period by channel: stack × 32 + channel (R483) -/
  period : List (Nat × Nat)
deriving DecidableEq, Repr

/-- What an allocation holds. -/
inductive AllocKind where
  | arg (job : Nat) | result (job : Nat) | work (strand : Nat)
  | tile (id : Nat) | expansion (id : Nat)
  | native (act handle : Nat) | pool (act handle : Nat)
  | index (act obj : Nat) | cache (act obj : Nat)
  | move (id : Nat)
  /-- a home that is left: it is released when the reads that began before have completed (R291, R294) -/
  | old (id : Nat)
deriving DecidableEq, Repr

/-- An allocation of pool space or of crew store (R110, R289): a physical address, a length and the act it is charged to. -/
structure Alloc where
  addr : Nat
  len : Nat
  act : Nat
  kind : AllocKind
deriving DecidableEq, Repr

/-! ## Tiles (chapters 4, 5 and 7) -/

/-- The exact accumulator of R223: an integer in units of 2^-149 and its flags. -/
structure Acc320 where
  acc : Int
  pinf : Bool
  ninf : Bool
  nan : Bool
  allneg0 : Bool
  n : Nat
deriving DecidableEq, Repr

/-- The directory of one lane of a list (R205). -/
structure LaneDir where
  count : Nat
  overflow : Bool
  cut : Bool
  left : Acc320
deriving DecidableEq, Repr

/-- The sideband of a LIST tile: its kind (0 integer, 1 FP32), stride and lanes (R204, R205), and for scan output the commit beat
of every entry, where one can be read (R512). -/
structure ListInfo where
  kind : Nat
  stride : Nat
  dirs : List LaneDir
  beats : Option (List (List (Option Nat)))
deriving DecidableEq, Repr

/-- A tile: its owner, its persistent names (none for a transient tile, and a second one for an imported tile that was saved, R160), format and shape (R111, R112), sideband (R114), stored
CRC (R304), home (R290) and placement preference. The payload stands in memory at the home, raw or as a Crusher stream (R296). -/
structure Tile where
  id : Nat
  act : Nat
  names : List Nat
  fmt : Nat
  shape : Nat
  /-- the home holds a Crusher stream -/
  packed : Bool
  /-- the tensor scale, a binary32 pattern -/
  tscale : Nat
  /-- the block size code of Table 5.1 -/
  bs : Nat
  /-- 0 ROWS, 1 COLS -/
  axis : Nat
  scales : List Byte
  crc : Nat
  /-- physical address of the home, and the length of the payload or stream there -/
  home : Nat
  len : Nat
  pref : Nat
  info : Option ListInfo
  /-- the beat of the last read, and the crew and beat of the last HEW read of a pool home (R293) -/
  lastRead : Nat
  hewRead : List (Nat × Nat)
  /-- a drop waits for the last handle (R89) -/
  dropping : Bool
deriving DecidableEq, Repr

/-- The expansion of a packed tile (R158, R298): the handles (strand, register) that opened it, whether it is finished, and its
home. -/
structure Expansion where
  tile : Nat
  job : Nat
  handles : List (Nat × Nat)
  done : Bool
  /-- its home, or nothing where none could be had (R133) -/
  home : Option Nat
deriving DecidableEq, Repr

/-- A tier move (R294): the tile, the target home and what it holds, and after the flip the source until its release. -/
structure TierMove where
  id : Nat
  tile : Nat
  target : Nat
  len : Nat
  packed : Bool
  flipped : Bool
deriving DecidableEq, Repr

/-- A query-table slot (Table 6.6). -/
structure Slot where
  code : Nat
  subq8 : Bool
  metric : Nat
  nsub : Nat
  scale : Nat
  bias : Nat
  thresh : Nat
  /-- the 128-byte filter of Table 6.7 -/
  filter : List Byte
  table : List Byte
deriving DecidableEq, Repr

/-! ## Filaux (chapter 2) -/

/-- A register, handle or slot that an instruction reads or writes (R48). -/
inductive Res where
  | t (n : Nat) | q (n : Nat) | s (n : Nat) | d (n : Nat) | p (n : Nat)
deriving DecidableEq, Repr

/-- One effect of an engine instruction, held from its issue to its completion point (R47). -/
inductive Effect where
  | setS (r : Nat) (v : DWord)
  | setD (r : Nat) (v : BitVec 128)
  | setP (r : Nat) (v : Bool)
  /-- the handle names the tile -/
  | bindT (r : Nat) (tile : Nat)
  | dropT (r : Nat)
  | setQ (r : Nat) (v : Slot)
  /-- bytes stored at a node address, by an ordinary write (0) or a Winze write (1) -/
  | mem (source : Nat) (addr : Nat) (data : List Byte)
  /-- bytes written to host memory under a function -/
  | host (fn : Nat) (addr : Nat) (data : List Byte)
  /-- a tile's record takes new contents -/
  | tile (v : Tile)
  /-- a register count grows, up to its largest value -/
  | count (off lo width : Nat) (n : Nat)
  /-- a 64-bit register pair counts on -/
  | count64 (lo hi : Nat) (n : Nat)
  | telem (ctr : Nat) (n : Nat)
  /-- the deferred fault of R255 -/
  | faultAt (cause : Nat) (addr : Nat)
  /-- a bit of the job's degrade mask -/
  | mask (bits : Nat)
deriving DecidableEq, Repr

/-- What an engine instruction waits for before it can reach its completion point. -/
inductive Gate where
  /-- nothing outside: the engine finishes it -/
  | engine
  /-- the completion point of a Winze operation -/
  | winze (id : Nat)
  /-- a response to a Carousel request -/
  | rack (id : Nat)
  /-- durability of flash writes -/
  | flash (id : Nat)
  /-- the commit beat of a list record -/
  | commit (beat : Nat)
  /-- the other contributions of an ordered reduction -/
  | ored (slot : Nat)
  /-- the fetches of a rerank -/
  | rerank (id : Nat)
  /-- room in a seam's side list -/
  | append (id : Nat)
  /-- its own writes, which wait behind a Winze range (R250) -/
  | interlock
deriving DecidableEq, Repr

/-- An engine instruction between its issue and its completion point. -/
structure Inflight where
  tag : Nat
  cls : Nat
  func : Nat
  pc : Nat
  reads : List Res
  writes : List Res
  gate : Gate
  effects : List Effect
  issued : Nat
deriving DecidableEq, Repr

/-- Why a strand issues nothing. -/
inductive Wait where
  | no
  /-- TAL.WAITB: until beat `b`, with the value its predicate takes (R54) -/
  | waitb (b p : Nat) (v : Bool)
  | fence | wfence | cfence
  /-- behind the fence of a barrier, and at it (R52) -/
  | barFence (idx : Nat)
  | bar (idx : Nat)
  /-- SYN.ORED on a slot, with its destination (R91) -/
  | ored (slot dst : Nat)
  /-- the END of the strand, behind its fence (R86) -/
  | ending
  /-- an index instruction for a later snapshot (R201): class, function and the word -/
  | snapshot (cls func : Nat) (o : Insn)
  /-- an access to a range that a Winze instruction holds (R250): the instruction issues once the range is free -/
  | held
deriving DecidableEq, Repr

/-- A strand (R33): its registers, of which only those that differ from zero or invalid are listed, and what it waits for. -/
structure Strand where
  id : Nat
  job : Nat
  k : Nat
  crew : Nat
  core : Nat
  pc : Nat
  s : List (Nat × DWord)
  d : List (Nat × BitVec 128)
  t : List (Nat × Option Nat)
  p : List (Nat × Bool)
  q : List (Nat × Option Slot)
  /-- pages that MOV.TSTORE has written of each list handle (R207) -/
  stored : List (Nat × Nat)
  wait : Wait
  since : Nat
  inflight : List Inflight
  ended : Bool
deriving DecidableEq, Repr

/-- A contribution to an ordered reduction (R91): the work index, the values, and who made it. -/
structure Contrib where
  idx : Nat
  vals : List Nat
  strand : Nat
  tag : Nat
deriving DecidableEq, Repr

/-- An open ordered-reduction slot of a job (R92). -/
structure Ored where
  job : Nat
  hew : Bool
  slot : Nat
  n : Nat
  op : Nat
  fmt : Nat
  shape : Nat
  since : Nat
  contribs : List Contrib
deriving DecidableEq, Repr

/-- A job descriptor (Table 2.7). -/
structure Desc where
  jobId : Nat
  routine : Nat
  flags : Nat
  slice : Nat
  strands : Nat
  snapshot : Nat
  deadline : Nat
  argAddr : Nat
  argLen : Nat
  resLen : Nat
  resAddr : Nat
  inline : List Byte
  seq : Nat
  forcedMask : Nat
deriving DecidableEq, Repr

/-- Where a job stands between its pick-up and its completion. -/
inductive Phase where
  /-- held for its snapshot (R57 step 2), since the beat given -/
  | snapshot (since : Nat)
  /-- waiting for its argument block or an image from host memory -/
  | argument
  /-- waiting for free control cores -/
  | cores
  /-- running strands -/
  | running
  /-- a loader call in progress -/
  | loader
  /-- waiting for a pair to take effect, or for a ledger (R477, R479) -/
  | pair | ledger
  /-- ended: its completion waits for its turn (R432, R433) -/
  | ended
deriving DecidableEq, Repr

/-- Where a Midway job came from (R374): port, source address, tag, message number and key. -/
structure MdwOrigin where
  port : Nat
  mac : Nat
  tag : Option Nat
  msg : Nat
  key : Nat
deriving DecidableEq, Repr

/-- A request pair (R475): its slice, partner and ledger, its step, the beat at which it takes effect, and the loader job of the call. -/
structure Pair where
  act : Nat
  slice : Nat
  partner : Nat
  ledger : Nat
  entries : Nat
  slot : Nat
  key : Nat
  addr : Nat
  step : Nat
  start : Nat
  job : Nat
  /-- LEDGER_NODE has been removed from the Carousel (R481) -/
  broken : Bool
deriving DecidableEq, Repr

/-- A job from its pick-up to its completion (R57 to R60). -/
structure Job where
  id : Nat
  act : Nat
  /-- ring 0 to 3, or 4 for the Midway ring -/
  ring : Nat
  /-- its number on the ring -/
  num : Nat
  desc : Desc
  phase : Phase
  pickup : Nat
  snapshot : Nat
  rerun : Bool
  /-- the crews it may run on -/
  crews : List Nat
  count : Nat
  /-- argument and result areas in crew store, and the routine's constant pool -/
  arg : Nat
  res : Nat
  /-- the argument bytes, for a loader call and for a Midway job -/
  data : List Byte
  status : Nat
  detail : Nat
  result : Nat
  mask : Nat
  /-- result bytes that a loader call returns -/
  ret : List Byte
  /-- the deadline's effects have been applied (R64) -/
  cutDone : Bool
  /-- an ADT.READ took its soft outcome, or some item is uncorrectable (status 0x0002) -/
  soft : Bool
  replayed : Bool
  /-- the Midway message that it came in -/
  origin : Option MdwOrigin
  /-- the pair under which it runs (R478) -/
  pair : Option Pair
  /-- its result writes are the egress units with identifiers from the first to below the second (R434) -/
  sent : Nat × Nat
  /-- PERST_N came while it was in flight: its result and completion are discarded (R453) -/
  discard : Bool
deriving DecidableEq, Repr

/-- A loaded routine (R25 to R30). -/
structure Routine where
  act : Nat
  handle : Nat
  priv : Bool
  det : Bool
  smin : Nat
  smax : Nat
  tiles : Nat
  qslots : Nat
  store : Nat
  entry : Nat
  code : List DWord
  poolAddr : Nat
  poolLen : Nat
  unloaded : Bool
deriving DecidableEq, Repr

/-- A slice (R18): the act that owns it, its crews and Carousel links as bit masks, and its stack channels by stack × 32 + channel. -/
structure Slice where
  act : Nat
  num : Nat
  crews : Nat
  links : Nat
  chans : List Nat
deriving DecidableEq, Repr

/-- A resource that has left a slice and joins its new one, if any, once the last job that the old slice admitted before the beat has
completed (R19): crew c as c, link l as 16 + l, and a stack channel as 32 + stack × 32 + channel. -/
structure Leaving where
  res : Nat
  act : Nat
  num : Nat
  beat : Nat
deriving DecidableEq, Repr

/-- A scheduled recomposition (R19). -/
structure Recompose where
  beat : Nat
  slice : Slice
deriving DecidableEq, Repr

/-- The Filaux side of the node: routines, jobs, strands, tiles, reductions and slices. -/
structure FilauxSt where
  routines : List Routine
  jobs : List Job
  strands : List Strand
  oreds : List Ored
  slices : List Slice
  recompose : List Recompose
  joining : List Leaving
  tiles : List Tile
  expansions : List Expansion
  moves : List TierMove
  allocs : List Alloc
  /-- what has been busy in the current beat: crews by their hewers, stacks + 16 by their Winze units, 40 producers that wait for cells,
  41 completions that wait (Tables 4.7, 8.8, 13.9 and 15.7) -/
  busy : List Nat
  /-- request pairs, in force or to come -/
  pairs : List Pair
deriving DecidableEq, Repr

/-! ## The host interface (chapter 15) -/

/-- An entry of a Midway ring (R438): where it came from, its descriptor and its argument block. -/
structure MdwEntry where
  origin : MdwOrigin
  desc : List Byte
  arg : List Byte
deriving DecidableEq, Repr

/-- What a ring holds beside its registers (R427, R437): its act, and its number 0 to 3, or 4 for the Midway ring. -/
structure Ring where
  act : Nat
  ring : Nat
  /-- the 64-bit number of the next descriptor -/
  next : Nat
  /-- completions written -/
  tail : Nat
  /-- descriptors whose full read is outstanding, or which wait for an earlier one: number, and the bytes once read -/
  fetching : List (Nat × Option (List Byte))
  /-- completions with NOTIFY since the last message, and the beat of the first -/
  notify : Nat
  since : Nat
  /-- a message that waits until the completions up to this egress unit have been sent (R434) -/
  message : Option Nat
  entries : List MdwEntry
deriving DecidableEq, Repr

/-- What leaves the node. -/
inductive Out where
  | hostRead (fn addr len : Nat)
  | hostWrite (fn addr : Nat) (data : List Byte) (relaxed : Bool)
  | msix (fn vec addr data : Nat)
  | completion (fn status : Nat) (data : List Byte)
  /-- the data of a register read, back to its reader -/
  | regData (src : Src) (data : List Byte)
  /-- a broadcast, and an acknowledgement of one, on the link of its ring where one visits every member (R369) -/
  | bcast (link : Option Nat) (b : Bcast)
  | bcastAck (link : Option Nat) (b : Bcast)
  /-- a Carousel packet, on the way to its link -/
  | packet (p : Packet)
  /-- a link frame: link, sequence number, the buffer class of its virtual channel (R349), the header (R370), the Crusher stream of a
  SQUEEZE frame (R161), and the packet -/
  | frame (link seq buf : Nat) (head : List Byte) (stream : Option (List Byte)) (p : Packet)
  /-- a frame refused by its sequence number (R368) -/
  | refuse (link seq : Nat)
  /-- a hello of a member or of a joining node: SIZE and position (R353) -/
  | hello (size position : Nat)
  | midway (port : Nat) (data : List Byte)
  /-- a pause frame: port, priority, and whether it pauses or resumes (R371) -/
  | pfc (port prio : Nat) (pause : Bool)
  /-- a record for a seam's home, and its answer: the fault cause or 0, and the commit beat -/
  | record (node : Nat) (r : SeamRecord)
  | recordDone (node strand tag cause commit : Nat)
  | seamCopy (node : Nat) (c : SeamCopy)
  /-- a rerank fetch sent to a home, and a vector returned (R224) -/
  | fetch (node act loc id pos : Nat)
  | vector (node id pos : Nat) (vec : Option (List Byte)) (cached : Bool)
  /-- the close marker with the backfill that moves with the seam (R192) -/
  | closeMarker (node act seam : Nat) (backfill : Option Nat)
  | marker (beat : Nat)
  | committed (node beat : Nat)
  /-- the state of a pin group (Table 16.3) -/
  | pins (group state : Nat)
  /-- ALERT_N or THERMTRIP_N asserted or not -/
  | alert (trip asserted : Bool)
  /-- a frame whose CRC a perturbation corrupts (Table 17.5) -/
  | badFrame (link seq : Nat)
  /-- an image written to boot flash (R458) -/
  | bootFlash (image : List Byte)
  /-- a claim at the ledger of another node (R478): the entry that it would write, and its result half -/
  | claim (node addr : Nat) (entry half : List Byte)
  /-- a page transfer on a flash channel: whether it reads, and the channel, and what it belongs to -/
  | flash (read : Bool) (chan key : Nat)
deriving DecidableEq, Repr

/-- The host interface's state beside its registers. -/
structure HostSt where
  rings : List Ring
  /-- nothing is written to host memory, from PERST_N until a ring is enabled again (R453) -/
  mute : Bool
  /-- BAR2 reads that wait for a Winze range: function, node address and length -/
  reads : List (Nat × Nat × Nat)
  /-- what has left the node, newest first -/
  out : List Out
deriving DecidableEq, Repr

/-! ## Winze units (chapter 8) -/

/-- Where a part of a WNZ instruction stands (R233 to R236): at the dispatcher, sent to its stack's queue, received there, taken by
the units, or finished. -/
inductive PartAt where
  | dispatcher | queued | arrived | running | done
deriving DecidableEq, Repr

/-- A part of a WNZ instruction: its stack, where it stands, the positions in the list or the entries that it was sent, how many of
them finished chunks have covered, its 64-byte command (Table 8.2), and its place in the order of arrival. -/
structure WnzPart where
  stack : Nat
  stands : PartAt
  /-- list positions, for BAG, UPD and GATHER -/
  items : List Nat
  count : Nat
  next : Nat
  cmd : List Byte
  order : Nat
deriving DecidableEq, Repr

/-- A WNZ instruction from its issue to its completion point (R233): its registered ranges (R250), its parts, and what its units found
on the way. -/
structure WnzOp where
  id : Nat
  act : Nat
  job : Nat
  func : Nat
  imm : Nat
  strand : Nat
  tag : Nat
  srcs : List (Nat × Nat)
  dsts : List (Nat × Nat)
  registered : Bool
  /-- its place in the order of registration, and the beat -/
  order : Nat
  regBeat : Nat
  /-- its registration sequence number at each stack that it touches (Table 8.2) -/
  seqs : List (Nat × Nat)
  /-- its list has been read (R233 step 5), or it has none -/
  listed : Bool
  parts : List WnzPart
  /-- SCAN: the slots, the tile that takes the output, and whether the commit beats are those of a version -/
  slots : List Slot
  tile : Nat
  cut : Nat
  /-- BAG, UPD and GATHER: the table, its version, its extent and the row length -/
  table : Nat
  version : Nat
  base : Nat
  len : Nat
  rowBytes : Nat
  /-- the list: row indices, and the bag offsets or the record length -/
  rows : List Nat
  offsets : List Nat
  /-- list positions whose row was uncorrectable (R255), or whose scale reads 0xFF (R273) -/
  bad : List Nat
  badScale : List Nat
  /-- the rows that BAG and GATHER units have sent up: list position and bytes -/
  got : List (Nat × List Byte)
  issued : Nat
deriving DecidableEq, Repr

/-- Whose write the interlock holds: an agent that waits for nothing, a strand's scalar store (R46), an engine instruction that completes
with its last write (R47), a Carousel packet that is answered when it has been performed (R362), or a scrub, which has still to read its
block or only to write it back. -/
inductive HeldFor where
  | nobody
  | store (strand : Nat)
  | engine (strand tag : Nat)
  | rack (p : Packet)
  | scrub (read : Bool)
deriving DecidableEq, Repr

/-- An ordinary write inside one 64-byte block that the interlock holds, or that waits at its channel's port (R252): the operation that it
waits for. -/
structure HeldWrite where
  op : Nat
  whose : HeldFor
  addr : Nat
  data : List Byte
deriving DecidableEq, Repr

/-- A row on its way to another stack (R278): its loader job, its flip beat, and its stage: 0 waits to enter MOVING, 1 MOVING, 2 MOVING
with the copy complete. -/
structure RowMove where
  row : Nat
  source : Nat
  target : Nat
  flip : Nat
  job : Nat
  stage : Nat
deriving DecidableEq, Repr

/-- An update record held at a row that moves (R278 step 4). -/
structure HeldRecord where
  op : Nat
  pos : Nat
  row : Nat
  opt : Nat
  bytes : List Byte
deriving DecidableEq, Repr

/-- A MIGRATE block in progress: its loader job, its flip beat and the rows flipped so far. -/
structure MoveBlock where
  job : Nat
  flip : Nat
  flipped : Nat
deriving DecidableEq, Repr

/-- The load of a window (R276): rows read and records applied by stack, and the space-saving summary of a tracked table. -/
structure Load where
  reads : List (Nat × Nat)
  updates : List (Nat × Nat)
  hot : List (Nat × Nat)
deriving DecidableEq, Repr

/-- A version of a table's extent that lookups may still use (R104). -/
structure OldExtent where
  version : Nat
  base : Nat
  len : Nat
  dir : List (Nat × Nat)
deriving DecidableEq, Repr

/-- An embedding table (R263) with its directory of moved rows (row and home, R277), its migrations and its pending swap. -/
structure Table where
  act : Nat
  num : Nat
  fmt : Nat
  e : Nat
  base : Nat
  len : Nat
  version : Nat
  dir : List (Nat × Nat)
  moves : List RowMove
  held : List HeldRecord
  blocks : List MoveBlock
  /-- swap beat, base and length -/
  swap : Option (Nat × Nat × Nat)
  olds : List OldExtent
  /-- the beat of the last completed lookup of the current version, and of the replaced one (0 while some remain) -/
  lastDone : Nat
  ver : Option Nat
  load : Load
  lastLoad : Load
  lastStart : Nat
  lastHomes : List (Nat × Nat)
  /-- the loader job of an UNDEFINE that waits -/
  undef : Option Nat
deriving DecidableEq, Repr

/-- The Winze units, the dispatcher, the interlock and the tables, in the order of their definition. -/
structure WinzeSt where
  ops : List WnzOp
  /-- in the order of their arrival -/
  held : List HeldWrite
  /-- the latest registration sequence number of each stack (Table 8.2) -/
  seqs : List (Nat × Nat)
  tables : List Table
deriving DecidableEq, Repr

/-! ## Index and search (chapters 6 and 7) -/

/-- A headframe record (Table 6.9) with its centroid's BF16 bytes, and whether READY has come for its pending move (R194). -/
structure HfRec where
  seam : Nat
  home : Nat
  state : Nat
  stateBeat : Nat
  nextHome : Nat
  nextBeat : Nat
  ready : Bool
  /-- moves that follow the pending one (Table 6.10): target, beat, and whether READY has come -/
  more : List (Nat × Nat × Bool)
  entry : Bool
  edges : List Nat
  cent : List Byte
deriving DecidableEq, Repr

/-- A headframe graph (R165, R167): the beat from which it routes, its BODY_CRC and NODES, its pool space, and what a withdrawal
undoes: whether it defined the index and the seams that it created; and the scheduling fields that it brought. The pool space is a list
of pieces, which may lie in several stacks. -/
structure Graph where
  activeBeat : Nat
  crc : Nat
  nodes : Nat
  addrs : List Nat
  first : Bool
  /-- ROUTE_EF, BF_PERMILLE, BF_LEAD, RETAIN and BF_SHARE -/
  sched : List Nat
  made : List Nat
  /-- the install is no longer in doubt -/
  settled : Bool
  recs : List HfRec
deriving DecidableEq, Repr

/-- A seam version (Table 6.3) by its header's address, with the jobs that opened it (R102). The version's bytes stand in memory. -/
structure Version where
  num : Nat
  count : Nat
  npad : Nat
  cut : Nat
  publish : Nat
  sideSeq : Nat
  tombSeq : Nat
  addr : Nat
  readers : List Nat
deriving DecidableEq, Repr

/-- A list extent (R180): its address, its capacity in records, the sequence number of its first record, and the jobs that opened
a view of it. The records stand in memory. -/
structure Extent where
  addr : Nat
  cap : Nat
  first : Nat
  readers : List Nat
deriving DecidableEq, Repr

/-- A tombstone (Table 6.8b). -/
structure Tomb where
  id : Nat
  commit : Nat
  seq : Nat
deriving DecidableEq, Repr

/-- A seam held on this node: its versions, newest first, its lists, the pending backfill (R187) and the version being written. -/
structure Seam where
  act : Nat
  seam : Nat
  versions : List Version
  side : Extent
  tomb : Extent
  nextSide : Nat
  nextTomb : Nat
  /-- extents that a view may still hold -/
  oldSide : List Extent
  oldTomb : List Extent
  backfill : Option Nat
  writing : Option Version
  /-- the source forwards every record (R192 step 4) -/
  forwarding : Bool
deriving DecidableEq, Repr

/-- An act's index (R165). -/
structure Index where
  act : Nat
  dim : Nat
  metric : Nat
  code : Nat
  subq8 : Bool
  vfmt : Nat
  extra : Bool
  /-- the scheduling fields: ROUTE_EF, BF_PERMILLE, BF_LEAD, RETAIN, BF_SHARE -/
  routeEf : Nat
  bfPermille : Nat
  bfLead : Nat
  retain : Nat
  bfShare : Nat
  vecFirst : Nat
  vecPages : Nat
  /-- FP32 patterns in the order of R168 -/
  codebook : List Nat
  graphs : List Graph
  seams : List Seam
  /-- 64-byte units of the vector area in use: first unit and count -/
  runs : List (Nat × Nat)
  /-- vector-area pages with bytes not yet written to flash: page and contents -/
  dirty : List (Nat × List Byte)
deriving DecidableEq, Repr

/-- An append or delete that its seam's home has not written yet (R187, R181). -/
structure HeldAppend where
  id : Nat
  what : SeamRecord
deriving DecidableEq, Repr

/-- A stack cache copy of a full vector (R21, R300): where its vector lies, the lengths of its packed streams, its pool address, and
whether its vector is durable. -/
structure CacheCopy where
  id : Nat
  act : Nat
  page : Nat
  unit : Nat
  len : Nat
  streams : List (Nat × Bool)
  addr : Nat
  durable : Bool
deriving DecidableEq, Repr

/-- A rebalance at its source or its target (R192): whether the target holds the bulk copy and has sent READY, whether the source has
sent the close marker and the target has received it, and whether every node has acknowledged the pending change. -/
structure Rebalance where
  act : Nat
  seam : Nat
  source : Nat
  target : Nat
  beat : Nat
  copied : Bool
  closed : Bool
  closeSeen : Bool
  acked : Bool
deriving DecidableEq, Repr

/-- A retirement whose acknowledgements are outstanding (R195). -/
structure RetireHold where
  act : Nat
  seam : Nat
  beat : Nat
deriving DecidableEq, Repr

/-- An act's exchange (R208). -/
structure Exchange where
  act : Nat
  base : Nat
  len : Nat
  key : Nat
  slotBytes : Nat
  replyBytes : Nat
  maxProbes : Nat
  wait : Nat
  guard : Nat
  entries : Nat
  intake : Nat
  tail : Nat
deriving DecidableEq, Repr

/-- A lane of an open cage (Table 7.5). -/
structure Lane where
  slot : Nat
  source : Nat
  probeIdx : Nat
  depth : Nat
  deadline : Nat
  filtered : Bool
deriving DecidableEq, Repr

/-- An open cage (R212). -/
structure Cage where
  act : Nat
  seam : Nat
  snapshot : Nat
  opened : Nat
  lanes : List Lane
  /-- why it is no longer open: 3 a record of seams that are gone, 4 the open-cage limit; its record is written at the end of the beat -/
  closing : Option Nat
deriving DecidableEq, Repr

/-- One fetch of a rerank (R224): whether the home has served it, whether it has arrived, the vector's bytes where one came, and whether
it came from a cache copy. -/
structure Fetch where
  served : Bool
  arrived : Bool
  vec : Option (List Byte)
  cached : Bool
deriving DecidableEq, Repr

/-- An SLU.DIST in list form in progress (R224): the query, the entries' slots, q0's SCALE and BIAS, the fetches in entry order, and the
cut where one is decided (R225). -/
structure Rerank where
  id : Nat
  act : Nat
  job : Nat
  strand : Nat
  tag : Nat
  tile : Nat
  stride : Nat
  query : List Nat
  entries : List (List Byte)
  scale : Nat
  bias : Nat
  metric : Nat
  fetches : List Fetch
  /-- the cut, and whether the deadline decided it -/
  cut : Option (Nat × Bool)
deriving DecidableEq, Repr

/-- The index engine, the exchanges and the reranks. -/
structure IndexSt where
  indexes : List Index
  heldApps : List HeldAppend
  caches : List CacheCopy
  rebalances : List Rebalance
  retires : List RetireHold
  /-- the parts that jobs have opened: job, address, length (R288) -/
  opened : List (Nat × Nat × Nat)
  exchanges : List Exchange
  cages : List Cage
  reranks : List Rerank
  /-- records written in the current beat: act, seam, vector (R181) -/
  written : List (Nat × Nat × Nat)
  /-- install reports received: act, ACTIVE_BEAT, BODY_CRC, node (R167) -/
  reports : List (Nat × Nat × Nat × Nat)
deriving DecidableEq, Repr

/-! ## The Carousel (chapter 12) -/

/-- An export (R356), and the loader job of an unexport that waits for its copies (R357). -/
structure Export where
  act : Nat
  base : Nat
  len : Nat
  rights : Nat
  key : Nat
  closing : Option Nat
deriving DecidableEq, Repr

/-- What the answer to a request brings to the node that sent it. -/
inductive Wants where
  /-- CAR.LD: the register that takes the value -/
  | load (reg : Nat)
  /-- an acknowledgement: ST, PUT, ATOMN, INV -/
  | done
  /-- CAR.GET: the node address that takes the data -/
  | get (dst : Nat)
  /-- CAR.ATOM: the register that takes the old value -/
  | old (reg : Nat)
  /-- an invalidation that the home sent -/
  | dropped
deriving DecidableEq, Repr

/-- A request that this node has sent and not seen answered (R367): the packet, its instruction, the beat of the last sending, the
resends, what it wants, whether an invalidation or a newer read or write has passed the fill that it asks for (R364, R366), and whether its
last sending went onto a link. -/
structure Request where
  pkt : Packet
  strand : Nat
  tag : Nat
  sent : Nat
  tries : Nat
  wants : Wants
  killed : Bool
  onWay : Bool
deriving DecidableEq, Repr

/-- A reading copy (R363): its home, its page there, the act and key that fetched it, and its address in the copy store. The bytes
stand in memory. -/
structure CopyPage where
  node : Nat
  page : Nat
  act : Nat
  key : Nat
  addr : Nat
deriving DecidableEq, Repr

/-- Who waits for an invalidation at the home: a request from another node, an instruction of this node, or an unexport. -/
inductive InvFor where
  | asker (p : Packet)
  | here (strand tag : Nat)
  | unexport (job : Nat)
deriving DecidableEq, Repr

/-- An invalidation in progress at the home (R364): the requests whose acknowledgements are outstanding. -/
structure InvJob where
  id : Nat
  /-- the invalidation requests: sharer and sequence number -/
  out : List (Nat × Nat)
  wanted : InvFor
deriving DecidableEq, Repr

/-- A request performed as target (R367): source, VC, sequence number and the old value of an atomic. -/
structure Performed where
  src : Nat
  vc : Nat
  seq : Nat
  old : Nat
deriving DecidableEq, Repr

/-- A membership change to come (R353 to R355): 0 admission, 1 planned leave, 2 loss, 3 removal of a failed join; for a link that is
down, the ring on which the position is lost (R347). -/
structure Member where
  kind : Nat
  position : Nat
  beat : Nat
  ring : Option Nat
deriving DecidableEq, Repr

/-- A frame in a link's retry buffer (R368): the link, the sequence number, the packet, how often it was refused, and whether it is
sent in mode 0. -/
structure TxFrame where
  link : Nat
  seq : Nat
  pkt : Packet
  refused : Nat
  plain : Bool
deriving DecidableEq, Repr

/-- The Carousel side of the node. -/
structure CarSt where
  exports : List Export
  reqs : List Request
  /-- reading copies, the one used last first -/
  copies : List CopyPage
  /-- the copy directory of a home: page, and a sharer -/
  sharers : List (Nat × Nat)
  invs : List InvJob
  /-- newest first -/
  performed : List Performed
  /-- the next end-to-end number by target and VC: target × 4 + VC -/
  seqs : List (Nat × Nat)
  changes : List Member
  /-- rings on which a position is lost: position, ring -/
  lostRings : List (Nat × Nat)
  /-- the beat at which the node began to listen, the admission beat that it waits for with the members named there, and the beat of the
  last marker heard -/
  listenFrom : Nat
  admission : Option (Nat × Nat)
  lastMarker : Nat
  /-- hellos heard while joining: the incoming links -/
  hellos : List Nat
  /-- positions admitted and not yet seen as members: position, admission beat -/
  joins : List (Nat × Nat)
  /-- packets delivered to this node and not yet taken, in order of arrival -/
  inbox : List Packet
  /-- those that wait for a Winze range and have been counted (R260) -/
  waits : List Packet
  retry : List TxFrame
  /-- the next frame number by outgoing link, and the next one expected by incoming link -/
  txSeq : List (Nat × Nat)
  rxSeq : List (Nat × Nat)
  /-- broadcasts that this node sent and whose acknowledgements are outstanding -/
  unacked : List Bcast
deriving DecidableEq, Repr

/-! ## The Midway ports (R371 to R375) -/

/-- A fragment in flight: its index, the beat of its last sending and its resends. -/
structure Frag where
  idx : Nat
  sent : Nat
  tries : Nat
deriving DecidableEq, Repr

/-- A message on its way out (R373, R374): its port, destination and tag, its header fields, its fragments, the next one to send, those
in flight, whether it waits for a RESULT, and the loader job that sent it (0: the node's own RESULT). -/
structure MdwSend where
  port : Nat
  mac : Nat
  tag : Option Nat
  act : Nat
  type : Nat
  key : Nat
  msg : Nat
  frags : List (List Byte)
  next : Nat
  flight : List Frag
  total : Nat
  wait : Bool
  job : Nat
deriving DecidableEq, Repr

/-- A Midway frame that passed the checks of R372. -/
structure MdwFrame where
  port : Nat
  mac : Nat
  type : Nat
  act : Nat
  rack : Nat
  node : Nat
  last : Bool
  frag : Nat
  msg : Nat
  key : Nat
  total : Nat
  data : List Byte
  tag : Option Nat
  /-- the priority of its tag -/
  prio : Nat
deriving DecidableEq, Repr

/-- A message on its way in: where it comes from, and the fragments received. -/
structure MdwRecv where
  port : Nat
  mac : Nat
  type : Nat
  act : Nat
  rack : Nat
  node : Nat
  msg : Nat
  total : Nat
  count : Option Nat
  frags : List (Nat × List Byte)
deriving DecidableEq, Repr

/-- A PTP timestamp (R375): 0 received, 1 sent; the message type and sequence number; beat and sub-beat. -/
structure PtpStamp where
  dir : Nat
  type : Nat
  seq : Nat
  beat : Nat
  sub : Nat
deriving DecidableEq, Repr

/-- The Midway ports. -/
structure MdwSt where
  sends : List MdwSend
  /-- frames received and not yet taken -/
  frames : List MdwFrame
  recvs : List MdwRecv
  /-- the next message number to send, by destination and act, and the next one to deliver, by source and act -/
  txNext : List (Nat × Nat × Nat)
  rxNext : List (Nat × Nat × Nat)
  stamps : List PtpStamp
  /-- priorities that a peer has paused, and those that this node has paused at its peer: port, priority -/
  paused : List (Nat × Nat)
  pausing : List (Nat × Nat)
deriving DecidableEq, Repr

/-! ## The Ringmaster (chapter 13) -/

/-- A unit of traffic in its queue (R383): its channel, act and class, its length (R390), the due beat of class 3, the time in ns at which
it entered, the cells that it holds (R394), its colour (0 untested, 1 green, 2 yellow, 3 red), and what leaves the node with it. -/
structure Unit_ where
  id : Nat
  chan : Nat
  act : Nat
  cls : Nat
  len : Nat
  due : Option Nat
  entered : Nat
  cells : Nat
  colour : Nat
  out : Option Out
deriving DecidableEq, Repr

/-- A channel's gate state: the entries of the active list, its current entry and when that began in ns, the takeover beat of an armed list;
the deficits by class × 16 + act, and by class the act whose turn it is with whether its quantum has been added (R388); since when
BACK_HOLD stalls a unit (R389); and a beat with the time in ns that class 0 has
then taken and that is not covered yet (R383). -/
structure Chan where
  entries : Nat
  cycle : Nat
  entry : Nat
  start : Nat
  armed : Option Nat
  deficits : List (Nat × Nat)
  turns : List (Nat × Nat × Bool)
  stalled : Option Nat
  ctrl : Nat × Nat
deriving DecidableEq, Repr

/-- A meter in effect (R391): its number, fields and buckets in thousandths of a byte, and when they were last filled in ns. -/
structure Meter where
  num : Nat
  mode : Nat
  redDrop : Bool
  cir : Nat
  pir : Nat
  cbs : Nat
  pbs : Nat
  tc : Nat
  tp : Nat
  at_ : Nat
deriving DecidableEq, Repr

/-- What a queue has done since the last sample (R395). -/
structure QStat where
  chan : Nat
  act : Nat
  cls : Nat
  maxDepth : Nat
  sent : Nat
deriving DecidableEq, Repr

/-- The Ringmaster. -/
structure RgmSt where
  /-- queued units in order of entry -/
  units : List Unit_
  /-- units whose producers wait for cells, in order -/
  waiting : List Unit_
  chans : List Chan
  meters : List Meter
  /-- meter fields submitted, and the beat of the write (R393) -/
  applies : List (Meter × Nat)
  stats : List QStat
  /-- the beat of the last sample, plus one -/
  sampled : Nat
deriving DecidableEq, Repr
/-! ## Flash (chapter 11) -/

/-- A run of a sealed segment (R317, R333): which 256 pages, the stripe and the first of its 256 data slots, and its discard map, in
which the pages never written count as discarded (R326). -/
structure Run where
  idx : Nat
  stripe : Nat
  first : Nat
  gone : Nat
deriving DecidableEq, Repr

/-- The map of a logical segment that the node holds (R317): its act, segment, generation, whether it is sealed, whether an act
has attached it (R320), and the runs of a sealed one. -/
structure SegMap where
  id : Nat
  act : Nat
  lseg : Nat
  gen : Nat
  sealed : Bool
  bound : Bool
  runs : List Run
deriving DecidableEq, Repr

/-- Where a flash page stands: channel, die, block stripe and page offset (R333). -/
structure Place where
  chan : Nat
  die : Nat
  stripe : Nat
  off : Nat
deriving DecidableEq, Repr

/-- A block stripe that is allocated (R333, R335): SLC or QLC, its channels, the data slots taken so far, whether the flush that
recorded its allocation has completed, and whether that was after the last checkpoint. -/
structure Stripe where
  num : Nat
  slc : Bool
  chans : List Nat
  next : Nat
  ready : Bool
  recent : Bool
deriving DecidableEq, Repr

/-- The pages of a stripe at one page offset that are programmed, by channel, and their XOR: with the last, the parity page (R333). -/
structure Parity where
  stripe : Nat
  off : Nat
  chans : List Nat
  data : List Byte
deriving DecidableEq, Repr

/-- The contents of a logical page: those of the operation with the greatest write sequence that is programmed, or a discard
(R324, R326). A page that is not listed has never been written. -/
structure FPage where
  act : Nat
  page : Nat
  wseq : Nat
  gen : Nat
  /-- KIND of the tag: 0 data, 2 fold or relocation copy (Table 11.5) -/
  kind : Nat
  /-- nothing for a discard -/
  data : Option (List Byte)
  slc : Bool
  place : Place
  /-- a second failure in its stripe has made it uncorrectable (R334) -/
  lost : Bool
deriving DecidableEq, Repr

/-- A page write that has arrived and is not yet durable (R324, R325). -/
structure FWrite where
  wseq : Nat
  act : Nat
  page : Nat
  map : Nat
  data : List Byte
  /-- the ADT.WRITE that wrote it; strand 0 is the index engine -/
  strand : Nat
  tag : Nat
  slc : Bool
  /-- its program has started; else it waits for SLC space -/
  started : Bool
  /-- the place that its program takes -/
  place : Place
deriving DecidableEq, Repr

/-- A copy of a page on its way (R332): 0 fold, 1 relocation, 2 rebuild. -/
structure Fold where
  act : Nat
  page : Nat
  wseq : Nat
  kind : Nat
  /-- where the copy goes -/
  place : Place
deriving DecidableEq, Repr

/-- A journal record since the last completed flush. -/
inductive JRec where
  /-- a discard with what the page held, which a card may lose (R339) -/
  | discard (act page wseq : Nat) (old : Option FPage)
  /-- a segment operation with the map and the pages before it -/
  | seg (act lseg gen : Nat) (old : Option SegMap) (pages : List FPage)
  /-- a page written -/
  | page (act page wseq : Nat)
  /-- a flip, and the stripe that it leaves (R332) -/
  | flip (act page source : Nat)
  /-- a stripe allocated -/
  | alloc (stripe : Nat)
  /-- a side-list entry or a tombstone of a seam (R185) -/
  | entry (act seam : Nat) (tomb : Bool) (bytes : List Byte)
deriving DecidableEq, Repr

/-- A SEAL that waits for its folds (Table 11.4): its job, the maps, and what the loader answers. -/
structure Sealing where
  job : Nat
  maps : List Nat
  status : Nat
  detail : Nat
  result : Nat
  ret : List Byte
deriving DecidableEq, Repr

/-- The Adit flash subsystem. -/
structure FlashSt where
  card : FlashCard
  formatted : Bool
  permille : Nat
  wseq : Nat
  gen : Nat
  maps : List SegMap
  attached : List Nat
  pages : List FPage
  /-- copies that a later operation or a flip has replaced, in blocks not yet erased -/
  stale : List FPage
  writes : List FWrite
  stripes : List Stripe
  parity : List Parity
  folds : List Fold
  /-- relocations that wait for free slots: act, page, kind -/
  owed : List (Nat × Nat × Nat)
  sealings : List Sealing
  /-- records since the start of the flush under way, and those that it writes -/
  jbuf : List JRec
  jout : List JRec
  flushing : Option Nat
  /-- discards that wait for a flush, and for the flush under way: strand, tag -/
  discWait : List (Nat × Nat)
  discOut : List (Nat × Nat)
  /-- flushes completed: every 512th completes a checkpoint (R335) -/
  flushes : Nat
  /-- C of R331 in bytes, as the last flush beat left it -/
  cap : Nat
  pinShort : Bool
  shortSince : Bool
  /-- the power-down flush has begun, and its record: whether it says short (R337) -/
  quiet : Bool
  pd : Option Bool
  /-- a recovery that runs, to a beat, and the time in ms that it will have taken (R338) -/
  recover : Option (Nat × Nat)
  /-- dies whose rebuild runs: channel, die -/
  rebuild : List (Nat × Nat)
  retDies : List (Nat × Nat)
  /-- blocks retired: channel, stripe -/
  badBlocks : List (Nat × Nat)
  /-- blocks and dies retired since the last FORMAT -/
  retBlocks : Nat
  retSince : Nat
  /-- how often FORMAT has erased every block, and the erasures of each stripe beside these -/
  eraseBase : Nat
  wear : List (Nat × Nat)
  /-- dies that answer no status poll, from a beat, and reads that LDPC will not correct (Table 17.5) -/
  silent : List (Nat × Nat × Nat)
  failNext : List (Nat × Nat)
deriving DecidableEq, Repr

/-! ## Time and power (chapter 14) -/

/-- A source's snapshot of the count (R414). A function, the Shift boss (16), or a strand (17 and its identifier). -/
structure Snap where
  source : Nat × Nat
  beat : Nat
  sub : Nat
deriving DecidableEq, Repr

/-- The Tally: the beat and sub-beat (R399), the stable beat and the committed beats behind it (R407), Calliope handovers to come
(R404), a wall-time anchor that loads at the next beat (R406), and the sources' snapshots. -/
structure TallySt where
  beat : Nat
  sub : Nat
  stable : Nat
  committed : Nat
  /-- the last committed beat received from each other member: node, beat -/
  published : List (Nat × Nat)
  /-- handovers: beat, node -/
  handovers : List (Nat × Nat)
  wall : Option (Nat × Nat × Nat)
  snaps : List Snap
  /-- the beat from which the node runs without markers -/
  holdFrom : Nat
  /-- the beats at which CLOCK_FAIL was set (R472) -/
  clockFails : List Nat
deriving DecidableEq, Repr

/-- A power domain: a crew or a stack. -/
inductive Domain where
  | crew (n : Nat) | stack (n : Nat)
deriving DecidableEq, Repr

/-- The power controller: domains on their way to P0, with the time in ns at which they are there (R411), the time at which the node has
left P4 (R412), and whether the power estimate holds crew issue back (R500). -/
structure PowerSt where
  waking : List (Domain × Nat)
  p4Exit : Option Nat
  capHold : Bool
deriving DecidableEq, Repr

/-! ## Reset, boot and Assay (chapter 16) -/

/-- A reset sequence under way (R450): its level (0 cold, 1 warm, 2 compute), its source, and the beat at which logic was put in reset. -/
structure Resetting where
  level : Nat
  code : Nat
  asserted : Option Nat
deriving DecidableEq, Repr

/-- A reset source raised and not yet taken (R449): its code, its level and the beat. -/
structure Raised where
  code : Nat
  level : Nat
  beat : Nat
deriving DecidableEq, Repr

/-- Resets: the sequence under way, the sources raised and not yet taken, the beat of the last watchdog restart, the
block reset that runs and the beat of its request. -/
structure RstSt where
  run : Option Resetting
  raised : List Raised
  wdtFrom : Nat
  block : Option (Nat × Nat)
deriving DecidableEq, Repr

/-- Assay: the log, one 128-byte entry after the other (R462). -/
structure AsyState where
  log : List (List Byte)
deriving DecidableEq, Repr

/-! ## Failures, perturbations, pins, heat and supply (chapters 17 and 18) -/

/-- What perturbations have set up and not yet spent (Table 17.5): frames to corrupt (0) or drop (1) by link, streams to damage by path and
check; and until when crews stall, requests to a node are held, rerank fetches are held, and no hellos are sent. -/
structure FunSt where
  frames : List (Nat × Nat)
  streams : List (Nat × Nat)
  stalls : List (Nat × Nat)
  reqHolds : List (Nat × Nat)
  fetchHold : Nat
  helloHold : Nat
  /-- the request packets held so far -/
  held : List Packet
deriving DecidableEq, Repr

/-- Pins, heat and supply: the time in ns of the last assertion of PWR_FAIL_N, the beat at which it was deasserted, why ALERT_N is asserted
(0 heat, 1 trip, 2 power fail), whether THERMTRIP_N is asserted, the crews and stacks that are too warm, the stacks that refresh at twice the
rate, whether the supplies are good, and the states of the five groups of Table 16.3 (0 high impedance, 1 low, 2 high, 3 weak pull-up, 4
released by the ROM). -/
structure PinSt where
  failAt : Nat
  failClear : Option Nat
  alerts : List Nat
  tripped : Bool
  hot : List Domain
  doubled : List Nat
  powered : Bool
  groups : List Nat
deriving DecidableEq, Repr

/-- The node. -/
structure State where
  tally : TallySt
  /-- registers by BAR0 offset: the word XOR its reset value -/
  regs : List (Nat × BitVec 32)
  /-- telemetry counters by CTR number -/
  telem : List (Nat × Nat)
  mem : MemSt
  fil : FilauxSt
  host : HostSt
  wnz : WinzeSt
  idx : IndexSt
  car : CarSt
  mdw : MdwSt
  rgm : RgmSt
  pwr : PowerSt
  flash : FlashSt
  rst : RstSt
  asy : AsyState
  fun_ : FunSt
  pins : PinSt
  /-- the model's own: how many free values have been drawn -/
  free : Nat
  /-- the model's own: the next identifier of a job, strand, tile or operation -/
  nextId : Nat
  pending : List Instr
deriving DecidableEq, Repr

/-- Why the machine stops with a fault. -/
inductive Fault where
  /-- the part is outside the conditions of R508, for which the spec states no behaviour: nothing raises it in this model, which is
  safe -/
  | outsideLimits
deriving DecidableEq, Repr

/-- Why a command is refused. -/
inductive Refusal where
  /-- the command has no meaning yet: raised by Dispatch, safe -/
  | notModelled (mnemonic : String)
  /-- an encoding that R76 makes invalid, and that never reaches execution (R78): raised by the instruction commands, safe -/
  | reservedEncoding
deriving DecidableEq, Repr

/-- Empty memories. -/
def MemSt.empty : MemSt := ⟨[], [], [], [], [], [], [], [], [], []⟩

/-- Flash that has never been formatted, with no card found yet. -/
def FlashSt.empty : FlashSt where
  card := ⟨[], 0, 0, 0, 0, 0, 0⟩
  formatted := false
  permille := 0
  wseq := 0
  gen := 0
  maps := []
  attached := []
  pages := []
  stale := []
  writes := []
  stripes := []
  parity := []
  folds := []
  owed := []
  sealings := []
  jbuf := []
  jout := []
  flushing := none
  discWait := []
  discOut := []
  flushes := 0
  cap := 0
  pinShort := false
  shortSince := false
  quiet := false
  pd := none
  recover := none
  rebuild := []
  retDies := []
  badBlocks := []
  retBlocks := 0
  retSince := 0
  eraseBase := 0
  wear := []
  silent := []
  failNext := []

/-- The machine right after a cold reset. -/
def State.reset : State where
  tally := ⟨0, 0, 0, 0, [], [], none, [], 0, []⟩
  regs := []
  telem := []
  mem := MemSt.empty
  fil := ⟨[], [], [], [], [], [], [], [], [], [], [], [], []⟩
  host := ⟨[], false, [], []⟩
  wnz := ⟨[], [], [], []⟩
  idx := ⟨[], [], [], [], [], [], [], [], [], [], []⟩
  car := ⟨[], [], [], [], [], [], [], [], [], 0, none, 0, [], [], [], [], [], [], [], []⟩
  mdw := ⟨[], [], [], [], [], [], [], []⟩
  rgm := ⟨[], [], List.replicate 43 ⟨1, 1, 0, 0, none, [], [], none, (0, 0)⟩, [], [], [], 0⟩
  pwr := ⟨[], none, false⟩
  flash := FlashSt.empty
  rst := ⟨none, [], 0, none⟩
  asy := ⟨[]⟩
  fun_ := ⟨[], [], [], [], 0, 0, []⟩
  pins := ⟨0, none, [], false, [], [], true, [2, 1, 0, 3, 2]⟩
  free := 0
  nextId := 1
  pending := []

end Sys2Proof.Machine
end

