-- ==== Sys2Proof/Machine/Ops.lean ====
section
/-! DEFINITION. The named operations over registers, counters, addresses, the protected memories, allocations and quotas. -/
namespace Sys2Proof.Machine

/-! ## Registers and counters -/

/-- The word that a register holds. -/
def State.reg (s : State) (off : Nat) : BitVec 32 := kvGet 0#32 s.regs off ^^^ resetWord off

/-- A register's word replaced. -/
def State.setReg (s : State) (off : Nat) (w : BitVec 32) : State :=
  { s with regs := kvSet 0#32 s.regs off (w ^^^ resetWord off) }

/-- A field's value. -/
def State.rd (s : State) (f : FieldRef) : Nat := bits (s.reg f.off).toNat f.lo f.width

/-- A field replaced, whatever its access code: the hardware's own write. -/
def State.wr (s : State) (f : FieldRef) (v : Nat) : State :=
  s.setReg f.off (BitVec.ofNat 32 (putBits (s.reg f.off).toNat f.lo f.width v))

/-- Whether a one-bit field is 1. -/
def State.on (s : State) (f : FieldRef) : Bool := s.rd f == 1

/-- A count that grows and stops at its field's largest value. -/
def State.bump (s : State) (f : FieldRef) (n : Nat) : State :=
  s.wr f (min (s.rd f + n) (2 ^ f.width - 1))

/-- The 64-bit value of a _LO and _HI pair (R11). -/
def State.rd64 (s : State) (lo hi : FieldRef) : Nat := s.rd lo + 2 ^ 32 * s.rd hi

/-- A _LO and _HI pair replaced. -/
def State.wr64 (s : State) (lo hi : FieldRef) (v : Nat) : State := (s.wr lo v).wr hi (v / 2 ^ 32)

/-- A 64-bit counter pair grown. -/
def State.bump64 (s : State) (lo hi : FieldRef) (n : Nat) : State := s.wr64 lo hi ((s.rd64 lo hi + n) % 2 ^ 64)

/-- A telemetry counter's value. -/
def State.ctr (s : State) (n : Nat) : Nat := kvGet 0 s.telem n

/-- A telemetry counter grown, modulo 2^64. -/
def State.count (s : State) (c n : Nat) : State :=
  { s with telem := kvSet 0 s.telem c ((s.ctr c + n) % 2 ^ 64) }

/-- The current beat. -/
def State.now (s : State) : Nat := s.tally.beat

/-- The node's time in ns (R399). -/
def State.ns (s : State) : Nat := s.tally.beat * 1024 + s.tally.sub

/-- Something that leaves the node. -/
def State.emit (s : State) (o : Out) : State := { s with host := { s.host with out := o :: s.host.out } }

/-- A fresh identifier. -/
def State.fresh (s : State) : State := { s with nextId := s.nextId + 1 }

/-- A free value of `w` bits, and the state in which it has been drawn. -/
def State.draw (s : State) (w : Nat) : Nat × State :=
  (Config.freeBits s.free w % 2 ^ w, { s with free := s.free + 1 })

/-- A random value of `w` bits from the node's random source. -/
def State.random (s : State) (w : Nat) : Nat × State :=
  (Config.random s.free w % 2 ^ w, { s with free := s.free + 1 })

/-! ## Ordinary register writes (R4) -/

/-- What a write of `new` leaves in a field that holds `old`, with `sofar` the register's word as it stands: out of range the field keeps
its value. -/
def Rng.take (r : Rng) (width sofar old new : Nat) : Nat :=
  match r with
  | .any => new
  | .range lo hi => if lo ≤ new ∧ new ≤ hi then new else old
  | .signed m => if new ≤ m ∨ (new < 2 ^ width ∧ 2 ^ width - m ≤ new) then new else old
  | .pairsLe2 => ((List.range 16).map fun i => (if bits new (2 * i) 2 = 3 then bits old (2 * i) 2 else bits new (2 * i) 2) * 4 ^ i).sum
  | .below lo w => if new < bits sofar lo w then new else old

/-- One field of a register under a write of a whole word: RW takes the value, W1C clears where a one is written, and the others keep
theirs. -/
def FieldRow.store (word : Nat) (sofar : Nat) (f : FieldRow) : Nat :=
  let old := bits sofar f.lo f.width
  let new := bits word f.lo f.width
  match f.acc with
  | .rw => putBits sofar f.lo f.width (f.rng.take f.width sofar old new)
  | .w1c => putBits sofar f.lo f.width (old - (old &&& new))
  | _ => sofar

/-- A register under an ordinary write. -/
def State.storeWord (s : State) (off word : Nat) : State :=
  match findReg off with
  | none => s
  | some (r, _, _) => s.setReg off (BitVec.ofNat 32 (r.fields.foldl (FieldRow.store word) (s.reg off).toNat))

/-- An event of R408 fires (Table 14.5). -/
def State.fired (s : State) (n : Nat) : State := s.count 0xB39 n

/-- A unit is busy, or waits, in this beat: a crew's hewers by the crew, a stack's Winze units by 16 more than the stack, 40 for a producer
without cells, 41 for a completion under R432. -/
def State.mark (s : State) (n : Nat) : State :=
  if s.fil.busy.contains n then s else { s with fil := { s.fil with busy := n :: s.fil.busy } }

/-! ## Node addresses (R44, R45) -/

/-- Where a node address lies. -/
inductive Loc where
  | stack (s o : Nat)
  | crew (c o : Nat)
  | register (off : Nat)
  | unassigned
deriving DecidableEq, Repr

/-- The first address of the stack view, of one stack's length, and of the crew-store windows. -/
def stackView : Nat := 0x100000000000
def stackLen : Nat := 0x2000000000
def crewBase : Nat := 0x300000000000
def crewWindow : Nat := 0x4000000
def crewLen : Nat := 48 * 2 ^ 20
def regBase : Nat := 0x3F0000000000

/-- Table 2.5 and the spread view of R45. -/
def locate (a : Nat) : Loc :=
  if a < 0x30000000000 then .stack (a / 4096 % 24) (a / 4096 / 24 * 4096 + a % 4096)
  else if stackView ≤ a ∧ a < stackView + 24 * stackLen then
    .stack ((a - stackView) / stackLen) ((a - stackView) % stackLen)
  else if crewBase ≤ a ∧ a < crewBase + 16 * crewWindow then
    if (a - crewBase) % crewWindow < crewLen then .crew ((a - crewBase) / crewWindow) ((a - crewBase) % crewWindow)
    else .unassigned
  else if regBase ≤ a ∧ a < regBase + 0x4000000 then .register (a - regBase)
  else .unassigned

/-- The address of byte `o` of stack `s` in the stack view. -/
def stackAddr (s o : Nat) : Nat := stackView + s * stackLen + o

/-- The address of byte `o` of crew store `c`. -/
def crewAddr (c o : Nat) : Nat := crewBase + c * crewWindow + o

/-- The address of byte `o` of stack `s` in the spread view. -/
def spreadAddr (s o : Nat) : Nat := (o / 4096 * 24 + s) * 4096 + o % 4096

/-- The physical address that names a byte of memory once: stack view or crew-store window. -/
def physOf (a : Nat) : Option Nat :=
  match locate a with
  | .stack s o => some (stackAddr s o)
  | .crew c o => some (crewAddr c o)
  | _ => none

/-- Whether an address is one of register space. -/
def isRegister (a : Nat) : Bool :=
  match locate a with
  | .register _ => true
  | _ => false

/-- The channel of byte `o` of a stack (R45). -/
def channelOf (o : Nat) : Nat := o / 256 % 32

/-- Whether a physical address lies in the pool (R286). -/
def State.inPool (s : State) (p : Nat) : Bool :=
  match locate p with
  | .stack _ o => decide (o ≥ (128 - s.rd F.memPool_gib) * 2 ^ 30)
  | _ => false

/-! ## Power domains (R410, R411) -/

/-- The state of a domain: 0 P0, 1 P1, 2 P2 for a crew, and 3 P3 for a stack. -/
def State.powerOf (s : State) (d : Domain) : Nat :=
  match d with
  | .crew c => bits (s.rd F.pwrCrewState_state) (2 * c) 2
  | .stack t => if bitOf (s.rd F.pwrStackState_inP3) t then 3 else 0

/-- The wake latency of a state in ns (Table 14.1). -/
def wakeNs (p : Nat) : Nat := [0, 200, 20000, 400000].getD p 0

/-- A domain begins to wake, unless it is in P0 or already on its way. -/
def State.startWake (s : State) (d : Domain) : State :=
  if s.powerOf d = 0 ∨ s.pwr.waking.any (·.1 == d) then s else
  ({ s with pwr := { s.pwr with waking := s.pwr.waking ++ [(d, s.ns + wakeNs (s.powerOf d))] } }).wr F.pwrStatus_waking 1

/-- Work arrives at a domain without an event: it wakes the domain, and is counted where it waits (R411). -/
def State.arrive (s : State) (d : Domain) : State :=
  if s.powerOf d = 0 then s else (s.startWake d).bump F.pwrWakeLate_count 1

/-- The stacks of a range of node addresses, page by page. -/
def stacksUnder (a n : Nat) : List Nat :=
  if n = 0 then [] else
  ((List.range ((a + n - 1) / 4096 - a / 4096 + 1)).filterMap fun i =>
    match locate ((a / 4096 + i) * 4096) with
    | .stack t _ => some t
    | _ => none).eraseDups

/-- An access reaches the stacks of its range: those in P3 wake. The wait is time, and the access is done. -/
def State.touch (s : State) (a n : Nat) : State :=
  if s.rd F.pwrStackState_inP3 = 0 then s else (stacksUnder a n).foldl (fun s t => s.arrive (.stack t)) s

/-! ## Check bits (R301, Table 10.2) -/

/-- What the checker makes of a block. -/
inductive Check where
  | clean
  /-- a single data bit at row and bit -/
  | data (r c : Nat)
  | checkBit
  | uncorrectable
deriving DecidableEq, Repr

/-- The number of ones among the low `w` bits. -/
def popcount (n : Nat) : Nat → Nat
  | 0 => 0
  | w + 1 => b2n (n.testBit w) + popcount n w

/-- The lowest set bit among the low `w` bits, counted from `w`. -/
def lowBit (n : Nat) (w : Nat) : Nat := ((List.range w).find? (n.testBit ·)).getD 0

/-- Table 10.2 over a row and a column syndrome. -/
def checkOf (syn : BitVec 48) : Check :=
  let r := syn.toNat % 2 ^ 16
  let c := syn.toNat / 2 ^ 16
  match popcount r 16, popcount c 32 with
  | 0, 0 => .clean
  | 1, 1 => .data (lowBit r 16) (lowBit c 32)
  | 1, 0 => .checkBit
  | 0, 1 => .checkBit
  | _, _ => .uncorrectable

/-- The check bits of a change of `mask` in data row `r`: its row parity and its column parities. -/
def checkMask (r mask : Nat) : BitVec 48 :=
  BitVec.ofNat 48 ((popcount mask 32 % 2) * 2 ^ (r % 16) + (mask % 2 ^ 32) * 2 ^ 16)

/-- The stack and channel of a block, for a block of a stack. -/
def blockChan (blk : Nat) : Option (Nat × Nat) :=
  match locate (blk * 64) with
  | .stack s o => some (s, channelOf o)
  | _ => none

/-- Whether a block's lost-map bit is set (R309). -/
def MemSt.lost (m : MemSt) (blk : Nat) : Bool :=
  let base := match blockChan blk with
    | some sc => m.lostCh.contains sc
    | none => false
  base != kvGet false m.lostX blk

/-- A block's lost-map bit set or cleared. -/
def MemSt.setLost (m : MemSt) (blk : Nat) (v : Bool) : MemSt :=
  let base := match blockChan blk with
    | some sc => m.lostCh.contains sc
    | none => false
  { m with lostX := kvSet false m.lostX blk (v != base) }

/-- Whether a block lies in a dead channel (R310). -/
def MemSt.dead (m : MemSt) (blk : Nat) : Bool :=
  match blockChan blk with
  | some sc => m.deadCh.contains sc
  | none => false

/-- What the checker makes of a block on a read. -/
def MemSt.check (m : MemSt) (blk : Nat) : Check :=
  if m.dead blk || m.lost blk then .uncorrectable else checkOf (kvGet 0#48 m.syn blk)

/-- The row of a block (R308): 32 blocks of one bank of a channel, or 4 blocks of a macro. -/
def rowOf (blk : Nat) : RowId :=
  match locate (blk * 64) with
  | .stack s o => ⟨0, s, channelOf o, (o / 8192 * 256 + o % 256) / 2048⟩
  | .crew c o => ⟨1, c, o / 2 ^ 20, o % 2 ^ 20 / 256⟩
  | _ => ⟨0, 0, 0, 0⟩

/-- The bank of a row: for a stack the spec gives no layout. -/
def RowId.bank (r : RowId) : Nat := if r.kind = 0 then Config.bankOf r.unit r.sub r.row else 0

/-- The spare rows of a row's bank or macro that are used. -/
def MemSt.sparesUsed (m : MemSt) (r : RowId) : Nat :=
  ((m.retired ++ m.retiring).filter fun q =>
    q.kind == r.kind && q.unit == r.unit && q.sub == r.sub && q.bank == r.bank).length

/-- The fewest spare rows left in any bank of a stack, or any macro of a crew store. -/
def State.rowSparesMin (s : State) (kind unit : Nat) : Nat :=
  let mine := (s.mem.retired ++ s.mem.retiring).filter fun r => r.kind == kind && r.unit == unit
  mine.foldl (fun n r => min n ((if kind = 0 then 32 else 16) - s.mem.sparesUsed r)) (if kind = 0 then 32 else 16)

/-- A hit counted (R308), and the row's retirement begun at the third. -/
def State.hit (s : State) (blk : Nat) (syn : BitVec 48) : State :=
  let m := s.mem
  let r := rowOf blk
  let h := (m.hits.find? (·.row == r)).getD ⟨r, [], 0⟩
  if kvGet 0#48 h.last blk = syn then s else
  let h := { h with last := kvSet 0#48 h.last blk syn, count := h.count + 1 }
  let s := { s with mem := { m with hits := h :: m.hits.filter (·.row != r) } }
  if !(h.count ≥ 3 && s.on F.memCtrl_retireEn) || m.retiring.contains r then s
  else if m.sparesUsed r ≥ (if r.kind = 0 then 32 else 16) then s.wr F.memStatus_rowSparesOut 1
  else { s with mem := { s.mem with retiring := r :: s.mem.retiring } }

/-- MEM_ERR written when it is free (R302): the source, the block, and the corrected cell. -/
def State.logMem (s : State) (source blk : Nat) (uncorr : Bool) (row bit : Nat) : State :=
  if s.on F.memErr_valid then s else
  let a := blk * 64
  let (crew, unit, chan) := match locate a with
    | .stack t o => (0, t, channelOf o)
    | .crew c _ => (1, c, 0)
    | _ => (0, 0, 0)
  let s := ((s.wr F.memErr_valid 1).wr F.memErr_uncorr (b2n uncorr)).wr F.memErr_source (source % 4)
  let s := ((s.wr F.memErr_crew crew).wr F.memErr_unit unit).wr F.memErr_channel chan
  let s := (s.wr F.memErr_row row).wr F.memErr_bit bit
  (s.wr F.memErrAddrLo_addr (a / 64)).wr F.memErrAddrHi_addr (a / 2 ^ 32)

/-- The sources of a read of memory: MEM_ERR.SOURCE is the number modulo 4, and the Winze dispatcher is set apart from the units. -/
def dispatcherSource : Nat := 5

/-- What a read of a block by a source counts and logs (R302, R254): WNZ_CORRECTED counts for units alone, and WNZ_UNCORR for the dispatcher
too (Table 8.7). -/
def State.memEvent (s : State) (source blk : Nat) (c : Check) : State :=
  let wnz (s : State) (f : Nat → FieldRef) : State :=
    match blockChan blk with
    | some (t, _) => if source = 1 ∨ (source = dispatcherSource ∧ c = .uncorrectable) then s.bump (f t) 1 else s
    | none => s
  match c with
  | .clean => s
  | .data r b =>
    let s := (((s.bump F.memCorrCount_count 1).count 0x700 1).logMem source blk false r b)
    wnz (s.hit blk (kvGet 0#48 s.mem.syn blk)) F.wnzCorrected_count
  | .checkBit =>
    let s := (((s.bump F.memCorrCount_count 1).count 0x700 1).logMem source blk false 0 0)
    wnz (s.hit blk (kvGet 0#48 s.mem.syn blk)) F.wnzCorrected_count
  | .uncorrectable =>
    wnz (((s.bump F.memUncorrCount_count 1).count 0x701 1).logMem source blk true 0 0) F.wnzUncorr_count

/-- `n` bytes of a sorted memory from address `a`. -/
def rangeGet : Nat → Nat → List Host.Cell → List Byte
  | 0, _, _ => []
  | n + 1, a, l =>
    match l.dropWhile (fun e => decide (e.1 < a)) with
    | (k, v) :: t => if k = a then v :: rangeGet n (a + 1) t else 0#8 :: rangeGet n (a + 1) ((k, v) :: t)
    | [] => 0#8 :: rangeGet n (a + 1) []

/-- The byte stored at a physical address: zero where nothing has been written. -/
def MemSt.byte (m : MemSt) (p : Nat) : Byte := kvGet 0#8 m.bytes p

/-- The byte stored at a node address. -/
def State.byteAt (s : State) (a : Nat) : Byte := ((physOf a).map s.mem.byte).getD 0#8

/-- A byte stored at a physical address. -/
def MemSt.setByte (m : MemSt) (p : Nat) (b : Byte) : MemSt := { m with bytes := kvSet 0#8 m.bytes p b }

/-- Bytes stored from a physical address on. -/
def MemSt.setBytes (m : MemSt) (p : Nat) (l : List Byte) : MemSt := { m with bytes := kvPut 0#8 m.bytes p l }

/-- The canonical form of the memories: rising addresses, and no entry equal to what an unlisted one reads as. -/
def MemSt.wf (m : MemSt) : Bool := kvWf 0#8 m.bytes && kvWf 0#48 m.syn && kvWf false m.lostX

/-- A block's 64 bytes as the checker delivers them. -/
def MemSt.delivered (m : MemSt) (blk : Nat) : List Byte :=
  let raw := rangeGet 64 (blk * 64) m.bytes
  match m.check blk with
  | .data r c => updAt raw (4 * r + c / 8) (· ^^^ BitVec.ofNat 8 (2 ^ (c % 8)))
  | _ => raw

/-- The physical blocks that a range of node addresses covers; addresses that name no memory give none. -/
def blocksOf (a n : Nat) : List Nat :=
  if n = 0 then [] else
  ((List.range ((a + n - 1) / 64 - a / 64 + 1)).filterMap fun i => (physOf ((a / 64 + i) * 64)).map (· / 64))

/-- A read of a range by a source (0 ordinary, 1 Winze, 2 scrub, 3 mover): the bytes and whether some block is uncorrectable,
with what the read counts and logs. A range of register space is no aligned register access, and reads zero (R10). -/
def State.readMem (s : State) (source a n : Nat) : List Byte × Bool × State :=
  if isRegister a then (zeros n, false, s) else
  let bl := blocksOf a n
  let s' := bl.foldl (fun s b => s.memEvent source b (s.mem.check b)) (if source = 2 then s else s.touch a n)
  (slice (bl.flatMap s.mem.delivered) (a % 64) n, bl.any (fun b => s.mem.check b == .uncorrectable), s')

/-- What a read by the index engine of a range that it holds counts and logs (R302). -/
def State.sensed (s : State) (a n : Nat) : State := (blocksOf a n).foldl (fun s b => s.memEvent 0 b (s.mem.check b)) s

/-- What the flip mask does to a write of a block (R311). -/
def State.flipBlock (s : State) (blk : Nat) : State :=
  let kind := s.rd F.memFlipCtrl_kind
  let unit := s.rd F.memFlipCtrl_unit
  let target := match locate (blk * 64) with
    | .stack t o => kind == 0 && t == unit && channelOf o == s.rd F.memFlipCtrl_channel
    | .crew c _ => kind == 1 && c == unit
    | _ => false
  let m := s.rd F.memFlipAddrLo_addr * 64 + s.rd F.memFlipAddrHi_addr * 2 ^ 32
  if !(s.on F.memFlipCtrl_arm && target && (!s.on F.memFlipCtrl_match || (physOf m).map (· / 64) == some blk)) then s else
  let r := s.rd F.memFlipCtrl_row
  let mask := s.rd F.memFlipMask_data
  let p := blk * 64 + 4 * r
  let w := leNat (rangeGet 4 p s.mem.bytes) ^^^ mask
  let d := checkMask r mask ^^^
    BitVec.ofNat 48 (s.rd F.memFlipCheckRow_mask + s.rd F.memFlipCheckCol_mask * 2 ^ 16)
  let mm := s.mem.setBytes p (leBytes w 4)
  let s := { s with mem := { mm with syn := kvSet 0#48 mm.syn blk (kvGet 0#48 mm.syn blk ^^^ d) } }
  let s := (s.wr F.memFlipCtrl_arm 0).wr F.memFlipCtrl_fired 1
  (s.wr F.memFlipHitLo_addr blk).wr F.memFlipHitHi_addr (blk * 64 / 2 ^ 32)

/-- One write inside one block at physical address `p` (R510): a whole block is stored clean, a part is merged through the
checker, and a dead channel discards it. -/
def State.writePiece (s : State) (source p : Nat) (data : List Byte) : State :=
  let blk := p / 64
  if s.mem.dead blk then s else
  if data.length = 64 then
    let m := (s.mem.setBytes p data).setLost blk false
    ({ s with mem := { m with syn := kvSet 0#48 m.syn blk 0#48 } }).flipBlock blk
  else
    let c := s.mem.check blk
    let s := s.memEvent source blk c
    let m := match c with
      | .uncorrectable => s.mem
      | _ =>
        let m := s.mem.setBytes (blk * 64) (s.mem.delivered blk)
        { m with syn := kvSet 0#48 m.syn blk 0#48 }
    ({ s with mem := m.setBytes p data }).flipBlock blk

/-- The pieces of a write, one per 64-byte block: one per unit of fuel. -/
def pieces : Nat → Nat → List Byte → List (Nat × List Byte)
  | 0, _, _ => []
  | n + 1, a, data =>
    if data.isEmpty then [] else
    let k := 64 - a % 64
    (a, data.take k) :: pieces n (a + k) (data.drop k)

/-- A write of a range of node addresses by a source. -/
def State.writeMem (s : State) (source a : Nat) (data : List Byte) : State :=
  (pieces (data.length / 64 + 2) a data).foldl
    (fun s e => match physOf e.1 with
      | some p => s.writePiece source p e.2
      | none => s) (s.touch a data.length)

/-! ## The Winze interlock (R250 to R252) -/

/-- Whether two ranges of node addresses share a byte of memory, page by page (R43). -/
def rangesMeet (a n b m : Nat) : Bool :=
  let pg (x k : Nat) := if k = 0 then [] else (List.range ((x + k - 1) / 4096 - x / 4096 + 1)).map (x / 4096 + ·)
  let part (x k p : Nat) : Nat × Nat := (max x (p * 4096), min (x + k) (p * 4096 + 4096))
  (pg a n).any fun p => (pg b m).any fun q =>
    match physOf (p * 4096), physOf (q * 4096) with
    | some u, some v =>
      u == v &&
        decide ((part a n p).1 % 4096 < (part b m q).2 - q * 4096) && decide ((part b m q).1 % 4096 < (part a n p).2 - p * 4096)
    | _, _ => false

/-- The registered Winze operation whose range an ordinary access meets: any range for a write, a destination for a read (Table 8.5). -/
def State.rangeHolder (s : State) (write : Bool) (a n : Nat) : Option WnzOp :=
  s.wnz.ops.find? fun o => o.registered &&
    ((o.dsts.any fun r => rangesMeet a n r.1 r.2) || (write && o.srcs.any fun r => rangesMeet a n r.1 r.2))

/-- The stack channels under a range of node addresses. -/
def chansUnder (a n : Nat) : List (Nat × Nat) := ((blocksOf a n).filterMap blockChan).eraseDups

/-- The held writes of a channel that a channel's buffer has room for (R252, Table 8.6). -/
def channelHolds : Nat := 64

/-- The operation for which a write waits at the port of a channel whose buffer is full (R252). -/
def State.portHolder (s : State) (a n : Nat) : Option WnzOp :=
  if s.wnz.held.length < channelHolds then none else
  let on (c : Nat × Nat) (h : HeldWrite) : Bool := (chansUnder h.addr h.data.length).contains c
  ((chansUnder a n).find? fun c => decide (channelHolds ≤ (s.wnz.held.filter (on c)).length)).bind fun c =>
    (s.wnz.held.find? (on c)).bind fun h => s.wnz.ops.find? (·.id == h.op)

/-- The Winze operation that an ordinary access waits for: it meets one of its ranges, or as a write it finds its channel's buffer full. -/
def State.holder (s : State) (write : Bool) (a n : Nat) : Option WnzOp :=
  match s.rangeHolder write a n with
  | some o => some o
  | none => if write then s.portHolder a n else none

/-- The stack of a node address, or 0. -/
def stackOf (a : Nat) : Nat :=
  match locate a with
  | .stack t _ => t
  | _ => 0

/-- An ordinary access that waits or is held, counted in each stack where some block of it does (Table 8.7). -/
def State.countHold (s : State) (write : Bool) (a n : Nat) : State :=
  let waits (b : Nat) : Bool := (s.holder write (max a (b * 64)) (min (a + n) (b * 64 + 64) - max a (b * 64))).isSome
  let blks := if n = 0 then [] else ((List.range ((a + n - 1) / 64 - a / 64 + 1)).map (a / 64 + ·)).filter waits
  ((blks.filterMap fun b => match locate (b * 64) with
    | .stack t _ => some t
    | _ => none).eraseDups).foldl (fun s t => s.bump (F.wnzHoldCount_count t) 1) s

/-- One piece of an ordinary write inside a block: held behind the operation that it waits for, or done at once. -/
def State.ordPiece (whose : HeldFor) (s : State) (a : Nat) (data : List Byte) : State :=
  match s.holder true a data.length with
  | some o => { s with wnz := { s.wnz with held := s.wnz.held ++ [HeldWrite.mk o.id whose a data] } }
  | none => s.writeMem 0 a data

/-- An ordinary write: its blocks that meet the interlock are held, and the others are written at once. -/
def State.ordWrite (s : State) (a : Nat) (data : List Byte) (whose : HeldFor := .nobody) : State :=
  match s.holder true a data.length with
  | some _ =>
    (pieces (data.length / 64 + 2) a data).foldl (fun s e => State.ordPiece whose s e.1 e.2) (s.countHold true a data.length)
  | none => s.writeMem 0 a data

/-- A block rewritten by a background task as it reads it: a corrected one is stored with corrected data and fresh check bits. `lose` sets the
lost-map bit of one that cannot be corrected. -/
def State.rewrite (s : State) (source : Nat) (lose : Bool) (blk : Nat) : State :=
  let c := s.mem.check blk
  let s := s.memEvent source blk c
  match c with
  | .clean => s
  | .uncorrectable => if lose then { s with mem := s.mem.setLost blk true } else s
  | _ => s.writePiece source (blk * 64) (s.mem.delivered blk)

/-- A block scrubbed (R306) past the interlock: the read waits for a destination range, and the corrected block is written back behind a source
range, from what it then holds (DEDUCED, log 137). -/
def State.scrubBlock (s : State) (blk : Nat) : State :=
  let hold (s : State) (o : WnzOp) (write : Bool) : State :=
    let s := s.countHold write (blk * 64) 64
    { s with wnz := { s.wnz with held := s.wnz.held ++ [HeldWrite.mk o.id (.scrub (!write)) (blk * 64) (zeros 64)] } }
  match s.holder false (blk * 64) 64, s.holder true (blk * 64) 64 with
  | some o, _ => hold s o false
  | none, none => s.rewrite 2 false blk
  | none, some o =>
    match s.mem.check blk with
    | .clean => s
    | .uncorrectable => s.memEvent 2 blk .uncorrectable
    | c => hold (s.memEvent 2 blk c) o true

/-- A held write done. -/
def State.doHeld (s : State) (h : HeldWrite) : State :=
  match h.whose with
  | .scrub true => s.rewrite 2 false (h.addr / 64)
  | .scrub false => s.writePiece 2 h.addr (s.mem.delivered (h.addr / 64))
  | _ => s.writeMem 0 h.addr h.data

/-- Whether what the interlock holds still waits, and for which operation. -/
def State.stillHeld (s : State) (h : HeldWrite) : Option WnzOp :=
  match h.whose with
  | .scrub true => s.holder false h.addr 64
  | _ => s.holder true h.addr h.data.length

/-- What the interlock holds, gone through in the order of arrival (R252): what need wait no longer is done, and the rest stays in its order
behind the operation that it now waits for. -/
def State.drainHeld (s : State) : State :=
  s.wnz.held.foldl (fun s h => match s.stillHeld h with
    | some o => { s with wnz := { s.wnz with held := s.wnz.held ++ [{ h with op := o.id }] } }
    | none => s.doHeld h) { s with wnz := { s.wnz with held := [] } }

/-! ## Register space reached otherwise than by a register access (R10) -/

/-- The function under which HIF sees an access: the Shift boss's count as the physical function's. -/
def funcOf (src : Src) : Nat :=
  match src with
  | .fn n => n
  | .boss => 0

/-- HIF_ACC_ERR written when it is free: the first access that is not aligned 32-bit or 64-bit (R10). -/
def State.badAccess (s : State) (src : Src) (off : Nat) (write : Bool) : State :=
  if s.on F.hifAccErr_valid then s else
  ((s.wr F.hifAccErr_valid 1).wr F.hifAccErr_offset off).wr F.hifAccErr_func (funcOf src) |>.wr F.hifAccErr_write (b2n write)

/-- Whether an access is an aligned one of 32 or 64 bits. -/
def plainAccess (off len : Nat) : Bool := (len == 4 && decide (off % 4 = 0)) || (len == 8 && decide (off % 8 = 0))

/-- The offset in register space of an address there. -/
def registerAt (a : Nat) : Option Nat :=
  match locate a with
  | .register off => some off
  | _ => none

/-! ## Allocations and quotas (R287 to R299) -/

/-- Whether an allocation lies in the pool. -/
def Alloc.pooled (a : Alloc) : Bool := decide (a.addr < crewBase)

/-- Whether an allocation is an expansion. -/
def Alloc.isExpansion (a : Alloc) : Bool :=
  match a.kind with
  | .expansion _ => true
  | _ => false

/-- Whether an allocation is a cache copy. -/
def Alloc.isCache (a : Alloc) : Bool :=
  match a.kind with
  | .cache _ _ => true
  | _ => false

/-- Whether an allocation is a tile home, a move's target or an expansion: what the tier manager uses (R37). -/
def Alloc.isTile (a : Alloc) : Bool :=
  match a.kind with
  | .tile _ => true
  | .expansion _ => true
  | .move _ => true
  | .old _ => true
  | _ => false

/-- The bytes of the allocations that satisfy a test. -/
def allocSum (p : Alloc → Bool) (l : List Alloc) : Nat := (l.filter p).foldl (fun n a => n + a.len) 0

/-- An act's pool usage in bytes. -/
def State.stackUse (s : State) (act : Nat) : Nat := allocSum (fun a => a.pooled && a.act == act) s.fil.allocs

/-- An act's expansion usage in the pool. -/
def State.expandUse (s : State) (act : Nat) : Nat :=
  allocSum (fun a => a.pooled && a.isExpansion && a.act == act) s.fil.allocs

/-- An act's cache-copy usage. -/
def State.cacheUse (s : State) (act : Nat) : Nat := allocSum (fun a => a.isCache && a.act == act) s.fil.allocs

/-- An act's tile usage in crew stores. -/
def State.crewUse (s : State) (act : Nat) : Nat :=
  allocSum (fun a => !a.pooled && a.isTile && a.act == act) s.fil.allocs

/-- Whether a pool charge fits the act's quotas (Table 10.1). -/
def State.quotaFits (s : State) (act len : Nat) (expansion : Bool) : Bool :=
  let q := s.rd (F.memQStack_kib act) * 1024
  let e := s.rd (F.memQExpand_kib act) * 1024
  if expansion then s.stackUse act + len ≤ q && s.expandUse act + len ≤ e
  else s.stackUse act + len ≤ q && s.stackUse act - s.expandUse act + len ≤ q - e

/-- The oldest droppable cache copy of an act dropped. -/
def State.dropCache (s : State) (act : Nat) : State :=
  match s.idx.caches.find? (fun c => c.act == act && c.durable) with
  | none => s
  | some c =>
    let s := { s with
      idx := { s.idx with caches := s.idx.caches.filter (·.id != c.id) }
      fil := { s.fil with allocs := s.fil.allocs.filter (fun a => a.kind != AllocKind.cache act c.id) } }
    s.count 0x707 1

/-- Droppable cache copies dropped until a charge fits: at most one per unit of fuel. -/
def State.makeRoom (act len : Nat) (expansion : Bool) : Nat → State → State
  | 0, s => s
  | n + 1, s =>
    if s.quotaFits act len expansion then s else State.makeRoom act len expansion n (s.dropCache act)

/-- Droppable cache copies of an act dropped, oldest first, until `len` bytes more fit its CACHE quota (Table 10.1): at most one per unit of
fuel. -/
def State.fitCache (act len : Nat) : Nat → State → State
  | 0, s => s
  | n + 1, s => if s.cacheUse act + len ≤ s.rd (F.memQCache_kib act) * 1024 then s else State.fitCache act len n (s.dropCache act)

/-- The highest free run of `len` bytes between `lo` and `top`, below the allocations given in falling order. -/
def gapDown (len lo : Nat) : Nat → List Alloc → Option Nat
  | top, [] => if lo + len ≤ top then some (top - len) else none
  | top, a :: t => if a.addr + a.len + len ≤ top then some (top - len) else gapDown len lo (min top a.addr) t

/-- The lowest free run of `len` bytes from `at` below `top`, above the allocations given in rising order. -/
def gapUp (len top : Nat) : Nat → List Alloc → Option Nat
  | at_, [] => if at_ + len ≤ top then some at_ else none
  | at_, a :: t => if at_ + len ≤ a.addr then some at_ else gapUp len top (max at_ (a.addr + a.len)) t

/-- The allocations inside a window. -/
def allocsIn (lo hi : Nat) (l : List Alloc) : List Alloc := l.filter fun a => decide (lo ≤ a.addr ∧ a.addr < hi)

/-- The free pool bytes of a stack. -/
def State.poolFree (s : State) (st : Nat) : Nat :=
  s.rd F.memPool_gib * 2 ^ 30 - allocSum (fun _ => true) (allocsIn (stackAddr st 0) (stackAddr (st + 1) 0) s.fil.allocs)

/-- The stack with the most free pool space, and the lowest such. -/
def State.bestStack (s : State) : Nat :=
  (List.range 24).foldl (fun b t => if s.poolFree t > s.poolFree b then t else b) 0

/-- A free run in the pool of one stack, from the top downward (R287). -/
def State.poolGap (s : State) (st len : Nat) : Option Nat :=
  let lo := stackAddr st ((128 - s.rd F.memPool_gib) * 2 ^ 30)
  let hi := stackAddr st stackLen
  gapDown len lo hi (sortBy (fun a b => decide (a.addr > b.addr)) (allocsIn lo hi s.fil.allocs))

/-- An allocation recorded. -/
def State.addAlloc (s : State) (a : Alloc) : State :=
  { s with fil := { s.fil with allocs := s.fil.allocs ++ [a] } }

/-- The allocations of a kind released. -/
def State.dropAlloc (s : State) (p : AllocKind → Bool) : State :=
  { s with fil := { s.fil with allocs := s.fil.allocs.filter fun a => !p a.kind } }

/-- The stacks in the order in which R292 takes them: the most free pool space first, and of those the lowest. -/
def State.stacksByFree (s : State) : List Nat := sortBy (fun a b => decide (s.poolFree b < s.poolFree a)) (List.range 24)

/-- A free run in the pool: in the stack with the most free space, or where its space is in shorter runs in the next stack that has one. -/
def State.poolRun (s : State) (len : Nat) : Option Nat :=
  match s.poolGap s.bestStack len with
  | some a => some a
  | none => s.stacksByFree.findSome? fun st => s.poolGap st len

/-- A pool allocation charged to an act and placed by R292, in whole sectors: its address, or nothing where quota or pool space
is short. A charge that the EXPAND quota has no room for drops no cache copy (Table 10.1). -/
def State.allocPool (s : State) (act len : Nat) (kind : AllocKind) : Option Nat × State :=
  let len := roundUp (max len 1) 512
  let ex := (Alloc.isExpansion ⟨0, 0, 0, kind⟩)
  if ex && decide (s.rd (F.memQExpand_kib act) * 1024 < s.expandUse act + len) then (none, s) else
  let s := State.makeRoom act len ex s.idx.caches.length s
  if !s.quotaFits act len ex then (none, s) else
  match s.poolRun len with
  | some a => (some a, s.addAlloc ⟨a, len, act, kind⟩)
  | none => (none, s.wr F.memStatus_poolFull 1)

/-- A tile-home allocation in a crew store, if the act's crew quota and the store have room (R292). -/
def State.allocCrew (s : State) (act crew len : Nat) (kind : AllocKind) : Option Nat × State :=
  let len := roundUp (max len 1) 512
  if s.crewUse act + len > s.rd (F.memQCrew_kib act) * 1024 then (none, s) else
  let lo := crewAddr crew 0
  let hi := crewAddr crew crewLen
  match gapDown len lo hi (sortBy (fun a b => decide (a.addr > b.addr)) (allocsIn lo hi s.fil.allocs)) with
  | some a => (some a, s.addAlloc ⟨a, len, act, kind⟩)
  | none => (none, s)

/-- The bytes of a range of whole blocks at zero, with the check bits of zeros. -/
def MemSt.clear (m : MemSt) (p n : Nat) : MemSt :=
  let hit (b : Nat) : Bool := decide (p / 64 ≤ b ∧ b < (p + n) / 64)
  { m with bytes := kvDrop (fun k => hit (k / 64)) m.bytes, syn := kvDrop hit m.syn, lostX := kvDrop hit m.lostX }

/-- What the areas of a crew store's strands and jobs may take of it, so that 8 MiB are left to tile homes (R110, R289). -/
def areaBytes : Nat := 40 * 2 ^ 20

/-- A working, argument or result area in a crew store, from the bottom upward (R110): it begins with zeros (R32, R67). -/
def State.allocArea (s : State) (act crew len : Nat) (kind : AllocKind) : Option Nat × State :=
  let len := roundUp (max len 1) 64
  let lo := crewAddr crew 0
  let hi := crewAddr crew crewLen
  let here := allocsIn lo hi s.fil.allocs
  if areaBytes < allocSum (!·.isTile) here + len then (none, s) else
  match gapUp len hi lo (sortBy (fun a b => decide (a.addr < b.addr)) here) with
  | some a => (some a, { s with mem := s.mem.clear a len }.addAlloc ⟨a, len, act, kind⟩)
  | none => (none, s)

/-- A datum placed where R292 puts it: crew store first, then the pool. -/
def State.place (s : State) (act crew len : Nat) (kind : AllocKind) : Option Nat × State :=
  match s.allocCrew act crew len kind with
  | (some a, s) => (some a, s)
  | (none, s) => s.allocPool act len kind

end Sys2Proof.Machine
end

