-- ==== Sys2Proof/Machine/Events.lean ====
section
/-! DEFINITION. The event engine's entries (R408, R409): the beat-named actions that the node holds, and whether another may be
registered. -/
namespace Sys2Proof.Machine

/-- The beats of the TAL.WAITB releases (R54). -/
def State.waitBeats (s : State) : List Nat :=
  s.fil.strands.filterMap fun t =>
    match t.wait with
    | .waitb b _ _ => if t.ended then none else some b
    | _ => none

/-- The beats of the table swaps and of the migration flips. -/
def State.tableBeats (s : State) : List Nat :=
  s.wnz.tables.flatMap fun t => (match t.swap with
    | some x => [x.1]
    | none => []) ++ (t.blocks.filter fun b => decide (s.now < b.flip) || t.moves.any (·.job == b.job)).map (·.flip)

/-- The beats of the rebalance switches and retirements of a record that are still to come. -/
def HfRec.beats (now : Nat) (r : HfRec) : List Nat :=
  (r.nextBeat :: r.more.map (·.2.1) ++ (if r.state = 1 then [r.stateBeat] else [])).filter fun b => decide (now < b)

/-- The beats of the index events: switches and retirements of the newest graph of each index, and backfill cuts. -/
def State.indexBeats (s : State) : List Nat :=
  s.idx.indexes.flatMap fun i =>
    (match i.graphs with
      | g :: _ => g.recs.flatMap (HfRec.beats s.now)
      | [] => []) ++ i.seams.filterMap (·.backfill)

/-- The beats of the entries that instructions, loader calls and firmware registered. -/
def State.sharedBeats (s : State) : List Nat :=
  s.waitBeats ++ s.tableBeats ++ s.indexBeats ++ s.fil.recompose.map (·.beat)

/-- The beats of the node's own entries: membership changes (R353, R355), Calliope handovers (R404) and gate-list takeovers (R387). -/
def State.ownBeats (s : State) : List Nat :=
  s.car.changes.map (·.beat) ++ s.tally.handovers.map (·.1) ++ s.rgm.chans.filterMap (·.armed)

/-- Whether an instruction or a loader call may register another event (R409). -/
def State.eventRoom (s : State) : Bool := decide (s.sharedBeats.length < 12288)

end Sys2Proof.Machine
end

