-- ==== Sys2Proof/Machine/Crusher.lean ====
section
/-! DEFINITION. Crusher (R152 to R156): the code lengths, the canonical code, the stream format, and the consistency checks of
every decoder. -/
namespace Sys2Proof.Machine

/-! ## The code (R152, R153) -/

/-- A node of the code builder: its count, its least value, and the byte values under it. -/
abbrev CodeNode := Nat × Nat × List Nat

/-- The order of the builder's keys. -/
def CodeNode.before (a b : CodeNode) : Bool := decide (a.1 < b.1 ∨ a.1 = b.1 ∧ a.2.1 < b.2.1)

/-- The two nodes of least key joined until one is left; every join makes the values under it one bit longer. -/
def joinNodes : Nat → List CodeNode → List Nat → List Nat
  | 0, _, len => len
  | n + 1, a :: b :: t, len =>
    let syms := a.2.2 ++ b.2.2
    let len := syms.foldl (fun l v => updAt l v (· + 1)) len
    joinNodes n (insertBy CodeNode.before (a.1 + b.1, min a.2.1 b.2.1, syms) t) len
  | _ + 1, _, len => len

/-- The lengths for one set of counts. -/
def lensFor (count : List Nat) : List Nat :=
  let leaves : List CodeNode := (count.zipIdx.filter (fun e => decide (e.1 > 0))).map fun e => (e.1, e.2, [e.2])
  joinNodes 256 (sortBy CodeNode.before leaves) (List.replicate 256 0)

/-- The largest number of a list. -/
def maxOf (l : List Nat) : Nat := l.foldl max 0

/-- The lengths, with the counts halved until none exceeds 12. -/
def codeLens : Nat → List Nat → List Nat
  | 0, c => lensFor c
  | n + 1, c =>
    let l := lensFor c
    if maxOf l ≤ 12 then l else codeLens n (c.map fun k => (k + 1) / 2)

/-- How often each byte value occurs. -/
def byteCounts (b : List Byte) : List Nat := b.foldl (fun l x => updAt l x.toNat (· + 1)) (List.replicate 256 0)

/-- The canonical code (R153): value, length and code word, in the order of the code. -/
def canonical (lens : List Nat) : List (Nat × Nat × Nat) :=
  let syms := sortBy (fun (a b : Nat × Nat) => decide (a.1 < b.1 ∨ a.1 = b.1 ∧ a.2 < b.2))
    (lens.zipIdx.filter (fun e => decide (e.1 > 0)))
  let step (acc : List (Nat × Nat × Nat) × Nat × Nat) (e : Nat × Nat) :=
    let code := acc.2.1 * 2 ^ (e.1 - acc.2.2)
    ((e.2, e.1, code) :: acc.1, code + 1, e.1)
  (syms.foldl step ([], 0, (syms.headD (0, 0)).1)).1.reverse

/-- The bits of a code word, most significant first. -/
def codeBits (len code : Nat) : List Bool := (List.range len).map fun i => bitOf code (len - 1 - i)

/-- One byte from at most eight bits, bit 7 first. -/
def byteOfBits (l : List Bool) : Byte :=
  BitVec.ofNat 8 (l.zipIdx.foldl (fun n e => n + b2n e.1 * 2 ^ (7 - e.2)) 0)

/-- Bits packed into bytes: one byte per unit of fuel. -/
def packBits : Nat → List Bool → List Byte
  | 0, _ => []
  | n + 1, l => if l.isEmpty then [] else byteOfBits (l.take 8) :: packBits n (l.drop 8)

/-- The bits of bytes, bit 7 first. -/
def unpackBits (l : List Byte) : List Bool := l.flatMap fun b => (List.range 8).map fun i => b.toNat.testBit (7 - i)

/-- The length in bytes of lane `i` of a raw stream (R154). -/
def laneLen (raw i : Nat) : Nat := min ((i + 1) * ceilDiv raw 8) raw - min (i * ceilDiv raw 8) raw

/-- Lane `i` of a raw stream. -/
def laneOf (b : List Byte) (i : Nat) : List Byte := slice b (i * ceilDiv b.length 8) (laneLen b.length i)

/-! ## Streams (R155, Table 5.4) -/

/-- A stream header: mode, sectors, fill byte, raw length, lanes, longest code, raw CRC, and the two tables of mode 1. -/
def streamHeader (mode sectors fill rawLen lanes maxLen crc : Nat) (tables : List Byte) : List Byte :=
  let h := [BitVec.ofNat 8 0xC1, BitVec.ofNat 8 mode, BitVec.ofNat 8 sectors, BitVec.ofNat 8 fill] ++ leBytes rawLen 2
    ++ [BitVec.ofNat 8 lanes, BitVec.ofNat 8 maxLen] ++ leBytes crc 4
  h ++ leBytes (crc32c (h ++ tables)) 4 ++ tables

/-- The code lengths, two to a byte. -/
def lenTable (lens : List Nat) : List Byte :=
  (List.range 128).map fun j => BitVec.ofNat 8 (lens.getD (2 * j) 0 + 16 * lens.getD (2 * j + 1) 0)

/-- The stored form. -/
def storedForm (b : List Byte) : List Byte :=
  streamHeader 0 (ceilDiv (16 + b.length) 512) 0 b.length 0 0 (crc32c b) [] ++ b

/-- The fill form. -/
def fillForm (b : List Byte) : List Byte := streamHeader 2 1 (b.headD 0#8).toNat b.length 0 0 (crc32c b) []

/-- The coded form. -/
def codedForm (b : List Byte) : List Byte :=
  let lens := codeLens 16 (byteCounts b)
  let code := canonical lens
  let word (x : Byte) : List Bool :=
    match code.find? (fun e => e.1 == x.toNat) with
    | some e => codeBits e.2.1 e.2.2
    | none => []
  let lanes := (List.range 8).map fun i => (laneOf b i).flatMap word
  let data := lanes.flatMap fun l => packBits (ceilDiv l.length 8) l
  let tables := lanes.flatMap (fun l => leBytes l.length 2) ++ lenTable lens
  streamHeader 1 (ceilDiv (160 + data.length) 512) 0 b.length 8 (maxOf lens) (crc32c b) tables ++ data

/-- Whether all bytes are equal. -/
def isFill (b : List Byte) : Bool := b.all (· == b.headD 0#8)

/-- A tile's stream of whole sectors, or nothing where it would need 8 sectors or more (R154). -/
def packTile (b : List Byte) : Option (List Byte) :=
  let f := if isFill b then fillForm b else codedForm b
  if ceilDiv f.length 512 ≥ 8 then none else some (padTo 0#8 (ceilDiv f.length 512 * 512) f)

/-- A link frame's stream, and whether it is coded (R154, R161). -/
def packFrame (squeeze : Bool) (b : List Byte) : List Byte × Bool :=
  let f := if isFill b then fillForm b else codedForm b
  if squeeze && decide (f.length < 16 + b.length) then (f, true) else (storedForm b, false)

/-! ## The consistency checks (R156, Table 5.5) -/

/-- One lane decoded: the bytes and the bits left, or nothing when a code word runs past the end; one bit per unit of fuel. -/
def decodeLane (code : List (Nat × Nat × Nat)) : Nat → List Bool → Nat → Nat → Nat → List Byte → Option (List Byte × List Bool)
  | _, l, 0, _, _, out => some (out.reverse, l)
  | 0, _, _ + 1, _, _, _ => none
  | _ + 1, [], _ + 1, _, _, _ => none
  | n + 1, b :: t, k + 1, len, acc, out =>
    let acc := 2 * acc + b2n b
    match code.find? (fun e => e.2.1 == len + 1 && e.2.2 == acc) with
    | some e => decodeLane code n t k 0 0 (BitVec.ofNat 8 e.1 :: out)
    | none => decodeLane code n t (k + 1) (len + 1) acc out

/-- The lanes decoded in turn, with the byte streams that hold them: all raw bytes, or nothing. -/
def decodeLanes (code : List (Nat × Nat × Nat)) (raw : Nat) : List Nat → Nat → List Byte → Option (List Byte)
  | [], _, _ => some []
  | bitsLen :: t, i, data =>
    let k := ceilDiv bitsLen 8
    match decodeLane code bitsLen ((unpackBits (data.take k)).take bitsLen) (laneLen raw i) 0 0 [] with
    | some (b, []) => (decodeLanes code raw t (i + 1) (data.drop k)).map (b ++ ·)
    | _ => none

/-- Whether the pad bits of every lane are zero. -/
def padsZero : List Nat → List Byte → Bool
  | [], data => data.all (· == 0#8)
  | bitsLen :: t, data =>
    let k := ceilDiv bitsLen 8
    ((unpackBits (data.take k)).drop bitsLen).all (! ·) && padsZero t (data.drop k)

/-- The checks in order, each with its number and its condition: the first that fails. -/
def firstFail : List (Nat × Bool) → Option Nat
  | [] => none
  | (n, ok) :: t => if ok then firstFail t else some n

/-- A stream decoded: its raw bytes, or the number of the first check that fails. `wire` is set for a link frame; `recorded` is
the sector count recorded with the tile, and `whole` the raw length that a stream in memory must have. -/
def decodeStream (wire : Bool) (recorded : Nat) (b : List Byte) (whole : Nat := 4096) : Nat ⊕ List Byte :=
  let u8 (o : Nat) := leAt b o 1
  let mode := u8 1
  let sectors := u8 2
  let rawLen := leAt b 4 2
  let maxLen := u8 7
  let laneBits := (List.range 8).map fun i => leAt b (0x10 + 2 * i) 2
  let lens := (List.range 256).map fun v => bits (u8 (0x20 + v / 2)) (4 * (v % 2)) 4
  let used := lens.filter (· != 0)
  let need := 160 + (laneBits.map (ceilDiv · 8)).sum
  let data := b.drop 0xA0
  let code := canonical lens
  let hdr := slice b 0 12 ++ (if mode = 1 then slice b 0x10 0x90 else [])
  let rest := b.drop (if mode = 0 then 16 + rawLen else 16)
  let raw := if mode = 0 then slice b 16 rawLen else if mode = 2 then List.replicate rawLen (BitVec.ofNat 8 (u8 3)) else []
  let first := firstFail [
    (1, u8 0 == 0xC1),
    (2, mode == 1 || mode == 2 || (wire && mode == 0)),
    (3, crc32c hdr == leAt b 0x0C 4),
    (4, if wire then decide (1 ≤ rawLen ∧ rawLen ≤ 4096) else rawLen == whole),
    (5, (if mode = 2 then sectors == 1 else if mode = 0 then sectors == ceilDiv (16 + rawLen) 512
        else decide (1 ≤ sectors ∧ sectors ≤ (if wire then 8 else 7)))
      && (if wire then sectors == ceilDiv b.length 512 else sectors == recorded)),
    (6, mode == 1 || (u8 6 == 0 && maxLen == 0 && (mode == 2 || u8 3 == 0)
      && (if wire then b.length == (if mode = 0 then 16 + rawLen else 16) else rest.all (· == 0#8)))),
    (7, mode != 1 || (u8 6 == 8 && decide (1 ≤ maxLen ∧ maxLen ≤ 12) && lens.all (fun l => decide (l ≤ maxLen))
      && lens.contains maxLen && decide (used.length ≥ 2))),
    (8, mode != 1 || (used.map (fun l => 2 ^ (12 - l))).sum == 2 ^ 12),
    (9, mode != 1 || (decide ((sectors - 1) * 512 + 1 ≤ need ∧ need ≤ sectors * 512) && (!wire || b.length == need)))]
  match first with
  | some n => .inl n
  | none =>
    if mode = 1 then
      match decodeLanes code rawLen laneBits 0 data with
      | none => .inl 10
      | some raw =>
        if !padsZero laneBits data then .inl 11
        else if crc32c raw != leAt b 8 4 then .inl 12 else .inr raw
    else if crc32c raw != leAt b 8 4 then .inl 12 else .inr raw

end Sys2Proof.Machine
end

