-- ==== Sys2Proof/Machine/Fp.lean ====
section
/-! DEFINITION. The number formats of Table 4.4 and the exact arithmetic behind them: decoding to exact values, one rounding
(R118), the order of R88, the functions of R124, and the rounding to the narrow grids (R143). -/
namespace Sys2Proof.Machine

/-- An exact value of a floating format: a NaN, a signed infinity, or a sign with `m * 2^e`. -/
inductive FV where
  | nan
  | inf (neg : Bool)
  | fin (neg : Bool) (m : Nat) (e : Int)
deriving DecidableEq, Repr

/-- The quiet NaN that every binary32 result carries (R117). -/
def nan32 : Nat := 0x7FC00000

/-- The value of a pattern with `eb` exponent bits, `mb` mantissa bits and a bias (R116); `top` says whether the top
exponent holds infinities and NaNs. -/
def decodeFp (eb mb bias : Nat) (top : Bool) (n : Nat) : FV :=
  let s := bitOf n (eb + mb)
  let e := bits n mb eb
  let m := bits n 0 mb
  if top && e == 2 ^ eb - 1 then (if m = 0 then .inf s else .nan)
  else if e = 0 then .fin s m (1 - (bias : Int) - mb)
  else .fin s (2 ^ mb + m) ((e : Int) - bias - mb)

/-- The value of a binary32 pattern. -/
def f32 (n : Nat) : FV := decodeFp 8 23 127 true n

/-- The value of a BF16 pattern. -/
def bf16 (n : Nat) : FV := decodeFp 8 7 127 true n

/-- The value of an FP8 E4M3 pattern; its only NaNs have every exponent and mantissa bit set. -/
def e4m3 (n : Nat) : FV := if n % 128 = 127 then .nan else decodeFp 4 3 7 false n

/-- The value of an FP8 E5M2 pattern. -/
def e5m2 (n : Nat) : FV := decodeFp 5 2 15 true n

/-- The value of an FP4 E2M1 pattern. -/
def e2m1 (n : Nat) : FV := decodeFp 2 1 1 false n

/-- The value of an INT8 pattern. -/
def int8v (n : Nat) : FV := if n % 256 < 128 then .fin false (n % 256) 0 else .fin true (256 - n % 256) 0

/-- The value of an INT32 pattern. -/
def int32v (n : Nat) : FV :=
  if n % 2 ^ 32 < 2 ^ 31 then .fin false (n % 2 ^ 32) 0 else .fin true (2 ^ 32 - n % 2 ^ 32) 0

/-- A magnitude shifted right by `k` bits, to nearest with ties to even. -/
def shiftRne (m k : Nat) : Nat :=
  let q := m / 2 ^ k
  let r := m % 2 ^ k
  if 2 * r > 2 ^ k || (2 * r == 2 ^ k && q % 2 == 1) then q + 1 else q

/-- One rounding to a format of `p` bits of precision with smallest subnormal `2^emin` and largest exponent `emax` (R118):
the mantissa and its exponent, or nothing on overflow. -/
def roundMag (p : Nat) (emin emax : Int) (m : Nat) (e : Int) : Option (Nat × Int) :=
  let q := max (e + (Nat.log2 m + 1 : Nat) - p) emin
  let r := if q ≤ e then m * 2 ^ (e - q).toNat else shiftRne m (q - e).toNat
  let (r, q) := if r = 2 ^ p then (2 ^ (p - 1), q + 1) else (r, q)
  if q + p - 1 > emax && r ≥ 2 ^ (p - 1) then none else some (r, q)

/-- The pattern of a value rounded once to a format with 8 exponent bits and `mb` mantissa bits. -/
def roundW8 (mb : Nat) (v : FV) : Nat :=
  let sg (s : Bool) := b2n s * 2 ^ (8 + mb)
  match v with
  | .nan => 0xFF * 2 ^ mb + 2 ^ (mb - 1)
  | .inf s => sg s + 0xFF * 2 ^ mb
  | .fin s m e =>
    if m = 0 then sg s else
    match roundMag (mb + 1) (-126 - mb) 127 m e with
    | none => sg s + 0xFF * 2 ^ mb
    | some (r, q) =>
      if r < 2 ^ mb then sg s + r
      else sg s + (q + 127 + mb).toNat * 2 ^ mb + (r - 2 ^ mb)

/-- A value rounded once to binary32 (R118). -/
def round32 (v : FV) : Nat := roundW8 23 v

/-- A value rounded once to BF16 (R118). -/
def roundBf16 (v : FV) : Nat := roundW8 7 v

/-- The signed integer of a finite value at exponent `e`, which is at most its own. -/
def intAt (s : Bool) (m : Nat) (e0 e : Int) : Int :=
  let n : Int := m * 2 ^ (e0 - e).toNat
  if s then -n else n

/-- An exact sum. A zero sum is +0 unless both terms are −0 (R118). -/
def FV.add : FV → FV → FV
  | .nan, _ => .nan
  | _, .nan => .nan
  | .inf a, .inf b => if a = b then .inf a else .nan
  | .inf a, _ => .inf a
  | _, .inf b => .inf b
  | .fin s m e, .fin t n f =>
    let g := min e f
    let z := intAt s m e g + intAt t n f g
    if z = 0 then .fin (s && t && m == 0 && n == 0) 0 0 else .fin (decide (z < 0)) z.natAbs g

/-- An exact product; a zero carries the exclusive OR of the signs (R118). -/
def FV.mul : FV → FV → FV
  | .nan, _ => .nan
  | _, .nan => .nan
  | .inf a, .inf b => .inf (a != b)
  | .inf a, .fin s m _ => if m = 0 then .nan else .inf (a != s)
  | .fin s m _, .inf b => if m = 0 then .nan else .inf (s != b)
  | .fin s m e, .fin t n f => .fin (s != t) (m * n) (e + f)

/-- A value with its sign flipped. -/
def FV.neg : FV → FV
  | .nan => .nan
  | .inf s => .inf (!s)
  | .fin s m e => .fin (!s) m e

/-- A value times `2^k`, exactly. -/
def FV.scale (k : Int) : FV → FV
  | .fin s m e => .fin s m (e + k)
  | v => v

/-- Whether a value is a NaN. -/
def FV.isNan : FV → Bool
  | .nan => true
  | _ => false

/-- Whether a value is finite. -/
def FV.isFin : FV → Bool
  | .fin _ _ _ => true
  | _ => false

/-- Whether a value is zero, of either sign. -/
def FV.isZero : FV → Bool
  | .fin _ m _ => m == 0
  | _ => false

/-- A finite value's magnitude as a fraction. -/
def FV.magFrac : FV → Nat × Nat
  | .fin _ m e => if e ≥ 0 then (m * 2 ^ e.toNat, 1) else (m, 2 ^ (-e).toNat)
  | _ => (0, 1)

/-- A binary32 sum, rounded once. -/
def fadd (a b : Nat) : Nat := round32 ((f32 a).add (f32 b))

/-- A binary32 difference, rounded once. -/
def fsub (a b : Nat) : Nat := round32 ((f32 a).add (f32 b).neg)

/-- A binary32 product, rounded once. -/
def fmul (a b : Nat) : Nat := round32 ((f32 a).mul (f32 b))

/-- A binary32 fused multiply-add, rounded once. -/
def ffma (a b c : Nat) : Nat := round32 (((f32 a).mul (f32 b)).add (f32 c))

/-- The order of R88: −0 equals +0, and every NaN is above +∞ and equal to every other NaN. -/
def fkey (n : Nat) : Int :=
  let m : Nat := n % 2 ^ 31
  if m > 0x7F800000 then 0x80000000 else if bitOf n 31 then -(m : Int) else (m : Int)

/-- Whether a binary32 value is less than another under R88. -/
def flt (a b : Nat) : Bool := decide (fkey a < fkey b)

/-- Whether two binary32 values are equal under R88. -/
def feq (a b : Nat) : Bool := decide (fkey a = fkey b)

/-- Whether a binary32 pattern is a NaN. -/
def isNan32 (n : Nat) : Bool := decide (n % 2 ^ 31 > 0x7F800000)

/-- A quotient of naturals as a value with a sticky bit: enough leading bits for one correct rounding. -/
def fracV (neg : Bool) (num den : Nat) (e : Int) : FV :=
  if num = 0 then .fin neg 0 0 else
  let k := Nat.log2 den - Nat.log2 num + 40
  let q := num * 2 ^ k / den
  let st := if num * 2 ^ k % den = 0 then 0 else 1
  .fin neg (2 * q + st) (e - k - 1)

/-- The integer square root, one bit of the result at a time from bit `k`. -/
def isqrtFrom (n : Nat) : Nat → Nat → Nat
  | 0, r => r
  | k + 1, r => let t := r + 2 ^ k; if t * t ≤ n then isqrtFrom n k t else isqrtFrom n k r

/-- The integer square root. -/
def isqrt (n : Nat) : Nat := isqrtFrom n (Nat.log2 n / 2 + 1) 0

/-- RECIP of R124. -/
def frecip (n : Nat) : Nat :=
  match f32 n with
  | .nan => nan32
  | .inf s => round32 (.fin s 0 0)
  | .fin s m e => if m = 0 then round32 (.inf s) else round32 (fracV s 1 m (-e))

/-- RSQRT of R124. -/
def frsqrt (n : Nat) : Nat :=
  match f32 n with
  | .nan => nan32
  | .inf s => if s then nan32 else 0
  | .fin s m e =>
    if m = 0 then round32 (.inf s) else if s then nan32 else
    let (m, e) := if e % 2 = 0 then (m, e) else (2 * m, e - 1)
    let q := isqrt (2 ^ 160 / m)
    let st := if q * q * m = 2 ^ 160 then 0 else 1
    round32 (.fin false (2 * q + st) (-(e / 2) - 81))

/-- The working precision of EXP and TANH: fraction bits of a fixed-point number. -/
def expBits : Nat := 240

/-- The terms of the exponential series at `y` (fixed point): `n` terms from term `i` on. -/
def expSeries (y : Int) : Nat → Nat → Int → Int → Int
  | 0, _, _, acc => acc
  | n + 1, i, t, acc => let t' := t * y / 2 ^ expBits / (i : Int); expSeries y n (i + 1) t' (acc + t')

/-- A fixed-point number squared `n` times. -/
def sqTimes : Nat → Int → Int
  | 0, x => x
  | n + 1, x => sqTimes n (x * x / 2 ^ expBits)

/-- The exponential of `m * 2^e` in fixed point. -/
def expFix (s : Bool) (m : Nat) (e : Int) : Int :=
  let x : Int := if e + expBits ≥ 0 then m * 2 ^ (e + expBits).toNat else m / 2 ^ (-(e + expBits)).toNat
  let y := (if s then -x else x) / 2 ^ 16
  sqTimes 16 (expSeries y 24 1 (2 ^ expBits) (2 ^ expBits))

/-- A positive fixed-point number that is not exact, as a value with a sticky bit. -/
def fixV (neg : Bool) (x : Int) : FV := .fin neg (2 * x.toNat + 1) (-(expBits : Int) - 1)

/-- Whether a magnitude `m * 2^e` is at least `2^k`. -/
def magGe (m : Nat) (e k : Int) : Bool := m != 0 && decide (e + (Nat.log2 m : Nat) ≥ k)

/-- EXP of R124: the exact value rounded once. -/
def fexp (n : Nat) : Nat :=
  match f32 n with
  | .nan => nan32
  | .inf s => if s then 0 else round32 (.inf false)
  | .fin s m e =>
    if !magGe m e (-26) then 0x3F800000
    else if magGe m e 7 then (if s then 0 else round32 (.inf false))
    else round32 (fixV false (expFix s m e))

/-- TANH of R124: the exact value rounded once. R124 and R118 give no sign for the exact zero of a function: the model keeps the sign of x
(DESIGN CHOICE, log 146). -/
def ftanh (n : Nat) : Nat :=
  match f32 n with
  | .nan => nan32
  | .inf s => round32 (.fin s 1 0)
  | .fin s m e =>
    if !magGe m e (-12) then round32 (.fin s m e)
    else if magGe m e 4 then round32 (.fin s 1 0)
    else
      let x := expFix false m (e + 1)
      round32 (fracV s (x - 2 ^ expBits).toNat (x + 2 ^ expBits).toNat 0)

/-- GELU of R124, step by step. -/
def fgelu (x : Nat) : Nat :=
  if x = 0xFF800000 then 0x80000000 else
  let a := fmul x x
  let b := fmul a x
  let c := ffma 0x3D372713 b x
  let d := fmul 0x3F4C422A c
  let e := ftanh d
  let f := fadd 0x3F800000 e
  let g := fmul x 0x3F000000
  fmul g f

/-- SILU of R124, step by step. -/
def fsilu (x : Nat) : Nat :=
  if x = 0xFF800000 then 0x80000000 else
  let e := fexp (x ^^^ 0x80000000)
  let f := fadd 0x3F800000 e
  let r := frecip f
  fmul x r

/-- RELU of R124. -/
def frelu (x : Nat) : Nat := if isNan32 x then nan32 else if fkey x > 0 then x else 0

/-- Binary32 to a signed 64-bit integer: toward zero, saturating, NaN to 0 (Table 3.5). -/
def f32ToI64 (n : Nat) : BitVec 64 :=
  match f32 n with
  | .nan => 0#64
  | .inf s => if s then BitVec.ofInt 64 (-(2 ^ 63)) else BitVec.ofNat 64 (2 ^ 63 - 1)
  | .fin s m e =>
    let a : Nat := if e ≥ 0 then m * 2 ^ e.toNat else m / 2 ^ (-e).toNat
    if s then BitVec.ofInt 64 (-(min a (2 ^ 63) : Nat)) else BitVec.ofNat 64 (min a (2 ^ 63 - 1))

/-- A signed 64-bit integer to binary32. -/
def i64ToF32 (x : BitVec 64) : Nat := round32 (.fin (decide (x.toInt < 0)) x.toInt.natAbs 0)

/-- The fixed reduction tree of R91: one level. -/
def treeLevel {α : Type} (f : α → α → α) : List α → List α
  | a :: b :: t => f a b :: treeLevel f t
  | l => l

/-- The fixed reduction tree of R91, with one level per unit of fuel. -/
def treeFuel {α : Type} (f : α → α → α) : Nat → List α → List α
  | 0, l => l
  | n + 1, l => treeFuel f n (treeLevel f l)

/-- The fixed reduction tree of R91 over a list. -/
def treeReduce {α : Type} (f : α → α → α) (d : α) (l : List α) : α :=
  (treeFuel f (Nat.log2 l.length + 1) l).headD d

/-! ## The narrow grids of R143 -/

/-- The narrow target formats, by their FMT code of Table 4.2. -/
inductive Narrow where
  | e4m3 | e5m2 | fp4 | int8
deriving DecidableEq, Repr

/-- The narrow format of a FMT code. -/
def Narrow.ofFmt : Nat → Option Narrow
  | 2 => some .e4m3
  | 3 => some .e5m2
  | 4 => some .fp4
  | 5 => some .int8
  | _ => none

/-- The largest finite magnitude F. -/
def Narrow.maxMag : Narrow → Nat
  | .e4m3 => 448
  | .e5m2 => 57344
  | .fp4 => 6
  | .int8 => 127

/-- The code of F. -/
def Narrow.maxCode : Narrow → Nat
  | .e4m3 => 0x7E
  | .e5m2 => 0x7B
  | .fp4 => 7
  | .int8 => 127

/-- The exact value of a code. -/
def Narrow.value : Narrow → Nat → FV
  | .e4m3, n => Sys2Proof.Machine.e4m3 n
  | .e5m2, n => Sys2Proof.Machine.e5m2 n
  | .fp4, n => e2m1 n
  | .int8, n => int8v n

/-- The magnitude of a non-negative code in units of `2^-16`. -/
def Narrow.grid (f : Narrow) (c : Nat) : Nat :=
  match f.value c with
  | .fin _ m e => m * 2 ^ (e + 16).toNat
  | _ => 0

/-- The code of the grid value nearest to `num / den`, at most F, with a tie to the larger magnitude: one step for each
code up to `c`. -/
def Narrow.nearest (f : Narrow) (num den : Nat) : Nat → Nat
  | 0 => 0
  | c + 1 =>
    if num * 2 ^ 17 ≥ (f.grid c + f.grid (c + 1)) * den then c + 1 else f.nearest num den c

/-- The pattern of a magnitude code with a sign. -/
def Narrow.signed (f : Narrow) (neg : Bool) (c : Nat) : Nat :=
  match f with
  | .fp4 => if neg then 8 + c else c
  | .int8 => if neg && c != 0 then 256 - c else c
  | _ => if neg then 0x80 + c else c

/-- One value quantised by the scale `sm * 2^se` (R143): the pattern, and whether it counts as saturated; nothing for a NaN
in a format that has none. -/
def Narrow.quantise (f : Narrow) (v : FV) (sm : Nat) (se : Int) : Option (Nat × Bool) :=
  match v with
  | .nan => match f with
    | .e4m3 => some (0x7F, false)
    | .e5m2 => some (0x7E, false)
    | _ => none
  | .inf s => some (f.signed s f.maxCode, false)
  | .fin s m e =>
    let d := e - se
    let num := if d ≥ 0 then m * 2 ^ d.toNat else m
    let den := if d ≥ 0 then sm else sm * 2 ^ (-d).toNat
    if num > f.maxMag * den then some (f.signed s f.maxCode, true)
    else some (f.signed s (f.nearest num den f.maxCode), false)

end Sys2Proof.Machine
end

