-- ==== Sys2Proof/Machine/Egress.lean ====
section
/-! DEFINITION. How traffic leaves the node (chapter 13): the egress channels and their classes (R381 to R383), the cells of the buffer
pool (R394), and the queues that producers put units into. The routes of the Carousel (R348) choose the link of a packet. -/
namespace Sys2Proof.Machine

/-- The node's own number (R15). -/
def State.self (s : State) : Nat := s.rd F.glbNodeId_node

/-! ## Channels (Table 13.1) -/

/-- The group of a channel: Carousel, Midway, flash, host. -/
def chanGroup (n : Nat) : Nat := if n < 8 then 0 else if n < 10 then 1 else if n < 42 then 2 else 3

/-- F, the minimum window in ns. -/
def chanWindow (n : Nat) : Nat := [32, 64, 4096, 128].getD (chanGroup n) 0

/-- The largest unit in bytes. -/
def chanLargest (n : Nat) : Nat := [4160, 9216, 16448, 4160].getD (chanGroup n) 0

/-- The time in ns that a unit takes at the channel's line rate: 200 bytes a ns on a link, 200 or 100 on a Midway port, the card's rate on
a flash channel, and the trained rate and width on the host path. -/
def State.lineNs (s : State) (n len : Nat) : Nat :=
  match chanGroup n with
  | 0 => ceilDiv len 200
  | 1 => ceilDiv len (if s.rd (F.mdwPortCtrl_pmd (n - 8)) = 2 then 100 else 200)
  | 2 => ceilDiv (10 * len) (max 1 s.flash.card.rate)
  | _ => ceilDiv len (max 1 (s.rd F.hifLinkStatus_width * 4 * 2 ^ (s.rd F.hifLinkStatus_speed - 5)))

/-- A channel's gate state. -/
def State.chan (s : State) (n : Nat) : Chan := s.rgm.chans.getD n ⟨1, 1, 0, 0, none, [], [], none, (0, 0)⟩

/-- The Ringmaster changed. -/
def State.modRgm (s : State) (f : RgmSt → RgmSt) : State := { s with rgm := f s.rgm }

/-- A channel's gate state changed. -/
def State.modChan (s : State) (n : Nat) (f : Chan → Chan) : State := s.modRgm fun r => { r with chans := updAt r.chans n f }

/-! ## ALERT_N -/

/-- Whether ALERT_N is asserted: for heat, a trip or a power failure, or for a decision of R472 or R483. -/
def State.alerting (s : State) : Bool :=
  !s.pins.alerts.isEmpty || (s.on F.funSpareLog_valid && (s.on F.funSpareLog_exhausted || s.rd F.funSpareLog_kind == 7))

/-- A change of the state, with what it makes of ALERT_N. -/
def State.alerted (s : State) (f : State → State) : State :=
  let t := f s
  if t.alerting = s.alerting then t else t.emit (.alert false t.alerting)

/-- A reason to assert ALERT_N, or no more. -/
def State.setAlert (s : State) (why : Nat) (on : Bool) : State :=
  { s with pins := { s.pins with alerts := s.pins.alerts.filter (· != why) ++ (if on then [why] else []) } }

/-- A decision on a spare entered in FUN_SPARE_LOG when it is free (R483, R490). One that asserts ALERT_N and finds the log full asserts it
until VALID is cleared (log 177). -/
def State.logSpare (s : State) (kind unit index : Nat) (exhausted : Bool) : State :=
  if s.on F.funSpareLog_valid then (if exhausted || kind == 7 then s.setAlert 3 true else s) else
  let s := ((s.wr F.funSpareLog_valid 1).wr F.funSpareLog_kind kind).wr F.funSpareLog_unit unit
  (s.wr F.funSpareLog_index index).wr F.funSpareLog_exhausted (b2n exhausted)

/-! ## The buffer pool (R394) -/

/-- The cells of a unit of a length. -/
def cellsOf (len : Nat) : Nat := ceilDiv len 256

/-- The cells that the queued units satisfying a test hold. -/
def State.cellsHeld (s : State) (p : Unit_ → Bool) : Nat := (s.rgm.units.filter p).foldl (fun n u => n + u.cells) 0

/-- RGM_POOL_SHARED: the pool less all reservations. -/
def State.poolShared (s : State) : Nat :=
  262144 - ((List.range 43).map fun n => s.rd (F.rgmChReserve_cells n)).sum

/-- The shared cells that a channel's units take beyond its reservation, of which one largest unit's worth is kept for class 0. -/
def State.overReserve (s : State) (n more0 more : Nat) : Nat :=
  let l := cellsOf (chanLargest n)
  (s.cellsHeld (fun u => u.chan == n && u.cls != 0) + more - (s.rd (F.rgmChReserve_cells n) - l))
    + (s.cellsHeld (fun u => u.chan == n && u.cls == 0) + more0 - l)

/-- Whether the pool has cells for a unit. -/
def State.cellsFit (s : State) (u : Unit_) : Bool :=
  let k := cellsOf u.len
  let used (n : Nat) : Nat :=
    s.overReserve n (if n = u.chan ∧ u.cls = 0 then k else 0) (if n = u.chan ∧ u.cls ≠ 0 then k else 0)
  decide (((List.range 43).map used).sum ≤ s.poolShared) &&
    (u.cls == 0 ||
      (decide (s.cellsHeld (fun v => v.chan == u.chan) + k ≤ s.rd (F.rgmChMax_cells u.chan)) &&
        decide (s.cellsHeld (fun v => v.act == u.act && v.cls != 0) + k ≤ s.rd (F.rgmActPoolMax_cells u.act))))

/-- Two units of one queue (R383): class 0 has one queue per channel. -/
def Unit_.mate (u v : Unit_) : Bool := u.chan == v.chan && u.cls == v.cls && (u.cls == 0 || u.act == v.act)

/-- The bytes queued in a unit's queue. -/
def State.depth (s : State) (u : Unit_) : Nat := (s.rgm.units.filter u.mate).foldl (fun n v => n + v.len) 0

/-- A queue's sample statistics changed. -/
def State.modStat (s : State) (u : Unit_) (f : QStat → QStat) : State :=
  let act := if u.cls = 0 then 0 else u.act
  let hit (q : QStat) : Bool := q.chan == u.chan && q.cls == u.cls && q.act == act
  let q := (s.rgm.stats.find? hit).getD ⟨u.chan, act, u.cls, 0, 0⟩
  s.modRgm fun r => { r with stats := f q :: r.stats.filter fun q => !hit q }

/-- A unit enters its queue with its cells. -/
def State.enter (s : State) (u : Unit_) : State :=
  let s := s.modRgm fun r => { r with units := r.units ++ [{ u with cells := cellsOf u.len, entered := s.ns }] }
  s.modStat u fun q => { q with maxDepth := max q.maxDepth (s.depth u) }

/-- Two packets of another source on their way through this node, with one target and virtual channel: these stay in order whatever
their acts (R350). -/
def State.sameFlow (s : State) (u v : Unit_) : Bool :=
  match u.out, v.out with
  | some (.packet p), some (.packet q) => u.chan == v.chan && p.src != s.self && p.src == q.src && p.dst == q.dst && p.vc == q.vc
  | _, _ => false

/-- A unit offered by its producer: it enters its queue, or its producer waits for cells. -/
def State.enqueue (s : State) (chan act cls : Nat) (due : Option Nat) (len : Nat) (out : Option Out) : State :=
  let u : Unit_ := ⟨s.nextId, chan, act, cls, len, due, s.ns, 0, 0, out⟩
  let s := s.fresh
  if s.rgm.waiting.any (fun v => u.mate v || s.sameFlow u v) || !s.cellsFit u then (s.modRgm fun r => { r with waiting := r.waiting ++ [u] }).mark 40 else s.enter u

/-- Something of `len` payload bytes offered as units of at most `piece` bytes of payload and a header each: what leaves the node leaves
with the last. One unit per unit of fuel. -/
def State.sendUnits (chan act cls : Nat) (due : Option Nat) (head piece : Nat) (out : Out) : Nat → Nat → State → State
  | 0, _, s => s
  | n + 1, len, s =>
    if len ≤ piece then s.enqueue chan act cls due (head + len) (some out)
    else State.sendUnits chan act cls due head piece out n (len - piece) (s.enqueue chan act cls due (head + piece) none)

/-! ## The host path -/

/-- The pieces of a write, each at most 4,096 bytes and inside one 4 KiB page: one per unit of fuel. -/
def tlps : Nat → Nat → List Byte → List (Nat × List Byte)
  | 0, _, _ => []
  | n + 1, a, d =>
    if d.isEmpty then [] else
    let k := 4096 - a % 4096
    (a, d.take k) :: tlps n (a + k) (d.drop k)

/-- A write to host memory under a function, as memory-write TLPs of a 16-byte header and up to 4,096 bytes. Nothing is written from
PERST_N until a ring is enabled again (R453). -/
def State.sendHost (s : State) (fn act cls addr : Nat) (data : List Byte) (relaxed : Bool) : State :=
  if s.host.mute then s else
  (tlps (data.length / 4096 + 2) addr data).foldl
    (fun s e => s.enqueue 42 act cls none (16 + e.2.length) (some (.hostWrite fn e.1 e.2 relaxed))) s

/-! ## Routes (R344, R345, R348) -/

/-- The stride of a ring pair. -/
def stride (k : Nat) : Nat := [1, 2, 5, 11].getD k 1

/-- The members, and the bypassed positions, as bit maps. -/
def State.members (s : State) : Nat := s.rd64 F.carMembersLo_map F.carMembersHi_map

def State.bypassed (s : State) : Nat := s.rd64 F.carBypassedLo_map F.carBypassedHi_map

/-- Whether a ring pair is lit (R345). -/
def State.lit (s : State) (k : Nat) : Bool :=
  bitOf (s.rd F.carCfg_pairEn) k && decide (stride k < s.rd F.carCfg_size)

/-- The position one hop on from `p` on ring `r` (pair r / 2, counter-clockwise where r is odd). -/
def ringNext (n r p : Nat) : Nat := if r % 2 = 0 then (p + stride (r / 2)) % n else (p + n - stride (r / 2) % n) % n

/-- Where a hop on a ring lands: the next position that is a member there; one position per unit of fuel. -/
def State.land (s : State) (r p : Nat) : Nat → Option Nat
  | 0 => none
  | f + 1 =>
    let q := ringNext (max 1 (s.rd F.carCfg_size)) r p
    if s.members.testBit q && !s.car.lostRings.contains (q, r) then some q else s.land r q f

/-- A route in progress: where it stands, and its hops with the position that each leaves, last first. -/
abbrev Path := Nat × List (Nat × Nat)

/-- The order of R348 between two routes of as many hops: the greater list of strides, then the first clockwise hop. -/
def pathBefore (a b : Path) : Bool :=
  let strides (p : Path) : List Nat := p.2.reverse.map fun h => stride (h.1 / 2)
  let ways (p : Path) : List Nat := p.2.reverse.map fun h => h.1 % 2
  if strides a = strides b then decide (ways a < ways b) else decide (strides b < strides a)

/-- Paths of which only the best to each place is kept, for each ring pair of the last hop. -/
def keepBest (l : List Path) : List Path :=
  l.foldl (fun acc p =>
    let same (q : Path) : Bool := q.1 == p.1 && (q.2.head?.map fun h => h.1 / 2) == (p.2.head?.map fun h => h.1 / 2)
    match acc.find? same with
    | none => acc ++ [p]
    | some q => if pathBefore p q then acc.filter (fun x => !same x) ++ [p] else acc) []

/-- The paths one hop longer, their strides not increasing. A position that is lost on a ring sends on it no more than it receives (R347). -/
def State.extend (s : State) (l : List Path) : List Path :=
  l.flatMap fun p => (List.range 8).filterMap fun r =>
    let k := r / 2
    let ok := match p.2.head? with
      | some h => decide (k ≤ h.1 / 2)
      | none => true
    if !ok || !s.lit k || !bitOf (s.rd F.carStatus_pairs) k || s.car.lostRings.contains (p.1, r) then none else
    (s.land r p.1 (s.rd F.carCfg_size)).bind fun q => if q = p.1 then none else some (q, (r, p.1) :: p.2)

/-- The best route to a position among paths of growing length: one more hop per unit of fuel. -/
def State.search (s : State) (dst : Nat) : Nat → List Path → Option (List (Nat × Nat))
  | 0, _ => none
  | f + 1, l =>
    let l := keepBest (s.extend l)
    match l.filter (fun p => p.1 == dst) with
    | [] => if l.isEmpty then none else s.search dst f l
    | p :: t => some ((t.foldl (fun a b => if pathBefore b a then b else a) p).2.reverse)

/-- The route between two nodes (R348): the ring of each hop and the position that it leaves. -/
def State.route (s : State) (src dst : Nat) : Option (List (Nat × Nat)) :=
  if src = dst then some [] else s.search dst 64 [(src, [])]

/-- The outgoing link of this node on the route of a packet: ring r leaves on link r (R344). -/
def State.linkFor (s : State) (src dst : Nat) : Option Nat :=
  let here (l : Option (List (Nat × Nat))) : Option Nat := (l.bind (·.find? (·.2 == s.self))).map (·.1)
  match here (s.route src dst) with
  | some r => some r
  | none => here (s.route s.self dst)

/-- The lowest-numbered member of the cycle of a position on a ring pair. -/
def State.lowest (s : State) (k p : Nat) : Nat :=
  let g := Nat.gcd (stride k) (s.rd F.carCfg_size)
  ((List.range 64).find? fun q => s.members.testBit q && q % g == p % g).getD p

/-- The buffer class in which a packet crosses the link by which this node sends it (R349): 0 from each ring change on, and 1 from the
cycle's dateline, the link into its lowest-numbered member (log 167). -/
def State.bufClass (s : State) (src dst : Nat) : Nat :=
  let hops := (s.route src dst).getD []
  let upTo := hops.take ((hops.findIdx (·.2 == s.self)) + 1)
  (upTo.foldl (fun (a : Option Nat × Nat) h =>
    let c := if a.1 = some h.1 then a.2 else 0
    (some h.1, if s.land h.1 h.2 (s.rd F.carCfg_size) = some (s.lowest (h.1 / 2) h.2) then 1 else c)) (none, 0)).2

/-- Traffic for another node offered to the link of its route: what has no route is lost, and replay finds that out (R367). -/
def State.sendNode (s : State) (node act cls : Nat) (due : Option Nat) (len : Nat) (out : Out) : State :=
  match s.linkFor s.self node with
  | some l => State.sendUnits l act cls due 32 4096 out (len / 4096 + 1) len s
  | none => s

/-- A Carousel packet offered to a link (Table 13.2): REQ and RESP are class 1, BULK class 2. -/
def State.sendPacket (s : State) (p : Packet) : State :=
  match s.linkFor p.src p.dst with
  | some l => s.enqueue l p.act (if p.vc = 2 then 2 else 1) none (32 + p.data.length) (some (.packet p))
  | none => s

/-! ## Control traffic (R369) -/

/-- The clockwise ring of broadcasts: of the lit pair of smallest stride whose cycle visits every member. It leaves on the link of its
number. -/
def State.bcastLink (s : State) : Option Nat :=
  ((List.range 4).find? fun k => s.lit k && bitOf (s.rd F.carStatus_pairs) k &&
    (List.range 64).all fun p => !s.members.testBit p
      || p % Nat.gcd (stride k) (s.rd F.carCfg_size) == s.rd F.carCfg_position % Nat.gcd (stride k) (s.rd F.carCfg_size)).map (2 * ·)

/-- CTL traffic put on links, and counted there (R380): 0 markers, 1 committed beats, 2 hellos, 3 broadcasts, 4 acknowledgements. -/
def State.ctl (s : State) (kind : Nat) (links : List Nat) (o : Out) : State :=
  links.foldl (fun s l => (s.count (0x900 + l) (Config.ctlBytes kind)).count (0xA00 + l) (Config.ctlBytes kind)) (s.emit o)

/-- CTL traffic that has come on the ring of broadcasts, counted. -/
def State.ctlIn (s : State) (kind : Nat) : State :=
  match s.bcastLink with
  | some l => s.count (0x908 + l) (Config.ctlBytes kind)
  | none => s

/-- A broadcast, and an acknowledgement, sent on. -/
def State.tell (s : State) (b : Bcast) : State := s.ctl 3 s.bcastLink.toList (.bcast s.bcastLink b)
def State.tellAck (s : State) (b : Bcast) : State := s.ctl 4 s.bcastLink.toList (.bcastAck s.bcastLink b)

/-- A broadcast that arrives at a member: a copy is taken, and it goes on round the ring. -/
def State.relay (s : State) (b : Bcast) : State := (s.ctlIn 3).tell b

/-- The same of one that every member acknowledges. -/
def State.heard (s : State) (b : Bcast) : State := (s.relay b).tellAck b

end Sys2Proof.Machine
end

