-- ==== Sys2Proof/WellFormed.lean ====
section
/-! DEFINITION. Which instruction words are well formed (R74 to R76): for every function its operand files, its extension words,
its immediate fields with their ranges, and the bits that must be zero. -/
namespace Sys2Proof

/-- The register file that a field names (R75), or none: the field is zero. -/
inductive OpKind where
  | n | s | d | t | p | q
deriving DecidableEq, Repr

/-- Whether a field names a register of its file (R76 item 2). -/
def OpKind.ok (k : OpKind) (r : Nat) : Bool :=
  match k with
  | .n => r == 0
  | .s => decide (r < 64)
  | .d => decide (r < 16)
  | .t => decide (r < 32)
  | .p => decide (r < 8)
  | .q => decide (r < 8)

/-- The form of one function: its class and function codes, its operand files, its extension count (one more where an immediate
field has the value given), its immediate fields (lowest bit, width), their ranges, the zero bits of each extension word, and whether
it takes no predicate (R76 item 6). -/
structure Form where
  cls : Nat
  func : Nat
  dst : OpKind
  a : OpKind
  b : OpKind
  ext : Nat
  imm : List (Nat × Nat)
  lims : List (Nat × Nat × Nat × Nat)
  alt : Option (Nat × Nat × Nat)
  zero : List (Nat × Nat)
  plain : Bool
deriving DecidableEq, Repr

/-- A field of the immediate. -/
def Insn.fld (o : Insn) (lo w : Nat) : Nat := o.imm.toNat / 2 ^ lo % 2 ^ w

/-- The bits that the immediate fields cover. -/
def Form.mask (f : Form) : Nat := (f.imm.map fun e => (2 ^ e.2 - 1) * 2 ^ e.1).sum

/-- The extension count that the form calls for (R76 item 3). -/
def Form.extCount (f : Form) (o : Insn) : Nat :=
  match f.alt with
  | some (lo, w, v) => if o.fld lo w = v then f.ext + 1 else f.ext
  | none => f.ext

/-- Whether an instruction is valid under R76, items 2 to 4 and 6. -/
def Form.ok (f : Form) (o : Insn) : Bool :=
  f.dst.ok o.dst && f.a.ok o.a && f.b.ok o.b && decide (o.pidx < 8)
  && o.ext.length == f.extCount o
  && (o.imm.toNat &&& f.mask) == o.imm.toNat
  && f.lims.all (fun l => decide (l.2.2.1 ≤ o.fld l.1 l.2.1 ∧ o.fld l.1 l.2.1 ≤ l.2.2.2))
  && (f.zero.zip o.ext).all (fun e => e.2.toNat / 2 ^ e.1.1 % 2 ^ e.1.2 == 0)
  && (!f.plain || (o.pidx == 0 && !o.pneg))

/-- FMT, SHAPE and STRIDE of MOV.TALLOC and MOV.TLOADM: a numeric tile's SHAPE is one of Table 4.3, and only a LIST takes a
STRIDE. -/
def Insn.tileForm (o : Insn) : Bool :=
  o.fld 0 4 == 8 || (decide (o.fld 4 4 ≤ 6) && o.fld 8 13 == 0)

/-! The forms of Tables 3.4 to 3.17. -/

def Form.ctlNop : Form := ⟨0, 0x0, .n, .n, .n, 0, [], [], none, [], false⟩
def Form.ctlBr : Form := ⟨0, 0x1, .n, .n, .n, 0, [(0, 28)], [], none, [], false⟩
def Form.ctlCall : Form := ⟨0, 0x2, .s, .n, .n, 0, [(0, 28)], [], none, [], false⟩
def Form.ctlJmpr : Form := ⟨0, 0x3, .n, .s, .n, 0, [], [], none, [], false⟩
def Form.ctlLoop : Form := ⟨0, 0x4, .s, .n, .n, 0, [(0, 28)], [], none, [], false⟩
def Form.ctlEnd : Form := ⟨0, 0x5, .n, .n, .n, 0, [], [], none, [], false⟩
def Form.sclLi : Form := ⟨1, 0x0, .s, .n, .n, 0, [(0, 28)], [], none, [], false⟩
def Form.sclLix : Form := ⟨1, 0x1, .s, .n, .n, 1, [], [], none, [], false⟩
def Form.sclAdd : Form := ⟨1, 0x2, .s, .s, .s, 0, [], [], none, [], false⟩
def Form.sclSub : Form := ⟨1, 0x4, .s, .s, .s, 0, [], [], none, [], false⟩
def Form.sclMul : Form := ⟨1, 0x5, .s, .s, .s, 0, [], [], none, [], false⟩
def Form.sclMulhu : Form := ⟨1, 0x6, .s, .s, .s, 0, [], [], none, [], false⟩
def Form.sclDivu : Form := ⟨1, 0x7, .s, .s, .s, 0, [], [], none, [], false⟩
def Form.sclRemu : Form := ⟨1, 0x8, .s, .s, .s, 0, [], [], none, [], false⟩
def Form.sclAnd : Form := ⟨1, 0x9, .s, .s, .s, 0, [], [], none, [], false⟩
def Form.sclOr : Form := ⟨1, 0xA, .s, .s, .s, 0, [], [], none, [], false⟩
def Form.sclXor : Form := ⟨1, 0xB, .s, .s, .s, 0, [], [], none, [], false⟩
def Form.sclShl : Form := ⟨1, 0xC, .s, .s, .s, 0, [], [], none, [], false⟩
def Form.sclShr : Form := ⟨1, 0xD, .s, .s, .s, 0, [], [], none, [], false⟩
def Form.sclSar : Form := ⟨1, 0xE, .s, .s, .s, 0, [], [], none, [], false⟩
def Form.sclAddi : Form := ⟨1, 0x3, .s, .s, .n, 0, [(0, 28)], [], none, [], false⟩
def Form.sclCmp : Form := ⟨1, 0xF, .p, .s, .s, 0, [(0, 3)], [(0, 3, 0, 5)], none, [], false⟩
def Form.sclPlog : Form := ⟨1, 0x10, .p, .p, .p, 0, [(0, 2)], [], none, [], false⟩
def Form.sclSel : Form := ⟨1, 0x11, .s, .s, .s, 0, [(0, 3)], [], none, [], false⟩
def Form.sclLd : Form := ⟨1, 0x12, .s, .d, .s, 0, [(0, 3)], [], none, [], false⟩
def Form.sclSt : Form := ⟨1, 0x13, .d, .s, .s, 0, [(0, 2)], [], none, [], false⟩
def Form.sclFadd : Form := ⟨1, 0x14, .s, .s, .s, 0, [], [], none, [], false⟩
def Form.sclFmul : Form := ⟨1, 0x15, .s, .s, .s, 0, [], [], none, [], false⟩
def Form.sclFfma : Form := ⟨1, 0x16, .s, .s, .s, 0, [], [], none, [], false⟩
def Form.sclFcmp : Form := ⟨1, 0x17, .p, .s, .s, 0, [(0, 2)], [(0, 2, 0, 2)], none, [], false⟩
def Form.sclFcvt : Form := ⟨1, 0x18, .s, .s, .n, 0, [(0, 1)], [], none, [], false⟩
def Form.movDset : Form := ⟨2, 0x0, .d, .s, .s, 0, [], [], none, [], false⟩
def Form.movDget : Form := ⟨2, 0x1, .s, .d, .n, 0, [(0, 1)], [], none, [], false⟩
def Form.movDsub : Form := ⟨2, 0x2, .d, .d, .s, 1, [], [], none, [], false⟩
def Form.movCopy : Form := ⟨2, 0x3, .d, .d, .s, 0, [], [], none, [], false⟩
def Form.movTopen : Form := ⟨2, 0x4, .t, .s, .n, 0, [(0, 1)], [], none, [], false⟩
def Form.movTalloc : Form := ⟨2, 0x5, .t, .n, .n, 0, [(0, 8)], [(0, 4, 0, 9)], none, [], false⟩
def Form.movTloadm : Form := ⟨2, 0x6, .t, .d, .n, 0, [(0, 21)], [(0, 4, 0, 9)], none, [], false⟩
def Form.movTstore : Form := ⟨2, 0x7, .d, .t, .n, 0, [], [], none, [], false⟩
def Form.movTsave : Form := ⟨2, 0x8, .s, .t, .n, 0, [(0, 1)], [], none, [], false⟩
def Form.movTfree : Form := ⟨2, 0x9, .n, .t, .n, 0, [], [], none, [], false⟩
def Form.movTdrop : Form := ⟨2, 0xA, .n, .s, .n, 0, [], [], none, [], false⟩
def Form.movTplace : Form := ⟨2, 0xB, .n, .t, .n, 0, [(0, 2)], [(0, 2, 0, 2)], none, [], false⟩
def Form.hewMma : Form := ⟨3, 0x0, .t, .t, .t, 0, [(0, 3)], [], none, [], false⟩
def Form.hewEw : Form := ⟨3, 0x1, .t, .t, .t, 0, [(0, 4)], [(0, 3, 0, 4)], none, [], false⟩
def Form.hewAct : Form := ⟨3, 0x2, .t, .t, .n, 0, [(0, 4)], [(0, 4, 0, 6)], none, [], false⟩
def Form.hewRed : Form := ⟨3, 0x3, .t, .t, .n, 0, [(0, 2)], [], none, [], false⟩
def Form.hewCvt : Form := ⟨3, 0x4, .t, .t, .n, 0, [(0, 2)], [(0, 2, 0, 1)], none, [], false⟩
def Form.hewOred : Form := ⟨3, 0x5, .t, .t, .s, 1, [], [], none, [(20, 44)], true⟩
def Form.qntPrepass : Form := ⟨4, 0x0, .t, .t, .n, 0, [(0, 8)], [(0, 4, 0, 3), (4, 3, 0, 3)], none, [], false⟩
def Form.qntCvt : Form := ⟨4, 0x1, .t, .t, .t, 0, [], [], none, [], false⟩
def Form.qntSplit : Form := ⟨4, 0x2, .t, .t, .t, 0, [], [], none, [], false⟩
def Form.qntDrift : Form := ⟨4, 0x3, .p, .t, .t, 0, [], [], none, [], false⟩
def Form.cruPack : Form := ⟨5, 0x0, .t, .t, .n, 0, [], [], none, [], false⟩
def Form.cruUnpack : Form := ⟨5, 0x1, .t, .t, .n, 0, [(25, 3)], [], none, [], false⟩
def Form.cruCheck : Form := ⟨5, 0x2, .p, .t, .n, 0, [], [], none, [], false⟩
def Form.sluScan : Form := ⟨6, 0x0, .t, .d, .n, 0, [(0, 8), (8, 13)], [(0, 4, 1, 8), (4, 2, 0, 2), (8, 13, 0, 4096)], none, [], false⟩
def Form.sluDist : Form := ⟨6, 0x1, .t, .t, .t, 0, [(0, 2)], [(0, 2, 0, 2)], none, [], false⟩
def Form.wnzScan : Form := ⟨8, 0x0, .t, .d, .d, 0, [(0, 8), (8, 13)], [(0, 4, 1, 8), (4, 2, 0, 2), (8, 13, 0, 4096)], none, [], false⟩
def Form.wnzBag : Form := ⟨8, 0x1, .d, .d, .n, 0, [(0, 9)], [], none, [], false⟩
def Form.wnzUpd : Form := ⟨8, 0x2, .n, .d, .n, 0, [(0, 12)], [(8, 4, 0, 4)], none, [], false⟩
def Form.wnzGather : Form := ⟨8, 0x3, .d, .d, .n, 0, [(0, 8)], [], none, [], false⟩
def Form.jigTopk : Form := ⟨7, 0x0, .t, .t, .n, 0, [(0, 14)], [(0, 13, 1, 4096)], none, [], false⟩
def Form.jigMerge : Form := ⟨7, 0x1, .t, .t, .t, 0, [(0, 14)], [(0, 13, 1, 4096)], none, [], false⟩
def Form.jigSums : Form := ⟨7, 0x2, .s, .t, .n, 0, [(0, 3)], [], none, [], false⟩
def Form.idxOpen : Form := ⟨9, 0x0, .d, .s, .n, 0, [(0, 2), (25, 3)], [], none, [], false⟩
def Form.idxRoute : Form := ⟨9, 0x1, .t, .t, .n, 0, [(0, 12)], [(0, 12, 1, 2048)], none, [], false⟩
def Form.idxAppend : Form := ⟨9, 0x2, .s, .t, .s, 2, [(25, 3)], [], none, [], false⟩
def Form.idxAppendx : Form := ⟨9, 0x3, .s, .t, .s, 3, [(25, 3)], [], none, [(0, 0), (0, 0), (32, 32)], false⟩
def Form.idxDelete : Form := ⟨9, 0x4, .s, .s, .s, 0, [(25, 3)], [], none, [], false⟩
def Form.idxTomb : Form := ⟨9, 0x5, .t, .t, .d, 0, [], [], none, [], false⟩
def Form.tblBuild : Form := ⟨10, 0x0, .q, .t, .d, 0, [(0, 3)], [(0, 2, 0, 2)], none, [], false⟩
def Form.tblLoad : Form := ⟨10, 0x1, .q, .d, .n, 0, [], [], none, [], false⟩
def Form.tblFilter : Form := ⟨10, 0x2, .q, .d, .n, 0, [], [], none, [], false⟩
def Form.tblThresh : Form := ⟨10, 0x3, .q, .s, .n, 0, [], [], none, [], false⟩
def Form.tblStore : Form := ⟨10, 0x4, .d, .q, .n, 0, [], [], none, [], false⟩
def Form.tblTdef : Form := ⟨10, 0x5, .n, .d, .n, 0, [(0, 12)], [(8, 4, 0, 6)], none, [], false⟩
def Form.tblSwap : Form := ⟨10, 0x6, .n, .d, .s, 0, [(0, 8), (25, 3)], [], none, [], false⟩
def Form.tblVer : Form := ⟨10, 0x7, .s, .n, .n, 0, [(0, 8)], [], none, [], false⟩
def Form.carLd : Form := ⟨11, 0x0, .s, .d, .s, 1, [(0, 2)], [], none, [(32, 32)], false⟩
def Form.carSt : Form := ⟨11, 0x1, .d, .s, .s, 1, [(0, 2)], [], none, [(32, 32)], false⟩
def Form.carGet : Form := ⟨11, 0x2, .d, .d, .s, 1, [(0, 1)], [], none, [(32, 32)], false⟩
def Form.carPut : Form := ⟨11, 0x3, .d, .d, .s, 1, [(0, 1)], [], none, [(32, 32)], false⟩
def Form.carAtom : Form := ⟨11, 0x4, .s, .d, .s, 1, [(0, 5)], [(0, 4, 0, 7)], some (0, 4, 5), [(32, 32)], false⟩
def Form.carAtomn : Form := ⟨11, 0x5, .n, .d, .s, 1, [(0, 5)], [(0, 4, 0, 7)], some (0, 4, 5), [(32, 32)], false⟩
def Form.carInv : Form := ⟨11, 0x6, .n, .d, .n, 1, [], [], none, [(32, 32)], false⟩
def Form.adtRead : Form := ⟨12, 0x0, .d, .s, .s, 0, [(25, 3)], [], none, [], false⟩
def Form.adtWrite : Form := ⟨12, 0x1, .s, .d, .s, 0, [], [], none, [], false⟩
def Form.adtDiscard : Form := ⟨12, 0x2, .n, .s, .s, 0, [], [], none, [], false⟩
def Form.talNow : Form := ⟨13, 0x0, .s, .n, .n, 0, [], [], none, [], false⟩
def Form.talWaitb : Form := ⟨13, 0x1, .p, .s, .n, 0, [], [], none, [], false⟩
def Form.talStable : Form := ⟨13, 0x2, .s, .n, .n, 0, [], [], none, [], false⟩
def Form.talSub : Form := ⟨13, 0x3, .s, .n, .n, 0, [], [], none, [], false⟩
def Form.synFence : Form := ⟨14, 0x0, .n, .n, .n, 0, [], [], none, [], false⟩
def Form.synWfence : Form := ⟨14, 0x1, .n, .n, .n, 0, [], [], none, [], false⟩
def Form.synCfence : Form := ⟨14, 0x2, .n, .n, .n, 0, [], [], none, [], false⟩
def Form.synBar : Form := ⟨14, 0x3, .n, .n, .n, 0, [(0, 4)], [], none, [], true⟩
def Form.synOred : Form := ⟨14, 0x4, .s, .s, .s, 1, [], [], none, [(22, 42)], true⟩
def Form.sysRreg : Form := ⟨15, 0x0, .s, .s, .n, 0, [], [], none, [], false⟩
def Form.sysWreg : Form := ⟨15, 0x1, .n, .s, .s, 0, [], [], none, [], false⟩
def Form.sysTelem : Form := ⟨15, 0x2, .s, .n, .n, 0, [(0, 16)], [], none, [], false⟩
def Form.sysIdxop : Form := ⟨15, 0x3, .n, .s, .s, 0, [(0, 2), (25, 3)], [(0, 2, 0, 2)], some (0, 2, 1), [(6, 58)], false⟩
def Form.sysSlice : Form := ⟨15, 0x4, .n, .n, .s, 2, [(25, 3)], [], none, [(60, 4), (32, 32)], false⟩

/-- The forms, part 1. -/
def Form.part1 : List Form := [Form.ctlNop, Form.ctlBr, Form.ctlCall, Form.ctlJmpr, Form.ctlLoop, Form.ctlEnd, Form.sclLi, Form.sclLix, Form.sclAdd, Form.sclSub, Form.sclMul, Form.sclMulhu, Form.sclDivu, Form.sclRemu, Form.sclAnd, Form.sclOr, Form.sclXor, Form.sclShl, Form.sclShr, Form.sclSar, Form.sclAddi, Form.sclCmp, Form.sclPlog, Form.sclSel, Form.sclLd, Form.sclSt, Form.sclFadd, Form.sclFmul, Form.sclFfma, Form.sclFcmp]

/-- The forms, part 2. -/
def Form.part2 : List Form := [Form.sclFcvt, Form.movDset, Form.movDget, Form.movDsub, Form.movCopy, Form.movTopen, Form.movTalloc, Form.movTloadm, Form.movTstore, Form.movTsave, Form.movTfree, Form.movTdrop, Form.movTplace, Form.hewMma, Form.hewEw, Form.hewAct, Form.hewRed, Form.hewCvt, Form.hewOred, Form.qntPrepass, Form.qntCvt, Form.qntSplit, Form.qntDrift, Form.cruPack, Form.cruUnpack, Form.cruCheck, Form.sluScan, Form.sluDist, Form.wnzScan, Form.wnzBag]

/-- The forms, part 3. -/
def Form.part3 : List Form := [Form.wnzUpd, Form.wnzGather, Form.jigTopk, Form.jigMerge, Form.jigSums, Form.idxOpen, Form.idxRoute, Form.idxAppend, Form.idxAppendx, Form.idxDelete, Form.idxTomb, Form.tblBuild, Form.tblLoad, Form.tblFilter, Form.tblThresh, Form.tblStore, Form.tblTdef, Form.tblSwap, Form.tblVer, Form.carLd, Form.carSt, Form.carGet, Form.carPut, Form.carAtom, Form.carAtomn, Form.carInv, Form.adtRead, Form.adtWrite, Form.adtDiscard, Form.talNow]

/-- The forms, part 4. -/
def Form.part4 : List Form := [Form.talWaitb, Form.talStable, Form.talSub, Form.synFence, Form.synWfence, Form.synCfence, Form.synBar, Form.synOred, Form.sysRreg, Form.sysWreg, Form.sysTelem, Form.sysIdxop, Form.sysSlice]

/-- Every form of Tables 3.4 to 3.17 (R76 item 1). -/
def Form.all : List Form := Form.part1 ++ Form.part2 ++ Form.part3 ++ Form.part4

/-- Whether a command is well formed: an instruction keeps R76, and every other command is taken as it comes. -/
def Instr.wf (i : Instr) : Bool :=
  match i with
  | .registerWrite _ _ _ _ => true
  | .readClearRegisterRead _ _ _ => true
  | .unalignedRegisterAccess _ _ _ _ => true
  | .tallySnapshotRead _ _ => true
  | .ringPoll _ _ => true
  | .descriptorFetchComplete _ _ _ _ => true
  | .hostReadError _ => true
  | .jobSnapshotRelease _ => true
  | .jobSnapshotTimeout _ => true
  | .deadlineArrival _ => true
  | .jobEnd _ _ => true
  | .completionWrite _ => true
  | .msixTimerExpiry _ _ => true
  | .msixUnmask _ _ _ => true
  | .cqHeadWrite _ _ _ _ => true
  | .ringEnable _ _ _ _ => true
  | .ringDisable _ _ _ _ => true
  | .loadRoutine _ => true
  | .unloadRoutine _ => true
  | .routineRelease _ _ => true
  | .loaderUnknownOperation _ => true
  | .importTilePack _ => true
  | .installIndex _ => true
  | .installReportReceive _ _ _ _ => true
  | .installWithdraw _ _ => true
  | .openExchange _ => true
  | .tableMigrate _ => true
  | .tableReport _ => true
  | .tableUndefine _ => true
  | .tableUndefineEffect _ _ => true
  | .flashFormat _ => true
  | .flashAttach _ => true
  | .flashSegmentOpen _ => true
  | .flashSegmentSeal _ => true
  | .flashSegmentReopen _ => true
  | .flashSegmentFree _ => true
  | .exportRegion _ => true
  | .unexportRegion _ => true
  | .unexportComplete _ => true
  | .sendMidwayMessage _ => true
  | .attestationQuote _ => true
  | .pairSlice _ _ => true
  | .pairTakeEffect _ => true
  | .ledgerArgumentRelease _ _ => true
  | .ctlNop o => Form.ctlNop.ok o
  | .ctlBr o => Form.ctlBr.ok o
  | .ctlCall o => Form.ctlCall.ok o
  | .ctlJmpr o => Form.ctlJmpr.ok o
  | .ctlLoop o => Form.ctlLoop.ok o
  | .ctlEnd o => Form.ctlEnd.ok o
  | .sclLi o => Form.sclLi.ok o
  | .sclLix o => Form.sclLix.ok o
  | .sclAdd o => Form.sclAdd.ok o
  | .sclAddi o => Form.sclAddi.ok o
  | .sclSub o => Form.sclSub.ok o
  | .sclMul o => Form.sclMul.ok o
  | .sclMulhu o => Form.sclMulhu.ok o
  | .sclDivu o => Form.sclDivu.ok o
  | .sclRemu o => Form.sclRemu.ok o
  | .sclAnd o => Form.sclAnd.ok o
  | .sclOr o => Form.sclOr.ok o
  | .sclXor o => Form.sclXor.ok o
  | .sclShl o => Form.sclShl.ok o
  | .sclShr o => Form.sclShr.ok o
  | .sclSar o => Form.sclSar.ok o
  | .sclCmp o => Form.sclCmp.ok o
  | .sclPlog o => Form.sclPlog.ok o
  | .sclSel o => Form.sclSel.ok o
  | .sclLd o => Form.sclLd.ok o
  | .sclSt o => Form.sclSt.ok o
  | .sclFadd o => Form.sclFadd.ok o
  | .sclFmul o => Form.sclFmul.ok o
  | .sclFfma o => Form.sclFfma.ok o
  | .sclFcmp o => Form.sclFcmp.ok o
  | .sclFcvt o => Form.sclFcvt.ok o
  | .movDset o => Form.movDset.ok o
  | .movDget o => Form.movDget.ok o
  | .movDsub o => Form.movDsub.ok o
  | .movCopy o _ => Form.movCopy.ok o
  | .movTopen o => Form.movTopen.ok o
  | .expansionComplete _ => true
  | .movTalloc o => Form.movTalloc.ok o && o.tileForm
  | .movTloadm o => Form.movTloadm.ok o && o.tileForm
  | .movTstore o => Form.movTstore.ok o
  | .movTsave o => Form.movTsave.ok o
  | .movTfree o => Form.movTfree.ok o
  | .movTdrop o => Form.movTdrop.ok o
  | .tileDelete _ => true
  | .movTplace o => Form.movTplace.ok o
  | .hewMma o => Form.hewMma.ok o
  | .hewEw o => Form.hewEw.ok o
  | .hewAct o => Form.hewAct.ok o
  | .hewRed o => Form.hewRed.ok o
  | .hewCvt o => Form.hewCvt.ok o
  | .hewOred o => Form.hewOred.ok o
  | .oredSlotTimeout _ _ _ => true
  | .qntPrepass o => Form.qntPrepass.ok o
  | .qntCvt o => Form.qntCvt.ok o
  | .qntSplit o => Form.qntSplit.ok o
  | .qntDrift o => Form.qntDrift.ok o
  | .cruPack o => Form.cruPack.ok o
  | .cruUnpack o => Form.cruUnpack.ok o
  | .cruCheck o => Form.cruCheck.ok o
  | .sluScan o => Form.sluScan.ok o
  | .sluDist o => Form.sluDist.ok o
  | .snapshotWaitRelease _ => true
  | .rerankFetchServe _ _ _ _ _ _ => true
  | .rerankFetchArrive _ _ _ _ => true
  | .wnzScan o => Form.wnzScan.ok o
  | .wnzBag o => Form.wnzBag.ok o
  | .wnzUpd o => Form.wnzUpd.ok o
  | .wnzGather o => Form.wnzGather.ok o
  | .winzeRegistrationPoint _ => true
  | .winzeCommandQueued _ _ => true
  | .winzeCommandArrival _ _ _ => true
  | .winzeChunkComplete _ _ _ => true
  | .winzeCompletionPoint _ => true
  | .winzeUnitFailure _ _ => true
  | .winzeSpare _ _ _ => true
  | .jigTopk o => Form.jigTopk.ok o
  | .jigMerge o => Form.jigMerge.ok o
  | .jigSums o => Form.jigSums.ok o
  | .idxOpen o => Form.idxOpen.ok o
  | .idxRoute o => Form.idxRoute.ok o
  | .idxAppend o => Form.idxAppend.ok o
  | .idxAppendx o => Form.idxAppendx.ok o
  | .idxDelete o => Form.idxDelete.ok o
  | .idxTomb o => Form.idxTomb.ok o
  | .appendRelease _ _ => true
  | .forwardedRecordReceive _ => true
  | .vectorPageWrite _ _ => true
  | .tblBuild o => Form.tblBuild.ok o
  | .tblLoad o => Form.tblLoad.ok o
  | .tblFilter o => Form.tblFilter.ok o
  | .tblThresh o => Form.tblThresh.ok o
  | .tblStore o => Form.tblStore.ok o
  | .tblTdef o => Form.tblTdef.ok o
  | .tblSwap o => Form.tblSwap.ok o
  | .tableSwapEvent _ _ => true
  | .tblVer o => Form.tblVer.ok o
  | .carLd o => Form.carLd.ok o
  | .carSt o => Form.carSt.ok o
  | .carGet o => Form.carGet.ok o
  | .carPut o => Form.carPut.ok o
  | .carAtom o => Form.carAtom.ok o
  | .carAtomn o => Form.carAtomn.ok o
  | .carInv o => Form.carInv.ok o
  | .adtRead o _ => Form.adtRead.ok o
  | .adtWrite o => Form.adtWrite.ok o
  | .adtDiscard o => Form.adtDiscard.ok o
  | .talNow o => Form.talNow.ok o
  | .talWaitb o => Form.talWaitb.ok o
  | .waitbRelease _ => true
  | .talStable o => Form.talStable.ok o
  | .talSub o => Form.talSub.ok o
  | .synFence o => Form.synFence.ok o
  | .synWfence o => Form.synWfence.ok o
  | .synCfence o => Form.synCfence.ok o
  | .synBar o => Form.synBar.ok o
  | .synOred o => Form.synOred.ok o
  | .fenceRelease _ => true
  | .engineCompletion _ _ => true
  | .fenceTimeout _ => true
  | .sysRreg o => Form.sysRreg.ok o
  | .sysWreg o => Form.sysWreg.ok o
  | .sysTelem o => Form.sysTelem.ok o
  | .sysIdxop o => Form.sysIdxop.ok o
  | .sysSlice o => Form.sysSlice.ok o
  | .sliceRecompose => true
  | .sliceResourceJoin _ => true
  | .committedBeatReceive _ _ => true
  | .backfillCut _ _ => true
  | .backfillPublish _ _ => true
  | .versionRelease _ _ _ => true
  | .rebalancePendingReceive _ _ _ _ _ => true
  | .rebalanceCopyReceive _ => true
  | .rebalanceReady _ _ => true
  | .rebalanceReadyReceive _ _ => true
  | .rebalanceCancel _ _ => true
  | .rebalanceCancelReceive _ _ _ => true
  | .rebalanceForwardStart _ _ => true
  | .closeMarkerReceive _ _ _ => true
  | .rebalanceRelease _ _ => true
  | .retirementReceive _ _ _ => true
  | .seamStorageRelease _ _ => true
  | .broadcastAckReceive _ => true
  | .cageAdmission _ => true
  | .cageWaitExpiry _ => true
  | .cageGuardExpiry _ => true
  | .migrationMovingEnter _ _ => true
  | .migrationCopyComplete _ _ _ => true
  | .migrationFlip _ _ => true
  | .migrationSourceRelease _ _ _ => true
  | .loadWindowEnd => true
  | .tierMoveFlip _ => true
  | .tierSourceRelease _ => true
  | .tileHomeRelease _ => true
  | .quotaWrite _ _ _ _ => true
  | .memPoolWrite _ _ => true
  | .scrubRound => true
  | .rowRetireFlip _ _ _ _ => true
  | .hitPeriodBoundary => true
  | .memSpareCopy _ _ _ => true
  | .memSpareDead _ _ _ => true
  | .channelSpareFlip _ => true
  | .channelFailure _ _ => true
  | .flipMaskArm _ _ => true
  | .crewHewerSpare _ _ _ => true
  | .crewCoreSpare _ _ _ => true
  | .hewerFailure _ _ => true
  | .controlCoreFailure _ _ => true
  | .flashProgramComplete _ => true
  | .flashProgramFail _ => true
  | .flashWriteResume _ => true
  | .foldStart => true
  | .foldFlip _ _ _ => true
  | .wearRelocate _ _ => true
  | .journalFlush => true
  | .journalFlushComplete => true
  | .dieAutoRetire _ _ => true
  | .adtDieRetire _ _ _ => true
  | .dieRebuildComplete => true
  | .holdupChange _ _ => true
  | .powerFailAssert _ => true
  | .powerFailClearReset => true
  | .laneBad _ _ => true
  | .laserPowerLow _ => true
  | .linkLaneGo _ _ _ => true
  | .linkLaserGo _ _ => true
  | .carouselFrameReceive _ _ _ _ _ _ => true
  | .linkFrameResend _ _ => true
  | .carouselRequestReceive _ => true
  | .putPayloadReceive _ => true
  | .carouselResponseReceive _ => true
  | .requestReplayTimeout _ _ _ => true
  | .copyFillReceive _ => true
  | .invalidationReceive _ => true
  | .invalidationAckReceive _ => true
  | .carJoin _ => true
  | .carAdmit _ _ => true
  | .carRemove _ _ => true
  | .carLeave _ => true
  | .admissionReceive _ _ _ _ _ _ _ => true
  | .aloneDetect => true
  | .membershipBeat _ => true
  | .helloReceive _ _ _ => true
  | .joinConfirm => true
  | .joinTimeout => true
  | .founderConflict _ => true
  | .neighbourLossDetect _ => true
  | .lossBroadcastReceive _ _ _ => true
  | .midwayFrameReceive _ _ _ _ => true
  | .midwayJobReceive => true
  | .midwayResultReceive => true
  | .midwayAckReceive => true
  | .midwayFragmentTimeout _ _ _ _ => true
  | .ptpEventTimestamp _ _ _ _ _ => true
  | .ptpTsPop _ => true
  | .egressUnitComplete _ => true
  | .gateEntryAdvance _ => true
  | .gateListArm _ _ _ _ => true
  | .gateListCancel _ _ => true
  | .gateTakeover _ => true
  | .meterApply _ _ _ _ _ _ => true
  | .meterApplyEffect => true
  | .reserveWrite _ _ _ => true
  | .poolCellsRelease => true
  | .queueSample => true
  | .beatAdvance _ _ _ _ => true
  | .beatMarkerReceive _ _ _ => true
  | .markerTimeout => true
  | .calliopeHandoverRequest _ => true
  | .handoverBroadcastReceive _ _ => true
  | .calliopeHandover => true
  | .clockFailure _ => true
  | .wallPublish _ => true
  | .wallAnchorReceive _ _ _ => true
  | .domainWakeStart _ _ => true
  | .domainWakeComplete _ _ => true
  | .p4Enter _ => true
  | .p4Wake _ => true
  | .p4TimedWake => true
  | .bar2Read _ _ _ => true
  | .bar2Write _ _ _ => true
  | .linkRetrain _ _ _ => true
  | .perstAssert _ => true
  | .ostEnable _ => true
  | .ostDisable _ => true
  | .ostExit => true
  | .powerOnReset => true
  | .brownOut _ _ => true
  | .resetPinAssert _ => true
  | .resetPinDeassert _ => true
  | .watchdogExpiry => true
  | .watchdogKick _ _ => true
  | .softwareReset _ _ _ => true
  | .lockupReset => true
  | .resetSequence => true
  | .resetRelease _ _ => true
  | .hostImageLoad _ _ => true
  | .commitSvn _ => true
  | .measurementExtGo _ _ => true
  | .actReset _ _ => true
  | .blockReset _ _ => true
  | .blockResetIdle => true
  | .blockResetTimeout => true
  | .debugSubmit _ => true
  | .debugResetRequest _ => true
  | .debugClose _ => true
  | .firmwareNodeLeave => true
  | .autoSpare _ _ _ _ _ => true
  | .funhouseEnable _ _ => true
  | .perturbationArm _ _ _ => true
  | .perturbationFire _ _ => true
  | .thermalWarning _ _ => true
  | .thermalTrip _ _ => true
  | .linkTrained _ => true
  | .hostReadComplete _ _ => true
  | .vfEnable _ _ => true
  | .perstDeassert _ => true
  | .powerFailDeassert _ => true
  | .thermalWarningClear _ _ => true
  | .stackRefreshDouble _ _ => true
  | .midwayLinkChange _ _ _ _ _ => true
  | .pfcPauseReceive _ _ _ => true
  | .redUnitRetest _ _ _ => true

end Sys2Proof
end

