-- ==== Sys2Proof/Machine/Operands.lean ====
section
/-! DEFINITION. How an instruction meets the strand that issues it: its registers, its predicate, the tracking of R48, faults
(R59, R69), descriptors and regions (R34 to R44, R288), and the two ways of issuing: at once (R80) or to an engine (R47). -/
namespace Sys2Proof.Machine

/-! ## Fault causes (Table 2.10) -/

def cRegion : Nat := 1
def cUnmapped : Nat := 2
def cDescriptor : Nat := 3
def cTile : Nat := 4
def cPriv : Nat := 5
def cAlign : Nat := 6
def cFence : Nat := 7
def cQuota : Nat := 8
def cKey : Nat := 9
def cTileCheck : Nat := 10
def cUncorr : Nat := 11

/-- The completion status of a fault cause, with its DETAIL (R69, Table 15.4). -/
def causeStatus (c : Nat) : Nat × Nat :=
  if c = cQuota then (0x21, 0) else if c = cKey then (0x20, 0) else if c = cTileCheck then (0x10, 0)
  else if c = cUncorr then (0x11, 0) else (0x12, c)

/-! ## Strands and jobs -/

/-- The strand of an identifier that still runs. -/
def State.strand? (s : State) (id : Nat) : Option Strand := s.fil.strands.find? fun t => t.id == id && !t.ended

/-- A strand, running or not. -/
def State.anyStrand? (s : State) (id : Nat) : Option Strand :=
  match s.strand? id with
  | some t => some t
  | none => s.fil.strands.find? (·.id == id)

/-- A job by its identifier. -/
def State.job? (s : State) (id : Nat) : Option Job := s.fil.jobs.find? (·.id == id)

/-- A tile by its identifier. -/
def State.tile? (s : State) (id : Nat) : Option Tile := s.fil.tiles.find? (·.id == id)

/-- A strand changed. -/
def State.modStrand (s : State) (id : Nat) (f : Strand → Strand) : State :=
  { s with fil := { s.fil with strands := updWhere (·.id == id) f s.fil.strands } }

/-- A job changed. -/
def State.modJob (s : State) (id : Nat) (f : Job → Job) : State :=
  { s with fil := { s.fil with jobs := updWhere (·.id == id) f s.fil.jobs } }

/-- A tile changed. -/
def State.modTile (s : State) (id : Nat) (f : Tile → Tile) : State :=
  { s with fil := { s.fil with tiles := updWhere (·.id == id) f s.fil.tiles } }

/-- A scalar register: s0 reads zero. -/
def Strand.getS (t : Strand) (n : Nat) : DWord := if n = 0 then 0#64 else kvGet 0#64 t.s n

/-- A scalar register written: writes to s0 are discarded. -/
def Strand.setS (t : Strand) (n : Nat) (v : DWord) : Strand :=
  if n = 0 then t else { t with s := kvSet 0#64 t.s n v }

/-- A predicate: p0 reads 1. -/
def Strand.getP (t : Strand) (n : Nat) : Bool := if n = 0 then true else kvGet false t.p n

/-- A predicate written: writes to p0 are discarded. -/
def Strand.setP (t : Strand) (n : Nat) (v : Bool) : Strand :=
  if n = 0 then t else { t with p := kvSet false t.p n v }

/-- An address descriptor register. -/
def Strand.getD (t : Strand) (n : Nat) : BitVec 128 := kvGet 0#128 t.d n

/-- An address descriptor register written. -/
def Strand.setD (t : Strand) (n : Nat) (v : BitVec 128) : Strand := { t with d := kvSet 0#128 t.d n v }

/-- The tile that a handle names. -/
def Strand.getT (t : Strand) (n : Nat) : Option Nat := kvGet none t.t n

/-- A tile handle written; a list handle's page count starts again (R207). -/
def Strand.setT (t : Strand) (n : Nat) (v : Option Nat) : Strand :=
  { t with t := kvSet none t.t n v, stored := kvSet 0 t.stored n 0 }

/-- A query-table slot. -/
def Strand.getQ (t : Strand) (n : Nat) : Option Slot := kvGet none t.q n

/-- A query-table slot written. -/
def Strand.setQ (t : Strand) (n : Nat) (v : Option Slot) : Strand := { t with q := kvSet none t.q n v }

/-! ## Faults -/

/-- The beats that a job's strands have waited for a snapshot so far (R201, R230). -/
def State.snapshotBeats (s : State) (job : Nat) : Nat :=
  (s.fil.strands.map fun t => match t.wait with
    | .snapshot _ _ _ => if t.job = job ∧ !t.ended then s.now - t.since else 0
    | _ => 0).sum

/-- The job's strands stop (R59): they end where they stand, and only what is already with an engine goes on. -/
def State.stopStrands (s : State) (job : Nat) : State :=
  let n := s.snapshotBeats job
  let s := if n = 0 then s else s.count 0x40B n
  { s with fil := { s.fil with
      strands := updWhere (·.job == job) (fun t => { t with ended := true, wait := .no }) s.fil.strands } }

/-- The end of a job with a status that writes no result area: the first such status stays. -/
def State.failJob (s : State) (job status detail : Nat) : State :=
  (s.modJob job fun j => if j.status = 0 then { j with status := status, detail := detail } else j).stopStrands job

/-- A fault recorded in the act's registers while none is recorded (R71). -/
def State.recordFault (s : State) (t : Strand) (j : Job) (cls func pc cause addr : Nat) : State :=
  let a := j.act
  if s.on (F.actStatus_faulted a) then s else
  let s := (s.wr (F.actStatus_faulted a) 1).wr (F.actFaultCause_cause a) cause
  let s := ((s.wr (F.actFaultCause_class a) cls).wr (F.actFaultCause_function a) func)
  let s := (s.wr (F.actFaultCause_strand a) t.k).wr (F.actFaultCause_crew a) t.crew
  let s := (s.wr (F.actFaultWordLo_word a) pc).wr (F.actFaultWordHi_routine a) j.desc.routine
  let s := s.wr64 (F.actFaultAddrLo_addr a) (F.actFaultAddrHi_addr a) addr
  s.wr64 (F.actFaultJobLo_jobId a) (F.actFaultJobHi_jobId a) j.desc.jobId

/-- A strand's fault (R59, R69): recorded, and the job ends with the cause's status. -/
def State.strandFault (s : State) (strand cls func pc cause addr : Nat) : State :=
  match s.anyStrand? strand with
  | none => s
  | some t =>
    match s.job? t.job with
    | none => s
    | some j =>
      let s := if cause = cTileCheck then s.count 0x706 1 else s
      let s := s.recordFault t j cls func pc cause addr
      let (st, dt) := causeStatus cause
      s.failJob j.id st dt

/-! ## The instruction monad -/

/-- How an instruction ends other than with its effect. -/
inductive Fail where
  /-- a fault of Table 2.10, with the faulting address where there is one -/
  | fault (cause addr : Nat)
  /-- the job ends with a status, and nothing is entered in the fault registers (R81, R157) -/
  | endJob (status detail : Nat)
  /-- the instruction does not issue yet: the strand waits -/
  | wait (w : Wait)
  /-- the instruction does not issue yet, and nothing changes -/
  | hold
deriving DecidableEq, Repr

/-- A computation over the state that can end early. -/
abbrev M := EStateM Fail State

/-- A fault unless a condition holds. -/
def need (c : Bool) (cause : Nat) (addr : Nat := 0) : M Unit :=
  if c then pure () else throw (.fault cause addr)

/-- The value of an option, or a fault. -/
def orFault {α : Type} (v : Option α) (cause : Nat) (addr : Nat := 0) : M α :=
  match v with
  | some a => pure a
  | none => throw (.fault cause addr)

/-- A step of the state. -/
def upd (f : State → State) : M Unit := modify f

/-- A step of the state that also answers. -/
def updGet {α : Type} (f : State → α × State) : M α := modifyGet f

/-! ## Descriptors (Table 2.4) -/

/-- A decoded address descriptor. -/
structure Dsc where
  base : Nat
  node : Nat
  space : Nat
  rdonly : Bool
  len : Nat
  stride : Nat
  elem : Nat
  reserved : Bool
deriving DecidableEq, Repr

/-- The fields of a descriptor. -/
def decodeDsc (v : BitVec 128) : Dsc :=
  let n := v.toNat
  ⟨bits n 0 46, bits n 46 6, bits n 52 2, bitOf n 54, bits n 64 42, bits n 106 14, bits n 120 4,
    bits n 55 9 != 0 || bits n 124 4 != 0⟩

/-- A node-space descriptor. -/
def encodeDsc (base len : Nat) (rdonly : Bool) : BitVec 128 :=
  BitVec.ofNat 128 (base % 2 ^ 46 + b2n rdonly * 2 ^ 54 + (len % 2 ^ 42) * 2 ^ 64)

/-- The checks of R34 and R35 on a descriptor that an instruction uses: the spaces that its class allows, whether it is written
through, and whether an empty view is accepted (R511). -/
def useDsc (v : BitVec 128) (spaces : List Nat) (write : Bool) (empty : Bool := false) : M Dsc := do
  let d := decodeDsc v
  need (d.len != 0 || (empty && d.rdonly && d.base != 0)) cDescriptor d.base
  need (spaces.contains d.space && !d.reserved && decide (d.elem ≤ 6) && (d.space == 1 || d.node == 0)) cDescriptor d.base
  need (!(write && d.rdonly)) cDescriptor d.base
  pure d

/-- R34: no byte at or beyond the extent. -/
def within (d : Dsc) (off n : Nat) : M Unit := need (decide (off + n ≤ d.len)) cDescriptor (d.base + off)

/-! ## Regions and grants (R42, R43, R73, R288) -/

/-- A right that an access needs. -/
inductive Right where
  | read | write | winze
deriving DecidableEq, Repr

/-- Whether region `n` of an act is enabled and holds a right over a node address. -/
def State.regionAt (s : State) (act n : Nat) (r : Right) (a : Nat) : Bool :=
  let base := s.rd (F.actRegionBaseLo_base act n) * 4096 + s.rd (F.actRegionBaseHi_base act n) * 2 ^ 32
  let size := s.rd (F.actRegionSize_pages act n) * 4096
  let ok := match r with
    | .read => s.on (F.actRegionAttr_read act n)
    | .write => s.on (F.actRegionAttr_write act n)
    | .winze => s.on (F.actRegionAttr_winze act n)
  ok && size != 0 && decide (base + size ≤ 2 ^ 46 ∧ base ≤ a ∧ a < base + size)

/-- Whether an enabled region of an act holds a right over a node address. -/
def State.regionHas (s : State) (act : Nat) (r : Right) (a : Nat) : Bool := (List.range 32).any fun n => s.regionAt act n r a

/-- Whether an act's regions grant a physical byte, through any view of it (R43). -/
def State.regionGrants (s : State) (act : Nat) (r : Right) (p : Nat) : Bool :=
  match locate p with
  | .stack t o => s.regionHas act r (stackAddr t o) || s.regionHas act r (spreadAddr t o)
  | .crew c o => s.regionHas act r (crewAddr c o)
  | _ => false

/-- Whether the tier manager uses a physical byte (R37), or the pool holds it (R288). -/
def State.guarded (s : State) (p : Nat) : Bool :=
  s.inPool p || s.fil.allocs.any fun a => a.isTile && decide (a.addr ≤ p ∧ p < a.addr + a.len)

/-- The ranges that the node itself grants to a job (Table 2.3, R288): its areas in crew store, its constant pool and the parts
that it has opened, with whether each may be written and used by Winze units. -/
def State.grants (s : State) (j : Job) (r : Right) (p : Nat) : Bool :=
  let mine (a : Alloc) : Bool :=
    match a.kind with
    | .arg n => n == j.id && r == .read
    | .result n => n == j.id && r != .winze
    | .work n => (s.fil.strands.any fun t => t.id == n && t.job == j.id) && r != .winze
    | .pool c h => c == j.act && h == j.desc.routine && r == .read
    | _ => false
  (s.fil.allocs.any fun a => mine a && decide (a.addr ≤ p ∧ p < a.addr + a.len))
  || (r != .write && s.idx.opened.any fun e => e.1 == j.id && decide (e.2.1 ≤ p ∧ p < e.2.1 + e.2.2))

/-- Whether a job may make an access that needs a right at a physical byte. -/
def State.mayAccess (s : State) (j : Job) (r : Right) (p : Nat) : Bool :=
  s.grants j r p || (!s.guarded p && s.regionGrants j.act r p)

/-- The points at which an access's rights can change: its first and last bytes, and the first byte of every 64-byte block. -/
def probePoints (a n : Nat) : List Nat :=
  if n = 0 then [] else a :: (a + n - 1) :: (List.range ((a + n - 1) / 64 - a / 64)).map fun i => (a / 64 + i + 1) * 64

/-- R44 at some points of node space: they are mapped. A management strand also reaches register space. -/
def checkMapped (priv : Bool) (l : List Nat) : M Unit :=
  match l.find? fun x => match locate x with
      | .stack _ _ => false
      | .crew _ _ => false
      | .register _ => !priv
      | .unassigned => true with
  | some x => throw (.fault cUnmapped x)
  | none => pure ()

/-- R42 at some points of node space, each with the right that is needed there. -/
def checkGranted (j : Job) (l : List (Right × Nat)) : M Unit := do
  let s ← get
  match l.find? fun e => match physOf e.2 with
      | some p => !s.mayAccess j e.1 p
      | none => false with
  | some e => throw (.fault cRegion e.2)
  | none => pure ()

/-- The checks of R44 and R42 on the accesses of an instruction to node space, in the order of R84: every byte of every range mapped, then
every byte granted. -/
def checkAll (j : Job) (priv : Bool) (l : List (Right × Nat × Nat)) : M Unit := do
  checkMapped priv (l.flatMap fun e => probePoints e.2.1 e.2.2)
  checkGranted j (l.flatMap fun e => (probePoints e.2.1 e.2.2).map fun x => (e.1, x))

/-- The same for one access. -/
def checkAccess (j : Job) (priv : Bool) (r : Right) (a n : Nat) : M Unit := checkAll j priv [(r, a, n)]

/-- An access that meets a Winze range waits for the completion point (Table 8.5), and is counted. -/
def waitHeld (write : Bool) (a n : Nat) : M Unit := do
  match (← get).holder write a n with
  | some _ =>
    upd fun s => s.countHold write a n
    throw (.wait .held)
  | none => pure ()

/-- A read that is no access of a register, logged where it reaches one (R10). -/
def noRegister (a : Nat) : M Unit :=
  match registerAt a with
  | some off => upd fun s => s.badAccess .boss off false
  | none => pure ()

/-- An ordinary read of node memory: it waits for a Winze destination range, and faults on an uncorrectable block (R303). In register space
it is no access of a register, reads zero and is logged (R10). -/
def readOrd (a n : Nat) : M (List Byte) := do
  waitHeld false a n
  noRegister a
  let (b, bad, s) := (← get).readMem 0 a n
  set s
  need (!bad) cUncorr a
  pure b

/-! ## The BAR2 aperture (R423 to R425) -/

/-- HIF_BAR2_ERR written when it is free (R424, R425): KIND 0 rights, 1 uncorrectable, 2 register space, pool or unassigned. -/
def State.logBar2 (s : State) (kind fn : Nat) (write : Bool) (a : Nat) : State :=
  if s.on F.hifBar2Err_valid then s else
  let s := ((s.wr F.hifBar2Err_valid 1).wr F.hifBar2Err_kind kind).wr F.hifBar2Err_func fn
  ((s.wr F.hifBar2Err_write (b2n write)).wr F.hifBar2ErrAddrLo_addr a).wr F.hifBar2ErrAddrHi_addr (a / 2 ^ 32)

/-- PCIe completion statuses. -/
def cplOk : Nat := 0
def cplUr : Nat := 1
def cplCa : Nat := 4

/-- A BAR2 read served from memory: its data, or Completer Abort for an uncorrectable block. -/
def State.serveRead (s : State) (fn a n : Nat) : State :=
  match s.readMem 0 a n with
  | (_, true, s) => (s.logBar2 1 fn false a).emit (.completion fn cplCa [])
  | (b, false, s) => s.emit (.completion fn cplOk b)

/-- The BAR2 reads that waited for a range which is free now. -/
def State.serveReads (s : State) : State :=
  let held (r : Nat × Nat × Nat) : Bool := (s.holder false r.2.1 r.2.2).isSome
  (s.host.reads.filter (!held ·)).foldl (fun s r => s.serveRead r.1 r.2.1 r.2.2)
    { s with host := { s.host with reads := s.host.reads.filter held } }

/-- Whether a source writes the registers that only the physical function and the Shift boss write (R13). -/
def manages (src : Src) : Bool :=
  match src with
  | .fn n => n == 0
  | .boss => true

/-- The same for a block that answers nothing in P4 (R412). -/
def State.reaches (s : State) (src : Src) : Bool := manages src && !s.on F.pwrStatus_p4

/-- A field written where a condition holds: out of its range it stays. -/
def State.wrIf (s : State) (f : FieldRef) (ok : Bool) (v : Nat) : State := if ok then s.wr f v else s

/-! ## Issue -/

/-- A job's routine. -/
def State.routineOf (s : State) (j : Job) : Option Routine :=
  s.fil.routines.find? fun r => r.act == j.act && r.handle == j.desc.routine

/-- Whether a strand runs at management level (R41). -/
def State.isPriv (s : State) (j : Job) : Bool :=
  j.act == 0 && match s.routineOf j with
    | some r => r.priv
    | none => false

/-- Whether the tracking of R48 lets an instruction issue: nothing in flight writes what it reads, or reads or writes what it
writes. -/
def Strand.clear (t : Strand) (reads writes : List Res) : Bool :=
  t.inflight.all fun f =>
    (reads.all fun r => !f.writes.contains r) && (writes.all fun r => !f.writes.contains r && !f.reads.contains r)

/-- Whether a strand is free to issue. -/
def Strand.ready (t : Strand) : Bool :=
  match t.wait with
  | .no => true
  | .held => true
  | _ => false

/-- Whether a crew issues: it is in P0 and the node is not in P4 (R410, R412), and neither the power estimate (R500), nor heat (R507), nor
a perturbation (Table 17.5) holds it back. -/
def State.crewIssues (s : State) (c : Nat) : Bool :=
  s.powerOf (.crew c) == 0 && !s.on F.pwrStatus_p4 && !s.pwr.capHold && s.pins.hot.isEmpty && decide (kvGet 0 s.fun_.stalls c ≤ s.now)

/-- Whether a block reset keeps an instruction of a class from its engine (R455 step 1): crews by number, Winze units, Crusher engines,
flash and Carousel. -/
def State.blockStops (s : State) (crew cls : Nat) : Bool :=
  match s.rst.block with
  | none => false
  | some (b, _) => b == crew || (decide (0x10 ≤ b ∧ b < 0x28) && cls == 8) || (b == 0x28 && cls == 5) || (b == 0x29 && cls == 12)
    || (b == 0x2A && cls == 11)

/-- The word index after an instruction. -/
def nextPc (t : Strand) (o : Insn) : Nat := t.pc + 1 + o.ext.length

/-- The predicate test of R33. -/
def predOk (t : Strand) (o : Insn) : Bool := t.getP o.pidx != o.pneg

/-- The registers that a form reads, besides its predicate: its sources. -/
def formSources (f : Form) (o : Insn) : List Res :=
  let one (k : OpKind) (n : Nat) : List Res :=
    match k with
    | .n => []
    | .s => [.s n]
    | .d => [.d n]
    | .t => [.t n]
    | .p => [.p n]
    | .q => [.q n]
  .p o.pidx :: one f.a o.a ++ one f.b o.b ++ (match f.dst with
    | .d => [.d o.dst]
    | _ => [])

/-- The register that a form writes. A descriptor destination is read, except by the functions that set it. -/
def formTargets (f : Form) (o : Insn) : List Res :=
  match f.dst with
  | .s => [.s o.dst]
  | .t => [.t o.dst]
  | .p => [.p o.dst]
  | .q => [.q o.dst]
  | .d => if f.cls == 2 && f.func ≤ 2 || f.cls == 9 then [.d o.dst] else []
  | .n => []

/-- The outcome of an instruction's body at its strand. -/
def finish (o : Insn) (cls func : Nat) (t : Strand) (s : State) (r : EStateM.Result Fail State Unit) : State :=
  match r with
  | .ok _ s' => s'
  | .error (.fault c a) s' => s'.strandFault o.strand cls func t.pc c a
  | .error (.endJob st dt) s' => s'.failJob t.job st dt
  | .error (.wait w) s' =>
    let s' := if t.wait == .held then s else s'
    s'.modStrand o.strand fun u => { u with wait := w, since := s.now, pc := t.pc }
  | .error .hold _ => s

/-- One instruction of a strand (R79, R80, R48): a word that R76 makes invalid never executes; a strand that does not run, that
waits, or whose registers are still in use, its predicate first, issues nothing; a failed predicate only moves on; otherwise the body runs
with the strand already moved on. -/
def issue (f : Form) (o : Insn) (s : State) (body : Strand → Job → M Unit) : Host.Outcome State Fault Refusal :=
  if !f.ok o then .refused .reservedEncoding else
  match s.strand? o.strand with
  | none => .next s
  | some t =>
    match s.job? t.job with
    | none => .next s
    | some j =>
      if !t.ready then .next s else
      if s.blockStops t.crew f.cls then .next s else
      if !s.crewIssues t.crew then .next (s.arrive (.crew t.crew)) else
      let adv (s : State) := s.modStrand o.strand fun u => { u with pc := nextPc t o, wait := .no }
      if !t.clear [.p o.pidx] [] then .next s else
      if !predOk t o then .next (adv s) else
      if !t.clear (formSources f o) (formTargets f o) then .next s else
      .next (finish o f.cls f.func t s ((body t j).run (adv s)))

/-- An instruction that only computes on the strand's own registers (R80). -/
def scalar (f : Form) (o : Insn) (s : State) (g : Strand → Strand → Strand) : Host.Outcome State Fault Refusal :=
  issue f o s fun t _ => upd fun s => s.modStrand o.strand (g t)

/-- An instruction handed to an engine (R47): its effects wait for its completion point. -/
def launch (f : Form) (o : Insn) (t : Strand) (gate : Gate) (reads writes : List Res) (effects : List Effect) : M Unit :=
  upd fun s =>
    let fl : Inflight := ⟨s.nextId, f.cls, f.func, t.pc, formSources f o ++ reads, formTargets f o ++ writes, gate, effects, s.now⟩
    s.fresh.modStrand o.strand fun u => { u with inflight := u.inflight ++ [fl] }

/-- An engine instruction. The body answers the effects; `more` adds to the tracked reads and writes. -/
def engine (f : Form) (o : Insn) (s : State) (reads writes : List Res) (body : Strand → Job → M (List Effect)) :
    Host.Outcome State Fault Refusal :=
  issue f o s fun t j => do
    if !t.clear reads writes then throw .hold
    let e ← body t j
    launch f o t .engine reads writes e

/-- SIMM (R75). -/
def simm (o : Insn) : Int := o.imm.toInt

/-- The target of a branch: SIMM words from the branch. -/
def branchTo (t : Strand) (o : Insn) : Nat := ((t.pc : Int) + simm o).toNat

/-- A predicate written when PRES names one (R81). -/
def setPres (o : Insn) (v : Bool) : List Effect :=
  if o.fld 25 3 = 0 then [] else [.setP (o.fld 25 3) v]

/-- The predicate that PRES names, which the instruction writes. -/
def presWrites (o : Insn) : List Res := if o.fld 25 3 = 0 then [] else [.p (o.fld 25 3)]

end Sys2Proof.Machine
end

