-- ==== Sys2Proof/Machine/Flags.lean ====
section
/-! DEFINITION. The predicates that instructions compute: the comparisons of SCL.CMP and SCL.FCMP and the logic of SCL.PLOG
(Table 3.5). Filaux has no other flags. -/
namespace Sys2Proof.Machine

/-- SCL.CMP by its COND. -/
def cmpCond (c : Nat) (a b : DWord) : Bool :=
  match c with
  | 0 => a == b
  | 1 => a != b
  | 2 => a.slt b
  | 3 => a.sle b
  | 4 => a.ult b
  | _ => a.ule b

/-- SCL.PLOG by its OP. -/
def plogOp (c : Nat) (a b : Bool) : Bool :=
  match c with
  | 0 => a && b
  | 1 => a || b
  | 2 => a != b
  | _ => a && !b

/-- SCL.FCMP by its COND, under the order of R88. -/
def fcmpCond (c : Nat) (a b : DWord) : Bool :=
  let x := a.toNat % 2 ^ 32
  let y := b.toNat % 2 ^ 32
  match c with
  | 0 => feq x y
  | 1 => flt x y
  | _ => flt x y || feq x y

end Sys2Proof.Machine
end

