-- ==== Sys2Proof/Machine/Tiles.lean ====
section
/-! DEFINITION. Tiles: their elements and scales (R111 to R116), their checksum (R304), how an instruction reads one at use (R38,
R83, R157, R158), how a new one is placed (R291, R292, R296), and the tier moves (R293 to R295). -/
namespace Sys2Proof.Machine

/-! ## The value of a tile -/

/-- What a tile holds: its format, shape, payload and sideband. -/
structure TileVal where
  fmt : Nat
  shape : Nat
  data : List Byte
  tscale : Nat
  bs : Nat
  axis : Nat
  scales : List Byte
  info : Option ListInfo
deriving DecidableEq, Repr

/-- Binary32 one. -/
def one32 : Nat := 0x3F800000

/-- Whether a format carries scales (R114). -/
def isScaled (fmt : Nat) : Bool := decide (2 ≤ fmt ∧ fmt ≤ 5)

/-- The element width in bits (Table 4.2): eight for what has no elements. -/
def elemWidth (fmt : Nat) : Nat :=
  if fmt = 0 ∨ fmt = 6 then 32 else if fmt = 1 then 16 else if fmt = 4 then 4 else 8

/-- The rows of a SHAPE code (Table 4.3). -/
def shapeRows (sh : Nat) : Nat := [32, 64, 128, 256, 16, 8, 1].getD sh 1

/-- The columns of a tile (R112). -/
def shapeCols (fmt sh : Nat) : Nat := 32768 / elemWidth fmt / shapeRows sh

/-- Whether a format is numeric: one of FP32 to INT32. -/
def isNumeric (fmt : Nat) : Bool := decide (fmt ≤ 6)

/-- The block size of a BS code. -/
def blockSize (bs : Nat) : Nat := 16 * 2 ^ bs

/-- The blocks along one row or column (R114). -/
def blocksPer (fmt sh bs axis : Nat) : Nat := ceilDiv (if axis = 0 then shapeCols fmt sh else shapeRows sh) (blockSize bs)

/-- NB of R114. -/
def blockCount (fmt sh bs axis : Nat) : Nat :=
  (if axis = 0 then shapeRows sh else shapeCols fmt sh) * blocksPer fmt sh bs axis

/-- The index of the block scale of element (r, c). -/
def blockIdx (fmt sh bs axis r c : Nat) : Nat :=
  if axis = 0 then r * blocksPer fmt sh bs axis + c / blockSize bs else c * blocksPer fmt sh bs axis + r / blockSize bs

/-- A tile without scales. -/
def plainTile (fmt sh : Nat) (data : List Byte) : TileVal := ⟨fmt, sh, data, one32, 0, 0, [], none⟩

/-- A tile that carries unit scales where its format has scales (R115). -/
def unitTile (fmt sh : Nat) (data : List Byte) : TileVal :=
  if isScaled fmt then ⟨fmt, sh, data, one32, 1, 0, List.replicate (blockCount fmt sh 1 0) 0x7F#8, none⟩
  else plainTile fmt sh data

/-- The element patterns in index order (R113). -/
def codesOf (fmt : Nat) : List Byte → List Nat
  | [] => []
  | b0 :: t =>
    match elemWidth fmt, t with
    | 4, t => b0.toNat % 16 :: b0.toNat / 16 :: codesOf fmt t
    | 16, b1 :: t => leNat [b0, b1] :: codesOf fmt t
    | 32, b1 :: b2 :: b3 :: t => leNat [b0, b1, b2, b3] :: codesOf fmt t
    | _, t => b0.toNat :: codesOf fmt t

/-- The payload that element patterns make. -/
def ofCodes (fmt : Nat) : List Nat → List Byte
  | [] => []
  | a :: t =>
    match elemWidth fmt, t with
    | 4, b :: t => BitVec.ofNat 8 (a % 16 + 16 * (b % 16)) :: ofCodes fmt t
    | w, t => leBytes a (w / 8) ++ ofCodes fmt t

/-- The format value of a pattern (Table 4.4). -/
def fmtValue (fmt code : Nat) : FV :=
  match fmt with
  | 0 => f32 code
  | 1 => bf16 code
  | 2 => e4m3 code
  | 3 => e5m2 code
  | 4 => e2m1 code
  | 5 => int8v code
  | _ => int32v code

/-- Whether some block scale is reserved (R117). -/
def TileVal.badScale (v : TileVal) : Bool := v.scales.contains 0xFF#8

/-- Whether a tile has unit scales (R119 item 4). -/
def TileVal.unit (v : TileVal) : Bool := v.tscale == one32 && v.scales.all (· == 0x7F#8)

/-- The exponent of the block scale of element (r, c); zero in a format without scales. -/
def TileVal.blockExp (v : TileVal) (sc : Array Byte) (r c : Nat) : Int :=
  if isScaled v.fmt then ((sc.getD (blockIdx v.fmt v.shape v.bs v.axis r c) 0x7F#8).toNat : Int) - 127 else 0

/-! ## The tile checksum (R304) -/

/-- An accumulator in the internal form that the checksum of a list covers. -/
def Acc320.bytes (a : Acc320) : List Byte :=
  leBytes ((a.acc % 2 ^ 320).toNat) 40
    ++ leBytes (b2n a.pinf + 2 * b2n a.ninf + 4 * b2n a.nan + 8 * b2n a.allneg0) 1 ++ leBytes a.n 4

/-- A list's directory in the node's internal form. -/
def ListInfo.bytes (l : ListInfo) : List Byte :=
  l.dirs.flatMap fun d => leBytes (d.count + 2 ^ 14 * b2n d.overflow + 2 ^ 15 * b2n d.cut) 2 ++ d.left.bytes

/-- The CRC-32C of a tile. -/
def TileVal.crc (v : TileVal) : Nat :=
  match v.info with
  | some l => crc32c (v.data ++ l.bytes)
  | none =>
    let sc := isScaled v.fmt
    let b (n : Nat) : Byte := BitVec.ofNat 8 n
    crc32c (v.data ++ [b v.fmt, b v.shape, b (if sc then v.bs else 0), b (if sc then v.axis else 0)]
      ++ leBytes (if sc then v.tscale else one32) 4 ++ leBytes (if sc then v.scales.length else 0) 2 ++ zeros 6
      ++ (if sc then v.scales else []))

/-- The value of a tile record over its raw payload. -/
def Tile.val (t : Tile) (raw : List Byte) : TileVal := ⟨t.fmt, t.shape, raw, t.tscale, t.bs, t.axis, t.scales, t.info⟩

/-! ## Crusher counts (R157, R162) -/

/-- A stream that failed a check: counted, and recorded while nothing is recorded. -/
def State.damage (s : State) (check path act node : Nat) : State :=
  let s := s.bump F.cruDamageCount_count 1
  if s.on F.cruDamage_valid then s else
  let s := ((s.wr F.cruDamage_valid 1).wr F.cruDamage_check check).wr F.cruDamage_path path
  (s.wr F.cruDamage_act act).wr F.cruDamage_node node

/-- A stream on its way through a path: where a perturbation is to damage it (Table 17.5), the check that it fails, and the perturbation is
spent. -/
def State.spoilt (s : State) (path : Nat) : Option Nat × State :=
  match s.fun_.streams.find? (·.1 == path) with
  | none => (none, s)
  | some e => (some e.2, { s with fun_ := { s.fun_ with streams := s.fun_.streams.erase e } })

/-- What the encoders count: raw bytes in, and stream bytes out or one more kept raw. -/
def State.packCount (s : State) (raw : Nat) (out : Option Nat) : State :=
  let s := s.bump64 F.cruPackInLo_bytes F.cruPackInHi_bytes raw
  match out with
  | some n => s.bump64 F.cruPackOutLo_bytes F.cruPackOutHi_bytes n
  | none => s.bump F.cruRawKept_count 1

/-! ## Homes (R290 to R292, R296) -/

/-- What a tile holds at its home: raw bytes, and whether they are packed. -/
def homeForm (s : State) (v : TileVal) (pool : Bool) : List Byte × Bool :=
  if pool && s.on F.memCtrl_packEn && v.info.isNone then
    match packTile v.data with
    | some b => (b, true)
    | none => (v.data, false)
  else (v.data, false)

/-- The CRC of the next tile that an engine of a crew produces, corrupted when the flip mask takes it (R311, KIND 2). -/
def State.flipCrc (s : State) (crew crc : Nat) : Nat × State :=
  if s.on F.memFlipCtrl_arm && s.rd F.memFlipCtrl_kind == 2 && s.rd F.memFlipCtrl_unit == crew then
    let s' := (s.wr F.memFlipCtrl_arm 0).wr F.memFlipCtrl_fired 1
    (crc ^^^ s.rd F.memFlipMask_data, (s'.wr F.memFlipHitLo_addr 0).wr F.memFlipHitHi_addr 0)
  else (crc, s)

/-- A home for new contents (R292): the crew store of the crew, unless the pool is asked for, and else the pool. It answers the
address, and whether it is a pool home. -/
def State.homeFor (s : State) (act crew : Nat) (v : TileVal) (toPool : Bool) (kind : AllocKind) :
    Option (Nat × Bool) × State :=
  match if toPool then (none, s) else s.allocCrew act crew v.data.length kind with
  | (some a, s) => (some (a, false), s)
  | (none, s) =>
    match s.allocPool act (homeForm s v true).1.length kind with
    | (some a, s) => (some (a, true), s)
    | (none, s) => (none, s)

/-- Contents for the tile `id`, placed and written: the record, or nothing where neither quota fits. -/
def State.homed (s : State) (id act crew : Nat) (v : TileVal) (toPool : Bool) (kind : AllocKind) : Option Tile × State :=
  match s.homeFor act crew v toPool kind with
  | (none, s) => (none, s)
  | (some (a, pool), s) =>
    let (b, packed) := homeForm s v pool
    let s := if pool && s.on F.memCtrl_packEn && v.info.isNone then
        s.packCount v.data.length (if packed then some b.length else none) else s
    let s := s.writeMem 0 a b
    (some ⟨id, act, [], v.fmt, v.shape, packed, v.tscale, v.bs, v.axis, v.scales, v.crc, a, b.length, 0, v.info, s.now, [],
      false⟩, s)

/-- New contents that an engine produces: homed, and with a CRC that the flip mask may take. -/
def State.produce (s : State) (id act crew : Nat) (v : TileVal) (toPool : Bool) (kind : AllocKind) : Option Tile × State :=
  match s.homed id act crew v toPool kind with
  | (none, s) => (none, s)
  | (some t, s) =>
    let (crc, s) := s.flipCrc crew t.crc
    (some { t with crc := crc }, s)

/-- A new tile: its identifier, or nothing where it could not be placed. -/
def State.makeTile (s : State) (act crew : Nat) (v : TileVal) (toPool : Bool) : Option Nat × State :=
  let id := s.nextId
  match s.fresh.produce id act crew v toPool (.tile id) with
  | (none, s) => (none, s)
  | (some t, s) => (some id, { s with fil := { s.fil with tiles := s.fil.tiles ++ [t] } })

/-- The kind of the allocation at an address replaced. -/
def State.rekind (s : State) (addr : Nat) (k : AllocKind) : State :=
  { s with fil := { s.fil with allocs := updWhere (fun a => a.addr == addr) (fun a => { a with kind := k }) s.fil.allocs } }

/-- The allocation at an address released. -/
def State.freeAt (s : State) (addr : Nat) : State :=
  { s with fil := { s.fil with allocs := s.fil.allocs.filter (·.addr != addr) } }

/-! ## Tier moves (R293 to R295) -/

/-- The raw payload at a tile's home, read by a source: nothing where a block is uncorrectable or a check of Table 5.5 fails, with
the failing check. -/
def State.homeRaw (s : State) (source : Nat) (addr len : Nat) (packed : Bool) : (Option Nat ⊕ List Byte) × State :=
  let (b, bad, s) := s.readMem source addr len
  if bad then (.inl none, s) else
  if !packed then (.inr b, s) else
  match decodeStream false (len / 512) b with
  | .inl n => (.inl (some n), s)
  | .inr raw => (.inr raw, s)

/-- The same through a path of Table 5.7, where a perturbation may damage a stream. -/
def State.homeVia (s : State) (path addr len : Nat) (packed : Bool) : (Option Nat ⊕ List Byte) × State :=
  match (if packed then s.spoilt path else (none, s)) with
  | (some c, s) => (.inl (some c), (s.readMem 0 addr len).2.2)
  | (none, s) => s.homeRaw 0 addr len packed

/-- A stream that a tier move finds damaged: counted and recorded, with a free path number, since R157 names none for it (log 127). -/
def State.moveDamage (s : State) (act : Nat) (check : Option Nat) : State :=
  match check with
  | none => s
  | some c =>
    let (p, s) := s.draw 3
    s.damage c (p % 5) act 0

/-- The bytes that a move of a tile charges at its target. -/
def State.moveLen (s : State) (t : Tile) (pool : Bool) : Nat :=
  match (s.homeRaw 3 t.home t.len t.packed).1 with
  | .inr raw => (homeForm s (t.val raw) pool).1.length
  | .inl _ => t.len

/-- A move begun (R294): charged, copied to its target, and waiting for its flip. A charge that does not fit starts nothing; an
uncorrectable source, or a stream that fails a check, abandons it. -/
def State.startMove (s : State) (t : Tile) (toCrew : Option Nat) : State :=
  let n := s.moveLen t toCrew.isNone
  let id := s.nextId
  match (match toCrew with
      | some c => s.fresh.allocCrew t.act c n (.move id)
      | none => s.fresh.allocPool t.act n (.move id)) with
  | (none, s) => s
  | (some a, s) =>
    match s.homeRaw 3 t.home t.len t.packed with
    | (.inl c, s) => (((s.moveDamage t.act c).freeAt a).bump F.memMoveAbandon_count 1).count 0x705 1
    | (.inr raw, s) =>
      let (b, packed) := homeForm s (t.val raw) toCrew.isNone
      let s := s.writeMem 3 a b
      let s := if toCrew.isNone && s.on F.memCtrl_packEn && t.info.isNone then
          s.packCount raw.length (if packed then some b.length else none) else s
      { s with fil := { s.fil with moves := s.fil.moves ++ [⟨id, t.id, a, b.length, packed, false⟩] } }

/-- A move abandoned (R295). -/
def State.abandonMove (s : State) (m : TierMove) : State :=
  let s := { s with fil := { s.fil with moves := s.fil.moves.filter (·.id != m.id) } }
  ((s.freeAt m.target).bump F.memMoveAbandon_count 1).count 0x705 1

/-- The moves of a tile that have not flipped, abandoned. -/
def State.abandonMoves (s : State) (tile : Nat) : State :=
  (s.fil.moves.filter (fun m => m.tile == tile && !m.flipped)).foldl State.abandonMove s

/-- Whether a tile is homed in a crew's store. -/
def Tile.inCrew (t : Tile) (crew : Nat) : Bool := decide (crewAddr crew 0 ≤ t.home ∧ t.home < crewAddr crew crewLen)

/-- Whether a tile is homed in the pool. -/
def Tile.pooled (t : Tile) : Bool := decide (t.home < crewBase)

/-- Whether a tile moves. -/
def State.moving (s : State) (tile : Nat) : Bool := s.fil.moves.any (fun m => m.tile == tile && !m.flipped)

/-- The order in which tiles are demoted (R293): least recently read, then TIER 2, 0 and 1. -/
def demotedBefore (a b : Tile) : Bool :=
  let rank (t : Tile) : Nat := if t.pref = 2 then 0 else if t.pref = 0 then 1 else 2
  decide (a.lastRead < b.lastRead ∨ a.lastRead = b.lastRead ∧ rank a < rank b)

/-- The tiles of an act that a crew's store could give up. -/
def State.demotable (s : State) (act crew : Nat) : List Tile :=
  sortBy demotedBefore (s.fil.tiles.filter fun t => t.act == act && t.inCrew crew && !s.moving t.id)

/-- The bytes that demotions in progress will free in a crew's store for an act. -/
def State.leaving (s : State) (act crew : Nat) : Nat :=
  ((s.fil.tiles.filter fun t => t.act == act && t.inCrew crew && s.moving t.id).map (·.len)).sum

/-- Whether an act is short of crew quota, or a crew's store of tile-home space (R293): under 1 MiB free. -/
def State.shortOfCrew (s : State) (act crew : Nat) : Bool :=
  let q := s.rd (F.memQCrew_kib act) * 1024 - s.crewUse act
  let f := crewLen - allocSum (fun _ => true) (allocsIn (crewAddr crew 0) (crewAddr crew crewLen) s.fil.allocs)
  decide (min q f + s.leaving act crew < 2 ^ 20)

/-- Demotions of an act from a crew's store while it is short, one tile after another. -/
def State.demote (act crew : Nat) : List Tile → State → State
  | [], s => s
  | t :: l, s => if s.shortOfCrew act crew then State.demote act crew l (s.startMove t none) else s

/-- The tier manager's demotions after a placement or a change of quota. -/
def State.tierManage (s : State) (act crew : Nat) : State := State.demote act crew (s.demotable act crew) s

/-- A HEW read of a pool home (R293): the second by one crew within 256 beats promotes the tile where R292 would place it. -/
def State.hewReadOf (s : State) (t : Tile) (crew : Nat) : State :=
  if !t.pooled then s else
  let s' := s.modTile t.id fun u => { u with hewRead := (crew, s.now) :: u.hewRead.filter (·.1 != crew) }
  if t.hewRead.any (fun e => e.1 == crew && decide (s.now ≤ e.2 + 256)) && t.pref != 2 && !s.moving t.id then s'.startMove t (some crew)
  else s'

/-! ## Handles (R38, R89, R293) -/

/-- Whether a handle of some strand names a tile. -/
def State.named (s : State) (tile : Nat) : Bool := s.fil.strands.any fun t => !t.ended && t.t.any (·.2 == some tile)

/-- A tile removed, with its home, its moves and its expansions. -/
def State.removeTile (s : State) (tile : Nat) : State :=
  match s.tile? tile with
  | none => s
  | some t =>
    let s := s.abandonMoves tile
    let s := s.freeAt t.home
    let s := s.dropAlloc fun k => k == .expansion tile
    { s with fil := { s.fil with
        tiles := s.fil.tiles.filter (·.id != tile), expansions := s.fil.expansions.filter (·.tile != tile) } }

/-- A tile after a handle has left it: a transient tile that no handle names is released. -/
def State.settle (s : State) (tile : Nat) : State :=
  match s.tile? tile with
  | none => s
  | some t => if t.names.isEmpty && !s.named tile then s.removeTile tile else s

/-- An expansion loses a handle; one that no handle opened any more is released (R298). -/
def State.closeExpansion (s : State) (strand reg : Nat) : State :=
  let ex := s.fil.expansions.map fun e => { e with handles := e.handles.filter (· != (strand, reg)) }
  let gone := ex.filter (·.handles.isEmpty)
  let s := gone.foldl (fun s e => s.dropAlloc fun k => k == .expansion e.tile) s
  { s with fil := { s.fil with expansions := ex.filter (!·.handles.isEmpty) } }

/-- A handle given to a tile or made invalid; what it named before may go. -/
def State.bindHandle (s : State) (strand reg : Nat) (tile : Option Nat) : State :=
  match s.anyStrand? strand with
  | none => s
  | some t =>
    let old := t.getT reg
    let s := (s.closeExpansion strand reg).modStrand strand fun u => u.setT reg tile
    match old with
    | some o => if some o == tile then s else s.settle o
    | none => s

/-- Every handle of a strand released (R86). -/
def State.releaseHandles (s : State) (strand : Nat) : State :=
  (List.range 32).foldl (fun s r => s.bindHandle strand r none) s

/-! ## Use -/

/-- A bit of a job's degrade mask (Table 2.9). -/
def State.setMask (s : State) (job b : Nat) : State := s.modJob job fun j => { j with mask := j.mask ||| b }

/-- Whether a job's deadline beat has arrived. -/
def State.late (s : State) (j : Job) : Bool := bitOf j.desc.flags 2 && decide (j.desc.deadline ≤ s.now)

/-- The raw payload of a tile read from its home at use. -/
def readHome (j : Job) (t : Tile) : M (List Byte) := do
  match ← updGet fun s => s.homeVia 2 t.home t.len t.packed with
  | .inl none => throw (.fault cUncorr 0)
  | .inl (some c) =>
    upd fun s => s.damage c 2 j.act 0
    throw (.endJob 0x40 c)
  | .inr b => pure b

/-- The tile that a handle names, checked for the formats that the instruction accepts (R38, R90). -/
def tileAt (t : Strand) (reg : Nat) (ok : Tile → Bool := fun _ => true) : M Tile := do
  let id ← orFault (t.getT reg) cTile
  let v ← orFault ((← get).tile? id) cTile
  need (ok v) cTile
  pure v

/-- A tile read at use: through its expansion where the handle opened one that is finished, and at its home otherwise. An unfinished
expansion is waited for until the deadline. The checksum is verified last (R83, R305). -/
def useTile (t : Strand) (j : Job) (reg : Nat) (v : Tile) (hew : Bool := false) : M TileVal := do
  let s ← get
  upd fun s => s.modTile v.id fun u => { u with lastRead := s.now }
  let ex := s.fil.expansions.find? fun e => e.tile == v.id && e.handles.contains (t.id, reg)
  let atUse : M (List Byte) := do
    if hew then
      if v.packed then upd fun s => s.bump F.cruAtuseCount_count 1
      upd fun s => s.hewReadOf v t.crew
    readHome j v
  let raw ← match ex with
    | none => atUse
    | some e =>
      match e.home, e.done with
      | some a, true => do
        let (b, bad, s) := (← get).readMem 0 a 4096
        set s
        need (!bad) cUncorr
        pure b
      | some _, false => do
        if !s.late j then throw .hold
        upd fun s => s.setMask j.id 2
        atUse
      | none, _ => do
        upd fun s => s.setMask j.id 2
        atUse
  need ((v.val raw).crc == v.crc) cTileCheck
  pure (v.val raw)

/-- The tile of a handle, read at use. -/
def useAt (t : Strand) (j : Job) (reg : Nat) (ok : Tile → Bool := fun _ => true) (hew : Bool := false) : M TileVal := do
  useTile t j reg (← tileAt t reg ok) hew

/-- R84 puts QUOTA before TILE_CHECK and UNCORRECTABLE: a computation that fails so late meets the quota check first. -/
def quotaFirst {α : Type} (act crew len : Nat) (c : M α) : M α := do
  try c catch e =>
    let late := match e with
      | .fault k _ => k == cTileCheck || k == cUncorr
      | .endJob _ _ => true
      | _ => false
    if late then
      match (← get).homeFor act crew (plainTile 9 0 (zeros len)) false (.move 0) with
      | (none, s) => do
        set s
        throw (.fault cQuota 0)
      | (some _, _) => throw e
    else throw e

/-- A result tile made at issue, bound to its handle at the completion point (R291, R292). -/
def newTile (t : Strand) (j : Job) (v : TileVal) (toPool : Bool := false) : M Nat := do
  match ← updGet fun s => s.makeTile j.act t.crew v toPool with
  | some id =>
    upd fun s => s.tierManage j.act t.crew
    pure id
  | none => throw (.fault cQuota 0)

/-- A tile placed for an output that is still to come (R241): its identifier, or nothing where no quota fits. -/
def State.reserveTile (s : State) (act crew : Nat) (v : TileVal) : Option Nat × State :=
  let id := s.nextId
  match s.fresh.homeFor act crew v false (.tile id) with
  | (none, s) => (none, s)
  | (some (a, _), s) =>
    let t : Tile := ⟨id, act, [], v.fmt, v.shape, false, v.tscale, v.bs, v.axis, v.scales, 0, a, v.data.length, 0, v.info, s.now,
      [], false⟩
    (some id, { s with fil := { s.fil with tiles := s.fil.tiles ++ [t] } })

/-- A result tile made at issue whose contents are still to come: it holds `v` until then, and its checksum is computed with them. -/
def newBlank (t : Strand) (j : Job) (v : TileVal) : M Nat := do
  match ← updGet fun s => s.reserveTile j.act t.crew v with
  | some id =>
    upd fun s => match s.tile? id with
      | some x => s.writeMem 0 x.home v.data
      | none => s
    upd fun s => s.tierManage j.act t.crew
    pure id
  | none => throw (.fault cQuota 0)

/-- New contents for the tile that a handle names, which take its place at the completion point (R129, R291). -/
def rewriteTile (t : Strand) (j : Job) (old : Tile) (v : TileVal) : M Effect := do
  let op := (← get).nextId
  match ← updGet fun s => s.fresh.produce old.id j.act t.crew v false (.move op) with
  | some n =>
    upd fun s => s.tierManage j.act t.crew
    pure (.tile { n with names := old.names, pref := old.pref, dropping := old.dropping })
  | none => throw (.fault cQuota 0)

/-- An engine instruction that makes one new tile in its destination handle. -/
def tileEngine (f : Form) (o : Insn) (s : State) (reads : List Res) (body : Strand → Job → M TileVal) :
    Host.Outcome State Fault Refusal :=
  engine f o s reads [] fun t j => do
    let v ← quotaFirst j.act t.crew 4096 (body t j)
    pure [.bindT o.dst (← newTile t j v)]

end Sys2Proof.Machine
end

