-- ==== Sys2Proof/Machine/Control.lean ====
section
/-! DEFINITION. Control flow, time and ordering: the CTL, TAL and SYN classes (R86, R107, R50 to R54), ordered reductions (R91, R92),
and the completion points of engine instructions (R47). -/
namespace Sys2Proof.Machine

/-! ## Completion points (R47) -/

/-- Where an effect belongs: the strand and the instruction that made it. -/
structure Origin where
  strand : Nat
  job : Nat
  cls : Nat
  func : Nat
  pc : Nat
deriving DecidableEq, Repr

/-- New contents take a tile's place (R291): moves of it are abandoned (R295), its expansion ends, and its old home waits for the
reads that began before. -/
def State.replaceTile (s : State) (v : Tile) : State :=
  match s.tile? v.id with
  | none => s.freeAt v.home
  | some old =>
    let s := s.abandonMoves v.id
    let s := s.dropAlloc fun k => k == .expansion v.id
    let s := { s with fil := { s.fil with expansions := s.fil.expansions.filter (·.tile != v.id) } }
    let s := ((s.rekind old.home (.old s.nextId)).rekind v.home (.tile v.id)).fresh
    s.modTile v.id fun u => { v with lastRead := u.lastRead, pref := u.pref, names := u.names, dropping := u.dropping }

/-- One effect of an engine instruction at its completion point. -/
def State.applyEffect (o : Origin) (s : State) (e : Effect) : State :=
  match e with
  | .setS r v => s.modStrand o.strand fun t => t.setS r v
  | .setD r v => s.modStrand o.strand fun t => t.setD r v
  | .setP r v => s.modStrand o.strand fun t => t.setP r v
  | .bindT r tile => s.bindHandle o.strand r (some tile)
  | .dropT r => s.bindHandle o.strand r none
  | .setQ r v => s.modStrand o.strand fun t => t.setQ r (some v)
  | .mem source a data =>
    match registerAt a with
    | some off => if plainAccess off data.length then s else s.badAccess .boss off true
    | none => if source = 1 then s.writeMem 1 a data else s.ordWrite a data
  | .host fn a data => s.sendHost fn (((s.job? o.job).map (·.act)).getD 0) 2 a data false
  | .tile v => s.replaceTile v
  | .count off lo w n => s.bump ⟨off, lo, w⟩ n
  | .count64 lo hi n => s.bump64 ⟨lo, 0, 32⟩ ⟨hi, 0, 32⟩ n
  | .telem c n => s.count c n
  | .faultAt c a => s.strandFault o.strand o.cls o.func o.pc c a
  | .mask b => s.setMask o.job b

/-- An instruction in flight by its tag. -/
def Strand.flight? (t : Strand) (tag : Nat) : Option Inflight := t.inflight.find? (·.tag == tag)

/-- The reductions whose contributing instructions have all completed, closed (R92). -/
def State.closeOreds (s : State) : State :=
  let live (c : Contrib) : Bool := s.fil.strands.any fun t => t.id == c.strand && t.inflight.any (·.tag == c.tag)
  { s with fil := { s.fil with
      oreds := s.fil.oreds.filter fun r => !r.hew || r.contribs.length != r.n || r.contribs.any live } }

/-- Whether an effect is an ordinary write of memory. -/
def Effect.ordinary (e : Effect) : Bool :=
  match e with
  | .mem source _ _ => source != 1
  | _ => false

/-- Whether an effect is an ordinary write that the interlock holds (R250). -/
def State.holds (s : State) (e : Effect) : Bool :=
  match e with
  | .mem source a data => source != 1 && (s.holder true a data.length).isSome
  | _ => false

/-- An engine instruction whose writes meet a Winze range: they are put before the interlock, and the rest of its effects wait for them, so
that its completion point is that of its last write (R47, R250). -/
def State.park (s : State) (strand tag : Nat) (f : Inflight) : State :=
  let s := (f.effects.filter Effect.ordinary).foldl (fun s e => match e with
    | .mem _ a data => s.ordWrite a data (.engine strand tag)
    | _ => s) s
  s.modStrand strand fun t =>
    { t with inflight :=
        updWhere (·.tag == tag) (fun f => { f with gate := .interlock, effects := f.effects.filter (!·.ordinary) }) t.inflight }

/-- The completion point of an instruction in flight, unless the interlock holds its writes: it leaves the tracking of R48, and its effects
take place in order. -/
def State.complete (s : State) (strand tag : Nat) : State :=
  match s.anyStrand? strand with
  | none => s
  | some t =>
    match t.flight? tag with
    | none => s
    | some f =>
      if f.effects.any s.holds then s.park strand tag f else
      let s := s.modStrand strand fun u => { u with inflight := u.inflight.filter (·.tag != tag) }
      let s := f.effects.foldl (State.applyEffect ⟨strand, t.job, f.cls, f.func, f.pc⟩) s
      s.closeOreds

/-- The gate and the effects of an instruction in flight replaced. -/
def State.regate (s : State) (strand tag : Nat) (g : Gate) (e : List Effect) : State :=
  s.modStrand strand fun t =>
    { t with inflight := updWhere (·.tag == tag) (fun f => { f with gate := g, effects := f.effects ++ e }) t.inflight }

/-! ## CTL (Table 3.4) -/

/-- Whether a word index is the first word of an instruction: one word per unit of fuel. -/
def firstWord (idx : Nat) : Nat → List DWord → Nat → Bool
  | 0, _, _ => false
  | _ + 1, [], _ => false
  | n + 1, w :: t, i =>
    if i = idx then true
    else if i > idx then false
    else firstWord idx n (t.drop (bits w.toNat 28 2)) (i + 1 + bits w.toNat 28 2)

/-- The strand goes on at a word index. -/
def Strand.jump (pc : Nat) (t : Strand) : Strand := { t with pc := pc }

def execCtlNop (o : Insn) (s : State) : Host.Outcome State Fault Refusal :=
  scalar Form.ctlNop o s fun _ u => u

def execCtlBr (o : Insn) (s : State) : Host.Outcome State Fault Refusal :=
  scalar Form.ctlBr o s fun t u => u.jump (branchTo t o)

def execCtlCall (o : Insn) (s : State) : Host.Outcome State Fault Refusal :=
  scalar Form.ctlCall o s fun t u => (u.setS o.dst (BitVec.ofNat 64 (nextPc t o))).jump (branchTo t o)

/-- JMPR: ALIGN unless the target is the first word of an instruction (R82). -/
def execCtlJmpr (o : Insn) (s : State) : Host.Outcome State Fault Refusal :=
  issue Form.ctlJmpr o s fun t j => do
    let pc := (t.getS o.a).toNat
    let code := match (← get).routineOf j with
      | some r => r.code
      | none => []
    need (firstWord pc code.length code 0) cAlign pc
    upd fun s => s.modStrand o.strand (Strand.jump pc)

def execCtlLoop (o : Insn) (s : State) : Host.Outcome State Fault Refusal :=
  scalar Form.ctlLoop o s fun t u =>
    let v := u.setS o.dst (t.getS o.dst - 1#64)
    if v.getS o.dst = 0#64 then v else v.jump (branchTo t o)

/-- The end of a strand: its handles and its working space are released (R110). -/
def State.endStrand (s : State) (strand : Nat) : State :=
  ((s.releaseHandles strand).dropAlloc fun k => k == .work strand).modStrand strand fun t => { t with ended := true, wait := .no }

/-- END: the fence of Table 2.6, then the end. -/
def execCtlEnd (o : Insn) (s : State) : Host.Outcome State Fault Refusal :=
  issue Form.ctlEnd o s fun t _ =>
    if t.inflight.isEmpty then upd fun s => s.endStrand o.strand
    else upd fun s => s.modStrand o.strand fun u => { u with wait := .ending, since := s.now }

/-! ## TAL (Table 3.17) -/

def execTalNow (o : Insn) (s : State) : Host.Outcome State Fault Refusal :=
  scalar Form.talNow o s fun _ u => u.setS o.dst (BitVec.ofNat 64 s.now)

def execTalStable (o : Insn) (s : State) : Host.Outcome State Fault Refusal :=
  scalar Form.talStable o s fun _ u => u.setS o.dst (BitVec.ofNat 64 s.tally.stable)

def execTalSub (o : Insn) (s : State) : Host.Outcome State Fault Refusal :=
  scalar Form.talSub o s fun _ u => u.setS o.dst (BitVec.ofNat 64 (s.now % 2 ^ 54 * 1024 + s.tally.sub))

/-- A job's deadline beat: all ones where none is set (Table 2.3). -/
def deadlineOf (j : Job) : Nat := if bitOf j.desc.flags 2 then j.desc.deadline else 2 ^ 64 - 1

/-- WAITB (R54): the predicate is a function of the beat named and the deadline alone. A wait is an entry of the event engine (R409). -/
def execTalWaitb (o : Insn) (s : State) : Host.Outcome State Fault Refusal :=
  issue Form.talWaitb o s fun t j => do
    let b := (t.getS o.a).toNat
    let v := decide (b ≤ deadlineOf j)
    let until_ := min b (deadlineOf j)
    if until_ ≤ (← get).now then upd fun s => s.modStrand o.strand fun u => u.setP o.dst v
    else if !(← get).eventRoom then throw .hold
    else upd fun s => s.modStrand o.strand fun u => { u with wait := .waitb until_ o.dst v, since := s.now }

/-- The beat that a strand waits for arrives. -/
def execWaitbRelease (strand : Nat) (s : State) : Host.Outcome State Fault Refusal :=
  .next (match s.strand? strand with
    | none => s
    | some t =>
      match t.wait with
      | .waitb b p v => if b ≤ s.now then (s.modStrand strand fun u => { u.setP p v with wait := .no }).fired 1 else s
      | _ => s)

/-! ## SYN (Table 2.6) -/

/-- Whether an instruction in flight holds back a WFENCE. -/
def Inflight.isWinze (f : Inflight) : Bool := f.cls == 8

/-- Whether an instruction in flight holds back a CFENCE: a CAR store, atomic or invalidation. -/
def Inflight.isFabric (f : Inflight) : Bool := f.cls == 11 && [1, 3, 4, 5, 6].contains f.func

/-- Whether a strand's scalar stores still wait behind the interlock. -/
def State.storesHeld (s : State) (strand : Nat) : Bool := s.wnz.held.any (·.whose == .store strand)

/-- Whether what a strand waits for has happened: at a fence, or at an index instruction for its snapshot (R201). At a barrier its own scalar
stores, which it sees already, have to be visible to the other strands too (Table 2.6). -/
def State.fenceDone (s : State) (t : Strand) : Bool :=
  match t.wait with
  | .fence => t.inflight.isEmpty
  | .ending => t.inflight.isEmpty
  | .barFence _ => t.inflight.isEmpty && !s.storesHeld t.id
  | .wfence => !t.inflight.any Inflight.isWinze
  | .cfence => !t.inflight.any Inflight.isFabric
  | .snapshot _ _ _ => decide ((t.getS 62).toNat ≤ s.tally.stable)
  | _ => false

/-- The barrier released when all S strands of the job wait at it (R52). -/
def State.tryBarrier (s : State) (job idx : Nat) : State :=
  let at_ := s.fil.strands.filter fun t => t.job == job && t.wait == .bar idx && !t.ended
  match s.job? job with
  | none => s
  | some j =>
    if at_.length = j.count then
      { s with fil := { s.fil with
          strands := updWhere (fun t => t.job == job) (fun t => { t with wait := .no }) s.fil.strands } }
    else s

/-- A strand goes on past a fence whose condition holds, or arrives at its barrier, or ends. -/
def State.passFence (s : State) (t : Strand) : State :=
  match t.wait with
  | .ending => s.endStrand t.id
  | .barFence i => (s.modStrand t.id fun u => { u with wait := .bar i }).tryBarrier t.job i
  | _ => s.modStrand t.id fun u => { u with wait := .no }

/-- A fence: the strand waits unless its condition holds already. -/
def fenceWith (f : Form) (w : Wait) (o : Insn) (s : State) : Host.Outcome State Fault Refusal :=
  issue f o s fun t _ =>
    upd fun s =>
      let u := { t with wait := w }
      let s := s.modStrand o.strand fun v => { v with wait := w, since := s.now }
      if s.fenceDone u then s.passFence u else s

def execSynFence (o : Insn) (s : State) : Host.Outcome State Fault Refusal := fenceWith Form.synFence .fence o s
def execSynWfence (o : Insn) (s : State) : Host.Outcome State Fault Refusal := fenceWith Form.synWfence .wfence o s
def execSynCfence (o : Insn) (s : State) : Host.Outcome State Fault Refusal := fenceWith Form.synCfence .cfence o s

/-- BAR (R52): the fence first, then the barrier. -/
def execSynBar (o : Insn) (s : State) : Host.Outcome State Fault Refusal :=
  fenceWith Form.synBar (.barFence (o.fld 0 4)) o s

/-- A fence's condition comes to hold. -/
def execFenceRelease (strand : Nat) (s : State) : Host.Outcome State Fault Refusal :=
  .next (match s.strand? strand with
    | none => s
    | some t =>
      match t.wait with
      | .snapshot _ _ _ => s
      | _ => if s.fenceDone t then s.passFence t else s)

/-- The instruction that a strand waits at: class, function and word index. -/
def Strand.waitsAt (t : Strand) : Option (Nat × Nat × Nat) :=
  match t.wait with
  | .fence => some (14, 0, t.pc - 1)
  | .wfence => some (14, 1, t.pc - 1)
  | .cfence => some (14, 2, t.pc - 1)
  | .barFence _ => some (14, 3, t.pc - 1)
  | .bar _ => some (14, 3, t.pc - 1)
  | .ending => some (0, 5, t.pc - 1)
  | .snapshot c f _ => some (c, f, t.pc)
  | _ => none

/-- ACT_CTRL.FENCE_LIMIT of a job's act has passed since a beat; 0 disables the limit. -/
def State.limitPassed (s : State) (j : Job) (since : Nat) : Bool :=
  let l := s.rd (F.actCtrl_fenceLimit j.act)
  l != 0 && decide (since + l ≤ s.now)

/-- A fence, a barrier, or a wait for a snapshot that lasts too long (R53, R201). -/
def execFenceTimeout (strand : Nat) (s : State) : Host.Outcome State Fault Refusal :=
  .next (match s.strand? strand with
    | none => s
    | some t =>
      match s.job? t.job, t.waitsAt with
      | some j, some (c, f, pc) =>
        if s.limitPassed j t.since && !s.fenceDone t then s.strandFault strand c f pc cFence 0 else s
      | _, _ => s)

/-! ## Ordered reductions (R91, R92) -/

/-- The open slot of a job for one of the two classes. -/
def State.ored? (s : State) (job : Nat) (hew : Bool) (slot : Nat) : Option Ored :=
  s.fil.oreds.find? fun r => r.job == job && r.hew == hew && r.slot == slot

/-- A contribution checked and added to its slot; the slot as it is then. One whose OP differs faults with TILE (log 143). -/
def contribute (job : Nat) (hew : Bool) (slot n op fmt shape : Nat) (c : Contrib) : M Ored := do
  let s ← get
  let r := (s.ored? job hew slot).getD ⟨job, hew, slot, n, op, fmt, shape, s.now, []⟩
  need (decide (c.idx < n)) cTile
  need (r.n == n) cTile
  need (r.op == op && r.fmt == fmt && r.shape == shape) cTile
  need (!(r.contribs.any (·.idx == c.idx))) cTile
  let r := { r with contribs := r.contribs ++ [c] }
  upd fun s => { s with fil := { s.fil with
    oreds := r :: s.fil.oreds.filter fun q => !(q.job == job && q.hew == hew && q.slot == slot) } }
  pure r

/-- The contributions of a slot in work-index order. -/
def Ored.ordered (r : Ored) : List (List Nat) :=
  (sortBy (fun (a b : Contrib) => decide (a.idx < b.idx)) r.contribs).map (·.vals)

/-- The combination of two scalars by OP. -/
def oredOp (op a b : Nat) : Nat :=
  match op with
  | 0 => (a + b) % 2 ^ 64
  | 1 => fadd (a % 2 ^ 32) (b % 2 ^ 32)
  | 2 => min a b
  | _ => max a b

/-- The result of a complete scalar slot. -/
def Ored.scalarResult (r : Ored) : Nat := treeReduce (oredOp r.op) 0 (r.ordered.map fun v => v.headD 0)

/-- SYN.ORED: the strand waits until all N contributions have arrived; the last one completes every contributor. -/
def execSynOred (o : Insn) (s : State) : Host.Outcome State Fault Refusal :=
  issue Form.synOred o s fun t j => do
    let e := (o.ext.getD 0 0#64).toNat
    let slot := bits e 16 4
    let r ← contribute j.id false slot (bits e 0 16) (bits e 20 2) 0 0
      ⟨(t.getS o.b).toNat, [(t.getS o.a).toNat], t.id, o.dst⟩
    upd fun s => s.modStrand o.strand fun u => { u with wait := .ored slot o.dst, since := s.now }
    if r.contribs.length = r.n then
      let v := BitVec.ofNat 64 r.scalarResult
      upd fun s => r.contribs.foldl (fun s c =>
        s.modStrand c.strand fun u => { u.setS c.tag v with wait := .no }) s
      upd fun s => { s with fil := { s.fil with
        oreds := s.fil.oreds.filter fun q => !(q.job == j.id && q.hew == false && q.slot == slot) } }

/-- A slot that is not complete after FENCE_LIMIT beats: the strand of its first contribution faults. -/
def execOredSlotTimeout (job : Nat) (hew : Bool) (slot : Nat) (s : State) : Host.Outcome State Fault Refusal :=
  .next (match s.ored? job hew slot, s.job? job with
    | some r, some j =>
      match r.contribs with
      | [] => s
      | c :: _ =>
        if r.contribs.length = r.n ∨ !s.limitPassed j r.since then s else
        match s.anyStrand? c.strand with
        | none => s
        | some t =>
          if hew then
            let pc := ((t.flight? c.tag).map (·.pc)).getD 0
            s.strandFault c.strand 3 5 pc cFence 0
          else s.strandFault c.strand 14 4 (t.pc - 2) cFence 0
    | _, _ => s)

end Sys2Proof.Machine
end

