-- ==== Sys2Proof/Machine/Mov.lean ====
section
/-! DEFINITION. The tile instructions of the MOV class (R89, R207), the end of an expansion (R158), the deletion of a dropped tile,
and the flip and release of tier moves (R291, R294, R295). -/
namespace Sys2Proof.Machine

/-! ## Descriptor ranges -/

/-- R82 for the instructions that want base and length as multiples of 64. -/
def aligned64 (d : Dsc) (off : Nat) : M Unit :=
  need (decide ((d.base + off) % 64 = 0 ∧ d.len % 64 = 0)) cAlign (d.base + off)

/-- The checks of a range of a node-space descriptor after DESCRIPTOR (R84): alignment, then mapping and rights. -/
def block64 (j : Job) (r : Right) (d : Dsc) (off n : Nat) : M Unit := do
  aligned64 d off
  checkAccess j ((← get).isPriv j) r (d.base + off) n

/-! ## LIST tiles (R203 to R207) -/

/-- One 24-byte slot of a list. -/
structure Entry where
  dist : Nat
  stamp : Nat
  node : Nat
  flags : Nat
  id : Nat
  loc : Nat
deriving DecidableEq, Repr

/-- The sentinel slot of a kind. -/
def sentinel (kind : Nat) : Entry := ⟨if kind = 0 then 0xFFFFFFFF else 0x7F800000, 0, 0, 0, 2 ^ 64 - 1, 0⟩

/-- A slot's bytes (Table 7.1). -/
def Entry.bytes (e : Entry) : List Byte :=
  leBytes e.dist 4 ++ leBytes e.stamp 2 ++ leBytes e.node 1 ++ leBytes e.flags 1 ++ leBytes e.id 8 ++ leBytes e.loc 8

/-- The slot at byte `o`. -/
def entryAt (b : List Byte) (o : Nat) : Entry :=
  let l := slice b o 24
  ⟨leAt l 0 4, leAt l 4 2, leAt l 6 1, leAt l 7 1, leAt l 8 8, leAt l 16 8⟩

/-- The order of R100 in a list of a kind. -/
def Entry.before (kind : Nat) (a b : Entry) : Bool :=
  let lt := if kind = 0 then decide (a.dist < b.dist) else flt a.dist b.dist
  let eq := if kind = 0 then a.dist == b.dist else feq a.dist b.dist
  lt || (eq && decide (a.id < b.id))

/-- The empty accumulator of R223. -/
def Acc320.zero : Acc320 := ⟨0, false, false, false, true, 0⟩

/-- The bytes of a list of lanes at a stride: whole pages, with sentinel slots behind every lane and at the end (R204). -/
def listPages (kind stride : Nat) (lanes : List (List Entry)) : List Byte :=
  let sent := (sentinel kind).bytes
  let body := lanes.flatMap fun l => (padTo sent stride (l.map Entry.bytes)).flatten
  let total := ceilDiv body.length 4096 * 4096
  (body ++ (List.replicate (ceilDiv (total - body.length) 24) sent).flatten).take total

/-- A LIST tile from its lanes: entries, OVERFLOW, CUT, LEFT, and the commit beats that scan output carries. -/
def listTile (kind stride : Nat) (lanes : List (List Entry)) (flags : List (Bool × Bool × Acc320))
    (beats : Option (List (List (Option Nat)))) : TileVal :=
  let dirs := (lanes.zip flags).map fun e => ⟨e.1.length, e.2.1, e.2.2.1, e.2.2.2⟩
  ⟨8, 0, listPages kind stride lanes, one32, 0, 0, [], some ⟨kind, stride, dirs, beats⟩⟩

/-- The entries of a lane. -/
def laneEntries (v : TileVal) (l : ListInfo) (i : Nat) : List Entry :=
  (List.range ((l.dirs.getD i ⟨0, false, false, Acc320.zero⟩).count)).map fun k => entryAt v.data ((i * l.stride + k) * 24)

/-- One lane read from memory (R207): the entries before the first sentinel slot, or nothing where the lane is malformed. -/
def readLane (kind : Nat) (slots : List Entry) : Option (List Entry) :=
  let e := slots.takeWhile (· != sentinel kind)
  let rest := slots.drop e.length
  let ordered := (e.zip (e.drop 1)).all fun p => !p.2.before kind p.1
  if rest.all (· == sentinel kind) && e.all (fun x => decide (x.id < 2 ^ 63 ∧ x.flags < 8)) && ordered then some e else none

/-- The stride of the list that MOV.TLOADM makes of `len` bytes. -/
def listStride (o : Insn) (len : Nat) : Nat := if o.fld 8 13 = 0 then len / 24 / (o.fld 4 3 + 1) else o.fld 8 13

/-- Whether a length, lanes and stride are such as R207 takes. -/
def listFits (o : Insn) (len : Nat) : Bool :=
  decide (len % 4096 = 0 ∧ 4096 ≤ len ∧ len ≤ 2 ^ 20 ∧ listStride o len ≤ 4351 ∧ (o.fld 4 3 + 1) * listStride o len * 24 ≤ len)

/-- The LIST tile that MOV.TLOADM makes of `len` bytes. -/
def loadList (o : Insn) (len : Nat) (b : List Byte) : Option TileVal :=
  let kind := o.fld 7 1
  let lanes := o.fld 4 3 + 1
  let stride := listStride o len
  match (List.range lanes).mapM fun i =>
      readLane kind ((List.range stride).map fun k => entryAt b ((i * stride + k) * 24)) with
  | none => none
  | some ls => some (listTile kind stride ls (ls.map fun _ => (false, false, Acc320.zero)) none)

/-! ## The instructions -/

/-- The persistent tile of an act by its name. -/
def State.tileNamed (s : State) (act name : Nat) : Option Tile :=
  s.fil.tiles.find? fun t => t.act == act && t.names.contains name && !t.dropping

/-- An expansion for a handle that opens a packed tile with AT_LOAD at 1 (R158, R298): the tile's own, or a new one where it finds
space. -/
def State.openExpansion (s : State) (t : Tile) (strand reg job crew : Nat) : State :=
  let withHandle (s : State) : State :=
    { s with fil := { s.fil with
        expansions := updWhere (·.tile == t.id) (fun e => { e with handles := e.handles ++ [(strand, reg)] }) s.fil.expansions } }
  match s.fil.expansions.find? (·.tile == t.id) with
  | some e => if e.home.isSome then withHandle s else
      let s := withHandle s
      let (a, s) := s.place t.act crew 4096 (.expansion t.id)
      { s with fil := { s.fil with
          expansions := updWhere (·.tile == t.id) (fun e => { e with home := a }) s.fil.expansions } }
  | none =>
    let (a, s) := s.place t.act crew 4096 (.expansion t.id)
    { s with fil := { s.fil with expansions := s.fil.expansions ++ [⟨t.id, job, [(strand, reg)], false, a⟩] } }

/-- TOPEN: TILE where sA names no tile of the act. -/
def execMovTopen (o : Insn) (s : State) : Host.Outcome State Fault Refusal :=
  engine Form.movTopen o s [] [] fun t j => do
    let v ← orFault ((← get).tileNamed j.act (t.getS o.a).toNat) cTile
    upd fun s => s.bindHandle t.id o.dst (some v.id)
    if o.fld 0 1 = 1 ∧ v.packed then upd fun s => (s.openExpansion v t.id o.dst j.id t.crew).tierManage v.act t.crew
    pure []

/-- The shared engine finishes an expansion: checked under Table 5.5 and written to its home. A damaged stream ends every job that
opened it (R157); where the source cannot be corrected the tile is read at use, which faults. -/
def execExpansionComplete (tile : Nat) (s : State) : Host.Outcome State Fault Refusal :=
  .next (match s.fil.expansions.find? (·.tile == tile), s.tile? tile with
    | some e, some v =>
      match e.home, e.done with
      | some a, false =>
        let mark (home : Option Nat) (done : Bool) (s : State) : State :=
          { s with fil := { s.fil with
              expansions := updWhere (·.tile == tile) (fun e => { e with home := home, done := done }) s.fil.expansions } }
        match s.homeVia 1 v.home v.len v.packed with
        | (.inr raw, s) => mark (some a) true (s.writeMem 0 a raw)
        | (.inl none, s) => mark none false (s.freeAt a)
        | (.inl (some c), s) =>
          let s := s.damage c 1 v.act 0
          let jobs := e.handles.filterMap fun h => (s.anyStrand? h.1).map (·.job)
          jobs.foldl (fun s j => s.failJob j 0x40 c) s
      | _, _ => s
    | _, _ => s)

/-- TALLOC: a zeroed tile; FMT 0x8 faults with TILE (R207). -/
def execMovTalloc (o : Insn) (s : State) : Host.Outcome State Fault Refusal :=
  if !o.tileForm then .refused .reservedEncoding else
  tileEngine Form.movTalloc o s [] fun _ _ => do
    need (o.fld 0 4 != 8) cTile
    pure (unitTile (o.fld 0 4) (o.fld 4 4) (zeros 4096))

/-- TLOADM: a tile of the 4 KiB at dA, or a list of dA.LENGTH bytes. -/
def execMovTloadm (o : Insn) (s : State) : Host.Outcome State Fault Refusal :=
  if !o.tileForm then .refused .reservedEncoding else
  tileEngine Form.movTloadm o s [] fun t j => do
    let list := o.fld 0 4 == 8
    let len := (decodeDsc (t.getD o.a)).len
    if list then need (listFits o len) cTile
    let d ← useDsc (t.getD o.a) [0] false
    let n := if list then len else 4096
    within d 0 n
    block64 j .read d 0 n
    let b ← readOrd d.base n
    if list then orFault (loadList o len b) cTile
    else pure (unitTile (o.fld 0 4) (o.fld 4 4) b)

/-- TSTORE: 4 KiB of raw contents, or for a list the next page (R207). -/
def execMovTstore (o : Insn) (s : State) : Host.Outcome State Fault Refusal :=
  engine Form.movTstore o s [] [] fun t j => do
    let v ← tileAt t o.a
    let page := if v.info.isSome then kvGet 0 t.stored o.a else 0
    need (decide (page * 4096 < (if v.info.isSome then v.len else 4096))) cTile
    let d ← useDsc (t.getD o.dst) [0] true
    within d 0 4096
    block64 j .write d 0 4096
    let w ← useTile t j o.a v
    if v.info.isSome then
      upd fun s => s.modStrand t.id fun u => { u with stored := kvSet 0 u.stored o.a (page + 1) }
    pure [.mem 0 d.base (slice w.data (page * 4096) 4096)]

/-- The name for a tile that an act saves: the lowest that is free, with bit 47 clear (R160). -/
def State.freshName (s : State) (act : Nat) : Nat :=
  let used := (s.fil.tiles.filter (·.act == act)).flatMap (·.names)
  firstUnused (fun n => used.contains n) 1 (used.length + 1)

/-- The name that TSAVE answers for a tile: the one it was saved under, or a fresh one, never an imported one (R160). -/
def State.savedName (s : State) (v : Tile) : Nat := (v.names.find? (!bitOf · 47)).getD (s.freshName v.act)

/-- The names of a tile with one more. -/
def Tile.withName (v : Tile) (name : Nat) : Tile := if v.names.contains name then v else { v with names := v.names ++ [name] }

/-- TSAVE: the tile becomes persistent, and with PACK it is homed in the pool at once (R296). An imported tile keeps its name beside the
new one, and a tile that a TDROP waits to delete stays one (DESIGN CHOICE, logs 144 and 145). -/
def execMovTsave (o : Insn) (s : State) : Host.Outcome State Fault Refusal :=
  engine Form.movTsave o s [] [] fun t j => do
    let v ← tileAt t o.a
    let name := (← get).savedName v
    let move ← if o.fld 0 1 = 1 then do
        let w ← quotaFirst j.act t.crew 4096 (useTile t j o.a v)
        let op := (← get).nextId
        match ← updGet fun s => s.fresh.homed v.id j.act t.crew w true (.move op) with
        | some n => pure [.tile { n with crc := v.crc }]
        | none => throw (.fault cQuota 0)
      else pure []
    upd fun s => s.modTile v.id fun u => u.withName name
    pure (move ++ [.setS o.dst (BitVec.ofNat 64 name)])

/-- TFREE: the handle becomes invalid; a persistent tile remains. -/
def execMovTfree (o : Insn) (s : State) : Host.Outcome State Fault Refusal :=
  engine Form.movTfree o s [] [.t o.a] fun _ _ => pure [.dropT o.a]

/-- TDROP: the name goes, and the tile is deleted once its expansion and every handle have ended (R158). -/
def execMovTdrop (o : Insn) (s : State) : Host.Outcome State Fault Refusal :=
  engine Form.movTdrop o s [] [] fun t j => do
    let v ← orFault ((← get).tileNamed j.act (t.getS o.a).toNat) cTile
    upd fun s => s.modTile v.id fun u => { u with dropping := true }
    pure []

/-- A dropped tile is deleted when no handle and no expansion of it is left. -/
def execTileDelete (tile : Nat) (s : State) : Host.Outcome State Fault Refusal :=
  .next (match s.tile? tile with
    | some t =>
      if t.dropping && !s.named tile && !(s.fil.expansions.any (·.tile == tile)) then s.removeTile tile else s
    | none => s)

/-- TPLACE: a preference that changes no value. -/
def execMovTplace (o : Insn) (s : State) : Host.Outcome State Fault Refusal :=
  engine Form.movTplace o s [] [] fun t _ => do
    let v ← tileAt t o.a
    upd fun s => s.modTile v.id fun u => { u with pref := o.fld 0 2 }
    pure []

/-! ## The ends of moves -/

/-- The flip of a move (R294 steps 3 and 4): the target is read back and checked, and then the home changes in one step; a failed
check abandons the move. -/
def execTierMoveFlip (id : Nat) (s : State) : Host.Outcome State Fault Refusal :=
  .next (match s.fil.moves.find? (fun m => m.id == id && !m.flipped) with
    | none => s
    | some m =>
      match s.tile? m.tile with
      | none => s
      | some t =>
        match s.homeRaw 3 m.target m.len m.packed with
        | (.inl _, s) => s.abandonMove m
        | (.inr raw, s) =>
          if (t.val raw).crc != t.crc then s.abandonMove m else
          let s := (s.rekind t.home (.old id)).rekind m.target (.tile t.id)
          let s := s.modTile t.id fun u => { u with home := m.target, len := m.len, packed := m.packed }
          State.count { s with fil := { s.fil with
              moves := updWhere (·.id == id) (fun m => { m with flipped := true }) s.fil.moves } } 0x704 1)

/-- The source of a flipped move released and uncharged once every read that began before the flip has completed (R294 step 5). -/
def execTierSourceRelease (id : Nat) (s : State) : Host.Outcome State Fault Refusal :=
  .next (
    let s := s.dropAlloc fun k => k == .old id
    { s with fil := { s.fil with moves := s.fil.moves.filter fun m => !(m.id == id && m.flipped) } })

/-- The home of old contents released once every read that began before the write has completed (R291). -/
def execTileHomeRelease (id : Nat) (s : State) : Host.Outcome State Fault Refusal :=
  .next (if s.fil.moves.any (·.id == id) then s else s.dropAlloc fun k => k == .old id)

end Sys2Proof.Machine
end

