-- ==== Sys2Proof/Machine/Adit.lean ====
section
/-! DEFINITION. The Adit flash subsystem (chapter 11): segments and the loader's flash control (R317 to R321), pages and their tags
(R322 to R328), the SLC buffer and folding (R331, R332), failures (R333, R334), the journal, power loss and recovery (R335 to
R339). -/
namespace Sys2Proof.Machine

/-! ## The loader's calls (R26) -/

/-- A value of a job's INLINE field, as s1 to s8 take it. -/
def Desc.arg (d : Desc) (n : Nat) : Nat := leAt d.inline (8 * (n - 1)) 8

/-- The end of a loader call: its status, DETAIL and RESULT, and the bytes of its result area. A call that a reset has ended stays as it is. -/
def State.endLoader (s : State) (job status detail result : Nat) (ret : List Byte) : State :=
  s.modJob job fun j =>
    if j.phase != .loader then j else
    { j with phase := .running, status := status, detail := detail, result := result, ret := ret }

/-- A job that stands at a loader call of an operation. -/
def State.loaderCall (s : State) (job op : Nat) : Option Job :=
  match s.job? job with
  | some j => if j.phase == .loader && j.desc.routine == 0 && j.desc.arg 1 == op then some j else none
  | none => none

/-! ## Sizes and places -/

/-- The bytes of a logical page, and the pages of a segment. -/
def pageBytes : Nat := 16384
def segPages : Nat := 65536

/-- A flash change. -/
def State.modFlash (s : State) (f : FlashSt → FlashSt) : State := { s with flash := f s.flash }

/-- The dies of a card. -/
def FlashSt.dieCount (f : FlashSt) : Nat := (f.card.dies.map (popcount · 16)).sum

/-- Raw capacity R in bytes. -/
def FlashSt.raw (f : FlashSt) : Nat := f.dieCount * f.card.blocks * f.card.blockBytes

/-- Whether a die is present and not retired. -/
def FlashSt.inUse (f : FlashSt) (chan die : Nat) : Bool :=
  (f.card.dies.getD chan 0).testBit die && !f.retDies.contains (chan, die)

/-- The channels that have a block in service for a stripe number. A stripe takes the same die number on every channel. -/
def FlashSt.liveChans (f : FlashSt) (num : Nat) : List Nat :=
  (List.range 32).filter fun c => f.inUse c (num % 16) && !f.badBlocks.contains (c, num)

/-- The channel of a stripe's parity block, which moves from stripe to stripe; a stripe of one block has none. -/
def Stripe.parityChan (x : Stripe) : Option Nat :=
  if x.chans.length ≤ 1 then none else x.chans[x.num % x.chans.length]?

/-- The channels of a stripe's data blocks. -/
def Stripe.dataChans (x : Stripe) : List Nat :=
  match x.parityChan with
  | some c => x.chans.filter (· != c)
  | none => x.chans

/-- Data slot `i` of a stripe: slots go in order of page offset, then channel. -/
def Stripe.place (x : Stripe) (i : Nat) : Place :=
  let k := x.dataChans.length
  ⟨x.dataChans.getD (i % k) 0, x.num % 16, x.num, i / k⟩

/-- The data slots of a stripe. An SLC block holds a quarter of what a QLC block holds. -/
def FlashSt.slotsOf (f : FlashSt) (x : Stripe) : Nat :=
  x.dataChans.length * (if x.slc then f.card.blockPages / 4 else f.card.blockPages)

/-- The stripe that has consecutive slots left for a program: one whose allocation a completed flush has recorded (R325, R335). -/
def FlashSt.slots? (f : FlashSt) (slc : Bool) (n : Nat) : Option Stripe :=
  f.stripes.find? fun x => x.ready && x.slc == slc && decide (x.next + n ≤ f.slotsOf x)

/-- Consecutive data slots taken: the stripe, whose `next` is the first of them. -/
def State.takeSlots (s : State) (slc : Bool) (n : Nat) : Option (Stripe × State) :=
  (s.flash.slots? slc n).map fun x =>
    (x, s.modFlash fun f => { f with stripes := updWhere (·.num == x.num) (fun y => { y with next := y.next + n }) f.stripes })

/-- A data slot taken for one page. -/
def State.takeSlot (s : State) (slc : Bool) : Option (Place × State) :=
  (s.takeSlots slc 1).map fun e => (e.1.place e.1.next, e.2)

/-- Stripes that get no more pages, since one of their blocks is out of service. -/
def FlashSt.close (f : FlashSt) (p : Stripe → Bool) : FlashSt :=
  { f with stripes := updWhere p (fun x => { x with next := f.slotsOf x }) f.stripes }

/-- The XOR of two pages. -/
def xorBytes : List Byte → List Byte → List Byte
  | [], b => b
  | a, [] => a
  | x :: a, y :: b => (x ^^^ y) :: xorBytes a b

/-- A page programmed, and counted; with the last data page of its offset, the stripe's parity page too (R333). -/
def State.programmed (s : State) (p : Place) (d : List Byte) : State :=
  match s.flash.stripes.find? (·.num == p.stripe) with
  | none => s.count 0x803 1
  | some x =>
    let here (r : Parity) : Bool := r.stripe == p.stripe && r.off == p.off
    let old := (s.flash.parity.find? here).getD ⟨p.stripe, p.off, [], []⟩
    let r := { old with chans := old.chans ++ [p.chan], data := xorBytes old.data d }
    (s.modFlash fun f => { f with parity := f.parity.filter (!here ·) ++ [r] }).count 0x803
      (if r.chans.length = x.dataChans.length ∧ x.parityChan.isSome then 2 else 1)

/-! ## Page transfers (R381 to R384) -/

/-- A page transfer on its flash channel, named by the write sequence and what it is for: 0 a program, 1 a fold, 2 another copy, 3 a read. -/
def State.transfer (s : State) (read : Bool) (p : Place) (act cls wseq what : Nat) (due : Option Nat) : State :=
  s.enqueue (10 + p.chan) act cls due pageBytes (some (.flash read p.chan (wseq * 4 + what)))

/-- Whether a page transfer towards the cells has not left its queue. -/
def State.inTransfer (s : State) (wseq what : Nat) : Bool :=
  (s.rgm.units ++ s.rgm.waiting).any fun u => u.out == some (.flash false (u.chan - 10) (wseq * 4 + what))

/-- The transfers of folds that satisfy a test fall due (Table 13.3). -/
def State.makeDue (s : State) (p : Nat → Bool) : State :=
  let f (u : Unit_) : Unit_ :=
    match u.out, u.due with
    | some (.flash _ _ k), none => if k % 4 = 1 ∧ p (k / 4) then { u with due := some s.now } else u
    | _, _ => u
  s.modRgm fun r => { r with units := r.units.map f, waiting := r.waiting.map f }

/-- The tag of a flash page (Table 11.5). -/
def pageTag (page act kind wseq gen : Nat) (data : List Byte) : List Byte :=
  let head := leBytes page 8 ++ leBytes (page / segPages) 4 ++ leBytes act 1 ++ leBytes kind 1 ++ zeros 2
    ++ leBytes wseq 8 ++ leBytes gen 4 ++ leBytes (crc32c data) 4 ++ zeros 28
  head ++ leBytes (crc32c head) 4

/-- The tag of a data page or a copy. -/
def FPage.tag (p : FPage) : List Byte := pageTag p.page p.act p.kind p.wseq p.gen (p.data.getD [])

/-- The tag of a page of the node's own: the spec gives its KIND and its CRCs, and no other field. -/
def nodeTag (kind m n : Nat) (data : List Byte) : List Byte :=
  let v := Config.nodeTag kind m n
  pageTag (v 0 % 2 ^ 36) (v 12 % 16) kind (v 16 % 2 ^ 64) (v 24 % 2 ^ 32) data

/-- The tag of a parity page. -/
def Parity.tag (p : Parity) : List Byte := nodeTag 3 p.stripe p.off p.data

/-- The tag of page `n` of a journal flush. -/
def journalTag (flush n : Nat) (data : List Byte) : List Byte := nodeTag 1 flush n data

/-- The bytes of journal records (R335). -/
def journalBytes (l : List JRec) : Nat :=
  (l.map fun r => Config.journalBytes (match r with
    | .discard .. => 0 | .seg .. => 1 | .page .. => 2 | .flip .. => 3 | .alloc .. => 4 | .entry .. => 5)).sum

/-- A journal record. -/
def State.journal (s : State) (r : JRec) : State := s.modFlash fun f => { f with jbuf := f.jbuf ++ [r] }

/-! ## Capacities (R321, R331, R334) -/

/-- ADT_LOGICAL_GIB. -/
def FlashSt.logicalGib (f : FlashSt) : Nat := (f.raw * 31000 - f.raw * f.permille * 32) / (32000 * 2 ^ 30)

/-- Data bytes that the SLC buffer holds, writes on their way to it included. -/
def FlashSt.slcUsed (f : FlashSt) : Nat :=
  pageBytes * ((f.pages.filter fun p => p.slc && p.data.isSome).length + (f.writes.filter fun w => w.slc && w.started).length)

/-- The over-provisioning reserve that is left: retired dies take from it. -/
def FlashSt.reserve (f : FlashSt) : Nat :=
  f.raw * f.permille / 1000 - f.retDies.length * f.card.blocks * f.card.blockBytes - f.badBlocks.length * f.card.blockBytes

/-- The blocks that hold valid data, by channel and stripe: those of mapped pages, of writes on their way, and of whole runs, which keep
their storage until all their pages are discarded (R326). -/
def FlashSt.validBlocks (f : FlashSt) : List (Nat × Nat) :=
  let pages := f.pages.filterMap fun p => if p.data.isSome then some (p.place.chan, p.place.stripe) else none
  let writes := f.writes.filterMap fun w => if w.started then some (w.place.chan, w.place.stripe) else none
  let runs := f.maps.flatMap fun m => m.runs.flatMap fun r =>
    match f.stripes.find? (·.num == r.stripe) with
    | some x => x.dataChans.map fun c => (c, x.num)
    | none => []
  (pages ++ writes ++ runs).eraseDups

/-- F of R331: QLC data capacity of blocks without valid data, less the over-provisioning reserve. -/
def FlashSt.freeQlc (f : FlashSt) : Nat :=
  f.raw * 31 / 32 - f.raw * f.permille / 1000 - f.validBlocks.length * f.card.blockBytes

/-- C of R331. -/
def FlashSt.slcCap (f : FlashSt) : Nat := min (f.raw / 25) (max (f.raw / 400) (f.freeQlc / 4))

/-- Free space and reserve below 0.5% of raw (R334). -/
def FlashSt.readOnly (f : FlashSt) : Bool := f.formatted && decide ((f.freeQlc + f.reserve) * 200 < f.raw)

/-- How often the blocks of a stripe have been erased, and the highest count of any. -/
def FlashSt.erased (f : FlashSt) (num : Nat) : Nat := f.eraseBase + kvGet 0 f.wear num
def FlashSt.maxPe (f : FlashSt) : Nat := f.eraseBase + (f.wear.map (·.2)).foldl max 0

/-- Whether hold-up is short (R336). -/
def State.short (s : State) : Bool := s.flash.pinShort || s.on F.adtCtrl_forceShort

/-- The ADT registers that show the flash state (Table 11.7). C is recomputed where the rules say so, and not here. -/
def State.adtRefresh (s : State) : State :=
  let f := s.flash
  let short := s.short
  let s := s.modFlash fun f => { f with shortSince := f.shortSince || short }
  let s := (s.wr F.adtStatus_formatted (b2n f.formatted)).wr F.adtStatus_short (b2n short)
  let s := if short then s.wr F.adtStatus_shortSeen 1 else s
  let s := s.wr F.adtStatus_slcFull (b2n (f.formatted && decide (f.cap ≤ f.slcUsed)))
  let s := s.wr F.adtStatus_recovering (b2n f.recover.isSome)
  let s := (s.wr F.adtStatus_rebuilding (b2n (!f.rebuild.isEmpty))).wr F.adtStatus_readOnly (b2n f.readOnly)
  let opens := f.maps.filter (!·.sealed)
  let s := s.wr F.adtStatus_open opens.length
  let s := s.wr F.adtChanPresent_map ((f.card.dies.zipIdx.map fun e => if e.1 = 0 then 0 else 2 ^ e.2).sum)
  let s := (s.wr F.adtGeom_diesMax ((f.card.dies.map (popcount · 16)).foldl max 0)).wr F.adtGeom_planes f.card.planes
  let s := (s.wr F.adtGeom_rate f.card.rate).wr F.adtRawGb_gb (f.raw / 10 ^ 9)
  let s := (s.wr F.adtLogicalGib_gib f.logicalGib).wr F.adtBoundGib_gib f.maps.length
  let s := (s.wr F.adtSlcUsedMib_mib (f.slcUsed / 2 ^ 20)).wr F.adtOp_permille f.permille
  let s := s.wr64 F.adtWseqLo_wseq F.adtWseqHi_wseq f.wseq
  let s := (s.wr F.adtWear_maxPe (min f.maxPe 65535)).wr F.adtWear_ratedPe f.card.rated
  let s := (s.wr F.adtRetired_blocks (min f.retBlocks 65535)).wr F.adtRetired_dies f.retSince
  let s := (List.range 16).foldl (fun s a =>
    let own := f.maps.filter (·.act == a)
    let s := s.wr (F.adtActSeg_open a) (own.filter (!·.sealed)).length
    (s.wr (F.adtActSeg_attached a) (b2n (f.attached.contains a))).wr (F.adtActBound_segs a) own.length) s
  (List.range 32).foldl (fun s c =>
    (s.wr (F.adtChStatus_dies c) (f.card.dies.getD c 0)).wr (F.adtChStatus_retired c)
      ((f.retDies.filter (·.1 == c)).map fun d => 2 ^ d.2).sum) s

/-- C recomputed and shown. -/
def State.slcRecompute (s : State) : State :=
  let s := s.modFlash fun f => { f with cap := f.slcCap }
  (s.wr F.adtSlcCapMib_mib (s.flash.cap / 2 ^ 20)).adtRefresh

/-- A flash event logged when ADT_ERR is free (R342). -/
def State.logAdt (s : State) (kind chan die act : Nat) : State :=
  if s.on F.adtErr_valid then s else
  let s := ((s.wr F.adtErr_valid 1).wr F.adtErr_channel chan).wr F.adtErr_die die
  (s.wr F.adtErr_kind kind).wr F.adtErr_act act

/-! ## Maps and pages -/

/-- The map of an act's page. -/
def FlashSt.mapOf (f : FlashSt) (act page : Nat) : Option SegMap :=
  f.maps.find? fun m => m.act == act && m.lseg == page / segPages

/-- Whether an access of an act reaches a page (R320, R327): the act and the map are attached, and a sealed segment is accepted. -/
def FlashSt.accepts (f : FlashSt) (act page : Nat) (sealedOk : Bool) : Bool :=
  f.attached.contains act && match f.mapOf act page with
    | some m => m.bound && (sealedOk || !m.sealed)
    | none => false

/-- The same of every segment that a run of pages touches. -/
def FlashSt.acceptsAll (f : FlashSt) (act page n : Nat) (sealedOk : Bool) : Bool :=
  (List.range ((page + n - 1) / segPages - page / segPages + 1)).all fun i =>
    f.accepts act ((page / segPages + i) * segPages) sealedOk

/-- The programmed contents or discard of a page. -/
def FlashSt.page? (f : FlashSt) (act page : Nat) : Option FPage := f.pages.find? fun p => p.act == act && p.page == page

/-- The latest write of a page that is not yet durable. -/
def FlashSt.buffered (f : FlashSt) (act page : Nat) : Option FWrite :=
  (f.writes.filter fun w => w.act == act && w.page == page && f.maps.any (·.id == w.map)).foldl
    (fun b w => match b with
      | some x => if x.wseq < w.wseq then some w else b
      | none => some w) none

/-- The contents of a page, replaced; the copy before stays in its block. -/
def FlashSt.putPage (f : FlashSt) (p : FPage) : FlashSt :=
  let same (q : FPage) : Bool := q.act == p.act && q.page == p.page
  { f with pages := p :: f.pages.filter (!same ·), stale := f.pages.filter same ++ f.stale }

/-- The run of a page, with its map. -/
def FlashSt.runOf (f : FlashSt) (act page : Nat) : Option (SegMap × Run) :=
  (f.mapOf act page).bind fun m => (m.runs.find? (·.idx == page / 256)).map fun r => (m, r)

/-- The slot of a page in its run. -/
def FlashSt.runPlace (f : FlashSt) (r : Run) (page : Nat) : Place :=
  match f.stripes.find? (·.num == r.stripe) with
  | some x => x.place (r.first + page % 256)
  | none => ⟨0, 0, r.stripe, 0⟩

/-- Whether a page stands in its run. -/
def FlashSt.inRun (f : FlashSt) (p : FPage) : Bool := (f.runOf p.act p.page).any fun e => f.runPlace e.2 p.page == p.place

/-- The runs of a map changed. -/
def FlashSt.setRuns (f : FlashSt) (id : Nat) (g : List Run → List Run) : FlashSt :=
  { f with maps := updWhere (·.id == id) (fun m => { m with runs := g m.runs }) f.maps }

/-- A new run of a page's map: its slots, and in its discard map the pages that have no contents. -/
def State.newRun (s : State) (m : SegMap) (page : Nat) : Option (Run × State) :=
  (s.takeSlots false 256).map fun e =>
    let idx := page / 256
    let has (k : Nat) : Bool := (s.flash.page? m.act (idx * 256 + k)).any (·.data.isSome)
    let gone := ((List.range 256).map fun k => if has k then 0 else 2 ^ k).sum
    let r : Run := ⟨idx, e.1.num, e.1.next, gone⟩
    (r, e.2.modFlash (·.setRuns m.id fun l => l.filter (·.idx != idx) ++ [r]))

/-- Whether a copy of a page is on its way. -/
def FlashSt.copying (f : FlashSt) (p : FPage) : Bool :=
  f.folds.any fun x => x.act == p.act && x.page == p.page && x.wseq == p.wseq

/-- A copy of a page started towards a place, unless one is on its way: the page is read, and goes to its new place. -/
def State.startCopy (s : State) (p : FPage) (kind : Nat) (pl : Place) (due : Option Nat) : State :=
  if s.flash.copying p then s else
  let s := s.modFlash fun f => { f with folds := f.folds ++ [⟨p.act, p.page, p.wseq, kind, pl⟩] }
  let what := if kind = 0 then 1 else 2
  let s := if kind = 2 then s else s.transfer true p.place p.act 3 p.wseq what due
  s.transfer false pl p.act 3 p.wseq what due

/-- A relocation that waits until a flush has allocated blocks for it. -/
def State.owe (s : State) (p : FPage) (kind : Nat) : State :=
  s.modFlash fun f => { f with owed := f.owed ++ [(p.act, p.page, kind)] }

/-- A page relocated (R332, R334): 1 a relocation, 2 a rebuild. A page in a run takes its whole run along, which goes to other 256
consecutive slots. -/
def State.relocate (s : State) (p : FPage) (kind : Nat) (due : Option Nat) : State :=
  if s.flash.quiet then s.owe p kind
  else if s.flash.copying p then s else
  match if s.flash.inRun p then s.flash.runOf p.act p.page else none with
  | none =>
    match s.takeSlot p.slc with
    | none => s.owe p kind
    | some (pl, s) => s.startCopy p kind pl due
  | some (m, r) =>
    let whole := s.flash.pages.filter fun q => q.act == p.act && q.page / 256 == r.idx && q.data.isSome && s.flash.inRun q
    if whole.any s.flash.copying then s.owe p kind else
    match s.newRun m p.page with
    | none => s.owe p kind
    | some (r, s) =>
      whole.foldl (fun s q =>
        s.startCopy q (if kind = 2 ∧ !(q.place.chan = p.place.chan ∧ q.place.die = p.place.die) then 1 else kind)
          (s.flash.runPlace r q.page) due) s

/-- A page read under R324 and R334. `media` is what the cells give: 0 the data, 1 the data after read retry, 2 nothing that LDPC
corrects, 3 nothing that the stripe rebuilds either. It answers the bytes, and whether they are uncorrectable. -/
def State.readPage (s : State) (act page media : Nat) : (List Byte × Bool) × State :=
  let f := s.flash
  let cur := f.page? act page
  let nand : (List Byte × Bool) × State :=
    match cur with
    | none => ((zeros pageBytes, false), s)
    | some p =>
      match p.data with
      | none => ((zeros pageBytes, false), s)
      | some d =>
        let (c, di) := (p.place.chan, p.place.die)
        let forced := f.failNext.contains (c, di)
        let m := if p.lost then 3 else if forced || !f.inUse c di || f.rebuild.contains (c, di) then max 2 media else media
        let s := (s.modFlash fun f => { f with failNext := f.failNext.erase (c, di) }).transfer true p.place act 1 p.wseq 3 none
        match m with
        | 0 => ((d, false), s)
        | 1 => ((d, false), (s.bump F.adtRetryCount_count 1).logAdt 0 c di act)
        | 2 => ((d, false), ((s.bump F.adtRebuiltCount_count 1).logAdt 1 c di act).relocate p 1 (some (s.now + 2048)))
        | _ => ((zeros pageBytes, true), (s.bump F.adtUncorrCount_count 1).logAdt 2 c di act)
  match f.buffered act page with
  | none => nand
  | some w =>
    match cur with
    | some p => if w.wseq < p.wseq then nand else ((w.data, false), s)
    | none => ((w.data, false), s)

/-! ## Writes (R323 to R325, R331) -/

/-- Where a page write may go now (R331): SLC, QLC, or nowhere yet. -/
def State.writeRoom (s : State) : Option Bool :=
  let f := s.flash
  if f.quiet then none
  else if f.slcUsed < f.cap then some true
  else if s.on F.adtCtrl_qlcDirectEn && !s.short then some false
  else none

/-- A page write starts, where a slot is free: it takes its place, and its page goes there. -/
def State.startWrite (s : State) (wseq : Nat) (slc : Bool) : State :=
  match s.flash.writes.find? fun w => w.wseq == wseq && !w.started with
  | none => s
  | some w =>
    match s.takeSlot slc with
    | none => s
    | some (pl, s) =>
      let s := s.modFlash fun f => { f with
        writes := updWhere (·.wseq == wseq) (fun w => { w with started := true, slc := slc, place := pl }) f.writes }
      s.transfer false pl w.act (if w.strand = 0 then 2 else 1) wseq 0 none

/-- A page write that arrives: it takes the next write sequence, and starts or waits. -/
def State.pageArrives (s : State) (act page : Nat) (data : List Byte) (strand tag : Nat) : State :=
  let n := s.flash.wseq + 1
  let map := match s.flash.mapOf act page with
    | some m => m.id
    | none => 0
  let a := s.writeRoom
  let s := s.modFlash fun f => { f with
    wseq := n, writes := f.writes ++ [⟨n, act, page, map, data, strand, tag, false, false, ⟨0, 0, 0, 0⟩⟩] }
  (match a with
    | some slc => s.startWrite n slc
    | none => s).adtRefresh

/-- Whether every page of a vector that a cache copy holds is written (R21). -/
def State.vectorDurable (s : State) (c : CacheCopy) : Bool :=
  let last := (c.page * 256 + c.unit + c.len / 64 - 1) / 256
  let inRange (act p : Nat) : Bool := act == c.act && decide (c.page ≤ p ∧ p ≤ last)
  !(s.idx.indexes.any fun i => i.dirty.any fun d => inRange i.act d.1)
    && !(s.flash.writes.any fun w => w.strand == 0 && inRange w.act w.page)

/-- Cache copies whose vector is durable become droppable (R300), and a copy beyond its act's quota goes (R299). -/
def State.markDurable (s : State) : State :=
  let s := { s with idx := { s.idx with caches := s.idx.caches.map fun c => { c with durable := c.durable || s.vectorDurable c } } }
  if s.idx.caches.any (·.durable) then (List.range 16).foldl (fun s a => State.fitCache a 0 s.idx.caches.length s) s else s

/-- Whether a sealed segment still has a write on its way or a page outside its runs. -/
def FlashSt.unsealed (f : FlashSt) (m : SegMap) : Bool :=
  f.writes.any (·.map == m.id)
    || f.pages.any fun p => p.act == m.act && p.page / segPages == m.lseg && p.data.isSome && !f.inRun p

/-- The SEALs whose writes are complete and folded end (Table 11.4); a segment that has been freed or reopened since is waited for no more. -/
def State.checkSealings (s : State) : State :=
  let f := s.flash
  let open_ (x : Sealing) : Bool := x.maps.any fun id => f.maps.any fun m => m.id == id && m.sealed && f.unsealed m
  let done := f.sealings.filter (!open_ ·)
  let s := s.modFlash fun f => { f with sealings := f.sealings.filter open_ }
  done.foldl (fun s x => s.endLoader x.job x.status x.detail x.result x.ret) s

/-- A page's program finishes (R325): the page is durable; a later operation on it wins (R324); and the write of which it was the last
page completes. -/
def State.programDone (s : State) (w : FWrite) : State :=
  let s := (s.modFlash fun f => { f with writes := f.writes.filter (·.wseq != w.wseq) }).programmed w.place w.data
  let s := match s.flash.maps.find? (·.id == w.map) with
    | none => s
    | some m =>
      let new : FPage := ⟨w.act, w.page, w.wseq, m.gen, 0, some w.data, w.slc, w.place, false⟩
      let newer := match s.flash.page? w.act w.page with
        | some p => decide (w.wseq < p.wseq)
        | none => false
      if newer then s.modFlash fun f => { f with stale := new :: f.stale }
      else (s.modFlash (·.putPage new)).journal (.page w.act w.page w.wseq)
  let s := if w.strand = 0 then s.markDurable
    else if s.flash.writes.any (fun x => x.strand == w.strand && x.tag == w.tag) then s
    else s.complete w.strand w.tag
  s.checkSealings.adtRefresh

/-- Nothing is programmed before its page has been transferred. -/
def execFlashProgramComplete (wseq : Nat) (s : State) : Host.Outcome State Fault Refusal :=
  .next (match s.flash.writes.find? (fun w => w.wseq == wseq && w.started) with
    | some w => if s.inTransfer wseq 0 then s else s.programDone w
    | none => s)

/-- A block out of service: it is counted, its stripe gets no more pages, and its valid pages are relocated (R334). -/
def State.retireBlock (s : State) (chan stripe : Nat) : State :=
  let here := s.flash.pages.filter fun p => p.data.isSome && p.place.chan == chan && p.place.stripe == stripe
  let s := s.modFlash fun f =>
    { f.close (·.num == stripe) with retBlocks := f.retBlocks + 1, badBlocks := f.badBlocks ++ [(chan, stripe)] }
  (here.foldl (fun s p => s.relocate p 1 (some (s.now + 2048))) s).count 0x808 1

/-- A program or an erase fails: the block is retired, and the page is programmed elsewhere, unless no program starts any more (R337). -/
def execFlashProgramFail (what : CellFail) (s : State) : Host.Outcome State Fault Refusal :=
  .next (match what with
    | .program wseq =>
      match s.flash.writes.find? (fun w => w.wseq == wseq && w.started) with
      | none => s
      | some w =>
        let s := s.modFlash fun f => { f with writes := updWhere (·.wseq == wseq) (fun w => { w with started := false }) f.writes }
        let s := s.retireBlock w.place.chan w.place.stripe
        (if s.flash.quiet then s else s.startWrite wseq w.slc).adtRefresh
    | .erase chan stripe =>
      let f := s.flash
      if (f.liveChans stripe).contains chan && decide (stripe < 16 * f.card.blocks) && !(f.stripes.any (·.num == stripe)) then
        (s.retireBlock chan stripe).adtRefresh
      else s)

/-- A write that waited for SLC space starts. -/
def execFlashWriteResume (wseq : Nat) (s : State) : Host.Outcome State Fault Refusal :=
  .next (match s.writeRoom with
    | none => s
    | some slc =>
      if s.flash.writes.any (fun w => w.wseq == wseq && !w.started) then (s.startWrite wseq slc).adtRefresh else s)

/-! ## Folding and relocation (R331, R332) -/

/-- Whether folding may take a page: in an open segment a page in SLC while the buffer is above C / 2 with FOLD_EN at 1; in a sealed
one, whose writes have all come, every page outside its runs. -/
def State.foldable (s : State) (p : FPage) : Bool :=
  let f := s.flash
  p.data.isSome && !f.copying p
    && match f.mapOf p.act p.page with
      | some m =>
        if m.sealed then !f.inRun p && !(f.writes.any (·.map == m.id))
        else p.slc && s.on F.adtCtrl_foldEn && decide (f.cap < 2 * f.slcUsed)
      | none => false

/-- The page that folding takes next: of those it may take, the least write sequence. -/
def State.foldNext (s : State) : Option FPage :=
  (s.flash.pages.filter s.foldable).foldl
    (fun b p => match b with
      | some x => if p.wseq < x.wseq then some p else b
      | none => some p) none

/-- Where folding puts a page: in its run, which it makes where the segment has none yet for it; or, in an open segment, in any slot. -/
def State.foldPlace (s : State) (p : FPage) : Option (Place × State) :=
  match s.flash.mapOf p.act p.page with
  | some m =>
    if !m.sealed then s.takeSlot false else
    match m.runs.find? (·.idx == p.page / 256) with
    | some r => some (s.flash.runPlace r p.page, s)
    | none => (s.newRun m p.page).map fun e => (e.2.flash.runPlace e.1 p.page, e.2)
  | none => none

def execFoldStart (s : State) : Host.Outcome State Fault Refusal :=
  .next (if s.flash.quiet then s else
    match s.foldNext with
    | some p =>
      match s.foldPlace p with
      | some (pl, u) =>
        let sealed := (s.flash.mapOf p.act p.page).any (·.sealed)
        u.startCopy p 0 pl (if sealed then some s.now else none)
      | none => s
    | none => s)

/-- The bit of a page in its run's discard map cleared: the page has contents in the run. -/
def FlashSt.fillRun (f : FlashSt) (p : FPage) : FlashSt :=
  match f.runOf p.act p.page with
  | some (m, r) =>
    if f.runPlace r p.page ≠ p.place then f else
    f.setRuns m.id (updWhere (·.idx == r.idx) fun r => { r with gone := r.gone - if r.gone.testBit (p.page % 256) then 2 ^ (p.page % 256) else 0 })
  | none => f

/-- A copy that failed its check starts again elsewhere: a run gives up its slots, and its pages are folded into others. -/
def State.retryCopy (s : State) (p : FPage) (x : Fold) : State :=
  match s.flash.runOf p.act p.page with
  | some (m, r) =>
    if s.flash.runPlace r p.page = x.place then s.modFlash (·.setRuns m.id fun l => l.filter (·.idx != r.idx))
    else if x.kind = 0 then s else s.relocate p x.kind (some (s.now + 2048))
  | none => if x.kind = 0 then s else s.relocate p x.kind (some (s.now + 2048))

/-- A copy is programmed and read back: where it checks, the map names the copy, unless a write or discard of the page has arrived
(R332). -/
def execFoldFlip (act page : Nat) (verified : Bool) (s : State) : Host.Outcome State Fault Refusal :=
  .next (match s.flash.folds.find? (fun x => x.act == act && x.page == page) with
    | none => s
    | some x =>
      if s.inTransfer x.wseq (if x.kind = 0 then 1 else 2) then s else
      let s := s.modFlash fun f => { f with folds := f.folds.filter fun y => !(y.act == act && y.page == page && y.wseq == x.wseq) }
      match s.flash.page? act page with
      | none => s.count 0x803 1
      | some p =>
        let s := s.programmed x.place (p.data.getD [])
        if p.wseq ≠ x.wseq ∨ p.data.isNone ∨ (s.flash.buffered act page).isSome then s
        else if !verified then s.retryCopy p x
        else
          let new := { p with kind := 2, place := x.place, slc := p.slc && x.kind != 0 }
          let s := (s.modFlash fun f => (f.putPage new).fillRun new).journal (.flip act page p.place.stripe)
          let s := if x.kind = 0 then s.count 0x804 1 else s
          s.checkSealings.adtRefresh)

/-- Whether wear levelling relocates a page (R334): the erase counts are spread by more than 5% of the rated count, and its block is
of the least-worn ones that hold data. -/
def FlashSt.worn (f : FlashSt) (p : FPage) : Bool :=
  let all := (List.range (16 * f.card.blocks)).filter fun n => !(f.liveChans n).isEmpty
  let low := (all.map f.erased).foldl min f.maxPe
  decide (f.card.rated < 20 * (f.maxPe - low))
    && f.pages.all fun q => q.data.isNone || decide (f.erased p.place.stripe ≤ f.erased q.place.stripe)

/-- Wear levelling relocates a page, or the run that it stands in. -/
def execWearRelocate (act page : Nat) (s : State) : Host.Outcome State Fault Refusal :=
  .next (match s.flash.page? act page with
    | some p => if s.flash.quiet || p.data.isNone || !s.flash.worn p then s else s.relocate p 1 none
    | none => s)

/-! ## The journal (R335) -/

/-- The data slots that stand ready or allocated in a mode. -/
def FlashSt.slotsLeft (f : FlashSt) (slc : Bool) : Nat :=
  ((f.stripes.filter (·.slc == slc)).map fun x => f.slotsOf x - x.next).sum

/-- The erased stripe to allocate next: the least worn, and of those the first. -/
def FlashSt.freeStripe (f : FlashSt) : Option Nat :=
  (List.range (16 * f.card.blocks)).foldl (fun b n =>
    if (f.liveChans n).isEmpty || f.stripes.any (·.num == n) then b else
    match b with
    | some k => if f.erased n < f.erased k then some n else b
    | none => some n) none

/-- Stripes allocated in a mode until 8,192 slots stand, one per unit of fuel, with their journal records. -/
def FlashSt.allocate (slc : Bool) : Nat → FlashSt → FlashSt
  | 0, f => f
  | k + 1, f =>
    if 8192 ≤ f.slotsLeft slc then f else
    match f.freeStripe with
    | none => f
    | some n => FlashSt.allocate slc k
        { f with stripes := f.stripes ++ [⟨n, slc, f.liveChans n, 0, false, true⟩], jout := f.jout ++ [.alloc n] }

/-- The blocks that writes and folds use until the next flush (R335). -/
def FlashSt.allocateBoth (f : FlashSt) : FlashSt := FlashSt.allocate false 64 (FlashSt.allocate true 64 f)

/-- A flush starts: it takes the records of the buffer and the discards that wait, and allocates blocks. -/
def State.startFlush (s : State) : State :=
  s.modFlash fun f =>
    let f := { f with
      flushing := some s.now, jout := f.jout ++ f.jbuf, jbuf := [], discOut := f.discOut ++ f.discWait, discWait := [] }
    if f.quiet then f else f.allocateBoth

/-- A flush at every beat that is a multiple of 2,048, when the buffer reaches 32 MiB, and at once for a discard while hold-up is
short. -/
def execJournalFlush (s : State) : Host.Outcome State Fault Refusal :=
  .next (
    let f := s.flash
    if f.formatted && !f.quiet && f.flushing.isNone
        && (s.now % 2048 == 0 || decide (2 ^ 25 ≤ journalBytes f.jbuf) || (s.short && !f.discWait.isEmpty)) then
      let s := if f.cap * 3 < 4 * f.slcUsed then s.makeDue fun _ => true else s
      s.slcRecompute.startFlush.fired 1
    else s)

/-- Whether a journal record that no completed flush has written needs a stripe's blocks as they are (R332). -/
def JRec.holds (num : Nat) : JRec → Bool
  | .discard _ _ _ old => old.any (·.place.stripe == num)
  | .seg _ _ _ _ pages => pages.any (·.place.stripe == num)
  | .flip _ _ source => source == num
  | _ => false

/-- Whether a stripe may be erased: it is used up, holds nothing valid, nothing is copied to it, and every flip out of it is flushed. -/
def FlashSt.erasable (f : FlashSt) (x : Stripe) : Bool :=
  decide (f.slotsOf x ≤ x.next) && !(f.validBlocks.any (·.2 == x.num)) && !(f.folds.any (·.place.stripe == x.num))
    && !((f.jbuf ++ f.jout).any (JRec.holds x.num))

/-- A stripe collected: its blocks are erased, and retired where they reach the rated count (R326, R334). -/
def State.eraseStripe (s : State) (x : Stripe) : State :=
  let s := s.modFlash fun f => { f with
    stripes := f.stripes.filter (·.num != x.num), parity := f.parity.filter (·.stripe != x.num)
    stale := f.stale.filter fun p => p.data.isNone || p.place.stripe != x.num
    wear := kvSet 0 f.wear x.num (kvGet 0 f.wear x.num + 1) }
  if s.flash.card.rated ≤ s.flash.erased x.num then (s.flash.liveChans x.num).foldl (fun s c => s.retireBlock c x.num) s else s

/-- Relocations that waited for slots start. -/
def State.payOwed (s : State) : State :=
  s.flash.owed.foldl (fun s e =>
    match s.flash.page? e.1 e.2.1 with
    | some p => if p.data.isSome then s.relocate p e.2.2 (some (s.now + 64)) else s
    | none => s) (s.modFlash fun f => { f with owed := [] })

/-- What a completed flush has written: its pages are counted, with the part of the checkpoint that it holds, which every 512th
completes; blocks that it allocated are ready; and blocks that only unflushed records held are erased, unless no erase starts any more
(R337). -/
def State.flushed (s : State) : State :=
  let f := s.flash
  let pages := ceilDiv (journalBytes f.jout) pageBytes + Config.checkpointPages f.maps.length
  let s := s.modFlash fun f => { f with
    jout := [], flushes := f.flushes + 1
    stripes := f.stripes.map fun x => { x with ready := true, recent := x.recent && (f.flushes + 1) % 512 != 0 } }
  let gone := if f.quiet then [] else s.flash.stripes.filter s.flash.erasable
  ((gone.foldl State.eraseStripe s).count 0x803 pages).count 0x805 1

/-- A flush completes. In a power-down flush, which follows the programs already started, it also writes the power-down record
(R337). -/
def execJournalFlushComplete (s : State) : Host.Outcome State Fault Refusal :=
  .next (match s.flash.flushing with
    | none => s
    | some b =>
      let f := s.flash
      if f.quiet && f.writes.any (·.started) then s else
      let out := f.discOut ++ (if f.quiet then f.discWait else [])
      let short := s.short
      let s := if f.quiet then s.modFlash fun f => { f with jout := f.jout ++ f.jbuf, jbuf := [], discWait := [], pd := some f.shortSince }
        else s.modFlash fun f => { f with shortSince := short }
      let s := (s.modFlash fun f => { f with flushing := none, discOut := [] }).wr64 F.adtFlushLo_beat F.adtFlushHi_beat b
      let s := if f.quiet then s.flushed else s.flushed.payOwed
      let s := out.foldl (fun s e => s.complete e.1 e.2) s
      let s := s.adtRefresh
      if !s.flash.quiet && short && !s.flash.discWait.isEmpty then s.startFlush else s)

/-! ## The ADT instructions (R106, R324 to R327) -/

/-- A flash operation that is held and never carried out (R337). -/
def holdFlash (f : Form) (o : Insn) (t : Strand) (writes : List Res) : M Unit := launch f o t (.flash 0) [] writes []

/-- The page count of an instruction (R327). -/
def pageCount (n : Nat) : M Unit := need (decide (1 ≤ n ∧ n ≤ 65536)) cDescriptor

/-- The soft outcome of an ADT.READ entered in the job (Table 15.4). -/
def State.softOutcome (s : State) (job : Nat) : State := s.modJob job fun j => { j with soft := true }

def execAdtRead (o : Insn) (media : List Nat) (s : State) : Host.Outcome State Fault Refusal :=
  issue Form.adtRead o s fun t j => do
    let f := Form.adtRead
    if !t.clear [] (presWrites o) then throw .hold
    let n := (t.getS o.b).toNat
    let page := (t.getS o.a).toNat
    pageCount n
    let d ← useDsc (t.getD o.dst) [0] true
    within d 0 (n * pageBytes)
    need (d.base % 512 == 0) cAlign d.base
    checkAccess j ((← get).isPriv j) .write d.base (n * pageBytes)
    if (← get).flash.quiet then holdFlash f o t (presWrites o) else do
    need ((← get).flash.acceptsAll j.act page n true) cRegion
    let r ← (List.range n).mapM fun i => updGet fun s => s.readPage j.act (page + i) (media.getD i 0)
    upd fun s => (s.count 0x800 n).adtRefresh
    let bad := r.any (·.2)
    need (!bad || o.fld 25 3 != 0) cUncorr
    if bad then upd fun s => s.softOutcome j.id
    launch f o t .engine [] (presWrites o) (.mem 0 d.base (r.flatMap (·.1)) :: setPres o (!bad))

def execAdtWrite (o : Insn) (s : State) : Host.Outcome State Fault Refusal :=
  issue Form.adtWrite o s fun t j => do
    let f := Form.adtWrite
    let d ← useDsc (t.getD o.a) [0] false
    let n := d.len / pageBytes
    let page := (t.getS o.b).toNat
    pageCount n
    need (d.base % 512 == 0 && d.len % pageBytes == 0) cAlign d.base
    checkAccess j ((← get).isPriv j) .read d.base d.len
    if (← get).flash.quiet then holdFlash f o t [] else do
    need ((← get).flash.acceptsAll j.act page n false) cRegion
    need (!(← get).on F.adtStatus_readOnly) cQuota
    let b ← readOrd d.base d.len
    let tag := (← get).nextId
    launch f o t (.flash 0) [] [] [.setS o.dst (BitVec.ofNat 64 ((← get).flash.wseq + n))]
    upd fun s => ((List.range n).foldl (fun s i => s.pageArrives j.act (page + i) (slice b (i * pageBytes) pageBytes) t.id tag) s).count
      0x801 n

/-- A discard of one page: its write sequence, its journal record, and the page's entry, or its bit in its run's discard map; a run whose
bits are all set releases its storage (R326). -/
def State.discardPage (s : State) (act page : Nat) : State :=
  let n := s.flash.wseq + 1
  let old := s.flash.page? act page
  s.modFlash fun f =>
    let gen := ((f.mapOf act page).map (·.gen)).getD 0
    let f := match f.runOf act page with
      | some (m, r) =>
        let gone := r.gone ||| 2 ^ (page % 256)
        f.setRuns m.id fun l =>
          if gone = 2 ^ 256 - 1 then l.filter (·.idx != r.idx) else updWhere (·.idx == r.idx) (fun r => { r with gone := gone }) l
      | none => f
    { f.putPage ⟨act, page, n, gen, 0, none, false, ⟨0, 0, 0, 0⟩, false⟩ with
      wseq := n, jbuf := f.jbuf ++ [.discard act page n old] }

def execAdtDiscard (o : Insn) (s : State) : Host.Outcome State Fault Refusal :=
  issue Form.adtDiscard o s fun t j => do
    let f := Form.adtDiscard
    let n := (t.getS o.b).toNat
    let page := (t.getS o.a).toNat
    pageCount n
    if (← get).flash.quiet then holdFlash f o t [] else do
    need ((← get).flash.acceptsAll j.act page n true) cRegion
    upd fun s => (((List.range n).foldl (fun s i => s.discardPage j.act (page + i)) s).count 0x802 n).checkSealings.adtRefresh
    if (← get).short then do
      let tag := (← get).nextId
      launch f o t (.flash 0) [] [] []
      upd fun s => s.modFlash fun f => { f with discWait := f.discWait ++ [(t.id, tag)] }
      upd fun s => if s.flash.flushing.isNone then s.startFlush else s
    else launch f o t .engine [] [] []

/-! ## The index engine's page writes (R328) -/

/-- A partly filled vector-area page leaves the index engine, as a write that arrives now; where the segment does not take it, its
vectors are never durable and their copies become droppable. -/
def State.flushVector (s : State) (act page : Nat) : State :=
  match (s.idx.indexes.find? (·.act == act)).bind (fun i => i.dirty.find? (·.1 == page)) with
  | none => s
  | some d =>
    let s := { s with idx := { s.idx with
      indexes := updWhere (·.act == act) (fun i => { i with dirty := i.dirty.filter (·.1 != page) }) s.idx.indexes } }
    if s.flash.accepts act page false && !s.flash.quiet then (s.pageArrives act page d.2 0 0).count 0x801 1
    else s.markDurable

/-- Whether every 64-byte run of a vector-area page is in use. -/
def Index.pageFull (i : Index) (page : Nat) : Bool :=
  (List.range 256).all fun u => i.runs.any fun r => decide (r.1 ≤ page * 256 + u ∧ page * 256 + u < r.1 + r.2)

def execVectorPageWrite (act page : Nat) (s : State) : Host.Outcome State Fault Refusal :=
  .next (match s.idx.indexes.find? (·.act == act) with
    | some i => if !s.flash.quiet && (i.pageFull page || s.now % 2048 == 0) then s.flushVector act page else s
    | none => s)

/-! ## Flash control (R318 to R320) -/

/-- The node's answer to one entry of a control block: the state after it with the entry's STATE and GEN, or a status and DETAIL. -/
abbrev EntryResult := (State × Nat × Nat) ⊕ (Nat × Nat)

/-- The refusal of flash control. -/
def flashRefused : EntryResult := .inr (0x61, 0x13)

/-- A new generation. -/
def State.newGen (s : State) : Nat × State :=
  let g := (s.flash.gen + 1) % 2 ^ 32
  (g, s.modFlash fun f => { f with gen := g })

/-- A map replaced or removed, with its journal record. -/
def State.setMap (s : State) (old : Option SegMap) (new : Option SegMap) (act lseg gen : Nat) : State :=
  s.modFlash fun f =>
    let here (p : FPage) : Bool := p.act == act && p.page / segPages == lseg
    { f with
      maps := (f.maps.filter fun m => !(m.act == act && m.lseg == lseg)) ++ new.toList
      jbuf := f.jbuf ++ [.seg act lseg gen old (if new.isNone then f.pages.filter here else [])]
      pages := if new.isNone then f.pages.filter (!here ·) else f.pages
      stale := if new.isNone then f.stale.filter (!here ·) else f.stale
      folds := if new.isNone then f.folds.filter (fun x => !(x.act == act && x.page / segPages == lseg)) else f.folds }

/-- Whether an act may open one more segment (Table 11.4). -/
def State.mayOpen (s : State) (act : Nat) : Bool :=
  let opens := s.flash.maps.filter (!·.sealed)
  decide ((opens.filter (·.act == act)).length < s.rd (F.adtActSeg_openMax act) ∧ opens.length < 256)

/-- The partly filled vector-area pages of a segment. -/
def State.dirtyOf (s : State) (act lseg : Nat) : List Nat :=
  match s.idx.indexes.find? (·.act == act) with
  | some i => (i.dirty.map (·.1)).filter fun p => p / segPages == lseg
  | none => []

/-- A partly filled vector-area page dropped (R328). -/
def State.dropDirty (s : State) (act lseg : Nat) : State :=
  ({ s with idx := { s.idx with
    indexes := updWhere (·.act == act) (fun i => { i with dirty := i.dirty.filter fun d => d.1 / segPages != lseg })
      s.idx.indexes } }).markDurable

/-- One entry applied (Table 11.4). -/
def State.applyEntry (s : State) (act op lseg st gen : Nat) : EntryResult :=
  let old := s.flash.maps.find? fun m => m.act == act && m.lseg == lseg
  match op, old with
  | 1, some m =>
    if m.gen = gen ∧ st = (if m.sealed then 2 else 1) then
      .inl (s.modFlash fun f => { f with maps := updWhere (·.id == m.id) (fun m => { m with bound := true }) f.maps }, st, gen)
    else flashRefused
  | 2, none =>
    if st ≠ 0 ∨ lseg ≥ 2 ^ 20 ∨ !s.mayOpen act then flashRefused
    else if s.flash.maps.length + 1 > s.flash.logicalGib then .inr (0x21, 0)
    else
      let (g, s) := s.newGen
      .inl (s.fresh.setMap none (some ⟨s.nextId, act, lseg, g, false, true, []⟩) act lseg g, 1, g)
  | 3, some m =>
    if m.gen = gen ∧ m.bound ∧ !m.sealed ∧ st = 1 then
      let s := (s.dirtyOf act lseg).foldl (fun s p => s.flushVector act p) s
      let here := (s.flash.folds.filter fun x => x.act == act && x.page / segPages == lseg).map (·.wseq)
      let s := s.makeDue here.contains
      let (g, s) := s.newGen
      .inl (s.setMap old (some { m with sealed := true, gen := g, runs := [] }) act lseg g, 2, g)
    else flashRefused
  | 4, some m =>
    if m.gen = gen ∧ m.bound ∧ m.sealed ∧ st = 2 ∧ s.mayOpen act then
      let (g, s) := s.newGen
      .inl (s.setMap old (some { m with sealed := false, gen := g, runs := [] }) act lseg g, 1, g)
    else flashRefused
  | 5, some m =>
    if m.gen = gen ∧ m.bound ∧ st = (if m.sealed then 2 else 1) then
      let s := s.dropDirty act lseg
      let (g, s) := s.newGen
      .inl (s.setMap old none act lseg g, 0, g)
    else flashRefused
  | _, _ => flashRefused

/-- Entry `i` of a control block: LSEG, STATE and GEN. -/
def entryOf (b : List Byte) (i : Nat) : List Byte := slice b (16 + 16 * i) 16

/-- An entry as the node writes it back (Table 11.2). -/
def entryBytes (act lseg st gen : Nat) : List Byte :=
  let h := leBytes lseg 4 ++ leBytes st 1 ++ leBytes act 1 ++ zeros 2 ++ leBytes gen 4
  h ++ leBytes (crc32c h) 4

/-- The entries of a block in index order, up to the first refusal: the state, what is written back, and the refusal. -/
def State.applyEntries (s : State) (act op : Nat) : List (List Byte) → State × List Byte × Option (Nat × Nat)
  | [] => (s, [], none)
  | e :: t =>
    match s.applyEntry act op (leAt e 0 4) (leAt e 4 1) (leAt e 8 4) with
    | .inr r => (s, [], some r)
    | .inl (s, st, gen) =>
      let (s, out, r) := State.applyEntries s act op t
      (s, entryBytes act (leAt e 0 4) st gen ++ out, r)

/-- R318: whether a whole control block is refused. -/
def State.blockRefused (s : State) (j : Job) : Bool :=
  let b := j.data
  let (op, flags, perm, count) := (leAt b 0 1, leAt b 1 1, leAt b 2 2, leAt b 4 4)
  decide (b.length < 16 ∨ op > 5 ∨ flags > 1 ∨ count > 65536 ∨ b.length < 16 + 16 * count ∨ j.desc.resLen < 16 * count)
    || (flags == 1 && op != 1) || !((slice b 8 8).all (· == 0#8))
    || (op == 0 && (j.act != 0 || count != 0 || decide (perm < 40 ∨ perm > 280))) || (op != 0 && perm != 0)
    || (decide (op ≥ 2) && !s.flash.attached.contains j.act)
    || (List.range count).any fun i =>
      let e := entryOf b i
      leAt e 12 4 != crc32c (e.take 12) || leAt e 5 1 != j.act || leAt e 6 2 != 0

/-- FORMAT (R319, R320, R323). The empty journal that it writes allocates the first blocks. -/
def State.format (s : State) (permille : Nat) : State :=
  let s := { s with idx := { s.idx with
    indexes := s.idx.indexes.map (fun (i : Index) => { i with dirty := [] })
    caches := s.idx.caches.map (fun (c : CacheCopy) => { c with durable := true }) } }
  (s.modFlash fun f =>
    let f := { f with
      formatted := true, permille := permille, maps := [], attached := [], pages := [], stale := [], folds := [], owed := []
      rebuild := [], stripes := [], parity := [], jbuf := [], eraseBase := f.eraseBase + 1, retBlocks := 0, retSince := 0 }
    { f.allocateBoth with
      jout := [], stripes := f.allocateBoth.stripes.map fun x => { x with ready := true } }).slcRecompute

/-- After the FINAL ATTACH of act 0, maps that no act has attached are released as if freed. -/
def State.releaseUnattached (s : State) : State :=
  (s.flash.maps.filter (!·.bound)).foldl (fun s m =>
    let s := s.dropDirty m.act m.lseg
    s.setMap (some m) none m.act m.lseg m.gen) s

/-- A flash control call of one operation, at its pick-up beat (R318, R319, R328). -/
def State.flashControl (s : State) (j : Job) : State :=
  let b := j.data
  let op := leAt b 0 1
  if s.blockRefused j then s.endLoader j.id 0x61 0x13 0 [] else
  if op = 0 then
    if (List.range 15).any fun a => s.on (F.actCtrl_enable (a + 1)) then s.endLoader j.id 0x61 0x13 0 []
    else (s.format (leAt b 2 2)).checkSealings.endLoader j.id 0 0 0 []
  else
    let n := leAt b 4 4
    let (s, out, r) := s.applyEntries j.act op ((List.range n).map (entryOf b))
    let done := out.length / 16
    match r with
    | some (st, dt) =>
      if op = 3 ∧ done ≠ 0 then
        let ids := s.flash.maps.filterMap fun m =>
          if m.act == j.act && ((List.range done).any fun i => leAt (entryOf b i) 0 4 == m.lseg) then some m.id else none
        (s.modFlash fun f => { f with sealings := f.sealings ++ [⟨j.id, ids, st, dt, done, out⟩] }).checkSealings.adtRefresh
      else s.checkSealings.adtRefresh.endLoader j.id st dt done out
    | none =>
      if op = 3 then
        let ids := s.flash.maps.filterMap fun m =>
          if m.act == j.act && ((List.range done).any fun i => leAt (entryOf b i) 0 4 == m.lseg) then some m.id else none
        (s.modFlash fun f => { f with sealings := f.sealings ++ [⟨j.id, ids, 0, 0, done, out⟩] }).checkSealings.adtRefresh
      else
        let s := if op = 1 ∧ leAt b 1 1 = 1 then
            let s := s.modFlash fun f => { f with attached := (f.attached.filter (· != j.act)) ++ [j.act] }
            if j.act = 0 then s.releaseUnattached else s
          else s
        s.checkSealings.adtRefresh.endLoader j.id 0 0 done out

/-- A loader call of flash control whose block names an operation; a block that names none is refused as FORMAT is. It waits while a
recovery runs, and from a loss of power (R337, R338). -/
def State.flashCall (s : State) (job op : Nat) : Host.Outcome State Fault Refusal :=
  .next (if s.flash.quiet || s.flash.recover.isSome then s else
    match s.loaderCall job 7 with
    | some j =>
      let o := leAt j.data 0 1
      if (o = op ∨ op = 0 ∧ o > 5) ∧ !(s.flash.sealings.any (·.job == job)) then s.flashControl j else s
    | none => s)

def execFlashFormat (job : Nat) (s : State) : Host.Outcome State Fault Refusal := s.flashCall job 0
def execFlashAttach (job : Nat) (s : State) : Host.Outcome State Fault Refusal := s.flashCall job 1
def execFlashSegmentOpen (job : Nat) (s : State) : Host.Outcome State Fault Refusal := s.flashCall job 2
def execFlashSegmentSeal (job : Nat) (s : State) : Host.Outcome State Fault Refusal := s.flashCall job 3
def execFlashSegmentReopen (job : Nat) (s : State) : Host.Outcome State Fault Refusal := s.flashCall job 4
def execFlashSegmentFree (job : Nat) (s : State) : Host.Outcome State Fault Refusal := s.flashCall job 5

/-! ## Dies (R334, R342) -/

/-- A die retired: its pages are rebuilt into the reserve, and a second failure in a stripe under rebuild loses that stripe's
pages. A stripe takes the same die number on every channel. -/
def State.retireDie (s : State) (chan die : Nat) : State :=
  let hit := s.flash.rebuild.filter fun d => d.2 == die && d.1 != chan
  let s := s.modFlash fun f =>
    let gone (p : FPage) : Bool := p.data.isSome && p.place.die == die
      && (hit.any (·.1 == p.place.chan) || (!hit.isEmpty && p.place.chan == chan))
    { f.close (fun x => x.num % 16 == die && x.chans.contains chan) with
      pages := (f.pages.map fun p => if gone p then { p with lost := true } else p)
      retDies := f.retDies ++ [(chan, die)], retSince := f.retSince + 1, rebuild := f.rebuild ++ [(chan, die)]
      silent := f.silent.filter fun e => !(e.1 == chan && e.2.1 == die) }
  let s := (s.flash.pages.filter fun p => p.data.isSome && !p.lost && p.place.chan == chan && p.place.die == die).foldl
    (fun s p => s.relocate p 2 (some (s.now + 64))) s
  (s.logAdt 3 chan die 0).adtRefresh

/-- A die that has not answered for 64 beats is retired. -/
def execDieAutoRetire (chan die : Nat) (s : State) : Host.Outcome State Fault Refusal :=
  .next (
    let waited := s.flash.silent.all fun e => !(e.1 == chan && e.2.1 == die) || decide (e.2.2 + 64 ≤ s.now)
    if s.flash.inUse chan die && waited then 
      let t := s.retireDie chan die
      t.alerted (·.logSpare 6 chan die (t.on F.adtStatus_readOnly))
    else s)

/-- ADT_DIE_RETIRE with GO (R341, R342). -/
def execAdtDieRetire (src : Src) (chan die : Nat) (s : State) : Host.Outcome State Fault Refusal :=
  .next (if s.reaches src && s.flash.inUse chan die && s.flash.rebuild.isEmpty then s.retireDie chan die else s)

/-- The rebuilds end when no page that can be rebuilt stands on a retired die. -/
def execDieRebuildComplete (s : State) : Host.Outcome State Fault Refusal :=
  .next (
    let f := s.flash
    let left := f.pages.any fun p => p.data.isSome && !p.lost && f.rebuild.contains (p.place.chan, p.place.die)
    if left then s else (s.modFlash fun f => { f with rebuild := [] }).adtRefresh)

/-! ## Power (R336 to R339) -/

/-- R337 from the assertion of PWR_FAIL_N: nothing new starts, and what started completes before the journal and the record. -/
def State.beginPowerDown (s : State) : State :=
  if s.flash.quiet then s else
  let s := s.modFlash fun f => { f with quiet := true, folds := [] }
  s.startFlush

/-- The whole power-down sequence, before a reset that resets Adit while power is present (R337). -/
def State.powerDownFlush (s : State) : State :=
  if s.flash.pd.isSome then s else
  let s := s.modFlash fun f => { f with quiet := true, folds := [] }
  let s := (s.flash.writes.filter (·.started)).foldl (fun s w => s.programDone w) s
  let out := s.flash.discOut ++ s.flash.discWait
  let s := s.modFlash fun f => { f with
    jout := f.jout ++ f.jbuf, jbuf := [], flushing := none, discOut := [], discWait := [], pd := some f.shortSince }
  let s := (s.wr64 F.adtFlushLo_beat F.adtFlushHi_beat s.now).flushed
  out.foldl (fun s e => s.complete e.1 e.2) s

/-- A journal record that a card which broke R336 lost: what the page or the map held before (R339). -/
def FlashSt.undo (f : FlashSt) (r : JRec) : FlashSt :=
  match r with
  | .discard act page wseq old =>
    match f.page? act page with
    | some p =>
      if p.wseq ≠ wseq then f else
      let g := { f with pages := f.pages.filter fun q => !(q.act == act && q.page == page) }
      { g with pages := old.toList ++ g.pages }
    | none => f
  | .seg act lseg gen old pages =>
    let cur := f.maps.find? fun m => m.act == act && m.lseg == lseg
    if cur.all (·.gen == gen) then
      { f with
        maps := (f.maps.filter fun m => !(m.act == act && m.lseg == lseg)) ++ old.toList
        pages := f.pages ++ pages.filter (fun p => (f.page? p.act p.page).isNone) }
    else f
  | _ => f

/-- A page whose tag or data fails its CRC in a tag scan, in a block allocated since the last checkpoint: it counts as never written,
and of the copies that are left the one with the greatest write sequence is taken (R338). -/
def FlashSt.tear (f : FlashSt) (act page : Nat) : FlashSt :=
  match f.page? act page with
  | none => f
  | some p =>
    if !(p.data.isSome && f.stripes.any fun x => x.num == p.place.stripe && x.recent) then f else
    let same (q : FPage) : Bool := q.act == act && q.page == page
    let best := (f.stale.filter same).foldl (fun b q => match b with
      | some x => if x.wseq < q.wseq then some q else b
      | none => some q) none
    { f with
      pages := best.toList ++ f.pages.filter (!same ·)
      stale := f.stale.filter fun q => !(same q && best == some q) }

/-- From a cold or warm reset, or a block reset of ADT, no act is attached and no map is bound (R320). -/
def FlashSt.detach (f : FlashSt) : FlashSt := { f with attached := [], maps := f.maps.map fun m => { m with bound := false } }

/-- Recovery (R338, R339): without a power-down record each program under way is present or absent on its own, and if hold-up was not
short, so is each record since the last completed flush. `torn` are the pages that fail a CRC in a tag scan. RECOVERING is 1 until the
recovery's time is over. -/
def State.recoverFlash (s : State) (torn : List (Nat × Nat)) : State :=
  let f := s.flash
  let lostPower := f.pd.isNone
  let short := f.pd.getD f.shortSince
  let replay := !lostPower && !short
  let stays (u : Unit_) : Bool := decide (u.chan < 10 ∨ 42 ≤ u.chan)
  let s := s.modRgm fun r => { r with units := r.units.filter stays, waiting := r.waiting.filter stays }
  let s := if lostPower then (f.writes.filter (·.started)).foldl (fun s w =>
      let (x, s) := s.draw 1
      if x = 1 then s.programDone w else s) s else s
  let s := if lostPower && !f.shortSince then (f.jout ++ f.jbuf).reverse.foldl (fun s r =>
      let (x, s) := s.draw 1
      if x = 1 then s.modFlash (·.undo r) else s) s else s
  let s := if replay then s else torn.foldl (fun s e => s.modFlash (·.tear e.1 e.2)) s
  let s := s.modFlash fun f => { f.detach with
    writes := [], folds := [], sealings := [], jbuf := [], jout := [], flushing := none, discWait := []
    discOut := [], stripes := f.stripes.filter (·.ready), quiet := false, pd := none, shortSince := false, silent := [], failNext := [] }
  if !f.formatted then s.slcRecompute else
  let s := if lostPower && !f.shortSince then s.count 0x807 1 else s
  let s := if replay then s else s.count 0x806 1
  let (x, s) := s.draw 16
  let ms := x % (if replay then 1001 else 4001)
  let s := s.modFlash fun f => { f with recover := some (s.now + ceilDiv (ms * 1000000) 1024, ms) }
  let s := (s.wr F.adtRecovery_mode (if replay then 1 else 2)).wr F.adtRecovery_noPdRecord (b2n lostPower)
  s.slcRecompute

/-- A recovery whose time is over. -/
def State.endRecovery (s : State) : State :=
  match s.flash.recover with
  | none => s
  | some (b, ms) =>
    if s.now < b then s else
    ((s.modFlash fun f => { f with recover := none }).wr F.adtRecovery_ms ms).adtRefresh

/-! ## Bring-up (R316) -/

/-- Whether a die meets Table 11.1. -/
def dieOk (d : DiePage) : Bool :=
  d.cells && d.onfi && d.pageBytes == pageBytes && decide (d.enable < 8 ∧ 2048 ≤ d.spareBytes ∧ 12 ≤ d.rate ∧ 1 ≤ d.planes ∧ d.planes ≤ 4
    ∧ d.qlcUs ≤ 3000 ∧ d.slcUs ≤ 200)

/-- The geometry of a die. -/
def dieGeometry (d : DiePage) : List Nat := [d.pageBytes, d.spareBytes, d.planes, d.blocks, d.blockPages]

/-- A channel in service, with its dies: from 1 to 16 of them, all of one geometry, which meet Table 11.1. -/
def channelOk (l : List (Option DiePage)) : Option (List DiePage) :=
  match l.filterMap id with
  | [] => none
  | d :: t => if decide (l.length ≤ 16) && (d :: t).all (fun e => dieOk e && dieGeometry e == dieGeometry d) then some (d :: t) else none

/-- What bring-up makes of the parameter pages. A channel whose geometry is not that of the first channel in service stays out too. -/
def cardOf (chans : List (List (Option DiePage))) : FlashCard :=
  let found := (List.range 32).map fun c => channelOk (chans.getD c [])
  match (found.filterMap id).flatten with
  | [] => FlashSt.empty.card
  | d :: _ =>
    let keep := found.map fun x => x.filter fun l => l.all (dieGeometry · == dieGeometry d)
    let dies := (keep.filterMap id).flatten
    let mask (c : Nat) : Nat := (((chans.getD c []).zipIdx.map fun e => if e.1.isSome then 2 ^ e.2 else 0).sum)
    { dies := keep.zipIdx.map fun e => if e.1.isSome then mask e.2 else 0
      planes := d.planes, rate := (dies.map (·.rate)).foldl min 48, rated := (dies.map (·.rated)).foldl min d.rated
      blocks := d.blocks, blockBytes := d.blockPages * pageBytes, blockPages := d.blockPages }

/-- Bring-up and recovery at a boot. -/
def State.bringUp (s : State) (b : FlashBoot) : State :=
  (s.modFlash fun f => { f with card := cardOf b.chans }).recoverFlash b.torn

end Sys2Proof.Machine
end

