-- ==== Sys2Proof/Machine/Hew.lean ====
section
/-! DEFINITION. The HEW class (R90): MMA (R119 to R122), EW (R123), ACT (R124), RED (R125), CVT (R126) and ORED (R91). -/
namespace Sys2Proof.Machine

/-! ## MMA -/

/-- The inner dimension of a format (R119 item 1), and 0 for one that MMA does not accept. -/
def innerDim (fmt : Nat) : Nat := if fmt = 1 then 64 else if fmt = 4 then 256 else if fmt = 2 ∨ fmt = 3 ∨ fmt = 5 then 128 else 0

/-- Items 1 to 3 of R119. -/
def mmaAccepts (a b : TileVal) (ta tb : Bool) : Bool :=
  let dims (v : TileVal) (tr : Bool) : Nat × Nat :=
    let rc := (shapeRows v.shape, shapeCols v.fmt v.shape)
    if tr then (rc.2, rc.1) else rc
  let k := innerDim a.fmt
  k != 0 && (a.fmt == b.fmt || (a.fmt == 2 && b.fmt == 3) || (a.fmt == 3 && b.fmt == 2))
    && dims a ta == (32, k) && dims b tb == (k, 32)
    && (!isScaled a.fmt || a.axis == b2n ta) && (!isScaled b.fmt || b.axis == 1 - b2n tb)

/-- The accumulator format (R119 item 4). -/
def accFmt (a b : TileVal) : Nat := if a.fmt = 5 ∧ b.fmt = 5 ∧ a.unit ∧ b.unit then 6 else 0

/-- The position of element `u` along k of line `i` of an operand. -/
def lineAt (cols : Nat) (swap : Bool) (i u : Nat) : Nat × Nat × Nat :=
  if swap then (u * cols + i, u, i) else (i * cols + u, i, u)

/-- The exact sum of a list of values, one rounding later (R120, R122). -/
def exactSum : List FV → FV
  | [] => .fin false 0 0
  | [v] => v
  | v :: t => v.add (exactSum t)

/-- One element of R120: the scaled group sums added in ascending k. -/
def mmaDot (a b : TileVal) (ca cb : Array Nat) (sa sb : Array Byte) (ta tb : Bool) (i j k : Nat) : Nat :=
  let colsA := shapeCols a.fmt a.shape
  let colsB := shapeCols b.fmt b.shape
  (List.range (k / 16)).foldl (fun acc g =>
    let terms := (List.range 16).map fun u =>
      let x := lineAt colsA ta i (16 * g + u)
      let y := lineAt colsB (!tb) j (16 * g + u)
      (fmtValue a.fmt (ca.getD x.1 0)).mul (fmtValue b.fmt (cb.getD y.1 0))
    let x := lineAt colsA ta i (16 * g)
    let y := lineAt colsB (!tb) j (16 * g)
    let e := a.blockExp sa x.2.1 x.2.2 + b.blockExp sb y.2.1 y.2.2
    fadd acc (round32 ((exactSum terms).scale e))) 0

/-- The 32 × 32 result of R120. -/
def mmaFp (d : Option TileVal) (a b : TileVal) (ta tb : Bool) : TileVal :=
  let ca := (codesOf a.fmt a.data).toArray
  let cb := (codesOf b.fmt b.data).toArray
  let cd := (d.map fun v => (codesOf 0 v.data).toArray).getD #[]
  let sa := a.scales.toArray
  let sb := b.scales.toArray
  let ts := fmul a.tscale b.tscale
  plainTile 0 0 (ofCodes 0 ((List.range 1024).map fun n =>
    let t := fmul (mmaDot a b ca cb sa sb ta tb (n / 32) (n % 32) (innerDim a.fmt)) ts
    if d.isSome then fadd (cd.getD n 0) t else t))

/-- A pattern of INT8 or INT32 as an integer. -/
def signedOf (w n : Nat) : Int := (BitVec.ofNat w n).toInt

/-- The 32 × 32 result of R121, and how many elements saturated. -/
def mmaInt (d : Option TileVal) (a b : TileVal) (ta tb : Bool) : TileVal × Nat :=
  let ca := (codesOf 5 a.data).toArray
  let cb := (codesOf 5 b.data).toArray
  let cd := (d.map fun v => (codesOf 6 v.data).toArray).getD #[]
  let colsA := shapeCols 5 a.shape
  let colsB := shapeCols 5 b.shape
  let el (n : Nat) : Int :=
    (List.range 128).foldl (fun acc u =>
      acc + signedOf 8 (ca.getD (lineAt colsA ta (n / 32) u).1 0) * signedOf 8 (cb.getD (lineAt colsB (!tb) (n % 32) u).1 0))
      (signedOf 32 (cd.getD n 0))
  let all := (List.range 1024).map el
  let sat (x : Int) : Int := max (-(2 ^ 31)) (min x (2 ^ 31 - 1))
  (plainTile 6 0 (ofCodes 6 (all.map fun x => (BitVec.ofInt 32 (sat x)).toNat)), (all.filter fun x => sat x != x).length)

/-- A hewer of the crew is busy in this beat (Table 4.7); a HEW.ORED that waits counts too (log 147). -/
def hewBusy (t : Strand) : M Unit :=
  upd fun s => s.mark t.crew

/-- MMA: a new tile with ZERO, and otherwise the accumulator's tile takes new contents. -/
def execHewMma (o : Insn) (s : State) : Host.Outcome State Fault Refusal :=
  let ta := o.fld 0 1 == 1
  let tb := o.fld 1 1 == 1
  let zero := o.fld 2 1 == 1
  engine Form.hewMma o s (if zero then [] else [.t o.dst]) [] fun t j => do
    hewBusy t
    let ra ← tileAt t o.a
    let rb ← tileAt t o.b
    need (mmaAccepts (ra.val []) (rb.val []) ta tb) cTile
    need (!((ra.val []).badScale || (rb.val []).badScale)) cTile
    let af := accFmt (ra.val []) (rb.val [])
    let rd ← if zero then pure none else do
      pure (some (← tileAt t o.dst fun v => v.fmt == af && v.shape == 0))
    let (v, sat) ← quotaFirst j.act t.crew 4096 do
      let a ← useTile t j o.a ra true
      let b ← useTile t j o.b rb true
      let d ← match rd with
        | some r => do pure (some (← useTile t j o.dst r true))
        | none => pure none
      pure (if af = 6 then mmaInt d a b ta tb else (mmaFp d a b ta tb, 0))
    let w ← match rd with
      | some r => rewriteTile t j r v
      | none => do pure (.bindT o.dst (← newTile t j v))
    let sc := F.crewSatCount_count t.crew
    pure [w, .count sc.off sc.lo sc.width sat,
      .count64 (F.crewMmaLo_count t.crew).off (F.crewMmaHi_count t.crew).off 1]

/-! ## EW, ACT, RED and CVT -/

/-- A pattern of FP32 or BF16 widened to binary32. -/
def widen (fmt n : Nat) : Nat := if fmt = 1 then n * 2 ^ 16 else n

/-- A value rounded to FP32 or BF16. -/
def roundTo (fmt : Nat) (v : FV) : Nat := if fmt = 1 then roundBf16 v else round32 v

/-- The pattern of an element, with NaNs as R117 writes them. -/
def tidy (fmt n : Nat) : Nat := if isNan32 (widen fmt n) then (if fmt = 1 then 0x7FC0 else nan32) else n

/-- One element of EW (R123). -/
def ewOp (op fmt a b : Nat) : Nat :=
  let x := widen fmt a
  let y := widen fmt b
  match op with
  | 0 => roundTo fmt ((f32 x).add (f32 y))
  | 1 => roundTo fmt ((f32 x).add (f32 y).neg)
  | 2 => roundTo fmt ((f32 x).mul (f32 y))
  | 3 => tidy fmt (if flt x y then b else a)
  | _ => tidy fmt (if flt y x then b else a)

def execHewEw (o : Insn) (s : State) : Host.Outcome State Fault Refusal :=
  tileEngine Form.hewEw o s [] fun t j => do
    hewBusy t
    let bcast := o.fld 3 1 == 1
    let ra ← tileAt t o.a fun v => decide (v.fmt ≤ 1)
    let rb ← tileAt t o.b fun v => v.fmt == ra.fmt && (if bcast then v.shape == 6 else v.shape == ra.shape)
    let a ← useTile t j o.a ra true
    let b ← useTile t j o.b rb true
    let cb := (codesOf b.fmt b.data).toArray
    let cols := shapeCols a.fmt a.shape
    let out := (codesOf a.fmt a.data).zipIdx.map fun e =>
      ewOp (o.fld 0 3) a.fmt e.1 (cb.getD (if bcast then e.2 % cols else e.2) 0)
    pure (plainTile a.fmt a.shape (ofCodes a.fmt out))

/-- One element of ACT in binary32 (R124). -/
def actFn (fn x : Nat) : Nat :=
  match fn with
  | 0 => frelu x
  | 1 => fgelu x
  | 2 => fsilu x
  | 3 => fexp x
  | 4 => frsqrt x
  | 5 => frecip x
  | _ => ftanh x

def execHewAct (o : Insn) (s : State) : Host.Outcome State Fault Refusal :=
  tileEngine Form.hewAct o s [] fun t j => do
    hewBusy t
    let a ← useAt t j o.a (fun v => decide (v.fmt ≤ 1)) true
    let out := (codesOf a.fmt a.data).map fun c =>
      let y := actFn (o.fld 0 4) (widen a.fmt c)
      if a.fmt = 1 then roundBf16 (f32 y) else y
    pure (plainTile a.fmt a.shape (ofCodes a.fmt out))

/-- One reduction of RED (R125). -/
def redOp (op : Nat) (l : List Nat) : Nat :=
  tidy 0 (if op = 0 then treeReduce fadd 0 l else l.foldl (fun m x => if flt m x then x else m) (l.headD 0))

def execHewRed (o : Insn) (s : State) : Host.Outcome State Fault Refusal :=
  tileEngine Form.hewRed o s [] fun t j => do
    hewBusy t
    let byCol := o.fld 0 1 == 1
    let a ← useAt t j o.a (fun v => decide (v.fmt ≤ 1 ∧ (byCol = false ∨ shapeCols v.fmt v.shape ≤ 1024))) true
    let rows := shapeRows a.shape
    let cols := shapeCols a.fmt a.shape
    let c := (codesOf a.fmt a.data).toArray
    let at_ (n : Nat) : Nat := widen a.fmt (c.getD n 0)
    let out := if byCol then
        (List.range cols).map fun k => redOp (o.fld 1 1) ((List.range rows).map fun r => at_ (r * cols + k))
      else (List.range rows).map fun r => redOp (o.fld 1 1) ((List.range cols).map fun k => at_ (r * cols + k))
    pure (plainTile 0 6 (ofCodes 0 (padTo 0 1024 out)))

/-- Whether a magnitude is below `2 ^ k`. -/
def magBelow (m : Nat) (e k : Int) : Bool :=
  if e ≤ k then decide (m < 2 ^ (k - e).toNat) else m == 0

/-- One element of CVT (R126): its pattern, or nothing where it has none in the destination. An infinity lies outside a destination's
finite range, and is kept only by the exact copy to the source's own format. -/
def cvtElem (own : Bool) (into : Nat) (v : FV) : Option Nat :=
  match v with
  | .inf _ => if own then some (roundTo into v) else none
  | .fin _ m e =>
    let r := roundTo into v
    if m != 0 && magBelow m e (if into = 1 then -133 else -149) then none
    else if (f32 (widen into r)).isFin then some r else none
  | .nan => some (roundTo into v)

/-- Whether CVT accepts a source for a destination. -/
def cvtAccepts (fmt into : Nat) : Bool := decide (fmt ≤ 5) && !(fmt == 0 && into == 1)

def execHewCvt (o : Insn) (s : State) : Host.Outcome State Fault Refusal :=
  tileEngine Form.hewCvt o s [] fun t j => do
    hewBusy t
    let into := o.fld 0 2
    let ra ← tileAt t o.a fun v => cvtAccepts v.fmt into && v.tscale == one32 && !v.scales.contains 0xFF#8
    let a ← useTile t j o.a ra true
    let cols := shapeCols a.fmt a.shape
    let dcols := shapeCols into a.shape
    let rows := shapeRows a.shape
    let c := (codesOf a.fmt a.data).toArray
    let sc := a.scales.toArray
    let at_ (r k : Nat) : FV := (fmtValue a.fmt (c.getD (r * cols + k) 0)).scale (a.blockExp sc r k)
    need ((List.range rows).all fun r => (List.range (cols - dcols)).all fun k => (at_ r (dcols + k)).isZero) cTile
    let out ← orFault ((List.range (rows * dcols)).mapM fun n =>
      if n % dcols < cols then cvtElem (a.fmt == into) into (at_ (n / dcols) (n % dcols)) else some 0) cTile
    pure (plainTile into a.shape (ofCodes into out))

/-! ## ORED -/

/-- The result of a complete tile slot: the elementwise tree of R91. -/
def Ored.tileResult (r : Ored) : TileVal :=
  let add (a b : List Nat) : List Nat := List.zipWith fadd a b
  plainTile 0 r.shape (ofCodes 0 (treeReduce add [] r.ordered))

/-- One contributing instruction of a complete slot takes the result to its own tD. -/
def State.oredResult (v : TileVal) (s : State) (c : Contrib) : State :=
  match s.anyStrand? c.strand with
  | none => s
  | some t =>
    match s.job? t.job, t.flight? c.tag with
    | some j, some f =>
      let dst := f.writes.findSome? fun x => match x with
        | .t n => some n
        | _ => none
      match s.makeTile j.act t.crew v false with
      | (some id, s) => (s.tierManage j.act t.crew).regate c.strand c.tag .engine [.bindT (dst.getD 0) id]
      | (none, s) => s.strandFault c.strand 3 5 f.pc cQuota 0
    | _, _ => s

/-- Every contributing instruction of a complete slot takes the result to its own tD. -/
def State.finishOred (s : State) (r : Ored) : State := r.contribs.foldl (State.oredResult r.tileResult) s

/-- HEW.ORED: an FP32 contribution at a work index; the last one lets every contributor complete. -/
def execHewOred (o : Insn) (s : State) : Host.Outcome State Fault Refusal :=
  issue Form.hewOred o s fun t j => do
    hewBusy t
    let e := (o.ext.getD 0 0#64).toNat
    let slot := bits e 16 4
    let ra ← tileAt t o.a fun v => v.fmt == 0
    let a ← quotaFirst j.act t.crew 4096 do
      let before ← get
      let _ ← contribute j.id true slot (bits e 0 16) 0 0 ra.shape ⟨(t.getS o.b).toNat, [], t.id, 0⟩
      set before
      useTile t j o.a ra true
    let tag := (← get).nextId
    let r ← contribute j.id true slot (bits e 0 16) 0 0 ra.shape
      ⟨(t.getS o.b).toNat, (codesOf 0 a.data).map (tidy 0), t.id, tag⟩
    launch Form.hewOred o t (.ored slot) [] [] []
    if r.contribs.length = r.n then upd fun s => s.finishOred r

end Sys2Proof.Machine
end

