-- ==== Sys2Proof/Machine/Qnt.lean ====
section
/-! DEFINITION. The QNT class: the prepass (R141), conversion (R143, R144), the outlier split (R145) and calibration drift (R146 to
R148); and the CRU class (R94, R152 to R157). -/
namespace Sys2Proof.Machine

/-! ## The scale tile (Table 5.1) -/

/-- A decoded scale tile. -/
structure ScaleTile where
  qfmt : Nat
  shape : Nat
  bs : Nat
  cols : Nat
  ts : Nat
  amax : Nat
  median : Nat
  nonfinite : Nat
  mask : List Nat
  scales : List Nat
deriving DecidableEq, Repr

/-- The outlier channels that 128 mask bytes name. -/
def maskChannels (b : List Byte) : List Nat :=
  (List.range 1024).filter fun c => bitOf (leAt b (c / 8) 1) (c % 8)

/-- The mask bytes of outlier channels. -/
def maskBytes (l : List Nat) : List Byte :=
  (List.range 128).map fun i => BitVec.ofNat 8 ((l.filter fun c => c / 8 == i).foldl (fun n c => n + 2 ^ (c % 8)) 0)

/-- The image of a scale tile. -/
def ScaleTile.bytes (x : ScaleTile) : List Byte :=
  let b (n : Nat) : Byte := BitVec.ofNat 8 n
  let head := [b x.qfmt, b x.shape, b x.bs, 0#8] ++ leBytes x.cols 2 ++ leBytes x.mask.length 2 ++ leBytes x.ts 4
    ++ leBytes x.amax 4 ++ leBytes x.median 4 ++ [b x.nonfinite] ++ zeros 11
  padTo 0#8 4096 (head ++ maskBytes x.mask ++ zeros 96 ++ x.scales.map b)

/-- Whether a binary32 pattern is positive and finite. -/
def posFinite (n : Nat) : Bool := decide (0 < n ∧ n < 0x7F800000)

/-- A scale tile read from its image, with the checks of R140 that look at it alone. A SRC_COLS of 0, which Table 5.1 excludes and R140
does not name, is refused too (DESIGN CHOICE, log 150). -/
def readScale (b : List Byte) : Option ScaleTile :=
  let u (o k : Nat) := leAt b o k
  let x : ScaleTile := ⟨u 0 1, u 1 1, u 2 1, u 4 2, u 8 4, u 0xC 4, u 0x10 4, u 0x14 1, maskChannels (slice b 0x20 128), []⟩
  if !(decide (2 ≤ x.qfmt ∧ x.qfmt ≤ 5 ∧ x.shape ≤ 6 ∧ x.bs ≤ 3)) then none else
  let nb := blockCount x.qfmt x.shape x.bs 0
  let x : ScaleTile := { x with scales := (slice b 0x100 nb).map (·.toNat) }
  let zero (o k : Nat) := (slice b o k).all (· == 0#8)
  if u 3 1 == 0 && decide (x.nonfinite < 4) && zero 0x15 11 && zero 0xA0 96 && zero (0x100 + nb) 4096
    && decide (1 ≤ x.cols ∧ x.cols ≤ min 1024 (shapeCols 1 x.shape)) && u 6 2 == x.mask.length
    && x.mask.all (fun c => decide (c < x.cols)) && posFinite x.ts && !x.scales.contains 0xFF
  then some x else none

/-- A scale tile that a handle names, read at use. -/
def scaleAt (t : Strand) (j : Job) (reg : Nat) : M ScaleTile := do
  let v ← useAt t j reg fun v => v.fmt == 7
  orFault (readScale v.data) cTile

/-! ## The prepass (R141) -/

/-- The finite magnitude of a binary32 pattern as a pattern, or nothing. -/
def finMag (n : Nat) : Option Nat := if n % 2 ^ 31 < 0x7F800000 then some (n % 2 ^ 31) else none

/-- The exact fraction of a positive binary32 pattern. -/
def magOf (n : Nat) : Nat × Nat := (f32 n).magFrac

/-- The least binary32 pattern whose value is at or above `num / den`: the candidates up to `fuel` above the rounded value. -/
def atLeast (num den : Nat) : Nat → Nat → Nat
  | 0, n => n
  | k + 1, n => if (magOf n).1 * den ≥ num * (magOf n).2 then n else atLeast num den k (n + 1)

/-- `a / f` rounded toward +∞ to binary32. -/
def roundUpDiv (a f : Nat) : Nat :=
  let r := round32 (fracV false (magOf a).1 ((magOf a).2 * f) 0)
  atLeast (magOf a).1 ((magOf a).2 * f) 3 (r - 1)

/-- The least e in -127 .. 0 with `g ≤ f * ts * 2^e`, as e + 127: one candidate per unit of fuel. -/
def leastExp (g f ts : Nat) : Nat → Nat → Nat
  | 0, e => e
  | k + 1, e =>
    if (magOf g).1 * (magOf ts).2 * 2 ^ (127 - e) ≤ f * (magOf ts).1 * (magOf g).2 then e else leastExp g f ts k (e + 1)

/-- Sixteen times a finite magnitude is exceeded. -/
def over16 (m r : Nat) : Bool := decide ((magOf m).1 * (magOf r).2 > 16 * (magOf r).1 * (magOf m).2)

/-- The scale tile of a source (R141), whose elements are binary32 patterns. -/
def prepass (src : TileVal) (fmt block : Nat) (outl : Bool) : ScaleTile :=
  let rows := shapeRows src.shape
  let cols := shapeCols src.fmt src.shape
  let c := (codesOf src.fmt src.data).toArray
  let at_ (r k : Nat) : Nat := widen src.fmt (c.getD (r * cols + k) 0)
  let m := (List.range cols).map fun k => ((List.range rows).filterMap fun r => finMag (at_ r k)).foldl max 0
  let all := (List.range (rows * cols)).map fun n => widen src.fmt (c.getD n 0)
  let r := (sortBy (fun a b => decide (a < b)) m).getD ((cols - 1) / 2) 0
  let cand := (m.zipIdx.filter fun e => outl && decide (r > 0) && over16 e.1 r)
  let top := ((sortBy (fun (a b : Nat × Nat) => decide (a.1 > b.1 ∨ a.1 = b.1 ∧ a.2 < b.2)) cand).take 8).map (·.2)
  let mask := (List.range cols).filter (top.contains ·)
  let a := ((m.zipIdx.filter fun e => !mask.contains e.2).map (·.1)).foldl max 0
  let qf := fmt + 2
  let f := ((Narrow.ofFmt qf).map Narrow.maxMag).getD 1
  let ts := if a = 0 then one32 else roundUpDiv a f
  let per := blocksPer qf src.shape block 0
  let bs := blockSize block
  let scale (row b : Nat) : Nat :=
    let g := ((List.range bs).filterMap fun u =>
      let k := b * bs + u
      if k < cols && !mask.contains k then finMag (at_ row k) else none).foldl max 0
    if b * bs ≥ cols then 0x7F else if g = 0 then 127 else leastExp g f ts 127 0
  ⟨qf, src.shape, block, cols, ts, a, r, b2n (all.any fun n => n % 2 ^ 31 == 0x7F800000) + 2 * b2n (all.any isNan32), mask,
    (List.range (rows * per)).map fun n => scale (n / per) (n % per)⟩

/-- A source that the prepass and the conversions accept (R138). -/
def wideSource (v : Tile) : Bool := decide (v.fmt ≤ 1 ∧ shapeCols v.fmt v.shape ≤ 1024)

def execQntPrepass (o : Insn) (s : State) : Host.Outcome State Fault Refusal :=
  engine Form.qntPrepass o s [] [] fun t j => do
    let x ← quotaFirst j.act t.crew 4096 do
      let v ← useAt t j o.a wideSource
      pure (prepass v (o.fld 0 4) (o.fld 4 3) (o.fld 7 1 == 1))
    let id ← newTile t j (plainTile 7 0 x.bytes)
    let f := F.cruQntNonfiniteCount_count
    pure [.bindT o.dst id, .count f.off f.lo f.width (b2n (x.nonfinite != 0))]

/-! ## Conversion (R143 to R145) -/

/-- A payload of a narrow format with the sideband that a scale tile gives it. -/
def withScales (x : ScaleTile) (data : List Byte) : TileVal :=
  let per := blocksPer x.qfmt x.shape x.bs 0
  let sc := x.scales.zipIdx.map fun e =>
    if e.2 % per * blockSize x.bs ≥ x.cols then 0x7F#8 else BitVec.ofNat 8 e.1
  ⟨x.qfmt, x.shape, data, x.ts, x.bs, 0, sc, none⟩

/-- The quantised payload of R143 and how many elements saturated; nothing where a NaN has no pattern. -/
def quantise (x : ScaleTile) (nf : Narrow) (src : TileVal) : Option (List Byte × Nat) :=
  let rows := shapeRows src.shape
  let cols := shapeCols src.fmt src.shape
  let qc := shapeCols x.qfmt x.shape
  let c := (codesOf src.fmt src.data).toArray
  let sc := x.scales.toArray
  let ts := f32 x.ts
  let el (n : Nat) : Option (Nat × Bool) :=
    let r := n / qc
    let k := n % qc
    if k < x.cols && !x.mask.contains k then
      match ts.scale ((sc.getD (blockIdx x.qfmt x.shape x.bs 0 r k) 0x7F : Nat) - 127) with
      | .fin _ m e => nf.quantise (f32 (widen src.fmt (c.getD (r * cols + k) 0))) m e
      | _ => none
    else some (0, false)
  ((List.range (rows * qc)).mapM el).map fun l => (ofCodes x.qfmt (l.map (·.1)), (l.filter (·.2)).length)

def execQntCvt (o : Insn) (s : State) : Host.Outcome State Fault Refusal :=
  engine Form.qntCvt o s [] [] fun t j => do
    let ra ← tileAt t o.a fun v => wideSource v || isScaled v.fmt
    let (v, sat) ← quotaFirst j.act t.crew 4096 do
      let x ← scaleAt t j o.b
      need (ra.fmt == x.qfmt || wideSource ra) cTile
      need (ra.shape == x.shape) cTile
      need (isScaled ra.fmt || shapeCols ra.fmt ra.shape == x.cols) cTile
      let a ← useTile t j o.a ra
      if isScaled ra.fmt then pure (withScales x a.data, 0) else do
        let nf ← orFault (Narrow.ofFmt x.qfmt) cTile
        let (d, n) ← orFault (quantise x nf a) cTile
        pure (withScales x d, n)
    let id ← newTile t j v
    let f := F.cruQntSatCount_count
    pure [.bindT o.dst id, .count f.off f.lo f.width sat]

def execQntSplit (o : Insn) (s : State) : Host.Outcome State Fault Refusal :=
  tileEngine Form.qntSplit o s [] fun t j => do
    let ra ← tileAt t o.a wideSource
    let x ← scaleAt t j o.b
    need (ra.shape == x.shape && shapeCols ra.fmt ra.shape == x.cols) cTile
    let a ← useTile t j o.a ra
    let cols := shapeCols a.fmt a.shape
    let dc := shapeCols 1 a.shape
    let c := (codesOf a.fmt a.data).toArray
    let el (n : Nat) : Nat :=
      let k := n % dc
      if x.mask.contains k then roundBf16 (f32 (widen a.fmt (c.getD (n / dc * cols + k) 0))) else 0
    pure (plainTile 1 a.shape (ofCodes 1 ((List.range 2048).map el)))

/-! ## Drift (R146 to R148) -/

/-- The exact scale `ts * 2^(byte - 127)` as a fraction over a common power of two. -/
def absScale (ts byte : Nat) : Nat × Nat := ((magOf ts).1 * 2 ^ byte, (magOf ts).2 * 2 ^ 127)

/-- R146. -/
def drifted (a b : ScaleTile) : Bool :=
  ((a.scales.zip b.scales).any fun e =>
    let x := absScale a.ts e.1
    let y := absScale b.ts e.2
    decide (x.1 * y.2 > 4 * y.1 * x.2))
  || a.mask.any (fun c => !b.mask.contains c) || a.nonfinite != 0

/-- The least e in -127 .. 127 with `ts * 2^e` at or above a fraction, as e + 127, or 254. -/
def leastExp2 (num den ts : Nat) : Nat → Nat → Nat
  | 0, _ => 254
  | k + 1, e =>
    if (magOf ts).1 * 2 ^ e * den ≥ num * (magOf ts).2 * 2 ^ 127 then e else leastExp2 num den ts k (e + 1)

/-- The calibration tile after a drift under ADAPT (R147). -/
def adapted (a b : ScaleTile) : ScaleTile :=
  let ts := if flt b.ts a.ts then a.ts else b.ts
  let per := blocksPer b.qfmt b.shape b.bs 0
  let mask := (List.range 1024).filter fun c => a.mask.contains c || b.mask.contains c
  let sc := ((a.scales.zip b.scales).zipIdx).map fun e =>
    if e.2 % per * blockSize b.bs ≥ b.cols then 0x7F else
      let x := absScale a.ts e.1.1
      let y := absScale b.ts e.1.2
      let m := if x.1 * y.2 > y.1 * x.2 then x else y
      leastExp2 (2 * m.1) m.2 ts 255 0
  { b with ts := ts, amax := if flt b.amax a.amax then a.amax else b.amax, mask := mask, scales := sc }

/-- DRIFT: under RERUN the predicate; under ADAPT the calibration tile takes new contents. -/
def execQntDrift (o : Insn) (s : State) : Host.Outcome State Fault Refusal :=
  engine Form.qntDrift o s [] [.t o.b] fun t j => do
    let rb ← tileAt t o.b fun v => v.fmt == 7
    let (a, b) ← quotaFirst j.act t.crew 4096 do
      let a ← scaleAt t j o.a
      let b ← scaleAt t j o.b
      need (a.qfmt == b.qfmt && a.shape == b.shape && a.bs == b.bs && a.cols == b.cols) cTile
      pure (a, b)
    if !drifted a b then pure [.setP o.dst false] else do
      let one (f : FieldRef) : Effect := .count f.off f.lo f.width 1
      if j.rerun then pure [.setP o.dst true, one F.cruQntDriftCount_count, one F.cruQntRerunCount_count]
      else do
        let w ← rewriteTile t j rb (plainTile 7 rb.shape (adapted a b).bytes)
        pure [w, .setP o.dst false, one F.cruQntDriftCount_count, one F.cruQntAdaptCount_count]

/-! ## CRU (Table 3.9) -/

/-- PACK: the compressed form, homed in the pool as every packed tile is (R296), or the tile kept raw, which the encoder counts once, at
the pool home if it has one. With PACK_EN at 0 the tile is kept raw (DESIGN CHOICE, log 149). -/
def execCruPack (o : Insn) (s : State) : Host.Outcome State Fault Refusal :=
  engine Form.cruPack o s [] [] fun t j => do
    let ra ← tileAt t o.a fun v => v.fmt != 8
    let v ← quotaFirst j.act t.crew 4096 (useTile t j o.a ra)
    if (packTile v.data).isSome ∧ (← get).on F.memCtrl_packEn then
      pure [.bindT o.dst (← newTile t j v true)]
    else do
      let id ← newTile t j v
      upd fun s =>
        if s.on F.memCtrl_packEn && v.info.isNone && (s.tile? id).any (·.pooled) then s else s.packCount v.data.length none
      pure [.bindT o.dst id]

/-- The stream at a tile's home read by a CRU instruction, through path 0 of Table 5.7: the check of Table 5.5 that it fails, or the raw
bytes, which a raw tile holds. -/
def streamAt (v : Tile) : M (Nat ⊕ List Byte) := do
  match ← updGet fun s => (s.modTile v.id fun u => { u with lastRead := s.now }).homeVia 0 v.home v.len v.packed with
  | .inl (some c) => pure (.inl c)
  | .inl none => throw (.fault cUncorr 0)
  | .inr raw => pure (.inr raw)

/-- UNPACK: the expanded tile; a damaged stream is the soft outcome, or ends the job with 0x0040 (R81, R157). -/
def execCruUnpack (o : Insn) (s : State) : Host.Outcome State Fault Refusal :=
  engine Form.cruUnpack o s [] (presWrites o) fun t j => do
    let ra ← tileAt t o.a fun v => v.fmt != 8
    match ← quotaFirst j.act t.crew 4096 do
        let r ← streamAt ra
        if let .inr raw := r then need ((ra.val raw).crc == ra.crc) cTileCheck
        pure r with
    | .inl c =>
      upd fun s => s.damage c 0 j.act 0
      if o.fld 25 3 = 0 then throw (.endJob 0x40 c)
      pure (.dropT o.dst :: setPres o false)
    | .inr raw => pure (.bindT o.dst (← newTile t j (ra.val raw)) :: setPres o true)

/-- CHECK: nothing is expanded, and a failure is counted. -/
def execCruCheck (o : Insn) (s : State) : Host.Outcome State Fault Refusal :=
  engine Form.cruCheck o s [] [] fun t j => do
    let ra ← tileAt t o.a fun v => v.fmt != 8
    match ← streamAt ra with
    | .inl c =>
      upd fun s => s.damage c 0 j.act 0
      pure [.setP o.dst false]
    | .inr _ => pure [.setP o.dst true]

end Sys2Proof.Machine
end

