-- ==== Sys2Proof/Machine/Search.lean ====
section
/-! DEFINITION. Search on one node (chapter 7): snapshots (R201), vector operands (R202), exact sums (R223), the jig (R220), query
slots and filters (R176 to R179), the scoring and survivors of the scans (R97, R98, R218, R219), tombstones (R184), and distances
(R127). -/
namespace Sys2Proof.Machine

/-! ## Snapshots (R201) -/

/-- An act's index. -/
def State.index? (s : State) (act : Nat) : Option Index := s.idx.indexes.find? (·.act == act)

/-- The oldest snapshot that the node answers for an act (R190): 0 while it holds no index. -/
def State.oldest (s : State) (act : Nat) : Nat :=
  match s.index? act with
  | some i => s.tally.stable - i.retain
  | none => 0

/-- The snapshot that an index instruction reads at issue: one later than the stable beat waits. -/
def snapshotFor (cls func : Nat) (o : Insn) (t : Strand) : M Nat := do
  let snap := (t.getS 62).toNat
  if snap > (← get).tally.stable then throw (.wait (.snapshot cls func o))
  pure snap

/-! ## Vector operands (R202) -/

/-- The handles of a vector of `dim` elements from a handle on. -/
def vecHandles (reg dim : Nat) : List Nat := (List.range (ceilDiv dim 1024)).map (reg + ·)

/-- The handles that a DIM-sized operand of an act occupies, for the tracking of R48. -/
def State.vecReads (s : State) (strand reg : Nat) : List Res :=
  match (s.strand? strand).bind (fun t => s.job? t.job) |>.bind (fun j => s.index? j.act) with
  | some i => (vecHandles reg i.dim).map Res.t
  | none => [.t reg]

/-- The tiles of a vector operand, checked. -/
def vectorTiles (t : Strand) (j : Job) (reg dim : Nat) : M (List (Nat × Tile)) := do
  let limit := match (← get).routineOf j with
    | some r => r.tiles
    | none => 0
  let hs := vecHandles reg dim
  need (hs.all fun h => decide (h < 32 ∧ h < limit)) cTile
  hs.mapM fun h => do
    pure (h, ← tileAt t h fun v => v.fmt == 0 && v.shape == 6)

/-- The elements of a vector operand, read from its tiles: binary32 patterns. -/
def vectorData (t : Strand) (j : Job) (dim : Nat) (recs : List (Nat × Tile)) : M (List Nat) := do
  let parts ← recs.mapM fun e => useTile t j e.1 e.2
  pure ((parts.flatMap fun v => codesOf 0 v.data).take dim)

/-- A vector operand: its binary32 patterns. -/
def vectorAt (t : Strand) (j : Job) (reg dim : Nat) : M (List Nat) := do vectorData t j dim (← vectorTiles t j reg dim)

/-! ## Distances (R127) -/

/-- A binary32 pattern negated. -/
def fneg (n : Nat) : Nat := round32 (f32 n).neg

/-- The reduction of R91 with binary32 additions. -/
def ftree (l : List Nat) : Nat := treeReduce fadd 0 l

/-- Squared L2. -/
def distL2 (q x : List Nat) : Nat :=
  ftree (List.zipWith (fun a b => let d := fsub a b; fmul d d) q x)

/-- The inner product, not negated. -/
def dotProd (q x : List Nat) : Nat := ftree (List.zipWith fmul q x)

/-- A distance by its metric. -/
def distance (metric : Nat) (q x : List Nat) : Nat :=
  match metric with
  | 0 => distL2 q x
  | 1 => fneg (dotProd q x)
  | _ =>
    let p := dotProd q x
    let n := fmul (dotProd q q) (dotProd x x)
    if feq n 0 then one32 else fsub one32 (fmul p (frsqrt n))

/-- A vector scaled to unit length for the cosine metric (R175, R176). -/
def unitVec (metric : Nat) (q : List Nat) : List Nat :=
  if metric = 2 then
    let r := frsqrt (dotProd q q)
    q.map (fmul · r)
  else q

/-! ## Exact sums (R223) -/

/-- A term added to an accumulator. -/
def Acc320.add1 (a : Acc320) (x : Nat) : Acc320 :=
  let a := { a with n := a.n + 1, allneg0 := a.allneg0 && x == 0x80000000 }
  match f32 x with
  | .nan => { a with nan := true }
  | .inf s => if s then { a with ninf := true } else { a with pinf := true }
  | .fin s m e =>
    let v : Int := (m * 2 ^ (e + 149).toNat : Nat)
    { a with acc := a.acc + (if s then -v else v) }

/-- Two accumulators added. -/
def Acc320.add (a b : Acc320) : Acc320 :=
  ⟨a.acc + b.acc, a.pinf || b.pinf, a.ninf || b.ninf, a.nan || b.nan, a.allneg0 && b.allneg0, a.n + b.n⟩

/-- The exact sum of binary32 terms. -/
def exactAcc (l : List Nat) : Acc320 := l.foldl Acc320.add1 Acc320.zero

/-- One rounding. -/
def Acc320.round (a : Acc320) : Nat :=
  if a.nan || (a.pinf && a.ninf) then nan32
  else if a.pinf then 0x7F800000 else if a.ninf then 0xFF800000
  else if a.acc = 0 then (if a.n > 0 && a.allneg0 then 0x80000000 else 0)
  else round32 (.fin (decide (a.acc < 0)) a.acc.natAbs (-149))

/-- A distance as a term of a sum: an integer is taken as its binary32 value. -/
def distTerm (kind d : Nat) : Nat := if kind = 0 then round32 (.fin false d 0) else d

/-! ## The jig (R220 to R222) -/

/-- Stamp order (R182). -/
def stampNewer (a b : Nat) : Bool :=
  let d := (a + 2 ^ 16 - b) % 2 ^ 16
  decide (1 ≤ d ∧ d ≤ 32767)

/-- Which of two entries of one ID a merge keeps: the newer stamp, and among equal ones the first by (dist, node, loc). -/
def keepOf (kind : Nat) (a b : Entry) : Entry :=
  if stampNewer a.stamp b.stamp then a else if stampNewer b.stamp a.stamp then b else
  let lt (x y : Entry) := if kind = 0 then decide (x.dist < y.dist) else flt x.dist y.dist
  if lt a b then a else if lt b a then b
  else if a.node < b.node then a else if b.node < a.node then b
  else if b.loc < a.loc then b else a

/-- Every ID once. -/
def dedupe (kind : Nat) (l : List Entry) : List Entry :=
  l.foldl (fun acc e =>
    if acc.any (·.id == e.id) then updWhere (·.id == e.id) (keepOf kind e) acc else acc ++ [e]) []

/-- A lane as the jig takes it: entries, OVERFLOW, CUT and LEFT. -/
abbrev JigLane := List Entry × Bool × Bool × Acc320

/-- The lanes of a list. -/
def lanesOf (v : TileVal) (l : ListInfo) : List JigLane :=
  l.dirs.zipIdx.map fun e => (laneEntries v l e.2, e.1.overflow, e.1.cut, e.1.left)

/-- All lanes taken as one. -/
def oneLane (ls : List JigLane) : JigLane :=
  (ls.flatMap (·.1), ls.any (·.2.1), ls.any (·.2.2.1), ls.foldl (fun a e => a.add e.2.2.2) Acc320.zero)

/-- The merge of R220. -/
def mergeLane (kind k : Nat) (a b : JigLane) : JigLane :=
  let c := sortBy (Entry.before kind) (dedupe kind (a.1 ++ b.1))
  (c.take k, a.2.1 || b.2.1, a.2.2.1 || b.2.2.1,
    (a.2.2.2.add b.2.2.2).add (exactAcc ((c.drop k).map fun e => distTerm kind e.dist)))

/-- The list that jig lanes make. -/
def jigList (kind k : Nat) (ls : List JigLane) : TileVal := listTile kind k (ls.map (·.1)) (ls.map (·.2)) none

/-- A LIST tile read at use. -/
def listAt (t : Strand) (j : Job) (reg : Nat) : M (TileVal × ListInfo) := do
  let v ← useAt t j reg fun v => v.fmt == 8
  pure (v, ← orFault v.info cTile)

def execJigTopk (o : Insn) (s : State) : Host.Outcome State Fault Refusal :=
  tileEngine Form.jigTopk o s [] fun t j => do
    let (v, l) ← listAt t j o.a
    let ls := if o.fld 13 1 = 1 then lanesOf v l else [oneLane (lanesOf v l)]
    pure (jigList l.kind (o.fld 0 13) (ls.map fun a => mergeLane l.kind (o.fld 0 13) a ([], false, false, Acc320.zero)))

def execJigMerge (o : Insn) (s : State) : Host.Outcome State Fault Refusal :=
  tileEngine Form.jigMerge o s [] fun t j => do
    let ra ← tileAt t o.a fun v => v.fmt == 8
    let rb ← tileAt t o.b fun v => v.fmt == 8
    let same := match ra.info, rb.info with
      | some x, some y => x.kind == y.kind && x.dirs.length == y.dirs.length
      | _, _ => false
    need same cTile
    let (v, l) ← listAt t j o.a
    let (w, m) ← listAt t j o.b
    let pick (x : List JigLane) := if o.fld 13 1 = 1 then x else [oneLane x]
    pure (jigList l.kind (o.fld 0 13)
      (List.zipWith (mergeLane l.kind (o.fld 0 13)) (pick (lanesOf v l)) (pick (lanesOf w m))))

def execJigSums (o : Insn) (s : State) : Host.Outcome State Fault Refusal :=
  engine Form.jigSums o s [] [] fun t j => do
    let r ← tileAt t o.a fun v => v.fmt == 8
    let i ← orFault r.info cTile
    let d ← orFault i.dirs[o.fld 0 3]? cTile
    let (v, l) ← listAt t j o.a
    let sel := (exactAcc ((laneEntries v l (o.fld 0 3)).map fun e => distTerm l.kind e.dist)).round
    pure [.setS o.dst (BitVec.ofNat 64 (sel + 2 ^ 32 * d.left.round))]

/-! ## Query slots (R176 to R179) -/

/-- NSUB and KS of a code (Table 6.2). -/
def nsubOf (code : Nat) (subq8 : Bool) : Nat := 16 * 2 ^ code * (if subq8 then 1 else 2)
def ksOf (subq8 : Bool) : Nat := if subq8 then 256 else 16

/-- The accept-all filter. -/
def acceptAll : List Byte := zeros 128

/-- One term of a filter. -/
structure Term where
  kind : Nat
  word : Nat
  shift : Nat
  width : Nat
  neg : Nat
  a : Nat
  b : Nat
deriving DecidableEq, Repr

/-- Term `t` of a filter predicate (Table 6.7). -/
def termAt (f : List Byte) (t : Nat) : Term :=
  let o := 0x10 + t * 0x18
  ⟨leAt f o 1, leAt f (o + 1) 1, leAt f (o + 2) 1, leAt f (o + 3) 1, leAt f (o + 4) 1, leAt f (o + 8) 8, leAt f (o + 16) 8⟩

/-- Whether a used term lies inside Table 6.7 and R179. -/
def Term.ok (t : Term) : Bool :=
  decide (t.word ≤ 1 ∧ t.neg ≤ 1) &&
  match t.kind with
  | 1 => t.shift == 0 && t.width == 0 && (t.word == 0 || decide (t.a < 2 ^ 32 ∧ t.b < 2 ^ 32))
  | 2 => t.width == 16 && (if t.word = 0 then [0, 16, 32, 48].contains t.shift else [0, 16].contains t.shift)
      && (t.word == 0 || decide (t.a < 2 ^ 16 ∧ t.b < 2 ^ 16))
  | 3 => decide (1 ≤ t.width ∧ t.width ≤ 7 ∧ t.shift ≤ 63) && (t.word == 0 || decide (t.shift + t.width ≤ 32))
  | _ => false

/-- Whether the reserved bytes and bits of a filter predicate are zero, in every term. -/
def filterReserved (f : List Byte) : Bool :=
  (slice f 2 14).all (· == 0#8) && (slice f 0x70 16).all (· == 0#8) && (List.range 4).all fun i =>
    decide ((termAt f i).neg ≤ 1) && (slice f (0x10 + i * 0x18 + 5) 3).all (· == 0#8)

/-- Whether a filter predicate is one that TBL.FILTER accepts (R179): a term at index TERMS or above has KIND 0, and its WORD still lies
inside Table 6.7. -/
def filterOk (f : List Byte) : Bool :=
  let n := leAt f 0 1
  decide (n ≤ 4 ∧ leAt f 1 1 ≤ 1) && filterReserved f
    && (List.range 4).all fun i =>
      let t := termAt f i
      if i < n then t.ok else t.kind == 0 && decide (t.word ≤ 1)

/-- Whether an entry passes one term. -/
def Term.passes (t : Term) (attr extra : Nat) : Bool :=
  let w := if t.word = 0 then attr else extra
  let v := match t.kind with
    | 1 => (w &&& t.a) == t.b
    | 2 =>
      let f := w / 2 ^ t.shift % 2 ^ 16
      decide (t.a % 2 ^ 16 ≤ f ∧ f ≤ t.b % 2 ^ 16)
    | 3 => bitOf (t.a + t.b * 2 ^ 64) (w / 2 ^ t.shift % 2 ^ t.width)
    | _ => true
  v != (t.neg == 1)

/-- Whether an entry passes a filter (R178). What a loaded filter with a field outside Table 6.7 lets pass the spec does not state: a free
value (log 29). -/
def passes (f : List Byte) (attr extra : Nat) : Bool :=
  if !filterOk f then Config.oddFilter f attr extra else
  let ts := (List.range (leAt f 0 1)).map (termAt f)
  ts.isEmpty || (if leAt f 1 1 = 0 then ts.all (·.passes attr extra) else ts.any (·.passes attr extra))

/-- A slot image (Table 6.6). -/
def Slot.image (q : Slot) : List Byte :=
  let head := leBytes (q.code + 4 * b2n q.subq8) 1 ++ leBytes q.metric 1 ++ leBytes q.nsub 2 ++ leBytes q.scale 4
    ++ leBytes q.bias 4 ++ leBytes q.thresh 4 ++ zeros 44
  let crc := crc32c (head ++ zeros 4 ++ q.filter ++ q.table)
  head ++ leBytes crc 4 ++ q.filter ++ q.table

/-- The length of the slot images of an index. -/
def Index.slotLen (i : Index) : Nat := 192 + nsubOf i.code i.subq8 * ksOf i.subq8

/-- A slot image read: nothing where TBL.LOAD faults (R177). -/
def readSlot (i : Index) (b : List Byte) : Option Slot :=
  let u (o k : Nat) := leAt b o k
  let fmt := u 0 1
  let q : Slot := ⟨fmt % 4, bitOf fmt 2, u 1 1, u 2 2, u 4 4, u 8 4, u 0xC 4, slice b 0x40 128, b.drop 0xC0⟩
  if decide (fmt < 8) && (slice b 0x10 44).all (· == 0#8) && u 0x3C 4 == crc32c (overlay b 0x3C (zeros 4)) && filterReserved q.filter
    && q.code == i.code && q.subq8 == i.subq8 && q.nsub == nsubOf i.code i.subq8 && q.metric == i.metric
  then some q else none

/-- The slot of a register (R39). -/
def slotAt (t : Strand) (reg : Nat) : M Slot := orFault (t.getQ reg) cTile

/-- The act's index, or TILE. -/
def indexOf (j : Job) (cause : Nat := cTile) : M Index := do orFault ((← get).index? j.act) cause

/-- Whether a binary32 pattern is finite. -/
def fin32 (n : Nat) : Bool := (f32 n).isFin

/-- The 8-bit entry for an exact difference over a scale, held at 255. -/
def tableEntry (t m scale : Nat) : Nat :=
  let d := ((f32 t).add (f32 m).neg).magFrac
  let sc := magOf scale
  min 255 ((2 * d.1 * sc.2 + d.2 * sc.1) / (2 * d.2 * sc.1))

/-- The slot that TBL.BUILD makes of a query and a codebook (R176), or nothing where a value is not finite. -/
def buildSlot (i : Index) (query codebook : List Nat) : Option Slot :=
  let nsub := nsubOf i.code i.subq8
  let ks := ksOf i.subq8
  let dsub := i.dim / nsub
  let q := unitVec i.metric query
  let rows := (List.range nsub).map fun u => (List.range ks).map fun v =>
    let c := slice codebook ((u * ks + v) * dsub) dsub
    let x := slice q (u * dsub) dsub
    if i.metric = 0 then distL2 x c else fneg (dotProd x c)
  let ms := rows.map fun r => r.foldl (fun m x => if flt x m then x else m) (r.headD 0)
  let diffs := (rows.zip ms).flatMap fun e => e.1.map fun x => fsub x e.2
  let delta := diffs.foldl (fun m x => if flt m x then x else m) (diffs.headD 0)
  if !(rows.all (·.all fin32) && ms.all fin32 && fin32 delta) then none else
  let scale := if feq delta 0 then one32 else roundUpDiv delta 255
  let bias := ftree ms
  if !(fin32 scale && fin32 bias) then none else
  let table := (rows.zip ms).flatMap fun e => e.1.map fun x => BitVec.ofNat 8 (tableEntry x e.2 scale)
  some ⟨i.code, i.subq8, i.metric, nsub, scale, bias, 0xFFFFFFFF, acceptAll, table⟩

def execTblBuild (o : Insn) (s : State) : Host.Outcome State Fault Refusal :=
  engine Form.tblBuild o s (s.vecReads o.strand o.a) [] fun t j => do
    let i ← indexOf j
    need (o.fld 0 2 == i.code && (o.fld 2 1 == 1) == i.subq8) cTile
    let recs ← vectorTiles t j o.a i.dim
    let n := nsubOf i.code i.subq8 * ksOf i.subq8 * (i.dim / nsubOf i.code i.subq8) * 4
    let d ← useDsc (t.getD o.b) [0] false
    within d 0 n
    checkAccess j ((← get).isPriv j) .read d.base n
    waitHeld false d.base n
    let q ← vectorData t j i.dim recs
    let b ← readOrd d.base n
    pure [.setQ o.dst (← orFault (buildSlot i q (codesOf 0 b)) cTile)]

def execTblLoad (o : Insn) (s : State) : Host.Outcome State Fault Refusal :=
  engine Form.tblLoad o s [] [] fun t j => do
    let i ← indexOf j
    let d ← useDsc (t.getD o.a) [0] false
    within d 0 i.slotLen
    block64 j .read d 0 i.slotLen
    let b ← readOrd d.base i.slotLen
    pure [.setQ o.dst (← orFault (readSlot i b) cTile)]

def execTblFilter (o : Insn) (s : State) : Host.Outcome State Fault Refusal :=
  engine Form.tblFilter o s [] [] fun t j => do
    let q ← slotAt t o.dst
    let d ← useDsc (t.getD o.a) [0] false
    within d 0 128
    block64 j .read d 0 128
    let b ← readOrd d.base 128
    need (filterOk b) cTile
    pure [.setQ o.dst { q with filter := b }]

def execTblThresh (o : Insn) (s : State) : Host.Outcome State Fault Refusal :=
  engine Form.tblThresh o s [] [] fun t _ => do
    let q ← slotAt t o.dst
    pure [.setQ o.dst { q with thresh := (t.getS o.a).toNat % 2 ^ 32 }]

def execTblStore (o : Insn) (s : State) : Host.Outcome State Fault Refusal :=
  engine Form.tblStore o s [] [] fun t j => do
    let q ← slotAt t o.a
    let b := q.image
    let d ← useDsc (t.getD o.dst) [0] true
    within d 0 b.length
    block64 j .write d 0 b.length
    pure [.mem 0 d.base b]

/-! ## Scans (R97, R98, R218, R219) -/

/-- What a scan makes of one entry: its words where they can be read. -/
structure Cand where
  id : Nat
  loc : Nat
  attr : Nat
  extra : Nat
  stamp : Nat
  code : List Byte
  beat : Nat
  /-- the code, attribute or stamp cannot be corrected (R219) -/
  damaged : Bool
deriving DecidableEq, Repr

/-- Subquantiser `u` of a code (R170). -/
def subOf (subq8 : Bool) (code : List Byte) (u : Nat) : Nat :=
  if subq8 then leAt code u 1 else bits (leAt code (u / 2) 1) (4 * (u % 2)) 4

/-- The PQ distance of a code (R97). -/
def pqDist (q : Slot) (table : Array Byte) (code : List Byte) : Nat :=
  (List.range q.nsub).foldl (fun d u => d + (table.getD (u * ksOf q.subq8 + subOf q.subq8 code u) 0).toNat) 0

/-- The contenders of one lane with the commit beats that they carry (R512): an entry of the sentinel's ID is none (R171). -/
def contenders (self : Nat) (filter : Bool) (q : Slot) (cs : List Cand) : List (Entry × Option Nat) :=
  let table := q.table.toArray
  cs.filterMap fun c =>
    if c.id = 2 ^ 64 - 1 then none else
    if c.damaged then some (⟨0xFFFFFFFE, 0, self, 2, c.id, c.loc⟩, none)
    else if filter && !passes q.filter c.attr c.extra then none else
      let d := pqDist q table c.code
      if d ≤ q.thresh then some (⟨d, c.stamp, self, 0, c.id, c.loc⟩, some c.beat) else none

/-- The survivors of a lane (R98): entries with beats, OVERFLOW and CUT. -/
def survivors (keep : Nat) (thresh : Nat) (cs : List (Entry × Option Nat)) : List (Entry × Option Nat) × Bool × Bool :=
  let c := sortBy (fun a b => Entry.before 0 a.1 b.1) cs
  let limit := if keep = 0 then 4096 else keep + 255
  let final := match (c.drop (keep - 1)).head? with
    | some e => e.1.dist
    | none => thresh
  let at_ := if keep = 0 then c else c.filter fun e => decide (e.1.dist ≤ final)
  (at_.take limit, decide (at_.length > limit), decide (c.length > (at_.take limit).length))

/-- The output of a scan over a cage. -/
def scanList (self keep : Nat) (filter : Bool) (slots : List Slot) (cs : List Cand) : TileVal :=
  let ls := slots.map fun q => survivors keep q.thresh (contenders self filter q cs)
  listTile 0 (if keep = 0 then 4096 else keep + 255) (ls.map fun l => l.1.map (·.1))
    (ls.map fun l => (l.2.1, l.2.2, Acc320.zero)) (some (ls.map fun l => l.1.map (·.2)))

/-- The lanes with OVERFLOW set (Table 7.9). -/
def overflows (v : TileVal) : Nat :=
  match v.info with
  | some l => (l.dirs.filter (·.overflow)).length
  | none => 0

/-- The slots of a cage, which must match the scan's CODE and SUBQ8 (R97). -/
def cageSlots (t : Strand) (o : Insn) : M (List Slot) := do
  let qs ← (List.range (o.fld 0 4)).mapM (slotAt t)
  need (qs.all fun q => q.code == o.fld 4 2 && q.subq8 == (o.fld 6 1 == 1)) cTile
  pure qs

/-- The slots that a scan reads, for the tracking of R48. -/
def cageReads (o : Insn) : List Res := .s 62 :: (List.range (o.fld 0 4)).map Res.q

/-- Whether a block of node memory is uncorrectable. -/
def State.badBlock (s : State) (a : Nat) : Bool :=
  match physOf a with
  | some p => s.mem.check (p / 64) == .uncorrectable
  | none => false

/-- The entries of a side-list view that a scan at a snapshot sees, and how many it drops (R219). -/
def sideCands (s : State) (a : Nat) (b : List Byte) (n snap : Nat) : List Cand × Nat :=
  let es := (List.range n).map fun i =>
    let e := slice b (i * 128) 128
    let c : Cand := ⟨leAt e 0 8, leAt e 0x10 8, leAt e 8 8, leAt e 0x28 4, leAt e 0x2C 2, e.drop 64, leAt e 0x18 8,
      s.badBlock (a + i * 128 + 64)⟩
    (c, s.badBlock (a + i * 128))
  ((es.filter fun e => !e.2 && decide (e.1.beat ≤ snap)).map (·.1), (es.filter (·.2)).length)

/-- SLU.SCAN (R95, R218). -/
def execSluScan (o : Insn) (s : State) : Host.Outcome State Fault Refusal :=
  engine Form.sluScan o s (cageReads o) [] fun t j => do
    let snap ← snapshotFor 6 0 o t
    let qs ← cageSlots t o
    let d ← useDsc (t.getD o.a) [0] false true
    need (decide ((← get).oldest j.act ≤ snap)) cDescriptor d.base
    let (cs, dropped) ← if d.len = 0 then pure ([], 0) else do
      block64 j .read d 0 d.len
      waitHeld false d.base d.len
      let (b, _, s) := (← get).readMem 0 d.base d.len
      set s
      pure (sideCands s d.base b (d.len / 128) snap)
    let v := scanList (← get).self (o.fld 8 13) (o.fld 7 1 == 1) qs cs
    let id ← newTile t j v
    pure [.bindT o.dst id, .telem 0x406 (overflows v), .telem 0x407 dropped]

/-! ## Tombstones (R184) -/

/-- Whether one of the tombstones removes an entry of an ID that carries a commit beat or none. -/
def tombed (ts : List Tomb) (id : Nat) (beat : Option Nat) : Bool :=
  ts.any fun x => x.id == id && match beat with
    | some b => decide (b < x.commit)
    | none => true

/-- The tombstones of a block. -/
def tombsOf (b : List Byte) : List Tomb :=
  (List.range (b.length / 32)).map fun i => ⟨leAt b (i * 32) 8, leAt b (i * 32 + 8) 8, leAt b (i * 32 + 16) 8⟩

/-- IDX.TOMB (R184, R512). -/
def execIdxTomb (o : Insn) (s : State) : Host.Outcome State Fault Refusal :=
  tileEngine Form.idxTomb o s [.s 62] fun t j => do
    let snap ← snapshotFor 9 5 o t
    let ra ← tileAt t o.a fun v => v.fmt == 8 && match v.info with
      | some l => l.beats.isSome
      | none => false
    let d ← useDsc (t.getD o.b) [0] false true
    need (decide ((← get).oldest j.act ≤ snap)) cDescriptor d.base
    if d.len ≠ 0 then do
      checkAccess j ((← get).isPriv j) .read d.base d.len
      waitHeld false d.base d.len
    let v ← useTile t j o.a ra
    let ts ← if d.len = 0 then pure []
      else pure ((tombsOf (← readOrd d.base d.len)).filter fun x => decide (x.commit ≤ snap))
    let l ← orFault v.info cTile
    let beats ← orFault l.beats cTile
    let ls := (lanesOf v l).zipIdx.map fun e =>
      let es := e.1.1.zip (beats.getD e.2 [])
      (es.filter (fun x => !tombed ts x.1.id x.2), e.1.2)
    pure (listTile l.kind l.stride (ls.map fun x => x.1.map (·.1)) (ls.map (·.2)) (some (ls.map fun x => x.1.map (·.2))))

/-! ## SLU.DIST over a numeric tile (R224) -/

/-- Row `r` of a numeric tile as binary32 patterns of the represented values. -/
def tileRow (v : TileVal) (codes : Array Nat) (sc : Array Byte) (r : Nat) : List Nat :=
  (List.range (shapeCols v.fmt v.shape)).map fun c =>
    let x := (fmtValue v.fmt (codes.getD (r * shapeCols v.fmt v.shape + c) 0)).scale (v.blockExp sc r c)
    round32 (if isScaled v.fmt then x.mul (f32 v.tscale) else x)

/-- The distances from a query to every row of a tile. -/
def tileDistances (metric : Nat) (q : List Nat) (v : TileVal) : TileVal :=
  let codes := (codesOf v.fmt v.data).toArray
  let sc := v.scales.toArray
  plainTile 0 6 (ofCodes 0 (padTo 0 1024 ((List.range (shapeRows v.shape)).map fun r => distance metric q (tileRow v codes sc r))))

end Sys2Proof.Machine
end

