-- ==== Sys2Proof/Machine/Index.lean ====
section
/-! DEFINITION. The index engine on one node (chapter 6): homes and routing (R191, R194), seam versions and lists as bytes (R169 to
R173, R180), full vectors (R172, R21), and how a record is written and committed (R181, R185 to R187). -/
namespace Sys2Proof.Machine

/-! ## Quantities and records (Table 6.2, R194) -/

def Index.codeBytes (i : Index) : Nat := 16 * 2 ^ i.code
def Index.elemBits (i : Index) : Nat := if i.vfmt = 1 then 16 else 8
def Index.vecBytes (i : Index) : Nat := ceilDiv (i.dim * i.elemBits) 512 * 64
def Index.centBytes (i : Index) : Nat := ceilDiv (i.dim * 2) 64 * 64
def Index.attrRatio (i : Index) : Nat := if i.extra then 30 else 26

/-- The home of a seam as of a snapshot. -/
def HfRec.homeAt (r : HfRec) (snap : Nat) : Nat :=
  r.more.foldl (fun h m => if m.2.2 && decide (m.2.1 ≤ snap) then m.1 else h)
    (if r.nextBeat != 0 && decide (r.nextBeat ≤ snap) && r.ready then r.nextHome else r.home)

/-- Whether the move of a seam at a beat is ready. -/
def HfRec.moveReady (r : HfRec) (beat : Nat) : Bool :=
  (r.nextBeat == beat && r.ready) || r.more.any fun m => m.2.1 == beat && m.2.2

/-- The beats of a seam's moves, in order. -/
def HfRec.moveBeats (r : HfRec) : List Nat := (if r.nextBeat = 0 then [] else [r.nextBeat]) ++ r.more.map (·.2.1)

/-- The beat of a backfill asked for at `f`: 64 beats after a move where it falls from 64 beats before that to 63 beats after it (R192
step 5). -/
def HfRec.backfillBeat (r : HfRec) (f : Nat) : Nat :=
  r.moveBeats.foldl (fun f h => if h ≤ f + 64 ∧ f < h + 64 then h + 64 else f) f

/-- Whether a seam is retired as of a snapshot. -/
def HfRec.retiredAt (r : HfRec) (snap : Nat) : Bool := r.state == 1 && decide (r.stateBeat ≤ snap)

/-- The graph that routes at a snapshot: the newest with ACTIVE_BEAT at or before it. -/
def Index.graphAt (i : Index) (snap : Nat) : Option Graph := i.graphs.find? fun g => decide (g.activeBeat ≤ snap)

/-- A seam's record in a graph. -/
def Graph.rec? (g : Graph) (seam : Nat) : Option HfRec := g.recs.find? (·.seam == seam)

/-- A seam's record in the newest graph in force that holds it. -/
def Index.recNow (i : Index) (now seam : Nat) : Option HfRec :=
  (i.graphs.filter fun g => decide (g.activeBeat ≤ now)).findSome? (·.rec? seam)

/-- A seam's record in the newest graph that holds it. -/
def Index.recAny (i : Index) (seam : Nat) : Option HfRec := i.graphs.findSome? (·.rec? seam)

/-- A seam that this node holds. -/
def Index.seam? (i : Index) (seam : Nat) : Option Seam := i.seams.find? (·.seam == seam)

/-- An act's index changed. -/
def State.modIndex (s : State) (act : Nat) (f : Index → Index) : State :=
  { s with idx := { s.idx with indexes := updWhere (·.act == act) f s.idx.indexes } }

/-- A held seam changed. -/
def State.modSeam (s : State) (act seam : Nat) (f : Seam → Seam) : State :=
  s.modIndex act fun i => { i with seams := updWhere (·.seam == seam) f i.seams }

/-- A held seam of an act. -/
def State.seam? (s : State) (act seam : Nat) : Option Seam := (s.index? act).bind (·.seam? seam)

/-- A seam's record changed in every graph that the node holds (R515). -/
def State.modRec (s : State) (act seam : Nat) (f : HfRec → HfRec) : State :=
  s.modIndex act fun i => { i with
    graphs := i.graphs.map fun g => { g with recs := updWhere (·.seam == seam) f g.recs } }

/-- Bytes of node memory as the checkers deliver them, with nothing counted: what the index engine itself holds. `State.sensed` counts
the reads that it makes of them. -/
def State.peek (s : State) (a n : Nat) : List Byte := slice ((blocksOf a n).flatMap s.mem.delivered) (a % 64) n

/-! ## Versions (R169 to R171) -/

/-- An entry of a seam. -/
structure VEntry where
  id : Nat
  attr : Nat
  loc : Nat
  extra : Nat
  stamp : Nat
  code : List Byte
deriving DecidableEq, Repr

/-- The code and attribute blocks of the entries of a version. -/
def Index.versionBody (i : Index) (es : List VEntry) : List Byte :=
  let pad := roundUp es.length 32 - es.length
  let col (k fill : Nat) (f : VEntry → Nat) : List Byte :=
    es.flatMap (fun e => leBytes (f e) k) ++ (List.replicate pad (leBytes fill k)).flatten
  es.flatMap (fun e => padTo 0#8 i.codeBytes e.code) ++ zeros (pad * i.codeBytes)
    ++ col 8 (2 ^ 64 - 1) (·.id) ++ col 8 0 (·.attr) ++ col 8 0 (·.loc)
    ++ (if i.extra then col 4 0 (·.extra) else []) ++ col 2 0 (·.stamp)

/-- The addresses of a version's blocks. -/
def Version.codeAt (v : Version) : Nat := v.addr + 128
def Version.attrAt (i : Index) (v : Version) : Nat := v.addr + 128 + v.npad * i.codeBytes
def Version.len (i : Index) (v : Version) : Nat := 128 + v.npad * (i.codeBytes + i.attrRatio)

/-- A version's header (Table 6.3). -/
def Version.header (i : Index) (seam prev : Nat) (v : Version) : List Byte :=
  let h := leBytes 0x534D5631 4 ++ leBytes seam 4 ++ leBytes v.num 2 ++ leBytes (b2n i.extra) 2 ++ leBytes v.count 4
    ++ leBytes v.npad 4 ++ leBytes i.code 1 ++ leBytes (b2n i.subq8) 1 ++ zeros 2 ++ leBytes v.cut 8 ++ leBytes v.publish 8
    ++ leBytes v.sideSeq 8 ++ leBytes v.tombSeq 8 ++ leBytes v.codeAt 8 ++ leBytes (v.attrAt i) 8 ++ leBytes prev 8 ++ zeros 44
  h ++ leBytes (crc32c h) 4

/-- A version written into the act's pool space, or nothing where the quota or the pool is short. -/
def State.writeVersion (s : State) (i : Index) (seam prev : Nat) (v : Version) (body : List Byte) : Option Version × State :=
  match s.allocPool i.act (v.len i) (.index i.act seam) with
  | (none, s) => (none, s)
  | (some a, s) =>
    let v := { v with addr := a }
    (some v, s.writeMem 0 a (v.header i seam prev ++ body))

/-- The entries of a version. -/
def State.versionEntries (s : State) (i : Index) (v : Version) : List VEntry :=
  let code := s.peek v.codeAt (v.npad * i.codeBytes)
  let attr := s.peek (v.attrAt i) (v.npad * i.attrRatio)
  (List.range v.count).map fun k =>
    ⟨leAt attr (8 * k) 8, leAt attr (8 * v.npad + 8 * k) 8, leAt attr (16 * v.npad + 8 * k) 8,
      if i.extra then leAt attr (24 * v.npad + 4 * k) 4 else 0,
      leAt attr ((if i.extra then 28 else 24) * v.npad + 2 * k) 2, slice code (k * i.codeBytes) i.codeBytes⟩

/-! ## Lists (R180) -/

/-- A side-list entry (Table 6.8a). -/
def sideBytes (e : VEntry) (commit seq : Nat) : List Byte :=
  let h := leBytes e.id 8 ++ leBytes e.attr 8 ++ leBytes e.loc 8 ++ leBytes commit 8 ++ leBytes seq 8 ++ leBytes e.extra 4
    ++ leBytes e.stamp 2 ++ zeros 14
  let c := padTo 0#8 64 e.code
  h ++ leBytes (crc32c (h ++ c)) 4 ++ c

/-- A tombstone (Table 6.8b). -/
def tombBytes (id commit seq : Nat) : List Byte :=
  let h := leBytes id 8 ++ leBytes commit 8 ++ leBytes seq 8 ++ zeros 4
  h ++ leBytes (crc32c h) 4

/-- The record size of a list. -/
def recBytes (tomb : Bool) : Nat := if tomb then 32 else 128

/-- The extent of a list, and the sequence number after its last record. -/
def Seam.ext (x : Seam) (tomb : Bool) : Extent := if tomb then x.tomb else x.side
def Seam.next (x : Seam) (tomb : Bool) : Nat := if tomb then x.nextTomb else x.nextSide

/-- The address of record `seq` of a list. -/
def Seam.recAt (x : Seam) (tomb : Bool) (seq : Nat) : Nat :=
  (x.ext tomb).addr + (seq - (x.ext tomb).first) * recBytes tomb

/-- The versions of a seam, the one being written included. -/
def Seam.all (x : Seam) : List Version := x.writing.toList ++ x.versions

/-- The oldest sequence number that a retained version needs. -/
def Seam.oldestSeq (x : Seam) (tomb : Bool) : Nat :=
  (x.all.map fun v => if tomb then v.tombSeq else v.sideSeq).foldl min (x.next tomb)

/-- The bytes of a list from a sequence number on. -/
def State.listBytes (s : State) (x : Seam) (tomb : Bool) (seq : Nat) : List Byte :=
  s.peek (x.recAt tomb seq) ((x.next tomb - seq) * recBytes tomb)

/-- What reading a version and the lists behind it counts and logs (R302). -/
def State.sensedSeam (s : State) (i : Index) (x : Seam) (v : Version) (sideSeq tombSeq : Nat) : State :=
  let list (s : State) (tomb : Bool) (seq : Nat) : State := s.sensed (x.recAt tomb seq) ((x.next tomb - seq) * recBytes tomb)
  list (list (s.sensed v.addr (v.len i)) false sideSeq) true tombSeq

/-- The side-list entries from a sequence number on, with their commit beats. -/
def State.sideFrom (s : State) (i : Index) (x : Seam) (seq : Nat) : List (VEntry × Nat) :=
  let b := s.listBytes x false seq
  (List.range (b.length / 128)).map fun k =>
    let e := slice b (k * 128) 128
    (⟨leAt e 0 8, leAt e 8 8, leAt e 0x10 8, leAt e 0x28 4, leAt e 0x2C 2, slice e 64 i.codeBytes⟩, leAt e 0x18 8)

/-- The first 64-byte unit of a locator's run. -/
def locUnit (loc : Nat) : Nat := loc % 2 ^ 36 * 256 + bits loc 36 8

/-- The runs that a seam's versions and extents hold. -/
def State.seamRuns (s : State) (i : Index) (x : Seam) : List Nat :=
  let ofExt (e : Extent) : List Nat :=
    let n := min e.cap (x.nextSide - e.first)
    let b := s.peek e.addr (n * 128)
    (List.range n).map fun k => locUnit (leAt b (k * 128 + 0x10) 8)
  x.all.flatMap (fun v => (s.versionEntries i v).map (locUnit ·.loc)) ++ (x.side :: x.oldSide).flatMap ofExt

/-- The vector-area runs that nothing holds freed, their pages discarded, and their copies droppable (R186). -/
def State.freeRuns (s : State) (act : Nat) : State :=
  match s.index? act with
  | none => s
  | some i =>
    let held := i.seams.flatMap (s.seamRuns i)
    let (keep, gone) := i.runs.partition fun r => held.contains r.1
    if gone.isEmpty then s else
    let pagesOf (r : Nat × Nat) := (List.range ((r.1 + r.2 - 1) / 256 - r.1 / 256 + 1)).map (r.1 / 256 + ·)
    let live := keep.flatMap pagesOf
    let dead := (gone.flatMap pagesOf).eraseDups.filter (!live.contains ·)
    let s := s.modIndex act fun i => { i with runs := keep, dirty := i.dirty.filter fun d => !dead.contains d.1 }
    let s := { s with idx := { s.idx with
      caches := updWhere (fun c => c.act == act && gone.any (·.1 == c.page * 256 + c.unit))
        (fun c => { c with durable := true }) s.idx.caches } }
    (dead.foldl (fun s p => if s.flash.accepts act p true then (s.discardPage act p).count 0x802 1 else s) s).adtRefresh

/-- The first capacity of a list's extent, of which the spec gives only the doubling (log 153). -/
def firstCap (tomb : Bool) : Nat := if tomb then 16 else 4

/-- A list extent replaced by one of twice the capacity when it is full, with every retained record; the runs that only the extent before
it held are freed where nobody reads it (R186). False where no space is had. -/
def State.room (s : State) (x : Seam) (tomb : Bool) : Bool × State :=
  let e := x.ext tomb
  if x.next tomb < e.first + e.cap then (true, s) else
  let cap := max (firstCap tomb) (2 * e.cap)
  match s.allocPool x.act (cap * recBytes tomb) (.index x.act x.seam) with
  | (none, s) => (false, s)
  | (some a, s) =>
    let first := x.oldestSeq tomb
    let s := (s.sensed (x.recAt tomb first) ((x.next tomb - first) * recBytes tomb)).writeMem 0 a (s.listBytes x tomb first)
    let new : Extent := ⟨a, cap, first, []⟩
    let keep := if e.readers.isEmpty then [] else [e]
    let s := if e.readers.isEmpty then s.freeAt e.addr else s
    let s := s.modSeam x.act x.seam fun y =>
      if tomb then { y with tomb := new, oldTomb := y.oldTomb ++ keep } else { y with side := new, oldSide := y.oldSide ++ keep }
    (true, if e.readers.isEmpty && !tomb then s.freeRuns x.act else s)

/-- A record appended to its list, and journalled (R185). -/
def State.putRecord (s : State) (act seam : Nat) (tomb : Bool) (b : List Byte) : State :=
  match s.seam? act seam with
  | none => s
  | some x =>
    let s := (s.writeMem 0 (x.recAt tomb (x.next tomb)) b).journal (.entry act seam tomb b)
    s.modSeam act seam fun y => if tomb then { y with nextTomb := y.nextTomb + 1 } else { y with nextSide := y.nextSide + 1 }

/-! ## Vectors (R172, R175) -/

/-- The code of a vector. -/
def Index.encode (i : Index) (x : List Nat) : List Byte :=
  let n := nsubOf i.code i.subq8
  let ks := ksOf i.subq8
  let d := i.dim / n
  let v := unitVec i.metric x
  let best (u : Nat) : Nat :=
    let q := slice v (u * d) d
    ((List.range ks).foldl (fun b c =>
      let l := distL2 q (slice i.codebook ((u * ks + c) * d) d)
      match b with
      | none => some (c, l)
      | some (_, m) => if flt l m then some (c, l) else b) none).elim 0 (·.1)
  let codes := (List.range n).map best
  if i.subq8 then codes.map (BitVec.ofNat 8 ·)
  else (List.range (n / 2)).map fun j => BitVec.ofNat 8 (codes.getD (2 * j) 0 + 16 * codes.getD (2 * j + 1) 0)

/-- The bytes of a full vector in VFMT for a SCALE, given as its BF16 pattern. The spec gives no SCALE for E4M3 and INT8 vectors, and no
INT8 element for a NaN: both come in as free values. -/
def Index.stored (i : Index) (x : List Nat) (scale nan : Nat) : List Byte :=
  let (sm, se) := match bf16 scale with
    | .fin _ m e => (m, e)
    | _ => (1, 0)
  let one (n : Nat) : List Byte :=
    if i.vfmt = 1 then leBytes (roundBf16 (f32 n)) 2 else
    let nf : Narrow := if i.vfmt = 2 then .e4m3 else .int8
    leBytes (((nf.quantise (f32 n) sm se).map (·.1)).getD nan) 1
  padTo 0#8 i.vecBytes (x.flatMap one)

/-- A full vector's SCALE and bytes. -/
def State.storeVec (s : State) (i : Index) (x : List Nat) : (Nat × List Byte) × State :=
  if i.vfmt = 1 then ((0x3F80, i.stored x 0x3F80 0), s) else
  let (a, s) := s.draw 16
  let (b, s) := s.draw 8
  let scale := 1 + a % 0x7F7F
  ((scale, i.stored x scale b), s)

/-- The elements of a stored vector as binary32 patterns (R172). -/
def Index.loadVec (i : Index) (b : List Byte) (scale : Nat) : List Nat :=
  (List.range i.dim).map fun u =>
    let c := leAt b (u * i.elemBits / 8) (i.elemBits / 8)
    round32 ((fmtValue i.vfmt c).mul (bf16 scale))

/-- The lowest free run of the vector area (R185 step 3, R329): one step per unit of fuel. -/
def Index.freeRun (i : Index) (open_ : Nat → Bool) (n : Nat) : Nat → Nat → Option Nat
  | 0, _ => none
  | k + 1, pos =>
    if pos + n > (i.vecFirst + i.vecPages) * 256 then none else
    let shut := (List.range ((pos + n - 1) / 256 - pos / 256 + 1)).find? fun j => !open_ (pos / 256 + j)
    match shut with
    | some j => i.freeRun open_ n k (((pos / 256 + j) / segPages + 1) * segPages * 256)
    | none =>
      match i.runs.find? fun r => decide (r.1 < pos + n ∧ pos < r.1 + r.2) with
      | some r => i.freeRun open_ n k (r.1 + r.2)
      | none => some pos

/-- A full vector's run in the vector area. -/
def State.freeRun (s : State) (i : Index) : Option Nat :=
  i.freeRun (fun p => s.flash.accepts i.act p false) (i.vecBytes / 64) (2 * i.runs.length + i.vecPages / segPages + 3)
    (i.vecFirst * 256)

/-- The contents of a logical page, with nothing read from the cells. -/
def FlashSt.contents (f : FlashSt) (act page : Nat) : List Byte :=
  match f.buffered act page, f.page? act page with
  | some w, some p => if w.wseq < p.wseq then p.data.getD (zeros pageBytes) else w.data
  | some w, none => w.data
  | none, some p => p.data.getD (zeros pageBytes)
  | none, none => zeros pageBytes

/-- Bytes gathered into the vector-area pages that they lie in (R328), from byte `o` of page `p` on: one page per unit of fuel. -/
def State.gather (act : Nat) : Nat → Nat → Nat → List Byte → State → State
  | 0, _, _, _, s => s
  | k + 1, p, o, b, s =>
    if b.isEmpty then s else
    let n := pageBytes - o
    let cur := match (s.index? act).bind (fun i => i.dirty.find? (·.1 == p)) with
      | some d => d.2
      | none => s.flash.contents act p
    let s := s.modIndex act fun i => { i with
      dirty := i.dirty.filter (·.1 != p) ++ [(p, overlay cur o (b.take n))] }
    State.gather act k (p + 1) 0 (b.drop n) s

/-- The packed streams of a cache copy: one per 4,096 raw bytes, kept raw where packing saves nothing (R300): a piece per unit of
fuel. -/
def copyStreams : Nat → List Byte → List (List Byte × Bool)
  | 0, _ => []
  | k + 1, b =>
    if b.isEmpty then [] else
    let p := b.take 4096
    (match packTile p with
      | some c => (c, true)
      | none => (p, false)) :: copyStreams k (b.drop 4096)

/-- The stack cache copy of a vector (R21), charged to the act's stack quota, and to its cache quota, which it may pass
while its vector is not durable (R299). False where no space is had. -/
def State.cacheCopy (s : State) (act unit : Nat) (b : List Byte) : Bool × State :=
  let ps := copyStreams (b.length / 4096 + 1) b
  let bytes := ps.flatMap (·.1)
  let s := State.fitCache act (roundUp (max bytes.length 1) 512) s.idx.caches.length s
  let id := s.nextId
  match s.fresh.allocPool act bytes.length (.cache act id) with
  | (none, s) => (false, s)
  | (some a, s) =>
    let s := ps.zipIdx.foldl (fun s p => s.packCount (min 4096 (b.length - 4096 * p.2)) (if p.1.2 then some p.1.1.length else none)) s
    let s := s.writeMem 0 a bytes
    (true, { s with idx := { s.idx with
      caches := s.idx.caches ++ [⟨id, act, unit / 256, unit % 256, b.length, ps.map fun p => (p.1.length, p.2), a, false⟩] } })

/-! ## Routing (R191) -/

/-- A centroid as binary32 patterns. -/
def HfRec.centroid (i : Index) (r : HfRec) : List Nat := (List.range i.dim).map fun k => leAt r.cent (2 * k) 2 * 2 ^ 16

/-- A record met on the walk: distance, seam and record index. -/
abbrev Step1 := Nat × Nat × Nat

/-- The order of R191. -/
def stepBefore (a b : Step1) : Bool := flt a.1 b.1 || (feq a.1 b.1 && decide (a.2.1 < b.2.1))

/-- The edges of one record: `best`, `frontier` and `visited` after them. -/
def walkEdges (ef : Nat) (dist : Nat → Step1) :
    List Nat → List Step1 × List Step1 × List Nat → List Step1 × List Step1 × List Nat
  | [], w => w
  | n :: t, (best, fr, vis) =>
    if vis.contains n then walkEdges ef dist t (best, fr, vis) else
    let d := dist n
    let last := best.getLast?
    if best.length < ef || (match last with
        | some l => stepBefore d l
        | none => true) then
      walkEdges ef dist t ((insertBy stepBefore d best).take ef, insertBy stepBefore d fr, vis ++ [n])
    else walkEdges ef dist t (best, fr, vis ++ [n])

/-- The walk: one record per unit of fuel. -/
def walk (ef : Nat) (dist : Nat → Step1) (edges : Nat → List Nat) :
    Nat → List Step1 → List Step1 → List Nat → List Step1
  | 0, best, _, _ => best
  | _ + 1, best, [], _ => best
  | k + 1, best, x :: fr, vis =>
    let stop := decide (best.length ≥ ef) && match best.getLast? with
      | some l => stepBefore l x
      | none => false
    if stop then best else
    let (best, fr, vis) := walkEdges ef dist (edges x.2.2) (best, fr, vis)
    walk ef dist edges k best fr vis

/-- The records that a graph selects for a query, with their distances. ROUTE_EF is that of the graph's own install, so that a snapshot
before the beat of a later one routes as it always did. -/
def Index.route (i : Index) (g : Graph) (q : List Nat) (nprobe : Nat) (retired : HfRec → Bool) : List (Nat × HfRec) :=
  let ef := max nprobe (g.sched.headD i.routeEf)
  let recs := g.recs.toArray
  let dist (n : Nat) : Step1 :=
    match recs[n]? with
    | some r => (distance i.metric q (r.centroid i), r.seam, n)
    | none => (nan32, 2 ^ 32, n)
  let starts := (g.recs.zipIdx.filter (·.1.entry)).map (·.2)
  let best := (sortBy stepBefore (starts.map dist)).take ef
  let found := walk ef dist (fun n => (recs[n]?.map (·.edges)).getD []) (g.recs.length + 1) best best starts
  ((found.filterMap fun x => (recs[x.2.2]?).map fun r => (x.1, r)).filter fun x => !retired x.2).take nprobe

/-- IDX.ROUTE (R191, R201, R206). -/
def execIdxRoute (o : Insn) (s : State) : Host.Outcome State Fault Refusal :=
  tileEngine Form.idxRoute o s (.s 62 :: s.vecReads o.strand o.a) fun t j => do
    let snap ← snapshotFor 9 1 o t
    let i ← indexOf j
    let q ← vectorAt t j o.a i.dim
    let n := o.fld 0 12
    let s ← get
    let found := match i.graphAt snap with
      | some g => if snap < s.oldest j.act then [] else i.route g q n (·.retiredAt snap)
      | none => []
    pure (listTile 1 n [found.map fun x => ⟨x.1, 0, x.2.homeAt snap, 0, x.2.seam, 0⟩] [(false, false, Acc320.zero)] none)

/-! ## IDX.OPEN (R173, R511) -/

/-- A job entered among the readers of a version and of the current extents (R102). -/
def State.addReader (s : State) (act seam num job : Nat) : State :=
  let put (l : List Nat) : List Nat := if l.contains job then l else l ++ [job]
  s.modSeam act seam fun x => { x with
    versions := updWhere (·.num == num) (fun v => { v with readers := put v.readers }) x.versions
    side := { x.side with readers := put x.side.readers }
    tomb := { x.tomb with readers := put x.tomb.readers } }

/-- The version of a seam that a snapshot opens on this node. -/
def State.visible (s : State) (act seam snap : Nat) : Option (Index × Seam × Version) := do
  let i ← s.index? act
  let g ← i.graphAt snap
  let r ← g.rec? seam
  let x ← i.seam? seam
  if snap < s.oldest act || r.homeAt snap != s.self || r.retiredAt snap then none else
  let v ← x.versions.find? fun v => decide (v.cut ≤ snap ∧ v.publish ≤ s.now)
  pure (i, x, v)

def execIdxOpen (o : Insn) (s : State) : Host.Outcome State Fault Refusal :=
  engine Form.idxOpen o s [.s 62] (presWrites o) fun t j => do
    let snap ← snapshotFor 9 0 o t
    let seam := (t.getS o.a).toNat
    match (← get).visible j.act seam snap with
    | none => pure (.setD o.dst 0#128 :: setPres o false)
    | some (i, x, v) =>
      let (base, len) := match o.fld 0 2 with
        | 0 => (v.codeAt, v.npad * i.codeBytes)
        | 1 => (v.attrAt i, v.npad * i.attrRatio)
        | 2 => (x.recAt false v.sideSeq, (x.nextSide - v.sideSeq) * 128)
        | _ => (x.recAt true v.tombSeq, (x.nextTomb - v.tombSeq) * 32)
      upd fun s => s.addReader j.act seam v.num j.id
      upd fun s => { s with idx := { s.idx with opened := s.idx.opened ++ [(j.id, base, len)] } }
      pure (.setD o.dst (encodeDsc base len true) :: setPres o true)

/-! ## Committed beats (R181, R167, R193, R195) -/

/-- The beats at and past which a hold keeps the committed beat back. -/
def State.indexHolds (s : State) : List Nat :=
  let graphs := s.idx.indexes.flatMap (·.graphs)
  (graphs.filter (!·.settled)).map (·.activeBeat)
    ++ (graphs.flatMap (·.recs)).flatMap (fun r =>
      (if r.nextBeat != 0 && !r.ready then [r.nextBeat] else []) ++ (r.more.filter (!·.2.2)).map (·.2.1))
    ++ s.idx.rebalances.filterMap (fun r =>
      if (r.source == s.self && !r.acked) || (r.target == s.self && !r.closeSeen) then some r.beat else none)
    ++ s.idx.retires.map (·.beat)
    ++ s.car.unacked.filterMap fun b => match b with
      | .pending _ _ _ _ beat => some beat
      | _ => none

/-- The node's committed beat. -/
def State.committedBeat (s : State) : Nat := s.indexHolds.foldl (fun c h => min c (h - 1)) s.now

/-! ## Writing a record -/

/-- The entries that the node holds under the ceiling of Table 6.11. -/
def State.entriesHeld (s : State) : Nat :=
  ((s.idx.indexes.flatMap (·.seams)).map fun x =>
    match x.versions with
    | v :: _ => v.count + (x.nextSide - v.sideSeq)
    | [] => 0).sum

/-- The side-list entries beyond the newest version. -/
def Seam.beyond (x : Seam) : Nat :=
  match x.versions with
  | v :: _ => x.nextSide - v.sideSeq
  | [] => 0

/-- A backfill scheduled for a seam (R187, R192 step 5, Table 6.10): whether it was. A pending one that is no later stays. -/
def State.scheduleBackfill (s : State) (act seam beat : Nat) : Bool × State :=
  match (s.index? act).bind (·.recAny seam) with
  | none => (false, s)
  | some r =>
    let f := r.backfillBeat beat
    if r.state = 1 ∧ r.stateBeat ≤ f then (false, s) else
    if ((s.seam? act seam).bind (·.backfill)).any fun p => decide (p ≤ f) then (true, s) else
    (true, (if f = beat then s else s.count 0x303 1).modSeam act seam fun x => { x with backfill := some f })

/-- A pending backfill put at a beat after its own, out of the reach of the seam's moves: one movement (R188 step 1, R189, R192). -/
def State.postpone (s : State) (act seam beat : Nat) : State :=
  let f := (((s.index? act).bind (·.recAny seam)).map (·.backfillBeat beat)).getD beat
  (s.count 0x303 1).modSeam act seam fun x => { x with backfill := some f }

/-- A pending backfill moved where a move of its seam now reaches it (R192 step 5). -/
def State.avoidMoves (s : State) (act seam : Nat) : State :=
  match (s.index? act).bind (·.recAny seam), (s.seam? act seam).bind (·.backfill) with
  | some r, some f => if r.backfillBeat f = f then s else s.postpone act seam f
  | _, _ => s

/-- The automatic and forced schedules of R187 after an entry or a publication: a forced one that sets the pending beat is counted. -/
def State.autoBackfill (s : State) (act seam : Nat) : State :=
  match s.index? act, s.seam? act seam with
  | some i, some x =>
    let n := x.beyond
    let count := (x.versions.head?.map (·.count)).getD 0
    if n ≥ 65536 then
      let (_, t) := s.scheduleBackfill act seam (roundUp (s.now + 64) 64)
      if (t.seam? act seam).bind (·.backfill) == x.backfill then t else t.count 0x304 1
    else if n > max 32 (count * i.bfPermille / 1000) then (s.scheduleBackfill act seam (roundUp (s.now + i.bfLead) 64)).2
    else s
  | _, _ => s

/-- The rebalance of a seam in which this node is the source and has not closed. -/
def State.sourceOf (s : State) (act seam : Nat) : Option Rebalance :=
  s.idx.rebalances.find? fun r => r.act == act && r.seam == seam && r.source == s.self

/-- Whether a seam that this node holds is homed elsewhere for what commits at the next beat: its source forwards (R192 step 4). -/
def State.away (s : State) (x : Seam) : Bool :=
  x.forwarding || ((s.sourceOf x.act x.seam).isSome &&
    ((s.index? x.act).bind (·.recAny x.seam)).any fun r => r.homeAt (s.now + 1) != s.self)

/-- A record on its way to the home of its seam. -/
def State.sendSeamRecord (s : State) (home : Nat) (r : SeamRecord) : State :=
  s.sendNode home r.act 1 none (64 + 4 * r.vec.length + r.raw.length) (.record home r)

/-- A record written now (R185, R180, R181): the cause that stops it, or its commit beat. What was dropped to make room stays dropped
(Table 10.1). -/
def State.commitRecord (s0 : State) (r : SeamRecord) : (Nat ⊕ Nat) × State :=
  let commit := s0.now + 1
  let done (s : State) (b : List Byte) : (Nat ⊕ Nat) × State :=
    let s := s.putRecord r.act r.seam r.tomb b
    let s := { s with idx := { s.idx with written := s.idx.written ++ [(r.act, r.seam, r.id)] } }
    let s := match s.sourceOf r.act r.seam with
      | some m => s.sendSeamRecord m.target { r with vec := [], raw := b }
      | none => s
    (.inr commit, s)
  match s0.index? r.act, s0.seam? r.act r.seam with
  | some i, some x =>
    match i.recNow s0.now r.seam with
    | none => (.inl cUnmapped, s0)
    | some h =>
      if h.retiredAt commit then (.inl cUnmapped, s0) else
      if s0.entriesHeld ≥ 32 * 10 ^ 9 then (.inl cQuota, s0) else
      match s0.room x r.tomb with
      | (false, s) => (.inl cQuota, s)
      | (true, s) =>
        if r.tomb then done (s.count 0x301 1) (tombBytes r.id commit x.nextTomb) else
        if s.flash.readOnly then (.inl cQuota, s) else
        match s.freeRun ((s.index? r.act).getD i) with
        | none => (.inl cQuota, s)
        | some u =>
          let ((scale, b), s) := s.storeVec i r.vec
          match s.cacheCopy r.act u b with
          | (false, s) => (.inl cQuota, s)
          | (true, s) =>
            let s := s.modIndex r.act fun i => { i with runs := i.runs ++ [(u, i.vecBytes / 64)] }
            let s := State.gather r.act (b.length / pageBytes + 2) (u / 256) (u % 256 * 64) b s
            let e : VEntry := ⟨r.id, r.attr, u / 256 + (u % 256) * 2 ^ 36 + scale * 2 ^ 48, if i.extra then r.extra else 0,
              commit % 2 ^ 16, i.encode r.vec⟩
            let (c, s) := done (s.count 0x300 1) (sideBytes e commit x.nextSide)
            (c, s.autoBackfill r.act r.seam)
  | _, _ => (.inl cUnmapped, s0)

/-- The answer to a record: the instruction that issued it goes on, on this node or on its own. -/
def State.answerHere (s : State) (strand tag cause commit : Nat) : State :=
  match (s.anyStrand? strand).bind (·.flight? tag) with
  | none => s
  | some f =>
    let pres := f.effects.any fun e => match e with
      | .setP _ _ => true
      | _ => false
    let soft := cause = cUnmapped ∧ pres
    let (left, s) := if soft ∧ f.func = 4 then s.draw 64 else (commit, s)
    let eff := f.effects.map fun e => match e with
      | .setS r _ => .setS r (BitVec.ofNat 64 left)
      | .setP p _ => .setP p (decide (cause = 0))
      | e => e
    let eff := if cause = 0 ∨ soft then eff else [.faultAt cause 0]
    s.modStrand strand fun t => { t with
      inflight := updWhere (·.tag == tag) (fun f => { f with gate := .commit commit, effects := eff }) t.inflight }

/-- The same for any origin. -/
def State.answer (s : State) (r : SeamRecord) (cause commit : Nat) : State :=
  if r.node = s.self then s.answerHere r.strand r.tag cause commit
  else s.sendNode r.node r.act 1 none 0 (.recordDone r.node r.strand r.tag cause commit)

/-- Whether a record must wait: for the beat at which it may be written (R181, R192 step 4), behind another of its ID, or for room in
its seam's side list (R187). -/
def State.mustHold (s : State) (r : SeamRecord) : Bool :=
  let same (w : Nat × Nat × Nat) : Bool := w == (r.act, r.seam, r.id)
  let target := s.idx.rebalances.any fun m =>
    m.act == r.act && m.seam == r.seam && m.target == s.self && m.source != s.self && decide (s.now + 1 < m.beat)
  target || decide (s.idx.written.length ≥ 512) || s.idx.written.any same
    || (s.idx.heldApps.any fun h => same (h.what.act, h.what.seam, h.what.id))
    || (!r.tomb && match s.seam? r.act r.seam with
      | some x => decide (x.beyond ≥ 131072)
      | none => false)

/-- Whether this node is the target of a rebalance of a seam. -/
def State.expects (s : State) (act seam : Nat) : Bool :=
  s.idx.rebalances.any fun m => m.act == act && m.seam == seam && m.target == s.self && m.source != s.self

/-- A record held to be tried again. -/
def State.holdRecord (s : State) (r : SeamRecord) : State :=
  { s.fresh with idx := { s.idx with heldApps := s.idx.heldApps ++ [⟨s.nextId, r⟩] } }

/-- A record that the source of a rebalance has committed, stored at the target as it came (R192 step 2): one that is ahead of the bulk
copy, or of a record before it, waits, and one that the copy brought is passed over. -/
def State.storeRaw (s : State) (r : SeamRecord) : State :=
  match s.seam? r.act r.seam with
  | none => if s.expects r.act r.seam then s.holdRecord r else s
  | some x =>
    let seq := leAt r.raw (if r.tomb then 0x10 else 0x20) 8
    if seq ≠ x.next r.tomb then (if x.next r.tomb < seq ∧ s.expects r.act r.seam then s.holdRecord r else s) else
    match s.room x r.tomb with
    | (true, s) => s.putRecord r.act r.seam r.tomb r.raw
    | (false, s) => s

/-- A record at a node: one that is to be stored as it came, or one at the home of its seam: forwarded, held, or written and answered. -/
def State.takeRecord (s : State) (r : SeamRecord) : State :=
  if !r.raw.isEmpty then s.storeRaw r else
  match s.seam? r.act r.seam with
  | none => s.answer r cUnmapped 0
  | some x =>
    match s.away x, s.sourceOf r.act r.seam with
    | true, some m => s.sendSeamRecord m.target r
    | _, _ =>
      if s.mustHold r then s.holdRecord r
      else
        match s.commitRecord r with
        | (.inl c, s) => s.answer r c 0
        | (.inr b, s) => s.answer r 0 b

/-- Held records tried again, in order. -/
def State.retryHeld (s : State) : State :=
  let hs := s.idx.heldApps
  hs.foldl (fun s h => s.takeRecord h.what) { s with idx := { s.idx with heldApps := [] } }

/-- Appends held at 131,072 entries go on once the backfill is published. -/
def execAppendRelease (act seam : Nat) (s : State) : Host.Outcome State Fault Refusal :=
  .next (match s.seam? act seam with
    | some x => if x.beyond < 131072 then s.retryHeld else s
    | none => s)

/-! ## IDX.APPEND, APPENDX and DELETE (R185, R186) -/

/-- The home to which a record goes: as of the commit beat that it would take. -/
def State.homeFor' (s : State) (act seam : Nat) : Option Nat :=
  ((s.index? act).bind (·.recNow s.now seam)).bind fun r =>
    if r.retiredAt (s.now + 1) then none else some (r.homeAt (s.now + 1))

/-- The handover of a record to the index engine: in flight until its answer. -/
def sendRecord (f : Form) (o : Insn) (t : Strand) (reads : List Res) (r : SeamRecord) (home : Nat) : M Unit := do
  let tag := (← get).nextId
  let r := { r with node := (← get).self, strand := t.id, tag := tag }
  launch f o t (.append 0) reads (presWrites o) (.setS o.dst 0#64 :: setPres o true)
  upd fun s => if home = s.self then s.takeRecord r else s.sendSeamRecord home r

/-- What an append or delete does where it cannot be made: its soft outcome, which leaves `left` in its destination, or its fault. -/
def softRecord (f : Form) (o : Insn) (t : Strand) (reads : List Res) (cause : Nat) (left : DWord := 0#64) : M Unit :=
  if o.fld 25 3 = 0 then throw (.fault cause 0)
  else launch f o t .engine reads (presWrites o) (.setS o.dst left :: setPres o false)

/-- A vector operand, or zeros with the fault that its contents raise: a cause that R84 ranks after the index's own. -/
def lateVector (t : Strand) (j : Job) (reg dim : Nat) : M (List Nat × Option Fail) := do
  try
    pure (← vectorAt t j reg dim, none)
  catch e =>
    match e with
    | .fault k _ => if k = cTile then throw e else pure (List.replicate dim 0, some e)
    | .endJob _ _ => pure (List.replicate dim 0, some e)
    | _ => throw e

/-- IDX.APPEND and IDX.APPENDX. -/
def appendBody (f : Form) (o : Insn) (extra : Nat) (reads : List Res) (s : State) : Host.Outcome State Fault Refusal :=
  issue f o s fun t j => do
    if !t.clear reads (presWrites o) then throw .hold
    let id := (o.ext.getD 0 0#64).toNat
    let s ← get
    match s.index? j.act with
    | none => do
      let _ ← tileAt t o.a fun v => v.fmt == 0 && v.shape == 6
      softRecord f o t reads (if bitOf id 63 then cDescriptor else cUnmapped)
    | some i =>
      let (x, late) ← lateVector t j o.a i.dim
      if bitOf id 63 then softRecord f o t reads cDescriptor else
      let b := (t.getS o.b).toNat
      let seam := if b = 0xFFFFFFFF then
          match i.graphAt s.now with
          | some g => ((i.route g x 1 (·.state == 1)).head?.map (·.2.seam)).getD 0xFFFFFFFF
          | none => 0xFFFFFFFF
        else b
      match s.homeFor' j.act seam with
      | none => softRecord f o t reads cUnmapped
      | some h =>
        let r : SeamRecord := ⟨j.act, seam, false, id, (o.ext.getD 1 0#64).toNat, extra, x, 0, 0, 0, []⟩
        match late with
        | none => sendRecord f o t reads r h
        | some e =>
          let full : Bool := match (s.commitRecord r).1 with
            | .inl c => c == cQuota
            | .inr _ => false
          if h = s.self ∧ full then throw (.fault cQuota 0) else throw e

def execIdxAppend (o : Insn) (s : State) : Host.Outcome State Fault Refusal :=
  appendBody Form.idxAppend o 0 (s.vecReads o.strand o.a) s

def execIdxAppendx (o : Insn) (s : State) : Host.Outcome State Fault Refusal :=
  appendBody Form.idxAppendx o ((o.ext.getD 2 0#64).toNat % 2 ^ 32) (s.vecReads o.strand o.a) s

/-- IDX.DELETE: its soft outcome is that of Table 3.13, and what it leaves in sD then is a free value (log 141). -/
def execIdxDelete (o : Insn) (s : State) : Host.Outcome State Fault Refusal :=
  issue Form.idxDelete o s fun t j => do
    if !t.clear [] (presWrites o) then throw .hold
    let seam := (t.getS o.a).toNat
    match (← get).homeFor' j.act seam with
    | none => do
      let left ← if o.fld 25 3 = 0 then pure 0 else updGet fun s => s.draw 64
      softRecord Form.idxDelete o t [] cUnmapped (BitVec.ofNat 64 left)
    | some h =>
      sendRecord Form.idxDelete o t [] ⟨j.act, seam, true, (t.getS o.b).toNat, 0, 0, [], 0, 0, 0, []⟩ h

end Sys2Proof.Machine
end

