-- ==== Sys2Proof/Machine/Seams.lean ====
section
/-! DEFINITION. What happens to seams over time (chapter 6): installs (R165 to R167, R515), backfills and releases (R187 to R190),
rebalances (R192, R193, R196), retirements (R195) and SYS.IDXOP (R514). -/
namespace Sys2Proof.Machine

/-! ## Broadcasts (R369) -/

/-- The other members of the Carousel. -/
def State.others (s : State) : List Nat :=
  let map := s.rd F.carMembersLo_map + 2 ^ 32 * s.rd F.carMembersHi_map
  (List.range 64).filter fun p => map.testBit p && p != s.self

/-- A broadcast that every member acknowledges: at once where there is no other. -/
def State.broadcast (s : State) (b : Bcast) : State :=
  let s := s.tell b
  if s.others.isEmpty then s else { s with car := { s.car with unacked := s.car.unacked ++ [b] } }

/-- Whether a broadcast of this node is still to be acknowledged. -/
def State.unackedB (s : State) (b : Bcast) : Bool := s.car.unacked.contains b

/-! ## Freed storage (R186, R190) -/

/-- A seam's storage released. -/
def State.releaseSeam (s : State) (act seam : Nat) : State :=
  let s := s.dropAlloc fun k => k == .index act seam
  (s.modIndex act fun i => { i with seams := i.seams.filter (·.seam != seam) }).freeRuns act

/-- Whether a job reads a seam (R102). -/
def Seam.read (x : Seam) : Bool :=
  x.versions.any (!·.readers.isEmpty) || (x.side :: x.tomb :: (x.oldSide ++ x.oldTomb)).any (!·.readers.isEmpty)

/-- The views that a job has opened end with it (R102). -/
def State.closeViews (s : State) (job : Nat) : State :=
  let out (l : List Nat) : List Nat := l.filter (· != job)
  let ext (e : Extent) : Extent := { e with readers := out e.readers }
  let one (x : Seam) : Seam := { x with
    versions := x.versions.map (fun v => { v with readers := out v.readers })
    side := ext x.side, tomb := ext x.tomb, oldSide := x.oldSide.map ext, oldTomb := x.oldTomb.map ext }
  let s := { s with idx := { s.idx with
    opened := s.idx.opened.filter (·.1 != job)
    indexes := s.idx.indexes.map (fun (i : Index) => { i with seams := i.seams.map one }) } }
  let idle (e : Extent) : Bool := e.readers.isEmpty
  let dead := (s.idx.indexes.flatMap (·.seams)).flatMap fun x => (x.oldSide ++ x.oldTomb).filter idle
  let s := dead.foldl (fun s e => s.freeAt e.addr) s
  let s := { s with idx := { s.idx with
    indexes := s.idx.indexes.map (fun (i : Index) => { i with
      seams := i.seams.map (fun (x : Seam) => { x with oldSide := x.oldSide.filter (!idle ·), oldTomb := x.oldTomb.filter (!idle ·) }) }) } }
  s.idx.indexes.foldl (fun (s : State) (i : Index) => if dead.isEmpty then s else s.freeRuns i.act) s

/-- A version released (R190). -/
def execVersionRelease (act seam num : Nat) (s : State) : Host.Outcome State Fault Refusal :=
  .next (match s.seam? act seam with
    | none => s
    | some x =>
      match x.versions.find? (·.num == num) with
      | none => s
      | some v =>
        let newer := x.versions.takeWhile (·.num != num)
        if v.readers.isEmpty && newer.any (fun w => decide (w.cut ≤ s.oldest act)) then
          ((s.freeAt v.addr).modSeam act seam fun x => { x with versions := x.versions.filter (·.num != num) }).freeRuns act
        else s)

/-- The pool space under which a graph stands in the list of allocations. -/
def graphSpace (act activeBeat : Nat) : AllocKind := .index act (2 ^ 32 + activeBeat)

/-- A graph's pool space released. -/
def State.freeGraph (s : State) (act activeBeat : Nat) : State := s.dropAlloc fun k => k == graphSpace act activeBeat

/-- Headframe graphs released once a newer one's ACTIVE_BEAT is at or before O (R190). -/
def State.releaseGraphs (s : State) : State :=
  s.idx.indexes.foldl (fun s i =>
    let o := s.oldest i.act
    let old := i.graphs.drop ((i.graphs.takeWhile fun g => decide (o < g.activeBeat)).length + 1)
    let s := old.foldl (fun s g => s.freeGraph i.act g.activeBeat) s
    s.modIndex i.act fun i => { i with graphs := i.graphs.take (i.graphs.length - old.length) }) s

/-! ## Backfills (R188, R189) -/

/-- What a backfill keeps of the entries: none that a tombstone removes, and one copy of each ID (R188 step 3). Version entries count as
committed at the cut. -/
def backfillEntries (old : List VEntry) (side : List (VEntry × Nat)) (tombs : List Tomb) : List VEntry :=
  let live := old.filter (fun e => !tombed tombs e.id none) ++ (side.filter fun e => !tombed tombs e.1.id (some e.2)).map (·.1)
  let one := live.foldl (fun acc e =>
    if acc.any (·.id == e.id) then updWhere (·.id == e.id) (fun k => if stampNewer e.stamp k.stamp then e else k) acc
    else acc ++ [e]) []
  sortBy (fun a b => decide (a.id < b.id)) one

/-- The cut of a backfill at its beat, on the home of its seam. One whose version finds no room, or would hold more than 2^24 entries
(Table 6.11), is postponed (R189). -/
def execBackfillCut (act seam : Nat) (s : State) : Host.Outcome State Fault Refusal :=
  .next (match s.index? act, s.seam? act seam with
    | some i, some x =>
      match x.backfill, x.writing, x.versions with
      | some f, none, v :: _ =>
        if decide (f > s.now) || s.away x then s else
        let s := s.fired 1
        let side := s.sideFrom i x v.sideSeq
        let tombs := tombsOf (s.listBytes x true v.tombSeq)
        let sideIn := side.filter fun e => decide (e.2 ≤ f)
        let tombIn := tombs.filter fun t => decide (t.commit ≤ f)
        let es := backfillEntries (s.versionEntries i v) sideIn tombIn
        let s := s.sensedSeam i x v v.sideSeq v.tombSeq
        let w : Version := ⟨(v.num + 1) % 2 ^ 16, es.length, roundUp es.length 32, f, 0, v.sideSeq + sideIn.length,
          v.tombSeq + tombIn.length, 0, []⟩
        if es.length > 2 ^ 24 then s.postpone act seam (f + i.bfLead) else
        match s.writeVersion i seam v.addr w (i.versionBody es) with
        | (none, s) => s.postpone act seam (f + i.bfLead)
        | (some w, s) => s.modSeam act seam fun x => { x with backfill := none, writing := some w }
      | _, _, _ => s
    | _, _ => s)

/-- The bulk copy of a seam (R192 step 2). -/
def State.seamCopy (s : State) (i : Index) (x : Seam) (backfill : Option Nat) : Option SeamCopy :=
  x.versions.head?.map fun v =>
    (let sf := x.oldestSeq false
    let tf := x.oldestSeq true
    ⟨i.act, x.seam, v.num, v.count, v.cut, v.publish, v.sideSeq, v.tombSeq, s.peek v.codeAt (v.len i - 128), sf,
      s.listBytes x false sf, tf, s.listBytes x true tf, backfill⟩ : SeamCopy)

/-- A bulk copy sent. -/
def State.sendCopy (s : State) (act seam target : Nat) (backfill : Option Nat) : State :=
  match s.index? act, s.seam? act seam with
  | some i, some x =>
    match s.seamCopy i x backfill with
    | some c =>
      let s := match x.versions with
        | v :: _ => s.sensedSeam i x v (x.oldestSeq false) (x.oldestSeq true)
        | [] => s
      let beat := ((s.idx.rebalances.find? fun m => m.act == act && m.seam == seam && m.target == target).map (·.beat)).getD 0
      s.sendNode target act 3 (some (beat - 1024)) (128 + c.body.length + c.side.length + c.tomb.length) (.seamCopy target c)
    | none => s
  | _, _ => s

/-- A backfill's version published, at a beat after its cut. -/
def execBackfillPublish (act seam : Nat) (s : State) : Host.Outcome State Fault Refusal :=
  .next (match s.index? act, s.seam? act seam with
    | some i, some x =>
      match x.writing, x.versions with
      | some w, v :: _ =>
        if s.now ≤ w.cut then s else
        let w := { w with publish := s.now }
        let s := (s.writeMem 0 w.addr (w.header i seam v.addr)).count 0x302 1
        let s := s.modSeam act seam fun x => { x with versions := w :: x.versions, writing := none }
        let s := if x.backfill.any fun f => decide (f ≤ s.now) then s.postpone act seam (s.now + 1) else s
        let s := match s.sourceOf act seam with
          | some m => s.sendCopy act seam m.target none
          | none => s
        s.autoBackfill act seam
      | _, _ => s
    | _, _ => s)

/-! ## Rebalances (R192 to R194, R196) -/

/-- A move entered in a seam's record: the pending one, or one that follows it. -/
def HfRec.addMove (target beat : Nat) (r : HfRec) : HfRec :=
  if r.nextBeat = 0 then { r with nextHome := target, nextBeat := beat, ready := false }
  else { r with more := r.more ++ [(target, beat, false)] }

/-- The first move without READY becomes ready. -/
def HfRec.markReady (r : HfRec) : HfRec :=
  if r.nextBeat != 0 && !r.ready then { r with ready := true } else
  let done := r.more.takeWhile (·.2.2)
  match r.more.drop done.length with
  | m :: t => { r with more := done ++ (m.1, m.2.1, true) :: t }
  | [] => r

/-- The move at a beat taken back. -/
def HfRec.cancelMove (beat : Nat) (r : HfRec) : HfRec :=
  if r.nextBeat = beat then
    match r.more with
    | m :: t => { r with nextHome := m.1, nextBeat := m.2.1, ready := m.2.2, more := t }
    | [] => { r with nextHome := 0, nextBeat := 0, ready := false }
  else { r with more := r.more.filter (·.2.1 != beat) }

/-- The pending move takes effect for good: HOME is the new home. -/
def HfRec.settleMove (r : HfRec) : HfRec :=
  match r.more with
  | m :: t => { r with home := r.nextHome, nextHome := m.1, nextBeat := m.2.1, ready := m.2.2, more := t }
  | [] => { r with home := r.nextHome, nextHome := 0, nextBeat := 0, ready := false }

/-- The rebalances of a seam that satisfy a test, changed. -/
def State.modMove (s : State) (p : Rebalance → Bool) (f : Rebalance → Rebalance) : State :=
  { s with idx := { s.idx with rebalances := updWhere p f s.idx.rebalances } }

/-- The rebalances that satisfy a test, ended. -/
def State.dropMove (s : State) (p : Rebalance → Bool) : State :=
  { s with idx := { s.idx with rebalances := s.idx.rebalances.filter (!p ·) } }

/-- A rebalance scheduled at its source: broadcast, and the copy sent (R192 steps 1 and 2). -/
def State.startMove' (s : State) (act seam target beat : Nat) : State :=
  let b : Bcast := .pending act seam s.self target beat
  let s := s.broadcast b
  let s := s.modRec act seam (HfRec.addMove target beat)
  let s := { s with idx := { s.idx with
    rebalances := s.idx.rebalances ++ [(⟨act, seam, s.self, target, beat, false, false, false, !s.unackedB b⟩ : Rebalance)] } }
  (s.avoidMoves act seam).sendCopy act seam target none

/-- Every node sets NEXT_HOME and NEXT_BEAT; the target expects the copy, and a node that will be a later source sends one once it holds
the seam. -/
def execRebalancePendingReceive (act seam source target beat : Nat) (s : State) : Host.Outcome State Fault Refusal :=
  .next (
    let s := s.heard (.pending act seam source target beat)
    let s := (s.modRec act seam (HfRec.addMove target beat)).avoidMoves act seam
    if target = s.self ∨ source = s.self then
      { s with idx := { s.idx with
        rebalances := s.idx.rebalances ++ [⟨act, seam, source, target, beat, false, false, false, source == s.self⟩] } }
    else s)

/-- An extent for a list that a node receives, with room for as many records again (log 153). -/
def State.newExtent (s : State) (act seam : Nat) (tomb : Bool) (first : Nat) (b : List Byte) : Option Extent × State :=
  let cap := max (firstCap tomb) (2 * (b.length / recBytes tomb))
  match s.allocPool act (cap * recBytes tomb) (.index act seam) with
  | (none, s) => (none, s)
  | (some a, s) => (some ⟨a, cap, first, []⟩, s.writeMem 0 a b)

/-- The seams that the node holds (Table 6.11). -/
def State.seamsHeld (s : State) : Nat := (s.idx.indexes.map fun (i : Index) => i.seams.length).sum

/-- A seam's storage on this node: its first version and its lists. Nothing where the quota or the pool is short, or the node holds all
the seams that it may. -/
def State.createSeam (s : State) (i : Index) (c : SeamCopy) : Option State :=
  if s.seamsHeld ≥ 2 ^ 26 then none else
  let v : Version := ⟨c.num, c.count, roundUp c.count 32, c.cut, c.publish, c.sideSeq, c.tombSeq, 0, []⟩
  match s.newExtent i.act c.seam false c.sideFirst c.side with
  | (none, _) => none
  | (some e, s) =>
    match s.newExtent i.act c.seam true c.tombFirst c.tomb with
    | (none, _) => none
    | (some f, s) =>
      match s.writeVersion i c.seam 0 v c.body with
      | (none, _) => none
      | (some v, s) =>
        let x : Seam := ⟨i.act, c.seam, [v], e, f, c.sideFirst + c.side.length / 128, c.tombFirst + c.tomb.length / 32, [], [],
          c.backfill, none, false⟩
        some (s.modIndex i.act fun i => { i with seams := i.seams ++ [x] })

/-- A seam that an install creates. The install is not refused where the seam's own storage finds no room: the seam then begins without
any, and its lists take theirs with their first records (log 156). -/
def State.newSeam (s : State) (i : Index) (seam active : Nat) : State :=
  match s.createSeam i ⟨i.act, seam, 0, 0, active, active, 0, 0, [], 0, [], 0, [], none⟩ with
  | some s => s
  | none =>
    let x : Seam := ⟨i.act, seam, [⟨0, 0, 0, active, active, 0, 0, 0, []⟩], ⟨0, 0, 0, []⟩, ⟨0, 0, 0, []⟩, 0, 0, [], [], none, none, false⟩
    s.modIndex i.act fun i => { i with seams := i.seams ++ [x] }

/-- The records of a copied list beyond those that the node holds, stored as they came. -/
def State.storeList (act seam : Nat) (tomb : Bool) (b : List Byte) (s : State) : State :=
  (List.range (b.length / recBytes tomb)).foldl (fun s k =>
    s.storeRaw ⟨act, seam, tomb, 0, 0, 0, [], 0, 0, 0, slice b (k * recBytes tomb) (recBytes tomb)⟩) s

/-- The bulk copy arrives at the target, or a version that the source has published since. A target that still holds the seam as the
source of an earlier move takes what it lacks. -/
def execRebalanceCopyReceive (c : SeamCopy) (s : State) : Host.Outcome State Fault Refusal :=
  .next (
    let mine (m : Rebalance) : Bool := m.act == c.act && m.seam == c.seam && m.target == s.self && m.source != s.self
    if !s.idx.rebalances.any mine then s else
    match s.index? c.act, s.seam? c.act c.seam with
    | some i, none =>
      match s.createSeam i c with
      | some s => s.modMove mine fun m => { m with copied := true }
      | none => s
    | some i, some x =>
      let whole (s : State) : State :=
        ((s.storeList c.act c.seam false c.side).storeList c.act c.seam true c.tomb).modMove mine fun m => { m with copied := true }
      if x.versions.any (·.num == c.num) then whole s else
      let v : Version := ⟨c.num, c.count, roundUp c.count 32, c.cut, c.publish, c.sideSeq, c.tombSeq, 0, []⟩
      let prev := (x.versions.head?.map (·.addr)).getD 0
      match s.writeVersion i c.seam prev v c.body with
      | (some v, s) => whole (s.modSeam c.act c.seam fun x => { x with versions := v :: x.versions })
      | (none, s) => s
    | _, _ => s)

/-- The target broadcasts READY. -/
def execRebalanceReady (act seam : Nat) (s : State) : Host.Outcome State Fault Refusal :=
  .next (
    let r := (s.index? act).bind (·.recAny seam)
    if s.idx.rebalances.any fun m => m.act == act && m.seam == seam && m.target == s.self && m.copied &&
        r.any fun r => r.moveBeats.contains m.beat && !r.moveReady m.beat then
      (s.tell (.ready act seam)).modRec act seam HfRec.markReady
    else s)

def execRebalanceReadyReceive (act seam : Nat) (s : State) : Host.Outcome State Fault Refusal :=
  .next ((s.relay (.ready act seam)).modRec act seam HfRec.markReady)

/-- The rebalance that a cancellation ends at this node. -/
def State.pendingMove (s : State) (act seam beat : Nat) : Option Rebalance :=
  s.idx.rebalances.find? fun m => m.act == act && m.seam == seam && m.beat == beat && !m.closed && !m.closeSeen

/-- Whether a rebalance still needs this node's storage of a seam, or the node is its home. -/
def State.needsSeam (s : State) (act seam : Nat) : Bool :=
  s.idx.rebalances.any (fun m => m.act == act && m.seam == seam && (m.source == s.self || m.target == s.self))
    || ((s.index? act).bind (·.recAny seam)).any fun r => r.homeAt (s.now + 1) == s.self

/-- A cancellation at a node: the move of the record, and the copy of a target. -/
def State.cancelMove (s : State) (act seam beat : Nat) : State :=
  let ended := s.pendingMove act seam beat
  let s := s.modRec act seam (HfRec.cancelMove beat)
  match ended with
  | none => s
  | some m =>
    let s := s.dropMove (· == m)
    if m.target == s.self && m.source != s.self && !s.needsSeam act seam then s.releaseSeam act seam else s

/-- A move cancelled by this node: its broadcast, and the count. -/
def State.sendCancel (s : State) (act seam beat : Nat) : State :=
  ((s.tell (.cancel act seam beat)).cancelMove act seam beat).count 0x306 1

/-- Whether the move at a beat is ready. -/
def State.moveReady (s : State) (act seam beat : Nat) : Bool := ((s.index? act).bind (·.recAny seam)).any (·.moveReady beat)

/-- A rebalance of which this node is the source that satisfies a test. -/
def State.sourceMove (s : State) (act seam : Nat) (p : Rebalance → Bool) : Option Rebalance :=
  s.idx.rebalances.find? fun m => m.act == act && m.seam == seam && m.source == s.self && p m

/-- Without READY by H − 16 the source broadcasts CANCEL. -/
def execRebalanceCancel (act seam : Nat) (s : State) : Host.Outcome State Fault Refusal :=
  .next (match s.sourceMove act seam fun m => decide (m.beat ≤ s.now + 16) && !m.closed && !s.moveReady act seam m.beat with
    | some m => s.sendCancel act seam m.beat
    | none => s)

def execRebalanceCancelReceive (act seam beat : Nat) (s : State) : Host.Outcome State Fault Refusal :=
  .next ((s.relay (.cancel act seam beat)).cancelMove act seam beat)

/-- From beat H − 1 the source of a ready move forwards (R192 step 4), and its close marker goes out behind its last record. -/
def execRebalanceForwardStart (act seam : Nat) (s : State) : Host.Outcome State Fault Refusal :=
  .next (match s.sourceMove act seam (fun m => decide (m.beat ≤ s.now + 1) && !m.closed && s.moveReady act seam m.beat), s.seam? act seam with
    | some m, some x =>
      let s := (s.modMove (· == m) fun m => { m with closed := true }).sendNode m.target act 1 none 16
        (.closeMarker m.target act seam x.backfill)
      let s := s.modSeam act seam fun x => { x with forwarding := true, backfill := none }
      s.retryHeld
    | _, _ => s)

/-- The target may publish committed beats at or past H, and begins a move that follows from it. -/
def execCloseMarkerReceive (act seam : Nat) (backfill : Option Nat) (s : State) : Host.Outcome State Fault Refusal :=
  .next (
    let s := s.modMove (fun m => m.act == act && m.seam == seam && m.target == s.self) fun m => { m with closeSeen := true }
    let s := match backfill with
      | some f => (s.modSeam act seam fun x => { x with backfill := some f, forwarding := false }).avoidMoves act seam
      | none => s.modSeam act seam fun x => { x with forwarding := false }
    match s.sourceOf act seam with
    | some m => s.sendCopy act seam m.target none
    | none => s)

/-- The source's word that it has released a seam, at any other node: it passes the word on and sets HOME. -/
def State.hearReleased (s : State) (act seam : Nat) : State :=
  let s := (s.relay (.released act seam)).dropMove fun m => m.act == act && m.seam == seam && m.target == s.self && m.closeSeen
  s.modRec act seam fun r => if r.nextBeat = 0 ∨ !r.ready then r else r.settleMove

/-- The source of a seam's first move releases the seam once O ≥ H and its readers have ended, and says so; every other node, the source
of a later move among them, then sets HOME. -/
def execRebalanceRelease (act seam : Nat) (s : State) : Host.Outcome State Fault Refusal :=
  .next (match s.sourceOf act seam, s.seam? act seam with
    | some m, some x =>
      if ((s.index? act).bind (·.recAny seam)).any fun r => r.nextBeat != m.beat then s.hearReleased act seam else
      if !m.closed || decide (s.oldest act < m.beat) || x.read then s else
      let s := s.dropMove (· == m)
      let s := if s.needsSeam act seam then s else s.releaseSeam act seam
      ((s.tell (.released act seam)).modRec act seam HfRec.settleMove).count 0x305 1
    | _, _ => s.hearReleased act seam)

/-- A record from the source, or one for the home of a seam: a record that the source has committed is stored as it stands, and any
other is written here. -/
def execForwardedRecordReceive (r : SeamRecord) (s : State) : Host.Outcome State Fault Refusal :=
  .next (s.takeRecord r)

/-! ## Retirement (R195) -/

/-- A retirement entered in the records and held until it is acknowledged. -/
def State.enterRetire (s : State) (act seam beat : Nat) (hold : Bool) : State :=
  let s := s.modRec act seam fun r => { r with state := 1, stateBeat := if r.state = 1 then min r.stateBeat beat else beat }
  if hold then { s with idx := { s.idx with retires := s.idx.retires ++ [⟨act, seam, beat⟩] } } else s

def execRetirementReceive (act seam beat : Nat) (s : State) : Host.Outcome State Fault Refusal :=
  .next ((s.heard (.retire act seam beat)).enterRetire act seam beat true)

/-- A retired seam's storage released once O is at or after R and its readers have ended. A seam whose record no graph holds any more is
one: only a retired seam may be left out of an install, and the graph that still had it goes only once O is at or after the newer one's
beat (R166, R190). -/
def execSeamStorageRelease (act seam : Nat) (s : State) : Host.Outcome State Fault Refusal :=
  .next (match (s.index? act).bind (·.recAny seam), s.seam? act seam with
    | some r, some x => if r.state = 1 ∧ r.stateBeat ≤ s.oldest act ∧ !x.read then s.releaseSeam act seam else s
    | none, some x => if x.read then s else s.releaseSeam act seam
    | _, none => s)

/-- The acknowledgements of a broadcast return: the holds of R193 and R195 that waited for them end. Those of another member's broadcast
go on round the ring (R369). -/
def execBroadcastAckReceive (b : Bcast) (s : State) : Host.Outcome State Fault Refusal :=
  .next (
    let s := if s.unackedB b then s.ctlIn 4 else (s.ctlIn 4).tellAck b
    let s := { s with car := { s.car with unacked := s.car.unacked.filter (· != b) } }
    match b with
    | .pending act seam source _ beat =>
      if source = s.self then
        s.modMove (fun m => m.act == act && m.seam == seam && m.beat == beat) fun m => { m with acked := true }
      else s
    | .retire act seam beat => { s with idx := { s.idx with retires := s.idx.retires.filter (· != ⟨act, seam, beat⟩) } }
    | _ => s)

/-! ## SYS.IDXOP (R514, Table 6.10) -/

/-- The act whose index a seam belongs to: the lowest that holds its record. -/
def State.seamAct (s : State) (seam : Nat) : Nat :=
  ((List.range 16).find? fun a => ((s.index? a).bind (·.recAny seam)).isSome).getD 0

/-- A request of SYS.IDXOP: whether it schedules its operation, and the state after it. -/
def State.indexOp (s : State) (op seam beat target : Nat) : Bool × State :=
  let act := s.seamAct seam
  match (s.index? act).bind (·.recAny seam), s.seam? act seam with
  | some r, some _ =>
    if beat < s.now + 64 ∨ r.homeAt s.now ≠ s.self ∨ r.retiredAt s.now then (false, s) else
    match op with
    | 0 => s.scheduleBackfill act seam beat
    | 1 =>
      let last := (r.more.map (·.2.1)).foldl max r.nextBeat
      let h := if r.nextBeat = 0 then beat else max beat (last + 1024)
      if r.state = 1 ∧ r.stateBeat ≤ h then (false, s)
      else if r.nextBeat = 0 then (true, s.startMove' act seam target h)
      else
        let source := ((r.more.map (·.1)).getLast?).getD r.nextHome
        let s := (s.broadcast (.pending act seam source target h)).modRec act seam (HfRec.addMove target h)
        let s := if target ≠ s.self then s else { s with idx := { s.idx with
          rebalances := s.idx.rebalances ++ [⟨act, seam, source, target, h, false, false, false, true⟩] } }
        (true, s.avoidMoves act seam)
    | _ =>
      if r.state = 1 ∧ r.stateBeat ≤ beat then (false, s) else
      let s := (r.moveBeats.filter fun h => decide (beat ≤ h)).foldl (fun s h => s.sendCancel act seam h) s
      let b : Bcast := .retire act seam beat
      let s := s.broadcast b
      (true, s.enterRetire act seam beat (s.unackedB b))
  | _, _ => (false, s)

def execSysIdxop (o : Insn) (s : State) : Host.Outcome State Fault Refusal :=
  engine Form.sysIdxop o s [] (presWrites o) fun t j => do
    need ((← get).isPriv j) cPriv
    let s ← get
    let (ok, s') := s.indexOp (o.fld 0 2) (t.getS o.a).toNat (t.getS o.b).toNat (bits (o.ext.getD 0 0#64).toNat 0 6)
    if ok && !s.eventRoom then throw .hold
    set s'
    pure (setPres o ok)

/-! ## Installs (R165 to R167, R515) -/

/-- The index that an install's header defines, before its codebook and graph. -/
def installIndex (act : Nat) (h : List Byte) : Index :=
  let u (o k : Nat) := leAt h o k
  ⟨act, u 0x10 2, u 0x12 1, u 0x13 1, u 0x14 1 == 1, u 0x15 1, u 0x16 1 == 1, u 0x18 2, u 0x1A 2, u 0x1C 4, u 0x20 4, u 0x24 1,
    u 0x28 8, u 0x30 8, [], [], [], [], []⟩

/-- The scheduling fields. -/
def Index.sched (i : Index) : List Nat := [i.routeEf, i.bfPermille, i.bfLead, i.retain, i.bfShare]

/-- The scheduling fields replaced. -/
def Index.withSched (i : Index) (l : List Nat) : Index :=
  { i with routeEf := l.getD 0 0, bfPermille := l.getD 1 0, bfLead := l.getD 2 0, retain := l.getD 3 0, bfShare := l.getD 4 0 }

/-- Whether a header lies inside Table 6.1. -/
def headerOk (i : Index) (h : List Byte) : Bool :=
  let u (o k : Nat) := leAt h o k
  decide (u 0 4 = 0x4958444E ∧ u 4 2 ≤ 1 ∧ 1 ≤ u 6 1 ∧ u 6 1 ≤ 64 ∧ u 7 1 = 0 ∧ i.metric ≤ 2 ∧ i.code ≤ 2 ∧ u 0x14 1 ≤ 1)
    && [1, 2, 5].contains i.vfmt
    && decide (16 ≤ i.dim ∧ i.dim ≤ 4096 ∧ i.dim % nsubOf i.code i.subq8 = 0)
    && decide (u 0x16 1 ≤ 1 ∧ u 0x17 1 = 0 ∧ 32 ≤ i.routeEf ∧ i.routeEf ≤ 2048 ∧ 1 ≤ i.bfPermille ∧ i.bfPermille ≤ 1000)
    && decide (64 ≤ i.bfLead ∧ i.bfLead ≤ 2 ^ 20 ∧ 4096 ≤ i.retain ∧ i.retain ≤ 2 ^ 24)
    && decide (1 ≤ i.bfShare ∧ i.bfShare ≤ 32 ∧ u 0x25 3 = 0 ∧ 1 ≤ u 0x38 4)
    && u 0x3C 4 == (if u 4 2 = 1 then nsubOf i.code i.subq8 * ksOf i.subq8 * (i.dim / nsubOf i.code i.subq8) * 4 else 0)
    && (slice h 0x48 56).all (· == 0#8) && u 0x44 4 == crc32c (h.take 0x44)

/-- The scheduling fields of the newest graph in force over an index again. -/
def Index.reSched (i : Index) : Index := ((i.graphs.head?.map (·.sched)).map i.withSched).getD i

/-- One record of an install image, or nothing where it breaks Table 6.9. -/
def readRecord (n : Nat) (b cent : List Byte) : Option HfRec :=
  let u (o k : Nat) := leAt b o k
  let deg := u 6 1
  let edges := (List.range 32).map fun k => u (0x20 + 4 * k) 4
  if decide (u 0 4 ≠ 0xFFFFFFFF ∧ u 4 1 ≤ 63 ∧ u 5 1 = 0 ∧ deg ≤ 32 ∧ u 7 1 ≤ 1 ∧ u 8 8 = 0 ∧ u 0x10 8 = 0 ∧ u 0x18 8 = 0)
    && (edges.zipIdx.all fun e => if e.2 < deg then decide (e.1 < n) else e.1 == 0xFFFFFFFF)
    && (slice b 0xA0 28).all (· == 0#8) && u 0xBC 4 == crc32c (b.take 0xBC)
  then some ⟨u 0 4, u 4 1, 0, 0, 0, 0, false, [], u 7 1 == 1, edges.take deg, cent⟩ else none

/-- A seam of a new record takes its state from the graph that holds it already (R515). -/
def HfRec.inherit (cur : Option Graph) (r : HfRec) : HfRec :=
  match cur.bind (·.rec? r.seam) with
  | some c => { r with home := c.home, state := c.state, stateBeat := c.stateBeat, nextHome := c.nextHome, nextBeat := c.nextBeat,
                       ready := c.ready, more := c.more }
  | none => r

/-- The nodes that have reported an install. -/
def State.reported (s : State) (act : Nat) (g : Graph) : Nat :=
  ((s.idx.reports.filter fun r => r.1 == act && r.2.1 == g.activeBeat && r.2.2.1 == g.crc).map (·.2.2.2)).eraseDups.length

/-- Installs that all their nodes have reported are in doubt no more. -/
def State.settleInstalls (s : State) : State :=
  s.idx.indexes.foldl (fun s i => s.modIndex i.act fun i => { i with
    graphs := i.graphs.map fun g => { g with settled := g.settled || decide (g.nodes ≤ s.reported i.act g) } }) s

/-- Pool space in pieces of at most 1 GiB, which need not lie in one stack: their addresses, or nothing where quota or pool are short; a
piece per unit of fuel. -/
def State.allocPieces (act : Nat) (kind : AllocKind) : Nat → Nat → State → Option (List Nat × State)
  | 0, _, s => some ([], s)
  | k + 1, len, s =>
    if len = 0 then some ([], s) else
    match s.allocPool act (min len (2 ^ 30)) kind with
    | (none, _) => none
    | (some a, s) => (State.allocPieces act kind k (len - min len (2 ^ 30)) s).map fun x => (a :: x.1, x.2)

/-- The install that an image makes, or nothing where R166 refuses it; `pickup` is the pick-up beat of the loader call. -/
def State.acceptInstall (s : State) (act pickup : Nat) (img : List Byte) : Option State :=
  let h := img.take 128
  let first := leAt h 4 2 == 1
  let new := installIndex act h
  let (n, active, cb) := (leAt h 0x38 4, leAt h 8 8, leAt h 0x3C 4)
  let old := s.index? act
  let cur : Option Graph := old.bind (·.graphs.head?)
  if img.length < 128 ∨ img.length ≠ 128 + cb + n * (192 + new.centBytes) then none else
  if !headerOk new h || leAt h 0x40 4 != crc32c (img.drop 128) then none else
  let fixed (i : Index) := (i.dim, i.metric, i.code, i.subq8, i.vfmt, i.extra)
  let same := match old with
    | some i => !first && fixed i == fixed new
    | none => first
  if !same || decide (active < pickup + 1024) || (match cur with
      | some g => decide (active ≤ g.activeBeat)
      | none => false) then none else
  match (List.range n).mapM fun k =>
      readRecord n (slice img (128 + cb + k * 192) 192) (slice img (128 + cb + n * 192 + k * new.centBytes) new.centBytes) with
  | none => none
  | some recs =>
    let ids := recs.map (·.seam)
    let live : List Nat := match cur with
      | some g => (g.recs.filter fun (r : HfRec) => !r.retiredAt active).map fun r => r.seam
      | none => []
    if ids.eraseDups.length ≠ ids.length ∨ !(live.all ids.contains) ∨ !(recs.any (·.entry)) then none else
    let made := recs.filter fun r => r.home == s.self && (cur.bind (·.rec? r.seam)).isNone
    if s.seamsHeld + made.length > 2 ^ 26 then none else
    let size := n * (192 + new.centBytes) + cb
    match State.allocPieces act (graphSpace act active) (size / 2 ^ 30 + 1) size s with
    | none => none
    | some (addrs, s) =>
      let crc := leAt h 0x40 4
      let g : Graph := ⟨active, crc, leAt h 6 1, addrs, first, new.sched, made.map (·.seam), false, recs.map (HfRec.inherit cur)⟩
      let s := match old with
        | some _ => s.modIndex act fun i => { i.withSched new.sched with graphs := g :: i.graphs }
        | none => { s with idx := { s.idx with
            indexes := s.idx.indexes ++ [{ new with codebook := codesOf 0 (slice img 128 cb), graphs := [g] }] } }
      let s := made.foldl (fun (s : State) r => s.newSeam ((s.index? act).getD new) r.seam active) s
      let s := { s with idx := { s.idx with reports := s.idx.reports ++ [(act, active, crc, s.self)] } }
      some (s.tell (.install act s.self active crc)).settleInstalls

/-- Another node's report. -/
def execInstallReportReceive (act activeBeat crc node : Nat) (s : State) : Host.Outcome State Fault Refusal :=
  .next (
    let s := s.relay (.install act node activeBeat crc)
    ({ s with idx := { s.idx with reports := s.idx.reports ++ [(act, activeBeat, crc, node)] } }).settleInstalls)

/-- A seam that a withdrawn install created entered with the oldest of the graphs that keep it. -/
def passOn (seam : Nat) (gs : List Graph) : List Graph :=
  match (gs.filter fun g => (g.rec? seam).isSome).getLast? with
  | some k => updWhere (·.activeBeat == k.activeBeat) (fun g => { g with made := g.made ++ [seam] }) gs
  | none => gs

/-- A withdrawn install's graph, report and count. -/
def State.dropGraph (s : State) (act : Nat) (g : Graph) : State :=
  let s := (s.freeGraph act g.activeBeat).count 0x307 1
  { s with idx := { s.idx with reports := s.idx.reports.filter fun r => !(r.1 == act && r.2.1 == g.activeBeat) } }

/-- An install withdrawn: the graph in force and the index are as before it, and an install accepted after it stands, with the seams that
it keeps. With the install that defines the index goes the index, and every install accepted on it (log 157). -/
def State.withdraw (s : State) (act : Nat) (g : Graph) : State :=
  match s.index? act with
  | none => s
  | some i =>
    if g.first then
      let s := i.graphs.foldl (fun s k => s.dropGraph act k) s
      let s := i.seams.foldl (fun s x => s.releaseSeam act x.seam) s
      { s with idx := { s.idx with indexes := s.idx.indexes.filter (·.act != act) } }
    else
      let rest := i.graphs.filter (·.activeBeat != g.activeBeat)
      let (kept, gone) := g.made.partition fun x => rest.any fun k => (k.rec? x).isSome
      let s := (s.dropGraph act g).modIndex act fun i => ({ i with graphs := kept.foldl (fun gs x => passOn x gs) rest } : Index).reSched
      gone.foldl (fun s x => s.releaseSeam act x) s

def execInstallWithdraw (act activeBeat : Nat) (s : State) : Host.Outcome State Fault Refusal :=
  .next (match (s.index? act).bind fun i => i.graphs.find? fun g => g.activeBeat == activeBeat && !g.settled with
    | some g => if activeBeat ≤ s.now + 256 then s.withdraw act g else s
    | none => s)

/-- Every install in doubt withdrawn, as a reset of the index engine does (R167). -/
def State.withdrawAll (s : State) : State :=
  s.idx.indexes.foldl (fun s i => (i.graphs.filter (!·.settled)).foldl (fun s g => s.withdraw i.act g) s) s

end Sys2Proof.Machine
end

