-- ==== Sys2Proof/Machine/Cages.lean ====
section
/-! DEFINITION. Exports and their keys (R356), the exchange (R208 to R211), and the admission and closing of cages (R212 to R214). -/
namespace Sys2Proof.Machine

/-! ## Exports (R356) -/

/-- A key for an act: random, not zero, and unlike its live ones. -/
def State.newKey (s : State) (act : Nat) : Nat × State :=
  let used := (s.car.exports.filter (·.act == act)).map (·.key)
  let (k, s) := s.random 32
  (firstUnused (fun n => n % 2 ^ 32 == 0 || used.contains (n % 2 ^ 32)) k (used.length + 2) % 2 ^ 32, s)

/-- Whether an act's regions grant every byte of a range of node addresses a right. -/
def State.rangeHas (s : State) (act : Nat) (r : Right) (a n : Nat) : Bool :=
  (List.range (ceilDiv n 4096)).all fun k =>
    match physOf (a + k * 4096) with
    | some p => s.regionGrants act r p
    | none => false

/-- Whether a range lies in region space: memory outside the pool (R286). -/
def State.regionSpace (s : State) (a n : Nat) : Bool :=
  (List.range (ceilDiv n 4096)).all fun k =>
    match physOf (a + k * 4096) with
    | some p => !s.inPool p
    | none => false

/-- Whether a range touches the copy store (R362). -/
def State.inCopyStore (s : State) (a n : Nat) : Bool :=
  let base := s.rd F.carCopyBaseLo_base * 4096 + s.rd F.carCopyBaseHi_base * 2 ^ 32
  rangesMeet a n base (s.rd F.carCopySize_mib * 2 ^ 20)

/-- A range exported, with its key. -/
def State.addExport (s : State) (act base len rights : Nat) : Nat × State :=
  let (k, s) := s.newKey act
  (k, { s with car := { s.car with exports := s.car.exports ++ [⟨act, base, len, rights, k, none⟩] } })

/-- Whether R356 refuses an export. -/
def State.exportRefused (s : State) (act base len rights : Nat) : Bool :=
  base % 4096 != 0 || len % 4096 != 0 || len == 0 || decide (rights ≥ 16)
    || !s.regionSpace base len || s.inCopyStore base len || !s.rangeHas act .read base len
    || ((bitOf rights 1 || bitOf rights 2) && !s.rangeHas act .write base len)
    || decide ((s.car.exports.filter (·.act == act)).length ≥ 256)

/-! ## Opening an exchange (R208, Table 7.3) -/

/-- Whether one region of an act holds a whole range with READ and WRITE. -/
def State.oneRegion (s : State) (act a n : Nat) : Bool :=
  (List.range 32).any fun k =>
    let base := s.rd (F.actRegionBaseLo_base act k) * 4096 + s.rd (F.actRegionBaseHi_base act k) * 2 ^ 32
    let size := s.rd (F.actRegionSize_pages act k) * 4096
    s.on (F.actRegionAttr_read act k) && s.on (F.actRegionAttr_write act k)
      && decide (base + size ≤ 2 ^ 46 ∧ base ≤ a ∧ a + n ≤ base + size)

/-- The exchange that a header lays out, or nothing where a field is out of range. -/
def readExchange (act base len key : Nat) (h : List Byte) : Option Exchange :=
  let u (o k : Nat) := leAt h o k
  let slot := 2048 * 2 ^ u 4 1
  let reply := 12288 * (u 5 1 + 1)
  let entries := u 0xC 4
  let intake := roundUp (0x3000 + entries * 64) 4096
  if decide (u 0 4 = 0x58434847 ∧ u 4 1 ≤ 4 ∧ u 5 1 ≤ 7 ∧ 1 ≤ u 6 2 ∧ u 6 2 ≤ 2048 ∧ 1 ≤ u 8 1 ∧ u 8 1 ≤ 64 ∧ u 9 1 = 0)
    && decide (u 0xA 2 ≤ 4096 ∧ 256 ≤ entries ∧ entries ≤ 65536 ∧ entries = 2 ^ Nat.log2 entries)
    && decide (intake + 8192 * slot + 128 * u 6 2 * reply ≤ len)
  then some ⟨act, base, len, key, slot, reply, u 6 2, u 8 1, u 0xA 2, entries, intake, 0⟩ else none

/-- The area of an opened exchange: the header, and zeros behind it. -/
def exchangeArea (e : Exchange) (h : List Byte) : List Byte :=
  padTo 0#8 e.len (h.take 0x10 ++ leBytes e.intake 8 ++ leBytes (e.intake + 8192 * e.slotBytes) 8 ++ zeros 16 ++ leBytes e.key 4)

/-- Loader call 5. While the area meets a Winze range (R250), the call waits. -/
def execOpenExchange (job : Nat) (s : State) : Host.Outcome State Fault Refusal :=
  .next (match s.loaderCall job 5 with
    | none => s
    | some j =>
      let base := j.desc.arg 2
      let len := j.desc.arg 3
      if (s.holder true base len).isSome then s else
      let (h, bad, s) := s.readMem 0 base 0x40
      match readExchange j.act base len 0 h with
      | none => s.endLoader job 0x61 0x11 0 []
      | some e =>
        if bad || base % 4096 != 0 || !s.oneRegion j.act base len || s.exportRefused j.act base (roundUp len 4096) 7
            || s.idx.exchanges.any (·.act == j.act) then s.endLoader job 0x61 0x11 0 [] else
        let (key, s) := s.addExport j.act base (roundUp len 4096) 7
        let e := { e with key := key }
        let s := s.writeMem 0 base (exchangeArea e h)
        ({ s with idx := { s.idx with exchanges := s.idx.exchanges ++ [e] } }).endLoader job 0 0 key [])

/-! ## Cage records (R213, R214) -/

/-- A cage record (Table 7.5). -/
def cageRecord (seam close depth snap : Nat) (lanes : List Lane) (seq : Nat) : List Byte :=
  let lane (l : Lane) : List Byte := leBytes (l.slot % 128 + l.source % 64 * 128 + l.probeIdx % 2 ^ 16 * 2 ^ 16) 4
  let filtered := (lanes.zipIdx.map fun e => if e.1.filtered then 2 ^ e.2 else 0).sum
  let b := leBytes seam 4 ++ leBytes lanes.length 1 ++ leBytes close 1 ++ leBytes depth 2 ++ leBytes snap 8
    ++ padTo 0#8 32 (lanes.flatMap lane) ++ leBytes seq 8 ++ leBytes filtered 4
  b ++ leBytes (crc32c b) 4

/-- An act's exchange as it stands. -/
def State.exchange? (s : State) (act : Nat) : Option Exchange := s.idx.exchanges.find? (·.act == act)

/-- The records of the cage ring that the probe job has not consumed. -/
def State.ringUsed (s : State) (e : Exchange) : Nat := (e.tail + 2 ^ 64 - leNat (s.peek (e.base + 0x28) 8)) % 2 ^ 64

/-- Whether the cage ring holds no free entry. -/
def State.ringFull (s : State) (e : Exchange) : Bool := decide (e.entries ≤ s.ringUsed e)

/-- The records of the ring with those that this beat's closed cages will take. -/
def State.ringBooked (s : State) (e : Exchange) : Nat :=
  s.ringUsed e + (s.idx.cages.filter fun c => c.act == e.act && c.closing.isSome).length

/-- A record written at CAGE_TAIL, which then advances. -/
def State.writeCage (s : State) (act seam close snap : Nat) (lanes : List Lane) : State :=
  match s.exchange? act with
  | none => s
  | some e =>
    let depth := (lanes.map (·.depth)).foldl max 0
    let s := s.ordWrite (e.base + 0x3000 + e.tail % e.entries * 64) (cageRecord seam close depth snap lanes e.tail)
    let s := s.ordWrite (e.base + 0x20) (leBytes (e.tail + 1) 8)
    { s with idx := { s.idx with
      exchanges := updWhere (·.act == act) (fun e => { e with tail := e.tail + 1 }) s.idx.exchanges } }

/-- A cage closed, unless the ring is full. -/
def State.closeCage (s : State) (c : Cage) (close : Nat) : State :=
  match s.exchange? c.act with
  | none => s
  | some e =>
    if s.ringFull e then s else
    let s := s.writeCage c.act c.seam close c.snapshot c.lanes
    let s := { s with idx := { s.idx with cages := s.idx.cages.erase c } }
    if close = 3 then s.count 0x405 c.lanes.length else
    (s.count (if close = 0 then 0x401 else if close = 1 then 0x402 else 0x403) 1).count 0x404 c.lanes.length

/-- The beat at which the deadline guard of a lane closes a cage, at the earliest. -/
def Cage.guardBeat (e : Exchange) (c : Cage) : Option Nat :=
  c.lanes.foldl (fun m l => some ((m.map (min · (l.deadline - e.guard))).getD (l.deadline - e.guard))) none

/-- Why a cage closes now: it is open no longer, or its eighth lane, its wait, or the deadline guard of a lane. A cage that a full ring has
kept past more than one of its beats closes for the first of them, and for its wait where they are one (log 159). -/
def Cage.due (e : Exchange) (now : Nat) (c : Cage) : Option Nat :=
  let guarded := (c.guardBeat e).any fun g => decide (g ≤ now)
  if c.closing.isSome then c.closing
  else if c.lanes.length = 8 then some 0
  else if c.opened + e.wait ≤ now ∧ !(guarded && (c.guardBeat e).any fun g => decide (g < c.opened + e.wait)) then some 1
  else if guarded then some 2 else none

/-- The cages of an act that close now, in ascending seam ID. -/
def State.closeDue (s : State) (act : Nat) : State :=
  match s.exchange? act with
  | none => s
  | some e =>
    let cs := sortBy (fun (a b : Cage) => decide (a.seam < b.seam)) (s.idx.cages.filter (·.act == act))
    cs.foldl (fun s c => match c.due e s.now with
      | some k => s.closeCage c k
      | none => s) s

/-! ## Admission (R209, R212) -/

/-- A probe's fields, its seams with their probe indices, and whether it keeps Table 7.4. -/
structure Probe where
  snapshot : Nat
  deadline : Nat
  depth : Nat
  filtered : Bool
  seams : List (Nat × Nat)
  ok : Bool
deriving DecidableEq, Repr

/-- The length of a slot image by its FORMAT. -/
def imageLen (fmt : Nat) : Nat := 192 + nsubOf (fmt % 4) (bitOf fmt 2) * ksOf (bitOf fmt 2)

/-- A probe read from an intake slot of a source lane. -/
def readProbe (e : Exchange) (i : Option Index) (source slot : Nat) (b : List Byte) : Probe :=
  let u (o k : Nat) := leAt b o k
  let n := u 0x10 2
  let img := match i with
    | some i => i.slotLen
    | none => imageLen (u 0x40 1)
  let at_ := 0x40 + roundUp img 64
  let fits := decide (at_ + 8 * n ≤ e.slotBytes)
  let seams := (List.range (min (min n e.maxProbes) ((e.slotBytes - at_) / 8))).map fun k => (u (at_ + 8 * k) 4, u (at_ + 8 * k + 4) 2)
  let img := match i with
    | some i => (readSlot i (slice b 0x40 img)).isSome
    | none => false
  let ok := decide (1 ≤ n ∧ n ≤ e.maxProbes ∧ 1 ≤ u 0x12 2 ∧ u 0x12 2 ≤ 4096 ∧ u 0x14 1 = source ∧ u 0x15 1 = slot ∧ u 0x16 2 = 0)
    && u 0x1C 4 == 0 && (slice b 0x28 24).all (· == 0#8) && fits && img
    && (List.range n).all fun k => u (at_ + 8 * k + 6) 2 == 0
  ⟨u 0 8, u 8 8, u 0x12 2, u 0x80 1 != 0, seams, ok⟩

/-- The first item that satisfies a test, changed. -/
def updFirst {α : Type} (p : α → Bool) (f : α → α) : List α → List α
  | [] => []
  | a :: t => if p a then f a :: t else a :: updFirst p f t

/-- A seam of a probe admitted: it joins the first open cage that fits, or opens one; at the open-cage limit the cage that opened first
closes with the beat. -/
def State.admitSeam (s : State) (act source slot : Nat) (p : Probe) (seam probeIdx : Nat) : State :=
  let l : Lane := ⟨slot, source, probeIdx, p.depth, p.deadline, p.filtered⟩
  let open_ (c : Cage) : Bool := c.act == act && c.closing.isNone
  let fits (c : Cage) : Bool := open_ c && c.seam == seam && c.snapshot == p.snapshot && decide (c.lanes.length < 8)
    && !(c.lanes.any fun x => x.slot == slot && x.source == source)
  let s := s.count 0x400 1
  let cages := s.idx.cages
  if cages.any fits then
    { s with idx := { s.idx with cages := updFirst fits (fun c => { c with lanes := c.lanes ++ [l] }) cages } }
  else
    let cages := if (cages.filter open_).length < 4096 then cages else updFirst open_ (fun c => { c with closing := some 4 }) cages
    { s with idx := { s.idx with cages := cages ++ [⟨act, seam, p.snapshot, s.now, [l], none⟩] } }

/-- The seams of a probe that are answered as gone, in records of up to eight: one record per unit of fuel. -/
def goneCages (act snap now : Nat) (mk : Nat → Lane) : Nat → List (Nat × Nat) → List Cage
  | 0, _ => []
  | _ + 1, [] => []
  | k + 1, e :: t =>
    ⟨act, e.1, snap, now, ((e :: t).take 8).map (fun x => mk x.2), some 3⟩ :: goneCages act snap now mk k ((e :: t).drop 8)

/-- One new probe: its SUMMARY bit is cleared, and its seams are admitted or answered as gone. -/
def State.takeProbe (s : State) (e : Exchange) (source slot : Nat) : State :=
  let at_ := e.base + e.intake + (source * 128 + slot) * e.slotBytes
  let p := readProbe e (s.index? e.act) source slot (s.peek at_ e.slotBytes)
  let s := s.sensed at_ e.slotBytes
  if p.ok && decide (s.oldest e.act ≤ p.snapshot) then
    p.seams.foldl (fun s x => s.admitSeam e.act source slot p x.1 x.2) s
  else
    let mk (k : Nat) : Lane := ⟨slot, source, k, p.depth, p.deadline, p.filtered⟩
    { s with idx := { s.idx with cages := s.idx.cages ++ goneCages e.act p.snapshot s.now mk 512 p.seams } }

/-- Whether a probe that has been taken found room: the ring has entries for the cages that it closed, and the act no more open cages than
its limit (R212). -/
def State.cageRoom (s : State) (act : Nat) : Bool :=
  match s.exchange? act with
  | none => true
  | some e => decide (s.ringBooked e ≤ e.entries)
    && decide ((s.idx.cages.filter fun c => c.act == act && c.closing.isNone).length ≤ 4096)

/-- The new probes taken in order, up to the first that must wait in the intake: the slots of those taken. -/
def State.takeProbes (act : Nat) : List (Nat × Nat) → State → List (Nat × Nat) → State × List (Nat × Nat)
  | [], s, taken => (s, taken)
  | x :: t, s, taken =>
    match s.exchange? act with
    | none => (s, taken)
    | some e =>
      if e.entries ≤ s.ringBooked e then (s, taken) else
      let u := s.takeProbe e (x.1 / 2) (x.1 % 2 * 64 + x.2)
      if u.cageRoom act then State.takeProbes act t u (taken ++ [x]) else (s, taken)

/-- Once per beat the SUMMARY words are read, and every new probe is taken in order while the ring has room. -/
def execCageAdmission (act : Nat) (s : State) : Host.Outcome State Fault Refusal :=
  .next (match s.exchange? act with
    | none => s
    | some e =>
      let words := (List.range 128).filterMap fun w =>
        let v := leNat (s.peek (e.base + 0x1000 + 8 * w) 8)
        if v = 0 then none else some (w, v)
      let bitsOf := words.flatMap fun x => ((List.range 64).filter x.2.testBit).map fun b => (x.1, b)
      let s := (s.sensed (e.base + 0x1000) 1024).sensed (e.base + 0x28) 8
      let (s, taken) := State.takeProbes act bitsOf s []
      let s := words.foldl (fun s x =>
        let clear := ((taken.filter (·.1 == x.1)).map fun t => 2 ^ t.2).sum
        if clear = 0 then s else s.ordWrite (e.base + 0x1000 + 8 * x.1) (leBytes (x.2 - clear) 8)) s
      s.closeDue act)

def execCageWaitExpiry (act : Nat) (s : State) : Host.Outcome State Fault Refusal := .next (s.closeDue act)
def execCageGuardExpiry (act : Nat) (s : State) : Host.Outcome State Fault Refusal := .next ((fun t => t.closeDue act) s)

end Sys2Proof.Machine
end

