-- ==== Sys2Proof/Machine/Ledger.lean ====
section
/-! DEFINITION. The ledger of a request pair (R476, R478): where its entries and halves lie, an entry's bytes, and how a claim goes. -/
namespace Sys2Proof.Machine

/-- The address of the entry of a JOB_ID: REQUEST is its bits [63:8]. -/
def Pair.entryAt (p : Pair) (jobId : Nat) : Nat := p.addr + jobId / 256 % p.entries * 64

/-- The address of a half of the entry of a JOB_ID. -/
def Pair.halfAt (p : Pair) (jobId h : Nat) : Nat := p.addr + p.entries * 64 + (2 * (jobId / 256 % p.entries) + h) * p.slot

/-- The bytes that a ledger takes. -/
def Pair.size (p : Pair) : Nat := p.entries * (64 + 2 * p.slot)

/-- An entry (Table 17.3). -/
def ledgerEntry (jobId winner status len beat mask rerun : Nat) : List Byte :=
  let b := leBytes jobId 8 ++ leBytes winner 1 ++ zeros 1 ++ leBytes status 2 ++ leBytes len 4 ++ leBytes beat 8 ++ leBytes mask 4
    ++ leBytes rerun 4 ++ zeros 28
  b ++ leBytes (crc32c b) 4

/-- How a claim goes. -/
inductive Claim where
  | won | lost | other
deriving DecidableEq, Repr

/-- A claim of a JOB_ID against an entry (R478 step 2). -/
def claimOf (entry : List Byte) (jobId : Nat) : Claim :=
  let k := leAt entry 0 8
  let w := leAt entry 8 1
  if k = jobId ∧ w ≠ 0xFF then .lost
  else if k = 0 ∨ k = jobId ∨ (k / 256 = jobId / 256 ∧ k % 256 + 1 = jobId % 256) ∨ jobId % 256 = 0 then .won
  else .other

/-- A claim as a number, for the answer to another node: 0 won, 1 lost, 2 neither. -/
def Claim.code (c : Claim) : Nat :=
  match c with
  | .won => 0
  | .lost => 1
  | .other => 2

end Sys2Proof.Machine
end

