-- ==== Sys2Proof/Machine/Rerank.lean ====
section
/-! DEFINITION. SLU.DIST (R224, R225), the fetches of full vectors, and the wait for a snapshot (R201). -/
namespace Sys2Proof.Machine

/-! ## Serving a fetch (R224 step 1, R330) -/

/-- A cache copy's `raw` bytes, from its streams in memory, each of 4,096 raw bytes and the last of what remains: nothing where a stream
fails Table 5.5, with the check (R300, log 148). -/
def readStreams (raw : Nat) (b : List Byte) : List (Nat × Bool) → Option Nat ⊕ List Byte
  | [] => .inr []
  | (n, packed) :: t =>
    match readStreams (raw - 4096) (b.drop n) t with
    | .inl c => .inl c
    | .inr rest =>
      if packed then
        match decodeStream false (n / 512) (b.take n) (min raw 4096) with
        | .inl c => .inl (some c)
        | .inr raw => .inr (raw ++ rest)
      else .inr (b.take n ++ rest)

/-- A full vector of an act by its locator, with whether a cache copy gave it. `media` is what the flash cells give for each page. -/
def State.serveVec (s : State) (act loc : Nat) (media : List Nat) : (Option (List Byte) × Bool) × State :=
  let s := s.count 0x408 1
  match s.index? act with
  | none => ((none, false), s)
  | some i =>
    let page := loc % 2 ^ 36
    let unit := bits loc 36 8
    let flash (s : State) : (Option (List Byte) × Bool) × State :=
      let n := (unit * 64 + i.vecBytes - 1) / pageBytes + 1
      if !((List.range n).all fun k => decide (page + k < 2 ^ 36) && s.flash.accepts act (page + k) true) then
        ((none, false), s) else
      let (ps, s) := (List.range n).foldl (fun (a : List (List Byte × Bool) × State) k =>
        let (p, s) := a.2.readPage act (page + k) (media.getD k 0)
        (a.1 ++ [p], s)) ([], s)
      let s := s.count 0x800 n
      if ps.any (·.2) then ((none, false), s) else
      ((some (slice (ps.flatMap (·.1)) (unit * 64) i.vecBytes), false), s)
    match s.idx.caches.reverse.find? fun c => c.act == act && c.page == page && c.unit == unit with
    | none => flash s
    | some c =>
      let (b, bad, s) := s.readMem 0 c.addr ((c.streams.map (·.1)).sum)
      if bad then flash s else
      match readStreams c.len b c.streams with
      | .inr raw => ((some raw, true), s.count 0x409 1)
      | .inl none => flash s
      | .inl (some k) =>
        let (p, s) := s.draw 3
        flash (s.damage k (p % 5) act 0)

/-! ## The state of a rerank -/

/-- A rerank changed. -/
def State.modRerank (s : State) (id : Nat) (f : Rerank → Rerank) : State :=
  { s with idx := { s.idx with reranks := updWhere (·.id == id) f s.idx.reranks } }

/-- Whether an entry arrived in its list with FLAGS.UNCORR. -/
def entryUncorr (b : List Byte) : Bool := bitOf (leAt b 7 1) 1

/-- Whether position `p` needs its vector no more. -/
def Rerank.settled (r : Rerank) (p : Nat) : Bool :=
  entryUncorr (r.entries.getD p []) || ((r.fetches[p]?).map (·.arrived)).getD true

/-- The longest prefix of positions whose fetches have all arrived (R64). -/
def Rerank.prefix_ (r : Rerank) : Nat := ((List.range r.entries.length).takeWhile r.settled).length

/-- Whether every fetch that the result uses has arrived. -/
def Rerank.complete (r : Rerank) : Bool :=
  let n := match r.cut with
    | some (c, _) => min c r.entries.length
    | none => r.entries.length
  (List.range n).all r.settled

/-- The estimated distance of an entry (R224 step 3). -/
def Rerank.estimate (r : Rerank) (e : Entry) : Nat :=
  let x := round32 ((f32 r.scale).mul (.fin false e.dist 0))
  let y := fadd x r.bias
  if r.metric = 2 then fadd y one32 else y

/-- One scored entry (R224, R225). -/
def Rerank.score (r : Rerank) (i : Index) (p : Nat) : Entry :=
  let e := entryAt (r.entries.getD p []) 0
  let est (flag : Nat) : Entry := { e with dist := r.estimate e, flags := e.flags ||| flag }
  if bitOf e.flags 1 then est 0 else
  if ((r.fetches[p]?).map fun f => f.served && f.arrived && f.vec.isNone).getD false then est 2 else
  if (match r.cut with
    | some (c, _) => decide (c ≤ p)
    | none => false) then est 1 else
  match r.fetches[p]? with
  | some f =>
    match f.vec with
    | some v => { e with
        dist := distance r.metric r.query (i.loadVec v (e.loc / 2 ^ 48)), flags := e.flags ||| (if f.cached then 4 else 0) }
    | none => est 2
  | none => est 2

/-- The end of a rerank whose vectors have arrived: the scored list goes into its tile, and the instruction can complete. -/
def State.tryRerank (s : State) (id : Nat) : State :=
  match s.idx.reranks.find? (·.id == id) with
  | none => s
  | some r =>
    if !r.complete then s else
    match s.index? r.act, s.tile? r.tile with
    | some i, some t =>
      let es := sortBy (Entry.before 1) ((List.range r.entries.length).map (r.score i))
      let v := listTile 1 r.stride [es] [(false, false, Acc320.zero)] none
      let s := (s.abandonMoves t.id).writeMem 0 t.home v.data
      let (crc, s) := s.flipCrc (((s.anyStrand? r.strand).map (·.crew)).getD 16) v.crc
      let s := s.modTile t.id fun u => { u with crc := crc, info := v.info }
      let s := if es.any (bitOf ·.flags 2) then s.setMask r.job 4 else s
      let s := if es.any (bitOf ·.flags 1) then s.softOutcome r.job else s
      let s := match r.cut with
        | some (c, true) =>
          (s.modJob r.job fun j =>
            let old := if bitOf j.mask 0 then bits j.mask 16 13 else c
            { j with mask := putBits (j.mask ||| 1) 16 13 (min old c) }).count 0x40A 1
        | _ => s
      let s := { s with idx := { s.idx with reranks := s.idx.reranks.filter (·.id != id) } }
      s.regate r.strand r.tag .engine []
    | _, _ => s

/-- The cut of a rerank at its job's deadline (R225): where estimating paths are allowed and a fetch is still on its way. -/
def State.cutRerank (s : State) (j : Job) (r : Rerank) : State :=
  if bitOf j.desc.flags 3 && !bitOf j.desc.flags 6 && r.cut.isNone && !r.complete then
    (s.modRerank r.id fun r => { r with cut := some (r.prefix_, true) }).tryRerank r.id
  else s

/-! ## SLU.DIST -/

/-- The list form at issue: the fetches go out, and the result tile waits for them. -/
def distList (o : Insn) (t : Strand) (j : Job) (v : Tile) : M Unit := do
  let i ← indexOf j
  let q ← slotAt t 0
  need (q.metric == o.fld 0 2) cTile
  let (query, w) ← quotaFirst j.act t.crew v.len do
    let query ← vectorAt t j o.a i.dim
    pure (query, ← useTile t j o.b v)
  let l ← orFault w.info cTile
  let es := laneEntries w l 0
  let blank := listTile 1 l.stride [es] [(false, false, Acc320.zero)] none
  let tile ← newBlank t j blank
  let forced := bitOf j.desc.flags 6 && bitOf j.desc.forcedMask 0
  let cut := if forced then some (bits j.desc.forcedMask 16 13, false) else none
  let s ← get
  let id := s.nextId
  set s.fresh
  let tag := (← get).nextId
  launch Form.sluDist o t (.rerank id) (.q 0 :: .s 62 :: s.vecReads o.strand o.a) [] [.bindT o.dst tile]
  let out (p : Nat) (e : Entry) : Bool := bitOf e.flags 1 || (match cut with
    | some (c, _) => decide (c ≤ p)
    | none => false)
  let fs := es.zipIdx.map fun e => ⟨false, out e.2 e.1, none, false⟩
  let r : Rerank := ⟨id, j.act, j.id, t.id, tag, tile, l.stride, query, es.map Entry.bytes, q.scale, q.bias, q.metric, fs, cut⟩
  upd fun s => { s with idx := { s.idx with reranks := s.idx.reranks ++ [r] } }
  upd fun s => es.zipIdx.foldl (fun s e =>
    if out e.2 e.1 || e.1.node == s.self then s else s.sendNode e.1.node j.act 1 none 16 (.fetch e.1.node j.act e.1.loc id e.2)) s
  upd fun s => if s.late j then s.cutRerank j r else s
  upd fun s => s.tryRerank id

def execSluDist (o : Insn) (s : State) : Host.Outcome State Fault Refusal :=
  issue Form.sluDist o s fun t j => do
    let _ ← snapshotFor 6 1 o t
    let v ← tileAt t o.b fun v => isNumeric v.fmt || (v.fmt == 8 && match v.info with
      | some l => l.kind == 0 && l.dirs.length == 1
      | none => false)
    if v.fmt = 8 then do
      if !t.clear (.q 0 :: .s 62 :: s.vecReads o.strand o.a) [] then throw .hold
      distList o t j v
    else do
      let cols := shapeCols v.fmt v.shape
      let reads := .s 62 :: (vecHandles o.a cols).map Res.t
      if !t.clear reads [] then throw .hold
      let r ← quotaFirst j.act t.crew 4096 do
        let q ← vectorAt t j o.a cols
        let w ← useTile t j o.b v
        pure (tileDistances (o.fld 0 2) q w)
      let id ← newTile t j r
      launch Form.sluDist o t .engine reads [] [.bindT o.dst id]

/-- A home serves a fetch, unless it needs flash that starts nothing any more (R337): for a rerank of this node by its own list, and for another node by what that node asks. -/
def execRerankFetchServe (node act loc id pos : Nat) (media : List Nat) (s : State) : Host.Outcome State Fault Refusal :=
  .next (
    if s.now < s.fun_.fetchHold then s else
    if node ≠ s.self then
      let ((v, c), u) := s.serveVec act loc media
      if s.flash.quiet && !c then s else
      u.adtRefresh.sendNode node act 2 none ((v.getD []).length) (.vector node id pos v c)
    else
      match s.idx.reranks.find? (·.id == id) with
      | none => s
      | some r =>
        let e := entryAt (r.entries.getD pos []) 0
        match r.fetches[pos]? with
        | none => s
        | some f =>
          if f.served || f.arrived || e.node != s.self then s else
          let ((v, c), u) := s.serveVec r.act e.loc media
          if s.flash.quiet && !c then s else
          u.adtRefresh.modRerank id fun r => { r with
            fetches := updAt r.fetches pos fun f => { f with served := true, vec := v, cached := c } })

/-- A fetched vector arrives: one that this node served, or one from another node. -/
def execRerankFetchArrive (id pos : Nat) (vec : Option (List Byte)) (cached : Bool) (s : State) :
    Host.Outcome State Fault Refusal :=
  .next (match s.idx.reranks.find? (·.id == id) with
    | none => s
    | some r =>
      let e := entryAt (r.entries.getD pos []) 0
      match r.fetches[pos]? with
      | none => s
      | some f =>
        if f.arrived || (e.node == s.self && !f.served) then s else
        let f := if e.node = s.self then { f with arrived := true } else ⟨true, true, vec, cached⟩
        (s.modRerank id fun r => { r with fetches := updAt r.fetches pos fun _ => f }).tryRerank id)

/-- A strand that waits for its snapshot goes on with the instruction, and its beats of waiting are counted (R201, R230). -/
def execSnapshotWaitRelease (strand : Nat) (s : State) : Host.Outcome State Fault Refusal :=
  match s.strand? strand with
  | none => .next s
  | some t =>
    match t.wait with
    | .snapshot c f o =>
      if (t.getS 62).toNat > s.tally.stable then .next s else
      let s := (s.modStrand strand fun u => { u with wait := .no }).count 0x40B (s.now - t.since)
      match c, f with
      | 6, 0 => execSluScan o s
      | 6, _ => execSluDist o s
      | _, 0 => execIdxOpen o s
      | _, 1 => execIdxRoute o s
      | _, _ => execIdxTomb o s
    | _ => .next s

end Sys2Proof.Machine
end

