-- ==== Sys2Proof/Machine/Ringmaster.lean ====
section
/-! DEFINITION. The Ringmaster at work (chapter 13): meters (R390 to R393), gate lists (R385 to R389), the choice of the next unit (R388),
waiting producers (R394) and queue samples (R395). -/
namespace Sys2Proof.Machine

/-- RGM_ERR recorded while nothing is recorded. -/
def State.logRgm (s : State) (kind chan act : Nat) : State :=
  if s.on F.rgmErr_valid then s else
  ((s.wr F.rgmErr_valid 1).wr F.rgmErr_kind kind).wr F.rgmErr_channel chan |>.wr F.rgmErr_act act

/-! ## Meters -/

/-- The buckets filled up to a time. -/
def Meter.fill (t : Nat) (m : Meter) : Meter :=
  { m with
    tc := min (m.tc + (t - m.at_) * m.cir) (m.cbs * 1000)
    tp := min (m.tp + (t - m.at_) * m.pir) (m.pbs * 1000)
    at_ := t }

/-- The colour of a unit of `b` thousandths of a byte (R391): 1 green, 2 yellow, 3 red. -/
def Meter.test (b : Nat) (m : Meter) : Nat × Meter :=
  if m.mode = 1 then
    if m.tp < b then (3, m)
    else if m.tc < b then (2, { m with tp := m.tp - b })
    else (1, { m with tp := m.tp - b, tc := m.tc - b })
  else
    if b ≤ m.tc then (1, { m with tc := m.tc - b })
    else if b ≤ m.tp then (2, { m with tp := m.tp - b })
    else (3, m)

/-- The number of a meter (Table 13.8). -/
def meterNum (act chan cls : Nat) : Nat := act * 16 + chanGroup chan * 4 + cls

/-- Whether no meter tests a unit: class 0, and the responses of the Carousel (R392). -/
def Unit_.free (u : Unit_) : Bool :=
  u.cls == 0 || match u.out with
    | some (.packet p) => p.vc == 1
    | some (.recordDone _ _ _ _ _) => true
    | _ => false

/-- The meter that tests a unit, where one is in effect. -/
def State.meterOf (s : State) (u : Unit_) : Option Meter :=
  if u.free || !s.on F.rgmCtrl_metersEn then none
  else s.rgm.meters.find? fun m => m.num == meterNum u.act u.chan u.cls && m.mode != 0

/-- A unit changed by its identifier. -/
def State.modUnit (s : State) (id : Nat) (f : Unit_ → Unit_) : State :=
  s.modRgm fun r => { r with units := updWhere (·.id == id) f r.units }

/-- A unit that leaves its queue unsent. -/
def State.dropUnit (s : State) (id : Nat) : State := s.modRgm fun r => { r with units := r.units.filter (·.id != id) }

/-- A head unit tested (R391, R392): its colour is counted, and a red Midway unit under RED_DROP is discarded. -/
def State.colour (s : State) (u : Unit_) : State :=
  match s.meterOf u with
  | none => s.modUnit u.id fun v => { v with colour := 1 }
  | some m =>
    let (c, m') := (m.fill s.ns).test (u.len * 1000)
    let s := s.modRgm fun r => { r with meters := updWhere (·.num == m.num) (fun _ => m') r.meters }
    let s := s.modUnit u.id fun v => { v with colour := c }
    if c = 1 then s.bump (F.rgmMtrGreen_count m.num) 1
    else if c = 2 then s.bump (F.rgmMtrYellow_count m.num) 1
    else
      let s := if u.colour = 3 then s else (s.bump (F.rgmMtrRed_count m.num) 1).count 0xA31 1
      if m.redDrop && chanGroup u.chan == 1 then (s.dropUnit u.id).count 0xA32 1 else s

/-- The head units of a channel's queues. -/
def State.heads (s : State) (n : Nat) : List Unit_ :=
  (s.rgm.units.filter (·.chan == n)).foldl (fun acc u => if acc.any u.mate then acc else acc ++ [u]) []

/-- The heads that are untested or red tested, until none is untested: one discarded unit per unit of fuel. -/
def State.colourHeads (n : Nat) : Nat → State → State
  | 0, s => s
  | f + 1, s =>
    let l := (s.heads n).filter fun u => u.colour == 0 || u.colour == 3
    let s := l.foldl State.colour s
    if (s.heads n).any (·.colour == 0) then State.colourHeads n f s else s

/-! ## Gates -/

/-- Active entry `i` of a channel. -/
def State.gate (s : State) (n i : Nat) : Nat := s.rd (F.rgmChActive_entry n i)

/-- The interval of an entry, whether it opens a class, and its BACK_HOLD (Table 13.4). -/
def gateNs (e : Nat) : Nat := bits e 0 20
def gateOpen (e c : Nat) : Bool := c == 0 || bitOf e (19 + c)
def gateHold (e : Nat) : Bool := bitOf e 23

/-- The time at which a run of entries that satisfy a test ends, from the current entry on; nothing where it never ends. One entry per unit
of fuel. -/
def State.runEnd (s : State) (n : Nat) (p : Nat → Bool) : Nat → Nat → Nat → Option Nat
  | 0, _, _ => none
  | f + 1, i, t =>
    let c := s.chan n
    let e := s.gate n i
    if p e then s.runEnd n p f ((i + 1) % c.entries) (t + gateNs e) else some t

/-- The longest cyclic run of BACK_HOLD entries in ns (R389). -/
def holdSpan (l : List Nat) : Nat :=
  ((l ++ l).foldl (fun (a : Nat × Nat) e =>
    if gateHold e then
      let r := min (a.1 + gateNs e) ((l.map gateNs).sum)
      (r, max a.2 r)
    else (0, a.2)) (0, 0)).2

/-- RGM_CHn_BOUND for the active list. -/
def State.setBound (s : State) (n : Nat) : State :=
  s.wr (F.rgmChBound_ns n) (holdSpan ((List.range (s.chan n).entries).map (s.gate n)) + chanWindow n)

/-! ## The next unit (R388) -/

/-- An act's share of a class. -/
def State.share (s : State) (act cls : Nat) : Nat := bits (s.rd ⟨0x3010000 + act * 0x10, 0, 24⟩) (8 * (cls - 1)) 8

/-- Deficit round robin from act `a`: the unit, the act whose turn it remains, and the deficits; one act visited per unit of fuel. -/
def drr (quantum : Nat → Nat) (cand : Nat → Option Unit_) (queued : Nat → Bool) (cls : Nat) :
    Nat → Nat → Bool → List (Nat × Nat) → Option (Unit_ × Nat × List (Nat × Nat))
  | 0, _, _, _ => none
  | f + 1, a, given, d =>
    let key := cls * 16 + a
    match cand a with
    | none => drr quantum cand queued cls f ((a + 1) % 16) false (if queued a then d else kvSet 0 d key 0)
    | some u =>
      let v := kvGet 0 d key + (if given then 0 else quantum a)
      if u.len ≤ v then some (u, a, kvSet 0 d key (v - u.len))
      else drr quantum cand queued cls f ((a + 1) % 16) false (kvSet 0 d key v)

/-- The unit of a class that deficit round robin serves: green before yellow, and acts of SHARE 0 only when no other has one. -/
def State.serve (s : State) (n cls : Nat) (cands : List Unit_) : Option (Unit_ × State) :=
  let pool := if cands.any (·.colour == 1) then cands.filter (·.colour == 1) else cands
  let shared := pool.any fun u => s.share u.act cls != 0
  let cand (a : Nat) : Option Unit_ :=
    if shared && s.share a cls == 0 then none else pool.find? (·.act == a)
  let quantum (a : Nat) : Nat := (if shared then s.share a cls else 1) * 256
  let queued (a : Nat) : Bool := s.rgm.units.any fun u => u.chan == n && u.cls == cls && u.act == a
  let c := s.chan n
  let (a, given) := kvGet (0, false) c.turns cls
  match drr quantum cand queued cls 1120 a given c.deficits with
  | none => none
  | some (u, a, d) =>
    some (u, s.modChan n fun c => { c with deficits := d, turns := kvSet (0, false) c.turns cls (a, true) })

/-- Whether a link goes to a position that joins, whose link back has not trained yet (R353 step 4). -/
def State.joinHold (s : State) (l : Nat) : Bool :=
  !s.car.joins.isEmpty && !s.on (F.carLinkStatus_rxUp (if l % 2 = 0 then l + 1 else l - 1)) && s.car.joins.any fun j =>
    s.land l (s.rd F.carCfg_position) (s.rd F.carCfg_size) == some j.1

/-- Whether the far end lets a channel send: the link is trained, the port is up, the host link is up. -/
def State.chanUp (s : State) (n : Nat) : Bool :=
  match chanGroup n with
  | 0 => s.on (F.carLinkStatus_txUp n) && !s.joinHold n
  | 1 => s.on (F.mdwPortCtrl_enable (n - 8)) && s.on (F.mdwPortStatus_linkUp (n - 8))
  | 2 => true
  | _ => s.on F.hifLinkStatus_dlUp

/-- The IEEE 802.1Q priority of a class (RGM_PCP_MAP). -/
def State.pcp (s : State) (cls : Nat) : Nat := bits (s.rd F.rgmPcpMap_pcp) (3 * cls) 3

/-- Whether a class is paused on a channel by priority flow control (R371). -/
def State.pausedCls (s : State) (n cls : Nat) : Bool :=
  chanGroup n == 1 && s.on (F.mdwPortCtrl_pfcEn (n - 8)) && s.mdw.paused.contains (n - 8, s.pcp cls)

/-- Whether a class 3 unit is due. -/
def Unit_.isDue (now : Nat) (u : Unit_) : Bool :=
  match u.due with
  | some b => decide (b ≤ now)
  | none => false

/-- Whether a class 3 head goes as due: itself, or a unit behind it in its queue, which it holds up, is due. -/
def State.queueDue (s : State) (u : Unit_) : Bool := s.rgm.units.any fun v => v.mate u && v.isDue s.now

/-- The time in ns that class 0 has taken on a channel and that the 16 ns of each beat since, 1/64 of it, have not covered (R383). -/
def State.ctrlNs (s : State) (n : Nat) : Nat := (s.chan n).ctrl.2 - 16 * (s.now - (s.chan n).ctrl.1)

/-- Whether a class 0 unit may go: its time fits in what is left of the beat's 16 ns, or nothing of class 0 is to be covered yet; a longer
unit is covered by the beats that follow (R383, log 176). -/
def State.ctrlFits (s : State) (n : Nat) (u : Unit_) : Bool := s.ctrlNs n == 0 || decide (s.ctrlNs n + s.lineNs n u.len ≤ 16)

/-- The unit that R388 sends next on a channel: a packet on its way through waits behind an earlier one of its flow (R350). -/
def State.choose (s : State) (n : Nat) : Option (Unit_ × State) :=
  let first (u : Unit_) : Bool := !((s.rgm.units.takeWhile (·.id != u.id)).any (s.sameFlow u))
  let heads := (s.heads n).filter fun u => !s.pausedCls n u.cls && first u
  let gates := s.on F.rgmCtrl_gatesEn
  let c := s.chan n
  let e := if gates then s.gate n c.entry else 0x700000
  let due3 := s.rgm.units.any fun u => u.chan == n && u.cls == 3 && u.isDue s.now
  let hold := gateHold e && due3
  let window (cls : Nat) (e : Nat) : Bool :=
    gateOpen e cls && (if cls = 3 then !hold || gateHold e else !(gateHold e && due3))
  let fits (u : Unit_) : Bool :=
    !gates || match s.runEnd n (window u.cls) c.entries c.entry c.start with
      | none => true
      | some t => decide (s.ns + s.lineNs n u.len ≤ t)
  let ready (cls : Nat) (p : Unit_ → Bool) : List Unit_ :=
    heads.filter fun u => u.cls == cls && (u.colour == 1 || u.colour == 2) && gateOpen e cls && fits u && p u
  match heads.find? fun u => u.cls == 0 && s.ctrlFits n u with
  | some u => some (u, s.modChan n fun c => { c with ctrl := (s.now, s.ctrlNs n + s.lineNs n u.len) })
  | none =>
    let due := ready 3 s.queueDue
    if hold then s.serve n 3 due else
    match s.serve n 1 (ready 1 fun _ => true) with
    | some r => some r
    | none =>
      match s.serve n 2 (ready 2 fun _ => true) with
      | some r => some r
      | none =>
        match s.serve n 3 due with
        | some r => some r
        | none =>
          if s.rgm.units.any fun u => u.chan == n && u.cls != 0 && gateOpen e u.cls && (u.cls != 3 || u.isDue s.now) then none
          else s.serve n 3 (ready 3 fun _ => true)

/-! ## Sending -/

/-- The number of a packet's operation, for its code. -/
def opIndex : PktOp → Nat
  | .ld => 0 | .st => 1 | .get => 2 | .put => 3 | .atom => 4 | .atomn => 5 | .inv => 6 | .invalidate => 7 | .claim => 8
  | .ldData => 9 | .getData => 10 | .fill => 11 | .ack => 12 | .atomOld => 13 | .invAck => 14 | .nak => 15

/-- The fields of the packet header behind its first byte (Table 12.2). -/
def headFields (p : Packet) : List Byte :=
  leBytes p.src 1 ++ leBytes p.dst 1 ++ leBytes (p.act % 16 + 16 * (p.size % 4) + 64 * b2n p.wide + 128 * b2n p.copyOk) 1
    ++ leBytes p.seq 4 ++ leBytes p.key 4 ++ leBytes p.data.length 4 ++ leBytes (p.addr % 2 ^ 46) 8 ++ leBytes p.aux 4

/-- The 32-byte header of a packet (R370). -/
def packetHead (p : Packet) : List Byte :=
  let h := leBytes (p.vc % 4 + 4 * (Config.opCode (opIndex p.op) % 64)) 1 ++ headFields p
  h ++ leBytes (crc32c h) 4

/-- Whether a received header passes HDR_CRC and is that of a packet. Operation codes are not the spec's (log 166). -/
def headOk (p : Packet) (b : List Byte) : Bool :=
  b.length == 32 && leAt b 28 4 == crc32c (b.take 28) && bits (leAt b 0 1) 0 2 == p.vc && slice b 1 27 == headFields p

/-- A frame put on its link, or what a perturbation makes of it: nothing, or one whose CRC is wrong (Table 17.5). -/
def State.emitFrame (s : State) (l q : Nat) (stream : Option (List Byte)) (p : Packet) : State :=
  match s.fun_.frames.find? (·.1 == l) with
  | none => s.emit (.frame l q (s.bufClass p.src p.dst) (packetHead p) stream p)
  | some e =>
    let s := { s with fun_ := { s.fun_ with frames := s.fun_.frames.erase e } }
    if e.2 = 1 then s else s.emit (.badFrame l q)

/-- A SQUEEZE frame as the link encoder counts it (Table 5.7): its raw bytes and its stream's, a stored stream's too, and one more in RAW_KEPT
where R154 chose mode 0, which SQUEEZE_EN does not (log 152). -/
def State.frameCount (s : State) (raw out : Nat) (kept : Bool) : State :=
  let s := s.packCount raw (some out)
  if kept then s.bump F.cruRawKept_count 1 else s

/-- A Carousel packet framed for its link (R346, R368): the next sequence number, the stream of a SQUEEZE frame (R161), and a place in the
retry buffer of 64 frames. -/
def State.sendFrame (s : State) (l : Nat) (p : Packet) : State :=
  let q := kvGet 0 s.car.txSeq l
  let s := { s with car := { s.car with txSeq := kvSet 0 s.car.txSeq l ((q + 1) % 65536) } }
  let mine := s.car.retry.filter (·.link == l)
  let others := s.car.retry.filter (·.link != l)
  let (stream, s) :=
    if p.squeeze then
      let (b, coded) := packFrame (s.on F.cruCtrl_squeezeEn) p.data
      (some b, s.frameCount p.data.length b.length (s.on F.cruCtrl_squeezeEn && !coded))
    else (none, s)
  ({ s with car := { s.car with
      retry := others ++ mine.drop (mine.length - 63) ++ [(⟨l, q, p, 0, false⟩ : TxFrame)] } }).emitFrame l q stream p

/-- A unit sent: its cells are free, its bytes are counted (R398, R380), and what it carries leaves the node. -/
def State.sendUnit (s : State) (u : Unit_) : State :=
  let s := (s.dropUnit u.id).count (0xA00 + u.chan) u.len
  let s := s.modStat u fun q => { q with sent := min (q.sent + u.len) (2 ^ 32 - 1) }
  let s := if u.chan < 8 then s.count (0x900 + u.chan) u.len else s
  let s := if chanGroup u.chan = 1 then
      s.bump64 (F.mdwPortTxFramesLo_count (u.chan - 8)) (F.mdwPortTxFramesHi_count (u.chan - 8)) 1 else s
  match u.out with
  | none => s
  | some (.packet p) => s.sendFrame u.chan p
  | some o => s.emit o

/-- What a boundary makes of the stall that BACK_HOLD adds (R389): it begins when a class 1 or 2 unit is held, and ends when one is sent. -/
def State.noteStall (s : State) (n : Nat) (u : Option Unit_) : State :=
  let c := s.chan n
  let e := s.gate n c.entry
  let sent := match u with
    | some u => u.cls == 1 || u.cls == 2
    | none => false
  if sent then
    match c.stalled with
    | some t =>
      let d := s.ns - t
      (s.wr (F.rgmChHoldMax_ns n) (max (s.rd (F.rgmChHoldMax_ns n)) (min d (2 ^ 21 - 1)))).modChan n fun c => { c with stalled := none }
    | none => s
  else if s.on F.rgmCtrl_gatesEn && gateHold e && c.stalled.isNone
      && (s.rgm.units.any fun u => u.chan == n && (u.cls == 1 || u.cls == 2))
      && (s.rgm.units.any fun u => u.chan == n && u.cls == 3 && u.isDue s.now) then
    s.modChan n fun c => { c with stalled := some s.ns }
  else s

/-- A unit boundary of a channel: the heads are coloured, and the next unit is sent. -/
def State.boundary (s : State) (n : Nat) : State :=
  if !s.chanUp n then s else
  let s := State.colourHeads n s.rgm.units.length s
  match s.choose n with
  | none => s.noteStall n none
  | some (u, s) => (s.sendUnit u).noteStall n (some u)

/-- Waiting producers' units enter their queues, in order, as far as cells allow; a unit does not pass another of its queue. -/
def State.releaseCells (s : State) : State :=
  s.rgm.waiting.foldl (fun s u =>
    if s.cellsFit u && !(s.rgm.waiting.any fun v => (v.mate u || s.sameFlow u v) && decide (v.id < u.id)) then
      (s.modRgm fun r => { r with waiting := r.waiting.filter (·.id != u.id) }).enter u
    else s) s

def execPoolCellsRelease (s : State) : Host.Outcome State Fault Refusal := .next s.releaseCells

/-! ## Gate lists -/

/-- The next entry of the cycle begins once the current one's INTERVAL has passed. -/
def execGateEntryAdvance (chan : Nat) (s : State) : Host.Outcome State Fault Refusal :=
  .next (
    let c := s.chan chan
    let t := c.start + gateNs (s.gate chan c.entry)
    if chan ≥ 43 ∨ s.ns < t then s else
    let i := (c.entry + 1) % c.entries
    (s.modChan chan fun c => { c with entry := i, start := t }).wr (F.rgmChGclStatus_entry chan) i)

/-- The first check of R386 that a pending list fails, counted from 0. -/
def State.gateCheck (s : State) (n entries cycle takeover : Nat) : Option Nat :=
  let l := (List.range entries).map fun i => s.rd (F.rgmChPend_entry n i)
  let opens (e : Nat) : Bool := [1, 2, 3].any (gateOpen e)
  firstFail [
    (0, (l.map gateNs).sum == cycle * 1024),
    (1, l.all fun e => !opens e || decide (chanWindow n ≤ gateNs e)),
    (2, [1, 2, 3].all fun c => l.any fun e => gateOpen e c && !gateHold e),
    (3, decide (s.now + 4 ≤ takeover)),
    (4, l.all fun e => bits e 24 8 == 0)]

/-- A write of RGM_CHn_GCL_CTRL with ARM = 1 (R386). -/
def execGateListArm (src : Src) (chan entries cycleM1 : Nat) (s : State) : Host.Outcome State Fault Refusal :=
  .next (
    if !s.reaches src || decide (chan ≥ 43) then s else
    let s := s.wrIf (F.rgmChGclCtrl_entries chan) (decide (1 ≤ entries ∧ entries ≤ 64)) entries
    let s := s.wrIf (F.rgmChGclCtrl_cycleM1 chan) (decide (cycleM1 ≤ 65534)) cycleM1
    let t := s.rd64 (F.rgmChTakeoverLo_beat chan) (F.rgmChTakeoverHi_beat chan)
    match s.gateCheck chan (s.rd (F.rgmChGclCtrl_entries chan)) (s.rd (F.rgmChGclCtrl_cycleM1 chan) + 1) t with
    | some k => ((s.wr (F.rgmChGclCtrl_arm chan) 0).modChan chan fun c => { c with armed := none }).logRgm k chan 0
    | none => (s.wr (F.rgmChGclCtrl_arm chan) 1).modChan chan fun c => { c with armed := some t })

/-- A write of ARM = 0 before the takeover (R387). -/
def execGateListCancel (src : Src) (chan : Nat) (s : State) : Host.Outcome State Fault Refusal :=
  .next (
    if !s.reaches src || decide (chan ≥ 43) || (s.chan chan).armed.all (· ≤ s.now) then s else
    ((s.wr (F.rgmChGclCtrl_arm chan) 0).wr (F.rgmChGclStatus_cancelled chan) 1).modChan chan fun c => { c with armed := none })

/-- Beat T (R387): the lists change places, and the new cycles count from T. -/
def execGateTakeover (chan : Nat) (s : State) : Host.Outcome State Fault Refusal :=
  .next (match (s.chan chan).armed with
    | none => s
    | some t =>
      if s.now < t then s else
      let c := s.chan chan
      let n := s.rd (F.rgmChGclCtrl_entries chan)
      let cyc := s.rd (F.rgmChGclCtrl_cycleM1 chan) + 1
      let s := (List.range 64).foldl (fun s i =>
        let a := s.gate chan i
        (s.wr (F.rgmChActive_entry chan i) (s.rd (F.rgmChPend_entry chan i))).wr (F.rgmChPend_entry chan i) a) s
      let s := (s.wr (F.rgmChGclCtrl_entries chan) c.entries).wr (F.rgmChGclCtrl_cycleM1 chan) (c.cycle - 1)
      let s := ((s.wr (F.rgmChGclCtrl_arm chan) 0).wr (F.rgmChGclStatus_tookOver chan) 1).wr (F.rgmChGclStatus_entry chan) 0
      let s := s.wr64 (F.rgmChActiveLo_beat chan) (F.rgmChActiveHi_beat chan) t
      let s := s.modChan chan fun c => { c with entries := n, cycle := cyc, entry := 0, start := t * 1024, armed := none }
      ((s.setBound chan).count 0xA30 1).fired 1)

/-! ## Meter and reservation writes -/

/-- The fields written for a meter. -/
def State.meterFields (s : State) (m : Nat) : Meter :=
  ⟨m, s.rd (F.rgmMtrCtrl_mode m), s.on (F.rgmMtrCtrl_redDrop m), s.rd (F.rgmMtrCir_mbps m), s.rd (F.rgmMtrPir_mbps m),
    s.rd (F.rgmMtrCbs_bytes m), s.rd (F.rgmMtrPbs_bytes m), 0, 0, 0⟩

/-- APPLY = 1 (R393): the fields are submitted, or refused. -/
def execMeterApply (src : Src) (act group cls mode : Nat) (redDrop : Bool) (s : State) : Host.Outcome State Fault Refusal :=
  .next (
    if !s.reaches src || decide (act ≥ 16 ∨ group ≥ 4 ∨ cls = 0 ∨ cls ≥ 4) then s else
    let num := act * 16 + group * 4 + cls
    let s := (s.wrIf (F.rgmMtrCtrl_mode num) (decide (mode < 3)) mode).wr (F.rgmMtrCtrl_redDrop num) (b2n redDrop)
    let m := s.meterFields num
    let most := [4160, 9216, 16448, 4160].getD group 0
    let rate := if m.mode = 2 then m.cir else m.pir
    if (m.mode ≠ 0 ∧ rate = 0) ∨ m.cbs < most ∨ m.pbs < most then s.logRgm 6 (group * 16 + cls) act
    else s.modRgm fun r => { r with applies := r.applies.filter (·.1.num != m.num) ++ [(m, s.now)] })

/-- The next beat boundary: the fields take effect, and the buckets are cut; from MODE 0 they start full. -/
def State.applyMeter (s : State) (m : Meter) : State :=
  let old := (s.rgm.meters.find? (·.num == m.num)).map (Meter.fill s.ns)
  let (tc, tp) := match old with
    | some o => if o.mode = 0 then (m.cbs * 1000, m.pbs * 1000) else (min o.tc (m.cbs * 1000), min o.tp (m.pbs * 1000))
    | none => (m.cbs * 1000, m.pbs * 1000)
  s.modRgm fun r => { r with
    meters := { m with tc := tc, tp := tp, at_ := s.ns } :: r.meters.filter (·.num != m.num) }

def execMeterApplyEffect (s : State) : Host.Outcome State Fault Refusal :=
  .next (
    let ready := s.rgm.applies.filter fun a => decide (a.2 < s.now)
    let s := s.modRgm fun r => { r with applies := r.applies.filter fun a => !decide (a.2 < s.now) }
    ready.foldl (fun s a => s.applyMeter a.1) s)

/-- A write of RESERVE (R394). -/
def execReserveWrite (src : Src) (chan cells : Nat) (s : State) : Host.Outcome State Fault Refusal :=
  .next (
    if !s.reaches src || decide (chan ≥ 43 ∨ cells ≥ 2 ^ 19) then s else
    let sum := ((List.range 43).map fun n => if n = chan then cells else s.rd (F.rgmChReserve_cells n)).sum
    if cells < 2 * cellsOf (chanLargest chan) ∨ sum > 196608 then s.logRgm 5 chan 0
    else (s.wr (F.rgmChReserve_cells chan) cells).releaseCells)

/-! ## Samples (R395) -/

/-- One sample record of a queue (Table 13.6), where it has something to say. -/
def State.sampleOf (s : State) (chan act cls : Nat) : Option (List Byte) :=
  let probe : Unit_ := ⟨0, chan, act, cls, 0, none, 0, 0, 0, none⟩
  let depth := s.depth probe
  let q := (s.rgm.stats.find? fun q => q.chan == chan && q.act == act && q.cls == cls).getD ⟨chan, act, cls, 0, 0⟩
  let maxDepth := max q.maxDepth depth
  if depth = 0 ∧ maxDepth = 0 ∧ q.sent = 0 then none else
  let head := s.rgm.units.find? probe.mate
  let delay := match head with
    | some u => min (s.ns - u.entered) (2 ^ 32 - 1)
    | none => 0
  let red := match head with
    | some u => u.colour == 3
    | none => false
  let isOpen := !s.on F.rgmCtrl_gatesEn || gateOpen (s.gate chan (s.chan chan).entry) cls
  some (leBytes s.now 8 ++ leBytes chan 1 ++ leBytes act 1 ++ leBytes cls 1 ++ leBytes (b2n isOpen + 2 * b2n red) 1
    ++ leBytes depth 4 ++ leBytes maxDepth 4 ++ leBytes delay 4 ++ leBytes q.sent 4 ++ zeros 4)

/-- The queues of a channel in the order of the records. -/
def queuesOf (chan : Nat) : List (Nat × Nat × Nat) :=
  (List.range 16).flatMap fun a => (if a = 0 then [(chan, 0, 0)] else []) ++ [(chan, a, 1), (chan, a, 2), (chan, a, 3)]

/-- One sample of every queue of the sampled channels, or a sample dropped. -/
def execQueueSample (s : State) : Host.Outcome State Fault Refusal :=
  .next (
    let period := 2 ^ s.rd F.rgmSampleCtrl_periodLog2
    if !s.on F.rgmCtrl_sampleEn || s.now % period != 0 || s.rgm.sampled == s.now + 1 then s else
    let map := s.rd F.rgmSampleChLo_sample + 2 ^ 32 * s.rd F.rgmSampleChHi_sample
    let qs := ((List.range 43).filter map.testBit).flatMap queuesOf
    let recs := qs.filterMap fun q => s.sampleOf q.1 q.2.1 q.2.2
    let size := 2 ^ s.rd F.rgmSampleCtrl_ringLog2
    let w := s.rd F.rgmSampleWr_index
    let used := (w + 2 ^ 32 - s.rd F.rgmSampleRd_index) % 2 ^ 32
    let s := s.modRgm fun r => { r with sampled := s.now + 1 }
    if used + recs.length > size then (s.bump F.rgmSampleDrop_count 1).count 0xA33 1 else
    let base := s.rd F.rgmSampleBaseLo_base * 4096 + s.rd F.rgmSampleBaseHi_base * 2 ^ 32
    let s := recs.zipIdx.foldl (fun s e => s.ordWrite (base + (w + e.2) % size * 32) e.1) s
    let s := s.wr F.rgmSampleWr_index (w + recs.length)
    s.modRgm fun r => { r with stats := r.stats.filter fun q => !qs.contains (q.chan, q.act, q.cls) })

/-! ## Priority flow control (R371) -/

/-- A received pause frame: it pauses or resumes a priority on a port while PFC_EN is 1. -/
def execPfcPauseReceive (port prio : Nat) (pause : Bool) (s : State) : Host.Outcome State Fault Refusal :=
  .next (
    if port ≥ 2 ∨ prio ≥ 8 ∨ !s.on (F.mdwPortCtrl_pfcEn port) then s else
    { s with mdw := { s.mdw with
        paused := s.mdw.paused.filter (· != (port, prio)) ++ (if pause then [(port, prio)] else []) } })

end Sys2Proof.Machine
end

