-- ==== Sys2Proof/Machine/Carousel.lean ====
section
/-! DEFINITION. The Carousel's accesses (chapter 12): the CAR instructions (R105, R359 to R366), the target's side (R358), reading copies and
their invalidation, replay (R367), link frames (R368), and exports (R356, R357). -/
namespace Sys2Proof.Machine

/-- The Carousel state changed. -/
def State.modCar (s : State) (f : CarSt → CarSt) : State := { s with car := f s.car }

/-- CAR_ERR recorded while nothing is recorded (R378). -/
def State.logCar (s : State) (kind node act : Nat) : State :=
  if s.on F.carErr_valid then s else
  (((s.wr F.carErr_valid 1).wr F.carErr_kind kind).wr F.carErr_node node).wr F.carErr_act act

/-! ## Requests (R367) -/

/-- Whether a position leaves by a planned leave within 256 beats: no new request goes to it (R355). -/
def State.leavingSoon (s : State) (node : Nat) : Bool :=
  s.car.changes.any fun c => c.kind == 1 && c.position == node && decide (c.beat ≤ s.now + 256)

/-- A request packet offered to its link, unless a perturbation holds the REQ packets to its node (Table 17.5). -/
def State.sendReq (s : State) (p : Packet) : State :=
  if p.vc = 0 ∧ s.now < kvGet 0 s.fun_.reqHolds p.dst then { s with fun_ := { s.fun_ with held := s.fun_.held ++ [p] } }
  else s.sendPacket p

/-- The held request packets whose hold is over go out, in order. -/
def State.endHolds (s : State) : State :=
  let (stay, go) := s.fun_.held.partition fun p => decide (s.now < kvGet 0 s.fun_.reqHolds p.dst)
  go.foldl (fun s p => s.sendPacket p) { s with fun_ := { s.fun_ with held := stay } }

/-- Whether a request goes onto a link now: its target is not about to leave and has a route, and no earlier REQ request of its strand to
that target still waits to (R362, log 174). -/
def State.mayGo (s : State) (p : Packet) (strand : Nat) (earlier : List Request) : Bool :=
  !s.leavingSoon p.dst && (s.linkFor p.src p.dst).isSome
    && !(p.vc == 0 && strand != 0 && earlier.any fun r => r.strand == strand && r.pkt.dst == p.dst && r.pkt.vc == 0 && !r.onWay)

/-- A request recorded with its end-to-end sequence number, and sent. -/
def State.request (s : State) (p : Packet) (strand tag : Nat) (w : Wants) : State :=
  let k := p.dst * 4 + p.vc
  let p := { p with seq := kvGet 0 s.car.seqs k }
  let go := s.mayGo p strand s.car.reqs
  let s := s.modCar fun c => { c with
    seqs := kvSet 0 c.seqs k ((p.seq + 1) % 2 ^ 32)
    reqs := c.reqs ++ [⟨p, strand, tag, s.now, 0, w, false, go⟩] }
  if go then s.sendReq p else s

/-- A request and its answer belong together. -/
def Request.answeredBy (p : Packet) (r : Request) : Bool := r.pkt.dst == p.src && r.pkt.vc == p.cmp && r.pkt.seq == p.seq

/-- A request removed. -/
def State.dropReq (s : State) (r : Request) : State :=
  s.modCar fun c => { c with reqs := c.reqs.filter (· != r) }

/-- Effects of an answer joined to the instruction that waits, which the engine finishes once nothing of it is outstanding. -/
def State.rackDone (s : State) (strand tag : Nat) (e : List Effect) : State :=
  let more := s.car.reqs.any fun r => r.strand == strand && r.tag == tag
  s.regate strand tag (if more then .rack tag else .engine) e

/-! ## Reading copies (R363, R366) -/

/-- The copy store's base and its number of pages (R362). -/
def State.copyBase (s : State) : Nat := s.rd F.carCopyBaseLo_base * 4096 + s.rd F.carCopyBaseHi_base * 2 ^ 32
def State.copyPages (s : State) : Nat := s.rd F.carCopySize_mib * 256

/-- Whether a page and a range have a byte in common. -/
def pageMeets (page addr len : Nat) : Bool := decide (page * 4096 < addr + len ∧ addr < page * 4096 + 4096)

/-- The copies held of the bytes of a range of a home dropped. -/
def State.dropHeld (s : State) (node addr len : Nat) : State :=
  s.modCar fun c => { c with copies := c.copies.filter fun x => !(x.node == node && pageMeets x.page addr len) }

/-- The copies of the bytes of a range of a home dropped, those on their way included: their fills are not kept (R364, R366). -/
def State.dropCopies (s : State) (node addr len : Nat) : State :=
  (s.dropHeld node addr len).modCar fun c => { c with
    reqs := updWhere (fun r => r.pkt.dst == node && r.pkt.copyOk && pageMeets (r.pkt.addr / 4096) addr len)
      (fun r => { r with killed := true }) c.reqs }

/-- The copy that serves a part of one page for an act and key. -/
def State.copyOf (s : State) (node addr act key : Nat) : Option CopyPage :=
  s.car.copies.find? fun c => c.node == node && c.page == addr / 4096 && c.act == act && c.key == key

/-- A copy becomes the one used last. -/
def State.useCopy (s : State) (c : CopyPage) : State :=
  s.modCar fun x => { x with copies := c :: x.copies.filter (· != c) }

/-- A fetched page kept in the copy store, in a free place or in that of the copy used least recently. -/
def State.keepCopy (s : State) (node page act key : Nat) (data : List Byte) : State :=
  let s := s.dropHeld node (page * 4096) 4096
  if !s.on F.carCtrl_copyEn || s.copyPages == 0 then s else
  let base := s.copyBase
  let used := s.car.copies.map (·.addr)
  let full := decide (s.copyPages ≤ used.length)
  let addr := if full then ((s.car.copies.getLast?).map (·.addr)).getD base
    else base + firstUnused (fun n => used.contains (base + n * 4096)) 0 (used.length + 1) * 4096
  let s := s.modCar fun c => { c with copies := ⟨node, page, act, key, addr⟩ :: c.copies.filter (·.addr != addr) }
  s.writeMem 0 addr data

/-! ## The target's side (R358 to R361) -/

/-- An empty packet of this node to another. -/
def State.packetTo (s : State) (op : PktOp) (vc dst act key addr len : Nat) : Packet :=
  ⟨op, vc, s.self, dst, act, 0, false, false, 0, key, addr, len, 0, 0, 0, false, []⟩

/-- Whether an unexport of a key has been picked up (R357). -/
def State.unexporting (s : State) (act key : Nat) : Bool :=
  s.fil.jobs.any fun j => j.act == act && j.desc.routine == 0 && j.desc.arg 1 == 9 && j.desc.arg 2 == key && j.phase != .ended

/-- The export that covers a range for an act, a key and a right (0 READ, 1 WRITE, 2 ATOMIC, 3 COPY). -/
def State.exportFor (s : State) (act key addr len right : Nat) : Option Export :=
  s.car.exports.find? fun e =>
    e.act == act && e.key == key && e.closing.isNone && !s.unexporting act key && bitOf e.rights right && decide (e.base ≤ addr ∧ addr + len ≤ e.base + e.len)

/-- What comes of an access at its target. -/
inductive Served where
  /-- no export, key or right -/
  | refused
  /-- it meets a Winze range and waits (Table 8.5) -/
  | wait
  /-- it reads an uncorrectable block -/
  | uncorr
  | done
  | value (v : Nat)
  | data (b : List Byte)
deriving DecidableEq, Repr

/-- The new value of an atomic (R361): operation, width in bytes, old value, operand and compare value. -/
def atomNew (op w old b cmp : Nat) : Nat :=
  let m := 2 ^ (8 * w)
  match op with
  | 0 => (old + b) % m
  | 1 => old &&& (b % m)
  | 2 => old ||| (b % m)
  | 3 => old ^^^ (b % m)
  | 4 => b % m
  | 5 => if old = cmp % m then b % m else old
  | 6 => min old (b % m)
  | _ => max old (b % m)

/-- A load, GET, store, PUT or atomic checked and performed at this node's memory. -/
def State.serveAt (s : State) (p : Packet) : Served × State :=
  let w := if p.wide then 8 else 4
  let ok (right len : Nat) : Bool := (s.exportFor p.act p.key p.addr len right).isSome
  match p.op with
  | .ld =>
    if !ok 0 p.len then (.refused, s) else
    if (s.holder false p.addr p.len).isSome then (.wait, s) else
    match s.readMem 0 p.addr p.len with
    | (b, bad, s) => (if bad then .uncorr else .value (leNat b), s)
  | .get =>
    if !ok 0 p.len then (.refused, s) else
    if (s.holder false p.addr p.len).isSome then (.wait, s) else
    match s.readMem 0 p.addr p.len with
    | (b, bad, s) => (if bad then .uncorr else .data b, s)
  | .st | .put =>
    if !ok 1 p.data.length then (.refused, s) else
    if (s.holder true p.addr p.data.length).isSome then (.wait, s) else (.done, s.writeMem 0 p.addr p.data)
  | .atom | .atomn =>
    if !ok 2 w then (.refused, s) else
    if (s.holder true p.addr w).isSome then (.wait, s) else
    match s.readMem 0 p.addr w with
    | (_, true, s) => (.uncorr, s)
    | (b, false, s) =>
      (.value (leNat b), s.writeMem 0 p.addr (leBytes (atomNew p.aux w (leNat b) p.opnd p.cmp) w))
  | _ => (.refused, s)

/-! ## Invalidation at the home (R364) -/

/-- The invalidations of the pages that a range overlaps sent to their sharers: the job waits for these and for those of the same pages
that are already on their way. -/
def State.startInv (s : State) (addr len : Nat) (wanted : InvFor) : State :=
  let hit (page : Nat) : Bool := pageMeets page addr len
  let old := (s.car.reqs.filter fun r => r.wants == .dropped && hit (r.pkt.addr / 4096)).map fun r => (r.pkt.dst, r.pkt.seq)
  let mine := s.car.sharers.filter fun e => hit e.1
  let s := s.modCar fun c => { c with sharers := c.sharers.filter fun e => !hit e.1 }
  let (s, new) := mine.foldl (fun (a : State × List (Nat × Nat)) e =>
    let seq := kvGet 0 a.1.car.seqs (e.2 * 4)
    (a.1.request (a.1.packetTo .invalidate 0 e.2 0 0 (e.1 * 4096) 4096) 0 0 .dropped, a.2 ++ [(e.2, seq)])) (s, [])
  s.fresh.modCar fun c => { c with invs := c.invs ++ [⟨s.nextId, old ++ new, wanted⟩] }

/-- An answer to a request: its fields echo the request's (R370), with the refusal or status code in AUX. -/
def State.reply (s : State) (p : Packet) (op : PktOp) (vc : Nat) (data : List Byte) (aux opnd : Nat) : State :=
  s.sendPacket { p with
    op := op, vc := vc, src := s.self, dst := p.src, len := data.length, aux := aux, opnd := opnd, cmp := p.vc, data := data,
    squeeze := false }

/-- Who waits for an invalidation learns that it is complete. -/
def State.endInv (s : State) (w : InvFor) : State :=
  match w with
  | .asker p => s.reply p .ack 1 [] 0 0
  | .here strand tag => s.rackDone strand tag []
  | .unexport _ => s

/-- Invalidations with nothing outstanding end. -/
def State.endInvs (s : State) : State :=
  let done := s.car.invs.filter (·.out.isEmpty)
  done.foldl (fun s j => s.endInv j.wanted) (s.modCar fun c => { c with invs := c.invs.filter (!·.out.isEmpty) })

/-- An invalidation request answered. -/
def State.invAnswered (s : State) (dst seq : Nat) : State :=
  (s.modCar fun c => { c with invs := c.invs.map fun j => { j with out := j.out.filter (· != (dst, seq)) } }).endInvs

/-- An invalidation request whose replay is exhausted (R367): its sharer may hold the page still, and CAR.INV faults with cause UNMAPPED.
An unexport asks again while the sharer is a member, and waits for it no more after that (log 173). -/
def State.invLost (s : State) (r : Request) : State :=
  let mine (j : InvJob) : Bool := j.out.contains (r.pkt.dst, r.pkt.seq)
  let faults (j : InvJob) : Bool := match j.wanted with
    | .unexport _ => false
    | _ => true
  let stays := s.members.testBit r.pkt.dst
  let jobs := s.car.invs.filter mine
  let s := s.modCar fun c => { c with
    invs := c.invs.filter fun j => !(mine j && faults j)
    sharers := if stays || jobs.any faults then c.sharers ++ [(r.pkt.addr / 4096, r.pkt.dst)] else c.sharers }
  let s := jobs.foldl (fun s j => match j.wanted with
    | .here strand tag => s.rackDone strand tag [.faultAt cUnmapped r.pkt.addr]
    | .asker p => (s.modCar fun c => { c with
        performed := c.performed.filter fun e => !(e.src == p.src && e.vc == p.vc && e.seq == p.seq) }).reply p .nak 1 [] cUnmapped 0
    | .unexport _ => s) s
  if stays && jobs.any (fun j => !faults j) then
    let seq := kvGet 0 s.car.seqs (r.pkt.dst * 4)
    let s := s.modCar fun c => { c with
      invs := c.invs.map fun j => { j with out := j.out.map fun o => if o = (r.pkt.dst, r.pkt.seq) then (r.pkt.dst, seq) else o } }
    s.request r.pkt 0 0 .dropped
  else s.invAnswered r.pkt.dst r.pkt.seq

/-! ## CAR instructions (Table 3.15) -/

/-- The key of a CAR instruction (R105). -/
def keyOf (o : Insn) : Nat := (o.ext.getD 0 0#64).toNat % 2 ^ 32

/-- A range cut into packets of at most 4,096 bytes: page by page where `paged`, else at aligned 8-byte units, which stay whole (R360). One
piece per unit of fuel; each is an address, an offset in the range and a length. -/
def cutRange (paged : Bool) : Nat → Nat → Nat → Nat → List (Nat × Nat × Nat)
  | 0, _, _, _ => []
  | f + 1, a, off, n =>
    if n = 0 then [] else
    let k := min n (if paged then 4096 - a % 4096 else 4096 - a % 8)
    (a, off, k) :: cutRange paged f (a + k) (off + k) (n - k)

/-- A CAR instruction: at most 64 of a strand are incomplete (R362). -/
def carIssue (f : Form) (o : Insn) (s : State) (body : Strand → Job → M Unit) : Host.Outcome State Fault Refusal :=
  issue f o s fun t j => do
    if (t.inflight.filter (·.cls == 11)).length ≥ 64 then throw .hold
    body t j

/-- R105: the node of a rack descriptor is on the Carousel. A node that has been removed is asked all the same, and replay finds it gone
(R355). -/
def onCarousel (d : Dsc) : M Unit := do
  let s ← get
  need (if d.node = s.self then s.on F.glbNodeId_valid else s.members.testBit d.node || s.bypassed.testBit d.node) cUnmapped d.base

/-- What an access to the node's own ID comes to (R359): the same checks, at once. A read or an atomic that meets a Winze range waits to
issue. -/
def serveHere (p : Packet) : M (List Byte × Nat) := do
  let (r, s) := (← get).serveAt p
  match r with
  | .refused => throw (.fault cKey p.addr)
  | .wait => do
    waitHeld (p.op == .atom || p.op == .atomn) p.addr (if p.op == .ld || p.op == .get then p.len else 8)
    throw .hold
  | .uncorr => do
    set s
    throw (.fault cUncorr p.addr)
  | .done => do
    set s
    pure ([], 0)
  | .value v => do
    set s
    pure ([], v)
  | .data b => do
    set s
    pure (b, 0)

/-- A write to the node's own memory that the interlock holds: its instruction completes when it has been performed (R250, R359). -/
def writeHere (f : Form) (o : Insn) (t : Strand) (p : Packet) : M Unit := do
  let tag := (← get).nextId
  launch f o t .interlock [] [] []
  upd fun s => s.ordWrite p.addr p.data (.engine t.id tag)

/-- A single request of an instruction: at once at this node, or sent. -/
def oneRequest (f : Form) (o : Insn) (t : Strand) (p : Packet) (w : Wants) (own : Nat → List Effect) : M Unit := do
  let s ← get
  if p.dst = s.self then do
    if (s.serveAt p).1 = .wait && p.op == .st then
      writeHere f o t p
    else do
      let (_, v) ← serveHere p
      launch f o t .engine [] [] (own v)
  else do
    let tag := s.nextId
    launch f o t (.rack tag) [] [] []
    upd fun s => s.request p t.id tag w

/-- An aligned address of a single access (R82). -/
def carAligned (a w : Nat) : M Unit := need (decide (a % w = 0)) cAlign a

def execCarLd (o : Insn) (s : State) : Host.Outcome State Fault Refusal :=
  carIssue Form.carLd o s fun t j => do
    let d ← useDsc (t.getD o.a) [1] false
    let off := (t.getS o.b).toNat
    let w := 2 ^ o.fld 0 2
    within d off w
    carAligned (d.base + off) w
    onCarousel d
    let p := { (← get).packetTo .ld 0 d.node j.act (keyOf o) (d.base + off) w with size := o.fld 0 2 }
    oneRequest Form.carLd o t p (.load o.dst) fun v => [.setS o.dst (BitVec.ofNat 64 v)]

def execCarSt (o : Insn) (s : State) : Host.Outcome State Fault Refusal :=
  carIssue Form.carSt o s fun t j => do
    let d ← useDsc (t.getD o.dst) [1] true
    let off := (t.getS o.b).toNat
    let w := 2 ^ o.fld 0 2
    within d off w
    carAligned (d.base + off) w
    onCarousel d
    let b := leBytes ((t.getS o.a).toNat) w
    let p := { (← get).packetTo .st 0 d.node j.act (keyOf o) (d.base + off) w with size := o.fld 0 2, data := b }
    if p.dst ≠ (← get).self then upd fun s => s.dropCopies p.dst p.addr w
    oneRequest Form.carSt o t p .done fun _ => []

/-- The body of CAR.ATOM and CAR.ATOMN. -/
def atomBody (f : Form) (op : PktOp) (o : Insn) (t : Strand) (j : Job) : M Unit := do
  let d ← useDsc (t.getD o.a) [1] true
  let wide := o.fld 4 1 == 1
  let w := if wide then 8 else 4
  within d 0 w
  carAligned d.base w
  onCarousel d
  let cmp := (o.ext.getD 1 0#64).toNat
  let p := { (← get).packetTo op 0 d.node j.act (keyOf o) d.base w with
    wide := wide, size := if wide then 3 else 2, aux := o.fld 0 4, opnd := (t.getS o.b).toNat, cmp := cmp }
  if p.dst ≠ (← get).self then upd fun s => s.dropCopies p.dst p.addr w
  let ret := op == .atom
  oneRequest f o t p (if ret then .old o.dst else .done) fun v => if ret then [.setS o.dst (BitVec.ofNat 64 v)] else []

def execCarAtom (o : Insn) (s : State) : Host.Outcome State Fault Refusal :=
  carIssue Form.carAtom o s fun t j => atomBody Form.carAtom .atom o t j

def execCarAtomn (o : Insn) (s : State) : Host.Outcome State Fault Refusal :=
  carIssue Form.carAtomn o s fun t j => atomBody Form.carAtomn .atomn o t j

/-- One piece of a GET: served from a copy, or asked for. -/
def getPiece (t : Strand) (tag : Nat) (p : Packet) (dst : Nat) : M Unit := do
  let s ← get
  match (if p.copyOk then s.copyOf p.dst p.addr p.act p.key else none) with
  | some c => do
    let b ← readOrd (c.addr + p.addr % 4096) p.len
    upd fun s => (((s.useCopy c).count 0x912 1).regate t.id tag (.rack tag) [.mem 0 dst b])
  | none => upd fun s => s.request p t.id tag (.get dst)

def execCarGet (o : Insn) (s : State) : Host.Outcome State Fault Refusal :=
  carIssue Form.carGet o s fun t j => do
    let n := (t.getS o.b).toNat
    let d ← useDsc (t.getD o.dst) [0] true
    let r ← useDsc (t.getD o.a) [1] false
    within d 0 n
    within r 0 n
    onCarousel r
    checkAccess j ((← get).isPriv j) .write d.base n
    let s ← get
    let copy := o.fld 0 1 == 1
    let mk (a k : Nat) : Packet := { s.packetTo .get 0 r.node j.act (keyOf o) a k with copyOk := copy }
    if n = 0 then launch Form.carGet o t .engine [] [] []
    else if r.node = s.self then do
      let (b, _) ← serveHere (mk r.base n)
      launch Form.carGet o t .engine [] [] [.mem 0 d.base b]
    else do
      let tag := s.nextId
      launch Form.carGet o t (.rack tag) [] [] []
      (cutRange copy (n / 4096 + 2) r.base 0 n).forM fun e => getPiece t tag (mk e.1 e.2.2) (d.base + e.2.1)
      upd fun s => s.rackDone t.id tag []

/-- CAR.INV: at the home it starts at once; another home is asked. -/
def execCarInv (o : Insn) (s : State) : Host.Outcome State Fault Refusal :=
  carIssue Form.carInv o s fun t j => do
    let r ← useDsc (t.getD o.a) [1] false
    onCarousel r
    let s ← get
    let tag := s.nextId
    if r.node = s.self then do
      need (s.exportFor j.act (keyOf o) r.base r.len 1).isSome cKey r.base
      launch Form.carInv o t (.rack tag) [] [] []
      upd fun s => ((s.bump F.carInvCount_count 1).startInv r.base r.len (.here t.id tag)).endInvs
    else do
      launch Form.carInv o t (.rack tag) [] [] []
      upd fun s => s.request (s.packetTo .inv 0 r.node j.act (keyOf o) r.base r.len) t.id tag .done

/-! ## Link frames (R368) -/

/-- A packet taken from the inbox: it must be the first of its source and VC (R350). -/
def State.take (s : State) (p : Packet) : Option State :=
  match s.car.inbox.find? (fun q => q.src == p.src && q.vc == p.vc) with
  | some q => if q = p then some (s.modCar fun c => { c with inbox := c.inbox.erase p }) else none
  | none => none

/-- A frame refused by its sequence number. -/
def State.refuseFrame (s : State) (link seq : Nat) : State := s.emit (.refuse link seq)

/-- A frame on an incoming link: one already accepted is discarded; one that fails its CRC, comes behind a lost one, or fails a Crusher
check is refused; any other is accepted once, and its packet, unless its header fails HDR_CRC, is delivered here or passed on. -/
def execCarouselFrameReceive (link seq : Nat) (crcOk : Bool) (head : List Byte) (stream : Option (List Byte)) (p : Packet) (s : State) :
    Host.Outcome State Fault Refusal :=
  .next (
    let e := kvGet 0 s.car.rxSeq link
    if link ≥ 8 ∨ !s.on (F.carLinkStatus_rxUp link) then s else
    let s := s.count (0x908 + link) (32 + p.data.length)
    if crcOk ∧ 0 < (e + 65536 - seq) % 65536 ∧ (e + 65536 - seq) % 65536 ≤ 32768 then s else
    if !crcOk ∨ seq ≠ e then s.refuseFrame link e else
    let accept (s : State) (p : Packet) : State :=
      let s := s.modCar fun c => { c with rxSeq := kvSet 0 c.rxSeq link ((e + 1) % 65536) }
      if !headOk p head then s
      else if p.dst = s.self then s.modCar fun c => { c with inbox := c.inbox ++ [p] } else s.sendPacket p
    match stream with
    | none => accept s p
    | some b =>
      match s.spoilt 3 with
      | (some k, s) => (s.damage k 3 0 p.src).refuseFrame link e
      | (none, s) =>
        match decodeStream true 0 b with
        | .inl k => (s.damage k 3 0 p.src).refuseFrame link e
        | .inr d => accept s { p with data := d })

/-- A frame that the far end refused, sent again: a SQUEEZE frame refused twice in mode 0. -/
def execLinkFrameResend (link seq : Nat) (s : State) : Host.Outcome State Fault Refusal :=
  .next (match s.car.retry.find? (fun f => f.link == link && f.seq == seq) with
    | none => s
    | some f =>
      let plain := f.plain || (f.pkt.squeeze && decide (f.refused ≥ 1))
      let s := s.modCar fun c => { c with
        retry := updWhere (fun g => g.link == link && g.seq == seq) (fun g => { g with refused := g.refused + 1, plain := plain }) c.retry }
      let stream := if !f.pkt.squeeze then none
        else some (if plain then storedForm f.pkt.data else (packFrame (s.on F.cruCtrl_squeezeEn) f.pkt.data).1)
      ((s.bump (F.carLinkRetry_count link) 1).count (0x900 + link) (32 + f.pkt.data.length)).emitFrame link seq stream f.pkt)

/-! ## Requests at the target -/

/-- A request that has been performed (R367). -/
def State.performed? (s : State) (p : Packet) : Option Performed :=
  s.car.performed.find? fun e => e.src == p.src && e.vc == p.vc && e.seq == p.seq

/-- A request remembered as performed: the last 4,096 of its source and VC. -/
def State.remember (s : State) (p : Packet) (old : Nat) : State :=
  if (s.performed? p).isSome then s else
  s.modCar fun c =>
    let same (e : Performed) : Bool := e.src == p.src && e.vc == p.vc
    { c with performed := ⟨p.src, p.vc, p.seq, old⟩ :: (c.performed.filter same).take 4095 ++ c.performed.filter (!same ·) }

/-- A key refusal sent (R358). -/
def State.refuseKey (s : State) (p : Packet) : State :=
  ((((s.bump F.carKeyNakCount_count 1).count 0x911 1).logCar 1 p.src p.act)).reply p .nak 1 [] cKey 0

/-- A page filled for a reader (R363): it is recorded as a sharer, or the fill is marked uncopyable. -/
def State.serveFill (s : State) (p : Packet) : Option State :=
  let page := p.addr / 4096
  if (s.holder false (page * 4096) 4096).isSome then none else
  match s.readMem 0 (page * 4096) 4096 with
  | (_, true, s) => some (s.reply p .nak 1 [] cUncorr 0)
  | (b, false, s) =>
    let known := s.car.sharers.contains (page, p.src)
    let pages := s.car.sharers.map (·.1)
    let room := pages.contains page || decide (pages.eraseDups.length < 1048576)
    let s := if known || !room then s else s.modCar fun c => { c with sharers := c.sharers ++ [(page, p.src)] }
    some ((s.remember p 0).reply p .fill 2 b (b2n !room) 0)

/-- A claim that another node makes at a ledger here, in one step (R478 step 2): the answer carries how it went and the entry as it was. -/
def State.serveClaim (s : State) (p : Packet) : Option State :=
  if (s.exportFor p.act p.key p.addr 64 2).isNone || p.data.length != 64 then some (s.refuseKey p) else
  if (s.holder true p.addr 64).isSome then none else
  match s.readMem 0 p.addr 64 with
  | (_, true, s) => some (s.reply p .nak 1 [] cUncorr 0)
  | (b, false, s) =>
    let c := claimOf b (leAt p.data 0 8)
    let s := if c = .won then s.writeMem 0 p.addr p.data else s
    some ((s.remember p c.code).reply p .getData 2 b c.code 0)

/-- What a target answers to a request that it has not performed before: nothing while it waits. -/
def State.perform (s : State) (p : Packet) : Option State :=
  if p.op == .claim then s.serveClaim p else
  if p.op == .inv then
    if (s.exportFor p.act p.key p.addr p.len 1).isNone then some (s.refuseKey p) else
    some (((((s.remember p 0).bump F.carInvCount_count 1).startInv p.addr p.len (.asker p))).endInvs)
  else if p.op == .get && p.copyOk && (s.exportFor p.act p.key p.addr p.len 0).isSome
      && (s.exportFor p.act p.key p.addr p.len 3).isSome then s.serveFill p
  else
    let (r, s) := s.serveAt p
    match r with
    | .refused => some (s.refuseKey p)
    | .wait => if p.op == .st || p.op == .put then some (s.ordWrite p.addr p.data (.rack p)) else none
    | .uncorr => some (s.reply p .nak 1 [] cUncorr 0)
    | .done => some ((s.remember p 0).reply p .ack 1 [] 0 0)
    | .data b => some ((s.remember p 0).reply p .getData 2 b 0 0)
    | .value v =>
      match p.op with
      | .ld => some ((s.remember p 0).reply p .ldData 1 (leBytes v p.len) 0 0)
      | .atom => some ((s.remember p v).reply p .atomOld 1 (leBytes v 8) 0 0)
      | _ => some ((s.remember p v).reply p .ack 1 [] 0 0)

/-- A request that was already performed: a store is acknowledged again, an atomic returns the remembered value, and a load, a GET and a
claim read afresh; nothing where the read waits. -/
def State.again (s : State) (p : Packet) (e : Performed) : Option State :=
  let s := s.bump F.carDupCount_count 1
  match p.op with
  | .atom => some (s.reply p .atomOld 1 (leBytes e.old 8) 0 0)
  | .claim =>
    if (s.holder false p.addr 64).isSome then none else
    let (b, _, s) := s.readMem 0 p.addr 64
    some (s.reply p .getData 2 b e.old 0)
  | .ld | .get => s.perform p
  | .inv =>
    let open_ := s.car.invs.any fun j => match j.wanted with
      | .asker q => q.src == p.src && q.seq == p.seq
      | _ => false
    some (if open_ then s else s.reply p .ack 1 [] 0 0)
  | _ => some (s.reply p .ack 1 [] 0 0)

/-- The writes of a source on a VC that the interlock holds. -/
def State.heldFrom (s : State) (src vc : Nat) : List Packet :=
  s.wnz.held.filterMap fun h => match h.whose with
    | .rack q => if q.src = src ∧ q.vc = vc then some q else none
    | _ => none

/-- A request that waits for a Winze range stays where it is, and is counted once (R250, R260). -/
def State.waitReq (s : State) (p : Packet) : State :=
  if s.car.waits.contains p then s else
  let write := p.op == .atom || p.op == .atomn || p.op == .claim
  let (a, n) := if p.op == .get && p.copyOk then (p.addr / 4096 * 4096, 4096)
    else if p.op == .claim then (p.addr, 64)
    else if p.op == .atom || p.op == .atomn then (p.addr, if p.wide then 8 else 4) else (p.addr, p.len)
  (s.countHold write a n).modCar fun c => { c with waits := p :: c.waits }

/-- A packet of one of some operations taken from the inbox and served once. While the interlock holds a REQ write, the later requests of its
source wait behind it (R362), and one that comes again is discarded (R367). -/
def State.serveReq (s : State) (p : Packet) (ops : List PktOp) : State :=
  if !ops.contains p.op then s else
  match s.take p with
  | none => s
  | some s1 =>
    let held := s.heldFrom p.src p.vc
    if held.any (·.seq == p.seq) then s1.bump F.carDupCount_count 1
    else if p.vc = 0 ∧ !held.isEmpty then s
    else
      match (match s1.performed? p with
        | some e => s1.again p e
        | none => s1.perform p) with
      | some u => u.modCar fun c => { c with waits := c.waits.filter (· != p) }
      | none => s.waitReq p

def execCarouselRequestReceive (p : Packet) (s : State) : Host.Outcome State Fault Refusal :=
  .next (s.serveReq p [.ld, .st, .get, .atom, .atomn, .inv, .claim])

def execPutPayloadReceive (p : Packet) (s : State) : Host.Outcome State Fault Refusal :=
  .next (s.serveReq p [.put])

/-- A sharer drops its copy, marks the fills of the page that are on their way, and acknowledges (R364). -/
def execInvalidationReceive (p : Packet) (s : State) : Host.Outcome State Fault Refusal :=
  .next (
    if p.op != .invalidate then s else
    match s.take p with
    | none => s
    | some s =>
      let page := p.addr / 4096
      let held := (s.car.copies.filter fun c => c.node == p.src && c.page == page).length
      let s := if held = 0 then s else s.count 0x913 held
      let s := s.dropCopies p.src (page * 4096) 4096
      s.reply p .invAck 1 [] 0 0)

/-- The home hears from a sharer. -/
def execInvalidationAckReceive (p : Packet) (s : State) : Host.Outcome State Fault Refusal :=
  .next (
    if p.op != .invAck then s else
    match s.take p with
    | none => s
    | some s =>
      match s.car.reqs.find? fun r => r.answeredBy p && r.wants == .dropped with
      | none => s
      | some r => (s.dropReq r).invAnswered r.pkt.dst r.pkt.seq)

/-! ## Answers -/

/-- A page fill: it serves its own read, and is kept unless an invalidation has passed it. -/
def execCopyFillReceive (p : Packet) (s : State) : Host.Outcome State Fault Refusal :=
  .next (
    if p.op != .fill then s else
    match s.take p with
    | none => s
    | some s =>
      match s.car.reqs.find? (·.answeredBy p) with
      | none => s
      | some r =>
        match r.wants with
        | .get dst =>
          let s := s.dropReq r
          let page := r.pkt.addr / 4096
          let s := if r.killed || p.aux != 0 then s.dropHeld p.src (page * 4096) 4096
            else s.keepCopy p.src page r.pkt.act r.pkt.key p.data
          s.rackDone r.strand r.tag [.mem 0 dst (slice p.data (r.pkt.addr % 4096) r.pkt.len)]
        | _ => s)

/-- What an answer brings to the instruction that waits for it. -/
def answerEffects (r : Request) (p : Packet) : List Effect :=
  match p.op, r.wants with
  | .ldData, .load d => [.setS d (BitVec.ofNat 64 (leNat p.data))]
  | .getData, .get a => [.mem 0 a p.data]
  | .atomOld, .old d => [.setS d (BitVec.ofNat 64 (leNat p.data))]
  | .nak, _ => [.faultAt p.aux r.pkt.addr]
  | _, _ => []

/-- The answer to a request (R367), or that of a seam's home to a record. -/
def execCarouselResponseReceive (r : Reply) (s : State) : Host.Outcome State Fault Refusal :=
  .next (match r with
    | .record strand tag cause commit => s.answerHere strand tag cause commit
    | .packet p =>
      if !([PktOp.ldData, .getData, .ack, .atomOld, .nak].contains p.op) then s else
      match s.take p with
      | none => s
      | some s =>
        match s.car.reqs.find? (·.answeredBy p) with
        | none => s
        | some r =>
          let s := s.dropReq r
          let s := if p.op == .nak && p.aux == cKey then s.logCar 0 p.src r.pkt.act else s
          let s := if p.op == .ldData || p.op == .getData || p.op == .atomOld then s.dropCopies p.src r.pkt.addr (max 1 r.pkt.len) else s
          s.rackDone r.strand r.tag (answerEffects r p))

/-- A request that is not answered in REPLAY_BEATS is sent again with its number; after REPLAY_MAX resends the instruction faults. -/
def execRequestReplayTimeout (dst vc seq : Nat) (s : State) : Host.Outcome State Fault Refusal :=
  .next (match s.car.reqs.find? fun r => r.pkt.dst == dst && r.pkt.vc == vc && r.pkt.seq == seq with
    | none => s
    | some r =>
      if s.now < r.sent + s.rd F.carCtrl_replayBeats then s else
      if r.tries ≥ s.rd F.carCtrl_replayMax then
        let s := (s.dropReq r).logCar 2 dst r.pkt.act
        if r.wants = .dropped then s.invLost r else s.rackDone r.strand r.tag [.faultAt cUnmapped r.pkt.addr]
      else
        let go := s.mayGo r.pkt r.strand (s.car.reqs.takeWhile (· != r))
        let s := s.modCar fun c => { c with
          reqs := updWhere (· == r) (fun r => { r with sent := s.now, tries := r.tries + 1, onWay := r.onWay || go }) c.reqs }
        let s := (s.bump F.carReplayCount_count 1).count 0x910 1
        if go then s.sendReq r.pkt else s)

/-! ## Exports (R356, R357) -/

/-- A region exported, with its key in the result field. -/
def execExportRegion (job : Nat) (s : State) : Host.Outcome State Fault Refusal :=
  .next (match s.loaderCall job 8 with
    | none => s
    | some j =>
      let base := j.desc.arg 2
      let len := j.desc.arg 3
      let rights := j.desc.arg 4
      if s.exportRefused j.act base len rights then s.endLoader job 0x61 0x14 0 [] else
      let (k, s) := s.addExport j.act base len rights
      s.endLoader job 0 0 k [])

/-- An unexport: from its pick-up the export accepts nothing, and its copies are invalidated. -/
def execUnexportRegion (job : Nat) (s : State) : Host.Outcome State Fault Refusal :=
  .next (match s.loaderCall job 9 with
    | none => s
    | some j =>
      match s.car.exports.find? fun e => e.act == j.act && e.key == j.desc.arg 2 && e.closing.isNone with
      | none => s.endLoader job 0x61 0x16 0 []
      | some e =>
        let s := s.modCar fun c => { c with exports := updWhere (· == e) (fun e => { e with closing := some job }) c.exports }
        s.startInv e.base e.len (.unexport job))

/-- The unexport's job ends once every copy is gone. -/
def execUnexportComplete (job : Nat) (s : State) : Host.Outcome State Fault Refusal :=
  .next (match s.loaderCall job 9 with
    | none => s
    | some _ =>
      let mine (j : InvJob) : Bool := j.wanted == .unexport job
      if !s.car.exports.any (·.closing == some job) || (s.car.invs.any fun j => mine j && !j.out.isEmpty) then s else
      (s.modCar fun c => { c with
        exports := c.exports.filter (·.closing != some job), invs := c.invs.filter (!mine ·) }).endLoader job 0 0 0 [])

end Sys2Proof.Machine
end

