-- ==== Sys2Proof/Machine/Rings.lean ====
section
/-! DEFINITION. The job rings' registers (R427, R430, R432), the interrupts that they send (R434, R437), and the unit boundaries of the egress
channels that let them go (R388). -/
namespace Sys2Proof.Machine

/-! ## Rings -/

/-- Whether a function is enabled (R420): the physical function always is. -/
def State.fnOn (s : State) (f : Nat) : Bool := f == 0 || bitOf (s.rd F.hifVfStatus_enabled) (f - 1)

/-- Whether a source writes the fields of a function's block (R422). -/
def owns (src : Src) (f : Nat) : Bool := manages src || src == .fn f

/-- The same outside P4, in which the block answers nothing (R412). -/
def State.reachesOwn (s : State) (src : Src) (f : Nat) : Bool := owns src f && !s.on F.pwrStatus_p4

/-- What a ring holds beside its registers. -/
def State.ring (s : State) (act ring : Nat) : Ring :=
  (s.host.rings.find? fun r => r.act == act && r.ring == ring).getD ⟨act, ring, 0, 0, [], 0, 0, none, []⟩

/-- A ring changed. -/
def State.modRing (s : State) (act ring : Nat) (f : Ring → Ring) : State :=
  { s with host := { s.host with
      rings := f (s.ring act ring) :: s.host.rings.filter fun r => !(r.act == act && r.ring == ring) } }

/-- A ring's size N (R427): 256 for a Midway ring (R438). -/
def State.ringSize (s : State) (act ring : Nat) : Nat := if ring < 4 then 2 ^ s.rd (F.ringCtrl_sizeLog2 act ring) else 256

/-- A ring's jobs, picked up and without a written completion. -/
def State.ringJobs (s : State) (act ring : Nat) : List Job := s.fil.jobs.filter fun j => j.act == act && j.ring == ring

/-- The limit of a ring's jobs (R428 step 2, R438). -/
def State.ringLimit (s : State) (act ring : Nat) : Nat :=
  if ring < 4 then min (s.rd (F.ringCtrl_inflightMax act ring)) (s.ringSize act ring) else 256

/-- The descriptors that a ring may still take: those on their way count with the jobs. -/
def State.ringRoom (s : State) (act ring : Nat) : Nat :=
  s.ringLimit act ring - ((s.ringJobs act ring).length + (s.ring act ring).fetching.length)

/-- Completions written and not consumed (R432). -/
def State.cqUsed (s : State) (act ring : Nat) : Nat :=
  (s.rd (F.cqTail_count act ring) + 2 ^ 32 - s.rd (F.cqHead_count act ring)) % 2 ^ 32

/-- A write of RING_CTRL (R430): ENABLE takes effect on an idle, empty ring, and SIZE_LOG2 while ENABLE is 0. -/
def State.writeRingCtrl (s : State) (src : Src) (act ring v : Nat) : State :=
  if !s.reachesOwn src act || decide (act ≥ 16) || decide (ring ≥ 4) then s else
  let was := s.on (F.ringCtrl_enable act ring)
  let s := s.wrIf (F.ringCtrl_sizeLog2 act ring) (!was && decide (6 ≤ bits v 1 5 ∧ bits v 1 5 ≤ 16)) (bits v 1 5)
  let s := s.wrIf (F.ringCtrl_inflightMax act ring) (decide (1 ≤ bits v 8 13 ∧ bits v 8 13 ≤ 4096)) (bits v 8 13)
  let s := s.wr (F.ringCtrl_vector act ring) (bits v 21 4)
  if !bitOf v 0 then s.wr (F.ringCtrl_enable act ring) 0
  else if was || !(s.ringJobs act ring).isEmpty || !(s.ring act ring).fetching.isEmpty || s.cqUsed act ring != 0 then s
  else
    let s := (((s.wr (F.ringCtrl_enable act ring) 1).wr (F.ringSeq_next act ring) 0).wr (F.cqTail_count act ring) 0).wr
      (F.cqHead_count act ring) 0
    let s := s.modRing act ring fun r => { r with next := 0, tail := 0, notify := 0, since := 0, message := none }
    { s with host := { s.host with mute := false } }

def execRingEnable (src : Src) (act ring word : Nat) (s : State) : Host.Outcome State Fault Refusal :=
  .next (s.writeRingCtrl src act ring (putBits word 0 1 1))

def execRingDisable (src : Src) (act ring word : Nat) (s : State) : Host.Outcome State Fault Refusal :=
  .next (s.writeRingCtrl src act ring (putBits word 0 1 0))

/-- Software has consumed completions. -/
def execCqHeadWrite (src : Src) (act ring count : Nat) (s : State) : Host.Outcome State Fault Refusal :=
  .next (if s.reachesOwn src act && decide (act < 16) && decide (ring < 4) then s.wr (F.cqHead_count act ring) count else s)

/-! ## MSI-X (R434, R437) -/

/-- The message of a vector queued in class 0. -/
def State.sendMsix (s : State) (f v : Nat) : State :=
  if s.host.mute || !s.fnOn f then s else
  (s.enqueue 42 f 0 none 20
    (some (.msix f v (s.rd64 (F.msixAddrLo_addr f v) (F.msixAddrHi_addr f v)) (s.rd (F.msixData_data f v))))).count 0xC20 1

/-- A ring's message: while the vector is masked it sets the pending bit. -/
def State.signal (s : State) (act ring : Nat) : State :=
  let v := s.rd (F.ringCtrl_vector act ring)
  if s.on (F.msixCtrl_mask act v) then s.wr ⟨(F.msixPba_pending act).off, (F.msixPba_pending act).lo + v, 1⟩ 1
  else s.sendMsix act v

/-- The completions of a function that are queued and not sent. -/
def State.queuedCompletions (s : State) (act : Nat) : List Nat :=
  ((s.rgm.units ++ s.rgm.waiting).filter fun u => u.chan == 42 && u.cls == 1 && u.act == act).map (·.id)

/-- The messages whose completions have all been sent go out (R434). -/
def State.flushMessages (s : State) : State :=
  s.host.rings.foldl (fun s r =>
    match r.message with
    | none => s
    | some m =>
      if (s.queuedCompletions r.act).any fun i => decide (i ≤ m) then s
      else (s.modRing r.act r.ring fun r => { r with message := none }).signal r.act r.ring) s

/-- A ring's message falls due: the count starts again, and the message goes after the completions that it signals. -/
def State.dueMessage (s : State) (act ring : Nat) : State :=
  let last := (s.queuedCompletions act).foldl max 0
  (s.modRing act ring fun r => { r with notify := 0, message := some last }).flushMessages

/-- What a written completion makes of its ring's moderation: COUNT is reached, or the ring has no job in flight. -/
def State.moderate (s : State) (act ring : Nat) (notify : Bool) : State :=
  let s := if notify then
      s.modRing act ring fun r => { r with notify := r.notify + 1, since := if r.notify = 0 then s.now else r.since }
    else s
  let n := (s.ring act ring).notify
  if n != 0 && (decide (s.rd (F.ringMod_count act ring) ≤ n) || (s.ringJobs act ring).isEmpty) then s.dueMessage act ring else s

/-- TIMER beats have passed since the first completion that no message has signalled. -/
def execMsixTimerExpiry (act ring : Nat) (s : State) : Host.Outcome State Fault Refusal :=
  .next (
    let r := s.ring act ring
    let t := s.rd (F.ringMod_timer act ring)
    if act < 16 ∧ ring < 4 ∧ r.notify ≠ 0 ∧ t ≠ 0 ∧ r.since + t ≤ s.now then s.dueMessage act ring else s)

/-- The mask bit of a vector cleared: a message that was held is sent. -/
def State.unmask (s : State) (f v : Nat) : State :=
  let s := s.wr (F.msixCtrl_mask f v) 0
  let p : FieldRef := ⟨(F.msixPba_pending f).off, (F.msixPba_pending f).lo + v, 1⟩
  if s.on p then (s.wr p 0).sendMsix f v else s

def execMsixUnmask (src : Src) (f v : Nat) (s : State) : Host.Outcome State Fault Refusal :=
  .next (if s.reachesOwn src f && decide (f < 16) && decide (v < 16) then s.unmask f v else s)

/-! ## Unit boundaries (R388) -/

/-- A boundary of a channel, and the messages that it lets go. -/
def State.egress (s : State) (chan : Nat) : State := (s.boundary chan).flushMessages

def execEgressUnitComplete (chan : Nat) (s : State) : Host.Outcome State Fault Refusal :=
  .next (if chan < 43 then s.egress chan else s)

/-- A red head tested again in a later ns, and sent when it is its turn. -/
def execRedUnitRetest (chan act cls : Nat) (s : State) : Host.Outcome State Fault Refusal :=
  .next (match (s.heads chan).find? (fun u => u.act == act && u.cls == cls && u.colour == 3) with
    | none => s
    | some u =>
      let s := s.colour u
      if (s.heads chan).any (fun v => v.id == u.id && v.colour != 3) then s.egress chan else s)

end Sys2Proof.Machine
end

