-- ==== Sys2Proof/Machine/Midway.lean ====
section
/-! DEFINITION. The Midway ports (R371 to R375): messages and their fragments, acknowledgements and resends, the Midway ring's entries (R438),
and IEEE 1588 timestamps. -/
namespace Sys2Proof.Machine

/-! ## Frames -/

/-- The Midway state changed. -/
def State.modMdw (s : State) (f : MdwSt → MdwSt) : State := { s with mdw := f s.mdw }

/-- MDW_ERR recorded while nothing is recorded (R379). -/
def State.logMdw (s : State) (kind port act : Nat) : State :=
  if s.on F.mdwErr_valid then s else
  (((s.wr F.mdwErr_valid 1).wr F.mdwErr_kind kind).wr F.mdwErr_port port).wr F.mdwErr_act act

/-- A frame or a message dropped, and counted (R372, R374). -/
def State.dropMdw (s : State) (kind port act : Nat) : State := (s.bump F.mdwDropCount_count 1).logMdw kind port act

/-- A number as bytes, highest first, as Ethernet sends it. -/
def beBytes (n k : Nat) : List Byte := (leBytes n k).reverse

/-- The number that a byte string spells, highest byte first. -/
def beNat (l : List Byte) : Nat := leNat l.reverse

/-- The message header of Table 12.4. -/
def mdwHeader (type act rack node last frag msg key len total : Nat) : List Byte :=
  let h := leBytes type 1 ++ leBytes act 1 ++ leBytes rack 2 ++ leBytes node 1 ++ leBytes last 1 ++ leBytes frag 2 ++ leBytes msg 8
    ++ leBytes key 4 ++ leBytes len 4 ++ leBytes total 4
  h ++ leBytes (crc32c h) 4

/-- A frame from its destination address to its payload, padded to the least length; the FCS is not part of it. -/
def State.mdwFrame (s : State) (port mac : Nat) (tag : Option Nat) (pcp : Nat) (head data : List Byte) : List Byte :=
  let own := s.rd (F.mdwPortMacLo_mac port) + 2 ^ 32 * s.rd (F.mdwPortMacHi_mac port)
  let t := match tag with
    | some v => beBytes 0x8100 2 ++ beBytes (pcp * 2 ^ 13 + v) 2
    | none => []
  let b := beBytes mac 6 ++ beBytes own 6 ++ t ++ beBytes (s.rd F.mdwCtrl_ethertype) 2 ++ head ++ data
  b ++ zeros (60 - b.length)

/-- A frame offered to a port. -/
def State.offerMdw (s : State) (port act cls : Nat) (b : List Byte) : State :=
  s.enqueue (8 + port) act cls none (b.length + 4) (some (.midway port b))

/-! ## Sending (R373, R374) -/

/-- The class of a message: a loader's send is class 2, and the node's own RESULT class 1. -/
def MdwSend.cls (m : MdwSend) : Nat := if m.job = 0 then 1 else 2

/-- Two sends of one message: the same destination, act, number and type. -/
def MdwSend.same (a b : MdwSend) : Bool := a.mac == b.mac && a.act == b.act && a.msg == b.msg && a.type == b.type

/-- A send changed. -/
def State.modSend (s : State) (m : MdwSend) (f : MdwSend → MdwSend) : State :=
  s.modMdw fun x => { x with sends := updWhere m.same f x.sends }

/-- One fragment of a message offered to its port. -/
def State.sendFrag (s : State) (m : MdwSend) (i : Nat) : State :=
  let d := m.frags.getD i []
  let h := mdwHeader m.type m.act (s.rd F.mdwId_rack) s.self (b2n (decide (i + 1 = m.frags.length))) i m.msg m.key d.length m.total
  s.offerMdw m.port m.act m.cls (s.mdwFrame m.port m.mac m.tag (s.pcp m.cls) h d)

/-- The fragments in flight to a destination. -/
def State.flightTo (s : State) (mac : Nat) : Nat := ((s.mdw.sends.filter (·.mac == mac)).map (·.flight.length)).sum

/-- New fragments sent while fewer than 256 are in flight to their destination: one per unit of fuel. -/
def State.pump (mac : Nat) : Nat → State → State
  | 0, s => s
  | n + 1, s =>
    match s.mdw.sends.find? (fun m => m.mac == mac && decide (m.next < m.frags.length)) with
    | none => s
    | some m =>
      if s.flightTo mac ≥ 256 then s else
      let s := s.sendFrag m m.next
      State.pump mac n (s.modSend m fun x => { x with next := x.next + 1, flight := x.flight ++ [⟨m.next, s.now, 0⟩] })

/-- A payload cut into fragments of at most `k` bytes: one per unit of fuel. -/
def cutFrags (k : Nat) : Nat → List Byte → List (List Byte)
  | 0, _ => []
  | n + 1, d => if d.length ≤ k then [d] else d.take k :: cutFrags k n (d.drop k)

/-- The payload bytes that a frame of a port carries. -/
def State.mdwRoom (s : State) (port : Nat) (tag : Option Nat) : Nat :=
  s.rd (F.mdwPortCtrl_mtu port) - 50 - (if tag.isSome then 4 else 0)

/-- A message begun. -/
def State.startSend (s : State) (port mac : Nat) (tag : Option Nat) (act type key msg : Nat) (data : List Byte) (wait : Bool) (job : Nat) :
    State :=
  let fs := cutFrags (s.mdwRoom port tag) (data.length + 1) data
  let s := s.modMdw fun x => { x with sends := x.sends ++ [⟨port, mac, tag, act, type, key, msg, fs, 0, [], data.length, wait, job⟩] }
  (State.pump mac 256 s).count 0x916 1

/-- The next message number to a destination and act, and the state in which it is taken. -/
def State.nextMsg (s : State) (mac act : Nat) : Nat × State :=
  let n := ((s.mdw.txNext.find? fun e => e.1 == mac && e.2.1 == act).map (·.2.2)).getD 0
  (n, s.modMdw fun x => { x with txNext := (mac, act, n + 1) :: x.txNext.filter fun e => !(e.1 == mac && e.2.1 == act) })

/-- Whether a send block breaks Table 12.4a. -/
def sendRefused (b : List Byte) : Bool :=
  decide (b.length < 32) || leAt b 6 2 != 0 || bits (leAt b 8 1) 4 4 != 0 || leAt b 9 1 != 0
    || !([0, 1, 0xFF].contains (leAt b 10 1)) || bits (leAt b 11 1) 1 7 != 0 || bits (leAt b 16 2) 12 3 != 0
    || (slice b 18 14).any (· != 0#8)

/-- The loader with s1 = 10 (R374). -/
def execSendMidwayMessage (job : Nat) (s : State) : Host.Outcome State Fault Refusal :=
  .next (match s.loaderCall job 10 with
    | none => s
    | some j =>
      if s.mdw.sends.any (·.job == job) || s.rst.block.any (·.1 == 0x2B) then s else
      if sendRefused j.data then s.endLoader job 0x61 0x17 0 [] else
      let b := j.data
      let mac := leAt b 0 6
      let act := leAt b 8 1
      let port := if leAt b 10 1 = 0xFF then (if s.on (F.mdwPortStatus_linkUp 0) then 0 else 1) else leAt b 10 1
      let tag := if bitOf (leAt b 16 2) 15 then some (bits (leAt b 16 2) 0 12) else none
      let (msg, s) := s.nextMsg mac act
      s.startSend port mac tag act 0 (leAt b 12 4) msg (b.drop 32) (bitOf (leAt b 11 1) 0) job)

/-- The node's RESULT message (R374): the completion entry and the result bytes, to the sender of the job. -/
def State.sendResult (s : State) (act : Nat) (o : MdwOrigin) (data : List Byte) : State :=
  s.startSend o.port o.mac o.tag act 1 o.key o.msg data false 0

/-- A send that is over. -/
def State.endSend (s : State) (m : MdwSend) : State := s.modMdw fun x => { x with sends := x.sends.filter fun y => !m.same y }

/-- A peer declared unreachable (R373): its pending messages fail. -/
def State.unreachable (s : State) (m : MdwSend) : State :=
  let s := (s.mdw.sends.filter (·.mac == m.mac)).foldl (fun s x => if x.job = 0 then s else s.endLoader x.job 0x70 0 0 []) s
  (s.modMdw fun x => { x with sends := x.sends.filter (·.mac != m.mac) }).logMdw 2 m.port m.act

/-- A fragment not acknowledged within RTO beats: it is sent again, or its peer is unreachable. -/
def execMidwayFragmentTimeout (mac act msg frag : Nat) (s : State) : Host.Outcome State Fault Refusal :=
  .next (
    let late (f : Frag) : Bool := f.idx == frag && decide (f.sent + s.rd F.mdwCtrl_rto ≤ s.now)
    match s.mdw.sends.find? (fun m => m.mac == mac && m.act == act && m.msg == msg && m.flight.any late) with
    | none => s
    | some m =>
      if m.flight.any (fun f => late f && decide (s.rd F.mdwCtrl_retryMax ≤ f.tries)) then s.unreachable m else
      ((s.sendFrag m frag).modSend m fun x =>
        { x with flight := updWhere late (fun f => { f with sent := s.now, tries := f.tries + 1 }) x.flight }).count 0x917 1)

/-! ## Receiving (R372 to R374) -/

/-- A fragment acknowledged to its sender. -/
def State.ackFrag (s : State) (f : MdwFrame) : State :=
  let h := mdwHeader 2 f.act (s.rd F.mdwId_rack) s.self 0 f.frag f.msg f.key 0 0
  s.offerMdw f.port f.act 0 (s.mdwFrame f.port f.mac f.tag (s.pcp 0) h [])

/-- The sender of a message as the receiver tells them apart: rack and node. -/
def peerOf (rack node : Nat) : Nat := rack * 256 + node

/-- The next JOB message that a source's messages to an act deliver. -/
def State.nextFrom (s : State) (peer act : Nat) : Nat :=
  ((s.mdw.rxNext.find? fun e => e.1 == peer && e.2.1 == act).map (·.2.2)).getD 0

/-- A message's receiver record and a fragment of it belong together. -/
def MdwRecv.holds (f : MdwFrame) (r : MdwRecv) : Bool :=
  r.type == f.type && r.act == f.act && r.rack == f.rack && r.node == f.node && r.msg == f.msg

/-- A fragment put into its message. -/
def State.assemble (s : State) (f : MdwFrame) : State :=
  let r := (s.mdw.recvs.find? (MdwRecv.holds f)).getD ⟨f.port, f.mac, f.type, f.act, f.rack, f.node, f.msg, f.total, none, []⟩
  let r := { r with
    frags := r.frags.filter (·.1 != f.frag) ++ [(f.frag, f.data)]
    count := if f.last then some (f.frag + 1) else r.count }
  s.modMdw fun x => { x with recvs := r :: x.recvs.filter fun q => !MdwRecv.holds f q }

/-- Whether every fragment of a message is here. -/
def MdwRecv.full (r : MdwRecv) : Bool :=
  match r.count with
  | some n => (List.range n).all fun i => r.frags.any (·.1 == i)
  | none => false

/-- The payload of a message. -/
def MdwRecv.payload (r : MdwRecv) : List Byte :=
  (List.range (r.count.getD 0)).flatMap fun i => ((r.frags.find? (·.1 == i)).map (·.2)).getD []

/-- A frame read by its header: a frame, or the kind of MDW_ERR and the act of one that is dropped. -/
def State.readFrame (s : State) (port mac : Nat) (b : List Byte) : (Nat × Nat) ⊕ MdwFrame :=
  let type := leAt b 0 1
  let act := bits (leAt b 1 1) 0 4
  if decide (b.length < 32) || leAt b 28 4 != crc32c (b.take 28) || decide (type > 2) || bits (leAt b 1 1) 4 4 != 0
      || bits (leAt b 5 1) 1 7 != 0 || decide (leAt b 20 4 > b.length - 32) || decide (leAt b 24 4 > 2 ^ 20 + 128) then .inl (1, act)
  else if leAt b 16 4 != s.rd (F.mdwActKey_key act) then .inl (0, act)
  else .inr ⟨port, mac, type, act, leAt b 2 2, leAt b 4 1, bitOf (leAt b 5 1) 0, leAt b 6 2, leAt b 8 8, leAt b 16 4, leAt b 24 4,
    slice b 32 (leAt b 20 4), none, 0⟩

/-- A Midway frame at a port, from its destination address to its payload: bad ones are counted and dropped, a fragment that does not
complete its message is acknowledged, and the rest waits for its delivery by type. -/
def execMidwayFrameReceive (port : Nat) (fcsOk : Bool) (fec : Nat) (frame : List Byte) (s : State) : Host.Outcome State Fault Refusal :=
  .next (
    if port ≥ 2 ∨ !s.on (F.mdwPortCtrl_enable port) ∨ !s.on (F.mdwPortStatus_linkUp port) then s else
    let s := s.bump (F.mdwPortFecUncorr_count port) fec
    if !fcsOk then s.bump (F.mdwPortFcsErr_count port) 1 else
    let s := s.bump64 (F.mdwPortRxFramesLo_count port) (F.mdwPortRxFramesHi_count port) 1
    let own := s.rd (F.mdwPortMacLo_mac port) + 2 ^ 32 * s.rd (F.mdwPortMacHi_mac port)
    let tagged := beNat (slice frame 12 2) == 0x8100
    let at_ := if tagged then 16 else 12
    if frame.length < 60 ∨ s.rd (F.mdwPortCtrl_mtu port) < frame.length + 4 ∨ beNat (frame.take 6) ≠ own
      ∨ beNat (slice frame at_ 2) ≠ s.rd F.mdwCtrl_ethertype then s else
    match s.readFrame port (beNat (slice frame 6 6)) (frame.drop (at_ + 2)) with
    | .inl (k, act) => s.dropMdw k port act
    | .inr f =>
      let f := if tagged then { f with tag := some (bits (beNat (slice frame 14 2)) 0 12), prio := bits (beNat (slice frame 14 2)) 13 3 } else f
      if f.type = 2 then s.modMdw fun x => { x with frames := x.frames ++ [f] } else
      if f.type = 0 ∧ f.msg < s.nextFrom (peerOf f.rack f.node) f.act then s.ackFrag f else
      let known := s.mdw.recvs.any fun r => MdwRecv.holds f r && r.full
      let s := s.assemble f
      if (s.mdw.recvs.any fun r => MdwRecv.holds f r && r.full) then
        if known then s else s.modMdw fun x => { x with frames := x.frames ++ [f] }
      else s.ackFrag f)

/-- A message taken from the receiver: its record and its waiting frame go. -/
def State.takeMdw (s : State) (f : MdwFrame) : State :=
  s.modMdw fun x => { x with recvs := x.recvs.filter (fun r => !MdwRecv.holds f r), frames := x.frames.filter (· != f) }

/-- With PFC_EN, a port whose messages find a full ring pauses their priority at its peer, once (R371, log 171). -/
def State.pausePeer (s : State) (port prio : Nat) : State :=
  if !s.on (F.mdwPortCtrl_pfcEn port) || s.mdw.pausing.contains (port, prio) then s else
  (s.modMdw fun x => { x with pausing := x.pausing ++ [(port, prio)] }).emit (.pfc port prio true)

/-- Once no ring is full, what has been paused resumes. -/
def State.resumePeers (s : State) : State :=
  if s.mdw.pausing.isEmpty || s.host.rings.any (fun r => decide (256 ≤ r.entries.length)) then s else
  s.mdw.pausing.foldl (fun s e => s.emit (.pfc e.1 e.2 false)) (s.modMdw fun x => { x with pausing := [] })

/-- A complete JOB message that is next in order (R374, R438): it is entered on the act's Midway ring; while the act does not accept it is
dropped; while the ring is full its last fragment is forgotten, and comes again. -/
def execMidwayJobReceive (s : State) : Host.Outcome State Fault Refusal :=
  .next (
    let peer (f : MdwFrame) : Nat := peerOf f.rack f.node
    match s.mdw.frames.find? (fun f => f.type == 0 && f.msg == s.nextFrom (peer f) f.act) with
    | none => s
    | some f =>
      match s.mdw.recvs.find? (MdwRecv.holds f) with
      | none => s.takeMdw f
      | some r =>
        let data := r.payload
        let passed (s : State) : State := (s.takeMdw f).modMdw fun x => { x with
          rxNext := (peer f, f.act, f.msg + 1) :: x.rxNext.filter fun e => !(e.1 == peer f && e.2.1 == f.act) }
        if !s.on (F.mdwActCtrl_accept f.act) then ((passed s).ackFrag f).dropMdw 3 f.port f.act
        else if data.length < 128 ∨ data.length ≠ f.total then ((passed s).ackFrag f).dropMdw 1 f.port f.act
        else if (s.ring f.act 4).entries.length ≥ 256 then
          (s.pausePeer f.port f.prio).modMdw fun x => { x with
            frames := x.frames.filter (· != f)
            recvs := updWhere (MdwRecv.holds f) (fun r => { r with frags := r.frags.filter (·.1 != f.frag) }) x.recvs }
        else
          let e : MdwEntry := ⟨⟨f.port, f.mac, f.tag, f.msg, f.key⟩, data.take 128, data.drop 128⟩
          (((passed s).ackFrag f).modRing f.act 4 fun r => { r with entries := r.entries ++ [e] }).count 0x915 1)

/-- A complete RESULT message (R374): it completes the send that waits for it, or is dropped. -/
def execMidwayResultReceive (s : State) : Host.Outcome State Fault Refusal :=
  .next (match s.mdw.frames.find? (·.type == 1) with
    | none => s
    | some f =>
      let data := ((s.mdw.recvs.find? (MdwRecv.holds f)).map (·.payload)).getD []
      let s := (s.takeMdw f).ackFrag f
      match s.mdw.sends.find? (fun m => m.wait && m.type == 0 && m.mac == f.mac && m.act == f.act && m.msg == f.msg) with
      | none => s.bump F.mdwDropCount_count 1
      | some m => (((s.endSend m).endLoader m.job 0 0 0 data).count 0x915 1))

/-- An acknowledgement (R373): its fragment is no longer in flight, further ones go out, and a send with none left completes. -/
def execMidwayAckReceive (s : State) : Host.Outcome State Fault Refusal :=
  .next (match s.mdw.frames.find? (·.type == 2) with
    | none => s
    | some f =>
      let s := s.modMdw fun x => { x with frames := x.frames.filter (· != f) }
      match s.mdw.sends.find? (fun m => m.mac == f.mac && m.act == f.act && m.msg == f.msg && m.flight.any (·.idx == f.frag)) with
      | none => s
      | some m =>
        let s := s.modSend m fun x => { x with flight := x.flight.filter (·.idx != f.frag) }
        let s := State.pump m.mac 256 s
        match s.mdw.sends.find? m.same with
        | none => s
        | some x =>
          if x.flight.isEmpty ∧ x.next = x.frags.length ∧ !x.wait then
            let s := s.endSend x
            if x.job = 0 then s else s.endLoader x.job 0 0 0 []
          else s)

/-! ## Links and time -/

/-- A port's link, alignment or faults change (R374). -/
def execMidwayLinkChange (port : Nat) (up lock localFault remoteFault : Bool) (s : State) : Host.Outcome State Fault Refusal :=
  .next (
    if port ≥ 2 then s else
    (((s.wr (F.mdwPortStatus_linkUp port) (b2n up)).wr (F.mdwPortStatus_pcsLock port) (b2n lock)).wr
      (F.mdwPortStatus_localFault port) (b2n localFault)).wr (F.mdwPortStatus_remoteFault port) (b2n remoteFault))

/-- The registers of the head timestamp (R379). -/
def State.showStamps (s : State) : State :=
  let h := s.mdw.stamps.headD ⟨0, 0, 0, 0, 0⟩
  let s := ((s.wr F.mdwPtpTsInfo_count s.mdw.stamps.length).wr F.mdwPtpTsInfo_dir h.dir).wr F.mdwPtpTsInfo_msgtype h.type
  let s := (s.wr F.mdwPtpTsInfo_seqid h.seq).wr64 F.mdwPtpTsBeatLo_beat F.mdwPtpTsBeatHi_beat h.beat
  s.wr F.mdwPtpTsSub_sub h.sub

/-- A PTP event message, of any domain, at the PCS of the port in use (R375): stamped with the beat and sub-beat, and dropped where the queue is
full. -/
def execPtpEventTimestamp (port _domain dir type seq : Nat) (s : State) : Host.Outcome State Fault Refusal :=
  .next (
    if !s.on F.mdwPtpCtrl_enable ∨ port ≠ s.rd F.mdwPtpCtrl_port then s
    else if s.mdw.stamps.length ≥ 16 then s.wr F.mdwPtpTsInfo_overflow 1
    else (s.modMdw fun x => { x with stamps := x.stamps ++ [⟨dir, type, seq, s.now, s.tally.sub⟩] }).showStamps)

/-- A write of POP = 1. -/
def execPtpTsPop (src : Src) (s : State) : Host.Outcome State Fault Refusal :=
  .next (if s.reaches src then (s.modMdw fun x => { x with stamps := x.stamps.drop 1 }).showStamps else s)

end Sys2Proof.Machine
end

