-- ==== Sys2Proof/Machine/Jobs.lean ====
section
/-! DEFINITION. Jobs (chapters 2, 15 and 17): polling and pick-up (R428, R57), the slices that they run on (R18, R31, R513), their start (R32,
R110), deadlines (R58, R64), request pairs (R475 to R481), their end (R60, R436) and their completions (R431 to R434). -/
namespace Sys2Proof.Machine

/-! ## Descriptors -/

/-- A descriptor read (Table 2.7). -/
def readDesc (b : List Byte) : Desc where
  jobId := leAt b 0 8
  routine := leAt b 8 4
  flags := leAt b 12 2
  slice := leAt b 14 1
  strands := leAt b 15 1
  snapshot := leAt b 16 8
  deadline := leAt b 24 8
  argAddr := leAt b 32 8
  argLen := leAt b 40 4
  resLen := leAt b 44 4
  resAddr := leAt b 48 8
  inline := padTo 0#8 64 (slice b 56 64)
  seq := leAt b 120 4
  forcedMask := leAt b 124 4

/-- The estimating fields of a degrade mask (Table 2.9). -/
def estimating : Nat := 0x1FFF0001

/-- Whether a reserved field of a descriptor is not zero: FLAGS [15:8], and in force the reserved bits and the range of FORCED_MASK. -/
def Desc.reserved (d : Desc) : Bool :=
  bits d.flags 8 8 != 0 ||
    (bitOf d.flags 6 && (bits d.forcedMask 3 13 != 0 || bits d.forcedMask 29 3 != 0 || decide (bits d.forcedMask 16 13 > 4096)))

/-- Whether a length of a descriptor is over its limit. -/
def Desc.tooLong (d : Desc) : Bool := decide (d.argLen > 2 ^ 20 ∨ d.resLen > 2 ^ 20)

/-! ## Slices and cores (R18, R31, R513) -/

/-- The crews of a mask. -/
def crewsOf (m : Nat) : List Nat := (List.range 16).filter (bitOf m)

/-- The crews that belong to no slice and wait to join none. -/
def State.freeCrews (s : State) : List Nat :=
  (List.range 16).filter fun c => !(s.fil.slices.any fun x => bitOf x.crews c) && !(s.fil.joining.any (·.res == c))

/-- The crews of a slice that have joined it. -/
def State.joined (s : State) (x : Slice) : List Nat := (crewsOf x.crews).filter fun c => !(s.fil.joining.any (·.res == c))

/-- The target slice of a routine job: its crews, and its number where it has one. -/
def State.target (s : State) (act num : Nat) : Option (List Nat × Nat) :=
  let mine := sortBy (fun (a b : Slice) => decide (a.num < b.num)) (s.fil.slices.filter (·.act == act))
  if num = 0xFF then
    match mine with
    | x :: _ => some (s.joined x, x.num)
    | [] => if act = 0 then some (s.freeCrews, 0xFF) else none
  else (mine.find? (·.num == num)).map fun x => (s.joined x, x.num)

/-- The usable control cores of crews, in rising order: a crew that is not online or drains gives none. -/
def State.coresOf (s : State) (crews : List Nat) : List (Nat × Nat) :=
  crews.flatMap fun c =>
    if !s.on (F.crewStatus_online c) || s.on (F.crewCtrl_drain c) then []
    else ((List.range 5).filter fun k =>
      bitOf (s.rd (F.crewCoreMap_enabled c)) k && !bitOf (s.rd (F.crewCoreMap_failed c)) k).map fun k => (c, k)

/-- The usable cores of crews that run no strand (R109). -/
def State.idleCores (s : State) (crews : List Nat) : List (Nat × Nat) :=
  (s.coresOf crews).filter fun k => !(s.rst.block.any (·.1 == k.1)) && !(s.fil.strands.any fun t => !t.ended && t.crew == k.1 && t.core == k.2)

/-- S of R31. -/
def State.strandCount (s : State) (j : Job) (r : Routine) : Nat :=
  min (min (if j.desc.strands = 0 then r.smax else j.desc.strands) r.smax) (s.coresOf j.crews).length

/-! ## Start (R32, R57 step 4, R110) -/

/-- A strand at its first instruction (Table 2.3). -/
def firstState (id : Nat) (j : Job) (r : Routine) (n k crew core work : Nat) : Strand :=
  let inl := ((List.range 8).map fun i => (i + 1, BitVec.ofNat 64 (j.desc.arg (i + 1))))
  let sc := inl ++ [(60, BitVec.ofNat 64 k), (61, BitVec.ofNat 64 n), (62, BitVec.ofNat 64 j.snapshot), (63, BitVec.ofNat 64 (deadlineOf j))]
  let ds := [(0, if j.desc.argLen = 0 then 0#128 else encodeDsc j.arg j.desc.argLen true),
    (1, if j.desc.resLen = 0 then 0#128 else encodeDsc j.res j.desc.resLen false),
    (2, if r.store = 0 then 0#128 else encodeDsc work r.store false),
    (3, if r.poolLen = 0 then 0#128 else encodeDsc r.poolAddr r.poolLen true)]
  { id := id, job := j.id, k := k, crew := crew, core := core, pc := r.entry,
    s := sc.foldl (fun l e => kvSet 0#64 l e.1 e.2) [], d := ds.foldl (fun l e => kvSet 0#128 l e.1 e.2) [],
    t := [], p := [], q := [], stored := [], wait := .no, since := 0, inflight := [], ended := false }

/-- The working spaces of the strands, in order: nothing where one does not fit. -/
def State.workAreas (s : State) (act store : Nat) : List (Nat × Nat) → Option (List (Nat × Nat × Nat × Nat) × State)
  | [] => some ([], s)
  | (c, k) :: rest =>
    let id := s.nextId
    let s := s.fresh
    let (a, s) := if store = 0 then (some 0, s) else s.allocArea act c store (.work id)
    match a with
    | none => none
    | some a => (State.workAreas s act store rest).map fun x => ((id, c, k, a) :: x.1, x.2)

/-- An area of a job in crew store, or no area for no bytes. -/
def State.jobArea (s : State) (act crew len : Nat) (kind : AllocKind) : Option (Nat × State) :=
  if len = 0 then some (0, s) else
  match s.allocArea act crew len kind with
  | (some a, s) => some (a, s)
  | (none, _) => none

/-- A job that waits for cores starts when all its strands have one, and its areas fit: nothing where they do not. -/
def State.start? (s : State) (j : Job) (r : Routine) : Option State :=
  let cores := (s.idleCores j.crews).take j.count
  if cores.length < j.count then none else
  match cores with
  | [] => none
  | (c0, _) :: _ =>
    match s.jobArea j.act c0 j.desc.argLen (.arg j.id) with
    | none => none
    | some (arg, s) =>
      match s.jobArea j.act c0 j.desc.resLen (.result j.id) with
      | none => none
      | some (res, s) =>
        match s.workAreas j.act r.store cores with
        | none => none
        | some (ws, s) =>
          let j := { j with arg := arg, res := res, phase := .running }
          let s := s.writeMem 0 arg (padTo 0#8 j.desc.argLen j.data)
          let ts := ws.zipIdx.map fun e => firstState e.1.1 j r j.count e.2 e.1.2.1 e.1.2.2.1 e.1.2.2.2
          let s := { s with fil := { s.fil with strands := s.fil.strands ++ ts } }
          let s := (cores.map (·.1)).eraseDups.foldl (fun s c => (s.arrive (.crew c)).tierManage j.act c) s
          some (s.modJob j.id fun _ => { j with data := [] })

/-- The jobs that wait for cores, in the order of their pick-up: those that can, start. -/
def State.tryStarts (s : State) : State :=
  (s.fil.jobs.filter (·.phase == .cores)).foldl (fun s j =>
    match s.routineOf j with
    | none => s
    | some r => (s.start? j r).getD s) s

/-! ## The path to the start (R57) -/

/-- Whether a job runs under a pair in force, at whose ledger its end makes a claim (R478). -/
def Job.paired (j : Job) : Bool := j.pair.any (·.job == 0)

/-- A job over before any strand ran: its completion waits for its turn, after its claim where it is paired. -/
def State.endEarly (s : State) (id status detail : Nat) : State :=
  s.modJob id fun j => { j with phase := if j.paired then .running else .ended, status := status, detail := detail }

/-- A job refused at pick-up: its snapshot was never fixed. -/
def State.refuseJob (s : State) (id detail : Nat) : State :=
  (s.endEarly id 0x60 detail).modJob id fun j => { j with snapshot := 0, rerun := false }

/-- A job whose argument block is here: a loader call, or a job that waits for cores. -/
def State.haveArgument (s : State) (id : Nat) (data : List Byte) : State :=
  match s.job? id with
  | none => s
  | some j =>
    if j.desc.routine = 0 then s.modJob id fun j => { j with data := data, phase := .loader }
    else (s.modJob id fun j => { j with data := data, phase := .cores }).tryStarts

/-- A read of host memory that a job waits for. -/
def State.readFor (s : State) (j : Job) (addr len : Nat) : State :=
  (s.modJob j.id fun j => { j with phase := .argument }).emit (.hostRead j.act addr len)

/-- The routine image, tile pack or index install that a loader call reads at a host address: its address and length (R26, R160, R166). -/
def Job.image (j : Job) : Option (Nat × Nat) :=
  let op := j.desc.arg 1
  if j.desc.routine = 0 ∧ ((op = 0 ∧ j.desc.arg 2 ≠ 0) ∨ op = 2 ∨ op = 3) then some (j.desc.arg 2, j.desc.arg 3) else none

/-- The largest routine image: header, code and pool. -/
def maxImage : Nat := 64 + 2 ^ 20 + 2 ^ 22

/-- The pair of a job as it is picked up (R477): one that is still to take effect comes before the one in force. -/
def State.pairOf (s : State) (act slice : Nat) : Option Pair :=
  let l := s.fil.pairs.filter fun p => p.act == act && p.slice == slice
  match l.filter (·.job != 0) with
  | p :: t => some (t.getLastD p)
  | [] => l.head?

/-- Whether a ledger's node answers: the pair is not broken, and it is this node or a member. -/
def State.ledgerUp (s : State) (p : Pair) : Bool := !p.broken && (p.ledger == s.self || s.members.testBit p.ledger)

/-- The argument block that an entry and its winning half give to a phase, and nothing while it holds no winner of the phase before
(R479). -/
def ledgerArgument (p : Pair) (jobId : Nat) (entry half : List Byte) : Option (List Byte) :=
  if leAt entry 0 8 + 1 = jobId ∧ leAt entry 8 1 ≠ 0xFF then some (half.take (min (leAt entry 12 4) p.slot)) else none

/-- An entry of a ledger here, and its winning half. -/
def State.readLedger (s : State) (p : Pair) (jobId : Nat) : (List Byte × List Byte) × State :=
  let (e, _, s) := s.readMem 0 (p.entryAt jobId) 64
  let (h, _, s) := s.readMem 0 (p.halfAt jobId (leAt e 8 1 % 2)) p.slot
  ((e, h), s)

/-- A paired job takes its argument block from the ledger, or waits for it. -/
def State.takeLedger (s : State) (j : Job) (p : Pair) (ledger : Option (List Byte × List Byte)) : State :=
  let id := j.desc.jobId
  if id % 256 = 0 then (s.modJob j.id fun j => { j with desc := { j.desc with argLen := 0 } }).haveArgument j.id [] else
  let (l, s) := if p.ledger = s.self then
      let (x, s) := s.readLedger p id
      (some x, s)
    else (ledger, s)
  match l.bind fun x => ledgerArgument p id x.1 x.2 with
  | some d => ((s.modJob j.id fun j => { j with desc := { j.desc with argLen := d.length } }).haveArgument j.id d).count 0xE03 1
  | none => s.modJob j.id fun j => { j with phase := .ledger }

/-- Step 4 of R57: the strand count, and the argument block. -/
def State.stageArgument (s : State) (j : Job) : State :=
  match j.desc.routine, s.routineOf j with
  | 0, _ =>
    match j.image with
    | some (a, n) =>
      if j.desc.arg 1 = 0 ∧ (n < 64 ∨ maxImage < n) then
        s.modJob j.id fun j => { j with phase := .running, status := 0x61, detail := 1 }
      else s.readFor j a n
    | none =>
      if j.origin.isSome then s.haveArgument j.id j.data
      else if j.desc.argLen = 0 then s.haveArgument j.id [] else s.readFor j j.desc.argAddr j.desc.argLen
  | _, none => s.refuseJob j.id 2
  | _, some r =>
    let n := s.strandCount j r
    if n < r.smin then s.refuseJob j.id 5 else
    let s := s.modJob j.id fun j => { j with count := n }
    if j.origin.isSome then s.haveArgument j.id j.data else
    match j.pair with
    | some p =>
      if j.desc.argAddr = 2 ^ 64 - 1 then s.takeLedger j p none
      else if j.desc.argLen = 0 then s.haveArgument j.id [] else s.readFor j j.desc.argAddr j.desc.argLen
    | none =>
      if j.desc.argLen = 0 then s.haveArgument j.id [] else s.readFor j j.desc.argAddr j.desc.argLen

/-- A job whose pair is still to take effect is held; under one in force it runs paired, unless the pair is broken (R477, R481). -/
def State.stagePair (s : State) (id : Nat) : State :=
  match s.job? id with
  | none => s
  | some j =>
    match j.pair with
    | none => s.stageArgument j
    | some p =>
      if s.fil.pairs.any (fun q => q.job == p.job && q.job != 0) then s.modJob id fun j => { j with phase := .pair }
      else
        let p := { p with job := 0 }
        if s.ledgerUp p then
          (s.modJob id fun j => { j with pair := some p }).stageArgument { j with pair := some p }
        else ((s.modJob id fun j => { j with pair := none }).stageArgument { j with pair := none }).count 0xE02 1

/-- Steps 2 and 3 of R57: the snapshot and the drift policy. -/
def State.stageSnapshot (s : State) (id : Nat) : State :=
  match s.job? id with
  | none => s
  | some j =>
    let set := bitOf j.desc.flags 1
    if set ∧ s.tally.stable < j.desc.snapshot then s.modJob id fun j => { j with phase := .snapshot s.now }
    else if set ∧ j.desc.snapshot < s.oldest j.act then s.refuseJob id 6
    else
      let snap := if set then j.desc.snapshot else s.tally.stable
      let rerun := if bitOf j.desc.flags 4 then bitOf j.desc.flags 5 else decide (j.crews.length > 4)
      (s.modJob id fun j => { j with snapshot := snap, rerun := rerun }).stagePair id

/-- A job as it is picked up. -/
def newJob (id act ring num : Nat) (d : Desc) (now : Nat) (e : Option MdwEntry) : Job where
  id := id
  act := act
  ring := ring
  num := num
  desc := d
  phase := .argument
  pickup := now
  snapshot := 0
  rerun := false
  crews := []
  count := 0
  arg := 0
  res := 0
  data := (e.map (·.arg)).getD []
  status := 0
  detail := 0
  result := 0
  mask := 0
  ret := []
  cutDone := false
  soft := false
  replayed := false
  origin := e.map (·.origin)
  pair := none
  sent := (0, 0)
  discard := false

/-- Whether a job may name a routine handle: the act holds it, and no unload of it has been picked up (R30). -/
def State.named? (s : State) (act handle : Nat) : Bool :=
  (s.fil.routines.any fun r => r.act == act && r.handle == handle && !r.unloaded)
    && !(s.fil.jobs.any fun k =>
      k.act == act && k.desc.routine == 0 && k.desc.arg 1 == 1 && k.desc.arg 2 == handle && k.phase != .ended)

/-- A descriptor picked up (R57): its checks, in order, and then its path to the start. In Ost service mode every job of act 0 that
comes over Midway runs the service routine (R440). -/
def State.pickUp (s : State) (act ring num : Nat) (b : List Byte) (e : Option MdwEntry) : State :=
  let d := readDesc b
  let d := if ring = 4 ∧ act = 0 ∧ s.on F.hifOstCtrl_active then { d with routine := s.rd F.hifOstRoutine_handle } else d
  let id := s.nextId
  let j := newJob id act ring num d s.now e
  let s := { s.fresh with fil := { s.fil with jobs := s.fil.jobs ++ [j] } }
  let s := if ring < 4 then s.count (0xC00 + act) 1 else s
  if d.reserved then s.refuseJob id 1
  else if d.routine ≠ 0 ∧ !s.named? act d.routine then s.refuseJob id 2
  else if d.routine = 0 then
    if d.tooLong then s.refuseJob id 4 else s.stageSnapshot id
  else
    match s.target act d.slice with
    | none => s.refuseJob id 3
    | some (crews, num) =>
      if d.tooLong || decide (d.strands > 64) then s.refuseJob id 4
      else (s.modJob id fun j => { j with crews := crews, desc := { j.desc with slice := num }, pair := s.pairOf act num }).stageSnapshot id

/-! ## Polling (R428) -/

/-- The run of SEQ words that match from a number on. -/
def seqRun : Nat → List Nat → Nat
  | _, [] => 0
  | n, w :: t => if w % 2 ^ 32 = n % 2 ^ 32 then 1 + seqRun (n + 1) t else 0

/-- One ring of a poll: what it takes, by its SEQ words. -/
def State.pollRing (s : State) (act ring : Nat) (words : List Nat) : Nat × State :=
  if !s.on (F.ringCtrl_enable act ring) then (0, s) else
  let r := s.ring act ring
  let size := s.ringSize act ring
  let n := min (seqRun r.next (words.take (min 64 size))) (s.ringRoom act ring)
  let base := s.rd (F.sqBaseLo_base act ring) * 4096 + 2 ^ 32 * s.rd (F.sqBaseHi_base act ring)
  let nums := (List.range n).map (r.next + ·)
  let s := nums.foldl (fun s k => s.emit (.hostRead act (base + k % size * 128) 128)) s
  let s := s.modRing act ring fun r => { r with next := r.next + n, fetching := r.fetching ++ nums.map (·, none) }
  (n, s.wr (F.ringSeq_next act ring) (r.next + n))

/-- The Midway ring's part of a poll (R438): its entries are here already. -/
def State.pollMidway (s : State) (act : Nat) : Nat × State :=
  let r := s.ring act 4
  let n := min r.entries.length (s.ringRoom act 4)
  let s := s.modRing act 4 fun r => { r with next := r.next + n, entries := r.entries.drop n }
  (n, (r.entries.take n).zipIdx.foldl (fun s e => s.pickUp act 4 (r.next + e.2) e.1.desc (some e.1)) s)

/-- Whether a beat is a poll beat of an act. -/
def State.pollBeat (s : State) (act : Nat) : Bool :=
  decide (s.now % s.rd (F.hifFnPoll_period act) = s.rd (F.hifFnPoll_phase act))

/-- A poll beat of an act: `words` are the SEQ words read of its four rings. In Ost service mode only act 0's Midway ring is polled. -/
def execRingPoll (act : Nat) (words : List (List Nat)) (s : State) : Host.Outcome State Fault Refusal :=
  .next (
    if act ≥ 16 ∨ !s.pollBeat act ∨ !s.on (F.actCtrl_enable act) ∨ s.on (F.actCtrl_halt act) ∨ !s.fnOn act ∨ s.on F.pwrStatus_p4
      ∨ s.rst.run.isSome ∨ s.flash.quiet then s else
    let ost := s.on F.hifOstCtrl_active
    if ost ∧ act ≠ 0 then s else
    let (n, s) := (List.range 4).foldl (fun (x : Nat × State) r =>
      if ost then x else
      let (k, s) := x.2.pollRing act r (words.getD r [])
      (x.1 + k, s)) (0, s)
    let (m, s) := s.pollMidway act
    if n + m = 0 then s.count 0xC21 1 else s)

/-- Descriptors that have been read, picked up in sequence order while no earlier one is on its way: one per unit of fuel. One taken at a
poll before Ost service mode was entered is picked up all the same (R24, DESIGN CHOICE, log 172). -/
def State.pickUpReady (act ring : Nat) : Nat → State → State
  | 0, s => s
  | n + 1, s =>
    match (s.ring act ring).fetching with
    | (k, some b) :: t => State.pickUpReady act ring n ((s.modRing act ring fun r => { r with fetching := t }).pickUp act ring k b none)
    | _ => s

/-- A descriptor's read completes. -/
def execDescriptorFetchComplete (act ring num : Nat) (desc : List Byte) (s : State) : Host.Outcome State Fault Refusal :=
  .next (
    if !(s.ring act ring).fetching.contains (num, none) then s else
    let s := s.modRing act ring fun r => { r with fetching := r.fetching.map fun e => if e.1 = num then (num, some desc) else e }
    State.pickUpReady act ring (s.ring act ring).fetching.length s)

/-- A host read fails or times out (R426). -/
def execHostReadError (what : HostRead) (s : State) : Host.Outcome State Fault Refusal :=
  .next (match what with
    | .seq act ring =>
      if act < 16 ∧ ring < 4 ∧ s.on (F.ringCtrl_enable act ring) then
        (s.wr (F.ringCtrl_enable act ring) 0).wr (F.ringStatus_fetchErr act ring) 1
      else s
    | .descriptor act ring num =>
      if !(s.ring act ring).fetching.contains (num, none) then s else
      let s := (s.wr (F.ringCtrl_enable act ring) 0).wr (F.ringStatus_fetchErr act ring) 1
      let s := s.modRing act ring fun r => { r with fetching := r.fetching.filter (·.1 != num) }
      State.pickUpReady act ring (s.ring act ring).fetching.length s
    | .job id =>
      match s.job? id with
      | some j => if j.phase == .argument then s.endEarly id 0x62 (if j.image.isSome then 2 else 0) else s
      | none => s)

/-- A host read for a job's argument block or a loader's image completes. -/
def execHostReadComplete (job : Nat) (data : List Byte) (s : State) : Host.Outcome State Fault Refusal :=
  .next (match s.job? job with
    | some j => if j.phase == .argument then s.haveArgument job data else s
    | none => s)

/-! ## Holds and deadlines (R58, R64) -/

/-- The stable beat reaches a held job's snapshot. -/
def execJobSnapshotRelease (job : Nat) (s : State) : Host.Outcome State Fault Refusal :=
  .next (match s.job? job with
    | some j =>
      match j.phase with
      | .snapshot _ => if j.desc.snapshot ≤ s.tally.stable then s.stageSnapshot job else s
      | _ => s
    | none => s)

/-- Whether a job is held: for its snapshot, for a pair to take effect, or for a ledger. -/
def Job.held (j : Job) : Bool :=
  match j.phase with
  | .snapshot _ => true
  | .pair => true
  | .ledger => true
  | _ => false

/-- Whether a job's deadline beat has arrived. -/
def State.deadlineHere (s : State) (j : Job) : Bool := bitOf j.desc.flags 2 && decide (j.desc.deadline ≤ s.now)

/-- A held job's deadline arrives, or without one ACT_SNAP_WAIT beats have passed. -/
def execJobSnapshotTimeout (job : Nat) (s : State) : Host.Outcome State Fault Refusal :=
  .next (match s.job? job with
    | some j =>
      let past := if bitOf j.desc.flags 2 then s.deadlineHere j else decide (j.pickup + s.rd (F.actSnapWait_beats j.act) ≤ s.now)
      if j.held && past then s.endEarly job 0x30 1 else s
    | none => s)

/-- The deadline beat of a running job: its reranks are cut, and its unfinished expansions go to the expand-at-use path. -/
def execDeadlineArrival (job : Nat) (s : State) : Host.Outcome State Fault Refusal :=
  .next (match s.job? job with
    | some j =>
      if j.phase != .running || j.cutDone || !s.deadlineHere j then s else
      let s := s.modJob job fun j => { j with cutDone := true }
      let s := (s.idx.reranks.filter (·.job == job)).foldl (fun s r => s.cutRerank j r) s
      let mine (e : Expansion) : Bool := e.job == job && !e.done && e.home.isSome
      let s := (s.fil.expansions.filter mine).foldl (fun s e => s.freeAt (e.home.getD 0)) s
      { s with fil := { s.fil with expansions := updWhere mine (fun e => { e with home := none }) s.fil.expansions } }
    | none => s)

/-! ## The end of a job (R59, R60, R436) -/

/-- Whether a status writes no result area (Table 15.4). -/
def noResult (status detail : Nat) : Bool := !([0, 1, 2, 0x50].contains status || (status == 0x30 && detail == 0))

/-- A job's status, DETAIL and degrade mask at its end (R62, R63, R65, R436). -/
def State.outcome (s : State) (j : Job) : Nat × Nat × Nat :=
  let force := bitOf j.desc.flags 6 && j.desc.routine != 0
  let mask := if force then (j.desc.forcedMask &&& estimating) ||| (j.mask &&& 6) else j.mask
  if j.status ≠ 0 then (j.status, j.detail, mask)
  else if bitOf j.desc.flags 2 && !bitOf j.desc.flags 3 && decide (j.desc.deadline < s.now) then (0x30, 0, mask)
  else if j.soft then (2, 0, mask)
  else if bitOf mask 0 then (1, 0, mask)
  else (0, 0, mask)

/-- Whether everything of a job has ended: its strands, and what they had with the engines. A reduction that the job's end leaves open is
not waited for. -/
def State.jobOver (s : State) (j : Job) : Bool :=
  j.phase == .running && s.fil.strands.all fun t => t.job != j.id ||
    (t.ended && t.inflight.all fun f => j.status != 0 && (match f.gate with
      | .ored _ => true
      | _ => false))

/-- What a job held is released: its handles, strands, areas, open reductions and views. -/
def State.releaseJob (s : State) (j : Job) : State :=
  let ids := (s.fil.strands.filter (·.job == j.id)).map (·.id)
  let s := ids.foldl (fun s t => s.releaseHandles t) s
  let s := s.dropAlloc fun k => match k with
    | .arg n => n == j.id
    | .result n => n == j.id
    | .work n => ids.contains n
    | _ => false
  let s := { s with
    fil := { s.fil with
      strands := s.fil.strands.filter (·.job != j.id)
      oreds := s.fil.oreds.filter (·.job != j.id) }
    idx := { s.idx with reranks := s.idx.reranks.filter (·.job != j.id) } }
  s.closeViews j.id

/-- The result bytes of a job, or nothing where a block of its area cannot be corrected. -/
def State.resultOf (s : State) (j : Job) : Option (List Byte) × State :=
  if j.desc.routine = 0 then (some (j.ret.take j.desc.resLen), s)
  else if j.desc.resLen = 0 then (some [], s)
  else
    match s.readMem 0 j.res j.desc.resLen with
    | (_, true, s) => (none, s)
    | (b, false, s) => (some b, s)

/-- A job's end as its completion will state it. -/
structure Ending where
  status : Nat
  detail : Nat
  mask : Nat
  snapshot : Nat
  rerun : Bool
  replayed : Bool
  data : List Byte
deriving DecidableEq, Repr

/-- Whether Table 15.4 gives a status the DETAIL 0 always. -/
def plainStatus (status : Nat) : Bool := [0, 1, 2, 0x10, 0x11, 0x20, 0x21, 0x50, 0x70].contains status

/-- The claim of a phase at the ledger (R478), before anything is written to the host. `remote` is what the ledger of another node holds:
the entry before the claim and, where the claim is lost, the winning half; without it the ledger is gone (R481). -/
def State.claim (s : State) (j : Job) (p : Pair) (e : Ending) (remote : Option (List Byte × List Byte)) : Ending × State :=
  let id := j.desc.jobId
  let h := if s.self < p.partner then 0 else 1
  let mine := ledgerEntry id h e.status e.data.length s.now e.mask (b2n e.rerun)
  if !s.ledgerUp p then (e, s.count 0xE02 1) else
  let here := p.ledger == s.self
  let half := e.data.take p.slot
  let s := if here then s.ordWrite (p.halfAt id h) half else s.emit (.claim p.ledger (p.entryAt id) mine half)
  let (l, s) := if here then
      let (x, s) := s.readLedger p id
      (some x, s)
    else (remote, s)
  match l with
  | none => (e, s.count 0xE02 1)
  | some (entry, half) =>
    match claimOf entry id with
    | .won => (e, (if here then s.ordWrite (p.entryAt id) mine else s).count 0xE00 1)
    | .other => (e, s.count 0xE02 1)
    | .lost =>
      let st := leAt entry 10 2
      let (snap, s) := s.draw 64
      let (dt, s) := s.draw 8
      (⟨if st = 0 then 0x50 else st, if plainStatus st then 0 else dt, leAt entry 24 4, snap, bitOf (leAt entry 28 4) 0,
        true, half.take (leAt entry 12 4)⟩, s.count 0xE01 1)

/-- A job's result writes queued in class 2, and the job put in line for its completion. -/
def State.queueResult (s : State) (j : Job) (e : Ending) : State :=
  let first := s.nextId
  let send := !e.data.isEmpty && j.ring != 4
  let s := if send then s.sendHost j.act j.act 2 j.desc.resAddr e.data (s.on F.hifLinkCtrl_roEn) else s
  s.modJob j.id fun j => { j with
    phase := .ended, status := e.status, detail := e.detail, mask := e.mask, snapshot := e.snapshot, rerun := e.rerun,
    replayed := e.replayed, ret := e.data, sent := (first, s.nextId) }

/-- A job removed. -/
def State.dropJob (s : State) (id : Nat) : State := { s with fil := { s.fil with jobs := s.fil.jobs.filter (·.id != id) } }

/-- The end of a job: its claim on a paired slice, its result writes, and its place in line for its completion. -/
def State.endJob (s : State) (j : Job) (remote : Option (List Byte × List Byte)) : State :=
  let (st, dt, mask) := s.outcome j
  let (b, s) := if noResult st dt then (some [], s) else s.resultOf j
  let e : Ending := match b with
    | some b => ⟨st, dt, mask, j.snapshot, j.rerun, j.replayed, b⟩
    | none => ⟨0x11, 0, mask, j.snapshot, j.rerun, j.replayed, []⟩
  let (e, s) := match j.pair with
    | some p => if j.paired then s.claim j p e remote else (e, s)
    | none => (e, s)
  let s := if bitOf e.mask 0 then s.bump (F.actDegradeCount_count j.act) 1 else s
  let s := s.releaseJob j
  (if j.discard then s.dropJob j.id else s.queueResult j e).tryStarts

def execJobEnd (job : Nat) (ledger : Option (List Byte × List Byte)) (s : State) : Host.Outcome State Fault Refusal :=
  .next (match s.job? job with
    | some j => if s.jobOver j then s.endJob j ledger else s
    | none => s)

/-! ## Completions (R431 to R434) -/

/-- A completion entry (Table 15.3). -/
def completionEntry (j : Job) (phase : Bool) : List Byte :=
  let flags := b2n phase + 2 * b2n j.rerun + 4 * b2n j.replayed + 8 * b2n (bitOf j.desc.flags 0)
  let seq := if j.ring = 4 then j.num % 2 ^ 32 else j.desc.seq
  leBytes j.desc.jobId 8 ++ leBytes j.status 2 ++ leBytes j.detail 1 ++ leBytes flags 1 ++ leBytes j.result 4 ++ leBytes j.snapshot 8
    ++ leBytes j.mask 4 ++ leBytes seq 4

/-- Whether a job's completion may be written now: its results have been sent (R434), the completions of earlier jobs are written unless it
is unordered (R433), and the completion ring has space (R432). -/
def State.mayComplete (s : State) (j : Job) : Bool :=
  j.phase == .ended && s.fnOn j.act
    && !((s.rgm.units ++ s.rgm.waiting).any fun u => decide (j.sent.1 ≤ u.id ∧ u.id < j.sent.2))
    && (bitOf j.desc.flags 0 || !((s.ringJobs j.act j.ring).any fun k => decide (k.num < j.num)))
    && (j.ring == 4 || decide (s.cqUsed j.act j.ring < s.ringSize j.act j.ring))

/-- A completion written: it takes the next slot, and counts for the ring's messages. A Midway job's goes back in a RESULT message. -/
def State.writeCompletion (s : State) (j : Job) : State :=
  let r := s.ring j.act j.ring
  let size := s.ringSize j.act j.ring
  let b := completionEntry j (r.tail / size % 2 == 0)
  let s := (s.modRing j.act j.ring fun r => { r with tail := r.tail + 1 }).dropJob j.id
  match j.origin with
  | some o => s.sendResult j.act o (b ++ j.ret)
  | none =>
    let base := s.rd (F.cqBaseLo_base j.act j.ring) * 4096 + 2 ^ 32 * s.rd (F.cqBaseHi_base j.act j.ring)
    let s := s.sendHost j.act j.act 1 (base + r.tail % size * 32) b false
    let s := (s.wr (F.cqTail_count j.act j.ring) (r.tail + 1)).count (0xC10 + j.act) 1
    s.moderate j.act j.ring (bitOf j.desc.flags 7)

def execCompletionWrite (job : Nat) (s : State) : Host.Outcome State Fault Refusal :=
  .next (match s.job? job with
    | some j =>
      if j.discard && j.phase == .ended then s.dropJob job
      else if s.mayComplete j then s.writeCompletion j else s
    | none => s)

/-! ## Pairs (R475, R477) -/

/-- A number that is a power of two between two bounds. -/
def powerIn (n lo hi : Nat) : Bool := decide (lo ≤ n ∧ n ≤ hi) && n == 2 ^ n.log2

/-- Whether a pair block breaks Table 17.2. -/
def State.pairRefused (s : State) (act : Nat) (b : List Byte) : Bool :=
  let partner := leAt b 0 1
  let addr := leAt b 16 8
  decide (b.length < 64) || decide (partner ≥ 64) || partner == s.self || !(s.fil.slices.any fun x => x.act == act && x.num == leAt b 1 1)
    || !(leAt b 2 1 == s.self || leAt b 2 1 == partner) || leAt b 3 1 != 0 || !powerIn (leAt b 4 4) 64 65536
    || leAt b 8 4 % 4096 != 0 || decide (leAt b 8 4 < 4096 ∨ 2 ^ 20 < leAt b 8 4) || decide (addr ≥ 2 ^ 46) || addr % 4096 != 0
    || !powerIn (leAt b 24 4) 64 (2 ^ 20) || (slice b 28 36).any (· != 0#8)

/-- What the ledger's node says of the key and the size: for this node its exports, and else the answer that came. -/
def State.ledgerCheck (s : State) (p : Pair) (remote : Nat) : Nat :=
  if p.ledger ≠ s.self then remote else
  match s.car.exports.find? fun e => e.act == p.act && e.key == p.key && bits e.rights 0 3 == 7 && e.closing.isNone
      && decide (e.base ≤ p.addr ∧ p.addr < e.base + e.len) with
  | none => 0x20
  | some e => if p.addr + p.size ≤ e.base + e.len then 0 else 0x21

/-- The loader with s1 = 12. `remote` is the status with which the ledger's node answers, 0 where it accepts. -/
def execPairSlice (job remote : Nat) (s : State) : Host.Outcome State Fault Refusal :=
  .next (match s.loaderCall job 12 with
    | none => s
    | some j =>
      if s.fil.pairs.any (·.job == job) then s else
      let b := j.data
      if s.pairRefused j.act b then s.endLoader job 0x61 0x15 0 [] else
      let step := leAt b 24 4
      let p : Pair := ⟨j.act, leAt b 1 1, leAt b 0 1, leAt b 2 1, leAt b 4 4, leAt b 8 4, leAt b 12 4, leAt b 16 8, step,
        roundUp (j.pickup + 1024) step, job, false⟩
      if !s.members.testBit p.partner || !s.ledgerUp p then s.endLoader job 0x70 0 0 [] else
      let st := s.ledgerCheck p remote
      if st ≠ 0 then s.endLoader job st 0 0 [] else
      { s with fil := { s.fil with pairs := s.fil.pairs ++ [p] } })

/-- The beat at which a pair takes effect: it replaces the slice's pair, its loader job completes, and the held jobs go on. -/
def execPairTakeEffect (job : Nat) (s : State) : Host.Outcome State Fault Refusal :=
  .next (match s.fil.pairs.find? (·.job == job) with
    | none => s
    | some p =>
      if job = 0 ∨ s.now < p.start then s else
      let mine (q : Pair) : Bool := q.act == p.act && q.slice == p.slice
      let s := { s with fil := { s.fil with
        pairs := (s.fil.pairs.filter fun q => !(mine q && q.job == 0) && q.job != job) ++ [{ p with job := 0 }] } }
      let s := s.endLoader job 0 0 0 []
      (s.fil.jobs.filter fun j => j.phase == .pair && j.act == p.act && j.desc.slice == p.slice).foldl (fun s j => s.stagePair j.id) s)

/-- The ledger holds the previous phase's winning result (R479). `ledger` is the entry and the winning half, where the ledger is another
node's. -/
def execLedgerArgumentRelease (job : Nat) (ledger : Option (List Byte × List Byte)) (s : State) : Host.Outcome State Fault Refusal :=
  .next (match s.job? job with
    | some j =>
      match j.phase, j.pair with
      | .ledger, some p => if s.ledgerUp p then s.takeLedger j p ledger else s
      | _, _ => s
    | none => s)

end Sys2Proof.Machine
end

