-- ==== Sys2Proof/Machine/Sha.lean ====
section
/-! DEFINITION. SHA-512 (FIPS 180-4), which Assay uses for measurements, images, quotes and tokens (chapter 16). -/
namespace Sys2Proof.Machine

/-- The round constants, in two halves. -/
def shaKa : List Nat :=
  [0x428A2F98D728AE22, 0x7137449123EF65CD, 0xB5C0FBCFEC4D3B2F, 0xE9B5DBA58189DBBC, 0x3956C25BF348B538,
   0x59F111F1B605D019, 0x923F82A4AF194F9B, 0xAB1C5ED5DA6D8118, 0xD807AA98A3030242, 0x12835B0145706FBE,
   0x243185BE4EE4B28C, 0x550C7DC3D5FFB4E2, 0x72BE5D74F27B896F, 0x80DEB1FE3B1696B1, 0x9BDC06A725C71235,
   0xC19BF174CF692694, 0xE49B69C19EF14AD2, 0xEFBE4786384F25E3, 0x0FC19DC68B8CD5B5, 0x240CA1CC77AC9C65,
   0x2DE92C6F592B0275, 0x4A7484AA6EA6E483, 0x5CB0A9DCBD41FBD4, 0x76F988DA831153B5, 0x983E5152EE66DFAB,
   0xA831C66D2DB43210, 0xB00327C898FB213F, 0xBF597FC7BEEF0EE4, 0xC6E00BF33DA88FC2, 0xD5A79147930AA725,
   0x06CA6351E003826F, 0x142929670A0E6E70, 0x27B70A8546D22FFC, 0x2E1B21385C26C926, 0x4D2C6DFC5AC42AED,
   0x53380D139D95B3DF, 0x650A73548BAF63DE, 0x766A0ABB3C77B2A8, 0x81C2C92E47EDAEE6, 0x92722C851482353B]
def shaKb : List Nat :=
  [0xA2BFE8A14CF10364, 0xA81A664BBC423001, 0xC24B8B70D0F89791, 0xC76C51A30654BE30, 0xD192E819D6EF5218,
   0xD69906245565A910, 0xF40E35855771202A, 0x106AA07032BBD1B8, 0x19A4C116B8D2D0C8, 0x1E376C085141AB53,
   0x2748774CDF8EEB99, 0x34B0BCB5E19B48A8, 0x391C0CB3C5C95A63, 0x4ED8AA4AE3418ACB, 0x5B9CCA4F7763E373,
   0x682E6FF3D6B2B8A3, 0x748F82EE5DEFB2FC, 0x78A5636F43172F60, 0x84C87814A1F0AB72, 0x8CC702081A6439EC,
   0x90BEFFFA23631E28, 0xA4506CEBDE82BDE9, 0xBEF9A3F7B2C67915, 0xC67178F2E372532B, 0xCA273ECEEA26619C,
   0xD186B8C721C0C207, 0xEADA7DD6CDE0EB1E, 0xF57D4F7FEE6ED178, 0x06F067AA72176FBA, 0x0A637DC5A2C898A6,
   0x113F9804BEF90DAE, 0x1B710B35131C471B, 0x28DB77F523047D84, 0x32CAAB7B40C72493, 0x3C9EBE0A15C9BEBC,
   0x431D67C49C100D4C, 0x4CC5D4BECB3E42B6, 0x597F299CFC657E2A, 0x5FCB6FAB3AD6FAEC, 0x6C44198C4A475817]

/-- The round constants. -/
def shaK : List Nat := shaKa ++ shaKb

/-- The initial hash value. -/
def shaH0 : List Nat :=
  [0x6A09E667F3BCC908, 0xBB67AE8584CAA73B, 0x3C6EF372FE94F82B, 0xA54FF53A5F1D36F1, 0x510E527FADE682D1,
   0x9B05688C2B3E6C1F, 0x1F83D9ABFB41BD6B, 0x5BE0CD19137E2179]

/-- Addition of 64-bit words. -/
def add64 (a b : Nat) : Nat := (a + b) % 2 ^ 64

/-- A 64-bit word rotated to the right. -/
def ror64 (x n : Nat) : Nat := (x / 2 ^ n) ||| (x * 2 ^ (64 - n) % 2 ^ 64)

/-- The eight bytes of a big-endian word. -/
def be64 (l : List Byte) : Nat := leNat l.reverse

/-- The message schedule: `w` holds the last sixteen words, newest first; one word per unit of fuel, oldest last. -/
def shaSchedule : Nat → List Nat → List Nat
  | 0, w => w
  | n + 1, w =>
    let a := w.getD 14 0
    let b := w.getD 1 0
    let s0 := ror64 a 1 ^^^ ror64 a 8 ^^^ (a / 2 ^ 7)
    let s1 := ror64 b 19 ^^^ ror64 b 61 ^^^ (b / 2 ^ 6)
    shaSchedule n (add64 (add64 (w.getD 15 0) s0) (add64 (w.getD 6 0) s1) :: w)

/-- The working variables of a round. -/
structure ShaVars where
  a : Nat
  b : Nat
  c : Nat
  d : Nat
  e : Nat
  f : Nat
  g : Nat
  h : Nat
deriving DecidableEq, Repr

/-- One round with a schedule word and its constant. -/
def shaRound (v : ShaVars) (x : Nat × Nat) : ShaVars :=
  let ch := (v.e &&& v.f) ^^^ ((v.e ^^^ (2 ^ 64 - 1)) &&& v.g)
  let maj := (v.a &&& v.b) ^^^ (v.a &&& v.c) ^^^ (v.b &&& v.c)
  let t1 := add64 (add64 v.h (ror64 v.e 14 ^^^ ror64 v.e 18 ^^^ ror64 v.e 41)) (add64 ch (add64 x.1 x.2))
  let t2 := add64 (ror64 v.a 28 ^^^ ror64 v.a 34 ^^^ ror64 v.a 39) maj
  ⟨add64 t1 t2, v.a, v.b, v.c, add64 v.d t1, v.e, v.f, v.g⟩

/-- One 128-byte block. -/
def shaBlock (hs : List Nat) (blk : List Byte) : List Nat :=
  let w := (shaSchedule 64 ((List.range 16).map fun i => be64 (slice blk (8 * i) 8)).reverse).reverse
  let g (i : Nat) : Nat := hs.getD i 0
  let v := (w.zip shaK).foldl shaRound ⟨g 0, g 1, g 2, g 3, g 4, g 5, g 6, g 7⟩
  (hs.zip [v.a, v.b, v.c, v.d, v.e, v.f, v.g, v.h]).map fun e => add64 e.1 e.2

/-- The blocks of a padded message: one per unit of fuel. -/
def shaBlocks : Nat → List Nat → List Byte → List Nat
  | 0, hs, _ => hs
  | n + 1, hs, l => shaBlocks n (shaBlock hs (l.take 128)) (l.drop 128)

/-- SHA-512 of a byte string. -/
def sha512 (l : List Byte) : List Byte :=
  let n := l.length
  let pad := l ++ [0x80#8] ++ zeros ((239 - n % 128) % 128) ++ (leBytes (8 * n) 16).reverse
  (shaBlocks (pad.length / 128) shaH0 pad).flatMap fun w => (leBytes w 8).reverse

end Sys2Proof.Machine
end

