-- ==== Sys2Proof/Machine/Assay.lean ====
section
/-! DEFINITION. Assay (chapter 16): the measurement registers and the log (R462, R463), the attestation quote (R464), the check of an
operational image (R459, R460), the fused SVN (R461), and debug tokens (R466). -/
namespace Sys2Proof.Machine

/-! ## Digests in registers (R468) -/

/-- The bytes of a run of registers. -/
def State.regBytes (s : State) (f : Nat → FieldRef) (n : Nat) : List Byte :=
  (List.range n).flatMap fun i => leBytes (s.rd (f i)) 4

/-- A run of registers written from bytes. -/
def State.setRegBytes (s : State) (f : Nat → FieldRef) (n : Nat) (b : List Byte) : State :=
  (List.range n).foldl (fun s i => s.wr (f i) (leAt b (4 * i) 4)) s

/-- A measurement register. -/
def State.meas (s : State) (m : Nat) : List Byte := s.regBytes (F.asyMeas_bytes m) 16

/-! ## Measurements (R462, R463) -/

/-- A measurement register extended with a digest, and its log entry. The spec gives no value for TYPE and the label. An extension beyond
1,024 entries is refused. -/
def State.extendMeas (s : State) (m : Nat) (x : List Byte) : State :=
  let n := s.asy.log.length
  if n ≥ 1024 then s.wr F.asyStatus_logFull 1 else
  let x := padTo 0#8 64 x
  let (type, s) := s.draw 32
  let (label, s) := s.draw 384
  let e := leBytes type 4 ++ leBytes m 4 ++ leBytes n 8 ++ x ++ leBytes label 48
  let s := { s with asy := { s.asy with log := s.asy.log ++ [e] } }
  (s.setRegBytes (F.asyMeas_bytes m) 16 (sha512 (s.meas m ++ x))).wr F.asyLogCount_count (n + 1)

/-- An accepted routine image (R463). -/
def State.measureRoutine (s : State) (act : Nat) (img : List Byte) : State :=
  if act = 0 then s.extendMeas 2 (sha512 img) else s.extendMeas 3 (sha512 (BitVec.ofNat 8 act :: img))

/-- ASY_CTRL with EXT_GO = 1: EXT_INDEX is extended with ASY_EXT_DATA, for 5 to 7 and while the log has room (R463, R468). -/
def State.extGo (s : State) : State :=
  let m := s.rd F.asyCtrl_extIndex
  if 5 ≤ m ∧ m ≤ 7 ∧ s.asy.log.length < 1024 then s.extendMeas m (s.regBytes F.asyExtData_bytes 16) else s

/-- ASY_CTRL with COMMIT_SVN = 1 (R461, R468). -/
def State.commitSvn (s : State) : State :=
  if s.rd F.asySvn_fused < s.rd F.asySvn_image ∧ s.asy.log.length < 1024 then s.wr F.asySvn_fused (s.rd F.asySvn_image) else s

def execCommitSvn (src : Src) (s : State) : Host.Outcome State Fault Refusal :=
  .next (if s.reaches src then s.commitSvn else s)

/-- The write names the register to extend. -/
def execMeasurementExtGo (src : Src) (index : Nat) (s : State) : Host.Outcome State Fault Refusal :=
  .next (
    if !s.reaches src ∨ index ≥ 8 then s else (s.wr F.asyCtrl_extIndex index).extGo)

/-! ## The quote (R464) -/

/-- The signed part of a quote: bytes 0x000 to 0x2EF of Table 16.7. -/
def State.quoteBody (s : State) (act mask : Nat) (nonce : List Byte) : List Byte :=
  leBytes 0x51554F54 4 ++ leBytes 1 2 ++ leBytes act 1 ++ leBytes mask 1 ++ leBytes (s.reg Reg.glbPartId).toNat 4
    ++ leBytes (s.reg Reg.glbSiliconRev).toNat 4 ++ leBytes (s.rd F.asySvn_fused + 2 ^ 8 * s.rd F.asySvn_image) 4
    ++ leBytes (s.rd F.asyStatus_debugOpened) 4 ++ leBytes s.now 8 ++ padTo 0#8 64 nonce ++ padTo 0#8 136 (Config.idPub.take 133)
    ++ ((List.range 8).flatMap fun m => if bitOf mask m then s.meas m else zeros 64)
    ++ leBytes s.asy.log.length 4 ++ zeros 4

/-- The loader with s1 = 11. Bytes that an argument block shorter than a nonce does not bring are open. -/
def execAttestationQuote (job : Nat) (s : State) : Host.Outcome State Fault Refusal :=
  .next (match s.loaderCall job 11 with
    | none => s
    | some j =>
      let (rest, s) := s.draw 512
      let nonce := (j.data ++ (leBytes rest 64).drop j.data.length).take 64
      let b := s.quoteBody j.act (j.desc.arg 2 % 2 ^ 8) nonce
      let sig := Config.ecdsaSign (sha512 b)
      let q := b ++ padTo 0#8 66 sig.1 ++ padTo 0#8 66 sig.2 ++ zeros 12
      (s.endLoader job 0 0 0 (q ++ s.asy.log.flatten)).count 0xD13 1)

/-! ## Operational images (R459, R460) -/

/-- The first check of Table 16.6 that an image fails, or 0. -/
def State.imageCheck (s : State) (b : List Byte) : Nat :=
  let bodyLen := leAt b 0x00C 4
  let body := slice b 512 bodyLen
  let pub := slice b 0x080 136
  let zero (o n : Nat) : Bool := (slice b o n).all (· == 0#8)
  (firstFail [
    (1, decide (512 ≤ b.length) && leAt b 0 4 == 0x4E594657 && leAt b 4 2 == 1),
    (2, zero 6 2 && zero 0x14 12 && zero 0x105 3 && zero 0x18C 116),
    (3, bodyLen % 64 == 0 && decide (64 ≤ bodyLen ∧ bodyLen ≤ 2 ^ 22) && decide (leAt b 0x10 4 < bodyLen) && decide (512 + bodyLen ≤ b.length)),
    (4, sha512 (pub.take 133) == Config.rootHash),
    (5, decide (s.rd F.asySvn_fused ≤ leAt b 8 4)),
    (6, sha512 body == slice b 0x40 64),
    (7, Config.ecdsaVerify (pub.take 133) (sha512 (b.take 0x108)) (slice b 0x108 66) (slice b 0x14A 66))]).getD 0

/-! ## Debug (R465, R466) -/

/-- A new challenge drawn. -/
def State.newNonce (s : State) : State :=
  let (n, s) := s.random 512
  (List.range 16).foldl (fun s i => s.wr (F.dbgNonce_bytes i) (bits n (32 * i) 32)) s

/-- Whether a token is accepted. DBG_NONCE is held with its reset value taken out of it. -/
def State.tokenOk (s : State) (b : List Byte) : Bool :=
  let nonce := (List.range 16).flatMap fun i => leBytes (s.reg (Reg.dbgNonce i) ^^^ Config.nonce i).toNat 4
  s.rd F.dbgStatus_state != 2 && leAt b 0 4 == 0x4442544B && slice b 8 64 == nonce && slice b 0x48 64 == sha512 (Config.idPub.take 133)
    && sha512 (slice b 0x88 133) == Config.rootHash
    && Config.ecdsaVerify (slice b 0x88 133) (sha512 (b.take 0x110)) (slice b 0x110 66) (slice b 0x152 66)

/-- DBG_CTRL with SUBMIT = 1. -/
def State.submitToken (s : State) : State :=
  let b := (s.regBytes F.dbgToken_bytes 128).take 404
  let s := if s.tokenOk b then
      let s := ((s.wr F.dbgStatus_state 1).wr F.dbgStatus_result 1).wr F.dbgStatus_scope (leAt b 4 4)
      (s.extendMeas 0 (sha512 b)).wr F.asyStatus_debugOpened 1
    else s.wr F.dbgStatus_result 2
  s.newNonce

/-- Debug locked. -/
def State.lockDebug (s : State) : State :=
  if s.rd F.dbgStatus_state = 1 then (s.wr F.dbgStatus_state 0).wr F.dbgStatus_scope 0 else s

def execDebugSubmit (src : Src) (s : State) : Host.Outcome State Fault Refusal :=
  .next (if s.reaches src then s.submitToken else s)

def execDebugClose (src : Src) (s : State) : Host.Outcome State Fault Refusal :=
  .next (if s.reaches src then s.lockDebug else s)

end Sys2Proof.Machine
end

