-- ==== Sys2Proof/Machine/Loader.lean ====
section
/-! DEFINITION. The loader's routine operations and imports: the checks of a routine image (R25 to R27, R76, R77), routine handles (R29,
R30), tile packs (R159, R160), and index installs (R166). -/
namespace Sys2Proof.Machine

/-! ## Routine images (Table 2.1) -/

/-- A routine image header. -/
structure ImageHeader where
  magic : Nat
  major : Nat
  minor : Nat
  words : Nat
  flags : Nat
  smin : Nat
  smax : Nat
  tiles : Nat
  qslots : Nat
  store : Nat
  pool : Nat
  entry : Nat
  crc : Nat
  reserved : Bool
deriving DecidableEq, Repr

/-- The header of an image. -/
def imageHeader (b : List Byte) : ImageHeader where
  magic := leAt b 0 4
  major := leAt b 4 2
  minor := leAt b 6 2
  words := leAt b 8 4
  flags := leAt b 0x0C 4
  smin := leAt b 0x10 1
  smax := leAt b 0x11 1
  tiles := leAt b 0x12 1
  qslots := leAt b 0x13 1
  store := leAt b 0x14 4
  pool := leAt b 0x18 4
  entry := leAt b 0x1C 4
  crc := leAt b 0x20 4
  reserved := (slice b 0x24 28).any (· != 0#8)

/-- Check 3 of R27. -/
def ImageHeader.inRange (h : ImageHeader) : Bool :=
  decide (1 ≤ h.words ∧ h.words ≤ 131072) && decide (h.flags < 4) && decide (1 ≤ h.smin ∧ h.smin ≤ 64)
    && decide (h.smin ≤ h.smax ∧ h.smax ≤ 64) && decide (h.tiles ≤ 32) && decide (h.qslots ≤ 8) && decide (h.store ≤ 2 ^ 23)
    && decide (h.pool ≤ 2 ^ 22) && decide (h.entry < h.words) && !h.reserved

/-! ## Code (R74 to R77) -/

/-- The fields of an instruction word, with its extension words (Table 3.1). -/
def insnOf (w : DWord) (ext : List DWord) : Insn :=
  let n := w.toNat
  { strand := 0, pneg := bitOf n 33, pidx := bits n 30 3, dst := bits n 46 6, a := bits n 40 6, b := bits n 34 6,
    imm := BitVec.ofNat 28 n, ext := ext }

/-- The form of an instruction word, where its class and function are listed. -/
def formOf (w : DWord) : Option Form :=
  Form.all.find? fun f => f.cls == bits w.toNat 59 5 && f.func == bits w.toNat 52 7

/-- Whether a form is one of the instructions that R115's table allows only some formats and shapes: MOV.TALLOC and MOV.TLOADM. -/
def takesTileForm (f : Form) : Bool := f.cls == 2 && (f.func == 5 || f.func == 6)

/-- The instructions of a code section with their word indices, or nothing where one is not valid (R76 items 1 to 4 and 6): one
instruction per unit of fuel. -/
def readCode : Nat → Nat → List DWord → Option (List (Nat × Form × Insn))
  | 0, _, _ => some []
  | n + 1, i, ws =>
    match ws with
    | [] => some []
    | w :: rest =>
      let k := bits w.toNat 28 2
      match formOf w with
      | none => none
      | some f =>
        let o := insnOf w (rest.take k)
        if (rest.take k).length ≠ k ∨ !f.ok o ∨ (takesTileForm f && !o.tileForm) then none
        else (readCode n (i + 1 + k) (rest.drop k)).map fun l => (i, f, o) :: l

/-- The registers of a kind that an instruction names. -/
def namedIn (k : OpKind) (f : Form) (o : Insn) : List Nat :=
  [(f.dst, o.dst), (f.a, o.a), (f.b, o.b)].filterMap fun e => if e.1 = k then some e.2 else none

/-- The query-table slots that an instruction names: directly, or as the lanes of its cage. -/
def slotsNamed (f : Form) (o : Insn) : List Nat :=
  namedIn .q f o ++ (if f.func = 0 ∧ (f.cls = 6 ∨ f.cls = 8) then List.range (o.fld 0 4) else [])

/-- The target of a branch, call or loop (R76 item 5). -/
def jumpTarget (i : Nat) (f : Form) (o : Insn) : Option Int :=
  if f.cls = 0 ∧ (f.func = 1 ∨ f.func = 2 ∨ f.func = 4) then some ((i : Int) + o.imm.toInt) else none

/-- Whether an instruction may end a code section (R77). -/
def endsCode (f : Form) (o : Insn) : Bool :=
  f.cls == 0 && (f.func == 5 || f.func == 1 || f.func == 3) && o.pidx == 0 && !o.pneg

/-- Whether an instruction lies outside the determinism contract in an image: those that R66 and the class tables mark out, and those that
are out unless s0 is their destination. -/
def outside (f : Form) (o : Insn) : Bool :=
  let is (c fn : Nat) : Bool := f.cls == c && f.func == fn
  [Form.tblVer, Form.talNow, Form.talStable, Form.talSub, Form.sysRreg, Form.sysTelem].any (fun g => is g.cls g.func)
    || ([Form.idxAppend, Form.idxAppendx, Form.idxDelete, Form.carAtom, Form.adtWrite].any (fun g => is g.cls g.func) && o.dst != 0)

/-- The words of a code section. -/
def codeWords (b : List Byte) : Nat → List DWord
  | 0 => []
  | n + 1 => BitVec.ofNat 64 (leNat (b.take 8)) :: codeWords (b.drop 8) n

/-- Check 4 of R27 over a code section and its instructions. -/
def codeOk (h : ImageHeader) (is : List (Nat × Form × Insn)) : Bool :=
  let firsts := is.map (·.1)
  firsts.contains h.entry
    && is.all (fun e =>
      (namedIn .t e.2.1 e.2.2).all (fun n => decide (n < h.tiles)) && (slotsNamed e.2.1 e.2.2).all (fun n => decide (n < h.qslots))
        && (match jumpTarget e.1 e.2.1 e.2.2 with
          | some t => decide (0 ≤ t) && firsts.contains t.toNat
          | none => true))
    && (match is.getLast? with
      | some e => endsCode e.2.1 e.2.2
      | none => false)

/-- The first check of R27 that an image fails, up to check 6, or 0. -/
def State.imageFault (s : State) (act : Nat) (b : List Byte) : Nat :=
  let h := imageHeader b
  let ws := codeWords (b.drop 64) h.words
  let priv := bitOf h.flags 0
  if b.length < 64 ∨ b.length ≠ 64 + 8 * h.words + h.pool ∨ h.magic ≠ 0x46494C58
    ∨ h.crc ≠ crc32c (overlay b 0x20 (zeros 4)) then 1
  else if h.major ≠ 1 ∨ s.rd F.glbFilauxVer_minor < h.minor then 2
  else if !h.inRange then 3
  else
    match readCode ws.length 0 ws with
    | none => 4
    | some is =>
      if !codeOk h is then 4
      else if (!priv && is.any fun e => e.2.1.cls == 0xF) || (priv && act != 0) then 5
      else if bitOf h.flags 1 && is.any (fun e => outside e.2.1 e.2.2) then 6 else 0

/-- A routine handle for an act: not zero, and unlike its live ones (R29). -/
def State.newHandle (s : State) (act : Nat) : Nat × State :=
  let used := (s.fil.routines.filter (·.act == act)).map (·.handle)
  let (k, s) := s.draw 32
  (firstUnused (fun n => n % 2 ^ 32 == 0 || used.contains (n % 2 ^ 32)) k (used.length + 2) % 2 ^ 32, s)

/-- Check 7 of R27 and the charge: the addresses of the native code and the constant pool, or nothing. -/
def State.chargeRoutine (s : State) (act handle native pool : Nat) : Option (Nat × State) :=
  if (s.fil.routines.filter (·.act == act)).length ≥ 256 then none else
  match s.allocPool act native (.native act handle) with
  | (none, _) => none
  | (some _, s) =>
    if pool = 0 then some (0, s) else
    match s.allocPool act pool (.pool act handle) with
    | (none, _) => none
    | (some a, s) => some (a, s)

/-- Whether a refused charge had the quota and lacked only pool space (R27 check 7). -/
def State.poolShort (s : State) (act native pool : Nat) : Bool :=
  let n := roundUp (max native 1) 512 + roundUp pool 512
  decide ((s.fil.routines.filter (·.act == act)).length < 256)
    && (State.makeRoom act n false s.idx.caches.length s).quotaFits act n false

/-- The loader with s1 = 0: a routine image is checked, lowered, charged and measured. -/
def execLoadRoutine (job : Nat) (s : State) : Host.Outcome State Fault Refusal :=
  .next (match s.loaderCall job 0 with
    | none => s
    | some j =>
      let b := padTo 0#8 (if j.desc.arg 2 = 0 then j.desc.argLen else j.desc.arg 3) j.data
      let n := s.imageFault j.act b
      if n ≠ 0 then s.endLoader job 0x61 n 0 [] else
      let h := imageHeader b
      let native := Config.nativeBytes b
      let (handle, s1) := s.newHandle j.act
      match s1.chargeRoutine j.act handle native h.pool with
      | none =>
        let s := if s.poolShort j.act native h.pool then s.wr F.memStatus_poolFull 1 else s
        s.endLoader job 0x61 7 0 []
      | some (pool, s) =>
        let s := s.writeMem 0 pool (b.drop (64 + 8 * h.words))
        let r : Routine := {
          act := j.act, handle := handle, priv := bitOf h.flags 0, det := bitOf h.flags 1, smin := h.smin, smax := h.smax,
          tiles := h.tiles, qslots := h.qslots, store := h.store, entry := h.entry, code := codeWords (b.drop 64) h.words,
          poolAddr := pool, poolLen := h.pool, unloaded := false }
        let s := { s with fil := { s.fil with routines := s.fil.routines ++ [r] } }
        (s.measureRoutine j.act b).endLoader job 0 0 handle [])

/-- The loader with s1 = 1: later jobs that name the handle are refused. -/
def execUnloadRoutine (job : Nat) (s : State) : Host.Outcome State Fault Refusal :=
  .next (match s.loaderCall job 1 with
    | none => s
    | some j =>
      let mine (r : Routine) : Bool := r.act == j.act && r.handle == j.desc.arg 2 && !r.unloaded
      if !s.fil.routines.any mine then s.endLoader job 0x61 0x16 0 [] else
      let s := { s with fil := { s.fil with routines := updWhere mine (fun r => { r with unloaded := true }) s.fil.routines } }
      s.endLoader job 0 0 0 [])

/-- Whether a job was refused because its act held no such routine (Table 15.4). -/
def Job.noRoutine (j : Job) : Bool := j.status == 0x60 && j.detail == 2

/-- An unloaded routine's space released, once every job that named it before the unload has completed: a job that was refused for its handle
named none (R30). -/
def execRoutineRelease (act handle : Nat) (s : State) : Host.Outcome State Fault Refusal :=
  .next (
    let mine (r : Routine) : Bool := r.act == act && r.handle == handle && r.unloaded
    if !s.fil.routines.any mine || s.fil.jobs.any (fun j => j.act == act && j.desc.routine == handle && !j.noRoutine) then s else
    let s := { s with fil := { s.fil with routines := s.fil.routines.filter (!mine ·) } }
    s.dropAlloc fun k => k == .native act handle || k == .pool act handle)

/-- A loader call of an operation that is not in Table 2.1a. -/
def execLoaderUnknownOperation (job : Nat) (s : State) : Host.Outcome State Fault Refusal :=
  .next (match s.job? job with
    | none => s
    | some j =>
      let op := j.desc.arg 1
      if (op = 4 ∨ 13 ≤ op) ∧ (s.loaderCall job op).isSome then s.endLoader job 0x61 0x15 0 [] else s)

/-! ## Tile packs (R159, R160) -/

/-- A record of a tile pack (Table 5.6). -/
structure PackRecord where
  name : Nat
  fmt : Nat
  shape : Nat
  bs : Nat
  axis : Nat
  tscale : Nat
  crc : Nat
  sectors : Nat
  reserved : Bool
  scales : List Byte
  data : List Byte
deriving DecidableEq, Repr

/-- The records of a pack, and nothing where they do not fill it exactly. -/
def readPack : Nat → List Byte → Option (List PackRecord)
  | 0, b => if b.isEmpty then some [] else none
  | n + 1, b =>
    let sc := leAt b 0x16 2
    let pad := roundUp sc 8
    let sectors := leAt b 0x14 2
    let len := if sectors = 0 then 4096 else sectors * 512
    if b.length < 32 + pad + len then none else
    let r : PackRecord := {
      name := leAt b 0 8, fmt := leAt b 8 1, shape := leAt b 9 1, bs := leAt b 0x0A 1, axis := leAt b 0x0B 1,
      tscale := leAt b 0x0C 4, crc := leAt b 0x10 4, sectors := sectors,
      reserved := decide (2 ^ 48 ≤ leAt b 0 8) || (slice b 0x18 8).any (· != 0#8) || (slice b (32 + sc) (pad - sc)).any (· != 0#8),
      scales := slice b 32 sc, data := slice b (32 + pad) len }
    (readPack n (b.drop (32 + pad + len))).map (r :: ·)

/-- Whether a record's name, format, shape and sideband are ones that a tile can have (Table 5.6, R114, R116). -/
def PackRecord.shaped (r : PackRecord) : Bool :=
  bitOf r.name 47 && decide (r.fmt ≤ 6 ∧ r.shape ≤ 6 ∧ r.sectors ≤ 7)
    && (if isScaled r.fmt then
        decide (r.bs ≤ 3 ∧ r.axis ≤ 1) && r.scales.length == blockCount r.fmt r.shape r.bs r.axis && !r.scales.contains 0xFF#8
      else r.bs == 0 && r.axis == 0 && r.tscale == one32 && r.scales.isEmpty)

/-- The tile that a record makes, with its home. -/
def PackRecord.tile (r : PackRecord) (id act home now : Nat) : Tile where
  id := id
  act := act
  names := [r.name]
  fmt := r.fmt
  shape := r.shape
  packed := r.sectors != 0
  tscale := r.tscale
  bs := r.bs
  axis := r.axis
  scales := r.scales
  crc := r.crc
  home := home
  len := r.data.length
  pref := 0
  info := none
  lastRead := now
  hewRead := []
  dropping := false

/-- The tiles of a pack created in the pool, one after the other: false where one does not fit. -/
def State.importAll (s : State) (act : Nat) : List PackRecord → Bool × State
  | [] => (true, s)
  | r :: t =>
    let id := s.nextId
    match s.fresh.allocPool act r.data.length (.tile id) with
    | (none, s) => (false, s)
    | (some a, s) =>
      let s := s.writeMem 0 a r.data
      State.importAll { s with fil := { s.fil with tiles := s.fil.tiles ++ [r.tile id act a s.now] } } act t

/-- What is left of charges that were made up to one that did not fit: the cache copies dropped, and MEM_STATUS.POOL_FULL (R292,
Table 10.1). -/
def State.undone (s t : State) : State :=
  let s := { s with
    idx := { s.idx with caches := t.idx.caches }
    telem := t.telem
    fil := { s.fil with allocs := s.fil.allocs.filter fun a => t.fil.allocs.contains a } }
  if t.on F.memStatus_poolFull then s.wr F.memStatus_poolFull 1 else s

/-- Why R160 refuses a pack: its DETAIL, or 0. Records that do not fill the pack count as a wrong header (0x20), and STREAM_SECTORS or
sideband fields outside Table 5.6 as a broken record (0x22), which R160 does not say (DESIGN CHOICE, log 151). -/
def State.packFault (s : State) (act : Nat) (b : List Byte) (rs : Option (List PackRecord)) : Nat :=
  let n := leAt b 4 4
  match rs with
  | none => 0x20
  | some rs =>
    if b.length < 64 ∨ 2 ^ 42 ≤ b.length ∨ leAt b 0 4 ≠ 0x4B435054 ∨ n = 0 ∨ 2 ^ 24 < n ∨ leAt b 8 4 ≠ crc32c (b.drop 64) then 0x20
    else if (slice b 12 52).any (· != 0#8) || rs.any (·.reserved) then 0x21
    else if !rs.all (·.shaped) then 0x22
    else
      match rs.findSome? fun r => if r.sectors = 0 then none else
          (match decodeStream false r.sectors r.data with
          | .inl c => some c
          | .inr _ => none) with
      | some c => c
      | none =>
        let names := rs.map (·.name)
        if names.eraseDups.length ≠ names.length ∨ names.any (fun x => (s.tileNamed act x).isSome) then 0x23 else 0

/-- The loader with s1 = 2: every tile of a pack, or none. -/
def execImportTilePack (job : Nat) (s : State) : Host.Outcome State Fault Refusal :=
  .next (match s.loaderCall job 2 with
    | none => s
    | some j =>
      let b := padTo 0#8 (j.desc.arg 3) j.data
      let rs := readPack (leAt b 4 4) (b.drop 64)
      let n := s.packFault j.act b rs
      let (c, s) := if n = 0 && (rs.getD []).any (·.sectors != 0) then s.spoilt 4 else (none, s)
      let n := c.getD n
      if n ≠ 0 then (if n ≤ 12 then s.damage n 4 j.act 0 else s).endLoader job 0x40 n 0 [] else
      match s.importAll j.act (rs.getD []) with
      | (false, t) => (s.undone t).endLoader job 0x21 0 0 []
      | (true, s) => s.endLoader job 0 0 0 [])

/-! ## Index installs (R166) -/

/-- The loader with s1 = 3: an accepted image is measured in ASY_MEAS4 (R463). -/
def execInstallIndex (job : Nat) (s : State) : Host.Outcome State Fault Refusal :=
  .next (match s.loaderCall job 3 with
    | none => s
    | some j =>
      let img := padTo 0#8 (j.desc.arg 3) j.data
      match s.acceptInstall j.act j.pickup img with
      | none => s.endLoader job 0x61 0x10 0 []
      | some t => (t.extendMeas 4 (sha512 img)).endLoader job 0 0 0 [])

end Sys2Proof.Machine
end

