-- ==== Sys2Proof/Machine/Sparing.lean ====
section
/-! DEFINITION. The upkeep of the memories and crews: quotas and the pool boundary (R286, R287, R300), scrubbing (R306), row and channel
sparing (R308 to R310), the flip mask's arming (R311), and the sparing of hewers and control cores (R130, R131, R135). -/
namespace Sys2Proof.Machine

/-! ## Quotas and the pool (R287, R300) -/

/-- Droppable cache copies of an act dropped, oldest first, until its usage is inside both quotas: at most one per unit of fuel. -/
def State.trimCaches (act : Nat) : Nat → State → State
  | 0, s => s
  | n + 1, s =>
    if s.cacheUse act ≤ s.rd (F.memQCache_kib act) * 1024 ∧ s.stackUse act ≤ s.rd (F.memQStack_kib act) * 1024 then s
    else State.trimCaches act n (s.dropCache act)

/-- What follows a quota write: cache copies dropped, and crew tiles demoted. -/
def State.applyQuotas (s : State) (act : Nat) : State :=
  (List.range 16).foldl (fun s c => s.tierManage act c) (State.trimCaches act s.idx.caches.length s)

/-- The register of a quota: 0 STACK, 1 EXPAND, 2 CREW, 3 CACHE. -/
def quotaReg (act kind : Nat) : Nat := [Reg.memQStack act, Reg.memQExpand act, Reg.memQCrew act, Reg.memQCache act].getD kind 0

def execQuotaWrite (src : Src) (act kind word : Nat) (s : State) : Host.Outcome State Fault Refusal :=
  .next (if s.reaches src && decide (act < 16) && decide (kind < 4) then (s.storeWord (quotaReg act kind) word).applyQuotas act else s)

/-- The jobs of an act that are held or running (Table 2.11). -/
def State.liveJobs (s : State) (act : Nat) : List Job := s.fil.jobs.filter fun j => j.act == act && j.phase != .ended

/-- Whether a pool boundary may be moved to G (R287). -/
def State.poolMayBe (s : State) (g : Nat) : Bool :=
  ((List.range 15).all fun a => !s.on (F.actCtrl_enable (a + 1)) && (s.liveJobs (a + 1)).isEmpty)
    && s.fil.allocs.all fun a => !a.pooled || decide ((128 - g) * 2 ^ 30 ≤ (a.addr - stackView) % stackLen)

/-- A write of MEM_POOL: one that fails a condition is refused, and a value out of range changes nothing (R313). -/
def State.writePool (s : State) (g : Nat) : State :=
  if !s.poolMayBe g then s.wr F.memStatus_poolRefused 1 else if 128 < g then s else s.wr F.memPool_gib g

def execMemPoolWrite (src : Src) (gib : Nat) (s : State) : Host.Outcome State Fault Refusal :=
  .next (if s.reaches src then s.writePool (gib % 256) else s)

/-! ## Blocks -/

/-- Block `i` of a stack's channel, in the order of the channel's own bytes (R45). -/
def chanBlock (st ch i : Nat) : Nat := (stackAddr st (i / 4 * 8192 + ch * 256 + i % 4 * 64)) / 64

/-- The blocks of a row (R308). -/
def RowId.blocks (r : RowId) : List Nat :=
  if r.kind = 0 then (List.range 32).map fun i => chanBlock r.unit r.sub (r.row * 32 + i)
  else (List.range 4).map fun i => (crewAddr r.unit (r.sub * 2 ^ 20 + r.row * 256 + i * 64)) / 64

/-! ## Scrubbing (R306) -/

/-- A scrub round at the beat of its start: each channel's and each crew store's share of the period, in order. -/
def State.scrub (s : State) : State :=
  let p := s.rd F.memScrub_pStack
  let q := s.rd F.memScrub_qSram
  let n := 2 ^ (38 - p)
  let m := ceilDiv 786432 (2 ^ (q - 12))
  let i := s.now % 2 ^ p / 4096
  let k := s.now % 2 ^ q / 4096
  let stack := (List.range (24 * 32)).flatMap fun sc => (List.range n).map fun j => chanBlock (sc / 32) (sc % 32) (i * n + j)
  let sram := (List.range 16).flatMap fun c =>
    ((List.range m).filter fun j => decide (k * m + j < 786432)).map fun j => (crewAddr c 0) / 64 + k * m + j
  let s := (stack ++ sram).foldl (fun s b => s.scrubBlock b) s
  if (s.now + 4096) % 2 ^ p = 0 then s.count 0x703 1 else s

def execScrubRound (s : State) : Host.Outcome State Fault Refusal :=
  .next (if s.now % 4096 = 0 ∧ s.on F.memCtrl_scrubEn then s.scrub.fired 1 else s)

/-! ## Rows (R308) -/

/-- A retired row counted in its registers, and in its channel's period (R483). -/
def State.countRetired (s : State) (r : RowId) : State :=
  let s := s.count 0x702 1
  if r.kind = 0 then
    let s := (s.bump F.memRowsRetired_stack 1).wr (F.memStackStatus_rowSparesMin r.unit) (s.rowSparesMin 0 r.unit)
    let k := r.unit * 32 + r.sub
    { s with mem := { s.mem with period := kvSet 0 s.mem.period k (kvGet 0 s.mem.period k + 1) } }
  else
    ((s.bump F.memRowsRetired_sram 1).wr (F.memCrewStatus_rowSparesMin r.unit) (s.rowSparesMin 1 r.unit)).bump
      (F.memCrewStatus_retired r.unit) 1

/-- A row's copy is complete: it is served from its spare. -/
def execRowRetireFlip (kind unit sub index : Nat) (s : State) : Host.Outcome State Fault Refusal :=
  .next (
    let row : RowId := ⟨kind, unit, sub, index⟩
    if !s.mem.retiring.contains row then s else
    let s := row.blocks.foldl (fun s b => s.rewrite 3 true b) s
    let m := s.mem
    let s := { s with mem := { m with
      retiring := m.retiring.filter (· != row), retired := row :: m.retired, hits := m.hits.filter (·.row != row) } }
    s.countRetired row)

/-- A period's boundary: the hits of its rows are cleared. -/
def execHitPeriodBoundary (s : State) : Host.Outcome State Fault Refusal :=
  .next (
    let p := s.now % 2 ^ s.rd F.memScrub_pStack = 0
    let q := s.now % 2 ^ s.rd F.memScrub_qSram = 0
    let m := s.mem
    { s with mem := { m with
      hits := m.hits.filter fun h => !((decide p && h.row.kind == 0) || (decide q && h.row.kind == 1))
      period := if p then [] else m.period } })

/-! ## Channels (R309, R310) -/

/-- Whether a block lies in a channel. -/
def inChan (st ch blk : Nat) : Bool := blockChan blk == some (st, ch)

/-- The blocks of a stack whose lost-map bit is set. -/
def MemSt.lostBlocks (m : MemSt) (st : Nat) : Nat :=
  let one (ch : Nat) : Nat :=
    let x := (m.lostX.filter fun e => inChan st ch e.1).length
    if m.lostCh.contains (st, ch) then 2 ^ 26 - x else x
  ((List.range 32).map one).sum

/-- Whether a stack takes a sparing request (R309). -/
def State.mayspare (s : State) (st ch : Nat) : Bool :=
  decide (st < 24) && decide (ch < 32) && decide (0 < s.rd (F.memStackStatus_sparesLeft st)) && !s.mem.copies.any (·.1 == st)

/-- The next spare channel of a stack takes a logical channel. -/
def State.takeSpare (s : State) (st ch : Nat) : State :=
  let left := s.rd (F.memStackStatus_sparesLeft st)
  let s := s.wr (F.memStackStatus_sparesLeft st) (left - 1)
  if left = 2 then (s.wr (F.memStackSub_sub0 st) ch).wr (F.memStackSub_sub0Valid st) 1
  else
    let s := if s.on (F.memStackSub_sub0Valid st) ∧ s.rd (F.memStackSub_sub0 st) = ch then s.wr (F.memStackSub_sub0Valid st) 0 else s
    (s.wr (F.memStackSub_sub1 st) ch).wr (F.memStackSub_sub1Valid st) 1

/-- MEM_SPARE in copy mode: the copy begins. -/
def State.spareCopy (s : State) (st ch : Nat) : State :=
  if !s.mayspare st ch then s else
  let s := { s with mem := { s.mem with copies := s.mem.copies ++ [(st, ch)] } }
  ((s.wr F.memStatus_copying 1).wr (F.memStackStatus_copying st) 1).wr (F.memStackStatus_copyCh st) ch

/-- MEM_SPARE in dead mode: the spare takes the channel at once, with every lost-map bit set. -/
def State.spareDead (s : State) (st ch : Nat) : State :=
  if !s.mayspare st ch then s else
  let s := s.takeSpare st ch
  let m := s.mem
  { s with mem := { m with
    syn := m.syn.filter fun e => !inChan st ch e.1
    lostX := m.lostX.filter fun e => !inChan st ch e.1
    lostCh := if m.lostCh.contains (st, ch) then m.lostCh else m.lostCh ++ [(st, ch)] } }

def execMemSpareCopy (src : Src) (stack chan : Nat) (s : State) : Host.Outcome State Fault Refusal :=
  .next (if s.reaches src then s.spareCopy stack chan else s)

def execMemSpareDead (src : Src) (stack chan : Nat) (s : State) : Host.Outcome State Fault Refusal :=
  .next (if s.reaches src then s.spareDead stack chan else s)

/-- The blocks of a channel that the lost map names and no stored error marks: how many, and the lowest. -/
def MemSt.lostOnly (m : MemSt) (st ch : Nat) : Nat × Option Nat :=
  let x := (m.lostX.map (·.1)).filter (inChan st ch)
  let stored := ((m.syn.map (·.1)).filter (inChan st ch)).filter m.lost
  if m.lostCh.contains (st, ch) then
    (2 ^ 26 - x.length - stored.length,
      ((List.range (x.length + stored.length + 1)).map (chanBlock st ch)).find? fun b => m.lost b && !stored.contains b)
  else
    let only := x.filter (!stored.contains ·)
    (only.length, only.head?)

/-- A channel copy is complete: blocks with stored errors are copied as a scrub would store them, those of the lost map stay lost, and the
mapping flips. Every block that cannot be read counts (R302). -/
def execChannelSpareFlip (stack : Nat) (s : State) : Host.Outcome State Fault Refusal :=
  .next (match s.mem.copies.find? (·.1 == stack) with
    | none => s
    | some (_, ch) =>
      let (n, low) := s.mem.lostOnly stack ch
      let s := ((s.mem.syn.map (·.1)).filter (inChan stack ch)).foldl (fun s b => s.rewrite 3 true b) s
      let s := match low with
        | some b => ((s.bump F.memUncorrCount_count n).count 0x701 n).logMem 3 b true 0 0
        | none => s
      let s := { s with mem := { s.mem with copies := s.mem.copies.filter (·.1 != stack) } }
      let s := s.takeSpare stack ch
      let s := (s.wr (F.memStackStatus_copying stack) 0).wr (F.memStackStatus_copyCh stack) 0
      s.wr F.memStatus_copying (b2n (!s.mem.copies.isEmpty)))

/-- A channel fails with no spare left: it is dead. -/
def execChannelFailure (stack chan : Nat) (s : State) : Host.Outcome State Fault Refusal :=
  .next (
    if stack ≥ 24 ∨ chan ≥ 32 ∨ 0 < s.rd (F.memStackStatus_sparesLeft stack) ∨ s.mem.deadCh.contains (stack, chan) then s else
    let low := if s.on (F.memStackStatus_dead stack) then min chan (s.rd (F.memStackStatus_deadCh stack)) else chan
    let s := { s with mem := { s.mem with deadCh := s.mem.deadCh ++ [(stack, chan)] } }
    ((s.wr (F.memStackStatus_dead stack) 1).wr (F.memStackStatus_deadCh stack) low).wr F.memStatus_channelDead 1)

/-! ## The flip mask (R311) -/

/-- A write of MEM_FLIP_CTRL: a reserved KIND leaves ARM at 0, and a UNIT that the kind does not have leaves UNIT unchanged. -/
def State.writeFlipCtrl (s : State) (word : Nat) : State :=
  let unit := s.rd F.memFlipCtrl_unit
  let kind := bits word 1 2
  let t := s.storeWord Reg.memFlipCtrl word
  let t := if bits word 3 5 < (if t.rd F.memFlipCtrl_kind = 0 then 24 else 16) then t else t.wr F.memFlipCtrl_unit unit
  if kind = 3 ∧ bitOf word 0 then t.wr F.memFlipCtrl_arm 0 else t

def execFlipMaskArm (src : Src) (word : Nat) (s : State) : Host.Outcome State Fault Refusal :=
  .next (if s.reaches src then s.writeFlipCtrl (putBits word 0 1 1) else s)

/-! ## Hewers and control cores (R130, R131, R135) -/

/-- CREW_STATUS counts what is enabled and has not failed; without a usable hewer or control core the crew is not available to slices. -/
def State.countUnits (s : State) (c : Nat) : State :=
  let h := s.rd (F.crewHewMap_enabled c)
  let k := s.rd (F.crewCoreMap_enabled c)
  let hews := popcount (h - (h &&& s.rd (F.crewHewFailed_failed c))) 13
  let cores := popcount (k - (k &&& s.rd (F.crewCoreMap_failed c))) 5
  ((s.wr (F.crewStatus_hewers c) hews).wr (F.crewStatus_cores c) cores).wr (F.crewStatus_online c) (b2n (hews != 0 && cores != 0))

/-- CREW_SPARE with HEW_GO = 1: a hewer retired, and the spare enabled. Instructions in flight keep their results (R130). -/
def State.spareHewer (s : State) (c h : Nat) : State :=
  let m := s.rd (F.crewHewMap_enabled c)
  if h > 12 ∨ c ≥ 16 ∨ !bitOf m h ∨ s.on (F.crewStatus_hewSpareUsed c) then s else
  ((s.wr (F.crewHewMap_enabled c) (m - 2 ^ h + 2 ^ 12)).wr (F.crewStatus_hewSpareUsed c) 1).countUnits c

/-- CREW_SPARE with CORE_GO = 1: a control core retired, and the spare enabled. Its strand goes on there. -/
def State.spareCore (s : State) (c k : Nat) : State :=
  let m := s.rd (F.crewCoreMap_enabled c)
  if k > 4 ∨ c ≥ 16 ∨ !bitOf m k ∨ s.on (F.crewStatus_coreSpareUsed c) then s else
  let s := ((s.wr (F.crewCoreMap_enabled c) (m - 2 ^ k + 2 ^ 4)).wr (F.crewStatus_coreSpareUsed c) 1).countUnits c
  ({ s with fil := { s.fil with
      strands := updWhere (fun t => t.crew == c && t.core == k) (fun t => { t with core := 4 }) s.fil.strands } }).tryStarts

def execCrewHewerSpare (src : Src) (crew hewer : Nat) (s : State) : Host.Outcome State Fault Refusal :=
  .next (if s.reaches src then s.spareHewer crew hewer else s)

def execCrewCoreSpare (src : Src) (crew core : Nat) (s : State) : Host.Outcome State Fault Refusal :=
  .next (if s.reaches src then s.spareCore crew core else s)

/-- A hewer fails: it is marked, and without a spare left it goes out of service. What it had in flight is done on another hewer. -/
def State.failHewer (s : State) (c h : Nat) : State :=
  let m := s.rd (F.crewHewMap_enabled c)
  let f := s.rd (F.crewHewFailed_failed c)
  if c ≥ 16 ∨ h > 12 ∨ !bitOf m h ∨ bitOf f h then s else
  let s := s.wr (F.crewHewFailed_failed c) (f + 2 ^ h)
  (if s.on (F.crewStatus_hewSpareUsed c) then s.wr (F.crewHewMap_enabled c) (m - 2 ^ h) else s).countUnits c

def execHewerFailure (crew hewer : Nat) (s : State) : Host.Outcome State Fault Refusal := .next (s.failHewer crew hewer)

/-- A control core fails. Without a spare left the crew's usable cores fall, and the jobs that ran there end: the spec names no status for
them. -/
def State.failCore (s : State) (c k : Nat) : State :=
  let m := s.rd (F.crewCoreMap_enabled c)
  let f := s.rd (F.crewCoreMap_failed c)
  if c ≥ 16 ∨ k > 4 ∨ !bitOf m k ∨ bitOf f k then s else
  let s := s.wr (F.crewCoreMap_failed c) (f + 2 ^ k)
  if !s.on (F.crewStatus_coreSpareUsed c) then s.countUnits c else
  let s := (s.wr (F.crewCoreMap_enabled c) (m - 2 ^ k)).countUnits c
  let jobs := ((s.fil.strands.filter fun t => t.crew == c && t.core == k && !t.ended).map (·.job)).eraseDups
  jobs.foldl (fun s j =>
    let (st, s) := s.draw 16
    let (dt, s) := s.draw 8
    s.failJob j st dt) s

def execControlCoreFailure (crew core : Nat) (s : State) : Host.Outcome State Fault Refusal := .next (s.failCore crew core)

end Sys2Proof.Machine
end

