-- ==== Sys2Proof/Machine/Host.lean ====
section
/-! DEFINITION. The PCIe side (chapter 15): the link (R418), the functions (R420), the BAR2 aperture (R423 to R425), PERST_N (R453) and Ost
service mode (R439, R440); and the glitch filters of the input pins (R485, R498). -/
namespace Sys2Proof.Machine

/-! ## Input pins (R485, R498) -/

/-- An input that has held its raw level for `held` ns: a shorter pulse than the filter's width is ignored and counted. -/
def State.filtered (s : State) (held : Nat) (f : State → State) : State :=
  if held < s.rd F.rstFilter_width then s.count 0xE05 1 else f s

/-- A change of HOLDUP_OK that passes the filter: hold-up is short while it is low (R336). -/
def execHoldupChange (low : Bool) (held : Nat) (s : State) : Host.Outcome State Fault Refusal :=
  .next (s.filtered held fun s => ((s.modFlash fun f => { f with pinShort := low }).wr F.funInputs_holdupLow (b2n low)).adtRefresh)

/-! ## The link and the functions -/

/-- The link trains with a partner that supports a rate, a width and flit mode: the rate within MAX_SPEED. Without a partner it is down. -/
def execLinkRetrain (speed width : Nat) (flit : Bool) (s : State) : Host.Outcome State Fault Refusal :=
  .next (
    if s.on F.funInputs_perstAsserted then s else
    let r := min speed (s.rd F.hifLinkCtrl_maxSpeed)
    let up := decide (5 ≤ r) && [1, 2, 4].contains width
    let s := (s.wr F.hifLinkStatus_speed (if up then r else 0)).wr F.hifLinkStatus_width (if up then width else 0)
    (s.wr F.hifLinkStatus_flit (b2n (up && (decide (6 ≤ r) || flit)))).wr F.hifLinkStatus_dlUp (b2n up))

/-- A virtual function enabled or disabled in its SR-IOV capability. -/
def execVfEnable (f : Nat) (enable : Bool) (s : State) : Host.Outcome State Fault Refusal :=
  .next (
    if f = 0 ∨ f ≥ 16 ∨ s.on F.funInputs_perstAsserted then s
    else s.wr ⟨F.hifVfStatus_enabled.off, f, 1⟩ (b2n enable))

/-! ## BAR2 -/

/-- What refuses an access of a function to node memory (R424): KIND 2 before KIND 0. -/
def State.bar2Refused (s : State) (fn : Nat) (r : Right) (a n : Nat) : Option Nat :=
  let pts := probePoints a n
  let space (x : Nat) : Bool := match physOf x with
    | some p => s.inPool p
    | none => true
  let right (x : Nat) : Bool := match physOf x with
    | some p => s.regionGrants fn r p
    | none => false
  if pts.any space then some 2 else if fn ≠ 0 ∧ !pts.all right then some 0 else none

/-- The node address of a byte of a function's BAR2. -/
def State.bar2At (s : State) (fn x : Nat) : Nat := s.rd (F.hifFnBar2_gib fn) * 2 ^ 30 + x

/-- A refused access logged and counted. -/
def State.refuseBar2 (s : State) (kind fn : Nat) (write : Bool) (a : Nat) : State := (s.logBar2 kind fn write a).count 0xC22 1

def execBar2Read (fn x len : Nat) (s : State) : Host.Outcome State Fault Refusal :=
  .next (
    if fn ≥ 16 ∨ !s.fnOn fn ∨ !s.on (F.hifFnBar2_enable fn) then s.emit (.completion fn cplUr []) else
    let a := s.bar2At fn x
    match s.bar2Refused fn .read a len with
    | some k => (s.refuseBar2 k fn false a).emit (.completion fn cplUr [])
    | none =>
      if (s.holder false a len).isSome then
        ({ s with host := { s.host with reads := s.host.reads ++ [(fn, a, len)] } }).countHold false a len
      else s.serveRead fn a len)

def execBar2Write (fn x : Nat) (data : List Byte) (s : State) : Host.Outcome State Fault Refusal :=
  .next (
    if fn ≥ 16 ∨ !s.fnOn fn ∨ !s.on (F.hifFnBar2_enable fn) then s else
    let a := s.bar2At fn x
    match s.bar2Refused fn .write a data.length with
    | some k => s.refuseBar2 k fn true a
    | none => s.ordWrite a data)

/-! ## PERST_N (R453) -/

/-- Every ring disabled: what was not picked up is not, and what was picked up ends without a result or a completion. -/
def State.disableRings (s : State) : State :=
  let s := (List.range 64).foldl (fun s n => s.wr (F.ringCtrl_enable (n / 4) (n % 4)) 0) s
  let s := { s with host := { s.host with
    rings := s.host.rings.map (fun (r : Ring) => if r.ring < 4 then { r with fetching := [], notify := 0, message := none } else r) } }
  { s with fil := { s.fil with
    jobs := (s.fil.jobs.filter fun j => j.ring == 4 || j.phase != .ended).map (fun (j : Job) =>
      if j.ring = 4 then j else { j with discard := true }) } }

/-- The link and the configuration space of every function reset. -/
def State.perst (s : State) : State :=
  let s := (s.wr F.funInputs_perstAsserted 1).disableRings
  let s := { s with host := { s.host with mute := true, reads := [] } }
  let s := s.modRgm fun r => { r with units := r.units.filter (·.chan != 42), waiting := r.waiting.filter (·.chan != 42) }
  let s := (s.wr F.hifVfStatus_enabled 0).wr F.hifLinkStatus_speed 0
  ((s.wr F.hifLinkStatus_width 0).wr F.hifLinkStatus_flit 0).wr F.hifLinkStatus_dlUp 0

def execPerstAssert (held : Nat) (s : State) : Host.Outcome State Fault Refusal := .next (s.filtered held State.perst)

def execPerstDeassert (held : Nat) (s : State) : Host.Outcome State Fault Refusal :=
  .next (s.filtered held fun s => s.wr F.funInputs_perstAsserted 0)

/-! ## Ost service mode (R439, R440) -/

/-- Whether an act has no job, running or held. -/
def State.actIdle (s : State) (act : Nat) : Bool := (s.liveJobs act).isEmpty

/-- HIF_OST_CTRL.ENABLE = 1. -/
def State.enterOst (s : State) : State :=
  let off := (List.range 15).all fun a => !s.on (F.actCtrl_enable (a + 1))
  let named := s.fil.routines.any fun r => r.act == 0 && !r.unloaded && r.handle == s.rd F.hifOstRoutine_handle
  if off && s.actIdle 0 && named then (s.wr F.hifOstCtrl_enable 1).wr F.hifOstCtrl_active 1 else s

/-- The mode ends once act 0 is idle. -/
def State.exitOst (s : State) : State :=
  if !s.on F.hifOstCtrl_enable && s.actIdle 0 then s.wr F.hifOstCtrl_active 0 else s

def execOstEnable (src : Src) (s : State) : Host.Outcome State Fault Refusal := .next (if s.reaches src then s.enterOst else s)

def execOstDisable (src : Src) (s : State) : Host.Outcome State Fault Refusal :=
  .next (if s.reaches src then (s.wr F.hifOstCtrl_enable 0).exitOst else s)

def execOstExit (s : State) : Host.Outcome State Fault Refusal := .next s.exitOst

end Sys2Proof.Machine
end

