-- ==== Sys2Proof/Machine/Winze.lean ====
section
/-! DEFINITION. The Winze units (chapter 8) and the rows and updates of embedding tables (chapter 9): the WNZ class, its registrations
and interlock (R250 to R253), its parts, commands and chunks (R233 to R240), and what each function leaves behind. -/
namespace Sys2Proof.Machine

/-! ## Ranges (R232, R238) -/

/-- The stacks that hold a byte of a range, in ascending order. -/
def stacksOf (a n : Nat) : List Nat :=
  if n = 0 then [] else
  let ps := List.range (min 24 ((a + n - 1) / 4096 - a / 4096 + 1))
  let st := ps.filterMap fun i => match locate ((a / 4096 + i) * 4096) with
    | .stack t _ => some t
    | _ => none
  (List.range 24).filter st.contains

/-- The crew store that holds a range, if one does. -/
def crewOf (a n : Nat) : List Nat :=
  if n = 0 then [] else
  match locate a with
  | .crew c _ => [c]
  | _ => []

/-- Whether a range lies where R232 lets an operand lie: stack memory, within one stack in the stack view, or a crew store where that
is allowed. -/
def winzePlaced (a n : Nat) (crew : Bool) : Bool :=
  match locate a, locate (a + n - 1) with
  | .stack t _, .stack u _ => (decide (a < 0x30000000000) && decide (a + n ≤ 0x30000000000)) || (decide (stackView ≤ a) && t == u)
  | .crew c _, .crew d _ => crew && c == d
  | _, _ => false

/-- The interleave-undo descriptor of a stack's share of an operand (R237, R238). -/
def undoDescriptor (stack base len : Nat) : Nat :=
  let op := base % 4096 / 64
  let lastPage := (base % 4096 + len - 1) / 4096
  let spread := decide (base < stackView)
  let p := if spread then (stack + 24 - base / 4096 % 24) % 24 else 0
  let first := if spread then (base / 4096 + p) / 24 else (base - stackAddr stack 0) / 4096
  let pages := if spread then (lastPage - p) / 24 + 1 else lastPage + 1
  first + b2n spread * 2 ^ 25 + op * 2 ^ 26 + p * 2 ^ 32 + pages * 2 ^ 64 + len / 64 * 2 ^ 92

/-! ## Row formats (R263 to R267) -/

/-- A row format of Table 9.1: H, W, the bytes of an embedding element and the greatest E. -/
def rowFormat (fmt : Nat) : Nat × Nat × Nat × Nat :=
  match fmt with
  | 0 => (0, 4, 4, 1024)
  | 1 => (0, 2, 2, 2048)
  | 2 => (16, 1, 1, 4080)
  | 3 => (16, 4, 2, 1008)
  | 4 => (16, 5, 2, 816)
  | 5 => (16, 4, 1, 1008)
  | _ => (16, 1, 1, 4080)

/-- ROW_BYTES of a format and E. -/
def rowBytesOf (fmt e : Nat) : Nat :=
  let (h, w, _, _) := rowFormat fmt
  let need := max 64 (h + w * e)
  if 2 ^ Nat.log2 need = need then need else 2 ^ (Nat.log2 need + 1)

/-- Whether E fits a format. -/
def rowElemsOk (fmt e : Nat) : Bool := decide (e % 16 = 0 ∧ 16 ≤ e ∧ e ≤ (rowFormat fmt).2.2.2)

/-- The narrow format of an FP8 embedding. -/
def rowNarrow (fmt : Nat) : Narrow := if fmt = 6 then .e5m2 else .e4m3

/-- An E8M0 scale as an exponent. -/
def scaleExp (b : Nat) : Int := (b : Int) - 127

/-- The value of embedding element `i` of a row (R266). -/
def rowValue (fmt : Nat) (row : List Byte) (i : Nat) : FV :=
  let (h, _, w, _) := rowFormat fmt
  let n := leAt row (h + i * w) w
  if fmt = 0 then f32 n
  else if fmt = 1 ∨ fmt = 3 ∨ fmt = 4 then bf16 n
  else ((rowNarrow fmt).value n).scale (scaleExp (leAt row 0 1))

/-- Whether a stored row scale reads the reserved code (R273). -/
def scaleReserved (fmt : Nat) (row : List Byte) : Bool :=
  (rowFormat fmt).1 == 16 && (leAt row 0 1 == 0xFF || leAt row 1 1 == 0xFF)

/-- The least scale byte of R267 for a largest magnitude: one byte per unit of fuel. -/
def leastScale (f : Narrow) (a : Nat) : Nat → Nat → Nat
  | b, 0 => b
  | b, k + 1 =>
    if (magOf a).1 * 2 ^ 127 ≤ f.maxMag * 2 ^ b * (magOf a).2 then b else leastScale f a (b + 1) k

/-- A vector stored into an FP8 array with a row scale (R267): the scale byte, the codes, and how many saturate. -/
def storeNarrow (f : Narrow) (y : List Nat) : Nat × List Byte × Nat :=
  let mags := y.filterMap finMag
  let a := mags.foldl max 0
  let b := if a = 0 then 0x7F else leastScale f a 0 254
  let q := y.map fun v => (f.quantise (f32 v) 1 (scaleExp b)).getD (0, false)
  (b, q.map fun e => BitVec.ofNat 8 e.1, (q.filter (·.2)).length)

/-! ## Updates (R269 to R272) -/

/-- The gradient element of a record, as an exact value. -/
def gradValue (rec_ : List Byte) (i : Nat) : FV :=
  if leAt rec_ 0x20 1 = 0 then f32 (leAt rec_ (0x40 + 4 * i) 4)
  else (e5m2 (leAt rec_ (0x40 + i) 1)).scale (scaleExp (leAt rec_ 0x21 1))

/-- Whether a format accepts an optimiser (Table 9.3). -/
def optAccepts (opt fmt : Nat) : Bool :=
  match opt with
  | 0 => true
  | 1 => decide (fmt ≤ 2)
  | 2 => decide (fmt ≤ 5)
  | 3 => fmt == 3
  | _ => fmt == 4 || fmt == 5

/-- The state arrays of a row as binary32 patterns: the Adagrad sum or the first moment, and the second moment. -/
def rowState (fmt e : Nat) (row : List Byte) (i : Nat) : FV × FV :=
  let (h, _, w, _) := rowFormat fmt
  let at_ := h + w * e
  if fmt = 3 then (bf16 (leAt row (at_ + 2 * i) 2), .fin false 0 0)
  else if fmt = 4 ∨ fmt = 5 then
    ((Narrow.e4m3.value (leAt row (at_ + i) 1)).scale (scaleExp (leAt row 1 1)), bf16 (leAt row (at_ + e + 2 * i) 2))
  else (.fin false 0 0, .fin false 0 0)

/-- An optimiser's step on one element (R271): the new embedding element and the two new state values. -/
def optStep (opt : Nat) (r : List Byte) (w a v g : FV) : Nat × Nat × Nat :=
  let u (o : Nat) := f32 (leAt r o 4)
  let lr := u 8
  let m32 (x y : FV) := round32 (x.mul y)
  match opt with
  | 0 => (round32 g, 0, 0)
  | 1 => (round32 (w.add g), 0, 0)
  | 2 => (round32 (w.add (f32 (m32 lr g)).neg), 0, 0)
  | 3 =>
    let a2 := round32 (a.add (f32 (m32 g g)))
    let d := fmul (m32 lr g) (frsqrt (round32 ((f32 a2).add (u 0x14))))
    (round32 (w.add (f32 d).neg), a2, 0)
  | _ =>
    let one (b : FV) := f32 (round32 ((f32 one32).add b.neg))
    let m2 := fadd (m32 (u 0xC) a) (m32 (one (u 0xC)) g)
    let v2 := fadd (m32 (u 0x10) v) (m32 (one (u 0x10)) (f32 (m32 g g)))
    let den := frsqrt (round32 ((f32 (m32 (f32 v2) (u 0x1C))).add (u 0x14)))
    let x := fmul (m32 (f32 m2) (u 0x18)) den
    (round32 (w.add (f32 (m32 lr (f32 x))).neg), m2, v2)

/-- BF16 patterns as bytes. -/
def bf16Bytes (l : List Nat) : List Byte := l.flatMap fun n => leBytes (roundBf16 (f32 n)) 2

/-- A row after a record (R271, R265), and how many elements saturate. -/
def updateRow (fmt e opt : Nat) (row r : List Byte) : List Byte × Nat :=
  let (h, _, w, _) := rowFormat fmt
  let es := (List.range e).map fun i =>
    let st := rowState fmt e row i
    optStep opt r (rowValue fmt row i) st.1 st.2 (gradValue r i)
  let ys := es.map (·.1)
  let (ws, emb, sat) :=
    if fmt = 0 then (0x7F, ys.flatMap (leBytes · 4), 0)
    else if w = 2 then (0x7F, bf16Bytes ys, 0)
    else if opt = 0 ∧ fmt = 6 ∧ leAt r 0x20 1 = 1 then (leAt r 0x21 1, slice r 0x40 e, 0)
    else storeNarrow (rowNarrow fmt) ys
  let at_ := h + w * e
  let states := row.drop at_
  let (ms, st, sat2) :=
    if opt = 0 then (0x7F, zeros states.length, 0)
    else if opt = 3 then (leAt row 1 1, overlay states 0 (bf16Bytes (es.map (·.2.1))), 0)
    else if opt = 4 then
      let (b, c, k) := storeNarrow .e4m3 (es.map (·.2.1))
      (b, overlay states 0 (c ++ bf16Bytes (es.map (·.2.2))), k)
    else (leAt row 1 1, states, 0)
  let steps := if opt = 0 then 0 else (leAt row 4 4 + 1) % 2 ^ 32
  let head := if h = 0 then [] else leBytes ws 1 ++ leBytes ms 1 ++ zeros 2 ++ leBytes steps 4 ++ zeros 8
  (head ++ emb ++ st, sat + sat2)

/-! ## Tables (R268, R277) -/

/-- A table of an act. -/
def State.table? (s : State) (act num : Nat) : Option Table := s.wnz.tables.find? fun t => t.act == act && t.num == num

/-- A table changed. -/
def State.modTable (s : State) (act num : Nat) (f : Table → Table) : State :=
  { s with wnz := { s.wnz with tables := updWhere (fun t => t.act == act && t.num == num) f s.wnz.tables } }

/-- ROW_BYTES of a table. -/
def Table.rowBytes (t : Table) : Nat := rowBytesOf t.fmt t.e

/-- The base and directory of a version of a table. -/
def Table.extent (t : Table) (version : Nat) : Nat × List (Nat × Nat) :=
  if version = t.version then (t.base, t.dir) else
  match t.olds.find? (·.version == version) with
  | some o => (o.base, o.dir)
  | none => (t.base, [])

/-- Where a row of a version lies (R277). -/
def Table.rowAt (t : Table) (version row : Nat) : Nat :=
  let (base, dir) := t.extent version
  match dir.find? (·.1 == row) with
  | some e => e.2
  | none => base + row * t.rowBytes

/-- A count of a window grown. -/
def grow (l : List (Nat × Nat)) (k : Nat) : List (Nat × Nat) := kvSet 0 l k (kvGet 0 l k + 1)

/-- One row counted in a space-saving summary of 256 counters. -/
def hotCount (l : List (Nat × Nat)) (row : Nat) : List (Nat × Nat) :=
  if l.any (·.1 == row) then updWhere (·.1 == row) (fun e => (e.1, e.2 + 1)) l
  else if l.length < 256 then l ++ [(row, 1)]
  else
    let least := l.foldl (fun (m : Nat × Nat) e => if e.2 < m.2 then e else m) (l.headD (0, 0))
    updWhere (·.1 == least.1) (fun e => (row, e.2 + 1)) l

/-- Whether a table keeps a summary (R276): one of the first 16 tables of the node. -/
def State.tracked (s : State) (t : Table) : Bool :=
  (s.wnz.tables.take 16).any fun u => u.act == t.act && u.num == t.num

/-- A row read or updated in a stack, counted. -/
def State.countRow (s : State) (t : Table) (row addr : Nat) (update : Bool) : State :=
  let st := stackOf addr
  let tr := s.tracked t
  let s := s.modTable t.act t.num fun t => { t with load :=
    ⟨if update then t.load.reads else grow t.load.reads st, if update then grow t.load.updates st else t.load.updates,
      if tr then hotCount t.load.hot row else t.load.hot⟩ }
  s.count (if update then 0x601 else 0x600) 1

/-! ## Operations -/

/-- A WNZ instruction by its identifier. -/
def State.op? (s : State) (id : Nat) : Option WnzOp := s.wnz.ops.find? (·.id == id)

/-- A WNZ instruction changed. -/
def State.modOp (s : State) (id : Nat) (f : WnzOp → WnzOp) : State :=
  { s with wnz := { s.wnz with ops := updWhere (·.id == id) f s.wnz.ops } }

/-- A part changed. -/
def State.modPart (s : State) (id stack : Nat) (f : WnzPart → WnzPart) : State :=
  s.modOp id fun o => { o with parts := updWhere (·.stack == stack) f o.parts }

/-- Whether two WNZ instructions conflict under Table 8.5: one writes what the other reads or writes. -/
def WnzOp.conflicts (a b : WnzOp) : Bool :=
  let meet (x y : List (Nat × Nat)) := x.any fun r => y.any fun q => rangesMeet r.1 r.2 q.1 q.2
  meet a.dsts (b.srcs ++ b.dsts) || meet a.srcs b.dsts

/-- Whether an instruction must wait for one that was registered before it (R253). -/
def State.wnzBlocked (s : State) (o : WnzOp) : Bool :=
  s.wnz.ops.any fun b => b.registered && decide (b.order < o.order) && o.conflicts b

/-- A new instruction at the dispatcher, bound to the word in flight that `launch` records next. -/
def dispatch (f : Form) (o : Insn) (t : Strand) (j : Job) (op : WnzOp) (reads : List Res) (effects : List Effect) : M Unit := do
  let id := (← get).nextId
  let now := (← get).now
  upd fun s => s.fresh
  let tag := (← get).nextId
  launch f o t (.winze id) reads [] effects
  upd fun s => { s with wnz := { s.wnz with
    ops := s.wnz.ops ++ [{ op with id := id, act := j.act, job := j.id, func := f.func, imm := o.imm.toNat, strand := o.strand,
                                   tag := tag, issued := now }] } }

/-- An instruction with nothing in it yet. -/
def WnzOp.blank : WnzOp where
  id := 0
  act := 0
  job := 0
  func := 0
  imm := 0
  strand := 0
  tag := 0
  srcs := []
  dsts := []
  registered := false
  order := 0
  regBeat := 0
  seqs := []
  listed := false
  parts := []
  slots := []
  tile := 0
  cut := 0
  table := 0
  version := 0
  base := 0
  len := 0
  rowBytes := 0
  rows := []
  offsets := []
  bad := []
  badScale := []
  got := []
  issued := 0

/-- The checks of the operands of a WNZ instruction in the order of R84, each with the right of its access and WINZE (R82, R96). -/
def winzeRights (j : Job) (l : List (Right × Dsc)) : M Unit := do
  let l := l.filter (·.2.len != 0)
  l.forM fun e => aligned64 e.2 0
  checkAll j ((← get).isPriv j) (l.flatMap fun e => [(e.1, e.2.base, e.2.len), (.winze, e.2.base, e.2.len)])

/-! ## SCAN -/

/-- The beat of the seam version whose codes start at an address. -/
def State.cutAt (s : State) (act addr : Nat) : Option Nat :=
  match s.index? act with
  | none => none
  | some i => (i.seams.flatMap Seam.all).findSome? fun v => if v.codeAt = addr then some v.cut else none

/-- The entries of an open range of a code block and its attribute block, as a scan sees them (R171, R219): nothing for one whose ID or
LOC cannot be read. -/
def State.versionCands (s : State) (code attr n codeBytes : Nat) (extra : Bool) (cut : Nat) : List (Option Cand) :=
  let cb := (s.peek code (n * codeBytes))
  let ab := (s.peek attr (n * (if extra then 30 else 26)))
  let stampAt := (if extra then 28 else 24) * n
  (List.range n).map fun k =>
    let badAt (o : Nat) := s.badBlock (attr + o)
    if badAt (8 * k) || badAt (16 * n + 8 * k) then none else
    let hurt := badAt (8 * n + 8 * k) || (extra && badAt (24 * n + 4 * k)) || badAt (stampAt + 2 * k)
      || s.badBlock (code + k * codeBytes)
    some ⟨leAt ab (8 * k) 8, leAt ab (16 * n + 8 * k) 8, leAt ab (8 * n + 8 * k) 8, if extra then leAt ab (24 * n + 4 * k) 4 else 0,
      leAt ab (stampAt + 2 * k) 2, slice cb (k * codeBytes) codeBytes, cut, hurt⟩

/-- The output of a scan, and how many entries it drops. -/
def State.scanOutput (s : State) (o : WnzOp) : TileVal × Nat :=
  let cb := 16 * 2 ^ bits o.imm 4 2
  let (code, clen) := o.srcs.getD 0 (0, 0)
  let (attr, alen) := o.srcs.getD 1 (0, 0)
  let n := clen / cb
  let cs := s.versionCands code attr n cb (alen == 30 * n) o.cut
  (scanList s.self (bits o.imm 8 13) (bitOf o.imm 7) o.slots ((cs.filterMap id).filter (·.id != 2 ^ 64 - 1)),
    (cs.filter (·.isNone)).length)

/-- The contents of a tile that was reserved. -/
def State.fillTile (s : State) (id : Nat) (v : TileVal) : State :=
  match s.tile? id with
  | none => s
  | some t => (s.writeMem 1 t.home v.data).modTile id fun t => { t with crc := v.crc, info := v.info }

def execWnzScan (o : Insn) (s : State) : Host.Outcome State Fault Refusal :=
  issue Form.wnzScan o s fun t j => do
    let reads := (List.range (o.fld 0 4)).map Res.q
    if !t.clear reads [] then throw .hold
    let qs ← cageSlots t o
    let d ← useDsc (t.getD o.a) [0] false true
    let e ← useDsc (t.getD o.b) [0] false true
    need ((d.len == 0) == (e.len == 0)) cDescriptor d.base
    winzeRights j [(.read, d), (.read, e)]
    let cb := 16 * 2 ^ o.fld 4 2
    let n := d.len / cb
    if d.len ≠ 0 then
      need (winzePlaced d.base d.len false && winzePlaced e.base e.len false && decide (stackView ≤ d.base)
        && stackOf d.base == stackOf e.base && decide (stackView ≤ e.base)) cDescriptor d.base
      need (decide (d.len % cb = 0 ∧ (e.len = 26 * n ∨ e.len = 30 * n))) cDescriptor d.base
    let cut ← updGet fun s => match s.cutAt j.act d.base with
      | some c => (c, s)
      | none => s.draw 64
    let blank := scanList s.self (o.fld 8 13) false qs []
    match ← updGet fun s => s.reserveTile j.act t.crew blank with
    | none => throw (.fault cQuota 0)
    | some tile =>
      upd fun s => s.tierManage j.act t.crew
      let op := { WnzOp.blank with
        srcs := if d.len = 0 then [] else [(d.base, d.len), (e.base, e.len)]
        listed := true
        parts := if d.len = 0 then [] else [⟨stackOf d.base, .dispatcher, [], n, 0, [], 0⟩]
        slots := qs, tile := tile, cut := cut }
      dispatch Form.wnzScan o t j op reads [.bindT o.dst tile]

/-! ## Lists (R244, R247, R269) -/

/-- OUT_STRIDE of a table (R245). -/
def outStride (e : Nat) : Nat := ceilDiv (e * 4) 64 * 64

/-- The bag or gather list in a block: the row indices and the offsets, or nothing where it breaks Table 8.4. -/
def readList (bag : Bool) (rows outLen outRow : Nat) (b : List Byte) : Option (List Nat × List Nat) :=
  let u (o k : Nat) := leAt b o k
  let bags := u 0 4
  let n := u 4 4
  let offs := if bag then (List.range (min bags 65536 + 1)).map fun i => u (0x10 + 4 * i) 4 else []
  let at_ := if bag then roundUp (0x10 + (bags + 1) * 4) 8 else 0x10
  let ix := (List.range (min n (2 ^ 22))).map fun i => u (at_ + 8 * i) 8
  if decide (1 ≤ n ∧ n ≤ 2 ^ 22 ∧ u 8 8 = 0 ∧ at_ + 8 * n ≤ b.length)
    && (if bag then decide (1 ≤ bags ∧ bags ≤ 65536) && offs.head? == some 0 && offs.getLast? == some n
          && (offs.zip offs.tail).all fun e => decide (e.1 ≤ e.2)
        else bags == 0)
    && (ix.all fun r => decide (r < rows)) && decide ((if bag then bags else n) * outRow ≤ outLen)
  then some (ix, offs) else none

/-- The update records of a block: the row indices and the record length, or nothing where it breaks R247 or R269. -/
def readUpdates (rows e : Nat) (b : List Byte) : Option (List Nat × Nat) :=
  let n := leAt b 0 4
  let size := leAt b 4 4
  let ok (k : Nat) : Bool :=
    let r := slice b (64 + k * size) 0x40
    let g := leAt r 0x20 1
    decide (leAt r 0 8 < rows ∧ g ≤ 1 ∧ 64 + (if g = 0 then 4 * e else e) ≤ size) && !(g == 1 && leAt r 0x21 1 == 0xFF)
      && (slice r 0x22 30).all (· == 0#8)
  if decide (1 ≤ n ∧ n ≤ 2 ^ 22 ∧ size % 64 = 0 ∧ 64 ≤ size ∧ size ≤ 16384 ∧ 64 + n * size ≤ b.length)
    && (slice b 8 56).all (· == 0#8) && (List.range n).all ok
  then some ((List.range n).map fun k => leAt b (64 + k * size) 8, size) else none

/-- The parts of an instruction (R233 step 2): one for each stack that holds a byte of its ranges, and one where a moved row lies. A part
that is sent nothing is over at once, since Table 8.2 has no command of 0 ITEMS (DEDUCED, log 69). -/
def partsOf (ranges at_ : List (Nat × Nat)) : List WnzPart :=
  ((List.range 24).filter fun st => (ranges.any fun r => (stacksOf r.1 r.2).contains st) || at_.any (·.2 == st)).map fun st =>
    let items := (at_.filter (·.2 == st)).map (·.1)
    ⟨st, if items.isEmpty then .done else .dispatcher, items, items.length, 0, [], 0⟩

/-- The end of an instruction that faults before any part starts. -/
def State.failOp (s : State) (o : WnzOp) (cause : Nat) : State :=
  let s := { s with wnz := { s.wnz with ops := s.wnz.ops.filter (·.id != o.id) } }
  (s.regate o.strand o.tag .engine [.faultAt cause 0]).complete o.strand o.tag

/-- Whether the records that a list would hold fit the update queues (Table 9.7). -/
def State.heldRoom (s : State) (t : Table) (n : Nat) : Bool :=
  decide (t.held.length + n ≤ 4096 ∧ (s.wnz.tables.map (·.held.length)).sum + n ≤ 32768)

/-- The dispatcher reads the list of an instruction (R233 step 5), and faults on one that breaks its rule. -/
def State.readOpList (s : State) (o : WnzOp) : State :=
  match s.table? o.act o.table with
  | none => s.failOp o cDescriptor
  | some t =>
    let (a, n) := o.srcs.headD (0, 0)
    let (b, bad, s') := s.readMem dispatcherSource a n
    if bad then s'.failOp o cUncorr else
    let rows := o.len / o.rowBytes
    if o.func = 2 then
      match readUpdates rows t.e b with
      | none => s'.failOp o cDescriptor
      | some (ix, size) =>
        let moving (r : Nat) := o.version == t.version && t.moves.any fun m => m.row == r && m.stage != 0
        let (held, free) := ix.zipIdx.partition fun e => moving e.1
        if !s.heldRoom t held.length then s else
        let hs := held.map fun e => ⟨o.id, e.2, e.1, bits o.imm 8 4, slice b (64 + e.2 * size) size⟩
        let s := (s'.modTable t.act t.num fun t => { t with held := t.held ++ hs }).count 0x604 hs.length
        s.modOp o.id fun o => { o with
          listed := true, rows := ix, offsets := [size]
          parts := partsOf (o.srcs ++ o.dsts) (free.map fun e => (e.2, stackOf (t.rowAt o.version e.1))) }
    else
      let outRow := if o.func = 1 then outStride t.e else o.rowBytes
      match readList (o.func == 1) rows (o.dsts.headD (0, 0)).2 outRow b with
      | none => s'.failOp o cDescriptor
      | some (ix, offs) => s'.modOp o.id fun o => { o with
          listed := true, rows := ix, offsets := offs
          parts := partsOf (o.srcs ++ o.dsts) (ix.zipIdx.map fun e => (e.2, stackOf (t.rowAt o.version e.1))) }

/-- The lists of registered instructions that nothing holds back, read in the order of registration. -/
def State.readLists (s : State) : State :=
  let l := sortBy (fun (a b : WnzOp) => decide (a.order < b.order)) (s.wnz.ops.filter fun o => o.registered && !o.listed)
  l.foldl (fun s o => match s.op? o.id with
    | some o => if s.wnzBlocked o then s else s.readOpList o
    | none => s) s

/-! ## Swaps and flips (R278, R279, R282) -/

/-- A record applied to a row at an address (R248, R255, R273). -/
def State.applyRecord (s : State) (t : Table) (opId pos row addr opt : Nat) (r : List Byte) : State :=
  let (b, bad, s) := s.readMem 1 addr t.rowBytes
  if bad then s.modOp opId fun o => { o with bad := o.bad ++ [pos] }
  else if scaleReserved t.fmt b then s.modOp opId fun o => { o with badScale := o.badScale ++ [pos] }
  else
    let (n, sat) := updateRow t.fmt t.e opt b r
    ((s.writeMem 1 addr n).bump F.cruQntSatCount_count sat).countRow t row addr true

/-- The held records of a row applied in arrival order, wherever the row now lies. -/
def State.releaseHeld (s : State) (t : Table) (row addr : Nat) : State :=
  let s := (t.held.filter (·.row == row)).foldl (fun s h => s.applyRecord t h.op h.pos row addr h.opt h.bytes) s
  s.modTable t.act t.num fun t => { t with held := t.held.filter (·.row != row) }

/-- A move that ends without its flip (R279). -/
def State.cancelRowMove (s : State) (t : Table) (m : RowMove) : State :=
  let s := s.modTable t.act t.num fun t => { t with moves := t.moves.filter (· != m) }
  (if m.stage = 0 then s else s.releaseHeld t m.row m.source).count 0x603 1

/-- A flip: the entry becomes HOME at the target, or goes where the target is the row's own place. -/
def State.flipRowMove (s : State) (t : Table) (m : RowMove) : State :=
  let own := t.base + m.row * t.rowBytes
  let s := s.modTable t.act t.num fun t => { t with
    moves := t.moves.filter (· != m)
    dir := t.dir.filter (·.1 != m.row) ++ (if physOf m.target = physOf own then [] else [(m.row, m.target)])
    blocks := updWhere (·.job == m.job) (fun b => { b with flipped := b.flipped + 1 }) t.blocks }
  (s.releaseHeld t m.row m.target).count 0x602 1

/-- The moves of a table whose flip beat has come: flipped where the copy is complete, cancelled elsewhere. An update that waited for room
in the table's queue is then read (R284). -/
def State.flipTable (s : State) (act num upTo : Nat) : State :=
  match s.table? act num with
  | none => s
  | some t =>
    let due := t.moves.filter fun m => decide (m.flip ≤ upTo)
    due.foldl (fun s m =>
      match s.table? act num with
      | none => s
      | some t => if m.stage = 2 then s.flipRowMove t m else s.cancelRowMove t m) (s.fired (due.map (·.job)).eraseDups.length)
    |>.readLists

/-- Whether an instruction looks a version of a table up. -/
def WnzOp.looksUp (o : WnzOp) (act num version : Nat) : Bool :=
  o.func != 0 && o.act == act && o.table == num && o.version == version

/-- A swap whose beat has come takes effect (R104, R282). Where no lookup of the replaced version has completed and none remains, the spec
states no beat for TBL.VER: it draws a free value (log 74). -/
def State.swapTable (s : State) (act num : Nat) : State :=
  match (s.table? act num).bind fun t => t.swap.map fun x => (t, x) with
  | none => s
  | some (t, beat, base, len) =>
    if s.now < beat then s else
    let s := s.flipTable act num (beat - 1)
    let s := (t.moves.filter fun m => decide (beat ≤ m.flip)).foldl (fun s m =>
      match s.table? act num with
      | none => s
      | some t => s.cancelRowMove t m) s
    let busy := s.wnz.ops.any fun o => o.looksUp act num t.version
    let s := s.modTable act num fun t => { t with
      olds := if busy then ⟨t.version, t.base, t.len, t.dir⟩ :: t.olds else t.olds
      version := t.version + 1, base := base, len := len, dir := [], swap := none
      ver := if busy then some 0 else if t.lastDone = 0 then none else some t.lastDone
      lastDone := 0 }
    ((s.count 0x606 1).fired 1).readLists

/-- The table that an instruction names as it stands at issue (R104, R268). -/
def State.lookup (s : State) (act num : Nat) : Option Table × State :=
  let s := s.swapTable act num
  (s.table? act num, s)

/-- Whether an UNDEFINE of a table that was picked up before hides it from WNZ instructions (R275). -/
def State.undefining (s : State) (t : Table) : Bool :=
  match t.undef.bind s.job? with
  | some j => decide (j.pickup < s.now)
  | none => false

/-! ## BAG, UPD and GATHER -/

/-- The common issue of the table functions. -/
def tableOp (f : Form) (o : Insn) (s : State) (dst : Bool) (accept : Table → Bool) : Host.Outcome State Fault Refusal :=
  issue f o s fun t j => do
    let d ← useDsc (t.getD o.a) [0] false
    let out ← if dst then do pure (some (← useDsc (t.getD o.dst) [0] true)) else pure none
    let tb ← orFault (← updGet fun s => s.lookup j.act (o.fld 0 8)) cDescriptor
    need (!(← get).undefining tb && accept tb) cDescriptor
    winzeRights j ((.read, d) :: (out.map fun e => (.write, e)).toList)
    need (winzePlaced d.base d.len true) cDescriptor d.base
    if let some e := out then need (winzePlaced e.base e.len true) cDescriptor e.base
    let dsts := match out with
      | some e => [(e.base, e.len)]
      | none => [(tb.base, tb.len)]
    let op := { WnzOp.blank with
      srcs := if dst then [(d.base, d.len), (tb.base, tb.len)] else [(d.base, d.len)]
      dsts := dsts, table := tb.num, version := tb.version, base := tb.base, len := tb.len, rowBytes := tb.rowBytes }
    dispatch f o t j op [] []

def execWnzBag (o : Insn) (s : State) : Host.Outcome State Fault Refusal := tableOp Form.wnzBag o s true fun _ => true

def execWnzGather (o : Insn) (s : State) : Host.Outcome State Fault Refusal := tableOp Form.wnzGather o s true fun _ => true

def execWnzUpd (o : Insn) (s : State) : Host.Outcome State Fault Refusal :=
  tableOp Form.wnzUpd o s false fun t => optAccepts (o.fld 8 4) t.fmt

/-! ## What the units may take (R235) -/

/-- The commands that a stack's units may take (R235): in the order of arrival, past those that wait under the interlock. -/
def State.takeCommands (s : State) : State :=
  let take (o : WnzOp) : WnzOp :=
    if s.wnzBlocked o then o
    else { o with parts := updWhere (·.stands == .arrived) (fun (p : WnzPart) => { p with stands := .running }) o.parts }
  let s := { s with wnz := { s.wnz with ops := s.wnz.ops.map take } }
  ((s.wnz.ops.flatMap (·.parts)).filter (·.stands == .running)).foldl (fun s p => s.mark (16 + p.stack)) s

/-! ## Registration, queueing and arrival -/

/-- The registered ranges that touch a stack, and a crew store. -/
def State.rangesOn (s : State) (st : Nat) : Nat :=
  (s.wnz.ops.filter (·.registered)).foldl (fun n o =>
    n + ((o.srcs ++ o.dsts).filter fun r => (stacksOf r.1 r.2).contains st).length) 0
def State.rangesIn (s : State) (c : Nat) : Nat :=
  (s.wnz.ops.filter (·.registered)).foldl (fun n o =>
    n + ((o.srcs ++ o.dsts).filter fun r => (crewOf r.1 r.2).contains c).length) 0

/-- Whether the registrations of an instruction stay inside Table 8.6 (R259). -/
def State.rangesFit (s : State) (o : WnzOp) : Bool :=
  let l := o.srcs ++ o.dsts
  ((List.range 24).all fun st => decide (s.rangesOn st + (l.filter fun r => (stacksOf r.1 r.2).contains st).length ≤ 256))
    && (List.range 16).all fun c => decide (s.rangesIn c + (l.filter fun r => (crewOf r.1 r.2).contains c).length ≤ 64)

def execWinzeRegistrationPoint (id : Nat) (s : State) : Host.Outcome State Fault Refusal :=
  .next (match s.op? id with
    | none => s
    | some o =>
      let first := ((s.wnz.ops.find? (fun p => p.strand == o.strand && !p.registered)).map (·.id)) == some id
      if o.registered || !first || !s.rangesFit o then s else
      let sts := (List.range 24).filter fun st => (o.srcs ++ o.dsts).any fun r => (stacksOf r.1 r.2).contains st
      let new := sts.map fun st => (st, (kvGet 0 s.wnz.seqs st + 1) % 2 ^ 32)
      let s := (s.modOp id fun o => { o with registered := true, order := s.nextId, regBeat := s.now, seqs := new }).fresh
      let s := { s with wnz := { s.wnz with
        seqs := sts.foldl (fun l st => kvSet 0 l st ((kvGet 0 l st + 1) % 2 ^ 32)) s.wnz.seqs } }
      s.readLists)

/-- The parts in a stack's command queue, of one act or of all. -/
def State.queuedOn (s : State) (st : Nat) (act : Option Nat) : Nat :=
  s.wnz.ops.foldl (fun n o =>
    if act == none || act == some o.act then
      n + (o.parts.filter fun p => p.stack == st && (p.stands == .queued || p.stands == .arrived)).length
    else n) 0

/-- The command of a part (Table 8.2), with the table set and the RETURN field that the dispatcher chooses. -/
def WnzOp.command (o : WnzOp) (p : WnzPart) (seq ret : Nat) : List Byte :=
  let idx := (o.parts.filter fun q => decide (q.stack < p.stack)).length
  let (a, alen) := if o.func = 0 then o.srcs.getD 0 (0, 0) else (o.base, o.len)
  let (b, blen) := o.srcs.getD 1 (0, 0)
  let body := leBytes o.func 1 ++ leBytes o.act 1 ++ leBytes idx 2 ++ leBytes o.parts.length 2
    ++ leBytes (if o.func = 0 then ret % 2 else 0) 1 ++ zeros 1 ++ leBytes o.imm 4 ++ leBytes seq 4
    ++ leBytes (undoDescriptor p.stack a alen) 16 ++ leBytes (if o.func = 0 then undoDescriptor p.stack b blen else 0) 16
    ++ leBytes p.count 4 ++ leBytes (if o.func = 0 then 0 else o.rowBytes) 4 ++ leBytes (ret / 2) 4
  body ++ leBytes (crc32c body) 4

def execWinzeCommandQueued (id stack : Nat) (s : State) : Host.Outcome State Fault Refusal :=
  .next (match (s.op? id).bind fun o => (o.parts.find? (·.stack == stack)).map fun p => (o, p) with
    | none => s
    | some (o, p) =>
      if !o.registered || !o.listed || p.stands != .dispatcher || s.on (F.wnzCtrl_drain stack)
          || decide (64 ≤ s.queuedOn stack none ∨ s.rd (F.wnzCtrl_actMax stack) ≤ s.queuedOn stack (some o.act)) then s else
      let (ret, s) := s.draw 33
      s.modPart id stack fun p => { p with stands := .queued, cmd := o.command p (kvGet 0 o.seqs stack) ret })

/-- A command reaches the base die: one whose CMD_CRC is wrong is discarded and sent again. -/
def execWinzeCommandArrival (id stack : Nat) (cmd : List Byte) (s : State) : Host.Outcome State Fault Refusal :=
  .next (match (s.op? id).bind fun o => o.parts.find? (·.stack == stack) with
    | none => s
    | some p =>
      if p.stands != .queued then s
      else if cmd.length ≠ 64 ∨ leAt cmd 0x3C 4 ≠ crc32c (cmd.take 0x3C) then s.bump (F.wnzResend_count stack) 1
      else if cmd ≠ p.cmd then s
      else ((s.modPart id stack fun p => { p with stands := .arrived, order := s.nextId }).fresh).takeCommands)

/-! ## Chunks (R239, R240, R248, R254, R255) -/

/-- A fault found at a stack, entered in WNZ_FAULT while nothing is recorded. -/
def State.wnzFault (s : State) (st op act cause : Nat) : State :=
  if s.on (F.wnzFault_valid st) then s else
  (((s.wr (F.wnzFault_valid st) 1).wr (F.wnzFault_op st) op).wr (F.wnzFault_act st) act).wr (F.wnzFault_cause st) cause

/-- What the units read for a chunk of a scan. -/
def State.scanChunk (s : State) (o : WnzOp) (p : WnzPart) (n : Nat) : State :=
  let cb := 16 * 2 ^ bits o.imm 4 2
  let (code, clen) := o.srcs.getD 0 (0, 0)
  let (attr, alen) := o.srcs.getD 1 (0, 0)
  let tot := clen / cb
  let rd (s : State) (a k : Nat) : State := (s.readMem 1 a k).2.2
  let s := rd s (code + p.next * cb) (n * cb)
  let s := [0, 8 * tot, 16 * tot].foldl (fun s b => rd s (attr + b + 8 * p.next) (8 * n)) s
  let s := if alen = 30 * tot then rd s (attr + 24 * tot + 4 * p.next) (4 * n) else s
  let s := rd s (attr + (if alen = 30 * tot then 28 else 24) * tot + 2 * p.next) (2 * n)
  let nsub := nsubOf (bits o.imm 4 2) (bitOf o.imm 6)
  s.bump64 (F.wnzSubqLo_count p.stack) (F.wnzSubqHi_count p.stack) (n * nsub)

/-- One list position handled by a unit: a row read and sent up, or a record applied. -/
def State.unitItem (s : State) (t : Table) (o : WnzOp) (stack pos : Nat) : State :=
  let row := o.rows.getD pos 0
  let addr := t.rowAt o.version row
  if o.func = 2 then
    let size := o.offsets.headD 0
    let r := s.peek ((o.srcs.headD (0, 0)).1 + 64 + pos * size) size
    let s' := s.applyRecord t o.id pos row addr (bits o.imm 8 4) r
    match s'.op? o.id, s.op? o.id with
    | some a, some b =>
      if a.bad.length > b.bad.length then s'.wnzFault stack o.func o.act cUncorr
      else if a.badScale.length > b.badScale.length then s'.wnzFault stack o.func o.act cTile else s'
    | _, _ => s'
  else
    let (b, bad, s) := s.readMem 1 addr t.rowBytes
    let s := s.countRow t row addr false
    if bad then (s.modOp o.id fun o => { o with bad := o.bad ++ [pos] }).wnzFault stack o.func o.act cUncorr
    else if o.func = 1 && scaleReserved t.fmt b then
      (s.modOp o.id fun o => { o with badScale := o.badScale ++ [pos] }).wnzFault stack o.func o.act cTile
    else s.modOp o.id fun o => { o with got := o.got ++ [(pos, b)] }

/-- The units of a stack that are enabled and have not failed. -/
def State.usableUnits (s : State) (st : Nat) : Nat :=
  s.rd (F.wnzUnitMap_enabled st) - (s.rd (F.wnzUnitMap_enabled st) &&& s.rd (F.wnzUnitMap_failed st))

/-- A unit of a stack finishes a chunk of a part, of up to 4,096 entries, rows or records. -/
def execWinzeChunkComplete (id stack unit : Nat) (s : State) : Host.Outcome State Fault Refusal :=
  .next (match (s.op? id).bind fun o => (o.parts.find? (·.stack == stack)).map fun p => (o, p) with
    | none => s
    | some (o, p) =>
      if p.stands != .running || !(s.on (F.wnzStatus_relay stack) || bitOf (s.usableUnits stack) unit)
        || (o.func = 0 && !s.pins.hot.isEmpty) then s else
      let n := min 4096 (p.count - p.next)
      let s := if o.func = 0 then s.scanChunk o p n
        else (slice p.items p.next n).foldl (fun s pos => match s.table? o.act o.table with
          | some t => s.unitItem t o stack pos
          | none => s) s
      let fin := decide (p.next + n = p.count)
      let s := s.modPart id stack fun p => { p with next := p.next + n, stands := if fin then .done else p.stands }
      if fin then s.bump64 (F.wnzCmdLo_count stack) (F.wnzCmdHi_count stack) 1 else s)

/-! ## Completion (R233, R241, R245, R246, R252) -/

/-- A represented value added to an exact accumulator. -/
def Acc320.addV (a : Acc320) (v : FV) : Acc320 :=
  match v with
  | .nan => { a with n := a.n + 1, nan := true, allneg0 := false }
  | .inf s => { a with n := a.n + 1, allneg0 := false, ninf := a.ninf || s, pinf := a.pinf || !s }
  | .fin s m e =>
    let x : Int := (m * 2 ^ (e + 149).toNat : Nat)
    { a with n := a.n + 1, allneg0 := a.allneg0 && s && m == 0, acc := a.acc + (if s then -x else x) }

/-- An element of a bag's output (R245). -/
def bagElement (mean : Bool) (vs : List FV) : Nat :=
  let a := vs.foldl Acc320.addV Acc320.zero
  if a.n = 0 then 0
  else if !mean || a.nan || a.pinf || a.ninf || a.acc == 0 then a.round
  else round32 (fracV (decide (a.acc < 0)) a.acc.natAbs a.n (-149))

/-- The output row of bag `b`, or nothing where one of its rows is damaged. -/
def WnzOp.bagRow (o : WnzOp) (t : Table) (b : Nat) : Option (List Byte) :=
  let lo := o.offsets.getD b 0
  let hi := o.offsets.getD (b + 1) 0
  let ps := (List.range (hi - lo)).map (lo + ·)
  if ps.any fun p => o.bad.contains p || o.badScale.contains p then none else
  let rows := ps.filterMap fun p => (o.got.find? (·.1 == p)).map (·.2)
  some (padTo 0#8 (outStride t.e) ((List.range t.e).flatMap fun i =>
    leBytes (bagElement (bitOf o.imm 8) (rows.map fun r => rowValue t.fmt r i)) 4))

/-- What the collector or combiner writes. -/
def State.writeOutput (s : State) (o : WnzOp) : State :=
  let dst := (o.dsts.headD (0, 0)).1
  if o.func = 0 then
    let (v, dropped) := s.scanOutput o
    ((s.fillTile o.tile v).count 0x406 (overflows v)).count 0x407 dropped
  else match s.table? o.act o.table with
    | none => s
    | some t =>
      if o.func = 1 then
        (List.range (o.offsets.length - 1)).foldl (fun s b => match o.bagRow t b with
          | some r => s.writeMem 1 (dst + b * outStride t.e) r
          | none => s) s
      else if o.func = 3 then o.got.foldl (fun s e => s.writeMem 1 (dst + e.1 * o.rowBytes) e.2) s
      else s

/-- Whose last held write has been done goes on: an engine instruction completes, and a Carousel request is answered. -/
def State.heldDone (s : State) (w : HeldFor) : State :=
  if s.wnz.held.any (·.whose == w) then s else
  match w with
  | .engine strand tag => s.complete strand tag
  | .rack p => (s.remember p 0).reply p .ack 1 [] 0 0
  | _ => s

/-- Registrations are released: what they held is done, and whose writes are all done goes on. -/
def State.applyHeldWrites (s : State) : State :=
  (s.wnz.held.map (·.whose)).eraseDups.foldl State.heldDone s.drainHeld

/-- The bookkeeping of a table when one of its lookups ends (R104). -/
def State.lookupDone (s : State) (o : WnzOp) : State :=
  s.modTable o.act o.table fun t =>
    let left := s.wnz.ops.any fun p => p.looksUp o.act o.table o.version
    if o.version = t.version then { t with lastDone := s.now }
    else if left then t
    else { t with olds := t.olds.filter (·.version != o.version)
                  ver := if o.version + 1 = t.version then some s.now else t.ver }

/-- Whether an instruction still has held records. -/
def State.opHeld (s : State) (o : WnzOp) : Bool :=
  s.wnz.tables.any fun t => t.held.any (·.op == o.id)

/-- Whether an update waits for a flip (Table 9.8): it has held records, or its records do not fit the queue (R284). -/
def State.flipWait (s : State) (o : WnzOp) : Bool :=
  o.func == 2 && o.registered && (s.opHeld o || (!o.listed && !s.wnzBlocked o))

def execWinzeCompletionPoint (id : Nat) (s : State) : Host.Outcome State Fault Refusal :=
  .next (match s.op? id with
    | none => s
    | some o =>
      if !o.registered || !o.listed || !(o.parts.all (·.stands == .done)) || s.opHeld o then s else
      let s := s.writeOutput o
      let s := { s with wnz := { s.wnz with ops := s.wnz.ops.filter (·.id != id) } }
      let s := if o.func = 0 then s else s.lookupDone o
      let fault := if !o.badScale.isEmpty then [Effect.faultAt cTile 0]
        else if !o.bad.isEmpty then [Effect.faultAt cUncorr 0] else []
      let s := (s.regate o.strand o.tag .engine fault).complete o.strand o.tag
      (s.applyHeldWrites.serveReads.readLists).takeCommands)

/-! ## Units (R256, R257, R261) -/

/-- WNZ_STATUS after a change of its unit map. -/
def State.countWnz (s : State) (st : Nat) : State :=
  let n := popcount (s.usableUnits st) 5
  (s.wr (F.wnzStatus_units st) (min n 4)).wr (F.wnzStatus_relay st) (b2n (n == 0))

/-- A unit fails: it is marked, and without a spare left it goes out of service. A chunk that it was at stays to be done by another
(R256). -/
def State.failUnit (s : State) (st unit : Nat) : State :=
  let en := s.rd (F.wnzUnitMap_enabled st)
  let failed := s.rd (F.wnzUnitMap_failed st)
  if st ≥ 24 ∨ unit > 4 ∨ !bitOf en unit ∨ bitOf failed unit then s else
  let s := s.wr (F.wnzUnitMap_failed st) (failed + 2 ^ unit)
  (if s.on (F.wnzStatus_spareUsed st) then s.wr (F.wnzUnitMap_enabled st) (en - 2 ^ unit) else s).countWnz st

def execWinzeUnitFailure (stack unit : Nat) (s : State) : Host.Outcome State Fault Refusal := .next (s.failUnit stack unit)

/-- WNZ_SPARE with GO = 1 (R261): a unit retired, and the spare enabled. -/
def State.spareUnit (s : State) (st unit : Nat) : State :=
  let en := s.rd (F.wnzUnitMap_enabled st)
  if st ≥ 24 ∨ unit > 4 ∨ !bitOf en unit ∨ s.on (F.wnzStatus_spareUsed st) then s else
  ((s.wr (F.wnzUnitMap_enabled st) (en - 2 ^ unit + 2 ^ 4)).wr (F.wnzStatus_spareUsed st) 1).countWnz st

def execWinzeSpare (src : Src) (stack unit : Nat) (s : State) : Host.Outcome State Fault Refusal :=
  .next (if s.reaches src then s.spareUnit stack unit else s)

end Sys2Proof.Machine
end

