-- ==== Sys2Proof/Machine/Tables.lean ====
section
/-! DEFINITION. Embedding tables (chapter 9): their definition and replacement (R263, R282, R104), the loader's table control (R274 to
R276), and the migration of hot rows (R277 to R280). -/
namespace Sys2Proof.Machine

/-! ## Definition and replacement -/

/-- Whether one region of an act holds all three rights over a byte of stack memory, in a view of it (R43, R263). -/
def State.regionAll (s : State) (act a : Nat) : Bool :=
  (List.range 32).any fun n => [Right.read, .write, .winze].all fun r => s.regionAt act n r a

/-- Whether every byte of a range of stack memory lies in a region of an act with READ, WRITE and WINZE. -/
def State.extentHas (s : State) (act : Nat) (a n : Nat) : Bool :=
  (List.range ((a + n - 1) / 4096 - a / 4096 + 1)).all fun k =>
    match locate (max a ((a / 4096 + k) * 4096)) with
    | .stack t o => s.regionAll act (stackAddr t o) || s.regionAll act (spreadAddr t o)
    | _ => false

/-- Whether the node guards any byte of a range: the pool, or a tile home (R37, R288). -/
def State.rangeGuarded (s : State) (a n : Nat) : Bool :=
  (List.range ((a + n - 1) / 4096 - a / 4096 + 1)).any fun k =>
    match physOf ((a / 4096 + k) * 4096) with
    | some p => s.inPool p
    | none => false
  || s.fil.allocs.any fun x => x.isTile && rangesMeet a n x.addr x.len

/-- Whether an extent may hold a table of an act: R232, and the three rights (R263, R282). -/
def State.extentOk (s : State) (act a n : Nat) : Bool :=
  winzePlaced a n false && !s.rangeGuarded a n && s.extentHas act a n

/-- A window with nothing counted. -/
def Load.none : Load := ⟨[], [], []⟩

/-- TBL.TDEF (R263). -/
def execTblTdef (o : Insn) (s : State) : Host.Outcome State Fault Refusal :=
  engine Form.tblTdef o s [] [] fun t j => do
    let d ← useDsc (t.getD o.a) [0] false
    let num := o.fld 0 8
    let fmt := o.fld 8 4
    let size := rowBytesOf fmt d.stride
    need (d.elem == 0 && rowElemsOk fmt d.stride && d.base % size == 0 && d.len % size == 0) cDescriptor d.base
    let s ← get
    need (s.extentOk j.act d.base d.len && (s.table? j.act num).isNone) cDescriptor d.base
    let tb : Table := ⟨j.act, num, fmt, d.stride, d.base, d.len, 0, [], [], [], [], none, [], 0, none, Load.none, Load.none, 2 ^ 64, [], none⟩
    upd fun s => { s with wnz := { s.wnz with tables := s.wnz.tables ++ [tb] } }
    pure []

/-- TBL.SWAP (R282, R104): a beat closer than 16 beats changes nothing. -/
def execTblSwap (o : Insn) (s : State) : Host.Outcome State Fault Refusal :=
  engine Form.tblSwap o s [] (presWrites o) fun t j => do
    let d ← useDsc (t.getD o.a) [0] false
    let num := o.fld 0 8
    let tb ← orFault (← updGet fun s => s.lookup j.act num) cDescriptor
    let s ← get
    let clear := !rangesMeet d.base d.len tb.base tb.len
      && s.wnz.tables.all fun u => !(u.dir.any fun e => rangesMeet d.base d.len e.2 u.rowBytes)
        && !(u.moves.any fun m => rangesMeet d.base d.len m.target u.rowBytes)
    need (tb.swap.isNone && d.base % tb.rowBytes == 0 && d.len % tb.rowBytes == 0 && s.extentOk j.act d.base d.len && clear)
      cDescriptor d.base
    let beat := (t.getS o.b).toNat
    if beat < s.now + 16 then pure (setPres o false) else
    if !s.eventRoom then throw .hold else
    upd fun s => s.modTable j.act num fun t => { t with swap := some (beat, d.base, d.len) }
    pure (setPres o true)

/-- The swap beat of a table arrives. -/
def execTableSwapEvent (act num : Nat) (s : State) : Host.Outcome State Fault Refusal := .next (s.swapTable act num)

/-- TBL.VER (R104). Where no version has been replaced, the spec states no value. -/
def execTblVer (o : Insn) (s : State) : Host.Outcome State Fault Refusal :=
  engine Form.tblVer o s [] [] fun _ j => do
    let known ← updGet fun s => s.lookup j.act (o.fld 0 8)
    let v ← match known.bind (·.ver) with
      | some b => pure b
      | none => updGet fun s => s.draw 64
    pure [.setS o.dst (BitVec.ofNat 64 v)]

/-! ## Table control (R274) -/

/-- A table control block that R274 does not refuse: its operation and its table. -/
def State.tableBlock (s : State) (j : Job) : Option (Nat × Table) :=
  let b := j.data
  let op := leAt b 0 1
  let rows := leAt b 2 2
  let ok := if op = 0 then decide (1 ≤ rows ∧ rows ≤ 256 ∧ 0x10 + rows * 16 ≤ b.length) else rows == 0 && leAt b 8 8 == 0
  if decide (op ≤ 2 ∧ 0x10 ≤ b.length) && ok && leAt b 4 4 == 0 then (s.table? j.act (leAt b 1 1)).map fun t => (op, t) else none

/-- A loader call of table control with an operation. A block that R274 refuses counts as one of operation 0. -/
def State.tableCall (s : State) (job op : Nat) (run : State → Job → Table → State) : State :=
  match s.loaderCall job 6 with
  | none => s
  | some j =>
    let named := leAt j.data 0 1
    if named ≠ op ∧ !(op = 0 ∧ named > 2) then s else
    match s.tableBlock j with
    | none => s.endLoader job 0x61 0x12 0 []
    | some (_, t) => if (s.wnz.tables.any fun t => t.undef == some job || t.blocks.any (·.job == job)) then s else run s j t

/-- The moves that a MIGRATE block names: row and target. -/
def migrateRows (b : List Byte) : List (Nat × Nat) :=
  (List.range (leAt b 2 2)).map fun k => (leAt b (0x10 + 16 * k) 8, leAt b (0x18 + 16 * k) 8)

/-- Whether R278 step 1 refuses one move of a block. -/
def State.moveRefused (s : State) (t : Table) (row target : Nat) : Bool :=
  let size := t.rowBytes
  let own := t.base + row * size
  decide (row ≥ t.len / size) || t.moves.any (·.row == row)
    || target % size != 0 || decide (target < stackView) || (match locate target with
      | .stack _ _ => false
      | _ => true)
    || s.rangeGuarded target size || !s.extentHas t.act target size
    || (physOf target != physOf own && s.wnz.tables.any fun u => rangesMeet target size u.base u.len)
    || s.wnz.tables.any fun u => u.dir.any (fun e => !(u.act == t.act && u.num == t.num && e.1 == row) && rangesMeet target size e.2 u.rowBytes)
        || u.moves.any (fun m => rangesMeet target size m.target u.rowBytes)

/-- Whether the directory and the moves keep to Table 9.7 with moves of the rows given: a row that has an entry takes no second one. -/
def State.movesRoom (s : State) (t : Table) (rows : List Nat) : Bool :=
  let all (u : Table) := u.dir.length + (u.moves.filter fun m => !(u.dir.any (·.1 == m.row))).length
  let more := (rows.filter fun r => !(t.dir.any (·.1 == r))).length
  decide (all t + more ≤ 4096 ∧ (s.wnz.tables.map all).sum + more ≤ 65536 ∧ t.moves.length + rows.length ≤ 256
    ∧ (s.wnz.tables.map (·.moves.length)).sum + rows.length ≤ 2048)

def execTableMigrate (job : Nat) (s : State) : Host.Outcome State Fault Refusal :=
  .next (s.tableCall job 0 fun s j t =>
    let flip := leAt j.data 8 8
    let ms := migrateRows j.data
    let late := match t.swap with
      | some x => decide (x.1 ≤ flip)
      | none => false
    if decide (flip < j.pickup + 64 ∨ j.pickup + 65536 < flip) || late || ms.any (fun m => s.moveRefused t m.1 m.2)
        || (ms.map (·.1)).eraseDups.length != ms.length
        || ms.zipIdx.any (fun a => ms.zipIdx.any fun b => a.2 != b.2 && rangesMeet a.1.2 t.rowBytes b.1.2 t.rowBytes)
      then s.endLoader job 0x61 0x12 0 []
    else if !s.movesRoom t (ms.map (·.1)) then s.endLoader job 0x21 0 0 []
    else if !s.eventRoom then s
    else s.modTable t.act t.num fun t => { t with
      moves := t.moves ++ ms.map fun m => ⟨m.1, t.rowAt t.version m.1, m.2, flip, job, 0⟩
      blocks := t.blocks ++ [⟨job, flip, 0⟩] })

/-- The directory entries of a table (R277): the rows in HOME and those in MOVING. -/
def Table.entries (t : Table) : Nat :=
  t.dir.length + (t.moves.filter fun m => m.stage != 0 && !(t.dir.any (·.1 == m.row))).length

/-- The first beat of the last complete window, for a table that has seen none close: with no window complete yet the spec states no value. -/
def State.windowStart (s : State) (t : Table) : Nat × State :=
  if t.lastStart < 2 ^ 64 then (t.lastStart, s)
  else if s.now < 65536 then s.draw 64
  else ((s.now / 65536 - 1) * 65536, s)

/-- The load report of Table 9.5. -/
def State.loadReport (s : State) (t : Table) (start : Nat) : List Byte :=
  let hot := (sortBy (fun (a b : Nat × Nat) => decide (a.2 > b.2 ∨ a.2 = b.2 ∧ a.1 < b.1)) t.lastLoad.hot).take 64
  let moved (st : Nat) := (t.dir.filter fun e => stackOf e.2 == st).length
  padTo 0#8 1856 (leBytes 0x4C4F4144 4 ++ leBytes t.num 1 ++ leBytes hot.length 1 ++ leBytes (b2n (s.tracked t)) 1 ++ zeros 1
    ++ leBytes start 8 ++ leBytes t.entries 4 ++ zeros 44
    ++ ((List.range 24).flatMap fun st => leBytes (kvGet 0 t.lastLoad.reads st) 8 ++ leBytes (kvGet 0 t.lastLoad.updates st) 8
      ++ leBytes (moved st) 4 ++ zeros 12)
    ++ hot.flatMap fun e => leBytes e.1 8 ++ leBytes e.2 4 ++ leBytes (kvGet 0 t.lastHomes e.1) 1 ++ zeros 3)

def execTableReport (job : Nat) (s : State) : Host.Outcome State Fault Refusal :=
  .next (s.tableCall job 1 fun s j t =>
    if j.desc.resLen < 1856 then s.endLoader job 0x61 0x12 0 [] else
    let (start, s) := s.windowStart t
    s.endLoader job 0 0 0 (s.loadReport t start))

def execTableUndefine (job : Nat) (s : State) : Host.Outcome State Fault Refusal :=
  .next (s.tableCall job 2 fun s _ t => if t.undef.isSome then s else s.modTable t.act t.num fun t => { t with undef := some job })

/-- An UNDEFINE takes effect (R275). -/
def execTableUndefineEffect (act num : Nat) (s : State) : Host.Outcome State Fault Refusal :=
  .next (match s.table? act num with
    | none => s
    | some t =>
      match t.undef with
      | none => s
      | some job =>
        if (s.wnz.ops.any fun o => o.func != 0 && o.act == act && o.table == num) || t.moves.any (·.stage != 0) || t.swap.isSome
          then s
        else
          let s := t.moves.foldl (fun s m => s.cancelRowMove t m) s
          let s := t.blocks.foldl (fun s b => s.endLoader b.job 0 0 b.flipped []) s
          ({ s with wnz := { s.wnz with tables := s.wnz.tables.filter fun u => !(u.act == act && u.num == num) } }).endLoader
            job 0 0 0 [])

/-! ## Migration (R278) -/

/-- Step 2: rows enter MOVING while no UPD that names the table is registered. -/
def execMigrationMovingEnter (act num : Nat) (s : State) : Host.Outcome State Fault Refusal :=
  .next (
    if s.wnz.ops.any fun o => o.func == 2 && o.act == act && o.table == num && o.registered then s
    else s.modTable act num fun t => { t with
      moves := updWhere (·.stage == 0) (fun m => { m with stage := 1, source := t.rowAt t.version m.row }) t.moves })

/-- Step 3: the copy of a row completes before its flip beat. -/
def execMigrationCopyComplete (act num row : Nat) (s : State) : Host.Outcome State Fault Refusal :=
  .next (match (s.table? act num).bind fun t => (t.moves.find? fun m => m.row == row && m.stage == 1).map fun m => (t, m) with
    | none => s
    | some (t, m) =>
      if m.flip ≤ s.now then s else
      let (b, bad, s) := s.readMem 3 m.source t.rowBytes
      if bad then s else
      (s.writeMem 3 m.target b).modTable act num fun t => { t with
        moves := updWhere (·.row == row) (fun m => { m with stage := 2 }) t.moves })

/-- Step 5. -/
def execMigrationFlip (act num : Nat) (s : State) : Host.Outcome State Fault Refusal := .next (s.flipTable act num s.now)

/-- Step 6: the loader job of a block completes once its moves are over and the lookups from before its flip beat have ended. -/
def execMigrationSourceRelease (act num job : Nat) (s : State) : Host.Outcome State Fault Refusal :=
  .next (match (s.table? act num).bind fun t => (t.blocks.find? (·.job == job)).map fun b => (t, b) with
    | none => s
    | some (t, b) =>
      let early := s.wnz.ops.any fun o => o.func != 0 && o.act == act && o.table == num && o.registered && decide (o.regBeat < b.flip)
      if s.now < b.flip || t.moves.any (·.job == job) || early then s else
      (s.modTable act num fun t => { t with blocks := t.blocks.filter (·.job != job) }).endLoader job 0 0 b.flipped [])

/-- A load window closes (R276), once: its counts are the ones that are reported. No window has closed where the start is 2^64. -/
def execLoadWindowEnd (s : State) : Host.Outcome State Fault Refusal :=
  .next (
    if s.now % 65536 ≠ 0 ∨ s.now = 0 then s else
    let close (t : Table) : Table := if t.lastStart = s.now - 65536 then t else { t with
      lastLoad := t.load, load := Load.none, lastStart := s.now - 65536
      lastHomes := t.load.hot.foldl (fun l e => kvSet 0 l e.1 (stackOf (t.rowAt t.version e.1))) [] }
    { s with wnz := { s.wnz with tables := s.wnz.tables.map close } })

end Sys2Proof.Machine
end

