-- ==== Sys2Proof/Machine/Membership.lean ====
section
/-! DEFINITION. The membership of the Carousel (R352 to R355), its lanes, lasers and links (R346, R347, R378), and the broadcasts about
them. -/
namespace Sys2Proof.Machine

/-! ## STATE and the safety net -/

/-- CAR_STATUS.STATE: 0 out, 1 listening, 2 joining, 3 member, 4 leaving. -/
def State.carState (s : State) : Nat := s.rd F.carStatus_state

/-- Whether the node is a member, leaving ones included. -/
def State.isMember (s : State) : Bool := s.carState == 3 || s.carState == 4

/-- The switches closed together (R352), with the links dark. -/
def State.closeNet (s : State) : State :=
  let s := s.wr F.carStatus_netClosed 1
  (List.range 8).foldl (fun s l => (s.wr (F.carLinkStatus_txUp l) 0).wr (F.carLinkStatus_rxUp l) 0) s

/-- The node's own position. -/
def State.position (s : State) : Nat := s.rd F.carCfg_position

/-- The maps of members and bypassed positions written. -/
def State.setMembers (s : State) (m : Nat) : State := s.wr64 F.carMembersLo_map F.carMembersHi_map m
def State.setBypassed (s : State) (m : Nat) : State := s.wr64 F.carBypassedLo_map F.carBypassedHi_map m

/-- The node out of the Carousel (R355): switches closed, STATE out, its node number no longer valid. NODE, which means nothing while VALID
is 0 (R15), goes back to its reset value 0 (DESIGN CHOICE, log 165). LOCKED and BEAT_LOCK clear (log 178). -/
def State.leaveCarousel (s : State) : State :=
  let s := ((s.closeNet.wr F.carStatus_state 0).wr F.carStatus_alone 0).wr F.glbNodeId_valid 0
  let s := ((s.wr F.glbNodeId_node 0).wr F.carStatus_beatLock 0).wr F.talStatus_locked 0
  let s := ((s.setMembers 0).setBypassed 0).wr F.talStatus_calliope 0
  let s := { s with tally := { s.tally with published := [] } }
  s.modCar fun c => { c with changes := [], joins := [], lostRings := [] }

/-- Whether what closes the safety net still holds: a reset of the CAR block, RESET_N, or the loss of supply (R352, log 175). -/
def State.netHeld (s : State) : Bool :=
  (s.rst.run.any fun r => decide (r.level < 2)) || s.on F.funInputs_resetHeld || !s.pins.powered

/-- Back to listening after a failed join or a conflict (R353, R354). -/
def State.listen (s : State) : State :=
  let s := s.leaveCarousel.wr F.carStatus_state 1
  s.modCar fun c => { c with listenFrom := s.now, admission := none, hellos := [] }

/-- JOIN written 0 on a listening node: it listens no more, and takes no admission (logs 170, 178). -/
def State.stopListening (s : State) : State :=
  ((((s.wr F.carStatus_state 0).wr F.carStatus_alone 0).wr F.carStatus_beatLock 0).wr F.talStatus_locked 0).modCar fun c =>
    { c with admission := none, changes := [] }

/-- A membership change registered. -/
def State.addChange (s : State) (m : Member) : State :=
  s.modCar fun c => { c with changes := c.changes ++ [m] }

/-- A joining node hears through its taps who else comes and goes before its own admission beat: the members that it will enter among. -/
def State.learn (s : State) (known : Nat → Nat) : State :=
  if s.carState = 2 then s.modCar fun c => { c with admission := c.admission.map fun a => (a.1, known a.2) } else s

/-! ## Ring pairs in service (R351) -/

/-- The length of the run of bypassed positions behind a position on a ring: one position per unit of fuel. -/
def State.bypassRun (s : State) (r p : Nat) : Nat → Nat
  | 0 => 0
  | f + 1 =>
    let q := ringNext (max 1 (s.rd F.carCfg_size)) r p
    if s.members.testBit q then 0 else 1 + s.bypassRun r q f

/-- Whether a pair is in service: lit, and no link of it crosses four or more bypassed positions. -/
def State.inService (s : State) (k : Nat) : Bool :=
  s.lit k && (List.range 64).all fun p => !s.members.testBit p || decide (s.bypassRun (2 * k) p 64 ≤ 3 ∨ s.bypassRun (2 * k) p 64 = 64)

/-- CAR_STATUS.PAIRS recomputed: a lit pair that goes out of service is logged. -/
def State.setPairs (s : State) : State :=
  (List.range 4).foldl (fun s k =>
    let was := bitOf (s.rd F.carStatus_pairs) k
    let is := s.inService k
    let s := s.wr ⟨F.carStatus_pairs.off, 4 + k, 1⟩ (b2n is)
    if was && !is && s.lit k then s.logCar 5 s.self 0 else s) s

/-- The position from which an incoming link receives, by its ring: the member before this one. -/
def State.before (s : State) (r : Nat) : Option Nat := s.land (r + 1 - 2 * (r % 2)) s.position (s.rd F.carCfg_size)

/-- The links to and from a position train: what goes there waits (R353 step 4). -/
def State.untrain (s : State) (pos : Nat) : State :=
  (List.range 8).foldl (fun s l =>
    let s := if s.land l s.position (s.rd F.carCfg_size) = some pos ∨ pos = s.position then s.wr (F.carLinkStatus_txUp l) 0 else s
    if s.before l = some pos ∨ pos = s.position then s.wr (F.carLinkStatus_rxUp l) 0 else s) s

/-! ## Joining (R353, R354) -/

/-- CAR_CTRL.JOIN = 1: an idle node listens. -/
def execCarJoin (src : Src) (s : State) : Host.Outcome State Fault Refusal :=
  .next (
    if !s.reaches src || s.netHeld then s else
    let s := s.wr F.carCtrl_join 1
    if s.carState = 0 then s.listen else s)

/-- A listening node that hears no marker for 64 beats is alone. -/
def execAloneDetect (s : State) : Host.Outcome State Fault Refusal :=
  .next (
    if s.carState = 1 ∧ s.car.listenFrom + 64 ≤ s.now ∧ s.car.lastMarker ≤ s.car.listenFrom then s.wr F.carStatus_alone 1 else s)

/-- CAR_ADMIT_BEAT. -/
def State.admitBeat (s : State) : Nat := s.rd64 F.carAdmitBeatLo_beat F.carAdmitBeatHi_beat

/-- CAR_ADMIT with GO = 1 and LEAVE = 0: an admission is broadcast, or an ALONE node founds the Carousel (R354). -/
def execCarAdmit (src : Src) (pos : Nat) (s : State) : Host.Outcome State Fault Refusal :=
  .next (
    let b := s.admitBeat
    if !s.reaches src then s
    else if s.isMember then
      if s.members.testBit pos ∨ b < s.now + 1024 ∨ pos ≥ s.rd F.carCfg_size then s.logCar 6 pos 0 else
      let s := s.broadcast (.enter pos b s.now (s.rd F.carCfg_size) (s.rd F.carCfg_pairEn) s.members false)
      s.addChange ⟨0, pos, b, none⟩
    else if s.carState = 1 ∧ s.on F.carStatus_alone ∧ pos = s.position ∧ s.now + 1024 ≤ b then
      (s.addChange ⟨0, pos, b, none⟩).modCar fun c => { c with admission := some (b, 0) }
    else s.logCar 6 pos 0)

/-- CAR_ADMIT with GO = 1 and LEAVE = 1: a planned leave of a position (R355). -/
def execCarRemove (src : Src) (pos : Nat) (s : State) : Host.Outcome State Fault Refusal :=
  .next (
    let b := s.admitBeat
    if !s.reaches src then s else
    if !s.isMember ∨ !s.members.testBit pos ∨ b < s.now + 1024 then s.logCar 6 pos 0 else
    let s := s.broadcast (.enter pos b s.now (s.rd F.carCfg_size) (s.rd F.carCfg_pairEn) s.members true)
    let s := if pos = s.position then s.wr F.carStatus_state 4 else s
    s.addChange ⟨1, pos, b, none⟩)

/-- A planned leave of this node 1,024 beats ahead. -/
def State.planLeave (s : State) : State :=
  if s.carState ≠ 3 then s else
  let b := s.now + 1024
  let s := s.broadcast (.enter s.position b s.now (s.rd F.carCfg_size) (s.rd F.carCfg_pairEn) s.members true)
  (s.wr F.carStatus_state 4).addChange ⟨1, s.position, b, none⟩

/-- CAR_CTRL.LEAVE = 1. -/
def execCarLeave (src : Src) (s : State) : Host.Outcome State Fault Refusal :=
  .next (if s.reaches src then s.planLeave else s)

/-- A broadcast of an admission or a planned leave arrives. A member registers it and acknowledges; a listening node takes the admission of
its own position when SIZE and PAIR_EN match and it is locked to the beat. -/
def execAdmissionReceive (pos beat written size pairEn members : Nat) (leave : Bool) (s : State) : Host.Outcome State Fault Refusal :=
  .next (
    let b : Bcast := .enter pos beat written size pairEn members leave
    if s.isMember then
      if leave then
        let s := if pos = s.position then s.wr F.carStatus_state 4 else s
        (s.addChange ⟨1, pos, beat, none⟩).heard b
      else if s.members.testBit pos ∨ beat < written + 1024 then (s.logCar 6 pos 0).relay b
      else (s.addChange ⟨0, pos, beat, none⟩).heard b
    else if s.carState = 1 ∧ !leave ∧ pos = s.position ∧ size = s.rd F.carCfg_size ∧ pairEn = s.rd F.carCfg_pairEn
        ∧ s.on F.carStatus_beatLock then
      ((s.wr F.carStatus_state 2).addChange ⟨0, pos, beat, none⟩).modCar fun c => { c with admission := some (beat, members), hellos := [] }
    else if s.carState = 2 ∧ pos ≠ s.position then s.addChange ⟨b2n leave, pos, beat, none⟩
    else s)

/-! ## The membership beat -/

/-- A position takes the role of Calliope (R404). -/
def State.setCalliope (s : State) (pos : Nat) : State :=
  let s := (s.wr F.talStatus_calliopeNode pos).count 0xB3B 1
  s.wr F.talStatus_calliope (b2n (pos == s.position))

/-- The pairs whose ledger a removed position held are broken (R481), for the jobs under way as well. -/
def State.breakPairs (s : State) (pos : Nat) : State :=
  let cut (p : Pair) : Pair := if p.ledger = pos then { p with broken := true } else p
  { s with fil := { s.fil with
    pairs := s.fil.pairs.map cut
    jobs := s.fil.jobs.map fun (j : Job) => { j with pair := j.pair.map cut } } }

/-- A position removed from the members (R355), with its last committed beat. -/
def State.removeMember (s : State) (pos : Nat) : State :=
  if !s.members.testBit pos then s else
  let s := ((s.setMembers (s.members - 2 ^ pos)).setBypassed (s.bypassed ||| 2 ^ pos)).breakPairs pos
  let s := { s with tally := { s.tally with published := s.tally.published.filter (·.1 != pos) } }
  (s.modCar fun c => { c with joins := c.joins.filter (·.1 != pos), lostRings := c.lostRings.filter (·.1 != pos) }).count 0x914 1

/-- Hellos on the links of the lit pairs (R353). -/
def State.sendHello (s : State) : State :=
  s.ctl 2 ((List.range 8).filter fun l => s.lit (l / 2)) (.hello (s.rd F.carCfg_size) s.position)

/-- A node whose switches are open sends hellos each beat, unless a perturbation holds them (log 168). -/
def State.beatHello (s : State) : State :=
  if s.on F.carStatus_netClosed || decide (s.carState < 2) || decide (s.now < s.fun_.helloHold) || decide (s.rd F.carCfg_size ≤ 1) then s
  else s.sendHello

/-- The node's own admission beat: it opens its switches; a founder is a member at once and Calliope (R354). -/
def State.enterCarousel (s : State) (known : Nat) : State :=
  let s := (s.wr F.carStatus_netClosed 0).wr F.carStatus_alone 0
  let s := ((s.setMembers (known ||| 2 ^ s.position)).setBypassed 0).count 0x914 1
  let s := s.untrain s.position
  if known = 0 then
    let s := ((s.wr F.carStatus_beatLock 1).setCalliope s.position).wr F.talStatus_locked 1
    ((s.wr F.carStatus_state 3).wr F.glbNodeId_valid 1).wr F.glbNodeId_node s.position
  else if s.now < s.fun_.helloHold then s
  else s.sendHello

/-- One membership change. `elected` is the position that the election of R404 names where a Calliope was lost. -/
def State.changeMember (elected : Nat) (s : State) (m : Member) : State :=
  match m.kind, m.ring with
  | 0, _ =>
    if m.position = s.position ∧ !s.isMember then
      if s.netHeld then s else
      match s.car.admission with
      | some (_, known) => (s.enterCarousel known).modCar fun c => { c with admission := some (m.beat, known) }
      | none => s
    else if s.isMember ∨ (s.carState = 2 ∧ !s.on F.carStatus_netClosed) then
      let s := (s.setMembers (s.members ||| 2 ^ m.position)).setBypassed (s.bypassed - (if s.bypassed.testBit m.position then 2 ^ m.position else 0))
      let s := s.modCar fun c => { c with
        joins := c.joins ++ [(m.position, m.beat)], lostRings := c.lostRings.filter (·.1 != m.position) }
      (s.untrain m.position).count 0x914 1
    else s.learn fun k => k ||| 2 ^ m.position
  | 2, some r => s.modCar fun c => { c with lostRings := c.lostRings.filter (· != (m.position, r)) ++ [(m.position, r)] }
  | k, _ =>
    let s := if k = 2 then s.logCar 3 m.position 0 else if k = 3 then s.logCar 4 m.position 0 else s
    if m.position = s.position then s.leaveCarousel
    else
      let s := (s.learn fun n => if n = 2 ^ m.position ∨ !n.testBit m.position then n else n - 2 ^ m.position).removeMember m.position
      if k = 2 ∧ s.rd F.talStatus_calliopeNode = m.position then s.setCalliope elected else s

/-- A membership beat: the changes that are due take effect in order, and the pairs in service and routes follow from them. -/
def execMembershipBeat (elected : Nat) (s : State) : Host.Outcome State Fault Refusal :=
  .next (
    let due := s.car.changes.filter fun m => decide (m.beat ≤ s.now)
    if due.isEmpty then s else
    let s := s.modCar fun c => { c with changes := c.changes.filter fun m => !decide (m.beat ≤ s.now) }
    (due.foldl (State.changeMember elected) (s.fired due.length)).setPairs)

/-- A hello on a lit incoming link of a joining node, from the position that the ring names. -/
def execHelloReceive (link size pos : Nat) (s : State) : Host.Outcome State Fault Refusal :=
  .next (
    let s := if link < 8 ∧ s.lit (link / 2) then s.count (0x908 + link) (Config.ctlBytes 2) else s
    if s.carState = 2 ∧ link < 8 ∧ s.lit (link / 2) ∧ size = s.rd F.carCfg_size ∧ s.before link = some pos then
      s.modCar fun c => { c with hellos := c.hellos.filter (· != link) ++ [link] }
    else s)

/-- The links of a position finish training: what members hold for them goes on. A link across four or more bypassed positions stays
dark (R351). -/
def execLinkTrained (link : Nat) (s : State) : Host.Outcome State Fault Refusal :=
  .next (
    if link < 8 ∧ !s.on F.carStatus_netClosed ∧ s.lit (link / 2) ∧ !s.on (F.carLinkStatus_laserFail link) then
      let near (r : Nat) : Bool := decide (s.bypassRun r s.position 64 ≤ 3)
      let s' := if near link then s.wr (F.carLinkStatus_txUp link) 1 else s
      if near (link + 1 - 2 * (link % 2)) then s'.wr (F.carLinkStatus_rxUp link) 1 else s'
    else s)

/-- With hellos on every lit link, within 64 beats of the admission beat, the joining node is a member. -/
def execJoinConfirm (s : State) : Host.Outcome State Fault Refusal :=
  .next (match s.car.admission with
    | some (b, _) =>
      let lit := (List.range 8).filter fun l => s.lit (l / 2) && (s.before l).isSome
      if s.carState = 2 ∧ !s.on F.carStatus_netClosed ∧ b ≤ s.now ∧ s.now ≤ b + 64 ∧ lit.all s.car.hellos.contains then
        let s := ((s.wr F.carStatus_state 3).wr F.glbNodeId_valid 1).wr F.glbNodeId_node s.position
        s.modCar fun c => { c with admission := none }
      else s
    | none => s)

/-- A join that fails: the joining node listens again after 64 beats, and members remove the position at the admission beat + 128. -/
def execJoinTimeout (s : State) : Host.Outcome State Fault Refusal :=
  .next (
    if s.carState = 2 then
      match s.car.admission with
      | some (b, _) => if b + 64 < s.now then s.listen else s
      | none => s
    else
      let late := s.car.joins.filter fun j => decide (j.2 + 128 ≤ s.now)
      if late.isEmpty then s else
      (late.foldl (fun s j => (s.removeMember j.1).logCar 4 j.1 0) s).setPairs)

/-- Markers of two founders meet: the one of the higher position closes its switches and listens (R354). -/
def execFounderConflict (pos : Nat) (s : State) : Host.Outcome State Fault Refusal :=
  .next (if s.isMember ∧ s.on F.talStatus_calliope ∧ pos < s.position then s.listen.logCar 4 s.position 0 else s)

/-! ## Losses (R355, R347) -/

/-- A loss registered and broadcast with a removal beat 16 beats ahead. -/
def State.declareLoss (s : State) (pos : Nat) (ring : Option Nat) : State :=
  if !s.isMember || (s.car.changes.any fun c => c.kind == 2 && c.position == pos && c.ring == ring) then s else
  (s.broadcast (.loss pos (s.now + 16) ring)).addChange ⟨2, pos, s.now + 16, ring⟩

/-- No light or hellos of a member for 4 beats. -/
def execNeighbourLossDetect (pos : Nat) (s : State) : Host.Outcome State Fault Refusal :=
  .next (if s.members.testBit pos ∧ pos ≠ s.position then s.declareLoss pos none else s)

def execLossBroadcastReceive (pos beat : Nat) (ring : Option Nat) (s : State) : Host.Outcome State Fault Refusal :=
  .next (
    if !s.isMember ∧ s.carState ≠ 2 then s else
    let s := if s.isMember then s.heard (.loss pos beat ring) else s
    if s.car.changes.any fun c => c.kind == 2 && c.position == pos && c.ring == ring then s
    else s.addChange ⟨2, pos, beat, ring⟩)

/-! ## Lanes and lasers (R346, R347, R378) -/

/-- A link that goes down: its position is lost on that ring. -/
def State.linkDown (s : State) (l : Nat) : State :=
  (s.wr (F.carLinkStatus_txUp l) 0).declareLoss s.position (some l)

/-- A bad lane: the ninth lane takes its place, also where it stood in for a lane that is not bad; a second bad lane takes the link down.
A bad ninth lane gives back the lane that it stood in for (log 169). A link has one spare lane and one spare laser, so that each use is logged
as the last (log 177). -/
def State.laneBad (s : State) (link lane : Nat) : State :=
  let bad := s.rd (F.carLinkStatus_lanesBad link)
  if link ≥ 8 ∨ lane ≥ 9 ∨ bitOf bad lane then s else
  let s := s.wr (F.carLinkStatus_lanesBad link) (bad + 2 ^ lane)
  if bad ≠ 0 then (s.linkDown link).alerted (·.logSpare 4 link lane true)
  else if lane = 8 then s.wr (F.carLinkStatus_spareUsed link) 0
  else ((s.wr (F.carLinkStatus_spareUsed link) 1).wr (F.carLinkStatus_spareFor link) lane).alerted (·.logSpare 4 link lane true)

def execLaneBad (link lane : Nat) (s : State) : Host.Outcome State Fault Refusal := .next (s.laneBad link lane)

/-- A laser below half its power: the spare laser, or the link is down. -/
def State.laserLow (s : State) (link : Nat) : State :=
  if link ≥ 8 ∨ s.on (F.carLinkStatus_laserFail link) then s
  else if s.on (F.carLinkStatus_laserSpareUsed link) then ((s.wr (F.carLinkStatus_laserFail link) 1).linkDown link).alerted (·.logSpare 5 link 0 true)
  else (s.wr (F.carLinkStatus_laserSpareUsed link) 1).alerted (·.logSpare 5 link 0 true)

def execLaserPowerLow (link : Nat) (s : State) : Host.Outcome State Fault Refusal := .next (s.laserLow link)

/-- CAR_LINKl_CTRL with LANE_GO = 1: no effect while the spare lane is in use. -/
def execLinkLaneGo (src : Src) (link lane : Nat) (s : State) : Host.Outcome State Fault Refusal :=
  .next (
    if !s.reaches src ∨ link ≥ 8 ∨ lane ≥ 8 ∨ s.on (F.carLinkStatus_spareUsed link) then s
    else (s.wr (F.carLinkStatus_spareUsed link) 1).wr (F.carLinkStatus_spareFor link) lane)

/-- CAR_LINKl_CTRL with LASER_GO = 1: no effect while the spare laser is in use. -/
def execLinkLaserGo (src : Src) (link : Nat) (s : State) : Host.Outcome State Fault Refusal :=
  .next (
    if !s.reaches src ∨ link ≥ 8 ∨ s.on (F.carLinkStatus_laserSpareUsed link) then s
    else s.wr (F.carLinkStatus_laserSpareUsed link) 1)

end Sys2Proof.Machine
end

