-- ==== Sys2Proof/Machine/Slices.lean ====
section
/-! DEFINITION. Slices and their recomposition (R18, R19, SYS.SLICE). -/
namespace Sys2Proof.Machine

/-- The resources of a slice, as numbers. -/
def Slice.res (x : Slice) : List Nat :=
  crewsOf x.crews ++ ((List.range 8).filter (bitOf x.links)).map (16 + ·) ++ x.chans.map (32 + ·)

/-- A slice without some resources. -/
def Slice.without (x : Slice) (l : List Nat) : Slice :=
  { x with
    crews := (List.range 16).foldl (fun m c => if bitOf m c && l.contains c then m - 2 ^ c else m) x.crews
    links := (List.range 8).foldl (fun m c => if bitOf m c && l.contains (16 + c) then m - 2 ^ c else m) x.links
    chans := x.chans.filter fun c => !l.contains (32 + c) }

/-- The slice that the extension words of SYS.SLICE describe. -/
def sliceOf (e0 e1 : Nat) : Slice where
  act := bits e0 48 4
  num := bits e0 52 8
  crews := bits e0 0 16
  links := bits e0 40 8
  chans := ((List.range 24).filter (bitOf (bits e0 16 24))).flatMap fun t => ((List.range 32).filter (bitOf e1)).map (t * 32 + ·)

/-- Whether a slice still runs a job that it admitted before a beat. -/
def State.oldJobs (s : State) (act num beat : Nat) : Bool :=
  s.fil.jobs.any fun j => j.act == act && j.desc.slice == num && j.desc.routine != 0 && j.phase != .ended && decide (j.pickup < beat)

/-- CREW_SLICE of a crew, from the slice that holds it. -/
def State.showCrew (s : State) (c : Nat) : State :=
  match s.fil.slices.find? fun x => bitOf x.crews c with
  | some x => ((s.wr (F.crewSlice_slice c) x.num).wr (F.crewSlice_act c) x.act).wr (F.crewSlice_assigned c) 1
  | none => ((s.wr (F.crewSlice_slice c) 0).wr (F.crewSlice_act c) 0).wr (F.crewSlice_assigned c) 0

/-- The crews that have joined show their slices. -/
def State.showCrews (s : State) : State :=
  (List.range 16).foldl (fun s c => if s.fil.joining.any (·.res == c) then s else s.showCrew c) s

/-- The persistent tiles of an act that no handle names leave a crew's store (R293). -/
def State.clearCrew (s : State) (act crew : Nat) : State :=
  ((s.demotable act crew).filter fun t => !t.names.isEmpty && !s.named t.id).foldl (fun s t => s.startMove t none) s

/-- Whether a tile of an act is on its way out of a crew's store. -/
def State.clearing (s : State) (act crew : Nat) : Bool :=
  s.fil.tiles.any fun t => t.act == act && t.inCrew crew && s.moving t.id

/-- One recomposition takes effect. A resource that its old slice still uses, or a crew that tiles still leave, joins later. -/
def State.recompose1 (s : State) (r : Recompose) : State :=
  let x := r.slice
  let same (y : Slice) : Bool := y.act == x.act && y.num == x.num
  let lost : List Leaving := s.fil.slices.flatMap fun y =>
    (y.res.filter fun n => if same y then !x.res.contains n else x.res.contains n).map fun n => ⟨n, y.act, y.num, r.beat⟩
  let free : List Leaving := (s.freeCrews.filter x.res.contains).map fun n => ⟨n, 0, 0xFF, r.beat⟩
  let s := (lost.filter fun e => decide (e.res < 16)).foldl (fun s e => s.clearCrew e.act e.res) s
  let wait := (lost ++ free).filter fun e => s.oldJobs e.act e.num e.beat || (decide (e.res < 16) && s.clearing e.act e.res)
  let others := (s.fil.slices.filter (!same ·)).map (·.without x.res)
  let s := { s with fil := { s.fil with slices := others ++ [x], joining := s.fil.joining ++ wait } }
  s.showCrews

/-- At their beats, new compositions take effect for jobs admitted from then on. -/
def execSliceRecompose (s : State) : Host.Outcome State Fault Refusal :=
  .next (
    let (due, later) := s.fil.recompose.partition fun r => decide (r.beat ≤ s.now)
    let s := { s with fil := { s.fil with recompose := later } }
    (due.foldl State.recompose1 (s.fired due.length)).tryStarts)

/-- A resource's last old job has completed, and what its crew held of the old act has moved: it joins. -/
def execSliceResourceJoin (res : Nat) (s : State) : Host.Outcome State Fault Refusal :=
  .next (
    let mine := s.fil.joining.filter (·.res == res)
    if mine.isEmpty || mine.any (fun e => s.oldJobs e.act e.num e.beat) then s else
    let s := if res < 16 then mine.foldl (fun s e => s.clearCrew e.act res) s else s
    if decide (res < 16) && mine.any (fun e => s.clearing e.act res) then s else
    let s := { s with fil := { s.fil with joining := s.fil.joining.filter (·.res != res) } }
    s.showCrews.tryStarts)

/-- SYS.SLICE: a recomposition is registered, or with a beat too early or number 0xFF nothing changes. It waits for an entry of the event
engine (R409). -/
def execSysSlice (o : Insn) (s : State) : Host.Outcome State Fault Refusal :=
  engine Form.sysSlice o s [] (presWrites o) fun t j => do
    need ((← get).isPriv j) cPriv
    let x := sliceOf (o.ext.getD 0 0#64).toNat (o.ext.getD 1 0#64).toNat
    let b := (t.getS o.b).toNat
    if b < (← get).now + 64 || x.num == 0xFF then pure (setPres o false) else
    if !(← get).eventRoom then throw .hold
    upd fun s => { s with fil := { s.fil with recompose := s.fil.recompose ++ [⟨b, x⟩] } }
    pure (setPres o true)

end Sys2Proof.Machine
end

