-- ==== Sys2Proof/Machine/Tally.lean ====
section
/-! DEFINITION. Time and power (chapter 14): the beat and what is decided at it (R399 to R409), the Calliope and its markers (R401 to R405),
wall time (R406), the stable beat (R407), power states (R410 to R412), and the reset sources as they are raised (R445, R449). -/
namespace Sys2Proof.Machine

/-- The Tally changed. -/
def State.modTally (s : State) (f : TallySt → TallySt) : State := { s with tally := f s.tally }

/-! ## Reset sources (R445, R447, R449) -/

/-- The level of a source: power-on and brown-out are cold, and the others as fused. -/
def State.fusedLevel (s : State) (code : Nat) : Nat :=
  if code ≤ 2 then 0 else bits (s.rd F.rstLevelMap_map) (2 * (code - 1)) 2

/-- A source raised at a level: absorbed where a sequence of that level or a deeper one runs, and else taken next. -/
def State.raiseAt (s : State) (code level : Nat) : State :=
  let go : State := { s with rst := { s.rst with raised := s.rst.raised ++ [(⟨code, level, s.now⟩ : Raised)] } }
  match s.rst.run with
  | some r => if r.level ≤ level then s.wr F.rstCause_absorbed 1 else go
  | none => go

/-- A source raised at its fused level. -/
def State.raise (s : State) (code : Nat) : State := s.raiseAt code (s.fusedLevel code)

/-! ## Holdover and the Calliope -/

/-- The node runs on its local reference. -/
def State.holdOver (s : State) : State :=
  if s.on F.talStatus_holdover then s else (s.wr F.talStatus_holdover 1).modTally fun t => { t with holdFrom := s.now }

/-- A marker from upstream: the beat that it carries, this node's phase error in ns, and the Calliope's position. A locked member
corrects its phase; a node that is not locked loads its beat. -/
def execBeatMarkerReceive (beat : Nat) (err : Int) (calliope : Nat) (s : State) : Host.Outcome State Fault Refusal :=
  .next (
    if s.carState = 0 ∨ s.on F.talStatus_calliope then s else
    let loads := !s.on F.talStatus_locked
    let old := s.now
    let late := ((s.sharedBeats ++ s.ownBeats).filter fun b => decide (old ≤ b ∧ b < beat)).length
    let s := if !loads then s else
      let s := (s.bump F.talEvtLate_count late).count 0xB3A late
      let s := if old + 1 < beat ∨ beat + 1 < old then s.wr F.talStatus_stepped 1 else s
      s.modTally fun t => { t with beat := beat, sub := 0 }
    let s := (s.modCar fun c => { c with lastMarker := s.now }).ctlIn 0
    let s := (s.wr F.talPhaseErr_ns (BitVec.ofInt 16 err).toNat).wr F.talStatus_calliopeNode calliope
    let s := ((s.wr F.talStatus_locked 1).wr F.talStatus_holdover 0).wr F.carStatus_beatLock 1
    s.wr F.carStatus_alone 0)

/-- No marker for 4 beats: holdover. A holdover of more than 1,024 beats clears LOCKED. -/
def execMarkerTimeout (s : State) : Host.Outcome State Fault Refusal :=
  .next (
    if s.on F.talStatus_calliope ∨ s.carState = 0 ∨ s.now < s.car.lastMarker + 4 then s else
    let s := s.holdOver
    if s.tally.holdFrom + 1024 < s.now then (s.wr F.talStatus_locked 0).wr F.carStatus_beatLock 0 else s)

/-- A handover registered. -/
def State.addHandover (s : State) (node beat : Nat) : State :=
  if s.tally.handovers.contains (beat, node) then s else s.modTally fun t => { t with handovers := t.handovers ++ [(beat, node)] }

/-- TAL_CAL_CTRL.HANDOVER = 1 on the node that is to take the role: without 1,024 beats' notice it has no effect. -/
def State.askHandover (s : State) : State :=
  let b := s.rd64 F.talHandoverBeatLo_beat F.talHandoverBeatHi_beat
  if !s.isMember ∨ b < s.now + 1024 then s else (s.broadcast (.handover s.position b)).addHandover s.position b

def execCalliopeHandoverRequest (src : Src) (s : State) : Host.Outcome State Fault Refusal :=
  .next (if manages src then s.askHandover else s)

def execHandoverBroadcastReceive (node beat : Nat) (s : State) : Host.Outcome State Fault Refusal :=
  .next (if s.isMember then (s.heard (.handover node beat)).addHandover node beat else s)

/-- The handover beat: the new Calliope goes on from its own Tally, and the old one locks to the new one's markers. -/
def State.handOver (s : State) (node : Nat) : State :=
  let s := (s.setCalliope node).modCar fun c => { c with lastMarker := s.now }
  if s.on F.talStatus_calliope then s.wr F.talStatus_holdover 0 else s

def execCalliopeHandover (s : State) : Host.Outcome State Fault Refusal :=
  .next (
    let (due, later) := s.tally.handovers.partition fun h => decide (h.1 ≤ s.now)
    due.foldl (fun s h => s.handOver h.2) ((s.modTally fun t => { t with handovers := later }).fired due.length))

/-- A clock failure (R405, R505): of REFCLK_SYS, or of CAL_IN where that is the Calliope's source. -/
def State.clockFail (s : State) (refclk : Bool) : State :=
  if !refclk && !(s.on F.talStatus_calliope && s.rd F.talCalCtrl_source == 1) then s else
  let s := (s.wr F.talStatus_clockFail 1).holdOver
  (s.modTally fun t => { t with clockFails := t.clockFails ++ [s.now] }).raise 7

def execClockFailure (refclk : Bool) (s : State) : Host.Outcome State Fault Refusal := .next (s.clockFail refclk)

/-! ## Wall time (R406) -/

/-- The anchor that the TAL_WALL registers hold. -/
def State.wallAnchor (s : State) : Nat × Nat × Nat :=
  (s.rd64 F.talWallBeatLo_beat F.talWallBeatHi_beat, s.rd64 F.talWallSecLo_sec F.talWallSecHi_sec, s.rd F.talWallNs_ns)

/-- TAL_WALL_CTRL.PUBLISH = 1: the Calliope broadcasts its anchor. -/
def State.publishWall (s : State) : State :=
  let (b, sec, ns) := s.wallAnchor
  if s.on F.talStatus_calliope then s.broadcast (.wall b sec ns) else s

def execWallPublish (src : Src) (s : State) : Host.Outcome State Fault Refusal :=
  .next (if manages src then s.publishWall else s)

/-- A member keeps a received anchor for its next beat boundary. -/
def execWallAnchorReceive (beat sec ns : Nat) (s : State) : Host.Outcome State Fault Refusal :=
  .next (
    if s.isMember then (s.heard (.wall beat sec ns)).modTally fun t => { t with wall := some (beat, sec, ns) }
    else s)

/-- The anchor that waits is loaded. -/
def State.loadWall (s : State) : State :=
  match s.tally.wall with
  | none => s
  | some (b, sec, ns) =>
    let s := (s.wr64 F.talWallBeatLo_beat F.talWallBeatHi_beat b).wr64 F.talWallSecLo_sec F.talWallSecHi_sec sec
    (s.wr F.talWallNs_ns ns).modTally fun t => { t with wall := none }

/-! ## The stable beat (R181, R407) -/

/-- Another member's committed beat arrives. -/
def execCommittedBeatReceive (node beat : Nat) (s : State) : Host.Outcome State Fault Refusal :=
  .next (
    if !s.isMember ∨ node = s.position ∨ !s.members.testBit node then s else
    let s := (s.modCar fun c => { c with joins := c.joins.filter (·.1 != node) }).ctlIn 1
    s.modTally fun t => { t with published := (node, beat) :: t.published.filter (·.1 != node) })

/-- The committed beat of the new beat, which a compute reset holds (R450), and the stable beat from it. -/
def State.beatCommit (s : State) : State :=
  let held := s.rst.run.any (·.level == 2)
  let c := if held then s.tally.committed else max s.tally.committed s.committedBeat
  let theirs := (s.tally.published.filter fun p => s.members.testBit p.1).map (·.2)
  let s := s.modTally fun t => { t with committed := c, stable := max t.stable (theirs.foldl min c) }
  if s.isMember then s.ctl 1 s.bcastLink.toList (.committed s.position c) else s

/-! ## Power states (R410, R411) -/

/-- A domain's state set. -/
def State.setPower (s : State) (d : Domain) (p : Nat) : State :=
  match d with
  | .crew c => s.wr ⟨F.pwrCrewState_state.off, 2 * c, 2⟩ p
  | .stack t => s.wr ⟨F.pwrStackState_inP3.off, t, 1⟩ (b2n (p != 0))

/-- The domains of the node. -/
def domains : List Domain := (List.range 16).map .crew ++ (List.range 24).map .stack

/-- The next poll beat of an act, if it is polled (R428). -/
def State.nextPoll (s : State) (act : Nat) : List Nat :=
  if !s.on (F.actCtrl_enable act) || s.on (F.actCtrl_halt act) || !s.fnOn act then [] else
  let p := max 1 (s.rd (F.hifFnPoll_period act))
  let b := s.now + 1
  [b + (s.rd (F.hifFnPoll_phase act) + p - b % p) % p]

/-- The act whose slice holds a crew, and act 0 for a crew in no slice. -/
def State.actOfCrew (s : State) (c : Nat) : Nat :=
  ((s.fil.slices.find? fun x => bitOf x.crews c).map (·.act)).getD 0

/-- The stacks that a seam's version and lists lie in. -/
def Seam.stacks (x : Seam) : List Nat := (x.side.addr :: x.tomb.addr :: x.versions.map (·.addr)).map stackOf

/-- The beats of a domain's known events (R410). -/
def State.domainEvents (s : State) (d : Domain) : List Nat :=
  match d with
  | .crew c =>
    (s.fil.strands.filterMap fun t => match t.wait with
      | .waitb b _ _ => if t.ended || t.crew != c then none else some b
      | _ => none)
      ++ (s.fil.recompose.filter fun r => r.slice.res.contains c).map (·.beat) ++ s.nextPoll (s.actOfCrew c)
  | .stack t =>
    let seams := (s.idx.indexes.flatMap (·.seams)).filter fun x => x.stacks.contains t
    (if s.on F.memCtrl_scrubEn then [(s.now + 1024) / 4096 * 4096 + 3072] else [])
      ++ seams.filterMap (·.backfill)
      ++ (s.idx.rebalances.filter fun m => decide (s.now < m.beat) && seams.any fun x => x.act == m.act && x.seam == m.seam).map (·.beat)
      ++ s.wnz.tables.flatMap fun w => (w.moves.filter fun m => stackOf m.source == t || stackOf m.target == t).map (·.flip)

/-- Whether a domain has no queued or running work. -/
def State.domainIdle (s : State) (d : Domain) : Bool :=
  match d with
  | .crew c =>
    (s.fil.strands.all fun t => t.ended || t.crew != c || (t.inflight.isEmpty && match t.wait with
      | .waitb _ _ _ => true
      | _ => false)) && s.fil.jobs.all fun j => j.phase != .cores || !j.crews.contains c
  | .stack t =>
    (s.wnz.ops.all fun o => o.parts.all fun p => p.stack != t || p.stands == .done)
      && s.mem.copies.all (·.1 != t) && s.mem.retiring.all fun r => r.kind != 0 || r.unit != t

/-- The states allowed to a domain, deepest first. -/
def State.allowedStates (s : State) (d : Domain) : List Nat :=
  match d with
  | .crew c => (List.range (bits (s.rd F.pwrCrewMax_max) (2 * c) 2 + 1)).reverse
  | .stack t => if bitOf (s.rd F.pwrStackMax_allowP3) t then [3, 0] else [0]

/-- The ns from now to the beat of a domain's next event, and nothing where it has none. -/
def State.timeLeft (s : State) (d : Domain) : Option Nat :=
  match s.domainEvents d with
  | [] => none
  | b :: t => some (t.foldl min b * 1024 - s.ns)

/-- The state that R410 chooses for an idle domain. -/
def State.chosenState (s : State) (d : Domain) : Nat :=
  if !s.on F.pwrCtrl_autoEn then 0 else
  ((s.allowedStates d).find? fun p => p == 0 || match s.timeLeft d with
    | none => true
    | some n => decide (wakeNs p + s.rd F.pwrCtrl_marginNs ≤ n)).getD 0

/-- The controller's decision for one domain at a beat boundary. -/
def State.decidePower (s : State) (d : Domain) : State :=
  if !s.domainIdle d || s.pwr.waking.any (·.1 == d) then s else
  let p := s.chosenState d
  if p < s.powerOf d then s.startWake d else s.setPower d p

/-- A domain named by its kind and number. -/
def domainOf (crew : Bool) (n : Nat) : Domain := if crew then .crew n else .stack n

/-- The wake ahead of a domain's next event. -/
def execDomainWakeStart (crew : Bool) (n : Nat) (s : State) : Host.Outcome State Fault Refusal :=
  .next (
    let d := domainOf crew n
    match s.timeLeft d with
    | some t => if t ≤ ceilDiv (wakeNs (s.powerOf d) + s.rd F.pwrCtrl_marginNs) 1024 * 1024 then s.startWake d else s
    | none => s)

/-- A waking domain reaches P0. -/
def execDomainWakeComplete (crew : Bool) (n : Nat) (s : State) : Host.Outcome State Fault Refusal :=
  .next (
    let d := domainOf crew n
    if !(s.pwr.waking.any fun w => w.1 == d && decide (w.2 ≤ s.ns)) then s else
    let left := s.pwr.waking.filter (·.1 != d)
    ({ s with pwr := { s.pwr with waking := left } }.setPower d 0).wr F.pwrStatus_waking (b2n (!left.isEmpty)))

/-! ## P4 (R412) -/

/-- PWR_P4_REQ.GO = 1: P4, where every condition holds. -/
def State.enterP4 (s : State) : State :=
  let idle := (List.range 15).all fun a => !s.on (F.actCtrl_enable (a + 1))
  if s.on F.pwrCtrl_p4En && s.carState == 0 && idle && s.flash.jbuf.isEmpty && s.flash.flushing.isNone then
    (s.wr F.pwrStatus_p4 1).holdOver
  else s

def execP4Enter (src : Src) (s : State) : Host.Outcome State Fault Refusal := .next (if manages src then s.enterP4 else s)

/-- The node begins to leave P4: it is there in 5 ms. -/
def State.leaveP4 (s : State) : State :=
  if s.on F.pwrStatus_p4 ∧ s.pwr.p4Exit.isNone then { s with pwr := { s.pwr with p4Exit := some (s.ns + 5000000) } } else s

def execP4Wake (src : Src) (s : State) : Host.Outcome State Fault Refusal := .next (if manages src then s.leaveP4 else s)

/-- The beat of PWR_P4_WAKE. -/
def execP4TimedWake (s : State) : Host.Outcome State Fault Refusal :=
  .next (
    let b := s.rd64 F.pwrP4WakeLo_beat F.pwrP4WakeHi_beat
    if b ≠ 0 ∧ b ≤ s.now then s.leaveP4 else s)

/-- P4 is over once its wake is. -/
def State.endP4 (s : State) : State :=
  match s.pwr.p4Exit with
  | none => s
  | some t =>
    if s.ns < t then s else
    (({ s with pwr := { s.pwr with p4Exit := none } }).wr F.pwrStatus_p4 0).wr F.talStatus_holdover 0

end Sys2Proof.Machine
end

