-- ==== Sys2Proof/Machine/Reset.lean ====
section
/-! DEFINITION. Resets and boot (chapter 16): the sources (R445, R447, R457), the sequence of cold, warm and compute resets (R446, R448 to R452), the
boot (R458 to R460), and act and block resets (R454 to R456). -/
namespace Sys2Proof.Machine

/-! ## Work that a reset ends -/

/-- A job ended by a reset (Table 16.2): a running one at its strands, a held one at once, and a loader call that is over already not at
all. -/
def State.abortJob (s : State) (detail : Nat) (j : Job) : State :=
  match j.phase with
  | .ended => s
  | .running => if j.desc.routine = 0 then s else s.failJob j.id 0x80 detail
  | _ => s.endEarly j.id 0x80 detail

/-- The jobs that satisfy a test, ended by a reset. -/
def State.abortJobs (s : State) (detail : Nat) (p : Job → Bool) : State :=
  (s.fil.jobs.filter p).foldl (fun s j => s.abortJob detail j) s

/-- The tiles that an instruction in flight is to write or name. -/
def Inflight.tiles (f : Inflight) : List Nat :=
  f.effects.filterMap fun e => match e with
    | .bindT _ t => some t
    | .tile v => some v.id
    | _ => none

/-- Tiles without a name that no handle and no instruction in flight names are released. -/
def State.sweepTiles (s : State) : State :=
  let held := (s.fil.strands.flatMap (·.inflight)).flatMap Inflight.tiles
  (s.fil.tiles.filter fun t => t.names.isEmpty && !s.named t.id && !held.contains t.id).foldl (fun s t => s.removeTile t.id) s

/-- Instructions in flight that an engine's reset drops, without their effects. -/
def State.dropFlight (s : State) (p : Strand → Inflight → Bool) : State :=
  let s := { s with fil := { s.fil with
    strands := s.fil.strands.map (fun (t : Strand) => { t with inflight := t.inflight.filter fun f => !p t f }) } }
  s.closeOreds.sweepTiles

/-- Whether an instruction in flight waits for one of some Winze operations. -/
def Inflight.waitsFor (ids : List Nat) (f : Inflight) : Bool :=
  match f.gate with
  | .winze n => ids.contains n
  | _ => false

/-- Winze operations dropped: their ranges are released, and what waited behind them goes on. -/
def State.dropOps (s : State) (p : WnzOp → Bool) : State :=
  let ids := (s.wnz.ops.filter p).map (·.id)
  let s := { s with wnz := { s.wnz with
    ops := s.wnz.ops.filter (!p ·)
    tables := s.wnz.tables.map (fun (t : Table) => { t with held := t.held.filter fun h => !ids.contains h.op }) } }
  let s := s.dropFlight fun _ f => f.waitsFor ids
  s.applyHeldWrites.serveReads.readLists.takeCommands

/-- The index engine's work in progress dropped (R450): installs in doubt, records not yet written, backfills under way, open cages and
reranks. -/
def State.resetIndex (s : State) : State :=
  let s := s.withdrawAll
  let writing := (s.idx.indexes.flatMap (·.seams)).filterMap (·.writing)
  let s := writing.foldl (fun s v => s.freeAt v.addr) s
  { s with idx := { s.idx with
    indexes := s.idx.indexes.map (fun (i : Index) => { i with seams := i.seams.map (fun (x : Seam) => { x with writing := none }) })
    heldApps := [], cages := [], reranks := [] } }

/-! ## Levels (R446) -/

/-- A compute reset of the crews and engines: every job in flight ends with the cause. -/
def State.computeReset (s : State) (code : Nat) : State :=
  let s := s.abortJobs code fun _ => true
  let s := s.dropFlight fun _ _ => true
  let s := { s with fil := { s.fil with oreds := [] } }
  (s.dropOps fun _ => true).resetIndex

/-- The registers that a warm reset keeps: those of the Tally, the resets, Assay, the scratch register, the pool and what the stacks' contents
rest on, the inputs, and the counts from cold reset. -/
def warmKeeps (off : Nat) : Bool :=
  decide (0x100000 ≤ off ∧ off < 0x300000) || decide (0x3800000 ≤ off ∧ off < 0x3C00000)
    || [Reg.glbScratch, Reg.memPool, Reg.memRowsRetired, Reg.funStatus, Reg.funInputs].contains off
    || (List.range 24).any (fun t => off == Reg.memStackStatus t || off == Reg.memStackSub t || off == Reg.wnzCmdLo t || off == Reg.wnzCmdHi t || off == Reg.wnzSubqLo t
      || off == Reg.wnzSubqHi t)
    || (List.range 16).any (fun c => off == Reg.memCrewStatus c || off == Reg.crewMmaLo c || off == Reg.crewMmaHi c)
    || [Reg.cruPackInLo, Reg.cruPackInHi, Reg.cruPackOutLo, Reg.cruPackOutHi].contains off
    || (List.range 2).any (fun p => off == Reg.mdwPortTxFramesLo p || off == Reg.mdwPortTxFramesHi p || off == Reg.mdwPortRxFramesLo p
      || off == Reg.mdwPortRxFramesHi p)

/-- The registers that only manufacture and the pins set: the committed SVN's word and the inputs. -/
def coldKeeps (off : Nat) : Bool := off == Reg.asySvn || off == Reg.funInputs

/-- Memory after a warm reset: the stacks keep their contents and their spares. -/
def MemSt.warm (m : MemSt) : MemSt where
  bytes := m.bytes.filter fun e => decide (e.1 < crewBase)
  syn := m.syn.filter fun e => decide (e.1 * 64 < crewBase)
  lostCh := m.lostCh
  lostX := m.lostX.filter fun e => decide (e.1 * 64 < crewBase)
  deadCh := m.deadCh
  copies := []
  hits := []
  retiring := []
  retired := m.retired
  period := []

/-- The counters that a cold reset clears, gone; the Tally restarts, and flash, the supplies and what has left the node stay. -/
def State.coldState (s : State) : State :=
  { State.reset with
    regs := kvDrop (fun off => !coldKeeps off) s.regs
    host := { State.reset.host with mute := s.host.mute, out := s.host.out }
    flash := s.flash.detach
    pins := { s.pins with failClear := none, groups := State.reset.pins.groups, alerts := s.pins.alerts.filter (· != 3) }
    free := s.free
    nextId := s.nextId
    pending := s.pending }

/-- The sparing registers after a warm reset: no copy runs, and a dead channel is still shown. -/
def State.showSpares (s : State) : State :=
  let s := (List.range 24).foldl (fun s t => (s.wr (F.memStackStatus_copying t) 0).wr (F.memStackStatus_copyCh t) 0) s
  s.wr F.memStatus_channelDead (b2n (!s.mem.deadCh.isEmpty))

/-- The machine in a warm reset: what Table 16.2 keeps, and the index whose structures the boot looks through. -/
def State.warmState (s : State) : State :=
  let c := s.coldState
  State.showSpares { c with
    regs := kvDrop (fun off => !warmKeeps off) s.regs
    telem := s.telem
    mem := s.mem.warm
    fil := { c.fil with allocs := s.fil.allocs.filter (·.pooled) }
    idx := { c.idx with indexes := s.idx.indexes }
    tally := { c.tally with
      beat := s.tally.beat, sub := s.tally.sub, stable := s.tally.stable, committed := s.tally.committed, holdFrom := s.tally.holdFrom
      clockFails := s.tally.clockFails, wall := s.tally.wall, snaps := s.tally.snaps }
    asy := s.asy }

/-! ## The sequence (R448 to R450) -/

/-- RST_CAUSE and RST_CAUSE_BEAT written; the beat reads 0 after a cold reset. -/
def State.writeCause (s : State) (r : Raised) : State :=
  let s := (s.wr F.rstCause_code r.code).wr F.rstCause_level r.level
  s.wr64 F.rstCauseBeatLo_beat F.rstCauseBeatHi_beat (if r.level = 0 then 0 else r.beat)

/-- The pin groups in their reset states (R451). -/
def State.holdPins (s : State) : State :=
  let st := (List.range 5).map fun g => bits (s.rd F.rstPinMap_map) (2 * g) 2
  st.zipIdx.foldl (fun s e => s.emit (.pins e.2 e.1)) { s with pins := { s.pins with groups := st } }

/-- The pin groups released by the ROM. -/
def State.releasePins (s : State) : State :=
  (List.range 5).foldl (fun s g => s.emit (.pins g 4)) { s with pins := { s.pins with groups := List.replicate 5 4 } }

/-- Steps 1 to 5 of a cold or warm reset. -/
def State.fullReset (s : State) (r : Raised) : State :=
  let s := if r.code ≤ 2 ∨ !s.pins.powered then s else s.powerDownFlush
  let s := s.leaveCarousel.withdrawAll
  let s := if r.level = 0 then s.coldState.wr F.asySvn_image 0 else s.warmState
  let s := (s.wr F.rstWdtCtrl_en 0).lockDebug
  let s := ((s.writeCause r).holdPins).wr F.asyStatus_bootState 0
  let s := (s.wr F.rstBlkStatus_busy 0).wr F.rstActStatus_busy 0
  { s with rst := { s.rst with run := some ⟨r.level, r.code, some s.now⟩, wdtFrom := s.now } }

/-- A source's reset begins. -/
def State.beginReset (s : State) (r : Raised) : State :=
  let s := { s with rst := { s.rst with raised := [], block := if r.level < 2 then none else s.rst.block } }
  let s := if r.level < 2 then s.fullReset r
    else
      let s := (s.writeCause r).computeReset r.code
      { s with rst := { s.rst with run := some ⟨2, r.code, some s.now⟩ } }
  if r.level = 0 then s else s.count (0xD00 + r.code) 1

/-- The source of the deepest level, and of those the one with the lowest code. -/
def deepest : List Raised → Option Raised
  | [] => none
  | r :: t => some (t.foldl (fun a b => if b.level < a.level ∨ (b.level = a.level ∧ b.code < a.code) then b else a) r)

def execResetSequence (s : State) : Host.Outcome State Fault Refusal :=
  .next (match deepest s.rst.raised with
    | some r => s.beginReset r
    | none => s)

/-! ## Boot (R458) -/

/-- Step 6 for a warm boot: the index structures whose headers check are kept, and every other pool allocation is released. -/
def State.keepIndex (s : State) : State :=
  let good (v : Version) : Bool :=
    let h := s.peek v.addr 128
    !((blocksOf v.addr 128).any fun b => s.mem.check b == .uncorrectable) && leAt h 0x7C 4 == crc32c (h.take 0x7C)
  let seam (x : Seam) : Seam := { x with
    versions := (x.versions.filter good).map (fun (v : Version) => { v with readers := [] })
    side := { x.side with readers := [] }, tomb := { x.tomb with readers := [] }
    oldSide := [], oldTomb := [], backfill := none, writing := none, forwarding := false }
  let index (i : Index) : Index := { i with seams := (i.seams.map seam).filter (!·.versions.isEmpty), dirty := [] }
  let is := s.idx.indexes.map index
  let kept := is.flatMap fun i => i.graphs.flatMap (·.addrs) ++ i.seams.flatMap fun x => x.side.addr :: x.tomb.addr :: x.versions.map (·.addr)
  { s with idx := { s.idx with indexes := is }, fil := { s.fil with allocs := s.fil.allocs.filter fun a => kept.contains a.addr } }

/-- Step 1: the measurements and the log cleared, and ASY_MEAS0 extended. -/
def State.bootMeasure (s : State) : State :=
  let s := (List.range 8).foldl (fun s m => s.setRegBytes (F.asyMeas_bytes m) 16 (zeros 64)) s
  let s := ({ s with asy := { s.asy with log := [] } }.wr F.asyLogCount_count 0).wr F.asyStatus_logFull 0
  (s.wr F.asyStatus_debugOpened 0).extendMeas 0 Config.romDigest

/-- Steps 2 to 8 with the bytes of the image that were read, or nothing where the read failed. -/
def State.bootImage (s : State) (image : Option (List Byte)) (flash : FlashBoot) : State :=
  let host := s.on F.asyCtrl_hostLoad
  let addr := s.rd64 F.asyHostImgLo_addr F.asyHostImgHi_addr
  let s := if host then s.emit (.hostRead 0 addr (s.rd F.asyHostImgLen_bytes)) else s
  let img := image.map fun b => if host then b.take (s.rd F.asyHostImgLen_bytes) else b
  let err := match img with
    | none => if host then 9 else 8
    | some b => s.imageCheck b
  let s := s.wr F.asyStatus_bootErr err
  if err ≠ 0 then (s.wr F.asyStatus_bootState 2).releasePins else
  let b := img.getD []
  let s := if host ∧ s.on F.asyCtrl_writeBack then s.emit (.bootFlash b) else s
  let s := if host then (s.wr F.asyCtrl_hostLoad 0).wr F.asyCtrl_writeBack 0 else s
  let s := (s.extendMeas 1 (slice b 0x40 64)).wr F.asySvn_image (leAt b 8 4)
  let s := if s.rd F.rstCause_level = 1 then s.keepIndex else s
  (s.bringUp flash).releasePins.wr F.asyStatus_bootState 1

/-- The logic leaves reset after at least 64 beats, with RESET_N deasserted and the supplies good. A cold or warm reset then boots from the image
whose bytes are read, and so does a node that has not booted. -/
def execResetRelease (image : Option (List Byte)) (flash : FlashBoot) (s : State) : Host.Outcome State Fault Refusal :=
  .next (
    if s.on F.funInputs_resetHeld ∨ !s.pins.powered then s else
    match s.rst.run with
    | none => if s.rd F.asyStatus_bootState = 0 then (s.newNonce.bootMeasure).bootImage image flash else s
    | some r =>
      if !(r.asserted.any fun b => decide (b + 64 ≤ s.now)) then s else
      let s := { s with rst := { s.rst with run := none } }
      if r.level = 2 then s.tryStarts else (s.newNonce.bootMeasure).bootImage image flash)

/-- The ROM, waiting with BOOT_STATE 2, finds HOST_LOAD written 1 and goes on from step 2. -/
def execHostImageLoad (image : Option (List Byte)) (flash : FlashBoot) (s : State) : Host.Outcome State Fault Refusal :=
  .next (if s.rd F.asyStatus_bootState = 2 ∧ s.on F.asyCtrl_hostLoad then s.bootImage image flash else s)

/-! ## Sources -/

/-- The supplies reach their good levels, with REFCLK_SYS running, for 10 ms (R501). Nothing is left of what ran before. -/
def execPowerOnReset (s : State) : Host.Outcome State Fault Refusal :=
  .next (
    let s := { s with
      pins := { s.pins with powered := true, tripped := false, hot := [], doubled := [], alerts := [] }
      rst := { s.rst with run := none, raised := [] } }
    s.raise 1)

/-- The rails that hold up the flash, and so brown out also while PWR_FAIL_N is asserted (R503), in the order of Table 18.5. -/
def holdupRails : List Nat := [0, 1, 6, 7, 8]

/-- A rail below 92% of its nominal voltage for `held` ns (R502). The brown-out of a rail that may fall is masked from PWR_FAIL_N until the
power-down flush is done or 12 ms have passed. -/
def execBrownOut (rail held : Nat) (s : State) : Host.Outcome State Fault Refusal :=
  .next (
    let masked := !holdupRails.contains rail && s.on F.funInputs_pwrFailLatched && s.flash.pd.isNone
      && decide (s.ns < s.pins.failAt + 12000000)
    if held < 200 ∨ masked then s else ({ s with pins := { s.pins with powered := false } }).closeNet.raise 2)

/-- A filtered assertion of RESET_N. -/
def State.resetPin (s : State) : State :=
  if s.on F.funInputs_resetHeld then s else (s.raise 3).wr F.funInputs_resetHeld 1

def execResetPinAssert (held : Nat) (s : State) : Host.Outcome State Fault Refusal := .next (s.filtered held State.resetPin)

def execResetPinDeassert (held : Nat) (s : State) : Host.Outcome State Fault Refusal :=
  .next (s.filtered held fun s => s.wr F.funInputs_resetHeld 0)

/-- The beats before the watchdog expires (R457). -/
def State.wdtLeft (s : State) : Nat :=
  if s.on F.rstWdtCtrl_en then s.rst.wdtFrom + 2 ^ s.rd F.rstWdtCtrl_periodLog2 - s.now else 0

def execWatchdogExpiry (s : State) : Host.Outcome State Fault Refusal :=
  .next (
    if s.on F.rstWdtCtrl_en ∧ s.wdtLeft = 0 then ({ s with rst := { s.rst with wdtFrom := s.now } }).raise 4 else s)

/-- RST_WDT_KICK: only its key restarts the count. -/
def State.kick (s : State) (key : Nat) : State := if key = 0x4B1C then { s with rst := { s.rst with wdtFrom := s.now } } else s

def execWatchdogKick (src : Src) (key : Nat) (s : State) : Host.Outcome State Fault Refusal := .next (if manages src then s.kick key else s)

/-- RST_SW with GO = 1: a request is never shallower than the fused level. -/
def State.softReset (s : State) (level key : Nat) : State :=
  if key = 0xA5C3 ∧ level < 3 then s.raiseAt 5 (min level (s.fusedLevel 5)) else s

def execSoftwareReset (src : Src) (level key : Nat) (s : State) : Host.Outcome State Fault Refusal :=
  .next (if manages src then s.softReset level key else s)

/-- The Shift boss locks up. -/
def execLockupReset (s : State) : Host.Outcome State Fault Refusal := .next (s.raise 8)

/-- DBG_CTRL.REQ = 1 while debug is open. -/
def State.debugReset (s : State) : State := if s.rd F.dbgStatus_state = 1 then s.raise 6 else s

def execDebugResetRequest (src : Src) (s : State) : Host.Outcome State Fault Refusal := .next (if s.reaches src then s.debugReset else s)

/-! ## Act resets (R454) -/

/-- Whether a reset of the whole logic runs. -/
def State.deepRuns (s : State) : Bool := s.rst.run.any fun r => decide (r.level < 2)

/-- Steps 3 and 4: what the act holds is released, its fault registers are cleared, its rings are disabled and HALT is cleared. -/
def State.releaseAct (s : State) (a : Nat) : State :=
  let s := (s.fil.tiles.filter (·.act == a)).foldl (fun s t => s.removeTile t.id) s
  let s := (s.fil.routines.filter (·.act == a)).foldl (fun s r =>
    s.dropAlloc fun k => k == .native a r.handle || k == .pool a r.handle) s
  let s := { s with
    fil := { s.fil with routines := s.fil.routines.filter (·.act != a) }
    wnz := { s.wnz with tables := s.wnz.tables.filter (·.act != a) }
    idx := { s.idx with exchanges := s.idx.exchanges.filter (·.act != a), cages := s.idx.cages.filter (·.act != a) } }
  let gone := s.car.exports.filter (·.act == a)
  let s := s.modCar fun c => { c with exports := c.exports.filter (·.act != a) }
  let s := gone.foldl (fun s e => s.startInv e.base e.len (.unexport 0)) s
  let s := [Reg.actFaultCause a, Reg.actFaultWordLo a, Reg.actFaultWordHi a, Reg.actFaultAddrLo a, Reg.actFaultAddrHi a, Reg.actFaultJobLo a,
    Reg.actFaultJobHi a].foldl (fun s r => s.setReg r (resetWord r)) (s.wr (F.actStatus_faulted a) 0)
  let s := (List.range 4).foldl (fun s r =>
    (s.wr (F.ringCtrl_enable a r) 0).modRing a r fun x => { x with fetching := [], notify := 0, message := none }) s
  (s.wr (F.actCtrl_halt a) 0).wr ⟨F.rstActStatus_busy.off, a, 1⟩ 0

/-- An act's reset goes on to its release once none of its jobs is held or running. -/
def State.settleAct (s : State) (a : Nat) : State :=
  if bitOf (s.rd F.rstActStatus_busy) a && s.actIdle a then s.releaseAct a else s

/-- RST_ACT_CTRL with GO = 1: the act is halted and its jobs end. -/
def State.resetAct (s : State) (a : Nat) : State :=
  if a ≥ 16 then s
  else if bitOf (s.rd F.rstActStatus_busy) a || s.deepRuns then s.wr F.rstActStatus_absorbed 1 else
  let s := ((s.count 0xD12 1).wr ⟨F.rstActStatus_busy.off, a, 1⟩ 1).wr (F.actCtrl_halt a) 1
  (s.abortJobs 0 fun j => j.act == a).settleAct a

def execActReset (src : Src) (act : Nat) (s : State) : Host.Outcome State Fault Refusal := .next (if manages src then s.resetAct act else s)

/-! ## Block resets (R455, R456) -/

/-- Whether a strand has an instruction of a class in flight. -/
def Strand.has (t : Strand) (cls : Nat) : Bool := t.inflight.any (·.cls == cls)

/-- Whether an operation has a part at a stack. -/
def WnzOp.onStack (o : WnzOp) (st : Nat) : Bool := o.parts.any fun p => p.stack == st && p.stands != .done

/-- The jobs that have work in a block. -/
def State.blockJobs (s : State) (b : Nat) : List Nat :=
  let of (p : Strand → Bool) : List Nat := (s.fil.strands.filter p).map (·.job)
  if b < 0x10 then of fun t => t.crew == b
  else if b < 0x28 then (s.wnz.ops.filter (·.onStack (b - 0x10))).map (·.job)
  else if b = 0x28 then of (·.has 5) ++ (s.fil.expansions.filter (!·.done)).map (·.job)
  else if b = 0x29 then of (·.has 12)
  else if b = 0x2A then of (·.has 11)
  else []

/-- Whether a block is idle. -/
def State.blockIdle (s : State) (b : Nat) : Bool :=
  if b < 0x10 then s.fil.strands.all fun t => t.crew != b || t.inflight.isEmpty
  else if b < 0x28 then s.wnz.ops.all fun o => !o.onStack (b - 0x10)
  else if b = 0x28 then (s.fil.strands.all fun t => !t.has 5) && s.fil.expansions.all (·.done)
  else if b = 0x29 then (s.fil.strands.all fun t => !t.has 12) && s.flash.writes.isEmpty
  else if b = 0x2A then s.car.reqs.isEmpty && s.car.inbox.isEmpty
  else s.mdw.sends.isEmpty

/-- A block reset (Table 16.4): the jobs with work there end, and the block's work in progress is dropped. -/
def State.resetBlock (s : State) (b : Nat) : State :=
  let jobs := s.blockJobs b
  let s := s.abortJobs 5 fun j => jobs.contains j.id
  if b < 0x10 then s.dropFlight fun t _ => t.crew == b
  else if b < 0x28 then s.dropOps fun o => o.onStack (b - 0x10)
  else if b = 0x28 then s.dropFlight fun _ f => f.cls == 5
  else if b = 0x29 then (s.dropFlight fun _ f => f.cls == 12).powerDownFlush.recoverFlash []
  else if b = 0x2A then
    let s := (s.dropFlight fun _ f => f.cls == 11).leaveCarousel
    s.modCar fun c => { State.reset.car with exports := c.exports, sharers := c.sharers }
  else
    let s := s.mdw.sends.foldl (fun s m => if s.mdw.sends.contains m then s.unreachable m else s) s
    s.modMdw fun m => { m with frames := [], recvs := [], stamps := [], paused := [] }

/-- A block reset at its end. -/
def State.endBlock (s : State) (b : Nat) : State :=
  ({ (s.resetBlock b) with rst := { s.rst with block := none } }.wr F.rstBlkStatus_busy 0).count 0xD10 1

/-- Whether a reset that runs covers a block: every block, or the crews, Winze units and Crusher engines of a compute reset. -/
def State.coversBlock (s : State) (b : Nat) : Bool := s.rst.run.any fun r => decide (r.level < 2 ∨ b ≤ 0x28)

/-- RST_BLK_CTRL with GO = 1: the block gets no new work and is asked to go idle. While another block reset runs, and for a reserved block,
it has no effect. -/
def State.askBlock (s : State) (b : Nat) : State :=
  if b > 0x2B then s
  else if s.coversBlock b then s.wr F.rstBlkStatus_absorbed 1 else
  match s.rst.block with
  | some (c, _) => if b = c then s.wr F.rstBlkStatus_absorbed 1 else s
  | none =>
    ({ s with rst := { s.rst with block := some (b, s.now) } }.wr F.rstBlkStatus_block b).wr F.rstBlkStatus_busy 1

def execBlockReset (src : Src) (block : Nat) (s : State) : Host.Outcome State Fault Refusal :=
  .next (if manages src then s.askBlock block else s)

/-- The block goes idle in time: it is reset and released. -/
def execBlockResetIdle (s : State) : Host.Outcome State Fault Refusal :=
  .next (match s.rst.block with
    | some (b, _) => if s.blockIdle b then s.endBlock b else s
    | none => s)

/-- The timeout: the block is reset as it is. -/
def execBlockResetTimeout (s : State) : Host.Outcome State Fault Refusal :=
  .next (match s.rst.block with
    | some (b, t) =>
      if t + s.rd F.rstBlkTimeout_beats ≤ s.now then ((s.endBlock b).wr F.rstBlkStatus_timeout 1).count 0xD11 1 else s
    | none => s)

end Sys2Proof.Machine
end

