-- ==== Sys2Proof/Machine/Beat.lean ====
section
/-! DEFINITION. The beat (R399): what is counted as a beat ends, and what is decided at the boundary. -/
namespace Sys2Proof.Machine

/-- Events that have not fired by the end of their beat (R408). -/
def State.countLate (s : State) : State :=
  let n := ((s.sharedBeats ++ s.ownBeats).filter (· == s.now)).length
  (s.bump F.talEvtLate_count n).count 0xB3A n

/-- A counter of beats grown where a condition has held. -/
def State.countIf (s : State) (ctr : Nat) (held : Bool) : State := if held then s.count ctr 1 else s

/-- The counters of the beat that ends. -/
def State.countBeat (s : State) : State :=
  let busy (n : Nat) : Bool := s.fil.busy.contains n
  let runs (t : Nat) : Bool := s.wnz.ops.any fun o => o.parts.any fun p => p.stack == t && p.stands == .running
  let hews (c : Nat) : Bool := s.fil.strands.any fun t => t.crew == c && t.inflight.any (·.cls == 3)
  let full := s.fil.jobs.any fun j => j.phase == .ended && j.ring != 4 && decide (s.ringSize j.act j.ring ≤ s.cqUsed j.act j.ring)
  let flips := (s.wnz.ops.filter s.flipWait).length
  let s' := (List.range 16).foldl (fun x c =>
    ((x.countIf (0x120 + c) (busy c || hews c)).countIf (0xB00 + c) (s.powerOf (.crew c) == 1)).countIf (0xB10 + c)
      (s.powerOf (.crew c) == 2)) s
  let s' := (List.range 24).foldl (fun x t =>
    (x.countIf (0x530 + t) (busy (16 + t) || runs t)).countIf (0xB20 + t) (s.powerOf (.stack t) == 3)) s'
  let s' := (s'.countIf 0xA34 (busy 40 || !s.rgm.waiting.isEmpty)).countIf 0xC23 (busy 41 || full)
  let s' := if flips = 0 then s' else s'.count 0x605 flips
  let s' := (s'.countIf 0xB38 (s.on F.pwrStatus_p4)).countIf 0xB3C (s.on F.talStatus_holdover)
  let s' := s'.countIf 0xF29 (s.pwr.capHold || !s.pins.hot.isEmpty)
  (List.range 2).foldl (fun x p => if s.mdw.paused.any (·.1 == p) then x.bump (F.mdwPortPfcPaused_beats p) 1 else x) s'

/-- The events of R408 that take effect by their beat alone: rebalance switches and retirements. -/
def State.switches (s : State) : Nat :=
  ((s.idx.indexes.flatMap fun i => match i.graphs with
    | g :: _ => g.recs.flatMap (HfRec.beats (s.now - 1))
    | [] => []).filter (· == s.now)).length

/-- What the links and Winze units measure, by the register that shows it: the codewords of a beat, the optical power, and the
delay at a row boundary. -/
def State.measure (s : State) (off v : Nat) : State :=
  let l := (off - 0x2801000) / 0x20
  let t := (off - 0x1400000) / 0x4000
  if l < 8 ∧ off = Reg.carLinkPower l then s.setReg off (BitVec.ofNat 32 v)
  else if l < 8 ∧ (off = Reg.carLinkFecCorr l ∨ off = Reg.carLinkFecUncorr l) then s.bump ⟨off, 0, 32⟩ v
  else if t < 24 ∧ off = Reg.wnzRowwaitMax t then s.wr (F.wnzRowwaitMax_ns t) (max (s.rd (F.wnzRowwaitMax_ns t)) (min v 65535))
  else s

/-- The readings of a beat: the counters of sensors and of firmware's report (Tables 14.5 and 18.10) as 64-bit patterns, and the measured
registers. -/
def State.sample (s : State) (l : List (Nat × Int)) : State :=
  l.foldl (fun s e =>
    if (0xF00 ≤ e.1 ∧ e.1 ≤ 0xF28) ∨ e.1 = 0xB3D then { s with telem := kvSet 0 s.telem e.1 (BitVec.ofInt 64 e.2).toNat }
    else s.measure e.1 e.2.toNat) s

/-- The power that the node reports stays at its limit (R500). -/
def powerLimit : Nat := 1600

/-- The beat advances by 1: what is counted of the old beat, what is decided at the boundary, and the markers and committed beat that
are sent. `mean` and `estimate` are the power's mean over the last 1,024 beats and its estimate for the next, in W, `calIn` whether CAL_IN
is within R405, and `readings` what the sensors and firmware report. -/
def State.beatAdvance (s : State) (mean estimate : Nat) (calIn : Bool) (readings : List (Nat × Int)) : State :=
  let s := s.countBeat.countLate
  let s := s.modTally fun t => { t with beat := t.beat + 1, sub := 0 }
  let s := { s with fil := { s.fil with busy := [] }, idx := { s.idx with written := [] } }
  let s := s.loadWall.endP4.endRecovery.sample readings
  let s := (s.wr F.talStatus_calInOk (b2n calIn)).wr F.funInputs_calInFault (b2n (!calIn))
  let s := (s.wr F.pwrPower_watts (min mean powerLimit)).fired s.switches
  let s := { s with pwr := { s.pwr with capHold := decide (powerLimit < estimate) } }
  let s := s.retryHeld.endHolds.releaseGraphs.beatCommit
  let s := if s.on F.talStatus_calliope ∨ (s.isMember ∧ s.on F.talStatus_locked ∧ !s.on F.talStatus_holdover) then
    s.ctl 0 s.bcastLink.toList (.marker s.now) else s
  let s := s.beatHello.resumePeers
  let s := (List.range 16).foldl State.settleAct s
  if s.on F.pwrStatus_p4 then s else domains.foldl State.decidePower s

def execBeatAdvance (mean estimate : Nat) (calIn : Bool) (readings : List (Nat × Int)) (s : State) : Host.Outcome State Fault Refusal :=
  .next (s.beatAdvance mean estimate calIn readings)

/-- A nanosecond passes, as far as the beat's last: the next beat comes with BEAT_ADVANCE. -/
def State.tick (s : State) : State := s.modTally fun t => { t with sub := min 1023 (t.sub + 1) }

end Sys2Proof.Machine
end

