-- ==== Sys2Proof/Machine/Failure.lean ====
section
/-! DEFINITION. Failures (chapter 17): the Shift boss's decisions (R472, R483), perturbations (R484 to R486), the power-fail alarm (R337, R485,
R487), and heat (R507). -/
namespace Sys2Proof.Machine

/-! ## The Shift boss's spares (R483) -/

/-- A wanted spare: brought in by `f` where one is left, and logged either way. -/
def State.wantSpare (s : State) (kind unit index left : Nat) (f : State → State) : State :=
  if left = 0 then s.logSpare kind unit index true
  else ((f s).count 0xE07 1).logSpare kind unit index (left == 1)

/-- The Shift boss's decision for one unit: 0 hewer, 1 control core, 2 Winze unit, with the number of idle-slot self-tests that it has failed within
the window; 3 stack channel, with whether it has stopped answering. -/
def State.autoSpare (s : State) (kind unit index fails : Nat) (dead : Bool) : State :=
  let failing := decide (s.rd F.funSparePolicy_testFails ≤ fails)
  if !s.on F.funSparePolicy_autoEn then s else
  match kind with
  | 0 =>
    let bad := bitOf (s.rd (F.crewHewFailed_failed unit)) index
    let on := bitOf (s.rd (F.crewHewMap_enabled unit)) index
    if unit ≥ 16 ∨ index > 12 ∨ !(bad || (on && failing)) then s
    else s.wantSpare 0 unit index (1 - s.rd (F.crewStatus_hewSpareUsed unit)) (·.spareHewer unit index)
  | 1 =>
    let bad := bitOf (s.rd (F.crewCoreMap_failed unit)) index
    let on := bitOf (s.rd (F.crewCoreMap_enabled unit)) index
    if unit ≥ 16 ∨ index > 4 ∨ !(bad || (on && failing)) then s
    else s.wantSpare 1 unit index (1 - s.rd (F.crewStatus_coreSpareUsed unit)) (·.spareCore unit index)
  | 2 =>
    let bad := bitOf (s.rd (F.wnzUnitMap_failed unit)) index
    let on := bitOf (s.rd (F.wnzUnitMap_enabled unit)) index
    if unit ≥ 24 ∨ index > 4 ∨ !(bad || (on && failing)) then s
    else s.wantSpare 2 unit index (1 - s.rd (F.wnzStatus_spareUsed unit)) (·.spareUnit unit index)
  | _ =>
    let key := unit * 32 + index
    let rows := kvGet 0 s.mem.period key
    let left := s.rd (F.memStackStatus_sparesLeft unit)
    if unit ≥ 24 ∨ index ≥ 32 ∨ s.mem.copies.any (·.1 == unit) then s
    else if dead then s.wantSpare 3 unit index left (·.spareDead unit index)
    else if s.rd F.funSparePolicy_chRowLimit ≤ rows then
      let s := { s with mem := { s.mem with period := kvSet 0 s.mem.period key 0 } }
      s.wantSpare 3 unit index left (·.spareCopy unit index)
    else s

/-- A unit that was spared already asks for nothing more: a failed one that is out of service while the spare serves. -/
def State.spared (s : State) (kind unit index : Nat) : Bool :=
  match kind with
  | 0 => s.on (F.crewStatus_hewSpareUsed unit) && !bitOf (s.rd (F.crewHewMap_enabled unit)) index && index != 12
      && decide (popcount (s.rd (F.crewHewMap_enabled unit)) 13 = 12)
  | 1 => s.on (F.crewStatus_coreSpareUsed unit) && !bitOf (s.rd (F.crewCoreMap_enabled unit)) index && index != 4
      && decide (popcount (s.rd (F.crewCoreMap_enabled unit)) 5 = 4)
  | 2 => s.on (F.wnzStatus_spareUsed unit) && !bitOf (s.rd (F.wnzUnitMap_enabled unit)) index && index != 4
      && decide (popcount (s.rd (F.wnzUnitMap_enabled unit)) 5 = 4)
  | _ => false

def execAutoSpare (kind unit index fails : Nat) (dead : Bool) (s : State) : Host.Outcome State Fault Refusal :=
  .next (if s.spared kind unit index then s else s.alerted (·.autoSpare kind unit index fails dead))

/-! ## Leaving the Carousel (R472) -/

/-- Whether some two clock failures, in the order of their beats, lie within 2^20 beats. -/
def closePair : List Nat → Bool
  | a :: b :: t => decide (b - a ≤ 2 ^ 20) || closePair (b :: t)
  | _ => false

/-- Whether a condition of Table 17.1 holds. -/
def State.mustLeave (s : State) : Bool :=
  let off := ((List.range 16).filter fun c => !s.on (F.crewStatus_online c)).length
  let down := ((List.range 4).filter fun k => bitOf (s.rd F.carCfg_pairEn) k && !bitOf (s.rd F.carStatus_pairs) k).length
  decide (4 ≤ off)
    || (List.range 24).any (fun t => s.on (F.wnzStatus_relay t) && s.on (F.memStackStatus_dead t))
    || s.on F.adtStatus_readOnly || decide (2 ≤ down) || closePair s.tally.clockFails

def execFirmwareNodeLeave (s : State) : Host.Outcome State Fault Refusal :=
  .next (if s.carState = 3 ∧ s.mustLeave then s.alerted fun s => s.planLeave.logSpare 7 0 0 false else s)

/-! ## The power-fail alarm (R337, R485, R487) -/

/-- The first filtered assertion of PWR_FAIL_N: it latches, and the power-down flush begins. -/
def State.powerFail (s : State) : State :=
  if s.on F.funInputs_pwrFailLatched then s else
  let s := ((s.wr F.funInputs_pwrFailLatched 1).count 0xE06 1).beginPowerDown
  ({ s with pins := { s.pins with failAt := s.ns, failClear := none } }).alerted (·.setAlert 2 true)

/-- PWR_FAIL_N deasserted for the filter width: the alarm is armed again. -/
def State.powerGood (s : State) : State :=
  let s := if s.on F.funInputs_pwrFailLatched then { s with pins := { s.pins with failClear := some s.now } } else s
  (s.wr F.funInputs_pwrFailLatched 0).alerted (·.setAlert 2 false)

def execPowerFailAssert (held : Nat) (s : State) : Host.Outcome State Fault Refusal := .next (s.filtered held State.powerFail)

def execPowerFailDeassert (held : Nat) (s : State) : Host.Outcome State Fault Refusal := .next (s.filtered held State.powerGood)

/-- 1,024 beats after the deassertion, with the flush done and the supplies good: a warm reset by the firmware. -/
def execPowerFailClearReset (s : State) : Host.Outcome State Fault Refusal :=
  .next (match s.pins.failClear with
    | none => s
    | some b =>
      if b + 1024 ≤ s.now ∧ s.pins.powered ∧ s.flash.pd.isSome ∧ !s.on F.funInputs_pwrFailLatched then
        ({ s with pins := { s.pins with failClear := none } }).raiseAt 5 (min 1 (s.fusedLevel 5))
      else s)

/-! ## The Funhouse (R484 to R486) -/

/-- A write of FUN_CTRL: EN changes only with the key. -/
def State.writeFunCtrl (s : State) (word : Nat) : State := if bits word 16 16 = 0x6A5C then s.wr F.funCtrl_en (bits word 0 1) else s

def execFunhouseEnable (src : Src) (word : Nat) (s : State) : Host.Outcome State Fault Refusal :=
  .next (if s.reaches src then s.writeFunCtrl word else s)

/-- A write of FUN_Pn_CTRL (R490): an armed slot takes only its disarming, and a reserved KIND does not arm. -/
def State.writeSlot (s : State) (n word : Nat) : State :=
  if n ≥ 16 then s
  else if s.on (F.funPCtrl_arm n) then
    if bitOf word 0 then s else (s.wr (F.funPCtrl_arm n) 0).wr (F.funPLeft_left n) 0
  else
    let s := s.storeWord (Reg.funPCtrl n) word
    if !bitOf word 0 then s
    else if 16 ≤ s.rd (F.funPCtrl_kind n) then s.wr (F.funPCtrl_arm n) 0
    else s.wr (F.funPLeft_left n) (s.rd (F.funPCtrl_count n))

def execPerturbationArm (src : Src) (slot word : Nat) (s : State) : Host.Outcome State Fault Refusal :=
  .next (if s.reaches src then s.writeSlot slot word else s)

/-- A forced input (Table 17.6): `how` is 0 stuck asserted, 1 stuck deasserted, 2 chatter. HOLDUP_OK is high when it is asserted. -/
def State.forceInput (s : State) (input how : Nat) : State :=
  let held (s : State) (low : Bool) : State :=
    (((s.modFlash fun f => { f with pinShort := low, shortSince := f.shortSince || low }).wr F.funInputs_holdupLow (b2n low)).adtRefresh)
  match input, how with
  | 0, 0 => s.resetPin
  | 0, 1 => s.wr F.funInputs_resetHeld 0
  | 0, _ => s.resetPin.wr F.funInputs_resetHeld 0
  | 1, 0 => s.perst
  | 1, 1 => s.wr F.funInputs_perstAsserted 0
  | 1, _ => s.perst.wr F.funInputs_perstAsserted 0
  | 2, 0 => s.powerFail
  | 2, 1 => s.powerGood
  | 2, _ => s.powerFail
  | 3, 0 => held s false
  | 3, 1 => held s true
  | 3, _ => held (held s true) false
  | 4, _ => s.clockFail false
  | _, _ => s

/-- The fault that a slot names (Table 17.5): its KIND, TARGET and PARAM. -/
def State.perturb (s : State) (kind target param : Nat) : State :=
  let add (f : FunSt → FunSt) : State := { s with fun_ := f s.fun_ }
  match kind with
  | 1 => add fun f => { f with stalls := kvSet 0 f.stalls target (s.now + param) }
  | 2 => add fun f => { f with frames := f.frames ++ [(target, 0)] }
  | 3 => add fun f => { f with frames := f.frames ++ [(target, 1)] }
  | 4 => s.laneBad target param
  | 5 => s.laserLow target
  | 6 => add fun f => { f with reqHolds := kvSet 0 f.reqHolds target (s.now + param) }
  | 7 => add fun f => { f with streams := f.streams ++ [(target, param)] }
  | 8 => s.modFlash fun f => { f with failNext := f.failNext ++ [(target, param)] }
  | 9 => s.modFlash fun f => { f with silent := f.silent ++ [(target, param, s.now)] }
  | 10 => add fun f => { f with fetchHold := s.now + param }
  | 11 => s.failHewer target param
  | 12 => s.failUnit target param
  | 13 => s.forceInput target param
  | 14 => s.clockFail false
  | 15 => add fun f => { f with helloHold := s.now + param }
  | _ => s

/-- The first opportunity of a slot, by work of an act. -/
def execPerturbationFire (slot act : Nat) (s : State) : Host.Outcome State Fault Refusal :=
  .next (
    let n := slot
    let left := s.rd (F.funPLeft_left n)
    let early := s.now < s.rd64 (F.funPBeatLo_beat n) (F.funPBeatHi_beat n)
    if n ≥ 16 ∨ !s.on F.funCtrl_en ∨ !s.on (F.funPCtrl_arm n) ∨ early ∨ left = 0
      ∨ (s.on (F.funPCtrl_actMatch n) ∧ act ≠ s.rd (F.funPCtrl_act n)) then s else
    let s := ((s.wr ⟨F.funStatus_fired.off, n, 1⟩ 1).wr F.funStatus_touched 1).count 0xE04 1
    let s := s.wr (F.funPLeft_left n) (left - 1)
    let s := if left = 1 then s.wr (F.funPCtrl_arm n) 0 else s
    s.perturb (s.rd (F.funPCtrl_kind n)) (s.rd (F.funPTarget_target n)) (s.rd (F.funPParam_param n)))

/-! ## Heat (R507) -/

/-- Whether a domain is one of the node's. -/
def Domain.known (d : Domain) : Bool :=
  match d with
  | .crew n => decide (n < 16)
  | .stack n => decide (n < 24)

/-- A domain reaches its warning temperature: ALERT_N, and crew issue and scans are held back. -/
def execThermalWarning (crew : Bool) (n : Nat) (s : State) : Host.Outcome State Fault Refusal :=
  .next (
    let d := domainOf crew n
    if !d.known || s.pins.hot.contains d then s else
    let s := ({ s with pins := { s.pins with hot := s.pins.hot ++ [d] } }).count 0xF2A 1
    s.alerted (·.setAlert 0 true))

/-- It is 3 °C lower: once no domain is too warm the hold ends. -/
def execThermalWarningClear (crew : Bool) (n : Nat) (s : State) : Host.Outcome State Fault Refusal :=
  .next (
    let s := { s with pins := { s.pins with hot := s.pins.hot.filter (· != domainOf crew n) } }
    if s.pins.hot.isEmpty then s.alerted (·.setAlert 0 false) else s)

/-- A domain reaches its trip temperature: THERMTRIP_N and ALERT_N, and the safety net closes. -/
def execThermalTrip (crew : Bool) (n : Nat) (s : State) : Host.Outcome State Fault Refusal :=
  .next (
    if !(domainOf crew n).known || s.pins.tripped then s else
    let s := ({ s with pins := { s.pins with tripped := true } }).emit (.alert true true)
    (s.alerted (·.setAlert 1 true)).closeNet)

/-- A stack crosses 85 °C. -/
def execStackRefreshDouble (stack : Nat) (double : Bool) (s : State) : Host.Outcome State Fault Refusal :=
  .next (
    if stack ≥ 24 then s else
    { s with pins := { s.pins with
        doubled := s.pins.doubled.filter (· != stack) ++ (if double then [stack] else []) } })

end Sys2Proof.Machine
end

