-- ==== Sys2Proof/Machine/Views.lean ====
section
/-! DEFINITION. What a read of register space returns (R4, R5, R10): the stored fields, and those that show the machine's state as it is: jobs and
routines (R70), crew and Winze queues (R134, R260), usage (R299, R309), exports (R377), cells (R397), the beat with its snapshots (R414), the event
engine (R409), the watchdog (R467), the rings (R442) and the identity (R462). -/
namespace Sys2Proof.Machine

/-- A field put into a register's word. -/
def FieldRef.put (f : FieldRef) (v w : Nat) : Nat := putBits w f.lo f.width (min v (2 ^ f.width - 1))

/-- The number of an offset in a block that repeats at a stride. -/
def instOf (base step off : Nat) : Nat := (off - base) / step

/-! ## TAL -/

/-- What a source reads in TAL_BEAT_HI and TAL_SUB: its snapshot, or the current beat and sub-beat (R414). -/
def State.snapOf (s : State) (who : Nat × Nat) : Nat × Nat :=
  match s.tally.snaps.find? (·.source == who) with
  | some x => (x.beat, x.sub)
  | none => (s.now, s.tally.sub)

/-- A source's read of TAL_BEAT_LO takes its snapshot. -/
def State.takeSnap (s : State) (who : Nat × Nat) : State :=
  s.modTally fun t => { t with snaps := ⟨who, s.now, t.sub⟩ :: t.snaps.filter (·.source != who) }

/-- The earliest beat of a registered event, a journal flush or a scrub round that has not fired (R409). -/
def State.nextEvent (s : State) : Nat :=
  let flush := (s.now / 2048 + 1) * 2048
  let periodic := if s.on F.memCtrl_scrubEn then min flush ((s.now / 4096 + 1) * 4096) else flush
  (s.sharedBeats ++ s.ownBeats).foldl min periodic

def State.shownTal (s : State) (who : Nat × Nat) (off w : Nat) : Nat :=
  let lo (n : Nat) : Nat := n % 2 ^ 32
  let hi (n : Nat) : Nat := n / 2 ^ 32 % 2 ^ 32
  if off = Reg.talBeatLo then lo s.now
  else if off = Reg.talBeatHi then hi (s.snapOf who).1
  else if off = Reg.talSub then (s.snapOf who).2
  else if off = Reg.talStableLo then lo s.tally.stable
  else if off = Reg.talStableHi then hi s.tally.stable
  else if off = Reg.talCommittedLo then lo s.tally.committed
  else if off = Reg.talCommittedHi then hi s.tally.committed
  else if off = Reg.talEvtUsed then F.talEvtUsed_count.put (s.sharedBeats ++ s.ownBeats).length w
  else if off = Reg.talEvtNextLo then lo s.nextEvent
  else if off = Reg.talEvtNextHi then hi s.nextEvent
  else w

/-! ## HIF and ACT -/

def State.shownHif (s : State) (off w : Nat) : Nat :=
  let f := instOf 0x410000 0x10000 off
  let r := (off % 0x10000 - 0x100) / 0x40
  if 0x410000 ≤ off ∧ f < 16 ∧ r < 4 ∧ off = Reg.ringStatus f r then
    let jobs := s.ringJobs f r
    let full := jobs.any (fun j => j.phase == .ended) && decide (s.ringSize f r ≤ s.cqUsed f r)
    (F.ringStatus_cqFull f r).put (b2n full) ((F.ringStatus_inflight f r).put jobs.length w)
  else w

def State.shownAct (s : State) (off w : Nat) : Nat :=
  let a := instOf 0x800000 0x80000 off
  if off = Reg.actStatus a then
    let w := (F.actStatus_idle a).put (b2n (s.actIdle a)) w
    let w := (F.actStatus_routines a).put (s.fil.routines.filter (·.act == a)).length w
    (F.actStatus_running a).put (s.liveJobs a).length w
  else w

/-! ## CREW, WNZ, MEM and CRU -/

/-- The units of 16 KiB that the allocations in a crew's store take. -/
def State.storeUnits (s : State) (c : Nat) (p : Alloc → Bool) : Nat :=
  ceilDiv (allocSum p (allocsIn (crewAddr c 0) (crewAddr c crewLen) s.fil.allocs)) 16384

def State.shownCrew (s : State) (off w : Nat) : Nat :=
  let c := instOf 0x1000000 0x10000 off
  if off = Reg.crewStatus c then
    (F.crewStatus_drained c).put (b2n (s.on (F.crewCtrl_drain c) && s.fil.strands.all fun t => t.ended || t.crew != c)) w
  else if off = Reg.crewStoreUse c then
    (F.crewStoreUse_tiles c).put (s.storeUnits c Alloc.isTile) ((F.crewStoreUse_used c).put (s.storeUnits c fun _ => true) w)
  else w

def State.shownWnz (s : State) (off w : Nat) : Nat :=
  let t := instOf 0x1400000 0x4000 off
  if off = Reg.wnzStatus t then
    let q := s.queuedOn t none
    let w := (F.wnzStatus_drained t).put (b2n (s.on (F.wnzCtrl_drain t) && q == 0)) w
    (F.wnzStatus_ranges t).put (s.rangesOn t) ((F.wnzStatus_queued t).put q w)
  else w

def State.shownMem (s : State) (off w : Nat) : Nat :=
  let t := instOf 0x1801000 0x10 off
  let a := instOf 0x1802000 0x20 off
  let kib (n : Nat) : Nat := ceilDiv n 1024
  let c := instOf 0x1801200 4 off
  if 0x1801000 ≤ off ∧ t < 24 ∧ off = Reg.memStackLost t then s.mem.lostBlocks t
  else if 0x1801000 ≤ off ∧ t < 24 ∧ off = Reg.memStackStatus t then (F.memStackStatus_rowSparesMin t).put (s.rowSparesMin 0 t) w
  else if 0x1801200 ≤ off ∧ c < 16 ∧ off = Reg.memCrewStatus c then (F.memCrewStatus_rowSparesMin c).put (s.rowSparesMin 1 c) w
  else if off < 0x1802000 then w
  else if off = Reg.memUStack a then (F.memUStack_kib a).put (kib (s.stackUse a)) w
  else if off = Reg.memUExpand a then (F.memUExpand_kib a).put (kib (s.expandUse a)) w
  else if off = Reg.memUCrew a then (F.memUCrew_kib a).put (kib (s.crewUse a)) w
  else if off = Reg.memUCache a then (F.memUCache_kib a).put (kib (s.cacheUse a)) w
  else w

/-- The shared codec engines at work: an expansion each, of four. A frame is coded in no time. -/
def State.shownCru (s : State) (off w : Nat) : Nat :=
  if off = Reg.cruStatus then
    F.cruStatus_sharedBusy.put (min 4 (s.fil.expansions.filter fun e => !e.done && e.home.isSome).length) w
  else w

/-! ## CAR and RGM -/

def State.shownCar (s : State) (off w : Nat) : Nat :=
  let a := instOf 0x2802000 0x10 off
  if 0x2802000 ≤ off ∧ off = Reg.carActExports a then
    (F.carActExports_count a).put (s.car.exports.filter (·.act == a)).length w
  else w

def State.shownRgm (s : State) (off w : Nat) : Nat :=
  let n := instOf 0x3001000 0x400 off
  let a := instOf 0x3010000 0x10 off
  if off = Reg.rgmPoolFree then F.rgmPoolFree_cells.put (262144 - s.cellsHeld fun _ => true) w
  else if off = Reg.rgmPoolShared then F.rgmPoolShared_cells.put s.poolShared w
  else if 0x3001000 ≤ off ∧ n < 43 ∧ off = Reg.rgmChUsed n then (F.rgmChUsed_cells n).put (s.cellsHeld (·.chan == n)) w
  else if 0x3010000 ≤ off ∧ a < 16 ∧ off = Reg.rgmActPoolUsed a then
    (F.rgmActPoolUsed_cells a).put (s.cellsHeld fun u => u.act == a && u.cls != 0) w
  else w

/-! ## The whole of register space -/

/-- The word that a register shows to a source. -/
def State.shown (s : State) (who : Nat × Nat) (off : Nat) : Nat :=
  let w := (s.reg off).toNat
  if off < 0x100000 then w
  else if off < 0x200000 then s.shownTal who off w
  else if off < 0x300000 then if off = Reg.rstWdtLeft then F.rstWdtLeft_beats.put s.wdtLeft w else w
  else if off < 0x400000 then w
  else if off < 0x800000 then s.shownHif off w
  else if off < 0x1000000 then s.shownAct off w
  else if off < 0x1400000 then s.shownCrew off w
  else if off < 0x1800000 then s.shownWnz off w
  else if off < 0x1C00000 then s.shownMem off w
  else if off < 0x2000000 then s.shownCru off w
  else if off < 0x2800000 then w
  else if off < 0x3000000 then s.shownCar off w
  else if off < 0x3400000 then s.shownRgm off w
  else if off < 0x3800000 then w
  else if off < 0x3C00000 then
    if 0x3800100 ≤ off ∧ off < 0x3800140 then leAt (sha512 (Config.idPub.take 133)) (off - 0x3800100) 4 else w
  else if 0x3E00040 ≤ off ∧ off < 0x3E00080 then (s.reg off ^^^ Config.nonce ((off - 0x3E00040) / 4)).toNat
  else w

/-- The bits of a register's fields of an access code. -/
def RegRow.mask (r : RegRow) (c : Acc) : Nat :=
  r.fields.foldl (fun m f => if f.acc = c then m + (2 ^ f.width - 1) * 2 ^ f.lo else m) 0

/-- Which windows answer: in P4 the GLB, TAL, RST and PWR windows alone (R412). -/
def State.answers (s : State) (off : Nat) : Bool := !s.on F.pwrStatus_p4 || decide (off < 0x400000)

/-- The source of a read, for the snapshots of R414. -/
def Snap.of (src : Src) : Nat × Nat :=
  match src with
  | .fn n => (n, 0)
  | .boss => (16, 0)

/-- Whether an offset lies in a virtual function's own function block, or in its act's instance. -/
def ownBlock (f off : Nat) : Bool := decide (0x410000 + f * 0x10000 ≤ off ∧ off < 0x420000 + f * 0x10000)
def ownAct (f off : Nat) : Bool := decide (0x800000 + f * 0x80000 ≤ off ∧ off < 0x880000 + f * 0x80000)

/-- Whether a source reads an offset (Table 15.2, R13, R412). A function that is not enabled has no BAR. -/
def State.sees (s : State) (src : Src) (off : Nat) : Bool :=
  s.answers off &&
  match src with
  | .boss => true
  | .fn 0 => true
  | .fn f =>
    decide (f < 16) && s.fnOn f &&
      (decide (off < 0x200000) || decide (0x300000 ≤ off ∧ off < 0x410000) || ownBlock f off || ownAct f off
        || decide (0x1000000 ≤ off ∧ off < 0x3800000))

/-- A read of one register: WO fields and unassigned offsets read zero, RC fields are cleared, and a read of TAL_BEAT_LO takes its source's
snapshot. -/
def State.readReg (s : State) (src : Src) (who : Nat × Nat) (off : Nat) : Nat × State :=
  match findReg off with
  | none => (0, s)
  | some (r, _, _) =>
    if !s.sees src off then (0, s) else
    let v := s.shown who off
    let v := v - (v &&& r.mask .wo)
    let s := if off = Reg.talBeatLo then s.takeSnap who else s
    let rc := r.mask .rc
    (v, if rc = 0 then s else s.setReg off (s.reg off &&& ~~~(BitVec.ofNat 32 rc)))

/-- An aligned read of one register, or of two adjacent ones. -/
def State.readWide (s : State) (src : Src) (who : Nat × Nat) (off : Nat) (wide : Bool) : Nat × State :=
  let (lo, s) := s.readReg src who off
  if wide then
    let (hi, s) := s.readReg src who (off + 4)
    (lo + 2 ^ 32 * hi, s)
  else (lo, s)

end Sys2Proof.Machine
end

