-- ==== Sys2Proof/Machine/Access.lean ====
section
/-! DEFINITION. Accesses to register space (R4, R7 to R13, R42, R421, R422) with what a write sets off in each block, the scalar loads and
stores (R46, R87), MOV.COPY (R89), and the SYS accesses to registers and telemetry (R107). -/
namespace Sys2Proof.Machine

/-! ## Writes, block by block -/

/-- The state that a command leaves. -/
def after (r : Host.Outcome State Fault Refusal) (s : State) : State :=
  match r with
  | .next t => t
  | _ => s

/-- TAL (Table 14.3). -/
def State.writeTal (s : State) (off word : Nat) : State :=
  let t := s.storeWord off word
  if off = Reg.talCalCtrl then if bitOf word 3 then t.askHandover else t
  else if off = Reg.talWallCtrl then if bitOf word 0 then t.publishWall else t
  else t

/-- RST (Table 16.9). -/
def State.writeRst (s : State) (off word : Nat) : State :=
  if off = Reg.rstSw then if bitOf word 2 then s.softReset (bits word 0 2) (bits word 16 16) else s
  else if off = Reg.rstWdtCtrl then
    let was := s.on F.rstWdtCtrl_en
    let t := s.storeWord off word
    if !was && t.on F.rstWdtCtrl_en then { t with rst := { t.rst with wdtFrom := t.now } } else t
  else if off = Reg.rstWdtKick then s.kick (bits word 0 16)
  else if off = Reg.rstBlkCtrl then if bitOf word 6 then s.askBlock (bits word 0 6) else s
  else if off = Reg.rstActCtrl then if bitOf word 4 then s.resetAct (bits word 0 4) else s
  else s.storeWord off word

/-- PWR (Table 14.4). -/
def State.writePwr (s : State) (off word : Nat) : State :=
  if off = Reg.pwrP4Req then
    let t := if bitOf word 0 then s.enterP4 else s
    if bitOf word 1 then t.leaveP4 else t
  else s.storeWord off word

/-- HIF (Table 15.6, R430, R434, R439): the bases hold while their ring is enabled. -/
def State.writeHif (s : State) (src : Src) (off word : Nat) : State :=
  if off < 0x410000 then
    if off = Reg.hifOstCtrl then if bitOf word 0 then s.enterOst else (s.wr F.hifOstCtrl_enable 0).exitOst
    else s.storeWord off word
  else
    let f := instOf 0x410000 0x10000 off
    let o := off % 0x10000
    if 0x100 ≤ o ∧ o < 0x200 then
      let r := (o - 0x100) / 0x40
      if off = Reg.ringCtrl f r then s.writeRingCtrl src f r word
      else if o % 0x40 < 0x10 ∧ s.on (F.ringCtrl_enable f r) then s
      else s.storeWord off word
    else if 0x8000 ≤ o ∧ o < 0x8100 ∧ o % 0x10 = 0xC then
      let v := (o - 0x8000) / 0x10
      let was := s.on (F.msixCtrl_mask f v)
      let t := s.storeWord off word
      if was && !bitOf word 0 then t.unmask f v else t
    else s.storeWord off word

/-- ACT (Table 2.11): an act's ENABLE is not set while its function is off (R420), and a write that sets it for an act other than 0 has no
effect in Ost service mode (R440). -/
def State.writeAct (s : State) (off word : Nat) : State :=
  let a := instOf 0x800000 0x80000 off
  if off = Reg.actCtrl a ∧ a ≠ 0 ∧ bitOf word 0 then
    if s.on F.hifOstCtrl_active then s
    else
      let was := s.rd (F.actCtrl_enable a)
      let t := s.storeWord off word
      if s.fnOn a then t else t.wr (F.actCtrl_enable a) was
  else s.storeWord off word

/-- CREW (Table 4.6). -/
def State.writeCrew (s : State) (off word : Nat) : State :=
  let c := instOf 0x1000000 0x10000 off
  if off = Reg.crewSpare c then
    let t := if bitOf word 4 then s.spareHewer c (bits word 0 4) else s
    if bitOf word 11 then t.spareCore c (bits word 8 3) else t
  else if off = Reg.crewCtrl c then (s.storeWord off word).tryStarts
  else s.storeWord off word

/-- WNZ (Table 8.7). -/
def State.writeWnz (s : State) (off word : Nat) : State :=
  let t := instOf 0x1400000 0x4000 off
  if off = Reg.wnzSpare t then if bitOf word 3 then s.spareUnit t (bits word 0 3) else s
  else s.storeWord off word

/-- MEM (Table 10.5). -/
def State.writeMemReg (s : State) (off word : Nat) : State :=
  if off = Reg.memPool then s.writePool (word % 256)
  else if off = Reg.memFlipCtrl then s.writeFlipCtrl word
  else if off = Reg.memSpare then
    if !bitOf word 11 then s
    else if bitOf word 10 then s.spareDead (bits word 0 5) (bits word 5 5)
    else s.spareCopy (bits word 0 5) (bits word 5 5)
  else
    let a := instOf 0x1802000 0x20 off
    let t := s.storeWord off word
    if 0x1802000 ≤ off ∧ a < 16 ∧ off % 0x20 < 0x10 then t.applyQuotas a else t

/-- ADT (Table 11.7). -/
def State.writeAdt (s : State) (src : Src) (off word : Nat) : State :=
  if off = Reg.adtDieRetire then
    if bitOf word 9 then after (execAdtDieRetire src (bits word 0 5) (bits word 5 4) s) s else s
  else (s.storeWord off word).adtRefresh

/-- CAR (Table 12.6). The copies go when the copy store is moved. -/
def State.writeCar (s : State) (src : Src) (off word : Nat) : State :=
  let l := instOf 0x2801000 0x20 off
  if off = Reg.carCtrl then
    let t := s.storeWord off word
    let t := if bitOf word 0 && t.carState == 0 && !t.netHeld then t.listen
      else if !bitOf word 0 && t.carState == 1 then t.stopListening else t
    if bitOf word 2 then t.planLeave else t
  else if off = Reg.carCfg then if s.carState = 0 then s.storeWord off word else s
  else if off = Reg.carAdmit then
    if !bitOf word 7 then s
    else if bitOf word 6 then after (execCarRemove src (bits word 0 6) s) s
    else after (execCarAdmit src (bits word 0 6) s) s
  else if off = Reg.carCopyBaseLo ∨ off = Reg.carCopyBaseHi ∨ off = Reg.carCopySize then
    (s.storeWord off word).modCar fun c => { c with copies := [] }
  else if 0x2801000 ≤ off ∧ l < 8 ∧ off = Reg.carLinkCtrl l then
    if (bitOf word 4 && s.on (F.carLinkStatus_spareUsed l)) || (bitOf word 5 && s.on (F.carLinkStatus_laserSpareUsed l)) then s else
    let t := if bitOf word 4 then after (execLinkLaneGo src l (bits word 0 4) s) s else s
    if bitOf word 5 then after (execLinkLaserGo src l t) t else t
  else s.storeWord off word

/-- RGM (Table 13.8): the pending list holds while it is armed. -/
def State.writeRgm (s : State) (src : Src) (off word : Nat) : State :=
  let n := instOf 0x3001000 0x400 off
  if 0x3001000 ≤ off ∧ n < 43 then
    if off = Reg.rgmChGclCtrl n then
      if bitOf word 24 then after (execGateListArm src n (bits word 0 7) (bits word 8 16) s) s
      else if (s.chan n).armed.any (· ≤ s.now) then s
      else (after (execGateListCancel src n s) s).storeWord off word
    else if off = Reg.rgmChReserve n then after (execReserveWrite src n (bits word 0 19) s) s
    else if off = Reg.rgmChMax n then (s.storeWord off word).releaseCells
    else if (off - 0x3001000) % 0x400 < 0x100 then s.storeWord off word
    else if s.on (F.rgmChGclCtrl_arm n) then s
    else s.storeWord off word
  else if 0x3020000 ≤ off then
    let m := instOf 0x3020000 0x20 off
    if off = Reg.rgmMtrCtrl m ∧ bitOf word 3 then
      after (execMeterApply src (m / 16) (m / 4 % 4) (m % 4) (bits word 0 2) (bitOf word 2) s) s
    else s.storeWord off word
  else if 0x3010000 ≤ off then (s.storeWord off word).releaseCells
  else s.storeWord off word

/-- MDW (Table 12.7). -/
def State.writeMdw (s : State) (src : Src) (off word : Nat) : State :=
  if off = Reg.mdwPtpTsPop then if bitOf word 0 then after (execPtpTsPop src s) s else s
  else s.storeWord off word

/-- ASY (Table 16.10). -/
def State.writeAsy (s : State) (off word : Nat) : State :=
  if off = Reg.asyCtrl then
    let t := s.storeWord off word
    let t := if bitOf word 2 then t.commitSvn else t
    if bitOf word 7 then t.extGo else t
  else s.storeWord off word

/-- FUN (Table 17.7, R490). -/
def State.writeFun (s : State) (off word : Nat) : State :=
  let n := instOf 0x3C00100 0x20 off
  if off = Reg.funCtrl then s.writeFunCtrl word
  else if off < 0x3C00100 then
    s.alerted fun s =>
      let t := s.storeWord off word
      if t.on F.funSpareLog_valid then t else t.setAlert 3 false
  else if off = Reg.funPCtrl n then s.writeSlot n word
  else if s.on (F.funPCtrl_arm n) then s
  else s.storeWord off word

/-- DBG (Table 16.11): the token is kept for its check, and reads zero. -/
def State.writeDbg (s : State) (off word : Nat) : State :=
  if off = Reg.dbgCtrl then
    let t := if bitOf word 0 then s.submitToken else s
    let t := if bitOf word 1 then t.debugReset else t
    if bitOf word 2 then t.lockDebug else t
  else if 0x3E00100 ≤ off then s.setReg off (BitVec.ofNat 32 word)
  else s.storeWord off word

/-- A write that its source may make: what it stores and sets off. -/
def State.writeBlock (s : State) (src : Src) (off word : Nat) : State :=
  if off < 0x100000 then s.storeWord off word
  else if off < 0x200000 then s.writeTal off word
  else if off < 0x300000 then s.writeRst off word
  else if off < 0x400000 then s.writePwr off word
  else if off < 0x800000 then s.writeHif src off word
  else if off < 0x1000000 then s.writeAct off word
  else if off < 0x1400000 then s.writeCrew off word
  else if off < 0x1800000 then s.writeWnz off word
  else if off < 0x1C00000 then s.writeMemReg off word
  else if off < 0x2000000 then s.storeWord off word
  else if off < 0x2800000 then s.writeAdt src off word
  else if off < 0x3000000 then s.writeCar src off word
  else if off < 0x3400000 then s.writeRgm src off word
  else if off < 0x3800000 then s.writeMdw src off word
  else if off < 0x3C00000 then s.writeAsy off word
  else if off < 0x3E00000 then s.writeFun off word
  else s.writeDbg off word

/-! ## Who writes what (R13, R42, R421, R422) -/

/-- ACT_CTRL.HALT and ACT_STATUS.FAULTED alone, for a virtual function. -/
def State.writeOwnAct (s : State) (a off word : Nat) : State :=
  if off = Reg.actCtrl a then s.wr (F.actCtrl_halt a) (bits word (F.actCtrl_halt a).lo 1)
  else if off = Reg.actStatus a then if bitOf word (F.actStatus_faulted a).lo then s.wr (F.actStatus_faulted a) 0 else s
  else s

/-- A write of one register by a source. -/
def State.writeReg (s : State) (src : Src) (off word : Nat) : State :=
  if (findReg off).isNone || !s.answers off then s else
  match src with
  | .boss => s.writeBlock src off word
  | .fn 0 => s.writeBlock src off word
  | .fn f =>
    if f ≥ 16 ∨ !s.fnOn f then s
    else if ownBlock f off then if off = Reg.hifFnPoll f then s else s.writeHif src off word
    else if ownAct f off then s.writeOwnAct f off word
    else s

/-- Whether an offset is one that an access of one register, or of two, may use. -/
def aligned (off : Nat) (wide : Bool) : Bool := decide (off % (if wide then 8 else 4) = 0)

/-- An access of one register or of two adjacent ones, the lower address in bits [31:0] (R10). -/
def State.writeWide (s : State) (src : Src) (off low : Nat) (high : Option Nat) : State :=
  if !aligned off high.isSome then s.badAccess src off true else
  let t := s.writeReg src off (low % 2 ^ 32)
  match high with
  | some h => t.writeReg src (off + 4) (h % 2 ^ 32)
  | none => t

def execRegisterWrite (src : Src) (off word : Nat) (high : Option Nat) (s : State) : Host.Outcome State Fault Refusal :=
  .next (s.writeWide src off word high)

/-- A read with its answer to the reader. -/
def State.answerRead (s : State) (src : Src) (who : Nat × Nat) (off : Nat) (wide : Bool) : State :=
  let n := if wide then 8 else 4
  if !aligned off wide then (s.badAccess src off false).emit (.regData src (zeros n)) else
  let (v, t) := s.readWide src who off wide
  t.emit (.regData src (leBytes v n))

def execReadClearRegisterRead (src : Src) (off : Nat) (wide : Bool) (s : State) : Host.Outcome State Fault Refusal :=
  .next (s.answerRead src (Snap.of src) off wide)

def execTallySnapshotRead (src : Src) (wide : Bool) (s : State) : Host.Outcome State Fault Refusal :=
  .next (s.answerRead src (Snap.of src) Reg.talBeatLo wide)

/-- R10's other accesses: they end with zeros or no effect, and the first that is not aligned 32-bit or 64-bit is logged. -/
def execUnalignedRegisterAccess (src : Src) (off len : Nat) (write : Bool) (s : State) : Host.Outcome State Fault Refusal :=
  .next (
    let known := (findReg off).isSome || (len == 8 && (findReg (off + 4)).isSome)
    if plainAccess off len && known then s else
    let t := if plainAccess off len then s else s.badAccess src off write
    if write then t else t.emit (.regData src (zeros len)))

/-! ## Scalar loads and stores (R46, R82, R87) -/

/-- What a strand's own stores that wait behind a Winze operation make of the bytes it loads (R46). -/
def State.forward (s : State) (strand a : Nat) (b : List Byte) : List Byte :=
  let mine := s.wnz.held.filter (·.whose == .store strand)
  (List.range b.length).map fun i =>
    mine.foldl (fun (v : Byte) (h : HeldWrite) =>
      match (List.range h.data.length).find? (fun k => physOf (h.addr + k) == physOf (a + i)) with
      | some k => h.data.getD k v
      | none => v) (b.getD i 0#8)

/-- The checks of a scalar access in the order of R84, and its address. -/
def scalarAt (j : Job) (v : BitVec 128) (off n : Nat) (write : Bool) : M Nat := do
  let d ← useDsc v [0] write
  within d off n
  let a := d.base + off
  need (a % n == 0) cAlign a
  checkAccess j ((← get).isPriv j) (if write then .write else .read) a n
  pure a

/-- A loaded number extended to 64 bits. -/
def extended (o : Insn) (n v : Nat) : DWord :=
  if o.fld 2 1 = 1 ∧ v.testBit (8 * n - 1) then BitVec.ofInt 64 ((v : Int) - 2 ^ (8 * n)) else BitVec.ofNat 64 v

/-- SCL.LD. In register space it is the Shift boss's access, and a narrow one reads zero. -/
def execSclLd (o : Insn) (s : State) : Host.Outcome State Fault Refusal :=
  issue Form.sclLd o s fun t j => do
    let n := 2 ^ o.fld 0 2
    let a ← scalarAt j (t.getD o.a) (t.getS o.b).toNat n false
    let v ← match locate a with
      | .register r =>
        if n < 4 then do
          upd fun s => s.badAccess .boss r false
          pure 0
        else updGet fun s => s.readWide .boss (17, t.id) r (n == 8)
      | _ => do
        let b ← readOrd a n
        pure (leNat ((← get).forward t.id a b))
    upd fun s => s.modStrand o.strand fun u => u.setS o.dst (extended o n v)

/-- SCL.ST. -/
def execSclSt (o : Insn) (s : State) : Host.Outcome State Fault Refusal :=
  issue Form.sclSt o s fun t j => do
    let n := 2 ^ o.fld 0 2
    let a ← scalarAt j (t.getD o.dst) (t.getS o.b).toNat n true
    let v := (t.getS o.a).toNat
    upd fun s => match locate a with
      | .register r =>
        if n < 4 then s.badAccess .boss r true
        else s.writeWide .boss r v (if n = 8 then some (v / 2 ^ 32) else none)
      | _ => s.ordWrite a (leBytes v n) (.store t.id)

/-! ## Engine accesses to register space (R10) -/

/-- An ordinary read by an engine: an aligned one of 32 or 64 bits in register space is the Shift boss's access. -/
def readEngine (t : Strand) (a n : Nat) : M (List Byte) := do
  match registerAt a with
  | some off =>
    if plainAccess off n then do
      let v ← updGet fun s => s.readWide .boss (17, t.id) off (n == 8)
      pure (leBytes v n)
    else readOrd a n
  | none => readOrd a n

/-- A write of register space that an engine instruction makes: aligned and of 32 or 64 bits, it is the Shift boss's access. -/
def State.registerEffect (s : State) (e : Effect) : State :=
  match e with
  | .mem _ a data =>
    match registerAt a with
    | some off =>
      if plainAccess off data.length then
        s.writeWide .boss off (leNat data) (if data.length = 8 then some (leNat data / 2 ^ 32) else none)
      else s
    | none => s
  | _ => s

/-- An engine finishes an instruction that waits for nothing else. -/
def execEngineCompletion (strand tag : Nat) (s : State) : Host.Outcome State Fault Refusal :=
  .next (match (s.anyStrand? strand).bind (·.flight? tag) with
    | none => s
    | some f =>
      let go := match f.gate with
        | .engine => true
        | .commit b => decide (b ≤ s.now)
        | _ => false
      if !go then s
      else if f.effects.any s.holds then s.complete strand tag
      else f.effects.foldl State.registerEffect (s.complete strand tag))

def execCarPut (o : Insn) (s : State) : Host.Outcome State Fault Refusal :=
  carIssue Form.carPut o s fun t j => do
    let n := (t.getS o.b).toNat
    let d ← useDsc (t.getD o.a) [0] false
    let r ← useDsc (t.getD o.dst) [1] true
    within d 0 n
    within r 0 n
    onCarousel r
    checkAccess j ((← get).isPriv j) .read d.base n
    let b ← readEngine t d.base n
    let s ← get
    let mk (a : Nat) (x : List Byte) : Packet :=
      { s.packetTo .put 2 r.node j.act (keyOf o) a x.length with data := x, squeeze := o.fld 0 1 == 1 }
    if n = 0 then launch Form.carPut o t .engine [] [] []
    else if r.node = s.self then do
      if (s.serveAt (mk r.base b)).1 = .wait then writeHere Form.carPut o t (mk r.base b)
      else do
        let _ ← serveHere (mk r.base b)
        launch Form.carPut o t .engine [] [] []
    else do
      let tag := s.nextId
      launch Form.carPut o t (.rack tag) [] [] []
      upd fun s => s.dropCopies r.node r.base n
      upd fun s => (cutRange false (n / 4096 + 2) r.base 0 n).foldl
        (fun s e => s.request (mk e.1 (slice b e.2.1 e.2.2)) t.id tag .done) s

/-! ## MOV.COPY (R89, R426) -/

/-- The bytes that a copy reads: of node memory, or those that the host answered with. An answer of another length is none to this read. -/
def copySource (t : Strand) (j : Job) (d : Dsc) (n : Nat) (data : Option (List Byte)) : M (List Byte) := do
  if d.space = 0 then readEngine t d.base n
  else
    upd fun s => s.emit (.hostRead j.act d.base n)
    match data with
    | none => throw (.endJob 0x62 1)
    | some b => if b.length = n then pure b else throw .hold

/-- COPY: everything is read before anything is written. -/
def execMovCopy (o : Insn) (data : Option (List Byte)) (s : State) : Host.Outcome State Fault Refusal :=
  engine Form.movCopy o s [] [] fun t j => do
    let n := (t.getS o.b).toNat
    let from_ ← useDsc (t.getD o.a) [0, 2] false
    let into ← useDsc (t.getD o.dst) [0, 2] true
    within from_ 0 n
    within into 0 n
    let priv := (← get).isPriv j
    checkAll j priv ((if from_.space = 0 then [(.read, from_.base, n)] else []) ++ if into.space = 0 then [(.write, into.base, n)] else [])
    let b ← copySource t j from_ n data
    pure (if n = 0 then [] else if into.space = 0 then [.mem 0 into.base b] else [.host j.act into.base b])

/-! ## SYS.RREG, SYS.WREG and SYS.TELEM (R107) -/

/-- SYS.RREG: each strand is a source of its own (R414). -/
def execSysRreg (o : Insn) (s : State) : Host.Outcome State Fault Refusal :=
  issue Form.sysRreg o s fun t j => do
    need ((← get).isPriv j) cPriv
    let off := (t.getS o.a).toNat
    need (off % 4 == 0) cAlign off
    let v ← updGet fun s => s.readReg .boss (17, t.id) off
    upd fun s => s.modStrand o.strand fun u => u.setS o.dst (BitVec.ofNat 64 v)

/-- SYS.WREG. -/
def execSysWreg (o : Insn) (s : State) : Host.Outcome State Fault Refusal :=
  issue Form.sysWreg o s fun t j => do
    need ((← get).isPriv j) cPriv
    let off := (t.getS o.a).toNat
    need (off % 4 == 0) cAlign off
    upd fun s => s.writeReg .boss off ((t.getS o.b).toNat % 2 ^ 32)

/-- The entries of every table's directory. -/
def State.directoryUse (s : State) : Nat := (s.wnz.tables.map Table.entries).sum

/-- The oldest snapshot that every act with an index answers, or 0. -/
def State.oldestOfAll (s : State) : Nat :=
  match s.idx.indexes with
  | [] => 0
  | i :: l => l.foldl (fun m x => min m (s.oldest x.act)) (s.oldest i.act)

/-- A telemetry counter by its CTR number (Tables 4.7 to 17.8): the counters that are also registers are read there, uncleared. -/
def State.telemetry (s : State) (c : Nat) : Nat :=
  if 0x100 ≤ c ∧ c < 0x110 then s.rd64 (F.crewMmaLo_count (c - 0x100)) (F.crewMmaHi_count (c - 0x100))
  else if 0x110 ≤ c ∧ c < 0x120 then s.rd (F.crewSatCount_count (c - 0x110))
  else if c = 0x200 then s.rd64 F.cruPackInLo_bytes F.cruPackInHi_bytes
  else if c = 0x201 then s.rd64 F.cruPackOutLo_bytes F.cruPackOutHi_bytes
  else if c = 0x202 then s.rd F.cruDamageCount_count
  else if c = 0x203 then s.rd F.cruAtuseCount_count
  else if c = 0x204 then s.rd F.cruQntDriftCount_count
  else if c = 0x205 then s.rd F.cruQntSatCount_count
  else if c = 0x308 then s.tally.committed
  else if c = 0x309 then s.entriesHeld
  else if c = 0x30A then s.oldestOfAll
  else if 0x500 ≤ c ∧ c < 0x518 then s.rd64 (F.wnzCmdLo_count (c - 0x500)) (F.wnzCmdHi_count (c - 0x500))
  else if 0x518 ≤ c ∧ c < 0x530 then s.rd64 (F.wnzSubqLo_count (c - 0x518)) (F.wnzSubqHi_count (c - 0x518))
  else if 0x548 ≤ c ∧ c < 0x560 then s.rd (F.wnzHoldCount_count (c - 0x548))
  else if c = 0x607 then s.directoryUse
  else s.ctr c

/-- SYS.TELEM. -/
def execSysTelem (o : Insn) (s : State) : Host.Outcome State Fault Refusal :=
  issue Form.sysTelem o s fun _ j => do
    need ((← get).isPriv j) cPriv
    upd fun s => s.modStrand o.strand fun u => u.setS o.dst (BitVec.ofNat 64 (s.telemetry (o.fld 0 16)))

end Sys2Proof.Machine
end

