-- ==== Sys2Proof/Machine/Scalar.lean ====
section
/-! DEFINITION. The scalar instructions that stay on the strand's own registers: SCL of Table 3.5 without LD and ST, and
MOV.DSET, MOV.DGET and MOV.DSUB (Table 3.6). -/
namespace Sys2Proof.Machine

/-- A three-register scalar function. -/
def alu (o : Insn) (g : DWord → DWord → DWord) (t u : Strand) : Strand := u.setS o.dst (g (t.getS o.a) (t.getS o.b))

/-- A binary32 function of two sources: bits [63:32] are ignored and written zero (R87). -/
def fpu (g : Nat → Nat → Nat) (a b : DWord) : DWord := BitVec.ofNat 64 (g (a.toNat % 2 ^ 32) (b.toNat % 2 ^ 32))

/-- Unsigned division, all ones by zero. -/
def divu (a b : DWord) : DWord := if b = 0#64 then BitVec.allOnes 64 else a / b

/-- Unsigned remainder, the dividend by zero. -/
def remu (a b : DWord) : DWord := if b = 0#64 then a else a % b

/-- The high 64 bits of an unsigned product. -/
def mulhu (a b : DWord) : DWord := BitVec.ofNat 64 (a.toNat * b.toNat / 2 ^ 64)

/-- A shift count: sB[5:0]. -/
def shamt (b : DWord) : Nat := b.toNat % 64

def execSclLi (o : Insn) (s : State) : Host.Outcome State Fault Refusal :=
  scalar Form.sclLi o s fun _ u => u.setS o.dst (BitVec.ofInt 64 (simm o))
def execSclLix (o : Insn) (s : State) : Host.Outcome State Fault Refusal :=
  scalar Form.sclLix o s fun _ u => u.setS o.dst (o.ext.getD 0 0#64)
def execSclAdd (o : Insn) (s : State) : Host.Outcome State Fault Refusal :=
  scalar Form.sclAdd o s (alu o fun a b => a + b)
def execSclAddi (o : Insn) (s : State) : Host.Outcome State Fault Refusal :=
  scalar Form.sclAddi o s fun t u => u.setS o.dst (t.getS o.a + BitVec.ofInt 64 (simm o))
def execSclSub (o : Insn) (s : State) : Host.Outcome State Fault Refusal :=
  scalar Form.sclSub o s (alu o fun a b => a - b)
def execSclMul (o : Insn) (s : State) : Host.Outcome State Fault Refusal :=
  scalar Form.sclMul o s (alu o fun a b => a * b)
def execSclMulhu (o : Insn) (s : State) : Host.Outcome State Fault Refusal := scalar Form.sclMulhu o s (alu o mulhu)
def execSclDivu (o : Insn) (s : State) : Host.Outcome State Fault Refusal := scalar Form.sclDivu o s (alu o divu)
def execSclRemu (o : Insn) (s : State) : Host.Outcome State Fault Refusal := scalar Form.sclRemu o s (alu o remu)
def execSclAnd (o : Insn) (s : State) : Host.Outcome State Fault Refusal :=
  scalar Form.sclAnd o s (alu o fun a b => a &&& b)
def execSclOr (o : Insn) (s : State) : Host.Outcome State Fault Refusal :=
  scalar Form.sclOr o s (alu o fun a b => a ||| b)
def execSclXor (o : Insn) (s : State) : Host.Outcome State Fault Refusal :=
  scalar Form.sclXor o s (alu o fun a b => a ^^^ b)
def execSclShl (o : Insn) (s : State) : Host.Outcome State Fault Refusal :=
  scalar Form.sclShl o s (alu o fun a b => a <<< shamt b)
def execSclShr (o : Insn) (s : State) : Host.Outcome State Fault Refusal :=
  scalar Form.sclShr o s (alu o fun a b => a >>> shamt b)
def execSclSar (o : Insn) (s : State) : Host.Outcome State Fault Refusal :=
  scalar Form.sclSar o s (alu o fun a b => a.sshiftRight (shamt b))

/-- CMP (Table 3.5). -/
def execSclCmp (o : Insn) (s : State) : Host.Outcome State Fault Refusal :=
  scalar Form.sclCmp o s fun t u => u.setP o.dst (cmpCond (o.fld 0 3) (t.getS o.a) (t.getS o.b))

/-- PLOG (Table 3.5). -/
def execSclPlog (o : Insn) (s : State) : Host.Outcome State Fault Refusal :=
  scalar Form.sclPlog o s fun t u => u.setP o.dst (plogOp (o.fld 0 2) (t.getP o.a) (t.getP o.b))

/-- SEL (Table 3.5): it reads one more predicate than its sources, which is tracked with them. -/
def execSclSel (o : Insn) (s : State) : Host.Outcome State Fault Refusal :=
  issue Form.sclSel o s fun t _ => do
    if !t.clear [.p (o.fld 0 3)] [] then throw .hold
    upd fun s => s.modStrand o.strand fun u => u.setS o.dst (if t.getP (o.fld 0 3) then t.getS o.a else t.getS o.b)

def execSclFadd (o : Insn) (s : State) : Host.Outcome State Fault Refusal := scalar Form.sclFadd o s (alu o (fpu fadd))
def execSclFmul (o : Insn) (s : State) : Host.Outcome State Fault Refusal := scalar Form.sclFmul o s (alu o (fpu fmul))

/-- FFMA (Table 3.5): sD is also a source. -/
def execSclFfma (o : Insn) (s : State) : Host.Outcome State Fault Refusal :=
  scalar Form.sclFfma o s fun t u =>
    u.setS o.dst (fpu (fun a b => ffma a b ((t.getS o.dst).toNat % 2 ^ 32)) (t.getS o.a) (t.getS o.b))

/-- FCMP (Table 3.5, R88). -/
def execSclFcmp (o : Insn) (s : State) : Host.Outcome State Fault Refusal :=
  scalar Form.sclFcmp o s fun t u => u.setP o.dst (fcmpCond (o.fld 0 2) (t.getS o.a) (t.getS o.b))

/-- FCVT (Table 3.5). -/
def execSclFcvt (o : Insn) (s : State) : Host.Outcome State Fault Refusal :=
  scalar Form.sclFcvt o s fun t u =>
    u.setS o.dst (if o.fld 0 1 = 0 then f32ToI64 ((t.getS o.a).toNat % 2 ^ 32) else BitVec.ofNat 64 (i64ToF32 (t.getS o.a)))

/-- DSET (Table 3.6): checked at use. -/
def execMovDset (o : Insn) (s : State) : Host.Outcome State Fault Refusal :=
  scalar Form.movDset o s fun t u => u.setD o.dst (t.getS o.b ++ t.getS o.a)

/-- DGET (Table 3.6). -/
def execMovDget (o : Insn) (s : State) : Host.Outcome State Fault Refusal :=
  scalar Form.movDget o s fun t u =>
    u.setS o.dst (BitVec.ofNat 64 ((t.getD o.a).toNat / 2 ^ (64 * o.fld 0 1)))

/-- The descriptor that DSUB forms: a new base and length, and every other field kept. -/
def subDsc (v : BitVec 128) (off len : Nat) : BitVec 128 :=
  let n := v.toNat
  BitVec.ofNat 128 (putBits (putBits n 0 46 (bits n 0 46 + off)) 64 42 len)

/-- DSUB (Table 3.6): DESCRIPTOR past the source's length. -/
def execMovDsub (o : Insn) (s : State) : Host.Outcome State Fault Refusal :=
  issue Form.movDsub o s fun t _ => do
    let off := (t.getS o.b).toNat
    let len := (o.ext.getD 0 0#64).toNat
    let d ← useDsc (t.getD o.a) [0, 1, 2] false
    need (decide (off + len ≤ d.len)) cDescriptor (d.base + off)
    upd fun s => s.modStrand o.strand fun u => u.setD o.dst (subDsc (t.getD o.a) off len)

end Sys2Proof.Machine
end

