-- ==== Sys2Proof/Machine/Dispatch.lean ====
section
/-! DEFINITION. The dispatcher: one arm per command, each one call of its meaning, or a refusal by name. -/
namespace Sys2Proof.Machine

/-- The effect of a command on everything but the queue. -/
def exec (i : Instr) (s : State) : Host.Outcome State Fault Refusal :=
  match i with
  | .registerWrite src off word high => Sys2Proof.Machine.execRegisterWrite src off word high s
  | .readClearRegisterRead src off wide => Sys2Proof.Machine.execReadClearRegisterRead src off wide s
  | .unalignedRegisterAccess src off len write => Sys2Proof.Machine.execUnalignedRegisterAccess src off len write s
  | .tallySnapshotRead src wide => Sys2Proof.Machine.execTallySnapshotRead src wide s
  | .ringPoll act words => Sys2Proof.Machine.execRingPoll act words s
  | .descriptorFetchComplete act ring num desc => Sys2Proof.Machine.execDescriptorFetchComplete act ring num desc s
  | .hostReadError what => Sys2Proof.Machine.execHostReadError what s
  | .jobSnapshotRelease job => Sys2Proof.Machine.execJobSnapshotRelease job s
  | .jobSnapshotTimeout job => Sys2Proof.Machine.execJobSnapshotTimeout job s
  | .deadlineArrival job => Sys2Proof.Machine.execDeadlineArrival job s
  | .jobEnd job ledger => Sys2Proof.Machine.execJobEnd job ledger s
  | .completionWrite job => Sys2Proof.Machine.execCompletionWrite job s
  | .msixTimerExpiry act ring => Sys2Proof.Machine.execMsixTimerExpiry act ring s
  | .msixUnmask src fn vec => Sys2Proof.Machine.execMsixUnmask src fn vec s
  | .cqHeadWrite src act ring count => Sys2Proof.Machine.execCqHeadWrite src act ring count s
  | .ringEnable src act ring word => Sys2Proof.Machine.execRingEnable src act ring word s
  | .ringDisable src act ring word => Sys2Proof.Machine.execRingDisable src act ring word s
  | .loadRoutine job => Sys2Proof.Machine.execLoadRoutine job s
  | .unloadRoutine job => Sys2Proof.Machine.execUnloadRoutine job s
  | .routineRelease act handle => Sys2Proof.Machine.execRoutineRelease act handle s
  | .loaderUnknownOperation job => Sys2Proof.Machine.execLoaderUnknownOperation job s
  | .importTilePack job => Sys2Proof.Machine.execImportTilePack job s
  | .installIndex job => Sys2Proof.Machine.execInstallIndex job s
  | .installReportReceive act activeBeat crc node => Sys2Proof.Machine.execInstallReportReceive act activeBeat crc node s
  | .installWithdraw act activeBeat => Sys2Proof.Machine.execInstallWithdraw act activeBeat s
  | .openExchange job => Sys2Proof.Machine.execOpenExchange job s
  | .tableMigrate job => Sys2Proof.Machine.execTableMigrate job s
  | .tableReport job => Sys2Proof.Machine.execTableReport job s
  | .tableUndefine job => Sys2Proof.Machine.execTableUndefine job s
  | .tableUndefineEffect act num => Sys2Proof.Machine.execTableUndefineEffect act num s
  | .flashFormat job => Sys2Proof.Machine.execFlashFormat job s
  | .flashAttach job => Sys2Proof.Machine.execFlashAttach job s
  | .flashSegmentOpen job => Sys2Proof.Machine.execFlashSegmentOpen job s
  | .flashSegmentSeal job => Sys2Proof.Machine.execFlashSegmentSeal job s
  | .flashSegmentReopen job => Sys2Proof.Machine.execFlashSegmentReopen job s
  | .flashSegmentFree job => Sys2Proof.Machine.execFlashSegmentFree job s
  | .exportRegion job => Sys2Proof.Machine.execExportRegion job s
  | .unexportRegion job => Sys2Proof.Machine.execUnexportRegion job s
  | .unexportComplete job => Sys2Proof.Machine.execUnexportComplete job s
  | .sendMidwayMessage job => Sys2Proof.Machine.execSendMidwayMessage job s
  | .attestationQuote job => Sys2Proof.Machine.execAttestationQuote job s
  | .pairSlice job remote => Sys2Proof.Machine.execPairSlice job remote s
  | .pairTakeEffect job => Sys2Proof.Machine.execPairTakeEffect job s
  | .ledgerArgumentRelease job ledger => Sys2Proof.Machine.execLedgerArgumentRelease job ledger s
  | .ctlNop o => Sys2Proof.Machine.execCtlNop o s
  | .ctlBr o => Sys2Proof.Machine.execCtlBr o s
  | .ctlCall o => Sys2Proof.Machine.execCtlCall o s
  | .ctlJmpr o => Sys2Proof.Machine.execCtlJmpr o s
  | .ctlLoop o => Sys2Proof.Machine.execCtlLoop o s
  | .ctlEnd o => Sys2Proof.Machine.execCtlEnd o s
  | .sclLi o => Sys2Proof.Machine.execSclLi o s
  | .sclLix o => Sys2Proof.Machine.execSclLix o s
  | .sclAdd o => Sys2Proof.Machine.execSclAdd o s
  | .sclAddi o => Sys2Proof.Machine.execSclAddi o s
  | .sclSub o => Sys2Proof.Machine.execSclSub o s
  | .sclMul o => Sys2Proof.Machine.execSclMul o s
  | .sclMulhu o => Sys2Proof.Machine.execSclMulhu o s
  | .sclDivu o => Sys2Proof.Machine.execSclDivu o s
  | .sclRemu o => Sys2Proof.Machine.execSclRemu o s
  | .sclAnd o => Sys2Proof.Machine.execSclAnd o s
  | .sclOr o => Sys2Proof.Machine.execSclOr o s
  | .sclXor o => Sys2Proof.Machine.execSclXor o s
  | .sclShl o => Sys2Proof.Machine.execSclShl o s
  | .sclShr o => Sys2Proof.Machine.execSclShr o s
  | .sclSar o => Sys2Proof.Machine.execSclSar o s
  | .sclCmp o => Sys2Proof.Machine.execSclCmp o s
  | .sclPlog o => Sys2Proof.Machine.execSclPlog o s
  | .sclSel o => Sys2Proof.Machine.execSclSel o s
  | .sclLd o => Sys2Proof.Machine.execSclLd o s
  | .sclSt o => Sys2Proof.Machine.execSclSt o s
  | .sclFadd o => Sys2Proof.Machine.execSclFadd o s
  | .sclFmul o => Sys2Proof.Machine.execSclFmul o s
  | .sclFfma o => Sys2Proof.Machine.execSclFfma o s
  | .sclFcmp o => Sys2Proof.Machine.execSclFcmp o s
  | .sclFcvt o => Sys2Proof.Machine.execSclFcvt o s
  | .movDset o => Sys2Proof.Machine.execMovDset o s
  | .movDget o => Sys2Proof.Machine.execMovDget o s
  | .movDsub o => Sys2Proof.Machine.execMovDsub o s
  | .movCopy o data => Sys2Proof.Machine.execMovCopy o data s
  | .movTopen o => Sys2Proof.Machine.execMovTopen o s
  | .expansionComplete tile => Sys2Proof.Machine.execExpansionComplete tile s
  | .movTalloc o => Sys2Proof.Machine.execMovTalloc o s
  | .movTloadm o => Sys2Proof.Machine.execMovTloadm o s
  | .movTstore o => Sys2Proof.Machine.execMovTstore o s
  | .movTsave o => Sys2Proof.Machine.execMovTsave o s
  | .movTfree o => Sys2Proof.Machine.execMovTfree o s
  | .movTdrop o => Sys2Proof.Machine.execMovTdrop o s
  | .tileDelete tile => Sys2Proof.Machine.execTileDelete tile s
  | .movTplace o => Sys2Proof.Machine.execMovTplace o s
  | .hewMma o => Sys2Proof.Machine.execHewMma o s
  | .hewEw o => Sys2Proof.Machine.execHewEw o s
  | .hewAct o => Sys2Proof.Machine.execHewAct o s
  | .hewRed o => Sys2Proof.Machine.execHewRed o s
  | .hewCvt o => Sys2Proof.Machine.execHewCvt o s
  | .hewOred o => Sys2Proof.Machine.execHewOred o s
  | .oredSlotTimeout job hew slot => Sys2Proof.Machine.execOredSlotTimeout job hew slot s
  | .qntPrepass o => Sys2Proof.Machine.execQntPrepass o s
  | .qntCvt o => Sys2Proof.Machine.execQntCvt o s
  | .qntSplit o => Sys2Proof.Machine.execQntSplit o s
  | .qntDrift o => Sys2Proof.Machine.execQntDrift o s
  | .cruPack o => Sys2Proof.Machine.execCruPack o s
  | .cruUnpack o => Sys2Proof.Machine.execCruUnpack o s
  | .cruCheck o => Sys2Proof.Machine.execCruCheck o s
  | .sluScan o => Sys2Proof.Machine.execSluScan o s
  | .sluDist o => Sys2Proof.Machine.execSluDist o s
  | .snapshotWaitRelease strand => Sys2Proof.Machine.execSnapshotWaitRelease strand s
  | .rerankFetchServe node act loc id pos media => Sys2Proof.Machine.execRerankFetchServe node act loc id pos media s
  | .rerankFetchArrive id pos vec cached => Sys2Proof.Machine.execRerankFetchArrive id pos vec cached s
  | .wnzScan o => Sys2Proof.Machine.execWnzScan o s
  | .wnzBag o => Sys2Proof.Machine.execWnzBag o s
  | .wnzUpd o => Sys2Proof.Machine.execWnzUpd o s
  | .wnzGather o => Sys2Proof.Machine.execWnzGather o s
  | .winzeRegistrationPoint id => Sys2Proof.Machine.execWinzeRegistrationPoint id s
  | .winzeCommandQueued id stack => Sys2Proof.Machine.execWinzeCommandQueued id stack s
  | .winzeCommandArrival id stack cmd => Sys2Proof.Machine.execWinzeCommandArrival id stack cmd s
  | .winzeChunkComplete id stack unit => Sys2Proof.Machine.execWinzeChunkComplete id stack unit s
  | .winzeCompletionPoint id => Sys2Proof.Machine.execWinzeCompletionPoint id s
  | .winzeUnitFailure stack unit => Sys2Proof.Machine.execWinzeUnitFailure stack unit s
  | .winzeSpare src stack unit => Sys2Proof.Machine.execWinzeSpare src stack unit s
  | .jigTopk o => Sys2Proof.Machine.execJigTopk o s
  | .jigMerge o => Sys2Proof.Machine.execJigMerge o s
  | .jigSums o => Sys2Proof.Machine.execJigSums o s
  | .idxOpen o => Sys2Proof.Machine.execIdxOpen o s
  | .idxRoute o => Sys2Proof.Machine.execIdxRoute o s
  | .idxAppend o => Sys2Proof.Machine.execIdxAppend o s
  | .idxAppendx o => Sys2Proof.Machine.execIdxAppendx o s
  | .idxDelete o => Sys2Proof.Machine.execIdxDelete o s
  | .idxTomb o => Sys2Proof.Machine.execIdxTomb o s
  | .appendRelease act seam => Sys2Proof.Machine.execAppendRelease act seam s
  | .forwardedRecordReceive r => Sys2Proof.Machine.execForwardedRecordReceive r s
  | .vectorPageWrite act page => Sys2Proof.Machine.execVectorPageWrite act page s
  | .tblBuild o => Sys2Proof.Machine.execTblBuild o s
  | .tblLoad o => Sys2Proof.Machine.execTblLoad o s
  | .tblFilter o => Sys2Proof.Machine.execTblFilter o s
  | .tblThresh o => Sys2Proof.Machine.execTblThresh o s
  | .tblStore o => Sys2Proof.Machine.execTblStore o s
  | .tblTdef o => Sys2Proof.Machine.execTblTdef o s
  | .tblSwap o => Sys2Proof.Machine.execTblSwap o s
  | .tableSwapEvent act num => Sys2Proof.Machine.execTableSwapEvent act num s
  | .tblVer o => Sys2Proof.Machine.execTblVer o s
  | .carLd o => Sys2Proof.Machine.execCarLd o s
  | .carSt o => Sys2Proof.Machine.execCarSt o s
  | .carGet o => Sys2Proof.Machine.execCarGet o s
  | .carPut o => Sys2Proof.Machine.execCarPut o s
  | .carAtom o => Sys2Proof.Machine.execCarAtom o s
  | .carAtomn o => Sys2Proof.Machine.execCarAtomn o s
  | .carInv o => Sys2Proof.Machine.execCarInv o s
  | .adtRead o media => Sys2Proof.Machine.execAdtRead o media s
  | .adtWrite o => Sys2Proof.Machine.execAdtWrite o s
  | .adtDiscard o => Sys2Proof.Machine.execAdtDiscard o s
  | .talNow o => Sys2Proof.Machine.execTalNow o s
  | .talWaitb o => Sys2Proof.Machine.execTalWaitb o s
  | .waitbRelease strand => Sys2Proof.Machine.execWaitbRelease strand s
  | .talStable o => Sys2Proof.Machine.execTalStable o s
  | .talSub o => Sys2Proof.Machine.execTalSub o s
  | .synFence o => Sys2Proof.Machine.execSynFence o s
  | .synWfence o => Sys2Proof.Machine.execSynWfence o s
  | .synCfence o => Sys2Proof.Machine.execSynCfence o s
  | .synBar o => Sys2Proof.Machine.execSynBar o s
  | .synOred o => Sys2Proof.Machine.execSynOred o s
  | .fenceRelease strand => Sys2Proof.Machine.execFenceRelease strand s
  | .engineCompletion strand tag => Sys2Proof.Machine.execEngineCompletion strand tag s
  | .fenceTimeout strand => Sys2Proof.Machine.execFenceTimeout strand s
  | .sysRreg o => Sys2Proof.Machine.execSysRreg o s
  | .sysWreg o => Sys2Proof.Machine.execSysWreg o s
  | .sysTelem o => Sys2Proof.Machine.execSysTelem o s
  | .sysIdxop o => Sys2Proof.Machine.execSysIdxop o s
  | .sysSlice o => Sys2Proof.Machine.execSysSlice o s
  | .sliceRecompose => Sys2Proof.Machine.execSliceRecompose s
  | .sliceResourceJoin res => Sys2Proof.Machine.execSliceResourceJoin res s
  | .committedBeatReceive node beat => Sys2Proof.Machine.execCommittedBeatReceive node beat s
  | .backfillCut act seam => Sys2Proof.Machine.execBackfillCut act seam s
  | .backfillPublish act seam => Sys2Proof.Machine.execBackfillPublish act seam s
  | .versionRelease act seam num => Sys2Proof.Machine.execVersionRelease act seam num s
  | .rebalancePendingReceive act seam source target beat => Sys2Proof.Machine.execRebalancePendingReceive act seam source target beat s
  | .rebalanceCopyReceive c => Sys2Proof.Machine.execRebalanceCopyReceive c s
  | .rebalanceReady act seam => Sys2Proof.Machine.execRebalanceReady act seam s
  | .rebalanceReadyReceive act seam => Sys2Proof.Machine.execRebalanceReadyReceive act seam s
  | .rebalanceCancel act seam => Sys2Proof.Machine.execRebalanceCancel act seam s
  | .rebalanceCancelReceive act seam beat => Sys2Proof.Machine.execRebalanceCancelReceive act seam beat s
  | .rebalanceForwardStart act seam => Sys2Proof.Machine.execRebalanceForwardStart act seam s
  | .closeMarkerReceive act seam backfill => Sys2Proof.Machine.execCloseMarkerReceive act seam backfill s
  | .rebalanceRelease act seam => Sys2Proof.Machine.execRebalanceRelease act seam s
  | .retirementReceive act seam beat => Sys2Proof.Machine.execRetirementReceive act seam beat s
  | .seamStorageRelease act seam => Sys2Proof.Machine.execSeamStorageRelease act seam s
  | .broadcastAckReceive b => Sys2Proof.Machine.execBroadcastAckReceive b s
  | .cageAdmission act => Sys2Proof.Machine.execCageAdmission act s
  | .cageWaitExpiry act => Sys2Proof.Machine.execCageWaitExpiry act s
  | .cageGuardExpiry act => Sys2Proof.Machine.execCageGuardExpiry act s
  | .migrationMovingEnter act num => Sys2Proof.Machine.execMigrationMovingEnter act num s
  | .migrationCopyComplete act num row => Sys2Proof.Machine.execMigrationCopyComplete act num row s
  | .migrationFlip act num => Sys2Proof.Machine.execMigrationFlip act num s
  | .migrationSourceRelease act num job => Sys2Proof.Machine.execMigrationSourceRelease act num job s
  | .loadWindowEnd => Sys2Proof.Machine.execLoadWindowEnd s
  | .tierMoveFlip id => Sys2Proof.Machine.execTierMoveFlip id s
  | .tierSourceRelease id => Sys2Proof.Machine.execTierSourceRelease id s
  | .tileHomeRelease id => Sys2Proof.Machine.execTileHomeRelease id s
  | .quotaWrite src act kind word => Sys2Proof.Machine.execQuotaWrite src act kind word s
  | .memPoolWrite src gib => Sys2Proof.Machine.execMemPoolWrite src gib s
  | .scrubRound => Sys2Proof.Machine.execScrubRound s
  | .rowRetireFlip kind unit sub index => Sys2Proof.Machine.execRowRetireFlip kind unit sub index s
  | .hitPeriodBoundary => Sys2Proof.Machine.execHitPeriodBoundary s
  | .memSpareCopy src stack chan => Sys2Proof.Machine.execMemSpareCopy src stack chan s
  | .memSpareDead src stack chan => Sys2Proof.Machine.execMemSpareDead src stack chan s
  | .channelSpareFlip stack => Sys2Proof.Machine.execChannelSpareFlip stack s
  | .channelFailure stack chan => Sys2Proof.Machine.execChannelFailure stack chan s
  | .flipMaskArm src word => Sys2Proof.Machine.execFlipMaskArm src word s
  | .crewHewerSpare src crew hewer => Sys2Proof.Machine.execCrewHewerSpare src crew hewer s
  | .crewCoreSpare src crew core => Sys2Proof.Machine.execCrewCoreSpare src crew core s
  | .hewerFailure crew hewer => Sys2Proof.Machine.execHewerFailure crew hewer s
  | .controlCoreFailure crew core => Sys2Proof.Machine.execControlCoreFailure crew core s
  | .flashProgramComplete wseq => Sys2Proof.Machine.execFlashProgramComplete wseq s
  | .flashProgramFail what => Sys2Proof.Machine.execFlashProgramFail what s
  | .flashWriteResume wseq => Sys2Proof.Machine.execFlashWriteResume wseq s
  | .foldStart => Sys2Proof.Machine.execFoldStart s
  | .foldFlip act page verified => Sys2Proof.Machine.execFoldFlip act page verified s
  | .wearRelocate act page => Sys2Proof.Machine.execWearRelocate act page s
  | .journalFlush => Sys2Proof.Machine.execJournalFlush s
  | .journalFlushComplete => Sys2Proof.Machine.execJournalFlushComplete s
  | .dieAutoRetire chan die => Sys2Proof.Machine.execDieAutoRetire chan die s
  | .adtDieRetire src chan die => Sys2Proof.Machine.execAdtDieRetire src chan die s
  | .dieRebuildComplete => Sys2Proof.Machine.execDieRebuildComplete s
  | .holdupChange low held => Sys2Proof.Machine.execHoldupChange low held s
  | .powerFailAssert held => Sys2Proof.Machine.execPowerFailAssert held s
  | .powerFailClearReset => Sys2Proof.Machine.execPowerFailClearReset s
  | .laneBad link lane => Sys2Proof.Machine.execLaneBad link lane s
  | .laserPowerLow link => Sys2Proof.Machine.execLaserPowerLow link s
  | .linkLaneGo src link lane => Sys2Proof.Machine.execLinkLaneGo src link lane s
  | .linkLaserGo src link => Sys2Proof.Machine.execLinkLaserGo src link s
  | .carouselFrameReceive link seq crcOk head stream p => Sys2Proof.Machine.execCarouselFrameReceive link seq crcOk head stream p s
  | .linkFrameResend link seq => Sys2Proof.Machine.execLinkFrameResend link seq s
  | .carouselRequestReceive p => Sys2Proof.Machine.execCarouselRequestReceive p s
  | .putPayloadReceive p => Sys2Proof.Machine.execPutPayloadReceive p s
  | .carouselResponseReceive r => Sys2Proof.Machine.execCarouselResponseReceive r s
  | .requestReplayTimeout dst vc seq => Sys2Proof.Machine.execRequestReplayTimeout dst vc seq s
  | .copyFillReceive p => Sys2Proof.Machine.execCopyFillReceive p s
  | .invalidationReceive p => Sys2Proof.Machine.execInvalidationReceive p s
  | .invalidationAckReceive p => Sys2Proof.Machine.execInvalidationAckReceive p s
  | .carJoin src => Sys2Proof.Machine.execCarJoin src s
  | .carAdmit src pos => Sys2Proof.Machine.execCarAdmit src pos s
  | .carRemove src pos => Sys2Proof.Machine.execCarRemove src pos s
  | .carLeave src => Sys2Proof.Machine.execCarLeave src s
  | .admissionReceive pos beat written size pairEn members leave => Sys2Proof.Machine.execAdmissionReceive pos beat written size pairEn members leave s
  | .aloneDetect => Sys2Proof.Machine.execAloneDetect s
  | .membershipBeat elected => Sys2Proof.Machine.execMembershipBeat elected s
  | .helloReceive link size pos => Sys2Proof.Machine.execHelloReceive link size pos s
  | .joinConfirm => Sys2Proof.Machine.execJoinConfirm s
  | .joinTimeout => Sys2Proof.Machine.execJoinTimeout s
  | .founderConflict pos => Sys2Proof.Machine.execFounderConflict pos s
  | .neighbourLossDetect pos => Sys2Proof.Machine.execNeighbourLossDetect pos s
  | .lossBroadcastReceive pos beat ring => Sys2Proof.Machine.execLossBroadcastReceive pos beat ring s
  | .midwayFrameReceive port fcsOk fec frame => Sys2Proof.Machine.execMidwayFrameReceive port fcsOk fec frame s
  | .midwayJobReceive => Sys2Proof.Machine.execMidwayJobReceive s
  | .midwayResultReceive => Sys2Proof.Machine.execMidwayResultReceive s
  | .midwayAckReceive => Sys2Proof.Machine.execMidwayAckReceive s
  | .midwayFragmentTimeout mac act msg frag => Sys2Proof.Machine.execMidwayFragmentTimeout mac act msg frag s
  | .ptpEventTimestamp port domain dir type seq => Sys2Proof.Machine.execPtpEventTimestamp port domain dir type seq s
  | .ptpTsPop src => Sys2Proof.Machine.execPtpTsPop src s
  | .egressUnitComplete chan => Sys2Proof.Machine.execEgressUnitComplete chan s
  | .gateEntryAdvance chan => Sys2Proof.Machine.execGateEntryAdvance chan s
  | .gateListArm src chan entries cycleM1 => Sys2Proof.Machine.execGateListArm src chan entries cycleM1 s
  | .gateListCancel src chan => Sys2Proof.Machine.execGateListCancel src chan s
  | .gateTakeover chan => Sys2Proof.Machine.execGateTakeover chan s
  | .meterApply src act group cls mode redDrop => Sys2Proof.Machine.execMeterApply src act group cls mode redDrop s
  | .meterApplyEffect => Sys2Proof.Machine.execMeterApplyEffect s
  | .reserveWrite src chan cells => Sys2Proof.Machine.execReserveWrite src chan cells s
  | .poolCellsRelease => Sys2Proof.Machine.execPoolCellsRelease s
  | .queueSample => Sys2Proof.Machine.execQueueSample s
  | .beatAdvance mean estimate calIn readings => Sys2Proof.Machine.execBeatAdvance mean estimate calIn readings s
  | .beatMarkerReceive beat err calliope => Sys2Proof.Machine.execBeatMarkerReceive beat err calliope s
  | .markerTimeout => Sys2Proof.Machine.execMarkerTimeout s
  | .calliopeHandoverRequest src => Sys2Proof.Machine.execCalliopeHandoverRequest src s
  | .handoverBroadcastReceive node beat => Sys2Proof.Machine.execHandoverBroadcastReceive node beat s
  | .calliopeHandover => Sys2Proof.Machine.execCalliopeHandover s
  | .clockFailure refclk => Sys2Proof.Machine.execClockFailure refclk s
  | .wallPublish src => Sys2Proof.Machine.execWallPublish src s
  | .wallAnchorReceive beat sec ns => Sys2Proof.Machine.execWallAnchorReceive beat sec ns s
  | .domainWakeStart crew n => Sys2Proof.Machine.execDomainWakeStart crew n s
  | .domainWakeComplete crew n => Sys2Proof.Machine.execDomainWakeComplete crew n s
  | .p4Enter src => Sys2Proof.Machine.execP4Enter src s
  | .p4Wake src => Sys2Proof.Machine.execP4Wake src s
  | .p4TimedWake => Sys2Proof.Machine.execP4TimedWake s
  | .bar2Read fn x len => Sys2Proof.Machine.execBar2Read fn x len s
  | .bar2Write fn x data => Sys2Proof.Machine.execBar2Write fn x data s
  | .linkRetrain speed width flit => Sys2Proof.Machine.execLinkRetrain speed width flit s
  | .perstAssert held => Sys2Proof.Machine.execPerstAssert held s
  | .ostEnable src => Sys2Proof.Machine.execOstEnable src s
  | .ostDisable src => Sys2Proof.Machine.execOstDisable src s
  | .ostExit => Sys2Proof.Machine.execOstExit s
  | .powerOnReset => Sys2Proof.Machine.execPowerOnReset s
  | .brownOut rail held => Sys2Proof.Machine.execBrownOut rail held s
  | .resetPinAssert held => Sys2Proof.Machine.execResetPinAssert held s
  | .resetPinDeassert held => Sys2Proof.Machine.execResetPinDeassert held s
  | .watchdogExpiry => Sys2Proof.Machine.execWatchdogExpiry s
  | .watchdogKick src key => Sys2Proof.Machine.execWatchdogKick src key s
  | .softwareReset src level key => Sys2Proof.Machine.execSoftwareReset src level key s
  | .lockupReset => Sys2Proof.Machine.execLockupReset s
  | .resetSequence => Sys2Proof.Machine.execResetSequence s
  | .resetRelease image flash => Sys2Proof.Machine.execResetRelease image flash s
  | .hostImageLoad image flash => Sys2Proof.Machine.execHostImageLoad image flash s
  | .commitSvn src => Sys2Proof.Machine.execCommitSvn src s
  | .measurementExtGo src index => Sys2Proof.Machine.execMeasurementExtGo src index s
  | .actReset src act => Sys2Proof.Machine.execActReset src act s
  | .blockReset src block => Sys2Proof.Machine.execBlockReset src block s
  | .blockResetIdle => Sys2Proof.Machine.execBlockResetIdle s
  | .blockResetTimeout => Sys2Proof.Machine.execBlockResetTimeout s
  | .debugSubmit src => Sys2Proof.Machine.execDebugSubmit src s
  | .debugResetRequest src => Sys2Proof.Machine.execDebugResetRequest src s
  | .debugClose src => Sys2Proof.Machine.execDebugClose src s
  | .firmwareNodeLeave => Sys2Proof.Machine.execFirmwareNodeLeave s
  | .autoSpare kind unit index fails dead => Sys2Proof.Machine.execAutoSpare kind unit index fails dead s
  | .funhouseEnable src word => Sys2Proof.Machine.execFunhouseEnable src word s
  | .perturbationArm src slot word => Sys2Proof.Machine.execPerturbationArm src slot word s
  | .perturbationFire slot act => Sys2Proof.Machine.execPerturbationFire slot act s
  | .thermalWarning crew n => Sys2Proof.Machine.execThermalWarning crew n s
  | .thermalTrip crew n => Sys2Proof.Machine.execThermalTrip crew n s
  | .linkTrained link => Sys2Proof.Machine.execLinkTrained link s
  | .hostReadComplete job data => Sys2Proof.Machine.execHostReadComplete job data s
  | .vfEnable f enable => Sys2Proof.Machine.execVfEnable f enable s
  | .perstDeassert held => Sys2Proof.Machine.execPerstDeassert held s
  | .powerFailDeassert held => Sys2Proof.Machine.execPowerFailDeassert held s
  | .thermalWarningClear crew n => Sys2Proof.Machine.execThermalWarningClear crew n s
  | .stackRefreshDouble stack double => Sys2Proof.Machine.execStackRefreshDouble stack double s
  | .midwayLinkChange port up lock localFault remoteFault => Sys2Proof.Machine.execMidwayLinkChange port up lock localFault remoteFault s
  | .pfcPauseReceive port prio pause => Sys2Proof.Machine.execPfcPauseReceive port prio pause s
  | .redUnitRetest chan act cls => Sys2Proof.Machine.execRedUnitRetest chan act cls s

end Sys2Proof.Machine
end

