-- ==== Sys2Proof/Safety.lean ====
section
/-! DEFINITION. What the claims say of outcomes and of states: how a command ends, when a strand issues an instruction, what an
instruction leaves alone, and the canonical form that every memory, register and counter list keeps. -/
namespace Sys2Proof.Machine

/-! ## How a command ends -/

/-- The command answers a next state. -/
def Completes (r : Host.Outcome State Fault Refusal) : Prop := ∃ t, r = .next t

/-- The command answers a next state that satisfies a condition. -/
def CompletesWith (r : Host.Outcome State Fault Refusal) (p : State → Prop) : Prop := ∃ t, r = .next t ∧ p t

/-- The canonical form of what the state holds by key: memory bytes, check bits and lost map, registers, and counters. -/
def State.canonical (s : State) : Bool := s.mem.wf && kvWf 0#32 s.regs && kvWf 0 s.telem

/-! ## Instructions -/

/-- When strand `t` of job `j` comes to an instruction of a form: the word is valid (R76), the strand runs and waits for nothing (R80),
its engine is in no block reset (R455), its crew issues (R410), and no instruction in flight still writes its predicate (R48). -/
structure ComesTo (s : State) (f : Form) (o : Insn) (t : Strand) (j : Job) : Prop where
  valid : f.ok o = true
  strand : s.strand? o.strand = some t
  job : s.job? t.job = some j
  ready : t.ready = true
  engine : s.blockStops t.crew f.cls = false
  crew : s.crewIssues t.crew = true
  guard : t.clear [.p o.pidx] [] = true

/-- When the strand also runs the instruction's body: the predicate holds (R33), and no instruction in flight stands in the way of a source
or of the destination (R48). -/
structure Issues (s : State) (f : Form) (o : Insn) (t : Strand) (j : Job) : Prop extends ComesTo s f o t j where
  pred : predOk t o = true
  clear : t.clear (formSources f o) (formTargets f o) = true

/-- The strand after an instruction that has issued and wrote none of its registers. -/
def Strand.after (t : Strand) (o : Insn) : Strand := { t with pc := t.pc + 1 + o.ext.length, wait := .no }

/-- The state in which the body of an instruction runs: the strand has moved on. -/
def State.moved (s : State) (o : Insn) (t : Strand) : State :=
  s.modStrand o.strand fun u => { u with pc := nextPc t o, wait := .no }

/-- Two states differ in one strand alone. -/
def StrandOnly (s u : State) (id : Nat) : Prop :=
  (∀ k, k ≠ id → u.anyStrand? k = s.anyStrand? k) ∧ { u with fil := { u.fil with strands := s.fil.strands } } = s

/-- The instruction moves on, and nothing else changes but what `t'` says of its strand. -/
def StrandBecomes (s u : State) (o : Insn) (t' : Strand) : Prop :=
  u.strand? o.strand = some t' ∧ StrandOnly s u o.strand

/-- The instruction writes `v` to scalar register `n`, of which s0 discards it, and moves on; every other scalar register, every other
register file and everything outside the strand keeps its value. -/
def WritesS (s u : State) (o : Insn) (t : Strand) (n : Nat) (v : DWord) : Prop :=
  ∃ t', StrandBecomes s u o t' ∧ t'.getS n = (if n = 0 then 0#64 else v) ∧ (∀ m, m ≠ n → t'.getS m = t.getS m) ∧
    t' = { t.after o with s := t'.s }

/-- The same for predicate `n`, where p0 discards it. -/
def WritesP (s u : State) (o : Insn) (t : Strand) (n : Nat) (v : Bool) : Prop :=
  ∃ t', StrandBecomes s u o t' ∧ t'.getP n = (if n = 0 then true else v) ∧ (∀ m, m ≠ n → t'.getP m = t.getP m) ∧
    t' = { t.after o with p := t'.p }

/-- The same for descriptor register `n`. -/
def WritesD (s u : State) (o : Insn) (t : Strand) (n : Nat) (v : BitVec 128) : Prop :=
  ∃ t', StrandBecomes s u o t' ∧ t'.getD n = v ∧ (∀ m, m ≠ n → t'.getD m = t.getD m) ∧
    t' = { t.after o with d := t'.d }

/-- The same for query-table slot `n`. -/
def WritesQ (s u : State) (o : Insn) (t : Strand) (n : Nat) (v : Option Slot) : Prop :=
  ∃ t', StrandBecomes s u o t' ∧ t'.getQ n = v ∧ (∀ m, m ≠ n → t'.getQ m = t.getQ m) ∧
    t' = { t.after o with q := t'.q }

/-! ## What an instruction's operands need -/

/-- A descriptor that R34 and R35 accept: not empty (or an empty view that R511 accepts), in a space that the instruction takes, with its
reserved bits zero, and writable where it is written through. -/
def Usable (v : BitVec 128) (spaces : List Nat) (write : Bool) (empty : Bool := false) : Prop :=
  ((decodeDsc v).len ≠ 0 ∨ (empty = true ∧ (decodeDsc v).rdonly = true ∧ (decodeDsc v).base ≠ 0)) ∧
  (decodeDsc v).space ∈ spaces ∧ (decodeDsc v).reserved = false ∧ (decodeDsc v).elem ≤ 6 ∧
  ((decodeDsc v).space = 1 ∨ (decodeDsc v).node = 0) ∧ (write = true → (decodeDsc v).rdonly = false)

/-- Every byte of a range of node space is memory (R44) that the job may use (R42, R288). -/
def MayUse (s : State) (j : Job) (r : Right) (a n : Nat) : Prop :=
  ∀ x, a ≤ x → x < a + n → ∃ p, physOf x = some p ∧ s.mayAccess j r p = true

/-- An ordinary read of a range can be served: no Winze operation holds it (R250), and no block of it is uncorrectable (R303). -/
def Readable (s : State) (a n : Nat) : Prop :=
  s.holder false a n = none ∧ isRegister a = false ∧ ∀ b ∈ blocksOf a n, s.mem.check b ≠ .uncorrectable

/-! ## What a command leaves alone -/

/-- Two states differ in nothing but what a read of memory counts, logs and wakes: registers, counters, power, and the hits of rows. -/
def ReadsOnly (s u : State) : Prop :=
  { u with regs := s.regs, telem := s.telem, pwr := s.pwr,
           mem := { u.mem with hits := s.mem.hits, retiring := s.mem.retiring } } = s

/-- Two states differ in nothing but the memories, the registers, the counters and power. -/
def MemoryOnly (s u : State) : Prop := { u with regs := s.regs, telem := s.telem, pwr := s.pwr, mem := s.mem } = s

/-- Two states differ in nothing but the tiles with their homes, moves and expansions, the registers and the counters. -/
def TilesOnly (s u : State) : Prop :=
  { u with regs := s.regs, telem := s.telem,
           fil := { u.fil with tiles := s.fil.tiles, allocs := s.fil.allocs, moves := s.fil.moves,
                               expansions := s.fil.expansions } } = s

/-- Two states differ in the registers at these offsets, and in no other part. -/
def RegsOnly (s u : State) (offs : List Nat) : Prop :=
  (∀ off, off ∉ offs → u.reg off = s.reg off) ∧ { u with regs := s.regs } = s

/-- A range of node addresses that a write stores byte by byte: memory throughout (R44), in blocks that read clean and lie in no dead
channel (R510), with the flip mask not armed (R311). -/
def Writable (s : State) (a n : Nat) : Prop :=
  (∀ i < n, (physOf (a + i)).isSome = true) ∧ s.rd F.memFlipCtrl_arm = 0 ∧
  ∀ b ∈ blocksOf a n, s.mem.dead b = false ∧ s.mem.check b = .clean

/-- The bytes from a node address on are those written there, and every other byte of memory reads as before. -/
def Stores (s u : State) (a : Nat) (data : List Byte) : Prop :=
  (∀ i < data.length, u.byteAt (a + i) = data.getD i 0#8) ∧
  ∀ x, (∀ i < data.length, physOf (a + i) ≠ some x) → u.mem.byte x = s.mem.byte x

/-- A range of node addresses that an ordinary store changes byte by byte and in no other way: no Winze operation holds it (R250), its
blocks are memory in no dead channel and read clean (R510), and the flip mask is not armed (R311). -/
def Storable (s : State) (a n : Nat) : Prop :=
  s.holder true a n = none ∧ s.rd F.memFlipCtrl_arm = 0 ∧
  ∀ b ∈ blocksOf a n, s.mem.dead b = false ∧ s.mem.check b = .clean

/-! ## Tiles -/

/-- A tile read at use as it lies at its home (R83, R305): no expansion of the handle stands in for it, its blocks read clean, no stack
sleeps and no perturbation waits for the stream; `v` is what it holds, and its checksum is the recorded one. -/
structure AtHome (s : State) (t : Strand) (reg : Nat) (x : Tile) (v : TileVal) : Prop where
  direct : ∀ e ∈ s.fil.expansions, e.tile = x.id → (t.id, reg) ∉ e.handles
  memory : isRegister x.home = false
  clean : ∀ b ∈ blocksOf x.home x.len, s.mem.check b = .clean
  awake : s.rd F.pwrStackState_inP3 = 0
  whole : s.fun_.streams = []
  value : ∃ raw, v = x.val raw ∧ if x.packed then decodeStream false (x.len / 512) (s.readMem 0 x.home x.len).1 = .inr raw
    else raw = (s.readMem 0 x.home x.len).1
  crc : v.crc = x.crc

/-- A handle names a tile, which can be read at its home. -/
structure AtRest (s : State) (t : Strand) (reg : Nat) (x : Tile) (v : TileVal) : Prop extends AtHome s t reg x v where
  handle : t.getT reg = some x.id
  tile : s.tile? x.id = some x

/-- A read by the hewers of a crew promotes no tile (R293): its home is no pool home, it is not the second such read within 256 beats, or
its preference forbids it. -/
def NotPromoted (s : State) (t : Strand) (x : Tile) : Prop :=
  x.pooled = false ∨ x.pref = 2 ∨ ∀ e ∈ x.hewRead, e.1 = t.crew → e.2 + 256 < s.tally.beat

/-- What a tile is, without when it was read. -/
def Tile.still (x : Tile) : Tile := { x with lastRead := 0, hewRead := [] }

/-- Two states differ in nothing but when tiles were read, the units busy in this beat, and CRU_ATUSE_COUNT. -/
def TileReads (s u : State) : Prop :=
  { u with regs := s.regs, fil := { u.fil with tiles := s.fil.tiles, busy := s.fil.busy } } = s ∧
  (∀ off, off ≠ F.cruAtuseCount_count.off → u.reg off = s.reg off) ∧
  u.fil.tiles.map Tile.still = s.fil.tiles.map Tile.still

/-- A result tile of `n` bytes finds its home in the crew store at `a` (R292), with a mebibyte of quota and space to spare (R293). -/
structure RoomAt (s : State) (t : Strand) (j : Job) (n a : Nat) : Prop where
  placed : (s.allocCrew j.act t.crew n (.tile s.nextId)).1 = some a
  quota : (s.allocCrew j.act t.crew n (.tile s.nextId)).2.crewUse j.act + 2 ^ 20 ≤ s.rd (F.memQCrew_kib j.act) * 1024
  spare : allocSum (fun _ => true) (allocsIn (crewAddr t.crew 0) (crewAddr t.crew crewLen)
    (s.allocCrew j.act t.crew n (.tile s.nextId)).2.fil.allocs) + 2 ^ 20 ≤ crewLen
  stores : Writable s a n
  awake : s.rd F.pwrStackState_inP3 = 0
  canonical : s.mem.wf = true
  fresh : s.tile? s.nextId = none

/-- The instruction is in flight with these effects, its strand has moved on, and the rest of the strand and every other strand stay. -/
def InFlight (s u : State) (o : Insn) (t : Strand) (effects : List Effect) : Prop :=
  (∃ fl : Inflight, fl.effects = effects ∧ fl.gate = .engine ∧
    u.strand? o.strand = some { t.after o with inflight := t.inflight ++ [fl] }) ∧
  ∀ k, k ≠ o.strand → u.anyStrand? k = s.anyStrand? k

/-- The result of an engine instruction is a new tile that holds `v` at the address `a`, as it is or as a packed stream, and no other byte
of memory, no other tile and no register but CRU_ATUSE_COUNT and those listed changes. The tile is bound to its handle at the completion
point, after which `more` takes place. -/
def MakesTile (s u : State) (o : Insn) (t : Strand) (v : TileVal) (a : Nat) (more : List Effect := [])
    (home : List Byte × Bool := (v.data, false)) (regs : List Nat := []) : Prop :=
  (∃ x : Tile, InFlight s u o t (.bindT o.dst x.id :: more) ∧ u.tile? x.id = some x ∧ x.val v.data = v ∧ x.crc = v.crc ∧
    x.home = a ∧ x.len = home.1.length ∧ x.packed = home.2 ∧
    ∀ id y, s.tile? id = some y → id ≠ x.id ∧ (u.tile? id).map Tile.still = some y.still) ∧
  Stores s u a home.1 ∧ ∀ off, off ≠ F.cruAtuseCount_count.off → off ∉ regs → u.reg off = s.reg off

/-- A packed result of `n` bytes finds its home in the pool at `a` with no cached copy given up for it (R292, R296), while the act and the
crew store have a mebibyte to spare (R293). -/
structure PoolRoomAt (s : State) (t : Strand) (j : Job) (n a : Nat) : Prop where
  act : j.act < 16
  fits : s.quotaFits j.act (roundUp (max n 1) 512) false = true
  placed : s.poolGap s.bestStack (roundUp (max n 1) 512) = some a
  quota : s.crewUse j.act + 2 ^ 20 ≤ s.rd (F.memQCrew_kib j.act) * 1024
  spare : allocSum (fun _ => true) (allocsIn (crewAddr t.crew 0) (crewAddr t.crew crewLen) s.fil.allocs) + 2 ^ 20 ≤ crewLen
  pool : crewBase > a
  stores : Writable s a n
  awake : s.rd F.pwrStackState_inP3 = 0
  canonical : s.mem.wf = true
  fresh : s.tile? s.nextId = none

/-- The instruction is in flight with these effects, and it has made no tile: memory, what the tiles hold and every register but
CRU_ATUSE_COUNT and those listed stay. -/
def Engages (s u : State) (o : Insn) (t : Strand) (effects : List Effect) (regs : List Nat := []) : Prop :=
  InFlight s u o t effects ∧ (∀ x, u.mem.byte x = s.mem.byte x) ∧ (∀ id, (u.tile? id).map Tile.still = (s.tile? id).map Tile.still) ∧
  ∀ off, off ≠ F.cruAtuseCount_count.off → off ∉ regs → u.reg off = s.reg off

/-- The same for new contents of the tile `old`, which take its place at the completion point (R291): until then every tile stays. -/
def RewritesTile (s u : State) (o : Insn) (t : Strand) (old : Tile) (v : TileVal) (a : Nat) (more : List Effect := []) : Prop :=
  (∃ x : Tile, InFlight s u o t (.tile x :: more) ∧ x.id = old.id ∧ x.val v.data = v ∧ x.crc = v.crc ∧ x.home = a ∧
    x.len = v.data.length ∧ x.packed = false ∧ x.names = old.names ∧ x.pref = old.pref ∧ x.dropping = old.dropping) ∧
  (∀ id, (u.tile? id).map Tile.still = (s.tile? id).map Tile.still) ∧
  Stores s u a v.data ∧ ∀ off, off ≠ F.cruAtuseCount_count.off → u.reg off = s.reg off

/-! ## What leaves the node -/

/-- Two states differ in nothing but the Ringmaster's queues, the units busy in this beat and the next identifier. -/
def SendsOnly (s u : State) : Prop :=
  { u with rgm := s.rgm, nextId := s.nextId, fil := { u.fil with busy := s.fil.busy } } = s

/-- A unit that brings `out` out of the node on a channel is queued or waits for cells (R383, R394). -/
def Offered (u : State) (chan act cls : Nat) (out : Out) : Prop :=
  ∃ v ∈ u.rgm.units ++ u.rgm.waiting, v.chan = chan ∧ v.act = act ∧ v.cls = cls ∧ v.out = some out

/-- Two states differ in nothing but the flash, the Ringmaster's queues, registers, counters, power, the hits of rows, the free values
drawn and the next identifier. -/
def MediaOnly (s u : State) : Prop :=
  { u with regs := s.regs, telem := s.telem, pwr := s.pwr, flash := s.flash, rgm := s.rgm, nextId := s.nextId, free := s.free,
           mem := { u.mem with hits := s.mem.hits, retiring := s.mem.retiring }, fil := { u.fil with busy := s.fil.busy } } = s

/-! ## Search operands -/

/-- The view in a descriptor lies on 64-byte boundaries (R36). -/
def OnBlocks (v : BitVec 128) : Prop := (decodeDsc v).base % 64 = 0 ∧ (decodeDsc v).len % 64 = 0

/-- The first `n` bytes of the local view in a descriptor can be read through an engine: the view is valid (R34, R35), the job may read them (R42, R288), no Winze operation holds them (R250), they read clean and no stack sleeps; they are `b`. -/
def ReadsView (s : State) (j : Job) (v : BitVec 128) (n : Nat) (b : List Byte) : Prop :=
  Usable v [0] false ∧ n ≤ (decodeDsc v).len ∧ MayUse s j .read (decodeDsc v).base n ∧ s.holder false (decodeDsc v).base n = none ∧ isRegister (decodeDsc v).base = false ∧
  (∀ k ∈ blocksOf (decodeDsc v).base n, s.mem.check k = .clean) ∧ s.rd F.pwrStackState_inP3 = 0 ∧
  b = (s.readMem 0 (decodeDsc v).base n).1

/-- A vector operand of `dim` elements (R202): its FP32 row tiles can be read, their handles are the routine's, and their first `dim`
elements are `vals`. -/
def VectorAt (s : State) (t : Strand) (j : Job) (reg dim : Nat) (vals : List Nat) : Prop :=
  ∃ (r : Routine) (x : Nat → Tile) (v : Nat → TileVal), s.routineOf j = some r ∧
    (∀ h ∈ vecHandles reg dim, h < 32 ∧ h < r.tiles ∧ AtRest s t h (x h) (v h) ∧ (x h).fmt = 0 ∧ (x h).shape = 6) ∧
    vals = ((vecHandles reg dim).flatMap fun h => codesOf 0 (v h).data).take dim

/-- An operand of a Winze operation that passes R96 and R232: a usable aligned view with this access right and WINZE, placed in one
stack or spread (R232), or in a crew store where that is allowed. -/
def WinzeOperand (s : State) (j : Job) (v : BitVec 128) (r : Right) (crew : Bool) : Prop :=
  Usable v [0] (r == .write) ∧ OnBlocks v ∧ MayUse s j r (decodeDsc v).base (decodeDsc v).len ∧
  MayUse s j .winze (decodeDsc v).base (decodeDsc v).len ∧ winzePlaced (decodeDsc v).base (decodeDsc v).len crew = true

/-- A WNZ instruction stands at the dispatcher (R233): its operation is new and not registered, the instruction in flight waits for it,
and every other strand and every other operation stays. -/
def Dispatched (s u : State) (o : Insn) (t : Strand) (j : Job) (f : Form) (op : WnzOp) (effects : List Effect) : Prop :=
  (∃ fl : Inflight, fl.gate = .winze op.id ∧ fl.tag = op.tag ∧ fl.effects = effects ∧
    u.strand? o.strand = some { t.after o with inflight := t.inflight ++ [fl] }) ∧
  (∀ k, k ≠ o.strand → u.anyStrand? k = s.anyStrand? k) ∧ u.wnz = { s.wnz with ops := s.wnz.ops ++ [op] } ∧
  op.act = j.act ∧ op.job = j.id ∧ op.func = f.func ∧ op.strand = o.strand ∧ op.imm = o.imm.toNat ∧ op.registered = false

end Sys2Proof.Machine

namespace Sys2Proof

/-- The form and the word of an instruction command. -/
def Instr.word? (i : Instr) : Option (Form × Insn) :=
  match i with
  | .registerWrite _ _ _ _ => none
  | .readClearRegisterRead _ _ _ => none
  | .unalignedRegisterAccess _ _ _ _ => none
  | .tallySnapshotRead _ _ => none
  | .ringPoll _ _ => none
  | .descriptorFetchComplete _ _ _ _ => none
  | .hostReadError _ => none
  | .jobSnapshotRelease _ => none
  | .jobSnapshotTimeout _ => none
  | .deadlineArrival _ => none
  | .jobEnd _ _ => none
  | .completionWrite _ => none
  | .msixTimerExpiry _ _ => none
  | .msixUnmask _ _ _ => none
  | .cqHeadWrite _ _ _ _ => none
  | .ringEnable _ _ _ _ => none
  | .ringDisable _ _ _ _ => none
  | .loadRoutine _ => none
  | .unloadRoutine _ => none
  | .routineRelease _ _ => none
  | .loaderUnknownOperation _ => none
  | .importTilePack _ => none
  | .installIndex _ => none
  | .installReportReceive _ _ _ _ => none
  | .installWithdraw _ _ => none
  | .openExchange _ => none
  | .tableMigrate _ => none
  | .tableReport _ => none
  | .tableUndefine _ => none
  | .tableUndefineEffect _ _ => none
  | .flashFormat _ => none
  | .flashAttach _ => none
  | .flashSegmentOpen _ => none
  | .flashSegmentSeal _ => none
  | .flashSegmentReopen _ => none
  | .flashSegmentFree _ => none
  | .exportRegion _ => none
  | .unexportRegion _ => none
  | .unexportComplete _ => none
  | .sendMidwayMessage _ => none
  | .attestationQuote _ => none
  | .pairSlice _ _ => none
  | .pairTakeEffect _ => none
  | .ledgerArgumentRelease _ _ => none
  | .ctlNop o => some (Form.ctlNop, o)
  | .ctlBr o => some (Form.ctlBr, o)
  | .ctlCall o => some (Form.ctlCall, o)
  | .ctlJmpr o => some (Form.ctlJmpr, o)
  | .ctlLoop o => some (Form.ctlLoop, o)
  | .ctlEnd o => some (Form.ctlEnd, o)
  | .sclLi o => some (Form.sclLi, o)
  | .sclLix o => some (Form.sclLix, o)
  | .sclAdd o => some (Form.sclAdd, o)
  | .sclAddi o => some (Form.sclAddi, o)
  | .sclSub o => some (Form.sclSub, o)
  | .sclMul o => some (Form.sclMul, o)
  | .sclMulhu o => some (Form.sclMulhu, o)
  | .sclDivu o => some (Form.sclDivu, o)
  | .sclRemu o => some (Form.sclRemu, o)
  | .sclAnd o => some (Form.sclAnd, o)
  | .sclOr o => some (Form.sclOr, o)
  | .sclXor o => some (Form.sclXor, o)
  | .sclShl o => some (Form.sclShl, o)
  | .sclShr o => some (Form.sclShr, o)
  | .sclSar o => some (Form.sclSar, o)
  | .sclCmp o => some (Form.sclCmp, o)
  | .sclPlog o => some (Form.sclPlog, o)
  | .sclSel o => some (Form.sclSel, o)
  | .sclLd o => some (Form.sclLd, o)
  | .sclSt o => some (Form.sclSt, o)
  | .sclFadd o => some (Form.sclFadd, o)
  | .sclFmul o => some (Form.sclFmul, o)
  | .sclFfma o => some (Form.sclFfma, o)
  | .sclFcmp o => some (Form.sclFcmp, o)
  | .sclFcvt o => some (Form.sclFcvt, o)
  | .movDset o => some (Form.movDset, o)
  | .movDget o => some (Form.movDget, o)
  | .movDsub o => some (Form.movDsub, o)
  | .movCopy o _ => some (Form.movCopy, o)
  | .movTopen o => some (Form.movTopen, o)
  | .expansionComplete _ => none
  | .movTalloc o => some (Form.movTalloc, o)
  | .movTloadm o => some (Form.movTloadm, o)
  | .movTstore o => some (Form.movTstore, o)
  | .movTsave o => some (Form.movTsave, o)
  | .movTfree o => some (Form.movTfree, o)
  | .movTdrop o => some (Form.movTdrop, o)
  | .tileDelete _ => none
  | .movTplace o => some (Form.movTplace, o)
  | .hewMma o => some (Form.hewMma, o)
  | .hewEw o => some (Form.hewEw, o)
  | .hewAct o => some (Form.hewAct, o)
  | .hewRed o => some (Form.hewRed, o)
  | .hewCvt o => some (Form.hewCvt, o)
  | .hewOred o => some (Form.hewOred, o)
  | .oredSlotTimeout _ _ _ => none
  | .qntPrepass o => some (Form.qntPrepass, o)
  | .qntCvt o => some (Form.qntCvt, o)
  | .qntSplit o => some (Form.qntSplit, o)
  | .qntDrift o => some (Form.qntDrift, o)
  | .cruPack o => some (Form.cruPack, o)
  | .cruUnpack o => some (Form.cruUnpack, o)
  | .cruCheck o => some (Form.cruCheck, o)
  | .sluScan o => some (Form.sluScan, o)
  | .sluDist o => some (Form.sluDist, o)
  | .snapshotWaitRelease _ => none
  | .rerankFetchServe _ _ _ _ _ _ => none
  | .rerankFetchArrive _ _ _ _ => none
  | .wnzScan o => some (Form.wnzScan, o)
  | .wnzBag o => some (Form.wnzBag, o)
  | .wnzUpd o => some (Form.wnzUpd, o)
  | .wnzGather o => some (Form.wnzGather, o)
  | .winzeRegistrationPoint _ => none
  | .winzeCommandQueued _ _ => none
  | .winzeCommandArrival _ _ _ => none
  | .winzeChunkComplete _ _ _ => none
  | .winzeCompletionPoint _ => none
  | .winzeUnitFailure _ _ => none
  | .winzeSpare _ _ _ => none
  | .jigTopk o => some (Form.jigTopk, o)
  | .jigMerge o => some (Form.jigMerge, o)
  | .jigSums o => some (Form.jigSums, o)
  | .idxOpen o => some (Form.idxOpen, o)
  | .idxRoute o => some (Form.idxRoute, o)
  | .idxAppend o => some (Form.idxAppend, o)
  | .idxAppendx o => some (Form.idxAppendx, o)
  | .idxDelete o => some (Form.idxDelete, o)
  | .idxTomb o => some (Form.idxTomb, o)
  | .appendRelease _ _ => none
  | .forwardedRecordReceive _ => none
  | .vectorPageWrite _ _ => none
  | .tblBuild o => some (Form.tblBuild, o)
  | .tblLoad o => some (Form.tblLoad, o)
  | .tblFilter o => some (Form.tblFilter, o)
  | .tblThresh o => some (Form.tblThresh, o)
  | .tblStore o => some (Form.tblStore, o)
  | .tblTdef o => some (Form.tblTdef, o)
  | .tblSwap o => some (Form.tblSwap, o)
  | .tableSwapEvent _ _ => none
  | .tblVer o => some (Form.tblVer, o)
  | .carLd o => some (Form.carLd, o)
  | .carSt o => some (Form.carSt, o)
  | .carGet o => some (Form.carGet, o)
  | .carPut o => some (Form.carPut, o)
  | .carAtom o => some (Form.carAtom, o)
  | .carAtomn o => some (Form.carAtomn, o)
  | .carInv o => some (Form.carInv, o)
  | .adtRead o _ => some (Form.adtRead, o)
  | .adtWrite o => some (Form.adtWrite, o)
  | .adtDiscard o => some (Form.adtDiscard, o)
  | .talNow o => some (Form.talNow, o)
  | .talWaitb o => some (Form.talWaitb, o)
  | .waitbRelease _ => none
  | .talStable o => some (Form.talStable, o)
  | .talSub o => some (Form.talSub, o)
  | .synFence o => some (Form.synFence, o)
  | .synWfence o => some (Form.synWfence, o)
  | .synCfence o => some (Form.synCfence, o)
  | .synBar o => some (Form.synBar, o)
  | .synOred o => some (Form.synOred, o)
  | .fenceRelease _ => none
  | .engineCompletion _ _ => none
  | .fenceTimeout _ => none
  | .sysRreg o => some (Form.sysRreg, o)
  | .sysWreg o => some (Form.sysWreg, o)
  | .sysTelem o => some (Form.sysTelem, o)
  | .sysIdxop o => some (Form.sysIdxop, o)
  | .sysSlice o => some (Form.sysSlice, o)
  | .sliceRecompose => none
  | .sliceResourceJoin _ => none
  | .committedBeatReceive _ _ => none
  | .backfillCut _ _ => none
  | .backfillPublish _ _ => none
  | .versionRelease _ _ _ => none
  | .rebalancePendingReceive _ _ _ _ _ => none
  | .rebalanceCopyReceive _ => none
  | .rebalanceReady _ _ => none
  | .rebalanceReadyReceive _ _ => none
  | .rebalanceCancel _ _ => none
  | .rebalanceCancelReceive _ _ _ => none
  | .rebalanceForwardStart _ _ => none
  | .closeMarkerReceive _ _ _ => none
  | .rebalanceRelease _ _ => none
  | .retirementReceive _ _ _ => none
  | .seamStorageRelease _ _ => none
  | .broadcastAckReceive _ => none
  | .cageAdmission _ => none
  | .cageWaitExpiry _ => none
  | .cageGuardExpiry _ => none
  | .migrationMovingEnter _ _ => none
  | .migrationCopyComplete _ _ _ => none
  | .migrationFlip _ _ => none
  | .migrationSourceRelease _ _ _ => none
  | .loadWindowEnd => none
  | .tierMoveFlip _ => none
  | .tierSourceRelease _ => none
  | .tileHomeRelease _ => none
  | .quotaWrite _ _ _ _ => none
  | .memPoolWrite _ _ => none
  | .scrubRound => none
  | .rowRetireFlip _ _ _ _ => none
  | .hitPeriodBoundary => none
  | .memSpareCopy _ _ _ => none
  | .memSpareDead _ _ _ => none
  | .channelSpareFlip _ => none
  | .channelFailure _ _ => none
  | .flipMaskArm _ _ => none
  | .crewHewerSpare _ _ _ => none
  | .crewCoreSpare _ _ _ => none
  | .hewerFailure _ _ => none
  | .controlCoreFailure _ _ => none
  | .flashProgramComplete _ => none
  | .flashProgramFail _ => none
  | .flashWriteResume _ => none
  | .foldStart => none
  | .foldFlip _ _ _ => none
  | .wearRelocate _ _ => none
  | .journalFlush => none
  | .journalFlushComplete => none
  | .dieAutoRetire _ _ => none
  | .adtDieRetire _ _ _ => none
  | .dieRebuildComplete => none
  | .holdupChange _ _ => none
  | .powerFailAssert _ => none
  | .powerFailClearReset => none
  | .laneBad _ _ => none
  | .laserPowerLow _ => none
  | .linkLaneGo _ _ _ => none
  | .linkLaserGo _ _ => none
  | .carouselFrameReceive _ _ _ _ _ _ => none
  | .linkFrameResend _ _ => none
  | .carouselRequestReceive _ => none
  | .putPayloadReceive _ => none
  | .carouselResponseReceive _ => none
  | .requestReplayTimeout _ _ _ => none
  | .copyFillReceive _ => none
  | .invalidationReceive _ => none
  | .invalidationAckReceive _ => none
  | .carJoin _ => none
  | .carAdmit _ _ => none
  | .carRemove _ _ => none
  | .carLeave _ => none
  | .admissionReceive _ _ _ _ _ _ _ => none
  | .aloneDetect => none
  | .membershipBeat _ => none
  | .helloReceive _ _ _ => none
  | .joinConfirm => none
  | .joinTimeout => none
  | .founderConflict _ => none
  | .neighbourLossDetect _ => none
  | .lossBroadcastReceive _ _ _ => none
  | .midwayFrameReceive _ _ _ _ => none
  | .midwayJobReceive => none
  | .midwayResultReceive => none
  | .midwayAckReceive => none
  | .midwayFragmentTimeout _ _ _ _ => none
  | .ptpEventTimestamp _ _ _ _ _ => none
  | .ptpTsPop _ => none
  | .egressUnitComplete _ => none
  | .gateEntryAdvance _ => none
  | .gateListArm _ _ _ _ => none
  | .gateListCancel _ _ => none
  | .gateTakeover _ => none
  | .meterApply _ _ _ _ _ _ => none
  | .meterApplyEffect => none
  | .reserveWrite _ _ _ => none
  | .poolCellsRelease => none
  | .queueSample => none
  | .beatAdvance _ _ _ _ => none
  | .beatMarkerReceive _ _ _ => none
  | .markerTimeout => none
  | .calliopeHandoverRequest _ => none
  | .handoverBroadcastReceive _ _ => none
  | .calliopeHandover => none
  | .clockFailure _ => none
  | .wallPublish _ => none
  | .wallAnchorReceive _ _ _ => none
  | .domainWakeStart _ _ => none
  | .domainWakeComplete _ _ => none
  | .p4Enter _ => none
  | .p4Wake _ => none
  | .p4TimedWake => none
  | .bar2Read _ _ _ => none
  | .bar2Write _ _ _ => none
  | .linkRetrain _ _ _ => none
  | .perstAssert _ => none
  | .ostEnable _ => none
  | .ostDisable _ => none
  | .ostExit => none
  | .powerOnReset => none
  | .brownOut _ _ => none
  | .resetPinAssert _ => none
  | .resetPinDeassert _ => none
  | .watchdogExpiry => none
  | .watchdogKick _ _ => none
  | .softwareReset _ _ _ => none
  | .lockupReset => none
  | .resetSequence => none
  | .resetRelease _ _ => none
  | .hostImageLoad _ _ => none
  | .commitSvn _ => none
  | .measurementExtGo _ _ => none
  | .actReset _ _ => none
  | .blockReset _ _ => none
  | .blockResetIdle => none
  | .blockResetTimeout => none
  | .debugSubmit _ => none
  | .debugResetRequest _ => none
  | .debugClose _ => none
  | .firmwareNodeLeave => none
  | .autoSpare _ _ _ _ _ => none
  | .funhouseEnable _ _ => none
  | .perturbationArm _ _ _ => none
  | .perturbationFire _ _ => none
  | .thermalWarning _ _ => none
  | .thermalTrip _ _ => none
  | .linkTrained _ => none
  | .hostReadComplete _ _ => none
  | .vfEnable _ _ => none
  | .perstDeassert _ => none
  | .powerFailDeassert _ => none
  | .thermalWarningClear _ _ => none
  | .stackRefreshDouble _ _ => none
  | .midwayLinkChange _ _ _ _ _ => none
  | .pfcPauseReceive _ _ _ => none
  | .redUnitRetest _ _ _ => none

end Sys2Proof
end

