-- ==== Sys2Proof/Certificates/Slice0/Obligations.lean ====
section
/-! DEFINITION. The statements for the provers, each from the rules that its text names. -/
open Sys2Proof Sys2Proof.Machine

/-- For every command c, every queue rest and every state s, a step of s with c at the front of its queue is exec c on s with that rest as
its queue. (01_the_node_at_work.md, 02_filaux_programming_model.md) -/
def Obligations.CommandAtFrontRuns : Prop :=
  ∀ (c : Instr) (rest : List Instr) (s : State), step { s with pending := c :: rest } = exec c { s with pending := rest }

/-- With an empty queue a step answers a next state in which only the sub-beat may differ: below 1,023 it grows by 1, and at 1,023 it
stays until BEAT_ADVANCE. That an empty queue lets a nanosecond pass is the model's choice (log 1). (R399, 14_tally_and_power.md) -/
def Obligations.IdleStepIsANanosecond : Prop :=
  ∀ s : State, s.pending = [] → CompletesWith (step s) fun u =>
    (s.tally.sub < 1023 → u.tally.sub = s.tally.sub + 1) ∧ (1023 ≤ s.tally.sub → u.tally.sub = 1023) ∧
    { u with tally := { u.tally with sub := s.tally.sub } } = s

/-- For every instruction command whose word is not well formed, in every state, exec refuses it with reservedEncoding, so it changes
nothing. (R76, R78) -/
def Obligations.InvalidWordIsRefused : Prop :=
  ∀ (i : Instr) (f : Form) (o : Insn) (s : State), i.word? = some (f, o) → i.wf = false → exec i s = .refused .reservedEncoding

/-- For every well-formed instruction command of every class: when its strand comes to it and its predicate test fails, exec answers a
next state in which the strand stands at the next instruction after the extension words, with every register as it was, and nothing else
in the state has changed. What is in flight does not matter, since the instruction is neither a reader nor a writer for R48. (R79) -/
def Obligations.FailedPredicateDoesNothing : Prop :=
  ∀ (i : Instr) (f : Form) (o : Insn) (s : State) (t : Strand) (j : Job), i.word? = some (f, o) → i.wf = true →
    ComesTo s f o t j → predOk t o = false → CompletesWith (exec i s) fun u => StrandBecomes s u o (t.after o)

/-- The integer functions of SCL: the command, its form, and the value of Table 3.5. -/
def Sys2Proof.Claims.integers : List ((Insn → Instr) × Form × (Insn → DWord → DWord → DWord)) :=
  [(.sclLi, Form.sclLi, fun o _ _ => BitVec.ofInt 64 o.imm.toInt),
   (.sclLix, Form.sclLix, fun o _ _ => o.ext.getD 0 0#64),
   (.sclAdd, Form.sclAdd, fun _ a b => a + b),
   (.sclAddi, Form.sclAddi, fun o a _ => a + BitVec.ofInt 64 o.imm.toInt),
   (.sclSub, Form.sclSub, fun _ a b => a - b),
   (.sclMul, Form.sclMul, fun _ a b => a * b),
   (.sclMulhu, Form.sclMulhu, fun _ a b => BitVec.ofNat 64 (a.toNat * b.toNat / 2 ^ 64)),
   (.sclDivu, Form.sclDivu, fun _ a b => if b = 0#64 then 0xFFFFFFFFFFFFFFFF#64 else BitVec.ofNat 64 (a.toNat / b.toNat)),
   (.sclRemu, Form.sclRemu, fun _ a b => if b = 0#64 then a else BitVec.ofNat 64 (a.toNat % b.toNat)),
   (.sclAnd, Form.sclAnd, fun _ a b => a &&& b),
   (.sclOr, Form.sclOr, fun _ a b => a ||| b),
   (.sclXor, Form.sclXor, fun _ a b => a ^^^ b),
   (.sclShl, Form.sclShl, fun _ a b => a <<< (b.toNat % 64)),
   (.sclShr, Form.sclShr, fun _ a b => a >>> (b.toNat % 64)),
   (.sclSar, Form.sclSar, fun _ a b => BitVec.ofInt 64 (a.toInt / 2 ^ (b.toNat % 64)))]

/-- For LI, LIX, ADD, ADDI, SUB, MUL, MULHU, DIVU, REMU, AND, OR, XOR, SHL, SHR and SAR: when a strand issues the instruction, exec
answers a next state in which the destination register holds the result of Table 3.5 (arithmetic modulo 2^64, shift counts from the low
six bits, all ones for a quotient by zero and the dividend for a remainder by zero), with s0 discarding it, the strand stands at the next
instruction, and every other register, predicate, descriptor, handle and slot, every other strand and the rest of the state are unchanged.
(R87, R32, R33, R80) -/
def Obligations.ScalarIntegerResults : Prop :=
  ∀ e ∈ Sys2Proof.Claims.integers, ∀ (o : Insn) (s : State) (t : Strand) (j : Job), Issues s e.2.1 o t j →
    CompletesWith (exec (e.1 o) s) fun u => WritesS s u o t o.dst (e.2.2 o (t.getS o.a) (t.getS o.b))

/-- For FADD, FMUL, FFMA and FCVT: when a strand issues the instruction, exec answers a next state in which the destination register
holds, with zero in bits 63 to 32, the sum, the product, or the product plus the destination of bits 31 to 0 of the sources, each rounded
once, or for FCVT by its OP the signed integer toward zero or the binary32 value of the source; the strand moves on, and nothing else
changes. (R87, R80) -/
def Obligations.ScalarBinary32Results : Prop :=
  ∀ (o : Insn) (s : State) (t : Strand) (j : Job),
    let x := (t.getS o.a).toNat % 2 ^ 32
    let y := (t.getS o.b).toNat % 2 ^ 32
    (Issues s Form.sclFadd o t j → CompletesWith (exec (.sclFadd o) s) fun u => WritesS s u o t o.dst (BitVec.ofNat 64 (fadd x y))) ∧
    (Issues s Form.sclFmul o t j → CompletesWith (exec (.sclFmul o) s) fun u => WritesS s u o t o.dst (BitVec.ofNat 64 (fmul x y))) ∧
    (Issues s Form.sclFfma o t j → CompletesWith (exec (.sclFfma o) s) fun u =>
      WritesS s u o t o.dst (BitVec.ofNat 64 (ffma x y ((t.getS o.dst).toNat % 2 ^ 32)))) ∧
    (Issues s Form.sclFcvt o t j → CompletesWith (exec (.sclFcvt o) s) fun u =>
      WritesS s u o t o.dst (if o.fld 0 1 = 0 then f32ToI64 x else BitVec.ofNat 64 (i64ToF32 (t.getS o.a))))

/-- CMP writes to its predicate the comparison that COND names (equal, unequal, signed less or less-or-equal, unsigned less or less-or-
equal); PLOG writes AND, OR, XOR, or the first and not the second predicate; FCMP writes equal, less, or less-or-equal under the order of
R88; p0 discards each. SEL, when no instruction in flight writes the predicate that it selects by, writes sA where that predicate is 1 and
sB otherwise. Each strand moves on, and nothing else changes. (R87, R33, R80) -/
def Obligations.ScalarPredicates : Prop :=
  ∀ (o : Insn) (s : State) (t : Strand) (j : Job),
    let a := t.getS o.a
    let b := t.getS o.b
    (Issues s Form.sclCmp o t j → CompletesWith (exec (.sclCmp o) s) fun u => WritesP s u o t o.dst
      (if o.fld 0 3 = 0 then decide (a = b) else if o.fld 0 3 = 1 then decide (a ≠ b)
       else if o.fld 0 3 = 2 then decide (a.toInt < b.toInt) else if o.fld 0 3 = 3 then decide (a.toInt ≤ b.toInt)
       else if o.fld 0 3 = 4 then decide (a.toNat < b.toNat) else decide (a.toNat ≤ b.toNat))) ∧
    (Issues s Form.sclPlog o t j → CompletesWith (exec (.sclPlog o) s) fun u => WritesP s u o t o.dst
      (if o.fld 0 2 = 0 then t.getP o.a && t.getP o.b else if o.fld 0 2 = 1 then t.getP o.a || t.getP o.b
       else if o.fld 0 2 = 2 then xor (t.getP o.a) (t.getP o.b) else t.getP o.a && !t.getP o.b)) ∧
    (Issues s Form.sclFcmp o t j → CompletesWith (exec (.sclFcmp o) s) fun u => WritesP s u o t o.dst
      (if o.fld 0 2 = 0 then feq (a.toNat % 2 ^ 32) (b.toNat % 2 ^ 32)
       else if o.fld 0 2 = 1 then flt (a.toNat % 2 ^ 32) (b.toNat % 2 ^ 32)
       else flt (a.toNat % 2 ^ 32) (b.toNat % 2 ^ 32) || feq (a.toNat % 2 ^ 32) (b.toNat % 2 ^ 32))) ∧
    (Issues s Form.sclSel o t j → t.clear [.p (o.fld 0 3)] [] = true → CompletesWith (exec (.sclSel o) s) fun u =>
      WritesS s u o t o.dst (if t.getP (o.fld 0 3) then a else b))

/-- Over all binary32 patterns: minus zero equals plus zero; every NaN is greater than plus infinity; all NaNs are equal to one another,
and none is less than another; and of any two patterns exactly one of less, equal and greater holds. (R88) -/
def Obligations.Binary32Order : Prop :=
  feq 0x80000000 0 = true ∧
  (∀ x < 2 ^ 32, 0x7F800000 < x % 2 ^ 31 → flt 0x7F800000 x = true) ∧
  (∀ x < 2 ^ 32, ∀ y < 2 ^ 32, 0x7F800000 < x % 2 ^ 31 → 0x7F800000 < y % 2 ^ 31 → feq x y = true ∧ flt x y = false) ∧
  (∀ x < 2 ^ 32, ∀ y < 2 ^ 32, (flt x y = true ∧ feq x y = false ∧ flt y x = false) ∨
    (flt x y = false ∧ feq x y = true ∧ flt y x = false) ∨ (flt x y = false ∧ feq x y = false ∧ flt y x = true))

/-- DSET writes its descriptor with sA in the low half and sB in the high half, checked at use. DGET writes the half that HALF names to
its scalar. DSUB, on a source that R34 and R35 accept and whose LENGTH is not passed by sB plus ext0, writes a descriptor whose BASE has
grown by sB modulo 2^46, whose LENGTH is ext0 and whose other fields are the source's. Each strand moves on, and nothing else changes.
(R89, R80, R34) -/
def Obligations.DescriptorMoves : Prop :=
  ∀ (o : Insn) (s : State) (t : Strand) (j : Job),
    (Issues s Form.movDset o t j → CompletesWith (exec (.movDset o) s) fun u => WritesD s u o t o.dst (t.getS o.b ++ t.getS o.a)) ∧
    (Issues s Form.movDget o t j → CompletesWith (exec (.movDget o) s) fun u =>
      WritesS s u o t o.dst (BitVec.ofNat 64 ((t.getD o.a).toNat / 2 ^ (64 * o.fld 0 1)))) ∧
    (Issues s Form.movDsub o t j →
      Usable (t.getD o.a) [0, 1, 2] false → (t.getS o.b).toNat + (o.ext.getD 0 0#64).toNat ≤ (decodeDsc (t.getD o.a)).len →
      CompletesWith (exec (.movDsub o) s) fun u => ∃ v, WritesD s u o t o.dst v ∧
        decodeDsc v = { decodeDsc (t.getD o.a) with
          base := ((decodeDsc (t.getD o.a)).base + (t.getS o.b).toNat) % 2 ^ 46, len := (o.ext.getD 0 0#64).toNat })

/-- When a strand issues SCL.LD through a descriptor that R34 and R35 accept in node space, at an aligned address inside its extent, over
memory that the job may read and that can be read, exec answers a next state in which the destination holds the bytes there (with what the
strand's own waiting stores make of them, R46) as a number of SIZE bytes, sign-extended where SEXT is 1 and its top bit is set and zero-
extended otherwise. Nothing else of the strand but its word index changes, no other strand changes, and outside strands only what the read
counts, logs or wakes may differ: every byte of memory stays. (R46, R82, R87, R88, R34, R42, R44) -/
def Obligations.ScalarLoad : Prop :=
  ∀ (o : Insn) (s : State) (t : Strand) (j : Job), Issues s Form.sclLd o t j →
    let n := 2 ^ o.fld 0 2
    let a := (decodeDsc (t.getD o.a)).base + (t.getS o.b).toNat
    Usable (t.getD o.a) [0] false → (t.getS o.b).toNat + n ≤ (decodeDsc (t.getD o.a)).len → a % n = 0 →
    MayUse s j .read a n → Readable s a n →
    let v := leNat (s.forward t.id a (s.readMem 0 a n).1)
    CompletesWith (exec (.sclLd o) s) fun u => ∃ t', u.strand? o.strand = some t' ∧
      t'.getS o.dst = (if o.dst = 0 then 0#64 else if o.fld 2 1 = 1 ∧ v.testBit (8 * n - 1)
        then BitVec.ofInt 64 ((v : Int) - 2 ^ (8 * n)) else BitVec.ofNat 64 v) ∧
      (∀ m, m ≠ o.dst → t'.getS m = t.getS m) ∧ t' = { t.after o with s := t'.s } ∧
      (∀ k, k ≠ o.strand → u.anyStrand? k = s.anyStrand? k) ∧
      ReadsOnly s { u with fil := { u.fil with strands := s.fil.strands } } ∧ ∀ p, u.mem.byte p = s.mem.byte p

/-- When a strand issues SCL.ST through a writable descriptor that R34 and R35 accept in node space, at an aligned address inside its
extent, over memory that the job may write, with no Winze operation holding the range, no dead channel, clean check bits and the flip mask
not armed, exec answers a next state in which the SIZE bytes from the physical address of dD.BASE + sB are the low bytes of sA, lowest
first, and every other byte of memory reads as before; the strand moves on with its registers as they were, and no other strand changes.
Memory is taken in its canonical form, which every step keeps. (R87, R82, R88, R252, R510, R43) -/
def Obligations.ScalarStore : Prop :=
  ∀ (o : Insn) (s : State) (t : Strand) (j : Job), Issues s Form.sclSt o t j → s.canonical = true →
    let n := 2 ^ o.fld 0 2
    let a := (decodeDsc (t.getD o.dst)).base + (t.getS o.b).toNat
    Usable (t.getD o.dst) [0] true → (t.getS o.b).toNat + n ≤ (decodeDsc (t.getD o.dst)).len → a % n = 0 →
    MayUse s j .write a n → Storable s a n →
    CompletesWith (exec (.sclSt o) s) fun u => ∃ p, physOf a = some p ∧
      (∀ i < n, u.mem.byte (p + i) = BitVec.ofNat 8 ((t.getS o.a).toNat / 256 ^ i)) ∧
      (∀ x, (x < p ∨ p + n ≤ x) → u.mem.byte x = s.mem.byte x) ∧
      u.strand? o.strand = some (t.after o) ∧ (∀ k, k ≠ o.strand → u.anyStrand? k = s.anyStrand? k)

/-- When a strand issues SCL.LD or SCL.ST through a descriptor that R34 and R35 accept in node space, inside its extent, at an address
that is no multiple of the access size, exec answers a next state in which no byte of memory has changed, every strand of the job has
ended, the job (with no status yet) has the status 0x0012 with the cause ALIGN as its detail, and, where no fault was recorded, the act's
fault registers hold FAULTED and the cause ALIGN. (R82, R84, R69, R71, R59) -/
def Obligations.MisalignedScalarAccessFaults : Prop :=
  ∀ (o : Insn) (s : State) (t : Strand) (j : Job) (load : Bool),
    let d := if load then t.getD o.a else t.getD o.dst
    let n := 2 ^ o.fld 0 2
    let a := (decodeDsc d).base + (t.getS o.b).toNat
    Issues s (if load then Form.sclLd else Form.sclSt) o t j → Usable d [0] (!load) →
    (t.getS o.b).toNat + n ≤ (decodeDsc d).len → a % n ≠ 0 → j.status = 0 →
    CompletesWith (exec (if load then .sclLd o else .sclSt o) s) fun u =>
      u.mem = s.mem ∧ (∀ v ∈ u.fil.strands, v.job = t.job → v.ended = true) ∧
      (∃ k, u.job? t.job = some k ∧ k.status = 0x12 ∧ k.detail = cAlign) ∧
      (s.rd (F.actStatus_faulted j.act) = 0 →
        u.rd (F.actStatus_faulted j.act) = 1 ∧ u.rd (F.actFaultCause_cause j.act) = cAlign)

/-- In the GLB, CRU and TAL windows (TAL_CAL_CTRL and TAL_WALL_CTRL, which act on a write, apart), an aligned 32-bit write by the physical
function or the Shift boss, to a register that the block answers for, answers a next state in which each RW field holds the value written,
or keeps its own where the value is out of its range, each W1C field has lost the bits written as one, and every other field keeps its
value; every other register and the rest of the state are unchanged. (R4, R8, R10, R12) -/
def Obligations.RegisterWriteStores : Prop :=
  ∀ (boss : Bool) (off word : Nat) (s : State) (r : RegRow) (i k : Nat), findReg off = some (r, i, k) → off % 4 = 0 → word < 2 ^ 32 →
    s.answers off = true → (off < 0x200000 ∨ (0x1C00000 ≤ off ∧ off < 0x2000000)) →
    off ≠ Reg.talCalCtrl → off ≠ Reg.talWallCtrl →
    CompletesWith (exec (.registerWrite (if boss then .boss else .fn 0) off word none) s) fun u =>
      (∀ f ∈ r.fields, bits (u.reg off).toNat f.lo f.width =
        (match f.acc with
         | .rw => f.rng.take f.width (u.reg off).toNat (bits (s.reg off).toNat f.lo f.width) (bits word f.lo f.width) % 2 ^ f.width
         | .w1c => bits (s.reg off).toNat f.lo f.width - (bits (s.reg off).toNat f.lo f.width &&& bits word f.lo f.width)
         | _ => bits (s.reg off).toNat f.lo f.width)) ∧
      RegsOnly s u [off]

/-- An aligned 32-bit read of an assigned register that its source sees (TAL_BEAT_LO apart) answers a next state in which the answer to
the source is the word shown there with its WO bits zero, lowest byte first, and in which every RC bit of the register is cleared, every
other bit of it and every other register is as before, and nothing else but the answer has changed. A source that does not see the
register is answered zero, and nothing else changes. (R4, R10, R13, R421) -/
def Obligations.RegisterReadAnswers : Prop :=
  ∀ (src : Src) (off : Nat) (s : State) (r : RegRow) (i k : Nat), findReg off = some (r, i, k) → off % 4 = 0 →
    off ≠ Reg.talBeatLo →
    (s.sees src off = true → CompletesWith (exec (.readClearRegisterRead src off false) s) fun u =>
      (∃ v, v = s.shown (Snap.of src) off - (s.shown (Snap.of src) off &&& r.mask .wo) ∧
        u.host.out = .regData src (leBytes v 4) :: s.host.out) ∧
      u.reg off = s.reg off &&& ~~~(BitVec.ofNat 32 (r.mask .rc)) ∧
      RegsOnly s { u with host := { u.host with out := s.host.out } } [off]) ∧
    (s.sees src off = false → CompletesWith (exec (.readClearRegisterRead src off false) s) fun u =>
      u = { s with host := { s.host with out := .regData src (zeros 4) :: s.host.out } })

/-- An access to register space that is not an aligned one of 32 or 64 bits answers a next state: a read is answered with as many zero
bytes, a write changes no register but the log; where no such access had been logged, HIF_ACC_ERR then holds VALID, the offset, the
direction and the function; where one had been, every register is as before. An aligned access to unassigned offsets answers zeros or does
nothing, and is not logged. (R10) -/
def Obligations.OddAccessIsLogged : Prop :=
  ∀ (src : Src) (off len : Nat) (write : Bool) (s : State), off < 2 ^ 26 →
    (plainAccess off len = false → CompletesWith (exec (.unalignedRegisterAccess src off len write) s) fun u =>
      u.host.out = (if write then s.host.out else .regData src (zeros len) :: s.host.out) ∧
      (s.rd F.hifAccErr_valid = 0 → u.rd F.hifAccErr_valid = 1 ∧ u.rd F.hifAccErr_offset = off ∧
        u.rd F.hifAccErr_write = (if write then 1 else 0) ∧ u.rd F.hifAccErr_func = funcOf src % 16 ∧
        RegsOnly s { u with host := s.host } [F.hifAccErr_valid.off]) ∧
      (s.rd F.hifAccErr_valid = 1 → { u with host := s.host } = s)) ∧
    (plainAccess off len = true → findReg off = none → findReg (off + 4) = none →
      CompletesWith (exec (.unalignedRegisterAccess src off len write) s) fun u =>
        u.host.out = (if write then s.host.out else .regData src (zeros len) :: s.host.out) ∧ { u with host := s.host } = s)

/-- A 32-bit read of TAL_BEAT_LO by a source that sees it is answered with beat bits 31 to 0, and a 64-bit read with the whole beat; both
take the source's snapshot. In the state that the read leaves, and in every later state that keeps the snapshots, whatever its beat and
sub-beat, TAL_BEAT_HI and TAL_SUB show that source the beat bits 63 to 32 and the sub-beat of its read, and every other source what they
showed it. A source without a snapshot is shown the current beat and sub-beat. Nothing but the snapshot and the answer has changed. A
source that does not see the register is answered zeros, and nothing else changes. (R414, R11) -/
def Obligations.BeatSnapshotPerSource : Prop :=
  (∀ (src : Src) (wide : Bool) (s : State),
    (s.sees src Reg.talBeatLo = true → CompletesWith (exec (.tallySnapshotRead src wide) s) fun u =>
      u.host.out = .regData src (if wide then leBytes (s.tally.beat % 2 ^ 64) 8 else leBytes (s.tally.beat % 2 ^ 32) 4) :: s.host.out ∧
      (∀ w : State, w.tally.snaps = u.tally.snaps → w.shown (Snap.of src) Reg.talBeatHi = s.tally.beat / 2 ^ 32 % 2 ^ 32 ∧
        bits (w.shown (Snap.of src) Reg.talSub) 0 10 = s.tally.sub % 1024) ∧
      (∀ who, who ≠ Snap.of src → ∀ off ∈ [Reg.talBeatHi, Reg.talSub], u.shown who off = s.shown who off) ∧
      { u with tally := { u.tally with snaps := s.tally.snaps }, host := { u.host with out := s.host.out } } = s) ∧
    (s.sees src Reg.talBeatLo = false → CompletesWith (exec (.tallySnapshotRead src wide) s) fun u =>
      u = { s with host := { s.host with out := .regData src (zeros (if wide then 8 else 4)) :: s.host.out } })) ∧
  ∀ (s : State) (who : Nat × Nat), (∀ x ∈ s.tally.snaps, x.source ≠ who) →
    s.shown who Reg.talBeatHi = s.tally.beat / 2 ^ 32 % 2 ^ 32 ∧ bits (s.shown who Reg.talSub) 0 10 = s.tally.sub % 1024

/-- At management level, with an offset that is a multiple of 4: SYS.RREG writes to its scalar what the Shift boss's read of that offset
returns (with the strand as the source of the snapshots of R414) and leaves the state that the read leaves; SYS.WREG does what the Shift
boss's write of the low 32 bits of sB does; SYS.TELEM writes the counter that CTR names. Below management level each of the three faults
with PRIV: every strand of the job ends and the job has status 0x0012 with detail PRIV. (R107, R41, R84, R12) -/
def Obligations.SysRegisterAccess : Prop :=
  ∀ (o : Insn) (s : State) (t : Strand) (j : Job),
    (Issues s Form.sysRreg o t j → s.isPriv j = true → (t.getS o.a).toNat % 4 = 0 →
      CompletesWith (exec (.sysRreg o) s) fun u =>
        let a := (s.moved o t).readReg .boss (17, t.id) (t.getS o.a).toNat
        u = a.2.modStrand o.strand fun x => x.setS o.dst (BitVec.ofNat 64 a.1)) ∧
    (Issues s Form.sysWreg o t j → s.isPriv j = true → (t.getS o.a).toNat % 4 = 0 →
      CompletesWith (exec (.sysWreg o) s) fun u =>
        u = (s.moved o t).writeReg .boss (t.getS o.a).toNat ((t.getS o.b).toNat % 2 ^ 32)) ∧
    (Issues s Form.sysTelem o t j → s.isPriv j = true → CompletesWith (exec (.sysTelem o) s) fun u =>
      WritesS s u o t o.dst (BitVec.ofNat 64 ((s.moved o t).telemetry (o.fld 0 16)))) ∧
    (∀ e ∈ ([(.sysRreg, Form.sysRreg), (.sysWreg, Form.sysWreg), (.sysTelem, Form.sysTelem)] : List ((Insn → Instr) × Form)),
      Issues s e.2 o t j → s.isPriv j = false → j.status = 0 → CompletesWith (exec (e.1 o) s) fun u =>
        (∀ v ∈ u.fil.strands, v.job = t.job → v.ended = true) ∧
        ∃ k, u.job? t.job = some k ∧ k.status = 0x12 ∧ k.detail = cPriv)

/-- When a strand issues the instruction, exec answers a next state in which: after NOP it stands at the next instruction; after BR at its
word index plus SIMM; after CALL likewise, with sD the index of the next instruction; after JMPR, whose target is the first word of an
instruction of its routine, at the word index in sA; after LOOP, with sD less by 1 modulo 2^64, at its word index plus SIMM where sD is
then not zero and at the next instruction where it is (s0 reads zero). Nothing else of the strand and nothing outside it changes. (R86,
R80, R82) -/
def Obligations.ControlFlow : Prop :=
  ∀ (o : Insn) (s : State) (t : Strand) (j : Job),
    let target := ((t.pc : Int) + o.imm.toInt).toNat
    let onward := t.pc + 1 + o.ext.length
    (Issues s Form.ctlNop o t j → CompletesWith (exec (.ctlNop o) s) fun u => StrandBecomes s u o (t.after o)) ∧
    (Issues s Form.ctlBr o t j → CompletesWith (exec (.ctlBr o) s) fun u => StrandBecomes s u o { t.after o with pc := target }) ∧
    (Issues s Form.ctlCall o t j → CompletesWith (exec (.ctlCall o) s) fun u => ∃ t', StrandBecomes s u o t' ∧
      t'.getS o.dst = (if o.dst = 0 then 0#64 else BitVec.ofNat 64 onward) ∧ (∀ m, m ≠ o.dst → t'.getS m = t.getS m) ∧
      t' = { t.after o with s := t'.s, pc := target }) ∧
    (∀ r : Routine, Issues s Form.ctlJmpr o t j → s.routineOf j = some r →
      firstWord (t.getS o.a).toNat r.code.length r.code 0 = true →
      CompletesWith (exec (.ctlJmpr o) s) fun u => StrandBecomes s u o { t.after o with pc := (t.getS o.a).toNat }) ∧
    (Issues s Form.ctlLoop o t j → CompletesWith (exec (.ctlLoop o) s) fun u => ∃ t', StrandBecomes s u o t' ∧
      t'.getS o.dst = (if o.dst = 0 then 0#64 else t.getS o.dst - 1#64) ∧ (∀ m, m ≠ o.dst → t'.getS m = t.getS m) ∧
      t' = { t.after o with s := t'.s, pc := if t'.getS o.dst = 0#64 then onward else target })

/-- When a strand issues END with nothing in flight, exec answers a next state in which no strand of its identifier runs, none of its
handles names a tile, and memory is as it was. With an engine instruction in flight, the strand waits at its end, with every register as
it was, and nothing outside it changes. (R86, R50) -/
def Obligations.EndOfStrand : Prop :=
  ∀ (o : Insn) (s : State) (t : Strand) (j : Job), Issues s Form.ctlEnd o t j →
    (t.inflight = [] → CompletesWith (exec (.ctlEnd o) s) fun u => u.strand? o.strand = none ∧ u.mem = s.mem ∧
      ∀ v ∈ u.fil.strands, v.id = o.strand → ∀ r < 32, v.getT r = none) ∧
    (t.inflight ≠ [] → CompletesWith (exec (.ctlEnd o) s) fun u =>
      StrandBecomes s u o { t.after o with wait := .ending, since := s.tally.beat })

/-- NOW writes the beat, STABLE the stable beat, and SUB beat bits 53 to 0 times 1,024 plus the sub-beat, each to its scalar. WAITB with b
= sA, and the deadline all ones where none is set: where the earlier of b and the deadline has come, the predicate takes 1 if b is at most
the deadline and 0 otherwise, at once; where it has not come and the event engine has room, the strand waits for it with that value kept,
and WAITB_RELEASE, in any state in which the strand waits so and the beat has come, writes the value and lets the strand go on. The value
is a function of b and the deadline alone. (R54, R107, R409) -/
def Obligations.BeatAsProgramTime : Prop :=
  ∀ (o : Insn) (s : State) (t : Strand) (j : Job),
    let b := (t.getS o.a).toNat
    let d := if bitOf j.desc.flags 2 then j.desc.deadline else 2 ^ 64 - 1
    (Issues s Form.talNow o t j → CompletesWith (exec (.talNow o) s) fun u => WritesS s u o t o.dst (BitVec.ofNat 64 s.tally.beat)) ∧
    (Issues s Form.talStable o t j → CompletesWith (exec (.talStable o) s) fun u =>
      WritesS s u o t o.dst (BitVec.ofNat 64 s.tally.stable)) ∧
    (Issues s Form.talSub o t j → CompletesWith (exec (.talSub o) s) fun u =>
      WritesS s u o t o.dst (BitVec.ofNat 64 (s.tally.beat % 2 ^ 54 * 1024 + s.tally.sub))) ∧
    (Issues s Form.talWaitb o t j → min b d ≤ s.tally.beat → CompletesWith (exec (.talWaitb o) s) fun u =>
      WritesP s u o t o.dst (decide (b ≤ d))) ∧
    (Issues s Form.talWaitb o t j → s.tally.beat < min b d → (s.moved o t).eventRoom = true →
      CompletesWith (exec (.talWaitb o) s) fun u =>
        StrandBecomes s u o { t.after o with wait := .waitb (min b d) o.dst (decide (b ≤ d)), since := s.tally.beat }) ∧
    (∀ (n p : Nat) (v : Bool), s.strand? o.strand = some t → t.wait = .waitb n p v → n ≤ s.tally.beat →
      CompletesWith (exec (.waitbRelease o.strand) s) fun u => ∃ t', u.strand? o.strand = some t' ∧
        t'.getP p = (if p = 0 then true else v) ∧ (∀ m, m ≠ p → t'.getP m = t.getP m) ∧ t' = { t with p := t'.p, wait := .no } ∧
        StrandOnly s { u with telem := s.telem } o.strand)

/-- The three fences: the command, its form, how a strand waits at it, and what holds it back. -/
def Sys2Proof.Claims.fences : List ((Insn → Instr) × Form × Wait × (Inflight → Bool)) :=
  [(.synFence, Form.synFence, .fence, fun _ => true),
   (.synWfence, Form.synWfence, .wfence, fun f => f.cls == 8),
   (.synCfence, Form.synCfence, .cfence, fun f => f.cls == 11 && [1, 3, 4, 5, 6].contains f.func)]

/-- A FENCE, WFENCE or CFENCE of a strand with, in that order, no engine instruction, no WNZ instruction, or no CAR store, atomic or
invalidation in flight lets the strand go on at once; otherwise the strand waits at it. BAR first waits as FENCE does; with nothing in
flight the strand then waits at its barrier index, unless it is the last of the job's S strands there: then every strand of the job goes
on. FENCE_RELEASE lets a strand go on that waits at a fence whose condition has come to hold. Registers are as they were, and nothing
outside the strands changes. (R50, R52) -/
def Obligations.FencesWait : Prop :=
  (∀ e ∈ Sys2Proof.Claims.fences, ∀ (o : Insn) (s : State) (t : Strand) (j : Job),
    (Issues s e.2.1 o t j → t.inflight.any e.2.2.2 = false → CompletesWith (exec (e.1 o) s) fun u =>
      StrandBecomes s u o { t.after o with since := s.tally.beat }) ∧
    (Issues s e.2.1 o t j → t.inflight.any e.2.2.2 = true → CompletesWith (exec (e.1 o) s) fun u =>
      StrandBecomes s u o { t.after o with wait := e.2.2.1, since := s.tally.beat }) ∧
    (s.strand? o.strand = some t → t.wait = e.2.2.1 → t.inflight.any e.2.2.2 = false →
      CompletesWith (exec (.fenceRelease o.strand) s) fun u => StrandBecomes s u o { t with wait := .no })) ∧
  (∀ (o : Insn) (s : State) (t : Strand) (j : Job), Issues s Form.synBar o t j →
    let arrived := (s.moved o t).modStrand o.strand fun v => { v with wait := .bar (o.fld 0 4), since := s.tally.beat }
    let there := (arrived.fil.strands.filter fun v => v.job == t.job && v.wait == .bar (o.fld 0 4) && !v.ended).length
    (t.inflight ≠ [] → CompletesWith (exec (.synBar o) s) fun u =>
      StrandBecomes s u o { t.after o with wait := .barFence (o.fld 0 4), since := s.tally.beat }) ∧
    (t.inflight = [] → there ≠ j.count → CompletesWith (exec (.synBar o) s) fun u =>
      StrandBecomes s u o { t.after o with wait := .bar (o.fld 0 4), since := s.tally.beat }) ∧
    (t.inflight = [] → there = j.count → CompletesWith (exec (.synBar o) s) fun u =>
      ∀ v ∈ u.fil.strands, v.job = t.job → v.wait = .no))

/-- For a strand that waits at a fence whose condition does not hold, or at a barrier: when ACT_CTRL.FENCE_LIMIT is not 0 and that many
beats have passed since the wait began, FENCE_TIMEOUT answers a next state in which every strand of its job has ended and the job, which
had no status, has status 0x0012 with detail FENCE_TIMEOUT. When FENCE_LIMIT is 0, or the beats have not passed, FENCE_TIMEOUT changes
nothing. (R53) -/
def Obligations.FenceTimeoutFaults : Prop :=
  ∀ (strand : Nat) (s : State) (t : Strand) (j : Job), s.strand? strand = some t → s.job? t.job = some j → s.fenceDone t = false →
    ((∃ i, t.wait = .bar i ∨ t.wait = .barFence i) ∨ t.wait = .fence ∨ t.wait = .wfence ∨ t.wait = .cfence) →
    let limit := s.rd (F.actCtrl_fenceLimit j.act)
    (limit ≠ 0 → t.since + limit ≤ s.tally.beat → j.status = 0 → CompletesWith (exec (.fenceTimeout strand) s) fun u =>
      (∀ v ∈ u.fil.strands, v.job = t.job → v.ended = true) ∧ ∃ k, u.job? t.job = some k ∧ k.status = 0x12 ∧ k.detail = cFence) ∧
    (limit = 0 ∨ s.tally.beat < t.since + limit → exec (.fenceTimeout strand) s = .next s)

/-- When a strand issues MOV.TALLOC with a format other than LIST, or MOV.TLOADM through a readable and aligned descriptor over memory
that the job may read (for FMT LIST: 1 to 256 whole pages in which the strides of every lane are well-formed), and the crew store has
room, exec answers a next state in which a new tile, which the instruction in flight will bind to its handle, lies in the crew store and
holds: for TALLOC 4,096 zero bytes, for TLOADM the 4,096 bytes at dA.BASE, each with unit scales where the format carries scales; for a
LIST the list that the bytes spell. Its checksum is that of its contents. No other byte of memory, no other tile's contents, no other
register of the strand and no other strand changes. (R89, R115, R206, R207, R291, R292, R304) -/
def Obligations.NewTiles : Prop :=
  ∀ (o : Insn) (s : State) (t : Strand) (j : Job) (a : Nat), o.tileForm = true →
    let d := decodeDsc (t.getD o.a)
    let n := if o.fld 0 4 = 8 then d.len else 4096
    let b := (s.readMem 0 d.base n).1
    let readable := Usable (t.getD o.a) [0] false ∧ n ≤ d.len ∧ d.base % 64 = 0 ∧ d.len % 64 = 0 ∧ MayUse s j .read d.base n ∧
      s.holder false d.base n = none ∧ isRegister d.base = false ∧ (∀ k ∈ blocksOf d.base n, s.mem.check k = .clean) ∧
      s.rd F.pwrStackState_inP3 = 0
    (Issues s Form.movTalloc o t j → o.fld 0 4 ≠ 8 → RoomAt s t j 4096 a →
      CompletesWith (exec (.movTalloc o) s) fun u => MakesTile s u o t (unitTile (o.fld 0 4) (o.fld 4 4) (zeros 4096)) a) ∧
    (Issues s Form.movTloadm o t j → o.fld 0 4 ≠ 8 → readable → RoomAt s t j b.length a →
      CompletesWith (exec (.movTloadm o) s) fun u => MakesTile s u o t (unitTile (o.fld 0 4) (o.fld 4 4) b) a) ∧
    (∀ v : TileVal, Issues s Form.movTloadm o t j → o.fld 0 4 = 8 → d.len % 4096 = 0 → 4096 ≤ d.len → d.len ≤ 2 ^ 20 → readable →
      loadList o d.len b = some v → RoomAt s t j v.data.length a →
      CompletesWith (exec (.movTloadm o) s) fun u => MakesTile s u o t v a)

/-- When a strand issues the instruction on tiles at rest of the formats that it accepts, and the crew store has room, exec answers a next
state in which a new tile holds: for EW, in the format and shape of tA, the operation OP of each element of tA with the element of tB, or
with the element of tB's one row in its column under BCAST; for ACT, the function FN of each element, computed in binary32; for RED, the
OP of each row (or column, under AXIS) as an FP32 vector of 1,024, padded with zeros; for CVT, each element converted to FP32 or BF16,
where every one has a pattern there and every column that does not fit is zero. No other byte of memory, no other tile's contents, no
other register of the strand and no other strand changes. (R90, R123, R124, R125, R126, R115, R111, R291, R292) -/
def Obligations.HewerResults : Prop :=
  ∀ (o : Insn) (s : State) (t : Strand) (j : Job) (x y : Tile) (v w : TileVal) (a : Nat), AtRest s t o.a x v → NotPromoted s t x →
    let cells := codesOf v.fmt v.data
    let cell := fun n => cells.toArray.getD n 0
    let rows := shapeRows v.shape
    let cols := shapeCols v.fmt v.shape
    let other := (codesOf w.fmt w.data).toArray
    let ew := plainTile v.fmt v.shape (ofCodes v.fmt (cells.zipIdx.map fun e =>
      ewOp (o.fld 0 3) v.fmt e.1 (other.getD (if o.fld 3 1 = 1 then e.2 % cols else e.2) 0)))
    let act := plainTile v.fmt v.shape (ofCodes v.fmt (cells.map fun c =>
      if v.fmt = 1 then roundBf16 (f32 (actFn (o.fld 0 4) (widen v.fmt c))) else actFn (o.fld 0 4) (widen v.fmt c)))
    let red := plainTile 0 6 (ofCodes 0 (padTo 0 1024 (if o.fld 0 1 = 1
      then (List.range cols).map fun k => redOp (o.fld 1 1) ((List.range rows).map fun r => widen v.fmt (cell (r * cols + k)))
      else (List.range rows).map fun r => redOp (o.fld 1 1) ((List.range cols).map fun k => widen v.fmt (cell (r * cols + k))))))
    let into := o.fld 0 2
    let wide := shapeCols into v.shape
    let at_ := fun r k => (fmtValue v.fmt (cell (r * cols + k))).scale (v.blockExp v.scales.toArray r k)
    (Issues s Form.hewEw o t j → AtRest s t o.b y w → NotPromoted s t y → x.fmt ≤ 1 → y.fmt = x.fmt →
      (if o.fld 3 1 = 1 then y.shape = 6 else y.shape = x.shape) → RoomAt s t j ew.data.length a →
      CompletesWith (exec (.hewEw o) s) fun u => MakesTile s u o t ew a) ∧
    (Issues s Form.hewAct o t j → x.fmt ≤ 1 → RoomAt s t j act.data.length a →
      CompletesWith (exec (.hewAct o) s) fun u => MakesTile s u o t act a) ∧
    (Issues s Form.hewRed o t j → x.fmt ≤ 1 → (o.fld 0 1 = 1 → shapeCols x.fmt x.shape ≤ 1024) → RoomAt s t j red.data.length a →
      CompletesWith (exec (.hewRed o) s) fun u => MakesTile s u o t red a) ∧
    (∀ out : List Nat, Issues s Form.hewCvt o t j → x.fmt ≤ 5 → (x.fmt, into) ≠ (0, 1) → x.tscale = one32 → 0xFF#8 ∉ x.scales →
      (∀ r < rows, ∀ k, wide ≤ k → k < cols → (at_ r k).isZero = true) →
      ((List.range (rows * wide)).mapM fun n => if n % wide < cols then cvtElem (v.fmt == into) into (at_ (n / wide) (n % wide)) else some 0) = some out →
      RoomAt s t j (plainTile into v.shape (ofCodes into out)).data.length a →
      CompletesWith (exec (.hewCvt o) s) fun u => MakesTile s u o t (plainTile into v.shape (ofCodes into out)) a)

/-- When a strand issues HEW.MMA on two tiles at rest that R119 accepts, with no reserved scale, and the crew store has room: with ZERO
set, exec answers a next state in which a new 32 by 32 tile holds the product that R120 gives for the floating-point formats (FP32) and
R121 for INT8 with unit scales (INT32, saturated); with ZERO clear and an accumulator tile at rest of that format and shape, the
instruction in flight holds new contents for that tile, the accumulator plus the product, under its name. At its completion point the
crew's count of saturated elements grows by as many as saturated, and its count of MMA instructions by 1. No other byte of memory, no
tile's present contents, no register of the strand and no other strand changes. (R119, R120, R121, R129, R291, R127) -/
def Obligations.MatrixMultiply : Prop :=
  ∀ (o : Insn) (s : State) (t : Strand) (j : Job) (x y z : Tile) (v w acc : TileVal) (a : Nat), Issues s Form.hewMma o t j →
    let ta := o.fld 0 1 == 1
    let tb := o.fld 1 1 == 1
    let product := fun d : Option TileVal => if accFmt v w = 6 then mmaInt d v w ta tb else (mmaFp d v w ta tb, 0)
    let sat := F.crewSatCount_count t.crew
    let counts := fun n : Nat => [Effect.count sat.off sat.lo sat.width n,
      .count64 (F.crewMmaLo_count t.crew).off (F.crewMmaHi_count t.crew).off 1]
    AtRest s t o.a x v → AtRest s t o.b y w → NotPromoted s t x → NotPromoted s t y → mmaAccepts v w ta tb = true →
    v.badScale = false → w.badScale = false →
    (o.fld 2 1 = 1 → RoomAt s t j (product none).1.data.length a →
      CompletesWith (exec (.hewMma o) s) fun u => MakesTile s u o t (product none).1 a (counts (product none).2)) ∧
    (o.fld 2 1 = 0 → t.clear [.t o.dst] [] = true → AtRest s t o.dst z acc → NotPromoted s t z → z.fmt = accFmt v w → z.shape = 0 →
      RoomAt s t j (product (some acc)).1.data.length a →
      CompletesWith (exec (.hewMma o) s) fun u => RewritesTile s u o t z (product (some acc)).1 a (counts (product (some acc)).2))

/-- When a strand issues the instruction on a source tile at rest, and for CVT and SPLIT on a scale tile at rest that R140 accepts and
that goes with it, and the crew store has room, exec answers a next state in which a new tile holds: for PREPASS the scale tile that R141
computes for the format, block size and outlier choice of the instruction, and at the completion point QNT_NONFINITE_COUNT grows by one
where some element was not finite; for CVT the source's payload with the scale tile's scales where the source has the scale tile's narrow
format, and otherwise the quantised payload of R143, and at the completion point QNT_SAT_COUNT grows by as many elements as saturated; for
SPLIT the BF16 tile of the source's outlier channels, every other element zero. Nothing else of memory, tiles and strands changes. (R138,
R139, R140, R141, R143, R144, R145, R151, R291) -/
def Obligations.QuantiserResults : Prop :=
  ∀ (o : Insn) (s : State) (t : Strand) (j : Job) (x y : Tile) (v w : TileVal) (a : Nat), AtRest s t o.a x v →
    let wide := x.fmt ≤ 1 ∧ shapeCols x.fmt x.shape ≤ 1024
    let pre := prepass v (o.fld 0 4) (o.fld 4 3) (o.fld 7 1 == 1)
    let non := F.cruQntNonfiniteCount_count
    let sat := F.cruQntSatCount_count
    (Issues s Form.qntPrepass o t j → wide → RoomAt s t j (plainTile 7 0 pre.bytes).data.length a →
      CompletesWith (exec (.qntPrepass o) s) fun u => MakesTile s u o t (plainTile 7 0 pre.bytes) a
        [.count non.off non.lo non.width (if pre.nonfinite ≠ 0 then 1 else 0)]) ∧
    (∀ sc : ScaleTile, AtRest s t o.b y w → y.fmt = 7 → readScale w.data = some sc → x.shape = sc.shape →
      (Issues s Form.qntCvt o t j → isScaled x.fmt = true → x.fmt = sc.qfmt → RoomAt s t j v.data.length a →
        CompletesWith (exec (.qntCvt o) s) fun u => MakesTile s u o t (withScales sc v.data) a [.count sat.off sat.lo sat.width 0]) ∧
      (∀ (nf : Narrow) (d : List Byte) (n : Nat), Issues s Form.qntCvt o t j → wide → shapeCols x.fmt x.shape = sc.cols →
        Narrow.ofFmt sc.qfmt = some nf → quantise sc nf v = some (d, n) → RoomAt s t j d.length a →
        CompletesWith (exec (.qntCvt o) s) fun u => MakesTile s u o t (withScales sc d) a [.count sat.off sat.lo sat.width n]) ∧
      (Issues s Form.qntSplit o t j → wide → shapeCols x.fmt x.shape = sc.cols →
        let cols := shapeCols v.fmt v.shape
        let into := shapeCols 1 v.shape
        let out := plainTile 1 v.shape (ofCodes 1 ((List.range 2048).map fun n => if n % into ∈ sc.mask then
          roundBf16 (f32 (widen v.fmt ((codesOf v.fmt v.data).toArray.getD (n / into * cols + n % into) 0))) else 0))
        RoomAt s t j out.data.length a →
        CompletesWith (exec (.qntSplit o) s) fun u => MakesTile s u o t out a))

/-- When a strand issues QNT.DRIFT on two scale tiles at rest that R140 accepts and whose formats, shapes, block sizes and columns agree,
exec answers a next state in which the instruction in flight: where R146 finds no drift, clears its predicate; where it finds one in a job
under RERUN, sets the predicate and counts one drift and one rerun; where it finds one in a job under ADAPT, with room in the crew store,
gives the calibration tile the contents of R147, clears the predicate, and counts one drift and one adaptation. Nothing else of memory,
tiles and strands changes. (R146, R147, R148, R291) -/
def Obligations.DriftAnswers : Prop :=
  ∀ (o : Insn) (s : State) (t : Strand) (j : Job) (x y : Tile) (v w : TileVal) (m c : ScaleTile) (a : Nat),
    Issues s Form.qntDrift o t j → t.clear [] [.t o.b] = true → AtRest s t o.a x v → AtRest s t o.b y w → x.fmt = 7 → y.fmt = 7 →
    readScale v.data = some m → readScale w.data = some c → m.qfmt = c.qfmt → m.shape = c.shape → m.bs = c.bs → m.cols = c.cols →
    let one := fun f : FieldRef => Effect.count f.off f.lo f.width 1
    (drifted m c = false → CompletesWith (exec (.qntDrift o) s) fun u => Engages s u o t [.setP o.dst false]) ∧
    (drifted m c = true → j.rerun = true → CompletesWith (exec (.qntDrift o) s) fun u => Engages s u o t
      [.setP o.dst true, one F.cruQntDriftCount_count, one F.cruQntRerunCount_count]) ∧
    (drifted m c = true → j.rerun = false → RoomAt s t j (plainTile 7 y.shape (adapted m c).bytes).data.length a →
      CompletesWith (exec (.qntDrift o) s) fun u => RewritesTile s u o t y (plainTile 7 y.shape (adapted m c).bytes) a
        [.setP o.dst false, one F.cruQntDriftCount_count, one F.cruQntAdaptCount_count])

/-- When a strand issues the instruction on a tile at rest that is no list: PACK makes a new tile with the same contents, homed as the
packed stream in the pool where packing is on, the contents compress and the pool has room, and homed as it is in the crew store, counted
once in CRU_RAW_KEPT, where packing is off or they do not compress; UNPACK makes a new tile with the same contents in the crew store, and
sets the predicate that PRES names; CHECK sets its predicate. On a packed tile whose stream fails a check of Table 5.5, CHECK clears its
predicate and UNPACK with PRES drops its handle and clears the predicate, and each counts one in CRU_DAMAGE_COUNT. No other byte of
memory, no other tile, no other register of the strand and no other strand changes. (R94, R152, R154, R156, R157, R296, R304, R81) -/
def Obligations.CrusherResults : Prop :=
  ∀ (o : Insn) (s : State) (t : Strand) (j : Job) (x : Tile) (v : TileVal) (a : Nat), x.fmt ≠ 8 → x.info = none → j.act < 16 →
    (AtRest s t o.a x v →
      (∀ b, Issues s Form.cruPack o t j → packTile v.data = some b → s.on F.memCtrl_packEn = true → PoolRoomAt s t j b.length a →
        CompletesWith (exec (.cruPack o) s) fun u => MakesTile s u o t v a [] (b, true)
          [F.cruPackInLo_bytes.off, F.cruPackInHi_bytes.off, F.cruPackOutLo_bytes.off, F.cruPackOutHi_bytes.off]) ∧
      (Issues s Form.cruPack o t j → packTile v.data = none ∨ s.on F.memCtrl_packEn = false → RoomAt s t j v.data.length a →
        CompletesWith (exec (.cruPack o) s) fun u => MakesTile s u o t v a [] (v.data, false)
            [F.cruPackInLo_bytes.off, F.cruPackInHi_bytes.off, F.cruRawKept_count.off] ∧
          u.rd F.cruRawKept_count = min (s.rd F.cruRawKept_count + 1) (2 ^ 32 - 1) ∧
          u.rd64 F.cruPackInLo_bytes F.cruPackInHi_bytes = (s.rd64 F.cruPackInLo_bytes F.cruPackInHi_bytes + v.data.length) % 2 ^ 64) ∧
      (Issues s Form.cruUnpack o t j → t.clear [] (presWrites o) = true → RoomAt s t j v.data.length a →
        CompletesWith (exec (.cruUnpack o) s) fun u => MakesTile s u o t v a (setPres o true)) ∧
      (Issues s Form.cruCheck o t j → CompletesWith (exec (.cruCheck o) s) fun u => Engages s u o t [.setP o.dst true])) ∧
    (∀ check : Nat, t.getT o.a = some x.id → s.tile? x.id = some x → isRegister x.home = false →
      (∀ b ∈ blocksOf x.home x.len, s.mem.check b = .clean) → s.rd F.pwrStackState_inP3 = 0 → s.fun_.streams = [] → x.packed = true →
      decodeStream false (x.len / 512) (s.readMem 0 x.home x.len).1 = .inl check →
      let noted := [F.cruDamage_valid.off, F.cruDamageCount_count.off]
      let one := min (s.rd F.cruDamageCount_count + 1) (2 ^ 32 - 1)
      (Issues s Form.cruCheck o t j → CompletesWith (exec (.cruCheck o) s) fun u =>
        Engages s u o t [.setP o.dst false] noted ∧ u.rd F.cruDamageCount_count = one) ∧
      (Issues s Form.cruUnpack o t j → t.clear [] (presWrites o) = true → o.fld 25 3 ≠ 0 →
        CompletesWith (exec (.cruUnpack o) s) fun u =>
          Engages s u o t [.dropT o.dst, .setP (o.fld 25 3) false] noted ∧ u.rd F.cruDamageCount_count = one))

/-- When a strand issues MOV.COPY of sB bytes inside both descriptors' extents, with rights in node space, exec answers a next state in
which the instruction in flight will store at the destination's base, or send there to the host, exactly the bytes read from the source:
the bytes of node memory as they are at issue, or those the host answered with; a copy of no bytes stores none. When a strand issues
MOV.TSTORE of a tile at rest through a writable, aligned descriptor, the instruction in flight will store the tile's 4,096 bytes, or of a
LIST tile the next 4,096, of which the handle's count of stored pages takes note. Until the completion point no byte of memory, no tile
and no other register changes. (R89, R426, R207, R82, R46, R510) -/
def Obligations.CopyAndStore : Prop :=
  ∀ (o : Insn) (s : State) (t : Strand) (j : Job),
    let n := (t.getS o.b).toNat
    let src := decodeDsc (t.getD o.a)
    let dst := decodeDsc (t.getD o.dst)
    let put := fun b : List Byte => if n = 0 then [] else if dst.space = 0 then [Effect.mem 0 dst.base b] else [.host j.act dst.base b]
    let readable := fun a n => s.holder false a n = none ∧ isRegister a = false ∧ (∀ k ∈ blocksOf a n, s.mem.check k = .clean) ∧
      s.rd F.pwrStackState_inP3 = 0
    (∀ data : Option (List Byte), Issues s Form.movCopy o t j → Usable (t.getD o.a) [0, 2] false → Usable (t.getD o.dst) [0, 2] true →
      n ≤ src.len → n ≤ dst.len → (dst.space = 0 → MayUse s j .write dst.base n) →
      (src.space = 0 → MayUse s j .read src.base n → readable src.base n →
        CompletesWith (exec (.movCopy o data) s) fun u => Engages s u o t (put (s.readMem 0 src.base n).1)) ∧
      (∀ b, src.space = 2 → data = some b → b.length = n →
        CompletesWith (exec (.movCopy o data) s) fun u => Engages s u o t (put b))) ∧
    (∀ (x : Tile) (v : TileVal), Issues s Form.movTstore o t j → AtRest s t o.a x v → Usable (t.getD o.dst) [0] true → 4096 ≤ dst.len →
      dst.base % 64 = 0 → dst.len % 64 = 0 → MayUse s j .write dst.base 4096 →
      (x.info = none → CompletesWith (exec (.movTstore o) s) fun u => Engages s u o t [.mem 0 dst.base (slice v.data 0 4096)]) ∧
      (let page := kvGet 0 t.stored o.a
       x.info ≠ none → page * 4096 < x.len → CompletesWith (exec (.movTstore o) s) fun u =>
        (∃ fl : Inflight, fl.effects = [.mem 0 dst.base (slice v.data (page * 4096) 4096)] ∧ fl.gate = .engine ∧
          u.strand? o.strand = some { t.after o with inflight := t.inflight ++ [fl], stored := kvSet 0 t.stored o.a (page + 1) }) ∧
        (∀ k, k ≠ o.strand → u.anyStrand? k = s.anyStrand? k) ∧ ∀ x, u.mem.byte x = s.mem.byte x))

/-- What an effect of an engine instruction does to its strand: it sets a scalar, descriptor or predicate register or a query table, binds
a handle to a tile or drops it, and else leaves the strand. -/
def Sys2Proof.Claims.onStrand (t : Strand) : Effect → Strand
  | .setS r v => t.setS r v
  | .setD r v => t.setD r v
  | .setP r v => t.setP r v
  | .setQ r v => t.setQ r (some v)
  | .bindT r id => t.setT r (some id)
  | .dropT r => t.setT r none
  | _ => t

/-- The effects that reach no memory and no tile: on the registers of the strand, and on counters. -/
def Sys2Proof.Claims.stays : Effect → Bool
  | .setS _ _ | .setD _ _ | .setP _ _ | .setQ _ _ | .bindT _ _ | .dropT _ | .telem _ _ | .count _ _ _ _ => true
  | _ => false

/-- When an engine instruction in flight waits for nothing outside its engine (or for a commit beat that has come), ENGINE_COMPLETION
answers a next state in which its strand no longer tracks it, and its effects have taken place: whatever the list of them, scalar,
descriptor, predicate and query-table registers hold their values and handles name their tiles or none, where the list names no memory and
no tile's contents, so that memory is as it was; bytes stored in node memory, where nothing holds or damages the range, read as stored, and
no others change; a register count has grown to no more than its largest value. Nothing else of the strand and no other strand changes. An
instruction that waits for something else does not complete so: the state stays. (R47, R48, R291, R89, R510, R43) -/
def Obligations.EngineCompletes : Prop :=
  ∀ (s : State) (strand tag : Nat) (t : Strand) (fl : Inflight), s.strand? strand = some t →
    t.inflight.find? (fun f => f.tag == tag) = some fl →
    let left := { t with inflight := t.inflight.filter (fun f => f.tag != tag) }
    let others := fun u : State => ∀ k, k ≠ strand → u.anyStrand? k = s.anyStrand? k
    (fl.gate = .engine ∨ (∃ b, fl.gate = .commit b ∧ b ≤ s.tally.beat) →
      (fl.effects.all Sys2Proof.Claims.stays = true → CompletesWith (exec (.engineCompletion strand tag) s) fun u =>
        u.strand? strand = some (fl.effects.foldl Sys2Proof.Claims.onStrand left) ∧ others u ∧ u.mem = s.mem) ∧
      (∀ a data, fl.effects = [.mem 0 a data] → s.canonical = true → s.holder true a data.length = none → Writable s a data.length →
        CompletesWith (exec (.engineCompletion strand tag) s) fun u =>
          u.strand? strand = some left ∧ others u ∧ Stores s u a data) ∧
      (∀ off lo width n, fl.effects = [.count off lo width n] → lo + width ≤ 32 →
        CompletesWith (exec (.engineCompletion strand tag) s) fun u => u.strand? strand = some left ∧ others u ∧ u.mem = s.mem ∧
          u.rd ⟨off, lo, width⟩ = min (s.rd ⟨off, lo, width⟩ + n) (2 ^ width - 1))) ∧
    (fl.gate ≠ .engine → (∀ b, fl.gate = .commit b → s.tally.beat < b) → exec (.engineCompletion strand tag) s = .next s)

/-- When a strand issues the instruction, exec answers a next state in which: after TOPEN of a name that the act has, the handle names
that tile, and with AT_LOAD and a packed tile an expansion of it knows the handle; after TSAVE the tile has its name, or where it had none
the lowest that the act does not use, which the instruction in flight gives sD; with PACK, for contents that compress where packing is on
and the pool has room, the instruction in flight also gives the tile its packed stream as its new home in the pool; after TFREE the
instruction in flight drops the handle; after TDROP the tile is marked to be deleted; after TPLACE it has the preference TIER. No tile's
contents and, but for PACK's stream and the demotions of a crew store that an expansion leaves short, no byte of memory change. (R89, R158, R160, R293, R296, R298, R306) -/
def Obligations.TileNames : Prop :=
  ∀ (o : Insn) (s : State) (t : Strand) (j : Job) (x : Tile), s.tile? x.id = some x →
    let named := s.tileNamed j.act (t.getS o.a).toNat = some x
    let flight := fun (u : State) (h : Option Nat) => (u.strand? o.strand).map (fun v => v.inflight.length) = some (t.inflight.length + 1) ∧
      (u.anyStrand? o.strand).map (fun v => v.getT o.dst) = some h
    let spare := s.crewUse j.act + 4096 + 2 ^ 20 ≤ s.rd (F.memQCrew_kib j.act) * 1024 ∧
      allocSum (fun _ => true) (allocsIn (crewAddr t.crew 0) (crewAddr t.crew crewLen) s.fil.allocs) + 4096 + 2 ^ 20 ≤ crewLen
    (Issues s Form.movTopen o t j → named → CompletesWith (exec (.movTopen o) s) fun u => flight u (some x.id) ∧
      ((o.fld 0 1 = 1 → x.packed = true → spare) → u.mem = s.mem) ∧
      (o.fld 0 1 = 1 → x.packed = true → ∃ e ∈ u.fil.expansions, e.tile = x.id ∧ (o.strand, o.dst) ∈ e.handles)) ∧
    (let name := s.savedName x
     Issues s Form.movTsave o t j → t.getT o.a = some x.id →
      (o.fld 0 1 = 0 → CompletesWith (exec (.movTsave o) s) fun u =>
        InFlight s u o t [.setS o.dst (BitVec.ofNat 64 name)] ∧ u.tile? x.id = some (x.withName name) ∧ u.mem = s.mem) ∧
      (∀ (v : TileVal) (b : List Byte) (a : Nat), o.fld 0 1 = 1 → AtRest s t o.a x v → v.info = none → packTile v.data = some b →
        s.on F.memCtrl_packEn = true → PoolRoomAt s t j b.length a →
        CompletesWith (exec (.movTsave o) s) fun u => (∃ y : Tile, InFlight s u o t [.tile y, .setS o.dst (BitVec.ofNat 64 name)] ∧
          y.id = x.id ∧ y.val v.data = v ∧ y.crc = x.crc ∧ y.home = a ∧ y.len = b.length ∧ y.packed = true) ∧
          (u.tile? x.id).map Tile.still = some (x.withName name).still ∧ Stores s u a b)) ∧
    (Issues s Form.movTfree o t j → t.clear [] [.t o.a] = true → CompletesWith (exec (.movTfree o) s) fun u =>
      Engages s u o t [.dropT o.a]) ∧
    (Issues s Form.movTdrop o t j → named → CompletesWith (exec (.movTdrop o) s) fun u => InFlight s u o t [] ∧
      u.tile? x.id = some { x with dropping := true } ∧ u.mem = s.mem) ∧
    (Issues s Form.movTplace o t j → t.getT o.a = some x.id → CompletesWith (exec (.movTplace o) s) fun u => InFlight s u o t [] ∧
      u.tile? x.id = some { x with pref := o.fld 0 2 } ∧ u.mem = s.mem)

/-- When its event comes: an expansion that has a home and is not finished is finished, and its home holds the tile's raw contents; a tile
marked to be deleted that no handle and no expansion names is gone, and nothing but tiles and their homes changes; a move whose target
reads back with the tile's checksum flips, and the tile's home is the target, with its contents as recorded and one more flip counted; a
move whose target reads back with another checksum is abandoned, and the tile stays at its home; the source of a flipped move, and the old
home of a rewritten tile, are released. (R158, R291, R293, R294, R295, R298) -/
def Obligations.TileMoves : Prop :=
  (∀ (tile a : Nat) (s : State) (e : Expansion) (x : Tile) (raw : List Byte), s.fil.expansions.find? (fun e => e.tile == tile) = some e →
    s.tile? tile = some x → e.home = some a → e.done = false → s.homeVia 1 x.home x.len x.packed = (.inr raw, s) → s.mem.wf = true →
    Writable s a raw.length → CompletesWith (exec (.expansionComplete tile) s) fun u =>
      u.fil.expansions.find? (fun e => e.tile == tile) = some { e with home := some a, done := true } ∧ Stores s u a raw ∧
      u.fil.tiles = s.fil.tiles ∧ u.fil.strands = s.fil.strands) ∧
  (∀ (tile : Nat) (s : State) (x : Tile), s.tile? tile = some x → x.dropping = true → s.named tile = false →
    (∀ e ∈ s.fil.expansions, e.tile ≠ tile) → CompletesWith (exec (.tileDelete tile) s) fun u => u.tile? tile = none ∧ TilesOnly s u) ∧
  (∀ (id : Nat) (s : State) (m : TierMove) (x : Tile) (raw : List Byte),
    s.fil.moves.find? (fun m => m.id == id && !m.flipped) = some m → s.tile? m.tile = some x →
    s.homeRaw 3 m.target m.len m.packed = (.inr raw, s) →
    ((x.val raw).crc = x.crc → CompletesWith (exec (.tierMoveFlip id) s) fun u =>
      u.tile? m.tile = some { x with home := m.target, len := m.len, packed := m.packed } ∧ u.mem = s.mem ∧
      u.ctr 0x704 = (s.ctr 0x704 + 1) % 2 ^ 64 ∧ TilesOnly s u) ∧
    ((x.val raw).crc ≠ x.crc → CompletesWith (exec (.tierMoveFlip id) s) fun u =>
      u.tile? m.tile = some x ∧ (∀ k ∈ u.fil.moves, k.id ≠ id) ∧ TilesOnly s u)) ∧
  (∀ (id : Nat) (s : State), CompletesWith (exec (.tierSourceRelease id) s) fun u =>
    (∀ m ∈ u.fil.moves, m.id = id → m.flipped = false) ∧ (∀ k ∈ u.fil.allocs, k.kind ≠ .old id) ∧ TilesOnly s u) ∧
  (∀ (id : Nat) (s : State), (∀ m ∈ s.fil.moves, m.id ≠ id) → CompletesWith (exec (.tileHomeRelease id) s) fun u =>
    (∀ k ∈ u.fil.allocs, k.kind ≠ .old id) ∧ TilesOnly s u)

/-- Each contributor of a complete HEW.ORED slot, one after another, is an instruction in flight with one handle to write, for which a new
tile with the result has a place. -/
def Sys2Proof.Claims.Placed (v : TileVal) : List Contrib → State → Prop
  | [], _ => True
  | c :: l, w => (∃ (t : Strand) (j : Job) (f : Inflight) (n : Nat), w.strand? c.strand = some t ∧ w.job? t.job = some j ∧
      t.flight? c.tag = some f ∧ f.writes = [.t n] ∧ (w.makeTile j.act t.crew v false).1.isSome = true) ∧
    Sys2Proof.Claims.Placed v l (w.oredResult v c)

/-- For a strand that issues SYN.ORED with a work index below N that its slot does not hold, in a slot that is new or has the same N and
OP: while contributions are missing, exec answers a next state in which the strand waits and the slot holds the contribution; the last one
writes, to sD of each contributor, the reduction tree of R91 over the values in work-index order, lets every contributor go on and closes
the slot. HEW.ORED of an FP32 tile keeps the contribution (its values with one zero and one NaN) while others are missing, with the
instruction in flight; the last one does the same and then gives the slot's result to every contributor: where each of their new tiles has
a place, each can complete, and will bind its own handle to a new tile whose checksum, format and shape are those of the result, the tree
of R91 over the tiles in work-index order; with N = 1 that is a tile with the values themselves. ORED_SLOT_TIMEOUT: once ACT_CTRL.FENCE_LIMIT
beats have passed for an incomplete slot, the job of its first contributor ends with status 0x0012, detail FENCE_TIMEOUT; before that, or
with the limit 0, it changes nothing. Nothing else of any strand changes, nor anything outside strands, slots and tiles, but for a
timeout's fault registers. (R91, R92, R53) -/
def Obligations.OrderedReductions : Prop :=
  (∀ (o : Insn) (s : State) (t : Strand) (j : Job),
    let e := (o.ext.getD 0 0#64).toNat
    let n := bits e 0 16
    let slot := bits e 16 4
    let idx := (t.getS o.b).toNat
    let opened := fun (hew : Bool) (op shape : Nat) => (s.ored? j.id hew slot).getD ⟨j.id, hew, slot, n, op, 0, shape, s.tally.beat, []⟩
    let fits := fun (r : Ored) (op shape : Nat) => idx < n ∧ r.n = n ∧ r.op = op ∧ r.fmt = 0 ∧ r.shape = shape ∧ ∀ c ∈ r.contribs, c.idx ≠ idx
    (let r := opened false (bits e 20 2) 0
     let c : Contrib := ⟨idx, [(t.getS o.a).toNat], t.id, o.dst⟩
     let all := r.contribs ++ [c]
     let value := BitVec.ofNat 64 (treeReduce (oredOp (bits e 20 2)) 0
       ((sortBy (fun (a b : Contrib) => decide (a.idx < b.idx)) all).map fun c => c.vals.headD 0))
     Issues s Form.synOred o t j → fits r (bits e 20 2) 0 →
      (all.length ≠ n → CompletesWith (exec (.synOred o) s) fun u =>
        u.strand? o.strand = some { t.after o with wait := .ored slot o.dst, since := s.tally.beat } ∧
        (∀ k, k ≠ o.strand → u.anyStrand? k = s.anyStrand? k) ∧ u.ored? j.id false slot = some { r with contribs := all } ∧
        { u with fil := { u.fil with strands := s.fil.strands, oreds := s.fil.oreds } } = s) ∧
      (all.length = n → (all.map (·.strand)).Nodup → CompletesWith (exec (.synOred o) s) fun u =>
        u.strand? o.strand = some { (t.after o).setS o.dst value with since := s.tally.beat } ∧
        (∀ d ∈ r.contribs, ∀ v, s.strand? d.strand = some v → u.strand? d.strand = some { v.setS d.tag value with wait := .no }) ∧
        (∀ k, (∀ d ∈ all, d.strand ≠ k) → u.anyStrand? k = s.anyStrand? k) ∧ u.ored? j.id false slot = none ∧
        { u with fil := { u.fil with strands := s.fil.strands, oreds := s.fil.oreds } } = s)) ∧
    (∀ (x : Tile) (v : TileVal) (a : Nat), Issues s Form.hewOred o t j → AtRest s t o.a x v → NotPromoted s t x → x.fmt = 0 →
      let r := opened true 0 x.shape
      let values := (codesOf 0 v.data).map (tidy 0)
      fits r 0 x.shape →
      (r.contribs.length + 1 ≠ n → CompletesWith (exec (.hewOred o) s) fun u =>
        (∃ fl : Inflight, fl.gate = .ored slot ∧ fl.effects = [] ∧
          u.strand? o.strand = some { t.after o with inflight := t.inflight ++ [fl] } ∧
          u.ored? j.id true slot = some { r with contribs := r.contribs ++ [⟨idx, values, t.id, fl.tag⟩] }) ∧
        (∀ k, k ≠ o.strand → u.anyStrand? k = s.anyStrand? k) ∧ u.mem = s.mem ∧
        ∀ off, off ≠ F.cruAtuseCount_count.off → u.reg off = s.reg off) ∧
      (r.contribs.length + 1 = n → CompletesWith (exec (.hewOred o) s) fun u => ∃ (w : State) (fl : Inflight),
        let all := r.contribs ++ [⟨idx, values, t.id, fl.tag⟩]
        fl.gate = .ored slot ∧ fl.effects = [] ∧ fl.writes = [.t o.dst] ∧
        w.strand? o.strand = some { t.after o with inflight := t.inflight ++ [fl] } ∧
        (∀ k, k ≠ o.strand → w.anyStrand? k = s.anyStrand? k) ∧ w.mem = s.mem ∧ w.fil.allocs = s.fil.allocs ∧
        w.ored? j.id true slot = some { r with contribs := all } ∧
        u = all.foldl (State.oredResult (plainTile 0 x.shape (ofCodes 0 (treeReduce (List.zipWith fadd) []
          ((sortBy (fun (a b : Contrib) => decide (a.idx < b.idx)) all).map fun c => c.vals))))) w) ∧
      (n = 1 → r.contribs = [] → (∀ f ∈ t.inflight, f.tag ≠ s.nextId) → RoomAt s.fresh t j (plainTile 0 x.shape (ofCodes 0 values)).data.length a →
        CompletesWith (exec (.hewOred o) s) fun u => MakesTile s u o t (plainTile 0 x.shape (ofCodes 0 values)) a))) ∧
  (∀ (w : State) (v : TileVal) (l : List Contrib), (l.map fun c => (c.strand, c.tag)).Nodup → (∀ x ∈ w.fil.tiles, x.id < w.nextId) →
    w.rd F.memFlipCtrl_arm = 0 → Sys2Proof.Claims.Placed v l w → ∀ c ∈ l, ∀ (t : Strand) (f : Inflight), w.strand? c.strand = some t →
    t.flight? c.tag = some f → ∃ (t' : Strand) (n id : Nat) (y : Tile), (l.foldl (State.oredResult v) w).strand? c.strand = some t' ∧
      f.writes = [.t n] ∧ t'.flight? c.tag = some { f with gate := .engine, effects := f.effects ++ [.bindT n id] } ∧
      (l.foldl (State.oredResult v) w).tile? id = some y ∧ w.tile? id = none ∧ y.crc = v.crc ∧ y.fmt = v.fmt ∧ y.shape = v.shape) ∧
  ∀ (job slot : Nat) (hew : Bool) (s : State) (r : Ored) (j : Job) (c : Contrib) (l : List Contrib) (t : Strand),
    s.ored? job hew slot = some r → s.job? job = some j → r.contribs = c :: l → r.contribs.length ≠ r.n →
    s.anyStrand? c.strand = some t → t.job = job →
    let limit := s.rd (F.actCtrl_fenceLimit j.act)
    (limit ≠ 0 → r.since + limit ≤ s.tally.beat → j.status = 0 → CompletesWith (exec (.oredSlotTimeout job hew slot) s) fun u =>
      (∀ v ∈ u.fil.strands, v.job = job → v.ended = true) ∧
      (∃ k, u.job? job = some k ∧ k.status = 0x12 ∧ k.detail = cFence) ∧ u.mem = s.mem) ∧
    (limit = 0 ∨ s.tally.beat < r.since + limit → exec (.oredSlotTimeout job hew slot) s = .next s)

/-- When a strand issues the instruction on LIST tiles at rest and the crew store has room, exec answers a next state in which a new list
tile holds: for TOPK, of every lane (or of all lanes as one) each identifier once, by the merge rule, the best K of them, and LEFT more by
the exact sum of the others; for MERGE, the same of each pair of lanes. For SUMS the instruction in flight gives sD the once-rounded exact
sums of the lane's entries and, above it, of what it left. No other byte of memory, no other tile, no register of the strand and no other
strand changes. (R220, R221, R222, R223, R182) -/
def Obligations.ListResults : Prop :=
  ∀ (o : Insn) (s : State) (t : Strand) (j : Job) (x y : Tile) (v w : TileVal) (l m : ListInfo) (a : Nat),
    AtRest s t o.a x v → x.fmt = 8 → v.info = some l →
    let k := o.fld 0 13
    let lanes := fun (v : TileVal) (l : ListInfo) => if o.fld 13 1 = 1 then lanesOf v l else [oneLane (lanesOf v l)]
    let list := fun ls => listTile l.kind k (ls.map fun e : JigLane => e.1) (ls.map fun e : JigLane => e.2) none
    let top := list ((lanes v l).map fun e => mergeLane l.kind k e ([], false, false, Acc320.zero))
    let merged := list (List.zipWith (mergeLane l.kind k) (lanes v l) (lanes w m))
    (Issues s Form.jigTopk o t j → RoomAt s t j top.data.length a → CompletesWith (exec (.jigTopk o) s) fun u => MakesTile s u o t top a) ∧
    (Issues s Form.jigMerge o t j → AtRest s t o.b y w → y.fmt = 8 → w.info = some m → m.kind = l.kind → m.dirs.length = l.dirs.length →
      RoomAt s t j merged.data.length a → CompletesWith (exec (.jigMerge o) s) fun u => MakesTile s u o t merged a) ∧
    (∀ d, Issues s Form.jigSums o t j → l.dirs[o.fld 0 3]? = some d → CompletesWith (exec (.jigSums o) s) fun u =>
      Engages s u o t [.setS o.dst (BitVec.ofNat 64
        ((exactAcc ((laneEntries v l (o.fld 0 3)).map fun e => distTerm l.kind e.dist)).round + 2 ^ 32 * d.left.round))])

/-- When a strand whose snapshot in s62 is one that its node has and still answers issues SLU.SCAN on an empty view or on a readable side
list, with every slot of its cage loaded with its CODE and SUBQ8, exec answers a next state in which a new list tile holds, lane by lane,
the survivors of the entries whose commit beat is at most the snapshot, that pass the slot's filter (with FILTER) and whose distance is at
most its threshold; the lanes that overflow are counted at the completion point. For IDX.TOMB the new list holds the entries of tA, with
their beats, that no tombstone of the view with a commit beat at most the snapshot removes. For IDX.ROUTE with a readable query, the new
list holds the NPROBE seams that R191's walk of the snapshot's graph finds, nearest first, each with its home. For IDX.OPEN of a seam that
the node holds in the snapshot's graph, not retired, with a version of a cut at most the snapshot, the instruction in flight gives dD the
VIEW of that version (codes, attributes, or the side entries or tombstones after its watermark) and sets PRES, and the job is entered as a
reader; where the snapshot is too old or the seam is not so held, it gives dD zero and clears PRES. No other byte of memory, no other
tile, no register of the strand and no other strand changes. (R97, R98, R173, R178, R184, R191, R201, R218, R219, R511, R512) -/
def Obligations.ScanResults : Prop :=
  (∀ (o : Insn) (s : State) (t : Strand) (j : Job) (a : Nat),
    let snap := (t.getS 62).toNat
    snap ≤ s.tally.stable → s.oldest j.act ≤ snap →
    (∀ (qs : List Slot) (b : List Byte), Issues s Form.sluScan o t j → t.clear (cageReads o) [] = true →
      (List.range (o.fld 0 4)).map t.getQ = qs.map some → (∀ q ∈ qs, q.code = o.fld 4 2 ∧ q.subq8 = (o.fld 6 1 == 1)) →
      let d := decodeDsc (t.getD o.a)
      (if d.len = 0 then Usable (t.getD o.a) [0] false true ∧ b = [] else OnBlocks (t.getD o.a) ∧ ReadsView s j (t.getD o.a) d.len b) →
      let cs := if d.len = 0 then ([], 0) else sideCands s d.base b (d.len / 128) snap
      let v := scanList s.self (o.fld 8 13) (o.fld 7 1 == 1) qs cs.1
      RoomAt s t j v.data.length a → CompletesWith (exec (.sluScan o) s) fun u =>
        MakesTile s u o t v a [.telem 0x406 (overflows v), .telem 0x407 cs.2]) ∧
    (∀ (x : Tile) (v : TileVal) (l : ListInfo) (bs : List (List (Option Nat))) (b : List Byte), Issues s Form.idxTomb o t j →
      t.clear [.s 62] [] = true → AtRest s t o.a x v → x.fmt = 8 → v.info = some l → l.beats = some bs →
      let d := decodeDsc (t.getD o.b)
      (if d.len = 0 then Usable (t.getD o.b) [0] false true ∧ b = [] else ReadsView s j (t.getD o.b) d.len b) →
      let tombs := (tombsOf b).filter fun x => decide (x.commit ≤ snap)
      let kept := (lanesOf v l).zipIdx.map fun e => (e.1.1.zip (bs.getD e.2 [])).filter fun e => !tombed tombs e.1.id e.2
      let out := listTile l.kind l.stride (kept.map fun e => e.map (·.1)) ((lanesOf v l).map (·.2)) (some (kept.map fun e => e.map (·.2)))
      RoomAt s t j out.data.length a → CompletesWith (exec (.idxTomb o) s) fun u => MakesTile s u o t out a) ∧
    (∀ (i : Index) (q : List Nat), Issues s Form.idxRoute o t j → s.index? j.act = some i → VectorAt s t j o.a i.dim q →
      t.clear (.s 62 :: (vecHandles o.a i.dim).map Res.t) [] = true →
      let found := match i.graphAt snap with
        | some g => i.route g q (o.fld 0 12) (·.retiredAt snap)
        | none => []
      let out := listTile 1 (o.fld 0 12) [found.map fun x => ⟨x.1, 0, x.2.homeAt snap, 0, x.2.seam, 0⟩] [(false, false, Acc320.zero)] none
      RoomAt s t j out.data.length a → CompletesWith (exec (.idxRoute o) s) fun u => MakesTile s u o t out a) ∧
    (∀ (i : Index) (g : Graph) (r : HfRec) (x : Seam) (v : Version), Issues s Form.idxOpen o t j → t.clear [.s 62] (presWrites o) = true →
      let seam := (t.getS o.a).toNat
      s.index? j.act = some i → i.graphAt snap = some g → g.rec? seam = some r → i.seam? seam = some x → r.homeAt snap = s.self →
      r.retiredAt snap = false → x.versions.find? (fun v => decide (v.cut ≤ snap ∧ v.publish ≤ s.tally.beat)) = some v →
      let view := if o.fld 0 2 = 0 then (v.codeAt, v.npad * i.codeBytes) else if o.fld 0 2 = 1 then (v.attrAt i, v.npad * i.attrRatio)
        else if o.fld 0 2 = 2 then (x.recAt false v.sideSeq, (x.nextSide - v.sideSeq) * 128)
        else (x.recAt true v.tombSeq, (x.nextTomb - v.tombSeq) * 32)
      CompletesWith (exec (.idxOpen o) s) fun u => InFlight s u o t (.setD o.dst (encodeDsc view.1 view.2 true) :: setPres o true) ∧
        u.idx.opened = s.idx.opened ++ [(j.id, view.1, view.2)] ∧
        (∃ y, (u.index? j.act).bind (·.seam? seam) = some y ∧ j.id ∈ y.side.readers ∧ j.id ∈ y.tomb.readers ∧
          ∃ w ∈ y.versions, w.num = v.num ∧ j.id ∈ w.readers) ∧
        { u with idx := s.idx, nextId := s.nextId, fil := { u.fil with strands := s.fil.strands } } = s)) ∧
  ∀ (o : Insn) (s : State) (t : Strand) (j : Job), Issues s Form.idxOpen o t j → t.clear [.s 62] (presWrites o) = true →
    (t.getS 62).toNat ≤ s.tally.stable → s.visible j.act (t.getS o.a).toNat (t.getS 62).toNat = none →
    CompletesWith (exec (.idxOpen o) s) fun u => InFlight s u o t (.setD o.dst 0#128 :: setPres o false) ∧
      { u with nextId := s.nextId, fil := { u.fil with strands := s.fil.strands } } = s

/-- When a strand whose snapshot in s62 its node has issues SLU.DIST with a readable query: for a numeric tile at rest, exec answers a
next state in which a new FP32 row tile holds the distance of METRIC to every row. For a list of estimates with a query slot q0 of that
metric, not forced and not late, with an entry whose vector is still needed, the instruction is in flight and a rerank holds the query,
the entries, and q0's scale and bias, with no vector arrived. When the vector that this node served arrives, or one from another node, it
is held; with the last one, the result tile holds the entries with their exact distances in order, its checksum is theirs, and the
instruction can complete. (R127, R201, R202, R224, R225, R330) -/
def Obligations.DistanceResults : Prop :=
  (∀ (o : Insn) (s : State) (t : Strand) (j : Job) (y : Tile) (w : TileVal) (q : List Nat) (a : Nat), Issues s Form.sluDist o t j →
    (t.getS 62).toNat ≤ s.tally.stable → AtRest s t o.b y w →
    (let cols := shapeCols y.fmt y.shape
     let out := tileDistances (o.fld 0 2) q w
     isNumeric y.fmt = true → VectorAt s t j o.a cols q → t.clear (.s 62 :: (vecHandles o.a cols).map Res.t) [] = true →
      RoomAt s t j out.data.length a → CompletesWith (exec (.sluDist o) s) fun u => MakesTile s u o t out a) ∧
    (∀ (i : Index) (l : ListInfo) (q0 : Slot), y.fmt = 8 → w.info = some l → l.kind = 0 → l.dirs.length = 1 →
      s.index? j.act = some i → VectorAt s t j o.a i.dim q → t.clear (.q 0 :: .s 62 :: (vecHandles o.a i.dim).map Res.t) [] = true →
      t.getQ 0 = some q0 → q0.metric = o.fld 0 2 → bitOf j.desc.flags 6 = false → s.late j = false →
      let es := laneEntries w l 0
      (∃ e ∈ es, bitOf e.flags 1 = false) → (∀ r ∈ s.idx.reranks, r.id ≠ s.nextId + 1) →
      let blank := listTile 1 l.stride [es] [(false, false, Acc320.zero)] none
      RoomAt s t j blank.data.length a → CompletesWith (exec (.sluDist o) s) fun u =>
        ∃ (r : Rerank) (fl : Inflight), u.idx.reranks = s.idx.reranks ++ [r] ∧ r.query = q ∧ r.entries = es.map Entry.bytes ∧
          r.scale = q0.scale ∧ r.bias = q0.bias ∧ r.metric = q0.metric ∧ r.cut = none ∧ (∀ f ∈ r.fetches, f.served = false ∧ f.vec = none) ∧
          r.fetches.length = es.length ∧ r.tag = fl.tag ∧ r.strand = t.id ∧
          fl.gate = .rerank r.id ∧ fl.effects = [.bindT o.dst r.tile] ∧
          u.strand? o.strand = some { t.after o with inflight := t.inflight ++ [fl] } ∧
          (∀ k, k ≠ o.strand → u.anyStrand? k = s.anyStrand? k) ∧ Stores s u a blank.data)) ∧
  ∀ (s : State) (r : Rerank) (pos : Nat) (f : Fetch) (vec : Option (List Byte)) (cached : Bool),
    s.idx.reranks.find? (·.id == r.id) = some r → r.fetches[pos]? = some f → f.arrived = false →
    let e := entryAt (r.entries.getD pos []) 0
    let g : Fetch := if e.node = s.self then { f with arrived := true } else ⟨true, true, vec, cached⟩
    let r' := { r with fetches := r.fetches.set pos g }
    (e.node = s.self → f.served = true) →
    (r'.complete = false → CompletesWith (exec (.rerankFetchArrive r.id pos vec cached) s) fun u =>
      u.idx.reranks.find? (·.id == r.id) = some r' ∧ { u with idx := { u.idx with reranks := s.idx.reranks } } = s) ∧
    (∀ (i : Index) (x : Tile), r'.complete = true → r.cut = none → s.index? r.act = some i → s.tile? r.tile = some x →
      let list := listTile 1 r.stride [sortBy (Entry.before 1) ((List.range r.entries.length).map (r'.score i))]
        [(false, false, Acc320.zero)] none
      Writable s x.home list.data.length → s.mem.wf = true → s.rd F.pwrStackState_inP3 = 0 →
      CompletesWith (exec (.rerankFetchArrive r.id pos vec cached) s) fun u =>
        Stores s u x.home list.data ∧ u.tile? r.tile = some { x with crc := list.crc, info := list.info } ∧
        u.idx.reranks.find? (·.id == r.id) = none ∧
        ∀ v : Strand, s.strand? r.strand = some v → ∃ v', u.strand? r.strand = some v' ∧
          v' = { v with inflight := v'.inflight } ∧ v'.inflight = v.inflight.map fun fl => if fl.tag = r.tag then { fl with gate := .engine } else fl)

/-- RERANK_FETCH_SERVE, unless a perturbation holds fetches or the flash is stopped and no cache copy gives the vector: for another node's rerank, what the serving gives (a vector or its loss, and
whether a cache copy gave it) is offered to the link of the route to that node; for a rerank of this node whose entry is its own and not
yet served, it is held in the rerank as served. SNAPSHOT_WAIT_RELEASE of a strand that waits with an SLU.SCAN, SLU.DIST, IDX.OPEN,
IDX.ROUTE or IDX.TOMB for a snapshot that is now stable counts the beats of waiting and then runs that instruction as a strand that waits
for nothing; before that it changes nothing. (R224, R330, R201, R230) -/
def Obligations.VectorFetches : Prop :=
  (∀ (node act loc id pos : Nat) (media : List Nat) (s : State), s.fun_.fetchHold ≤ s.tally.beat →
    (node ≠ s.self → let got := s.serveVec act loc media
      ∀ l, (s.flash.quiet = true → got.1.2 = true) → got.2.adtRefresh.linkFor got.2.adtRefresh.self node = some l →
      CompletesWith (exec (.rerankFetchServe node act loc id pos media) s) fun u =>
        Offered u l act 2 (.vector node id pos got.1.1 got.1.2) ∧ MediaOnly s u) ∧
    (∀ (r : Rerank) (f : Fetch), node = s.self → s.idx.reranks.find? (·.id == id) = some r → r.fetches[pos]? = some f →
      f.served = false → f.arrived = false → (entryAt (r.entries.getD pos []) 0).node = s.self →
      let got := s.serveVec r.act (entryAt (r.entries.getD pos []) 0).loc media
      (s.flash.quiet = true → got.1.2 = true) →
      CompletesWith (exec (.rerankFetchServe node act loc id pos media) s) fun u =>
        u.idx.reranks.find? (·.id == id) =
          some { r with fetches := r.fetches.set pos { f with served := true, vec := got.1.1, cached := got.1.2 } } ∧
        MediaOnly s { u with idx := { u.idx with reranks := s.idx.reranks } })) ∧
  ∀ (strand c f : Nat) (o : Insn) (s : State) (t : Strand), s.strand? strand = some t → t.wait = .snapshot c f o →
    (s.tally.stable < (t.getS 62).toNat → exec (.snapshotWaitRelease strand) s = .next s) ∧
    ((t.getS 62).toNat ≤ s.tally.stable →
      let w := (s.modStrand strand fun u => { u with wait := .no }).count 0x40B (s.tally.beat - t.since)
      (c = 6 → f = 0 → exec (.snapshotWaitRelease strand) s = exec (.sluScan o) w ∧
        (Form.sluScan.ok o = true → Completes (exec (.snapshotWaitRelease strand) s))) ∧
      (c = 6 → f = 1 → exec (.snapshotWaitRelease strand) s = exec (.sluDist o) w ∧
        (Form.sluDist.ok o = true → Completes (exec (.snapshotWaitRelease strand) s))) ∧
      (c = 9 → f = 0 → exec (.snapshotWaitRelease strand) s = exec (.idxOpen o) w ∧
        (Form.idxOpen.ok o = true → Completes (exec (.snapshotWaitRelease strand) s))) ∧
      (c = 9 → f = 1 → exec (.snapshotWaitRelease strand) s = exec (.idxRoute o) w ∧
        (Form.idxRoute.ok o = true → Completes (exec (.snapshotWaitRelease strand) s))) ∧
      (c = 9 → f = 5 → exec (.snapshotWaitRelease strand) s = exec (.idxTomb o) w ∧
        (Form.idxTomb.ok o = true → Completes (exec (.snapshotWaitRelease strand) s))))

/-- When a strand of an act with an index issues the instruction, exec answers a next state with the instruction in flight, whose
completion will: for BUILD, with CODE and SUBQ8 of the index, a readable query and a readable codebook from which a slot can be built, put
that slot into qD; for LOAD of an aligned readable image that is a slot of the index, put that slot into qD; for FILTER of a loaded slot
with an aligned readable predicate that is one of Table 6.7, give the slot that filter; for THRESH give it sA bits 31 to 0 as threshold;
for STORE write the slot's image to the view. Nothing else changes. (R176, R177, R178, R179, R39, R202) -/
def Obligations.SlotResults : Prop :=
  ∀ (o : Insn) (s : State) (t : Strand) (j : Job) (i : Index),
    (∀ (q : List Nat) (b : List Byte) (slot : Slot), Issues s Form.tblBuild o t j → s.index? j.act = some i →
      t.clear ((vecHandles o.a i.dim).map Res.t) [] = true → o.fld 0 2 = i.code → (o.fld 2 1 == 1) = i.subq8 →
      VectorAt s t j o.a i.dim q →
      ReadsView s j (t.getD o.b) (nsubOf i.code i.subq8 * ksOf i.subq8 * (i.dim / nsubOf i.code i.subq8) * 4) b →
      buildSlot i q (codesOf 0 b) = some slot → CompletesWith (exec (.tblBuild o) s) fun u => Engages s u o t [.setQ o.dst slot]) ∧
    (∀ (b : List Byte) (slot : Slot), Issues s Form.tblLoad o t j → s.index? j.act = some i → OnBlocks (t.getD o.a) →
      ReadsView s j (t.getD o.a) i.slotLen b → readSlot i b = some slot →
      CompletesWith (exec (.tblLoad o) s) fun u => Engages s u o t [.setQ o.dst slot]) ∧
    (∀ (b : List Byte) (slot : Slot), Issues s Form.tblFilter o t j → t.getQ o.dst = some slot → OnBlocks (t.getD o.a) →
      ReadsView s j (t.getD o.a) 128 b → filterOk b = true →
      CompletesWith (exec (.tblFilter o) s) fun u => Engages s u o t [.setQ o.dst { slot with filter := b }]) ∧
    (∀ slot : Slot, Issues s Form.tblThresh o t j → t.getQ o.dst = some slot →
      CompletesWith (exec (.tblThresh o) s) fun u => Engages s u o t [.setQ o.dst { slot with thresh := (t.getS o.a).toNat % 2 ^ 32 }]) ∧
    (∀ slot : Slot, Issues s Form.tblStore o t j → t.getQ o.a = some slot →
      let d := decodeDsc (t.getD o.dst)
      Usable (t.getD o.dst) [0] true → slot.image.length ≤ d.len → OnBlocks (t.getD o.dst) → MayUse s j .write d.base slot.image.length →
      CompletesWith (exec (.tblStore o) s) fun u => Engages s u o t [.mem 0 d.base slot.image])

/-- When a strand issues WNZ.BAG, WNZ.UPD or WNZ.GATHER that names a table of its act with no swap and no undefinition pending, with
operands that pass R96 and R232 (and for UPD an optimiser that the format accepts), exec answers a next state in which the operation
stands at the dispatcher with its operands' ranges, the table's version and extent, and no list read, and the instruction in flight waits
for it; nothing else changes. WNZ.SCAN, with its slots loaded and its code and attribute views empty, or aligned, granted, in the stack
view of one stack and of matching lengths, and with room for its list, does the same with the two ranges as sources, one part of as many
entries as the code view holds, and a new tile that takes the output. (R96, R97, R232, R233, R268, R270, R241) -/
def Obligations.WinzeIssue : Prop :=
  ∀ (o : Insn) (s : State) (t : Strand) (j : Job),
    let d := decodeDsc (t.getD o.a)
    let e := decodeDsc (t.getD o.dst)
    (∀ tb : Table, s.table? j.act (o.fld 0 8) = some tb → tb.swap = none → tb.undef = none → WinzeOperand s j (t.getD o.a) .read true →
      let names := fun (u : State) (f : Form) (op : WnzOp) => Dispatched s u o t j f op [] ∧ op.table = tb.num ∧ op.version = tb.version ∧
        op.base = tb.base ∧ op.len = tb.len ∧ op.rowBytes = tb.rowBytes ∧ op.listed = false ∧ op.parts = [] ∧
        { u with nextId := s.nextId, wnz := s.wnz, fil := { u.fil with strands := s.fil.strands } } = s
      (Issues s Form.wnzBag o t j → WinzeOperand s j (t.getD o.dst) .write true → CompletesWith (exec (.wnzBag o) s) fun u =>
        ∃ op, names u Form.wnzBag op ∧ op.srcs = [(d.base, d.len), (tb.base, tb.len)] ∧ op.dsts = [(e.base, e.len)]) ∧
      (Issues s Form.wnzGather o t j → WinzeOperand s j (t.getD o.dst) .write true → CompletesWith (exec (.wnzGather o) s) fun u =>
        ∃ op, names u Form.wnzGather op ∧ op.srcs = [(d.base, d.len), (tb.base, tb.len)] ∧ op.dsts = [(e.base, e.len)]) ∧
      (Issues s Form.wnzUpd o t j → optAccepts (o.fld 8 4) tb.fmt = true → CompletesWith (exec (.wnzUpd o) s) fun u =>
        ∃ op, names u Form.wnzUpd op ∧ op.srcs = [(d.base, d.len)] ∧ op.dsts = [(tb.base, tb.len)])) ∧
    (∀ (qs : List Slot) (a : Nat), Issues s Form.wnzScan o t j → t.clear ((List.range (o.fld 0 4)).map Res.q) [] = true →
      (List.range (o.fld 0 4)).map t.getQ = qs.map some → (∀ q ∈ qs, q.code = o.fld 4 2 ∧ q.subq8 = (o.fld 6 1 == 1)) →
      let b := decodeDsc (t.getD o.b)
      let n := d.len / (16 * 2 ^ o.fld 4 2)
      (if d.len = 0 then b.len = 0 ∧ Usable (t.getD o.a) [0] false true ∧ Usable (t.getD o.b) [0] false true else
        WinzeOperand s j (t.getD o.a) .read false ∧ WinzeOperand s j (t.getD o.b) .read false ∧ stackView ≤ d.base ∧ stackView ≤ b.base ∧
        stackOf d.base = stackOf b.base ∧ d.len % (16 * 2 ^ o.fld 4 2) = 0 ∧ (b.len = 26 * n ∨ b.len = 30 * n)) →
      let blank := scanList s.self (o.fld 8 13) false qs []
      RoomAt s t j blank.data.length a → CompletesWith (exec (.wnzScan o) s) fun u =>
        ∃ (op : WnzOp) (x : Tile), Dispatched s u o t j Form.wnzScan op [.bindT o.dst x.id] ∧ op.tile = x.id ∧ u.tile? x.id = some x ∧
          x.home = a ∧ x.act = j.act ∧ s.tile? x.id = none ∧ op.slots = qs ∧ op.listed = true ∧
          op.srcs = (if d.len = 0 then [] else [(d.base, d.len), (b.base, b.len)]) ∧
          op.parts.map (fun p => (p.stack, p.count)) = (if d.len = 0 then [] else [(stackOf d.base, n)]) ∧
          (∀ c, s.cutAt j.act d.base = some c → op.cut = c) ∧ u.mem = s.mem)

/-- When its event comes for the first unregistered operation of its strand and its ranges fit, an operation without a list to read is
registered, with the next order number and the current beat, each stack that it touches takes the next sequence number, which the
operation keeps, and nothing else changes. A listed part goes to its stack's queue with its command where the queue has room and does not
drain. A command with a wrong length or CRC is counted and changes nothing else; the right one arrives, and runs unless an earlier
conflicting operation is registered. A chunk of a running SCAN part covers up to 4,096 entries more, the last one ends the part and counts
the command, and no byte of memory changes. An operation whose parts are all done completes: UPD leaves memory as the units left it and
marks the table's last lookup; SCAN writes its list to its tile, and its handle is bound. The instruction is then no longer in flight and
the operation is gone. A failing unit is marked, and is taken out of service only where the spare is used; WNZ_SPARE retires a unit for
the spare, once. (R233, R235, R239, R240, R241, R250, R252, R253, R256, R257, R261, R104) -/
def Obligations.WinzeProgress : Prop :=
  (∀ (id : Nat) (s : State) (op : WnzOp), s.op? id = some op → op.registered = false → op.listed = true →
    (∀ p ∈ s.wnz.ops, p.strand = op.strand → p.registered = true ∨ p.id = id) → s.rangesFit op = true →
    (∀ p ∈ s.wnz.ops, p.id = id ∨ p.registered = false ∨ p.listed = true) → (s.wnz.ops.map (·.id)).Nodup →
    CompletesWith (exec (.winzeRegistrationPoint id) s) fun u =>
      (∃ q, u.op? id = some { op with registered := true, order := s.nextId, regBeat := s.tally.beat, seqs := q } ∧
        ∀ st < 24, (op.srcs ++ op.dsts).any (fun r => (stacksOf r.1 r.2).contains st) = true → kvGet 0 q st = (kvGet 0 s.wnz.seqs st + 1) % 2 ^ 32) ∧ (∀ k, k ≠ id → u.op? k = s.op? k) ∧
      (∀ st < 24, kvGet 0 u.wnz.seqs st = if (op.srcs ++ op.dsts).any (fun r => (stacksOf r.1 r.2).contains st)
        then (kvGet 0 s.wnz.seqs st + 1) % 2 ^ 32 else kvGet 0 s.wnz.seqs st) ∧
      { u with nextId := s.nextId, wnz := { u.wnz with ops := s.wnz.ops, seqs := s.wnz.seqs } } = s) ∧
  (∀ (id stack : Nat) (s : State) (op : WnzOp) (p : WnzPart), s.op? id = some op → op.parts.find? (·.stack == stack) = some p →
    let part := fun u : State => (u.op? id).bind fun o => o.parts.find? (·.stack == stack)
    let partsOnly := fun u : State => { u with wnz := { u.wnz with ops := s.wnz.ops } } = s
    (op.registered = true → op.listed = true → p.stands = .dispatcher → s.on (F.wnzCtrl_drain stack) = false →
      s.queuedOn stack none < 64 → s.queuedOn stack (some op.act) < s.rd (F.wnzCtrl_actMax stack) →
      CompletesWith (exec (.winzeCommandQueued id stack) s) fun u => partsOnly { u with free := s.free } ∧
        ∃ ret < 2 ^ 33, part u = some { p with stands := .queued, cmd := op.command p (kvGet 0 op.seqs stack) ret }) ∧
    (∀ cmd : List Byte, p.stands = .queued →
      (cmd.length ≠ 64 ∨ leAt cmd 0x3C 4 ≠ crc32c (cmd.take 0x3C) → CompletesWith (exec (.winzeCommandArrival id stack cmd) s) fun u =>
        RegsOnly s u [(F.wnzResend_count stack).off] ∧
        u.rd (F.wnzResend_count stack) = min (s.rd (F.wnzResend_count stack) + 1) (2 ^ (F.wnzResend_count stack).width - 1)) ∧
      (cmd.length = 64 → leAt cmd 0x3C 4 = crc32c (cmd.take 0x3C) → cmd = p.cmd →
        CompletesWith (exec (.winzeCommandArrival id stack cmd) s) fun u => u.mem = s.mem ∧ u.regs = s.regs ∧
          part u = some { p with order := s.nextId, stands := if s.wnzBlocked op then .arrived else .running })) ∧
    (∀ unit : Nat, op.func = 0 → p.stands = .running → s.on (F.wnzStatus_relay stack) = true ∨ bitOf (s.usableUnits stack) unit = true →
      s.pins.hot = [] →
      let n := min 4096 (p.count - p.next)
      CompletesWith (exec (.winzeChunkComplete id stack unit) s) fun u => (∀ a, u.mem.byte a = s.mem.byte a) ∧
        part u = some { p with next := p.next + n, stands := if p.next + n = p.count then .done else .running }) ∧
    (∀ (t : Strand) (fl : Inflight), s.wnz.ops = [op] → op.registered = true → op.listed = true → (∀ q ∈ op.parts, q.stands = .done) →
      s.opHeld op = false → s.wnz.held = [] → s.host.reads = [] → op.bad = [] → op.badScale = [] →
      s.strand? op.strand = some t → t.inflight.find? (fun f => f.tag == op.tag) = some fl →
      let left := { t with inflight := t.inflight.filter (fun f => f.tag != op.tag) }
      (op.func = 2 → fl.effects = [] → ∀ tb, s.table? op.act op.table = some tb → op.version = tb.version →
        CompletesWith (exec (.winzeCompletionPoint id) s) fun u => u.wnz.ops = [] ∧ u.strand? op.strand = some left ∧ u.mem = s.mem ∧
          u.regs = s.regs ∧ u.table? op.act op.table = some { tb with lastDone := s.tally.beat }) ∧
      (op.func = 0 → ∀ x r, s.tile? op.tile = some x → fl.effects = [.bindT r op.tile] →
        let v := (s.scanOutput op).1
        s.mem.wf = true → Writable s x.home v.data.length →
        CompletesWith (exec (.winzeCompletionPoint id) s) fun u => u.wnz.ops = [] ∧
          u.strand? op.strand = some (left.setT r (some op.tile)) ∧ Stores s u x.home v.data))) ∧
  ∀ (stack unit : Nat) (s : State), stack < 24 → unit ≤ 4 →
    let en := s.rd (F.wnzUnitMap_enabled stack)
    let map := [(F.wnzUnitMap_enabled stack).off, (F.wnzStatus_units stack).off]
    (bitOf en unit = true → bitOf (s.rd (F.wnzUnitMap_failed stack)) unit = false →
      CompletesWith (exec (.winzeUnitFailure stack unit) s) fun u => RegsOnly s u map ∧
        bitOf (u.rd (F.wnzUnitMap_failed stack)) unit = true ∧
        u.rd (F.wnzUnitMap_enabled stack) = if s.on (F.wnzStatus_spareUsed stack) then en - 2 ^ unit else en) ∧
    (∀ src, manages src = true → s.rd F.pwrStatus_p4 = 0 → bitOf en unit = true → s.rd (F.wnzStatus_spareUsed stack) = 0 → bitOf en 4 = false → unit < 4 →
      CompletesWith (exec (.winzeSpare src stack unit) s) fun u => RegsOnly s u map ∧
        u.rd (F.wnzUnitMap_enabled stack) = en - 2 ^ unit + 2 ^ 4 ∧ u.rd (F.wnzStatus_spareUsed stack) = 1)

/-- Two states differ in nothing but the tables, the counters and the jobs. -/
def Sys2Proof.Claims.TablesOnly (s u : State) : Prop :=
  { u with telem := s.telem, wnz := { u.wnz with tables := s.wnz.tables }, fil := { u.fil with jobs := s.fil.jobs } } = s

/-- A job stands at a loader call of table control with a block that R274 does not refuse, of operation `op` on table `t`, and no call waits. -/
def Sys2Proof.Claims.TableCall (s : State) (job op : Nat) (j : Job) (t : Table) : Prop :=
  s.loaderCall job 6 = some j ∧ leAt j.data 0 1 = op ∧ s.tableBlock j = some (op, t) ∧
  ∀ u ∈ s.wnz.tables, u.undef ≠ some job ∧ ∀ b ∈ u.blocks, b.job ≠ job

/-- When a strand issues the instruction: TDEF of a number that the act does not use, over an aligned extent that may hold a table, adds
the table with that format, row length and extent at version 0; SWAP of a table with no swap pending, with an aligned extent that may hold
a table and meets neither the table nor any moved row, and a beat at least 16 beats ahead, schedules the swap and will set PRES; a beat
that is nearer will clear PRES and changes nothing; VER will write the beat from which the previous version was no longer looked up, where
there is one, else some value. No tile and no byte of memory changes. (R263, R104, R282, R232, R268, R102) -/
def Obligations.TableDefinitions : Prop :=
  ∀ (o : Insn) (s : State) (t : Strand) (j : Job),
    let d := decodeDsc (t.getD o.a)
    let num := o.fld 0 8
    (Issues s Form.tblTdef o t j → Usable (t.getD o.a) [0] false → d.elem = 0 → rowElemsOk (o.fld 8 4) d.stride = true →
      d.base % rowBytesOf (o.fld 8 4) d.stride = 0 → d.len % rowBytesOf (o.fld 8 4) d.stride = 0 →
      s.extentOk j.act d.base d.len = true → s.table? j.act num = none →
      CompletesWith (exec (.tblTdef o) s) fun u => Engages s u o t [] ∧ ∃ tb : Table, u.wnz.tables = s.wnz.tables ++ [tb] ∧ tb.act = j.act ∧
        tb.num = num ∧ tb.fmt = o.fld 8 4 ∧ tb.e = d.stride ∧ tb.base = d.base ∧ tb.len = d.len ∧ tb.version = 0 ∧ tb.dir = [] ∧ tb.moves = [] ∧ tb.swap = none) ∧
    (∀ tb : Table, Issues s Form.tblSwap o t j → t.clear [] (if o.fld 25 3 = 0 then [] else [.p (o.fld 25 3)]) = true →
      Usable (t.getD o.a) [0] false → s.table? j.act num = some tb → tb.swap = none →
      d.base % tb.rowBytes = 0 → d.len % tb.rowBytes = 0 → s.extentOk j.act d.base d.len = true →
      rangesMeet d.base d.len tb.base tb.len = false → (∀ u ∈ s.wnz.tables, (∀ e ∈ u.dir, rangesMeet d.base d.len e.2 u.rowBytes = false) ∧
      ∀ m ∈ u.moves, rangesMeet d.base d.len m.target u.rowBytes = false) →
      let pres := fun v => if o.fld 25 3 = 0 then [] else [Effect.setP (o.fld 25 3) v]
      ((t.getS o.b).toNat < s.tally.beat + 16 → CompletesWith (exec (.tblSwap o) s) fun u => Engages s u o t (pres false) ∧ u.wnz = s.wnz) ∧
      (s.tally.beat + 16 ≤ (t.getS o.b).toNat → (s.moved o t).eventRoom = true → CompletesWith (exec (.tblSwap o) s) fun u =>
        Engages s u o t (pres true) ∧ u.table? j.act num = some { tb with swap := some ((t.getS o.b).toNat, d.base, d.len) })) ∧
    ∀ tb : Table, Issues s Form.tblVer o t j → s.table? j.act num = some tb → tb.swap = none →
      (∀ b, tb.ver = some b → CompletesWith (exec (.tblVer o) s) fun u => Engages s u o t [.setS o.dst (BitVec.ofNat 64 b)]) ∧
      (tb.ver = none → CompletesWith (exec (.tblVer o) s) fun u => ∃ v, Engages s u o t [.setS o.dst v])

/-- A swap whose beat has come, with no moves and no list unread, replaces the table's extent and version, empties its directory and counts the swap. MIGRATE
of rows that R278 accepts adds a move for each and a block; REPORT with room for it ends its loader call with the load report; UNDEFINE
marks the table, which goes with its own effect once nothing looks it up and nothing moves, ending its loader call. A row waits, enters
MOVING where no UPD of the table is registered, and its copy before the flip beat writes the row's bytes to its target; at the flip beat a
copied row's directory entry names the target, its move is gone and its block counts it. A block whose moves are over, from its flip beat
on and with no older lookup registered, ends its loader call with the number of rows flipped. At a window boundary the counts become the
reported ones. (R274, R275, R276, R278, R279, R282, R104) -/
def Obligations.TableControl : Prop :=
  (∀ (s : State) (act num : Nat) (tb : Table) (beat base len : Nat), s.table? act num = some tb → tb.swap = some (beat, base, len) →
    beat ≤ s.tally.beat → tb.moves = [] → (∀ o ∈ s.wnz.ops, o.registered = true → o.listed = true) →
    CompletesWith (exec (.tableSwapEvent act num) s) fun u => Sys2Proof.Claims.TablesOnly s u ∧
      u.ctr 0x606 = (s.ctr 0x606 + 1) % 2 ^ 64 ∧ ∃ tb' : Table, u.table? act num = some tb' ∧ tb'.version = tb.version + 1 ∧ tb'.base = base ∧ tb'.len = len ∧ tb'.dir = [] ∧ tb'.swap = none ∧
      (tb'.olds = if (s.wnz.ops.any fun o => o.looksUp act num tb.version) = true then ⟨tb.version, tb.base, tb.len, tb.dir⟩ :: tb.olds else tb.olds)) ∧
  (∀ (s : State) (job : Nat) (j : Job) (t : Table),
    let ended := fun (u : State) (result : Nat) (ret : List Byte) => u.job? job = some { j with phase := .running, status := 0, detail := 0, result := result, ret := ret }
    (Sys2Proof.Claims.TableCall s job 0 j t → (j.pickup + 64 ≤ leAt j.data 8 8 ∧ leAt j.data 8 8 ≤ j.pickup + 65536) →
      (∀ x, t.swap = some x → leAt j.data 8 8 < x.1) → (∀ m ∈ migrateRows j.data, s.moveRefused t m.1 m.2 = false) →
      ((migrateRows j.data).map (·.1)).Nodup → (∀ a ∈ (migrateRows j.data).zipIdx, ∀ b ∈ (migrateRows j.data).zipIdx, a.2 ≠ b.2 → rangesMeet a.1.2 t.rowBytes b.1.2 t.rowBytes = false) →
      s.movesRoom t ((migrateRows j.data).map (·.1)) = true → s.eventRoom = true →
      CompletesWith (exec (.tableMigrate job) s) fun u => Sys2Proof.Claims.TablesOnly s u ∧ ∃ t', u.table? t.act t.num = some t' ∧
        t'.moves.map (fun m => (m.row, m.target)) = t.moves.map (fun m => (m.row, m.target)) ++ migrateRows j.data ∧
        t'.blocks = t.blocks ++ [⟨job, leAt j.data 8 8, 0⟩] ∧ t' = { t with moves := t'.moves, blocks := t'.blocks }) ∧
    (Sys2Proof.Claims.TableCall s job 1 j t → 1856 ≤ j.desc.resLen →
      CompletesWith (exec (.tableReport job) s) fun u => Sys2Proof.Claims.TablesOnly (s.windowStart t).2 u ∧ ended u 0 (s.loadReport t (s.windowStart t).1)) ∧
    (Sys2Proof.Claims.TableCall s job 2 j t → t.undef = none → CompletesWith (exec (.tableUndefine job) s) fun u =>
      Sys2Proof.Claims.TablesOnly s u ∧ u.table? t.act t.num = some { t with undef := some job }) ∧
    (s.job? job = some j → j.phase = .loader → s.table? t.act t.num = some t →
      (t.undef = some job → t.moves = [] → t.blocks = [] → t.swap = none → (∀ o ∈ s.wnz.ops, o.act = t.act → o.table = t.num → o.func = 0) →
        CompletesWith (exec (.tableUndefineEffect t.act t.num) s) fun u => Sys2Proof.Claims.TablesOnly s u ∧ u.table? t.act t.num = none ∧ ended u 0 []) ∧
      (∀ b : MoveBlock, t.blocks.find? (·.job == job) = some b → b.flip ≤ s.tally.beat → (∀ m ∈ t.moves, m.job ≠ job) →
        (∀ o ∈ s.wnz.ops, o.act = t.act → o.table = t.num → o.registered = true → b.flip ≤ o.regBeat) →
        CompletesWith (exec (.migrationSourceRelease t.act t.num job) s) fun u => Sys2Proof.Claims.TablesOnly s u ∧ ended u b.flipped [] ∧
          u.table? t.act t.num = some { t with blocks := t.blocks.filter (·.job != job) }))) ∧
  (∀ (s : State) (t : Table), s.table? t.act t.num = some t →
    ((∀ o ∈ s.wnz.ops, o.act = t.act → o.table = t.num → o.registered = true → o.func ≠ 2) →
      CompletesWith (exec (.migrationMovingEnter t.act t.num) s) fun u => Sys2Proof.Claims.TablesOnly s u ∧ u.table? t.act t.num = some { t with
        moves := t.moves.map fun m => if m.stage = 0 then { m with stage := 1, source := t.rowAt t.version m.row } else m }) ∧
    (∀ m : RowMove, t.moves.find? (fun x => x.row == m.row && x.stage == 1) = some m → s.tally.beat < m.flip → s.canonical = true →
      (∀ b ∈ blocksOf m.source t.rowBytes, s.mem.check b = .clean) → isRegister m.source = false → s.rd F.pwrStackState_inP3 = 0 → Writable s m.target (s.readMem 3 m.source t.rowBytes).1.length →
      CompletesWith (exec (.migrationCopyComplete t.act t.num m.row) s) fun u => Stores s u m.target (s.readMem 3 m.source t.rowBytes).1 ∧
        u.table? t.act t.num = some { t with moves := t.moves.map fun x => if x.row = m.row then { x with stage := 2 } else x }) ∧
    (∀ m : RowMove, t.moves = [m] → m.flip ≤ s.tally.beat → m.stage = 2 → t.held = [] → physOf (t.base + m.row * t.rowBytes) ≠ physOf m.target →
      (∀ o ∈ s.wnz.ops, o.registered = true → o.listed = true) →
      CompletesWith (exec (.migrationFlip t.act t.num) s) fun u => Sys2Proof.Claims.TablesOnly s u ∧ u.ctr 0x602 = (s.ctr 0x602 + 1) % 2 ^ 64 ∧
        u.table? t.act t.num = some { t with moves := [], dir := t.dir.filter (·.1 != m.row) ++ [(m.row, m.target)], blocks := t.blocks.map fun b => if b.job = m.job then { b with flipped := b.flipped + 1 } else b })) ∧
  ∀ (s : State), s.tally.beat % 65536 = 0 → s.tally.beat ≠ 0 → CompletesWith (exec .loadWindowEnd s) fun u => Sys2Proof.Claims.TablesOnly s u ∧
    (∀ (act num : Nat) (t : Table), s.table? act num = some t → t.lastStart ≠ s.tally.beat - 65536 → ∃ t', u.table? act num = some t' ∧
      t'.lastLoad = t.load ∧ t'.load = ⟨[], [], []⟩ ∧ t'.lastStart = s.tally.beat - 65536)

/-- The instruction is in flight until its record's answer comes, with these effects, and the record is on its way to its seam's home over a channel; no byte of memory changes. -/
def Sys2Proof.Claims.RecordSent (s u : State) (o : Insn) (t : Strand) (chan home : Nat) (r : SeamRecord) (effects : List Effect) : Prop :=
  (∃ fl : Inflight, fl.effects = effects ∧ fl.gate = .append 0 ∧ u.strand? o.strand = some { t.after o with inflight := t.inflight ++ [fl] } ∧
    Offered u chan r.act 1 (.record home { r with node := s.self, strand := t.id, tag := fl.tag })) ∧ (∀ a, u.mem.byte a = s.mem.byte a) ∧ u.idx = s.idx

/-- All of memory is sound: every block reads clean, no channel is dead, no stack sleeps, and the flip mask is not armed. -/
def Sys2Proof.Claims.Sound (s : State) : Prop :=
  (∀ b, s.mem.check b = .clean ∧ s.mem.dead b = false) ∧ s.rd F.memFlipCtrl_arm = 0 ∧ s.rd F.pwrStackState_inP3 = 0 ∧ s.canonical = true

/-- A record of a seam commits at the next beat on this node: the seam is homed here and not retired, no rebalance touches it, the record
waits for nothing, and its list has room. -/
def Sys2Proof.Claims.CommitsHere (s : State) (i : Index) (x : Seam) (r : SeamRecord) : Prop :=
  s.index? r.act = some i ∧ s.seam? r.act r.seam = some x ∧ s.homeFor' r.act r.seam = some s.self ∧ x.forwarding = false ∧
  s.sourceOf r.act r.seam = none ∧ s.mustHold r = false ∧ s.entriesHeld < 32 * 10 ^ 9 ∧
  x.next r.tomb < (x.ext r.tomb).first + (x.ext r.tomb).cap

/-- The stack cache copy of a vector has room in the act's quotas and in the pool, however it packs. -/
def Sys2Proof.Claims.CopyRoom (s : State) (act : Nat) (i : Index) : Prop :=
  let n := roundUp (max i.vecBytes 1) 4096
  s.cacheUse act + n ≤ s.rd (F.memQCache_kib act) * 1024 ∧ s.quotaFits act n false = true ∧
  ∀ k, 0 < k → k ≤ n → ∃ a, s.poolGap s.bestStack k = some a

/-- When a strand issues an append of a valid ID to a seam that it names, or a delete, and the seam's home is another node with a route to
it, the record (with its vector and fields) leaves for the home and the instruction waits in flight for the answer. At home, where the
record commits and nothing makes it wait, a delete stores the tombstone and an append the side-list entry (with the vector's code, the run
of its full vector, the lowest free one, and its cache copy made), with its commit beat, one after the current beat, after the seam's last
one; it is counted, and the instruction will write that beat and set PRES when the beat comes. Once a seam's side list has room, held
records are taken again. A record that the source of a rebalance has committed is stored as it came. A vector-area page that is full, or
at a flush beat, goes to the flash with its contents. Another member's committed beat is entered. (R185, R186, R181, R180, R187, R192,
R191, R328, R21) -/
def Obligations.IndexWrites : Prop :=
  (∀ (o : Insn) (s : State) (t : Strand) (j : Job) (i : Index),
    let res := Effect.setS o.dst 0#64 :: if o.fld 25 3 = 0 then [] else [.setP (o.fld 25 3) true]
    (∀ (id seam home chan : Nat) (x : List Nat), s.index? j.act = some i → s.homeFor' j.act seam = some home → home ≠ s.self →
      s.linkFor s.self home = some chan → id = (o.ext.getD 0 0#64).toNat → bitOf id 63 = false → seam = (t.getS o.b).toNat → seam ≠ 0xFFFFFFFF →
      VectorAt s t j o.a i.dim x → t.clear ((vecHandles o.a i.dim).map Res.t) (if o.fld 25 3 = 0 then [] else [.p (o.fld 25 3)]) = true →
      let r := fun extra => (⟨j.act, seam, false, id, (o.ext.getD 1 0#64).toNat, extra, x, 0, 0, 0, []⟩ : SeamRecord)
      (Issues s Form.idxAppend o t j → CompletesWith (exec (.idxAppend o) s) fun u => Sys2Proof.Claims.RecordSent s u o t chan home (r 0) res) ∧
      (Issues s Form.idxAppendx o t j →
        CompletesWith (exec (.idxAppendx o) s) fun u => Sys2Proof.Claims.RecordSent s u o t chan home (r ((o.ext.getD 2 0#64).toNat % 2 ^ 32)) res)) ∧
    (∀ (id seam run : Nat) (x : List Nat) (y : Seam), id = (o.ext.getD 0 0#64).toNat → bitOf id 63 = false → seam = (t.getS o.b).toNat →
      seam ≠ 0xFFFFFFFF → s.index? j.act = some i → VectorAt s t j o.a i.dim x →
      t.clear ((vecHandles o.a i.dim).map Res.t) (if o.fld 25 3 = 0 then [] else [.p (o.fld 25 3)]) = true →
      (∀ f ∈ t.inflight, f.tag < s.nextId) → Sys2Proof.Claims.Sound s → Sys2Proof.Claims.CopyRoom s j.act i → s.flash.readOnly = false →
      s.freeRun i = some run → (∀ k < 128, (physOf (y.recAt false y.nextSide + k)).isSome = true) →
      let attr := (o.ext.getD 1 0#64).toNat
      let commit := s.tally.beat + 1
      let appended := fun (u : State) (extra : Nat) => ∃ scale : Nat, (i.vfmt = 1 → scale = 0x3F80) ∧
        (let e : VEntry := ⟨id, attr, run / 256 + (run % 256) * 2 ^ 36 + scale * 2 ^ 48, if i.extra then extra else 0, commit % 2 ^ 16, i.encode x⟩
        ∀ k < 128, u.byteAt (y.recAt false y.nextSide + k) = (sideBytes e commit y.nextSide).getD k 0#8) ∧
        u.ctr 0x300 = (s.ctr 0x300 + 1) % 2 ^ 64 ∧ (u.index? j.act).map (·.runs) = some (i.runs ++ [(run, i.vecBytes / 64)]) ∧
        (∃ z, u.seam? j.act seam = some z ∧ z.nextSide = y.nextSide + 1 ∧ z.side = y.side ∧ z.versions = y.versions) ∧
        (∃ c ∈ u.idx.caches, c.act = j.act ∧ c.page * 256 + c.unit = run ∧ c.durable = false) ∧
        ∃ fl : Inflight, u.strand? o.strand = some { t.after o with inflight := t.inflight ++ [fl] } ∧ fl.gate = .commit commit ∧
          fl.effects = .setS o.dst (BitVec.ofNat 64 commit) :: if o.fld 25 3 = 0 then [] else [.setP (o.fld 25 3) true]
      let here := fun extra => Sys2Proof.Claims.CommitsHere s i y ⟨j.act, seam, false, id, attr, extra, x, 0, 0, 0, []⟩
      (Issues s Form.idxAppend o t j → here 0 → CompletesWith (exec (.idxAppend o) s) fun u => appended u 0) ∧
      (let extra := (o.ext.getD 2 0#64).toNat % 2 ^ 32
       Issues s Form.idxAppendx o t j → here extra → CompletesWith (exec (.idxAppendx o) s) fun u => appended u extra)) ∧
    (∀ home seam : Nat, Issues s Form.idxDelete o t j → seam = (t.getS o.a).toNat → s.homeFor' j.act seam = some home →
      t.clear [] (if o.fld 25 3 = 0 then [] else [.p (o.fld 25 3)]) = true →
      let r : SeamRecord := ⟨j.act, seam, true, (t.getS o.b).toNat, 0, 0, [], 0, 0, 0, []⟩
      (∀ chan, home ≠ s.self → s.linkFor s.self home = some chan →
        CompletesWith (exec (.idxDelete o) s) fun u => Sys2Proof.Claims.RecordSent s u o t chan home r res) ∧
      (∀ x : Seam, home = s.self → Sys2Proof.Claims.CommitsHere s i x r → s.canonical = true → s.rd F.pwrStackState_inP3 = 0 →
        (∀ f ∈ t.inflight, f.tag < s.nextId) →
        let b := tombBytes r.id (s.tally.beat + 1) x.nextTomb
        Writable s (x.recAt true x.nextTomb) b.length → CompletesWith (exec (.idxDelete o) s) fun u =>
          Stores s u (x.recAt true x.nextTomb) b ∧ u.ctr 0x301 = (s.ctr 0x301 + 1) % 2 ^ 64 ∧ u.seam? j.act seam = some { x with nextTomb := x.nextTomb + 1 } ∧
          ∃ fl : Inflight, u.strand? o.strand = some { t.after o with inflight := t.inflight ++ [fl] } ∧ fl.gate = .commit (s.tally.beat + 1) ∧
            fl.effects = .setS o.dst (BitVec.ofNat 64 (s.tally.beat + 1)) :: if o.fld 25 3 = 0 then [] else [.setP (o.fld 25 3) true]))) ∧
  (∀ (s : State) (act seam : Nat) (x : Seam) (k : Nat) (r : SeamRecord), s.seam? act seam = some x → x.beyond < 131072 → s.idx.heldApps = [⟨k, r⟩] →
    exec (.appendRelease act seam) s = .next (({ s with idx := { s.idx with heldApps := [] } } : State).takeRecord r)) ∧
  (∀ (s : State) (r : SeamRecord) (x : Seam), r.raw ≠ [] → s.seam? r.act r.seam = some x → leAt r.raw (if r.tomb then 0x10 else 0x20) 8 = x.next r.tomb →
    x.next r.tomb < (x.ext r.tomb).first + (x.ext r.tomb).cap → s.canonical = true → Writable s (x.recAt r.tomb (x.next r.tomb)) r.raw.length →
    CompletesWith (exec (.forwardedRecordReceive r) s) fun u => Stores s u (x.recAt r.tomb (x.next r.tomb)) r.raw ∧
      u.seam? r.act r.seam = some (if r.tomb then { x with nextTomb := x.nextTomb + 1 } else { x with nextSide := x.nextSide + 1 })) ∧
  (∀ (s : State) (act page : Nat) (i : Index) (d : Nat × List Byte), s.index? act = some i → i.dirty.find? (·.1 == page) = some d → s.flash.quiet = false →
    (i.pageFull page = true ∨ s.tally.beat % 2048 = 0) → s.flash.accepts act page false = true →
    CompletesWith (exec (.vectorPageWrite act page) s) fun u => u.index? act = some { i with dirty := i.dirty.filter (·.1 != page) } ∧
      u.flash.wseq = s.flash.wseq + 1 ∧ ∃ w ∈ u.flash.writes, w.wseq = s.flash.wseq + 1 ∧ w.act = act ∧ w.page = page ∧ w.data = d.2) ∧
  ∀ (s : State) (node beat : Nat), s.isMember = true → node ≠ s.position → s.members.testBit node = true →
    CompletesWith (exec (.committedBeatReceive node beat) s) fun u => u.tally.published = (node, beat) :: s.tally.published.filter (·.1 != node) ∧
      u.car.joins = s.car.joins.filter (·.1 != node) ∧
      { u with car := { u.car with joins := s.car.joins }, tally := { u.tally with published := s.tally.published }, telem := s.telem } = s

/-- An image that R166 accepts is installed, and its loader call ends well; one that it refuses ends it with 61H, DETAIL 10H. Another
node's report is entered, and a graph that all its nodes have reported is in doubt no more. An install in doubt less than 256 beats before
its beat is withdrawn: its graph and space go, the schedule is that of the newest graph left, and the withdrawal is counted. At its beat a backfill
with pool space writes the version of Table 6.3 there, and once its cut has passed the version is published and counted. A version that no
job reads and that a newer one supersedes goes with its space; so does the storage of a seam that is retired or in no graph any more. A retirement enters every graph and is
held; acknowledgements end the holds. SYS.IDXOP in a privileged job schedules a backfill, or with a beat that is too near only clears
PRES. (R166, R167, R515, R188, R189, R190, R195, R193, R187, R514, R170, R369) -/
def Obligations.IndexVersions : Prop :=
  (∀ (s : State) (job : Nat) (j : Job), s.loaderCall job 3 = some j →
    let img := padTo 0#8 (j.desc.arg 3) j.data
    let ended := fun (u : State) (st dt : Nat) => u.job? job = some { j with phase := .running, status := st, detail := dt, result := 0, ret := [] }
    (s.acceptInstall j.act j.pickup img = none → CompletesWith (exec (.installIndex job) s) fun u => ended u 0x61 0x10 ∧ { u with fil := { u.fil with jobs := s.fil.jobs } } = s) ∧
    ∀ w, s.acceptInstall j.act j.pickup img = some w → w.fil.jobs = s.fil.jobs → CompletesWith (exec (.installIndex job) s) fun u => ended u 0 0 ∧ u.idx = w.idx ∧ u.mem = w.mem) ∧
  (∀ (s : State) (act beat crc node : Nat) (i : Index), s.idx.indexes = [i] → i.act = act →
    CompletesWith (exec (.installReportReceive act beat crc node) s) fun u => u.idx.reports = s.idx.reports ++ [(act, beat, crc, node)] ∧
      u.idx.indexes = [{ i with graphs := i.graphs.map fun g => { g with settled := g.settled || decide (g.nodes ≤ u.reported act g) } }]) ∧
  (∀ (s : State) (act beat : Nat) (i : Index), s.index? act = some i →
    (∀ g, i.graphs.find? (fun g => g.activeBeat == beat && !g.settled) = some g → beat ≤ s.tally.beat + 256 → g.made = [] → g.first = false →
      CompletesWith (exec (.installWithdraw act beat) s) fun u => u.index? act = some ({ i with graphs := i.graphs.filter (·.activeBeat != beat) } : Index).reSched ∧
        u.ctr 0x307 = (s.ctr 0x307 + 1) % 2 ^ 64 ∧ u.fil.allocs = s.fil.allocs.filter (·.kind != graphSpace act beat)) ∧
    (∀ seam, CompletesWith (exec (.retirementReceive act seam beat) s) fun u => u.index? act = some { i with graphs := i.graphs.map fun g => { g with recs := g.recs.map fun r =>
      if r.seam = seam then { r with state := 1, stateBeat := if r.state = 1 then min r.stateBeat beat else beat } else r } } ∧ u.idx.retires = s.idx.retires ++ [⟨act, seam, beat⟩]) ∧
    ∀ (seam : Nat) (x : Seam), s.seam? act seam = some x →
      (∀ (f a : Nat) (v : Version) (vs : List Version) (w : State), x.backfill = some f → f ≤ s.tally.beat → x.writing = none → x.versions = v :: vs → x.forwarding = false →
        s.sourceOf act seam = none →
        let side := s.sideFrom i x v.sideSeq
        let tombs := tombsOf (s.listBytes x true v.tombSeq)
        let es := backfillEntries (s.versionEntries i v) (side.filter fun e => decide (e.2 ≤ f)) (tombs.filter fun t => decide (t.commit ≤ f))
        let new : Version := ⟨(v.num + 1) % 2 ^ 16, es.length, roundUp es.length 32, f, 0, v.sideSeq + (side.filter fun e => decide (e.2 ≤ f)).length,
          v.tombSeq + (tombs.filter fun t => decide (t.commit ≤ f)).length, a, []⟩
        let b := new.header i seam v.addr ++ i.versionBody es
        es.length ≤ 2 ^ 24 → ((s.fired 1).sensedSeam i x v v.sideSeq v.tombSeq).allocPool i.act (new.len i) (.index i.act seam) = (some a, w) →
        w.mem.wf = true → Writable w a b.length → w.idx = s.idx →
        CompletesWith (exec (.backfillCut act seam) s) fun u => u.seam? act seam = some { x with backfill := none, writing := some new } ∧ Stores w u a b) ∧
      (∀ (w v : Version) (vs : List Version), x.writing = some w → x.versions = v :: vs → w.cut < s.tally.beat → x.backfill = none → s.sourceOf act seam = none →
        x.nextSide ≤ w.sideSeq + 32 → s.canonical = true → s.rd F.pwrStackState_inP3 = 0 →
        let new := { w with publish := s.tally.beat }
        Writable s w.addr (new.header i seam v.addr).length → CompletesWith (exec (.backfillPublish act seam) s) fun u =>
          u.seam? act seam = some { x with versions := new :: v :: vs, writing := none } ∧ u.ctr 0x302 = (s.ctr 0x302 + 1) % 2 ^ 64 ∧ Stores s u w.addr (new.header i seam v.addr)) ∧
      (∀ v : Version, x.versions.find? (·.num == v.num) = some v → v.readers = [] → (∃ n ∈ x.versions.takeWhile (·.num != v.num), n.cut ≤ s.oldest act) → i.runs = [] →
        CompletesWith (exec (.versionRelease act seam v.num) s) fun u => u.seam? act seam = some { x with versions := x.versions.filter (·.num != v.num) } ∧
          u.fil.allocs = s.fil.allocs.filter (·.addr != v.addr) ∧ u.mem = s.mem) ∧
      (∀ r : HfRec, i.recAny seam = some r → r.state = 1 → r.stateBeat ≤ s.oldest act → x.read = false → i.runs = [] →
        CompletesWith (exec (.seamStorageRelease act seam) s) fun u => u.seam? act seam = none ∧ u.fil.allocs = s.fil.allocs.filter (fun a => a.kind != .index act seam) ∧ u.mem = s.mem) ∧
      (i.recAny seam = none → x.read = false → i.runs = [] →
        CompletesWith (exec (.seamStorageRelease act seam) s) fun u => u.seam? act seam = none ∧ u.fil.allocs = s.fil.allocs.filter (fun a => a.kind != .index act seam) ∧ u.mem = s.mem) ∧
      (∀ (o : Insn) (t : Strand) (j : Job) (r : HfRec), Issues s Form.sysIdxop o t j → s.isPriv j = true → s.seamAct seam = act → seam = (t.getS o.a).toNat → i.recAny seam = some r →
        t.clear [] (if o.fld 25 3 = 0 then [] else [.p (o.fld 25 3)]) = true →
        let pres := fun v => if o.fld 25 3 = 0 then [] else [Effect.setP (o.fld 25 3) v]
        let beat := (t.getS o.b).toNat
        (beat < s.tally.beat + 64 → CompletesWith (exec (.sysIdxop o) s) fun u => Engages s u o t (pres false) ∧ u.idx = s.idx) ∧
        (s.tally.beat + 64 ≤ beat → r.homeAt s.tally.beat = s.self → r.state = 0 → r.nextBeat = 0 → r.more = [] → o.fld 0 2 = 0 → (s.moved o t).eventRoom = true →
          CompletesWith (exec (.sysIdxop o) s) fun u => Engages s u o t (pres true) ∧
            u.seam? act seam = some { x with backfill := some (match x.backfill with | some p => min p beat | none => beat) }))) ∧
  ∀ (s : State) (b : Bcast), CompletesWith (exec (.broadcastAckReceive b) s) fun u => u.car.unacked = s.car.unacked.filter (· != b) ∧
    (∀ act seam target beat, b = .pending act seam s.self target beat → u.idx.rebalances = s.idx.rebalances.map fun m =>
      if m.act = act ∧ m.seam = seam ∧ m.beat = beat then { m with acked := true } else m) ∧
    ∀ act seam beat, b = .retire act seam beat → u.idx.retires = s.idx.retires.filter (· != ⟨act, seam, beat⟩)

/-- An act's index with every record of a seam changed, in all its graphs (R515). -/
def Sys2Proof.Claims.recChanged (i : Index) (seam : Nat) (f : HfRec → HfRec) : Index :=
  { i with graphs := i.graphs.map fun g => { g with recs := g.recs.map fun r => if r.seam = seam then f r else r } }

/-- An announced move is entered in every record of its seam, and as a rebalance at its source and target, and a pending backfill that it
reaches is moved; the announcement is passed on and acknowledged. A target without the seam that
receives the bulk copy and has room makes the seam from it and marks the move copied; with the copy, while the record is not ready, it
broadcasts READY and marks the record, as every node does that receives it. Without READY 16 beats before the move's beat, the source
broadcasts CANCEL, takes the move back and counts it; so does a node that receives it. From one beat before its beat, the source of a
ready move forwards: the move is closed and the close marker leaves for the target. The marker is noted at the target, with the pending
backfill, moved out of the reach of later moves. Once the oldest snapshot is at or past the move's beat and nobody reads the seam, the source releases it, says so, settles the
record and counts it; every other node then settles a ready record. (R192, R193, R194, R196, R515, R369) -/
def Obligations.Rebalances : Prop :=
  ∀ (s : State) (act seam : Nat) (i : Index), s.index? act = some i →
    let recs := fun (u : State) (f : HfRec → HfRec) => u.index? act = some (Sys2Proof.Claims.recChanged i seam f)
    (∀ source target beat : Nat, CompletesWith (exec (.rebalancePendingReceive act seam source target beat) s) fun u =>
      let put := fun r : HfRec => if r.nextBeat = 0 then { r with nextHome := target, nextBeat := beat, ready := false } else { r with more := r.more ++ [(target, beat, false)] }
      (u.index? act).map (·.graphs) = some (Sys2Proof.Claims.recChanged i seam put).graphs ∧
      (∀ x r f, s.seam? act seam = some x → i.recAny seam = some r → x.backfill = some f →
        u.seam? act seam = some { x with backfill := some ((put r).backfillBeat f) }) ∧
      u.host.out = .bcastAck s.bcastLink (.pending act seam source target beat) :: .bcast s.bcastLink (.pending act seam source target beat) :: s.host.out ∧
      u.idx.rebalances = if target = s.self ∨ source = s.self then s.idx.rebalances ++ [⟨act, seam, source, target, beat, false, false, false, source == s.self⟩] else s.idx.rebalances) ∧
    (∀ (c : SeamCopy) (w : State), c.act = act → c.seam = seam → s.seam? act seam = none →
      (∃ m ∈ s.idx.rebalances, m.act = act ∧ m.seam = seam ∧ m.target = s.self ∧ m.source ≠ s.self) → s.createSeam i c = some w → w.idx.rebalances = s.idx.rebalances →
      CompletesWith (exec (.rebalanceCopyReceive c) s) fun u => u.idx.indexes = w.idx.indexes ∧ u.mem = w.mem ∧
        u.idx.rebalances = s.idx.rebalances.map fun m => if m.act = act ∧ m.seam = seam ∧ m.target = s.self ∧ m.source ≠ s.self then { m with copied := true } else m) ∧
    (∀ (m : Rebalance) (r : HfRec), m ∈ s.idx.rebalances → m.act = act → m.seam = seam → m.target = s.self → m.copied = true → i.recAny seam = some r →
      m.beat ∈ r.moveBeats → r.moveReady m.beat = false →
      CompletesWith (exec (.rebalanceReady act seam) s) fun u => recs u HfRec.markReady ∧ u.host.out = .bcast s.bcastLink (.ready act seam) :: s.host.out) ∧
    (CompletesWith (exec (.rebalanceReadyReceive act seam) s) fun u => recs u HfRec.markReady ∧
      u.host.out = .bcast s.bcastLink (.ready act seam) :: s.host.out ∧
      { u with idx := { u.idx with indexes := s.idx.indexes }, host := { u.host with out := s.host.out }, telem := s.telem } = s) ∧
    (∀ m : Rebalance, s.pendingMove act seam m.beat = some m → m.target ≠ s.self →
      (CompletesWith (exec (.rebalanceCancelReceive act seam m.beat) s) fun u => recs u (HfRec.cancelMove m.beat) ∧
        u.idx.rebalances = s.idx.rebalances.filter (· != m) ∧ u.host.out = .bcast s.bcastLink (.cancel act seam m.beat) :: s.host.out) ∧
      ((∀ k ∈ s.idx.rebalances, k.act = act → k.seam = seam → k = m) → m.source = s.self → m.beat ≤ s.tally.beat + 16 →
        s.moveReady act seam m.beat = false →
        CompletesWith (exec (.rebalanceCancel act seam) s) fun u => recs u (HfRec.cancelMove m.beat) ∧
          u.idx.rebalances = s.idx.rebalances.filter (· != m) ∧
          u.host.out = .bcast s.bcastLink (.cancel act seam m.beat) :: s.host.out ∧ u.ctr 0x306 = (s.ctr 0x306 + 1) % 2 ^ 64)) ∧
    (∀ (m : Rebalance) (x : Seam), s.sourceOf act seam = some m → s.seam? act seam = some x →
      (∀ chan, m.beat ≤ s.tally.beat + 1 → m.closed = false → s.moveReady act seam m.beat = true → s.idx.heldApps = [] → s.linkFor s.self m.target = some chan →
        CompletesWith (exec (.rebalanceForwardStart act seam) s) fun u => u.seam? act seam = some { x with forwarding := true, backfill := none } ∧
          (u.idx.rebalances = s.idx.rebalances.map fun k => if k = m then { m with closed := true } else k) ∧ Offered u chan act 1 (.closeMarker m.target act seam x.backfill)) ∧
      (∀ r : HfRec, m.closed = true → m.beat ≤ s.oldest act → x.read = false → i.runs = [] → i.recAny seam = some r → r.nextBeat = m.beat →
        r.homeAt (s.tally.beat + 1) ≠ s.self → (∀ k ∈ s.idx.rebalances, k.act = act → k.seam = seam → k = m) →
        CompletesWith (exec (.rebalanceRelease act seam) s) fun u => u.seam? act seam = none ∧ u.idx.rebalances = s.idx.rebalances.filter (· != m) ∧
          (u.index? act).map (·.graphs) = some (Sys2Proof.Claims.recChanged i seam HfRec.settleMove).graphs ∧
          u.host.out = .bcast s.bcastLink (.released act seam) :: s.host.out ∧ u.ctr 0x305 = (s.ctr 0x305 + 1) % 2 ^ 64)) ∧
    (s.sourceOf act seam = none →
      (∀ backfill : Option Nat, CompletesWith (exec (.closeMarkerReceive act seam backfill) s) fun u =>
        (u.idx.rebalances = s.idx.rebalances.map fun m => if m.act = act ∧ m.seam = seam ∧ m.target = s.self then { m with closeSeen := true } else m) ∧
        ∀ x, s.seam? act seam = some x → u.seam? act seam = some (match backfill with
          | some f => { x with backfill := some (((i.recAny seam).map (·.backfillBeat f)).getD f), forwarding := false }
          | none => { x with forwarding := false })) ∧
      (CompletesWith (exec (.rebalanceRelease act seam) s) fun u => recs u (fun r => if r.nextBeat = 0 ∨ r.ready = false then r else r.settleMove) ∧
        u.host.out = .bcast s.bcastLink (.released act seam) :: s.host.out ∧
        u.idx.rebalances = s.idx.rebalances.filter fun m => !(m.act == act && m.seam == seam && m.target == s.self && m.closeSeen)))

/-- OPEN_EXCHANGE of an aligned area in one region, with a header in range and no exchange of the act open, exports it under a new key,
writes the header with the intake and reply offsets and zeros behind it, and ends its loader call with the key. At admission, with a free
ring entry, the one new probe of one seam at a snapshot that is still kept opens a cage with its lane, its SUMMARY bit is cleared and the
admission is counted. The one cage of an act that has waited for WAIT beats, or in which a lane's deadline is within GUARD beats, is
closed while the ring has a free entry: its record is written at the tail, the tail advances in the header and in the exchange, and the
closing and its lanes are counted. (R208, R209, R210, R212, R213, R214, R356, R190) -/
def Obligations.ExchangesAndCages : Prop :=
  (∀ (s : State) (job : Nat) (j : Job) (e : Exchange), s.loaderCall job 5 = some j →
    let base := j.desc.arg 2
    let h := (s.readMem 0 base 0x40).1
    s.holder true base (j.desc.arg 3) = none → isRegister base = false → (∀ b ∈ blocksOf base 0x40, s.mem.check b = .clean) → s.rd F.pwrStackState_inP3 = 0 → readExchange j.act base (j.desc.arg 3) 0 h = some e →
    base % 4096 = 0 → s.oneRegion j.act base (j.desc.arg 3) = true → s.exportRefused j.act base (roundUp (j.desc.arg 3) 4096) 7 = false →
    (∀ x ∈ s.idx.exchanges, x.act ≠ j.act) → s.canonical = true → (∀ key, Writable s base (exchangeArea { e with key := key } h).length) →
    CompletesWith (exec (.openExchange job) s) fun u => ∃ key, u.idx.exchanges = s.idx.exchanges ++ [{ e with key := key }] ∧
      u.car.exports = s.car.exports ++ [⟨j.act, base, roundUp (j.desc.arg 3) 4096, 7, key, none⟩] ∧ Stores s u base (exchangeArea { e with key := key } h) ∧
      u.job? job = some { j with phase := .running, status := 0, detail := 0, result := key, ret := [] }) ∧
  (∀ (s : State) (act : Nat) (e : Exchange) (c : Cage), s.exchange? act = some e → s.ringFull e = false → s.idx.cages.filter (·.act == act) = [c] → c.closing = none → c.lanes.length < 8 →
    let tail := e.base + 0x3000 + e.tail % e.entries * 64
    let closed := fun (u : State) (why : Nat) =>
      let w := (s.ordWrite tail (cageRecord c.seam why ((c.lanes.map (·.depth)).foldl max 0) c.snapshot c.lanes e.tail)).ordWrite (e.base + 0x20) (leBytes (e.tail + 1) 8)
      u.mem = w.mem ∧ u.idx.cages = s.idx.cages.filter (· != c) ∧ u.exchange? act = some { e with tail := e.tail + 1 } ∧ u.ctr (0x401 + why) = (w.ctr (0x401 + why) + 1) % 2 ^ 64
    (c.opened + e.wait ≤ s.tally.beat → (∀ l ∈ c.lanes, c.opened + e.wait ≤ l.deadline - e.guard) → CompletesWith (exec (.cageWaitExpiry act) s) fun u => closed u 1) ∧
    (s.tally.beat < c.opened + e.wait → (∃ l ∈ c.lanes, l.deadline ≤ s.tally.beat + e.guard) → CompletesWith (exec (.cageGuardExpiry act) s) fun u => closed u 2)) ∧
  ∀ (s : State) (act : Nat) (e : Exchange) (w b seam idx : Nat), s.exchange? act = some e → s.ringFull e = false → w < 128 → b < 64 → e.act = act → 0 < e.wait → (∀ k, s.mem.check k = .clean) →
    (∀ k < 128, leNat (s.peek (e.base + 0x1000 + 8 * k) 8) = if k = w then 2 ^ b else 0) → (∀ c ∈ s.idx.cages, c.act ≠ act) →
    let source := w / 2
    let slot := w % 2 * 64 + b
    let p := readProbe e (s.index? act) source slot (s.peek (e.base + e.intake + (source * 128 + slot) * e.slotBytes) e.slotBytes)
    p.ok = true → s.oldest act ≤ p.snapshot → p.seams = [(seam, idx)] → s.tally.beat + e.guard < p.deadline →
    let opened : State := { s.count 0x400 1 with idx := { s.idx with cages := s.idx.cages ++ [⟨act, seam, p.snapshot, s.tally.beat, [⟨slot, source, idx, p.depth, p.deadline, p.filtered⟩], none⟩] } }
    exec (.cageAdmission act) s = .next (opened.ordWrite (e.base + 0x1000 + 8 * w) (leBytes 0 8))

/-- A rack operand whose home is another member (R105): a valid descriptor, a member with a route to it over `chan`, to which no planned leave, no perturbation and no earlier request of the strand that has not gone out holds requests back (R355, R362), and room for one more CAR instruction of the strand. -/
def Sys2Proof.Claims.Remote (s : State) (t : Strand) (v : BitVec 128) (write : Bool) (chan : Nat) : Prop :=
  Usable v [1] write ∧ (decodeDsc v).node ≠ s.self ∧ s.members.testBit (decodeDsc v).node = true ∧ s.leavingSoon (decodeDsc v).node = false ∧
  kvGet 0 s.fun_.reqHolds (decodeDsc v).node ≤ s.tally.beat ∧ s.linkFor s.self (decodeDsc v).node = some chan ∧ (t.inflight.filter (·.cls == 11)).length < 64 ∧
  ∀ r ∈ s.car.reqs, r.strand = t.id → r.pkt.dst = (decodeDsc v).node → r.onWay = true

/-- A rack operand at this node, which has an ID. -/
def Sys2Proof.Claims.AtSelf (s : State) (t : Strand) (v : BitVec 128) (write : Bool) : Prop :=
  Usable v [1] write ∧ (decodeDsc v).node = s.self ∧ s.on F.glbNodeId_valid = true ∧ (t.inflight.filter (·.cls == 11)).length < 64

/-- An ordinary read of a range gives its bytes and changes nothing (R250, R303). -/
def Sys2Proof.Claims.Quiet (s : State) (a n : Nat) : Prop :=
  s.holder false a n = none ∧ isRegister a = false ∧ (∀ k ∈ blocksOf a n, s.mem.check k = .clean) ∧ s.rd F.pwrStackState_inP3 = 0

/-- The instruction is in flight and waits for the answers to these requests, which are recorded for replay (R367) and offered to the link of their route: REQ packets as class 1, BULK as class 2. The copies, and what the earlier requests' fills come to, are those of `w`. No byte of memory changes. -/
def Sys2Proof.Claims.Asked (s u : State) (o : Insn) (t : Strand) (chan : Nat) (w : CarSt) (l : List (Packet × Wants)) : Prop :=
  (∃ fl : Inflight, fl.gate = .rack fl.tag ∧ fl.effects = [] ∧ u.strand? o.strand = some { t.after o with inflight := t.inflight ++ [fl] } ∧
    ∃ new, u.car.reqs = w.reqs ++ new ∧ new.map (fun r => (({ r.pkt with seq := 0 } : Packet), r.wants)) = l ∧
      ∀ r ∈ new, r.strand = t.id ∧ r.tag = fl.tag ∧ r.killed = false ∧ Offered u chan r.pkt.act (if r.pkt.vc = 2 then 2 else 1) (.packet r.pkt)) ∧
  (∀ k, k ≠ o.strand → u.anyStrand? k = s.anyStrand? k) ∧ (∀ a, u.mem.byte a = s.mem.byte a) ∧ u.car.copies = w.copies

/-- When a strand issues a CAR instruction on a range of another member, inside the descriptor's extent and aligned where a single access
must be, the instruction is in flight until its answers come: CAR.LD, ST, ATOM and ATOMN send one REQ with the key, the width, the
operands and what the answer gives; CAR.GET asks for its bytes in pieces of at most 4,096, page by page with COPY; CAR.PUT sends its bytes
in BULK pieces of at most 4,096; CAR.INV asks the home to invalidate. Stores, PUTs and atomics drop this node's own copies of what they
write, and the fills of it that are on their way will not be kept. A GET with COPY of a part of one page that the copy store holds takes the bytes there, counts a hit and makes that copy the one
used last. A GET or PUT of no bytes completes with no effect. (R105, R362, R363, R366, R367, R82, R350, R361, R364) -/
def Obligations.RackRequests : Prop :=
  ∀ (o : Insn) (s : State) (t : Strand) (j : Job) (chan : Nat),
    let d := decodeDsc (t.getD o.a)
    let e := decodeDsc (t.getD o.dst)
    let off := (t.getS o.b).toNat
    let w := 2 ^ o.fld 0 2
    let req := fun (op : PktOp) (vc node a n : Nat) => s.packetTo op vc node j.act (keyOf o) a n
    let after := fun (node a n : Nat) => (s.dropCopies node a n).car
    (Sys2Proof.Claims.Remote s t (t.getD o.a) false chan →
      (Issues s Form.carLd o t j → off + w ≤ d.len → (d.base + off) % w = 0 → CompletesWith (exec (.carLd o) s) fun u =>
        Sys2Proof.Claims.Asked s u o t chan s.car [({ req .ld 0 d.node (d.base + off) w with size := o.fld 0 2 }, .load o.dst)]) ∧
      (Issues s Form.carInv o t j → CompletesWith (exec (.carInv o) s) fun u =>
        Sys2Proof.Claims.Asked s u o t chan s.car [(req .inv 0 d.node d.base d.len, .done)]) ∧
      (Issues s Form.carGet o t j → Usable (t.getD o.dst) [0] true → off ≤ e.len → off ≤ d.len → MayUse s j .write e.base off →
        (∀ x ∈ t.inflight, x.tag < s.nextId) → (∀ r ∈ s.car.reqs, r.tag < s.nextId) →
        let copy := o.fld 0 1 == 1
        let pieces := cutRange copy (off / 4096 + 2) d.base 0 off
        (0 < off → (∀ p ∈ pieces, copy = true → s.copyOf d.node p.1 j.act (keyOf o) = none) → CompletesWith (exec (.carGet o) s) fun u =>
          Sys2Proof.Claims.Asked s u o t chan s.car (pieces.map fun p => ({ req .get 0 d.node p.1 p.2.2 with copyOk := copy }, .get (e.base + p.2.1)))) ∧
        (∀ c : CopyPage, 0 < off → copy = true → d.base % 4096 + off ≤ 4096 → s.copyOf d.node d.base j.act (keyOf o) = some c →
          Sys2Proof.Claims.Quiet s (c.addr + d.base % 4096) off → CompletesWith (exec (.carGet o) s) fun u =>
            InFlight s u o t [.mem 0 e.base (s.readMem 0 (c.addr + d.base % 4096) off).1] ∧ u.mem = s.mem ∧
            u.car.copies = c :: s.car.copies.filter (· != c) ∧ u.ctr 0x912 = (s.ctr 0x912 + 1) % 2 ^ 64 ∧ u.car.reqs = s.car.reqs) ∧
        (off = 0 → CompletesWith (exec (.carGet o) s) fun u => InFlight s u o t [] ∧ u.mem = s.mem ∧ u.car = s.car))) ∧
    (Sys2Proof.Claims.Remote s t (t.getD o.dst) true chan →
      (Issues s Form.carSt o t j → off + w ≤ e.len → (e.base + off) % w = 0 → CompletesWith (exec (.carSt o) s) fun u =>
        Sys2Proof.Claims.Asked s u o t chan (after e.node (e.base + off) w)
          [({ req .st 0 e.node (e.base + off) w with size := o.fld 0 2, data := leBytes (t.getS o.a).toNat w }, .done)]) ∧
      (Issues s Form.carPut o t j → Usable (t.getD o.a) [0] false → off ≤ e.len → off ≤ d.len → MayUse s j .read d.base off →
        Sys2Proof.Claims.Quiet s d.base off →
        let b := (s.readMem 0 d.base off).1
        (0 < off → CompletesWith (exec (.carPut o) s) fun u => Sys2Proof.Claims.Asked s u o t chan (after e.node e.base off)
          ((cutRange false (off / 4096 + 2) e.base 0 off).map fun p =>
            ({ req .put 2 e.node p.1 (slice b p.2.1 p.2.2).length with data := slice b p.2.1 p.2.2, squeeze := o.fld 0 1 == 1 }, .done))) ∧
        (off = 0 → CompletesWith (exec (.carPut o) s) fun u => InFlight s u o t [] ∧ u.mem = s.mem ∧ u.car = s.car))) ∧
    (Sys2Proof.Claims.Remote s t (t.getD o.a) true chan →
      let wide := o.fld 4 1 == 1
      let aw := if wide then 8 else 4
      aw ≤ d.len → d.base % aw = 0 →
      let atom := fun op : PktOp => { req op 0 d.node d.base aw with
        wide := wide, size := if wide then 3 else 2, aux := o.fld 0 4, opnd := (t.getS o.b).toNat, cmp := (o.ext.getD 1 0#64).toNat }
      (Issues s Form.carAtom o t j → CompletesWith (exec (.carAtom o) s) fun u =>
        Sys2Proof.Claims.Asked s u o t chan (after d.node d.base aw) [(atom .atom, .old o.dst)]) ∧
      (Issues s Form.carAtomn o t j → CompletesWith (exec (.carAtomn o) s) fun u =>
        Sys2Proof.Claims.Asked s u o t chan (after d.node d.base aw) [(atom .atomn, .done)]))

/-- What a page of flash reads as (R324): its latest write, durable or not; zeros where it was never written or is discarded. -/
def Sys2Proof.Claims.pageOf (f : FlashSt) (act page : Nat) : List Byte :=
  let there := ((f.page? act page).bind (·.data)).getD (zeros pageBytes)
  match f.buffered act page, f.page? act page with
  | some w, some p => if w.wseq < p.wseq then there else w.data
  | some w, none => w.data
  | none, _ => there

/-- A CAR instruction on the node's own ID is checked against the export and performed at issue: LD and GET take the bytes read, ST and
PUT store theirs and no other byte, an atomic stores its new value and ATOM takes the old one, and INV of a range with no sharers ends at
once. ADT.READ of n pages of bound segments takes each page's latest contents, zeros where there are none, for its completion point, with
PRES set; the media's answers, short of an uncorrectable page, make no difference. ADT.WRITE enters each page as a write of its own
sequence number with its bytes and waits for the flash; its result is the last number. ADT.DISCARD leaves each page without contents under
a new number and completes. (R359, R361, R363, R364, R324, R326, R327, R82, R323) -/
def Obligations.RackAndFlashAtHome : Prop :=
  ∀ (o : Insn) (s : State) (t : Strand) (j : Job),
    let d := decodeDsc (t.getD o.a)
    let e := decodeDsc (t.getD o.dst)
    let n := (t.getS o.b).toNat
    let w := 2 ^ o.fld 0 2
    let grants := fun (a k right : Nat) => (s.exportFor j.act (keyOf o) a k right).isSome = true
    let put := fun (a : Nat) (b : List Byte) => s.canonical = true ∧ s.holder true a b.length = none ∧ Writable s a b.length
    (Sys2Proof.Claims.AtSelf s t (t.getD o.a) false →
      (Issues s Form.carLd o t j → n + w ≤ d.len → (d.base + n) % w = 0 → grants (d.base + n) w 0 → Sys2Proof.Claims.Quiet s (d.base + n) w →
        CompletesWith (exec (.carLd o) s) fun u => InFlight s u o t [.setS o.dst (BitVec.ofNat 64 (leNat (s.readMem 0 (d.base + n) w).1))] ∧ u.mem = s.mem) ∧
      (Issues s Form.carGet o t j → 0 < n → Usable (t.getD o.dst) [0] true → n ≤ e.len → n ≤ d.len → MayUse s j .write e.base n → grants d.base n 0 →
        Sys2Proof.Claims.Quiet s d.base n → CompletesWith (exec (.carGet o) s) fun u => InFlight s u o t [.mem 0 e.base (s.readMem 0 d.base n).1] ∧ u.mem = s.mem) ∧
      (Issues s Form.carInv o t j → grants d.base d.len 1 → (∀ x ∈ t.inflight, x.tag < s.nextId) → (∀ r ∈ s.car.reqs, r.tag < s.nextId ∧ r.wants ≠ .dropped) →
        (∀ x ∈ s.car.sharers, d.base + d.len ≤ x.1 * 4096 ∨ x.1 * 4096 + 4096 ≤ d.base) → (∀ i ∈ s.car.invs, i.out ≠ []) →
        CompletesWith (exec (.carInv o) s) fun u => InFlight s u o t [] ∧ u.mem = s.mem ∧ u.car = s.car ∧
          u.rd F.carInvCount_count = min (s.rd F.carInvCount_count + 1) (2 ^ 32 - 1))) ∧
    (Sys2Proof.Claims.AtSelf s t (t.getD o.dst) true →
      (Issues s Form.carSt o t j → n + w ≤ e.len → (e.base + n) % w = 0 → grants (e.base + n) w 1 → put (e.base + n) (leBytes (t.getS o.a).toNat w) →
        CompletesWith (exec (.carSt o) s) fun u => InFlight s u o t [] ∧ Stores s u (e.base + n) (leBytes (t.getS o.a).toNat w)) ∧
      (Issues s Form.carPut o t j → 0 < n → Usable (t.getD o.a) [0] false → n ≤ e.len → n ≤ d.len → MayUse s j .read d.base n →
        Sys2Proof.Claims.Quiet s d.base n →
        let b := (s.readMem 0 d.base n).1
        grants e.base b.length 1 → put e.base b → CompletesWith (exec (.carPut o) s) fun u => InFlight s u o t [] ∧ Stores s u e.base b)) ∧
    (Sys2Proof.Claims.AtSelf s t (t.getD o.a) true →
      let aw := if o.fld 4 1 == 1 then 8 else 4
      let old := leNat (s.readMem 0 d.base aw).1
      let new := leBytes (atomNew (o.fld 0 4) aw old n (o.ext.getD 1 0#64).toNat) aw
      aw ≤ d.len → d.base % aw = 0 → grants d.base aw 2 → Sys2Proof.Claims.Quiet s d.base aw → put d.base new →
      (Issues s Form.carAtom o t j → CompletesWith (exec (.carAtom o) s) fun u => InFlight s u o t [.setS o.dst (BitVec.ofNat 64 old)] ∧ Stores s u d.base new) ∧
      (Issues s Form.carAtomn o t j → CompletesWith (exec (.carAtomn o) s) fun u => InFlight s u o t [] ∧ Stores s u d.base new)) ∧
    (s.flash.quiet = false → 1 ≤ n → n ≤ 65536 →
      let page := (t.getS o.a).toNat
      s.flash.acceptsAll j.act page n true = true →
      (∀ media : List Nat, Issues s Form.adtRead o t j → t.clear [] (if o.fld 25 3 = 0 then [] else [.p (o.fld 25 3)]) = true → Usable (t.getD o.dst) [0] true →
        n * pageBytes ≤ e.len → e.base % 512 = 0 → MayUse s j .write e.base (n * pageBytes) →
        (∀ p ∈ s.flash.pages, p.lost = false) → (∀ m ∈ media, m < 3) →
        CompletesWith (exec (.adtRead o media) s) fun u => InFlight s u o t (.mem 0 e.base ((List.range n).flatMap fun i => Sys2Proof.Claims.pageOf s.flash j.act (page + i)) ::
            if o.fld 25 3 = 0 then [] else [.setP (o.fld 25 3) true]) ∧
          (∀ a, u.mem.byte a = s.mem.byte a) ∧ u.ctr 0x800 = (s.ctr 0x800 + n) % 2 ^ 64) ∧
      (Issues s Form.adtDiscard o t j → s.short = false →
        CompletesWith (exec (.adtDiscard o) s) fun u => InFlight s u o t [] ∧ u.mem = s.mem ∧ u.ctr 0x802 = (s.ctr 0x802 + n) % 2 ^ 64 ∧
          u.flash.wseq = s.flash.wseq + n ∧ (∀ i < n, ∃ p, u.flash.page? j.act (page + i) = some p ∧ p.data = none ∧ p.wseq = s.flash.wseq + i + 1))) ∧
    (∀ k : Nat, Issues s Form.adtWrite o t j → s.flash.quiet = false → Usable (t.getD o.a) [0] false → d.len = k * pageBytes → 1 ≤ k → k ≤ 65536 → d.base % 512 = 0 →
      MayUse s j .read d.base d.len → s.flash.acceptsAll j.act n k false = true → s.on F.adtStatus_readOnly = false → Sys2Proof.Claims.Quiet s d.base d.len →
      let b := (s.readMem 0 d.base d.len).1
      CompletesWith (exec (.adtWrite o) s) fun u => u.mem = s.mem ∧ u.ctr 0x801 = (s.ctr 0x801 + k) % 2 ^ 64 ∧ u.flash.wseq = s.flash.wseq + k ∧
        (∀ i < k, ∃ v ∈ u.flash.writes, v.wseq = s.flash.wseq + i + 1 ∧ v.act = j.act ∧ v.page = n + i ∧ v.data = slice b (i * pageBytes) pageBytes ∧ v.strand = t.id) ∧
        ∃ fl : Inflight, fl.gate = .flash 0 ∧ fl.effects = [.setS o.dst (BitVec.ofNat 64 (s.flash.wseq + k))] ∧
          u.strand? o.strand = some { t.after o with inflight := t.inflight ++ [fl] })

/-- The answer to a packet (R370): its fields echo the request's, whose VC stands in CMP. -/
def Sys2Proof.Claims.answer (s : State) (p : Packet) (op : PktOp) (vc : Nat) (data : List Byte) (aux : Nat) : Packet :=
  { p with op := op, vc := vc, src := s.self, dst := p.src, len := data.length, aux := aux, opnd := 0, cmp := p.vc, data := data, squeeze := false }

/-- A packet that has come to the node, the first of its source and VC (R350). -/
def Sys2Proof.Claims.First (s : State) (p : Packet) : Prop := s.car.inbox.find? (fun q => q.src == p.src && q.vc == p.vc) = some p

/-- The instruction `tag` of a strand has these effects more for its completion point and waits at this gate; every other strand stays. -/
def Sys2Proof.Claims.Regated (s u : State) (strand tag : Nat) (t : Strand) (g : Gate) (e : List Effect) : Prop :=
  u.strand? strand = some { t with inflight := t.inflight.map fun f => if f.tag = tag then { f with gate := g, effects := f.effects ++ e } else f } ∧
  ∀ k, k ≠ strand → u.anyStrand? k = s.anyStrand? k

/-- On an incoming link that is up every frame is counted; the expected one is accepted, and its packet (with the bytes that its stream
decodes to), where its header checks, is delivered here or offered to the link of its route; a frame that fails its CRC is refused, and one already accepted is discarded. A
refused frame is sent again from the retry buffer, a SQUEEZE frame in mode 0 from the second refusal on. A request that has not been
performed, with no write of its source held back, whose export grants it, is served and answered: a load with the value, a GET with its bytes or with the page and a sharer
recorded, a store, PUT or atomic after its bytes are stored, once, and remembered. One that no export grants is refused with KEY and
writes nothing. A store already performed is acknowledged again and counted. An invalidation drops the node's copies of the page, marks
fills on their way, and is acknowledged. (R368, R350, R358, R361, R363, R367, R364) -/
def Obligations.CarouselRequests : Prop :=
  (∀ (s : State) (link : Nat) (p : Packet), link < 8 → s.on (F.carLinkStatus_rxUp link) = true →
    let e := kvGet 0 s.car.rxSeq link
    let came := s.count (0x908 + link) (32 + p.data.length)
    (∀ (head : List Byte) (stream : Option (List Byte)) (q : Packet), (stream = none ∧ q = p ∨ ∃ b d, stream = some b ∧ s.fun_.streams = [] ∧ decodeStream true 0 b = .inr d ∧ q = { p with data := d }) →
      CompletesWith (exec (.carouselFrameReceive link e true head stream p) s) fun u => u.car.rxSeq = kvSet 0 s.car.rxSeq link ((e + 1) % 65536) ∧
        (headOk q head = false → u.car.inbox = s.car.inbox ∧ u.rgm = s.rgm) ∧
        (headOk q head = true → (q.dst = s.self → u.car.inbox = s.car.inbox ++ [q]) ∧
          ∀ chan, q.dst ≠ s.self → s.linkFor q.src q.dst = some chan → u.car.inbox = s.car.inbox ∧ Offered u chan q.act (if q.vc = 2 then 2 else 1) (.packet q)) ∧
        u.ctr (0x908 + link) = (s.ctr (0x908 + link) + (32 + p.data.length)) % 2 ^ 64) ∧
    (∀ (seq : Nat) (head : List Byte) (stream : Option (List Byte)), exec (.carouselFrameReceive link seq false head stream p) s = .next (came.emit (.refuse link e))) ∧
    ∀ (k : Nat) (head : List Byte) (stream : Option (List Byte)), e < 65536 → 0 < k → k ≤ 32768 →
      exec (.carouselFrameReceive link ((e + 65536 - k) % 65536) true head stream p) s = .next came) ∧
  (∀ (s : State) (link seq : Nat) (f : TxFrame), s.car.retry.find? (fun f => f.link == link && f.seq == seq) = some f → s.fun_.frames.find? (·.1 == link) = none →
    let plain := f.plain || (f.pkt.squeeze && decide (f.refused ≥ 1))
    CompletesWith (exec (.linkFrameResend link seq) s) fun u =>
      u.host.out = .frame link seq (s.bufClass f.pkt.src f.pkt.dst) (packetHead f.pkt)
        (if f.pkt.squeeze then some (if plain then storedForm f.pkt.data else (packFrame (s.on F.cruCtrl_squeezeEn) f.pkt.data).1) else none) f.pkt :: s.host.out ∧
      u.ctr (0x900 + link) = (s.ctr (0x900 + link) + (32 + f.pkt.data.length)) % 2 ^ 64 ∧
      u.car.retry.find? (fun f => f.link == link && f.seq == seq) = some { f with refused := f.refused + 1, plain := plain } ∧
      u.rd (F.carLinkRetry_count link) = min (s.rd (F.carLinkRetry_count link) + 1) (2 ^ 32 - 1)) ∧
  (∀ (s : State) (p : Packet) (chan : Nat), Sys2Proof.Claims.First s p → s.linkFor s.self p.src = some chan → s.heldFrom p.src p.vc = [] →
    let grants := fun (k right : Nat) => (s.exportFor p.act p.key p.addr k right).isSome = true
    let answers := fun (u : State) (op : PktOp) (vc : Nat) (data : List Byte) (aux : Nat) => u.car.inbox = s.car.inbox.erase p ∧
      Offered u chan p.act (if vc = 2 then 2 else 1) (.packet (Sys2Proof.Claims.answer s p op vc data aux))
    let put := fun (b : List Byte) => s.canonical = true ∧ s.holder true p.addr b.length = none ∧ Writable s p.addr b.length
    let remembered := fun (u : State) (old : Nat) => u.car.performed.head? = some ⟨p.src, p.vc, p.seq, old⟩
    (s.performed? p = none →
      (p.op = .ld → grants p.len 0 → Sys2Proof.Claims.Quiet s p.addr p.len → CompletesWith (exec (.carouselRequestReceive p) s) fun u =>
        answers u .ldData 1 (leBytes (leNat (s.readMem 0 p.addr p.len).1) p.len) 0 ∧ u.mem = s.mem) ∧
      (p.op = .get → p.copyOk = false → grants p.len 0 → Sys2Proof.Claims.Quiet s p.addr p.len → CompletesWith (exec (.carouselRequestReceive p) s) fun u =>
        answers u .getData 2 (s.readMem 0 p.addr p.len).1 0 ∧ u.mem = s.mem) ∧
      (let page := p.addr / 4096
       p.op = .get → p.copyOk = true → grants p.len 0 → grants p.len 3 → Sys2Proof.Claims.Quiet s (page * 4096) 4096 → s.car.sharers.length < 1048576 →
        CompletesWith (exec (.carouselRequestReceive p) s) fun u => answers u .fill 2 (s.readMem 0 (page * 4096) 4096).1 0 ∧ u.mem = s.mem ∧ (page, p.src) ∈ u.car.sharers ∧
          ∀ x ∈ u.car.sharers, x ∈ s.car.sharers ∨ x = (page, p.src)) ∧
      (grants p.data.length 1 → put p.data →
        (p.op = .st → CompletesWith (exec (.carouselRequestReceive p) s) fun u => answers u .ack 1 [] 0 ∧ Stores s u p.addr p.data ∧ remembered u 0) ∧
        (p.op = .put → CompletesWith (exec (.putPayloadReceive p) s) fun u => answers u .ack 1 [] 0 ∧ Stores s u p.addr p.data ∧ remembered u 0)) ∧
      (let w := if p.wide then 8 else 4
       let old := leNat (s.readMem 0 p.addr w).1
       let new := leBytes (atomNew p.aux w old p.opnd p.cmp) w
       grants w 2 → Sys2Proof.Claims.Quiet s p.addr w → put new →
        (p.op = .atom → CompletesWith (exec (.carouselRequestReceive p) s) fun u => answers u .atomOld 1 (leBytes old 8) 0 ∧ Stores s u p.addr new ∧ remembered u old) ∧
        (p.op = .atomn → CompletesWith (exec (.carouselRequestReceive p) s) fun u => answers u .ack 1 [] 0 ∧ Stores s u p.addr new ∧ remembered u old)) ∧
      (p.op = .st → s.exportFor p.act p.key p.addr p.data.length 1 = none → CompletesWith (exec (.carouselRequestReceive p) s) fun u => answers u .nak 1 [] cKey ∧ u.mem = s.mem ∧
        u.rd F.carKeyNakCount_count = min (s.rd F.carKeyNakCount_count + 1) (2 ^ 32 - 1))) ∧
    (∀ e : Performed, s.performed? p = some e → p.op = .st → CompletesWith (exec (.carouselRequestReceive p) s) fun u =>
      answers u .ack 1 [] 0 ∧ u.mem = s.mem ∧ u.rd F.carDupCount_count = min (s.rd F.carDupCount_count + 1) (2 ^ 32 - 1)) ∧
    (p.op = .invalidate → CompletesWith (exec (.invalidationReceive p) s) fun u => answers u .invAck 1 [] 0 ∧ u.mem = s.mem ∧
      (∀ c, c ∈ u.car.copies ↔ c ∈ s.car.copies ∧ ¬ (c.node = p.src ∧ c.page = p.addr / 4096)) ∧
      u.car.reqs = s.car.reqs.map fun r => if r.pkt.dst = p.src ∧ r.pkt.copyOk = true ∧ r.pkt.addr / 4096 = p.addr / 4096 then { r with killed := true } else r))

/-- The answer to a request removes the request and brings the waiting instruction its effect: the value of a load, the bytes of a GET, an
atomic's old value, or the fault of a refusal; it completes once nothing of it is outstanding, and fills of what was read that are on their
way will not be kept. A copy fill serves its own read; the page
is kept in the copy store as the copy used last, unless an invalidation has passed it or it is marked uncopyable, when no copy of the page
stays. A request unanswered for REPLAY_BEATS is sent again with its number and counted, up to REPLAY_MAX times; then its instruction
faults with UNMAPPED, and so does a CAR.INV whose invalidation is not answered, with the sharer still recorded. An invalidation acknowledgement removes its request, and the last one ends the CAR.INV that waits for it. (R367,
R363, R364, R366, R353, R105) -/
def Obligations.CarouselAnswers : Prop :=
  (∀ (s : State) (p : Packet) (r : Request) (t : Strand), Sys2Proof.Claims.First s p → s.car.reqs.find? (·.answeredBy p) = some r → s.strand? r.strand = some t →
    let left := s.car.reqs.filter (· != r)
    let g := if (left.any fun q => q.strand == r.strand && q.tag == r.tag) = true then Gate.rack r.tag else .engine
    (p.op ∈ [PktOp.ldData, .getData, .ack, .atomOld, .nak] → CompletesWith (exec (.carouselResponseReceive (.packet p)) s) fun u =>
      u.car.reqs = (if p.op = .ldData ∨ p.op = .getData ∨ p.op = .atomOld then left.map fun q =>
        if q.pkt.dst = p.src ∧ q.pkt.copyOk = true ∧ pageMeets (q.pkt.addr / 4096) r.pkt.addr (max 1 r.pkt.len) = true then { q with killed := true } else q
        else left) ∧ u.car.inbox = s.car.inbox.erase p ∧ u.mem = s.mem ∧ Sys2Proof.Claims.Regated s u r.strand r.tag t g (match p.op, r.wants with
        | .ldData, .load d => [.setS d (BitVec.ofNat 64 (leNat p.data))]
        | .getData, .get a => [.mem 0 a p.data]
        | .atomOld, .old d => [.setS d (BitVec.ofNat 64 (leNat p.data))]
        | .nak, _ => [.faultAt p.aux r.pkt.addr]
        | _, _ => [])) ∧
    (∀ dst, p.op = .fill → r.wants = .get dst →
      let page := r.pkt.addr / 4096
      let ends := fun u : State => u.car.reqs = left ∧ Sys2Proof.Claims.Regated s u r.strand r.tag t g [.mem 0 dst (slice p.data (r.pkt.addr % 4096) r.pkt.len)]
      ((r.killed = true ∨ p.aux ≠ 0) → CompletesWith (exec (.copyFillReceive p) s) fun u => ends u ∧ u.mem = s.mem ∧
        ∀ c, c ∈ u.car.copies ↔ c ∈ s.car.copies ∧ ¬ (c.node = p.src ∧ c.page = page)) ∧
      (r.killed = false → p.aux = 0 → s.on F.carCtrl_copyEn = true → s.copyPages ≠ 0 → CompletesWith (exec (.copyFillReceive p) s) fun u => ends u ∧
        ∃ a, u.car.copies.head? = some ⟨p.src, page, r.pkt.act, r.pkt.key, a⟩ ∧ ∃ w : State, w.mem = s.mem ∧ u.mem = (w.writeMem 0 a p.data).mem))) ∧
  (∀ (s : State) (dst vc seq : Nat) (r : Request), s.car.reqs.find? (fun r => r.pkt.dst == dst && r.pkt.vc == vc && r.pkt.seq == seq) = some r →
    (s.tally.beat < r.sent + s.rd F.carCtrl_replayBeats → exec (.requestReplayTimeout dst vc seq) s = .next s) ∧
    (r.sent + s.rd F.carCtrl_replayBeats ≤ s.tally.beat →
      (∀ chan, r.tries < s.rd F.carCtrl_replayMax → s.leavingSoon dst = false → kvGet 0 s.fun_.reqHolds dst ≤ s.tally.beat → s.linkFor r.pkt.src dst = some chan →
        (∀ q ∈ s.car.reqs, q.strand = r.strand → q.pkt.dst = dst → q = r ∨ q.onWay = true) →
        CompletesWith (exec (.requestReplayTimeout dst vc seq) s) fun u => (u.car.reqs = s.car.reqs.map fun q => if q = r then { r with sent := s.tally.beat, tries := r.tries + 1, onWay := true } else q) ∧
          Offered u chan r.pkt.act (if r.pkt.vc = 2 then 2 else 1) (.packet r.pkt) ∧ u.rd F.carReplayCount_count = min (s.rd F.carReplayCount_count + 1) (2 ^ 32 - 1)) ∧
      (∀ t, s.rd F.carCtrl_replayMax ≤ r.tries → r.wants ≠ .dropped → s.strand? r.strand = some t →
        CompletesWith (exec (.requestReplayTimeout dst vc seq) s) fun u => u.car.reqs = s.car.reqs.filter (· != r) ∧
          ∃ g, Sys2Proof.Claims.Regated s u r.strand r.tag t g [.faultAt cUnmapped r.pkt.addr]) ∧
      (∀ (id strand tag : Nat) (t : Strand), s.rd F.carCtrl_replayMax ≤ r.tries → r.wants = .dropped → s.car.invs = [⟨id, [(dst, seq)], .here strand tag⟩] →
        s.strand? strand = some t → (∀ q ∈ s.car.reqs.filter (· != r), q.strand ≠ strand ∨ q.tag ≠ tag) →
        CompletesWith (exec (.requestReplayTimeout dst vc seq) s) fun u => u.car.reqs = s.car.reqs.filter (· != r) ∧ u.car.invs = [] ∧
          u.car.sharers = s.car.sharers ++ [(r.pkt.addr / 4096, dst)] ∧ Sys2Proof.Claims.Regated s u strand tag t .engine [.faultAt cUnmapped r.pkt.addr]))) ∧
  ∀ (s : State) (p : Packet) (r : Request), Sys2Proof.Claims.First s p → p.op = .invAck → s.car.reqs.find? (fun r => r.answeredBy p && r.wants == .dropped) = some r →
    let left := s.car.reqs.filter (· != r)
    ((∀ i ∈ s.car.invs, i.out.filter (· != (r.pkt.dst, r.pkt.seq)) ≠ []) → CompletesWith (exec (.invalidationAckReceive p) s) fun u => u.car.reqs = left ∧
      u.car.invs = s.car.invs.map fun i => { i with out := i.out.filter (· != (r.pkt.dst, r.pkt.seq)) }) ∧
    ∀ (id strand tag : Nat) (t : Strand), s.car.invs = [⟨id, [(r.pkt.dst, r.pkt.seq)], .here strand tag⟩] → s.strand? strand = some t → (∀ q ∈ left, q.strand ≠ strand ∨ q.tag ≠ tag) →
      CompletesWith (exec (.invalidationAckReceive p) s) fun u => u.car.reqs = left ∧ u.car.invs = [] ∧ Sys2Proof.Claims.Regated s u strand tag t .engine []

/-- A membership change has been entered, with these broadcasts and acknowledgements sent. -/
def Sys2Proof.Claims.Entered (s u : State) (m : Member) (out : List Out) : Prop := u.car.changes = s.car.changes ++ [m] ∧ u.host.out = out ++ s.host.out

/-- A node that listens (R353): switches closed, out of every role, with no admission heard. -/
def Sys2Proof.Claims.Listens (s u : State) : Prop :=
  u.carState = 1 ∧ u.on F.carStatus_netClosed = true ∧ u.rd F.glbNodeId_valid = 0 ∧ u.members = 0 ∧ u.rd F.talStatus_calliope = 0 ∧ u.rd F.carStatus_alone = 0 ∧
  u.car.changes = [] ∧ u.car.admission = none ∧ u.car.hellos = [] ∧ u.car.listenFrom = s.tally.beat

/-- JOIN on an idle node makes it listen. A member broadcasts and enters an admission of a position that is no member, or a planned leave
of one, at a beat at least 1,024 ahead; LEAVE names the node itself. An ALONE listener that admits itself waits for its beat. A member
enters the admission that it hears and acknowledges it; the listener that it names is joining. At the membership beat the one due change
takes effect: an admitted position is a member and awaited; a lost or leaving one is bypassed; the node itself, on leaving, is out with
its switches closed; a founder is a member and Calliope with its number valid. Hellos are noted, and with all of them a joining node is a
member; else it listens again, and members remove it. The founder of the higher position that meets another listens. Losses are broadcast
and entered once. A first bad lane or weak laser brings in the spare (a bad ninth lane only ends its use); a second one takes the link down; each is logged as the last spare's, with ALERT_N (log 177). (R346, R347, R352, R353, R354,
R355, R378, R15) -/
def Obligations.Membership : Prop :=
  (∀ (s : State) (src : Src), s.reaches src = true →
    (s.carState = 0 → s.netHeld = false → CompletesWith (exec (.carJoin src) s) fun u => Sys2Proof.Claims.Listens s u) ∧
    (s.carState = 3 → CompletesWith (exec (.carLeave src) s) fun u => u.carState = 4 ∧ Sys2Proof.Claims.Entered s u ⟨1, s.position, s.tally.beat + 1024, none⟩
      [.bcast s.bcastLink (.enter s.position (s.tally.beat + 1024) s.tally.beat (s.rd F.carCfg_size) (s.rd F.carCfg_pairEn) s.members true)]) ∧
    (∀ pos : Nat,
      let b := s.admitBeat
      let told := fun leave => [Out.bcast s.bcastLink (.enter pos b s.tally.beat (s.rd F.carCfg_size) (s.rd F.carCfg_pairEn) s.members leave)]
      (s.isMember = true → s.tally.beat + 1024 ≤ b →
        (s.members.testBit pos = false → pos < s.rd F.carCfg_size → CompletesWith (exec (.carAdmit src pos) s) fun u => Sys2Proof.Claims.Entered s u ⟨0, pos, b, none⟩ (told false) ∧ u.regs = s.regs) ∧
        (s.members.testBit pos = true → CompletesWith (exec (.carRemove src pos) s) fun u => Sys2Proof.Claims.Entered s u ⟨1, pos, b, none⟩ (told true) ∧
          u.carState = if pos = s.position then 4 else s.carState)) ∧
      (s.isMember = true → b < s.tally.beat + 1024 → s.rd F.carErr_valid = 0 → CompletesWith (exec (.carAdmit src pos) s) fun u =>
        u.rd F.carErr_valid = 1 ∧ u.rd F.carErr_kind = 6 ∧ u.rd F.carErr_node = pos % 64 ∧ u.car = s.car ∧ u.host = s.host) ∧
      (s.carState = 1 → s.on F.carStatus_alone = true → pos = s.position → s.tally.beat + 1024 ≤ b → CompletesWith (exec (.carAdmit src pos) s) fun u =>
        Sys2Proof.Claims.Entered s u ⟨0, pos, b, none⟩ [] ∧ u.car.admission = some (b, 0) ∧ u.regs = s.regs)) ∧
    ∀ link lane : Nat, link < 8 →
      (lane < 8 → s.on (F.carLinkStatus_spareUsed link) = false → CompletesWith (exec (.linkLaneGo src link lane) s) fun u =>
        RegsOnly s u [(F.carLinkStatus_spareUsed link).off] ∧ u.rd (F.carLinkStatus_spareUsed link) = 1 ∧ u.rd (F.carLinkStatus_spareFor link) = lane) ∧
      (s.on (F.carLinkStatus_laserSpareUsed link) = false → CompletesWith (exec (.linkLaserGo src link) s) fun u =>
        RegsOnly s u [(F.carLinkStatus_spareUsed link).off] ∧ u.rd (F.carLinkStatus_laserSpareUsed link) = 1)) ∧
  (∀ (s : State) (pos beat written size pairEn members : Nat),
    (s.isMember = true → s.members.testBit pos = false → written + 1024 ≤ beat → CompletesWith (exec (.admissionReceive pos beat written size pairEn members false) s) fun u =>
      Sys2Proof.Claims.Entered s u ⟨0, pos, beat, none⟩ [.bcastAck s.bcastLink (.enter pos beat written size pairEn members false), .bcast s.bcastLink (.enter pos beat written size pairEn members false)] ∧ u.regs = s.regs) ∧
    (s.carState = 1 → pos = s.position → size = s.rd F.carCfg_size → pairEn = s.rd F.carCfg_pairEn → s.on F.carStatus_beatLock = true →
      CompletesWith (exec (.admissionReceive pos beat written size pairEn members false) s) fun u => u.carState = 2 ∧ u.car.admission = some (beat, members) ∧
        Sys2Proof.Claims.Entered s u ⟨0, pos, beat, none⟩ [])) ∧
  (∀ s : State, s.carState = 1 → s.car.listenFrom + 64 ≤ s.tally.beat → s.car.lastMarker ≤ s.car.listenFrom →
    CompletesWith (exec .aloneDetect s) fun u => RegsOnly s u [F.carStatus_alone.off] ∧ u.rd F.carStatus_alone = 1 ∧ u.carState = 1) ∧
  (∀ (s : State) (elected : Nat) (m : Member), s.car.changes.filter (fun m => decide (m.beat ≤ s.tally.beat)) = [m] → m.position < 64 →
    let later := s.car.changes.filter fun m => !decide (m.beat ≤ s.tally.beat)
    (m.kind = 0 → s.isMember = true → CompletesWith (exec (.membershipBeat elected) s) fun u =>
      (∀ k, u.members.testBit k = (s.members.testBit k || decide (k = m.position))) ∧ u.car.joins = s.car.joins ++ [(m.position, m.beat)] ∧ u.car.changes = later ∧ u.carState = s.carState) ∧
    (∀ b : Nat, m.kind = 0 → m.position = s.position → s.carState = 1 → s.netHeld = false → s.car.admission = some (b, 0) → CompletesWith (exec (.membershipBeat elected) s) fun u =>
      u.members = 2 ^ m.position ∧ u.carState = 3 ∧ u.rd F.glbNodeId_valid = 1 ∧ u.self = m.position ∧ u.rd F.talStatus_calliope = 1 ∧ u.rd F.talStatus_calliopeNode = m.position ∧
      u.on F.carStatus_netClosed = false ∧ u.car.changes = later) ∧
    ((m.kind = 1 ∨ m.kind = 2) → m.ring = none → m.position ≠ s.position → s.members.testBit m.position = true → s.rd F.talStatus_calliopeNode ≠ m.position →
      CompletesWith (exec (.membershipBeat elected) s) fun u => (∀ k, u.members.testBit k = (s.members.testBit k && !decide (k = m.position))) ∧
        (∀ k, u.bypassed.testBit k = (s.bypassed.testBit k || decide (k = m.position))) ∧ u.car.changes = later ∧ u.carState = s.carState) ∧
    (m.kind = 1 → m.position = s.position → CompletesWith (exec (.membershipBeat elected) s) fun u =>
      u.carState = 0 ∧ u.on F.carStatus_netClosed = true ∧ u.rd F.glbNodeId_valid = 0 ∧ u.members = 0 ∧ u.car.changes = [])) ∧
  (∀ (s : State) (b known : Nat), s.carState = 2 → s.car.admission = some (b, known) →
    (∀ link pos : Nat, link < 8 → s.lit (link / 2) = true → s.before link = some pos →
      CompletesWith (exec (.helloReceive link (s.rd F.carCfg_size) pos) s) fun u => u.car = { s.car with hellos := s.car.hellos.filter (· != link) ++ [link] } ∧
        { u with car := s.car, telem := s.telem } = s) ∧
    (s.on F.carStatus_netClosed = false → b ≤ s.tally.beat → s.tally.beat ≤ b + 64 → (∀ l < 8, s.lit (l / 2) = true → (s.before l).isSome = true → l ∈ s.car.hellos) →
      CompletesWith (exec .joinConfirm s) fun u => u.carState = 3 ∧ u.rd F.glbNodeId_valid = 1 ∧ u.self = s.position ∧ u.car = { s.car with admission := none }) ∧
    (b + 64 < s.tally.beat → CompletesWith (exec .joinTimeout s) fun u => Sys2Proof.Claims.Listens s u)) ∧
  (∀ (s : State) (pos beat : Nat), s.isMember = true →
    (s.car.joins = [(pos, beat)] → beat + 128 ≤ s.tally.beat → s.members.testBit pos = true → pos < 64 → CompletesWith (exec .joinTimeout s) fun u =>
      (∀ k, u.members.testBit k = (s.members.testBit k && !decide (k = pos))) ∧ u.car.joins = []) ∧
    (s.on F.talStatus_calliope = true → pos < s.position → CompletesWith (exec (.founderConflict pos) s) fun u => Sys2Proof.Claims.Listens s u) ∧
    (s.members.testBit pos = true → pos ≠ s.position → (∀ c ∈ s.car.changes, c.kind = 2 → c.position = pos → c.ring ≠ none) → CompletesWith (exec (.neighbourLossDetect pos) s) fun u =>
      Sys2Proof.Claims.Entered s u ⟨2, pos, s.tally.beat + 16, none⟩ [.bcast s.bcastLink (.loss pos (s.tally.beat + 16) none)] ∧ u.regs = s.regs) ∧
    ∀ ring : Option Nat, (∀ c ∈ s.car.changes, c.kind = 2 → c.position = pos → c.ring ≠ ring) → CompletesWith (exec (.lossBroadcastReceive pos beat ring) s) fun u =>
      Sys2Proof.Claims.Entered s u ⟨2, pos, beat, ring⟩ [.bcastAck s.bcastLink (.loss pos beat ring), .bcast s.bcastLink (.loss pos beat ring)] ∧ u.regs = s.regs) ∧
  ∀ (s : State) (link lane : Nat), link < 8 →
    let alert : List Out := if s.alerting = true then [] else [.alert false true]
    let down := fun u : State => u.rd (F.carLinkStatus_txUp link) = 0 ∧ (s.isMember = true → (∀ c ∈ s.car.changes, c.kind = 2 → c.position = s.position → c.ring ≠ some link) →
      Sys2Proof.Claims.Entered s u ⟨2, s.position, s.tally.beat + 16, some link⟩ (alert ++ [.bcast s.bcastLink (.loss s.position (s.tally.beat + 16) (some link))]))
    let logged := fun (u : State) (kind index : Nat) => u.alerting = true ∧ (s.on F.funSpareLog_valid = false → u.on F.funSpareLog_valid = true ∧ u.rd F.funSpareLog_kind = kind ∧
      u.rd F.funSpareLog_unit = link ∧ u.rd F.funSpareLog_index = index ∧ u.on F.funSpareLog_exhausted = true)
    let spared := fun u : State => RegsOnly { s with host := u.host, pins := u.pins } u [(F.carLinkStatus_spareUsed link).off, F.funSpareLog_valid.off] ∧ u.host.out = alert ++ s.host.out
    let bad := s.rd (F.carLinkStatus_lanesBad link)
    (lane < 9 → bitOf bad lane = false →
      (bad = 0 → lane = 8 → CompletesWith (exec (.laneBad link lane) s) fun u =>
        RegsOnly s u [(F.carLinkStatus_spareUsed link).off] ∧ u.rd (F.carLinkStatus_lanesBad link) = 2 ^ lane ∧ u.rd (F.carLinkStatus_spareUsed link) = 0) ∧
      (bad = 0 → lane ≠ 8 → CompletesWith (exec (.laneBad link lane) s) fun u =>
        spared u ∧ logged u 4 lane ∧ u.rd (F.carLinkStatus_lanesBad link) = 2 ^ lane ∧ u.rd (F.carLinkStatus_spareUsed link) = 1 ∧ u.rd (F.carLinkStatus_spareFor link) = lane) ∧
      (bad ≠ 0 → CompletesWith (exec (.laneBad link lane) s) fun u =>
        down u ∧ logged u 4 lane ∧ u.rd (F.carLinkStatus_lanesBad link) = bad + 2 ^ lane)) ∧
    (s.on (F.carLinkStatus_laserFail link) = false →
      (s.on (F.carLinkStatus_laserSpareUsed link) = false → CompletesWith (exec (.laserPowerLow link) s) fun u =>
        spared u ∧ logged u 5 0 ∧ u.rd (F.carLinkStatus_laserSpareUsed link) = 1) ∧
      (s.on (F.carLinkStatus_laserSpareUsed link) = true → CompletesWith (exec (.laserPowerLow link) s) fun u => down u ∧ logged u 5 0 ∧ u.rd (F.carLinkStatus_laserFail link) = 1) ∧
      (s.on F.carStatus_netClosed = false → s.lit (link / 2) = true → s.bypassRun link s.position 64 ≤ 3 →
        s.bypassRun (link + 1 - 2 * (link % 2)) s.position 64 ≤ 3 → CompletesWith (exec (.linkTrained link) s) fun u =>
        RegsOnly s u [(F.carLinkStatus_spareUsed link).off] ∧ u.rd (F.carLinkStatus_txUp link) = 1 ∧ u.rd (F.carLinkStatus_rxUp link) = 1))

/-- The acknowledgement of a Midway fragment (R373): an ACK frame with its message number and index, offered as class 0 to the port it came by. -/
def Sys2Proof.Claims.Acked (s u : State) (f : MdwFrame) : Prop :=
  Offered u (8 + f.port) f.act 0 (.midway f.port (s.mdwFrame f.port f.mac f.tag (s.pcp 0) (mdwHeader 2 f.act (s.rd F.mdwId_rack) s.self 0 f.frag f.msg f.key 0 0) []))

/-- An event in MDW_ERR, which held none. -/
def Sys2Proof.Claims.MdwLogged (u : State) (kind port act : Nat) : Prop :=
  u.rd F.mdwErr_valid = 1 ∧ u.rd F.mdwErr_kind = kind ∧ u.rd F.mdwErr_port = port ∧ u.rd F.mdwErr_act = act

/-- A gate list that R386 accepts at this time: the intervals fill the cycle, no class opens for less than F, every class is open outside BACK_HOLD, four beats remain, and reserved fields are zero. -/
def Sys2Proof.Claims.ListFits (s : State) (chan entries cycle beat : Nat) : Prop :=
  let l := (List.range entries).map fun i => s.rd (F.rgmChPend_entry chan i)
  (l.map gateNs).sum = cycle * 1024 ∧ (∀ e ∈ l, ∀ c, 1 ≤ c → c ≤ 3 → bitOf e (19 + c) = true → chanWindow chan ≤ gateNs e) ∧
  (∀ c, 1 ≤ c → c ≤ 3 → ∃ e ∈ l, bitOf e (19 + c) = true ∧ bitOf e 23 = false) ∧ s.tally.beat + 4 ≤ beat ∧ ∀ e ∈ l, bits e 24 8 = 0

/-- A sent message of one fragment goes out in a frame of its port with the header of Table 12.4; a bad send block ends the call with
0x61. A frame with a bad FCS is counted; a bad header or key is dropped, counted and logged; a complete message waits for delivery; other
fragments are acknowledged. A JOB next in order is entered on its act's Midway ring, or dropped where the act does not accept; a full
ring forgets its last fragment and, with PFC_EN, pauses its priority at the peer (log 171). A RESULT completes the send that waits, and
one that no send waits for is dropped; the last ACK completes a send. A late fragment is sent again, until its peer is unreachable and its
messages fail. Links, PTP stamps (16 at most) and pauses are noted. At a boundary a class 0 unit is sent; waiting units enter when cells
fit. A red unit that tests red again stays; without a meter it turns green. A gate entry ends at its interval; a list is armed exactly
where R386 accepts it; a cancel clears it; at the takeover the lists change places. Meter fields are submitted or refused, and take effect
at the next beat with full buckets. RESERVE is stored or refused. A sample is stored, or dropped where the ring has no room. (R371, R372,
R373, R374, R375, R386, R387, R388, R391, R393, R394, R395) -/
def Obligations.PortsAndChannels : Prop :=
  (∀ (s : State) (job : Nat) (j : Job), s.loaderCall job 10 = some j → job ≠ 0 → (∀ m ∈ s.mdw.sends, m.job ≠ job) → (∀ b ∈ s.rst.block, b.1 ≠ 0x2B) →
    let mac := leAt j.data 0 6
    let act := leAt j.data 8 1
    let port := if leAt j.data 10 1 = 0xFF then (if s.on (F.mdwPortStatus_linkUp 0) then 0 else 1) else leAt j.data 10 1
    let data := j.data.drop 32
    (sendRefused j.data = true → CompletesWith (exec (.sendMidwayMessage job) s) fun u =>
      u.job? job = some { j with phase := .running, status := 0x61, detail := 0x17, result := 0, ret := [] } ∧ { u with fil := { u.fil with jobs := s.fil.jobs } } = s) ∧
    (sendRefused j.data = false → bitOf (leAt j.data 16 2) 15 = false → data.length ≤ s.mdwRoom port none → (∀ m ∈ s.mdw.sends, m.mac ≠ mac) →
      CompletesWith (exec (.sendMidwayMessage job) s) fun u =>
        let msg := (s.nextMsg mac act).1
        u.mdw.sends = s.mdw.sends ++ [⟨port, mac, none, act, 0, leAt j.data 12 4, msg, [data], 1, [⟨0, s.tally.beat, 0⟩], data.length, bitOf (leAt j.data 11 1) 0, job⟩] ∧
        Offered u (8 + port) act 2 (.midway port (s.mdwFrame port mac none (s.pcp 2)
          (mdwHeader 0 act (s.rd F.mdwId_rack) s.self 1 0 msg (leAt j.data 12 4) data.length data.length) data)) ∧
        (u.nextMsg mac act).1 = msg + 1 ∧ u.ctr 0x916 = (s.ctr 0x916 + 1) % 2 ^ 64 ∧ u.regs = s.regs ∧ u.mem = s.mem)) ∧
  (∀ (s : State) (port fec : Nat) (b : List Byte), port < 2 → s.on (F.mdwPortCtrl_enable port) = true → s.on (F.mdwPortStatus_linkUp port) = true →
    (CompletesWith (exec (.midwayFrameReceive port false fec b) s) fun u => RegsOnly s u [(F.mdwPortFecUncorr_count port).off, (F.mdwPortFcsErr_count port).off] ∧
      u.rd (F.mdwPortFcsErr_count port) = min (s.rd (F.mdwPortFcsErr_count port) + 1) (2 ^ 32 - 1)) ∧
    (60 ≤ b.length → b.length + 4 ≤ s.rd (F.mdwPortCtrl_mtu port) → beNat (b.take 6) = s.rd (F.mdwPortMacLo_mac port) + 2 ^ 32 * s.rd (F.mdwPortMacHi_mac port) →
      beNat (slice b 12 2) = s.rd F.mdwCtrl_ethertype → beNat (slice b 12 2) ≠ 0x8100 →
      (∀ kind act : Nat, s.readFrame port (beNat (slice b 6 6)) (b.drop 14) = .inl (kind, act) → s.on F.mdwErr_valid = false →
        CompletesWith (exec (.midwayFrameReceive port true fec b) s) fun u => Sys2Proof.Claims.MdwLogged u kind port act ∧
          u.rd F.mdwDropCount_count = min (s.rd F.mdwDropCount_count + 1) (2 ^ 32 - 1) ∧ u.mdw = s.mdw ∧ u.rgm = s.rgm) ∧
      ∀ f : MdwFrame, s.readFrame port (beNat (slice b 6 6)) (b.drop 14) = .inr f →
        (f.type = 2 → CompletesWith (exec (.midwayFrameReceive port true fec b) s) fun u => u.mdw = { s.mdw with frames := s.mdw.frames ++ [f] } ∧ u.rgm = s.rgm) ∧
        (f.type ≠ 2 → (f.type = 0 → s.nextFrom (peerOf f.rack f.node) f.act ≤ f.msg) → (∀ r ∈ s.mdw.recvs, MdwRecv.holds f r = false) →
          (f.last = true → f.frag = 0 → CompletesWith (exec (.midwayFrameReceive port true fec b) s) fun u => u.mdw.frames = s.mdw.frames ++ [f] ∧ u.rgm = s.rgm ∧
            ∃ r, u.mdw.recvs = r :: s.mdw.recvs ∧ MdwRecv.holds f r = true ∧ r.full = true ∧ r.payload = f.data) ∧
          (f.last = false → CompletesWith (exec (.midwayFrameReceive port true fec b) s) fun u => u.mdw.frames = s.mdw.frames ∧ Sys2Proof.Claims.Acked s u f)))) ∧
  (∀ (s : State) (f : MdwFrame) (r : MdwRecv), s.mdw.recvs.find? (MdwRecv.holds f) = some r →
    (s.mdw.frames.find? (fun f => f.type == 0 && f.msg == s.nextFrom (peerOf f.rack f.node) f.act) = some f →
      (s.on (F.mdwActCtrl_accept f.act) = true → 128 ≤ r.payload.length → r.payload.length = f.total → (s.ring f.act 4).entries.length < 256 →
        CompletesWith (exec .midwayJobReceive s) fun u =>
          u.ring f.act 4 = { s.ring f.act 4 with entries := (s.ring f.act 4).entries ++ [⟨⟨f.port, f.mac, f.tag, f.msg, f.key⟩, r.payload.take 128, r.payload.drop 128⟩] } ∧
          u.nextFrom (peerOf f.rack f.node) f.act = f.msg + 1 ∧ Sys2Proof.Claims.Acked s u f ∧ f ∉ u.mdw.frames ∧ u.ctr 0x915 = (s.ctr 0x915 + 1) % 2 ^ 64 ∧ u.regs = s.regs) ∧
      (s.on (F.mdwActCtrl_accept f.act) = false → s.on F.mdwErr_valid = false → f.port < 2 → f.act < 16 → CompletesWith (exec .midwayJobReceive s) fun u =>
        Sys2Proof.Claims.MdwLogged u 3 f.port f.act ∧ u.rd F.mdwDropCount_count = min (s.rd F.mdwDropCount_count + 1) (2 ^ 32 - 1) ∧
        u.nextFrom (peerOf f.rack f.node) f.act = f.msg + 1 ∧ u.host = s.host) ∧
      (s.on (F.mdwActCtrl_accept f.act) = true → 128 ≤ r.payload.length → r.payload.length = f.total → 256 ≤ (s.ring f.act 4).entries.length →
        s.on (F.mdwPortCtrl_pfcEn f.port) = true → (f.port, f.prio) ∉ s.mdw.pausing → CompletesWith (exec .midwayJobReceive s) fun u =>
          u.host = { s.host with out := .pfc f.port f.prio true :: s.host.out } ∧ u.mdw.pausing = s.mdw.pausing ++ [(f.port, f.prio)] ∧
          f ∉ u.mdw.frames ∧ u.mdw.rxNext = s.mdw.rxNext ∧ u.regs = s.regs)) ∧
    (s.mdw.frames.find? (·.type == 1) = some f → s.mdw.sends = [] → CompletesWith (exec .midwayResultReceive s) fun u =>
      u.rd F.mdwDropCount_count = min (s.rd F.mdwDropCount_count + 1) (2 ^ 32 - 1) ∧ u.reg F.mdwErr_valid.off = s.reg F.mdwErr_valid.off ∧ Sys2Proof.Claims.Acked s u f) ∧
    ∀ (m : MdwSend) (j : Job), s.job? m.job = some j → j.phase = .loader →
      s.mdw.frames.find? (·.type == 1) = some f → s.mdw.sends.find? (fun m => m.wait && m.type == 0 && m.mac == f.mac && m.act == f.act && m.msg == f.msg) = some m →
      CompletesWith (exec .midwayResultReceive s) fun u => u.job? m.job = some { j with phase := .running, status := 0, detail := 0, result := 0, ret := r.payload } ∧
        u.mdw.sends = s.mdw.sends.filter (fun x => !m.same x) ∧ Sys2Proof.Claims.Acked s u f ∧ u.ctr 0x915 = (s.ctr 0x915 + 1) % 2 ^ 64 ∧ u.regs = s.regs) ∧
  (∀ (s : State) (m : MdwSend) (j : Job), m.job ≠ 0 → s.job? m.job = some j → j.phase = .loader →
    (∀ (f : MdwFrame) (sent tries : Nat), s.mdw.frames.find? (·.type == 2) = some f → m.flight = [⟨f.frag, sent, tries⟩] →
      s.mdw.sends.find? (fun m => m.mac == f.mac && m.act == f.act && m.msg == f.msg && m.flight.any (·.idx == f.frag)) = some m →
      m.wait = false → (∀ x ∈ s.mdw.sends, (m.same x = true → x = m) ∧ (x.mac = m.mac → x.next = x.frags.length)) →
      CompletesWith (exec .midwayAckReceive s) fun u => u.job? m.job = some { j with phase := .running, status := 0, detail := 0, result := 0, ret := [] } ∧
        u.mdw.sends = s.mdw.sends.filter (fun x => !m.same x) ∧ u.mdw.frames = s.mdw.frames.filter (· != f) ∧ u.regs = s.regs ∧ u.rgm = s.rgm) ∧
    ∀ frag : Nat, let late := fun f : Frag => f.idx == frag && decide (f.sent + s.rd F.mdwCtrl_rto ≤ s.tally.beat)
      s.mdw.sends.find? (fun x => x.mac == m.mac && x.act == m.act && x.msg == m.msg && x.flight.any late) = some m →
      ((∀ f ∈ m.flight, f.tries < s.rd F.mdwCtrl_retryMax) → (∀ x ∈ s.mdw.sends, m.same x = true → x = m) → CompletesWith (exec (.midwayFragmentTimeout m.mac m.act m.msg frag) s) fun u =>
        (∃ x ∈ u.mdw.sends, x = { m with flight := m.flight.map fun f => if late f then { f with sent := s.tally.beat, tries := f.tries + 1 } else f }) ∧
        Offered u (8 + m.port) m.act 2 (.midway m.port (s.mdwFrame m.port m.mac m.tag (s.pcp 2) (mdwHeader m.type m.act (s.rd F.mdwId_rack) s.self
          (if frag + 1 = m.frags.length then 1 else 0) frag m.msg m.key (m.frags.getD frag []).length m.total) (m.frags.getD frag []))) ∧ u.ctr 0x917 = (s.ctr 0x917 + 1) % 2 ^ 64) ∧
      ((∃ f ∈ m.flight, late f = true ∧ s.rd F.mdwCtrl_retryMax ≤ f.tries) → s.on F.mdwErr_valid = false → m.port < 2 → m.act < 16 →
        CompletesWith (exec (.midwayFragmentTimeout m.mac m.act m.msg frag) s) fun u => Sys2Proof.Claims.MdwLogged u 2 m.port m.act ∧
          u.mdw.sends = s.mdw.sends.filter (·.mac != m.mac) ∧ u.job? m.job = some { j with phase := .running, status := 0x70, detail := 0, result := 0, ret := [] })) ∧
  (∀ (s : State) (port : Nat), port < 2 →
    (∀ up lock local_ remote : Bool, CompletesWith (exec (.midwayLinkChange port up lock local_ remote) s) fun u => RegsOnly s u [(F.mdwPortStatus_linkUp port).off] ∧
      u.on (F.mdwPortStatus_linkUp port) = up ∧ u.on (F.mdwPortStatus_pcsLock port) = lock ∧ u.on (F.mdwPortStatus_localFault port) = local_ ∧ u.on (F.mdwPortStatus_remoteFault port) = remote) ∧
    ∀ (prio : Nat) (pause : Bool), prio < 8 → s.on (F.mdwPortCtrl_pfcEn port) = true → CompletesWith (exec (.pfcPauseReceive port prio pause) s) fun u =>
      ((port, prio) ∈ u.mdw.paused ↔ pause = true) ∧ (∀ x, x ≠ (port, prio) → (x ∈ u.mdw.paused ↔ x ∈ s.mdw.paused)) ∧ { u with mdw := { u.mdw with paused := s.mdw.paused } } = s) ∧
  (∀ (s : State) (domain dir type seq : Nat), s.on F.mdwPtpCtrl_enable = true →
    (s.mdw.stamps.length < 16 → CompletesWith (exec (.ptpEventTimestamp (s.rd F.mdwPtpCtrl_port) domain dir type seq) s) fun u =>
      u.mdw = { s.mdw with stamps := s.mdw.stamps ++ [⟨dir, type, seq, s.tally.beat, s.tally.sub⟩] } ∧ u.rd F.mdwPtpTsInfo_count = s.mdw.stamps.length + 1 ∧
      (s.mdw.stamps = [] → u.rd F.mdwPtpTsInfo_seqid = seq % 2 ^ 16 ∧ u.rd F.mdwPtpTsSub_sub = s.tally.sub % 1024 ∧ u.rd F.mdwPtpTsBeatLo_beat = s.tally.beat % 2 ^ 32)) ∧
    (16 ≤ s.mdw.stamps.length → CompletesWith (exec (.ptpEventTimestamp (s.rd F.mdwPtpCtrl_port) domain dir type seq) s) fun u =>
      RegsOnly s u [F.mdwPtpTsInfo_overflow.off] ∧ u.rd F.mdwPtpTsInfo_overflow = 1)) ∧
  (∀ (s : State) (src : Src) (x : PtpStamp) (t : List PtpStamp), s.reaches src = true → s.mdw.stamps = x :: t → t.length < 16 → CompletesWith (exec (.ptpTsPop src) s) fun u =>
    u.mdw = { s.mdw with stamps := t } ∧ u.rd F.mdwPtpTsInfo_count = t.length ∧ ∀ y ∈ t.head?, u.rd F.mdwPtpTsInfo_seqid = y.seq % 2 ^ 16) ∧
  (∀ (s : State) (chan : Nat) (v : Unit_) (o : Out), chan < 43 → s.chanUp chan = true → s.rgm.units.filter (·.chan == chan) = [v] → v.cls = 0 → s.ctrlFits chan v = true → v.out = some o →
    (∀ w ∈ s.rgm.units, w.id = v.id → w = v) → (∀ r ∈ s.host.rings, r.message = none) →
    (10 ≤ chan → (∀ p, o ≠ .packet p) → CompletesWith (exec (.egressUnitComplete chan) s) fun u => u.rgm.units = s.rgm.units.filter (· != v) ∧ u.host.out = o :: s.host.out ∧
      u.ctr (0xA00 + chan) = (s.ctr (0xA00 + chan) + v.len) % 2 ^ 64 ∧ u.regs = s.regs) ∧
    ∀ p : Packet, chan < 8 → o = .packet p → p.squeeze = false → s.fun_.frames = [] → s.car.retry = [] → CompletesWith (exec (.egressUnitComplete chan) s) fun u =>
      let q := kvGet 0 s.car.txSeq chan
      u.rgm.units = s.rgm.units.filter (· != v) ∧ u.host.out = .frame chan q (s.bufClass p.src p.dst) (packetHead p) none p :: s.host.out ∧ u.car.retry = [⟨chan, q, p, 0, false⟩] ∧
      kvGet 0 u.car.txSeq chan = (q + 1) % 65536 ∧ u.regs = s.regs) ∧
  (∀ (s : State) (v : Unit_), s.rgm.waiting = [v] → s.cellsFit v = true → CompletesWith (exec .poolCellsRelease s) fun u => u.rgm.waiting = [] ∧
    u.rgm.units = s.rgm.units ++ [{ v with cells := ceilDiv v.len 256, entered := s.ns }] ∧ { u with rgm := s.rgm } = s) ∧
  (∀ (s : State) (v : Unit_) (chan : Nat), s.rgm.units = [v] → v.chan = chan → v.colour = 3 →
    (s.meterOf v = none → exec (.redUnitRetest chan v.act v.cls) s = .next (State.egress { s with rgm := { s.rgm with units := [{ v with colour := 1 }] } } chan)) ∧
    ∀ m : Meter, s.meterOf v = some m → m.redDrop = false → m.mode = 2 → m.tc + (s.ns - m.at_) * m.cir < v.len * 1000 → m.tp + (s.ns - m.at_) * m.pir < v.len * 1000 →
      CompletesWith (exec (.redUnitRetest chan v.act v.cls) s) fun u => u.rgm.units = s.rgm.units ∧ u.host = s.host ∧ u.regs = s.regs ∧ u.telem = s.telem) ∧
  (∀ (s : State) (chan : Nat), chan < 43 → chan < s.rgm.chans.length →
    let c := s.chan chan
    let boundary := c.start + gateNs (s.rd (F.rgmChActive_entry chan c.entry))
    (s.ns < boundary → exec (.gateEntryAdvance chan) s = .next s) ∧
    (boundary ≤ s.ns → 1 ≤ c.entries → c.entries ≤ 64 → CompletesWith (exec (.gateEntryAdvance chan) s) fun u => u.chan chan = { c with entry := (c.entry + 1) % c.entries, start := boundary } ∧
      u.rd (F.rgmChGclStatus_entry chan) = (c.entry + 1) % c.entries ∧ { u with rgm := s.rgm, regs := s.regs } = s) ∧
    (∀ (src : Src) (entries cycleM1 : Nat), s.reaches src = true → 1 ≤ entries → entries ≤ 64 → cycleM1 ≤ 65534 →
      let t := s.rd64 (F.rgmChTakeoverLo_beat chan) (F.rgmChTakeoverHi_beat chan)
      CompletesWith (exec (.gateListArm src chan entries cycleM1) s) fun u => u.rd (F.rgmChGclCtrl_entries chan) = entries ∧ u.rd (F.rgmChGclCtrl_cycleM1 chan) = cycleM1 ∧
        (Sys2Proof.Claims.ListFits s chan entries (cycleM1 + 1) t → u.rd (F.rgmChGclCtrl_arm chan) = 1 ∧ (u.chan chan).armed = some t ∧ u.reg F.rgmErr_valid.off = s.reg F.rgmErr_valid.off) ∧
        (¬ Sys2Proof.Claims.ListFits s chan entries (cycleM1 + 1) t → u.rd (F.rgmChGclCtrl_arm chan) = 0 ∧ (u.chan chan).armed = none ∧ u.rd F.rgmErr_valid = 1 ∧
          (s.rd F.rgmErr_valid = 0 → u.rd F.rgmErr_kind < 5 ∧ u.rd F.rgmErr_channel = chan))) ∧
    ∀ t : Nat, c.armed = some t →
      (t ≤ s.tally.beat → ∀ src : Src, exec (.gateListCancel src chan) s = .next s) ∧
      (s.tally.beat < t → ∀ src : Src, s.reaches src = true → CompletesWith (exec (.gateListCancel src chan) s) fun u => u.rd (F.rgmChGclCtrl_arm chan) = 0 ∧ u.rd (F.rgmChGclStatus_cancelled chan) = 1 ∧
        u.chan chan = { c with armed := none } ∧ { u with rgm := s.rgm, regs := s.regs } = s) ∧
      (t ≤ s.tally.beat → CompletesWith (exec (.gateTakeover chan) s) fun u =>
        (∀ i < 64, u.rd (F.rgmChActive_entry chan i) = s.rd (F.rgmChPend_entry chan i) ∧ u.rd (F.rgmChPend_entry chan i) = s.rd (F.rgmChActive_entry chan i)) ∧
        u.chan chan = { c with entries := s.rd (F.rgmChGclCtrl_entries chan), cycle := s.rd (F.rgmChGclCtrl_cycleM1 chan) + 1, entry := 0, start := t * 1024, armed := none } ∧
        u.rd (F.rgmChGclCtrl_arm chan) = 0 ∧ u.rd (F.rgmChGclStatus_tookOver chan) = 1 ∧ { u with rgm := s.rgm, regs := s.regs, telem := s.telem } = s)) ∧
  (∀ (s : State) (src : Src) (act group cls mode : Nat) (redDrop : Bool), s.reaches src = true → act < 16 → group < 4 → 1 ≤ cls → cls ≤ 3 → mode < 3 →
    let n := act * 16 + group * 4 + cls
    let most := if group = 1 then 9216 else if group = 2 then 16448 else 4160
    let rate := if mode = 2 then s.rd (F.rgmMtrCir_mbps n) else s.rd (F.rgmMtrPir_mbps n)
    ((mode = 0 ∨ rate ≠ 0) → most ≤ s.rd (F.rgmMtrCbs_bytes n) → most ≤ s.rd (F.rgmMtrPbs_bytes n) → CompletesWith (exec (.meterApply src act group cls mode redDrop) s) fun u =>
      u.rgm = { s.rgm with applies := s.rgm.applies.filter (·.1.num != n) ++
        [(⟨n, mode, redDrop, s.rd (F.rgmMtrCir_mbps n), s.rd (F.rgmMtrPir_mbps n), s.rd (F.rgmMtrCbs_bytes n), s.rd (F.rgmMtrPbs_bytes n), 0, 0, 0⟩, s.tally.beat)] } ∧
      RegsOnly { s with rgm := u.rgm } u [(F.rgmMtrCtrl_mode n).off] ∧ u.rd (F.rgmMtrCtrl_mode n) = mode) ∧
    ((mode ≠ 0 ∧ rate = 0) ∨ s.rd (F.rgmMtrCbs_bytes n) < most ∨ s.rd (F.rgmMtrPbs_bytes n) < most → s.rd F.rgmErr_valid = 0 → CompletesWith (exec (.meterApply src act group cls mode redDrop) s) fun u =>
      RegsOnly s u [(F.rgmMtrCtrl_mode n).off, F.rgmErr_valid.off] ∧ u.rd F.rgmErr_kind = 6 ∧ u.rd F.rgmErr_channel = group * 16 + cls ∧ u.rd F.rgmErr_act = act)) ∧
  (∀ (s : State) (m : Meter) (b : Nat), s.rgm.applies = [(m, b)] → b < s.tally.beat →
    ((∀ x ∈ s.rgm.meters, x.num ≠ m.num) → CompletesWith (exec .meterApplyEffect s) fun u =>
      u = { s with rgm := { s.rgm with applies := [], meters := { m with tc := m.cbs * 1000, tp := m.pbs * 1000, at_ := s.ns } :: s.rgm.meters } }) ∧
    ∀ x : Meter, s.rgm.meters = [x] → x.num = m.num → x.mode ≠ 0 → CompletesWith (exec .meterApplyEffect s) fun u => u.rgm.applies = [] ∧
      u.rgm.meters = [{ m with tc := min (min (x.tc + (s.ns - x.at_) * x.cir) (x.cbs * 1000)) (m.cbs * 1000), tp := min (min (x.tp + (s.ns - x.at_) * x.pir) (x.pbs * 1000)) (m.pbs * 1000), at_ := s.ns }]) ∧
  (∀ (s : State) (src : Src) (chan cells : Nat), s.reaches src = true → chan < 43 → cells < 2 ^ 19 →
    let sum := ((List.range 43).map fun n => if n = chan then cells else s.rd (F.rgmChReserve_cells n)).sum
    (2 * ceilDiv (chanLargest chan) 256 ≤ cells → sum ≤ 196608 → s.rgm.waiting = [] → CompletesWith (exec (.reserveWrite src chan cells) s) fun u =>
      RegsOnly s u [(F.rgmChReserve_cells chan).off] ∧ u.rd (F.rgmChReserve_cells chan) = cells) ∧
    (cells < 2 * ceilDiv (chanLargest chan) 256 ∨ 196608 < sum → s.rd F.rgmErr_valid = 0 → CompletesWith (exec (.reserveWrite src chan cells) s) fun u =>
      RegsOnly s u [F.rgmErr_valid.off] ∧ u.rd F.rgmErr_kind = 5 ∧ u.rd F.rgmErr_channel = chan)) ∧
  ∀ (s : State) (r : List Byte), s.on F.rgmCtrl_sampleEn = true → s.tally.beat % 2 ^ s.rd F.rgmSampleCtrl_periodLog2 = 0 → s.rgm.sampled ≠ s.tally.beat + 1 →
    (((List.range 43).filter (s.rd F.rgmSampleChLo_sample + 2 ^ 32 * s.rd F.rgmSampleChHi_sample).testBit).flatMap queuesOf).filterMap (fun q => s.sampleOf q.1 q.2.1 q.2.2) = [r] →
    let size := 2 ^ s.rd F.rgmSampleCtrl_ringLog2
    let w := s.rd F.rgmSampleWr_index
    let used := (w + 2 ^ 32 - s.rd F.rgmSampleRd_index) % 2 ^ 32
    let a := s.rd F.rgmSampleBaseLo_base * 4096 + s.rd F.rgmSampleBaseHi_base * 2 ^ 32 + w % size * 32
    (used < size → s.canonical = true → s.holder true a 32 = none → Writable s a 32 → CompletesWith (exec .queueSample s) fun u =>
      r.length = 32 ∧ Stores s u a r ∧ u.rd F.rgmSampleWr_index = (w + 1) % 2 ^ 32 ∧ u.rgm.sampled = s.tally.beat + 1) ∧
    (used = size → CompletesWith (exec .queueSample s) fun u => u.rd F.rgmSampleDrop_count = min (s.rd F.rgmSampleDrop_count + 1) (2 ^ 32 - 1) ∧ u.mem = s.mem ∧
      u.ctr 0xA33 = (s.ctr 0xA33 + 1) % 2 ^ 64)

/-- BEAT_ADVANCE takes the beat one on and the sub-beat to 0, shows the mean power up to the limit, and a Calliope sends the marker of the
new beat. A marker corrects a locked node; a node that is not locked loads its beat and sets STEPPED where it differs by more than 1. Four beats
without a marker are holdover, and more than 1,024 of it end LOCKED. A handover with notice of 1,024 beats is broadcast and registered, a received one goes on,
and at its beat changes the Calliope; with less it has no effect. A clock failure of the source in use sets CLOCK_FAIL and holdover and
raises source 7. The Calliope broadcasts its wall anchor; a member keeps a received one. A domain whose event is near starts to wake, and
reaches P0. P4 is entered where every condition holds and is left in 5 ms. A filtered PWR_FAIL_N latches, begins the flush and alerts,
once; a shorter pulse is only counted; deasserted it re-arms, and after 1,024 beats raises source 5. A filtered HOLDUP_OK is noted. A warning holds
and alerts until it clears; a trip asserts THERMTRIP_N and closes the net; the refresh rate of a stack is noted. (R399, R402, R403, R404,
R405, R406, R410, R411, R412, R337, R485, R507) -/
def Obligations.TimeAndPower : Prop :=
  (∀ (s : State) (mean estimate : Nat) (calIn : Bool), s.idx.heldApps = [] → s.fun_.held = [] → s.idx.indexes = [] → s.rd F.rstActStatus_busy = 0 → s.pwr.p4Exit = none →
    CompletesWith (exec (.beatAdvance mean estimate calIn []) s) fun u => u.tally.beat = s.tally.beat + 1 ∧ u.tally.sub = 0 ∧ u.rd F.pwrPower_watts = min mean 1600 ∧
      u.on F.talStatus_calInOk = calIn ∧ s.tally.committed ≤ u.tally.committed ∧ s.tally.stable ≤ u.tally.stable ∧
      (s.on F.talStatus_calliope = true → .marker (s.tally.beat + 1) ∈ u.host.out)) ∧
  (∀ (s : State) (beat calliope : Nat) (err : Int), s.on F.talStatus_calliope = false → calliope < 64 →
    let seen := fun u : State => u.on F.talStatus_locked = true ∧ u.on F.talStatus_holdover = false ∧ u.rd F.talStatus_calliopeNode = calliope ∧ u.on F.carStatus_beatLock = true ∧
      u.on F.carStatus_alone = false ∧ u.rd F.talPhaseErr_ns = (BitVec.ofInt 16 err).toNat
    (s.carState ≠ 0 → s.on F.talStatus_locked = true → CompletesWith (exec (.beatMarkerReceive beat err calliope) s) fun u => seen u ∧ u.tally = s.tally ∧
      u.car = { s.car with lastMarker := s.tally.beat }) ∧
    (s.carState ≠ 0 → s.on F.talStatus_locked = false → s.on F.talStatus_stepped = false → CompletesWith (exec (.beatMarkerReceive beat err calliope) s) fun u => seen u ∧ u.tally = { s.tally with beat := beat, sub := 0 } ∧
      u.car = { s.car with lastMarker := beat } ∧ u.on F.talStatus_stepped = decide (s.tally.beat + 1 < beat ∨ beat + 1 < s.tally.beat))) ∧
  (∀ s : State, s.on F.talStatus_calliope = false → s.carState ≠ 0 → s.car.lastMarker + 4 ≤ s.tally.beat →
    (s.on F.talStatus_holdover = false → CompletesWith (exec .markerTimeout s) fun u => u.on F.talStatus_holdover = true ∧ u.tally = { s.tally with holdFrom := s.tally.beat } ∧
      u.rd F.talStatus_locked = s.rd F.talStatus_locked) ∧
    (s.on F.talStatus_holdover = true → s.tally.holdFrom + 1024 < s.tally.beat → CompletesWith (exec .markerTimeout s) fun u =>
      RegsOnly s u [F.talStatus_locked.off, F.carStatus_beatLock.off] ∧ u.on F.talStatus_locked = false ∧ u.on F.talStatus_holdover = true)) ∧
  (∀ (s : State) (src : Src), manages src = true → s.isMember = true →
    let b := s.rd64 F.talHandoverBeatLo_beat F.talHandoverBeatHi_beat
    (s.tally.beat + 1024 ≤ b → (b, s.position) ∉ s.tally.handovers → CompletesWith (exec (.calliopeHandoverRequest src) s) fun u =>
      u.tally = { s.tally with handovers := s.tally.handovers ++ [(b, s.position)] } ∧ u.host.out = .bcast s.bcastLink (.handover s.position b) :: s.host.out ∧ u.regs = s.regs) ∧
    (b < s.tally.beat + 1024 → exec (.calliopeHandoverRequest src) s = .next s) ∧
    (∀ node beat : Nat, (beat, node) ∉ s.tally.handovers → CompletesWith (exec (.handoverBroadcastReceive node beat) s) fun u =>
      u.tally = { s.tally with handovers := s.tally.handovers ++ [(beat, node)] } ∧ u.host.out = .bcastAck s.bcastLink (.handover node beat) :: .bcast s.bcastLink (.handover node beat) :: s.host.out ∧ u.regs = s.regs) ∧
    (∀ beat sec ns : Nat, CompletesWith (exec (.wallAnchorReceive beat sec ns) s) fun u => u.tally = { s.tally with wall := some (beat, sec, ns) } ∧
      u.host.out = .bcastAck s.bcastLink (.wall beat sec ns) :: .bcast s.bcastLink (.wall beat sec ns) :: s.host.out ∧ u.regs = s.regs) ∧
    (s.on F.talStatus_calliope = true → CompletesWith (exec (.wallPublish src) s) fun u => u.host.out =
      .bcast s.bcastLink (.wall (s.rd64 F.talWallBeatLo_beat F.talWallBeatHi_beat) (s.rd64 F.talWallSecLo_sec F.talWallSecHi_sec) (s.rd F.talWallNs_ns)) :: s.host.out ∧ u.tally = s.tally ∧ u.regs = s.regs)) ∧
  (∀ (s : State) (beat node : Nat), s.tally.handovers = [(beat, node)] → beat ≤ s.tally.beat → node < 64 → CompletesWith (exec .calliopeHandover s) fun u =>
    u.tally = { s.tally with handovers := [] } ∧ u.rd F.talStatus_calliopeNode = node ∧ u.on F.talStatus_calliope = (node == s.position) ∧ u.car.lastMarker = s.tally.beat) ∧
  (∀ s : State, s.rst.run = none →
    (s.on F.talStatus_holdover = false → CompletesWith (exec (.clockFailure true) s) fun u => u.on F.talStatus_clockFail = true ∧ u.on F.talStatus_holdover = true ∧
      u.tally = { s.tally with holdFrom := s.tally.beat, clockFails := s.tally.clockFails ++ [s.tally.beat] } ∧ u.rst = { s.rst with raised := s.rst.raised ++ [⟨7, s.fusedLevel 7, s.tally.beat⟩] }) ∧
    (s.on F.talStatus_calliope = false ∨ s.rd F.talCalCtrl_source ≠ 1 → exec (.clockFailure false) s = .next s)) ∧
  (∀ (s : State) (crew : Bool) (n t : Nat),
    let d := if crew then Domain.crew n else Domain.stack n
    (s.powerOf d ≠ 0 → (∀ w ∈ s.pwr.waking, w.1 ≠ d) → s.timeLeft d = some t → t ≤ ceilDiv (wakeNs (s.powerOf d) + s.rd F.pwrCtrl_marginNs) 1024 * 1024 →
      CompletesWith (exec (.domainWakeStart crew n) s) fun u => u.pwr = { s.pwr with waking := s.pwr.waking ++ [(d, s.ns + wakeNs (s.powerOf d))] } ∧
        RegsOnly { s with pwr := u.pwr } u [F.pwrStatus_waking.off] ∧ u.on F.pwrStatus_waking = true) ∧
    (s.pwr.waking = [(d, t)] → t ≤ s.ns → n < (if crew then 16 else 24) → CompletesWith (exec (.domainWakeComplete crew n) s) fun u => u.pwr = { s.pwr with waking := [] } ∧
      u.powerOf d = 0 ∧ u.on F.pwrStatus_waking = false ∧ { u with pwr := s.pwr, regs := s.regs } = s)) ∧
  (∀ (s : State) (src : Src), manages src = true →
    let may := s.on F.pwrCtrl_p4En = true ∧ s.carState = 0 ∧ (∀ a, 1 ≤ a → a < 16 → s.on (F.actCtrl_enable a) = false) ∧ s.flash.jbuf = [] ∧ s.flash.flushing = none
    (may → CompletesWith (exec (.p4Enter src) s) fun u => u.on F.pwrStatus_p4 = true ∧ u.on F.talStatus_holdover = true) ∧ (¬ may → exec (.p4Enter src) s = .next s) ∧
    (s.on F.pwrStatus_p4 = true → s.pwr.p4Exit = none →
      exec (.p4Wake src) s = .next { s with pwr := { s.pwr with p4Exit := some (s.ns + 5000000) } } ∧
      (s.rd64 F.pwrP4WakeLo_beat F.pwrP4WakeHi_beat ≠ 0 → s.rd64 F.pwrP4WakeLo_beat F.pwrP4WakeHi_beat ≤ s.tally.beat →
        exec .p4TimedWake s = .next { s with pwr := { s.pwr with p4Exit := some (s.ns + 5000000) } }))) ∧
  (∀ (s : State) (held : Nat),
    (held < s.rd F.rstFilter_width → exec (.powerFailAssert held) s = .next (s.count 0xE05 1) ∧ exec (.powerFailDeassert held) s = .next (s.count 0xE05 1)) ∧
    (s.rd F.rstFilter_width ≤ held →
      (s.on F.funInputs_pwrFailLatched = false → s.flash.quiet = false → CompletesWith (exec (.powerFailAssert held) s) fun u => u.on F.funInputs_pwrFailLatched = true ∧
        u.flash.quiet = true ∧ u.flash.folds = [] ∧ u.flash.flushing = some s.tally.beat ∧ u.flash.jout = s.flash.jout ++ s.flash.jbuf ∧ u.flash.pages = s.flash.pages ∧
        u.pins.failAt = s.ns ∧ 2 ∈ u.pins.alerts ∧ u.ctr 0xE06 = (s.ctr 0xE06 + 1) % 2 ^ 64 ∧ u.mem = s.mem) ∧
      (s.on F.funInputs_pwrFailLatched = true → exec (.powerFailAssert held) s = .next s) ∧
      (s.on F.funInputs_pwrFailLatched = true → CompletesWith (exec (.powerFailDeassert held) s) fun u => u.on F.funInputs_pwrFailLatched = false ∧
        u.pins.failClear = some s.tally.beat ∧ 2 ∉ u.pins.alerts ∧ u.flash = s.flash))) ∧
  (∀ (s : State) (b : Nat), s.pins.failClear = some b → b + 1024 ≤ s.tally.beat → s.pins.powered = true → s.flash.pd.isSome = true → s.on F.funInputs_pwrFailLatched = false → s.rst.run = none →
    CompletesWith (exec .powerFailClearReset s) fun u => u.pins = { s.pins with failClear := none } ∧
      u.rst = { s.rst with raised := s.rst.raised ++ [⟨5, min 1 (s.fusedLevel 5), s.tally.beat⟩] } ∧ u.regs = s.regs) ∧
  (∀ (s : State) (low : Bool) (held : Nat),
    (held < s.rd F.rstFilter_width → exec (.holdupChange low held) s = .next (s.count 0xE05 1)) ∧
    (s.rd F.rstFilter_width ≤ held → CompletesWith (exec (.holdupChange low held) s) fun u => u.flash.pinShort = low ∧ u.on F.funInputs_holdupLow = low ∧
      u.flash.pages = s.flash.pages ∧ u.flash.maps = s.flash.maps ∧ { u with flash := s.flash, regs := s.regs } = s)) ∧
  (∀ (s : State) (crew : Bool) (n : Nat),
    let d := if crew then Domain.crew n else Domain.stack n
    (n < (if crew then 16 else 24) →
      (d ∉ s.pins.hot → CompletesWith (exec (.thermalWarning crew n) s) fun u => u.pins.hot = s.pins.hot ++ [d] ∧ 0 ∈ u.pins.alerts ∧ u.ctr 0xF2A = (s.ctr 0xF2A + 1) % 2 ^ 64 ∧
        u.host.out = (if s.alerting = true then s.host.out else .alert false true :: s.host.out) ∧ u.regs = s.regs) ∧
      (s.pins.tripped = false → CompletesWith (exec (.thermalTrip crew n) s) fun u => u.pins.tripped = true ∧ 1 ∈ u.pins.alerts ∧ .alert true true ∈ u.host.out ∧
        u.on F.carStatus_netClosed = true ∧ (∀ l < 8, u.rd (F.carLinkStatus_txUp l) = 0 ∧ u.rd (F.carLinkStatus_rxUp l) = 0) ∧ u.mem = s.mem)) ∧
    (s.pins.hot = [d] → CompletesWith (exec (.thermalWarningClear crew n) s) fun u => u.pins.hot = [] ∧ 0 ∉ u.pins.alerts ∧ u.regs = s.regs ∧
      (s.pins.alerts = [0] → s.on F.funSpareLog_valid = false → u.host.out = .alert false false :: s.host.out))) ∧
  ∀ (s : State) (stack : Nat) (double : Bool), stack < 24 → CompletesWith (exec (.stackRefreshDouble stack double) s) fun u =>
    (stack ∈ u.pins.doubled ↔ double = true) ∧ (∀ k, k ≠ stack → (k ∈ u.pins.doubled ↔ k ∈ s.pins.doubled)) ∧ { u with pins := { u.pins with doubled := s.pins.doubled } } = s

/-- A loader call has ended: its job returns with this status, DETAIL, RESULT and result area. -/
def Sys2Proof.Claims.Returned (u : State) (j : Job) (status detail result : Nat) (ret : List Byte) : Prop :=
  u.job? j.id = some { j with phase := .running, status := status, detail := detail, result := result, ret := ret }

/-- A job stands at a loader call of flash control with a block that R318 does not refuse, of operation `op` and one entry for segment `lseg` with this STATE and GEN; no SEAL waits, no recovery runs, and power is not failing. -/
def Sys2Proof.Claims.FlashCall (s : State) (job : Nat) (j : Job) (op lseg state gen : Nat) : Prop :=
  s.loaderCall job 7 = some j ∧ s.blockRefused j = false ∧ s.flash.quiet = false ∧ s.flash.recover = none ∧ leAt j.data 0 1 = op ∧ leAt j.data 4 4 = 1 ∧ s.flash.sealings = [] ∧
  leAt (entryOf j.data 0) 0 4 = lseg ∧ leAt (entryOf j.data 0) 4 1 = state ∧ leAt (entryOf j.data 0) 8 4 = gen

/-- The write `wseq` has started at some place on its way to the cells, and every other write stays. -/
def Sys2Proof.Claims.WriteStarted (s u : State) (w : FWrite) (slc : Bool) : Prop :=
  ∃ pl : Place, u.flash.writes = s.flash.writes.map (fun x => if x.wseq = w.wseq then { x with started := true, slc := slc, place := pl } else x) ∧
    Offered u (10 + pl.chan) w.act (if w.strand = 0 then 2 else 1) (.flash false pl.chan (w.wseq * 4))

/-- A copy of a page is on its way (R332), or waits for the next flush to allocate blocks for it (R335): 1 a relocation, 2 a rebuild. -/
def Sys2Proof.Claims.CopyUnderWay (u : State) (p : FPage) (kind : Nat) : Prop :=
  (∃ x ∈ u.flash.folds, x.act = p.act ∧ x.page = p.page ∧ x.wseq = p.wseq) ∨ (p.act, p.page, kind) ∈ u.flash.owed

/-- FORMAT leaves no map, page or attachment, and is refused while an act is enabled. ATTACH binds a map of matching GEN and state, and
with FINAL attaches the act; OPEN makes an open map of a new GEN while capacity is left; SEAL seals, and ends at once where no page is
written, and waits while one is on its way or outside its run; REOPEN opens again; FREE removes the map and its pages; a wrong GEN is
refused. A finished program makes its page durable unless a later operation has won; a failed one retires its block, relocates its pages
and starts elsewhere; a failed erase retires its block; a waiting write starts where a slot stands. Folding takes the foldable page of
least WSEQ to the next slot or its run's; a verified copy's flip moves the page, keeps its contents and is journalled, and a newer write
or a failed check cancels it; wear levelling relocates a page of the least-worn blocks. A flush takes the buffer's records, allocates
blocks, and ends with them ready; in a power-down it writes the record. A silent die and a die of
ADT_DIE_RETIRE are retired, their pages on the way to the reserve, a second failure in a stripe losing its pages; the rebuild ends when no
page is left. (R318, R319, R320, R321, R324, R325, R328, R331, R332, R334, R335, R342) -/
def Obligations.FlashControl : Prop :=
  (∀ (s : State) (job : Nat) (j : Job), s.loaderCall job 7 = some j → (∀ x ∈ s.flash.sealings, x.job ≠ job) → leAt j.data 0 1 = 0 → s.flash.quiet = false → s.flash.recover = none →
    (s.blockRefused j = false → (∀ a, 1 ≤ a → a < 16 → s.on (F.actCtrl_enable a) = false) → CompletesWith (exec (.flashFormat job) s) fun u => u.flash.formatted = true ∧
      u.flash.permille = leAt j.data 2 2 ∧ u.flash.maps = [] ∧ u.flash.pages = [] ∧ u.flash.attached = [] ∧ u.flash.folds = [] ∧ u.flash.jbuf = [] ∧ Sys2Proof.Claims.Returned u j 0 0 0 [] ∧ u.mem = s.mem) ∧
    (s.blockRefused j = true ∨ (∃ a, 1 ≤ a ∧ a < 16 ∧ s.on (F.actCtrl_enable a) = true) → CompletesWith (exec (.flashFormat job) s) fun u => Sys2Proof.Claims.Returned u j 0x61 0x13 0 [] ∧ u.flash = s.flash)) ∧
  (∀ (s : State) (job lseg gen : Nat) (j : Job) (m : SegMap), (s.flash.maps.find? fun m => m.act == j.act && m.lseg == lseg) = some m → (∀ i ∈ s.idx.indexes, i.act ≠ j.act) →
    let g := (s.flash.gen + 1) % 2 ^ 32
    let others := s.flash.maps.filter fun x => !(x.act == j.act && x.lseg == lseg)
    (Sys2Proof.Claims.FlashCall s job j 1 lseg (if m.sealed then 2 else 1) m.gen → (∀ x ∈ s.flash.maps, x.id = m.id → x = m) → j.act ≠ 0 →
      CompletesWith (exec (.flashAttach job) s) fun u => u.flash.maps = s.flash.maps.map (fun x => if x = m then { m with bound := true } else x) ∧
        (j.act ∈ u.flash.attached ↔ leAt j.data 1 1 = 1 ∨ j.act ∈ s.flash.attached) ∧ Sys2Proof.Claims.Returned u j 0 0 1 (entryBytes j.act lseg (if m.sealed then 2 else 1) m.gen) ∧ u.flash.pages = s.flash.pages) ∧
    (gen ≠ m.gen → ∀ state : Nat, Sys2Proof.Claims.FlashCall s job j 1 lseg state gen → CompletesWith (exec (.flashAttach job) s) fun u => Sys2Proof.Claims.Returned u j 0x61 0x13 0 [] ∧
      u.flash.maps = s.flash.maps ∧ u.flash.attached = s.flash.attached) ∧
    (Sys2Proof.Claims.FlashCall s job j 3 lseg 1 m.gen → m.bound = true → m.sealed = false →
      (s.flash.writes = [] → (∀ p ∈ s.flash.pages, p.act = j.act → p.page / 65536 = lseg → p.data = none) → (∀ x ∈ s.flash.maps, x.id = m.id → x = m) → CompletesWith (exec (.flashSegmentSeal job) s) fun u =>
        u.flash.maps = others ++ [{ m with sealed := true, gen := g, runs := [] }] ∧
        Sys2Proof.Claims.Returned u j 0 0 1 (entryBytes j.act lseg 2 g) ∧ u.flash.sealings = [] ∧ u.flash.pages = s.flash.pages) ∧
      ((∃ w ∈ s.flash.writes, w.map = m.id) ∨ (∃ p ∈ s.flash.pages, p.act = j.act ∧ p.page / 65536 = lseg ∧ p.data.isSome = true) → CompletesWith (exec (.flashSegmentSeal job) s) fun u =>
        u.flash.maps = others ++ [{ m with sealed := true, gen := g, runs := [] }] ∧ u.job? job = some j ∧
        ∃ x, u.flash.sealings = [x] ∧ x.job = job ∧ x.status = 0 ∧ x.result = 1 ∧ x.ret = entryBytes j.act lseg 2 g)) ∧
    (Sys2Proof.Claims.FlashCall s job j 4 lseg 2 m.gen → m.bound = true → m.sealed = true → s.mayOpen j.act = true → CompletesWith (exec (.flashSegmentReopen job) s) fun u =>
      u.flash.maps = others ++ [{ m with sealed := false, gen := g, runs := [] }] ∧ Sys2Proof.Claims.Returned u j 0 0 1 (entryBytes j.act lseg 1 g) ∧ u.flash.pages = s.flash.pages) ∧
    (Sys2Proof.Claims.FlashCall s job j 5 lseg (if m.sealed then 2 else 1) m.gen → m.bound = true → CompletesWith (exec (.flashSegmentFree job) s) fun u => u.flash.maps = others ∧
      Sys2Proof.Claims.Returned u j 0 0 1 (entryBytes j.act lseg 0 g) ∧ u.flash.pages = s.flash.pages.filter (fun p => !(p.act == j.act && p.page / 65536 == lseg)))) ∧
  (∀ (s : State) (job lseg gen : Nat) (j : Job), (∀ x ∈ s.flash.maps, x.act = j.act → x.lseg ≠ lseg) → Sys2Proof.Claims.FlashCall s job j 2 lseg 0 gen → lseg < 2 ^ 20 → s.mayOpen j.act = true →
    let g := (s.flash.gen + 1) % 2 ^ 32
    (s.flash.maps.length < s.flash.logicalGib → CompletesWith (exec (.flashSegmentOpen job) s) fun u => u.flash.maps = s.flash.maps ++ [⟨s.nextId, j.act, lseg, g, false, true, []⟩] ∧
      u.flash.jbuf = s.flash.jbuf ++ [.seg j.act lseg g none []] ∧ Sys2Proof.Claims.Returned u j 0 0 1 (entryBytes j.act lseg 1 g)) ∧
    (s.flash.logicalGib ≤ s.flash.maps.length → CompletesWith (exec (.flashSegmentOpen job) s) fun u => Sys2Proof.Claims.Returned u j 0x21 0 0 [] ∧ u.flash.maps = s.flash.maps)) ∧
  (∀ (s : State) (w : FWrite), (s.flash.writes.find? fun x => x.wseq == w.wseq && x.started) = some w →
    (s.inTransfer w.wseq 0 = false → s.flash.sealings = [] → (w.strand = 0 ∨ ∃ x ∈ s.flash.writes, x.wseq ≠ w.wseq ∧ x.strand = w.strand ∧ x.tag = w.tag) →
      (∀ m : SegMap, s.flash.maps.find? (·.id == w.map) = some m → (∀ p, s.flash.page? w.act w.page = some p → p.wseq ≤ w.wseq) → CompletesWith (exec (.flashProgramComplete w.wseq) s) fun u =>
        u.flash.page? w.act w.page = some ⟨w.act, w.page, w.wseq, m.gen, 0, some w.data, w.slc, w.place, false⟩ ∧ u.flash.writes = s.flash.writes.filter (·.wseq != w.wseq) ∧ { u.fil with allocs := s.fil.allocs } = s.fil ∧ (w.strand ≠ 0 → u.fil = s.fil) ∧ u.mem = s.mem ∧
        ∀ a p, (a ≠ w.act ∨ p ≠ w.page) → u.flash.page? a p = s.flash.page? a p) ∧
      (∀ p : FPage, s.flash.page? w.act w.page = some p → w.wseq < p.wseq → CompletesWith (exec (.flashProgramComplete w.wseq) s) fun u => u.flash.pages = s.flash.pages ∧
        u.flash.writes = s.flash.writes.filter (·.wseq != w.wseq))) ∧
    (CompletesWith (exec (.flashProgramFail (.program w.wseq)) s) fun u => u.flash.retBlocks = s.flash.retBlocks + 1 ∧ u.flash.badBlocks = s.flash.badBlocks ++ [(w.place.chan, w.place.stripe)] ∧
      u.flash.pages = s.flash.pages ∧ (∀ x ∈ u.flash.stripes, x.num = w.place.stripe → x.next = u.flash.slotsOf x) ∧ u.ctr 0x808 = (s.ctr 0x808 + 1) % 2 ^ 64 ∧
      ∀ p ∈ s.flash.pages, p.data.isSome = true → p.place.chan = w.place.chan → p.place.stripe = w.place.stripe → Sys2Proof.Claims.CopyUnderWay u p 1) ∧
    (s.flash.quiet = false → (∀ p ∈ s.flash.pages, p.data.isSome = true → p.place.chan = w.place.chan → p.place.stripe ≠ w.place.stripe) →
      ((s.flash.close (·.num == w.place.stripe)).slots? w.slc 1).isSome = true →
      CompletesWith (exec (.flashProgramFail (.program w.wseq)) s) fun u => Sys2Proof.Claims.WriteStarted s u w w.slc)) ∧
  (∀ (s : State) (chan stripe : Nat), chan ∈ s.flash.liveChans stripe → stripe < 16 * s.flash.card.blocks → (∀ x ∈ s.flash.stripes, x.num ≠ stripe) →
    CompletesWith (exec (.flashProgramFail (.erase chan stripe)) s) fun u => u.flash.retBlocks = s.flash.retBlocks + 1 ∧ u.flash.badBlocks = s.flash.badBlocks ++ [(chan, stripe)] ∧
      u.ctr 0x808 = (s.ctr 0x808 + 1) % 2 ^ 64 ∧ u.flash.pages = s.flash.pages) ∧
  (∀ (s : State) (w : FWrite) (slc : Bool), (s.flash.writes.find? fun x => x.wseq == w.wseq && !x.started) = some w →
    (s.writeRoom = some slc → (s.flash.slots? slc 1).isSome = true → CompletesWith (exec (.flashWriteResume w.wseq) s) fun u => Sys2Proof.Claims.WriteStarted s u w slc ∧ u.flash.pages = s.flash.pages ∧ u.mem = s.mem) ∧
    (s.writeRoom = some slc → s.flash.slots? slc 1 = none → CompletesWith (exec (.flashWriteResume w.wseq) s) fun u => u.flash.writes = s.flash.writes ∧ u.rgm = s.rgm) ∧
    (s.writeRoom = none → exec (.flashWriteResume w.wseq) s = .next s)) ∧
  (∀ (s : State) (p : FPage), s.flash.quiet = false →
    (p ∈ s.flash.pages → s.foldable p = true → (∀ q ∈ s.flash.pages, s.foldable q = true → q = p ∨ p.wseq < q.wseq) →
      (s.foldPlace p = none → exec .foldStart s = .next s) ∧
      ∀ pl v, s.foldPlace p = some (pl, v) → CompletesWith (exec .foldStart s) fun u =>
        u.flash.folds = s.flash.folds ++ [⟨p.act, p.page, p.wseq, 0, pl⟩] ∧ Offered u (10 + p.place.chan) p.act 3 (.flash true p.place.chan (p.wseq * 4 + 1)) ∧
        Offered u (10 + pl.chan) p.act 3 (.flash false pl.chan (p.wseq * 4 + 1)) ∧ u.flash.pages = s.flash.pages ∧ u.regs = s.regs ∧
        ∀ m, s.flash.mapOf p.act p.page = some m →
          (m.sealed = false → ∀ x, s.flash.slots? false 1 = some x → pl = x.place x.next) ∧
          (m.sealed = true → ∀ r, m.runs.find? (·.idx == p.page / 256) = some r → pl = s.flash.runPlace r p.page)) ∧
    (s.flash.page? p.act p.page = some p → p.data.isSome = true → s.flash.inRun p = false → (∀ x ∈ s.flash.folds, x.act = p.act → x.page = p.page → x.wseq ≠ p.wseq) →
      (s.flash.worn p = true → ∀ x, s.flash.slots? p.slc 1 = some x → CompletesWith (exec (.wearRelocate p.act p.page) s) fun u =>
        let pl := x.place x.next
        u.flash.folds = s.flash.folds ++ [⟨p.act, p.page, p.wseq, 1, pl⟩] ∧ Offered u (10 + pl.chan) p.act 3 (.flash false pl.chan (p.wseq * 4 + 2)) ∧ u.flash.pages = s.flash.pages ∧ u.regs = s.regs) ∧
      (s.flash.worn p = false → exec (.wearRelocate p.act p.page) s = .next s))) ∧
  (∀ (s : State) (x : Fold) (p : FPage), (s.flash.folds.find? fun y => y.act == x.act && y.page == x.page) = some x → s.inTransfer x.wseq (if x.kind = 0 then 1 else 2) = false →
    s.flash.page? x.act x.page = some p → p.wseq = x.wseq → p.data.isSome = true →
    let ended := fun u : State => ∀ y ∈ u.flash.folds, y ∈ s.flash.folds ∧ (y.act = x.act → y.page = x.page → y.wseq ≠ x.wseq)
    let kept := fun u : State => u.flash.pages = s.flash.pages ∧ u.flash.jbuf = s.flash.jbuf
    (s.flash.buffered x.act x.page = none →
      (CompletesWith (exec (.foldFlip x.act x.page true) s) fun u => u.flash.page? x.act x.page = some { p with kind := 2, place := x.place, slc := p.slc && x.kind != 0 } ∧
        (∀ a q, (a ≠ x.act ∨ q ≠ x.page) → u.flash.page? a q = s.flash.page? a q) ∧ u.flash.jbuf = s.flash.jbuf ++ [.flip x.act x.page p.place.stripe] ∧ ended u ∧
        (x.kind = 0 → u.ctr 0x804 = (s.ctr 0x804 + 1) % 2 ^ 64)) ∧
      (CompletesWith (exec (.foldFlip x.act x.page false) s) fun u => kept u ∧ (x.kind = 0 → ended u))) ∧
    ∀ (w : FWrite) (verified : Bool), s.flash.buffered x.act x.page = some w → CompletesWith (exec (.foldFlip x.act x.page verified) s) fun u => kept u ∧ ended u) ∧
  (∀ s : State, s.flash.formatted = true → s.flash.quiet = false → s.flash.flushing = none →
    (s.tally.beat % 2048 = 0 ∨ 2 ^ 25 ≤ journalBytes s.flash.jbuf → CompletesWith (exec .journalFlush s) fun u => u.flash.flushing = some s.tally.beat ∧ u.flash.jbuf = [] ∧
      (∃ l, u.flash.jout = s.flash.jout ++ s.flash.jbuf ++ l ∧ ∀ r ∈ l, ∃ n, r = .alloc n) ∧ (∃ l, u.flash.stripes = s.flash.stripes ++ l ∧ ∀ x ∈ l, x.ready = false) ∧
      u.flash.discOut = s.flash.discOut ++ s.flash.discWait ∧ u.flash.discWait = [] ∧ u.flash.pages = s.flash.pages ∧ u.mem = s.mem) ∧
    (journalBytes s.flash.jbuf < 2 ^ 25 → s.tally.beat % 2048 ≠ 0 → s.short = false → exec .journalFlush s = .next s)) ∧
  (∀ (s : State) (b : Nat), s.flash.flushing = some b → s.flash.discOut = [] → s.flash.discWait = [] → s.flash.writes = [] → CompletesWith (exec .journalFlushComplete s) fun u =>
    u.flash.flushing = none ∧ u.flash.jout = [] ∧ (∀ x ∈ u.flash.stripes, x.ready = true) ∧ u.rd64 F.adtFlushLo_beat F.adtFlushHi_beat = b % 2 ^ 64 ∧ u.ctr 0x805 = (s.ctr 0x805 + 1) % 2 ^ 64 ∧ u.flash.pages = s.flash.pages ∧
    (s.flash.quiet = false → u.flash.jbuf = s.flash.jbuf ∧ u.flash.pd = s.flash.pd) ∧ (s.flash.quiet = true → u.flash.jbuf = [] ∧ u.flash.pd = some s.flash.shortSince)) ∧
  (∀ (s : State) (chan die : Nat), s.flash.inUse chan die = true →
    let retired := fun u : State => u.flash.retDies = s.flash.retDies ++ [(chan, die)] ∧ u.flash.rebuild = s.flash.rebuild ++ [(chan, die)]
    ((∀ e ∈ s.flash.silent, e.1 = chan → e.2.1 = die → e.2.2 + 64 ≤ s.tally.beat) →
      (s.on F.funSpareLog_valid = false → chan < 32 → die < 16 → CompletesWith (exec (.dieAutoRetire chan die) s) fun u => retired u ∧ u.on F.funSpareLog_valid = true ∧ u.rd F.funSpareLog_kind = 6 ∧
        u.rd F.funSpareLog_unit = chan ∧ u.rd F.funSpareLog_index = die) ∧
      ∀ c : Nat, (c, die) ∈ s.flash.rebuild → c ≠ chan → CompletesWith (exec (.dieAutoRetire chan die) s) fun u => retired u ∧
        ∀ p ∈ s.flash.pages, p.data.isSome = true → p.place.die = die → (p.place.chan = chan ∨ p.place.chan = c) → { p with lost := true } ∈ u.flash.pages) ∧
    ∀ src : Src, s.reaches src = true →
      (s.flash.rebuild = [] → CompletesWith (exec (.adtDieRetire src chan die) s) fun u => retired u ∧ u.flash.pages = s.flash.pages ∧
        ∀ p ∈ s.flash.pages, p.data.isSome = true → p.lost = false → p.place.chan = chan → p.place.die = die → Sys2Proof.Claims.CopyUnderWay u p 2) ∧
      (s.flash.rebuild ≠ [] → exec (.adtDieRetire src chan die) s = .next s)) ∧
  (∀ (s : State) (src : Src) (chan die : Nat), s.flash.inUse chan die = false → exec (.adtDieRetire src chan die) s = .next s) ∧
  ∀ s : State, (∀ p ∈ s.flash.pages, p.data.isSome = true → p.lost = false → (p.place.chan, p.place.die) ∉ s.flash.rebuild) → CompletesWith (exec .dieRebuildComplete s) fun u =>
    u.flash.rebuild = [] ∧ u.flash.pages = s.flash.pages ∧ u.on F.adtStatus_rebuilding = false ∧ u.mem = s.mem

/-- A quota in range is stored. MEM_POOL moves the boundary only where no act is enabled, no job lives and no allocation is in the way;
else POOL_REFUSED. A scrub round of clean memory that no Winze operation holds changes none of it. A row whose copy is complete is served from its spare; a period
boundary clears the hits of its rows. Copy mode starts a copy, at whose end the mapping flips; dead mode makes every block of the channel
uncorrectable and leaves every other as it was; so does a failure with no spare left; a request that R309 does not take has no effect. The
flip mask arms unless its KIND is reserved. A spare hewer or core takes the place of the retired one, once; a failed one is marked, and
leaves service where the spare is used. With AUTO_EN a failed hewer is spared and logged, and one without a spare left is logged as
EXHAUSTED and alerts; a condition of Table 17.1 makes a member leave, with KIND 7 and ALERT_N. EN takes its key; a slot arms, takes only
its disarming while armed, and fires at its beat, COUNT times. (R287, R306, R308, R309, R310, R311, R130, R131, R472, R483, R484, R490) -/
def Obligations.UpkeepAndSpares : Prop :=
  (∀ (s : State) (src : Src) (act word : Nat), s.reaches src = true → act < 16 → s.idx.caches = [] → s.fil.tiles = [] →
    (word ≤ 0xC0000000 → CompletesWith (exec (.quotaWrite src act 0 word) s) fun u => RegsOnly s u [(F.memQStack_kib act).off] ∧ u.rd (F.memQStack_kib act) = word) ∧
    (word ≤ 786432 → CompletesWith (exec (.quotaWrite src act 2 word) s) fun u => RegsOnly s u [(F.memQCrew_kib act).off] ∧ u.rd (F.memQCrew_kib act) = word) ∧
    (786432 < word → word < 2 ^ 20 → CompletesWith (exec (.quotaWrite src act 2 word) s) fun u => u.rd (F.memQCrew_kib act) = s.rd (F.memQCrew_kib act))) ∧
  (∀ (s : State) (src : Src) (gib : Nat), s.reaches src = true → gib < 256 →
    let may := (∀ a, 1 ≤ a → a < 16 → s.on (F.actCtrl_enable a) = false ∧ ∀ j ∈ s.fil.jobs, j.act = a → j.phase = .ended) ∧
      ∀ x ∈ s.fil.allocs, x.pooled = true → (128 - gib) * 2 ^ 30 ≤ (x.addr - 0x100000000000) % 0x2000000000
    (may → gib ≤ 128 → CompletesWith (exec (.memPoolWrite src gib) s) fun u => RegsOnly s u [F.memPool_gib.off] ∧ u.rd F.memPool_gib = gib) ∧
    (may → 128 < gib → exec (.memPoolWrite src gib) s = .next s) ∧
    (¬ may → CompletesWith (exec (.memPoolWrite src gib) s) fun u => RegsOnly s u [F.memStatus_poolRefused.off] ∧ u.on F.memStatus_poolRefused = true)) ∧
  (∀ s : State, s.on F.memCtrl_scrubEn = true → s.tally.beat % 4096 = 0 → (∀ b, s.mem.check b = .clean ∧ s.holder false (b * 64) 64 = none) → CompletesWith (exec .scrubRound s) fun u =>
    u.mem = s.mem ∧ u.regs = s.regs ∧ u.ctr 0xB39 = (s.ctr 0xB39 + 1) % 2 ^ 64) ∧
  (∀ (s : State) (row : RowId), row ∈ s.mem.retiring → (∀ b ∈ row.blocks, s.mem.check b = .clean) → row.unit < 24 → CompletesWith (exec (.rowRetireFlip row.kind row.unit row.sub row.row) s) fun u =>
    u.mem.retired = row :: s.mem.retired ∧ u.mem.retiring = s.mem.retiring.filter (· != row) ∧ (∀ h ∈ u.mem.hits, h.row ≠ row) ∧ u.mem.bytes = s.mem.bytes ∧ u.mem.syn = s.mem.syn ∧
    u.ctr 0x702 = (s.ctr 0x702 + 1) % 2 ^ 64 ∧ (row.kind = 0 → u.rd F.memRowsRetired_stack = min (s.rd F.memRowsRetired_stack + 1) 65535)) ∧
  (∀ s : State, CompletesWith (exec .hitPeriodBoundary s) fun u =>
    (∀ h, h ∈ u.mem.hits ↔ h ∈ s.mem.hits ∧ ¬ (h.row.kind = 0 ∧ s.tally.beat % 2 ^ s.rd F.memScrub_pStack = 0) ∧ ¬ (h.row.kind = 1 ∧ s.tally.beat % 2 ^ s.rd F.memScrub_qSram = 0)) ∧
    (s.tally.beat % 2 ^ s.rd F.memScrub_pStack = 0 → u.mem.period = []) ∧ { u with mem := s.mem } = s) ∧
  (∀ (s : State) (src : Src) (stack chan : Nat), s.reaches src = true →
    let left := s.rd (F.memStackStatus_sparesLeft stack)
    (stack < 24 → chan < 32 → 0 < left → (∀ c ∈ s.mem.copies, c.1 ≠ stack) →
      (CompletesWith (exec (.memSpareCopy src stack chan) s) fun u => u.mem = { s.mem with copies := s.mem.copies ++ [(stack, chan)] } ∧ u.on F.memStatus_copying = true ∧
        u.on (F.memStackStatus_copying stack) = true ∧ u.rd (F.memStackStatus_copyCh stack) = chan ∧ u.rd (F.memStackStatus_sparesLeft stack) = left) ∧
      (CompletesWith (exec (.memSpareDead src stack chan) s) fun u => u.rd (F.memStackStatus_sparesLeft stack) = left - 1 ∧ u.mem.bytes = s.mem.bytes ∧
        ∀ b, (blockChan b = some (stack, chan) → u.mem.check b = .uncorrectable) ∧ (blockChan b ≠ some (stack, chan) → u.mem.check b = s.mem.check b))) ∧
    (24 ≤ stack ∨ 32 ≤ chan ∨ left = 0 ∨ (∃ c ∈ s.mem.copies, c.1 = stack) → exec (.memSpareCopy src stack chan) s = .next s ∧ exec (.memSpareDead src stack chan) s = .next s)) ∧
  (∀ (s : State) (stack chan : Nat), stack < 24 → chan < 32 →
    (s.mem.copies = [(stack, chan)] → s.mem.syn = [] → 0 < s.rd (F.memStackStatus_sparesLeft stack) → CompletesWith (exec (.channelSpareFlip stack) s) fun u =>
      u.mem = { s.mem with copies := [] } ∧ u.rd (F.memStackStatus_sparesLeft stack) = s.rd (F.memStackStatus_sparesLeft stack) - 1 ∧ u.on F.memStatus_copying = false ∧
      u.on (F.memStackStatus_copying stack) = false) ∧
    (s.rd (F.memStackStatus_sparesLeft stack) = 0 → (stack, chan) ∉ s.mem.deadCh → CompletesWith (exec (.channelFailure stack chan) s) fun u => u.on (F.memStackStatus_dead stack) = true ∧
      u.on F.memStatus_channelDead = true ∧ u.mem = { s.mem with deadCh := s.mem.deadCh ++ [(stack, chan)] } ∧ ∀ b, blockChan b = some (stack, chan) → u.mem.check b = .uncorrectable)) ∧
  (∀ (s : State) (src : Src) (word : Nat), s.reaches src = true →
    (bits word 1 2 ≠ 3 → CompletesWith (exec (.flipMaskArm src word) s) fun u => RegsOnly s u [F.memFlipCtrl_arm.off] ∧ u.on F.memFlipCtrl_arm = true ∧ u.rd F.memFlipCtrl_kind = bits word 1 2) ∧
    (bits word 1 2 = 3 → CompletesWith (exec (.flipMaskArm src word) s) fun u => u.on F.memFlipCtrl_arm = false)) ∧
  (∀ (s : State) (src : Src) (c k : Nat), s.reaches src = true → c < 16 →
    let hews := s.rd (F.crewHewMap_enabled c)
    let cores := s.rd (F.crewCoreMap_enabled c)
    (hews.testBit k = true → hews.testBit 12 = false → s.on (F.crewStatus_hewSpareUsed c) = false → k ≤ 12 → CompletesWith (exec (.crewHewerSpare src c k) s) fun u =>
      RegsOnly s u [(F.crewHewMap_enabled c).off, (F.crewStatus_hewSpareUsed c).off] ∧ u.on (F.crewStatus_hewSpareUsed c) = true ∧
      ∀ i, (u.rd (F.crewHewMap_enabled c)).testBit i = ((hews.testBit i && i != k) || i == 12)) ∧
    (s.on (F.crewStatus_hewSpareUsed c) = true ∨ hews.testBit k = false → exec (.crewHewerSpare src c k) s = .next s) ∧
    (cores.testBit k = true → cores.testBit 4 = false → s.on (F.crewStatus_coreSpareUsed c) = false → k ≤ 4 → (∀ j ∈ s.fil.jobs, j.phase ≠ .cores) → CompletesWith (exec (.crewCoreSpare src c k) s) fun u =>
      u.on (F.crewStatus_coreSpareUsed c) = true ∧ (∀ i, (u.rd (F.crewCoreMap_enabled c)).testBit i = ((cores.testBit i && i != k) || i == 4)) ∧
      u.fil.strands = s.fil.strands.map (fun t => if t.crew = c ∧ t.core = k then { t with core := 4 } else t)) ∧
    (hews.testBit k = true → (s.rd (F.crewHewFailed_failed c)).testBit k = false → k ≤ 12 → CompletesWith (exec (.hewerFailure c k) s) fun u =>
      (∀ i, (u.rd (F.crewHewFailed_failed c)).testBit i = ((s.rd (F.crewHewFailed_failed c)).testBit i || i == k)) ∧
      ∀ i, (u.rd (F.crewHewMap_enabled c)).testBit i = (hews.testBit i && !(s.on (F.crewStatus_hewSpareUsed c) && i == k))) ∧
    (cores.testBit k = true → (s.rd (F.crewCoreMap_failed c)).testBit k = false → k ≤ 4 → (∀ t ∈ s.fil.strands, t.crew = c → t.core = k → t.ended = true) →
      CompletesWith (exec (.controlCoreFailure c k) s) fun u => (∀ i, (u.rd (F.crewCoreMap_failed c)).testBit i = ((s.rd (F.crewCoreMap_failed c)).testBit i || i == k)) ∧
        ∀ i, (u.rd (F.crewCoreMap_enabled c)).testBit i = (cores.testBit i && !(s.on (F.crewStatus_coreSpareUsed c) && i == k)))) ∧
  (∀ (s : State) (c h fails : Nat) (dead : Bool), s.on F.funSparePolicy_autoEn = true → c < 16 → h < 12 → (s.rd (F.crewHewFailed_failed c)).testBit h = true → s.on F.funSpareLog_valid = false →
    let logged := fun u : State => u.on F.funSpareLog_valid = true ∧ u.rd F.funSpareLog_kind = 0 ∧ u.rd F.funSpareLog_unit = c ∧ u.rd F.funSpareLog_index = h ∧ u.on F.funSpareLog_exhausted = true
    ((s.rd (F.crewHewMap_enabled c)).testBit h = true → (s.rd (F.crewHewMap_enabled c)).testBit 12 = false → s.on (F.crewStatus_hewSpareUsed c) = false →
      CompletesWith (exec (.autoSpare 0 c h fails dead) s) fun u => logged u ∧ u.on (F.crewStatus_hewSpareUsed c) = true ∧ u.ctr 0xE07 = (s.ctr 0xE07 + 1) % 2 ^ 64 ∧
        (∀ i, (u.rd (F.crewHewMap_enabled c)).testBit i = (((s.rd (F.crewHewMap_enabled c)).testBit i && i != h) || i == 12)) ∧ (s.pins.alerts = [] → u.host.out = .alert false true :: s.host.out)) ∧
    (s.on (F.crewStatus_hewSpareUsed c) = true → popcount (s.rd (F.crewHewMap_enabled c)) 13 ≠ 12 → CompletesWith (exec (.autoSpare 0 c h fails dead) s) fun u => logged u ∧
      u.rd (F.crewHewMap_enabled c) = s.rd (F.crewHewMap_enabled c) ∧ (s.pins.alerts = [] → u.host.out = .alert false true :: s.host.out))) ∧
  (∀ s : State, s.carState = 3 → s.on F.funSpareLog_valid = false → s.pins.alerts = [] →
    (s.on F.adtStatus_readOnly = true ∨ (∃ t < 24, s.on (F.wnzStatus_relay t) = true ∧ s.on (F.memStackStatus_dead t) = true) → CompletesWith (exec .firmwareNodeLeave s) fun u =>
      u.carState = 4 ∧ u.on F.funSpareLog_valid = true ∧ u.rd F.funSpareLog_kind = 7 ∧
      Sys2Proof.Claims.Entered s u ⟨1, s.position, s.tally.beat + 1024, none⟩
        [.alert false true, .bcast s.bcastLink (.enter s.position (s.tally.beat + 1024) s.tally.beat (s.rd F.carCfg_size) (s.rd F.carCfg_pairEn) s.members true)])) ∧
  ∀ (s : State) (src : Src) (word slot : Nat), s.reaches src = true →
    (bits word 16 16 = 0x6A5C → CompletesWith (exec (.funhouseEnable src word) s) fun u => RegsOnly s u [F.funCtrl_en.off] ∧ u.rd F.funCtrl_en = bits word 0 1) ∧
    (bits word 16 16 ≠ 0x6A5C → exec (.funhouseEnable src word) s = .next s) ∧
    (slot < 16 →
      (s.on (F.funPCtrl_arm slot) = false → word.testBit 0 = true → bits word 1 5 < 16 → 1 ≤ bits word 8 8 → CompletesWith (exec (.perturbationArm src slot word) s) fun u =>
        RegsOnly s u [(F.funPCtrl_arm slot).off, (F.funPLeft_left slot).off] ∧ u.on (F.funPCtrl_arm slot) = true ∧ u.rd (F.funPCtrl_kind slot) = bits word 1 5 ∧ u.rd (F.funPLeft_left slot) = bits word 8 8) ∧
      (s.on (F.funPCtrl_arm slot) = true → word.testBit 0 = false → CompletesWith (exec (.perturbationArm src slot word) s) fun u =>
        RegsOnly s u [(F.funPCtrl_arm slot).off, (F.funPLeft_left slot).off] ∧ u.on (F.funPCtrl_arm slot) = false ∧ u.rd (F.funPLeft_left slot) = 0 ∧ u.rd (F.funPCtrl_kind slot) = s.rd (F.funPCtrl_kind slot)) ∧
      (s.on (F.funPCtrl_arm slot) = true → word.testBit 0 = true → exec (.perturbationArm src slot word) s = .next s) ∧
      ∀ act : Nat, s.on (F.funPCtrl_arm slot) = true →
        let due := s.rd64 (F.funPBeatLo_beat slot) (F.funPBeatHi_beat slot)
        let left := s.rd (F.funPLeft_left slot)
        (s.on F.funCtrl_en = false ∨ s.tally.beat < due → exec (.perturbationFire slot act) s = .next s) ∧
        (s.on F.funCtrl_en = true → due ≤ s.tally.beat → 0 < left → (s.on (F.funPCtrl_actMatch slot) = true → act = s.rd (F.funPCtrl_act slot)) → s.rd (F.funPCtrl_kind slot) = 1 →
          CompletesWith (exec (.perturbationFire slot act) s) fun u => u.rd (F.funPLeft_left slot) = left - 1 ∧ u.on (F.funPCtrl_arm slot) = decide (1 < left) ∧
            (u.rd F.funStatus_fired).testBit slot = true ∧ u.ctr 0xE04 = (s.ctr 0xE04 + 1) % 2 ^ 64 ∧
            u.fun_ = { s.fun_ with stalls := kvSet 0 s.fun_.stalls (s.rd (F.funPTarget_target slot)) (s.tally.beat + s.rd (F.funPParam_param slot)) } ∧ u.mem = s.mem ∧ u.fil = s.fil))

/-- A poll takes the descriptor whose SEQ word matches and asks the host for it; one that matches none is counted. A descriptor with a
reserved field, or of a routine that the act does not hold, ends with 0x60; else its snapshot is fixed at the stable beat, its strands are
counted and its argument block is asked for. A failed SEQ or descriptor read disables the ring with FETCH_ERR; a failed argument read ends
the job with 0x62. An argument that is here makes a loader call, a job that waits for cores, or a started job. A held job goes on when the
stable beat reaches its snapshot, and ends with 0x30 when its wait is over. A deadline cuts expansions. A job that is over ends with its
status, its strands are gone and its result is written in class 2. Its completion takes the next slot in class 1, in order. A due message
is sent, or held by the mask and sent when it is cleared. CQ_HEAD is stored. ENABLE takes effect on an idle empty ring; disabling stops
it. (R57, R58, R60, R64, R426, R427, R428, R430, R431, R433, R434, R437) -/
def Obligations.JobRings : Prop :=
  (∀ (s : State) (act w : Nat), act < 16 → s.pollBeat act = true → s.on (F.actCtrl_enable act) = true → s.on (F.actCtrl_halt act) = false → s.fnOn act = true → s.on F.pwrStatus_p4 = false →
    s.rst.run = none → s.flash.quiet = false → s.on F.hifOstCtrl_active = false → s.on (F.ringCtrl_enable act 0) = true → (∀ r, 1 ≤ r → r < 4 → s.on (F.ringCtrl_enable act r) = false) → (s.ring act 4).entries = [] →
    let r := s.ring act 0
    let base := s.rd (F.sqBaseLo_base act 0) * 4096 + 2 ^ 32 * s.rd (F.sqBaseHi_base act 0)
    (w % 2 ^ 32 = r.next % 2 ^ 32 → 0 < s.ringRoom act 0 → CompletesWith (exec (.ringPoll act [[w]]) s) fun u =>
      u.ring act 0 = { r with next := r.next + 1, fetching := r.fetching ++ [(r.next, none)] } ∧ u.host.out = .hostRead act (base + r.next % s.ringSize act 0 * 128) 128 :: s.host.out ∧
      u.rd (F.ringSeq_next act 0) = (r.next + 1) % 2 ^ 32 ∧ u.fil = s.fil ∧ u.telem = s.telem) ∧
    (w % 2 ^ 32 ≠ r.next % 2 ^ 32 → CompletesWith (exec (.ringPoll act [[w]]) s) fun u => u.host.out = s.host.out ∧ u.ring act 0 = r ∧ u.ctr 0xC21 = (s.ctr 0xC21 + 1) % 2 ^ 64)) ∧
  (∀ (s : State) (act ring num : Nat) (b : List Byte), act < 16 → ring < 4 → (s.ring act ring).fetching = [(num, none)] → (∀ j ∈ s.fil.jobs, j.id ≠ s.nextId) →
    let d := readDesc b
    let j := newJob s.nextId act ring num d s.tally.beat none
    ((d.reserved = true → CompletesWith (exec (.descriptorFetchComplete act ring num b) s) fun u => u.fil.jobs = s.fil.jobs ++ [{ j with phase := .ended, status := 0x60, detail := 1 }] ∧
        (u.ring act ring).fetching = [] ∧ u.ctr (0xC00 + act) = (s.ctr (0xC00 + act) + 1) % 2 ^ 64) ∧
      (d.reserved = false → d.routine ≠ 0 → (∀ r ∈ s.fil.routines, r.act = act → r.handle ≠ d.routine) → CompletesWith (exec (.descriptorFetchComplete act ring num b) s) fun u =>
        u.fil.jobs = s.fil.jobs ++ [{ j with phase := .ended, status := 0x60, detail := 2 }] ∧ (u.ring act ring).fetching = [])) ∧
    ∀ (r : Routine) (crews : List Nat) (slice : Nat), d.reserved = false → d.routine ≠ 0 → s.named? act d.routine = true → s.target act d.slice = some (crews, slice) → d.tooLong = false → d.strands ≤ 64 →
      bitOf d.flags 1 = false → bitOf d.flags 4 = false → s.fil.pairs = [] → s.routineOf j = some r → 0 < d.argLen →
      let n := min (min (if d.strands = 0 then r.smax else d.strands) r.smax) (s.coresOf crews).length
      (r.smin ≤ n → CompletesWith (exec (.descriptorFetchComplete act ring num b) s) fun u =>
        u.fil.jobs = s.fil.jobs ++ [{ j with crews := crews, desc := { d with slice := slice }, snapshot := s.tally.stable, rerun := decide (4 < crews.length), count := n }] ∧
        u.host.out = .hostRead act d.argAddr d.argLen :: s.host.out) ∧
      (n < r.smin → CompletesWith (exec (.descriptorFetchComplete act ring num b) s) fun u => ∃ j', u.job? s.nextId = some j' ∧ j'.phase = .ended ∧ j'.status = 0x60 ∧ j'.detail = 5)) ∧
  (∀ (s : State) (act ring num : Nat), act < 16 → ring < 4 →
    (s.on (F.ringCtrl_enable act ring) = true → CompletesWith (exec (.hostReadError (.seq act ring)) s) fun u => RegsOnly s u [(F.ringCtrl_enable act ring).off, (F.ringStatus_fetchErr act ring).off] ∧
      u.on (F.ringCtrl_enable act ring) = false ∧ u.on (F.ringStatus_fetchErr act ring) = true) ∧
    ((s.ring act ring).fetching = [(num, none)] → CompletesWith (exec (.hostReadError (.descriptor act ring num)) s) fun u => (u.ring act ring).fetching = [] ∧
      u.on (F.ringCtrl_enable act ring) = false ∧ u.on (F.ringStatus_fetchErr act ring) = true ∧ u.fil = s.fil)) ∧
  (∀ (s : State) (job : Nat) (j : Job), s.job? job = some j →
    (j.phase = .argument →
      (CompletesWith (exec (.hostReadError (.job job)) s) fun u => u.job? job = some { j with phase := if j.paired then .running else .ended, status := 0x62, detail := if j.image.isSome then 2 else 0 } ∧ u.regs = s.regs) ∧
      ∀ data : List Byte,
        (j.desc.routine = 0 → CompletesWith (exec (.hostReadComplete job data) s) fun u => u.job? job = some { j with phase := .loader, data := data } ∧ u.mem = s.mem) ∧
        (j.desc.routine ≠ 0 → (∀ k ∈ s.fil.jobs, k.phase = .cores → False) → (∀ k ∈ s.fil.jobs, k.id = job → k = j) →
          let j' := { j with data := data, phase := .cores }
          let s' := { s with fil := { s.fil with jobs := s.fil.jobs.map fun k => if k = j then j' else k } }
          (s.coresOf j.crews = [] → 0 < j.count → exec (.hostReadComplete job data) s = .next s') ∧
          ∀ (r : Routine) (t : State), s.routineOf j = some r → s.fil.jobs.count j = 1 → s'.start? j' r = some t → exec (.hostReadComplete job data) s = .next t)) ∧
    (∀ since : Nat, j.phase = .snapshot since → bitOf j.desc.flags 1 = true →
      (s.tally.stable < j.desc.snapshot → exec (.jobSnapshotRelease job) s = .next s) ∧
      (j.desc.snapshot ≤ s.tally.stable → j.desc.snapshot < s.oldest j.act → CompletesWith (exec (.jobSnapshotRelease job) s) fun u =>
        u.job? job = some { j with phase := if j.paired then .running else .ended, status := 0x60, detail := 6, snapshot := 0, rerun := false }) ∧
      ∀ r : Routine, j.desc.snapshot ≤ s.tally.stable → s.oldest j.act ≤ j.desc.snapshot → bitOf j.desc.flags 4 = true → j.desc.routine ≠ 0 → s.fil.pairs = [] → j.pair = none → j.origin = none →
        s.routineOf j = some r → r.smin ≤ s.strandCount j r → 0 < j.desc.argLen → CompletesWith (exec (.jobSnapshotRelease job) s) fun u =>
          u.job? job = some { j with phase := .argument, snapshot := j.desc.snapshot, rerun := bitOf j.desc.flags 5, count := s.strandCount j r } ∧
          u.host.out = .hostRead j.act j.desc.argAddr j.desc.argLen :: s.host.out) ∧
    ((j.phase = .pair ∨ j.phase = .ledger ∨ ∃ since, j.phase = .snapshot since) →
      let past := if bitOf j.desc.flags 2 then j.desc.deadline ≤ s.tally.beat else j.pickup + s.rd (F.actSnapWait_beats j.act) ≤ s.tally.beat
      (past → CompletesWith (exec (.jobSnapshotTimeout job) s) fun u => u.job? job = some { j with phase := if j.paired then .running else .ended, status := 0x30, detail := 1 } ∧ u.regs = s.regs) ∧
      (¬ past → exec (.jobSnapshotTimeout job) s = .next s)) ∧
    (j.phase = .running → j.cutDone = false → bitOf j.desc.flags 2 = true → j.desc.deadline ≤ s.tally.beat → (∀ r ∈ s.idx.reranks, r.job ≠ job) → CompletesWith (exec (.deadlineArrival job) s) fun u =>
      u.job? job = some { j with cutDone := true } ∧ (∀ e ∈ u.fil.expansions, e.job = job → e.done = false → e.home = none) ∧ u.fil.strands = s.fil.strands ∧ u.mem = s.mem) ∧
    (j.phase = .running → (∀ t ∈ s.fil.strands, t.job = job → t.ended = true ∧ t.inflight = []) → j.pair = none → j.discard = false → (∀ k ∈ s.fil.jobs, k.phase ≠ .cores) → bitOf j.desc.flags 6 = false →
      let late := bitOf j.desc.flags 2 = true ∧ bitOf j.desc.flags 3 = false ∧ j.desc.deadline < s.tally.beat
      let status := if j.status ≠ 0 then j.status else if late then 0x30 else if j.soft then 2 else if bitOf j.mask 0 then 1 else 0
      (j.desc.resLen = 0 → ∀ ledger, CompletesWith (exec (.jobEnd job ledger) s) fun u => ∃ sent, u.job? job = some { j with phase := .ended, status := status, detail := if j.status ≠ 0 then j.detail else 0, ret := [], sent := sent } ∧
        (∀ t ∈ u.fil.strands, t.job ≠ job)) ∧
      (j.desc.routine = 0 → status = 0 → s.host.mute = false → j.ring < 4 → 0 < (j.ret.take j.desc.resLen).length → (j.ret.take j.desc.resLen).length ≤ 4096 - j.desc.resAddr % 4096 → ∀ ledger,
        CompletesWith (exec (.jobEnd job ledger) s) fun u => Offered u 42 j.act 2 (.hostWrite j.act j.desc.resAddr (j.ret.take j.desc.resLen) (s.on F.hifLinkCtrl_roEn)) ∧
          ∃ j', u.job? job = some j' ∧ j'.phase = .ended ∧ j'.status = 0)) ∧
    (s.mayComplete j = true → j.origin = none → j.discard = false → s.host.mute = false → bitOf j.desc.flags 7 = false → (s.ring j.act j.ring).notify = 0 → CompletesWith (exec (.completionWrite job) s) fun u =>
      let r := s.ring j.act j.ring
      let size := s.ringSize j.act j.ring
      Offered u 42 j.act 1 (.hostWrite j.act (s.rd (F.cqBaseLo_base j.act j.ring) * 4096 + 2 ^ 32 * s.rd (F.cqBaseHi_base j.act j.ring) + r.tail % size * 32) (completionEntry j (r.tail / size % 2 == 0)) false) ∧
      u.ring j.act j.ring = { r with tail := r.tail + 1 } ∧ u.rd (F.cqTail_count j.act j.ring) = (r.tail + 1) % 2 ^ 32 ∧ (∀ k ∈ u.fil.jobs, k.id ≠ job) ∧ u.ctr (0xC10 + j.act) = (s.ctr (0xC10 + j.act) + 1) % 2 ^ 64) ∧
    (j.discard = false → (∃ k ∈ s.fil.jobs, k.act = j.act ∧ k.ring = j.ring ∧ k.num < j.num) → bitOf j.desc.flags 0 = false → exec (.completionWrite job) s = .next s)) ∧
  (∀ (s : State) (act ring : Nat), act < 16 → ring < 4 → s.host.mute = false → s.fnOn act = true →
    let r := s.ring act ring
    let v := s.rd (F.ringCtrl_vector act ring)
    let message := fun v => Out.msix act v (s.rd64 (F.msixAddrLo_addr act v) (F.msixAddrHi_addr act v)) (s.rd (F.msixData_data act v))
    (r.notify ≠ 0 → s.rd (F.ringMod_timer act ring) ≠ 0 → r.since + s.rd (F.ringMod_timer act ring) ≤ s.tally.beat → (∀ q ∈ s.host.rings, q.message = none) → s.queuedCompletions act = [] →
      (s.on (F.msixCtrl_mask act v) = false → CompletesWith (exec (.msixTimerExpiry act ring) s) fun u => (u.ring act ring).notify = 0 ∧ Offered u 42 act 0 (message v) ∧ u.regs = s.regs ∧
        u.ctr 0xC20 = (s.ctr 0xC20 + 1) % 2 ^ 64) ∧
      (s.on (F.msixCtrl_mask act v) = true → CompletesWith (exec (.msixTimerExpiry act ring) s) fun u => (u.ring act ring).notify = 0 ∧ (u.rd (F.msixPba_pending act)).testBit v = true ∧ u.rgm = s.rgm)) ∧
    ∀ (src : Src) (v : Nat), s.reachesOwn src act = true → v < 16 →
      (CompletesWith (exec (.msixUnmask src act v) s) fun u => u.on (F.msixCtrl_mask act v) = false ∧ (u.rd (F.msixPba_pending act)).testBit v = false ∧
        ((s.rd (F.msixPba_pending act)).testBit v = true → Offered u 42 act 0 (message v)) ∧ ((s.rd (F.msixPba_pending act)).testBit v = false → u.rgm = s.rgm)) ∧
      (∀ count : Nat, CompletesWith (exec (.cqHeadWrite src act ring count) s) fun u => RegsOnly s u [(F.cqHead_count act ring).off] ∧ u.rd (F.cqHead_count act ring) = count % 2 ^ 32) ∧
      ∀ word : Nat, bits word 1 5 ≤ 16 → 6 ≤ bits word 1 5 →
        (s.on (F.ringCtrl_enable act ring) = false → (∀ j ∈ s.fil.jobs, j.act = act → j.ring ≠ ring) → r.fetching = [] → s.rd (F.cqHead_count act ring) = s.rd (F.cqTail_count act ring) →
          CompletesWith (exec (.ringEnable src act ring word) s) fun u => u.on (F.ringCtrl_enable act ring) = true ∧ u.rd (F.ringCtrl_sizeLog2 act ring) = bits word 1 5 ∧
            u.rd (F.ringCtrl_vector act ring) = bits word 21 4 ∧ u.rd (F.cqTail_count act ring) = 0 ∧ u.rd (F.cqHead_count act ring) = 0 ∧
            u.ring act ring = { r with next := 0, tail := 0, notify := 0, since := 0, message := none } ∧ u.fil = s.fil) ∧
        ((∃ j ∈ s.fil.jobs, j.act = act ∧ j.ring = ring) → s.on (F.ringCtrl_enable act ring) = false → CompletesWith (exec (.ringEnable src act ring word) s) fun u =>
          u.on (F.ringCtrl_enable act ring) = false ∧ u.host = s.host) ∧
        (CompletesWith (exec (.ringDisable src act ring word) s) fun u => u.on (F.ringCtrl_enable act ring) = false ∧ RegsOnly s u [(F.ringCtrl_enable act ring).off] ∧
          u.rd (F.ringCtrl_sizeLog2 act ring) = if s.on (F.ringCtrl_enable act ring) = true then s.rd (F.ringCtrl_sizeLog2 act ring) else bits word 1 5))

/-- A routine image that fails a check of R27 is refused with 0x61 and its number; one that passes is charged and held under its handle.
An unload marks the routine, and its space goes once no job names it; an unknown operation, or a handle that the act does not hold, is
refused. A pack that fails R160 is refused with 0x40; one of a raw record makes its tile in the pool. An export of a region that R356
takes gets a key; an unexport closes it, and ends when no copy is left. A quote holds the signed body over the nonce and the log.
SYS.SLICE registers a composition 64 beats ahead or more; at its beat the slice takes its crews, which old jobs hold back until they are
over. A pair is registered where the block is good and the partner is there; it takes effect at its beat. A job that waits for the ledger
takes the winner of the phase before, and waits while there is none. (R26, R27, R30, R160, R356, R357, R18, R19, R475, R477, R479, R464)
-/
def Obligations.LoaderAndSlices : Prop :=
  (∀ (s : State) (job : Nat) (j : Job), s.loaderCall job 0 = some j →
    let b := padTo 0#8 (if j.desc.arg 2 = 0 then j.desc.argLen else j.desc.arg 3) j.data
    let h := imageHeader b
    (s.imageFault j.act b ≠ 0 → CompletesWith (exec (.loadRoutine job) s) fun u => Sys2Proof.Claims.Returned u j 0x61 (s.imageFault j.act b) 0 [] ∧ u.fil.routines = s.fil.routines) ∧
    ∀ t : State, s.imageFault j.act b = 0 → h.pool = 0 → (s.newHandle j.act).2.chargeRoutine j.act (s.newHandle j.act).1 (Config.nativeBytes b) 0 = some (0, t) → t.fil.jobs = s.fil.jobs →
      t.fil.routines = s.fil.routines → CompletesWith (exec (.loadRoutine job) s) fun u => Sys2Proof.Claims.Returned u j 0 0 (s.newHandle j.act).1 [] ∧ ∃ r : Routine, u.fil.routines = s.fil.routines ++ [r] ∧
        r.act = j.act ∧ r.handle = (s.newHandle j.act).1 ∧ r.code = codeWords (b.drop 64) h.words ∧ r.entry = h.entry ∧ r.smin = h.smin ∧ r.smax = h.smax ∧ r.tiles = h.tiles ∧ r.qslots = h.qslots ∧
        r.priv = bitOf h.flags 0 ∧ r.det = bitOf h.flags 1 ∧ r.store = h.store ∧ r.unloaded = false) ∧
  (∀ (s : State) (job : Nat) (j : Job), s.loaderCall job 1 = some j →
    let mine := fun r : Routine => r.act = j.act ∧ r.handle = j.desc.arg 2 ∧ r.unloaded = false
    ((∃ r ∈ s.fil.routines, mine r) → CompletesWith (exec (.unloadRoutine job) s) fun u => Sys2Proof.Claims.Returned u j 0 0 0 [] ∧
      u.fil.routines = s.fil.routines.map (fun r => if r.act == j.act && r.handle == j.desc.arg 2 && !r.unloaded then { r with unloaded := true } else r)) ∧
    ((∀ r ∈ s.fil.routines, ¬ mine r) → CompletesWith (exec (.unloadRoutine job) s) fun u => Sys2Proof.Claims.Returned u j 0x61 0x16 0 [] ∧ u.fil.routines = s.fil.routines)) ∧
  (∀ (s : State) (act handle : Nat), (∃ r ∈ s.fil.routines, r.act = act ∧ r.handle = handle ∧ r.unloaded = true) →
    ((∀ j ∈ s.fil.jobs, j.act = act → j.desc.routine = handle → j.status = 0x60 ∧ j.detail = 2) → CompletesWith (exec (.routineRelease act handle) s) fun u =>
      (∀ r, r ∈ u.fil.routines ↔ r ∈ s.fil.routines ∧ ¬ (r.act = act ∧ r.handle = handle ∧ r.unloaded = true)) ∧ (∀ a ∈ u.fil.allocs, a.kind ≠ .native act handle ∧ a.kind ≠ .pool act handle)) ∧
    ((∃ j ∈ s.fil.jobs, j.act = act ∧ j.desc.routine = handle ∧ ¬ (j.status = 0x60 ∧ j.detail = 2)) → exec (.routineRelease act handle) s = .next s)) ∧
  (∀ (s : State) (job op : Nat) (j : Job), s.loaderCall job op = some j → op = 4 ∨ 13 ≤ op → CompletesWith (exec (.loaderUnknownOperation job) s) fun u => Sys2Proof.Claims.Returned u j 0x61 0x15 0 [] ∧
    { u with fil := { u.fil with jobs := s.fil.jobs } } = s) ∧
  (∀ (s : State) (job : Nat) (j : Job), s.loaderCall job 2 = some j →
    let b := padTo 0#8 (j.desc.arg 3) j.data
    let rs := readPack (leAt b 4 4) (b.drop 64)
    (32 ≤ s.packFault j.act b rs → CompletesWith (exec (.importTilePack job) s) fun u => Sys2Proof.Claims.Returned u j 0x40 (s.packFault j.act b rs) 0 [] ∧ u.fil.tiles = s.fil.tiles ∧ u.mem = s.mem) ∧
    ∀ (r : PackRecord) (a : Nat) (t : State), s.packFault j.act b rs = 0 → rs = some [r] → r.sectors = 0 → s.fresh.allocPool j.act r.data.length (.tile s.nextId) = (some a, t) → t.fil.jobs = s.fil.jobs →
      t.mem.wf = true → Writable t a r.data.length → t.rd F.pwrStackState_inP3 = 0 → CompletesWith (exec (.importTilePack job) s) fun u =>
        Sys2Proof.Claims.Returned u j 0 0 0 [] ∧ u.fil.tiles = t.fil.tiles ++ [r.tile s.nextId j.act a t.tally.beat] ∧ Stores t u a r.data) ∧
  (∀ (s : State) (job : Nat) (j : Job),
    (s.loaderCall job 8 = some j →
      (s.exportRefused j.act (j.desc.arg 2) (j.desc.arg 3) (j.desc.arg 4) = true → CompletesWith (exec (.exportRegion job) s) fun u => Sys2Proof.Claims.Returned u j 0x61 0x14 0 [] ∧ u.car = s.car) ∧
      (s.exportRefused j.act (j.desc.arg 2) (j.desc.arg 3) (j.desc.arg 4) = false → CompletesWith (exec (.exportRegion job) s) fun u => ∃ k, Sys2Proof.Claims.Returned u j 0 0 k [] ∧
        u.car.exports = s.car.exports ++ [⟨j.act, j.desc.arg 2, j.desc.arg 3, j.desc.arg 4, k, none⟩])) ∧
    (s.loaderCall job 9 = some j →
      ((∀ e ∈ s.car.exports, e.act = j.act → e.key = j.desc.arg 2 → e.closing.isSome = true) → CompletesWith (exec (.unexportRegion job) s) fun u => Sys2Proof.Claims.Returned u j 0x61 0x16 0 [] ∧ u.car = s.car) ∧
      (∀ e : Export, (s.car.exports.find? fun e => e.act == j.act && e.key == j.desc.arg 2 && e.closing.isNone) = some e → s.car.sharers = [] → s.car.reqs = [] → CompletesWith (exec (.unexportRegion job) s) fun u =>
        u.car.exports = s.car.exports.map (fun x => if x = e then { x with closing := some job } else x) ∧ u.car.invs = s.car.invs ++ [⟨s.nextId, [], .unexport job⟩] ∧ u.job? job = some j) ∧
      ((∃ e ∈ s.car.exports, e.closing = some job) →
        ((∀ i ∈ s.car.invs, i.wanted = .unexport job → i.out = []) → CompletesWith (exec (.unexportComplete job) s) fun u => Sys2Proof.Claims.Returned u j 0 0 0 [] ∧
          u.car.exports = s.car.exports.filter (·.closing != some job) ∧ (∀ i ∈ u.car.invs, i.wanted ≠ .unexport job)) ∧
        ((∃ i ∈ s.car.invs, i.wanted = .unexport job ∧ i.out ≠ []) → exec (.unexportComplete job) s = .next s))) ∧
    (s.loaderCall job 11 = some j → 64 ≤ j.data.length → CompletesWith (exec (.attestationQuote job) s) fun u =>
      let b := s.quoteBody j.act (j.desc.arg 2 % 2 ^ 8) (j.data.take 64)
      let sig := Config.ecdsaSign (sha512 b)
      Sys2Proof.Claims.Returned u j 0 0 0 (b ++ padTo 0#8 66 sig.1 ++ padTo 0#8 66 sig.2 ++ zeros 12 ++ s.asy.log.flatten) ∧ u.ctr 0xD13 = (s.ctr 0xD13 + 1) % 2 ^ 64 ∧ u.regs = s.regs)) ∧
  (∀ (o : Insn) (s : State) (t : Strand) (j : Job), Issues s Form.sysSlice o t j → s.isPriv j = true → t.clear [] (if o.fld 25 3 = 0 then [] else [.p (o.fld 25 3)]) = true →
    let x := sliceOf (o.ext.getD 0 0#64).toNat (o.ext.getD 1 0#64).toNat
    let beat := (t.getS o.b).toNat
    let pres := fun v => if o.fld 25 3 = 0 then [] else [Effect.setP (o.fld 25 3) v]
    (s.tally.beat + 64 ≤ beat → x.num ≠ 0xFF → (s.moved o t).eventRoom = true → CompletesWith (exec (.sysSlice o) s) fun u => InFlight s u o t (pres true) ∧
      u.fil.recompose = s.fil.recompose ++ [⟨beat, x⟩] ∧ u.fil.slices = s.fil.slices ∧ u.mem = s.mem ∧ u.regs = s.regs) ∧
    (beat < s.tally.beat + 64 ∨ x.num = 0xFF → CompletesWith (exec (.sysSlice o) s) fun u => InFlight s u o t (pres false) ∧ u.fil.recompose = s.fil.recompose ∧ u.mem = s.mem ∧ u.regs = s.regs)) ∧
  (∀ (s : State) (x : Slice) (b : Nat), s.fil.recompose = [⟨b, x⟩] → b ≤ s.tally.beat → s.fil.jobs = [] → s.fil.tiles = [] → s.fil.joining = [] → CompletesWith (exec .sliceRecompose s) fun u =>
    u.fil.recompose = [] ∧ u.fil.slices = ((s.fil.slices.filter fun y => !(y.act == x.act && y.num == x.num)).map fun y => y.without x.res) ++ [x] ∧ u.fil.joining = [] ∧
    (s.fil.slices = [] → ∀ c < 16, x.num < 256 → x.act < 16 → bitOf x.crews c = true → u.rd (F.crewSlice_slice c) = x.num ∧ u.rd (F.crewSlice_act c) = x.act ∧ u.on (F.crewSlice_assigned c) = true)) ∧
  (∀ (s : State) (res act num beat : Nat), s.fil.joining = [⟨res, act, num, beat⟩] →
    ((∃ j ∈ s.fil.jobs, j.act = act ∧ j.desc.slice = num ∧ j.desc.routine ≠ 0 ∧ j.phase ≠ .ended ∧ j.pickup < beat) → exec (.sliceResourceJoin res) s = .next s) ∧
    (s.fil.jobs = [] → s.fil.tiles = [] → CompletesWith (exec (.sliceResourceJoin res) s) fun u => u.fil.joining = [] ∧ u.fil.slices = s.fil.slices ∧ u.mem = s.mem)) ∧
  (∀ (s : State) (job remote : Nat) (j : Job), s.loaderCall job 12 = some j → (∀ p ∈ s.fil.pairs, p.job ≠ job) →
    let b := j.data
    (s.pairRefused j.act b = true → CompletesWith (exec (.pairSlice job remote) s) fun u => Sys2Proof.Claims.Returned u j 0x61 0x15 0 [] ∧ u.fil.pairs = s.fil.pairs) ∧
    (s.pairRefused j.act b = false →
      (s.members.testBit (leAt b 0 1) = false → CompletesWith (exec (.pairSlice job remote) s) fun u => Sys2Proof.Claims.Returned u j 0x70 0 0 [] ∧ u.fil.pairs = s.fil.pairs) ∧
      (s.members.testBit (leAt b 0 1) = true → leAt b 2 1 = leAt b 0 1 → leAt b 2 1 ≠ s.self →
        (remote = 0 → CompletesWith (exec (.pairSlice job remote) s) fun u => u.job? job = some j ∧ u.fil.pairs = s.fil.pairs ++
          [⟨j.act, leAt b 1 1, leAt b 0 1, leAt b 2 1, leAt b 4 4, leAt b 8 4, leAt b 12 4, leAt b 16 8, leAt b 24 4, roundUp (j.pickup + 1024) (leAt b 24 4), job, false⟩]) ∧
        (remote ≠ 0 → CompletesWith (exec (.pairSlice job remote) s) fun u => Sys2Proof.Claims.Returned u j remote 0 0 [] ∧ u.fil.pairs = s.fil.pairs)))) ∧
  (∀ (s : State) (job : Nat) (j : Job) (p : Pair), job ≠ 0 → s.fil.pairs.find? (·.job == job) = some p → s.job? job = some j → j.phase = .loader → (∀ k ∈ s.fil.jobs, k.phase ≠ .pair) →
    (p.start ≤ s.tally.beat → CompletesWith (exec (.pairTakeEffect job) s) fun u => Sys2Proof.Claims.Returned u j 0 0 0 [] ∧
      u.fil.pairs = (s.fil.pairs.filter fun q => !(q.act == p.act && q.slice == p.slice && q.job == 0) && q.job != job) ++ [{ p with job := 0 }]) ∧
    (s.tally.beat < p.start → exec (.pairTakeEffect job) s = .next s)) ∧
  ∀ (s : State) (job : Nat) (j : Job) (p : Pair) (entry half : List Byte), s.job? job = some j → j.phase = .ledger → j.pair = some p → p.broken = false → p.ledger ≠ s.self → s.members.testBit p.ledger = true →
    j.desc.jobId % 256 ≠ 0 → (∀ k ∈ s.fil.jobs, k.phase ≠ .cores ∧ (k.id = job → k = j)) → j.desc.routine ≠ 0 → s.coresOf j.crews = [] → 0 < j.count →
    (leAt entry 0 8 + 1 = j.desc.jobId → leAt entry 8 1 ≠ 0xFF → CompletesWith (exec (.ledgerArgumentRelease job (some (entry, half))) s) fun u =>
      let d := half.take (min (leAt entry 12 4) p.slot)
      u.job? job = some { j with phase := .cores, data := d, desc := { j.desc with argLen := d.length } } ∧ u.ctr 0xE03 = (s.ctr 0xE03 + 1) % 2 ^ 64) ∧
    (leAt entry 0 8 + 1 ≠ j.desc.jobId ∨ leAt entry 8 1 = 0xFF → CompletesWith (exec (.ledgerArgumentRelease job (some (entry, half))) s) fun u => u.job? job = some j ∧ u.ctr 0xE03 = s.ctr 0xE03)

/-- A source is raised at a level: it waits for the sequence, or is absorbed where a reset of that level or a deeper one runs. -/
def Sys2Proof.Claims.Raises (s u : State) (code level : Nat) : Prop :=
  ((∀ r, s.rst.run = some r → level < r.level) → u.rst = { s.rst with raised := s.rst.raised ++ [⟨code, level, s.tally.beat⟩] }) ∧
  (∀ r, s.rst.run = some r → r.level ≤ level → u.rst = s.rst ∧ u.on F.rstCause_absorbed = true)

/-- A boot that has no image to check: the ROM waits for one, with the pin groups released. -/
def Sys2Proof.Claims.WaitsForImage (s u : State) (err : Nat) : Prop :=
  u.rd F.asyStatus_bootState = 2 ∧ u.rd F.asyStatus_bootErr = err ∧ u.pins.groups = List.replicate 5 4 ∧ u.mem = s.mem ∧ u.fil = s.fil ∧ u.flash = s.flash

/-- Each source raises its code at its level, or is absorbed under a running reset of that level or a deeper one; too short a pulse, a
wrong key, a masked or idle source does nothing. The deepest source is taken: a cold one leaves the work, the memory, the Tally and the
Carousel as at reset, with RST_CAUSE written. The logic is released after 64 beats, with RESET_N high; a boot without an image waits with
BOOT_STATE 2. An act reset of an idle act releases what it holds and disables its rings; a second one is absorbed. A block reset registers
its block; idle or at its timeout, the Midway block is reset. COMMIT_SVN raises the fused SVN; EXT_GO extends ASY_MEAS5 to 7 alone. A
token opens debug or is refused; CLOSE locks it. A BAR2 read answers what it reads, or Unsupported Request; a write is stored, or
discarded and counted. The link trains within MAX_SPEED; PERST_N resets it and disables every ring. Ost service mode is entered where its
conditions hold, and is left when act 0 is idle. (R445, R447, R452, R453, R454, R455, R456, R457, R458, R463, R423, R439) -/
def Obligations.HostAndResets : Prop :=
  (∀ s : State, CompletesWith (exec .powerOnReset s) fun u => u.pins.powered = true ∧ u.rst = { s.rst with run := none, raised := [⟨1, 0, s.tally.beat⟩] } ∧ u.regs = s.regs) ∧
  (∀ (s : State) (rail held : Nat), (held < 200 → exec (.brownOut rail held) s = .next s) ∧
    (200 ≤ held → rail ∈ [0, 1, 6, 7, 8] ∨ s.on F.funInputs_pwrFailLatched = false → CompletesWith (exec (.brownOut rail held) s) fun u => u.pins.powered = false ∧ u.on F.carStatus_netClosed = true ∧ Sys2Proof.Claims.Raises s u 2 0)) ∧
  (∀ (s : State) (held : Nat),
    (held < s.rd F.rstFilter_width → ∀ c ∈ [Instr.resetPinAssert held, .resetPinDeassert held, .perstAssert held, .perstDeassert held], CompletesWith (exec c s) fun u =>
      u.ctr 0xE05 = (s.ctr 0xE05 + 1) % 2 ^ 64 ∧ { u with telem := s.telem } = s) ∧
    (s.rd F.rstFilter_width ≤ held →
      (s.on F.funInputs_resetHeld = false → CompletesWith (exec (.resetPinAssert held) s) fun u => u.on F.funInputs_resetHeld = true ∧
        Sys2Proof.Claims.Raises s u 3 (bits (s.rd F.rstLevelMap_map) 4 2)) ∧
      CompletesWith (exec (.resetPinDeassert held) s) (fun u => RegsOnly s u [F.funInputs_resetHeld.off] ∧ u.on F.funInputs_resetHeld = false) ∧
      CompletesWith (exec (.perstDeassert held) s) (fun u => RegsOnly s u [F.funInputs_perstAsserted.off] ∧ u.on F.funInputs_perstAsserted = false) ∧
      CompletesWith (exec (.perstAssert held) s) (fun u => u.on F.funInputs_perstAsserted = true ∧ u.host.mute = true ∧ u.host.reads = [] ∧ u.rd F.hifVfStatus_enabled = 0 ∧ u.on F.hifLinkStatus_dlUp = false ∧
        (∀ a < 16, ∀ r < 4, u.on (F.ringCtrl_enable a r) = false) ∧ (∀ j ∈ u.fil.jobs, j.ring = 4 ∨ j.discard = true) ∧ u.mem = s.mem ∧ u.rst = s.rst))) ∧
  (∀ s : State, let left := s.rst.wdtFrom + 2 ^ s.rd F.rstWdtCtrl_periodLog2
    (s.on F.rstWdtCtrl_en = true → left ≤ s.tally.beat → CompletesWith (exec .watchdogExpiry s) fun u =>
      Sys2Proof.Claims.Raises { s with rst := { s.rst with wdtFrom := s.tally.beat } } u 4 (bits (s.rd F.rstLevelMap_map) 6 2)) ∧
    (s.on F.rstWdtCtrl_en = false ∨ s.tally.beat < left → exec .watchdogExpiry s = .next s) ∧
    CompletesWith (exec .lockupReset s) (fun u => Sys2Proof.Claims.Raises s u 8 (bits (s.rd F.rstLevelMap_map) 14 2))) ∧
  (∀ (s : State) (src : Src) (level key : Nat), manages src = true →
    (key = 0x4B1C → exec (.watchdogKick src key) s = .next { s with rst := { s.rst with wdtFrom := s.tally.beat } }) ∧
    (key ≠ 0x4B1C → exec (.watchdogKick src key) s = .next s) ∧
    (key = 0xA5C3 → level < 3 → CompletesWith (exec (.softwareReset src level key) s) fun u => Sys2Proof.Claims.Raises s u 5 (min level (bits (s.rd F.rstLevelMap_map) 8 2))) ∧
    (key ≠ 0xA5C3 ∨ 3 ≤ level → exec (.softwareReset src level key) s = .next s)) ∧
  (∀ (s : State) (src : Src), s.reaches src = true →
    (s.rd F.dbgStatus_state = 1 → CompletesWith (exec (.debugResetRequest src) s) fun u => Sys2Proof.Claims.Raises s u 6 (bits (s.rd F.rstLevelMap_map) 10 2)) ∧
    (s.rd F.dbgStatus_state ≠ 1 → exec (.debugResetRequest src) s = .next s ∧ exec (.debugClose src) s = .next s) ∧
    (s.rd F.dbgStatus_state = 1 → CompletesWith (exec (.debugClose src) s) fun u => RegsOnly s u [F.dbgStatus_state.off] ∧ u.rd F.dbgStatus_state = 0 ∧ u.rd F.dbgStatus_scope = 0) ∧
    (let b := (s.regBytes F.dbgToken_bytes 128).take 404;
      (s.tokenOk b = true → s.asy.log.length < 1024 → CompletesWith (exec (.debugSubmit src) s) fun u => u.rd F.dbgStatus_state = 1 ∧ u.rd F.dbgStatus_result = 1 ∧ u.rd F.dbgStatus_scope = leAt b 4 4 % 8 ∧
        u.on F.asyStatus_debugOpened = true ∧ u.asy.log.length = s.asy.log.length + 1 ∧ u.mem = s.mem) ∧
      (s.tokenOk b = false → CompletesWith (exec (.debugSubmit src) s) fun u => u.rd F.dbgStatus_state = s.rd F.dbgStatus_state ∧ u.rd F.dbgStatus_result = 2 ∧ u.asy = s.asy ∧ u.mem = s.mem)) ∧
    (s.rd F.asySvn_fused < s.rd F.asySvn_image → s.asy.log.length < 1024 → CompletesWith (exec (.commitSvn src) s) fun u => RegsOnly s u [F.asySvn_fused.off] ∧
      u.rd F.asySvn_fused = s.rd F.asySvn_image ∧ u.rd F.asySvn_image = s.rd F.asySvn_image) ∧
    (s.rd F.asySvn_image ≤ s.rd F.asySvn_fused → exec (.commitSvn src) s = .next s) ∧
    ∀ index < 8,
      (5 ≤ index → s.asy.log.length < 1024 → CompletesWith (exec (.measurementExtGo src index) s) fun u => u.meas index = sha512 (s.meas index ++ s.regBytes F.asyExtData_bytes 16) ∧
        u.asy.log.length = s.asy.log.length + 1 ∧ u.rd F.asyLogCount_count = s.asy.log.length + 1 ∧ u.mem = s.mem) ∧
      (index < 5 → CompletesWith (exec (.measurementExtGo src index) s) fun u => RegsOnly s u [F.asyCtrl_extIndex.off] ∧ u.rd F.asyCtrl_extIndex = index)) ∧
  (∀ (s : State) (r : Raised), r ∈ s.rst.raised → r.level = 0 → r.code < 16 → (∀ q ∈ s.rst.raised, q = r ∨ 0 < q.level ∨ r.code < q.code) → CompletesWith (exec .resetSequence s) fun u =>
    u.rd F.rstCause_code = r.code ∧ u.rd F.rstCause_level = 0 ∧ u.rst.run = some ⟨0, r.code, some 0⟩ ∧ u.rst.raised = [] ∧ u.rd F.asyStatus_bootState = 0 ∧ u.mem = State.reset.mem ∧ u.fil = State.reset.fil ∧
    u.tally = State.reset.tally ∧ u.idx = State.reset.idx ∧ u.car = State.reset.car) ∧
  (∀ s : State, s.rst.raised = [] → exec .resetSequence s = .next s) ∧
  (∀ (s : State) (image : Option (List Byte)) (flash : FlashBoot),
    (s.on F.funInputs_resetHeld = true ∨ s.pins.powered = false → exec (.resetRelease image flash) s = .next s) ∧
    (s.on F.funInputs_resetHeld = false → s.pins.powered = true →
      (∀ r b, s.rst.run = some r → r.asserted = some b →
        (s.tally.beat < b + 64 → exec (.resetRelease image flash) s = .next s) ∧
        (b + 64 ≤ s.tally.beat → r.level = 2 → s.fil.jobs = [] → exec (.resetRelease image flash) s = .next { s with rst := { s.rst with run := none } })) ∧
      (s.rst.run = none → s.rd F.asyStatus_bootState = 0 → s.on F.asyCtrl_hostLoad = false → image = none → CompletesWith (exec (.resetRelease image flash) s) fun u => Sys2Proof.Claims.WaitsForImage s u 8 ∧ u.asy.log.length = 1)) ∧
    (s.rd F.asyStatus_bootState ≠ 2 ∨ s.on F.asyCtrl_hostLoad = false → exec (.hostImageLoad image flash) s = .next s) ∧
    (s.rd F.asyStatus_bootState = 2 → s.on F.asyCtrl_hostLoad = true → image = none → CompletesWith (exec (.hostImageLoad image flash) s) fun u => Sys2Proof.Claims.WaitsForImage s u 9 ∧ u.asy = s.asy)) ∧
  (∀ (s : State) (src : Src) (a : Nat), manages src = true → a < 16 → s.rst.run = none →
    (bitOf (s.rd F.rstActStatus_busy) a = true → CompletesWith (exec (.actReset src a) s) fun u => RegsOnly s u [F.rstActStatus_absorbed.off] ∧ u.on F.rstActStatus_absorbed = true) ∧
    (bitOf (s.rd F.rstActStatus_busy) a = false → s.fil.jobs = [] → (∀ e ∈ s.car.exports, e.act ≠ a) → CompletesWith (exec (.actReset src a) s) fun u => (∀ x ∈ u.fil.tiles, x.act ≠ a) ∧
      u.fil.routines = s.fil.routines.filter (·.act != a) ∧ u.wnz.tables = s.wnz.tables.filter (·.act != a) ∧ u.idx.exchanges = s.idx.exchanges.filter (·.act != a) ∧ u.car.exports = s.car.exports ∧
      u.on (F.actStatus_faulted a) = false ∧ (∀ r < 4, u.on (F.ringCtrl_enable a r) = false) ∧ u.on (F.actCtrl_halt a) = false ∧ bitOf (u.rd F.rstActStatus_busy) a = false)) ∧
  (∀ (s : State) (src : Src) (b : Nat), manages src = true → s.rst.run = none →
    (0x2B < b → exec (.blockReset src b) s = .next s) ∧
    (b ≤ 0x2B → s.rst.block = none → CompletesWith (exec (.blockReset src b) s) fun u => u.rst = { s.rst with block := some (b, s.tally.beat) } ∧ u.rd F.rstBlkStatus_block = b ∧ u.on F.rstBlkStatus_busy = true) ∧
    (∀ c t, b ≤ 0x2B → s.rst.block = some (c, t) → b ≠ c → exec (.blockReset src b) s = .next s) ∧
    (∀ t, b ≤ 0x2B → s.rst.block = some (b, t) → CompletesWith (exec (.blockReset src b) s) fun u => RegsOnly s u [F.rstBlkStatus_absorbed.off] ∧ u.on F.rstBlkStatus_absorbed = true)) ∧
  (∀ s : State,
    (s.rst.block = none → exec .blockResetIdle s = .next s ∧ exec .blockResetTimeout s = .next s) ∧
    (∀ b t, s.rst.block = some (b, t) → (s.blockIdle b = false → exec .blockResetIdle s = .next s) ∧ (s.tally.beat < t + s.rd F.rstBlkTimeout_beats → exec .blockResetTimeout s = .next s)) ∧
    (∀ t, s.rst.block = some (0x2B, t) → s.mdw.sends = [] →
      let done := fun u : State => u.rst.block = none ∧ u.on F.rstBlkStatus_busy = false ∧ u.mdw.frames = [] ∧ u.mdw.recvs = [] ∧ u.ctr 0xD10 = (s.ctr 0xD10 + 1) % 2 ^ 64 ∧ u.mem = s.mem
      CompletesWith (exec .blockResetIdle s) (fun u => done u ∧ u.rd F.rstBlkStatus_timeout = s.rd F.rstBlkStatus_timeout) ∧
      (t + s.rd F.rstBlkTimeout_beats ≤ s.tally.beat → CompletesWith (exec .blockResetTimeout s) fun u => done u ∧ u.on F.rstBlkStatus_timeout = true ∧ u.ctr 0xD11 = (s.ctr 0xD11 + 1) % 2 ^ 64))) ∧
  (∀ (s : State) (fn x len : Nat),
    (16 ≤ fn ∨ s.fnOn fn = false ∨ s.on (F.hifFnBar2_enable fn) = false → exec (.bar2Read fn x len) s = .next (s.emit (.completion fn 1 [])) ∧ ∀ d, exec (.bar2Write fn x d) s = .next s) ∧
    (fn < 16 → s.fnOn fn = true → s.on (F.hifFnBar2_enable fn) = true →
      let a := s.rd (F.hifFnBar2_gib fn) * 2 ^ 30 + x
      ((∃ y ∈ probePoints a len, physOf y = none) →
        CompletesWith (exec (.bar2Read fn x len) s) (fun u => u.host.out = .completion fn 1 [] :: s.host.out ∧ u.ctr 0xC22 = (s.ctr 0xC22 + 1) % 2 ^ 64 ∧ u.mem = s.mem ∧
          (s.on F.hifBar2Err_valid = false → u.on F.hifBar2Err_valid = true ∧ u.rd F.hifBar2Err_kind = 2 ∧ u.rd F.hifBar2Err_func = fn)) ∧
        ∀ d : List Byte, d.length = len → CompletesWith (exec (.bar2Write fn x d) s) fun u => u.ctr 0xC22 = (s.ctr 0xC22 + 1) % 2 ^ 64 ∧ u.mem = s.mem ∧ u.host = s.host) ∧
      ((∀ y ∈ probePoints a len, ∃ p, physOf y = some p ∧ s.inPool p = false) → (fn = 0 ∨ ∀ y ∈ probePoints a len, ∀ p, physOf y = some p → s.regionGrants fn .read p = true ∧ s.regionGrants fn .write p = true) →
        (s.holder false a len = none → isRegister a = false → (∀ b ∈ blocksOf a len, s.mem.check b = .clean) → s.rd F.pwrStackState_inP3 = 0 →
          exec (.bar2Read fn x len) s = .next (s.emit (.completion fn 0 (s.readMem 0 a len).1))) ∧
        ∀ d : List Byte, d.length = len → s.mem.wf = true → s.holder true a len = none → Writable s a len → CompletesWith (exec (.bar2Write fn x d) s) fun u => Stores s u a d ∧ u.host = s.host))) ∧
  (∀ (s : State) (speed width : Nat) (flit : Bool), s.on F.funInputs_perstAsserted = false → speed < 8 → let r := min speed (s.rd F.hifLinkCtrl_maxSpeed)
    (5 ≤ r → width ∈ [1, 2, 4] → CompletesWith (exec (.linkRetrain speed width flit) s) fun u => RegsOnly s u [F.hifLinkStatus_speed.off] ∧ u.rd F.hifLinkStatus_speed = r ∧ u.rd F.hifLinkStatus_width = width ∧
      u.on F.hifLinkStatus_flit = (decide (6 ≤ r) || flit) ∧ u.on F.hifLinkStatus_dlUp = true) ∧
    (r < 5 ∨ width ∉ [1, 2, 4] → CompletesWith (exec (.linkRetrain speed width flit) s) fun u => RegsOnly s u [F.hifLinkStatus_speed.off] ∧ u.rd F.hifLinkStatus_speed = 0 ∧ u.on F.hifLinkStatus_dlUp = false)) ∧
  (∀ (s : State) (f : Nat) (enable : Bool),
    (0 < f → f < 16 → s.on F.funInputs_perstAsserted = false → CompletesWith (exec (.vfEnable f enable) s) fun u => RegsOnly s u [F.hifVfStatus_enabled.off] ∧ u.fnOn f = enable) ∧
    (f = 0 ∨ 16 ≤ f ∨ s.on F.funInputs_perstAsserted = true → exec (.vfEnable f enable) s = .next s)) ∧
  ∀ (s : State) (src : Src), s.reaches src = true →
    let fits := (∀ a, 0 < a → a < 16 → s.on (F.actCtrl_enable a) = false) ∧ s.actIdle 0 = true ∧ ∃ r ∈ s.fil.routines, r.act = 0 ∧ r.unloaded = false ∧ r.handle = s.rd F.hifOstRoutine_handle
    (fits → CompletesWith (exec (.ostEnable src) s) fun u => RegsOnly s u [F.hifOstCtrl_enable.off] ∧ u.on F.hifOstCtrl_enable = true ∧ u.on F.hifOstCtrl_active = true) ∧
    (¬ fits → exec (.ostEnable src) s = .next s) ∧
    CompletesWith (exec (.ostDisable src) s) (fun u => RegsOnly s u [F.hifOstCtrl_enable.off] ∧ u.on F.hifOstCtrl_enable = false ∧ u.on F.hifOstCtrl_active = (s.on F.hifOstCtrl_active && !s.actIdle 0)) ∧
    (s.on F.hifOstCtrl_enable = false → s.actIdle 0 = true → CompletesWith (exec .ostExit s) fun u => RegsOnly s u [F.hifOstCtrl_active.off] ∧ u.on F.hifOstCtrl_active = false) ∧
    (s.on F.hifOstCtrl_enable = true ∨ s.actIdle 0 = false → exec .ostExit s = .next s)

/-- For every state whose memory bytes, check bits, lost map, registers and counters are in canonical form (keys strictly rising, and no
entry equal to what an unlisted one reads as), and for every command at the front of its queue or none: a next state of the step is in
canonical form again. So two states that read the same hold the same memory, registers and counters as data. The form is the model's own
(log 8): the spec knows no lists. (02_filaux_programming_model.md, 10_memory_tiers_and_protection.md) -/
def Obligations.StepKeepsCanonicalForm : Prop :=
  ∀ s t : State, s.canonical = true → step s = .next t → t.canonical = true

/-- After reset the memories, the registers and the counters are in canonical form: nothing is listed. (02_filaux_programming_model.md,
10_memory_tiers_and_protection.md) -/
def Obligations.ResetIsCanonical : Prop := State.reset.canonical = true
end

