-- ==== Sys2Proof/Laws/Lists.lean ====
section
/-! SUPPORT. The laws of the sorted key and value lists: a read after a write, and the canonical form that every write keeps. -/
namespace Sys2Proof.Machine

variable {α : Type} [DecidableEq α] {d : α}

/-- Every key of a list is at or above a bound. -/
def kvFrom (n : Nat) (l : List (Nat × α)) : Prop := ∀ e ∈ l, n ≤ e.1

theorem kvWf_cons {a : Nat} {v : α} {t : List (Nat × α)} :
    kvWf d ((a, v) :: t) = true ↔ v ≠ d ∧ kvFrom (a + 1) t ∧ kvWf d t = true := by
  induction t generalizing a v with
  | nil => simp [kvWf, kvFrom]
  | cons e t ih =>
    obtain ⟨b, w⟩ := e
    simp only [kvWf, Bool.and_eq_true, decide_eq_true_eq]
    constructor
    · rintro ⟨⟨hv, hab⟩, ht⟩
      refine ⟨hv, fun e he => ?_, ht⟩
      rcases List.mem_cons.1 he with rfl | he
      · exact hab
      · have h := (ih.1 ht).2.1 e he
        omega
    · rintro ⟨hv, hf, ht⟩
      exact ⟨⟨hv, hf (b, w) (by simp)⟩, ht⟩

omit [DecidableEq α] in
theorem kvFrom.le {m n : Nat} {l : List (Nat × α)} (h : kvFrom n l) (hm : m ≤ n) : kvFrom m l :=
  fun e he => Nat.le_trans hm (h e he)

omit [DecidableEq α] in
theorem kvGet_of_from {n k : Nat} {l : List (Nat × α)} (h : kvFrom n l) (hk : k < n) : kvGet d l k = d := by
  induction l with
  | nil => rfl
  | cons e t ih =>
    obtain ⟨a, v⟩ := e
    have ha : n ≤ a := h (a, v) (by simp)
    have hne : ¬ a = k := by omega
    simp only [kvGet, hne, if_false]
    exact ih fun e he => h e (by simp [he])

theorem kvFilter_wf {p : Nat × α → Bool} {l : List (Nat × α)} (h : kvWf d l = true) : kvWf d (l.filter p) = true := by
  induction l with
  | nil => rfl
  | cons e t ih =>
    obtain ⟨a, w⟩ := e
    obtain ⟨hw, hf, ht⟩ := kvWf_cons.1 h
    rw [List.filter_cons]
    split
    · exact kvWf_cons.2 ⟨hw, fun e he => hf e (List.mem_filter.1 he).1, ih ht⟩
    · exact ih ht

omit [DecidableEq α] in
theorem kvGet_filter {p : Nat → Bool} {l : List (Nat × α)} {i : Nat} (h : p i = true) :
    kvGet d (l.filter fun e => p e.1) i = kvGet d l i := by
  induction l with
  | nil => rfl
  | cons e t ih =>
    obtain ⟨a, w⟩ := e
    rw [List.filter_cons]
    by_cases ha : a = i
    · subst ha; simp [kvGet, h]
    · split <;> simp only [kvGet, ha, if_false, ih]

omit [DecidableEq α] in
theorem kvErase_from {n k : Nat} {l : List (Nat × α)} (h : kvFrom n l) : kvFrom n (kvErase k l) :=
  fun e he => h e (List.mem_filter.1 he).1

omit [DecidableEq α] in
theorem kvGet_erase_same {k : Nat} {l : List (Nat × α)} : kvGet d (kvErase k l) k = d := by
  induction l with
  | nil => rfl
  | cons e t ih =>
    obtain ⟨a, w⟩ := e
    unfold kvErase at *
    rw [List.filter_cons]
    by_cases ha : a = k
    · simpa [ha] using ih
    · simpa [ha, kvGet] using ih

omit [DecidableEq α] in
theorem kvGet_erase_other {k i : Nat} {l : List (Nat × α)} (h : k ≠ i) : kvGet d (kvErase k l) i = kvGet d l i :=
  kvGet_filter (p := fun n => !(n == k)) (by simpa using Ne.symm h)

theorem kvSet_from {n k : Nat} {v : α} {l : List (Nat × α)} (h : kvFrom n l) (hk : n ≤ k) : kvFrom n (kvSet d l k v) := by
  induction l with
  | nil => simp only [kvSet]; split <;> simp [kvFrom, hk]
  | cons e t ih =>
    obtain ⟨a, w⟩ := e
    have ha : n ≤ a := h (a, w) (by simp)
    have ht : kvFrom n t := fun e he => h e (by simp [he])
    have hi := ih ht
    simp only [kvSet]
    split
    · split
      · exact kvErase_from h
      · intro e he; rcases List.mem_cons.1 he with rfl | he
        · exact hk
        · exact h e he
    · split
      · split
        · exact kvErase_from ht
        · intro e he; rcases List.mem_cons.1 he with rfl | he
          · exact hk
          · exact ht e he
      · intro e he; rcases List.mem_cons.1 he with rfl | he
        · exact ha
        · exact hi e he

/-- A write keeps the canonical form. -/
theorem kvSet_wf {k : Nat} {v : α} {l : List (Nat × α)} (h : kvWf d l = true) : kvWf d (kvSet d l k v) = true := by
  induction l with
  | nil => simp only [kvSet]; split <;> simp_all [kvWf]
  | cons e t ih =>
    obtain ⟨a, w⟩ := e
    obtain ⟨hw, hf, ht⟩ := kvWf_cons.1 h
    have hi := ih ht
    simp only [kvSet]
    split
    · rename_i hk
      split
      · exact kvFilter_wf h
      · rename_i hv
        refine kvWf_cons.2 ⟨hv, fun e he => ?_, h⟩
        rcases List.mem_cons.1 he with rfl | he
        · exact hk
        · have := hf e he; omega
    · split
      · rename_i hk
        split
        · exact kvFilter_wf ht
        · rename_i hv; exact kvWf_cons.2 ⟨hv, hk ▸ hf, ht⟩
      · exact kvWf_cons.2 ⟨hw, kvSet_from hf (by omega), hi⟩

/-- A read of the key written gives the value written. -/
theorem kvGet_kvSet_same {k : Nat} {v : α} {l : List (Nat × α)} : kvGet d (kvSet d l k v) k = v := by
  induction l with
  | nil => simp only [kvSet]; split <;> simp_all [kvGet]
  | cons e t ih =>
    obtain ⟨a, w⟩ := e
    simp only [kvSet]
    split
    · split
      · rename_i hk hv; rw [hv]; exact kvGet_erase_same
      · simp [kvGet]
    · split
      · rename_i hk
        split
        · rename_i hv; rw [hv]; exact kvGet_erase_same
        · simp [kvGet]
      · rename_i hk; simp only [kvGet, hk, if_false]; exact ih

/-- A read of another key gives what it gave. -/
theorem kvGet_kvSet_other {k i : Nat} {v : α} {l : List (Nat × α)} (hne : k ≠ i) :
    kvGet d (kvSet d l k v) i = kvGet d l i := by
  induction l with
  | nil => simp only [kvSet]; split <;> simp [kvGet, hne]
  | cons e t ih =>
    obtain ⟨a, w⟩ := e
    simp only [kvSet]
    split
    · split
      · exact kvGet_erase_other hne
      · simp [kvGet, hne]
    · split
      · rename_i hk
        subst hk
        split
        · rw [kvGet_erase_other hne]; simp [kvGet, hne]
        · simp [kvGet, hne]
      · simp only [kvGet, ih]

theorem kvDrop_wf {p : Nat → Bool} {l : List (Nat × α)} (h : kvWf d l = true) : kvWf d (kvDrop p l) = true := kvFilter_wf h

theorem kvRun_from {k : Nat} {vs : List α} : kvFrom k (kvRun d k vs) := by
  induction vs generalizing k with
  | nil => simp [kvRun, kvFrom]
  | cons v t ih =>
    simp only [kvRun]
    split
    · exact (ih (k := k + 1)).le (by omega)
    · intro e he; rcases List.mem_cons.1 he with rfl | he
      · exact Nat.le_refl _
      · have := ih (k := k + 1) e he; omega

theorem kvRun_below {k : Nat} {vs : List α} : ∀ e ∈ kvRun d k vs, e.1 < k + vs.length := by
  induction vs generalizing k with
  | nil => simp [kvRun]
  | cons v t ih =>
    simp only [kvRun, List.length_cons]
    split
    · intro e he; have := ih (k := k + 1) e he; omega
    · intro e he; rcases List.mem_cons.1 he with rfl | he
      · simp
      · have := ih (k := k + 1) e he; omega

theorem kvRun_wf {k : Nat} {vs : List α} : kvWf d (kvRun d k vs) = true := by
  induction vs generalizing k with
  | nil => rfl
  | cons v t ih =>
    simp only [kvRun]
    split
    · exact ih
    · rename_i hv; exact kvWf_cons.2 ⟨hv, kvRun_from, ih⟩

theorem kvWf_append {n : Nat} {l m : List (Nat × α)} (hl : kvWf d l = true) (hb : ∀ e ∈ l, e.1 < n) (hm : kvWf d m = true)
    (hf : kvFrom n m) : kvWf d (l ++ m) = true := by
  induction l with
  | nil => exact hm
  | cons e t ih =>
    obtain ⟨a, w⟩ := e
    obtain ⟨hw, hft, ht⟩ := kvWf_cons.1 hl
    refine kvWf_cons.2 ⟨hw, fun e he => ?_, ih ht fun e he => hb e (by simp [he])⟩
    rcases List.mem_append.1 he with he | he
    · exact hft e he
    · have h1 := hb (a, w) (by simp)
      have h2 := hf e he
      simp only at h1; omega

/-- A write of a run keeps the canonical form. -/
theorem kvPut_wf {k : Nat} {vs : List α} {l : List (Nat × α)} (h : kvWf d l = true) : kvWf d (kvPut d l k vs) = true := by
  unfold kvPut
  refine kvWf_append (n := k + vs.length) (kvWf_append (n := k) (kvFilter_wf h) ?_ kvRun_wf kvRun_from) ?_ (kvFilter_wf h) ?_
  · intro e he; simpa using (List.mem_filter.1 he).2
  · intro e he
    rcases List.mem_append.1 he with he | he
    · have : e.1 < k := by simpa using (List.mem_filter.1 he).2
      omega
    · exact kvRun_below e he
  · intro e he; simpa using (List.mem_filter.1 he).2

omit [DecidableEq α] in
theorem kvGet_append {l m : List (Nat × α)} {i : Nat} (h : ∀ e ∈ l, e.1 ≠ i) : kvGet d (l ++ m) i = kvGet d m i := by
  induction l with
  | nil => rfl
  | cons e t ih =>
    obtain ⟨a, w⟩ := e
    have ha : a ≠ i := h (a, w) (by simp)
    simp only [List.cons_append, kvGet, ha, if_false]
    exact ih fun e he => h e (by simp [he])

omit [DecidableEq α] in
theorem kvGet_append_left {l m : List (Nat × α)} {i : Nat} (h : ∀ e ∈ m, e.1 ≠ i) : kvGet d (l ++ m) i = kvGet d l i := by
  induction l with
  | nil =>
    have := kvGet_append (d := d) (m := []) h
    simpa [kvGet] using this
  | cons e t ih =>
    obtain ⟨a, w⟩ := e
    simp only [List.cons_append, kvGet, ih]

theorem kvGet_run {k i : Nat} {vs : List α} (h : i < vs.length) : kvGet d (kvRun d k vs) (k + i) = vs[i] := by
  induction vs generalizing k i with
  | nil => simp at h
  | cons v t ih =>
    simp only [kvRun]
    cases i with
    | zero =>
      split
      · rename_i hv; rw [kvGet_of_from kvRun_from (by omega)]; simp [hv]
      · simp [kvGet]
    | succ i =>
      have hi : i < t.length := by simpa using h
      have e : k + (i + 1) = k + 1 + i := by omega
      split
      · rw [e, ih hi]; simp
      · have hne : ¬ k = k + (i + 1) := by omega
        simp only [kvGet, hne, if_false]
        rw [e, ih hi]; simp

/-- A read inside a run that was written gives the run's value. -/
theorem kvGet_kvPut_in {k i : Nat} {vs : List α} {l : List (Nat × α)} (h : i < vs.length) :
    kvGet d (kvPut d l k vs) (k + i) = vs[i] := by
  unfold kvPut
  rw [List.append_assoc, kvGet_append, kvGet_append_left, kvGet_run h]
  · intro e he
    have : k + vs.length ≤ e.1 := by simpa using (List.mem_filter.1 he).2
    omega
  · intro e he
    have : e.1 < k := by simpa using (List.mem_filter.1 he).2
    omega

/-- A read outside a run that was written gives what it gave. -/
theorem kvGet_kvPut_out {k i : Nat} {vs : List α} {l : List (Nat × α)} (h : i < k ∨ k + vs.length ≤ i) :
    kvGet d (kvPut d l k vs) i = kvGet d l i := by
  unfold kvPut
  rcases h with h | h
  · rw [List.append_assoc, kvGet_append_left, kvGet_filter (p := fun n => decide (n < k)) (by simpa using h)]
    intro e he
    rcases List.mem_append.1 he with he | he
    · have := kvRun_from e he; omega
    · have : k + vs.length ≤ e.1 := by simpa using (List.mem_filter.1 he).2
      omega
  · rw [kvGet_append, kvGet_filter (p := fun n => decide (k + vs.length ≤ n)) (by simpa using h)]
    intro e he
    rcases List.mem_append.1 he with he | he
    · have : e.1 < k := by simpa using (List.mem_filter.1 he).2
      omega
    · have := kvRun_below e he; omega

end Sys2Proof.Machine
end

