-- ==== Sys2Proof/Laws/State.lean ====
section
/-! SUPPORT. What each named update leaves of every field of the state: all but the one it is for. -/
namespace Sys2Proof.Machine

variable (s : State)


@[simp] theorem State.setReg_tally (off : Nat) (w : BitVec 32) : (s.setReg off w).tally = s.tally := rfl
@[simp] theorem State.setReg_telem (off : Nat) (w : BitVec 32) : (s.setReg off w).telem = s.telem := rfl
@[simp] theorem State.setReg_mem (off : Nat) (w : BitVec 32) : (s.setReg off w).mem = s.mem := rfl
@[simp] theorem State.setReg_fil (off : Nat) (w : BitVec 32) : (s.setReg off w).fil = s.fil := rfl
@[simp] theorem State.setReg_host (off : Nat) (w : BitVec 32) : (s.setReg off w).host = s.host := rfl
@[simp] theorem State.setReg_wnz (off : Nat) (w : BitVec 32) : (s.setReg off w).wnz = s.wnz := rfl
@[simp] theorem State.setReg_idx (off : Nat) (w : BitVec 32) : (s.setReg off w).idx = s.idx := rfl
@[simp] theorem State.setReg_car (off : Nat) (w : BitVec 32) : (s.setReg off w).car = s.car := rfl
@[simp] theorem State.setReg_mdw (off : Nat) (w : BitVec 32) : (s.setReg off w).mdw = s.mdw := rfl
@[simp] theorem State.setReg_rgm (off : Nat) (w : BitVec 32) : (s.setReg off w).rgm = s.rgm := rfl
@[simp] theorem State.setReg_pwr (off : Nat) (w : BitVec 32) : (s.setReg off w).pwr = s.pwr := rfl
@[simp] theorem State.setReg_flash (off : Nat) (w : BitVec 32) : (s.setReg off w).flash = s.flash := rfl
@[simp] theorem State.setReg_rst (off : Nat) (w : BitVec 32) : (s.setReg off w).rst = s.rst := rfl
@[simp] theorem State.setReg_asy (off : Nat) (w : BitVec 32) : (s.setReg off w).asy = s.asy := rfl
@[simp] theorem State.setReg_fun_ (off : Nat) (w : BitVec 32) : (s.setReg off w).fun_ = s.fun_ := rfl
@[simp] theorem State.setReg_pins (off : Nat) (w : BitVec 32) : (s.setReg off w).pins = s.pins := rfl
@[simp] theorem State.setReg_free (off : Nat) (w : BitVec 32) : (s.setReg off w).free = s.free := rfl
@[simp] theorem State.setReg_nextId (off : Nat) (w : BitVec 32) : (s.setReg off w).nextId = s.nextId := rfl
@[simp] theorem State.setReg_pending (off : Nat) (w : BitVec 32) : (s.setReg off w).pending = s.pending := rfl

@[simp] theorem State.wr_tally (f : FieldRef) (v : Nat) : (s.wr f v).tally = s.tally := rfl
@[simp] theorem State.wr_telem (f : FieldRef) (v : Nat) : (s.wr f v).telem = s.telem := rfl
@[simp] theorem State.wr_mem (f : FieldRef) (v : Nat) : (s.wr f v).mem = s.mem := rfl
@[simp] theorem State.wr_fil (f : FieldRef) (v : Nat) : (s.wr f v).fil = s.fil := rfl
@[simp] theorem State.wr_host (f : FieldRef) (v : Nat) : (s.wr f v).host = s.host := rfl
@[simp] theorem State.wr_wnz (f : FieldRef) (v : Nat) : (s.wr f v).wnz = s.wnz := rfl
@[simp] theorem State.wr_idx (f : FieldRef) (v : Nat) : (s.wr f v).idx = s.idx := rfl
@[simp] theorem State.wr_car (f : FieldRef) (v : Nat) : (s.wr f v).car = s.car := rfl
@[simp] theorem State.wr_mdw (f : FieldRef) (v : Nat) : (s.wr f v).mdw = s.mdw := rfl
@[simp] theorem State.wr_rgm (f : FieldRef) (v : Nat) : (s.wr f v).rgm = s.rgm := rfl
@[simp] theorem State.wr_pwr (f : FieldRef) (v : Nat) : (s.wr f v).pwr = s.pwr := rfl
@[simp] theorem State.wr_flash (f : FieldRef) (v : Nat) : (s.wr f v).flash = s.flash := rfl
@[simp] theorem State.wr_rst (f : FieldRef) (v : Nat) : (s.wr f v).rst = s.rst := rfl
@[simp] theorem State.wr_asy (f : FieldRef) (v : Nat) : (s.wr f v).asy = s.asy := rfl
@[simp] theorem State.wr_fun_ (f : FieldRef) (v : Nat) : (s.wr f v).fun_ = s.fun_ := rfl
@[simp] theorem State.wr_pins (f : FieldRef) (v : Nat) : (s.wr f v).pins = s.pins := rfl
@[simp] theorem State.wr_free (f : FieldRef) (v : Nat) : (s.wr f v).free = s.free := rfl
@[simp] theorem State.wr_nextId (f : FieldRef) (v : Nat) : (s.wr f v).nextId = s.nextId := rfl
@[simp] theorem State.wr_pending (f : FieldRef) (v : Nat) : (s.wr f v).pending = s.pending := rfl

@[simp] theorem State.wr64_tally (lo hi : FieldRef) (v : Nat) : (s.wr64 lo hi v).tally = s.tally := rfl
@[simp] theorem State.wr64_telem (lo hi : FieldRef) (v : Nat) : (s.wr64 lo hi v).telem = s.telem := rfl
@[simp] theorem State.wr64_mem (lo hi : FieldRef) (v : Nat) : (s.wr64 lo hi v).mem = s.mem := rfl
@[simp] theorem State.wr64_fil (lo hi : FieldRef) (v : Nat) : (s.wr64 lo hi v).fil = s.fil := rfl
@[simp] theorem State.wr64_host (lo hi : FieldRef) (v : Nat) : (s.wr64 lo hi v).host = s.host := rfl
@[simp] theorem State.wr64_wnz (lo hi : FieldRef) (v : Nat) : (s.wr64 lo hi v).wnz = s.wnz := rfl
@[simp] theorem State.wr64_idx (lo hi : FieldRef) (v : Nat) : (s.wr64 lo hi v).idx = s.idx := rfl
@[simp] theorem State.wr64_car (lo hi : FieldRef) (v : Nat) : (s.wr64 lo hi v).car = s.car := rfl
@[simp] theorem State.wr64_mdw (lo hi : FieldRef) (v : Nat) : (s.wr64 lo hi v).mdw = s.mdw := rfl
@[simp] theorem State.wr64_rgm (lo hi : FieldRef) (v : Nat) : (s.wr64 lo hi v).rgm = s.rgm := rfl
@[simp] theorem State.wr64_pwr (lo hi : FieldRef) (v : Nat) : (s.wr64 lo hi v).pwr = s.pwr := rfl
@[simp] theorem State.wr64_flash (lo hi : FieldRef) (v : Nat) : (s.wr64 lo hi v).flash = s.flash := rfl
@[simp] theorem State.wr64_rst (lo hi : FieldRef) (v : Nat) : (s.wr64 lo hi v).rst = s.rst := rfl
@[simp] theorem State.wr64_asy (lo hi : FieldRef) (v : Nat) : (s.wr64 lo hi v).asy = s.asy := rfl
@[simp] theorem State.wr64_fun_ (lo hi : FieldRef) (v : Nat) : (s.wr64 lo hi v).fun_ = s.fun_ := rfl
@[simp] theorem State.wr64_pins (lo hi : FieldRef) (v : Nat) : (s.wr64 lo hi v).pins = s.pins := rfl
@[simp] theorem State.wr64_free (lo hi : FieldRef) (v : Nat) : (s.wr64 lo hi v).free = s.free := rfl
@[simp] theorem State.wr64_nextId (lo hi : FieldRef) (v : Nat) : (s.wr64 lo hi v).nextId = s.nextId := rfl
@[simp] theorem State.wr64_pending (lo hi : FieldRef) (v : Nat) : (s.wr64 lo hi v).pending = s.pending := rfl

@[simp] theorem State.bump_tally (f : FieldRef) (n : Nat) : (s.bump f n).tally = s.tally := rfl
@[simp] theorem State.bump_telem (f : FieldRef) (n : Nat) : (s.bump f n).telem = s.telem := rfl
@[simp] theorem State.bump_mem (f : FieldRef) (n : Nat) : (s.bump f n).mem = s.mem := rfl
@[simp] theorem State.bump_fil (f : FieldRef) (n : Nat) : (s.bump f n).fil = s.fil := rfl
@[simp] theorem State.bump_host (f : FieldRef) (n : Nat) : (s.bump f n).host = s.host := rfl
@[simp] theorem State.bump_wnz (f : FieldRef) (n : Nat) : (s.bump f n).wnz = s.wnz := rfl
@[simp] theorem State.bump_idx (f : FieldRef) (n : Nat) : (s.bump f n).idx = s.idx := rfl
@[simp] theorem State.bump_car (f : FieldRef) (n : Nat) : (s.bump f n).car = s.car := rfl
@[simp] theorem State.bump_mdw (f : FieldRef) (n : Nat) : (s.bump f n).mdw = s.mdw := rfl
@[simp] theorem State.bump_rgm (f : FieldRef) (n : Nat) : (s.bump f n).rgm = s.rgm := rfl
@[simp] theorem State.bump_pwr (f : FieldRef) (n : Nat) : (s.bump f n).pwr = s.pwr := rfl
@[simp] theorem State.bump_flash (f : FieldRef) (n : Nat) : (s.bump f n).flash = s.flash := rfl
@[simp] theorem State.bump_rst (f : FieldRef) (n : Nat) : (s.bump f n).rst = s.rst := rfl
@[simp] theorem State.bump_asy (f : FieldRef) (n : Nat) : (s.bump f n).asy = s.asy := rfl
@[simp] theorem State.bump_fun_ (f : FieldRef) (n : Nat) : (s.bump f n).fun_ = s.fun_ := rfl
@[simp] theorem State.bump_pins (f : FieldRef) (n : Nat) : (s.bump f n).pins = s.pins := rfl
@[simp] theorem State.bump_free (f : FieldRef) (n : Nat) : (s.bump f n).free = s.free := rfl
@[simp] theorem State.bump_nextId (f : FieldRef) (n : Nat) : (s.bump f n).nextId = s.nextId := rfl
@[simp] theorem State.bump_pending (f : FieldRef) (n : Nat) : (s.bump f n).pending = s.pending := rfl

@[simp] theorem State.bump64_tally (lo hi : FieldRef) (n : Nat) : (s.bump64 lo hi n).tally = s.tally := rfl
@[simp] theorem State.bump64_telem (lo hi : FieldRef) (n : Nat) : (s.bump64 lo hi n).telem = s.telem := rfl
@[simp] theorem State.bump64_mem (lo hi : FieldRef) (n : Nat) : (s.bump64 lo hi n).mem = s.mem := rfl
@[simp] theorem State.bump64_fil (lo hi : FieldRef) (n : Nat) : (s.bump64 lo hi n).fil = s.fil := rfl
@[simp] theorem State.bump64_host (lo hi : FieldRef) (n : Nat) : (s.bump64 lo hi n).host = s.host := rfl
@[simp] theorem State.bump64_wnz (lo hi : FieldRef) (n : Nat) : (s.bump64 lo hi n).wnz = s.wnz := rfl
@[simp] theorem State.bump64_idx (lo hi : FieldRef) (n : Nat) : (s.bump64 lo hi n).idx = s.idx := rfl
@[simp] theorem State.bump64_car (lo hi : FieldRef) (n : Nat) : (s.bump64 lo hi n).car = s.car := rfl
@[simp] theorem State.bump64_mdw (lo hi : FieldRef) (n : Nat) : (s.bump64 lo hi n).mdw = s.mdw := rfl
@[simp] theorem State.bump64_rgm (lo hi : FieldRef) (n : Nat) : (s.bump64 lo hi n).rgm = s.rgm := rfl
@[simp] theorem State.bump64_pwr (lo hi : FieldRef) (n : Nat) : (s.bump64 lo hi n).pwr = s.pwr := rfl
@[simp] theorem State.bump64_flash (lo hi : FieldRef) (n : Nat) : (s.bump64 lo hi n).flash = s.flash := rfl
@[simp] theorem State.bump64_rst (lo hi : FieldRef) (n : Nat) : (s.bump64 lo hi n).rst = s.rst := rfl
@[simp] theorem State.bump64_asy (lo hi : FieldRef) (n : Nat) : (s.bump64 lo hi n).asy = s.asy := rfl
@[simp] theorem State.bump64_fun_ (lo hi : FieldRef) (n : Nat) : (s.bump64 lo hi n).fun_ = s.fun_ := rfl
@[simp] theorem State.bump64_pins (lo hi : FieldRef) (n : Nat) : (s.bump64 lo hi n).pins = s.pins := rfl
@[simp] theorem State.bump64_free (lo hi : FieldRef) (n : Nat) : (s.bump64 lo hi n).free = s.free := rfl
@[simp] theorem State.bump64_nextId (lo hi : FieldRef) (n : Nat) : (s.bump64 lo hi n).nextId = s.nextId := rfl
@[simp] theorem State.bump64_pending (lo hi : FieldRef) (n : Nat) : (s.bump64 lo hi n).pending = s.pending := rfl

@[simp] theorem State.count_tally (c n : Nat) : (s.count c n).tally = s.tally := rfl
@[simp] theorem State.count_regs (c n : Nat) : (s.count c n).regs = s.regs := rfl
@[simp] theorem State.count_mem (c n : Nat) : (s.count c n).mem = s.mem := rfl
@[simp] theorem State.count_fil (c n : Nat) : (s.count c n).fil = s.fil := rfl
@[simp] theorem State.count_host (c n : Nat) : (s.count c n).host = s.host := rfl
@[simp] theorem State.count_wnz (c n : Nat) : (s.count c n).wnz = s.wnz := rfl
@[simp] theorem State.count_idx (c n : Nat) : (s.count c n).idx = s.idx := rfl
@[simp] theorem State.count_car (c n : Nat) : (s.count c n).car = s.car := rfl
@[simp] theorem State.count_mdw (c n : Nat) : (s.count c n).mdw = s.mdw := rfl
@[simp] theorem State.count_rgm (c n : Nat) : (s.count c n).rgm = s.rgm := rfl
@[simp] theorem State.count_pwr (c n : Nat) : (s.count c n).pwr = s.pwr := rfl
@[simp] theorem State.count_flash (c n : Nat) : (s.count c n).flash = s.flash := rfl
@[simp] theorem State.count_rst (c n : Nat) : (s.count c n).rst = s.rst := rfl
@[simp] theorem State.count_asy (c n : Nat) : (s.count c n).asy = s.asy := rfl
@[simp] theorem State.count_fun_ (c n : Nat) : (s.count c n).fun_ = s.fun_ := rfl
@[simp] theorem State.count_pins (c n : Nat) : (s.count c n).pins = s.pins := rfl
@[simp] theorem State.count_free (c n : Nat) : (s.count c n).free = s.free := rfl
@[simp] theorem State.count_nextId (c n : Nat) : (s.count c n).nextId = s.nextId := rfl
@[simp] theorem State.count_pending (c n : Nat) : (s.count c n).pending = s.pending := rfl

@[simp] theorem State.fired_tally (n : Nat) : (s.fired n).tally = s.tally := rfl
@[simp] theorem State.fired_regs (n : Nat) : (s.fired n).regs = s.regs := rfl
@[simp] theorem State.fired_mem (n : Nat) : (s.fired n).mem = s.mem := rfl
@[simp] theorem State.fired_fil (n : Nat) : (s.fired n).fil = s.fil := rfl
@[simp] theorem State.fired_host (n : Nat) : (s.fired n).host = s.host := rfl
@[simp] theorem State.fired_wnz (n : Nat) : (s.fired n).wnz = s.wnz := rfl
@[simp] theorem State.fired_idx (n : Nat) : (s.fired n).idx = s.idx := rfl
@[simp] theorem State.fired_car (n : Nat) : (s.fired n).car = s.car := rfl
@[simp] theorem State.fired_mdw (n : Nat) : (s.fired n).mdw = s.mdw := rfl
@[simp] theorem State.fired_rgm (n : Nat) : (s.fired n).rgm = s.rgm := rfl
@[simp] theorem State.fired_pwr (n : Nat) : (s.fired n).pwr = s.pwr := rfl
@[simp] theorem State.fired_flash (n : Nat) : (s.fired n).flash = s.flash := rfl
@[simp] theorem State.fired_rst (n : Nat) : (s.fired n).rst = s.rst := rfl
@[simp] theorem State.fired_asy (n : Nat) : (s.fired n).asy = s.asy := rfl
@[simp] theorem State.fired_fun_ (n : Nat) : (s.fired n).fun_ = s.fun_ := rfl
@[simp] theorem State.fired_pins (n : Nat) : (s.fired n).pins = s.pins := rfl
@[simp] theorem State.fired_free (n : Nat) : (s.fired n).free = s.free := rfl
@[simp] theorem State.fired_nextId (n : Nat) : (s.fired n).nextId = s.nextId := rfl
@[simp] theorem State.fired_pending (n : Nat) : (s.fired n).pending = s.pending := rfl

@[simp] theorem State.emit_tally (o : Out) : (s.emit o).tally = s.tally := rfl
@[simp] theorem State.emit_regs (o : Out) : (s.emit o).regs = s.regs := rfl
@[simp] theorem State.emit_telem (o : Out) : (s.emit o).telem = s.telem := rfl
@[simp] theorem State.emit_mem (o : Out) : (s.emit o).mem = s.mem := rfl
@[simp] theorem State.emit_fil (o : Out) : (s.emit o).fil = s.fil := rfl
@[simp] theorem State.emit_wnz (o : Out) : (s.emit o).wnz = s.wnz := rfl
@[simp] theorem State.emit_idx (o : Out) : (s.emit o).idx = s.idx := rfl
@[simp] theorem State.emit_car (o : Out) : (s.emit o).car = s.car := rfl
@[simp] theorem State.emit_mdw (o : Out) : (s.emit o).mdw = s.mdw := rfl
@[simp] theorem State.emit_rgm (o : Out) : (s.emit o).rgm = s.rgm := rfl
@[simp] theorem State.emit_pwr (o : Out) : (s.emit o).pwr = s.pwr := rfl
@[simp] theorem State.emit_flash (o : Out) : (s.emit o).flash = s.flash := rfl
@[simp] theorem State.emit_rst (o : Out) : (s.emit o).rst = s.rst := rfl
@[simp] theorem State.emit_asy (o : Out) : (s.emit o).asy = s.asy := rfl
@[simp] theorem State.emit_fun_ (o : Out) : (s.emit o).fun_ = s.fun_ := rfl
@[simp] theorem State.emit_pins (o : Out) : (s.emit o).pins = s.pins := rfl
@[simp] theorem State.emit_free (o : Out) : (s.emit o).free = s.free := rfl
@[simp] theorem State.emit_nextId (o : Out) : (s.emit o).nextId = s.nextId := rfl
@[simp] theorem State.emit_pending (o : Out) : (s.emit o).pending = s.pending := rfl

@[simp] theorem State.fresh_tally : (s.fresh).tally = s.tally := rfl
@[simp] theorem State.fresh_regs : (s.fresh).regs = s.regs := rfl
@[simp] theorem State.fresh_telem : (s.fresh).telem = s.telem := rfl
@[simp] theorem State.fresh_mem : (s.fresh).mem = s.mem := rfl
@[simp] theorem State.fresh_fil : (s.fresh).fil = s.fil := rfl
@[simp] theorem State.fresh_host : (s.fresh).host = s.host := rfl
@[simp] theorem State.fresh_wnz : (s.fresh).wnz = s.wnz := rfl
@[simp] theorem State.fresh_idx : (s.fresh).idx = s.idx := rfl
@[simp] theorem State.fresh_car : (s.fresh).car = s.car := rfl
@[simp] theorem State.fresh_mdw : (s.fresh).mdw = s.mdw := rfl
@[simp] theorem State.fresh_rgm : (s.fresh).rgm = s.rgm := rfl
@[simp] theorem State.fresh_pwr : (s.fresh).pwr = s.pwr := rfl
@[simp] theorem State.fresh_flash : (s.fresh).flash = s.flash := rfl
@[simp] theorem State.fresh_rst : (s.fresh).rst = s.rst := rfl
@[simp] theorem State.fresh_asy : (s.fresh).asy = s.asy := rfl
@[simp] theorem State.fresh_fun_ : (s.fresh).fun_ = s.fun_ := rfl
@[simp] theorem State.fresh_pins : (s.fresh).pins = s.pins := rfl
@[simp] theorem State.fresh_free : (s.fresh).free = s.free := rfl
@[simp] theorem State.fresh_pending : (s.fresh).pending = s.pending := rfl

@[simp] theorem State.addAlloc_tally (a : Alloc) : (s.addAlloc a).tally = s.tally := rfl
@[simp] theorem State.addAlloc_regs (a : Alloc) : (s.addAlloc a).regs = s.regs := rfl
@[simp] theorem State.addAlloc_telem (a : Alloc) : (s.addAlloc a).telem = s.telem := rfl
@[simp] theorem State.addAlloc_mem (a : Alloc) : (s.addAlloc a).mem = s.mem := rfl
@[simp] theorem State.addAlloc_host (a : Alloc) : (s.addAlloc a).host = s.host := rfl
@[simp] theorem State.addAlloc_wnz (a : Alloc) : (s.addAlloc a).wnz = s.wnz := rfl
@[simp] theorem State.addAlloc_idx (a : Alloc) : (s.addAlloc a).idx = s.idx := rfl
@[simp] theorem State.addAlloc_car (a : Alloc) : (s.addAlloc a).car = s.car := rfl
@[simp] theorem State.addAlloc_mdw (a : Alloc) : (s.addAlloc a).mdw = s.mdw := rfl
@[simp] theorem State.addAlloc_rgm (a : Alloc) : (s.addAlloc a).rgm = s.rgm := rfl
@[simp] theorem State.addAlloc_pwr (a : Alloc) : (s.addAlloc a).pwr = s.pwr := rfl
@[simp] theorem State.addAlloc_flash (a : Alloc) : (s.addAlloc a).flash = s.flash := rfl
@[simp] theorem State.addAlloc_rst (a : Alloc) : (s.addAlloc a).rst = s.rst := rfl
@[simp] theorem State.addAlloc_asy (a : Alloc) : (s.addAlloc a).asy = s.asy := rfl
@[simp] theorem State.addAlloc_fun_ (a : Alloc) : (s.addAlloc a).fun_ = s.fun_ := rfl
@[simp] theorem State.addAlloc_pins (a : Alloc) : (s.addAlloc a).pins = s.pins := rfl
@[simp] theorem State.addAlloc_free (a : Alloc) : (s.addAlloc a).free = s.free := rfl
@[simp] theorem State.addAlloc_nextId (a : Alloc) : (s.addAlloc a).nextId = s.nextId := rfl
@[simp] theorem State.addAlloc_pending (a : Alloc) : (s.addAlloc a).pending = s.pending := rfl

@[simp] theorem State.dropAlloc_tally (p : AllocKind → Bool) : (s.dropAlloc p).tally = s.tally := rfl
@[simp] theorem State.dropAlloc_regs (p : AllocKind → Bool) : (s.dropAlloc p).regs = s.regs := rfl
@[simp] theorem State.dropAlloc_telem (p : AllocKind → Bool) : (s.dropAlloc p).telem = s.telem := rfl
@[simp] theorem State.dropAlloc_mem (p : AllocKind → Bool) : (s.dropAlloc p).mem = s.mem := rfl
@[simp] theorem State.dropAlloc_host (p : AllocKind → Bool) : (s.dropAlloc p).host = s.host := rfl
@[simp] theorem State.dropAlloc_wnz (p : AllocKind → Bool) : (s.dropAlloc p).wnz = s.wnz := rfl
@[simp] theorem State.dropAlloc_idx (p : AllocKind → Bool) : (s.dropAlloc p).idx = s.idx := rfl
@[simp] theorem State.dropAlloc_car (p : AllocKind → Bool) : (s.dropAlloc p).car = s.car := rfl
@[simp] theorem State.dropAlloc_mdw (p : AllocKind → Bool) : (s.dropAlloc p).mdw = s.mdw := rfl
@[simp] theorem State.dropAlloc_rgm (p : AllocKind → Bool) : (s.dropAlloc p).rgm = s.rgm := rfl
@[simp] theorem State.dropAlloc_pwr (p : AllocKind → Bool) : (s.dropAlloc p).pwr = s.pwr := rfl
@[simp] theorem State.dropAlloc_flash (p : AllocKind → Bool) : (s.dropAlloc p).flash = s.flash := rfl
@[simp] theorem State.dropAlloc_rst (p : AllocKind → Bool) : (s.dropAlloc p).rst = s.rst := rfl
@[simp] theorem State.dropAlloc_asy (p : AllocKind → Bool) : (s.dropAlloc p).asy = s.asy := rfl
@[simp] theorem State.dropAlloc_fun_ (p : AllocKind → Bool) : (s.dropAlloc p).fun_ = s.fun_ := rfl
@[simp] theorem State.dropAlloc_pins (p : AllocKind → Bool) : (s.dropAlloc p).pins = s.pins := rfl
@[simp] theorem State.dropAlloc_free (p : AllocKind → Bool) : (s.dropAlloc p).free = s.free := rfl
@[simp] theorem State.dropAlloc_nextId (p : AllocKind → Bool) : (s.dropAlloc p).nextId = s.nextId := rfl
@[simp] theorem State.dropAlloc_pending (p : AllocKind → Bool) : (s.dropAlloc p).pending = s.pending := rfl

@[simp] theorem State.modStrand_tally (id : Nat) (f : Strand → Strand) : (s.modStrand id f).tally = s.tally := rfl
@[simp] theorem State.modStrand_regs (id : Nat) (f : Strand → Strand) : (s.modStrand id f).regs = s.regs := rfl
@[simp] theorem State.modStrand_telem (id : Nat) (f : Strand → Strand) : (s.modStrand id f).telem = s.telem := rfl
@[simp] theorem State.modStrand_mem (id : Nat) (f : Strand → Strand) : (s.modStrand id f).mem = s.mem := rfl
@[simp] theorem State.modStrand_host (id : Nat) (f : Strand → Strand) : (s.modStrand id f).host = s.host := rfl
@[simp] theorem State.modStrand_wnz (id : Nat) (f : Strand → Strand) : (s.modStrand id f).wnz = s.wnz := rfl
@[simp] theorem State.modStrand_idx (id : Nat) (f : Strand → Strand) : (s.modStrand id f).idx = s.idx := rfl
@[simp] theorem State.modStrand_car (id : Nat) (f : Strand → Strand) : (s.modStrand id f).car = s.car := rfl
@[simp] theorem State.modStrand_mdw (id : Nat) (f : Strand → Strand) : (s.modStrand id f).mdw = s.mdw := rfl
@[simp] theorem State.modStrand_rgm (id : Nat) (f : Strand → Strand) : (s.modStrand id f).rgm = s.rgm := rfl
@[simp] theorem State.modStrand_pwr (id : Nat) (f : Strand → Strand) : (s.modStrand id f).pwr = s.pwr := rfl
@[simp] theorem State.modStrand_flash (id : Nat) (f : Strand → Strand) : (s.modStrand id f).flash = s.flash := rfl
@[simp] theorem State.modStrand_rst (id : Nat) (f : Strand → Strand) : (s.modStrand id f).rst = s.rst := rfl
@[simp] theorem State.modStrand_asy (id : Nat) (f : Strand → Strand) : (s.modStrand id f).asy = s.asy := rfl
@[simp] theorem State.modStrand_fun_ (id : Nat) (f : Strand → Strand) : (s.modStrand id f).fun_ = s.fun_ := rfl
@[simp] theorem State.modStrand_pins (id : Nat) (f : Strand → Strand) : (s.modStrand id f).pins = s.pins := rfl
@[simp] theorem State.modStrand_free (id : Nat) (f : Strand → Strand) : (s.modStrand id f).free = s.free := rfl
@[simp] theorem State.modStrand_nextId (id : Nat) (f : Strand → Strand) : (s.modStrand id f).nextId = s.nextId := rfl
@[simp] theorem State.modStrand_pending (id : Nat) (f : Strand → Strand) : (s.modStrand id f).pending = s.pending := rfl

@[simp] theorem State.modJob_tally (id : Nat) (f : Job → Job) : (s.modJob id f).tally = s.tally := rfl
@[simp] theorem State.modJob_regs (id : Nat) (f : Job → Job) : (s.modJob id f).regs = s.regs := rfl
@[simp] theorem State.modJob_telem (id : Nat) (f : Job → Job) : (s.modJob id f).telem = s.telem := rfl
@[simp] theorem State.modJob_mem (id : Nat) (f : Job → Job) : (s.modJob id f).mem = s.mem := rfl
@[simp] theorem State.modJob_host (id : Nat) (f : Job → Job) : (s.modJob id f).host = s.host := rfl
@[simp] theorem State.modJob_wnz (id : Nat) (f : Job → Job) : (s.modJob id f).wnz = s.wnz := rfl
@[simp] theorem State.modJob_idx (id : Nat) (f : Job → Job) : (s.modJob id f).idx = s.idx := rfl
@[simp] theorem State.modJob_car (id : Nat) (f : Job → Job) : (s.modJob id f).car = s.car := rfl
@[simp] theorem State.modJob_mdw (id : Nat) (f : Job → Job) : (s.modJob id f).mdw = s.mdw := rfl
@[simp] theorem State.modJob_rgm (id : Nat) (f : Job → Job) : (s.modJob id f).rgm = s.rgm := rfl
@[simp] theorem State.modJob_pwr (id : Nat) (f : Job → Job) : (s.modJob id f).pwr = s.pwr := rfl
@[simp] theorem State.modJob_flash (id : Nat) (f : Job → Job) : (s.modJob id f).flash = s.flash := rfl
@[simp] theorem State.modJob_rst (id : Nat) (f : Job → Job) : (s.modJob id f).rst = s.rst := rfl
@[simp] theorem State.modJob_asy (id : Nat) (f : Job → Job) : (s.modJob id f).asy = s.asy := rfl
@[simp] theorem State.modJob_fun_ (id : Nat) (f : Job → Job) : (s.modJob id f).fun_ = s.fun_ := rfl
@[simp] theorem State.modJob_pins (id : Nat) (f : Job → Job) : (s.modJob id f).pins = s.pins := rfl
@[simp] theorem State.modJob_free (id : Nat) (f : Job → Job) : (s.modJob id f).free = s.free := rfl
@[simp] theorem State.modJob_nextId (id : Nat) (f : Job → Job) : (s.modJob id f).nextId = s.nextId := rfl
@[simp] theorem State.modJob_pending (id : Nat) (f : Job → Job) : (s.modJob id f).pending = s.pending := rfl

@[simp] theorem State.modTile_tally (id : Nat) (f : Tile → Tile) : (s.modTile id f).tally = s.tally := rfl
@[simp] theorem State.modTile_regs (id : Nat) (f : Tile → Tile) : (s.modTile id f).regs = s.regs := rfl
@[simp] theorem State.modTile_telem (id : Nat) (f : Tile → Tile) : (s.modTile id f).telem = s.telem := rfl
@[simp] theorem State.modTile_mem (id : Nat) (f : Tile → Tile) : (s.modTile id f).mem = s.mem := rfl
@[simp] theorem State.modTile_host (id : Nat) (f : Tile → Tile) : (s.modTile id f).host = s.host := rfl
@[simp] theorem State.modTile_wnz (id : Nat) (f : Tile → Tile) : (s.modTile id f).wnz = s.wnz := rfl
@[simp] theorem State.modTile_idx (id : Nat) (f : Tile → Tile) : (s.modTile id f).idx = s.idx := rfl
@[simp] theorem State.modTile_car (id : Nat) (f : Tile → Tile) : (s.modTile id f).car = s.car := rfl
@[simp] theorem State.modTile_mdw (id : Nat) (f : Tile → Tile) : (s.modTile id f).mdw = s.mdw := rfl
@[simp] theorem State.modTile_rgm (id : Nat) (f : Tile → Tile) : (s.modTile id f).rgm = s.rgm := rfl
@[simp] theorem State.modTile_pwr (id : Nat) (f : Tile → Tile) : (s.modTile id f).pwr = s.pwr := rfl
@[simp] theorem State.modTile_flash (id : Nat) (f : Tile → Tile) : (s.modTile id f).flash = s.flash := rfl
@[simp] theorem State.modTile_rst (id : Nat) (f : Tile → Tile) : (s.modTile id f).rst = s.rst := rfl
@[simp] theorem State.modTile_asy (id : Nat) (f : Tile → Tile) : (s.modTile id f).asy = s.asy := rfl
@[simp] theorem State.modTile_fun_ (id : Nat) (f : Tile → Tile) : (s.modTile id f).fun_ = s.fun_ := rfl
@[simp] theorem State.modTile_pins (id : Nat) (f : Tile → Tile) : (s.modTile id f).pins = s.pins := rfl
@[simp] theorem State.modTile_free (id : Nat) (f : Tile → Tile) : (s.modTile id f).free = s.free := rfl
@[simp] theorem State.modTile_nextId (id : Nat) (f : Tile → Tile) : (s.modTile id f).nextId = s.nextId := rfl
@[simp] theorem State.modTile_pending (id : Nat) (f : Tile → Tile) : (s.modTile id f).pending = s.pending := rfl

@[simp] theorem State.modTally_regs (f : TallySt → TallySt) : (s.modTally f).regs = s.regs := rfl
@[simp] theorem State.modTally_telem (f : TallySt → TallySt) : (s.modTally f).telem = s.telem := rfl
@[simp] theorem State.modTally_mem (f : TallySt → TallySt) : (s.modTally f).mem = s.mem := rfl
@[simp] theorem State.modTally_fil (f : TallySt → TallySt) : (s.modTally f).fil = s.fil := rfl
@[simp] theorem State.modTally_host (f : TallySt → TallySt) : (s.modTally f).host = s.host := rfl
@[simp] theorem State.modTally_wnz (f : TallySt → TallySt) : (s.modTally f).wnz = s.wnz := rfl
@[simp] theorem State.modTally_idx (f : TallySt → TallySt) : (s.modTally f).idx = s.idx := rfl
@[simp] theorem State.modTally_car (f : TallySt → TallySt) : (s.modTally f).car = s.car := rfl
@[simp] theorem State.modTally_mdw (f : TallySt → TallySt) : (s.modTally f).mdw = s.mdw := rfl
@[simp] theorem State.modTally_rgm (f : TallySt → TallySt) : (s.modTally f).rgm = s.rgm := rfl
@[simp] theorem State.modTally_pwr (f : TallySt → TallySt) : (s.modTally f).pwr = s.pwr := rfl
@[simp] theorem State.modTally_flash (f : TallySt → TallySt) : (s.modTally f).flash = s.flash := rfl
@[simp] theorem State.modTally_rst (f : TallySt → TallySt) : (s.modTally f).rst = s.rst := rfl
@[simp] theorem State.modTally_asy (f : TallySt → TallySt) : (s.modTally f).asy = s.asy := rfl
@[simp] theorem State.modTally_fun_ (f : TallySt → TallySt) : (s.modTally f).fun_ = s.fun_ := rfl
@[simp] theorem State.modTally_pins (f : TallySt → TallySt) : (s.modTally f).pins = s.pins := rfl
@[simp] theorem State.modTally_free (f : TallySt → TallySt) : (s.modTally f).free = s.free := rfl
@[simp] theorem State.modTally_nextId (f : TallySt → TallySt) : (s.modTally f).nextId = s.nextId := rfl
@[simp] theorem State.modTally_pending (f : TallySt → TallySt) : (s.modTally f).pending = s.pending := rfl

@[simp] theorem State.modFlash_tally (f : FlashSt → FlashSt) : (s.modFlash f).tally = s.tally := rfl
@[simp] theorem State.modFlash_regs (f : FlashSt → FlashSt) : (s.modFlash f).regs = s.regs := rfl
@[simp] theorem State.modFlash_telem (f : FlashSt → FlashSt) : (s.modFlash f).telem = s.telem := rfl
@[simp] theorem State.modFlash_mem (f : FlashSt → FlashSt) : (s.modFlash f).mem = s.mem := rfl
@[simp] theorem State.modFlash_fil (f : FlashSt → FlashSt) : (s.modFlash f).fil = s.fil := rfl
@[simp] theorem State.modFlash_host (f : FlashSt → FlashSt) : (s.modFlash f).host = s.host := rfl
@[simp] theorem State.modFlash_wnz (f : FlashSt → FlashSt) : (s.modFlash f).wnz = s.wnz := rfl
@[simp] theorem State.modFlash_idx (f : FlashSt → FlashSt) : (s.modFlash f).idx = s.idx := rfl
@[simp] theorem State.modFlash_car (f : FlashSt → FlashSt) : (s.modFlash f).car = s.car := rfl
@[simp] theorem State.modFlash_mdw (f : FlashSt → FlashSt) : (s.modFlash f).mdw = s.mdw := rfl
@[simp] theorem State.modFlash_rgm (f : FlashSt → FlashSt) : (s.modFlash f).rgm = s.rgm := rfl
@[simp] theorem State.modFlash_pwr (f : FlashSt → FlashSt) : (s.modFlash f).pwr = s.pwr := rfl
@[simp] theorem State.modFlash_rst (f : FlashSt → FlashSt) : (s.modFlash f).rst = s.rst := rfl
@[simp] theorem State.modFlash_asy (f : FlashSt → FlashSt) : (s.modFlash f).asy = s.asy := rfl
@[simp] theorem State.modFlash_fun_ (f : FlashSt → FlashSt) : (s.modFlash f).fun_ = s.fun_ := rfl
@[simp] theorem State.modFlash_pins (f : FlashSt → FlashSt) : (s.modFlash f).pins = s.pins := rfl
@[simp] theorem State.modFlash_free (f : FlashSt → FlashSt) : (s.modFlash f).free = s.free := rfl
@[simp] theorem State.modFlash_nextId (f : FlashSt → FlashSt) : (s.modFlash f).nextId = s.nextId := rfl
@[simp] theorem State.modFlash_pending (f : FlashSt → FlashSt) : (s.modFlash f).pending = s.pending := rfl

@[simp] theorem State.modCar_tally (f : CarSt → CarSt) : (s.modCar f).tally = s.tally := rfl
@[simp] theorem State.modCar_regs (f : CarSt → CarSt) : (s.modCar f).regs = s.regs := rfl
@[simp] theorem State.modCar_telem (f : CarSt → CarSt) : (s.modCar f).telem = s.telem := rfl
@[simp] theorem State.modCar_mem (f : CarSt → CarSt) : (s.modCar f).mem = s.mem := rfl
@[simp] theorem State.modCar_fil (f : CarSt → CarSt) : (s.modCar f).fil = s.fil := rfl
@[simp] theorem State.modCar_host (f : CarSt → CarSt) : (s.modCar f).host = s.host := rfl
@[simp] theorem State.modCar_wnz (f : CarSt → CarSt) : (s.modCar f).wnz = s.wnz := rfl
@[simp] theorem State.modCar_idx (f : CarSt → CarSt) : (s.modCar f).idx = s.idx := rfl
@[simp] theorem State.modCar_mdw (f : CarSt → CarSt) : (s.modCar f).mdw = s.mdw := rfl
@[simp] theorem State.modCar_rgm (f : CarSt → CarSt) : (s.modCar f).rgm = s.rgm := rfl
@[simp] theorem State.modCar_pwr (f : CarSt → CarSt) : (s.modCar f).pwr = s.pwr := rfl
@[simp] theorem State.modCar_flash (f : CarSt → CarSt) : (s.modCar f).flash = s.flash := rfl
@[simp] theorem State.modCar_rst (f : CarSt → CarSt) : (s.modCar f).rst = s.rst := rfl
@[simp] theorem State.modCar_asy (f : CarSt → CarSt) : (s.modCar f).asy = s.asy := rfl
@[simp] theorem State.modCar_fun_ (f : CarSt → CarSt) : (s.modCar f).fun_ = s.fun_ := rfl
@[simp] theorem State.modCar_pins (f : CarSt → CarSt) : (s.modCar f).pins = s.pins := rfl
@[simp] theorem State.modCar_free (f : CarSt → CarSt) : (s.modCar f).free = s.free := rfl
@[simp] theorem State.modCar_nextId (f : CarSt → CarSt) : (s.modCar f).nextId = s.nextId := rfl
@[simp] theorem State.modCar_pending (f : CarSt → CarSt) : (s.modCar f).pending = s.pending := rfl

@[simp] theorem State.modMdw_tally (f : MdwSt → MdwSt) : (s.modMdw f).tally = s.tally := rfl
@[simp] theorem State.modMdw_regs (f : MdwSt → MdwSt) : (s.modMdw f).regs = s.regs := rfl
@[simp] theorem State.modMdw_telem (f : MdwSt → MdwSt) : (s.modMdw f).telem = s.telem := rfl
@[simp] theorem State.modMdw_mem (f : MdwSt → MdwSt) : (s.modMdw f).mem = s.mem := rfl
@[simp] theorem State.modMdw_fil (f : MdwSt → MdwSt) : (s.modMdw f).fil = s.fil := rfl
@[simp] theorem State.modMdw_host (f : MdwSt → MdwSt) : (s.modMdw f).host = s.host := rfl
@[simp] theorem State.modMdw_wnz (f : MdwSt → MdwSt) : (s.modMdw f).wnz = s.wnz := rfl
@[simp] theorem State.modMdw_idx (f : MdwSt → MdwSt) : (s.modMdw f).idx = s.idx := rfl
@[simp] theorem State.modMdw_car (f : MdwSt → MdwSt) : (s.modMdw f).car = s.car := rfl
@[simp] theorem State.modMdw_rgm (f : MdwSt → MdwSt) : (s.modMdw f).rgm = s.rgm := rfl
@[simp] theorem State.modMdw_pwr (f : MdwSt → MdwSt) : (s.modMdw f).pwr = s.pwr := rfl
@[simp] theorem State.modMdw_flash (f : MdwSt → MdwSt) : (s.modMdw f).flash = s.flash := rfl
@[simp] theorem State.modMdw_rst (f : MdwSt → MdwSt) : (s.modMdw f).rst = s.rst := rfl
@[simp] theorem State.modMdw_asy (f : MdwSt → MdwSt) : (s.modMdw f).asy = s.asy := rfl
@[simp] theorem State.modMdw_fun_ (f : MdwSt → MdwSt) : (s.modMdw f).fun_ = s.fun_ := rfl
@[simp] theorem State.modMdw_pins (f : MdwSt → MdwSt) : (s.modMdw f).pins = s.pins := rfl
@[simp] theorem State.modMdw_free (f : MdwSt → MdwSt) : (s.modMdw f).free = s.free := rfl
@[simp] theorem State.modMdw_nextId (f : MdwSt → MdwSt) : (s.modMdw f).nextId = s.nextId := rfl
@[simp] theorem State.modMdw_pending (f : MdwSt → MdwSt) : (s.modMdw f).pending = s.pending := rfl

@[simp] theorem State.modRgm_tally (f : RgmSt → RgmSt) : (s.modRgm f).tally = s.tally := rfl
@[simp] theorem State.modRgm_regs (f : RgmSt → RgmSt) : (s.modRgm f).regs = s.regs := rfl
@[simp] theorem State.modRgm_telem (f : RgmSt → RgmSt) : (s.modRgm f).telem = s.telem := rfl
@[simp] theorem State.modRgm_mem (f : RgmSt → RgmSt) : (s.modRgm f).mem = s.mem := rfl
@[simp] theorem State.modRgm_fil (f : RgmSt → RgmSt) : (s.modRgm f).fil = s.fil := rfl
@[simp] theorem State.modRgm_host (f : RgmSt → RgmSt) : (s.modRgm f).host = s.host := rfl
@[simp] theorem State.modRgm_wnz (f : RgmSt → RgmSt) : (s.modRgm f).wnz = s.wnz := rfl
@[simp] theorem State.modRgm_idx (f : RgmSt → RgmSt) : (s.modRgm f).idx = s.idx := rfl
@[simp] theorem State.modRgm_car (f : RgmSt → RgmSt) : (s.modRgm f).car = s.car := rfl
@[simp] theorem State.modRgm_mdw (f : RgmSt → RgmSt) : (s.modRgm f).mdw = s.mdw := rfl
@[simp] theorem State.modRgm_pwr (f : RgmSt → RgmSt) : (s.modRgm f).pwr = s.pwr := rfl
@[simp] theorem State.modRgm_flash (f : RgmSt → RgmSt) : (s.modRgm f).flash = s.flash := rfl
@[simp] theorem State.modRgm_rst (f : RgmSt → RgmSt) : (s.modRgm f).rst = s.rst := rfl
@[simp] theorem State.modRgm_asy (f : RgmSt → RgmSt) : (s.modRgm f).asy = s.asy := rfl
@[simp] theorem State.modRgm_fun_ (f : RgmSt → RgmSt) : (s.modRgm f).fun_ = s.fun_ := rfl
@[simp] theorem State.modRgm_pins (f : RgmSt → RgmSt) : (s.modRgm f).pins = s.pins := rfl
@[simp] theorem State.modRgm_free (f : RgmSt → RgmSt) : (s.modRgm f).free = s.free := rfl
@[simp] theorem State.modRgm_nextId (f : RgmSt → RgmSt) : (s.modRgm f).nextId = s.nextId := rfl
@[simp] theorem State.modRgm_pending (f : RgmSt → RgmSt) : (s.modRgm f).pending = s.pending := rfl

@[simp] theorem State.modTable_tally (act num : Nat) (f : Table → Table) : (s.modTable act num f).tally = s.tally := rfl
@[simp] theorem State.modTable_regs (act num : Nat) (f : Table → Table) : (s.modTable act num f).regs = s.regs := rfl
@[simp] theorem State.modTable_telem (act num : Nat) (f : Table → Table) : (s.modTable act num f).telem = s.telem := rfl
@[simp] theorem State.modTable_mem (act num : Nat) (f : Table → Table) : (s.modTable act num f).mem = s.mem := rfl
@[simp] theorem State.modTable_fil (act num : Nat) (f : Table → Table) : (s.modTable act num f).fil = s.fil := rfl
@[simp] theorem State.modTable_host (act num : Nat) (f : Table → Table) : (s.modTable act num f).host = s.host := rfl
@[simp] theorem State.modTable_idx (act num : Nat) (f : Table → Table) : (s.modTable act num f).idx = s.idx := rfl
@[simp] theorem State.modTable_car (act num : Nat) (f : Table → Table) : (s.modTable act num f).car = s.car := rfl
@[simp] theorem State.modTable_mdw (act num : Nat) (f : Table → Table) : (s.modTable act num f).mdw = s.mdw := rfl
@[simp] theorem State.modTable_rgm (act num : Nat) (f : Table → Table) : (s.modTable act num f).rgm = s.rgm := rfl
@[simp] theorem State.modTable_pwr (act num : Nat) (f : Table → Table) : (s.modTable act num f).pwr = s.pwr := rfl
@[simp] theorem State.modTable_flash (act num : Nat) (f : Table → Table) : (s.modTable act num f).flash = s.flash := rfl
@[simp] theorem State.modTable_rst (act num : Nat) (f : Table → Table) : (s.modTable act num f).rst = s.rst := rfl
@[simp] theorem State.modTable_asy (act num : Nat) (f : Table → Table) : (s.modTable act num f).asy = s.asy := rfl
@[simp] theorem State.modTable_fun_ (act num : Nat) (f : Table → Table) : (s.modTable act num f).fun_ = s.fun_ := rfl
@[simp] theorem State.modTable_pins (act num : Nat) (f : Table → Table) : (s.modTable act num f).pins = s.pins := rfl
@[simp] theorem State.modTable_free (act num : Nat) (f : Table → Table) : (s.modTable act num f).free = s.free := rfl
@[simp] theorem State.modTable_nextId (act num : Nat) (f : Table → Table) : (s.modTable act num f).nextId = s.nextId := rfl
@[simp] theorem State.modTable_pending (act num : Nat) (f : Table → Table) : (s.modTable act num f).pending = s.pending := rfl

@[simp] theorem State.draw_tally (w : Nat) : (s.draw w).2.tally = s.tally := rfl
@[simp] theorem State.draw_regs (w : Nat) : (s.draw w).2.regs = s.regs := rfl
@[simp] theorem State.draw_telem (w : Nat) : (s.draw w).2.telem = s.telem := rfl
@[simp] theorem State.draw_mem (w : Nat) : (s.draw w).2.mem = s.mem := rfl
@[simp] theorem State.draw_fil (w : Nat) : (s.draw w).2.fil = s.fil := rfl
@[simp] theorem State.draw_host (w : Nat) : (s.draw w).2.host = s.host := rfl
@[simp] theorem State.draw_wnz (w : Nat) : (s.draw w).2.wnz = s.wnz := rfl
@[simp] theorem State.draw_idx (w : Nat) : (s.draw w).2.idx = s.idx := rfl
@[simp] theorem State.draw_car (w : Nat) : (s.draw w).2.car = s.car := rfl
@[simp] theorem State.draw_mdw (w : Nat) : (s.draw w).2.mdw = s.mdw := rfl
@[simp] theorem State.draw_rgm (w : Nat) : (s.draw w).2.rgm = s.rgm := rfl
@[simp] theorem State.draw_pwr (w : Nat) : (s.draw w).2.pwr = s.pwr := rfl
@[simp] theorem State.draw_flash (w : Nat) : (s.draw w).2.flash = s.flash := rfl
@[simp] theorem State.draw_rst (w : Nat) : (s.draw w).2.rst = s.rst := rfl
@[simp] theorem State.draw_asy (w : Nat) : (s.draw w).2.asy = s.asy := rfl
@[simp] theorem State.draw_fun_ (w : Nat) : (s.draw w).2.fun_ = s.fun_ := rfl
@[simp] theorem State.draw_pins (w : Nat) : (s.draw w).2.pins = s.pins := rfl
@[simp] theorem State.draw_nextId (w : Nat) : (s.draw w).2.nextId = s.nextId := rfl
@[simp] theorem State.draw_pending (w : Nat) : (s.draw w).2.pending = s.pending := rfl

@[simp] theorem State.random_tally (w : Nat) : (s.random w).2.tally = s.tally := rfl
@[simp] theorem State.random_regs (w : Nat) : (s.random w).2.regs = s.regs := rfl
@[simp] theorem State.random_telem (w : Nat) : (s.random w).2.telem = s.telem := rfl
@[simp] theorem State.random_mem (w : Nat) : (s.random w).2.mem = s.mem := rfl
@[simp] theorem State.random_fil (w : Nat) : (s.random w).2.fil = s.fil := rfl
@[simp] theorem State.random_host (w : Nat) : (s.random w).2.host = s.host := rfl
@[simp] theorem State.random_wnz (w : Nat) : (s.random w).2.wnz = s.wnz := rfl
@[simp] theorem State.random_idx (w : Nat) : (s.random w).2.idx = s.idx := rfl
@[simp] theorem State.random_car (w : Nat) : (s.random w).2.car = s.car := rfl
@[simp] theorem State.random_mdw (w : Nat) : (s.random w).2.mdw = s.mdw := rfl
@[simp] theorem State.random_rgm (w : Nat) : (s.random w).2.rgm = s.rgm := rfl
@[simp] theorem State.random_pwr (w : Nat) : (s.random w).2.pwr = s.pwr := rfl
@[simp] theorem State.random_flash (w : Nat) : (s.random w).2.flash = s.flash := rfl
@[simp] theorem State.random_rst (w : Nat) : (s.random w).2.rst = s.rst := rfl
@[simp] theorem State.random_asy (w : Nat) : (s.random w).2.asy = s.asy := rfl
@[simp] theorem State.random_fun_ (w : Nat) : (s.random w).2.fun_ = s.fun_ := rfl
@[simp] theorem State.random_pins (w : Nat) : (s.random w).2.pins = s.pins := rfl
@[simp] theorem State.random_nextId (w : Nat) : (s.random w).2.nextId = s.nextId := rfl
@[simp] theorem State.random_pending (w : Nat) : (s.random w).2.pending = s.pending := rfl

end Sys2Proof.Machine
end

