-- ==== Sys2Proof/Laws/Registers.lean ====
section
/-! SUPPORT. The laws of the register bank and of the counters: a field reads as it was written, other fields stay, and writes keep
the canonical form. -/
namespace Sys2Proof.Machine

theorem bits_lt (n lo w : Nat) : bits n lo w < 2 ^ w := Nat.mod_lt _ (Nat.two_pow_pos w)

theorem bits_testBit (n lo w i : Nat) : (bits n lo w).testBit i = (decide (i < w) && n.testBit (lo + i)) := by
  simp [bits, Nat.testBit_mod_two_pow, Nat.testBit_div_two_pow, Nat.add_comm]

/-- A number split around a field. -/
theorem bits_split (n lo w : Nat) : n = n % 2 ^ lo + bits n lo w * 2 ^ lo + n / 2 ^ (lo + w) * 2 ^ (lo + w) := by
  have h1 := Nat.div_add_mod n (2 ^ lo)
  have h2 := Nat.div_add_mod (n / 2 ^ lo) (2 ^ w)
  rw [Nat.div_div_eq_div_mul, ← Nat.pow_add] at h2
  unfold bits
  have e : 2 ^ (lo + w) = 2 ^ lo * 2 ^ w := Nat.pow_add 2 lo w
  have h3 : n / 2 ^ (lo + w) * 2 ^ (lo + w) = 2 ^ lo * (2 ^ w * (n / 2 ^ (lo + w))) := by rw [e]; ring
  have h4 : n / 2 ^ lo % 2 ^ w * 2 ^ lo = 2 ^ lo * (n / 2 ^ lo % 2 ^ w) := Nat.mul_comm _ _
  rw [h3, h4]
  have h5 : 2 ^ lo * (2 ^ w * (n / 2 ^ (lo + w))) + 2 ^ lo * (n / 2 ^ lo % 2 ^ w) = 2 ^ lo * (n / 2 ^ lo) := by
    rw [← Nat.mul_add, h2]
  omega

theorem putBits_eq (n lo w v : Nat) :
    putBits n lo w v = n % 2 ^ lo + v % 2 ^ w * 2 ^ lo + n / 2 ^ (lo + w) * 2 ^ (lo + w) := by
  have h := bits_split n lo w
  unfold putBits
  omega

/-- What a bit of a number is after a field has been replaced. -/
theorem putBits_testBit (n lo w v i : Nat) :
    (putBits n lo w v).testBit i = if lo ≤ i ∧ i < lo + w then v.testBit (i - lo) else n.testBit i := by
  rw [putBits_eq]
  have hlow : n % 2 ^ lo < 2 ^ lo := Nat.mod_lt _ (Nat.two_pow_pos lo)
  have hmid : n % 2 ^ lo + v % 2 ^ w * 2 ^ lo < 2 ^ (lo + w) := by
    have : v % 2 ^ w + 1 ≤ 2 ^ w := Nat.mod_lt _ (Nat.two_pow_pos w)
    calc n % 2 ^ lo + v % 2 ^ w * 2 ^ lo < (v % 2 ^ w + 1) * 2 ^ lo := by rw [Nat.add_mul]; omega
      _ ≤ 2 ^ w * 2 ^ lo := Nat.mul_le_mul_right _ this
      _ = 2 ^ (lo + w) := by rw [Nat.pow_add, Nat.mul_comm]
  have e1 := Nat.testBit_two_pow_mul_add (n / 2 ^ (lo + w)) hmid i
  have e2 := Nat.testBit_two_pow_mul_add (v % 2 ^ w) hlow i
  rw [Nat.mul_comm, Nat.add_comm] at e1
  rw [Nat.mul_comm, Nat.add_comm] at e2
  rw [e1, e2]
  by_cases h1 : i < lo
  · have h2 : ¬ lo ≤ i := by omega
    have h3 : i < lo + w := by omega
    simp [h1, h2, h3, Nat.testBit_mod_two_pow]
  · by_cases h2 : i < lo + w
    · have h3 : lo ≤ i := by omega
      have h4 : i - lo < w := by omega
      simp [h1, h2, h3, h4, Nat.testBit_mod_two_pow]
    · have h3 : ¬ (lo ≤ i ∧ i < lo + w) := by omega
      have h4 : lo + w + (i - (lo + w)) = i := by omega
      simp [h2, Nat.testBit_div_two_pow]
      congr 1; omega

/-- The field replaced reads as its new value. -/
theorem bits_putBits_same (n lo w v : Nat) : bits (putBits n lo w v) lo w = v % 2 ^ w := by
  apply Nat.eq_of_testBit_eq
  intro i
  rw [bits_testBit, putBits_testBit, Nat.testBit_mod_two_pow]
  by_cases h : i < w
  · have : lo ≤ lo + i ∧ lo + i < lo + w := by omega
    simp [h, this]
  · simp [h]

/-- A field that shares no bit reads as before. -/
theorem bits_putBits_apart (n lo w v lo' w' : Nat) (h : lo' + w' ≤ lo ∨ lo + w ≤ lo') :
    bits (putBits n lo w v) lo' w' = bits n lo' w' := by
  apply Nat.eq_of_testBit_eq
  intro i
  rw [bits_testBit, putBits_testBit, bits_testBit]
  by_cases hi : i < w'
  · have : ¬ (lo ≤ lo' + i ∧ lo' + i < lo + w) := by omega
    simp [this]
  · simp [hi]

/-- A field of a word that is cut to 32 bits. -/
theorem bits_mod_word (n lo w : Nat) (h : lo + w ≤ 32) : bits (n % 2 ^ 32) lo w = bits n lo w := by
  apply Nat.eq_of_testBit_eq
  intro i
  rw [bits_testBit, bits_testBit, Nat.testBit_mod_two_pow]
  by_cases hi : i < w
  · have : lo + i < 32 := by omega
    simp [this]
  · simp [hi]

/-! ## Registers -/

/-- A register reads as the word written. -/
theorem State.reg_setReg_same (s : State) (off : Nat) (w : BitVec 32) :
    (s.setReg off w).reg off = w := by
  unfold State.reg State.setReg
  simp only [kvGet_kvSet_same]
  rw [BitVec.xor_assoc, BitVec.xor_self, BitVec.xor_zero]

/-- Another register reads as before. -/
theorem State.reg_setReg_other (s : State) {off off' : Nat} (w : BitVec 32) (h : off ≠ off') :
    (s.setReg off w).reg off' = s.reg off' := by
  unfold State.reg State.setReg
  simp only [kvGet_kvSet_other h]

/-- A field reads as the value written, cut to its width. -/
theorem State.rd_wr_same (s : State) (f : FieldRef) (v : Nat) (hf : f.lo + f.width ≤ 32) :
    (s.wr f v).rd f = v % 2 ^ f.width := by
  unfold State.rd State.wr
  rw [State.reg_setReg_same, BitVec.toNat_ofNat, bits_mod_word _ _ _ hf, bits_putBits_same]

/-- A field of another register reads as before. -/
theorem State.rd_wr_other (s : State) (f g : FieldRef) (v : Nat) (h : f.off ≠ g.off) : (s.wr f v).rd g = s.rd g := by
  unfold State.rd State.wr
  rw [State.reg_setReg_other _ _ h]

/-- A field of the same register that shares no bit reads as before. -/
theorem State.rd_wr_apart (s : State) (f g : FieldRef) (v : Nat) (ho : f.off = g.off)
    (hg : g.lo + g.width ≤ 32) (ha : g.lo + g.width ≤ f.lo ∨ f.lo + f.width ≤ g.lo) : (s.wr f v).rd g = s.rd g := by
  unfold State.rd State.wr
  rw [← ho, State.reg_setReg_same, BitVec.toNat_ofNat, bits_mod_word _ _ _ hg, bits_putBits_apart _ _ _ _ _ _ ha]

/-- A register that no field write names reads as before. -/
theorem State.reg_wr_other (s : State) (f : FieldRef) (v : Nat) {off : Nat} (h : f.off ≠ off) : (s.wr f v).reg off = s.reg off :=
  State.reg_setReg_other s _ h

theorem State.reg_bump_other (s : State) (f : FieldRef) (n : Nat) {off : Nat} (h : f.off ≠ off) : (s.bump f n).reg off = s.reg off :=
  State.reg_setReg_other s _ h

/-- A count grows by what it is bumped by, and stops at its largest value. -/
theorem State.rd_bump_other (s : State) (f g : FieldRef) (n : Nat) (h : f.off ≠ g.off) : (s.bump f n).rd g = s.rd g := by
  unfold State.rd; rw [State.reg_bump_other s f n h]

theorem State.rd_bump_same (s : State) (f : FieldRef) (n : Nat) (hf : f.lo + f.width ≤ 32) :
    (s.bump f n).rd f = min (s.rd f + n) (2 ^ f.width - 1) := by
  unfold State.bump
  rw [State.rd_wr_same _ _ _ hf, Nat.mod_eq_of_lt]
  have := Nat.two_pow_pos f.width
  omega

/-- A counter grows by what it is counted by, modulo 2^64. -/
theorem State.ctr_count_same (s : State) (c n : Nat) : (s.count c n).ctr c = (s.ctr c + n) % 2 ^ 64 := by
  unfold State.ctr State.count
  exact kvGet_kvSet_same

/-- Another counter stays. -/
theorem State.ctr_count_other (s : State) {c c' : Nat} (n : Nat) (h : c ≠ c') : (s.count c n).ctr c' = s.ctr c' := by
  unfold State.ctr State.count
  exact kvGet_kvSet_other h

/-! ## The canonical form -/

theorem State.canonical_iff (s : State) :
    s.canonical = true ↔ s.mem.wf = true ∧ kvWf 0#32 s.regs = true ∧ kvWf 0 s.telem = true := by
  simp [State.canonical, and_assoc]

theorem State.canonical_regs {s : State} (h : s.canonical = true) : kvWf 0#32 s.regs = true := (s.canonical_iff.1 h).2.1
theorem State.canonical_telem {s : State} (h : s.canonical = true) : kvWf 0 s.telem = true := (s.canonical_iff.1 h).2.2
theorem State.canonical_mem {s : State} (h : s.canonical = true) : s.mem.wf = true := (s.canonical_iff.1 h).1

/-- Only the memories, the registers and the counters matter to the canonical form. -/
theorem State.canonical_congr {s t : State} (hm : t.mem = s.mem) (hr : t.regs = s.regs) (ht : t.telem = s.telem)
    (h : s.canonical = true) : t.canonical = true := by
  rw [State.canonical_iff] at *
  rw [hm, hr, ht]
  exact h

theorem State.setReg_keeps {s : State} (off : Nat) (w : BitVec 32) (h : s.canonical = true) : (s.setReg off w).canonical = true := by
  rw [State.canonical_iff] at *
  exact ⟨h.1, kvSet_wf h.2.1, h.2.2⟩

theorem State.wr_keeps {s : State} (f : FieldRef) (v : Nat) (h : s.canonical = true) : (s.wr f v).canonical = true :=
  State.setReg_keeps _ _ h

theorem State.count_keeps {s : State} (c n : Nat) (h : s.canonical = true) : (s.count c n).canonical = true := by
  rw [State.canonical_iff] at *
  exact ⟨h.1, h.2.1, kvSet_wf h.2.2⟩

end Sys2Proof.Machine
end

