-- ==== Sys2Proof/Laws/Issue.lean ====
section
/-! SUPPORT. What issuing an instruction does, said once: the strand's registers read as they were written, and an instruction that issues
runs its body with the strand already moved on. -/
namespace Sys2Proof.Machine

/-! ## The registers of a strand (R32, R33) -/

theorem Strand.getS_setS (t : Strand) (n : Nat) (v : DWord) : (t.setS n v).getS n = if n = 0 then 0#64 else v := by
  unfold Strand.getS Strand.setS
  split
  · rfl
  · exact kvGet_kvSet_same

theorem Strand.getS_setS_other (t : Strand) {n m : Nat} (v : DWord) (h : m ≠ n) : (t.setS n v).getS m = t.getS m := by
  unfold Strand.getS Strand.setS
  split
  · rfl
  · split
    · rfl
    · exact kvGet_kvSet_other (Ne.symm h)

theorem Strand.getP_setP (t : Strand) (n : Nat) (v : Bool) : (t.setP n v).getP n = if n = 0 then true else v := by
  unfold Strand.getP Strand.setP
  split
  · rfl
  · exact kvGet_kvSet_same

theorem Strand.getP_setP_other (t : Strand) {n m : Nat} (v : Bool) (h : m ≠ n) : (t.setP n v).getP m = t.getP m := by
  unfold Strand.getP Strand.setP
  split
  · rfl
  · split
    · rfl
    · exact kvGet_kvSet_other (Ne.symm h)

theorem Strand.getD_setD (t : Strand) (n : Nat) (v : BitVec 128) : (t.setD n v).getD n = v := kvGet_kvSet_same

theorem Strand.getD_setD_other (t : Strand) {n m : Nat} (v : BitVec 128) (h : m ≠ n) : (t.setD n v).getD m = t.getD m :=
  kvGet_kvSet_other (Ne.symm h)

theorem Strand.getQ_setQ (t : Strand) (n : Nat) (v : Option Slot) : (t.setQ n v).getQ n = v := kvGet_kvSet_same

theorem Strand.getQ_setQ_other (t : Strand) {n m : Nat} (v : Option Slot) (h : m ≠ n) : (t.setQ n v).getQ m = t.getQ m :=
  kvGet_kvSet_other (Ne.symm h)

theorem Strand.getT_setT (t : Strand) (n : Nat) (v : Option Nat) : (t.setT n v).getT n = v := kvGet_kvSet_same

/-! ## Lists changed where a test holds -/

theorem find_updWhere {α : Type} (p q : α → Bool) (f : α → α) (l : List α) (h : ∀ a, p (if q a then f a else a) = p a) :
    (updWhere q f l).find? p = (l.find? p).map fun a => if q a then f a else a := by
  induction l with
  | nil => rfl
  | cons a t ih =>
    unfold updWhere at *
    rw [List.map_cons, List.find?_cons, List.find?_cons, h a]
    split
    · rfl
    · exact ih

theorem updWhere_updWhere {α : Type} (q : α → Bool) (f g : α → α) (l : List α) (h : ∀ a, q a = true → q (f a) = true) :
    updWhere q g (updWhere q f l) = updWhere q (fun a => g (f a)) l := by
  unfold updWhere
  rw [List.map_map]
  refine List.map_congr_left fun a _ => ?_
  by_cases hq : q a = true
  · simp [hq, h a hq]
  · simp [hq]

/-! ## A strand changed -/

/-- The strand that runs, after a change that keeps its identifier and does not end it. -/
theorem State.strand_modStrand (s : State) (id : Nat) (f : Strand → Strand) {t : Strand} (h : s.strand? id = some t)
    (hid : ∀ u, (f u).id = u.id) (hend : ∀ u, (f u).ended = u.ended) : (s.modStrand id f).strand? id = some (f t) := by
  have ht : t.id = id := by
    have := List.find?_some h
    simp only [Bool.and_eq_true, beq_iff_eq] at this
    exact this.1
  unfold State.strand? State.modStrand at *
  simp only
  rw [find_updWhere, h]
  · simp [ht]
  · intro a; split <;> simp [hid, hend]

theorem find_updWhere_other {p : Strand → Bool} {id : Nat} (f : Strand → Strand) (l : List Strand)
    (h : ∀ a, p (if a.id == id then f a else a) = p a) (hp : ∀ a, p a = true → a.id ≠ id) :
    (updWhere (·.id == id) f l).find? p = l.find? p := by
  rw [find_updWhere _ _ _ _ h]
  cases e : l.find? p with
  | none => rfl
  | some a =>
    have := hp a (List.find?_some e)
    simp [this]

/-- Another running strand stays. -/
theorem State.strand_modStrand_other (s : State) {id k : Nat} (f : Strand → Strand) (hid : ∀ u, (f u).id = u.id) (h : k ≠ id) :
    (s.modStrand id f).strand? k = s.strand? k := by
  unfold State.strand? State.modStrand
  refine find_updWhere_other f _ (fun a => ?_) (fun a ha => ?_)
  · by_cases ha : a.id = id
    · have h2 : (id == k) = false := by simpa using Ne.symm h
      simp [ha, hid, h2]
    · simp [ha]
  · simp only [Bool.and_eq_true, beq_iff_eq] at ha
    rw [ha.1]; exact h

/-- Another strand stays. -/
theorem State.anyStrand_modStrand_other (s : State) {id k : Nat} (f : Strand → Strand) (hid : ∀ u, (f u).id = u.id) (h : k ≠ id) :
    (s.modStrand id f).anyStrand? k = s.anyStrand? k := by
  have hk (a : Strand) (c : Bool) (ha : (a.id == k && c) = true) : a.id ≠ id := by
    simp only [Bool.and_eq_true, beq_iff_eq] at ha
    rw [ha.1]; exact h
  have hp (p : Strand → Bool) (c : Strand → Bool) (hc : p = fun a => a.id == k && c a) :
      ∀ a, p (if a.id == id then f a else a) = p a := by
    intro a
    subst hc
    by_cases ha : a.id = id
    · have h2 : (id == k) = false := by simpa using Ne.symm h
      simp [ha, hid, h2]
    · simp [ha]
  have e1 : (s.modStrand id f).strand? k = s.strand? k := s.strand_modStrand_other f hid h
  have e2 : (s.modStrand id f).fil.strands.find? (·.id == k) = s.fil.strands.find? (·.id == k) := by
    unfold State.modStrand
    exact find_updWhere_other f _ (hp (fun a => a.id == k) (fun _ => true) (by funext a; simp)) (fun a ha => hk a true (by simpa using ha))
  unfold State.anyStrand?
  rw [e1, e2]

/-- A strand that runs is the strand of its identifier. -/
theorem State.anyStrand_of_strand {s : State} {id : Nat} {t : Strand} (h : s.strand? id = some t) : s.anyStrand? id = some t := by
  unfold State.anyStrand?; rw [h]

/-- Two changes of one strand are one. -/
theorem State.modStrand_modStrand (s : State) (id : Nat) (f g : Strand → Strand) (hid : ∀ u, (f u).id = u.id) :
    (s.modStrand id f).modStrand id g = s.modStrand id fun u => g (f u) := by
  unfold State.modStrand
  simp only
  rw [updWhere_updWhere]
  intro a ha
  simpa [hid] using ha

/-- A change of one strand changes nothing else. -/
theorem State.modStrand_only (s : State) (id : Nat) (f : Strand → Strand) (hid : ∀ u, (f u).id = u.id) :
    StrandOnly s (s.modStrand id f) id := by
  refine ⟨fun k hk => s.anyStrand_modStrand_other f hid hk, ?_⟩
  unfold State.modStrand
  rfl

/-- A change of the strand that runs, as the claims say it. -/
theorem State.modStrand_becomes (s : State) (o : Insn) (f : Strand → Strand) {t : Strand} (h : s.strand? o.strand = some t)
    (hid : ∀ u, (f u).id = u.id) (hend : ∀ u, (f u).ended = u.ended) : StrandBecomes s (s.modStrand o.strand f) o (f t) :=
  ⟨s.strand_modStrand _ f h hid hend, s.modStrand_only _ f hid⟩

/-! ## Issue -/

/-- An instruction that issues runs its body. -/
theorem issue_runs {s : State} {f : Form} {o : Insn} {t : Strand} {j : Job} (h : Issues s f o t j) (body : Strand → Job → M Unit) :
    issue f o s body = .next (finish o f.cls f.func t s ((body t j).run (s.moved o t))) := by
  unfold issue
  rw [h.valid, h.strand]
  simp only [h.job, h.ready, h.engine, h.crew, h.guard, h.pred, h.clear]
  rfl

/-- An instruction that issues and computes on its strand's own registers. -/
theorem scalar_runs {s : State} {f : Form} {o : Insn} {t : Strand} {j : Job} (h : Issues s f o t j) (g : Strand → Strand → Strand) :
    scalar f o s g = .next ((s.moved o t).modStrand o.strand (g t)) := by
  unfold scalar
  rw [issue_runs h]
  rfl

/-- What it leaves is the strand with its new registers, and nothing else changed. -/
theorem scalar_becomes {s : State} {f : Form} {o : Insn} {t : Strand} {j : Job} (h : Issues s f o t j) (g : Strand → Strand → Strand)
    (hid : ∀ u, (g t u).id = u.id) (hend : ∀ u, (g t u).ended = u.ended) :
    ∃ u, scalar f o s g = .next u ∧ StrandBecomes s u o (g t (t.after o)) := by
  refine ⟨_, scalar_runs h g, ?_⟩
  unfold State.moved
  rw [State.modStrand_modStrand]
  · exact s.modStrand_becomes o (fun u => g t { u with pc := nextPc t o, wait := .no }) h.strand
      (fun u => hid _) (fun u => hend _)
  · intro u; rfl

theorem Strand.setS_id (t : Strand) (n : Nat) (v : DWord) : (t.setS n v).id = t.id := by unfold Strand.setS; split <;> rfl
theorem Strand.setS_ended (t : Strand) (n : Nat) (v : DWord) : (t.setS n v).ended = t.ended := by unfold Strand.setS; split <;> rfl
theorem Strand.setP_id (t : Strand) (n : Nat) (v : Bool) : (t.setP n v).id = t.id := by unfold Strand.setP; split <;> rfl
theorem Strand.setP_ended (t : Strand) (n : Nat) (v : Bool) : (t.setP n v).ended = t.ended := by unfold Strand.setP; split <;> rfl

theorem Strand.setS_eta (t : Strand) (n : Nat) (v : DWord) : t.setS n v = { t with s := (t.setS n v).s } := by
  unfold Strand.setS; split <;> rfl
theorem Strand.setP_eta (t : Strand) (n : Nat) (v : Bool) : t.setP n v = { t with p := (t.setP n v).p } := by
  unfold Strand.setP; split <;> rfl

/-- A function that writes one scalar register. -/
theorem scalar_writesS {s : State} {f : Form} {o : Insn} {t : Strand} {j : Job} (h : Issues s f o t j) (n : Nat) (v : Strand → DWord) :
    CompletesWith (scalar f o s fun t u => u.setS n (v t)) fun u => WritesS s u o t n (v t) := by
  obtain ⟨u, hu, hb⟩ := scalar_becomes h (fun t u => u.setS n (v t)) (fun u => u.setS_id _ _) (fun u => u.setS_ended _ _)
  exact ⟨u, hu, _, hb, Strand.getS_setS _ _ _, fun m hm => Strand.getS_setS_other _ _ hm, Strand.setS_eta _ _ _⟩

/-- A function that writes one predicate. -/
theorem scalar_writesP {s : State} {f : Form} {o : Insn} {t : Strand} {j : Job} (h : Issues s f o t j) (n : Nat) (v : Strand → Bool) :
    CompletesWith (scalar f o s fun t u => u.setP n (v t)) fun u => WritesP s u o t n (v t) := by
  obtain ⟨u, hu, hb⟩ := scalar_becomes h (fun t u => u.setP n (v t)) (fun u => u.setP_id _ _) (fun u => u.setP_ended _ _)
  exact ⟨u, hu, _, hb, Strand.getP_setP _ _ _, fun m hm => Strand.getP_setP_other _ _ hm, Strand.setP_eta _ _ _⟩

/-- A function that writes one descriptor register. -/
theorem scalar_writesD {s : State} {f : Form} {o : Insn} {t : Strand} {j : Job} (h : Issues s f o t j) (n : Nat)
    (v : Strand → BitVec 128) : CompletesWith (scalar f o s fun t u => u.setD n (v t)) fun u => WritesD s u o t n (v t) := by
  obtain ⟨u, hu, hb⟩ := scalar_becomes h (fun t u => u.setD n (v t)) (fun u => rfl) (fun u => rfl)
  exact ⟨u, hu, _, hb, Strand.getD_setD _ _ _, fun m hm => Strand.getD_setD_other _ _ hm, rfl⟩

end Sys2Proof.Machine
end

