-- ==== Sys2Proof/Laws/Body.lean ====
section
/-! SUPPORT. What the pieces of an instruction's body do: how they run one after the other, and when each of their checks passes. -/
namespace Sys2Proof.Machine

/-! ## Running a body -/

@[simp] theorem M.run_pure {α : Type} (a : α) (s : State) : (pure a : M α).run s = .ok a s := rfl
@[simp] theorem M.run_throw {α : Type} (e : Fail) (s : State) : (throw e : M α).run s = .error e s := rfl
@[simp] theorem M.run_get (s : State) : (get : M State).run s = .ok s s := rfl
@[simp] theorem M.run_set (t s : State) : (set t : M PUnit).run s = .ok ⟨⟩ t := rfl
@[simp] theorem M.run_upd (f : State → State) (s : State) : (upd f).run s = .ok () (f s) := rfl
@[simp] theorem M.run_updGet {α : Type} (f : State → α × State) (s : State) : (updGet f).run s = .ok (f s).1 (f s).2 := rfl

theorem M.run_bind_ok {α β : Type} {x : M α} {f : α → M β} {s s' : State} {a : α} (h : x.run s = .ok a s') :
    (x >>= f).run s = (f a).run s' := by
  have h' : x s = .ok a s' := h
  show EStateM.bind x f s = f a s'
  unfold EStateM.bind
  rw [h']

theorem M.run_bind_error {α β : Type} {x : M α} {f : α → M β} {s s' : State} {e : Fail} (h : x.run s = .error e s') :
    (x >>= f).run s = .error e s' := by
  have h' : x s = .error e s' := h
  show EStateM.bind x f s = .error e s'
  unfold EStateM.bind
  rw [h']

@[simp] theorem M.bind_pure {α β : Type} (a : α) (f : α → M β) : ((pure a : M α) >>= f) = f a := rfl

theorem need_pure {c : Bool} (cause a : Nat) (h : c = true) : need c cause a = (pure () : M Unit) := by
  unfold need; rw [if_pos h]

theorem orFault_pure {α : Type} {v : Option α} {a : α} (cause x : Nat) (h : v = some a) : orFault v cause x = (pure a : M α) := by
  rw [h]; rfl

/-! ## Descriptors and access -/

/-- A descriptor that R34 and R35 accept is decoded. -/
theorem useDsc_pure {v : BitVec 128} {spaces : List Nat} {write empty : Bool} (h : Usable v spaces write empty) :
    useDsc v spaces write empty = (pure (decodeDsc v) : M Dsc) := by
  obtain ⟨h1, h2, h3, h4, h5, h6⟩ := h
  unfold useDsc
  have e1 : ((decodeDsc v).len != 0 || (empty && (decodeDsc v).rdonly && (decodeDsc v).base != 0)) = true := by
    rcases h1 with h | ⟨ha, hb, hc⟩
    · simp [h]
    · simp [ha, hb, hc]
  have e2 : (spaces.contains (decodeDsc v).space && !(decodeDsc v).reserved && decide ((decodeDsc v).elem ≤ 6) &&
      ((decodeDsc v).space == 1 || (decodeDsc v).node == 0)) = true := by
    simp [h2, h3, h4, h5]
  have e3 : (!(write && (decodeDsc v).rdonly)) = true := by
    cases write
    · rfl
    · simp [h6 rfl]
  simp only [need_pure _ _ e1, need_pure _ _ e2, need_pure _ _ e3, M.bind_pure]

theorem probePoints_in {a n x : Nat} (h : x ∈ probePoints a n) : a ≤ x ∧ x < a + n := by
  unfold probePoints at h
  split at h
  · simp at h
  · simp only [List.mem_cons, List.mem_map, List.mem_range] at h
    rcases h with rfl | rfl | ⟨i, hi, rfl⟩ <;> omega

theorem physOf_locate {x p : Nat} (h : physOf x = some p) : (∃ t o, locate x = .stack t o) ∨ ∃ c o, locate x = .crew c o := by
  unfold physOf at h
  cases e : locate x <;> simp_all

/-- An access to memory that the job may use passes the checks of R44 and R42. -/
theorem checkAccess_run {s : State} {j : Job} {r : Right} {a n : Nat} (priv : Bool) (h : MayUse s j r a n) :
    (checkAccess j priv r a n).run s = .ok () s := by
  have key (x : Nat) (hx : x ∈ probePoints a n) := h x (probePoints_in hx).1 (probePoints_in hx).2
  have h1 : (checkMapped priv (probePoints a n)).run s = .ok () s := by
    unfold checkMapped
    split
    · rename_i x hx
      obtain ⟨p, hp, _⟩ := key x (List.mem_of_find?_eq_some hx)
      have h1 := List.find?_some hx
      rcases physOf_locate hp with ⟨t, o, e⟩ | ⟨c, o, e⟩ <;> simp [e] at h1
    · rfl
  have h2 : (checkGranted j ((probePoints a n).map fun x => (r, x))).run s = .ok () s := by
    unfold checkGranted
    rw [M.run_bind_ok (M.run_get s)]
    split
    · rename_i e he
      obtain ⟨x, hx, rfl⟩ := List.mem_map.1 (List.mem_of_find?_eq_some he)
      obtain ⟨p, hp, hm⟩ := key x hx
      have h1 := List.find?_some he
      simp [hp, hm] at h1
    · rfl
  unfold checkAccess checkAll
  simp only [List.flatMap_cons, List.flatMap_nil, List.append_nil]
  rw [M.run_bind_ok h1, h2]

theorem waitHeld_run {s : State} {write : Bool} {a n : Nat} (h : s.holder write a n = none) : (waitHeld write a n).run s = .ok () s := by
  unfold waitHeld
  rw [M.run_bind_ok (M.run_get s)]
  simp only [h]
  rfl

theorem noRegister_run {s : State} {a : Nat} (h : isRegister a = false) : (noRegister a).run s = .ok () s := by
  have : registerAt a = none := by
    unfold isRegister at h
    unfold registerAt
    split <;> simp_all
  unfold noRegister
  rw [this]
  rfl

/-- A read that can be served answers the bytes that the checker delivers. -/
theorem readOrd_run {s : State} {a n : Nat} (h : Readable s a n) :
    (readOrd a n).run s = .ok (s.readMem 0 a n).1 (s.readMem 0 a n).2.2 := by
  obtain ⟨hh, hr, hb⟩ := h
  have e : (s.readMem 0 a n).2.1 = false := by
    unfold State.readMem
    rw [hr]
    simp only [Bool.false_eq_true, if_false]
    rw [List.any_eq_false]
    intro b hbl
    simpa using hb b hbl
  unfold readOrd
  rw [M.run_bind_ok (waitHeld_run hh), M.run_bind_ok (noRegister_run hr), M.run_bind_ok (M.run_get s)]
  rcases hm : s.readMem 0 a n with ⟨b, bad, t⟩
  rw [hm] at e
  simp only at e
  subst e
  rw [M.run_bind_ok (M.run_set t s)]
  rfl

/-- A body that runs to its end leaves the state that it reached. -/
theorem issue_ok {s u : State} {f : Form} {o : Insn} {t : Strand} {j : Job} {a : Unit} {body : Strand → Job → M Unit} (h : Issues s f o t j)
    (hb : (body t j).run (s.moved o t) = .ok a u) : issue f o s body = .next u := by
  rw [issue_runs h, hb]; rfl

/-- A body that faults faults its strand. -/
theorem issue_fault {s u : State} {f : Form} {o : Insn} {t : Strand} {j : Job} {c x : Nat} {body : Strand → Job → M Unit}
    (h : Issues s f o t j) (hb : (body t j).run (s.moved o t) = .error (.fault c x) u) :
    issue f o s body = .next (u.strandFault o.strand f.cls f.func t.pc c x) := by
  rw [issue_runs h, hb]; rfl

/-! ## Engines -/

/-- What an instruction in flight is, as its issue leaves it (R47). -/
def flightOf (f : Form) (o : Insn) (t : Strand) (s : State) (gate : Gate) (reads writes : List Res) (effects : List Effect) : Inflight :=
  ⟨s.nextId, f.cls, f.func, t.pc, formSources f o ++ reads, formTargets f o ++ writes, gate, effects, s.now⟩

/-- An engine instruction whose body answers its effects is in flight with them. -/
theorem engine_ok {s u : State} {f : Form} {o : Insn} {t : Strand} {j : Job} {reads writes : List Res} {e : List Effect}
    {body : Strand → Job → M (List Effect)} (h : Issues s f o t j) (hc : t.clear reads writes = true)
    (hb : (body t j).run (s.moved o t) = .ok e u) :
    engine f o s reads writes body = .next (u.fresh.modStrand o.strand fun v =>
      { v with inflight := v.inflight ++ [flightOf f o t u .engine reads writes e] }) := by
  unfold engine
  refine issue_ok h ?_ (a := ())
  simp only [hc]
  show ((body t j >>= fun e => launch f o t .engine reads writes e) : M Unit).run _ = _
  rw [M.run_bind_ok hb]
  rfl

end Sys2Proof.Machine
end

