-- ==== Sys2Proof/Laws/Dispatch.lean ====
section
/-! SUPPORT. What each command runs: one equation per arm of the dispatcher. -/
namespace Sys2Proof.Machine

variable (s : State)

@[simp] theorem exec_registerWrite (src : Src) (off word : Nat) (high : Option Nat) : exec (.registerWrite src off word high) s = execRegisterWrite src off word high s := rfl
@[simp] theorem exec_readClearRegisterRead (src : Src) (off : Nat) (wide : Bool) : exec (.readClearRegisterRead src off wide) s = execReadClearRegisterRead src off wide s := rfl
@[simp] theorem exec_unalignedRegisterAccess (src : Src) (off len : Nat) (write : Bool) : exec (.unalignedRegisterAccess src off len write) s = execUnalignedRegisterAccess src off len write s := rfl
@[simp] theorem exec_tallySnapshotRead (src : Src) (wide : Bool) : exec (.tallySnapshotRead src wide) s = execTallySnapshotRead src wide s := rfl
@[simp] theorem exec_ringPoll (act : Nat) (words : List (List Nat)) : exec (.ringPoll act words) s = execRingPoll act words s := rfl
@[simp] theorem exec_descriptorFetchComplete (act ring num : Nat) (desc : List Byte) : exec (.descriptorFetchComplete act ring num desc) s = execDescriptorFetchComplete act ring num desc s := rfl
@[simp] theorem exec_hostReadError (what : HostRead) : exec (.hostReadError what) s = execHostReadError what s := rfl
@[simp] theorem exec_jobSnapshotRelease (job : Nat) : exec (.jobSnapshotRelease job) s = execJobSnapshotRelease job s := rfl
@[simp] theorem exec_jobSnapshotTimeout (job : Nat) : exec (.jobSnapshotTimeout job) s = execJobSnapshotTimeout job s := rfl
@[simp] theorem exec_deadlineArrival (job : Nat) : exec (.deadlineArrival job) s = execDeadlineArrival job s := rfl
@[simp] theorem exec_jobEnd (job : Nat) (ledger : Option (List Byte × List Byte)) : exec (.jobEnd job ledger) s = execJobEnd job ledger s := rfl
@[simp] theorem exec_completionWrite (job : Nat) : exec (.completionWrite job) s = execCompletionWrite job s := rfl
@[simp] theorem exec_msixTimerExpiry (act ring : Nat) : exec (.msixTimerExpiry act ring) s = execMsixTimerExpiry act ring s := rfl
@[simp] theorem exec_msixUnmask (src : Src) (fn vec : Nat) : exec (.msixUnmask src fn vec) s = execMsixUnmask src fn vec s := rfl
@[simp] theorem exec_cqHeadWrite (src : Src) (act ring count : Nat) : exec (.cqHeadWrite src act ring count) s = execCqHeadWrite src act ring count s := rfl
@[simp] theorem exec_ringEnable (src : Src) (act ring word : Nat) : exec (.ringEnable src act ring word) s = execRingEnable src act ring word s := rfl
@[simp] theorem exec_ringDisable (src : Src) (act ring word : Nat) : exec (.ringDisable src act ring word) s = execRingDisable src act ring word s := rfl
@[simp] theorem exec_loadRoutine (job : Nat) : exec (.loadRoutine job) s = execLoadRoutine job s := rfl
@[simp] theorem exec_unloadRoutine (job : Nat) : exec (.unloadRoutine job) s = execUnloadRoutine job s := rfl
@[simp] theorem exec_routineRelease (act handle : Nat) : exec (.routineRelease act handle) s = execRoutineRelease act handle s := rfl
@[simp] theorem exec_loaderUnknownOperation (job : Nat) : exec (.loaderUnknownOperation job) s = execLoaderUnknownOperation job s := rfl
@[simp] theorem exec_importTilePack (job : Nat) : exec (.importTilePack job) s = execImportTilePack job s := rfl
@[simp] theorem exec_installIndex (job : Nat) : exec (.installIndex job) s = execInstallIndex job s := rfl
@[simp] theorem exec_installReportReceive (act activeBeat crc node : Nat) : exec (.installReportReceive act activeBeat crc node) s = execInstallReportReceive act activeBeat crc node s := rfl
@[simp] theorem exec_installWithdraw (act activeBeat : Nat) : exec (.installWithdraw act activeBeat) s = execInstallWithdraw act activeBeat s := rfl
@[simp] theorem exec_openExchange (job : Nat) : exec (.openExchange job) s = execOpenExchange job s := rfl
@[simp] theorem exec_tableMigrate (job : Nat) : exec (.tableMigrate job) s = execTableMigrate job s := rfl
@[simp] theorem exec_tableReport (job : Nat) : exec (.tableReport job) s = execTableReport job s := rfl
@[simp] theorem exec_tableUndefine (job : Nat) : exec (.tableUndefine job) s = execTableUndefine job s := rfl
@[simp] theorem exec_tableUndefineEffect (act num : Nat) : exec (.tableUndefineEffect act num) s = execTableUndefineEffect act num s := rfl
@[simp] theorem exec_flashFormat (job : Nat) : exec (.flashFormat job) s = execFlashFormat job s := rfl
@[simp] theorem exec_flashAttach (job : Nat) : exec (.flashAttach job) s = execFlashAttach job s := rfl
@[simp] theorem exec_flashSegmentOpen (job : Nat) : exec (.flashSegmentOpen job) s = execFlashSegmentOpen job s := rfl
@[simp] theorem exec_flashSegmentSeal (job : Nat) : exec (.flashSegmentSeal job) s = execFlashSegmentSeal job s := rfl
@[simp] theorem exec_flashSegmentReopen (job : Nat) : exec (.flashSegmentReopen job) s = execFlashSegmentReopen job s := rfl
@[simp] theorem exec_flashSegmentFree (job : Nat) : exec (.flashSegmentFree job) s = execFlashSegmentFree job s := rfl
@[simp] theorem exec_exportRegion (job : Nat) : exec (.exportRegion job) s = execExportRegion job s := rfl
@[simp] theorem exec_unexportRegion (job : Nat) : exec (.unexportRegion job) s = execUnexportRegion job s := rfl
@[simp] theorem exec_unexportComplete (job : Nat) : exec (.unexportComplete job) s = execUnexportComplete job s := rfl
@[simp] theorem exec_sendMidwayMessage (job : Nat) : exec (.sendMidwayMessage job) s = execSendMidwayMessage job s := rfl
@[simp] theorem exec_attestationQuote (job : Nat) : exec (.attestationQuote job) s = execAttestationQuote job s := rfl
@[simp] theorem exec_pairSlice (job remote : Nat) : exec (.pairSlice job remote) s = execPairSlice job remote s := rfl
@[simp] theorem exec_pairTakeEffect (job : Nat) : exec (.pairTakeEffect job) s = execPairTakeEffect job s := rfl
@[simp] theorem exec_ledgerArgumentRelease (job : Nat) (ledger : Option (List Byte × List Byte)) : exec (.ledgerArgumentRelease job ledger) s = execLedgerArgumentRelease job ledger s := rfl
@[simp] theorem exec_ctlNop (o : Insn) : exec (.ctlNop o) s = execCtlNop o s := rfl
@[simp] theorem exec_ctlBr (o : Insn) : exec (.ctlBr o) s = execCtlBr o s := rfl
@[simp] theorem exec_ctlCall (o : Insn) : exec (.ctlCall o) s = execCtlCall o s := rfl
@[simp] theorem exec_ctlJmpr (o : Insn) : exec (.ctlJmpr o) s = execCtlJmpr o s := rfl
@[simp] theorem exec_ctlLoop (o : Insn) : exec (.ctlLoop o) s = execCtlLoop o s := rfl
@[simp] theorem exec_ctlEnd (o : Insn) : exec (.ctlEnd o) s = execCtlEnd o s := rfl
@[simp] theorem exec_sclLi (o : Insn) : exec (.sclLi o) s = execSclLi o s := rfl
@[simp] theorem exec_sclLix (o : Insn) : exec (.sclLix o) s = execSclLix o s := rfl
@[simp] theorem exec_sclAdd (o : Insn) : exec (.sclAdd o) s = execSclAdd o s := rfl
@[simp] theorem exec_sclAddi (o : Insn) : exec (.sclAddi o) s = execSclAddi o s := rfl
@[simp] theorem exec_sclSub (o : Insn) : exec (.sclSub o) s = execSclSub o s := rfl
@[simp] theorem exec_sclMul (o : Insn) : exec (.sclMul o) s = execSclMul o s := rfl
@[simp] theorem exec_sclMulhu (o : Insn) : exec (.sclMulhu o) s = execSclMulhu o s := rfl
@[simp] theorem exec_sclDivu (o : Insn) : exec (.sclDivu o) s = execSclDivu o s := rfl
@[simp] theorem exec_sclRemu (o : Insn) : exec (.sclRemu o) s = execSclRemu o s := rfl
@[simp] theorem exec_sclAnd (o : Insn) : exec (.sclAnd o) s = execSclAnd o s := rfl
@[simp] theorem exec_sclOr (o : Insn) : exec (.sclOr o) s = execSclOr o s := rfl
@[simp] theorem exec_sclXor (o : Insn) : exec (.sclXor o) s = execSclXor o s := rfl
@[simp] theorem exec_sclShl (o : Insn) : exec (.sclShl o) s = execSclShl o s := rfl
@[simp] theorem exec_sclShr (o : Insn) : exec (.sclShr o) s = execSclShr o s := rfl
@[simp] theorem exec_sclSar (o : Insn) : exec (.sclSar o) s = execSclSar o s := rfl
@[simp] theorem exec_sclCmp (o : Insn) : exec (.sclCmp o) s = execSclCmp o s := rfl
@[simp] theorem exec_sclPlog (o : Insn) : exec (.sclPlog o) s = execSclPlog o s := rfl
@[simp] theorem exec_sclSel (o : Insn) : exec (.sclSel o) s = execSclSel o s := rfl
@[simp] theorem exec_sclLd (o : Insn) : exec (.sclLd o) s = execSclLd o s := rfl
@[simp] theorem exec_sclSt (o : Insn) : exec (.sclSt o) s = execSclSt o s := rfl
@[simp] theorem exec_sclFadd (o : Insn) : exec (.sclFadd o) s = execSclFadd o s := rfl
@[simp] theorem exec_sclFmul (o : Insn) : exec (.sclFmul o) s = execSclFmul o s := rfl
@[simp] theorem exec_sclFfma (o : Insn) : exec (.sclFfma o) s = execSclFfma o s := rfl
@[simp] theorem exec_sclFcmp (o : Insn) : exec (.sclFcmp o) s = execSclFcmp o s := rfl
@[simp] theorem exec_sclFcvt (o : Insn) : exec (.sclFcvt o) s = execSclFcvt o s := rfl
@[simp] theorem exec_movDset (o : Insn) : exec (.movDset o) s = execMovDset o s := rfl
@[simp] theorem exec_movDget (o : Insn) : exec (.movDget o) s = execMovDget o s := rfl
@[simp] theorem exec_movDsub (o : Insn) : exec (.movDsub o) s = execMovDsub o s := rfl
@[simp] theorem exec_movCopy (o : Insn) (data : Option (List Byte)) : exec (.movCopy o data) s = execMovCopy o data s := rfl
@[simp] theorem exec_movTopen (o : Insn) : exec (.movTopen o) s = execMovTopen o s := rfl
@[simp] theorem exec_expansionComplete (tile : Nat) : exec (.expansionComplete tile) s = execExpansionComplete tile s := rfl
@[simp] theorem exec_movTalloc (o : Insn) : exec (.movTalloc o) s = execMovTalloc o s := rfl
@[simp] theorem exec_movTloadm (o : Insn) : exec (.movTloadm o) s = execMovTloadm o s := rfl
@[simp] theorem exec_movTstore (o : Insn) : exec (.movTstore o) s = execMovTstore o s := rfl
@[simp] theorem exec_movTsave (o : Insn) : exec (.movTsave o) s = execMovTsave o s := rfl
@[simp] theorem exec_movTfree (o : Insn) : exec (.movTfree o) s = execMovTfree o s := rfl
@[simp] theorem exec_movTdrop (o : Insn) : exec (.movTdrop o) s = execMovTdrop o s := rfl
@[simp] theorem exec_tileDelete (tile : Nat) : exec (.tileDelete tile) s = execTileDelete tile s := rfl
@[simp] theorem exec_movTplace (o : Insn) : exec (.movTplace o) s = execMovTplace o s := rfl
@[simp] theorem exec_hewMma (o : Insn) : exec (.hewMma o) s = execHewMma o s := rfl
@[simp] theorem exec_hewEw (o : Insn) : exec (.hewEw o) s = execHewEw o s := rfl
@[simp] theorem exec_hewAct (o : Insn) : exec (.hewAct o) s = execHewAct o s := rfl
@[simp] theorem exec_hewRed (o : Insn) : exec (.hewRed o) s = execHewRed o s := rfl
@[simp] theorem exec_hewCvt (o : Insn) : exec (.hewCvt o) s = execHewCvt o s := rfl
@[simp] theorem exec_hewOred (o : Insn) : exec (.hewOred o) s = execHewOred o s := rfl
@[simp] theorem exec_oredSlotTimeout (job : Nat) (hew : Bool) (slot : Nat) : exec (.oredSlotTimeout job hew slot) s = execOredSlotTimeout job hew slot s := rfl
@[simp] theorem exec_qntPrepass (o : Insn) : exec (.qntPrepass o) s = execQntPrepass o s := rfl
@[simp] theorem exec_qntCvt (o : Insn) : exec (.qntCvt o) s = execQntCvt o s := rfl
@[simp] theorem exec_qntSplit (o : Insn) : exec (.qntSplit o) s = execQntSplit o s := rfl
@[simp] theorem exec_qntDrift (o : Insn) : exec (.qntDrift o) s = execQntDrift o s := rfl
@[simp] theorem exec_cruPack (o : Insn) : exec (.cruPack o) s = execCruPack o s := rfl
@[simp] theorem exec_cruUnpack (o : Insn) : exec (.cruUnpack o) s = execCruUnpack o s := rfl
@[simp] theorem exec_cruCheck (o : Insn) : exec (.cruCheck o) s = execCruCheck o s := rfl
@[simp] theorem exec_sluScan (o : Insn) : exec (.sluScan o) s = execSluScan o s := rfl
@[simp] theorem exec_sluDist (o : Insn) : exec (.sluDist o) s = execSluDist o s := rfl
@[simp] theorem exec_snapshotWaitRelease (strand : Nat) : exec (.snapshotWaitRelease strand) s = execSnapshotWaitRelease strand s := rfl
@[simp] theorem exec_rerankFetchServe (node act loc id pos : Nat) (media : List Nat) : exec (.rerankFetchServe node act loc id pos media) s = execRerankFetchServe node act loc id pos media s := rfl
@[simp] theorem exec_rerankFetchArrive (id pos : Nat) (vec : Option (List Byte)) (cached : Bool) : exec (.rerankFetchArrive id pos vec cached) s = execRerankFetchArrive id pos vec cached s := rfl
@[simp] theorem exec_wnzScan (o : Insn) : exec (.wnzScan o) s = execWnzScan o s := rfl
@[simp] theorem exec_wnzBag (o : Insn) : exec (.wnzBag o) s = execWnzBag o s := rfl
@[simp] theorem exec_wnzUpd (o : Insn) : exec (.wnzUpd o) s = execWnzUpd o s := rfl
@[simp] theorem exec_wnzGather (o : Insn) : exec (.wnzGather o) s = execWnzGather o s := rfl
@[simp] theorem exec_winzeRegistrationPoint (id : Nat) : exec (.winzeRegistrationPoint id) s = execWinzeRegistrationPoint id s := rfl
@[simp] theorem exec_winzeCommandQueued (id stack : Nat) : exec (.winzeCommandQueued id stack) s = execWinzeCommandQueued id stack s := rfl
@[simp] theorem exec_winzeCommandArrival (id stack : Nat) (cmd : List Byte) : exec (.winzeCommandArrival id stack cmd) s = execWinzeCommandArrival id stack cmd s := rfl
@[simp] theorem exec_winzeChunkComplete (id stack unit : Nat) : exec (.winzeChunkComplete id stack unit) s = execWinzeChunkComplete id stack unit s := rfl
@[simp] theorem exec_winzeCompletionPoint (id : Nat) : exec (.winzeCompletionPoint id) s = execWinzeCompletionPoint id s := rfl
@[simp] theorem exec_winzeUnitFailure (stack unit : Nat) : exec (.winzeUnitFailure stack unit) s = execWinzeUnitFailure stack unit s := rfl
@[simp] theorem exec_winzeSpare (src : Src) (stack unit : Nat) : exec (.winzeSpare src stack unit) s = execWinzeSpare src stack unit s := rfl
@[simp] theorem exec_jigTopk (o : Insn) : exec (.jigTopk o) s = execJigTopk o s := rfl
@[simp] theorem exec_jigMerge (o : Insn) : exec (.jigMerge o) s = execJigMerge o s := rfl
@[simp] theorem exec_jigSums (o : Insn) : exec (.jigSums o) s = execJigSums o s := rfl
@[simp] theorem exec_idxOpen (o : Insn) : exec (.idxOpen o) s = execIdxOpen o s := rfl
@[simp] theorem exec_idxRoute (o : Insn) : exec (.idxRoute o) s = execIdxRoute o s := rfl
@[simp] theorem exec_idxAppend (o : Insn) : exec (.idxAppend o) s = execIdxAppend o s := rfl
@[simp] theorem exec_idxAppendx (o : Insn) : exec (.idxAppendx o) s = execIdxAppendx o s := rfl
@[simp] theorem exec_idxDelete (o : Insn) : exec (.idxDelete o) s = execIdxDelete o s := rfl
@[simp] theorem exec_idxTomb (o : Insn) : exec (.idxTomb o) s = execIdxTomb o s := rfl
@[simp] theorem exec_appendRelease (act seam : Nat) : exec (.appendRelease act seam) s = execAppendRelease act seam s := rfl
@[simp] theorem exec_forwardedRecordReceive (r : SeamRecord) : exec (.forwardedRecordReceive r) s = execForwardedRecordReceive r s := rfl
@[simp] theorem exec_vectorPageWrite (act page : Nat) : exec (.vectorPageWrite act page) s = execVectorPageWrite act page s := rfl
@[simp] theorem exec_tblBuild (o : Insn) : exec (.tblBuild o) s = execTblBuild o s := rfl
@[simp] theorem exec_tblLoad (o : Insn) : exec (.tblLoad o) s = execTblLoad o s := rfl
@[simp] theorem exec_tblFilter (o : Insn) : exec (.tblFilter o) s = execTblFilter o s := rfl
@[simp] theorem exec_tblThresh (o : Insn) : exec (.tblThresh o) s = execTblThresh o s := rfl
@[simp] theorem exec_tblStore (o : Insn) : exec (.tblStore o) s = execTblStore o s := rfl
@[simp] theorem exec_tblTdef (o : Insn) : exec (.tblTdef o) s = execTblTdef o s := rfl
@[simp] theorem exec_tblSwap (o : Insn) : exec (.tblSwap o) s = execTblSwap o s := rfl
@[simp] theorem exec_tableSwapEvent (act num : Nat) : exec (.tableSwapEvent act num) s = execTableSwapEvent act num s := rfl
@[simp] theorem exec_tblVer (o : Insn) : exec (.tblVer o) s = execTblVer o s := rfl
@[simp] theorem exec_carLd (o : Insn) : exec (.carLd o) s = execCarLd o s := rfl
@[simp] theorem exec_carSt (o : Insn) : exec (.carSt o) s = execCarSt o s := rfl
@[simp] theorem exec_carGet (o : Insn) : exec (.carGet o) s = execCarGet o s := rfl
@[simp] theorem exec_carPut (o : Insn) : exec (.carPut o) s = execCarPut o s := rfl
@[simp] theorem exec_carAtom (o : Insn) : exec (.carAtom o) s = execCarAtom o s := rfl
@[simp] theorem exec_carAtomn (o : Insn) : exec (.carAtomn o) s = execCarAtomn o s := rfl
@[simp] theorem exec_carInv (o : Insn) : exec (.carInv o) s = execCarInv o s := rfl
@[simp] theorem exec_adtRead (o : Insn) (media : List Nat) : exec (.adtRead o media) s = execAdtRead o media s := rfl
@[simp] theorem exec_adtWrite (o : Insn) : exec (.adtWrite o) s = execAdtWrite o s := rfl
@[simp] theorem exec_adtDiscard (o : Insn) : exec (.adtDiscard o) s = execAdtDiscard o s := rfl
@[simp] theorem exec_talNow (o : Insn) : exec (.talNow o) s = execTalNow o s := rfl
@[simp] theorem exec_talWaitb (o : Insn) : exec (.talWaitb o) s = execTalWaitb o s := rfl
@[simp] theorem exec_waitbRelease (strand : Nat) : exec (.waitbRelease strand) s = execWaitbRelease strand s := rfl
@[simp] theorem exec_talStable (o : Insn) : exec (.talStable o) s = execTalStable o s := rfl
@[simp] theorem exec_talSub (o : Insn) : exec (.talSub o) s = execTalSub o s := rfl
@[simp] theorem exec_synFence (o : Insn) : exec (.synFence o) s = execSynFence o s := rfl
@[simp] theorem exec_synWfence (o : Insn) : exec (.synWfence o) s = execSynWfence o s := rfl
@[simp] theorem exec_synCfence (o : Insn) : exec (.synCfence o) s = execSynCfence o s := rfl
@[simp] theorem exec_synBar (o : Insn) : exec (.synBar o) s = execSynBar o s := rfl
@[simp] theorem exec_synOred (o : Insn) : exec (.synOred o) s = execSynOred o s := rfl
@[simp] theorem exec_fenceRelease (strand : Nat) : exec (.fenceRelease strand) s = execFenceRelease strand s := rfl
@[simp] theorem exec_engineCompletion (strand tag : Nat) : exec (.engineCompletion strand tag) s = execEngineCompletion strand tag s := rfl
@[simp] theorem exec_fenceTimeout (strand : Nat) : exec (.fenceTimeout strand) s = execFenceTimeout strand s := rfl
@[simp] theorem exec_sysRreg (o : Insn) : exec (.sysRreg o) s = execSysRreg o s := rfl
@[simp] theorem exec_sysWreg (o : Insn) : exec (.sysWreg o) s = execSysWreg o s := rfl
@[simp] theorem exec_sysTelem (o : Insn) : exec (.sysTelem o) s = execSysTelem o s := rfl
@[simp] theorem exec_sysIdxop (o : Insn) : exec (.sysIdxop o) s = execSysIdxop o s := rfl
@[simp] theorem exec_sysSlice (o : Insn) : exec (.sysSlice o) s = execSysSlice o s := rfl
@[simp] theorem exec_sliceRecompose : exec (.sliceRecompose) s = execSliceRecompose s := rfl
@[simp] theorem exec_sliceResourceJoin (res : Nat) : exec (.sliceResourceJoin res) s = execSliceResourceJoin res s := rfl
@[simp] theorem exec_committedBeatReceive (node beat : Nat) : exec (.committedBeatReceive node beat) s = execCommittedBeatReceive node beat s := rfl
@[simp] theorem exec_backfillCut (act seam : Nat) : exec (.backfillCut act seam) s = execBackfillCut act seam s := rfl
@[simp] theorem exec_backfillPublish (act seam : Nat) : exec (.backfillPublish act seam) s = execBackfillPublish act seam s := rfl
@[simp] theorem exec_versionRelease (act seam num : Nat) : exec (.versionRelease act seam num) s = execVersionRelease act seam num s := rfl
@[simp] theorem exec_rebalancePendingReceive (act seam source target beat : Nat) : exec (.rebalancePendingReceive act seam source target beat) s = execRebalancePendingReceive act seam source target beat s := rfl
@[simp] theorem exec_rebalanceCopyReceive (c : SeamCopy) : exec (.rebalanceCopyReceive c) s = execRebalanceCopyReceive c s := rfl
@[simp] theorem exec_rebalanceReady (act seam : Nat) : exec (.rebalanceReady act seam) s = execRebalanceReady act seam s := rfl
@[simp] theorem exec_rebalanceReadyReceive (act seam : Nat) : exec (.rebalanceReadyReceive act seam) s = execRebalanceReadyReceive act seam s := rfl
@[simp] theorem exec_rebalanceCancel (act seam : Nat) : exec (.rebalanceCancel act seam) s = execRebalanceCancel act seam s := rfl
@[simp] theorem exec_rebalanceCancelReceive (act seam beat : Nat) : exec (.rebalanceCancelReceive act seam beat) s = execRebalanceCancelReceive act seam beat s := rfl
@[simp] theorem exec_rebalanceForwardStart (act seam : Nat) : exec (.rebalanceForwardStart act seam) s = execRebalanceForwardStart act seam s := rfl
@[simp] theorem exec_closeMarkerReceive (act seam : Nat) (backfill : Option Nat) : exec (.closeMarkerReceive act seam backfill) s = execCloseMarkerReceive act seam backfill s := rfl
@[simp] theorem exec_rebalanceRelease (act seam : Nat) : exec (.rebalanceRelease act seam) s = execRebalanceRelease act seam s := rfl
@[simp] theorem exec_retirementReceive (act seam beat : Nat) : exec (.retirementReceive act seam beat) s = execRetirementReceive act seam beat s := rfl
@[simp] theorem exec_seamStorageRelease (act seam : Nat) : exec (.seamStorageRelease act seam) s = execSeamStorageRelease act seam s := rfl
@[simp] theorem exec_broadcastAckReceive (b : Bcast) : exec (.broadcastAckReceive b) s = execBroadcastAckReceive b s := rfl
@[simp] theorem exec_cageAdmission (act : Nat) : exec (.cageAdmission act) s = execCageAdmission act s := rfl
@[simp] theorem exec_cageWaitExpiry (act : Nat) : exec (.cageWaitExpiry act) s = execCageWaitExpiry act s := rfl
@[simp] theorem exec_cageGuardExpiry (act : Nat) : exec (.cageGuardExpiry act) s = execCageGuardExpiry act s := rfl
@[simp] theorem exec_migrationMovingEnter (act num : Nat) : exec (.migrationMovingEnter act num) s = execMigrationMovingEnter act num s := rfl
@[simp] theorem exec_migrationCopyComplete (act num row : Nat) : exec (.migrationCopyComplete act num row) s = execMigrationCopyComplete act num row s := rfl
@[simp] theorem exec_migrationFlip (act num : Nat) : exec (.migrationFlip act num) s = execMigrationFlip act num s := rfl
@[simp] theorem exec_migrationSourceRelease (act num job : Nat) : exec (.migrationSourceRelease act num job) s = execMigrationSourceRelease act num job s := rfl
@[simp] theorem exec_loadWindowEnd : exec (.loadWindowEnd) s = execLoadWindowEnd s := rfl
@[simp] theorem exec_tierMoveFlip (id : Nat) : exec (.tierMoveFlip id) s = execTierMoveFlip id s := rfl
@[simp] theorem exec_tierSourceRelease (id : Nat) : exec (.tierSourceRelease id) s = execTierSourceRelease id s := rfl
@[simp] theorem exec_tileHomeRelease (id : Nat) : exec (.tileHomeRelease id) s = execTileHomeRelease id s := rfl
@[simp] theorem exec_quotaWrite (src : Src) (act kind word : Nat) : exec (.quotaWrite src act kind word) s = execQuotaWrite src act kind word s := rfl
@[simp] theorem exec_memPoolWrite (src : Src) (gib : Nat) : exec (.memPoolWrite src gib) s = execMemPoolWrite src gib s := rfl
@[simp] theorem exec_scrubRound : exec (.scrubRound) s = execScrubRound s := rfl
@[simp] theorem exec_rowRetireFlip (kind unit sub index : Nat) : exec (.rowRetireFlip kind unit sub index) s = execRowRetireFlip kind unit sub index s := rfl
@[simp] theorem exec_hitPeriodBoundary : exec (.hitPeriodBoundary) s = execHitPeriodBoundary s := rfl
@[simp] theorem exec_memSpareCopy (src : Src) (stack chan : Nat) : exec (.memSpareCopy src stack chan) s = execMemSpareCopy src stack chan s := rfl
@[simp] theorem exec_memSpareDead (src : Src) (stack chan : Nat) : exec (.memSpareDead src stack chan) s = execMemSpareDead src stack chan s := rfl
@[simp] theorem exec_channelSpareFlip (stack : Nat) : exec (.channelSpareFlip stack) s = execChannelSpareFlip stack s := rfl
@[simp] theorem exec_channelFailure (stack chan : Nat) : exec (.channelFailure stack chan) s = execChannelFailure stack chan s := rfl
@[simp] theorem exec_flipMaskArm (src : Src) (word : Nat) : exec (.flipMaskArm src word) s = execFlipMaskArm src word s := rfl
@[simp] theorem exec_crewHewerSpare (src : Src) (crew hewer : Nat) : exec (.crewHewerSpare src crew hewer) s = execCrewHewerSpare src crew hewer s := rfl
@[simp] theorem exec_crewCoreSpare (src : Src) (crew core : Nat) : exec (.crewCoreSpare src crew core) s = execCrewCoreSpare src crew core s := rfl
@[simp] theorem exec_hewerFailure (crew hewer : Nat) : exec (.hewerFailure crew hewer) s = execHewerFailure crew hewer s := rfl
@[simp] theorem exec_controlCoreFailure (crew core : Nat) : exec (.controlCoreFailure crew core) s = execControlCoreFailure crew core s := rfl
@[simp] theorem exec_flashProgramComplete (wseq : Nat) : exec (.flashProgramComplete wseq) s = execFlashProgramComplete wseq s := rfl
@[simp] theorem exec_flashProgramFail (what : CellFail) : exec (.flashProgramFail what) s = execFlashProgramFail what s := rfl
@[simp] theorem exec_flashWriteResume (wseq : Nat) : exec (.flashWriteResume wseq) s = execFlashWriteResume wseq s := rfl
@[simp] theorem exec_foldStart : exec (.foldStart) s = execFoldStart s := rfl
@[simp] theorem exec_foldFlip (act page : Nat) (verified : Bool) : exec (.foldFlip act page verified) s = execFoldFlip act page verified s := rfl
@[simp] theorem exec_wearRelocate (act page : Nat) : exec (.wearRelocate act page) s = execWearRelocate act page s := rfl
@[simp] theorem exec_journalFlush : exec .journalFlush s = execJournalFlush s := rfl
@[simp] theorem exec_journalFlushComplete : exec (.journalFlushComplete) s = execJournalFlushComplete s := rfl
@[simp] theorem exec_dieAutoRetire (chan die : Nat) : exec (.dieAutoRetire chan die) s = execDieAutoRetire chan die s := rfl
@[simp] theorem exec_adtDieRetire (src : Src) (chan die : Nat) : exec (.adtDieRetire src chan die) s = execAdtDieRetire src chan die s := rfl
@[simp] theorem exec_dieRebuildComplete : exec (.dieRebuildComplete) s = execDieRebuildComplete s := rfl
@[simp] theorem exec_holdupChange (low : Bool) (held : Nat) : exec (.holdupChange low held) s = execHoldupChange low held s := rfl
@[simp] theorem exec_powerFailAssert (held : Nat) : exec (.powerFailAssert held) s = execPowerFailAssert held s := rfl
@[simp] theorem exec_powerFailClearReset : exec (.powerFailClearReset) s = execPowerFailClearReset s := rfl
@[simp] theorem exec_laneBad (link lane : Nat) : exec (.laneBad link lane) s = execLaneBad link lane s := rfl
@[simp] theorem exec_laserPowerLow (link : Nat) : exec (.laserPowerLow link) s = execLaserPowerLow link s := rfl
@[simp] theorem exec_linkLaneGo (src : Src) (link lane : Nat) : exec (.linkLaneGo src link lane) s = execLinkLaneGo src link lane s := rfl
@[simp] theorem exec_linkLaserGo (src : Src) (link : Nat) : exec (.linkLaserGo src link) s = execLinkLaserGo src link s := rfl
@[simp] theorem exec_carouselFrameReceive (link seq : Nat) (crcOk : Bool) (head : List Byte) (stream : Option (List Byte)) (p : Packet) : exec (.carouselFrameReceive link seq crcOk head stream p) s = execCarouselFrameReceive link seq crcOk head stream p s := rfl
@[simp] theorem exec_linkFrameResend (link seq : Nat) : exec (.linkFrameResend link seq) s = execLinkFrameResend link seq s := rfl
@[simp] theorem exec_carouselRequestReceive (p : Packet) : exec (.carouselRequestReceive p) s = execCarouselRequestReceive p s := rfl
@[simp] theorem exec_putPayloadReceive (p : Packet) : exec (.putPayloadReceive p) s = execPutPayloadReceive p s := rfl
@[simp] theorem exec_carouselResponseReceive (r : Reply) : exec (.carouselResponseReceive r) s = execCarouselResponseReceive r s := rfl
@[simp] theorem exec_requestReplayTimeout (dst vc seq : Nat) : exec (.requestReplayTimeout dst vc seq) s = execRequestReplayTimeout dst vc seq s := rfl
@[simp] theorem exec_copyFillReceive (p : Packet) : exec (.copyFillReceive p) s = execCopyFillReceive p s := rfl
@[simp] theorem exec_invalidationReceive (p : Packet) : exec (.invalidationReceive p) s = execInvalidationReceive p s := rfl
@[simp] theorem exec_invalidationAckReceive (p : Packet) : exec (.invalidationAckReceive p) s = execInvalidationAckReceive p s := rfl
@[simp] theorem exec_carJoin (src : Src) : exec (.carJoin src) s = execCarJoin src s := rfl
@[simp] theorem exec_carAdmit (src : Src) (pos : Nat) : exec (.carAdmit src pos) s = execCarAdmit src pos s := rfl
@[simp] theorem exec_carRemove (src : Src) (pos : Nat) : exec (.carRemove src pos) s = execCarRemove src pos s := rfl
@[simp] theorem exec_carLeave (src : Src) : exec (.carLeave src) s = execCarLeave src s := rfl
@[simp] theorem exec_admissionReceive (pos beat written size pairEn members : Nat) (leave : Bool) : exec (.admissionReceive pos beat written size pairEn members leave) s = execAdmissionReceive pos beat written size pairEn members leave s := rfl
@[simp] theorem exec_aloneDetect : exec (.aloneDetect) s = execAloneDetect s := rfl
@[simp] theorem exec_membershipBeat (elected : Nat) : exec (.membershipBeat elected) s = execMembershipBeat elected s := rfl
@[simp] theorem exec_helloReceive (link size pos : Nat) : exec (.helloReceive link size pos) s = execHelloReceive link size pos s := rfl
@[simp] theorem exec_joinConfirm : exec (.joinConfirm) s = execJoinConfirm s := rfl
@[simp] theorem exec_joinTimeout : exec (.joinTimeout) s = execJoinTimeout s := rfl
@[simp] theorem exec_founderConflict (pos : Nat) : exec (.founderConflict pos) s = execFounderConflict pos s := rfl
@[simp] theorem exec_neighbourLossDetect (pos : Nat) : exec (.neighbourLossDetect pos) s = execNeighbourLossDetect pos s := rfl
@[simp] theorem exec_lossBroadcastReceive (pos beat : Nat) (ring : Option Nat) : exec (.lossBroadcastReceive pos beat ring) s = execLossBroadcastReceive pos beat ring s := rfl
@[simp] theorem exec_midwayFrameReceive (port : Nat) (fcsOk : Bool) (fec : Nat) (frame : List Byte) : exec (.midwayFrameReceive port fcsOk fec frame) s = execMidwayFrameReceive port fcsOk fec frame s := rfl
@[simp] theorem exec_midwayJobReceive : exec (.midwayJobReceive) s = execMidwayJobReceive s := rfl
@[simp] theorem exec_midwayResultReceive : exec (.midwayResultReceive) s = execMidwayResultReceive s := rfl
@[simp] theorem exec_midwayAckReceive : exec (.midwayAckReceive) s = execMidwayAckReceive s := rfl
@[simp] theorem exec_midwayFragmentTimeout (mac act msg frag : Nat) : exec (.midwayFragmentTimeout mac act msg frag) s = execMidwayFragmentTimeout mac act msg frag s := rfl
@[simp] theorem exec_ptpEventTimestamp (port domain dir type seq : Nat) : exec (.ptpEventTimestamp port domain dir type seq) s = execPtpEventTimestamp port domain dir type seq s := rfl
@[simp] theorem exec_ptpTsPop (src : Src) : exec (.ptpTsPop src) s = execPtpTsPop src s := rfl
@[simp] theorem exec_egressUnitComplete (chan : Nat) : exec (.egressUnitComplete chan) s = execEgressUnitComplete chan s := rfl
@[simp] theorem exec_gateEntryAdvance (chan : Nat) : exec (.gateEntryAdvance chan) s = execGateEntryAdvance chan s := rfl
@[simp] theorem exec_gateListArm (src : Src) (chan entries cycleM1 : Nat) : exec (.gateListArm src chan entries cycleM1) s = execGateListArm src chan entries cycleM1 s := rfl
@[simp] theorem exec_gateListCancel (src : Src) (chan : Nat) : exec (.gateListCancel src chan) s = execGateListCancel src chan s := rfl
@[simp] theorem exec_gateTakeover (chan : Nat) : exec (.gateTakeover chan) s = execGateTakeover chan s := rfl
@[simp] theorem exec_meterApply (src : Src) (act group cls mode : Nat) (redDrop : Bool) : exec (.meterApply src act group cls mode redDrop) s = execMeterApply src act group cls mode redDrop s := rfl
@[simp] theorem exec_meterApplyEffect : exec (.meterApplyEffect) s = execMeterApplyEffect s := rfl
@[simp] theorem exec_reserveWrite (src : Src) (chan cells : Nat) : exec (.reserveWrite src chan cells) s = execReserveWrite src chan cells s := rfl
@[simp] theorem exec_poolCellsRelease : exec (.poolCellsRelease) s = execPoolCellsRelease s := rfl
@[simp] theorem exec_queueSample : exec (.queueSample) s = execQueueSample s := rfl
@[simp] theorem exec_beatAdvance (mean estimate : Nat) (calIn : Bool) (readings : List (Nat × Int)) : exec (.beatAdvance mean estimate calIn readings) s = execBeatAdvance mean estimate calIn readings s := rfl
@[simp] theorem exec_beatMarkerReceive (beat : Nat) (err : Int) (calliope : Nat) : exec (.beatMarkerReceive beat err calliope) s = execBeatMarkerReceive beat err calliope s := rfl
@[simp] theorem exec_markerTimeout : exec (.markerTimeout) s = execMarkerTimeout s := rfl
@[simp] theorem exec_calliopeHandoverRequest (src : Src) : exec (.calliopeHandoverRequest src) s = execCalliopeHandoverRequest src s := rfl
@[simp] theorem exec_handoverBroadcastReceive (node beat : Nat) : exec (.handoverBroadcastReceive node beat) s = execHandoverBroadcastReceive node beat s := rfl
@[simp] theorem exec_calliopeHandover : exec (.calliopeHandover) s = execCalliopeHandover s := rfl
@[simp] theorem exec_clockFailure (refclk : Bool) : exec (.clockFailure refclk) s = execClockFailure refclk s := rfl
@[simp] theorem exec_wallPublish (src : Src) : exec (.wallPublish src) s = execWallPublish src s := rfl
@[simp] theorem exec_wallAnchorReceive (beat sec ns : Nat) : exec (.wallAnchorReceive beat sec ns) s = execWallAnchorReceive beat sec ns s := rfl
@[simp] theorem exec_domainWakeStart (crew : Bool) (n : Nat) : exec (.domainWakeStart crew n) s = execDomainWakeStart crew n s := rfl
@[simp] theorem exec_domainWakeComplete (crew : Bool) (n : Nat) : exec (.domainWakeComplete crew n) s = execDomainWakeComplete crew n s := rfl
@[simp] theorem exec_p4Enter (src : Src) : exec (.p4Enter src) s = execP4Enter src s := rfl
@[simp] theorem exec_p4Wake (src : Src) : exec (.p4Wake src) s = execP4Wake src s := rfl
@[simp] theorem exec_p4TimedWake : exec (.p4TimedWake) s = execP4TimedWake s := rfl
@[simp] theorem exec_bar2Read (fn x len : Nat) : exec (.bar2Read fn x len) s = execBar2Read fn x len s := rfl
@[simp] theorem exec_bar2Write (fn x : Nat) (data : List Byte) : exec (.bar2Write fn x data) s = execBar2Write fn x data s := rfl
@[simp] theorem exec_linkRetrain (speed width : Nat) (flit : Bool) : exec (.linkRetrain speed width flit) s = execLinkRetrain speed width flit s := rfl
@[simp] theorem exec_perstAssert (held : Nat) : exec (.perstAssert held) s = execPerstAssert held s := rfl
@[simp] theorem exec_ostEnable (src : Src) : exec (.ostEnable src) s = execOstEnable src s := rfl
@[simp] theorem exec_ostDisable (src : Src) : exec (.ostDisable src) s = execOstDisable src s := rfl
@[simp] theorem exec_ostExit : exec (.ostExit) s = execOstExit s := rfl
@[simp] theorem exec_powerOnReset : exec (.powerOnReset) s = execPowerOnReset s := rfl
@[simp] theorem exec_brownOut (rail held : Nat) : exec (.brownOut rail held) s = execBrownOut rail held s := rfl
@[simp] theorem exec_resetPinAssert (held : Nat) : exec (.resetPinAssert held) s = execResetPinAssert held s := rfl
@[simp] theorem exec_resetPinDeassert (held : Nat) : exec (.resetPinDeassert held) s = execResetPinDeassert held s := rfl
@[simp] theorem exec_watchdogExpiry : exec (.watchdogExpiry) s = execWatchdogExpiry s := rfl
@[simp] theorem exec_watchdogKick (src : Src) (key : Nat) : exec (.watchdogKick src key) s = execWatchdogKick src key s := rfl
@[simp] theorem exec_softwareReset (src : Src) (level key : Nat) : exec (.softwareReset src level key) s = execSoftwareReset src level key s := rfl
@[simp] theorem exec_lockupReset : exec (.lockupReset) s = execLockupReset s := rfl
@[simp] theorem exec_resetSequence : exec (.resetSequence) s = execResetSequence s := rfl
@[simp] theorem exec_resetRelease (image : Option (List Byte)) (flash : FlashBoot) : exec (.resetRelease image flash) s = execResetRelease image flash s := rfl
@[simp] theorem exec_hostImageLoad (image : Option (List Byte)) (flash : FlashBoot) : exec (.hostImageLoad image flash) s = execHostImageLoad image flash s := rfl
@[simp] theorem exec_commitSvn (src : Src) : exec (.commitSvn src) s = execCommitSvn src s := rfl
@[simp] theorem exec_measurementExtGo (src : Src) (index : Nat) : exec (.measurementExtGo src index) s = execMeasurementExtGo src index s := rfl
@[simp] theorem exec_actReset (src : Src) (act : Nat) : exec (.actReset src act) s = execActReset src act s := rfl
@[simp] theorem exec_blockReset (src : Src) (block : Nat) : exec (.blockReset src block) s = execBlockReset src block s := rfl
@[simp] theorem exec_blockResetIdle : exec (.blockResetIdle) s = execBlockResetIdle s := rfl
@[simp] theorem exec_blockResetTimeout : exec (.blockResetTimeout) s = execBlockResetTimeout s := rfl
@[simp] theorem exec_debugSubmit (src : Src) : exec (.debugSubmit src) s = execDebugSubmit src s := rfl
@[simp] theorem exec_debugResetRequest (src : Src) : exec (.debugResetRequest src) s = execDebugResetRequest src s := rfl
@[simp] theorem exec_debugClose (src : Src) : exec (.debugClose src) s = execDebugClose src s := rfl
@[simp] theorem exec_firmwareNodeLeave : exec (.firmwareNodeLeave) s = execFirmwareNodeLeave s := rfl
@[simp] theorem exec_autoSpare (kind unit index fails : Nat) (dead : Bool) : exec (.autoSpare kind unit index fails dead) s = execAutoSpare kind unit index fails dead s := rfl
@[simp] theorem exec_funhouseEnable (src : Src) (word : Nat) : exec (.funhouseEnable src word) s = execFunhouseEnable src word s := rfl
@[simp] theorem exec_perturbationArm (src : Src) (slot word : Nat) : exec (.perturbationArm src slot word) s = execPerturbationArm src slot word s := rfl
@[simp] theorem exec_perturbationFire (slot act : Nat) : exec (.perturbationFire slot act) s = execPerturbationFire slot act s := rfl
@[simp] theorem exec_thermalWarning (crew : Bool) (n : Nat) : exec (.thermalWarning crew n) s = execThermalWarning crew n s := rfl
@[simp] theorem exec_thermalTrip (crew : Bool) (n : Nat) : exec (.thermalTrip crew n) s = execThermalTrip crew n s := rfl
@[simp] theorem exec_linkTrained (link : Nat) : exec (.linkTrained link) s = execLinkTrained link s := rfl
@[simp] theorem exec_hostReadComplete (job : Nat) (data : List Byte) : exec (.hostReadComplete job data) s = execHostReadComplete job data s := rfl
@[simp] theorem exec_vfEnable (f : Nat) (enable : Bool) : exec (.vfEnable f enable) s = execVfEnable f enable s := rfl
@[simp] theorem exec_perstDeassert (held : Nat) : exec (.perstDeassert held) s = execPerstDeassert held s := rfl
@[simp] theorem exec_powerFailDeassert (held : Nat) : exec (.powerFailDeassert held) s = execPowerFailDeassert held s := rfl
@[simp] theorem exec_thermalWarningClear (crew : Bool) (n : Nat) : exec (.thermalWarningClear crew n) s = execThermalWarningClear crew n s := rfl
@[simp] theorem exec_stackRefreshDouble (stack : Nat) (double : Bool) : exec (.stackRefreshDouble stack double) s = execStackRefreshDouble stack double s := rfl
@[simp] theorem exec_midwayLinkChange (port : Nat) (up lock localFault remoteFault : Bool) : exec (.midwayLinkChange port up lock localFault remoteFault) s = execMidwayLinkChange port up lock localFault remoteFault s := rfl
@[simp] theorem exec_pfcPauseReceive (port prio : Nat) (pause : Bool) : exec (.pfcPauseReceive port prio pause) s = execPfcPauseReceive port prio pause s := rfl
@[simp] theorem exec_redUnitRetest (chan act cls : Nat) : exec (.redUnitRetest chan act cls) s = execRedUnitRetest chan act cls s := rfl

end Sys2Proof.Machine
end

