-- ==== Sys2Proof/Laws/Memory.lean ====
section
/-! SUPPORT. The laws of memory: what a read counts and leaves, that a store changes the bytes stored and no others, and that every
memory operation keeps the canonical form. -/
namespace Sys2Proof.Machine

/-! ## A strand that has moved on reads and writes the same memory -/

theorem any_updWhere {α : Type} (p q : α → Bool) (f : α → α) (l : List α) (h : ∀ a, p (f a) = p a) :
    (updWhere q f l).any p = l.any p := by
  induction l with
  | nil => rfl
  | cons a t ih =>
    unfold updWhere at *
    rw [List.map_cons, List.any_cons, List.any_cons, ih]
    congr 1
    split
    · exact h a
    · rfl

theorem State.grants_moved (s : State) (o : Insn) (t : Strand) (j : Job) (r : Right) (p : Nat) :
    (s.moved o t).grants j r p = s.grants j r p := by
  have e (n : Nat) : ((s.moved o t).fil.strands.any fun u => u.id == n && u.job == j.id) =
      s.fil.strands.any fun u => u.id == n && u.job == j.id := any_updWhere _ _ _ _ fun _ => rfl
  unfold State.grants
  simp only [e]
  rfl

theorem State.mayAccess_moved (s : State) (o : Insn) (t : Strand) (j : Job) (r : Right) (p : Nat) :
    (s.moved o t).mayAccess j r p = s.mayAccess j r p := by
  unfold State.mayAccess
  rw [State.grants_moved]
  rfl

theorem MayUse.moved {s : State} {j : Job} {r : Right} {a n : Nat} (o : Insn) (t : Strand) (h : MayUse s j r a n) :
    MayUse (s.moved o t) j r a n := by
  intro x h1 h2
  obtain ⟨p, hp, hm⟩ := h x h1 h2
  exact ⟨p, hp, by rw [State.mayAccess_moved]; exact hm⟩

theorem State.readMem_moved (s : State) (o : Insn) (t : Strand) (k a n : Nat) :
    ((s.moved o t).readMem k a n).1 = (s.readMem k a n).1 := by
  unfold State.readMem
  split <;> rfl

/-! ## What a read leaves -/

theorem ReadsOnly.refl (s : State) : ReadsOnly s s := rfl

theorem ReadsOnly.trans {s t u : State} (h : ReadsOnly s t) (g : ReadsOnly t u) : ReadsOnly s u := by
  unfold ReadsOnly at *
  rw [← h, ← g]

theorem ReadsOnly.setReg (s : State) (off : Nat) (w : BitVec 32) : ReadsOnly s (s.setReg off w) := rfl
theorem ReadsOnly.wr (s : State) (f : FieldRef) (v : Nat) : ReadsOnly s (s.wr f v) := rfl
theorem ReadsOnly.bump (s : State) (f : FieldRef) (n : Nat) : ReadsOnly s (s.bump f n) := rfl
theorem ReadsOnly.count (s : State) (c n : Nat) : ReadsOnly s (s.count c n) := rfl

theorem ReadsOnly.logMem (s : State) (source blk : Nat) (uncorr : Bool) (row bit : Nat) :
    ReadsOnly s (s.logMem source blk uncorr row bit) := by
  unfold State.logMem
  split
  · rfl
  · simp only []
    repeat refine ReadsOnly.trans ?_ (ReadsOnly.wr _ _ _)
    rfl

theorem ReadsOnly.hit (s : State) (blk : Nat) (syn : BitVec 48) : ReadsOnly s (s.hit blk syn) := by
  unfold State.hit
  simp only []
  split
  · rfl
  · split
    · rfl
    · split
      · split <;> rfl
      · split <;> rfl

theorem ReadsOnly.memEvent (s : State) (source blk : Nat) (c : Check) : ReadsOnly s (s.memEvent source blk c) := by
  unfold State.memEvent
  cases c <;> simp only []
  case clean => rfl
  all_goals
    split
    · split
      · refine ReadsOnly.trans ?_ (ReadsOnly.bump _ _ _)
        try refine ReadsOnly.trans ?_ (ReadsOnly.hit _ _ _)
        refine ReadsOnly.trans ?_ (ReadsOnly.logMem _ _ _ _ _ _)
        rfl
      · try refine ReadsOnly.trans ?_ (ReadsOnly.hit _ _ _)
        refine ReadsOnly.trans ?_ (ReadsOnly.logMem _ _ _ _ _ _)
        rfl
    · try refine ReadsOnly.trans ?_ (ReadsOnly.hit _ _ _)
      refine ReadsOnly.trans ?_ (ReadsOnly.logMem _ _ _ _ _ _)
      rfl

theorem ReadsOnly.startWake (s : State) (d : Domain) : ReadsOnly s (s.startWake d) := by
  unfold State.startWake
  split <;> rfl

theorem ReadsOnly.arrive (s : State) (d : Domain) : ReadsOnly s (s.arrive d) := by
  unfold State.arrive
  split
  · rfl
  · exact (ReadsOnly.startWake s d).trans (ReadsOnly.bump _ _ _)

theorem ReadsOnly.foldl {α : Type} {f : State → α → State} (h : ∀ s a, ReadsOnly s (f s a)) (l : List α) (s : State) :
    ReadsOnly s (l.foldl f s) := by
  induction l generalizing s with
  | nil => rfl
  | cons a t ih => exact (h s a).trans (ih (f s a))

theorem ReadsOnly.touch (s : State) (a n : Nat) : ReadsOnly s (s.touch a n) := by
  unfold State.touch
  split
  · rfl
  · exact ReadsOnly.foldl (fun s t => ReadsOnly.arrive s _) _ _

/-- A read changes nothing but what it counts, logs and wakes. -/
theorem ReadsOnly.readMem (s : State) (source a n : Nat) : ReadsOnly s (s.readMem source a n).2.2 := by
  unfold State.readMem
  split
  · rfl
  · simp only []
    split
    · exact ReadsOnly.foldl (fun s b => ReadsOnly.memEvent s _ _ _) _ _
    · exact (ReadsOnly.touch s a n).trans (ReadsOnly.foldl (fun s b => ReadsOnly.memEvent s _ _ _) _ _)

theorem ReadsOnly.fil {s u : State} (h : ReadsOnly s u) : u.fil = s.fil := by have := congrArg State.fil h; exact this
theorem ReadsOnly.wnz {s u : State} (h : ReadsOnly s u) : u.wnz = s.wnz := by have := congrArg State.wnz h; exact this
theorem ReadsOnly.bytes {s u : State} (h : ReadsOnly s u) : u.mem.bytes = s.mem.bytes := by have := congrArg (fun t => t.mem.bytes) h; exact this
theorem ReadsOnly.syn {s u : State} (h : ReadsOnly s u) : u.mem.syn = s.mem.syn := by have := congrArg (fun t => t.mem.syn) h; exact this

theorem ReadsOnly.check {s u : State} (h : ReadsOnly s u) (b : Nat) : u.mem.check b = s.mem.check b := by
  have e1 : u.mem.syn = s.mem.syn := h.syn
  have e2 : u.mem.lostCh = s.mem.lostCh := by have := congrArg (fun t => t.mem.lostCh) h; exact this
  have e3 : u.mem.lostX = s.mem.lostX := by have := congrArg (fun t => t.mem.lostX) h; exact this
  have e4 : u.mem.deadCh = s.mem.deadCh := by have := congrArg (fun t => t.mem.deadCh) h; exact this
  unfold MemSt.check MemSt.dead MemSt.lost
  rw [e1, e2, e3, e4]

theorem ReadsOnly.dead {s u : State} (h : ReadsOnly s u) (b : Nat) : u.mem.dead b = s.mem.dead b := by
  have e4 : u.mem.deadCh = s.mem.deadCh := by have := congrArg (fun t => t.mem.deadCh) h; exact this
  unfold MemSt.dead
  rw [e4]

/-! ## Bytes -/

@[simp] theorem MemSt.byte_setBytes_bytes (m : MemSt) (p : Nat) (l : List Byte) :
    (m.setBytes p l).bytes = kvPut 0#8 m.bytes p l := rfl

/-- A byte inside a run that was stored. -/
theorem MemSt.byte_setBytes_in (m : MemSt) {p i : Nat} {l : List Byte} (h : i < l.length) :
    (m.setBytes p l).byte (p + i) = l[i] := kvGet_kvPut_in h

/-- A byte outside it. -/
theorem MemSt.byte_setBytes_out (m : MemSt) {p i : Nat} {l : List Byte} (h : i < p ∨ p + l.length ≤ i) :
    (m.setBytes p l).byte i = m.byte i := kvGet_kvPut_out h

theorem length_rangeGet (n a : Nat) (l : List Host.Cell) : (rangeGet n a l).length = n := by
  induction n generalizing a l with
  | zero => rfl
  | succ n ih =>
    unfold rangeGet
    split
    · split <;> simp [ih]
    · simp [ih]

theorem kvWf_dropWhile {α : Type} [DecidableEq α] {d : α} (p : Nat × α → Bool) {l : List (Nat × α)} (h : kvWf d l = true) :
    kvWf d (l.dropWhile p) = true := by
  induction l with
  | nil => rfl
  | cons e t ih =>
    rw [List.dropWhile_cons]
    split
    · exact ih (kvWf_cons.1 h).2.2
    · exact h

theorem kvGet_dropWhile {α : Type} {d : α} {a k : Nat} (h : a ≤ k) (l : List (Nat × α)) :
    kvGet d (l.dropWhile fun e => decide (e.1 < a)) k = kvGet d l k := by
  induction l with
  | nil => rfl
  | cons e t ih =>
    obtain ⟨b, v⟩ := e
    rw [List.dropWhile_cons]
    split
    · rename_i hb
      have : ¬ b = k := by simp at hb; omega
      rw [ih]; simp [kvGet, this]
    · rfl

/-- The bytes of a range of a canonical memory, one by one. -/
theorem getD_rangeGet {n a i : Nat} {l : List Host.Cell} (h : kvWf 0#8 l = true) (hi : i < n) :
    (rangeGet n a l).getD i 0#8 = kvGet 0#8 l (a + i) := by
  induction n generalizing a i l with
  | zero => omega
  | succ n ih =>
    have hw := kvWf_dropWhile (fun e => decide (e.1 < a)) h
    have hg (k : Nat) (hk : a ≤ k) := kvGet_dropWhile (d := 0#8) hk l
    have hge : ∀ k v t, l.dropWhile (fun e => decide (e.1 < a)) = (k, v) :: t → a ≤ k := by
      intro k v t e
      have := List.head_dropWhile_not (fun e : Host.Cell => decide (e.1 < a)) (l := l) (by rw [e]; simp)
      simp only [e, List.head_cons, decide_eq_false_iff_not] at this
      omega
    rw [← hg (a + i) (by omega)]
    unfold rangeGet
    generalize l.dropWhile (fun e => decide (e.1 < a)) = D at hw hg hge ⊢
    rcases D with _ | ⟨⟨k, v⟩, t⟩
    · cases i with
      | zero => simp [kvGet]
      | succ i =>
        have ea : a + (i + 1) = a + 1 + i := by omega
        simp only [List.getD_cons_succ, ea]
        exact ih (l := []) rfl (by omega)
    · have h1 := hge k v t rfl
      cases i with
      | zero =>
        by_cases hk : k = a
        · simp [hk, kvGet]
        · have h2 : kvGet 0#8 ((k, v) :: t) a = 0#8 := by
            refine kvGet_of_from (n := k) (fun x hx => ?_) (by omega)
            rcases List.mem_cons.1 hx with rfl | hx
            · exact Nat.le_refl _
            · have := (kvWf_cons.1 hw).2.1 x hx; omega
          simp [hk, h2]
      | succ i =>
        have ea : a + (i + 1) = a + 1 + i := by omega
        by_cases hk : k = a
        · subst hk
          have : ¬ k = k + 1 + i := by omega
          simp only [if_true, List.getD_cons_succ, ea, kvGet, this, if_false]
          exact ih (kvWf_cons.1 hw).2.2 (by omega)
        · simp only [hk, if_false, List.getD_cons_succ, ea]
          exact ih hw (by omega)

/-- A block that reads clean, stored back as it is delivered, leaves every byte. -/
theorem MemSt.byte_store_delivered {m : MemSt} {b : Nat} (hw : m.wf = true) (hc : m.check b = .clean) (x : Nat) :
    (m.setBytes (b * 64) (m.delivered b)).byte x = m.byte x := by
  have hd : m.delivered b = rangeGet 64 (b * 64) m.bytes := by
    unfold MemSt.delivered; simp only [hc]
  have hbw : kvWf 0#8 m.bytes = true := by
    simp only [MemSt.wf, Bool.and_eq_true] at hw; exact hw.1.1
  rw [hd]
  by_cases hx : b * 64 ≤ x ∧ x < b * 64 + 64
  · obtain ⟨i, rfl⟩ := Nat.exists_eq_add_of_le hx.1
    have hi : i < 64 := by omega
    have hl : i < (rangeGet 64 (b * 64) m.bytes).length := by rw [length_rangeGet]; exact hi
    rw [MemSt.byte_setBytes_in m hl]
    have := getD_rangeGet (a := b * 64) hbw hi
    rw [List.getD_eq_getElem _ _ hl] at this
    exact this
  · exact MemSt.byte_setBytes_out m (by rw [length_rangeGet]; omega)

theorem State.flipBlock_off {s : State} {b : Nat} (h : s.rd F.memFlipCtrl_arm = 0) : s.flipBlock b = s := by
  have e : s.on F.memFlipCtrl_arm = false := by unfold State.on; rw [h]; rfl
  unfold State.flipBlock
  simp [e]

/-- One piece of a store into a block that reads clean, with the flip mask not armed: the bytes of the piece, and no others. -/
theorem State.writePiece_byte {s : State} {source p x : Nat} {data : List Byte} (hw : s.mem.wf = true)
    (hd : s.mem.dead (p / 64) = false) (hc : s.mem.check (p / 64) = .clean) (hf : s.rd F.memFlipCtrl_arm = 0) :
    (s.writePiece source p data).mem.byte x = if h : p ≤ x ∧ x < p + data.length then data[x - p] else s.mem.byte x := by
  have key (m : MemSt) (hm : m.byte x = s.mem.byte x) :
      (m.setBytes p data).byte x = if h : p ≤ x ∧ x < p + data.length then data[x - p] else s.mem.byte x := by
    split
    · rename_i h
      obtain ⟨i, rfl⟩ := Nat.exists_eq_add_of_le h.1
      have hi : i < data.length := by omega
      rw [MemSt.byte_setBytes_in m hi]
      congr 1; omega
    · rw [MemSt.byte_setBytes_out m (by omega), hm]
  unfold State.writePiece
  simp only [hd, hc, Bool.false_eq_true, if_false]
  split
  · rw [State.flipBlock_off (by exact hf)]
    exact key s.mem rfl
  · rw [State.flipBlock_off (by exact hf)]
    exact key { s.mem.setBytes (p / 64 * 64) (s.mem.delivered (p / 64)) with syn := _ } (MemSt.byte_store_delivered hw hc x)

/-- The crew store window of Table 2.5. -/
theorem locate_crew {y : Nat} (h : y < 16 * crewWindow) (h' : y % crewWindow < crewLen) :
    locate (crewBase + y) = .crew (y / crewWindow) (y % crewWindow) := by
  have e20 : crewLen = 50331648 := by decide
  have e1 : ¬ crewBase + y < 0x30000000000 := by unfold crewBase; omega
  have e2 : ¬ (stackView ≤ crewBase + y ∧ crewBase + y < stackView + 24 * stackLen) := by
    unfold crewBase stackView stackLen crewWindow at *; omega
  have e3 : crewBase ≤ crewBase + y ∧ crewBase + y < crewBase + 16 * crewWindow := ⟨by omega, by omega⟩
  unfold locate
  rw [if_neg e1, if_neg e2, if_pos e3, Nat.add_sub_cancel_left, if_pos h']

/-- A byte of memory lies in the block of the first byte of its 64. -/
theorem physOf_block {a p : Nat} (h : physOf a = some p) : physOf (a / 64 * 64) = some (p / 64 * 64) ∧ p % 64 = a % 64 := by
  unfold physOf at *
  unfold locate at h
  unfold stackView stackLen crewBase crewWindow crewLen regBase at h
  simp only [show (48 * 2 ^ 20 : Nat) = 50331648 from rfl] at h
  split at h
  · rename_i t o e
    split at e
    · rename_i h1
      simp only [Loc.stack.injEq] at e
      have h2 : a / 64 * 64 < 0x30000000000 := by omega
      unfold locate
      simp only [h2, if_true, stackAddr, stackView, stackLen, Option.some.injEq] at h ⊢
      omega
    · split at e
      · rename_i h0 h1
        simp only [Loc.stack.injEq] at e
        have h2 : ¬ a / 64 * 64 < 0x30000000000 := by omega
        have h3 : 0x100000000000 ≤ a / 64 * 64 ∧ a / 64 * 64 < 0x100000000000 + 24 * 0x2000000000 := by omega
        unfold locate stackView stackLen
        simp only [h2, h3, if_true, if_false, stackAddr, stackView, stackLen, Option.some.injEq, and_self] at h ⊢
        omega
      · split at e
        · split at e <;> simp at e
        · split at e <;> simp at e
  · rename_i c o e
    split at e
    · simp at e
    · split at e
      · simp at e
      · split at e
        · rename_i h0 h1 h2
          split at e
          · rename_i h3
            simp only [Loc.crew.injEq] at e
            obtain ⟨y, rfl⟩ := Nat.exists_eq_add_of_le h2.1
            rw [Nat.add_sub_cancel_left] at h3 e
            have h4 : y / 64 * 64 % crewWindow < crewLen := by
              have : crewLen = 50331648 := by decide
              unfold crewWindow; omega
            have h5 : y / 64 * 64 < 16 * crewWindow := by unfold crewWindow; omega
            have h6 : (0x300000000000 + y) / 64 * 64 = crewBase + y / 64 * 64 := by unfold crewBase; omega
            have h7 := locate_crew h5 h4
            have h8 : physOf (crewBase + y / 64 * 64) = some (crewAddr (y / 64 * 64 / crewWindow) (y / 64 * 64 % crewWindow)) := by
              unfold physOf; rw [h7]
            rw [h6]
            unfold physOf at h8
            rw [h8]
            unfold crewAddr crewBase crewWindow at *
            simp only [Option.some.injEq] at h ⊢
            omega
          · simp at e
        · split at e <;> simp at e
  · simp at h

theorem State.rd_setReg_other (s : State) {off : Nat} (w : BitVec 32) (f : FieldRef) (h : off ≠ f.off) : (s.setReg off w).rd f = s.rd f := by
  unfold State.rd; rw [State.reg_setReg_other s w h]

/-- What an access wakes does not touch a field outside the power registers. -/
theorem State.rd_touch (s : State) (a n : Nat) (f : FieldRef) (h1 : F.pwrStatus_waking.off ≠ f.off)
    (h2 : F.pwrWakeLate_count.off ≠ f.off) : (s.touch a n).rd f = s.rd f := by
  have harr (s : State) (d : Domain) : (s.arrive d).rd f = s.rd f := by
    unfold State.arrive
    split
    · rfl
    · unfold State.bump
      rw [State.rd_wr_other _ _ _ _ h2]
      unfold State.startWake
      split
      · rfl
      · rw [State.rd_wr_other _ _ _ _ h1]; rfl
  unfold State.touch
  split
  · rfl
  · have key (l : List Nat) : ∀ s : State, (l.foldl (fun s t => s.arrive (.stack t)) s).rd f = s.rd f := by
      induction l with
      | nil => intro s; rfl
      | cons t l ih => intro s; rw [List.foldl_cons, ih, harr]
    exact key _ s

/-- A store inside one block of 64 bytes that nothing holds and nothing disturbs: the bytes stored, and no others. -/
theorem State.ordWrite_byte {s : State} {a p : Nat} {data : List Byte} (whose : HeldFor) (hw : s.mem.wf = true) (hs : Storable s a data.length)
    (hp : physOf a = some p) (h0 : 0 < data.length) (h1 : a % 64 + data.length ≤ 64) (x : Nat) :
    (s.ordWrite a data whose).mem.byte x = if h : p ≤ x ∧ x < p + data.length then data[x - p] else s.mem.byte x := by
  obtain ⟨hh, hf, hb⟩ := hs
  obtain ⟨hp1, hp2⟩ := physOf_block hp
  have hblk : p / 64 ∈ blocksOf a data.length := by
    unfold blocksOf
    have hne : data.length ≠ 0 := by omega
    rw [if_neg hne, List.mem_filterMap]
    refine ⟨0, by simp, ?_⟩
    simp only [Nat.add_zero, hp1, Option.map_some, Option.some.injEq]
    omega
  obtain ⟨hd, hc⟩ := hb _ hblk
  have ht := ReadsOnly.touch s a data.length
  have hpc : pieces (data.length / 64 + 2) a data = [(a, data)] := by
    have hne : data ≠ [] := by intro h; simp [h] at h0
    have hk : data.length ≤ 64 - a % 64 := by omega
    have e1 : data.take (64 - a % 64) = data := List.take_of_length_le hk
    have e2 : data.drop (64 - a % 64) = [] := List.drop_of_length_le hk
    rw [show data.length / 64 + 2 = (data.length / 64) + 1 + 1 from rfl]
    simp [pieces, hne, e1, e2]
  unfold State.ordWrite State.writeMem
  rw [hh]
  simp only [hpc, List.foldl_cons, List.foldl_nil, hp]
  have hwt : (s.touch a data.length).mem.wf = true := by
    have e1 := ht.bytes
    have e2 := ht.syn
    have e3 : (s.touch a data.length).mem.lostX = s.mem.lostX := by have := congrArg (fun t => t.mem.lostX) ht; exact this
    unfold MemSt.wf at *
    rw [e1, e2, e3]; exact hw
  rw [State.writePiece_byte hwt (by rw [ht.dead]; exact hd) (by rw [ht.check]; exact hc)
    (by rw [State.rd_touch _ _ _ _ (by decide) (by decide)]; exact hf)]
  have : (s.touch a data.length).mem.byte x = s.mem.byte x := by unfold MemSt.byte; rw [ht.bytes]
  rw [this]

/-! ## What a write leaves -/

/-- What holds before a fold and is kept by each of its steps holds after it. -/
theorem foldl_keeps {α β : Type} {f : β → α → β} {P : β → Prop} (h : ∀ b a, P b → P (f b a)) (l : List α) {b : β} (hb : P b) :
    P (l.foldl f b) := by
  induction l generalizing b with
  | nil => exact hb
  | cons a t ih => exact ih (h b a hb)

theorem MemoryOnly.refl (s : State) : MemoryOnly s s := rfl

theorem MemoryOnly.trans {s t u : State} (h : MemoryOnly s t) (g : MemoryOnly t u) : MemoryOnly s u := by
  unfold MemoryOnly at *
  rw [← h, ← g]

theorem ReadsOnly.memoryOnly {s u : State} (h : ReadsOnly s u) : MemoryOnly s u := by
  unfold ReadsOnly MemoryOnly at *
  rw [← h]

theorem MemoryOnly.flipBlock (s : State) (b : Nat) : MemoryOnly s (s.flipBlock b) := by
  unfold State.flipBlock
  simp only []
  split
  · split
    · rfl
    · rfl
  · split
    · rfl
    · rfl
  · split
    · rfl
    · rfl

theorem MemoryOnly.writePiece (s : State) (source p : Nat) (d : List Byte) : MemoryOnly s (s.writePiece source p d) := by
  unfold State.writePiece
  simp only []
  split
  · rfl
  · split
    · refine MemoryOnly.trans ?_ (MemoryOnly.flipBlock _ _)
      rfl
    · refine MemoryOnly.trans ?_ (MemoryOnly.flipBlock _ _)
      refine MemoryOnly.trans (ReadsOnly.memEvent s source (p / 64) (s.mem.check (p / 64))).memoryOnly ?_
      rfl

/-- A write changes nothing but the memories and what its accesses count, log and wake. -/
theorem MemoryOnly.writeMem (s : State) (source a : Nat) (d : List Byte) : MemoryOnly s (s.writeMem source a d) := by
  unfold State.writeMem
  refine foldl_keeps (P := MemoryOnly s) (fun u e hu => ?_) _ (ReadsOnly.touch s _ _).memoryOnly
  split
  · exact hu.trans (MemoryOnly.writePiece u _ _ _)
  · exact hu

theorem MemoryOnly.fil {s u : State} (h : MemoryOnly s u) : u.fil = s.fil := by have := congrArg State.fil h; exact this
theorem MemoryOnly.host {s u : State} (h : MemoryOnly s u) : u.host = s.host := by have := congrArg State.host h; exact this
theorem MemoryOnly.wnz {s u : State} (h : MemoryOnly s u) : u.wnz = s.wnz := by have := congrArg State.wnz h; exact this

/-- An ordinary write leaves everything but the memories, what waits at the interlock, and what its accesses count, log and wake. -/
theorem MemoryOnly.ordWrite (s : State) (a : Nat) (d : List Byte) (whose : HeldFor) :
    MemoryOnly s { s.ordWrite a d whose with wnz := s.wnz } := by
  have done (u : State) (x : Nat) (e : List Byte) (h : MemoryOnly s { u with wnz := s.wnz }) :
      MemoryOnly s { u.writeMem 0 x e with wnz := s.wnz } := by
    have g := MemoryOnly.writeMem u 0 x e
    generalize u.writeMem 0 x e = w at *
    have k := congrArg (fun v : State => { v with wnz := s.wnz }) g
    exact h.trans k
  unfold State.ordWrite
  split
  · refine foldl_keeps (P := fun u : State => MemoryOnly s { u with wnz := s.wnz }) (fun u e hu => ?_) _ ?_
    · unfold State.ordPiece
      split
      · exact hu
      · exact done u _ _ hu
    · unfold State.countHold
      refine foldl_keeps (P := fun u : State => MemoryOnly s { u with wnz := s.wnz }) (fun u e hu => ?_) _ rfl
      exact hu.trans rfl
  · exact done s _ _ rfl

theorem State.ordWrite_fil (s : State) (a : Nat) (d : List Byte) (whose : HeldFor) : (s.ordWrite a d whose).fil = s.fil :=
  (MemoryOnly.ordWrite s a d whose).fil

/-! ## The canonical form -/

theorem MemSt.wf_iff (m : MemSt) :
    m.wf = true ↔ kvWf 0#8 m.bytes = true ∧ kvWf 0#48 m.syn = true ∧ kvWf false m.lostX = true := by
  simp [MemSt.wf, and_assoc]

theorem MemSt.setByte_wf {m : MemSt} (p : Nat) (b : Byte) (h : m.wf = true) : (m.setByte p b).wf = true := by
  rw [MemSt.wf_iff] at *
  exact ⟨kvSet_wf h.1, h.2⟩

theorem MemSt.setBytes_wf {m : MemSt} (p : Nat) (l : List Byte) (h : m.wf = true) : (m.setBytes p l).wf = true := by
  rw [MemSt.wf_iff] at *
  exact ⟨kvPut_wf h.1, h.2⟩

theorem MemSt.setLost_wf {m : MemSt} (b : Nat) (v : Bool) (h : m.wf = true) : (m.setLost b v).wf = true := by
  rw [MemSt.wf_iff] at *
  exact ⟨h.1, h.2.1, kvSet_wf h.2.2⟩

end Sys2Proof.Machine
end

