-- ==== Sys2Proof/Laws/Tiles.lean ====
section
/-! SUPPORT. What the release of a tile or of a handle changes: tiles with their homes, moves and expansions, and of the strands the one
register of the one strand. -/
namespace Sys2Proof.Machine

theorem TilesOnly.refl (s : State) : TilesOnly s s := rfl

theorem TilesOnly.trans {s u v : State} (h : TilesOnly s u) (h' : TilesOnly u v) : TilesOnly s v := by
  unfold TilesOnly at *
  rw [← h, ← h']

theorem TilesOnly.strands {s u : State} (h : TilesOnly s u) : u.fil.strands = s.fil.strands := by
  unfold TilesOnly at h
  have e := congrArg (fun x : State => x.fil.strands) h
  exact e
theorem TilesOnly.mem {s u : State} (h : TilesOnly s u) : u.mem = s.mem := by
  unfold TilesOnly at h
  have e := congrArg (fun x : State => x.mem) h
  exact e

theorem TilesOnly.modStrand {s u : State} (h : TilesOnly s u) (id : Nat) (f : Strand → Strand) :
    TilesOnly (s.modStrand id f) (u.modStrand id f) := by
  unfold State.modStrand
  rw [h.strands]
  exact congrArg (fun x : State => { x with fil := { x.fil with strands := updWhere (·.id == id) f s.fil.strands } }) (show _ = s from h)

theorem TilesOnly.fold {α : Type} {f : State → α → State} (hf : ∀ s a, TilesOnly s (f s a)) :
    ∀ (l : List α) (s : State), TilesOnly s (l.foldl f s)
  | [], s => .refl s
  | a :: l, s => (hf s a).trans (TilesOnly.fold hf l (f s a))

theorem TilesOnly.abandonMoves (s : State) (tile : Nat) : TilesOnly s (s.abandonMoves tile) :=
  TilesOnly.fold (f := State.abandonMove) (fun _ _ => rfl) _ _

theorem TilesOnly.removeTile (s : State) (tile : Nat) : TilesOnly s (s.removeTile tile) := by
  unfold State.removeTile
  split
  · rfl
  · exact (TilesOnly.abandonMoves s tile).trans rfl

theorem TilesOnly.settle (s : State) (tile : Nat) : TilesOnly s (s.settle tile) := by
  unfold State.settle
  split
  · rfl
  · split
    · exact .removeTile s tile
    · rfl

theorem TilesOnly.closeExpansion (s : State) (strand reg : Nat) : TilesOnly s (s.closeExpansion strand reg) := by
  unfold State.closeExpansion
  exact (TilesOnly.fold (f := fun (s : State) (e : Expansion) => s.dropAlloc fun k => k == .expansion e.tile) (fun _ _ => rfl) _ s).trans (show TilesOnly _ _ from rfl)

/-- A handle bound: the one register of the strand, and what tiles it changes. -/
theorem State.bindHandle_does (s : State) (strand reg : Nat) (tile : Option Nat) {t : Strand} (h : s.anyStrand? strand = some t) :
    TilesOnly (s.modStrand strand fun u => u.setT reg tile) (s.bindHandle strand reg tile) := by
  have h1 : TilesOnly (s.modStrand strand fun u => u.setT reg tile)
      ((s.closeExpansion strand reg).modStrand strand fun u => u.setT reg tile) :=
    (TilesOnly.closeExpansion s strand reg).modStrand strand _
  unfold State.bindHandle
  rw [h]
  simp only []
  split
  · split
    · exact h1
    · exact h1.trans (.settle _ _)
  · exact h1

theorem Strand.getT_setT_other (t : Strand) {n m : Nat} (v : Option Nat) (h : m ≠ n) : (t.setT n v).getT m = t.getT m :=
  kvGet_kvSet_other (Ne.symm h)

/-- A strand's handles of a list of registers released. -/
theorem State.releaseList (strand : Nat) (l : List Nat) : ∀ s : State, (s.anyStrand? strand).isSome = true →
    ∃ g : Strand → Strand, (∀ u, (g u).id = u.id ∧ (g u).ended = u.ended ∧ g u = { u with t := (g u).t, stored := (g u).stored } ∧
        (∀ r ∈ l, (g u).getT r = none) ∧ ∀ r, u.getT r = none → (g u).getT r = none) ∧
      TilesOnly (s.modStrand strand g) (l.foldl (fun s r => s.bindHandle strand r none) s) := by
  induction l with
  | nil =>
    intro s _
    refine ⟨id, fun u => ⟨rfl, rfl, rfl, by simp, fun _ h => h⟩, ?_⟩
    unfold State.modStrand updWhere TilesOnly
    simp
  | cons r l ih =>
    intro s hs
    obtain ⟨t, ht⟩ := Option.isSome_iff_exists.1 hs
    have hb := s.bindHandle_does strand r none ht
    have hstr := hb.strands
    have hs' : ((s.bindHandle strand r none).anyStrand? strand).isSome = true := by
      have e : (s.bindHandle strand r none).anyStrand? strand = (s.modStrand strand fun u => u.setT r none).anyStrand? strand := by
        unfold State.anyStrand? State.strand?
        rw [hstr]
      rw [e]
      unfold State.anyStrand? State.strand? State.modStrand at *
      simp only
      rw [find_updWhere, find_updWhere]
      · revert hs
        cases h1 : s.fil.strands.find? (fun t => t.id == strand && !t.ended) <;> simp
      · intro a; split <;> simp_all [Strand.setT]
      · intro a; split <;> simp_all [Strand.setT]
    obtain ⟨g, hg, hgo⟩ := ih _ hs'
    refine ⟨fun u => g (u.setT r none), fun u => ?_, ?_⟩
    · obtain ⟨a, b, c, d, e⟩ := hg (u.setT r none)
      refine ⟨a, b, by unfold Strand.setT at c ⊢; exact c, fun q hq => ?_, fun q hq => ?_⟩
      · rcases List.mem_cons.1 hq with rfl | hq
        · exact e _ (u.getT_setT _ _)
        · exact d q hq
      · by_cases h : q = r
        · subst h; exact e _ (u.getT_setT _ _)
        · exact e _ (by rw [u.getT_setT_other _ h]; exact hq)
    · refine TilesOnly.trans ?_ hgo
      rw [← State.modStrand_modStrand s strand (fun u => u.setT r none) g (fun _ => rfl)]
      exact hb.modStrand strand g

end Sys2Proof.Machine
end

