-- ==== Sys2Proof/Laws/Writes.lean ====
section
/-! SUPPORT. What a write of a whole range does: the bytes of the range are those written, and no other byte of memory changes. -/
namespace Sys2Proof.Machine

/-! ## Addresses -/

/-- Where a byte of memory lies: named through the spread view, or by its own address. -/
theorem physOf_cases {a p : Nat} (h : physOf a = some p) :
    (a < 0x30000000000 ∧ p = 0x100000000000 + a / 4096 % 24 * 0x2000000000 + (a / 4096 / 24 * 4096 + a % 4096)) ∨
    (0x100000000000 ≤ a ∧ p = a) := by
  unfold physOf at h
  split at h
  · rename_i t o e
    unfold locate at e
    split at e
    · rename_i h1
      simp only [Loc.stack.injEq] at e
      obtain ⟨rfl, rfl⟩ := e
      refine .inl ⟨h1, ?_⟩
      simp only [Option.some.injEq] at h
      rw [← h]; rfl
    · split at e
      · rename_i h1 h2
        simp only [Loc.stack.injEq] at e
        obtain ⟨rfl, rfl⟩ := e
        refine .inr ⟨?_, ?_⟩
        · exact h2.1
        · simp only [Option.some.injEq] at h
          unfold stackAddr stackView stackLen at *
          omega
      · split at e
        · split at e <;> simp at e
        · split at e <;> simp at e
  · rename_i c o e
    unfold locate at e
    split at e
    · simp at e
    · split at e
      · simp at e
      · split at e
        · rename_i h2
          split at e
          · simp only [Loc.crew.injEq] at e
            obtain ⟨rfl, rfl⟩ := e
            simp only [Option.some.injEq] at h
            unfold crewAddr crewBase crewWindow at *
            exact .inr ⟨by omega, by omega⟩
          · simp at e
        · split at e <;> simp at e
  · simp at h

/-- Two addresses of one stretch of memory name different bytes. -/
theorem physOf_inj {a b p : Nat} (ha : physOf a = some p) (hb : physOf b = some p) (hle : a ≤ b)
    (hm : ∀ y, a ≤ y → y ≤ b → (physOf y).isSome = true) : a = b := by
  have hgap : ¬ (a < 0x30000000000 ∧ 0x30000000000 ≤ b) := by
    rintro ⟨h1, h2⟩
    have h3 := hm 0x30000000000 (by omega) h2
    have h4 : (physOf 0x30000000000).isSome = false := by decide
    rw [h4] at h3
    simp at h3
  rcases physOf_cases ha with ⟨h1, h2⟩ | ⟨h1, h2⟩ <;> rcases physOf_cases hb with ⟨h3, h4⟩ | ⟨h3, h4⟩ <;> omega

theorem physOf_spread {a : Nat} (h : a < 0x30000000000) :
    physOf a = some (0x100000000000 + a / 4096 % 24 * 0x2000000000 + (a / 4096 / 24 * 4096 + a % 4096)) := by
  unfold physOf locate
  rw [if_pos h]
  rfl

theorem physOf_stack {a : Nat} (h : 0x100000000000 ≤ a) (h' : a < 0x100000000000 + 24 * 0x2000000000) : physOf a = some a := by
  unfold physOf locate
  rw [if_neg (by omega), if_pos (show stackView ≤ a ∧ a < stackView + 24 * stackLen from ⟨h, h'⟩)]
  simp only [stackAddr, Option.some.injEq]
  unfold stackView stackLen
  omega

theorem physOf_crew {y : Nat} (h : y < 16 * crewWindow) (h' : y % crewWindow < crewLen) : physOf (crewBase + y) = some (crewBase + y) := by
  unfold physOf
  rw [locate_crew h h']
  simp only [crewAddr, Option.some.injEq]
  unfold crewWindow
  omega

/-- Consecutive bytes of one block are consecutive in memory. -/
theorem physOf_add {a p i : Nat} (h : physOf a = some p) (hi : a % 64 + i < 64) : physOf (a + i) = some (p + i) := by
  rcases physOf_cases h with ⟨h1, h2⟩ | ⟨h1, rfl⟩
  · rw [physOf_spread (by omega), h2, Option.some.injEq]
    omega
  · by_cases h3 : p < 0x100000000000 + 24 * 0x2000000000
    · exact physOf_stack (by omega) (by omega)
    · unfold physOf locate at h
      rw [if_neg (by omega), if_neg (by unfold stackView stackLen; omega)] at h
      by_cases h4 : crewBase ≤ p ∧ p < crewBase + 16 * crewWindow
      · rw [if_pos h4] at h
        obtain ⟨y, rfl⟩ := Nat.exists_eq_add_of_le h4.1
        rw [Nat.add_sub_cancel_left] at h
        have hl : crewLen = 50331648 := by decide
        by_cases h5 : y % crewWindow < crewLen
        · rw [Nat.add_assoc]
          unfold crewBase crewWindow at *
          exact physOf_crew (by unfold crewWindow; omega) (by unfold crewWindow; omega)
        · rw [if_neg h5] at h; simp at h
      · rw [if_neg h4] at h
        split at h
        · rename_i e; split at e <;> simp at e
        · rename_i e; split at e <;> simp at e
        · simp at h

/-! ## One piece -/

/-- A state in which writes go through to the byte: the memory in its canonical form, and the flip mask not armed. -/
structure Calm (s : State) : Prop where
  wf : s.mem.wf = true
  disarmed : s.rd F.memFlipCtrl_arm = 0

theorem Calm.touch {s : State} (h : Calm s) (a n : Nat) : Calm (s.touch a n) := by
  have ht := ReadsOnly.touch s a n
  refine ⟨?_, ?_⟩
  · have e3 : (s.touch a n).mem.lostX = s.mem.lostX := by have := congrArg (fun t => t.mem.lostX) ht; exact this
    have := h.wf
    unfold MemSt.wf at *
    rw [ht.bytes, ht.syn, e3]; exact this
  · rw [State.rd_touch _ _ _ _ (by decide) (by decide)]; exact h.disarmed

theorem byteAt_touch (s : State) (a n x : Nat) : (s.touch a n).mem.byte x = s.mem.byte x := by
  unfold MemSt.byte; rw [(ReadsOnly.touch s a n).bytes]

/-- The memory after a piece is written to a clean block. -/
theorem State.writePiece_mem {s : State} {source p : Nat} {data : List Byte} (h : Calm s)
    (hd : s.mem.dead (p / 64) = false) (hc : s.mem.check (p / 64) = .clean) :
    ∃ m : MemSt, s.writePiece source p data = { s with mem := m } ∧ m.wf = true ∧ m.lostCh = s.mem.lostCh ∧ m.deadCh = s.mem.deadCh ∧
      (m.lostX = s.mem.lostX ∨ m = { m with lostX := (s.mem.setLost (p / 64) false).lostX }) ∧
      m.syn = kvSet 0#48 s.mem.syn (p / 64) 0#48 := by
  have hw := (MemSt.wf_iff _).1 h.wf
  unfold State.writePiece
  simp only [hd, hc, Bool.false_eq_true, if_false]
  split
  · rw [State.flipBlock_off (by exact h.disarmed)]
    refine ⟨_, rfl, (MemSt.wf_iff _).2 ⟨kvPut_wf hw.1, kvSet_wf hw.2.1, kvSet_wf hw.2.2⟩, rfl, rfl, .inr rfl, rfl⟩
  · rw [State.flipBlock_off (by exact h.disarmed)]
    refine ⟨_, rfl, (MemSt.wf_iff _).2 ⟨kvPut_wf (kvPut_wf hw.1), kvSet_wf hw.2.1, hw.2.2⟩, rfl, rfl, .inl rfl, rfl⟩

theorem check_clean_iff (m : MemSt) (b : Nat) :
    m.check b = .clean ↔ m.dead b = false ∧ m.lost b = false ∧ checkOf (kvGet 0#48 m.syn b) = .clean := by
  unfold MemSt.check
  cases m.dead b <;> cases m.lost b <;> simp

/-- A piece written to a clean block: what stays. -/
theorem State.writePiece_keeps {s : State} {source p : Nat} {data : List Byte} (h : Calm s)
    (hd : s.mem.dead (p / 64) = false) (hc : s.mem.check (p / 64) = .clean) :
    Calm (s.writePiece source p data) ∧ (∀ b, (s.writePiece source p data).mem.dead b = s.mem.dead b) ∧
    (∀ b, s.mem.check b = .clean → (s.writePiece source p data).mem.check b = .clean) ∧
    { s.writePiece source p data with mem := s.mem } = s := by
  obtain ⟨m, e, h1, h2, h3, h4, h5⟩ := State.writePiece_mem (source := source) (data := data) h hd hc
  rw [e]
  have hdead : ∀ b, m.dead b = s.mem.dead b := by intro b; unfold MemSt.dead; rw [h3]
  refine ⟨⟨h1, h.disarmed⟩, hdead, fun b hb => ?_, rfl⟩
  show m.check b = .clean
  rw [check_clean_iff] at hb hc ⊢
  refine ⟨by rw [hdead]; exact hb.1, ?_, ?_⟩
  · rcases h4 with h4 | h4
    · unfold MemSt.lost at *
      rw [h2, h4]; exact hb.2.1
    · have h6 : m.lostX = (s.mem.setLost (p / 64) false).lostX := by rw [h4]
      unfold MemSt.lost at *
      rw [h2, h6]
      unfold MemSt.setLost
      by_cases hbp : b = p / 64
      · subst hbp
        simp only [kvGet_kvSet_same]
        simp
      · simp only
        rw [kvGet_kvSet_other (Ne.symm hbp)]
        exact hb.2.1
  · rw [h5]
    by_cases hbp : b = p / 64
    · subst hbp
      rw [kvGet_kvSet_same]; decide
    · rw [kvGet_kvSet_other (Ne.symm hbp)]
      exact hb.2.2

/-! ## A range -/

theorem blocksOf_mem {a n i p : Nat} (hi : i < n) (hp : physOf (a + i) = some p) : p / 64 ∈ blocksOf a n := by
  obtain ⟨h1, h2⟩ := physOf_block hp
  unfold blocksOf
  rw [if_neg (by omega), List.mem_filterMap]
  refine ⟨(a + i) / 64 - a / 64, ?_, ?_⟩
  · rw [List.mem_range]; omega
  · rw [show (a / 64 + ((a + i) / 64 - a / 64)) * 64 = (a + i) / 64 * 64 from by omega, h1]
    simp

/-- One write of a state in order, and what is so far as the claims say it. -/
theorem State.writePieces_stores (source : Nat) (k : Nat) : ∀ (s : State) (a : Nat) (data : List Byte), Calm s →
    a % 64 + data.length ≤ 64 * k →
    (∀ i < data.length, ∃ p, physOf (a + i) = some p ∧ s.mem.dead (p / 64) = false ∧ s.mem.check (p / 64) = .clean) →
    let u := (pieces k a data).foldl (fun s e => match physOf e.1 with
      | some p => s.writePiece source p e.2
      | none => s) s
    Calm u ∧ Stores s u a data ∧ (∀ b, u.mem.dead b = s.mem.dead b) ∧ (∀ b, s.mem.check b = .clean → u.mem.check b = .clean) ∧
      { u with mem := s.mem } = s := by
  induction k with
  | zero =>
    intro s a data h hk _
    have : data = [] := List.eq_nil_of_length_eq_zero (by omega)
    subst this
    exact ⟨h, ⟨by simp, fun _ _ => rfl⟩, fun _ => rfl, fun _ hb => hb, rfl⟩
  | succ k ih =>
    intro s a data h hk hm
    by_cases hne : data = []
    · subst hne
      exact ⟨h, ⟨by simp, fun _ _ => rfl⟩, fun _ => rfl, fun _ hb => hb, rfl⟩
    have hpos : 0 < data.length := List.length_pos_of_ne_nil hne
    obtain ⟨p, hp, hd, hc⟩ := hm 0 hpos
    rw [Nat.add_zero] at hp
    have e : pieces (k + 1) a data = (a, data.take (64 - a % 64)) :: pieces k (a + (64 - a % 64)) (data.drop (64 - a % 64)) := by
      simp [pieces, hne]
    intro u
    obtain ⟨h1, h2, h3, h4⟩ := State.writePiece_keeps (source := source) (data := data.take (64 - a % 64)) h hd hc
    have hb := fun x => State.writePiece_byte (source := source) (x := x) (data := data.take (64 - a % 64)) h.wf hd hc h.disarmed
    obtain ⟨g1, g2, g3, g4, g5⟩ := ih (s.writePiece source p (data.take (64 - a % 64))) (a + (64 - a % 64)) (data.drop (64 - a % 64)) h1
      (by rw [List.length_drop]; omega)
      (by
        intro i hi
        rw [List.length_drop] at hi
        obtain ⟨q, hq, hqd, hqc⟩ := hm (64 - a % 64 + i) (by omega)
        exact ⟨q, by rw [Nat.add_assoc]; exact hq, by rw [h2]; exact hqd, h3 _ hqc⟩)
    have eu : u = (pieces k (a + (64 - a % 64)) (data.drop (64 - a % 64))).foldl (fun s e => match physOf e.1 with
      | some p => s.writePiece source p e.2
      | none => s) (s.writePiece source p (data.take (64 - a % 64))) := by
      show (pieces (k + 1) a data).foldl _ s = _
      rw [e, List.foldl_cons, hp]
    rw [← eu] at g1 g2 g3 g4 g5
    refine ⟨g1, ⟨fun i hi => ?_, fun x hx => ?_⟩, fun b => by rw [g3, h2], fun b hb => g4 b (h3 b hb), ?_⟩
    · by_cases hik : i < 64 - a % 64
      · have hpi : physOf (a + i) = some (p + i) := physOf_add hp (by omega)
        unfold State.byteAt
        rw [hpi]
        show u.mem.byte (p + i) = _
        rw [g2.2 (p + i), hb]
        · have hin : p ≤ p + i ∧ p + i < p + (data.take (64 - a % 64)).length := ⟨by omega, by rw [List.length_take]; omega⟩
          rw [dif_pos hin]
          simp only [Nat.add_sub_cancel_left, List.getElem_take]
          rw [List.getD_eq_getElem?_getD, List.getElem?_eq_getElem hi]
          rfl
        · intro m hmm hcontra
          rw [List.length_drop] at hmm
          have hinj := physOf_inj hpi hcontra (by omega) (by
            intro y hy1 hy2
            obtain ⟨q, hq, _⟩ := hm (y - a) (by omega)
            rw [show a + (y - a) = y from by omega] at hq
            rw [hq]; rfl)
          omega
      · have := g2.1 (i - (64 - a % 64)) (by rw [List.length_drop]; omega)
        rw [show a + (64 - a % 64) + (i - (64 - a % 64)) = a + i from by omega] at this
        rw [this]
        rw [List.getD_eq_getElem?_getD, List.getElem?_drop, List.getD_eq_getElem?_getD]
        congr 2; omega
    · rw [g2.2 x, hb]
      · rw [dif_neg]
        rintro ⟨hx1, hx2⟩
        rw [List.length_take] at hx2
        have := hx (x - p) (by omega)
        rw [physOf_add hp (by omega)] at this
        exact this (by congr 1; omega)
      · intro m hmm
        rw [List.length_drop] at hmm
        have := hx (64 - a % 64 + m) (by omega)
        rw [← Nat.add_assoc] at this
        exact this
    · have := congrArg (fun t : State => { t with mem := s.mem }) g5
      exact this.trans h4

/-- A write of a whole range. -/
theorem State.writeMem_stores {s : State} {source a : Nat} {data : List Byte} (hw : s.mem.wf = true) (h : Writable s a data.length) :
    Calm (s.writeMem source a data) ∧ Stores s (s.writeMem source a data) a data ∧
    (∀ b, (s.writeMem source a data).mem.dead b = s.mem.dead b) ∧
    (∀ b, s.mem.check b = .clean → (s.writeMem source a data).mem.check b = .clean) ∧
    { s.writeMem source a data with mem := (s.touch a data.length).mem } = s.touch a data.length := by
  have ht := ReadsOnly.touch s a data.length
  obtain ⟨h1, h2, h3, h4, h5⟩ := State.writePieces_stores source (data.length / 64 + 2) (s.touch a data.length) a data
    (Calm.touch ⟨hw, h.2.1⟩ _ _) (by omega) (by
      intro i hi
      obtain ⟨p, hp⟩ := Option.isSome_iff_exists.1 (h.1 i hi)
      have := h.2.2 _ (blocksOf_mem hi hp)
      exact ⟨p, hp, by rw [ht.dead]; exact this.1, by rw [ht.check]; exact this.2⟩)
  refine ⟨h1, ⟨h2.1, fun x hx => ?_⟩, fun b => ?_, fun b hb => h4 b (by rw [ht.check]; exact hb), h5⟩
  · exact (h2.2 x hx).trans (byteAt_touch _ _ _ _)
  · exact (h3 b).trans (ht.dead b)

end Sys2Proof.Machine
end

