-- ==== Sys2Proof/Laws/Engine.lean ====
section
/-! SUPPORT. How an instruction's body reads its operand tiles and makes its result tile. -/
namespace Sys2Proof.Machine

/-! ## Reading -/

theorem TileReads.refl (s : State) : TileReads s s := ⟨rfl, fun _ _ => rfl, rfl⟩

theorem TileReads.trans {s u v : State} (h : TileReads s u) (g : TileReads u v) : TileReads s v := by
  obtain ⟨h1, h2, h3⟩ := h
  obtain ⟨g1, g2, g3⟩ := g
  refine ⟨?_, fun off ho => (g2 off ho).trans (h2 off ho), g3.trans h3⟩
  rw [← h1, ← g1]

theorem TileReads.mem {s u : State} (h : TileReads s u) : u.mem = s.mem := by have := congrArg State.mem h.1; exact this
theorem TileReads.expansions {s u : State} (h : TileReads s u) : u.fil.expansions = s.fil.expansions := by
  have := congrArg (fun x : State => x.fil.expansions) h.1; exact this
theorem TileReads.allocs {s u : State} (h : TileReads s u) : u.fil.allocs = s.fil.allocs := by
  have := congrArg (fun x : State => x.fil.allocs) h.1; exact this
theorem TileReads.strands {s u : State} (h : TileReads s u) : u.fil.strands = s.fil.strands := by
  have := congrArg (fun x : State => x.fil.strands) h.1; exact this
theorem TileReads.fun_ {s u : State} (h : TileReads s u) : u.fun_ = s.fun_ := by have := congrArg State.fun_ h.1; exact this
theorem TileReads.nextId {s u : State} (h : TileReads s u) : u.nextId = s.nextId := by have := congrArg State.nextId h.1; exact this
theorem TileReads.tally {s u : State} (h : TileReads s u) : u.tally = s.tally := by have := congrArg State.tally h.1; exact this
theorem TileReads.rd {s u : State} (h : TileReads s u) (f : FieldRef) (hf : f.off ≠ F.cruAtuseCount_count.off) : u.rd f = s.rd f := by
  unfold State.rd; rw [h.2.1 _ hf]

/-- When a tile was read, noted. -/
theorem TileReads.modTile (s : State) (id : Nat) (f : Tile → Tile) (hf : ∀ x, (f x).still = x.still) :
    TileReads s (s.modTile id f) := by
  refine ⟨rfl, fun _ _ => rfl, ?_⟩
  unfold State.modTile updWhere
  simp only [List.map_map]
  refine List.map_congr_left fun x _ => ?_
  simp only [Function.comp_apply]
  split
  · exact hf x
  · rfl

theorem TileReads.tile {s u : State} (h : TileReads s u) (id : Nat) : (u.tile? id).map Tile.still = (s.tile? id).map Tile.still := by
  have key : ∀ l : List Tile, (l.find? (·.id == id)).map Tile.still = (l.map Tile.still).find? (·.id == id) := by
    intro l
    rw [List.find?_map]
    rfl
  unfold State.tile?
  rw [key, key, h.2.2]

theorem TileReads.bump (s : State) (n : Nat) : TileReads s (s.bump F.cruAtuseCount_count n) :=
  ⟨rfl, fun off h => by unfold State.bump; exact State.reg_wr_other s _ _ (Ne.symm h), rfl⟩

theorem TileReads.mark (s : State) (n : Nat) : TileReads s (s.mark n) := by
  unfold State.mark
  split
  · exact .refl s
  · exact ⟨rfl, fun _ _ => rfl, rfl⟩

/-- What a job may use it may use still after tiles were read. -/
theorem MayUse.reads {s u : State} {j : Job} {r : Right} {a n : Nat} (h : MayUse s j r a n) (g : TileReads s u) : MayUse u j r a n := by
  have hidx : u.idx = s.idx := by have := congrArg State.idx g.1; exact this
  have hregion : ∀ a, u.regionHas j.act r a = s.regionHas j.act r a := by
    intro a
    have e : ∀ f : FieldRef, f.off ≠ F.cruAtuseCount_count.off → u.rd f = s.rd f := fun f hf => g.rd f hf
    have any_same : ∀ (f g : Nat → Bool), (∀ n < 32, f n = g n) → (List.range 32).any f = (List.range 32).any g := by
      intro f g h
      rw [Bool.eq_iff_iff, List.any_eq_true, List.any_eq_true]
      constructor
      · rintro ⟨n, hn, hf⟩; exact ⟨n, hn, by rw [← h n (by simpa using hn)]; exact hf⟩
      · rintro ⟨n, hn, hf⟩; exact ⟨n, hn, by rw [h n (by simpa using hn)]; exact hf⟩
    unfold State.regionHas State.regionAt State.on
    refine any_same _ _ fun n hn => ?_
    rw [e (F.actRegionBaseLo_base j.act n) (by unfold F.actRegionBaseLo_base F.cruAtuseCount_count; simp only; omega),
      e (F.actRegionBaseHi_base j.act n) (by unfold F.actRegionBaseHi_base F.cruAtuseCount_count; simp only; omega),
      e (F.actRegionSize_pages j.act n) (by unfold F.actRegionSize_pages F.cruAtuseCount_count; simp only; omega),
      e (F.actRegionAttr_read j.act n) (by unfold F.actRegionAttr_read F.cruAtuseCount_count; simp only; omega),
      e (F.actRegionAttr_write j.act n) (by unfold F.actRegionAttr_write F.cruAtuseCount_count; simp only; omega),
      e (F.actRegionAttr_winze j.act n) (by unfold F.actRegionAttr_winze F.cruAtuseCount_count; simp only; omega)]
  intro x h1 h2
  obtain ⟨p, hp, hm⟩ := h x h1 h2
  refine ⟨p, hp, ?_⟩
  unfold State.mayAccess State.grants State.guarded State.inPool State.regionGrants at *
  rw [g.allocs, g.strands, hidx, g.rd F.memPool_gib (by decide)]
  simp only [hregion]
  exact hm

/-- What can be read at its home is there still after other tiles were read. -/
theorem AtHome.mono {s u : State} {t : Strand} {reg : Nat} {x : Tile} {v : TileVal} (h : AtHome s t reg x v) (g : TileReads s u) :
    AtHome u t reg x v := by
  have hr : (u.readMem 0 x.home x.len).1 = (s.readMem 0 x.home x.len).1 := by
    unfold State.readMem
    rw [h.memory, g.mem]
    rfl
  refine ⟨by rw [g.expansions]; exact h.direct, h.memory, by rw [g.mem]; exact h.clean,
    by rw [g.rd _ (by decide)]; exact h.awake, by rw [g.fun_]; exact h.whole, ?_, h.crc⟩
  rw [hr]; exact h.value

theorem readMem_quiet {s : State} {a n : Nat} (hm : isRegister a = false) (hc : ∀ b ∈ blocksOf a n, s.mem.check b = .clean)
    (hp : s.rd F.pwrStackState_inP3 = 0) : s.readMem 0 a n = ((s.readMem 0 a n).1, false, s) := by
  have e1 : (blocksOf a n).any (fun b => s.mem.check b == .uncorrectable) = false := by
    rw [List.any_eq_false]
    intro b hb
    rw [hc b hb]; decide
  have e2 : ∀ l : List Nat, (∀ b ∈ l, s.mem.check b = .clean) → l.foldl (fun u b => u.memEvent 0 b (u.mem.check b)) s = s := by
    intro l
    induction l with
    | nil => intro _; rfl
    | cons b l ih =>
      intro h
      rw [List.foldl_cons, h b (by simp)]
      exact ih fun c hcm => h c (by simp [hcm])
  have e3 : s.touch a n = s := by unfold State.touch; rw [if_pos hp]
  unfold State.readMem
  simp only [hm, Bool.false_eq_true, if_false]
  rw [if_neg (show ¬ ((0 : Nat) = 2) by decide), e3]
  rw [show (blocksOf a n).foldl (fun s b => s.memEvent 0 b (s.mem.check b)) s = s from e2 _ hc, e1]

/-- A tile's home read at use. -/
theorem readHome_run {s : State} {t : Strand} {reg : Nat} {x : Tile} {v : TileVal} (j : Job) (h : AtHome s t reg x v) :
    ∃ raw, v = x.val raw ∧ (readHome j x).run s = .ok raw s := by
  obtain ⟨raw, hv, hraw⟩ := h.value
  refine ⟨raw, hv, ?_⟩
  have hq := readMem_quiet h.memory h.clean h.awake
  have e : s.homeVia 2 x.home x.len x.packed = (.inr raw, s) := by
    unfold State.homeVia State.spoilt State.homeRaw
    rw [h.whole]
    cases hpk : x.packed with
    | false =>
      rw [hpk] at hraw
      simp only [Bool.false_eq_true, if_false] at hraw ⊢
      rw [hq, hraw]; rfl
    | true =>
      rw [hpk] at hraw
      simp only [if_true] at hraw
      simp only [if_true, List.find?_nil]
      rw [hq]
      simp only [hraw]
      rfl
  unfold readHome
  rw [M.run_bind_ok (M.run_updGet _ _), e]
  rfl

/-- The tile of a handle, found and accepted. -/
theorem tileAt_run {s : State} {t : Strand} {reg : Nat} {x : Tile} (ok : Tile → Bool) (h : t.getT reg = some x.id)
    (ht : s.tile? x.id = some x) (hok : ok x = true) : (tileAt t reg ok).run s = .ok x s := by
  unfold tileAt
  rw [orFault_pure _ _ h, M.bind_pure, M.run_bind_ok (M.run_get s), orFault_pure _ _ ht, M.bind_pure, need_pure _ _ hok]
  rfl

theorem TileReads.hewReadOf {s : State} {t : Strand} {x : Tile} (h : x.pooled = false ∨ x.pref = 2 ∨
    ∀ e ∈ x.hewRead, e.1 = t.crew → e.2 + 256 < s.tally.beat) : TileReads s (s.hewReadOf x t.crew) := by
  have hm := TileReads.modTile s x.id (fun u => { u with hewRead := (t.crew, s.now) :: u.hewRead.filter (·.1 != t.crew) }) (fun _ => rfl)
  unfold State.hewReadOf
  split
  · exact .refl s
  · simp only
    split
    · rename_i hp hc
      simp only [Bool.and_eq_true, List.any_eq_true, beq_iff_eq, decide_eq_true_eq, bne_iff_ne] at hc
      obtain ⟨⟨⟨e, he, h1, h2⟩, h3⟩, _⟩ := hc
      rcases h with h | h | h
      · simp [h] at hp
      · exact absurd h h3
      · have h2' : s.tally.beat ≤ e.2 + 256 := h2
        have := h e he h1
        omega
    · exact hm

/-- A tile read at use. -/
theorem useTile_run {s : State} {t : Strand} {j : Job} {reg : Nat} {x : Tile} {v : TileVal} (hew : Bool) (h : AtHome s t reg x v)
    (hp : hew = true → NotPromoted s t x) : ∃ u, (useTile t j reg x hew).run s = .ok v u ∧ TileReads s u := by
  have hex : (s.fil.expansions.find? fun e => e.tile == x.id && e.handles.contains (t.id, reg)) = none := by
    rw [List.find?_eq_none]
    intro e he
    simp only [Bool.and_eq_true, beq_iff_eq, List.contains_eq_mem, decide_eq_true_eq, not_and]
    exact h.direct e he
  have h1 : TileReads s (s.modTile x.id fun u => { u with lastRead := s.now }) := .modTile s _ _ (fun _ => rfl)
  generalize hs1 : (s.modTile x.id fun u => { u with lastRead := s.now }) = s1 at h1
  unfold useTile
  rw [M.run_bind_ok (M.run_get s)]
  dsimp only
  rw [M.run_bind_ok (M.run_upd _ _), hs1, hex]
  have last {u : State} (hu : TileReads s u) : ∃ w, (do
      let raw ← readHome j x
      need ((x.val raw).crc == x.crc) cTileCheck
      pure (x.val raw) : M TileVal).run u = .ok v w ∧ TileReads s w := by
    obtain ⟨raw, hv, hr⟩ := readHome_run j (h.mono hu)
    refine ⟨u, ?_, hu⟩
    rw [M.run_bind_ok hr, need_pure _ _ (by rw [← hv, h.crc]; simp), M.bind_pure, hv]
    rfl
  cases hew with
  | false => exact last h1
  | true =>
    have step {u : State} (hu : TileReads s u) : TileReads s (u.hewReadOf x t.crew) :=
      hu.trans (.hewReadOf (by rw [hu.tally]; exact hp rfl))
    cases hpk : x.packed with
    | false => exact last (step h1)
    | true => exact last (step (h1.trans (.bump s1 1)))

/-! ## The result -/

theorem rd_crewQuota {s u : State} (h : TileReads s u) (act : Nat) : u.rd (F.memQCrew_kib act) = s.rd (F.memQCrew_kib act) := by
  refine h.rd _ ?_
  unfold F.memQCrew_kib F.cruAtuseCount_count
  simp only
  omega

theorem allocCrew_reads {s u : State} (act crew len : Nat) (k : AllocKind) (ha : u.fil.allocs = s.fil.allocs)
    (hr : u.rd (F.memQCrew_kib act) = s.rd (F.memQCrew_kib act)) :
    (u.allocCrew act crew len k).1 = (s.allocCrew act crew len k).1 ∧
    (u.allocCrew act crew len k).2.fil.allocs = (s.allocCrew act crew len k).2.fil.allocs := by
  unfold State.allocCrew State.crewUse
  rw [ha, hr]
  simp only
  split
  · exact ⟨rfl, ha⟩
  · split
    · refine ⟨rfl, ?_⟩
      unfold State.addAlloc
      simp only [ha]
    · exact ⟨rfl, ha⟩

/-- An allocation changes the allocations alone. -/
theorem allocCrew_only (s : State) (act crew len : Nat) (k : AllocKind) :
    { (s.allocCrew act crew len k).2 with fil := { (s.allocCrew act crew len k).2.fil with allocs := s.fil.allocs } } = s := by
  unfold State.allocCrew State.addAlloc
  simp only
  split
  · rfl
  · split <;> rfl

/-- No demotion while the act and the store have room (R293). -/
theorem tierManage_quiet {s : State} {act crew : Nat} (hq : s.crewUse act + 2 ^ 20 ≤ s.rd (F.memQCrew_kib act) * 1024)
    (hs : allocSum (fun _ => true) (allocsIn (crewAddr crew 0) (crewAddr crew crewLen) s.fil.allocs) + 2 ^ 20 ≤ crewLen) :
    s.tierManage act crew = s := by
  have e : s.shortOfCrew act crew = false := by
    unfold State.shortOfCrew
    simp only [decide_eq_false_iff_not, Nat.not_lt]
    have : 2 ^ 20 ≤ min (s.rd (F.memQCrew_kib act) * 1024 - s.crewUse act)
      (crewLen - allocSum (fun _ => true) (allocsIn (crewAddr crew 0) (crewAddr crew crewLen) s.fil.allocs)) := by
      rw [Nat.le_min]; omega
    omega
  unfold State.tierManage
  cases s.demotable act crew with
  | nil => rfl
  | cons t l => unfold State.demote; rw [e]; rfl

/-- The record of a new tile in a crew store. -/
def tileOf (s : State) (j : Job) (v : TileVal) (a : Nat) : Tile :=
  ⟨s.nextId, j.act, [], v.fmt, v.shape, false, v.tscale, v.bs, v.axis, v.scales, v.crc, a, v.data.length, 0, v.info, s.tally.beat, [],
    false⟩

theorem allocCrew_kind (s : State) (act crew len : Nat) (k k' : AllocKind) :
    (s.allocCrew act crew len k).1 = (s.allocCrew act crew len k').1 := by
  unfold State.allocCrew
  simp only
  split
  · rfl
  · split <;> rfl

/-- An allocation takes as much for one tile kind as for another. -/
theorem allocCrew_sums (s : State) (act crew len : Nat) {k k' : AllocKind} (h : Alloc.isTile ⟨0, 0, 0, k⟩ = Alloc.isTile ⟨0, 0, 0, k'⟩) :
    (s.allocCrew act crew len k).2.crewUse act = (s.allocCrew act crew len k').2.crewUse act ∧
    ∀ lo hi, allocSum (fun _ => true) (allocsIn lo hi (s.allocCrew act crew len k).2.fil.allocs) =
      allocSum (fun _ => true) (allocsIn lo hi (s.allocCrew act crew len k').2.fil.allocs) := by
  have ht : ∀ x n c, Alloc.isTile ⟨x, n, c, k⟩ = Alloc.isTile ⟨x, n, c, k'⟩ := fun _ _ _ => h
  have hp : ∀ x n c, Alloc.pooled ⟨x, n, c, k⟩ = Alloc.pooled ⟨x, n, c, k'⟩ := fun _ _ _ => rfl
  unfold State.allocCrew
  simp only
  split
  · exact ⟨rfl, fun _ _ => rfl⟩
  · split
    · refine ⟨?_, fun lo hi => ?_⟩
      · unfold State.crewUse State.addAlloc allocSum
        simp only [List.filter_append, List.filter_cons, List.filter_nil, ht, hp]
        split <;> simp
      · unfold State.addAlloc allocSum allocsIn
        simp only [List.filter_append, List.filter_cons, List.filter_nil]
        split <;> simp
    · exact ⟨rfl, fun _ _ => rfl⟩

/-- New contents placed in the crew store and written. -/
theorem produce_run {s u : State} {t : Strand} {j : Job} {v : TileVal} {a : Nat} (hr : TileReads s u) (room : RoomAt s t j v.data.length a)
    (id : Nat) (k : AllocKind) :
    ∃ m, u.fresh.produce id j.act t.crew v false k = (some { tileOf s j v a with id := id }, m) ∧ m.fil.strands = s.fil.strands ∧
      Stores s m a v.data ∧ (∀ off, off ≠ F.cruAtuseCount_count.off → m.reg off = s.reg off) ∧ m.fil.tiles = u.fil.tiles ∧
      m.mem.wf = true ∧ m.fil.allocs = (u.fresh.allocCrew j.act t.crew v.data.length k).2.fil.allocs ∧
      (∀ off, m.reg off = u.reg off) ∧ m.nextId = s.nextId + 1 ∧
      { m with mem := u.mem, nextId := u.nextId, fil := { m.fil with allocs := u.fil.allocs } } = u := by
  obtain ⟨e1, e2⟩ := allocCrew_reads (u := u.fresh) (s := s) j.act t.crew v.data.length k hr.allocs (rd_crewQuota hr j.act)
  have e1' : (u.fresh.allocCrew j.act t.crew v.data.length k).1 = some a := by
    rw [e1, allocCrew_kind _ _ _ _ k (.tile s.nextId)]; exact room.placed
  have only := allocCrew_only u.fresh j.act t.crew v.data.length k
  generalize hp : u.fresh.allocCrew j.act t.crew v.data.length k = p at e1' only
  obtain ⟨pa, d⟩ := p
  simp only at e1' only
  subst e1'
  have dmem : d.mem = s.mem := by have := congrArg State.mem only; exact this.trans hr.mem
  have dreg : ∀ off, d.reg off = u.reg off := by intro off; have := congrArg (fun x : State => x.reg off) only; exact this
  have dtiles : d.fil.tiles = u.fil.tiles := by have := congrArg (fun x : State => x.fil.tiles) only; exact this
  have dstr : d.fil.strands = s.fil.strands := by have := congrArg (fun x : State => x.fil.strands) only; exact this.trans hr.strands
  have dtal : d.tally = s.tally := by have := congrArg State.tally only; exact this.trans hr.tally
  have dn : d.nextId = s.nextId + 1 := by
    have := congrArg State.nextId only
    have h2 : u.fresh.nextId = s.nextId + 1 := by show u.nextId + 1 = _; rw [hr.nextId]
    exact this.trans h2
  have drd : ∀ f, f.off ≠ F.cruAtuseCount_count.off → d.rd f = s.rd f := by
    intro f hf; unfold State.rd; rw [dreg, hr.2.1 _ hf]
  have hW : Writable d a v.data.length := by
    obtain ⟨h1, h2, h3⟩ := room.stores
    exact ⟨h1, by rw [drd _ (by decide)]; exact h2, by rw [dmem]; exact h3⟩
  obtain ⟨g1, g2, g3, g4, g5⟩ := State.writeMem_stores (source := 0) (by rw [dmem]; exact room.canonical) hW
  have htouch : d.touch a v.data.length = d := by
    unfold State.touch; rw [if_pos (by rw [drd _ (by decide)]; exact room.awake)]
  rw [htouch] at g5
  generalize hm : d.writeMem 0 a v.data = m at g1 g2 g3 g4 g5
  have mreg : ∀ off, m.reg off = d.reg off := by intro off; have := congrArg (fun x : State => x.reg off) g5; exact this
  have mfil : m.fil = d.fil := by have := congrArg State.fil g5; exact this
  have mtal : m.tally = d.tally := by have := congrArg State.tally g5; exact this
  have mn : m.nextId = d.nextId := by have := congrArg State.nextId g5; exact this
  have marm : m.on F.memFlipCtrl_arm = false := by unfold State.on; rw [g1.disarmed]; rfl
  refine ⟨m, ?_, by rw [mfil, dstr], ⟨g2.1, fun x hx => (g2.2 x hx).trans (by rw [dmem])⟩,
    fun off hoff => by rw [mreg, dreg, hr.2.1 off hoff], by rw [mfil, dtiles], g1.wf, by rw [mfil], fun off => by rw [mreg, dreg],
    by rw [mn, dn], ?_⟩
  rotate_left
  · have h1 := congrArg (fun x : State => { x with mem := u.mem, nextId := u.nextId, fil := { x.fil with allocs := u.fil.allocs } }) g5
    have h2 := congrArg (fun x : State => { x with mem := u.mem, nextId := u.nextId, fil := { x.fil with allocs := u.fil.allocs } }) only
    exact h1.trans h2
  unfold State.produce State.homed State.homeFor
  simp only [Bool.false_eq_true, if_false]
  rw [hp]
  simp only [homeForm, Bool.false_and, Bool.false_eq_true, if_false, hm]
  unfold State.flipCrc
  simp only [marm, Bool.false_and, Bool.false_eq_true, if_false]
  have : m.now = s.tally.beat := by unfold State.now; rw [mtal, dtal]
  rw [this]
  rfl

/-- A result tile made in the crew store. -/
theorem newTile_run {s u : State} {t : Strand} {j : Job} {v : TileVal} {a : Nat} (hr : TileReads s u) (room : RoomAt s t j v.data.length a) :
    ∃ w, (newTile t j v).run u = .ok s.nextId w ∧ w.fil.strands = s.fil.strands ∧ Stores s w a v.data ∧
      (∀ off, off ≠ F.cruAtuseCount_count.off → w.reg off = s.reg off) ∧ w.fil.tiles = u.fil.tiles ++ [tileOf s j v a] ∧
      w.mem.wf = true ∧ w.nextId = s.nextId + 1 ∧
      { w with mem := u.mem, nextId := u.nextId, fil := { w.fil with allocs := u.fil.allocs, tiles := u.fil.tiles } } = u := by
  obtain ⟨m, h1, h2, h3, h4, h5, h6, h7, h8, h9, h10⟩ := produce_run hr room s.nextId (.tile s.nextId)
  obtain ⟨_, e2⟩ := allocCrew_reads (u := u.fresh) (s := s) j.act t.crew v.data.length (.tile s.nextId) hr.allocs (rd_crewQuota hr j.act)
  rw [e2] at h7
  have mk : u.makeTile j.act t.crew v false = (some s.nextId, { m with fil := { m.fil with tiles := m.fil.tiles ++ [tileOf s j v a] } }) := by
    unfold State.makeTile
    simp only
    rw [hr.nextId, h1]
    rfl
  refine ⟨{ m with fil := { m.fil with tiles := m.fil.tiles ++ [tileOf s j v a] } }, ?_, h2, h3, h4, ?_, h6, h9, ?_⟩
  · unfold newTile
    rw [M.run_bind_ok (M.run_updGet _ _), mk]
    simp only
    rw [M.run_bind_ok (M.run_upd _ _), tierManage_quiet]
    · rfl
    · have h0 := room.quota
      unfold State.crewUse at *
      show allocSum _ m.fil.allocs + 2 ^ 20 ≤ State.rd m _ * 1024
      have hq : State.rd m (F.memQCrew_kib j.act) = s.rd (F.memQCrew_kib j.act) := by
        rw [← rd_crewQuota hr]; unfold State.rd; rw [h8]
      rw [hq, h7]; exact h0
    · show allocSum _ (allocsIn _ _ m.fil.allocs) + 2 ^ 20 ≤ crewLen
      rw [h7]; exact room.spare
  · show m.fil.tiles ++ _ = _
    rw [h5]
  · have := congrArg (fun x : State => { x with fil := { x.fil with tiles := u.fil.tiles } }) h10
    exact this

/-! ## A packed result -/

theorem poolGap_reads {s u : State} (ha : u.fil.allocs = s.fil.allocs) (hr : ∀ f, f.off ≠ F.cruAtuseCount_count.off → u.rd f = s.rd f)
    {act : Nat} (hact : act < 16) (len : Nat) (ex : Bool) :
    u.quotaFits act len ex = s.quotaFits act len ex ∧ u.bestStack = s.bestStack ∧ ∀ st, u.poolGap st len = s.poolGap st len := by
  have h1 : u.rd (F.memQStack_kib act) = s.rd (F.memQStack_kib act) :=
    hr _ (by unfold F.memQStack_kib F.cruAtuseCount_count; simp only; omega)
  have h2 : u.rd (F.memQExpand_kib act) = s.rd (F.memQExpand_kib act) :=
    hr _ (by unfold F.memQExpand_kib F.cruAtuseCount_count; simp only; omega)
  have h3 : u.rd F.memPool_gib = s.rd F.memPool_gib := hr _ (by decide)
  have h4 : ∀ st, u.poolFree st = s.poolFree st := fun st => by unfold State.poolFree; rw [ha, h3]
  refine ⟨?_, ?_, fun st => ?_⟩
  · unfold State.quotaFits State.stackUse State.expandUse
    rw [h1, h2, ha]
  · unfold State.bestStack
    simp only [h4]
  · unfold State.poolGap
    rw [h3, ha]

theorem makeRoom_fits {s : State} {act len : Nat} {ex : Bool} (h : s.quotaFits act len ex = true) (n : Nat) :
    State.makeRoom act len ex n s = s := by
  cases n with
  | zero => rfl
  | succ n => unfold State.makeRoom; rw [if_pos h]

/-- The registers of the packed and unpacked bytes. -/
def packRegs : List Nat := [F.cruPackInLo_bytes.off, F.cruPackInHi_bytes.off, F.cruPackOutLo_bytes.off, F.cruPackOutHi_bytes.off]

theorem packCount_reg (s : State) (n k : Nat) {off : Nat} (h : off ∉ packRegs) : (s.packCount n (some k)).reg off = s.reg off := by
  unfold packRegs at h
  simp only [List.mem_cons, List.not_mem_nil, or_false, not_or] at h
  unfold State.packCount State.bump64 State.wr64
  simp only
  rw [State.reg_wr_other _ _ _ (Ne.symm h.2.2.2), State.reg_wr_other _ _ _ (Ne.symm h.2.2.1), State.reg_wr_other _ _ _ (Ne.symm h.2.1),
    State.reg_wr_other _ _ _ (Ne.symm h.1)]

theorem packCount_only (s : State) (n k : Nat) : { s.packCount n (some k) with regs := s.regs } = s := rfl

/-- The record of a new packed tile. -/
def packedOf (s : State) (j : Job) (v : TileVal) (a n : Nat) : Tile :=
  ⟨s.nextId, j.act, [], v.fmt, v.shape, true, v.tscale, v.bs, v.axis, v.scales, v.crc, a, n, 0, none, s.tally.beat, [], false⟩

/-- Packed contents placed in the pool and written. -/
theorem producePacked_run {s u : State} {t : Strand} {j : Job} {v : TileVal} {b : List Byte} {a : Nat} (hr : TileReads s u)
    (room : PoolRoomAt s t j b.length a) (hp : packTile v.data = some b) (hen : s.on F.memCtrl_packEn = true) (hi : v.info = none)
    (id : Nat) (k : AllocKind) (hk : Alloc.isExpansion ⟨0, 0, 0, k⟩ = false) :
    ∃ m, u.fresh.produce id j.act t.crew v true k = (some { packedOf s j v a b.length with id := id }, m) ∧
      m.fil.strands = s.fil.strands ∧ Stores s m a b ∧
      (∀ off, off ≠ F.cruAtuseCount_count.off → off ∉ packRegs → m.reg off = s.reg off) ∧ m.fil.tiles = u.fil.tiles ∧
      m.mem.wf = true ∧ m.fil.allocs = s.fil.allocs ++ [⟨a, roundUp (max b.length 1) 512, j.act, k⟩] := by
  have hrd := fun f hf => (hr.rd f hf : u.rd f = s.rd f)
  have hal : u.fresh.fil.allocs = s.fil.allocs := hr.allocs
  have hrd' : ∀ f, f.off ≠ F.cruAtuseCount_count.off → u.fresh.rd f = s.rd f := hrd
  obtain ⟨q1, q2, q3⟩ := poolGap_reads hal hrd' room.act (roundUp (max b.length 1) 512) false
  have hen' : u.fresh.on F.memCtrl_packEn = true := by
    unfold State.on at *; rw [hrd' _ (by decide)]; exact hen
  have hform : homeForm u.fresh v true = (b, true) := by
    unfold homeForm; rw [hen', hi]; simp [hp]
  let al : Alloc := ⟨a, roundUp (max b.length 1) 512, j.act, k⟩
  have hpool : u.fresh.allocPool j.act b.length k = (some a, u.fresh.addAlloc al) := by
    unfold State.allocPool State.poolRun
    simp only [hk, Bool.false_and, Bool.false_eq_true, if_false]
    have hfit : u.fresh.quotaFits j.act (roundUp (max b.length 1) 512) false = true := by rw [q1]; exact room.fits
    rw [makeRoom_fits hfit, hfit, q2, q3, room.placed]
    rfl
  have hd : (u.fresh.addAlloc al).on F.memCtrl_packEn = true := hen'
  have hform2 : homeForm (u.fresh.addAlloc al) v true = (b, true) := by
    unfold homeForm; rw [hd, hi]; simp [hp]
  generalize hc : (u.fresh.addAlloc al).packCount v.data.length (some b.length) = c
  have conly : { c with regs := u.regs } = u.fresh.addAlloc al := by rw [← hc]; rfl
  have creg : ∀ off, off ∉ packRegs → c.reg off = u.reg off := by
    intro off ho; rw [← hc, packCount_reg _ _ _ ho]; rfl
  have crd : ∀ f, f.off ≠ F.cruAtuseCount_count.off → f.off ∉ packRegs → c.rd f = s.rd f := by
    intro f h1 h2; rw [← hrd f h1]; unfold State.rd; rw [creg _ h2]
  have cmem : c.mem = s.mem := by have := congrArg State.mem conly; exact this.trans hr.mem
  have cfil : c.fil = (u.fresh.addAlloc al).fil := by have := congrArg State.fil conly; exact this
  have ctal : c.tally = s.tally := by have := congrArg State.tally conly; exact this.trans hr.tally
  have hW : Writable c a b.length := by
    obtain ⟨h1, h2, h3⟩ := room.stores
    exact ⟨h1, by rw [crd _ (by decide) (by decide)]; exact h2, by rw [cmem]; exact h3⟩
  obtain ⟨g1, g2, g3, g4, g5⟩ := State.writeMem_stores (source := 0) (by rw [cmem]; exact room.canonical) hW
  have htouch : c.touch a b.length = c := by
    unfold State.touch; rw [if_pos (by rw [crd _ (by decide) (by decide)]; exact room.awake)]
  rw [htouch] at g5
  generalize hm : c.writeMem 0 a b = m at g1 g2 g3 g4 g5
  have mreg : ∀ off, m.reg off = c.reg off := by intro off; have := congrArg (fun x : State => x.reg off) g5; exact this
  have mfil : m.fil = c.fil := by have := congrArg State.fil g5; exact this
  have mtal : m.tally = c.tally := by have := congrArg State.tally g5; exact this
  have marm : m.on F.memFlipCtrl_arm = false := by unfold State.on; rw [g1.disarmed]; rfl
  refine ⟨m, ?_, ?_, ⟨g2.1, fun x hx => (g2.2 x hx).trans (by rw [cmem])⟩, fun off h1 h2 => ?_, ?_, g1.wf, ?_⟩
  · unfold State.produce State.homed State.homeFor
    simp only [if_true]
    rw [hform]
    simp only
    rw [hpool]
    simp only
    rw [hform2]
    simp only [Bool.true_and, if_true]
    rw [hd, hi]
    simp only [Bool.true_and, Option.isNone_none, if_true]
    rw [hc, hm]
    unfold State.flipCrc
    simp only [marm, Bool.false_and, Bool.false_eq_true, if_false]
    have : m.now = s.tally.beat := by unfold State.now; rw [mtal, ctal]
    rw [this]
    rfl
  · rw [mfil, cfil]; exact hr.strands
  · rw [mreg, creg off h2, hr.2.1 off h1]
  · rw [mfil, cfil]; rfl
  · rw [mfil, cfil]; unfold State.addAlloc; simp only; rw [hal]

/-- A packed result tile made in the pool. -/
theorem newPacked_run {s u : State} {t : Strand} {j : Job} {v : TileVal} {b : List Byte} {a : Nat} (hr : TileReads s u)
    (room : PoolRoomAt s t j b.length a) (hp : packTile v.data = some b) (hen : s.on F.memCtrl_packEn = true) (hi : v.info = none) :
    ∃ w, (newTile t j v true).run u = .ok s.nextId w ∧ w.fil.strands = s.fil.strands ∧ Stores s w a b ∧
      (∀ off, off ≠ F.cruAtuseCount_count.off → off ∉ packRegs → w.reg off = s.reg off) ∧
      w.fil.tiles = u.fil.tiles ++ [packedOf s j v a b.length] ∧ w.mem.wf = true := by
  obtain ⟨m, h1, h2, h3, h4, h5, h6, h7⟩ := producePacked_run hr room hp hen hi s.nextId (.tile s.nextId) rfl
  have mk : u.makeTile j.act t.crew v true = (some s.nextId, { m with fil := { m.fil with tiles := m.fil.tiles ++ [packedOf s j v a b.length] } }) := by
    unfold State.makeTile
    simp only
    rw [hr.nextId, h1]
    rfl
  refine ⟨{ m with fil := { m.fil with tiles := m.fil.tiles ++ [packedOf s j v a b.length] } }, ?_, h2, h3, h4, ?_, h6⟩
  · unfold newTile
    rw [M.run_bind_ok (M.run_updGet _ _), mk]
    simp only
    rw [M.run_bind_ok (M.run_upd _ _), tierManage_quiet]
    · rfl
    · have h0 := room.quota
      unfold State.crewUse at *
      show allocSum _ m.fil.allocs + 2 ^ 20 ≤ State.rd m _ * 1024
      have hq : State.rd m (F.memQCrew_kib j.act) = s.rd (F.memQCrew_kib j.act) := by
        unfold State.rd
        rw [h4]
        · unfold F.memQCrew_kib F.cruAtuseCount_count; simp only; omega
        · unfold F.memQCrew_kib packRegs
          simp only [List.mem_cons, List.not_mem_nil, or_false]
          unfold F.cruPackInLo_bytes F.cruPackInHi_bytes F.cruPackOutLo_bytes F.cruPackOutHi_bytes
          simp only
          omega
      rw [hq, h7]
      have hal' : ∀ k, (Alloc.mk a (roundUp (max b.length 1) 512) j.act k).pooled = true := fun k => decide_eq_true room.pool
      unfold allocSum at *
      rw [List.filter_append]
      simp only [List.filter_cons, hal', Bool.not_true, Bool.false_and, Bool.false_eq_true, if_false, List.filter_nil, List.append_nil]
      exact h0
    · show allocSum _ (allocsIn _ _ m.fil.allocs) + 2 ^ 20 ≤ crewLen
      have hlt : ¬ (crewAddr t.crew 0 ≤ a) := by
        have := room.pool
        unfold crewAddr; omega
      rw [h7]
      unfold allocsIn
      rw [List.filter_append]
      simp only [List.filter_cons, hlt, false_and, decide_false, Bool.false_eq_true, if_false, List.filter_nil, List.append_nil]
      exact room.spare
  · show m.fil.tiles ++ _ = _
    rw [h5]

/-! ## Memory operands -/

/-- The checks of an aligned range that the job may use pass. -/
theorem block64_run {s : State} {j : Job} {r : Right} {d : Dsc} {off n : Nat} (h1 : (d.base + off) % 64 = 0) (h2 : d.len % 64 = 0)
    (hm : MayUse s j r (d.base + off) n) : (block64 j r d off n).run s = .ok () s := by
  unfold block64 aligned64
  rw [need_pure _ _ (decide_eq_true ⟨h1, h2⟩), M.bind_pure, M.run_bind_ok (M.run_get s)]
  exact checkAccess_run _ hm

/-- A range inside its descriptor's extent. -/
theorem within_pure {d : Dsc} {off n : Nat} (h : off + n ≤ d.len) : within d off n = (pure () : M Unit) :=
  need_pure _ _ (decide_eq_true h)

/-- A read of clean blocks, with no stack asleep, leaves the state as it was. -/
theorem readOrd_quiet {s : State} {a n : Nat} (hh : s.holder false a n = none) (hm : isRegister a = false)
    (hc : ∀ b ∈ blocksOf a n, s.mem.check b = .clean) (hp : s.rd F.pwrStackState_inP3 = 0) :
    (readOrd a n).run s = .ok (s.readMem 0 a n).1 s := by
  rw [readOrd_run ⟨hh, hm, fun b hb => by rw [hc b hb]; decide⟩, readMem_quiet hm hc hp]

/-- A readable view: its checks pass, and a read gives its bytes and changes nothing. -/
theorem ReadsView.runs {s : State} {j : Job} {v : BitVec 128} {n : Nat} {b : List Byte} (h : ReadsView s j v n b) (o : Insn) (t : Strand) :
    (∀ empty, useDsc v [0] false empty = (pure (decodeDsc v) : M Dsc)) ∧ (within (decodeDsc v) 0 n = (pure () : M Unit)) ∧
    (OnBlocks v → (block64 j .read (decodeDsc v) 0 n).run (s.moved o t) = .ok () (s.moved o t)) ∧
    (∀ priv, (checkAccess j priv .read (decodeDsc v).base n).run (s.moved o t) = .ok () (s.moved o t)) ∧
    (waitHeld false (decodeDsc v).base n).run (s.moved o t) = .ok () (s.moved o t) ∧
    (readOrd (decodeDsc v).base n).run (s.moved o t) = .ok b (s.moved o t) ∧
    (s.moved o t).readMem 0 (decodeDsc v).base n = (b, false, s.moved o t) := by
  obtain ⟨h1, h2, h3, h4, h5, h6, h7, h8⟩ := h
  have hm := h3.moved o t
  have hr : (s.moved o t).readMem 0 (decodeDsc v).base n = (b, false, s.moved o t) := by
    rw [readMem_quiet (s := s.moved o t) h5 h6 h7, State.readMem_moved, h8]
  refine ⟨fun e => useDsc_pure ?_, within_pure (by rw [Nat.zero_add]; exact h2), fun ha => block64_run ha.1 ha.2 hm,
    fun p => checkAccess_run p hm, waitHeld_run h4, ?_, hr⟩
  · obtain ⟨g, gs⟩ := h1
    refine ⟨.inl ?_, gs⟩
    rcases g with g | g
    · exact g
    · simp at g
  · rw [readOrd_quiet (s := s.moved o t) h4 h5 h6 h7, hr]

/-! ## The instruction -/

theorem RoomAt.moved {s : State} {t t' : Strand} {j : Job} {n a : Nat} (o : Insn) (h : RoomAt s t j n a) :
    RoomAt (s.moved o t') t j n a := by
  have e : (s.moved o t').allocCrew j.act t.crew n (.tile s.nextId) =
      ((s.allocCrew j.act t.crew n (.tile s.nextId)).1, ((s.allocCrew j.act t.crew n (.tile s.nextId)).2).moved o t') := by
    unfold State.allocCrew
    simp only
    split
    · rename_i h1
      rw [if_pos (show s.crewUse j.act + _ > s.rd _ * 1024 from h1)]
    · rename_i h1
      rw [if_neg (show ¬ s.crewUse j.act + _ > s.rd _ * 1024 from h1)]
      have e2 : (s.moved o t').fil.allocs = s.fil.allocs := rfl
      rw [e2]
      split <;> rfl
  have en : (s.moved o t').nextId = s.nextId := rfl
  refine ⟨by rw [en, e]; exact h.placed, by rw [en, e]; exact h.quota, by rw [en, e]; exact h.spare, h.stores, h.awake, h.canonical,
    h.fresh⟩

/-- What is in the way of a result tile is memory, registers, allocations and tiles alone. -/
theorem RoomAt.same {s u : State} {t : Strand} {j : Job} {n a : Nat} (h : RoomAt s t j n a) (hm : u.mem = s.mem) (hr : u.regs = s.regs)
    (ha : u.fil.allocs = s.fil.allocs) (ht : u.fil.tiles = s.fil.tiles) (hn : u.nextId = s.nextId) : RoomAt u t j n a := by
  have hrd : ∀ f, u.rd f = s.rd f := by intro f; unfold State.rd State.reg; rw [hr]
  obtain ⟨e1, e2⟩ := allocCrew_reads (u := u) (s := s) j.act t.crew n (.tile s.nextId) ha (hrd _)
  obtain ⟨h1, h2, h3, h4, h5, h6, h7⟩ := h
  refine ⟨by rw [hn, e1]; exact h1, ?_, by rw [hn, e2]; exact h3, ?_, by rw [hrd]; exact h5, by rw [hm]; exact h6, ?_⟩
  · unfold State.crewUse at *
    rw [hn, e2, hrd]; exact h2
  · exact ⟨h4.1, by rw [hrd]; exact h4.2.1, by rw [hm]; exact h4.2.2⟩
  · unfold State.tile? at *
    rw [hn, ht]; exact h7

theorem AtHome.moved {s : State} {t t' : Strand} {reg : Nat} {x : Tile} {v : TileVal} (o : Insn) (h : AtHome s t reg x v) :
    AtHome (s.moved o t') t reg x v := by
  refine ⟨h.direct, h.memory, h.clean, h.awake, h.whole, ?_, h.crc⟩
  rw [State.readMem_moved]; exact h.value

theorem AtRest.moved {s : State} {t t' : Strand} {reg : Nat} {x : Tile} {v : TileVal} (o : Insn) (h : AtRest s t reg x v) :
    AtRest (s.moved o t') t reg x v := ⟨h.toAtHome.moved o, h.handle, h.tile⟩

theorem quotaFirst_ok {α : Type} {c : M α} {s u : State} {a : α} (act crew len : Nat) (h : c.run s = .ok a u) :
    (quotaFirst act crew len c).run s = .ok a u := by
  have h' : c s = .ok a u := h
  unfold quotaFirst
  show EStateM.tryCatch c _ s = _
  unfold EStateM.tryCatch
  rw [h']

theorem clear_nil (t : Strand) : t.clear [] [] = true := by simp [Strand.clear]

/-- The state that an instruction leaves in flight. -/
theorem inFlight_launch {s w : State} {o : Insn} {t : Strand} (ht : s.strand? o.strand = some t)
    (hw : w.fil.strands = (s.moved o t).fil.strands) (fl : Inflight) (he : fl.gate = .engine) :
    InFlight s (w.fresh.modStrand o.strand fun v => { v with inflight := v.inflight ++ [fl] }) o t fl.effects := by
  have e (k : Nat) : (w.fresh.modStrand o.strand fun v => { v with inflight := v.inflight ++ [fl] }).anyStrand? k =
      ((s.moved o t).modStrand o.strand fun v => { v with inflight := v.inflight ++ [fl] }).anyStrand? k := by
    unfold State.anyStrand? State.strand? State.modStrand State.fresh
    simp only [hw]
  have e2 : (w.fresh.modStrand o.strand fun v => { v with inflight := v.inflight ++ [fl] }).strand? o.strand =
      ((s.moved o t).modStrand o.strand fun v => { v with inflight := v.inflight ++ [fl] }).strand? o.strand := by
    unfold State.strand? State.modStrand State.fresh
    simp only [hw]
  have e3 : (s.moved o t).modStrand o.strand (fun v => { v with inflight := v.inflight ++ [fl] }) =
      s.modStrand o.strand fun u => { u with pc := nextPc t o, wait := .no, inflight := u.inflight ++ [fl] } := by
    unfold State.moved
    rw [State.modStrand_modStrand s o.strand (fun u => { u with pc := nextPc t o, wait := .no })
      (fun v => { v with inflight := v.inflight ++ [fl] }) (fun _ => rfl)]
  refine ⟨⟨fl, rfl, he, ?_⟩, fun k hk => ?_⟩
  · rw [e2, e3]
    have := s.strand_modStrand _ (fun u => { u with pc := nextPc t o, wait := .no, inflight := u.inflight ++ [fl] }) ht
      (fun _ => rfl) (fun _ => rfl)
    exact this
  · rw [e, e3]
    exact s.anyStrand_modStrand_other _ (fun _ => rfl) hk

/-- An engine instruction whose body makes its result tile. -/
theorem makesTile_ok {s u : State} {f : Form} {o : Insn} {t : Strand} {j : Job} {v : TileVal} {a : Nat} {reads writes : List Res}
    {body : Strand → Job → M (List Effect)} {more : List Effect} (h : Issues s f o t j) (hc : t.clear reads writes = true)
    (hr : TileReads (s.moved o t) u) (room : RoomAt s t j v.data.length a)
    (hb : ∀ w, (newTile t j v).run u = .ok s.nextId w → (body t j).run (s.moved o t) = .ok (.bindT o.dst s.nextId :: more) w) :
    CompletesWith (engine f o s reads writes body) fun w => MakesTile s w o t v a more := by
  obtain ⟨w, h1, h2, h3, h4, h5, h6⟩ := newTile_run hr (room.moved o)
  have h1' : (newTile t j v).run u = .ok s.nextId w := h1
  refine ⟨_, engine_ok h hc (hb w h1'), ⟨tileOf s j v a, ?_, ?_, rfl, rfl, rfl, rfl, rfl, fun id y hy => ?_⟩, ?_, ?_⟩
  · exact inFlight_launch h.strand h2 _ rfl
  · show w.fil.tiles.find? _ = _
    rw [h5, List.find?_append]
    have : u.fil.tiles.find? (fun x => x.id == (tileOf s j v a).id) = none := by
      have := hr.tile s.nextId
      rw [show (s.moved o t).tile? s.nextId = none from room.fresh] at this
      unfold State.tile? at this
      cases hf : u.fil.tiles.find? (fun x => x.id == s.nextId) with
      | none => exact hf
      | some z => rw [hf] at this; simp at this
    rw [this]
    have hid : (tileOf (s.moved o t) j v a) = tileOf s j v a := rfl
    rw [hid]
    simp [tileOf]
  · have hne : id ≠ s.nextId := by
      rintro rfl
      rw [room.fresh] at hy; simp at hy
    refine ⟨hne, ?_⟩
    show (w.fil.tiles.find? _).map _ = _
    rw [h5, List.find?_append]
    have := hr.tile id
    rw [show (s.moved o t).tile? id = some y from hy] at this
    unfold State.tile? at this
    cases hf : u.fil.tiles.find? (fun x => x.id == id) with
    | none => rw [hf] at this; simp at this
    | some z => rw [hf] at this; simpa using this
  · exact h3
  · exact fun off ho _ => h4 off ho

/-- The record of new contents of a tile, in a crew store. -/
def contentsOf (s : State) (j : Job) (old : Tile) (v : TileVal) (a : Nat) : Tile :=
  ⟨old.id, j.act, old.names, v.fmt, v.shape, false, v.tscale, v.bs, v.axis, v.scales, v.crc, a, v.data.length, old.pref, v.info,
    s.tally.beat, [], old.dropping⟩

/-- An engine instruction whose body only reads. -/
theorem engages_ok {s u : State} {f : Form} {o : Insn} {t : Strand} {j : Job} {reads writes : List Res}
    {body : Strand → Job → M (List Effect)} {e : List Effect} (h : Issues s f o t j) (hc : t.clear reads writes = true)
    (hr : TileReads (s.moved o t) u) (hb : (body t j).run (s.moved o t) = .ok e u) :
    CompletesWith (engine f o s reads writes body) fun w => Engages s w o t e := by
  refine ⟨_, engine_ok h hc hb, inFlight_launch h.strand hr.strands _ rfl, fun x => ?_, fun id => hr.tile id, fun off ho _ => hr.2.1 off ho⟩
  show u.mem.byte x = _
  rw [hr.mem]; rfl

/-- The tile of a handle, read at use after other tiles were read. -/
theorem useAt_run {s u : State} {t : Strand} {j : Job} {reg : Nat} {x : Tile} {v : TileVal} (ok : Tile → Bool) (h : AtRest s t reg x v)
    (hu : TileReads s u) (hok : ∀ y : Tile, y.still = x.still → ok y = true) :
    ∃ w, (useAt t j reg ok).run u = .ok v w ∧ TileReads u w := by
  have ht := hu.tile x.id
  rw [h.tile] at ht
  cases hy : u.tile? x.id with
  | none => rw [hy] at ht; simp at ht
  | some y =>
    rw [hy] at ht
    have hs : y.still = x.still := by simpa using ht
    have field {α : Type} (g : Tile → α) (hg : ∀ z : Tile, g z.still = g z) : g y = g x := by rw [← hg y, ← hg x, hs]
    have hid : y.id = x.id := field Tile.id fun _ => rfl
    have hhome : y.home = x.home := field Tile.home fun _ => rfl
    have hlen : y.len = x.len := field Tile.len fun _ => rfl
    have hpk : y.packed = x.packed := field Tile.packed fun _ => rfl
    have hcrc : y.crc = x.crc := field Tile.crc fun _ => rfl
    have hval : ∀ raw, y.val raw = x.val raw := fun raw => field (fun z => z.val raw) fun _ => rfl
    obtain ⟨a1, a2, a3, a4, a5, a6, a7⟩ := h.toAtHome.mono hu
    have hh : AtHome u t reg y v := by
      refine ⟨by rw [hid]; exact a1, by rw [hhome]; exact a2, by rw [hhome, hlen]; exact a3, a4, a5, ?_, by rw [hcrc]; exact a7⟩
      obtain ⟨raw, h1, h2⟩ := a6
      exact ⟨raw, by rw [hval]; exact h1, by rw [hpk, hhome, hlen]; exact h2⟩
    obtain ⟨w, hw, hw2⟩ := useTile_run (j := j) false hh (fun hf => by simp at hf)
    refine ⟨w, ?_, hw2⟩
    unfold useAt
    rw [M.run_bind_ok (tileAt_run ok (by rw [hid]; exact h.handle) (by rw [hid]; exact hy) (hok y hs))]
    exact hw

/-- New contents for a tile, made in the crew store. -/
theorem rewriteTile_run {s u : State} {t : Strand} {j : Job} {old : Tile} {v : TileVal} {a : Nat} (hr : TileReads s u)
    (room : RoomAt s t j v.data.length a) :
    ∃ w, (rewriteTile t j old v).run u = .ok (.tile (contentsOf s j old v a)) w ∧ w.fil.strands = s.fil.strands ∧ Stores s w a v.data ∧
      (∀ off, off ≠ F.cruAtuseCount_count.off → w.reg off = s.reg off) ∧ w.fil.tiles = u.fil.tiles := by
  obtain ⟨m, h1, h2, h3, h4, h5, _, h7, h8, _⟩ := produce_run hr room old.id (.move s.nextId)
  obtain ⟨_, e2⟩ := allocCrew_reads (u := u.fresh) (s := s) j.act t.crew v.data.length (.move s.nextId) hr.allocs (rd_crewQuota hr j.act)
  obtain ⟨k1, k2⟩ := allocCrew_sums s j.act t.crew v.data.length (k := .move s.nextId) (k' := .tile s.nextId) rfl
  rw [e2] at h7
  refine ⟨m, ?_, h2, h3, h4, h5⟩
  unfold rewriteTile
  rw [M.run_bind_ok (M.run_get _)]
  dsimp only
  rw [M.run_bind_ok (M.run_updGet _ _), hr.nextId, h1]
  simp only
  rw [M.run_bind_ok (M.run_upd _ _), tierManage_quiet]
  · rfl
  · have hq : m.rd (F.memQCrew_kib j.act) = s.rd (F.memQCrew_kib j.act) := by
      rw [← rd_crewQuota hr]; unfold State.rd; rw [h8]
    have hu : m.crewUse j.act = (s.allocCrew j.act t.crew v.data.length (.move s.nextId)).2.crewUse j.act := by
      unfold State.crewUse; rw [h7]
    rw [hq, hu, k1]; exact room.quota
  · rw [h7, k2]; exact room.spare

/-- An engine instruction whose body gives a tile new contents. -/
theorem rewritesTile_ok {s u : State} {f : Form} {o : Insn} {t : Strand} {j : Job} {old : Tile} {v : TileVal} {a : Nat}
    {reads writes : List Res} {body : Strand → Job → M (List Effect)} {more : List Effect} (h : Issues s f o t j)
    (hc : t.clear reads writes = true) (hr : TileReads (s.moved o t) u) (room : RoomAt s t j v.data.length a)
    (hb : ∀ w e, (rewriteTile t j old v).run u = .ok e w → (body t j).run (s.moved o t) = .ok (e :: more) w) :
    CompletesWith (engine f o s reads writes body) fun w => RewritesTile s w o t old v a more := by
  obtain ⟨w, h1, h2, h3, h4, h5⟩ := rewriteTile_run (old := old) hr (room.moved o)
  refine ⟨_, engine_ok h hc (hb w _ h1), ⟨_, inFlight_launch h.strand h2 _ rfl, rfl, rfl, rfl, rfl, rfl, rfl, rfl, rfl, rfl⟩, fun id => ?_,
    h3, h4⟩
  have := hr.tile id
  unfold State.tile? at *
  show (w.fil.tiles.find? _).map _ = _
  rw [h5]
  exact this

/-- An engine instruction that makes one tile. -/
theorem tileEngine_ok {s u : State} {f : Form} {o : Insn} {t : Strand} {j : Job} {v : TileVal} {a : Nat} {body : Strand → Job → M TileVal}
    (h : Issues s f o t j) (hr : TileReads (s.moved o t) u) (room : RoomAt s t j v.data.length a)
    (hb : (body t j).run (s.moved o t) = .ok v u) :
    CompletesWith (tileEngine f o s [] body) fun w => MakesTile s w o t v a := by
  unfold tileEngine
  refine makesTile_ok h (clear_nil t) hr room fun w hw => ?_
  rw [M.run_bind_ok (quotaFirst_ok _ _ _ hb), M.run_bind_ok hw]
  rfl

/-- A result tile that the body has made, as the claims say it once the instruction is in flight. -/
theorem makesTile_finish {s w : State} {o : Insn} {t : Strand} {v : TileVal} {a : Nat} {l : List Tile} {x : Tile} {more : List Effect}
    {home : List Byte × Bool} {regs : List Nat} (fl : Inflight) (ht : s.strand? o.strand = some t) (hf : s.tile? s.nextId = none)
    (hs : w.fil.strands = (s.moved o t).fil.strands) (hw : w.fil.tiles = l ++ [x]) (hl : l.map Tile.still = s.fil.tiles.map Tile.still)
    (hx : x.id = s.nextId ∧ x.val v.data = v ∧ x.crc = v.crc ∧ x.home = a ∧ x.len = home.1.length ∧ x.packed = home.2)
    (hst : Stores s w a home.1) (hr : ∀ off, off ≠ F.cruAtuseCount_count.off → off ∉ regs → w.reg off = s.reg off)
    (hg : fl.gate = .engine) (he : fl.effects = .bindT o.dst s.nextId :: more) :
    MakesTile s (w.fresh.modStrand o.strand fun v => { v with inflight := v.inflight ++ [fl] }) o t v a more home regs := by
  have find (id : Nat) : (l.find? (fun y => y.id == id)).map Tile.still = (s.tile? id).map Tile.still := by
    unfold State.tile?
    have key : ∀ l : List Tile, (l.find? (·.id == id)).map Tile.still = (l.map Tile.still).find? (·.id == id) := by
      intro l
      rw [List.find?_map]
      rfl
    rw [key, key, hl]
  obtain ⟨x1, x2, x3, x4, x5, x6⟩ := hx
  refine ⟨⟨x, ?_, ?_, x2, x3, x4, x5, x6, fun id y hy => ?_⟩, hst, hr⟩
  · have := inFlight_launch ht hs fl hg
    rw [he] at this
    rw [x1]; exact this
  · show w.fil.tiles.find? _ = _
    rw [hw, List.find?_append]
    have h1 := find x.id
    rw [x1, hf] at h1
    have h2 : l.find? (fun y => y.id == x.id) = none := by
      rw [x1]
      cases h3 : l.find? (fun y => y.id == s.nextId) with
      | none => rfl
      | some z => rw [h3] at h1; simp at h1
    rw [h2]
    simp
  · have hne : id ≠ x.id := by
      rintro rfl
      rw [x1, hf] at hy; simp at hy
    refine ⟨hne, ?_⟩
    show (w.fil.tiles.find? _).map _ = _
    rw [hw, List.find?_append]
    have h1 := find id
    rw [hy] at h1
    cases h3 : l.find? (fun y => y.id == id) with
    | none => rw [h3] at h1; simp at h1
    | some z => rw [h3] at h1; simpa using h1

/-- An engine instruction whose body makes its result tile in the pool. -/
theorem makesPacked_ok {s u : State} {f : Form} {o : Insn} {t : Strand} {j : Job} {v : TileVal} {b : List Byte} {a : Nat}
    {reads writes : List Res} {body : Strand → Job → M (List Effect)} {more : List Effect} (h : Issues s f o t j)
    (hc : t.clear reads writes = true) (hr : TileReads (s.moved o t) u) (room : PoolRoomAt s t j b.length a)
    (hp : packTile v.data = some b) (hen : s.on F.memCtrl_packEn = true) (hi : v.info = none)
    (hb : ∀ w, (newTile t j v true).run u = .ok s.nextId w → (body t j).run (s.moved o t) = .ok (.bindT o.dst s.nextId :: more) w) :
    CompletesWith (engine f o s reads writes body) fun w => MakesTile s w o t v a more (b, true) packRegs := by
  obtain ⟨r0, r1, r2, r3, r4, r5, r6, r7, r8, r9⟩ := room
  obtain ⟨w, h1, h2, h3, h4, h5, h6⟩ := newPacked_run (s := s.moved o t) (b := b) (a := a) hr ⟨r0, r1, r2, r3, r4, r5, r6, r7, r8, r9⟩
    hp hen hi
  refine ⟨_, engine_ok h hc (hb w h1), makesTile_finish _ h.strand r9 h2 h5 hr.2.2 ⟨rfl, ?_, rfl, rfl, rfl, rfl⟩ h3 h4 rfl rfl⟩
  show TileVal.mk v.fmt v.shape v.data v.tscale v.bs v.axis v.scales none = v
  rw [← hi]

/-- A change of the registers at these offsets, and of nothing else. -/
def Counts (regs : List Nat) (r : State → State) : Prop :=
  (∀ s, { r s with regs := s.regs } = s) ∧ ∀ s off, off ∉ regs → (r s).reg off = s.reg off

theorem Counts.mem {regs : List Nat} {r : State → State} (h : Counts regs r) (s : State) : (r s).mem = s.mem := by
  have := congrArg State.mem (h.1 s); exact this
theorem Counts.fil {regs : List Nat} {r : State → State} (h : Counts regs r) (s : State) : (r s).fil = s.fil := by
  have := congrArg State.fil (h.1 s); exact this
theorem Counts.nextId {regs : List Nat} {r : State → State} (h : Counts regs r) (s : State) : (r s).nextId = s.nextId := by
  have := congrArg State.nextId (h.1 s); exact this
theorem Counts.rd {regs : List Nat} {r : State → State} (h : Counts regs r) (s : State) (f : FieldRef) (hf : f.off ∉ regs) :
    (r s).rd f = s.rd f := by unfold State.rd; rw [h.2 _ _ hf]

/-- The room for a result is there still after registers have counted. -/
theorem RoomAt.counts {s u : State} {t : Strand} {j : Job} {n a : Nat} (h : RoomAt s t j n a) (hr : TileReads s u) {regs : List Nat}
    {r : State → State} (hc : Counts regs r) (h1 : F.memFlipCtrl_arm.off ∉ regs) (h2 : F.pwrStackState_inP3.off ∉ regs)
    (h3 : (F.memQCrew_kib j.act).off ∉ regs) : RoomAt (r u) t j n a := by
  have hq : (r u).rd (F.memQCrew_kib j.act) = s.rd (F.memQCrew_kib j.act) := by rw [hc.rd _ _ h3, rd_crewQuota hr]
  have hfil := hc.fil u
  obtain ⟨e1, e2⟩ := allocCrew_reads (u := r u) (s := s) j.act t.crew n (.tile s.nextId) (by rw [hfil]; exact hr.allocs) hq
  have hn : (r u).nextId = s.nextId := (hc.nextId u).trans hr.nextId
  refine ⟨by rw [hn, e1]; exact h.placed, ?_, ?_, ⟨h.stores.1, ?_, ?_⟩, ?_, ?_, ?_⟩
  · unfold State.crewUse at *
    rw [hn, e2, hq]; exact h.quota
  · rw [hn, e2]; exact h.spare
  · rw [hc.rd _ _ h1, hr.rd _ (by decide)]; exact h.stores.2.1
  · rw [hc.mem, hr.mem]; exact h.stores.2.2
  · rw [hc.rd _ _ h2, hr.rd _ (by decide)]; exact h.awake
  · rw [hc.mem, hr.mem]; exact h.canonical
  · rw [hn]
    unfold State.tile?
    rw [hfil]
    have := hr.tile s.nextId
    rw [h.fresh] at this
    unfold State.tile? at this
    cases h4 : u.fil.tiles.find? (fun x => x.id == s.nextId) with
    | none => rfl
    | some z => rw [h4] at this; simp at this

/-- An engine instruction whose body counts in registers before it makes its result tile. -/
theorem makesTile_counts_ok {s u : State} {f : Form} {o : Insn} {t : Strand} {j : Job} {v : TileVal} {a : Nat} {reads writes : List Res}
    {body : Strand → Job → M (List Effect)} {more : List Effect} {regs : List Nat} {r : State → State} (h : Issues s f o t j)
    (hc : t.clear reads writes = true) (hr : TileReads (s.moved o t) u) (room : RoomAt s t j v.data.length a) (hk : Counts regs r)
    (h1 : F.memFlipCtrl_arm.off ∉ regs) (h2 : F.pwrStackState_inP3.off ∉ regs) (h3 : (F.memQCrew_kib j.act).off ∉ regs)
    (hb : ∀ w, (newTile t j v).run (r u) = .ok s.nextId w → (body t j).run (s.moved o t) = .ok (.bindT o.dst s.nextId :: more) w) :
    CompletesWith (engine f o s reads writes body) fun w => MakesTile s w o t v a more (v.data, false) regs ∧
      ∀ off, off ≠ F.cruAtuseCount_count.off → w.reg off = (r u).reg off := by
  obtain ⟨w, g1, g2, g3, g4, g5, _⟩ := newTile_run (.refl _) ((room.moved o).counts hr hk h1 h2 h3)
  have hn : (r u).nextId = s.nextId := (hk.nextId u).trans hr.nextId
  have hfil := hk.fil u
  rw [hn] at g1
  refine ⟨_, engine_ok h hc (hb w g1), ?_, fun off ho => g4 off ho⟩
  refine makesTile_finish _ h.strand room.fresh (g2.trans (by rw [hfil]; exact hr.strands)) g5 (by rw [hfil]; exact hr.2.2)
    ⟨hn, rfl, rfl, rfl, rfl, rfl⟩ ⟨g3.1, fun x hx => ?_⟩ (fun off ho hm => ?_) rfl rfl
  · refine (g3.2 x hx).trans ?_
    rw [hk.mem, hr.mem]; rfl
  · rw [g4 off ho, hk.2 _ _ hm, hr.2.1 off ho]
    rfl

/-- An engine instruction whose body leaves the strands: what it leaves is the body's state with the instruction in flight. -/
theorem engine_flight {s u : State} {f : Form} {o : Insn} {t : Strand} {j : Job} {reads writes : List Res}
    {body : Strand → Job → M (List Effect)} {e : List Effect} (h : Issues s f o t j) (hc : t.clear reads writes = true)
    (hs : u.fil.strands = (s.moved o t).fil.strands) (hb : (body t j).run (s.moved o t) = .ok e u) :
    ∃ w, engine f o s reads writes body = .next w ∧ InFlight s w o t e ∧
      { w with fil := { w.fil with strands := u.fil.strands }, nextId := u.nextId } = u :=
  ⟨_, engine_ok h hc hb, inFlight_launch h.strand hs _ rfl, rfl⟩

end Sys2Proof.Machine
end

