-- ==== Sys2Proof/Laws/Egress.lean ====
section
/-! SUPPORT. What leaves the node: offering a unit to a channel changes the Ringmaster's queues alone, and the unit is there. -/
namespace Sys2Proof.Machine

theorem SendsOnly.refl (s : State) : SendsOnly s s := rfl

theorem SendsOnly.trans {s t u : State} (h : SendsOnly s t) (g : SendsOnly t u) : SendsOnly s u := by
  unfold SendsOnly at *
  have := congrArg (fun x : State => { x with rgm := s.rgm, nextId := s.nextId, fil := { x.fil with busy := s.fil.busy } }) g
  exact this.trans h

theorem SendsOnly.modRgm (s : State) (f : RgmSt → RgmSt) : SendsOnly s (s.modRgm f) := rfl
theorem SendsOnly.fresh (s : State) : SendsOnly s s.fresh := rfl
theorem SendsOnly.mark (s : State) (n : Nat) : SendsOnly s (s.mark n) := by
  unfold State.mark
  split <;> rfl
theorem SendsOnly.modStat (s : State) (v : Unit_) (f : QStat → QStat) : SendsOnly s (s.modStat v f) := rfl
theorem SendsOnly.enter (s : State) (v : Unit_) : SendsOnly s (s.enter v) := rfl

theorem SendsOnly.enqueue (s : State) (chan act cls : Nat) (due : Option Nat) (len : Nat) (out : Option Out) :
    SendsOnly s (s.enqueue chan act cls due len out) := by
  unfold State.enqueue
  simp only
  split
  · exact (SendsOnly.fresh s).trans ((SendsOnly.modRgm _ _).trans (.mark _ _))
  · exact (SendsOnly.fresh s).trans (.enter _ _)

theorem SendsOnly.sendUnits (chan act cls : Nat) (due : Option Nat) (head piece : Nat) (out : Out) :
    ∀ (n len : Nat) (s : State), SendsOnly s (State.sendUnits chan act cls due head piece out n len s)
  | 0, _, s => .refl s
  | n + 1, len, s => by
    unfold State.sendUnits
    split
    · exact .enqueue _ _ _ _ _ _ _
    · exact (SendsOnly.enqueue _ _ _ _ _ _ _).trans (SendsOnly.sendUnits chan act cls due head piece out n _ _)

theorem SendsOnly.sendNode (s : State) (node act cls : Nat) (due : Option Nat) (len : Nat) (out : Out) :
    SendsOnly s (s.sendNode node act cls due len out) := by
  unfold State.sendNode
  split
  · exact .sendUnits _ _ _ _ _ _ _ _ _ _
  · exact .refl s

theorem SendsOnly.sendPacket (s : State) (p : Packet) : SendsOnly s (s.sendPacket p) := by
  unfold State.sendPacket
  split
  · exact .enqueue _ _ _ _ _ _ _
  · exact .refl s

theorem SendsOnly.fold {α : Type} {f : State → α → State} (hf : ∀ s a, SendsOnly s (f s a)) :
    ∀ (l : List α) (s : State), SendsOnly s (l.foldl f s)
  | [], s => .refl s
  | a :: l, s => (hf s a).trans (SendsOnly.fold hf l _)

theorem SendsOnly.sendHost (s : State) (fn act cls addr : Nat) (data : List Byte) (relaxed : Bool) :
    SendsOnly s (s.sendHost fn act cls addr data relaxed) := by
  unfold State.sendHost
  split
  · exact .refl s
  · exact .fold (fun s e => .enqueue s _ _ _ _ _ _) _ _

theorem SendsOnly.fil {s u : State} (h : SendsOnly s u) : { u.fil with busy := s.fil.busy } = s.fil := by
  have := congrArg State.fil h; exact this
theorem SendsOnly.idx {s u : State} (h : SendsOnly s u) : u.idx = s.idx := by have := congrArg State.idx h; exact this
theorem SendsOnly.mem {s u : State} (h : SendsOnly s u) : u.mem = s.mem := by have := congrArg State.mem h; exact this
theorem SendsOnly.regs {s u : State} (h : SendsOnly s u) : u.regs = s.regs := by have := congrArg State.regs h; exact this
theorem SendsOnly.telem {s u : State} (h : SendsOnly s u) : u.telem = s.telem := by have := congrArg State.telem h; exact this
theorem SendsOnly.car {s u : State} (h : SendsOnly s u) : u.car = s.car := by have := congrArg State.car h; exact this
theorem SendsOnly.mdw {s u : State} (h : SendsOnly s u) : u.mdw = s.mdw := by have := congrArg State.mdw h; exact this
theorem SendsOnly.tally {s u : State} (h : SendsOnly s u) : u.tally = s.tally := by have := congrArg State.tally h; exact this
theorem SendsOnly.host {s u : State} (h : SendsOnly s u) : u.host = s.host := by have := congrArg State.host h; exact this
theorem SendsOnly.flash {s u : State} (h : SendsOnly s u) : u.flash = s.flash := by have := congrArg State.flash h; exact this
theorem SendsOnly.strands {s u : State} (h : SendsOnly s u) : u.fil.strands = s.fil.strands := by
  have := congrArg (fun x : State => x.fil.strands) h; exact this
theorem SendsOnly.tiles {s u : State} (h : SendsOnly s u) : u.fil.tiles = s.fil.tiles := by
  have := congrArg (fun x : State => x.fil.tiles) h; exact this

/-- A queued or waiting unit stays while others are offered. -/
theorem Offered.enqueue {s : State} {chan act cls : Nat} {out : Out} (h : Offered s chan act cls out) (chan' act' cls' : Nat)
    (due : Option Nat) (len : Nat) (out' : Option Out) : Offered (s.enqueue chan' act' cls' due len out') chan act cls out := by
  obtain ⟨v, hv, h⟩ := h
  refine ⟨v, ?_, h⟩
  unfold State.enqueue
  simp only
  split
  · have e : ∀ w : State, (w.mark 40).rgm = w.rgm := by intro w; unfold State.mark; split <;> rfl
    rw [e]
    have hv' : v ∈ s.rgm.units ++ s.rgm.waiting := hv
    show v ∈ s.rgm.units ++ (s.rgm.waiting ++ _)
    simp only [List.mem_append] at hv' ⊢
    tauto
  · have hv' : v ∈ s.rgm.units ++ s.rgm.waiting := hv
    show v ∈ (s.rgm.units ++ _) ++ s.rgm.waiting
    simp only [List.mem_append] at hv' ⊢
    tauto

/-- A unit offered is there. -/
theorem Offered.offer (s : State) (chan act cls : Nat) (due : Option Nat) (len : Nat) (out : Out) :
    Offered (s.enqueue chan act cls due len (some out)) chan act cls out := by
  unfold State.enqueue
  simp only
  split
  · have e : ∀ w : State, (w.mark 40).rgm = w.rgm := by intro w; unfold State.mark; split <;> rfl
    refine ⟨⟨s.nextId, chan, act, cls, len, due, s.ns, 0, 0, some out⟩, ?_, rfl, rfl, rfl, rfl⟩
    rw [e]
    show _ ∈ s.rgm.units ++ (s.rgm.waiting ++ [_])
    simp
  · refine ⟨⟨s.nextId, chan, act, cls, len, due, s.ns, cellsOf len, 0, some out⟩, ?_, rfl, rfl, rfl, rfl⟩
    show _ ∈ (s.rgm.units ++ [_]) ++ s.rgm.waiting
    simp only [List.mem_append, List.mem_singleton]
    exact .inl (.inr rfl)

theorem Offered.sendUnits (chan act cls : Nat) (due : Option Nat) (head piece : Nat) (out : Out) (hp : 0 < piece) :
    ∀ (n len : Nat) (s : State), len < n * piece → Offered (State.sendUnits chan act cls due head piece out n len s) chan act cls out
  | 0, len, s, h => by simp at h
  | n + 1, len, s, h => by
    unfold State.sendUnits
    split
    · exact .offer _ _ _ _ _ _ _
    · refine Offered.sendUnits chan act cls due head piece out hp n _ _ ?_
      rw [Nat.add_mul] at h
      omega

theorem Offered.sendNode {s : State} {node act cls : Nat} {l : Nat} (due : Option Nat) (len : Nat) (out : Out)
    (h : s.linkFor s.self node = some l) : Offered (s.sendNode node act cls due len out) l act cls out := by
  unfold State.sendNode
  rw [h]
  exact .sendUnits _ _ _ _ _ _ _ (by omega) _ _ _ (by
    have := Nat.div_add_mod len 4096
    have := Nat.mod_lt len (show 0 < 4096 by omega)
    omega)

/-- A route depends on the lost rings and the Carousel's registers alone. -/
theorem State.linkFor_reads {s u : State} (h : ∀ f ∈ [F.glbNodeId_node, F.carMembersLo_map, F.carMembersHi_map, F.carCfg_pairEn, F.carCfg_size, F.carStatus_pairs], u.rd f = s.rd f)
    (hc : u.car.lostRings = s.car.lostRings) (a b : Nat) : u.linkFor a b = s.linkFor a b := by
  have e1 : u.self = s.self := h _ (by decide)
  have e2 : u.members = s.members := by unfold State.members State.rd64; rw [h F.carMembersLo_map (by decide), h F.carMembersHi_map (by decide)]
  have e3 : ∀ k, u.lit k = s.lit k := by intro k; unfold State.lit; rw [h F.carCfg_pairEn (by decide), h F.carCfg_size (by decide)]
  have e4 : ∀ f r p, u.land r p f = s.land r p f := by
    intro f
    induction f with
    | zero => intro r p; rfl
    | succ f ih =>
      intro r p
      unfold State.land
      simp only [h F.carCfg_size (by decide), e2, hc, ih]
  have e5 : ∀ l, u.extend l = s.extend l := by
    intro l
    unfold State.extend
    simp only [h F.carCfg_size (by decide), h F.carStatus_pairs (by decide), hc, e3, e4]
  have e6 : ∀ f dst l, u.search dst f l = s.search dst f l := by
    intro f
    induction f with
    | zero => intro dst l; rfl
    | succ f ih =>
      intro dst l
      unfold State.search
      simp only [e5, ih]
  have e7 : ∀ x y, u.route x y = s.route x y := by
    intro x y
    unfold State.route
    simp only [e6]
  unfold State.linkFor
  simp only [e7, e1]

theorem State.linkFor_keeps {s u : State} (h : ∀ f : FieldRef, f.off ≠ F.cruAtuseCount_count.off → u.rd f = s.rd f)
    (hc : u.car.lostRings = s.car.lostRings) (a b : Nat) : u.linkFor a b = s.linkFor a b :=
  State.linkFor_reads (fun f hf => h f (by
    simp only [List.mem_cons, List.not_mem_nil, or_false] at hf
    rcases hf with rfl | rfl | rfl | rfl | rfl | rfl <;> decide)) hc a b

theorem State.linkFor_same {s u : State} (h : ∀ f : FieldRef, f.off ≠ F.cruAtuseCount_count.off → u.rd f = s.rd f) (hc : u.car = s.car) (a b : Nat) :
    u.linkFor a b = s.linkFor a b := State.linkFor_keeps h (by rw [hc]) a b

end Sys2Proof.Machine
end

