-- ==== Sys2Proof/Laws/Faults.lean ====
section
/-! SUPPORT. What a strand's fault does (R59, R69, R71): every strand of the job ends, the job takes the status of the cause, and the
act's fault registers take the fault where none is recorded. -/
namespace Sys2Proof.Machine

theorem State.job_modJob {s : State} {id : Nat} {j : Job} (f : Job → Job) (h : s.job? id = some j) (hid : ∀ k, (f k).id = k.id) :
    (s.modJob id f).job? id = some (f j) := by
  have hj : j.id = id := by simpa using List.find?_some h
  unfold State.job? State.modJob at *
  simp only
  rw [find_updWhere _ _ _ _ (by intro a; split <;> simp [hid]), h]
  simp [hj]

theorem State.job_id {s : State} {id : Nat} {j : Job} (h : s.job? id = some j) : j.id = id := by
  simpa using List.find?_some h

theorem State.wr_butRegs {s u : State} (h : { u with regs := s.regs } = s) (f : FieldRef) (v : Nat) :
    { u.wr f v with regs := s.regs } = s := h

/-- The registers of a recorded fault. -/
theorem State.recordFault_fresh {s : State} {t : Strand} {j : Job} {cls func pc cause addr : Nat}
    (h : s.rd (F.actStatus_faulted j.act) = 0) :
    (s.recordFault t j cls func pc cause addr).rd (F.actStatus_faulted j.act) = 1 ∧
    (s.recordFault t j cls func pc cause addr).rd (F.actFaultCause_cause j.act) = cause % 2 ^ 8 := by
  have hon : s.on (F.actStatus_faulted j.act) = false := by unfold State.on; rw [h]; rfl
  unfold State.recordFault State.wr64
  simp only [hon, Bool.false_eq_true, if_false]
  constructor <;>
  simp [State.rd_wr_other, State.rd_wr_same, State.rd_wr_apart, F.actStatus_faulted, F.actFaultJobHi_jobId, F.actFaultJobLo_jobId,
    F.actFaultAddrHi_addr, F.actFaultAddrLo_addr, F.actFaultWordHi_routine, F.actFaultWordLo_word, F.actFaultCause_crew,
    F.actFaultCause_strand, F.actFaultCause_function, F.actFaultCause_class, F.actFaultCause_cause]

/-- A recorded fault changes registers alone. -/
theorem State.recordFault_only (s : State) (t : Strand) (j : Job) (cls func pc cause addr : Nat) :
    { s.recordFault t j cls func pc cause addr with regs := s.regs } = s := by
  unfold State.recordFault State.wr64
  simp only []
  split
  · rfl
  · repeat refine State.wr_butRegs ?_ _ _
    rfl

/-- The end of a job's strands changes their list, and a counter. -/
theorem State.stopStrands_only (s : State) (job : Nat) :
    { s.stopStrands job with telem := s.telem, fil := { (s.stopStrands job).fil with strands := s.fil.strands } } = s := by
  unfold State.stopStrands
  simp only []
  split <;> rfl

/-- It leaves jobs, memory and registers. -/
theorem State.stopStrands_job (s : State) (job id : Nat) : (s.stopStrands job).job? id = s.job? id := by
  have h := congrArg (fun u : State => u.job? id) (State.stopStrands_only s job)
  exact h
theorem State.stopStrands_mem (s : State) (job : Nat) : (s.stopStrands job).mem = s.mem := by
  have h := congrArg State.mem (State.stopStrands_only s job)
  simpa using h
theorem State.stopStrands_rd (s : State) (job : Nat) (f : FieldRef) : (s.stopStrands job).rd f = s.rd f := by
  have h := congrArg (fun u : State => u.rd f) (State.stopStrands_only s job)
  exact h

/-- The end of a job: its strands. -/
theorem State.failJob_strands (s : State) (job st dt : Nat) : ∀ v ∈ (s.failJob job st dt).fil.strands, v.job = job → v.ended = true := by
  intro v hv hj
  unfold State.failJob State.stopStrands updWhere at hv
  simp only [List.mem_map] at hv
  obtain ⟨a, _, rfl⟩ := hv
  by_cases h : a.job = job
  · simp [h]
  · simp [h] at hj

/-- The end of a job: its status. -/
theorem State.failJob_job {s : State} {job st dt : Nat} {j : Job} (h : s.job? job = some j) (h0 : j.status = 0) :
    (s.failJob job st dt).job? job = some { j with status := st, detail := dt } := by
  unfold State.failJob
  rw [State.stopStrands_job]
  have := State.job_modJob (fun j => if j.status = 0 then { j with status := st, detail := dt } else j) h
    (fun k => by split <;> rfl)
  simp only [h0, if_true] at this
  exact this

/-- A fault of a strand that runs. -/
theorem State.strandFault_does {s : State} {id cls func pc cause addr : Nat} {t : Strand} {j : Job} (ht : s.anyStrand? id = some t)
    (hj : s.job? t.job = some j) :
    (s.strandFault id cls func pc cause addr).mem = s.mem ∧
    (∀ v ∈ (s.strandFault id cls func pc cause addr).fil.strands, v.job = t.job → v.ended = true) ∧
    (j.status = 0 → (s.strandFault id cls func pc cause addr).job? t.job =
      some { j with status := (causeStatus cause).1, detail := (causeStatus cause).2 }) ∧
    (s.rd (F.actStatus_faulted j.act) = 0 →
      (s.strandFault id cls func pc cause addr).rd (F.actStatus_faulted j.act) = 1 ∧
      (s.strandFault id cls func pc cause addr).rd (F.actFaultCause_cause j.act) = cause % 2 ^ 8) := by
  have hid := State.job_id hj
  have e : s.strandFault id cls func pc cause addr =
      ((if cause = cTileCheck then s.count 0x706 1 else s).recordFault t j cls func pc cause addr).failJob j.id
        (causeStatus cause).1 (causeStatus cause).2 := by
    unfold State.strandFault
    rw [ht]
    simp only [hj]
  rw [e, ← hid]
  generalize hs1 : (if cause = cTileCheck then s.count 0x706 1 else s) = s1
  have hfil : s1.fil = s.fil := by rw [← hs1]; split <;> rfl
  have hmem : s1.mem = s.mem := by rw [← hs1]; split <;> rfl
  have hrd (f : FieldRef) : s1.rd f = s.rd f := by rw [← hs1]; split <;> rfl
  have hr := State.recordFault_only s1 t j cls func pc cause addr
  have hr1 : (s1.recordFault t j cls func pc cause addr).fil = s1.fil := by have := congrArg State.fil hr; exact this
  have hr2 : (s1.recordFault t j cls func pc cause addr).mem = s1.mem := by have := congrArg State.mem hr; exact this
  refine ⟨?_, State.failJob_strands _ _ _ _, fun h0 => ?_, fun h0 => ?_⟩
  · rw [← hmem, ← hr2]; exact State.stopStrands_mem _ _
  · refine State.failJob_job ?_ h0
    unfold State.job? at *
    rw [hr1, hfil, hid]; exact hj
  · have := State.recordFault_fresh (t := t) (cls := cls) (func := func) (pc := pc) (cause := cause) (addr := addr)
      (show s1.rd (F.actStatus_faulted j.act) = 0 by rw [hrd]; exact h0)
    unfold State.failJob
    rw [State.stopStrands_rd, State.stopStrands_rd]
    exact this

end Sys2Proof.Machine
end

