-- ==== Sys2Proof/Laws/Flash.lean ====
section
/-! SUPPORT. What the reads of full vectors and of flash pages leave alone. -/
namespace Sys2Proof.Machine

theorem MediaOnly.refl (s : State) : MediaOnly s s := rfl

theorem MediaOnly.trans {s t u : State} (h : MediaOnly s t) (g : MediaOnly t u) : MediaOnly s u := by
  unfold MediaOnly at *
  have := congrArg (fun x : State => { x with
    regs := s.regs, telem := s.telem, pwr := s.pwr, flash := s.flash, rgm := s.rgm, nextId := s.nextId, free := s.free,
    mem := { x.mem with hits := s.mem.hits, retiring := s.mem.retiring }, fil := { x.fil with busy := s.fil.busy } }) g
  exact this.trans h

theorem ReadsOnly.media {s u : State} (h : ReadsOnly s u) : MediaOnly s u := by
  have := congrArg (fun x : State => { x with
    flash := s.flash, rgm := s.rgm, nextId := s.nextId, free := s.free, fil := { x.fil with busy := s.fil.busy } }) h
  exact this

theorem SendsOnly.media {s u : State} (h : SendsOnly s u) : MediaOnly s u := by
  have := congrArg (fun x : State => { x with
    regs := s.regs, telem := s.telem, pwr := s.pwr, flash := s.flash, free := s.free,
    mem := { x.mem with hits := s.mem.hits, retiring := s.mem.retiring } }) h
  exact this

theorem MediaOnly.wr (s : State) (f : FieldRef) (v : Nat) : MediaOnly s (s.wr f v) := rfl
theorem MediaOnly.wr64 (s : State) (f g : FieldRef) (v : Nat) : MediaOnly s (s.wr64 f g v) := rfl
theorem MediaOnly.bump (s : State) (f : FieldRef) (v : Nat) : MediaOnly s (s.bump f v) := rfl
theorem MediaOnly.count (s : State) (c v : Nat) : MediaOnly s (s.count c v) := rfl
theorem MediaOnly.modFlash (s : State) (f : FlashSt → FlashSt) : MediaOnly s (s.modFlash f) := rfl
theorem MediaOnly.draw (s : State) (w : Nat) : MediaOnly s (s.draw w).2 := rfl

theorem MediaOnly.fold {α : Type} {f : State → α → State} (hf : ∀ s a, MediaOnly s (f s a)) :
    ∀ (l : List α) (s : State), MediaOnly s (l.foldl f s)
  | [], s => .refl s
  | a :: l, s => (hf s a).trans (MediaOnly.fold hf l _)

theorem MediaOnly.logAdt (s : State) (kind chan die act : Nat) : MediaOnly s (s.logAdt kind chan die act) := by
  unfold State.logAdt
  split <;> rfl

theorem MediaOnly.transfer (s : State) (read : Bool) (p : Place) (act cls wseq what : Nat) (due : Option Nat) :
    MediaOnly s (s.transfer read p act cls wseq what due) := (SendsOnly.enqueue s _ _ _ _ _ _).media

theorem MediaOnly.takeSlots {s u : State} {slc : Bool} {n : Nat} {x : Stripe} (h : s.takeSlots slc n = some (x, u)) : MediaOnly s u := by
  unfold State.takeSlots at h
  cases hx : s.flash.slots? slc n with
  | none => rw [hx] at h; simp at h
  | some y =>
    rw [hx] at h
    simp only [Option.map_some, Option.some.injEq, Prod.mk.injEq] at h
    rw [← h.2]; rfl

theorem MediaOnly.takeSlot {s u : State} {slc : Bool} {p : Place} (h : s.takeSlot slc = some (p, u)) : MediaOnly s u := by
  unfold State.takeSlot at h
  cases hx : s.takeSlots slc 1 with
  | none => rw [hx] at h; simp at h
  | some e =>
    obtain ⟨x, v⟩ := e
    rw [hx] at h
    simp only [Option.map_some, Option.some.injEq, Prod.mk.injEq] at h
    rw [← h.2]; exact .takeSlots hx

theorem MediaOnly.startCopy (s : State) (p : FPage) (kind : Nat) (pl : Place) (due : Option Nat) :
    MediaOnly s (s.startCopy p kind pl due) := by
  unfold State.startCopy
  split
  · exact .refl s
  · simp only
    split
    · exact (MediaOnly.modFlash s _).trans (.transfer _ _ _ _ _ _ _ _)
    · exact (MediaOnly.modFlash s _).trans ((MediaOnly.transfer _ _ _ _ _ _ _ _).trans (.transfer _ _ _ _ _ _ _ _))

theorem MediaOnly.owe (s : State) (p : FPage) (kind : Nat) : MediaOnly s (s.owe p kind) := rfl

theorem MediaOnly.newRun {s u : State} {m : SegMap} {page : Nat} {r : Run} (h : s.newRun m page = some (r, u)) : MediaOnly s u := by
  unfold State.newRun at h
  cases hx : s.takeSlots false 256 with
  | none => rw [hx] at h; simp at h
  | some e =>
    obtain ⟨x, v⟩ := e
    rw [hx] at h
    simp only [Option.map_some, Option.some.injEq, Prod.mk.injEq] at h
    rw [← h.2]; exact (MediaOnly.takeSlots hx).trans (.modFlash _ _)

theorem MediaOnly.relocate (s : State) (p : FPage) (kind : Nat) (due : Option Nat) : MediaOnly s (s.relocate p kind due) := by
  unfold State.relocate
  split
  · exact .owe _ _ _
  · split
    · exact .refl s
    · split
      · split
        · exact .owe _ _ _
        · rename_i h
          exact (MediaOnly.takeSlot h).trans (.startCopy _ _ _ _ _)
      · simp only
        split
        · exact .owe _ _ _
        · split
          · exact .owe _ _ _
          · rename_i h
            exact (MediaOnly.newRun h).trans (.fold (fun s q => .startCopy s _ _ _ _) _ _)

theorem MediaOnly.damage (s : State) (check path act node : Nat) : MediaOnly s (s.damage check path act node) := by
  unfold State.damage
  simp only
  split <;> rfl

theorem MediaOnly.readPage (s : State) (act page media : Nat) : MediaOnly s (s.readPage act page media).2 := by
  have nand : ∀ (c di : Nat) (f : State → State) (p : FPage) (d : List Byte), (∀ s, MediaOnly s (f s)) →
      MediaOnly s (f ((s.modFlash fun f => { f with failNext := f.failNext.erase (c, di) }).transfer true p.place act 1 p.wseq 3 none)) :=
    fun c di f p d hf => (MediaOnly.modFlash s _).trans ((MediaOnly.transfer _ _ _ _ _ _ _ _).trans (hf _))
  have cells : MediaOnly s (match s.flash.page? act page with
    | none => ((zeros pageBytes, false), s)
    | some p =>
      match p.data with
      | none => ((zeros pageBytes, false), s)
      | some d =>
        let (c, di) := (p.place.chan, p.place.die)
        let forced := s.flash.failNext.contains (c, di)
        let m := if p.lost then 3 else if forced || !s.flash.inUse c di || s.flash.rebuild.contains (c, di) then max 2 media else media
        let s := (s.modFlash fun f => { f with failNext := f.failNext.erase (c, di) }).transfer true p.place act 1 p.wseq 3 none
        match m with
        | 0 => ((d, false), s)
        | 1 => ((d, false), (s.bump F.adtRetryCount_count 1).logAdt 0 c di act)
        | 2 => ((d, false), ((s.bump F.adtRebuiltCount_count 1).logAdt 1 c di act).relocate p 1 (some (s.now + 2048)))
        | _ => ((zeros pageBytes, true), (s.bump F.adtUncorrCount_count 1).logAdt 2 c di act)).2 := by
    split
    · exact .refl s
    · rename_i p _
      split
      · exact .refl s
      · rename_i d _
        simp only
        split
        · exact nand _ _ id p d (fun s => .refl s)
        · exact nand _ _ (fun s => (s.bump F.adtRetryCount_count 1).logAdt 0 p.place.chan p.place.die act) p d
            (fun s => (MediaOnly.bump s _ _).trans (.logAdt _ _ _ _ _))
        · exact nand _ _ (fun s => ((s.bump F.adtRebuiltCount_count 1).logAdt 1 p.place.chan p.place.die act).relocate p 1 (some (s.now + 2048))) p d
            (fun s => (MediaOnly.bump s _ _).trans ((MediaOnly.logAdt _ _ _ _ _).trans (.relocate _ _ _ _)))
        · exact nand _ _ (fun s => (s.bump F.adtUncorrCount_count 1).logAdt 2 p.place.chan p.place.die act) p d
            (fun s => (MediaOnly.bump s _ _).trans (.logAdt _ _ _ _ _))
  unfold State.readPage
  simp only
  split
  · exact cells
  · split
    · split
      · exact cells
      · exact .refl s
    · exact .refl s

theorem MediaOnly.step_wr {s u : State} (h : MediaOnly s u) (f : FieldRef) (v : Nat) : MediaOnly s (u.wr f v) := h
theorem MediaOnly.step_wr64 {s u : State} (h : MediaOnly s u) (f g : FieldRef) (v : Nat) : MediaOnly s (u.wr64 f g v) := h

theorem MediaOnly.adtRefresh (s : State) : MediaOnly s s.adtRefresh := by
  unfold State.adtRefresh
  simp only []
  refine MediaOnly.trans ?_ (MediaOnly.fold (fun s a => MediaOnly.step_wr (MediaOnly.wr s _ _) _ _) _ _)
  refine MediaOnly.trans ?_ (MediaOnly.fold (fun s a => MediaOnly.step_wr (MediaOnly.step_wr (MediaOnly.wr s _ _) _ _) _ _) _ _)
  repeat' first
    | with_reducible refine MediaOnly.step_wr ?_ _ _
    | with_reducible refine MediaOnly.step_wr64 ?_ _ _ _
    | with_reducible exact MediaOnly.modFlash _ _
    | split

theorem MediaOnly.idx {s u : State} (h : MediaOnly s u) : u.idx = s.idx := by have := congrArg State.idx h; exact this
theorem MediaOnly.strands {s u : State} (h : MediaOnly s u) : u.fil.strands = s.fil.strands := by
  have := congrArg (fun x : State => x.fil.strands) h; exact this
theorem MediaOnly.host {s u : State} (h : MediaOnly s u) : u.host = s.host := by have := congrArg State.host h; exact this
theorem MediaOnly.wnz {s u : State} (h : MediaOnly s u) : u.wnz = s.wnz := by have := congrArg State.wnz h; exact this
theorem MediaOnly.car {s u : State} (h : MediaOnly s u) : u.car = s.car := by have := congrArg State.car h; exact this
theorem MediaOnly.mdw {s u : State} (h : MediaOnly s u) : u.mdw = s.mdw := by have := congrArg State.mdw h; exact this
theorem MediaOnly.tally {s u : State} (h : MediaOnly s u) : u.tally = s.tally := by have := congrArg State.tally h; exact this
theorem MediaOnly.rst {s u : State} (h : MediaOnly s u) : u.rst = s.rst := by have := congrArg State.rst h; exact this

/-! ## Registers alone -/

/-- Two states differ in nothing but the registers. -/
def OnRegs (s u : State) : Prop := { u with regs := s.regs } = s

theorem OnRegs.refl (s : State) : OnRegs s s := rfl
theorem OnRegs.trans {s t u : State} (h : OnRegs s t) (g : OnRegs t u) : OnRegs s u := by
  unfold OnRegs at *
  have := congrArg (fun x : State => { x with regs := s.regs }) g
  exact this.trans h
theorem OnRegs.flash {s u : State} (h : OnRegs s u) : u.flash = s.flash := by have := congrArg State.flash h; exact this
theorem OnRegs.mem {s u : State} (h : OnRegs s u) : u.mem = s.mem := by have := congrArg State.mem h; exact this
theorem OnRegs.fil {s u : State} (h : OnRegs s u) : u.fil = s.fil := by have := congrArg State.fil h; exact this
theorem OnRegs.telem {s u : State} (h : OnRegs s u) : u.telem = s.telem := by have := congrArg State.telem h; exact this
theorem OnRegs.idx {s u : State} (h : OnRegs s u) : u.idx = s.idx := by have := congrArg State.idx h; exact this
theorem OnRegs.car {s u : State} (h : OnRegs s u) : u.car = s.car := by have := congrArg State.car h; exact this
theorem OnRegs.mdw {s u : State} (h : OnRegs s u) : u.mdw = s.mdw := by have := congrArg State.mdw h; exact this
theorem OnRegs.rgm {s u : State} (h : OnRegs s u) : u.rgm = s.rgm := by have := congrArg State.rgm h; exact this
theorem OnRegs.pwr {s u : State} (h : OnRegs s u) : u.pwr = s.pwr := by have := congrArg State.pwr h; exact this
theorem OnRegs.rst {s u : State} (h : OnRegs s u) : u.rst = s.rst := by have := congrArg State.rst h; exact this
theorem OnRegs.host {s u : State} (h : OnRegs s u) : u.host = s.host := by have := congrArg State.host h; exact this
theorem OnRegs.tally {s u : State} (h : OnRegs s u) : u.tally = s.tally := by have := congrArg State.tally h; exact this
theorem OnRegs.wnz {s u : State} (h : OnRegs s u) : u.wnz = s.wnz := by have := congrArg State.wnz h; exact this
theorem OnRegs.wr (s : State) (f : FieldRef) (v : Nat) : OnRegs s (s.wr f v) := rfl
theorem OnRegs.step_wr {s u : State} (h : OnRegs s u) (f : FieldRef) (v : Nat) : OnRegs s (u.wr f v) := h
theorem OnRegs.step_wr64 {s u : State} (h : OnRegs s u) (f g : FieldRef) (v : Nat) : OnRegs s (u.wr64 f g v) := h
theorem OnRegs.fold {α : Type} {f : State → α → State} (hf : ∀ s a, OnRegs s (f s a)) :
    ∀ (l : List α) (s : State), OnRegs s (l.foldl f s)
  | [], s => .refl s
  | a :: l, s => (hf s a).trans (OnRegs.fold hf l _)

/-- What the registers of the Adit show is brought up to date; of the flash, only the note of a shortage changes. -/
theorem State.adtRefresh_does (s : State) :
    OnRegs (s.modFlash fun f => { f with shortSince := f.shortSince || s.short }) s.adtRefresh := by
  unfold State.adtRefresh
  simp only []
  refine OnRegs.trans ?_ (OnRegs.fold (fun s a => OnRegs.step_wr (OnRegs.wr s _ _) _ _) _ _)
  refine OnRegs.trans ?_ (OnRegs.fold (fun s a => OnRegs.step_wr (OnRegs.step_wr (OnRegs.wr s _ _) _ _) _ _) _ _)
  repeat' first
    | with_reducible refine OnRegs.step_wr ?_ _ _
    | with_reducible refine OnRegs.step_wr64 ?_ _ _ _
    | with_reducible exact OnRegs.refl _
    | split

/-- What ADT shows is in its read-only registers: ADT_CTRL stays. -/
theorem State.adtRefresh_leaves (s : State) : s.adtRefresh.reg F.adtCtrl_forceShort.off = s.reg F.adtCtrl_forceShort.off := by
  have step : ∀ {s u : State} (f : FieldRef) (v : Nat), u.reg F.adtCtrl_forceShort.off = s.reg F.adtCtrl_forceShort.off → f.off ≠ F.adtCtrl_forceShort.off →
      (u.wr f v).reg F.adtCtrl_forceShort.off = s.reg F.adtCtrl_forceShort.off := fun f v h hf => (State.reg_wr_other _ f v hf).trans h
  have step64 : ∀ {s u : State} (f g : FieldRef) (v : Nat), u.reg F.adtCtrl_forceShort.off = s.reg F.adtCtrl_forceShort.off → f.off ≠ F.adtCtrl_forceShort.off → g.off ≠ F.adtCtrl_forceShort.off →
      (u.wr64 f g v).reg F.adtCtrl_forceShort.off = s.reg F.adtCtrl_forceShort.off := fun f g v h hf hg =>
        (State.reg_wr_other _ g _ hg).trans ((State.reg_wr_other _ f _ hf).trans h)
  have fold : ∀ {s : State} (f : State → Nat → State), (∀ s a, (f s a).reg F.adtCtrl_forceShort.off = s.reg F.adtCtrl_forceShort.off) → ∀ (l : List Nat) (u : State),
      u.reg F.adtCtrl_forceShort.off = s.reg F.adtCtrl_forceShort.off → (l.foldl f u).reg F.adtCtrl_forceShort.off = s.reg F.adtCtrl_forceShort.off := by
    intro s f hf l
    induction l with
    | nil => intro u h; exact h
    | cons a l ih => intro u h; exact ih _ ((hf u a).trans h)
  have e1 : ∀ a, (F.adtActSeg_open a).off ≠ F.adtCtrl_forceShort.off := by intro a; simp only [F.adtActSeg_open, F.adtCtrl_forceShort]; omega
  have e2 : ∀ a, (F.adtActSeg_attached a).off ≠ F.adtCtrl_forceShort.off := by intro a; simp only [F.adtActSeg_attached, F.adtCtrl_forceShort]; omega
  have e3 : ∀ a, (F.adtActBound_segs a).off ≠ F.adtCtrl_forceShort.off := by intro a; simp only [F.adtActBound_segs, F.adtCtrl_forceShort]; omega
  have e4 : ∀ a, (F.adtChStatus_dies a).off ≠ F.adtCtrl_forceShort.off := by intro a; simp only [F.adtChStatus_dies, F.adtCtrl_forceShort]; omega
  have e5 : ∀ a, (F.adtChStatus_retired a).off ≠ F.adtCtrl_forceShort.off := by intro a; simp only [F.adtChStatus_retired, F.adtCtrl_forceShort]; omega
  unfold State.adtRefresh
  simp only []
  refine fold _ (fun s a => step _ _ (step _ _ rfl (e4 a)) (e5 a)) _ _ ?_
  refine fold _ (fun s a => step _ _ (step _ _ (step _ _ rfl (e1 a)) (e2 a)) (e3 a)) _ _ ?_
  repeat' first
    | with_reducible refine step _ _ ?_ (by decide)
    | with_reducible refine step64 _ _ _ ?_ (by decide) (by decide)
    | split
    | exact rfl

end Sys2Proof.Machine
end

