-- ==== Sys2Proof/Laws/Reductions.lean ====
section
/-! SUPPORT. Ordered reductions (R91): what a contribution that its slot accepts does. -/
namespace Sys2Proof.Machine

/-- What a slot needs of a contribution (R91). -/
def Ored.accepts (r : Ored) (n op fmt shape idx : Nat) : Prop :=
  idx < n ∧ r.n = n ∧ r.op = op ∧ r.fmt = fmt ∧ r.shape = shape ∧ ∀ c ∈ r.contribs, c.idx ≠ idx

/-- The slots of a state after a contribution. -/
def State.withOred (s : State) (job : Nat) (hew : Bool) (slot : Nat) (r : Ored) : State :=
  { s with fil := { s.fil with oreds := r :: s.fil.oreds.filter fun q => !(q.job == job && q.hew == hew && q.slot == slot) } }

theorem contribute_run {s : State} {job : Nat} {hew : Bool} {slot n op fmt shape : Nat} {c : Contrib} {r : Ored}
    (hr : r = (s.ored? job hew slot).getD ⟨job, hew, slot, n, op, fmt, shape, s.now, []⟩) (h : r.accepts n op fmt shape c.idx) :
    (contribute job hew slot n op fmt shape c).run s =
      .ok { r with contribs := r.contribs ++ [c] } (s.withOred job hew slot { r with contribs := r.contribs ++ [c] }) := by
  obtain ⟨h1, h2, h3, h4, h5, h6⟩ := h
  have hany : r.contribs.any (·.idx == c.idx) = false := by
    rw [List.any_eq_false]; intro d hd; simpa using h6 d hd
  unfold contribute
  rw [M.run_bind_ok (M.run_get s)]
  simp only
  rw [← hr, need_pure _ _ (by simpa using h1), M.bind_pure, need_pure _ _ (by simpa using h2), M.bind_pure,
    need_pure _ _ (by simp [h3, h4, h5]), M.bind_pure, need_pure _ _ (by simp [hany]), M.bind_pure]
  rfl

theorem ored_withOred {s : State} {job : Nat} {hew : Bool} {slot : Nat} {r : Ored} (h1 : r.job = job) (h2 : r.hew = hew) (h3 : r.slot = slot) :
    (s.withOred job hew slot r).ored? job hew slot = some r := by
  unfold State.ored? State.withOred
  simp [h1, h2, h3]

/-- The slot of a job, class and number has that job, class and number. -/
theorem ored_fields {s : State} {job : Nat} {hew : Bool} {slot n op fmt shape b : Nat} {r : Ored}
    (hr : r = (s.ored? job hew slot).getD ⟨job, hew, slot, n, op, fmt, shape, b, []⟩) : r.job = job ∧ r.hew = hew ∧ r.slot = slot := by
  cases h : s.ored? job hew slot with
  | none => rw [h] at hr; subst hr; exact ⟨rfl, rfl, rfl⟩
  | some q =>
    rw [h] at hr
    have := List.find?_some h
    simp only [Bool.and_eq_true, beq_iff_eq] at this
    subst hr
    exact ⟨this.1.1, this.1.2, this.2⟩

end Sys2Proof.Machine
end

