-- ==== Sys2Proof/Laws/Search.lean ====
section
/-! SUPPORT. The operands of search instructions: lists, snapshots, slots and vectors. -/
namespace Sys2Proof.Machine

/-- A LIST tile read at use after other tiles were read. -/
theorem listAt_run {s u : State} {t : Strand} {j : Job} {reg : Nat} {x : Tile} {v : TileVal} {l : ListInfo} (h : AtRest s t reg x v)
    (hu : TileReads s u) (hf : x.fmt = 8) (hl : v.info = some l) : ∃ w, (listAt t j reg).run u = .ok (v, l) w ∧ TileReads u w := by
  obtain ⟨w, h1, h2⟩ := useAt_run (j := j) (fun v : Tile => v.fmt == 8) h hu (fun y hy => by
    have : y.fmt = x.fmt := by have := congrArg Tile.fmt hy; exact this
    simp [this, hf])
  refine ⟨w, ?_, h2⟩
  unfold listAt
  rw [M.run_bind_ok h1, orFault_pure _ _ hl]
  rfl

/-- A snapshot that the node has does not hold an instruction back. -/
theorem snapshotFor_run {s : State} (cls func : Nat) (o : Insn) {t : Strand} (h : (t.getS 62).toNat ≤ s.tally.stable) :
    (snapshotFor cls func o t).run (s.moved o t) = .ok (t.getS 62).toNat (s.moved o t) := by
  unfold snapshotFor
  simp only
  rw [M.run_bind_ok (M.run_get _)]
  rw [if_neg (show ¬ ((t.getS 62).toNat > (s.moved o t).tally.stable) by show ¬ ((t.getS 62).toNat > s.tally.stable); omega)]
  rfl

/-- The slots of a cage. -/
theorem slots_run {u : State} {t : Strand} {l : List Nat} {qs : List Slot} (h : l.map t.getQ = qs.map some) :
    (l.mapM (slotAt t)).run u = .ok qs u := by
  induction l generalizing qs with
  | nil => cases qs with
    | nil => rfl
    | cons => simp at h
  | cons n l ih =>
    cases qs with
    | nil => simp at h
    | cons q qs =>
      simp only [List.map_cons, List.cons.injEq] at h
      rw [List.mapM_cons]
      have : slotAt t n = (pure q : M Slot) := orFault_pure _ _ h.1
      rw [this, M.bind_pure, M.run_bind_ok (ih h.2)]
      rfl

/-- The tiles of a vector operand. -/
theorem vecTiles_run {s : State} {t : Strand} {x : Nat → Tile} {v : Nat → TileVal} {l : List Nat}
    (h : ∀ n ∈ l, AtRest s t n (x n) (v n) ∧ (x n).fmt = 0 ∧ (x n).shape = 6) :
    (l.mapM fun h => do pure (h, ← tileAt t h fun v => v.fmt == 0 && v.shape == 6)).run s = .ok (l.map fun n => (n, x n)) s := by
  induction l with
  | nil => rfl
  | cons n l ih =>
    obtain ⟨h1, h2, h3⟩ := h n List.mem_cons_self
    rw [List.mapM_cons]
    have e : ((do pure (n, ← tileAt t n fun v => v.fmt == 0 && v.shape == 6) : M (Nat × Tile))).run s = .ok (n, x n) s := by
      rw [M.run_bind_ok (tileAt_run _ h1.handle h1.tile (by simp [h2, h3]))]
      rfl
    rw [M.run_bind_ok e, M.run_bind_ok (ih fun m hm => h m (List.mem_cons_of_mem _ hm))]
    rfl

/-- The tiles of a vector operand, read at use. -/
theorem vecUses_run {s : State} {t : Strand} {j : Job} {x : Nat → Tile} {v : Nat → TileVal} {l : List Nat}
    (h : ∀ n ∈ l, AtHome s t n (x n) (v n)) (u : State) (hu : TileReads s u) :
    ∃ w, ((l.map fun n => (n, x n)).mapM fun e => useTile t j e.1 e.2).run u = .ok (l.map v) w ∧ TileReads s w := by
  induction l generalizing u with
  | nil => exact ⟨u, rfl, hu⟩
  | cons n l ih =>
    obtain ⟨w, h1, h2⟩ := useTile_run (j := j) false ((h n List.mem_cons_self).mono hu) (fun hf => by simp at hf)
    obtain ⟨w', h3, h4⟩ := ih (fun m hm => h m (List.mem_cons_of_mem _ hm)) w (hu.trans h2)
    refine ⟨w', ?_, h4⟩
    rw [List.map_cons, List.mapM_cons, M.run_bind_ok h1, M.run_bind_ok h3]
    rfl

/-- A vector operand. -/
theorem vectorAt_run {s : State} {t : Strand} {j : Job} {reg dim : Nat} {vals : List Nat} (o : Insn) (h : VectorAt s t j reg dim vals) :
    ∃ u, (vectorAt t j reg dim).run (s.moved o t) = .ok vals u ∧ TileReads (s.moved o t) u := by
  obtain ⟨r, x, v, h1, h2, h3⟩ := h
  obtain ⟨u, g1, g2⟩ := vecUses_run (s := s.moved o t) (j := j) (x := x) (v := v) (l := vecHandles reg dim)
    (fun n hn => ((h2 n hn).2.2.1.moved (t' := t) o).toAtHome) (s.moved o t) (.refl _)
  refine ⟨u, ?_, g2⟩
  have hr : (s.moved o t).routineOf j = some r := h1
  have ht : (vectorTiles t j reg dim).run (s.moved o t) = .ok ((vecHandles reg dim).map fun n => (n, x n)) (s.moved o t) := by
    unfold vectorTiles
    rw [M.run_bind_ok (M.run_get _)]
    simp only [hr]
    rw [need_pure _ _ (by
      rw [List.all_eq_true]; intro n hn; exact decide_eq_true ⟨(h2 n hn).1, (h2 n hn).2.1⟩), M.bind_pure]
    exact vecTiles_run (s := s.moved o t) (x := x) (v := v) fun n hn => ⟨(h2 n hn).2.2.1.moved (t' := t) o, (h2 n hn).2.2.2⟩
  unfold vectorAt vectorData
  rw [M.run_bind_ok ht, M.run_bind_ok g1, h3]
  simp only [List.flatMap_map]
  rfl

end Sys2Proof.Machine
end

