-- ==== Sys2Proof/Tests/Slice0.lean ====
section
/-! SUPPORT. The tests: the well-formedness check refuses an ill-formed term for each of its checks; and for every statement that has
hypotheses, concrete states and operands that meet them together. -/
namespace Sys2Proof.Tests
open Sys2Proof.Machine
set_option Elab.async false

/-! ## A small state: one job of act 0 with one strand on crew 0, which holds 4,096 bytes of crew store as its work area. -/

def desc0 : Desc := ⟨0, 5, 0, 0, 1, 0, 0, 0, 0, 0, 0, [], 0, 0⟩
def rout0 : Routine := ⟨0, 5, true, false, 1, 1, 32, 8, 0, 0, [], 0, 0, false⟩
def job0 : Job := ⟨1, 0, 0, 0, desc0, .running, 0, 0, false, [0], 1, 0, 0, [], 0, 0, 0, 0, [], false, false, false, none, none, (0, 0), false⟩
def area : Nat := crewAddr 0 0
def strand0 : Strand := ⟨1, 1, 0, 0, 0, 0, [(2, 5#64), (3, 7#64)], [(1, encodeDsc area 64 false), (2, encodeDsc area 64 true)], [], [(1, true)], [], [],
  .no, 0, [], false⟩

/-- The small state. -/
def base : State :=
  { State.reset with
    fil := { State.reset.fil with jobs := [job0], strands := [strand0], routines := [rout0], allocs := [⟨area, 4096, 0, .work 1⟩] }
    nextId := 100 }

/-- An instruction word of strand 1 without a predicate. -/
def word (dst a b imm : Nat) (ext : List DWord := []) : Insn :=
  { strand := 1, pneg := false, pidx := 0, dst := dst, a := a, b := b, imm := BitVec.ofNat 28 imm, ext := ext }

/-- A strand without work in flight is clear. -/
theorem clear_of {t : Strand} (h : t.inflight = []) (r w : List Res) : t.clear r w = true := by
  unfold Strand.clear; rw [h]; rfl

/-- The strand of a state with other registers issues a word of any form that is well formed. -/
theorem issues_of {s : State} {f : Form} {o : Insn} {t : Strand} {j : Job} (hf : f.ok o = true) (ht : s.strand? o.strand = some t)
    (hj : s.job? t.job = some j) (hr : t.ready = true) (hb : s.rst.block = none) (hc : s.crewIssues t.crew = true)
    (hp : predOk t o = true) (hi : t.inflight = []) : Issues s f o t j := by
  refine ⟨⟨hf, ht, hj, hr, ?_, hc, clear_of hi _ _⟩, hp, clear_of hi _ _⟩
  unfold State.blockStops; rw [hb]

theorem mayUse_of {s : State} {j : Job} {r : Right} {a n : Nat} (h : ∀ i < n, (physOf (a + i)).map (s.mayAccess j r) = some true) :
    MayUse s j r a n := by
  intro x h1 h2
  obtain ⟨i, rfl⟩ := Nat.exists_eq_add_of_le h1
  have := h i (by omega)
  cases hp : physOf (a + i) with
  | none => rw [hp] at this; cases this
  | some p => rw [hp] at this; exact ⟨p, rfl, by simpa using this⟩

/-! ## Well-formedness: each check of R76 refuses a term. -/

theorem test_wf_ok : Form.sclAdd.ok (word 1 2 3 0) = true := by decide
theorem test_wf_register_range : Form.movDset.ok (word 16 2 3 0) = false := by decide
theorem test_wf_unused_operand : Form.sclLi.ok (word 1 2 0 5) = false := by decide
theorem test_wf_predicate_range : Form.sclAdd.ok { word 1 2 3 0 with pidx := 8 } = false := by decide
theorem test_wf_extension_count : Form.sclLix.ok (word 1 0 0 0) = false := by decide
theorem test_wf_extension_by_field : Form.carAtom.ok (word 1 1 3 5 [0#64]) = false := by decide
theorem test_wf_immediate_bits : Form.sclAdd.ok (word 1 2 3 1) = false := by decide
theorem test_wf_field_range : Form.sclCmp.ok (word 1 2 3 6) = false := by decide
theorem test_wf_extension_bits : Form.carLd.ok (word 1 1 3 0 [0x100000000#64]) = false := by decide
theorem test_wf_no_predicate : Form.hewOred.ok { word 1 2 3 0 [0#64] with pidx := 1 } = false := by decide
theorem test_wf_tile_form : (Instr.movTalloc (word 1 0 0 0x70)).wf = false := by decide

/-! ## Witnesses of the statements about steps, scalars and memory -/

theorem test_idle_step : State.reset.pending = [] ∧ State.reset.tally.sub < 1023 := by decide
theorem test_idle_step_last : 1023 ≤ ({ State.reset with tally := { State.reset.tally with sub := 1023 } } : State).tally.sub := by decide
theorem test_invalid_word : (Instr.sclAdd (word 1 2 3 1)).word? = some (Form.sclAdd, word 1 2 3 1) ∧ (Instr.sclAdd (word 1 2 3 1)).wf = false := by decide

/-- A word whose predicate fails: p1 holds, and the word asks for its complement. -/
def unlucky : Insn := { word 1 2 3 0 with pidx := 1, pneg := true }
theorem test_failed_predicate : (Instr.sclAdd unlucky).word? = some (Form.sclAdd, unlucky) ∧ (Instr.sclAdd unlucky).wf = true ∧
    ComesTo base Form.sclAdd unlucky strand0 job0 ∧ predOk strand0 unlucky = false :=
  ⟨rfl, by decide, ⟨by decide, rfl, rfl, rfl, rfl, by decide, rfl⟩, by decide⟩

/-- The small state issues every well-formed word. -/
theorem base_issues {f : Form} {o : Insn} (hf : f.ok o = true) (ho : o.strand = 1) (hp : o.pidx = 0 ∧ o.pneg = false) :
    Issues base f o strand0 job0 := by
  refine issues_of hf ?_ rfl rfl rfl (by decide) ?_ rfl
  · rw [ho]; rfl
  · unfold predOk; rw [hp.1, hp.2]; rfl

theorem test_scalar_words : ∀ e ∈ Sys2Proof.Claims.integers, ∃ o, Issues base e.2.1 o strand0 job0 := by
  intro e he
  simp only [Sys2Proof.Claims.integers, List.mem_cons, List.not_mem_nil, or_false] at he
  rcases he with rfl | rfl | rfl | rfl | rfl | rfl | rfl | rfl | rfl | rfl | rfl | rfl | rfl | rfl | rfl
  · exact ⟨word 1 0 0 9, base_issues (by decide) rfl ⟨rfl, rfl⟩⟩
  · exact ⟨word 1 0 0 0 [9#64], base_issues (by decide) rfl ⟨rfl, rfl⟩⟩
  · exact ⟨word 1 2 3 0, base_issues (by decide) rfl ⟨rfl, rfl⟩⟩
  · exact ⟨word 1 2 0 9, base_issues (by decide) rfl ⟨rfl, rfl⟩⟩
  all_goals exact ⟨word 1 2 3 0, base_issues (by decide) rfl ⟨rfl, rfl⟩⟩

theorem test_add_result : (match exec (.sclAdd (word 1 2 3 0)) base with
    | .next u => (u.strand? 1).map fun t => (t.getS 1, t.pc)
    | _ => none) = some (12#64, 1) := by decide
theorem test_divide_by_zero : (match exec (.sclDivu (word 1 2 0 0)) base with
    | .next u => (u.strand? 1).map fun t => t.getS 1
    | _ => none) = some 0xFFFFFFFFFFFFFFFF#64 := by decide
theorem test_s0_discards : (match exec (.sclAdd (word 0 2 3 0)) base with
    | .next u => (u.strand? 1).map fun t => t.getS 0
    | _ => none) = some 0#64 := by decide

theorem test_binary32 : Issues base Form.sclFadd (word 1 2 3 0) strand0 job0 ∧ Issues base Form.sclFmul (word 1 2 3 0) strand0 job0 ∧
    Issues base Form.sclFfma (word 1 2 3 0) strand0 job0 ∧ Issues base Form.sclFcvt (word 1 2 0 1) strand0 job0 :=
  ⟨base_issues (by decide) rfl ⟨rfl, rfl⟩, base_issues (by decide) rfl ⟨rfl, rfl⟩, base_issues (by decide) rfl ⟨rfl, rfl⟩,
    base_issues (by decide) rfl ⟨rfl, rfl⟩⟩
theorem test_fadd_one : fadd 0x3F800000 0x3F800000 = 0x40000000 := by decide
theorem test_predicates : Issues base Form.sclCmp (word 1 2 3 5) strand0 job0 ∧ Issues base Form.sclPlog (word 1 1 2 3) strand0 job0 ∧
    Issues base Form.sclFcmp (word 1 2 3 2) strand0 job0 ∧ Issues base Form.sclSel (word 1 2 3 1) strand0 job0 ∧ strand0.clear [.p 1] [] = true :=
  ⟨base_issues (by decide) rfl ⟨rfl, rfl⟩, base_issues (by decide) rfl ⟨rfl, rfl⟩, base_issues (by decide) rfl ⟨rfl, rfl⟩,
    base_issues (by decide) rfl ⟨rfl, rfl⟩, rfl⟩
theorem test_nan_pattern : 0x7F800000 < 0x7F800001 % 2 ^ 31 := by decide
theorem test_descriptor_moves : Issues base Form.movDset (word 1 2 3 0) strand0 job0 ∧ Issues base Form.movDget (word 1 1 0 1) strand0 job0 ∧
    Issues base Form.movDsub (word 3 1 3 0 [57#64]) strand0 job0 ∧ Usable (strand0.getD 1) [0, 1, 2] false ∧
    (strand0.getS 3).toNat + (57#64).toNat ≤ (decodeDsc (strand0.getD 1)).len :=
  ⟨base_issues (by decide) rfl ⟨rfl, rfl⟩, base_issues (by decide) rfl ⟨rfl, rfl⟩, base_issues (by decide) rfl ⟨rfl, rfl⟩,
    by unfold Usable; decide, by decide⟩

/-- A load of 8 bytes at the end of the view. -/
def strand1 : Strand := { strand0 with s := [(2, 5#64), (3, 56#64)] }
def base1 : State := { base with fil := { base.fil with strands := [strand1] } }
theorem test_scalar_load : Issues base1 Form.sclLd (word 1 2 3 3) strand1 job0 ∧ Usable (strand1.getD 2) [0] false ∧
    (strand1.getS 3).toNat + 8 ≤ (decodeDsc (strand1.getD 2)).len ∧ ((decodeDsc (strand1.getD 2)).base + (strand1.getS 3).toNat) % 8 = 0 ∧
    MayUse base1 job0 .read (area + 56) 8 ∧ Readable base1 (area + 56) 8 :=
  ⟨issues_of (by decide) rfl rfl rfl rfl (by decide) rfl rfl, by unfold Usable; decide, by decide, by decide, mayUse_of (by decide),
    by unfold Readable; decide⟩
theorem test_scalar_store : Issues base1 Form.sclSt (word 1 2 3 3) strand1 job0 ∧ base1.canonical = true ∧ Usable (strand1.getD 1) [0] true ∧
    MayUse base1 job0 .write (area + 56) 8 ∧ Storable base1 (area + 56) 8 :=
  ⟨issues_of (by decide) rfl rfl rfl rfl (by decide) rfl rfl, by decide, by unfold Usable; decide, mayUse_of (by decide),
    by unfold Storable; decide⟩
theorem test_store_then_byte : (match exec (.sclSt (word 1 2 3 3)) base1 with
    | .next u => (u.mem.byte (area + 56), u.mem.byte (area + 57))
    | _ => (1#8, 1#8)) = (5#8, 0#8) := by decide
theorem test_misaligned : Issues base Form.sclLd (word 1 2 3 3) strand0 job0 ∧ Usable (strand0.getD 2) [0] false ∧
    (strand0.getS 3).toNat + 8 ≤ (decodeDsc (strand0.getD 2)).len ∧ ((decodeDsc (strand0.getD 2)).base + (strand0.getS 3).toNat) % 8 ≠ 0 ∧
    Issues base Form.sclSt (word 1 2 3 3) strand0 job0 ∧ Usable (strand0.getD 1) [0] true ∧ job0.status = 0 :=
  ⟨base_issues (by decide) rfl ⟨rfl, rfl⟩, by unfold Usable; decide, by decide, by decide, base_issues (by decide) rfl ⟨rfl, rfl⟩,
    by unfold Usable; decide, rfl⟩
theorem test_misaligned_detail : (match exec (.sclLd (word 1 2 3 3)) base with
    | .next u => (u.job? 1).map fun j => (j.status, j.detail)
    | _ => none) = some (0x12, cAlign) := by decide

/-! ## Registers and the management level -/

theorem test_register_write : (findReg Reg.glbScratch).isSome = true ∧ base.answers Reg.glbScratch = true ∧ Reg.glbScratch % 4 = 0 ∧
    Reg.glbScratch < 0x200000 := by decide
theorem test_register_read : (findReg Reg.glbScratch).isSome = true ∧ base.sees .boss Reg.glbScratch = true ∧
    base.sees (.fn 1) Reg.rstCause = false := by decide
theorem test_odd_access : plainAccess 0x13 4 = false ∧ base.rd F.hifAccErr_valid = 0 ∧ (base.wr F.hifAccErr_valid 1).rd F.hifAccErr_valid = 1 := by decide
theorem test_unassigned_access : plainAccess 0x3F00000 4 = true ∧ findReg 0x3F00000 = none ∧ findReg 0x3F00004 = none := by decide
theorem test_snapshot_source : base.sees (.fn 0) Reg.talBeatLo = true ∧ base.sees (.fn 0) Reg.talBeatHi = true := by decide
theorem test_management : Issues base Form.sysRreg (word 1 0 0 0) strand0 job0 ∧ Issues base Form.sysWreg (word 0 0 3 0) strand0 job0 ∧
    Issues base Form.sysTelem (word 1 0 0 0xC10) strand0 job0 ∧ base.isPriv job0 = true ∧ (strand0.getS 0).toNat % 4 = 0 ∧
    ({ base with fil := { base.fil with routines := [] } } : State).isPriv job0 = false :=
  ⟨base_issues (by decide) rfl ⟨rfl, rfl⟩, base_issues (by decide) rfl ⟨rfl, rfl⟩, base_issues (by decide) rfl ⟨rfl, rfl⟩, by decide, by decide,
    by decide⟩
/-! ## Witnesses of the statements about control flow, time and fences -/

/-- A routine of four words. -/
def rout4 : Routine := { rout0 with code := [0#64, 0#64, 0#64, 0#64] }
def base4 : State := { base with fil := { base.fil with routines := [rout4] } }
theorem test_control : Issues base4 Form.ctlNop (word 0 0 0 0) strand0 job0 ∧ Issues base4 Form.ctlBr (word 0 0 0 0xFFFFFFF) strand0 job0 ∧
    Issues base4 Form.ctlCall (word 1 0 0 3) strand0 job0 ∧ Issues base4 Form.ctlLoop (word 2 0 0 3) strand0 job0 :=
  ⟨issues_of (by decide) rfl rfl rfl rfl (by decide) rfl rfl, issues_of (by decide) rfl rfl rfl rfl (by decide) rfl rfl,
    issues_of (by decide) rfl rfl rfl rfl (by decide) rfl rfl, issues_of (by decide) rfl rfl rfl rfl (by decide) rfl rfl⟩
theorem test_jump : Issues base4 Form.ctlJmpr (word 0 4 0 0) strand0 job0 ∧ base4.routineOf job0 = some rout4 ∧
    firstWord (strand0.getS 4).toNat rout4.code.length rout4.code 0 = true :=
  ⟨issues_of (by decide) rfl rfl rfl rfl (by decide) rfl rfl, by decide, by decide⟩
theorem test_loop_ends : (match exec (.ctlLoop (word 4 0 0 3)) { base4 with fil := { base4.fil with strands := [{ strand0 with s := [(4, 1#64)] }] } } with
    | .next u => (u.strand? 1).map fun t => (t.getS 4, t.pc)
    | _ => none) = some (0#64, 1) := by decide

/-- Something in flight. -/
def flight (tag : Nat) (g : Gate) (e : List Effect) : Inflight := ⟨tag, 3, 0, 0, [], [], g, e, 0⟩
def busyStrand : Strand := { strand0 with inflight := [flight 9 .engine []] }
def busy : State := { base with fil := { base.fil with strands := [busyStrand] } }
theorem busy_issues {f : Form} {o : Insn} (hf : f.ok o = true) (ho : o.strand = 1) (hp : o.pidx = 0 ∧ o.pneg = false)
    (hc : busyStrand.clear (formSources f o) (formTargets f o) = true) : Issues busy f o busyStrand job0 := by
  refine ⟨⟨hf, ?_, rfl, rfl, rfl, by decide, by rw [hp.1]; decide⟩, ?_, hc⟩
  · rw [ho]; rfl
  · unfold predOk; rw [hp.1, hp.2]; rfl

theorem test_end : Issues base Form.ctlEnd (word 0 0 0 0) strand0 job0 ∧ strand0.inflight = [] ∧
    Issues busy Form.ctlEnd (word 0 0 0 0) busyStrand job0 ∧ busyStrand.inflight ≠ [] :=
  ⟨base_issues (by decide) rfl ⟨rfl, rfl⟩, rfl, busy_issues (by decide) rfl ⟨rfl, rfl⟩ (by decide), by decide⟩
theorem test_time : Issues base Form.talNow (word 1 0 0 0) strand0 job0 ∧ Issues base Form.talStable (word 1 0 0 0) strand0 job0 ∧
    Issues base Form.talSub (word 1 0 0 0) strand0 job0 ∧ Issues base Form.talWaitb (word 1 0 0 0) strand0 job0 ∧
    Issues base Form.talWaitb (word 1 2 0 0) strand0 job0 ∧ min (strand0.getS 0).toNat (2 ^ 64 - 1) ≤ base.tally.beat ∧
    base.tally.beat < min (strand0.getS 2).toNat (2 ^ 64 - 1) ∧ (base.moved (word 1 2 0 0) strand0).eventRoom = true :=
  ⟨base_issues (by decide) rfl ⟨rfl, rfl⟩, base_issues (by decide) rfl ⟨rfl, rfl⟩, base_issues (by decide) rfl ⟨rfl, rfl⟩,
    base_issues (by decide) rfl ⟨rfl, rfl⟩, base_issues (by decide) rfl ⟨rfl, rfl⟩, by decide, by decide, by decide⟩
/-- The small state with a strand that waits. -/
def waits (w : Wait) (since : Nat) : State := { base with fil := { base.fil with strands := [{ strand0 with wait := w, since := since }] } }
theorem test_waitb_over : (waits (.waitb 0 1 true) 0).strand? 1 = some { strand0 with wait := .waitb 0 1 true } := by decide
theorem test_fences : ∀ e ∈ Sys2Proof.Claims.fences, Issues base e.2.1 (word 0 0 0 0) strand0 job0 ∧ strand0.inflight.any e.2.2.2 = false := by
  intro e he
  simp only [Sys2Proof.Claims.fences, List.mem_cons, List.not_mem_nil, or_false] at he
  rcases he with rfl | rfl | rfl <;> exact ⟨base_issues (by decide) rfl ⟨rfl, rfl⟩, rfl⟩
theorem test_fence_waits : Issues busy Form.synFence (word 0 0 0 0) busyStrand job0 ∧ busyStrand.inflight.any (fun _ => true) = true ∧
    Issues busy Form.synBar (word 0 0 0 15) busyStrand job0 :=
  ⟨busy_issues (by decide) rfl ⟨rfl, rfl⟩ (by decide), rfl, busy_issues (by decide) rfl ⟨rfl, rfl⟩ (by decide)⟩
theorem test_barrier : Issues base Form.synBar (word 0 0 0 15) strand0 job0 ∧
    ((((base.moved (word 0 0 0 15) strand0).modStrand 1 fun v => { v with wait := .bar 15, since := 0 }).fil.strands.filter fun v =>
      v.job == 1 && v.wait == .bar 15 && !v.ended).length = job0.count) :=
  ⟨base_issues (by decide) rfl ⟨rfl, rfl⟩, by decide⟩
theorem test_barrier_waits : ((((base.moved (word 0 0 0 15) strand0).modStrand 1 fun v => { v with wait := .bar 15, since := 0 }).fil.strands.filter fun v =>
      v.job == 1 && v.wait == .bar 15 && !v.ended).length ≠ ({ job0 with count := 2 } : Job).count) := by decide
/-- A strand at a fence for longer than the limit of its act. -/
def lateStrand : Strand := { busyStrand with wait := .fence }
def late : State :=
  ({ busy with fil := { base.fil with strands := [lateStrand] }, tally := { base.tally with beat := 2 } } : State).wr (F.actCtrl_fenceLimit 0) 2
theorem test_fence_timeout : late.strand? 1 = some lateStrand ∧ late.job? 1 = some job0 ∧ late.fenceDone lateStrand = false ∧
    late.rd (F.actCtrl_fenceLimit 0) ≠ 0 ∧ lateStrand.since + late.rd (F.actCtrl_fenceLimit 0) ≤ late.tally.beat ∧ job0.status = 0 := by decide
theorem test_fence_in_time : (late.wr (F.actCtrl_fenceLimit 0) 3).tally.beat < lateStrand.since + (late.wr (F.actCtrl_fenceLimit 0) 3).rd (F.actCtrl_fenceLimit 0) := by
  decide
/-! ## Witnesses of the statements about tiles -/

theorem check_zero : checkOf 0#48 = .clean := by decide

theorem empty_clean {s : State} (hs : s.mem = MemSt.empty) (b : Nat) : s.mem.check b = .clean := by
  rw [hs, check_clean_iff]
  unfold MemSt.dead MemSt.lost
  cases blockChan b <;> exact ⟨rfl, rfl, check_zero⟩

theorem empty_alive {s : State} (hs : s.mem = MemSt.empty) (b : Nat) : s.mem.dead b = false := by
  rw [hs]; unfold MemSt.dead; cases blockChan b <;> rfl

/-- Crew store of crew 0 can be written where the memory is as after reset. -/
theorem writable_of {s : State} {y n : Nat} (hs : s.mem = MemSt.empty) (ha : s.rd F.memFlipCtrl_arm = 0) (hn : y + n ≤ crewLen) :
    Writable s (crewBase + y) n := by
  refine ⟨fun i hi => ?_, ha, fun b _ => ⟨empty_alive hs b, empty_clean hs b⟩⟩
  have hl : crewLen < crewWindow := by decide
  have hw : crewWindow ≤ 16 * crewWindow := by decide
  have hm : (y + i) % crewWindow = y + i := Nat.mod_eq_of_lt (by omega)
  rw [Nat.add_assoc, physOf_crew (y := y + i) (by omega) (by omega)]; rfl

/-- A tile of zeros in crew store, of a format and shape, behind the work area. -/
def place (n : Nat) : Nat := area + 4096 * n
def tileOf (id n fmt shape crc : Nat) : Tile :=
  ⟨id, 0, [], fmt, shape, false, one32, 0, 0, [], crc, place n, 4096, 0, none, 0, [], false⟩
def raw (n : Nat) : List Byte := (base.readMem 0 (place n) 4096).1
def valOf (id n fmt shape : Nat) : TileVal := (tileOf id n fmt shape 0).val (raw n)
def tile (id n fmt shape : Nat) : Tile := tileOf id n fmt shape (valOf id n fmt shape).crc
/-- A strand whose handles t1, t2 and t3 name three tiles. -/
def strand3 : Strand := { strand0 with t := [(1, some 51), (2, some 52), (3, some 53)], d := [(1, encodeDsc area 4096 false), (2, encodeDsc area 4096 true)] }
/-- Their homes, and the work area. -/
def homes : List Alloc := [⟨area, 4096, 0, .work 1⟩, ⟨place 1, 4096, 0, .tile 51⟩, ⟨place 2, 4096, 0, .tile 52⟩, ⟨place 3, 4096, 0, .tile 53⟩]
/-- The small state with three tiles, and a quota of crew store. -/
def tiles (x y z : Tile) : State :=
  { base with
    regs := (base.wr (F.memQCrew_kib 0) 49152).regs
    fil := { base.fil with
      strands := [strand3], tiles := [x, y, z], allocs := homes } }

/-- The home that R292 gives to a result. -/
def home : Nat := crewBase + (crewLen - 4096)

theorem raw_eq {s : State} (hs : s.mem = MemSt.empty) (a : Nat) : (s.readMem 0 a 4096).1 = (base.readMem 0 a 4096).1 := by
  unfold State.readMem
  split
  · rfl
  · show slice (List.flatMap s.mem.delivered _) _ _ = slice (List.flatMap base.mem.delivered _) _ _
    rw [hs]; rfl

theorem atHome (s : State) (t : Strand) (r id n f sh : Nat) (hm : s.mem = MemSt.empty) (he : s.fil.expansions = [])
    (hr : isRegister (place n) = false) (hp : s.rd F.pwrStackState_inP3 = 0) (hf : s.fun_.streams = []) :
    AtHome s t r (tile id n f sh) (valOf id n f sh) := by
  refine ⟨fun e h => ?_, hr, fun b _ => empty_clean hm b, hp, hf, ⟨raw n, rfl, ?_⟩, rfl⟩
  · rw [he] at h; cases h
  · exact (if_neg (show ¬ false = true by decide)).mpr (raw_eq hm (place n)).symm

/-- The home of a result of 4,096 bytes. -/
theorem tiles_awake (x y z : Tile) : (tiles x y z).rd F.pwrStackState_inP3 = 0 := by
  show (base.wr (F.memQCrew_kib 0) 49152).rd F.pwrStackState_inP3 = 0
  decide
theorem tiles_unarmed (x y z : Tile) : (tiles x y z).rd F.memFlipCtrl_arm = 0 := by
  show (base.wr (F.memQCrew_kib 0) 49152).rd F.memFlipCtrl_arm = 0
  decide
theorem home_gap : gapDown 4096 (crewAddr 0 0) (crewAddr 0 crewLen)
    (sortBy (fun a b => decide (a.addr > b.addr)) (allocsIn (crewAddr 0 0) (crewAddr 0 crewLen) homes)) = some home := by decide

theorem room (x y z : Tile) (n : Nat) (hn : n = 4096) (hx : x.id ≠ 100 ∧ y.id ≠ 100 ∧ z.id ≠ 100) : RoomAt (tiles x y z) strand3 job0 n home := by
  subst hn
  have q : (tiles x y z).rd (F.memQCrew_kib job0.act) = 49152 := by
    show (base.wr (F.memQCrew_kib 0) 49152).rd (F.memQCrew_kib 0) = 49152
    decide
  have u : (tiles x y z).crewUse job0.act = 12288 := by
    show allocSum _ homes = 12288
    decide
  have e : (tiles x y z).allocCrew job0.act strand3.crew 4096 (.tile (tiles x y z).nextId) =
      (some home, (tiles x y z).addAlloc ⟨home, 4096, 0, .tile 100⟩) := by
    unfold State.allocCrew
    dsimp only
    rw [q, u, show roundUp (max 4096 1) 512 = 4096 from rfl, if_neg (by decide), show (tiles x y z).fil.allocs = homes from rfl,
      show strand3.crew = 0 from rfl, home_gap]
    rfl
  have l : ((tiles x y z).addAlloc ⟨home, 4096, 0, .tile 100⟩).fil.allocs = homes ++ [⟨home, 4096, 0, .tile 100⟩] := rfl
  have c : ((tiles x y z).addAlloc ⟨home, 4096, 0, .tile 100⟩).crewUse job0.act = 16384 := by
    unfold State.crewUse
    rw [l]; decide
  refine ⟨by rw [e], by rw [e, q, c]; decide, by rw [e, l]; decide, writable_of rfl (tiles_unarmed x y z) (by decide), tiles_awake x y z, rfl, ?_⟩
  show List.find? _ [x, y, z] = none
  simpa [List.find?_eq_none, show (tiles x y z).nextId = 100 from rfl] using hx

/-- The strand of the three tiles issues every well-formed word. -/
theorem tiles_issues {x y z : Tile} {f : Form} {o : Insn} (hf : f.ok o = true) (ho : o.strand = 1) (hp : o.pidx = 0 ∧ o.pneg = false) :
    Issues (tiles x y z) f o strand3 job0 := by
  refine issues_of hf ?_ rfl rfl rfl ?_ ?_ rfl
  · rw [ho]; rfl
  · unfold State.crewIssues State.powerOf State.on
    rw [show (tiles x y z).rd F.pwrCrewState_state = 0 from by
        show (base.wr (F.memQCrew_kib 0) 49152).rd F.pwrCrewState_state = 0
        decide,
      show (tiles x y z).rd F.pwrStatus_p4 = 0 from by
        show (base.wr (F.memQCrew_kib 0) 49152).rd F.pwrStatus_p4 = 0
        decide]
    rfl
  · unfold predOk; rw [hp.1, hp.2]; rfl

/-- The three tiles, in their handles, as they lie at their homes. -/
theorem tiles_rest (f1 s1 f2 s2 f3 s3 : Nat) :
    let s := tiles (tile 51 1 f1 s1) (tile 52 2 f2 s2) (tile 53 3 f3 s3)
    AtRest s strand3 1 (tile 51 1 f1 s1) (valOf 51 1 f1 s1) ∧ AtRest s strand3 2 (tile 52 2 f2 s2) (valOf 52 2 f2 s2) ∧
    AtRest s strand3 3 (tile 53 3 f3 s3) (valOf 53 3 f3 s3) :=
  ⟨⟨atHome _ _ _ _ _ _ _ rfl rfl (by decide) (tiles_awake _ _ _) rfl, rfl, rfl⟩,
    ⟨atHome _ _ _ _ _ _ _ rfl rfl (by decide) (tiles_awake _ _ _) rfl, rfl, rfl⟩,
    ⟨atHome _ _ _ _ _ _ _ rfl rfl (by decide) (tiles_awake _ _ _) rfl, rfl, rfl⟩⟩

theorem still (s : State) (t : Strand) (id n f sh : Nat) : NotPromoted s t (tile id n f sh) :=
  .inl (decide_eq_false (Nat.not_lt.mpr (Nat.le_trans (show crewBase ≤ area by decide) (Nat.le_add_right area (4096 * n)))))

theorem length_leBytes (n k : Nat) : (leBytes n k).length = k := by
  induction k generalizing n with
  | zero => rfl
  | succ k ih => simp [leBytes, ih]

theorem length_ofCodes (l : List Nat) (f : Nat) (hf : f = 0 ∨ f = 6) : (ofCodes f l).length = 4 * l.length := by
  induction l with
  | nil => rfl
  | cons a t ih =>
    rcases hf with rfl | rfl <;> simp [ofCodes, elemWidth, length_leBytes, ih] <;> omega

set_option maxRecDepth 20000 in
theorem raw_length : (raw 0).length = 4096 := by decide
set_option maxRecDepth 20000 in
theorem raw_length1 : (raw 1).length = 4096 := by decide
set_option maxRecDepth 20000 in
theorem codes_length : (codesOf 0 (raw 1)).length = 1024 := by decide
theorem area_usable {x y z : Tile} {r : Right} (hr : r ≠ .winze) (k n : Nat) (hk : k + n ≤ 4096) : MayUse (tiles x y z) job0 r (area + k) n := by
  refine mayUse_of fun i hi => ?_
  have hl : 4096 < crewLen := by decide
  have hw : crewLen < crewWindow := by decide
  have hm : (k + i) % crewWindow = k + i := Nat.mod_eq_of_lt (by omega)
  have e : area = crewBase := by decide
  rw [e, Nat.add_assoc, physOf_crew (y := k + i) (by omega) (by omega)]
  show some (State.mayAccess _ _ _ _) = _
  have g : (tiles x y z).grants job0 r (crewBase + (k + i)) = true := by
    unfold State.grants
    refine Bool.or_eq_true_iff.2 (.inl (List.any_eq_true.2 ⟨⟨area, 4096, 0, .work 1⟩, List.mem_cons_self, ?_⟩))
    cases r
    · simp [e, tiles, strand3, strand0, job0]; omega
    · simp [e, tiles, strand3, strand0, job0]; omega
    · exact absurd rfl hr
  unfold State.mayAccess; rw [g]; rfl

/-- What a read of the work area through an engine needs. -/
theorem area_clean (x y z : Tile) (n : Nat) : (tiles x y z).holder false area n = none ∧ isRegister area = false ∧
    (∀ k ∈ blocksOf area n, (tiles x y z).mem.check k = .clean) ∧ (tiles x y z).rd F.pwrStackState_inP3 = 0 := by
  refine ⟨?_, by decide, fun b _ => empty_clean rfl b, tiles_awake x y z⟩
  unfold State.holder; rfl

/-- Three tiles of binary32. -/
def plain3 : State := tiles (tile 51 1 0 0) (tile 52 2 0 0) (tile 53 3 0 0)

theorem test_new_tile : (word 1 0 0 0).tileForm = true ∧ Issues plain3 Form.movTalloc (word 1 0 0 0) strand3 job0 ∧ (word 1 0 0 0).fld 0 4 ≠ 8 ∧
    RoomAt plain3 strand3 job0 4096 home :=
  ⟨by decide, tiles_issues (by decide) rfl ⟨rfl, rfl⟩, by decide, room _ _ _ _ rfl ⟨by decide, by decide, by decide⟩⟩
theorem area_length : (base.readMem 0 area 4096).1.length = 4096 := by
  have h := raw_length
  unfold raw at h
  rwa [show place 0 = area by decide] at h
theorem test_load_tile : Issues plain3 Form.movTloadm (word 1 2 0 0) strand3 job0 ∧ Usable (strand3.getD 2) [0] false ∧
    4096 ≤ (decodeDsc (strand3.getD 2)).len ∧ (decodeDsc (strand3.getD 2)).base % 64 = 0 ∧ (decodeDsc (strand3.getD 2)).len % 64 = 0 ∧
    MayUse plain3 job0 .read area 4096 ∧ RoomAt plain3 strand3 job0 (plain3.readMem 0 area 4096).1.length home :=
  ⟨tiles_issues (by decide) rfl ⟨rfl, rfl⟩, by unfold Usable; decide, by decide, by decide, by decide, area_usable (by decide) 0 4096 (by decide),
    room _ _ _ _ (by rw [raw_eq rfl, area_length]) ⟨by decide, by decide, by decide⟩⟩
/-- A LIST of one page needs the same room; its load takes the FMT 8. -/
theorem test_load_list : Issues plain3 Form.movTloadm (word 1 2 0 (8 + 8 * 256)) strand3 job0 ∧ (word 1 2 0 (8 + 8 * 256)).fld 0 4 = 8 ∧
    (decodeDsc (strand3.getD 2)).len % 4096 = 0 ∧ 4096 ≤ (decodeDsc (strand3.getD 2)).len ∧ (decodeDsc (strand3.getD 2)).len ≤ 2 ^ 20 :=
  ⟨tiles_issues (by decide) rfl ⟨rfl, rfl⟩, by decide, by decide, by decide, by decide⟩

theorem test_hewers : AtRest plain3 strand3 1 (tile 51 1 0 0) (valOf 51 1 0 0) ∧ NotPromoted plain3 strand3 (tile 51 1 0 0) ∧
    AtRest plain3 strand3 2 (tile 52 2 0 0) (valOf 52 2 0 0) ∧
    Issues plain3 Form.hewEw (word 4 1 2 0) strand3 job0 ∧ (tile 52 2 0 0).shape = (tile 51 1 0 0).shape ∧
    Issues plain3 Form.hewAct (word 4 1 0 0) strand3 job0 ∧ Issues plain3 Form.hewRed (word 4 1 0 1) strand3 job0 ∧ shapeCols 0 0 ≤ 1024 :=
  ⟨(tiles_rest 0 0 0 0 0 0).1, still _ _ _ _ _ _, (tiles_rest 0 0 0 0 0 0).2.1, tiles_issues (by decide) rfl ⟨rfl, rfl⟩, by decide,
    tiles_issues (by decide) rfl ⟨rfl, rfl⟩, tiles_issues (by decide) rfl ⟨rfl, rfl⟩, by decide⟩
theorem test_elementwise_room (g : Nat × Nat → Nat) :
    RoomAt plain3 strand3 job0 (plainTile 0 0 (ofCodes 0 ((codesOf 0 (raw 1)).zipIdx.map g))).data.length home := by
  have e : ((codesOf 0 (raw 1)).zipIdx.map g).length = 1024 := by rw [List.length_map, List.length_zipIdx, codes_length]
  generalize (codesOf 0 (raw 1)).zipIdx.map g = l at e
  exact room _ _ _ _ ((length_ofCodes l 0 (.inl rfl)).trans (by rw [e])) ⟨by decide, by decide, by decide⟩
theorem test_reduction_room (l : List Nat) : RoomAt plain3 strand3 job0 (plainTile 0 6 (ofCodes 0 (padTo 0 1024 l))).data.length home := by
  refine room _ _ _ _ ?_ ⟨by decide, by decide, by decide⟩
  show (ofCodes 0 _).length = _
  rw [length_ofCodes _ 0 (.inl rfl)]; simp [padTo]; omega

/-- A matrix product of binary32 operands of one 32 by 32 tile each, into a new tile and into t3. -/
theorem test_product_room (d : Option TileVal) (v w : TileVal) : RoomAt plain3 strand3 job0 (mmaFp d v w false false).data.length home := by
  have e : (mmaFp d v w false false).data.length = 4096 := by
    unfold mmaFp plainTile
    dsimp only
    rw [length_ofCodes _ 0 (.inl rfl), List.length_map, List.length_range]
  exact room _ _ _ _ e ⟨by decide, by decide, by decide⟩

theorem test_matrix : let s := tiles (tile 51 1 1 0) (tile 52 2 1 1) (tile 53 3 0 0)
    Issues s Form.hewMma (word 4 1 2 4) strand3 job0 ∧ AtRest s strand3 1 (tile 51 1 1 0) (valOf 51 1 1 0) ∧ AtRest s strand3 2 (tile 52 2 1 1) (valOf 52 2 1 1) ∧
    mmaAccepts (valOf 51 1 1 0) (valOf 52 2 1 1) false false = true ∧ (valOf 51 1 1 0).badScale = false ∧ accFmt (valOf 51 1 1 0) (valOf 52 2 1 1) = 0 ∧
    Issues s Form.hewMma (word 3 1 2 0) strand3 job0 ∧ strand3.clear [.t 3] [] = true ∧ AtRest s strand3 3 (tile 53 3 0 0) (valOf 53 3 0 0) ∧
    (word 4 1 2 4).fld 2 1 = 1 ∧ (word 3 1 2 0).fld 2 1 = 0 :=
  ⟨tiles_issues (by decide) rfl ⟨rfl, rfl⟩, (tiles_rest 1 0 1 1 0 0).1, (tiles_rest 1 0 1 1 0 0).2.1, rfl, rfl, rfl,
    tiles_issues (by decide) rfl ⟨rfl, rfl⟩, clear_of rfl _ _, (tiles_rest 1 0 1 1 0 0).2.2, by decide, by decide⟩
/-! ## A scale tile in memory, for the quantiser and the Crusher -/

theorem plain_clean {s : State} (h : s.mem.syn = [] ∧ s.mem.lostX = [] ∧ s.mem.lostCh = [] ∧ s.mem.deadCh = []) (b : Nat) : s.mem.check b = .clean := by
  rw [check_clean_iff, h.1]
  unfold MemSt.dead MemSt.lost
  rw [h.2.1, h.2.2.1, h.2.2.2]
  cases blockChan b <;> exact ⟨rfl, rfl, check_zero⟩

/-- A scale tile for FP8 rows of 32 columns: four blocks to a row. -/
def scale0 : ScaleTile := ⟨2, 0, 1, 32, one32, 0, 0, 0, [], List.replicate 128 0x7F⟩
def scaleMem : MemSt := MemSt.empty.setBytes (place 2) scale0.bytes
/-- The small state with this tile at the second home. -/
def scaled (x y : Tile) : State := { tiles x y (tile 53 3 0 0) with mem := scaleMem }
def rawS (n : Nat) : List Byte := (({ base with mem := scaleMem } : State).readMem 0 (place n) 4096).1
def valS (id n fmt shape : Nat) : TileVal := (tileOf id n fmt shape 0).val (rawS n)
def tileS (id n fmt shape : Nat) : Tile := tileOf id n fmt shape (valS id n fmt shape).crc

theorem rawS_eq (x y : Tile) (a : Nat) : ((scaled x y).readMem 0 a 4096).1 = (({ base with mem := scaleMem } : State).readMem 0 a 4096).1 := by
  unfold State.readMem
  split <;> rfl

theorem scaled_home (x y : Tile) (r id n f sh : Nat) (hr : isRegister (place n) = false) : AtHome (scaled x y) strand3 r (tileS id n f sh) (valS id n f sh) := by
  have hc : ∀ b, (scaled x y).mem.check b = .clean := plain_clean (s := scaled x y) ⟨rfl, rfl, rfl, rfl⟩
  have hw : (scaled x y).rd F.pwrStackState_inP3 = 0 := tiles_awake x y (tile 53 3 0 0)
  exact ⟨fun e h => (nomatch (show e ∈ [] from h)), hr, fun b _ => hc b, hw, rfl,
    ⟨rawS n, rfl, (if_neg (show ¬ false = true by decide)).mpr (rawS_eq x y (place n)).symm⟩, rfl⟩

theorem scaled_rest (f sh : Nat) : let s := scaled (tileS 51 1 f sh) (tileS 52 2 7 0)
    AtRest s strand3 1 (tileS 51 1 f sh) (valS 51 1 f sh) ∧ AtRest s strand3 2 (tileS 52 2 7 0) (valS 52 2 7 0) :=
  ⟨⟨scaled_home _ _ _ _ _ _ _ (by decide), rfl, rfl⟩, ⟨scaled_home _ _ _ _ _ _ _ (by decide), rfl, rfl⟩⟩

set_option maxRecDepth 20000 in
theorem scale_reads : readScale (rawS 2) = some scale0 := by decide
theorem scaled_issues {x y : Tile} {f : Form} {o : Insn} (hf : f.ok o = true) (ho : o.strand = 1) (hp : o.pidx = 0 ∧ o.pneg = false) :
    Issues (scaled x y) f o strand3 job0 := by
  have h := tiles_issues (x := x) (y := y) (z := tile 53 3 0 0) hf ho hp
  exact ⟨⟨h.valid, h.strand, h.job, h.ready, h.engine, h.crew, h.guard⟩, h.pred, h.clear⟩

theorem allocCrew_mem (s : State) (m : MemSt) (a c n : Nat) (k : AllocKind) :
    ({ s with mem := m } : State).allocCrew a c n k = ((s.allocCrew a c n k).1, { (s.allocCrew a c n k).2 with mem := m }) := by
  unfold State.allocCrew
  dsimp only
  rw [show ({ s with mem := m } : State).crewUse a = s.crewUse a from rfl, show ({ s with mem := m } : State).rd (F.memQCrew_kib a) = s.rd (F.memQCrew_kib a) from rfl]
  split
  · rfl
  · cases gapDown (roundUp (max n 1) 512) (crewAddr c 0) (crewAddr c crewLen)
      (sortBy (fun a b => decide (a.addr > b.addr)) (allocsIn (crewAddr c 0) (crewAddr c crewLen) s.fil.allocs)) <;> rfl

theorem scaled_room (x y : Tile) (n : Nat) (hn : n = 4096) (hx : x.id ≠ 100 ∧ y.id ≠ 100) (hw : scaleMem.wf = true) :
    RoomAt (scaled x y) strand3 job0 n home := by
  have r := room x y (tile 53 3 0 0) n hn ⟨hx.1, hx.2, by decide⟩
  have hc : ∀ b, (scaled x y).mem.check b = .clean := plain_clean (s := scaled x y) ⟨rfl, rfl, rfl, rfl⟩
  have e := allocCrew_mem (tiles x y (tile 53 3 0 0)) scaleMem job0.act strand3.crew n (.tile (tiles x y (tile 53 3 0 0)).nextId)
  have e1 : (scaled x y).allocCrew job0.act strand3.crew n (.tile (scaled x y).nextId) = _ := e
  refine ⟨by rw [e1]; exact r.placed, by rw [e1]; exact r.quota, by rw [e1]; exact r.spare, ⟨r.stores.1, r.stores.2.1, fun b _ => ⟨?_, hc b⟩⟩, r.awake, hw, r.fresh⟩
  unfold MemSt.dead; cases blockChan b <;> rfl

theorem length_padTo (n : Nat) (l : List Byte) : (padTo 0#8 n l).length = n := by simp [padTo]; omega
set_option maxRecDepth 20000 in
theorem scaleMem_wf : scaleMem.wf = true := by decide
set_option maxRecDepth 20000 in
theorem rawS_length : (rawS 1).length = 4096 := by decide

theorem test_prepass : AtRest plain3 strand3 1 (tile 51 1 0 0) (valOf 51 1 0 0) ∧ Issues plain3 Form.qntPrepass (word 4 1 0 0x31) strand3 job0 ∧
    (tile 51 1 0 0).fmt ≤ 1 ∧ shapeCols 0 0 ≤ 1024 ∧ ∀ x : ScaleTile, RoomAt plain3 strand3 job0 (plainTile 7 0 x.bytes).data.length home :=
  ⟨(tiles_rest 0 0 0 0 0 0).1, tiles_issues (by decide) rfl ⟨rfl, rfl⟩, by decide, by decide,
    fun _ => room _ _ _ _ (length_padTo _ _) ⟨by decide, by decide, by decide⟩⟩
/-- QNT.CVT on a tile that is already scaled, and QNT.SPLIT on a binary32 tile of 32 columns. -/
theorem test_convert : let s := scaled (tileS 51 1 2 0) (tileS 52 2 7 0)
    AtRest s strand3 1 (tileS 51 1 2 0) (valS 51 1 2 0) ∧ AtRest s strand3 2 (tileS 52 2 7 0) (valS 52 2 7 0) ∧
    readScale (valS 52 2 7 0).data = some scale0 ∧ Issues s Form.qntCvt (word 4 1 2 0) strand3 job0 ∧
    (tileS 51 1 2 0).shape = scale0.shape ∧ isScaled 2 = true ∧ (tileS 51 1 2 0).fmt = scale0.qfmt ∧ RoomAt s strand3 job0 (valS 51 1 2 0).data.length home :=
  ⟨(scaled_rest 2 0).1, (scaled_rest 2 0).2, scale_reads, scaled_issues (by decide) rfl ⟨rfl, rfl⟩, by decide, by decide, by decide,
    scaled_room _ _ _ rawS_length ⟨by decide, by decide⟩ scaleMem_wf⟩
theorem test_split : let s := scaled (tileS 51 1 0 0) (tileS 52 2 7 0)
    AtRest s strand3 1 (tileS 51 1 0 0) (valS 51 1 0 0) ∧ Issues s Form.qntSplit (word 4 1 2 0) strand3 job0 ∧ shapeCols 0 0 = scale0.cols ∧ shapeCols 0 0 ≤ 1024 :=
  ⟨(scaled_rest 0 0).1, scaled_issues (by decide) rfl ⟨rfl, rfl⟩, by decide, by decide⟩
/-- A calibration that has not drifted, and one of four times the scale, which has. -/
theorem test_drift : let s := scaled (tileS 51 1 7 0) (tileS 52 2 7 0)
    Issues s Form.qntDrift (word 1 2 2 0) strand3 job0 ∧ strand3.clear [] [.t 2] = true ∧ AtRest s strand3 2 (tileS 52 2 7 0) (valS 52 2 7 0) ∧
    readScale (valS 52 2 7 0).data = some scale0 ∧ drifted scale0 scale0 = false :=
  ⟨scaled_issues (by decide) rfl ⟨rfl, rfl⟩, clear_of rfl _ _, (scaled_rest 7 0).2, scale_reads, by decide⟩
theorem test_drifts : drifted { scale0 with ts := 0x41000000 } scale0 = true ∧ drifted { scale0 with ts := 0x40800000 } scale0 = false := by decide

/-! ## Crusher, copies and completions -/

theorem test_crusher : let s := tiles (tile 51 1 0 0) (tile 52 2 0 0) (tile 53 3 0 0)
    AtRest s strand3 1 (tile 51 1 0 0) (valOf 51 1 0 0) ∧ Issues s Form.cruPack (word 4 1 0 0) strand3 job0 ∧ Issues s Form.cruUnpack (word 4 1 0 0) strand3 job0 ∧
    Issues s Form.cruCheck (word 1 1 0 0) strand3 job0 ∧ (tile 51 1 0 0).fmt ≠ 8 ∧ (tile 51 1 0 0).info = none ∧ job0.act < 16 ∧
    strand3.clear [] (presWrites (word 4 1 0 0)) = true ∧ RoomAt s strand3 job0 (valOf 51 1 0 0).data.length home ∧ base.on F.memCtrl_packEn = true :=
  ⟨(tiles_rest 0 0 0 0 0 0).1, tiles_issues (by decide) rfl ⟨rfl, rfl⟩, tiles_issues (by decide) rfl ⟨rfl, rfl⟩, tiles_issues (by decide) rfl ⟨rfl, rfl⟩,
    by decide, by decide, by decide, clear_of rfl _ _, room _ _ _ _ (by rw [show (valOf 51 1 0 0).data = raw 1 from rfl, raw_length1]) ⟨by decide, by decide, by decide⟩, by decide⟩
theorem test_damaged_stream : decodeStream false 1 (zeros 512) = .inl 1 := by decide
theorem test_copy : let s := plain3
    Issues s Form.movCopy (word 1 2 3 0) strand3 job0 ∧ Usable (strand3.getD 2) [0, 2] false ∧ Usable (strand3.getD 1) [0, 2] true ∧
    (strand3.getS 3).toNat ≤ (decodeDsc (strand3.getD 2)).len ∧ MayUse s job0 .write area 7 ∧ MayUse s job0 .read area 7 ∧
    s.holder false area 7 = none ∧ isRegister area = false ∧ (∀ k ∈ blocksOf area 7, s.mem.check k = .clean) ∧ s.rd F.pwrStackState_inP3 = 0 :=
  ⟨tiles_issues (by decide) rfl ⟨rfl, rfl⟩, by unfold Usable; decide, by unfold Usable; decide, by decide, area_usable (by decide) 0 7 (by decide),
    area_usable (by decide) 0 7 (by decide), area_clean _ _ _ _⟩
/-- A descriptor of host space. -/
theorem test_host_view : Usable (BitVec.ofNat 128 (0x1000 + 2 * 2 ^ 52 + 64 * 2 ^ 64)) [0, 2] true ∧
    (decodeDsc (BitVec.ofNat 128 (0x1000 + 2 * 2 ^ 52 + 64 * 2 ^ 64))).space = 2 := by unfold Usable; decide
theorem test_tile_store : Issues plain3 Form.movTstore (word 1 1 0 0) strand3 job0 ∧ AtRest plain3 strand3 1 (tile 51 1 0 0) (valOf 51 1 0 0) ∧
    Usable (strand3.getD 1) [0] true ∧ 4096 ≤ (decodeDsc (strand3.getD 1)).len ∧ MayUse plain3 job0 .write area 4096 ∧ (tile 51 1 0 0).info = none :=
  ⟨tiles_issues (by decide) rfl ⟨rfl, rfl⟩, (tiles_rest 0 0 0 0 0 0).1, by unfold Usable; decide, by decide, area_usable (by decide) 0 4096 (by decide), by decide⟩

/-- Strands whose flight ends with one effect. -/
def lands (g : Gate) (e : List Effect) : State := { base with fil := { base.fil with strands := [{ strand0 with inflight := [flight 9 g e] }] } }
theorem test_completions : ∀ e ∈ [[], [Effect.setS 1 3#64], [.setD 1 0#128], [.setP 1 false], [.bindT 1 51], [.mem 0 area [1#8]], [.count 0x180000C 0 32 1]],
    ((lands .engine e).strand? 1).map (fun t => t.inflight.find? (fun f => f.tag == 9)) = some (some (flight 9 .engine e)) := by decide
theorem test_completion_by_beat : ((lands (.commit 0) []).strand? 1).map (fun t => t.inflight.map (·.gate)) = some [.commit 0] ∧
    0 ≤ (lands (.commit 0) []).tally.beat ∧ (lands (.commit 1) []).tally.beat < 1 := by decide
theorem test_completion_store : (lands .engine [.mem 0 area [1#8]]).canonical = true ∧ (lands .engine [.mem 0 area [1#8]]).holder true area 1 = none ∧
    Writable (lands .engine [.mem 0 area [1#8]]) area 1 :=
  ⟨by decide, by decide, writable_of (y := 0) rfl rfl (by decide)⟩
theorem test_completion_writes : (match exec (.engineCompletion 1 9) (lands .engine [.setS 1 3#64]) with
    | .next u => (u.strand? 1).map fun t => (t.getS 1, t.inflight.length)
    | _ => none) = some (3#64, 0) := by decide
/-! ## Witnesses of the statements about tile names and moves, reductions, and search -/

/-- A state like the three tiles, with anything else in its records. -/
theorem rest_of {s : State} {t : Strand} {r n : Nat} {x : Tile} (hm : s.mem = MemSt.empty) (he : s.fil.expansions = []) (hr : isRegister (place n) = false)
    (hp : s.rd F.pwrStackState_inP3 = 0) (hf : s.fun_.streams = []) (hh : x.home = place n) (hl : x.len = 4096) (hk : x.packed = false)
    (hc : (x.val (raw n)).crc = x.crc) (ht : t.getT r = some x.id) (hx : s.tile? x.id = some x) : AtRest s t r x (x.val (raw n)) := by
  refine ⟨⟨fun e h => ?_, hh ▸ hr, fun b _ => empty_clean hm b, hp, hf, ⟨raw n, rfl, ?_⟩, hc⟩, ht, hx⟩
  · rw [he] at h; cases h
  · rw [if_neg (by rw [hk]; decide), hh, hl]; exact (raw_eq hm (place n)).symm

theorem test_names : let s := tiles { tile 51 1 0 0 with names := [5] } (tile 52 2 0 0) (tile 53 3 0 0)
    let x := { tile 51 1 0 0 with names := [5] }
    s.tile? x.id = some x ∧ s.tileNamed job0.act (strand3.getS 2).toNat = some x ∧ Issues s Form.movTopen (word 4 2 0 1) strand3 job0 ∧
    Issues s Form.movTsave (word 1 1 0 0) strand3 job0 ∧ strand3.getT 1 = some x.id ∧ Issues s Form.movTfree (word 0 1 0 0) strand3 job0 ∧
    strand3.clear [] [.t 1] = true ∧ Issues s Form.movTdrop (word 0 2 0 0) strand3 job0 ∧ Issues s Form.movTplace (word 0 1 0 2) strand3 job0 :=
  ⟨rfl, rfl, tiles_issues (by decide) rfl ⟨rfl, rfl⟩, tiles_issues (by decide) rfl ⟨rfl, rfl⟩, rfl, tiles_issues (by decide) rfl ⟨rfl, rfl⟩,
    clear_of rfl _ _, tiles_issues (by decide) rfl ⟨rfl, rfl⟩, tiles_issues (by decide) rfl ⟨rfl, rfl⟩⟩

/-- A tile on its way to the third home, and one to be deleted. -/
def moving : State :=
  { plain3 with fil := { plain3.fil with
      tiles := [tile 51 1 0 0, { tile 54 2 0 0 with dropping := true }], moves := [⟨7, 51, place 3, 4096, false, false⟩], expansions := [⟨51, 1, [], false, some (place 2)⟩] } }
theorem test_tile_moves : moving.fil.expansions.find? (fun e => e.tile == 51) = some ⟨51, 1, [], false, some (place 2)⟩ ∧
    moving.tile? 51 = some (tile 51 1 0 0) ∧ (tile 54 2 0 0).id = 54 ∧ moving.tile? 54 = some { tile 54 2 0 0 with dropping := true } ∧ moving.named 54 = false ∧
    moving.fil.moves.find? (fun m => m.id == 7 && !m.flipped) = some ⟨7, 51, place 3, 4096, false, false⟩ ∧ (∀ m ∈ moving.fil.moves, m.id ≠ 8) :=
  ⟨rfl, rfl, rfl, rfl, rfl, rfl, fun m h => by cases h with
    | head => decide
    | tail _ h => cases h⟩
theorem home_quiet {s : State} {a n : Nat} (hm : isRegister a = false) (hc : ∀ b ∈ blocksOf a n, s.mem.check b = .clean)
    (hp : s.rd F.pwrStackState_inP3 = 0) : s.homeVia 1 a n false = (.inr (s.readMem 0 a n).1, s) := by
  unfold State.homeVia State.homeRaw
  rw [if_neg (by decide)]
  dsimp only
  rw [readMem_quiet hm hc hp]
  rfl
theorem tile_crc (id n f sh : Nat) : ((tile id n f sh).val (raw n)).crc = (tile id n f sh).crc := rfl
theorem test_move_reads : moving.homeVia 1 (place 1) 4096 false = (.inr (moving.readMem 0 (place 1) 4096).1, moving) :=
  home_quiet (by decide) (fun b _ => empty_clean rfl b) (tiles_awake (tile 51 1 0 0) (tile 52 2 0 0) (tile 53 3 0 0))
theorem test_moved_checks : ((tile 51 1 0 0).val (raw 1)).crc = (tile 51 1 0 0).crc ∧ Writable moving (place 2) 4096 :=
  ⟨tile_crc 51 1 0 0, writable_of rfl (tiles_unarmed (tile 51 1 0 0) (tile 52 2 0 0) (tile 53 3 0 0)) (by decide)⟩
/-- SYN.ORED and HEW.ORED of two and of one contributor: the extension word holds N and the slot. -/
theorem test_reduction : Issues base Form.synOred (word 1 2 0 0 [2#64]) strand0 job0 ∧ bits (2#64).toNat 0 16 = 2 ∧ (strand0.getS 0).toNat < 2 ∧
    base.ored? 1 false 0 = none ∧ [strand0.id].Nodup :=
  ⟨base_issues (by decide) rfl ⟨rfl, rfl⟩, by decide, by decide, by decide, by decide⟩
theorem test_reduction_of_one : (match exec (.synOred (word 1 2 0 0 [1#64])) base with
    | .next u => (u.strand? 1).map fun t => t.getS 1
    | _ => none) = some 5#64 := by decide
theorem test_tile_reduction : Issues plain3 Form.hewOred (word 4 1 0 0 [1#64]) strand3 job0 ∧ AtRest plain3 strand3 1 (tile 51 1 0 0) (valOf 51 1 0 0) ∧
    NotPromoted plain3 strand3 (tile 51 1 0 0) ∧ plain3.ored? 1 true 0 = none :=
  ⟨tiles_issues (by decide) rfl ⟨rfl, rfl⟩, (tiles_rest 0 0 0 0 0 0).1, still _ _ _ _ _ _, rfl⟩
/-- A slot that waits for a second contributor, with a limit of its act. -/
def open2 : Ored := ⟨1, false, 0, 2, 0, 0, 0, 0, [⟨0, [5], 1, 1⟩]⟩
def opened : State :=
  ({ base with fil := { base.fil with oreds := [open2] }, tally := { base.tally with beat := 2 } } : State).wr (F.actCtrl_fenceLimit 0) 2
theorem test_reduction_timeout : opened.ored? 1 false 0 = some open2 ∧ opened.job? 1 = some job0 ∧ open2.contribs.length ≠ open2.n ∧
    opened.anyStrand? 1 = some strand0 ∧ opened.rd (F.actCtrl_fenceLimit 0) ≠ 0 ∧ open2.since + opened.rd (F.actCtrl_fenceLimit 0) ≤ opened.tally.beat := by decide
theorem test_reduction_in_time : (opened.wr (F.actCtrl_fenceLimit 0) 0).rd (F.actCtrl_fenceLimit 0) = 0 := by decide

/-! ## Lists, scans and distances -/

/-- A LIST of one lane without entries, in t1. -/
def info0 : ListInfo := ⟨0, 1, [⟨0, false, false, Acc320.zero⟩], some [[]]⟩
def listOf (crc : Nat) : Tile := { tileOf 51 1 8 0 crc with info := some info0 }
def list0 : Tile := listOf ((listOf 0).val (raw 1)).crc
def lists : State := tiles list0 (tile 52 2 0 6) (tile 53 3 0 0)
theorem list_crc : ∀ c r, ((listOf c).val r).crc = ((listOf 0).val r).crc := fun _ _ => rfl
theorem lists_rest : AtRest lists strand3 1 list0 (list0.val (raw 1)) ∧ AtRest lists strand3 2 (tile 52 2 0 6) ((tile 52 2 0 6).val (raw 2)) :=
  ⟨rest_of rfl rfl (by decide) (tiles_awake list0 (tile 52 2 0 6) (tile 53 3 0 0)) rfl rfl rfl rfl (list_crc _ _) rfl rfl,
    rest_of rfl rfl (by decide) (tiles_awake list0 (tile 52 2 0 6) (tile 53 3 0 0)) rfl rfl rfl rfl (tile_crc 52 2 0 6) rfl rfl⟩
theorem test_lists : list0.fmt = 8 ∧ (list0.val (raw 1)).info = some info0 ∧ Issues lists Form.jigTopk (word 4 1 0 1) strand3 job0 ∧
    Issues lists Form.jigMerge (word 4 1 1 0x2001) strand3 job0 ∧ Issues lists Form.jigSums (word 1 1 0 0) strand3 job0 ∧ info0.dirs[0]?.isSome = true :=
  ⟨rfl, rfl, tiles_issues (by decide) rfl ⟨rfl, rfl⟩, tiles_issues (by decide) rfl ⟨rfl, rfl⟩, tiles_issues (by decide) rfl ⟨rfl, rfl⟩, by decide⟩
/-- The snapshot in s62 is stable and not yet retired; an empty view scans nothing. -/
def none0 : BitVec 128 := encodeDsc 64 0 true
theorem test_scan : (strand3.getS 62).toNat ≤ lists.tally.stable ∧ lists.oldest 0 ≤ (strand3.getS 62).toNat ∧ Usable none0 [0] false true ∧
    (decodeDsc none0).len = 0 := ⟨by decide, by decide, by unfold Usable; decide, by decide⟩
theorem test_scan_word : Form.sluScan.ok (word 4 2 0 1) = true ∧ Issues lists Form.idxTomb (word 4 1 2 0) strand3 job0 ∧ strand3.clear [.s 62] [] = true ∧
    info0.beats = some [[]] :=
  ⟨by decide, tiles_issues (by decide) rfl ⟨rfl, rfl⟩, clear_of rfl _ _, rfl⟩
theorem test_vector : VectorAt lists strand3 job0 2 4 ((codesOf 0 ((tile 52 2 0 6).val (raw 2)).data).take 4) ∧
    Issues lists Form.sluDist (word 4 2 2 0) strand3 job0 ∧ isNumeric 0 = true ∧ (tile 52 2 0 6).shape = 6 := by
  refine ⟨⟨rout0, fun _ => tile 52 2 0 6, fun _ => (tile 52 2 0 6).val (raw 2), rfl, ?_, ?_⟩, tiles_issues (by decide) rfl ⟨rfl, rfl⟩, by decide, rfl⟩
  · intro h hh
    have e : h = 2 := by simpa [vecHandles, ceilDiv] using hh
    subst e
    exact ⟨by decide, by decide, lists_rest.2, rfl, rfl⟩
  · show _ = List.take 4 (List.flatMap _ [2])
    rw [List.flatMap_singleton]
/-- A rerank of one entry whose vector is on its way. -/
def rerank0 : Rerank := ⟨7, 0, 1, 1, 9, 51, 1, [0], [(sentinel 0).bytes], 0, 0, 0, [⟨true, false, none, false⟩], none⟩
def reranks : State := { lists with idx := { lists.idx with reranks := [rerank0] } }
theorem test_fetch : reranks.idx.reranks.find? (·.id == rerank0.id) = some rerank0 ∧ rerank0.fetches[0]? = some ⟨true, false, none, false⟩ ∧
    (entryAt (rerank0.entries.getD 0 []) 0).node = reranks.self ∧ rerank0.cut = none ∧
    ({ rerank0 with fetches := [⟨true, true, none, false⟩] } : Rerank).complete = true := by
  refine ⟨rfl, rfl, ?_, rfl, ?_⟩
  · show _ = lists.rd _
    show _ = (base.wr (F.memQCrew_kib 0) 49152).rd _
    decide
  · decide
theorem test_serve : reranks.fun_.fetchHold ≤ reranks.tally.beat := Nat.zero_le _
/-- A strand that waits for its snapshot. -/
theorem test_snapshot_wait : (waits (.snapshot 6 0 (word 4 1 0 1)) 0).strand? 1 = some { strand0 with wait := .snapshot 6 0 (word 4 1 0 1) } ∧
    (strand0.getS 62).toNat ≤ base.tally.stable ∧ base.tally.stable < (({ strand0 with s := [(62, 1#64)] } : Strand).getS 62).toNat ∧
    Form.sluScan.ok (word 4 1 0 1) = true ∧ Form.sluDist.ok (word 4 1 2 0) = true ∧ Form.idxOpen.ok (word 4 1 0 0) = true ∧ Form.idxRoute.ok (word 4 1 0 1) = true ∧
    Form.idxTomb.ok (word 4 1 2 0) = true := by decide
/-! ## Witnesses of the statements about slots, Winze units, tables and the index -/

def slot0 : Slot := ⟨0, false, 0, 1, 0, 0, 0, zeros 128, []⟩
/-- A region of two pages at the bottom of stack 0, for act 0, with every right. -/
def stk : Nat := 0x100000000000
def regioned : State :=
  let s := (base.wr (F.actRegionBaseHi_base 0 0) 0x1000).wr (F.actRegionSize_pages 0 0) 2
  ((s.wr (F.actRegionAttr_read 0 0) 1).wr (F.actRegionAttr_write 0 0) 1).wr (F.actRegionAttr_winze 0 0) 1
/-- Views of its first 64 bytes, of 64 bytes with rows of 16 elements in its second page, and a slot in q1. -/
def strandW : Strand :=
  { strand0 with
    d := [(1, encodeDsc stk 64 false), (2, BitVec.ofNat 128 (stk + 4096 + 64 * 2 ^ 64 + 16 * 2 ^ 106)), (3, encodeDsc stk 0 true)], q := [(1, some slot0)]
    s := [(2, 5#64), (3, 80#64)] }
def table0 : Table := ⟨0, 1, 0, 16, stk + 4096, 64, 0, [], [], [], [], none, [], 0, none, ⟨[], [], []⟩, ⟨[], [], []⟩, 0, [], none⟩
def winze : State := { regioned with fil := { regioned.fil with strands := [strandW] }, wnz := { regioned.wnz with tables := [table0] } }
theorem winze_issues {f : Form} {o : Insn} (hf : f.ok o = true) (ho : o.strand = 1) (hp : o.pidx = 0 ∧ o.pneg = false) : Issues winze f o strandW job0 := by
  refine issues_of hf ?_ rfl rfl rfl (by decide) ?_ rfl
  · rw [ho]; rfl
  · unfold predOk; rw [hp.1, hp.2]; rfl
theorem winze_uses (r : Right) : MayUse winze job0 r stk 64 := by
  cases r <;> exact mayUse_of (by decide)

theorem test_slots : Issues winze Form.tblThresh (word 1 2 0 0) strandW job0 ∧ strandW.getQ 1 = some slot0 ∧ Issues winze Form.tblStore (word 1 1 0 0) strandW job0 ∧
    Issues winze Form.tblFilter (word 1 1 0 0) strandW job0 ∧ Issues winze Form.tblBuild (word 1 1 1 0) strandW job0 ∧ Issues winze Form.tblLoad (word 1 1 0 0) strandW job0 ∧
    Usable (strandW.getD 1) [0] true ∧ OnBlocks (strandW.getD 1) ∧ MayUse winze job0 .write stk 64 :=
  ⟨winze_issues (by decide) rfl ⟨rfl, rfl⟩, rfl, winze_issues (by decide) rfl ⟨rfl, rfl⟩, winze_issues (by decide) rfl ⟨rfl, rfl⟩,
    winze_issues (by decide) rfl ⟨rfl, rfl⟩, winze_issues (by decide) rfl ⟨rfl, rfl⟩, by unfold Usable; decide, by unfold OnBlocks; decide, winze_uses _⟩
theorem test_winze_issue : winze.table? 0 1 = some table0 ∧ table0.swap = none ∧ table0.undef = none ∧ WinzeOperand winze job0 (strandW.getD 1) .read true ∧
    WinzeOperand winze job0 (strandW.getD 1) .write true ∧ Issues winze Form.wnzBag (word 1 1 0 1) strandW job0 ∧
    Issues winze Form.wnzGather (word 1 1 0 1) strandW job0 ∧ Issues winze Form.wnzUpd (word 0 1 0 1) strandW job0 ∧ optAccepts 0 table0.fmt = true :=
  ⟨rfl, rfl, rfl, ⟨by unfold Usable; decide, by unfold OnBlocks; decide, winze_uses _, winze_uses _, by decide⟩,
    ⟨by unfold Usable; decide, by unfold OnBlocks; decide, winze_uses _, winze_uses _, by decide⟩, winze_issues (by decide) rfl ⟨rfl, rfl⟩,
    winze_issues (by decide) rfl ⟨rfl, rfl⟩, winze_issues (by decide) rfl ⟨rfl, rfl⟩, by decide⟩
/-- A scan of nothing, with one slot. -/
theorem test_winze_scan : Issues { winze with fil := { winze.fil with strands := [{ strandW with q := [(0, some slot0)] }] } } Form.wnzScan (word 4 3 3 1)
      { strandW with q := [(0, some slot0)] } job0 ∧
    (List.range 1).map ({ strandW with q := [(0, some slot0)] } : Strand).getQ = [slot0].map some ∧ (decodeDsc (strandW.getD 3)).len = 0 ∧ Usable (strandW.getD 3) [0] false true :=
  ⟨issues_of (by decide) rfl rfl rfl rfl (by decide) rfl rfl, by decide, by decide, by unfold Usable; decide⟩

/-- An operation of one part on stack 0, at each of its stages. -/
def partAt (st : PartAt) : WnzPart := ⟨0, st, [], 2, 0, List.replicate 64 0#8, 0⟩
def opAt (st : PartAt) (registered : Bool) : WnzOp :=
  ⟨7, 0, 1, 0, 0, 1, 9, [(stk, 64)], [], registered, 0, 0, [], true, [partAt st], [slot0], 51, 0, 0, 0, 0, 0, 0, [], [], [], [], [], 0⟩
def opState (st : PartAt) (registered : Bool) : State := { winze with wnz := { winze.wnz with ops := [opAt st registered] } }
theorem test_registration : (opState .dispatcher false).op? 7 = some (opAt .dispatcher false) ∧ (opState .dispatcher false).rangesFit (opAt .dispatcher false) = true ∧
    ((opState .dispatcher false).wnz.ops.map (·.id)).Nodup := by decide
theorem test_queueing : (opState .dispatcher true).op? 7 = some (opAt .dispatcher true) ∧ (opState .dispatcher true).on (F.wnzCtrl_drain 0) = false ∧
    (opState .dispatcher true).queuedOn 0 none < 64 ∧ (opState .dispatcher true).queuedOn 0 (some 0) < (opState .dispatcher true).rd (F.wnzCtrl_actMax 0) := by decide
theorem test_resend : (zeros 64).length = 64 ∧ (leAt (zeros 63) 0x3C 4 = 0 ∧ (zeros 63).length ≠ 64) ∧ (partAt .queued).stands = .queued := by decide
theorem test_chunk : (opState .running true).op? 7 = some (opAt .running true) ∧ bitOf ((opState .running true).usableUnits 0) 0 = true ∧
    (opState .running true).pins.hot = [] := by decide
theorem test_completion_point : (opState .done true).wnz.ops = [opAt .done true] ∧ (opState .done true).opHeld (opAt .done true) = false ∧
    (opState .done true).wnz.held = [] ∧ (opState .done true).host.reads = [] ∧ (∀ q ∈ (opAt .done true).parts, q.stands = .done) := by decide
theorem test_unit_failure : bitOf (base.rd (F.wnzUnitMap_enabled 0)) 0 = true ∧ bitOf (base.rd (F.wnzUnitMap_failed 0)) 0 = false ∧
    base.rd (F.wnzStatus_spareUsed 0) = 0 ∧ bitOf (base.rd (F.wnzUnitMap_enabled 0)) 4 = false ∧ base.rd F.pwrStatus_p4 = 0 := by decide
theorem test_define : Issues winze Form.tblTdef (word 0 2 0 2) strandW job0 ∧ Usable (strandW.getD 2) [0] false ∧ (decodeDsc (strandW.getD 2)).elem = 0 ∧
    rowElemsOk 0 (decodeDsc (strandW.getD 2)).stride = true ∧ (decodeDsc (strandW.getD 2)).base % rowBytesOf 0 16 = 0 ∧ (decodeDsc (strandW.getD 2)).len % rowBytesOf 0 16 = 0 ∧
    winze.extentOk 0 (stk + 4096) 64 = true ∧ winze.table? 0 2 = none :=
  ⟨winze_issues (by decide) rfl ⟨rfl, rfl⟩, by unfold Usable; decide, by decide, by decide, by decide, by decide, by decide, rfl⟩
/-- A swap to the region's first page: at 16 beats ahead it is registered, at 15 it is not. -/
theorem test_swap : Issues winze Form.tblSwap (word 0 1 3 1) strandW job0 ∧ strandW.clear [] [] = true ∧ (decodeDsc (strandW.getD 1)).base % table0.rowBytes = 0 ∧
    (decodeDsc (strandW.getD 1)).len % table0.rowBytes = 0 ∧ winze.extentOk 0 stk 64 = true ∧ rangesMeet stk 64 table0.base table0.len = false ∧
    winze.tally.beat + 16 ≤ (strandW.getS 3).toNat ∧ (strandW.getS 2).toNat < winze.tally.beat + 16 ∧ (winze.moved (word 0 1 3 1) strandW).eventRoom = true ∧
    Issues winze Form.tblVer (word 1 0 0 1) strandW job0 :=
  ⟨winze_issues (by decide) rfl ⟨rfl, rfl⟩, clear_of rfl _ _, by decide, by decide, by decide, by decide, by decide, by decide, by decide,
    winze_issues (by decide) rfl ⟨rfl, rfl⟩⟩
theorem test_swap_event : ({ winze with wnz := { winze.wnz with tables := [{ table0 with swap := some (0, stk, 64) }] } } : State).table? 0 1 =
    some { table0 with swap := some (0, stk, 64) } ∧ (0 : Nat) ≤ winze.tally.beat ∧ table0.moves = [] := by decide

/-- A loader job that stands at an operation, with a block of arguments. -/
def loaderJob (op : Nat) (args : List Byte) (data : List Byte) : Job :=
  { job0 with phase := .loader, desc := { desc0 with routine := 0, inline := leBytes op 8 ++ args, resLen := 4096 }, data := data }
def calls (op : Nat) (args data : List Byte) : State := { winze with fil := { winze.fil with jobs := [loaderJob op args data] } }
/-- MIGRATE of row 0 to the region's first page, flipping 64 beats after the pick-up. -/
def migrate : List Byte := [0#8, 1#8, 1#8, 0#8] ++ zeros 4 ++ leBytes 64 8 ++ leBytes 0 8 ++ leBytes stk 8
theorem test_migrate : Sys2Proof.Claims.TableCall (calls 6 [] migrate) 1 0 (loaderJob 6 [] migrate) table0 ∧ leAt migrate 8 8 = 64 ∧
    (∀ m ∈ migrateRows migrate, (calls 6 [] migrate).moveRefused table0 m.1 m.2 = false) ∧ ((migrateRows migrate).map (·.1)).Nodup ∧
    (calls 6 [] migrate).movesRoom table0 ((migrateRows migrate).map (·.1)) = true ∧ (calls 6 [] migrate).eventRoom = true :=
  ⟨⟨by decide, by decide, by decide, by decide⟩, by decide, by decide, by decide, by decide, by decide⟩
theorem test_report : Sys2Proof.Claims.TableCall (calls 6 [] ([1#8, 1#8] ++ zeros 14)) 1 1 (loaderJob 6 [] ([1#8, 1#8] ++ zeros 14)) table0 ∧
    1856 ≤ (loaderJob 6 [] []).desc.resLen ∧
    Sys2Proof.Claims.TableCall (calls 6 [] ([2#8, 1#8] ++ zeros 14)) 1 2 (loaderJob 6 [] ([2#8, 1#8] ++ zeros 14)) table0 ∧ table0.undef = none :=
  ⟨⟨by decide, by decide, by decide, by decide⟩, by decide, ⟨by decide, by decide, by decide, by decide⟩, rfl⟩
/-- A move of row 0 at each of its stages. -/
def move0 (stage : Nat) : RowMove := ⟨0, stk + 4096, stk, if stage = 2 then 0 else 64, 1, stage⟩
def tableMoving (stage : Nat) : Table := { table0 with moves := [move0 stage], blocks := [⟨1, if stage = 2 then 0 else 64, 0⟩] }
def migrating (stage : Nat) : State :=
  { winze with fil := { winze.fil with jobs := [loaderJob 6 [] migrate] }, wnz := { winze.wnz with tables := [tableMoving stage] } }
theorem test_migration : (migrating 0).table? 0 1 = some (tableMoving 0) ∧ (migrating 1).table? 0 1 = some (tableMoving 1) ∧
    (tableMoving 1).moves.find? (fun x => x.row == 0 && x.stage == 1) = some (move0 1) ∧ (migrating 1).tally.beat < (move0 1).flip ∧
    (migrating 1).canonical = true ∧ isRegister (move0 1).source = false ∧ (migrating 1).rd F.pwrStackState_inP3 = 0 ∧
    (tableMoving 2).moves = [move0 2] ∧ (move0 2).flip ≤ (migrating 2).tally.beat ∧ table0.base + 0 ≠ (move0 2).target := by decide
theorem test_source_release : (table0.blocks ++ [(⟨1, 0, 0⟩ : MoveBlock)]).find? (·.job == 1) = some ⟨1, 0, 0⟩ ∧ (0 : Nat) ≤ winze.tally.beat ∧
    (calls 6 [] migrate).job? 1 = some (loaderJob 6 [] migrate) ∧ (loaderJob 6 [] migrate).phase = .loader := by decide
theorem test_window : ({ winze with tally := { winze.tally with beat := 65536 } } : State).tally.beat % 65536 = 0 ∧ (65536 : Nat) ≠ 0 := by decide

/-- An index of act 0 whose seam 5 this node holds. -/
def rec5 : HfRec := ⟨5, 0, 0, 0, 0, 0, false, [], true, [], []⟩
def seam5 : Seam := ⟨0, 5, [⟨1, 0, 0, 0, 0, 1, 1, stk, []⟩], ⟨stk, 4, 1, []⟩, ⟨stk + 4096, 4, 1, []⟩, 1, 1, [], [], none, none, false⟩
def index0 : Index := ⟨0, 4, 0, 0, false, 0, false, 1, 0, 0, 1, 0, 0, 0, [], [⟨0, 0, 1, [stk], true, [1, 0, 0, 1, 0], [5], true, [rec5]⟩], [seam5], [], []⟩
def indexed : State := { winze with idx := { winze.idx with indexes := [index0] } }
theorem test_delete : Issues indexed Form.idxDelete (word 1 2 3 0) strandW job0 ∧ (strandW.getS 2).toNat = 5 ∧ indexed.homeFor' 0 5 = some 0 ∧ indexed.self = 0 ∧
    indexed.index? 0 = some index0 ∧ indexed.seam? 0 5 = some seam5 ∧ indexed.sourceOf 0 5 = none ∧ index0.recNow indexed.tally.beat 5 = some rec5 ∧
    rec5.retiredAt 1 = false ∧ indexed.entriesHeld < 32 * 10 ^ 9 ∧ seam5.nextTomb < seam5.tomb.first + seam5.tomb.cap ∧ indexed.canonical = true ∧
    indexed.mustHold ⟨0, 5, true, 80, 0, 0, [], 0, 0, 0, []⟩ = false :=
  ⟨issues_of (by decide) rfl rfl rfl rfl (by decide) rfl rfl, by decide, by decide, by decide, rfl, rfl, by decide, by decide, by decide, by decide, by decide, by decide,
    by decide⟩
theorem test_append_words : Form.idxAppend.ok (word 1 1 2 0 [5#64, 0#64]) = true ∧ Form.idxAppendx.ok (word 1 1 2 0 [5#64, 0#64, 9#64]) = true ∧
    seam5.beyond < 131072 := by decide
theorem test_forwarded : leAt (zeros 32 ++ leBytes 1 8) 0x20 8 = seam5.next false ∧ seam5.next false < (seam5.ext false).first + (seam5.ext false).cap := by decide
theorem test_committed_beat : ((((base.wr F.carStatus_state 3).wr F.carCfg_position 0).wr64 F.carMembersLo_map F.carMembersHi_map 3).isMember = true ∧
    ((base.wr64 F.carMembersLo_map F.carMembersHi_map 3).members.testBit 1 = true) ∧ (1 : Nat) ≠ base.position) := by decide

/-! ## Witnesses of the statements about index versions, rebalances and exchanges -/

/-- The index of act 0 with 32 elements, whose seam 5 this node holds with one graph, and an image of its next graph with its checks. -/
def index1 : Index := { index0 with dim := 32, vfmt := 1, graphs := [⟨0, 0, 1, [stk], true, [1, 0, 0, 1, 0], [5], true, [rec5]⟩] }
def rec1 : List Byte :=
  let b := leBytes 5 4 ++ [0#8, 0#8, 0#8, 1#8] ++ zeros 24 ++ List.replicate 128 0xFF#8 ++ zeros 28
  b ++ leBytes (crc32c b) 4
def image : List Byte :=
  let h := leBytes 0x4958444E 4 ++ zeros 2 ++ [1#8, 0#8] ++ leBytes 2048 8 ++ leBytes 32 2 ++ [0#8, 0#8, 0#8, 1#8, 0#8, 0#8] ++ leBytes 32 2 ++
    leBytes 1 2 ++ leBytes 64 4 ++ leBytes 4096 4 ++ leBytes 1 4 ++ zeros 16 ++ leBytes 1 4 ++ zeros 4
  let body := rec1 ++ zeros 64
  let g := h ++ leBytes (crc32c body) 4
  g ++ leBytes (crc32c g) 4 ++ zeros 56 ++ body
/-- A loader call of an operation with its image, in a state with pool space for act 0. -/
def loads (op : Nat) (args data : List Byte) : State :=
  { calls op args data with
    regs := ((winze.wr F.memPool_gib 1).wr (F.memQStack_kib 0) 65536).regs
    idx := { winze.idx with indexes := [index1] } }
set_option maxRecDepth 100000 in
theorem test_install : ((loads 3 (zeros 8 ++ leBytes 384 8) image).acceptInstall 0 0 (padTo 0#8 384 image)).map
    (fun w => decide (w.fil.jobs = (loads 3 (zeros 8 ++ leBytes 384 8) image).fil.jobs)) = some true := by decide +kernel
theorem test_install_refused : (loads 3 (zeros 8 ++ leBytes 384 8) image).loaderCall 1 3 = some (loaderJob 3 (zeros 8 ++ leBytes 384 8) image) ∧
    (loads 3 [] image).acceptInstall 0 0 [] = none := ⟨rfl, by decide +kernel⟩
/-- A graph in doubt, to be withdrawn. -/
def doubted : Graph := ⟨64, 0, 2, [stk], false, [32, 1, 64, 4096, 1], [], false, [rec5]⟩
theorem test_withdraw : (indexed.index? 0).isSome = true ∧ ({ index0 with graphs := [doubted] } : Index).graphs.find? (fun g => g.activeBeat == 64 && !g.settled) = some doubted ∧
    (64 : Nat) ≤ indexed.tally.beat + 256 := by decide
/-- Seam 5 with a backfill due now, a version, and pool space for the next. -/
def version0 : Version := ⟨1, 0, 0, 0, 0, 1, 1, stk, []⟩
def filling : Seam := { seam5 with backfill := some 0 }
theorem test_backfill : filling.versions = [version0] ∧ filling.backfill = some 0 ∧ (0 : Nat) ≤ winze.tally.beat ∧ filling.writing = none ∧ filling.forwarding = false ∧
    ((((loads 0 [] []).fired 1).allocPool 0 128 (.index 0 5)).1).isSome = true ∧ (((loads 0 [] []).fired 1).allocPool 0 128 (.index 0 5)).2.mem = MemSt.empty ∧
    (((loads 0 [] []).fired 1).allocPool 0 128 (.index 0 5)).2.idx = (loads 0 [] []).idx := by
  refine ⟨rfl, rfl, by decide, rfl, rfl, ?_, ?_, ?_⟩ <;> decide +kernel
theorem test_publish : ({ seam5 with writing := some { version0 with num := 2, cut := 3 } } : Seam).writing = some { version0 with num := 2, cut := 3 } ∧
    ({ indexed with tally := { indexed.tally with beat := 4 } } : State).tally.beat = 4 ∧ seam5.backfill = none ∧ indexed.sourceOf 0 5 = none ∧
    seam5.nextSide ≤ version0.sideSeq + 32 ∧ indexed.canonical = true ∧ indexed.rd F.pwrStackState_inP3 = 0 := by decide
theorem test_version_release : ({ seam5 with versions := [{ version0 with num := 2 }, version0] } : Seam).versions.find? (·.num == version0.num) = some version0 ∧
    version0.readers = [] ∧ ({ version0 with num := 2 } : Version).cut ≤ indexed.oldest 0 ∧ index0.runs = [] := by decide
theorem test_seam_release : ({ index0 with graphs := [⟨0, 0, 1, [stk], true, [1, 0, 0, 1, 0], [5], true, [{ rec5 with state := 1 }]⟩] } : Index).recAny 5 = some { rec5 with state := 1 } ∧
    (0 : Nat) ≤ indexed.oldest 0 ∧ index0.recAny 5 = some rec5 := by decide
/-- SYS.IDXOP in a privileged job: at beat 64 it schedules, at beat 5 it does not. -/
def privileged : State := { indexed with fil := { indexed.fil with routines := [{ rout0 with priv := true }] } }
theorem test_index_operation : Issues privileged Form.sysIdxop (word 0 2 3 0) strandW job0 ∧ privileged.isPriv job0 = true ∧ privileged.seamAct 5 = 0 ∧
    (strandW.getS 2).toNat = 5 ∧ index0.recNow privileged.tally.beat 5 = some rec5 ∧ privileged.tally.beat + 64 ≤ (strandW.getS 3).toNat ∧ (strandW.getS 2).toNat < privileged.tally.beat + 64 ∧
    rec5.homeAt privileged.tally.beat = privileged.self ∧ (privileged.moved (word 0 2 3 0) strandW).eventRoom = true :=
  ⟨issues_of (by decide) rfl rfl rfl rfl (by decide) rfl rfl, by decide, by decide, by decide, by decide, by decide, by decide, by decide, by decide⟩

/-- Moves of seam 5 that this node makes, from and to node 1. -/
def moveOut : Rebalance := ⟨0, 5, 0, 1, 0, false, false, false, false⟩
def moveIn : Rebalance := ⟨0, 5, 1, 0, 64, true, false, false, false⟩
def rebal (m : Rebalance) (seams : List Seam) (r : HfRec) : State :=
  { indexed with idx := { indexed.idx with
    indexes := [{ index0 with dim := 32, graphs := [⟨0, 0, 1, [stk], true, [1, 0, 0, 1, 0], [5], true, [r]⟩], seams := seams }], rebalances := [m] } }
def copy5 : SeamCopy := ⟨0, 5, 1, 0, 0, 0, 1, 1, [], 1, [], 1, [], none⟩
theorem test_seam_copy : ((rebal moveIn [] rec5).index? 0).isSome = true ∧ (rebal moveIn [] rec5).seam? 0 5 = none ∧ moveIn.target = (rebal moveIn [] rec5).self ∧
    moveIn.source ≠ (rebal moveIn [] rec5).self ∧
    (((({ rebal moveIn [] rec5 with regs := (loads 0 [] []).regs } : State).createSeam index1 copy5).map fun w => w.idx.rebalances) = some [moveIn]) := by decide +kernel
theorem test_ready : moveIn ∈ (rebal moveIn [] { rec5 with nextHome := 0, nextBeat := 64 }).idx.rebalances ∧ moveIn.copied = true ∧
    (rebal moveIn [] { rec5 with nextHome := 0, nextBeat := 64 }).index? 0 ≠ none ∧ moveIn.beat ∈ ({ rec5 with nextHome := 0, nextBeat := 64 } : HfRec).moveBeats ∧
    ({ rec5 with nextHome := 0, nextBeat := 64 } : HfRec).moveReady moveIn.beat = false := by decide
def moveSoon : Rebalance := { moveOut with beat := 8 }
theorem test_cancel : (rebal moveSoon [seam5] { rec5 with nextBeat := 8 }).pendingMove 0 5 moveSoon.beat = some moveSoon ∧ moveSoon.target ≠ (rebal moveSoon [seam5] rec5).self ∧
    moveSoon.source = (rebal moveSoon [seam5] rec5).self ∧ moveSoon.beat ≤ (rebal moveSoon [seam5] rec5).tally.beat + 16 ∧
    (rebal moveSoon [seam5] { rec5 with nextBeat := 8 }).moveReady 0 5 moveSoon.beat = false := by decide
theorem test_move_release : (rebal { moveOut with closed := true } [seam5] rec5).sourceOf 0 5 = some { moveOut with closed := true } ∧
    (0 : Nat) ≤ (rebal moveOut [seam5] rec5).oldest 0 ∧ seam5.read = false ∧ index0.runs = [] ∧
    rec5.nextBeat = moveOut.beat ∧ ({ rec5 with home := 1 } : HfRec).homeAt ((rebal moveOut [seam5] rec5).tally.beat + 1) ≠ (rebal moveOut [seam5] rec5).self ∧ (rebal moveIn [seam5] rec5).sourceOf 0 5 = none ∧
    ((rebal moveIn [seam5] rec5).index? 0).isSome = true := by decide

/-- No Winze operation and no full channel holds a range where there is no operation and no held write. -/
theorem holder_none {s : State} (hw : s.wnz.ops = []) (hh : s.wnz.held = []) (w : Bool) (a n : Nat) : s.holder w a n = none := by
  unfold State.holder State.rangeHolder State.portHolder; rw [hw, hh]; cases w <;> rfl

/-! An exchange of 4,487 pages in a region of 65,536 pages at the bottom of stack 0, with the header of the smallest layout. -/

def xlen : Nat := 18378752
def xhead : List Host.Cell := [(stk, 0x47#8), (stk + 1, 0x48#8), (stk + 2, 0x43#8), (stk + 3, 0x58#8), (stk + 6, 1#8), (stk + 8, 1#8), (stk + 13, 1#8)]
def exchange0 : Exchange := ⟨0, stk, xlen, 0, 2048, 12288, 1, 1, 0, 256, 28672, 0⟩
/-- A node that is the member at position 0 of a rack of two, with its first ring pair lit. -/
def member (s : State) : State :=
  ((((((s.wr F.carStatus_state 3).wr F.carCfg_size 2).wr F.carCfg_pairEn 1).wr F.carStatus_pairs 15).wr F.glbNodeId_valid 1).wr64 F.carMembersLo_map F.carMembersHi_map 3)
/-- The same node with a move of seam 5 to node 1. -/
def moveReady1 : Rebalance := { moveOut with beat := 1 }
def forwards : State := member (rebal moveReady1 [seam5] { rec5 with nextHome := 1, nextBeat := 1, ready := true })
theorem test_forward : forwards.sourceOf 0 5 = some moveReady1 ∧ forwards.seam? 0 5 = some seam5 ∧ moveReady1.beat ≤ forwards.tally.beat + 1 ∧
    moveReady1.closed = false ∧ forwards.moveReady 0 5 moveReady1.beat = true ∧ forwards.idx.heldApps = [] ∧ forwards.linkFor forwards.self 1 = some 0 := by decide +kernel
def wide : State := { winze with regs := (member (winze.wr (F.actRegionSize_pages 0 0) 65536)).regs }
def opening : State :=
  { wide with
    mem := { MemSt.empty with bytes := xhead }
    fil := { wide.fil with jobs := [loaderJob 5 (leBytes stk 8 ++ leBytes xlen 8) []] } }

/-- Memory that holds bytes and nothing else is clean everywhere. -/
theorem bytes_clean {s : State} {l : List Host.Cell} (hs : s.mem = { MemSt.empty with bytes := l }) (b : Nat) :
    s.mem.dead b = false ∧ s.mem.check b = .clean := by
  have h := (check_clean_iff s.mem b)
  have hd : s.mem.dead b = false := by rw [hs]; unfold MemSt.dead; cases blockChan b <;> rfl
  refine ⟨hd, h.2 ?_⟩
  rw [hs]
  unfold MemSt.dead MemSt.lost
  cases blockChan b <;> exact ⟨rfl, rfl, check_zero⟩

theorem rd_of {s u : State} (h : s.regs = u.regs) (f : FieldRef) : s.rd f = u.rd f := by
  unfold State.rd State.reg; rw [h]
theorem wide_has {s : State} (hs : s.regs = wide.regs) (r : Right) (p : Nat) (h : stk ≤ p) (h' : p < stk + 65536 * 4096) : s.regionGrants 0 r p = true := by
  have hp : physOf p = some p := physOf_stack h (by unfold stk at *; omega)
  obtain ⟨t, o, e⟩ | ⟨c, o, e⟩ := physOf_locate hp
  · unfold physOf at hp
    unfold State.regionGrants
    rw [e] at hp ⊢
    have ha : stackAddr t o = p := by simpa using hp
    dsimp only
    rw [ha, Bool.or_eq_true]
    left
    unfold State.regionHas
    refine List.any_eq_true.2 ⟨0, by decide +kernel, ?_⟩
    unfold State.regionAt
    dsimp only
    unfold State.on
    simp only [rd_of hs]
    have hb : wide.rd (F.actRegionBaseLo_base 0 0) * 4096 + wide.rd (F.actRegionBaseHi_base 0 0) * 2 ^ 32 = stk := by decide +kernel
    have hz : wide.rd (F.actRegionSize_pages 0 0) * 4096 = 65536 * 4096 := by decide +kernel
    rw [hb, hz, decide_eq_true (show stk + 65536 * 4096 ≤ 2 ^ 46 ∧ stk ≤ p ∧ p < stk + 65536 * 4096 from ⟨by decide +kernel, h, h'⟩)]
    cases r <;> decide +kernel
  · unfold physOf locate at hp
    unfold locate at e
    unfold stk at *
    have h1 : ¬ p < 0x30000000000 := by omega
    rw [if_neg h1, if_pos (by unfold stackView stackLen; omega)] at e
    cases e

theorem wide_allows (k : Nat) (h : k < 4487) : physOf (stk + k * 4096) = some (stk + k * 4096) := physOf_stack (by unfold stk; omega) (by unfold stk; omega)

theorem wide_range (r : Right) : opening.rangeHas 0 r stk xlen = true := by
  unfold State.rangeHas
  refine List.all_eq_true.2 fun k hk => ?_
  have hk : k < 4487 := List.mem_range.1 hk
  rw [wide_allows k hk]
  exact wide_has rfl r _ (by omega) (by omega)

theorem wide_space : opening.regionSpace stk xlen = true := by
  unfold State.regionSpace
  refine List.all_eq_true.2 fun k hk => ?_
  have hk : k < 4487 := List.mem_range.1 hk
  rw [wide_allows k hk]
  show (!opening.inPool _) = true
  unfold State.inPool locate
  rw [if_neg (by unfold stk; omega), if_pos (by unfold stk stackView stackLen; omega)]
  have hg : opening.rd F.memPool_gib ≤ 127 := by decide +kernel
  have hz : (stk + k * 4096 - stackView) % stackLen = k * 4096 := by
    unfold stk stackView stackLen
    rw [Nat.add_sub_cancel_left, Nat.mod_eq_of_lt (by omega)]
  simp only [Bool.not_eq_true', decide_eq_false_iff_not]
  rw [hz]; omega

theorem test_open_exchange : opening.loaderCall 1 5 = some (loaderJob 5 (leBytes stk 8 ++ leBytes xlen 8) []) ∧
    (loaderJob 5 (leBytes stk 8 ++ leBytes xlen 8) []).desc.arg 2 = stk ∧ (loaderJob 5 (leBytes stk 8 ++ leBytes xlen 8) []).desc.arg 3 = xlen ∧
    opening.holder true stk xlen = none ∧ isRegister stk = false ∧ (∀ b ∈ blocksOf stk 0x40, opening.mem.check b = .clean) ∧ opening.rd F.pwrStackState_inP3 = 0 ∧
    readExchange 0 stk xlen 0 (opening.readMem 0 stk 0x40).1 = some exchange0 ∧ opening.oneRegion 0 stk xlen = true ∧
    opening.exportRefused 0 stk (roundUp xlen 4096) 7 = false ∧ opening.idx.exchanges = [] ∧ opening.canonical = true ∧
    ∀ key, Writable opening stk (exchangeArea { exchange0 with key := key } (opening.readMem 0 stk 0x40).1).length := by
  refine ⟨by decide +kernel, by decide +kernel, by decide +kernel, holder_none rfl rfl _ _ _, by decide +kernel, fun b _ => (bytes_clean rfl b).2, by decide +kernel, by decide +kernel, by decide +kernel, ?_, rfl, by decide +kernel, fun key => ?_⟩
  · unfold State.exportRefused
    rw [show roundUp xlen 4096 = xlen by decide +kernel, wide_space, wide_range, wide_range,
      show opening.inCopyStore stk xlen = false from ?_]
    · decide
    · unfold State.inCopyStore rangesMeet
      dsimp only
      rw [show opening.rd F.carCopySize_mib * 2 ^ 20 = 0 by decide +kernel, if_pos rfl]
      simp
  · have hl : (exchangeArea { exchange0 with key := key } (opening.readMem 0 stk 0x40).1).length = xlen := by
      unfold exchangeArea padTo
      rw [List.length_append, List.length_replicate, List.length_take]
      have : ({ exchange0 with key := key } : Exchange).len = xlen := rfl
      rw [this]
      simp [leBytes, zeros, exchange0, xlen]
      omega
    rw [hl]
    refine ⟨fun i hi => ?_, by decide +kernel, fun b _ => bytes_clean rfl b⟩
    rw [physOf_stack (by unfold stk; omega) (by unfold stk xlen at *; omega)]; rfl

/-- A cage of one lane of act 0 at beat 2. -/
def cage0 (opened deadline : Nat) : Cage := ⟨0, 5, 0, opened, [⟨0, 0, 0, 1, deadline, false⟩], none⟩
def caged (opened deadline : Nat) : State :=
  { wide with tally := { wide.tally with beat := 2 }, idx := { wide.idx with exchanges := [exchange0], cages := [cage0 opened deadline] } }
theorem test_cages : (caged 1 9).exchange? 0 = some exchange0 ∧ (caged 1 9).ringFull exchange0 = false ∧ (caged 1 9).idx.cages.filter (·.act == 0) = [cage0 1 9] ∧
    (cage0 1 9).opened + exchange0.wait ≤ (caged 1 9).tally.beat ∧ (caged 2 2).tally.beat < (cage0 2 2).opened + exchange0.wait ∧
    (∀ l ∈ (cage0 1 9).lanes, (cage0 1 9).opened + exchange0.wait ≤ l.deadline - exchange0.guard) ∧ (cage0 1 9).closing = none ∧
    (caged 2 2).ringFull exchange0 = false ∧ (2 : Nat) ≤ (caged 2 2).tally.beat + exchange0.guard ∧ (cage0 2 2).lanes.length < 8 := by decide +kernel
/-- A probe of one seam in slot 0 of source 0, with its SUMMARY bit. -/
def probeCells : List Host.Cell :=
  let a := stk + 28672
  [(stk + 0x1000, 1#8), (a + 8, 9#8), (a + 0x10, 1#8), (a + 0x12, 1#8), (a + 0x42, 32#8), (a + 0x7C, 95#8), (a + 0x7D, 170#8), (a + 0x7E, 19#8), (a + 0x7F, 39#8),
    (a + 768, 5#8)]
def probed : State :=
  { wide with mem := { MemSt.empty with bytes := probeCells }, idx := { wide.idx with exchanges := [exchange0], indexes := [index0] } }
def probeBytes : List Byte := probed.peek (stk + 28672) 2048
theorem probe_read : probeBytes = zeros 8 ++ [9#8] ++ zeros 7 ++ [1#8, 0#8, 1#8] ++ zeros 47 ++ [32#8] ++ zeros 57 ++ [95#8, 170#8, 19#8, 39#8] ++ zeros 640 ++ [5#8] ++
    zeros 1279 := by decide +kernel
set_option maxRecDepth 100000 in
theorem probe_ok : readProbe exchange0 (some index0) 0 0 probeBytes = ⟨0, 9, 1, false, [(5, 0)], true⟩ := by
  rw [probe_read]; decide +kernel
theorem test_admission : probed.exchange? 0 = some exchange0 ∧ probed.ringFull exchange0 = false ∧ 0 < exchange0.wait ∧
    (∀ k < 128, leNat (probed.peek (stk + 0x1000 + 8 * k) 8) = if k = 0 then 1 else 0) ∧ (probed.index? 0) = some index0 ∧ probed.oldest 0 ≤ 0 ∧
    probed.tally.beat + exchange0.guard < 9 ∧ probed.idx.cages = [] := by decide +kernel

/-! ## Witnesses of the statements about the rack and flash -/

/-- The wide region lies below the pool, so its act may use it. -/
theorem wide_may {s : State} (hs : s.regs = wide.regs) (ha : s.fil.allocs = wide.fil.allocs) (j : Job) (hj : j.act = 0) (r : Right) (a n : Nat)
    (h : stk ≤ a) (h' : a + n ≤ stk + 65536 * 4096) : MayUse s j r a n := by
  intro x h1 h2
  have h3 : stk ≤ x := by omega
  have h4 : x < stk + 65536 * 4096 := by omega
  refine ⟨x, physOf_stack (by unfold stk at *; omega) (by unfold stk at *; omega), ?_⟩
  unfold State.mayAccess
  rw [hj, wide_has hs r x h3 h4, Bool.and_true, Bool.or_eq_true]
  right
  unfold State.guarded State.inPool locate
  rw [ha, rd_of hs, if_neg (by unfold stk at *; omega), if_pos (by unfold stk stackView stackLen at *; omega)]
  have hg : wide.rd F.memPool_gib ≤ 127 := by decide +kernel
  have hz : (x - stackView) % stackLen = x - stk := by
    unfold stk stackView stackLen at *
    rw [Nat.mod_eq_of_lt (by omega)]
  dsimp only
  rw [hz]
  have hw : decide (x - stk ≥ (128 - wide.rd F.memPool_gib) * 2 ^ 30) = false := decide_eq_false (by unfold stk at *; omega)
  rw [hw]
  rfl

theorem wide_quiet {s : State} (hm : s.mem = MemSt.empty) (hw : s.wnz.ops = [] ∧ s.wnz.held = []) (hp : s.rd F.pwrStackState_inP3 = 0) (a n : Nat) (ha : isRegister a = false) :
    Sys2Proof.Claims.Quiet s a n :=
  ⟨holder_none hw.1 hw.2 false a n, ha, fun b _ => empty_clean hm b, hp⟩
theorem wide_writable {s : State} (hm : s.mem = MemSt.empty) (ha : s.rd F.memFlipCtrl_arm = 0) (a n : Nat) (h : stk ≤ a) (h' : a + n ≤ stk + 65536 * 4096) :
    Writable s a n :=
  ⟨fun i hi => by rw [physOf_stack (by unfold stk at *; omega) (by unfold stk at *; omega)]; rfl, ha, fun b _ => ⟨empty_alive hm b, empty_clean hm b⟩⟩

/-- A descriptor of rack space at a node, from address 0. -/
def rackDsc (node base len : Nat) : BitVec 128 := BitVec.ofNat 128 (base + node * 2 ^ 46 + 2 ^ 52 + len * 2 ^ 64)
/-- Node 0 beside member 1, with a strand that has views of node 1 and of itself. -/
def strandR (node : Nat) : Strand :=
  { strand0 with s := [(2, 5#64), (3, 8#64), (4, 1#64)], d := [(1, rackDsc node 0 64), (2, encodeDsc stk 16384 false), (3, rackDsc node stk 64)] }
def rackOf (node : Nat) : State := { wide with fil := { wide.fil with strands := [strandR node] } }
theorem rack_issues {f : Form} {o : Insn} {n : Nat} (hf : f.ok o = true) (ho : o.strand = 1) (hp : o.pidx = 0 ∧ o.pneg = false)
    (hc : (rackOf n).crewIssues 0 = true) : Issues (rackOf n) f o (strandR n) job0 := by
  refine issues_of hf ?_ (by show (rackOf n).job? 1 = _; rfl) rfl ?_ ?_ ?_ rfl
  · rw [ho]; rfl
  · show wide.rst.block = none; rfl
  · exact hc
  · unfold predOk; rw [hp.1, hp.2]; rfl
theorem rack_remote : Sys2Proof.Claims.Remote (rackOf 1) (strandR 1) ((strandR 1).getD 1) true 0 ∧ Sys2Proof.Claims.Remote (rackOf 1) (strandR 1) ((strandR 1).getD 1) false 0 := by
  constructor <;> exact ⟨by unfold Usable; decide, by decide, by decide, by decide, by decide, by decide +kernel, by decide, fun r h => nomatch (show r ∈ [] from h)⟩
theorem rack_crew : (rackOf 0).crewIssues 0 = true ∧ (rackOf 1).crewIssues 0 = true := by decide +kernel
theorem test_rack_requests : Issues (rackOf 1) Form.carLd (word 1 1 3 0 [0#64]) (strandR 1) job0 ∧ Issues (rackOf 1) Form.carInv (word 0 1 0 0 [0#64]) (strandR 1) job0 ∧
    Issues (rackOf 1) Form.carGet (word 2 1 3 0 [0#64]) (strandR 1) job0 ∧ Issues (rackOf 1) Form.carSt (word 1 2 3 0 [0#64]) (strandR 1) job0 ∧
    Issues (rackOf 1) Form.carPut (word 1 2 3 0 [0#64]) (strandR 1) job0 ∧ Issues (rackOf 1) Form.carAtom (word 1 1 3 0 [0#64]) (strandR 1) job0 ∧
    Issues (rackOf 1) Form.carAtomn (word 0 1 3 0 [0#64]) (strandR 1) job0 :=
  ⟨rack_issues (by decide) rfl ⟨rfl, rfl⟩ rack_crew.2, rack_issues (by decide) rfl ⟨rfl, rfl⟩ rack_crew.2, rack_issues (by decide) rfl ⟨rfl, rfl⟩ rack_crew.2,
    rack_issues (by decide) rfl ⟨rfl, rfl⟩ rack_crew.2, rack_issues (by decide) rfl ⟨rfl, rfl⟩ rack_crew.2, rack_issues (by decide) rfl ⟨rfl, rfl⟩ rack_crew.2,
    rack_issues (by decide) rfl ⟨rfl, rfl⟩ rack_crew.2⟩
theorem test_rack_ranges (r : Right) : ((strandR 1).getS 3).toNat + 1 ≤ (decodeDsc ((strandR 1).getD 1)).len ∧ Usable ((strandR 1).getD 2) [0] true ∧
    ((strandR 1).getS 3).toNat ≤ (decodeDsc ((strandR 1).getD 2)).len ∧ MayUse (rackOf 1) job0 r stk 8 ∧ (decodeDsc ((strandR 1).getD 2)).base = stk ∧
    (rackOf 1).car.reqs = [] ∧ (strandR 1).inflight = [] ∧ Sys2Proof.Claims.Quiet (rackOf 1) stk 8 ∧ (4 : Nat) ≤ (decodeDsc ((strandR 1).getD 1)).len ∧
    (decodeDsc ((strandR 1).getD 1)).base % 4 = 0 :=
  ⟨by decide, by unfold Usable; decide, by decide, wide_may rfl rfl _ rfl _ _ _ (by decide) (by decide), by decide, rfl, rfl,
    wide_quiet rfl ⟨rfl, rfl⟩ (by decide +kernel) _ _ (by decide), by decide, by decide⟩
/-- With a copy of page 0 of node 1 in the copy store. -/
def copied0 : CopyPage := ⟨1, 0, 0, 0, stk + 8192⟩
theorem test_copy_hit : ({ rackOf 1 with car := { wide.car with copies := [copied0] } } : State).copyOf 1 0 0 0 = some copied0 ∧
    (0 : Nat) % 4096 + 8 ≤ 4096 ∧ Sys2Proof.Claims.Quiet { rackOf 1 with car := { wide.car with copies := [copied0] } } (stk + 8192 + 0 % 4096) 8 ∧
    Issues { rackOf 1 with car := { wide.car with copies := [copied0] } } Form.carGet (word 2 1 3 1 [0#64]) (strandR 1) job0 ∧
    (strandR 1).getS 0 = 0#64 :=
  ⟨rfl, by decide, wide_quiet rfl ⟨rfl, rfl⟩ (by decide +kernel) _ _ (by decide),
    issues_of (by decide) rfl rfl rfl rfl rack_crew.2 (by decide) rfl, rfl⟩

/-- Node 0 with an export of its region's first page to act 0 with every right. -/
def exports0 : Export := ⟨0, stk, 4096, 15, 0, none⟩
def homeR : State := { rackOf 0 with car := { wide.car with exports := [exports0] } }
/-- Its strand reaches the export through its own node ID. -/
def strandH : Strand := { strandR 0 with d := [(1, rackDsc 0 stk 64), (2, encodeDsc stk 16384 false)] }
def atHomeR : State := { homeR with fil := { homeR.fil with strands := [strandH] } }
theorem home_issues {f : Form} {o : Insn} (hf : f.ok o = true) (ho : o.strand = 1) (hp : o.pidx = 0 ∧ o.pneg = false) : Issues atHomeR f o strandH job0 := by
  refine issues_of hf ?_ (by show atHomeR.job? 1 = _; rfl) rfl ?_ ?_ ?_ rfl
  · rw [ho]; rfl
  · show wide.rst.block = none; rfl
  · exact rack_crew.1
  · unfold predOk; rw [hp.1, hp.2]; rfl
theorem test_rack_at_home (a : Nat) (ha : a = 1 ∨ a = 0) : Sys2Proof.Claims.AtSelf atHomeR strandH (strandH.getD 1) true ∧
    Sys2Proof.Claims.AtSelf atHomeR strandH (strandH.getD 1) false ∧ Issues atHomeR Form.carLd (word 1 1 3 0 [0#64]) strandH job0 ∧
    Issues atHomeR Form.carInv (word 0 1 0 0 [0#64]) strandH job0 ∧ Issues atHomeR Form.carGet (word 2 1 3 0 [0#64]) strandH job0 ∧
    Issues atHomeR Form.carSt (word 1 2 3 0 [0#64]) strandH job0 ∧ Issues atHomeR Form.carPut (word 1 2 3 0 [0#64]) strandH job0 ∧
    Issues atHomeR Form.carAtom (word 1 1 3 0 [0#64]) strandH job0 ∧ Issues atHomeR Form.carAtomn (word 0 1 3 0 [0#64]) strandH job0 ∧
    (∀ r < 4, atHomeR.exportFor 0 0 (stk + 8 * a) (8 - 4 * a) r = some exports0) ∧ Sys2Proof.Claims.Quiet atHomeR (stk + 8 * a) 8 ∧
    atHomeR.canonical = true ∧ atHomeR.holder true (stk + 8 * a) 8 = none ∧ Writable atHomeR (stk + 8 * a) 8 ∧ atHomeR.car.sharers = [] ∧ atHomeR.car.invs = [] := by
  refine ⟨⟨by unfold Usable; decide, by decide +kernel, by decide +kernel, by decide⟩, ⟨by unfold Usable; decide, by decide +kernel, by decide +kernel, by decide⟩,
    home_issues (by decide) rfl ⟨rfl, rfl⟩, home_issues (by decide) rfl ⟨rfl, rfl⟩, home_issues (by decide) rfl ⟨rfl, rfl⟩, home_issues (by decide) rfl ⟨rfl, rfl⟩,
    home_issues (by decide) rfl ⟨rfl, rfl⟩, home_issues (by decide) rfl ⟨rfl, rfl⟩, home_issues (by decide) rfl ⟨rfl, rfl⟩, ?_,
    wide_quiet rfl ⟨rfl, rfl⟩ (by decide +kernel) _ _ ?_, by decide +kernel, rfl, wide_writable rfl (by decide +kernel) _ _ (by omega) ?_, rfl, rfl⟩
  · rcases ha with rfl | rfl <;> decide
  · rcases ha with rfl | rfl <;> decide
  · rcases ha with rfl | rfl <;> decide

/-- Flash with segment 0 of act 0 attached and its flash state formatted. -/
def flash0 : FlashSt := { State.reset.flash with formatted := true, attached := [0], maps := [⟨1, 0, 0, 0, false, true, []⟩], quiet := false }
def flashed : State := { rackOf 0 with flash := flash0 }
theorem flash_issues {f : Form} {o : Insn} (hf : f.ok o = true) (ho : o.strand = 1) (hp : o.pidx = 0 ∧ o.pneg = false) : Issues flashed f o (strandR 0) job0 := by
  refine issues_of hf ?_ (by show flashed.job? 1 = _; rfl) rfl ?_ ?_ ?_ rfl
  · rw [ho]; rfl
  · show wide.rst.block = none; rfl
  · exact rack_crew.1
  · unfold predOk; rw [hp.1, hp.2]; rfl
theorem test_flash_pages : flashed.flash.quiet = false ∧ ((strandR 0).getS 4).toNat = 1 ∧ flashed.flash.acceptsAll 0 5 1 true = true ∧ flashed.flash.acceptsAll 0 5 1 false = true ∧
    Issues flashed Form.adtRead (word 2 2 4 0) (strandR 0) job0 ∧ (strandR 0).clear [] [] = true ∧ Usable ((strandR 0).getD 2) [0] true ∧
    1 * pageBytes ≤ (decodeDsc ((strandR 0).getD 2)).len ∧ (decodeDsc ((strandR 0).getD 2)).base % 512 = 0 ∧ MayUse flashed job0 .write stk 16384 ∧
    flashed.flash.pages = [] ∧ Issues flashed Form.adtDiscard (word 0 2 4 0) (strandR 0) job0 ∧ flashed.short = false ∧
    Issues flashed Form.adtWrite (word 1 2 4 0) (strandR 0) job0 ∧ (decodeDsc ((strandR 0).getD 2)).len = 1 * pageBytes ∧ MayUse flashed job0 .read stk 16384 ∧
    flashed.on F.adtStatus_readOnly = false ∧ Sys2Proof.Claims.Quiet flashed stk 16384 :=
  ⟨rfl, by decide, by decide, by decide, flash_issues (by decide) rfl ⟨rfl, rfl⟩, clear_of rfl _ _, by unfold Usable; decide, by decide, by decide,
    wide_may rfl rfl _ rfl _ _ _ (by decide) (by decide), rfl, flash_issues (by decide) rfl ⟨rfl, rfl⟩, by decide +kernel, flash_issues (by decide) rfl ⟨rfl, rfl⟩, by decide,
    wide_may rfl rfl _ rfl _ _ _ (by decide) (by decide), by decide +kernel, wide_quiet rfl ⟨rfl, rfl⟩ (by decide +kernel) _ _ (by decide)⟩

/-! ## Witnesses of the statements about packets -/

/-- A request of member 1 for eight bytes of the export, of an operation on a channel. -/
def pkt (op : PktOp) (vc : Nat) (data : List Byte := []) : Packet := ⟨op, vc, 1, 0, 0, 0, false, false, 7, 0, stk, 8, 0, 0, 0, false, data⟩
def gets (p : Packet) : State := { homeR with car := { homeR.car with inbox := [p] } }
theorem test_first (p : Packet) : Sys2Proof.Claims.First (gets p) p := by
  unfold Sys2Proof.Claims.First; show List.find? _ [p] = _; simp
theorem test_request_route : ∀ p ∈ [pkt .ld 0, pkt .get 0, pkt .st 0 (zeros 8), pkt .put 2 (zeros 8), pkt .atom 0, pkt .atomn 0, pkt .invalidate 0],
    (gets p).linkFor (gets p).self 1 = some 0 := by decide +kernel
theorem test_request (p : Packet) : (gets p).performed? p = none ∧ (gets p).exportFor 0 0 stk 8 0 = some exports0 ∧ (gets p).exportFor 0 0 stk 8 1 = some exports0 ∧
    (gets p).exportFor 0 0 stk 4 2 = some exports0 ∧ (gets p).exportFor 0 0 stk 8 3 = some exports0 ∧ Sys2Proof.Claims.Quiet (gets p) stk 8 ∧
    Sys2Proof.Claims.Quiet (gets p) (stk / 4096 * 4096) 4096 ∧ (gets p).canonical = true ∧ (gets p).holder true stk 8 = none ∧ Writable (gets p) stk 8 ∧
    (gets p).car.sharers = [] ∧ (gets p).exportFor 0 1 stk 8 1 = none ∧ (gets p).heldFrom p.src p.vc = [] := by
  have h : (gets p).canonical = true := by show homeR.canonical = true; decide +kernel
  have q : (gets p).rd F.pwrStackState_inP3 = 0 := by show wide.rd F.pwrStackState_inP3 = 0; decide +kernel
  have a : (gets p).rd F.memFlipCtrl_arm = 0 := by show wide.rd F.memFlipCtrl_arm = 0; decide +kernel
  exact ⟨rfl, by show homeR.exportFor 0 0 stk 8 0 = _; decide, by show homeR.exportFor 0 0 stk 8 1 = _; decide, by show homeR.exportFor 0 0 stk 4 2 = _; decide,
    by show homeR.exportFor 0 0 stk 8 3 = _; decide, wide_quiet rfl ⟨rfl, rfl⟩ q _ _ (by decide), wide_quiet rfl ⟨rfl, rfl⟩ q _ _ (by decide), h, rfl,
    wide_writable rfl a _ _ (by decide) (by decide), rfl, by show homeR.exportFor 0 1 stk 8 1 = _; decide, rfl⟩
theorem test_performed : ({ homeR with car := { homeR.car with performed := [⟨1, 0, 7, 0⟩] } } : State).performed? (pkt .st 0) = some ⟨1, 0, 7, 0⟩ := rfl
/-- A frame on a link that is up, a stream of one stored chunk, and a frame to send again. -/
theorem test_frame : (base.wr (F.carLinkStatus_rxUp 0) 1).on (F.carLinkStatus_rxUp 0) = true ∧ base.fun_.streams = [] ∧
    decodeStream true 0 (storedForm [7#8]) = .inr [7#8] ∧
    headOk (pkt .put 2) (zeros 32) = false ∧ (pkt .put 2).dst = base.self ∧ kvGet 0 base.car.rxSeq 0 < 65536 := by decide +kernel
/-- The header a node sends passes the check, whatever its operation code (log 166). -/
theorem test_head : headOk { pkt .put 2 with data := [7#8] } (packetHead { pkt .put 2 with data := [7#8] }) = true := by
  have key : ∀ k : Fin 64, (let h := leBytes ((pkt .put 2).vc % 4 + 4 * k.val) 1 ++ headFields { pkt .put 2 with data := [7#8] }
      headOk { pkt .put 2 with data := [7#8] } (h ++ leBytes (crc32c h) 4)) = true := by decide +kernel
  exact key ⟨_, Nat.mod_lt _ (by decide)⟩
def frame7 : TxFrame := ⟨0, 7, pkt .put 2, 0, false⟩
theorem test_resend_frame : ({ base with car := { base.car with retry := [frame7] } } : State).car.retry.find? (fun f => f.link == 0 && f.seq == 7) = some frame7 ∧
    base.fun_.frames = [] := ⟨by decide, rfl⟩

/-- Requests of strand 1 that wait, and an instruction of it that waits for their answers. -/
def asked (op : PktOp) (wants : Wants) (killed : Bool) : Request := ⟨{ pkt op 0 with src := 0, dst := 1, copyOk := true }, 1, 9, 0, 0, wants, killed, true⟩
def waits9 : Inflight := ⟨9, 11, 0, 0, [], [], .rack 9, [], 0⟩
def asking (r : Request) (p : Packet) : State :=
  let w := (wide.wr F.carCopySize_mib 1).wr F.carCtrl_copyEn 1
  { gets p with regs := w.regs, car := { homeR.car with inbox := [p], reqs := [r] }, fil := { homeR.fil with strands := [{ strandR 0 with inflight := [waits9] }] } }
theorem test_answer : (asked .ld (.load 4) false).answeredBy (pkt .ldData 0) = true ∧ (asked .get (.get stk) false).answeredBy (pkt .fill 0) = true ∧
    (asking (asked .ld (.load 4) false) (pkt .ldData 0)).strand? 1 = some { strandR 0 with inflight := [waits9] } ∧
    (asking (asked .get (.get stk) false) (pkt .fill 0)).on F.carCtrl_copyEn = true ∧ (asking (asked .get (.get stk) false) (pkt .fill 0)).copyPages ≠ 0 := by decide +kernel
theorem test_replay : (asking (asked .ld (.load 4) false) (pkt .ldData 0)).car.reqs.find? (fun r => r.pkt.dst == 1 && r.pkt.vc == 0 && r.pkt.seq == 7) = some (asked .ld (.load 4) false) ∧
    (asking (asked .ld (.load 4) false) (pkt .ldData 0)).tally.beat < 0 + wide.rd F.carCtrl_replayBeats ∧ (0 : Nat) < wide.rd F.carCtrl_replayMax ∧
    (0 : Nat) + wide.rd F.carCtrl_replayBeats ≤ ({ wide with tally := { wide.tally with beat := 100000 } } : State).tally.beat ∧
    wide.rd F.carCtrl_replayMax ≤ ({ asked .ld (.load 4) false with tries := 100 } : Request).tries ∧ wide.leavingSoon 1 = false ∧ kvGet 0 wide.fun_.reqHolds 1 ≤ wide.tally.beat := by
  decide +kernel
/-- The one outstanding invalidation of a CAR.INV of strand 1, whose replay is exhausted. -/
theorem test_invalidation_lost : (asked .invalidate .dropped false).wants = .dropped ∧
    (∀ q ∈ [asked .invalidate .dropped false].filter (· != asked .invalidate .dropped false), q.strand ≠ 1 ∨ q.tag ≠ 9) ∧
    ((asked .invalidate .dropped false).pkt.dst, (asked .invalidate .dropped false).pkt.seq) = (1, 7) := by decide
theorem test_invalidation_ack : (asked .invalidate .dropped false).answeredBy (pkt .invAck 0) = true ∧
    ([(1, 7), (2, 8)] : List (Nat × Nat)).filter (· != (1, 7)) ≠ [] := by decide

/-! ## Witnesses of the statements about membership -/

/-- The small state with register fields written. -/
def setFields (s : State) (l : List (FieldRef × Nat)) : State := l.foldl (fun s e => s.wr e.1 e.2) s
/-- A node of a rack of four at position 0, in a membership state with a member map, at beat 4096. -/
def inRack (st map : Nat) (l : List (FieldRef × Nat) := []) : State :=
  let s := setFields (setFields base [(F.carStatus_state, st), (F.carCfg_size, 4), (F.carCfg_pairEn, 1), (F.carStatus_pairs, 15), (F.carStatus_beatLock, 1),
    (F.carStatus_netClosed, 0), (F.carMembersLo_map, map), (F.carAdmitBeatLo_beat, 8192)]) l
  { s with tally := { s.tally with beat := 4096 } }
theorem test_member_writes : base.reaches .boss = true ∧ (inRack 0 0).carState = 0 ∧ (inRack 0 0).netHeld = false ∧ (inRack 1 0).netHeld = false ∧ (inRack 3 3).isMember = true ∧ (inRack 3 3).reaches .boss = true ∧
    (inRack 3 3).tally.beat + 1024 ≤ (inRack 3 3).admitBeat ∧ (inRack 3 3).members.testBit 2 = false ∧ 2 < (inRack 3 3).rd F.carCfg_size ∧ (inRack 3 3).members.testBit 1 = true ∧
    (inRack 3 3 [(F.carAdmitBeatLo_beat, 4097)]).admitBeat < (inRack 3 3).tally.beat + 1024 ∧ (inRack 3 3 [(F.carAdmitBeatLo_beat, 4097)]).rd F.carErr_valid = 0 ∧
    (inRack 1 0 [(F.carStatus_alone, 1)]).carState = 1 ∧ (inRack 1 0 [(F.carStatus_alone, 1)]).on F.carStatus_alone = true ∧ (0 : Nat) = (inRack 1 0).position := by decide +kernel
theorem test_link_spares : base.on (F.carLinkStatus_spareUsed 0) = false ∧ base.on (F.carLinkStatus_laserSpareUsed 7) = false ∧
    bitOf (base.rd (F.carLinkStatus_lanesBad 0)) 7 = false ∧ bitOf (base.rd (F.carLinkStatus_lanesBad 0)) 8 = false ∧
    (setFields base [(F.carLinkStatus_spareUsed 0, 1)]).on (F.carLinkStatus_spareUsed 0) = true ∧ base.on (F.carLinkStatus_laserFail 0) = false ∧
    (setFields base [(F.carLinkStatus_laserSpareUsed 0, 1)]).on (F.carLinkStatus_laserSpareUsed 0) = true ∧ (inRack 3 3).on F.carStatus_netClosed = false ∧
    (inRack 3 3).lit 0 = true ∧ (inRack 3 3).car.changes = [] ∧
    (inRack 3 3).bypassRun 0 (inRack 3 3).position 64 ≤ 3 ∧ (inRack 3 3).bypassRun 1 (inRack 3 3).position 64 ≤ 3 ∧ base.rd (F.carLinkStatus_lanesBad 0) = 0 ∧
    (setFields base [(F.carLinkStatus_lanesBad 0, 1)]).rd (F.carLinkStatus_lanesBad 0) ≠ 0 ∧ bitOf ((setFields base [(F.carLinkStatus_lanesBad 0, 1)]).rd (F.carLinkStatus_lanesBad 0)) 7 = false := by decide +kernel
theorem test_admission_heard : (inRack 3 3).members.testBit 2 = false ∧ (4096 : Nat) + 1024 ≤ 8192 ∧ (inRack 1 0).carState = 1 ∧ (0 : Nat) = (inRack 1 0).position ∧
    (inRack 1 0).rd F.carCfg_size = 4 ∧ (inRack 1 0).on F.carStatus_beatLock = true ∧ (inRack 1 0).car.listenFrom + 64 ≤ (inRack 1 0).tally.beat ∧
    (inRack 1 0).car.lastMarker ≤ (inRack 1 0).car.listenFrom := by decide +kernel
/-- A membership change that is due, among members 0 and 1, with Calliope at 0. -/
def due (st : Nat) (m : Member) : State := { inRack st 3 with car := { base.car with changes := [m, { m with beat := 8192 }] } }
theorem test_membership_beat : (due 3 ⟨0, 2, 4096, none⟩).car.changes.filter (fun m => decide (m.beat ≤ (due 3 ⟨0, 2, 4096, none⟩).tally.beat)) = [⟨0, 2, 4096, none⟩] ∧
    (due 3 ⟨0, 2, 4096, none⟩).isMember = true ∧ ({ due 1 ⟨0, 0, 4096, none⟩ with car := { base.car with admission := some (4096, 0) } } : State).carState = 1 ∧
    (due 3 ⟨2, 1, 4096, none⟩).members.testBit 1 = true ∧ (1 : Nat) ≠ (due 3 ⟨2, 1, 4096, none⟩).position ∧ (due 3 ⟨2, 1, 4096, none⟩).rd F.talStatus_calliopeNode ≠ 1 := by decide +kernel
/-- A joining node whose admission beat is now, and its hellos. -/
def joining (hellos : List Nat) (b : Nat) : State := { inRack 2 2 with car := { base.car with admission := some (b, 2), hellos := hellos } }
theorem test_joining : (joining [] 4096).carState = 2 ∧ (joining [] 4096).lit (0 / 2) = true ∧ (joining [] 4096).before 0 = some 1 ∧
    (joining [0, 1] 4096).on F.carStatus_netClosed = false ∧ (4096 : Nat) ≤ (joining [0, 1] 4096).tally.beat ∧ (joining [0, 1] 4096).tally.beat ≤ 4096 + 64 ∧
    (∀ l < 8, (joining [0, 1] 4096).lit (l / 2) = true → ((joining [0, 1] 4096).before l).isSome = true → l ∈ (joining [0, 1] 4096).car.hellos) ∧
    (64 : Nat) + 64 < (joining [] 64).tally.beat := by decide +kernel
theorem test_losses : ({ inRack 3 7 with car := { base.car with joins := [(2, 1024)] } } : State).isMember = true ∧ (1024 : Nat) + 128 ≤ (inRack 3 7).tally.beat ∧
    (inRack 3 7).members.testBit 2 = true ∧ (inRack 3 7 [(F.talStatus_calliope, 1), (F.carCfg_position, 1)]).on F.talStatus_calliope = true ∧
    0 < (inRack 3 7 [(F.talStatus_calliope, 1), (F.carCfg_position, 1)]).position ∧ (2 : Nat) ≠ (inRack 3 7).position ∧ (inRack 3 7).car.changes = [] := by decide +kernel

/-! ## Witnesses of the statements about the ports and the Ringmaster -/

/-- A send block of one fragment without data, and one with a reserved byte set. -/
def sends (data : List Byte) : State := { calls 10 [] data with regs := base.regs }
theorem test_send : (sends (zeros 32)).loaderCall 1 10 = some (loaderJob 10 [] (zeros 32)) ∧ (sends (zeros 32)).mdw.sends = [] ∧ (sends (zeros 32)).rst.block = none ∧
    sendRefused (zeros 32) = false ∧ bitOf (leAt (zeros 32) 16 2) 15 = false ∧ (0 : Nat) ≤ (sends (zeros 32)).mdwRoom 0 none ∧
    (sends (zeros 6 ++ [1#8] ++ zeros 25)).loaderCall 1 10 = some (loaderJob 10 [] (zeros 6 ++ [1#8] ++ zeros 25)) ∧ sendRefused (zeros 6 ++ [1#8] ++ zeros 25) = true := by decide
/-- A port that is up, and a frame of a type with its header. -/
def portUp : State := setFields base [(F.mdwPortCtrl_enable 1, 1), (F.mdwPortStatus_linkUp 1, 1), (F.mdwPortCtrl_pfcEn 1, 1), (F.mdwPtpCtrl_enable, 1)]
def frameOf (type last : Nat) : List Byte := zeros 12 ++ [0x88#8, 0xB5#8] ++ mdwHeader type 0 0 0 last 0 0 0 0 0 ++ zeros 14
def frame0 (type : Nat) (last : Bool) : MdwFrame := ⟨1, 0, type, 0, 0, 0, last, 0, 0, 0, 0, [], none, 0⟩
theorem test_port_frame : portUp.on (F.mdwPortCtrl_enable 1) = true ∧ portUp.on (F.mdwPortStatus_linkUp 1) = true ∧ portUp.on F.mdwErr_valid = false ∧ portUp.mdw.recvs = [] ∧
    (∀ x ∈ [(2, 0), (0, 1), (0, 0), (3, 1)], (60 ≤ (frameOf x.1 x.2).length ∧ (frameOf x.1 x.2).length + 4 ≤ portUp.rd (F.mdwPortCtrl_mtu 1)) ∧
      beNat ((frameOf x.1 x.2).take 6) = portUp.rd (F.mdwPortMacLo_mac 1) + 2 ^ 32 * portUp.rd (F.mdwPortMacHi_mac 1) ∧
      beNat (slice (frameOf x.1 x.2) 12 2) = portUp.rd F.mdwCtrl_ethertype ∧ beNat (slice (frameOf x.1 x.2) 12 2) ≠ 0x8100) ∧
    portUp.readFrame 1 0 ((frameOf 3 1).drop 14) = .inl (1, 0) ∧ portUp.readFrame 1 0 ((frameOf 2 0).drop 14) = .inr (frame0 2 false) ∧
    portUp.readFrame 1 0 ((frameOf 0 1).drop 14) = .inr (frame0 0 true) ∧ portUp.readFrame 1 0 ((frameOf 0 0).drop 14) = .inr (frame0 0 false) ∧
    portUp.nextFrom (peerOf 0 0) 0 ≤ (frame0 0 true).msg := by decide +kernel
/-- A whole JOB message of 128 bytes for act 0, and a RESULT for a send of a loader call. -/
def jobFrame : MdwFrame := ⟨1, 0, 0, 0, 0, 0, true, 0, 0, 0, 128, zeros 128, none, 0⟩
def jobRecv : MdwRecv := ⟨1, 0, 0, 0, 0, 0, 0, 128, some 1, [(0, zeros 128)]⟩
def arrived (accept : Nat) : State := { portUp.wr (F.mdwActCtrl_accept 0) accept with mdw := { base.mdw with frames := [jobFrame], recvs := [jobRecv] } }
theorem test_midway_job : (arrived 1).mdw.recvs.find? (MdwRecv.holds jobFrame) = some jobRecv ∧
    (arrived 1).mdw.frames.find? (fun f => f.type == 0 && f.msg == (arrived 1).nextFrom (peerOf f.rack f.node) f.act) = some jobFrame ∧
    (arrived 1).on (F.mdwActCtrl_accept 0) = true ∧ jobRecv.payload.length = 128 ∧ jobRecv.payload.length = jobFrame.total ∧ jobFrame.port < 2 ∧ jobFrame.act < 16 ∧ ((arrived 1).ring 0 4).entries.length < 256 ∧
    (arrived 0).on (F.mdwActCtrl_accept 0) = false ∧ (arrived 0).on F.mdwErr_valid = false := by decide +kernel
/-- The same message on a full ring, with its priority not yet paused. -/
def fullRing : State :=
  { arrived 1 with host := { base.host with rings := [⟨0, 4, 0, 0, [], 0, 0, none, List.replicate 256 ⟨⟨1, 0, none, 0, 0⟩, [], []⟩⟩] } }
theorem test_full_ring : 256 ≤ (fullRing.ring 0 4).entries.length ∧ fullRing.on (F.mdwPortCtrl_pfcEn jobFrame.port) = true ∧
    (jobFrame.port, jobFrame.prio) ∉ fullRing.mdw.pausing ∧ fullRing.on (F.mdwActCtrl_accept 0) = true := by decide +kernel
def resultFrame : MdwFrame := ⟨1, 0, 1, 0, 0, 0, true, 0, 0, 0, 0, [], none, 0⟩
def ackFrame : MdwFrame := ⟨1, 0, 2, 0, 0, 0, false, 0, 0, 0, 0, [], none, 0⟩
def resultRecv : MdwRecv := ⟨1, 0, 1, 0, 0, 0, 0, 0, some 1, [(0, [])]⟩
def send0 (wait : Bool) (tries : Nat) : MdwSend := ⟨1, 0, none, 0, 0, 0, 0, [[]], 1, [⟨0, 0, tries⟩], 0, wait, 1⟩
def sending (m : MdwSend) (f : MdwFrame) : State :=
  { sends (zeros 32) with mdw := { base.mdw with sends := [m], frames := [f], recvs := [resultRecv] }, tally := { base.tally with beat := 1000 } }
theorem test_midway_answers : (sending (send0 true 0) resultFrame).mdw.recvs.find? (MdwRecv.holds resultFrame) = some resultRecv ∧
    (sending (send0 true 0) resultFrame).job? 1 = some (loaderJob 10 [] (zeros 32)) ∧ (sending (send0 true 0) resultFrame).mdw.frames.find? (·.type == 1) = some resultFrame ∧
    (sending (send0 true 0) resultFrame).mdw.sends.find? (fun m => m.wait && m.type == 0 && m.mac == resultFrame.mac && m.act == resultFrame.act && m.msg == resultFrame.msg) = some (send0 true 0) ∧
    (sending (send0 false 0) ackFrame).mdw.frames.find? (·.type == 2) = some ackFrame ∧
    (sending (send0 false 0) ackFrame).mdw.sends.find? (fun m => m.mac == ackFrame.mac && m.act == ackFrame.act && m.msg == ackFrame.msg && m.flight.any (·.idx == ackFrame.frag)) = some (send0 false 0) ∧
    (send0 false 0).next = (send0 false 0).frags.length ∧
    ({ sending (send0 true 0) resultFrame with mdw := { base.mdw with frames := [resultFrame], recvs := [resultRecv] } } : State).mdw.sends = [] := by decide
theorem test_fragment_timeout : (∀ t ∈ [0, 8], (sending (send0 false t) ackFrame).mdw.sends.find? (fun x => x.mac == 0 && x.act == 0 && x.msg == 0 &&
      x.flight.any fun f => f.idx == 0 && decide (f.sent + base.rd F.mdwCtrl_rto ≤ 1000)) = some (send0 false t)) ∧
    (0 : Nat) < base.rd F.mdwCtrl_retryMax ∧ base.rd F.mdwCtrl_retryMax ≤ 8 ∧ (sending (send0 false 8) ackFrame).on F.mdwErr_valid = false := by decide +kernel
theorem test_port_events : portUp.on (F.mdwPortCtrl_pfcEn 1) = true ∧ portUp.on F.mdwPtpCtrl_enable = true ∧ portUp.mdw.stamps.length < 16 ∧
    16 ≤ ({ portUp with mdw := { portUp.mdw with stamps := List.replicate 16 ⟨0, 0, 0, 0, 0⟩ } } : State).mdw.stamps.length ∧ portUp.reaches .boss = true := by decide +kernel

/-- A unit of class 0 on flash channel 10 and a packet on link 0. -/
def unitOf (chan cls colour : Nat) (o : Option Out) : Unit_ := ⟨5, chan, 0, cls, 64, none, 0, 1, colour, o⟩
def queued (v : Unit_) : State := { setFields base [(F.carLinkStatus_txUp 0, 1)] with rgm := { base.rgm with units := [v] } }
theorem test_units : (queued (unitOf 10 0 0 (some (.flash true 0 1)))).chanUp 10 = true ∧ (queued (unitOf 0 0 0 (some (.packet (pkt .ld 0))))).chanUp 0 = true ∧
    (queued (unitOf 10 0 0 (some (.flash true 0 1)))).rgm.units.filter (·.chan == 10) = [unitOf 10 0 0 (some (.flash true 0 1))] ∧ base.host.rings = [] ∧ (pkt .ld 0).squeeze = false ∧
    (queued (unitOf 10 0 0 (some (.flash true 0 1)))).ctrlFits 10 (unitOf 10 0 0 (some (.flash true 0 1))) = true ∧
    (queued (unitOf 0 0 0 (some (.packet (pkt .ld 0))))).ctrlFits 0 (unitOf 0 0 0 (some (.packet (pkt .ld 0)))) = true ∧ base.fun_.frames = [] ∧ base.car.retry = [] := by decide +kernel
theorem test_cells : ({ base with rgm := { base.rgm with waiting := [unitOf 0 1 0 none] } } : State).cellsFit (unitOf 0 1 0 none) = true := by decide +kernel
/-- Meter 1 tests act 0's class 1 on the Carousel, with empty buckets. -/
def meter1 : Meter := ⟨1, 2, false, 1, 1, 9216, 9216, 0, 0, 0⟩
def metered : State := { queued (unitOf 0 1 3 none) with rgm := { base.rgm with units := [unitOf 0 1 3 none], meters := [meter1] } }
theorem test_red : (queued (unitOf 0 1 3 none)).meterOf (unitOf 0 1 3 none) = none ∧ metered.meterOf (unitOf 0 1 3 none) = some meter1 ∧
    meter1.tc + (metered.ns - meter1.at_) * meter1.cir < 64 * 1000 ∧ meter1.tp + (metered.ns - meter1.at_) * meter1.pir < 64 * 1000 := by decide +kernel
/-- Gate lists of channel 1: an entry of 1,024 ns with every class open, and one of no length, which is refused. -/
def gated (len : Nat) (armed : Option Nat) : State :=
  { setFields base [(F.rgmChPend_entry 1 0, len + 7 * 2 ^ 20), (F.rgmChTakeoverLo_beat 1, 16)] with
    rgm := { base.rgm with chans := updAt base.rgm.chans 1 fun c => { c with armed := armed } }, tally := { base.tally with beat := 8 } }
theorem test_gates : 1 < base.rgm.chans.length ∧ base.ns < (base.chan 1).start + gateNs (base.rd (F.rgmChActive_entry 1 (base.chan 1).entry)) ∧
    ((gated 1024 none).chan 1).start + gateNs ((gated 1024 none).rd (F.rgmChActive_entry 1 ((gated 1024 none).chan 1).entry)) ≤ (gated 1024 none).ns ∧
    1 ≤ ((gated 1024 none).chan 1).entries ∧ (gated 1024 none).reaches .boss = true ∧ (gated 1024 none).rd64 (F.rgmChTakeoverLo_beat 1) (F.rgmChTakeoverHi_beat 1) = 16 ∧
    (gated 0 none).rd F.rgmErr_valid = 0 ∧ ((gated 1024 (some 8)).chan 1).armed = some 8 ∧ (8 : Nat) ≤ (gated 1024 (some 8)).tally.beat ∧
    ((gated 1024 (some 16)).chan 1).armed = some 16 ∧ (gated 1024 (some 16)).tally.beat < 16 ∧ (gated 1024 (some 16)).reaches .boss = true := by decide +kernel
theorem test_list_fits : Sys2Proof.Claims.ListFits (gated 1024 none) 1 1 1 16 ∧ ¬ Sys2Proof.Claims.ListFits (gated 0 none) 1 1 1 16 := by
  have e : (List.range 1).map (fun i => (gated 1024 none).rd (F.rgmChPend_entry 1 i)) = [1024 + 7 * 2 ^ 20] := by decide +kernel
  have f : (List.range 1).map (fun i => (gated 0 none).rd (F.rgmChPend_entry 1 i)) = [7 * 2 ^ 20] := by decide +kernel
  unfold Sys2Proof.Claims.ListFits
  dsimp only
  rw [e, f]
  refine ⟨⟨by decide, fun v hv c h1 h2 _ => ?_, fun c h1 h2 => ⟨_, List.mem_singleton_self _, ?_⟩, by decide, fun v hv => ?_⟩, fun h => absurd h.1 (by decide)⟩
  · rw [List.mem_singleton.1 hv]; decide
  · have : c = 1 ∨ c = 2 ∨ c = 3 := by omega
    rcases this with rfl | rfl | rfl <;> decide
  · rw [List.mem_singleton.1 hv]; decide
theorem test_meters : (setFields base [(F.rgmMtrPir_mbps 1, 1), (F.rgmMtrCbs_bytes 1, 4160), (F.rgmMtrPbs_bytes 1, 4160)]).rd (F.rgmMtrPir_mbps 1) ≠ 0 ∧
    (4160 : Nat) ≤ (setFields base [(F.rgmMtrPir_mbps 1, 1), (F.rgmMtrCbs_bytes 1, 4160), (F.rgmMtrPbs_bytes 1, 4160)]).rd (F.rgmMtrCbs_bytes 1) ∧
    (4160 : Nat) ≤ (setFields base [(F.rgmMtrPir_mbps 1, 1), (F.rgmMtrCbs_bytes 1, 4160), (F.rgmMtrPbs_bytes 1, 4160)]).rd (F.rgmMtrPbs_bytes 1) ∧
    base.rd (F.rgmMtrCbs_bytes 1) < 4160 ∧ base.rd F.rgmErr_valid = 0 ∧ base.reaches .boss = true := by decide +kernel
theorem test_meter_effect : ({ metered with rgm := { metered.rgm with applies := [(meter1, 0)] }, tally := { metered.tally with beat := 1 } } : State).rgm.applies = [(meter1, 0)] ∧
    (0 : Nat) < ({ metered with tally := { metered.tally with beat := 1 } } : State).tally.beat ∧ metered.rgm.meters = [meter1] ∧ meter1.mode ≠ 0 ∧ base.rgm.meters = [] := by decide +kernel
theorem test_reserve : 2 * ceilDiv (chanLargest 42) 256 ≤ 34 ∧ ((List.range 43).map fun n => if n = 42 then 34 else base.rd (F.rgmChReserve_cells n)).sum ≤ 196608 ∧
    33 < 2 * ceilDiv (chanLargest 42) 256 ∧ 196608 < ((List.range 43).map fun n => if n = 42 then 2 ^ 19 - 1 else base.rd (F.rgmChReserve_cells n)).sum ∧ base.rgm.waiting = [] := by
  decide +kernel
/-- Samples of channel 0 with one queue to report, into a ring of the wide region, with room and full. -/
def sampling (wr : Nat) : State :=
  { setFields wide [(F.rgmCtrl_sampleEn, 1), (F.rgmSampleChLo_sample, 1), (F.rgmSampleBaseHi_base, 0x1000), (F.rgmSampleWr_index, wr)] with
    rgm := { base.rgm with units := [unitOf 0 1 1 none] } }
theorem test_sample : ∀ w ∈ [0, 4096], (sampling w).on F.rgmCtrl_sampleEn = true ∧ (sampling w).tally.beat % 2 ^ (sampling w).rd F.rgmSampleCtrl_periodLog2 = 0 ∧
    (sampling w).rgm.sampled ≠ (sampling w).tally.beat + 1 ∧
    ((((List.range 43).filter ((sampling w).rd F.rgmSampleChLo_sample + 2 ^ 32 * (sampling w).rd F.rgmSampleChHi_sample).testBit).flatMap queuesOf).filterMap
      fun q => (sampling w).sampleOf q.1 q.2.1 q.2.2).length = 1 ∧
    ((sampling w).rd F.rgmSampleWr_index + 2 ^ 32 - (sampling w).rd F.rgmSampleRd_index) % 2 ^ 32 = w ∧ 2 ^ (sampling w).rd F.rgmSampleCtrl_ringLog2 = 4096 ∧
    (sampling w).canonical = true ∧ (sampling w).wnz.ops = [] := by decide +kernel
theorem test_sample_room : (sampling 0).rd F.rgmSampleBaseLo_base * 4096 + (sampling 0).rd F.rgmSampleBaseHi_base * 2 ^ 32 + 0 = stk ∧ Writable (sampling 0) stk 32 :=
  ⟨by decide +kernel, wide_writable rfl (by decide +kernel) _ _ (by decide) (by decide)⟩

/-! ## Witnesses of the statements about time and power -/

def atBeat (s : State) (b : Nat) : State := { s with tally := { s.tally with beat := b } }
theorem test_beat : base.idx.heldApps = [] ∧ base.fun_.held = [] ∧ base.idx.indexes = [] ∧ base.rd F.rstActStatus_busy = 0 ∧ base.pwr.p4Exit = none ∧
    (setFields base [(F.talStatus_calliope, 1)]).on F.talStatus_calliope = true := by decide +kernel
theorem test_marker : (inRack 3 3).on F.talStatus_calliope = false ∧ (inRack 3 3 [(F.talStatus_locked, 1)]).on F.talStatus_locked = true ∧ (inRack 3 3).carState = 3 ∧
    (inRack 1 0).carState = 1 ∧ (inRack 1 0).on F.talStatus_locked = false ∧ (inRack 1 0).on F.talStatus_stepped = false ∧ (inRack 3 3).car.lastMarker + 4 ≤ (inRack 3 3).tally.beat ∧
    (inRack 3 3 [(F.talStatus_holdover, 0)]).on F.talStatus_holdover = false ∧ (inRack 3 3 [(F.talStatus_holdover, 1)]).on F.talStatus_holdover = true ∧
    (inRack 3 3).tally.holdFrom + 1024 < (inRack 3 3).tally.beat := by decide +kernel
theorem test_handover : manages .boss = true ∧ (inRack 3 3 [(F.talHandoverBeatLo_beat, 5120)]).isMember = true ∧
    (inRack 3 3 [(F.talHandoverBeatLo_beat, 5120)]).tally.beat + 1024 ≤ (inRack 3 3 [(F.talHandoverBeatLo_beat, 5120)]).rd64 F.talHandoverBeatLo_beat F.talHandoverBeatHi_beat ∧
    (inRack 3 3).tally.handovers = [] ∧ (inRack 3 3).rd64 F.talHandoverBeatLo_beat F.talHandoverBeatHi_beat < (inRack 3 3).tally.beat + 1024 ∧
    (inRack 3 3 [(F.talStatus_calliope, 1)]).on F.talStatus_calliope = true ∧ (4096 : Nat) ≤ (inRack 3 3).tally.beat := by decide +kernel
theorem test_clock : base.rst.run = none ∧ (setFields base [(F.talStatus_holdover, 0)]).on F.talStatus_holdover = false ∧ base.on F.talStatus_calliope = false := by decide +kernel
/-- A crew in P1 with an event at the current beat. -/
def sleeps : State :=
  { setFields base [(F.pwrCrewState_state, 1)] with fil := { base.fil with strands := [{ strand0 with wait := .waitb 0 0 false }] } }
theorem test_wake : sleeps.powerOf (.crew 0) = 1 ∧ sleeps.pwr.waking = [] ∧ (sleeps.timeLeft (.crew 0)).isSome = true ∧
    ∀ t ∈ sleeps.timeLeft (.crew 0), t ≤ ceilDiv (wakeNs (sleeps.powerOf (.crew 0)) + sleeps.rd F.pwrCtrl_marginNs) 1024 * 1024 := by decide +kernel
theorem test_wake_done : ({ base with pwr := { base.pwr with waking := [(Domain.crew 0, 0)] } } : State).pwr.waking = [(Domain.crew 0, 0)] ∧ 0 ≤ base.ns := by decide
/-- The five conditions of P4, and P4 itself. -/
def idle4 : State := setFields base [(F.pwrCtrl_p4En, 1), (F.carStatus_state, 0)]
theorem test_p4 : idle4.on F.pwrCtrl_p4En = true ∧ idle4.carState = 0 ∧ (∀ a < 16, 1 ≤ a → idle4.on (F.actCtrl_enable a) = false) ∧ idle4.flash.jbuf = [] ∧ idle4.flash.flushing = none ∧
    base.on F.pwrCtrl_p4En = false ∧ (atBeat (setFields base [(F.pwrStatus_p4, 1), (F.pwrP4WakeLo_beat, 7)]) 8).on F.pwrStatus_p4 = true ∧ base.pwr.p4Exit = none ∧
    (atBeat (setFields base [(F.pwrStatus_p4, 1), (F.pwrP4WakeLo_beat, 7)]) 8).rd64 F.pwrP4WakeLo_beat F.pwrP4WakeHi_beat = 7 := by decide +kernel
theorem test_power_fail : (0 : Nat) < (setFields base [(F.rstFilter_width, 1)]).rd F.rstFilter_width ∧ base.on F.funInputs_pwrFailLatched = false ∧
    ({ base with flash := flash0 } : State).flash.quiet = false ∧ (setFields base [(F.funInputs_pwrFailLatched, 1)]).on F.funInputs_pwrFailLatched = true ∧
    base.rd F.rstFilter_width ≤ 2 ^ 32 := by decide +kernel
/-- After the power-down flush, 1,024 beats since PWR_FAIL_N was deasserted. -/
def recovered : State :=
  { atBeat base 2000 with flash := { flash0 with pd := some false }, pins := { base.pins with failClear := some 900, powered := true } }
theorem test_fail_clear : recovered.pins.failClear = some 900 ∧ 900 + 1024 ≤ recovered.tally.beat ∧ recovered.pins.powered = true ∧ recovered.flash.pd.isSome = true ∧
    recovered.on F.funInputs_pwrFailLatched = false ∧ recovered.rst.run = none := by decide +kernel
theorem test_thermal : Domain.stack 23 ∉ base.pins.hot ∧ base.pins.tripped = false ∧
    ({ base with pins := { base.pins with hot := [Domain.crew 15], alerts := [0] } } : State).pins.hot = [Domain.crew 15] ∧ base.on F.funSpareLog_valid = false := by decide +kernel

/-! ## Witnesses of the statement about flash control -/

/-- A loader call of flash control for an act, with a block of an operation with one entry. -/
def flashJob (act : Nat) (data : List Byte) : Job := { loaderJob 7 [] data with act := act }
def blockOf (op act lseg st gen : Nat) : List Byte := [BitVec.ofNat 8 op, 0#8] ++ zeros 2 ++ leBytes 1 4 ++ zeros 8 ++ entryBytes act lseg st gen
def card0 : FlashCard := { FlashSt.empty.card with dies := [1], blocks := 16, blockBytes := 2 ^ 30, blockPages := 512 }
/-- Die 0 of channel 0, with a QLC stripe of which one slot is taken, another one and an SLC stripe, all ready. -/
def stripes0 : List Stripe := [⟨0, false, [0], 1, true, false⟩, ⟨16, false, [0], 0, true, false⟩, ⟨32, true, [0], 0, true, false⟩]
def flashWith (maps : List SegMap) (pages : List FPage) (writes : List FWrite) : FlashSt :=
  { flash0 with card := card0, permille := 40, attached := [1], maps := maps, pages := pages, writes := writes, stripes := stripes0 }
def flashCalls (act : Nat) (data : List Byte) (f : FlashSt) : State := { calls 7 [] data with fil := { base.fil with jobs := [flashJob act data] }, flash := f }
def formatBlock : List Byte := [0#8, 0#8] ++ leBytes 100 2 ++ zeros 12
theorem test_format : (flashCalls 0 formatBlock (flashWith [] [] [])).loaderCall 1 7 = some (flashJob 0 formatBlock) ∧ leAt formatBlock 0 1 = 0 ∧
    (flashCalls 0 formatBlock (flashWith [] [] [])).blockRefused (flashJob 0 formatBlock) = false ∧
    (∀ a < 16, 1 ≤ a → (flashCalls 0 formatBlock (flashWith [] [] [])).on (F.actCtrl_enable a) = false) ∧
    (flashCalls 0 formatBlock (flashWith [] [] [])).flash.quiet = false ∧ (flashCalls 0 formatBlock (flashWith [] [] [])).flash.recover = none ∧
    (flashCalls 0 (zeros 16) (flashWith [] [] [])).blockRefused (flashJob 0 (zeros 16)) = true := by decide +kernel
/-- Segment 3 of act 1 with GEN 9. -/
def map3 (sealed bound : Bool) : SegMap := ⟨1, 1, 3, 9, sealed, bound, []⟩
def write5 (started : Bool) (strand : Nat) : FWrite := ⟨5, 1, 196608, 1, zeros 4, strand, 9, false, started, ⟨0, 0, 0, 0⟩⟩
def page3 (wseq : Nat) (slc : Bool) : FPage := ⟨1, 196608, wseq, 9, 0, some (zeros 4), slc, ⟨0, 0, 0, 0⟩, false⟩
theorem flash_call (op act lseg st gen : Nat) (f : FlashSt) (hf : f.sealings = []) (hq : f.quiet = false ∧ f.recover = none) (h : (flashCalls act (blockOf op act lseg st gen) f).blockRefused (flashJob act (blockOf op act lseg st gen)) = false)
    (h0 : leAt (blockOf op act lseg st gen) 0 1 = op) (h1 : leAt (blockOf op act lseg st gen) 4 4 = 1) (h2 : leAt (entryOf (blockOf op act lseg st gen) 0) 0 4 = lseg)
    (h3 : leAt (entryOf (blockOf op act lseg st gen) 0) 4 1 = st) (h4 : leAt (entryOf (blockOf op act lseg st gen) 0) 8 4 = gen)
    (h5 : (flashJob act (blockOf op act lseg st gen)).desc.arg 1 = 7) :
    Sys2Proof.Claims.FlashCall (flashCalls act (blockOf op act lseg st gen) f) 1 (flashJob act (blockOf op act lseg st gen)) op lseg st gen :=
  ⟨by
    unfold State.loaderCall
    show (if _ then _ else _) = _
    rw [if_pos]
    rw [h5]; rfl, h, hq.1, hq.2, h0, h1, hf, h2, h3, h4⟩
theorem test_flash_calls :
    Sys2Proof.Claims.FlashCall (flashCalls 1 (blockOf 1 1 3 1 9) (flashWith [map3 false false] [] [])) 1 (flashJob 1 (blockOf 1 1 3 1 9)) 1 3 1 9 ∧
    Sys2Proof.Claims.FlashCall (flashCalls 1 (blockOf 1 1 3 1 8) (flashWith [map3 false false] [] [])) 1 (flashJob 1 (blockOf 1 1 3 1 8)) 1 3 1 8 ∧
    Sys2Proof.Claims.FlashCall (flashCalls 1 (blockOf 3 1 3 1 9) (flashWith [map3 false true] [] [])) 1 (flashJob 1 (blockOf 3 1 3 1 9)) 3 3 1 9 ∧
    Sys2Proof.Claims.FlashCall (flashCalls 1 (blockOf 3 1 3 1 9) (flashWith [map3 false true] [] [write5 false 1])) 1 (flashJob 1 (blockOf 3 1 3 1 9)) 3 3 1 9 ∧
    Sys2Proof.Claims.FlashCall (flashCalls 1 (blockOf 4 1 3 2 9) (flashWith [map3 true true] [] [])) 1 (flashJob 1 (blockOf 4 1 3 2 9)) 4 3 2 9 ∧
    Sys2Proof.Claims.FlashCall (flashCalls 1 (blockOf 5 1 3 2 9) (flashWith [map3 true true] [] [])) 1 (flashJob 1 (blockOf 5 1 3 2 9)) 5 3 2 9 ∧
    Sys2Proof.Claims.FlashCall (flashCalls 1 (blockOf 2 1 3 0 0) (flashWith [] [] [])) 1 (flashJob 1 (blockOf 2 1 3 0 0)) 2 3 0 0 :=
  ⟨flash_call 1 1 3 1 9 _ rfl ⟨rfl, rfl⟩ (by decide +kernel) (by decide) (by decide) (by decide) (by decide) (by decide) (by decide),
    flash_call 1 1 3 1 8 _ rfl ⟨rfl, rfl⟩ (by decide +kernel) (by decide) (by decide) (by decide) (by decide) (by decide) (by decide),
    flash_call 3 1 3 1 9 _ rfl ⟨rfl, rfl⟩ (by decide +kernel) (by decide) (by decide) (by decide) (by decide) (by decide) (by decide),
    flash_call 3 1 3 1 9 _ rfl ⟨rfl, rfl⟩ (by decide +kernel) (by decide) (by decide) (by decide) (by decide) (by decide) (by decide),
    flash_call 4 1 3 2 9 _ rfl ⟨rfl, rfl⟩ (by decide +kernel) (by decide) (by decide) (by decide) (by decide) (by decide) (by decide),
    flash_call 5 1 3 2 9 _ rfl ⟨rfl, rfl⟩ (by decide +kernel) (by decide) (by decide) (by decide) (by decide) (by decide) (by decide),
    flash_call 2 1 3 0 0 _ rfl ⟨rfl, rfl⟩ (by decide +kernel) (by decide) (by decide) (by decide) (by decide) (by decide) (by decide)⟩
theorem test_flash_maps : ((flashWith [map3 false true] [] []).maps.find? fun m => m.act == 1 && m.lseg == 3) = some (map3 false true) ∧ (flashCalls 1 [] (flashWith [map3 true true] [] [])).mayOpen 1 = true ∧
    (∀ x ∈ (flashWith [map3 false true] [] []).maps, x.id = (map3 false true).id → x = map3 false true) ∧
    (∃ w ∈ (flashWith [map3 false true] [] [write5 false 1]).writes, w.map = (map3 false true).id) ∧
    (∃ p ∈ (flashWith [map3 false true] [page3 4 true] []).pages, p.act = 1 ∧ p.page / 65536 = 3 ∧ p.data.isSome = true) ∧ base.idx.indexes = [] ∧
    (flashWith [] [] []).maps.length < (flashWith [] [] []).logicalGib ∧ (flashCalls 1 [] (flashWith [] [] [])).mayOpen 1 = true ∧
    ({ flashWith [] [] [] with card := FlashSt.empty.card } : FlashSt).logicalGib ≤ 0 := by
  refine ⟨by decide, by decide +kernel, by decide, ⟨_, List.mem_singleton_self _, rfl⟩, ⟨_, List.mem_singleton_self _, rfl, rfl, rfl⟩, rfl, by decide,
    by decide +kernel, by decide⟩
/-- Writes of page 196,608: one started, one that waits, and a page that is there. -/
def programmed (pages : List FPage) (started : Bool) : State := flashCalls 1 [] (flashWith [map3 false true] pages [write5 started 0])
theorem test_program : ((programmed [] true).flash.writes.find? fun x => x.wseq == 5 && x.started) = some (write5 true 0) ∧ (programmed [] true).inTransfer 5 0 = false ∧
    (programmed [] true).flash.sealings = [] ∧ (write5 true 0).strand = 0 ∧ (programmed [] true).flash.maps.find? (·.id == (write5 true 0).map) = some (map3 false true) ∧
    (programmed [] true).flash.page? 1 196608 = none ∧ (programmed [page3 6 true] true).flash.page? 1 196608 = some (page3 6 true) ∧ (5 : Nat) < (page3 6 true).wseq ∧
    (write5 true 1).strand ≠ 0 ∧ (∃ x ∈ [write5 true 1, { write5 true 1 with wseq := 6 }], x.wseq ≠ 5 ∧ x.strand = 1 ∧ x.tag = 9) := by decide
/-- The failed program of channel 0 in stripe 0 goes to stripe 16; an erase of stripe 48 fails. -/
theorem test_cell_fails : (programmed [] true).flash.quiet = false ∧ (((programmed [] true).flash.close (·.num == 0)).slots? false 1).isSome = true ∧
    0 ∈ (programmed [] true).flash.liveChans 48 ∧ 48 < 16 * (programmed [] true).flash.card.blocks ∧ (∀ x ∈ (programmed [] true).flash.stripes, x.num ≠ 48) := by
  decide +kernel
theorem test_resume : ((programmed [] false).flash.writes.find? fun x => x.wseq == 5 && !x.started) = some (write5 false 0) ∧
    ((programmed [] false).modFlash fun f => { f with cap := 2 ^ 20 }).writeRoom = some true ∧
    (((programmed [] false).modFlash fun f => { f with cap := 2 ^ 20 }).flash.slots? true 1).isSome = true ∧
    ((programmed [] false).modFlash fun f => { f with cap := 2 ^ 20, stripes := [] }).writeRoom = some true ∧
    ((programmed [] false).modFlash fun f => { f with cap := 2 ^ 20, stripes := [] }).flash.slots? true 1 = none ∧
    ({ programmed [] false with flash := { FlashSt.empty with quiet := true } } : State).writeRoom = none := by decide +kernel
/-- A page in SLC of a sealed segment is folded; its copy is on its way. -/
def folding (folds : List Fold) (writes : List FWrite) : State := flashCalls 1 [] { flashWith [map3 true true] [page3 4 true] writes with folds := folds }
def fold4 : Fold := ⟨1, 196608, 4, 0, ⟨1, 1, 1, 0⟩⟩
theorem test_fold : (folding [] []).flash.quiet = false ∧ (folding [] []).foldable (page3 4 true) = true ∧ (folding [] []).flash.page? 1 196608 = some (page3 4 true) ∧
    ((folding [fold4] []).flash.folds.find? fun y => y.act == 1 && y.page == 196608) = some fold4 ∧ (folding [fold4] []).inTransfer 4 1 = false ∧
    (folding [fold4] []).flash.buffered 1 196608 = none ∧ (folding [fold4] [write5 true 0]).flash.buffered 1 196608 = some (write5 true 0) := by decide +kernel
/-- The page goes to a new run, to the slot of its run, in an open segment to the next slot, and nowhere without one. -/
def foldsTo (m : SegMap) (stripes : List Stripe) : State := flashCalls 1 [] { flashWith [m] [page3 4 true] [] with stripes := stripes }
def run3 : SegMap := { map3 true true with runs := [⟨768, 16, 0, 0⟩] }
theorem test_fold_places : ((foldsTo (map3 true true) stripes0).foldPlace (page3 4 true)).isSome = true ∧ ((foldsTo (map3 true true) []).foldPlace (page3 4 true)).isNone = true ∧
    (foldsTo (map3 true true) []).foldable (page3 4 true) = true ∧ (foldsTo run3 stripes0).foldable (page3 4 true) = true ∧
    ((foldsTo run3 stripes0).foldPlace (page3 4 true)).isSome = true ∧ (run3.runs.find? (·.idx == 196608 / 256)).isSome = true ∧
    (foldsTo (map3 false true) stripes0).foldable (page3 4 true) = true ∧ ((foldsTo (map3 false true) stripes0).foldPlace (page3 4 true)).isSome = true ∧
    ((foldsTo (map3 false true) stripes0).flash.slots? false 1).isSome = true := by decide +kernel
/-- A page in a block that is never erased while another stripe is, and no spread. -/
theorem test_wear : (flashWith [] [page3 4 true] []).page? 1 196608 = some (page3 4 true) ∧ (flashWith [] [page3 4 true] []).inRun (page3 4 true) = false ∧
    ({ flashWith [] [page3 4 true] [] with wear := [(16, 5)] } : FlashSt).worn (page3 4 true) = true ∧
    (({ flashWith [] [page3 4 true] [] with wear := [(16, 5)] } : FlashSt).slots? (page3 4 true).slc 1).isSome = true ∧
    (flashWith [] [page3 4 true] []).worn (page3 4 true) = false := by decide +kernel
theorem test_flush : (programmed [] true).flash.formatted = true ∧ (programmed [] true).flash.quiet = false ∧ (programmed [] true).flash.flushing = none ∧
    (programmed [] true).tally.beat % 2048 = 0 ∧ (programmed [] true).short = false ∧ (1 : Nat) % 2048 ≠ 0 ∧ journalBytes (programmed [] true).flash.jbuf < 2 ^ 25 ∧
    ({ flash0 with flushing := some 7 } : FlashSt).flushing = some 7 ∧ flash0.discOut = [] ∧ flash0.discWait = [] ∧ flash0.writes = [] := by decide +kernel
/-- A card with die 0 on channels 0 and 1, of which the second is rebuilt. -/
def dies2 (rebuild : List (Nat × Nat)) : FlashSt := { flashWith [] [page3 4 true] [] with card := { card0 with dies := [1, 1] }, rebuild := rebuild }
theorem test_dies : (dies2 []).inUse 0 0 = true ∧ (dies2 []).silent = [] ∧ (dies2 []).rebuild = [] ∧ (dies2 [(1, 0)]).inUse 0 0 = true ∧ (1, 0) ∈ (dies2 [(1, 0)]).rebuild ∧
    (dies2 []).inUse 2 0 = false ∧ base.on F.funSpareLog_valid = false ∧ ((page3 4 true).place.chan, (page3 4 true).place.die) ∉ (dies2 [(1, 0)]).rebuild := by decide +kernel

/-! ## Witnesses of the statement about upkeep and spares -/

theorem test_quota : base.reaches .boss = true ∧ base.idx.caches = [] ∧ base.fil.tiles = [] ∧ (786433 : Nat) < 2 ^ 20 := by decide +kernel
theorem test_pool : (∀ a < 16, 1 ≤ a → base.on (F.actCtrl_enable a) = false ∧ ∀ j ∈ base.fil.jobs, j.act = a → j.phase = .ended) ∧
    (∀ x ∈ base.fil.allocs, x.pooled = true → (128 - 64) * 2 ^ 30 ≤ (x.addr - 0x100000000000) % 0x2000000000) ∧
    (setFields base [(F.actCtrl_enable 1, 1)]).on (F.actCtrl_enable 1) = true ∧ (setFields base [(F.actCtrl_enable 1, 1)]).reaches .boss = true := by decide +kernel
theorem test_scrub : (setFields base [(F.memCtrl_scrubEn, 1)]).on F.memCtrl_scrubEn = true ∧ (setFields base [(F.memCtrl_scrubEn, 1)]).tally.beat % 4096 = 0 ∧
    ∀ b, (setFields base [(F.memCtrl_scrubEn, 1)]).mem.check b = .clean ∧ (setFields base [(F.memCtrl_scrubEn, 1)]).holder false (b * 64) 64 = none :=
  ⟨by decide +kernel, by decide, fun b => ⟨empty_clean rfl b, holder_none rfl rfl _ _ _⟩⟩
/-- A row of stack 0 that is retired, and a copy to a spare channel. -/
def row0 : RowId := ⟨0, 0, 0, 0⟩
def repairs (m : MemSt) : State := { setFields base [(F.memStackStatus_sparesLeft 0, 1)] with mem := m }
theorem test_row : row0 ∈ (repairs { MemSt.empty with retiring := [row0] }).mem.retiring ∧ row0.unit < 24 ∧
    ∀ b ∈ row0.blocks, (repairs { MemSt.empty with retiring := [row0] }).mem.check b = .clean := by
  refine ⟨by decide, by decide, fun b _ => ?_⟩
  rw [check_clean_iff]
  show MemSt.dead { MemSt.empty with retiring := [row0] } b = false ∧ MemSt.lost { MemSt.empty with retiring := [row0] } b = false ∧ checkOf (kvGet 0#48 [] b) = .clean
  unfold MemSt.dead MemSt.lost
  cases blockChan b <;> exact ⟨rfl, rfl, check_zero⟩
theorem test_spare_channel : (repairs MemSt.empty).reaches .boss = true ∧ 0 < (repairs MemSt.empty).rd (F.memStackStatus_sparesLeft 0) ∧ (repairs MemSt.empty).mem.copies = [] ∧
    (repairs { MemSt.empty with copies := [(0, 0)] }).mem.copies = [(0, 0)] ∧ (repairs { MemSt.empty with copies := [(0, 0)] }).mem.syn = [] ∧
    (setFields base [(F.memStackStatus_sparesLeft 0, 0)]).rd (F.memStackStatus_sparesLeft 0) = 0 ∧ (0, 0) ∉ base.mem.deadCh ∧ bits 6 1 2 = 3 ∧ bits 4 1 2 ≠ 3 := by decide +kernel
theorem test_spares : (base.rd (F.crewHewMap_enabled 0)).testBit 3 = true ∧ (base.rd (F.crewHewMap_enabled 0)).testBit 12 = false ∧ base.on (F.crewStatus_hewSpareUsed 0) = false ∧
    (setFields base [(F.crewStatus_hewSpareUsed 0, 1)]).on (F.crewStatus_hewSpareUsed 0) = true ∧ (base.rd (F.crewCoreMap_enabled 0)).testBit 1 = true ∧
    (base.rd (F.crewCoreMap_enabled 0)).testBit 4 = false ∧ base.on (F.crewStatus_coreSpareUsed 0) = false ∧ (∀ j ∈ base.fil.jobs, j.phase ≠ .cores) ∧
    (base.rd (F.crewHewFailed_failed 0)).testBit 3 = false ∧ (base.rd (F.crewCoreMap_failed 0)).testBit 1 = false ∧
    (∀ t ∈ base.fil.strands, t.crew = 0 → t.core = 1 → t.ended = true) := by decide +kernel
/-- Firmware spares hewer 3 of crew 0 by itself: with its spare free, and with none left. -/
def autoSpares (l : List (FieldRef × Nat)) : State := setFields base ([(F.funSparePolicy_autoEn, 1), (F.crewHewFailed_failed 0, 8)] ++ l)
theorem test_auto_spare : (autoSpares []).on F.funSparePolicy_autoEn = true ∧ ((autoSpares []).rd (F.crewHewFailed_failed 0)).testBit 3 = true ∧ (autoSpares []).on F.funSpareLog_valid = false ∧
    ((autoSpares []).rd (F.crewHewMap_enabled 0)).testBit 3 = true ∧ ((autoSpares []).rd (F.crewHewMap_enabled 0)).testBit 12 = false ∧ (autoSpares []).on (F.crewStatus_hewSpareUsed 0) = false ∧
    (autoSpares [(F.crewStatus_hewSpareUsed 0, 1), (F.crewHewMap_enabled 0, 7)]).on (F.crewStatus_hewSpareUsed 0) = true ∧
    popcount ((autoSpares [(F.crewStatus_hewSpareUsed 0, 1), (F.crewHewMap_enabled 0, 7)]).rd (F.crewHewMap_enabled 0)) 13 ≠ 12 ∧ base.pins.alerts = [] := by decide +kernel
theorem test_node_leave : (inRack 3 3 [(F.adtStatus_readOnly, 1)]).carState = 3 ∧ (inRack 3 3 [(F.adtStatus_readOnly, 1)]).on F.funSpareLog_valid = false ∧
    (inRack 3 3 [(F.adtStatus_readOnly, 1)]).on F.adtStatus_readOnly = true ∧ (inRack 3 3).on (F.memStackStatus_dead 0) = false := by decide +kernel
/-- Slot 2 of the Funhouse armed with KIND 1 for two firings, with EN. -/
def armed2 : State := setFields base [(F.funCtrl_en, 1), (F.funPCtrl_arm 2, 1), (F.funPCtrl_kind 2, 1), (F.funPLeft_left 2, 2)]
theorem test_funhouse : bits (0x6A5C * 2 ^ 16 + 1) 16 16 = 0x6A5C ∧ base.on (F.funPCtrl_arm 2) = false ∧ bits (1 + 2 + 256) 1 5 < 16 ∧ 1 ≤ bits (1 + 2 + 256) 8 8 ∧ (259 : Nat).testBit 0 = true ∧
    armed2.on (F.funPCtrl_arm 2) = true ∧ armed2.on F.funCtrl_en = true ∧ armed2.rd64 (F.funPBeatLo_beat 2) (F.funPBeatHi_beat 2) ≤ armed2.tally.beat ∧ 0 < armed2.rd (F.funPLeft_left 2) ∧
    armed2.on (F.funPCtrl_actMatch 2) = false ∧ armed2.rd (F.funPCtrl_kind 2) = 1 ∧ (setFields armed2 [(F.funCtrl_en, 0)]).on F.funCtrl_en = false := by decide +kernel

/-! ## Witnesses of the statement about rings and jobs -/

/-- Act 0 polls ring 0 at this beat, and its registers say so. -/
def polls : State :=
  setFields base [(F.hifFnPoll_period 0, 64), (F.hifFnPoll_phase 0, 0), (F.actCtrl_enable 0, 1), (F.ringCtrl_enable 0 0, 1), (F.ringCtrl_sizeLog2 0 0, 6), (F.ringCtrl_inflightMax 0 0, 64)]
theorem test_poll : polls.pollBeat 0 = true ∧ polls.on (F.actCtrl_enable 0) = true ∧ polls.on (F.actCtrl_halt 0) = false ∧ polls.fnOn 0 = true ∧ polls.on F.pwrStatus_p4 = false ∧ polls.rst.run = none ∧
    ({ polls with flash := flash0 } : State).flash.quiet = false ∧ polls.on F.hifOstCtrl_active = false ∧ polls.on (F.ringCtrl_enable 0 0) = true ∧ (∀ r < 4, 1 ≤ r → polls.on (F.ringCtrl_enable 0 r) = false) ∧
    (polls.ring 0 4).entries = [] ∧ 0 < polls.ringRoom 0 0 ∧ (polls.ring 0 0).next = 0 := by decide +kernel
/-- A descriptor of routine 5 with 16 argument bytes, one with a reserved flag, one of a routine that no one loaded; a ring that has asked for one. -/
def descOf (routine flags : Nat) : List Byte := leBytes 0 8 ++ leBytes routine 4 ++ leBytes flags 2 ++ [0xFF#8, 0#8] ++ zeros 24 ++ leBytes 16 4 ++ zeros 84
def fetches (smin : Nat) : State :=
  { polls with
    host := { base.host with rings := [⟨0, 0, 1, 0, [(0, none)], 0, 0, none, []⟩] }
    fil := { base.fil with routines := [{ rout0 with smin := smin }], strands := [], jobs := [] } }
theorem test_descriptor : ((fetches 1).ring 0 0).fetching = [(0, none)] ∧ (fetches 1).fil.jobs = [] ∧ (readDesc (descOf 5 256)).reserved = true ∧ (readDesc (descOf 6 0)).reserved = false ∧
    (∀ r ∈ (fetches 1).fil.routines, r.act = 0 → r.handle ≠ 6) ∧ (readDesc (descOf 5 0)).routine = 5 ∧ (fetches 1).named? 0 5 = true ∧
    ((fetches 1).target 0 0xFF).isSome = true ∧ (readDesc (descOf 5 0)).slice = 0xFF ∧ (readDesc (descOf 5 0)).tooLong = false ∧ (readDesc (descOf 5 0)).strands ≤ 64 ∧
    bitOf (readDesc (descOf 5 0)).flags 1 = false ∧ bitOf (readDesc (descOf 5 0)).flags 4 = false ∧ (fetches 1).fil.pairs = [] ∧ 0 < (readDesc (descOf 5 0)).argLen ∧
    (∀ x ∈ (fetches 1).target 0 0xFF, 1 ≤ min 1 ((fetches 1).coresOf x.1).length ∧ min 1 ((fetches 1).coresOf x.1).length < 2) := by decide +kernel
/-- A job of ring 0 in a phase, with flags. -/
def jobIn (p : Phase) (routine flags : Nat) : Job := { job0 with phase := p, desc := { desc0 with routine := routine, flags := flags, argLen := 16 } }
def waiting (j : Job) : State := { polls with fil := { base.fil with jobs := [j], strands := [] } }
theorem test_argument : (waiting (jobIn .argument 5 0)).job? 1 = some (jobIn .argument 5 0) ∧ (waiting (jobIn .argument 0 0)).job? 1 = some (jobIn .argument 0 0) ∧
    (∀ k ∈ (waiting (jobIn .argument 5 0)).fil.jobs, k.phase = .cores → False) ∧ (waiting (jobIn .argument 5 0)).coresOf [] = [] ∧ 0 < (jobIn .argument 5 0).count ∧
    (waiting (jobIn .argument 5 0)).routineOf (jobIn .argument 5 0) = some rout0 ∧ (waiting (jobIn .argument 5 0)).fil.jobs.count (jobIn .argument 5 0) = 1 ∧
    ((waiting (jobIn .cores 5 0)).start? (jobIn .cores 5 0) rout0).isSome = true := by decide +kernel
/-- A job held for a snapshot: one to come, one that has passed, and one that is not retained. -/
def held (snapshot flags : Nat) : Job := { jobIn (.snapshot 0) 5 flags with desc := { (jobIn (.snapshot 0) 5 flags).desc with snapshot := snapshot } }
theorem test_snapshot : bitOf (held 9 18).desc.flags 1 = true ∧ (waiting (held 9 18)).tally.stable < (held 9 18).desc.snapshot ∧ (held 0 18).desc.snapshot ≤ (waiting (held 0 18)).tally.stable ∧
    (waiting (held 0 18)).oldest 0 ≤ (held 0 18).desc.snapshot ∧ bitOf (held 0 18).desc.flags 4 = true ∧ (waiting (held 0 18)).routineOf (held 0 18) = some rout0 ∧
    rout0.smin ≤ (waiting (held 0 18)).strandCount (held 0 18) rout0 ∧
    (held 0 18).desc.snapshot < ({ waiting (held 0 18) with tally := { base.tally with stable := 9 }, idx := { base.idx with indexes := [index0] } } : State).oldest 0 ∧
    ¬ ((held 9 18).pickup + (waiting (held 9 18)).rd (F.actSnapWait_beats 0) ≤ (waiting (held 9 18)).tally.beat) ∧ bitOf (held 9 18).desc.flags 2 = false ∧
    ((held 9 22).desc.deadline ≤ (waiting (held 9 22)).tally.beat ∧ bitOf (held 9 22).desc.flags 2 = true) := by decide +kernel
theorem test_job_over : (jobIn .running 5 4).cutDone = false ∧ bitOf (jobIn .running 5 4).desc.flags 2 = true ∧ (jobIn .running 5 4).desc.deadline ≤ (waiting (jobIn .running 5 4)).tally.beat ∧
    (waiting (jobIn .running 5 4)).idx.reranks = [] ∧ (waiting (jobIn .running 5 0)).fil.strands = [] ∧ (jobIn .running 5 0).pair = none ∧ (jobIn .running 5 0).discard = false ∧
    bitOf (jobIn .running 5 0).desc.flags 6 = false ∧ (jobIn .running 5 0).desc.resLen = 0 ∧ (waiting (jobIn .running 0 0)).host.mute = false ∧
    0 < (([7#8] : List Byte).take 1).length ∧ (([7#8] : List Byte).take 1).length ≤ 4096 - (jobIn .running 0 0).desc.resAddr % 4096 := by decide +kernel
theorem test_completion : (waiting (jobIn .ended 5 0)).mayComplete (jobIn .ended 5 0) = true ∧ (jobIn .ended 5 0).origin = none ∧ (waiting (jobIn .ended 5 0)).host.mute = false ∧
    bitOf (jobIn .ended 5 0).desc.flags 7 = false ∧ ((waiting (jobIn .ended 5 0)).ring 0 0).notify = 0 ∧
    (∃ k ∈ [jobIn .ended 5 0, { jobIn .ended 5 0 with id := 2, num := 1 }], k.act = 0 ∧ k.ring = 0 ∧ k.num < 1) := by decide +kernel
/-- Ring 1 of act 0 with completions to announce, its timer over. -/
def notifies (mask : Nat) : State :=
  { setFields base [(F.ringMod_timer 0 1, 1), (F.ringCtrl_vector 0 1, 3), (F.msixCtrl_mask 0 3, mask), (F.msixPba_pending 0, 8)] with
    host := { base.host with rings := [⟨0, 1, 1, 0, [], 1, 0, none, []⟩] }, tally := { base.tally with beat := 1 } }
theorem test_messages : (notifies 0).host.mute = false ∧ (notifies 0).fnOn 0 = true ∧ ((notifies 0).ring 0 1).notify ≠ 0 ∧ (notifies 0).rd (F.ringMod_timer 0 1) ≠ 0 ∧
    ((notifies 0).ring 0 1).since + (notifies 0).rd (F.ringMod_timer 0 1) ≤ (notifies 0).tally.beat ∧ (∀ q ∈ (notifies 0).host.rings, q.message = none) ∧ (notifies 0).queuedCompletions 0 = [] ∧
    (notifies 0).on (F.msixCtrl_mask 0 3) = false ∧ (notifies 1).on (F.msixCtrl_mask 0 3) = true ∧ (notifies 0).rd (F.ringCtrl_vector 0 1) = 3 ∧ (notifies 0).reachesOwn (.fn 0) 0 = true ∧
    ((notifies 0).rd (F.msixPba_pending 0)).testBit 3 = true ∧ ((notifies 0).rd (F.msixPba_pending 0)).testBit 2 = false := by decide +kernel
theorem test_ring_enable : bits 13 1 5 = 6 ∧ base.on (F.ringCtrl_enable 0 1) = false ∧ (∀ j ∈ base.fil.jobs, j.act = 0 → j.ring ≠ 1) ∧ (base.ring 0 1).fetching = [] ∧
    base.rd (F.cqHead_count 0 1) = base.rd (F.cqTail_count 0 1) ∧ (∃ j ∈ base.fil.jobs, j.act = 0 ∧ j.ring = 0) ∧ base.on (F.ringCtrl_enable 0 0) = false := by decide +kernel

/-! ## Witnesses of the statement about the loader, slices and pairs -/

/-- A loader call with one strand less and a pool quota, as the loader's calls find it. -/
def loader (op : Nat) (args data : List Byte) : State :=
  { loads op args data with idx := base.idx }
/-- A routine image of one END, with its check. -/
def routineImage : List Byte :=
  let b := leBytes 0x46494C58 4 ++ leBytes 1 2 ++ zeros 2 ++ leBytes 1 4 ++ zeros 4 ++ [1#8, 1#8, 0#8, 0#8] ++ zeros 16 ++ zeros 28 ++ leBytes (5 * 2 ^ 52) 8
  overlay b 0x20 (leBytes (crc32c b) 4)
def loaded : State := loader 0 (zeros 8 ++ leBytes 72 8) routineImage
theorem test_load : loaded.loaderCall 1 0 = some (loaderJob 0 (zeros 8 ++ leBytes 72 8) routineImage) ∧ (padTo 0#8 72 routineImage).length = 72 ∧
    loaded.imageFault 0 (padTo 0#8 72 routineImage) = 0 ∧ (imageHeader (padTo 0#8 72 routineImage)).pool = 0 ∧ loaded.imageFault 0 (zeros 72) ≠ 0 := by decide +kernel
/-- The size of the native code is not known: the charge of a KiB fits. -/
theorem test_charge (h : Nat) : ((loaded.chargeRoutine 0 h 1024 0).map (·.1)) = some 0 ∧ ((loaded.chargeRoutine 0 h 1024 0).map (·.2.fil.routines)) = some loaded.fil.routines := by
  have e : (loaded.fil.routines.filter (·.act == 0)).length = 1 := rfl
  obtain ⟨a, ha⟩ := Option.isSome_iff_exists.1 (show (loaded.poolRun 1024).isSome = true by decide +kernel)
  have g : State.allocPool loaded 0 1024 (.native 0 h) = (some a, loaded.addAlloc ⟨a, 1024, 0, .native 0 h⟩) := by
    have q : loaded.quotaFits 0 1024 false = true := by decide +kernel
    have m : State.makeRoom 0 1024 false loaded.idx.caches.length loaded = loaded := rfl
    simp only [State.allocPool, Alloc.isExpansion, show roundUp (max 1024 1) 512 = 1024 by decide, Bool.false_and, m, q, ha, Bool.not_true, if_neg Bool.false_ne_true]
  unfold State.chargeRoutine
  rw [e, if_neg (by decide), g]
  exact ⟨rfl, rfl⟩
theorem test_unload : (loader 1 (leBytes 5 8) []).loaderCall 1 1 = some (loaderJob 1 (leBytes 5 8) []) ∧ rout0 ∈ (loader 1 (leBytes 5 8) []).fil.routines ∧ rout0.act = 0 ∧
    rout0.handle = (loaderJob 1 (leBytes 5 8) []).desc.arg 2 ∧ rout0.unloaded = false ∧ (loaderJob 1 (leBytes 6 8) []).desc.arg 2 ≠ rout0.handle ∧
    (loader 4 [] []).loaderCall 1 4 = some (loaderJob 4 [] []) ∧ (loader 13 [] []).loaderCall 1 13 = some (loaderJob 13 [] []) := by decide
/-- Routine 5 unloaded, with a job that names it and without. -/
def unloaded (jobs : List Job) : State := { base with fil := { base.fil with routines := [{ rout0 with unloaded := true }], jobs := jobs } }
theorem test_release : (∃ r ∈ (unloaded []).fil.routines, r.act = 0 ∧ r.handle = 5 ∧ r.unloaded = true) ∧ (unloaded []).fil.jobs = [] ∧
    (∀ j ∈ (unloaded [{ job0 with phase := .ended, status := 0x60, detail := 2 }]).fil.jobs, j.act = 0 → j.desc.routine = 5 → j.status = 0x60 ∧ j.detail = 2) ∧
    (∃ j ∈ (unloaded [job0]).fil.jobs, j.act = 0 ∧ j.desc.routine = 5 ∧ ¬ (j.status = 0x60 ∧ j.detail = 2)) := by decide
/-- A pack of one tile of zeros, with its check. -/
def packRecord : List Byte := leBytes (2 ^ 47) 8 ++ zeros 4 ++ leBytes one32 4 ++ zeros 16 ++ zeros 4096
def pack : List Byte := leBytes 0x4B435054 4 ++ leBytes 1 4 ++ leBytes (crc32c packRecord) 4 ++ zeros 52 ++ packRecord
def packs : State := loader 2 (zeros 8 ++ leBytes 4192 8) pack
def record0 : PackRecord := ⟨2 ^ 47, 0, 0, 0, 0, one32, 0, 0, false, [], zeros 4096⟩
set_option maxRecDepth 400000 in
theorem test_pack_records : packs.loaderCall 1 2 = some (loaderJob 2 (zeros 8 ++ leBytes 4192 8) pack) ∧ readPack 1 packRecord = some [record0] := by decide +kernel
theorem test_pack_bad : packs.packFault 0 (zeros 64) (readPack 0 (zeros 0)) = 0x20 := by decide +kernel
set_option maxRecDepth 400000 in
theorem test_pack : packs.packFault 0 pack (some [record0]) = 0 := by decide +kernel
theorem test_pack_home : ((packs.fresh.allocPool 0 4096 (.tile packs.nextId)).1).isSome = true ∧ (packs.fresh.allocPool 0 4096 (.tile packs.nextId)).2.mem = MemSt.empty ∧
    (packs.fresh.allocPool 0 4096 (.tile packs.nextId)).2.rd F.pwrStackState_inP3 = 0 := by decide +kernel
theorem test_export : (loader 8 (leBytes stk 8 ++ leBytes 4096 8 ++ leBytes 1 8) []).loaderCall 1 8 = some (loaderJob 8 (leBytes stk 8 ++ leBytes 4096 8 ++ leBytes 1 8) []) ∧
    (loader 8 [] []).exportRefused 0 stk 4096 1 = false ∧ (loader 8 [] []).exportRefused 0 stk 4097 1 = true := by decide +kernel
def closing : State := { loader 9 (leBytes 0 8) [] with car := { base.car with exports := [exports0] } }
theorem test_unexport : closing.loaderCall 1 9 = some (loaderJob 9 (leBytes 0 8) []) ∧ (closing.car.exports.find? fun e => e.act == 0 && e.key == 0 && e.closing.isNone) = some exports0 ∧
    closing.car.sharers = [] ∧ closing.car.reqs = [] ∧ (loader 9 [] []).car.exports = [] ∧
    (∃ e ∈ [{ exports0 with closing := some 1 }], e.closing = some 1) ∧ (∀ i ∈ [(⟨5, [], .unexport 1⟩ : InvJob)], i.wanted = .unexport 1 → i.out = []) ∧
    (∃ i ∈ [(⟨5, [(1, 7)], .unexport 1⟩ : InvJob)], i.wanted = .unexport 1 ∧ i.out ≠ []) := by decide +kernel
theorem test_quote : (loader 11 (leBytes 1 8) (zeros 64)).loaderCall 1 11 = some (loaderJob 11 (leBytes 1 8) (zeros 64)) ∧ 64 ≤ (zeros 64).length := by decide
theorem test_slice : Issues privileged Form.sysSlice (word 0 0 3 0 [0#64, 0#64]) strandW job0 ∧ privileged.isPriv job0 = true ∧ privileged.tally.beat + 64 ≤ (strandW.getS 3).toNat ∧
    (sliceOf 0 0).num ≠ 0xFF ∧ (privileged.moved (word 0 0 3 0 [0#64, 0#64]) strandW).eventRoom = true ∧ (strandW.getS 2).toNat < privileged.tally.beat + 64 :=
  ⟨issues_of (by decide) rfl rfl rfl rfl (by decide +kernel) rfl rfl, by decide, by decide, by decide, by decide +kernel, by decide⟩
/-- Slice 1 of act 0 with crew 2, about to be recomposed, and a crew that still has to join one. -/
def slice1 : Slice := ⟨0, 1, 4, 0, []⟩
def composing (jobs : List Job) : State := { base with fil := { base.fil with jobs := jobs, strands := [], recompose := [⟨0, slice1⟩], joining := [] } }
theorem test_recompose : (composing []).fil.recompose = [⟨0, slice1⟩] ∧ (0 : Nat) ≤ (composing []).tally.beat ∧ (composing []).fil.tiles = [] ∧ (composing []).fil.slices = [] ∧
    bitOf slice1.crews 2 = true ∧ (composing []).fil.joining = [] ∧ (composing []).fil.jobs = [] ∧
    ({ composing [] with fil := { base.fil with jobs := [], joining := [⟨2, 0, 1, 0⟩] } } : State).fil.joining = [⟨2, 0, 1, 0⟩] ∧
    (∃ j ∈ [{ job0 with desc := { desc0 with slice := 1 } }], j.act = 0 ∧ j.desc.slice = 1 ∧ j.desc.routine ≠ 0 ∧ j.phase ≠ .ended ∧ j.pickup < 9) := by decide
/-- A pair block: partner 1, slice 1, ledger 1, 64 entries, slots of 4,096 bytes, step 64. -/
def pairBlock (ledger : Nat) : List Byte := [1#8, 1#8, BitVec.ofNat 8 ledger, 0#8] ++ leBytes 64 4 ++ leBytes 4096 4 ++ leBytes 0 4 ++ leBytes stk 8 ++ leBytes 64 4 ++ zeros 36
def pairing (map : Nat) (b : List Byte) (pairs : List Pair) : State :=
  { loader 12 [] b with regs := (inRack 3 map).regs, fil := { (loader 12 [] b).fil with slices := [slice1], pairs := pairs } }
theorem test_pair : (pairing 3 (pairBlock 1) []).loaderCall 1 12 = some (loaderJob 12 [] (pairBlock 1)) ∧ (pairing 3 (pairBlock 1) []).pairRefused 0 (pairBlock 1) = false ∧
    (pairing 3 (pairBlock 2) []).pairRefused 0 (pairBlock 2) = true ∧ (pairing 1 (pairBlock 1) []).members.testBit 1 = false ∧ (pairing 3 (pairBlock 1) []).members.testBit 1 = true ∧
    leAt (pairBlock 1) 2 1 = leAt (pairBlock 1) 0 1 ∧ leAt (pairBlock 1) 2 1 ≠ (pairing 3 (pairBlock 1) []).self := by decide +kernel
def pair1 (start : Nat) : Pair := ⟨0, 1, 1, 1, 64, 4096, 0, stk, 64, start, 1, false⟩
theorem test_pair_effect : (pairing 3 (pairBlock 1) [pair1 0]).fil.pairs.find? (·.job == 1) = some (pair1 0) ∧ (pairing 3 (pairBlock 1) [pair1 0]).job? 1 = some (loaderJob 12 [] (pairBlock 1)) ∧
    (pair1 0).start ≤ (pairing 3 (pairBlock 1) [pair1 0]).tally.beat ∧ (pairing 3 (pairBlock 1) [pair1 9]).tally.beat < (pair1 9).start := by decide +kernel
/-- A job that waits for the ledger of node 1, and the entries of the phase before and of another one. -/
def ledgerJob : Job := { job0 with phase := .ledger, pair := some (pair1 0), desc := { desc0 with jobId := 257 }, crews := [] }
theorem test_ledger : ({ pairing 3 (pairBlock 1) [] with fil := { base.fil with jobs := [ledgerJob], strands := [] } } : State).job? 1 = some ledgerJob ∧ (pair1 0).broken = false ∧ (pair1 0).ledger ≠ (pairing 3 (pairBlock 1) []).self ∧
    (pairing 3 (pairBlock 1) []).members.testBit (pair1 0).ledger = true ∧ ledgerJob.desc.jobId % 256 ≠ 0 ∧ ledgerJob.desc.routine ≠ 0 ∧ (pairing 3 (pairBlock 1) []).coresOf ledgerJob.crews = [] ∧
    0 < ledgerJob.count ∧ leAt (leBytes 256 8 ++ [1#8]) 0 8 + 1 = ledgerJob.desc.jobId ∧ leAt (leBytes 256 8 ++ [1#8]) 8 1 ≠ 0xFF ∧ leAt (leBytes 9 8 ++ [1#8]) 0 8 + 1 ≠ ledgerJob.desc.jobId := by decide +kernel

/-! ## Witnesses of the statement about the host and resets

Two of its hypotheses rest on what manufacture fuses into a node: that a debug token verifies, and the size of native code. -/

def latched : State := setFields base [(F.funInputs_resetHeld, 1), (F.funInputs_pwrFailLatched, 1)]
theorem test_reset_pins : base.on F.funInputs_pwrFailLatched = false ∧ (1 : Nat) < (setFields base [(F.rstFilter_width, 8)]).rd F.rstFilter_width ∧
    (setFields base [(F.rstFilter_width, 8)]).rd F.rstFilter_width ≤ 8 ∧ (setFields base [(F.funInputs_resetHeld, 0)]).on F.funInputs_resetHeld = false ∧ base.rst.run = none ∧
    ({ base with rst := { base.rst with run := some ⟨2, 5, none⟩ } } : State).rst.run = some ⟨2, 5, none⟩ := by decide +kernel
/-- The watchdog runs with a period of one beat, and for longer. -/
def watched (p : Nat) : State := atBeat (setFields base [(F.rstWdtCtrl_en, 1), (F.rstWdtCtrl_periodLog2, p)]) 4
theorem test_watchdog : (watched 1).on F.rstWdtCtrl_en = true ∧ (watched 1).rst.wdtFrom + 2 ^ (watched 1).rd F.rstWdtCtrl_periodLog2 ≤ (watched 1).tally.beat ∧
    (watched 12).tally.beat < (watched 12).rst.wdtFrom + 2 ^ (watched 12).rd F.rstWdtCtrl_periodLog2 ∧ base.on F.rstWdtCtrl_en = false := by decide +kernel
theorem test_debug : (setFields base [(F.dbgStatus_state, 1)]).rd F.dbgStatus_state = 1 ∧ base.rd F.dbgStatus_state ≠ 1 ∧ (setFields base [(F.dbgStatus_state, 1)]).reaches .boss = true ∧
    base.tokenOk ((base.regBytes F.dbgToken_bytes 128).take 404) = false ∧ base.asy.log.length < 1024 := by
  refine ⟨by decide +kernel, by decide +kernel, by decide +kernel, ?_, by decide⟩
  unfold State.tokenOk
  rw [show (leAt ((base.regBytes F.dbgToken_bytes 128).take 404) 0 4 == 0x4442544B) = false by decide +kernel, Bool.and_false]
  rfl
theorem test_svn : (setFields base [(F.asySvn_image, 3)]).rd F.asySvn_fused < (setFields base [(F.asySvn_image, 3)]).rd F.asySvn_image ∧ base.rd F.asySvn_image ≤ base.rd F.asySvn_fused := by decide +kernel
/-- Two sources are raised, of which the cold one is taken. -/
def raisedBy : State := { base with rst := { base.rst with raised := [⟨5, 2, 0⟩, ⟨3, 0, 0⟩] } }
theorem test_reset_sequence : (⟨3, 0, 0⟩ : Raised) ∈ raisedBy.rst.raised ∧ (∀ q ∈ raisedBy.rst.raised, q = ⟨3, 0, 0⟩ ∨ 0 < q.level ∨ 3 < q.code) ∧ base.rst.raised = [] := by decide
theorem test_reset_release : latched.on F.funInputs_resetHeld = true ∧ base.on F.funInputs_resetHeld = false ∧ base.pins.powered = true ∧
    ({ base with rst := { base.rst with run := some ⟨2, 5, some 0⟩ } } : State).tally.beat < 0 + 64 ∧ 0 + 64 ≤ (atBeat base 64).tally.beat ∧ base.rst.run = none ∧
    base.rd F.asyStatus_bootState = 0 ∧ (setFields base [(F.asyCtrl_hostLoad, 0)]).on F.asyCtrl_hostLoad = false ∧
    (setFields base [(F.asyStatus_bootState, 2), (F.asyCtrl_hostLoad, 1)]).rd F.asyStatus_bootState = 2 ∧ (setFields base [(F.asyStatus_bootState, 2), (F.asyCtrl_hostLoad, 1)]).on F.asyCtrl_hostLoad = true ∧
    ({ base with fil := { base.fil with jobs := [] } } : State).fil.jobs = [] := by decide +kernel
theorem test_act_reset : manages .boss = true ∧ bitOf ((setFields base [(F.rstActStatus_busy, 4)]).rd F.rstActStatus_busy) 2 = true ∧ bitOf (base.rd F.rstActStatus_busy) 2 = false ∧
    (∀ e ∈ [exports0], e.act ≠ 2) := by decide +kernel
/-- A block reset of the Midway block, its time not yet over and over. -/
def resets (b t beat : Nat) : State := { atBeat base beat with rst := { base.rst with block := some (b, t) } }
theorem test_block_reset : base.rst.block = none ∧ (resets 0x29 0 0).rst.block = some (0x29, 0) ∧ ({ resets 0x2A 0 0 with car := { base.car with inbox := [pkt .ld 0] } } : State).blockIdle 0x2A = false ∧
    (resets 0x2B 5 5).tally.beat < 5 + (setFields base [(F.rstBlkTimeout_beats, 9)]).rd F.rstBlkTimeout_beats ∧ (resets 0x2B 0 100000).mdw.sends = [] ∧
    0 + (resets 0x2B 0 (2 ^ 32)).rd F.rstBlkTimeout_beats ≤ (resets 0x2B 0 (2 ^ 32)).tally.beat := by decide +kernel
/-- BAR2 of function 0 on the region of act 0, and past the end of the address space. -/
def barred (gib : Nat) : State := setFields wide [(F.hifFnBar2_enable 0, 1), (F.hifFnBar2_gib 0, gib)]
theorem test_bar2 : (barred 16384).fnOn 0 = true ∧ (barred 16384).on (F.hifFnBar2_enable 0) = true ∧ base.on (F.hifFnBar2_enable 0) = false ∧
    (barred 16384).rd (F.hifFnBar2_gib 0) * 2 ^ 30 + 0 = stk ∧ (∀ y ∈ probePoints stk 8, (physOf y).any fun p => !(barred 16384).inPool p) ∧ isRegister stk = false ∧
    (barred 16384).rd F.pwrStackState_inP3 = 0 ∧ (barred 16384).holder false stk 8 = none ∧ (barred 16384).holder true stk 8 = none ∧
    (∃ y ∈ probePoints (((barred 16383).rd (F.hifFnBar2_gib 0)) * 2 ^ 30 + 0) 8, physOf y = none) := by decide +kernel
theorem test_bar2_memory : Writable (barred 16384) stk 8 ∧ (∀ b ∈ blocksOf stk 8, (barred 16384).mem.check b = .clean) ∧ (barred 16384).mem.wf = true :=
  ⟨wide_writable rfl (by decide +kernel) _ _ (by decide) (by decide), fun b _ => empty_clean rfl b, by decide⟩
theorem test_link : (setFields base [(F.funInputs_perstAsserted, 0)]).on F.funInputs_perstAsserted = false ∧ 5 ≤ min 6 ((setFields base [(F.hifLinkCtrl_maxSpeed, 6)]).rd F.hifLinkCtrl_maxSpeed) ∧
    min 4 (base.rd F.hifLinkCtrl_maxSpeed) < 5 ∧ (setFields base [(F.funInputs_perstAsserted, 1)]).on F.funInputs_perstAsserted = true := by decide +kernel
/-- Act 0 idle, with a service routine; and with a job. -/
def service (jobs : List Job) : State := { setFields base [(F.hifOstRoutine_handle, 5)] with fil := { base.fil with jobs := jobs, strands := [] } }
theorem test_ost : (∀ a < 16, 0 < a → (service []).on (F.actCtrl_enable a) = false) ∧ (service []).actIdle 0 = true ∧
    (∃ r ∈ (service []).fil.routines, r.act = 0 ∧ r.unloaded = false ∧ r.handle = (service []).rd F.hifOstRoutine_handle) ∧ (service [job0]).actIdle 0 = false ∧
    (service []).on F.hifOstCtrl_enable = false ∧ (setFields base [(F.hifOstCtrl_enable, 1)]).on F.hifOstCtrl_enable = true := by decide +kernel

/-! ## Witnesses of further clauses: a slot of several contributors, the index at home, and what a statement says of the other case -/

/-- A hewer slot's contributor in flight, whose new tile has a place. -/
def oredFlight : Inflight := ⟨9, 3, 0, 0, [], [.t 4], .ored 0, [], 0⟩
def gathered : State := { plain3 with fil := { plain3.fil with strands := [{ strand3 with inflight := [oredFlight] }] } }
theorem test_placed : Sys2Proof.Claims.Placed (plainTile 0 0 (zeros 4096)) [⟨0, [], 1, 9⟩] gathered ∧ (∀ x ∈ gathered.fil.tiles, x.id < gathered.nextId) ∧
    gathered.rd F.memFlipCtrl_arm = 0 :=
  ⟨⟨⟨{ strand3 with inflight := [oredFlight] }, job0, oredFlight, 4, rfl, rfl, rfl, rfl, by decide +kernel⟩, trivial⟩, by decide, by decide +kernel⟩
/-- A first contribution of two, of a scalar and of a tile, fits a slot not yet open; the second one of `open2` fits it. -/
theorem test_fits : (strand0.getS 0).toNat < 2 ∧ (strand3.getS 0).toNat < 1 ∧ (1 < 2 ∧ open2.n = 2 ∧ open2.op = 0 ∧ ∀ c ∈ open2.contribs, c.idx ≠ 1) := by decide
/-- A list of two effects on the strand. -/
theorem test_effects : [Effect.setS 1 3#64, .setP 1 false, .dropT 2].all Sys2Proof.Claims.stays = true := by decide
/-- A crew store with room for an expansion. -/
theorem test_spare : plain3.crewUse 0 + 4096 + 2 ^ 20 ≤ plain3.rd (F.memQCrew_kib 0) * 1024 ∧
    allocSum (fun _ => true) (allocsIn (crewAddr 0 0) (crewAddr 0 crewLen) plain3.fil.allocs) + 4096 + 2 ^ 20 ≤ crewLen := by decide +kernel
/-- A function other than those of an act sees no beat; a source that has read none sees the beat's present words. -/
theorem test_no_snapshot : base.sees (.fn 1) Reg.talBeatLo = false ∧ ∀ x ∈ base.tally.snaps, x.source ≠ (1, 1) := by decide

/-- Seam 5 in the graph and here, and a snapshot that finds its version; seam 3 is in no graph. -/
def wordO : Insn := word 1 2 0 0
theorem test_open : Issues indexed Form.idxOpen wordO strandW job0 ∧ strandW.clear [.s 62] (presWrites wordO) = true ∧ (strandW.getS 62).toNat ≤ indexed.tally.stable ∧
    indexed.oldest 0 ≤ (strandW.getS 62).toNat ∧ index0.graphAt 0 = some ⟨0, 0, 1, [stk], true, [1, 0, 0, 1, 0], [5], true, [rec5]⟩ ∧
    index0.seam? 5 = some seam5 ∧ rec5.homeAt 0 = indexed.self ∧ rec5.retiredAt 0 = false ∧
    seam5.versions.find? (fun v => decide (v.cut ≤ 0 ∧ v.publish ≤ indexed.tally.beat)) = some ⟨1, 0, 0, 0, 0, 1, 1, stk, []⟩ ∧
    indexed.visible 0 80 0 = none ∧ Issues indexed Form.idxOpen (word 1 3 0 0) strandW job0 :=
  ⟨issues_of (by decide) rfl rfl rfl rfl (by decide) rfl rfl, clear_of rfl _ _, by decide, by decide, rfl, rfl, by decide, by decide, by decide, by decide,
    issues_of (by decide) rfl rfl rfl rfl (by decide) rfl rfl⟩

/-- Seam 5 at home with the vector area in a bound segment, and an append of the four elements of t2. -/
def indexA : Index := { index0 with vecFirst := 0, vecPages := 64 }
def appends : State :=
  { lists with
    regs := (((lists.wr F.memPool_gib 1).wr (F.memQStack_kib 0) 65536).wr (F.memQCache_kib 0) 4096).regs
    idx := { lists.idx with indexes := [indexA] }
    flash := { lists.flash with attached := [0], maps := [⟨1, 0, 0, 9, false, true, []⟩] } }
def wordA : Insn := word 1 2 2 0 [5#64, 0#64]
theorem test_append : Issues appends Form.idxAppend wordA strand3 job0 ∧ (strand3.getS 2).toNat = 5 ∧ bitOf 5 63 = false ∧ appends.index? 0 = some indexA ∧
    VectorAt appends strand3 job0 2 4 ((codesOf 0 ((tile 52 2 0 6).val (raw 2)).data).take 4) ∧
    strand3.clear ((vecHandles 2 4).map Res.t) [] = true ∧ (∀ f ∈ strand3.inflight, f.tag < appends.nextId) ∧ appends.flash.readOnly = false ∧
    (appends.freeRun indexA).isSome = true ∧ (∀ k < 128, (physOf (seam5.recAt false seam5.nextSide + k)).isSome = true) ∧
    Sys2Proof.Claims.CommitsHere appends indexA seam5 ⟨0, 5, false, 5, 0, 0, [], 0, 0, 0, []⟩ := by
  refine ⟨issues_of (by decide) rfl rfl rfl rfl (by decide) rfl rfl, by decide, by decide, rfl, ?_, clear_of rfl _ _, by decide, by decide, by decide +kernel,
    by decide +kernel, rfl, rfl, by decide +kernel, rfl, by decide +kernel, by decide +kernel, by decide +kernel, by decide⟩
  have h2 : AtRest appends strand3 2 (tile 52 2 0 6) ((tile 52 2 0 6).val (raw 2)) :=
    rest_of rfl rfl (by decide) (by decide +kernel) rfl rfl rfl rfl (tile_crc 52 2 0 6) rfl rfl
  refine ⟨rout0, fun _ => tile 52 2 0 6, fun _ => (tile 52 2 0 6).val (raw 2), rfl, ?_, ?_⟩
  · intro h hh
    have e : h = 2 := by simpa [vecHandles, ceilDiv] using hh
    subst e
    exact ⟨by decide, by decide, h2, rfl, rfl⟩
  · show _ = List.take 4 (List.flatMap _ [2])
    rw [List.flatMap_singleton]
theorem test_append_sound : Sys2Proof.Claims.Sound appends ∧ Sys2Proof.Claims.CopyRoom appends 0 indexA := by
  refine ⟨⟨fun b => ⟨empty_clean rfl b, empty_alive rfl b⟩, by decide +kernel, by decide +kernel, by decide +kernel⟩, by decide +kernel, by decide +kernel, ?_⟩
  intro k h0 h1
  have h2 : k ≤ 4096 := h1
  have hb : appends.bestStack = 0 := by decide +kernel
  have hr : appends.rd F.memPool_gib = 1 := by decide +kernel
  have hl : sortBy (fun (a b : Alloc) => decide (a.addr > b.addr)) (allocsIn (stackAddr 0 ((128 - 1) * 2 ^ 30)) (stackAddr 0 stackLen) appends.fil.allocs) = [] := by
    decide +kernel
  unfold State.poolGap
  simp only [hb, hr, hl, gapDown]
  refine ⟨_, if_pos ?_⟩
  unfold stackAddr stackLen
  omega
/-- A write to a member, and a vector asked for by one. -/
theorem test_far_vector : (inRack 3 3 []).linkFor (inRack 3 3 []).self 1 = some 0 ∧ ((inRack 3 3 []).serveVec 0 0 []).2.flash.quiet = false := by decide +kernel

/-! ## Witnesses of the invariant -/

/-- The small state and a step of it keep the canonical form. -/
theorem test_canonical : base.canonical = true ∧ (match step { base with pending := [.sclAdd (word 4 2 3 0)] } with
    | .next u => u.canonical
    | _ => false) = true := by decide +kernel

end Sys2Proof.Tests
end

section
/-! PROOFS. Accesses to register space (R4, R10 to R13, R421): what an ordinary write leaves in each field of a register, what a read answers and
clears, and what an odd access logs. -/
namespace Sys2Proof.Machine

/-! ## States that differ in registers alone -/

theorem RegsOnly.refl (s : State) (offs : List Nat) : RegsOnly s s offs := ⟨fun _ _ => rfl, rfl⟩

theorem RegsOnly.trans {s t u : State} {offs : List Nat} (h : RegsOnly s t offs) (h' : RegsOnly t u offs) : RegsOnly s u offs :=
  ⟨fun off ho => (h'.1 off ho).trans (h.1 off ho), by rw [← h.2, ← h'.2]⟩

/-- A word written to a register changes that register alone. -/
theorem State.setReg_regsOnly (s : State) (off : Nat) (w : BitVec 32) : RegsOnly s (s.setReg off w) [off] :=
  ⟨fun _ h => s.reg_setReg_other w fun e => h (by simp [e]), rfl⟩

/-- A field written changes the field's register alone. -/
theorem State.wr_regsOnly (s : State) (f : FieldRef) (v : Nat) : RegsOnly s (s.wr f v) [f.off] := s.setReg_regsOnly _ _

/-! ## One field under a write (R4) -/

/-- What a write of `word` leaves in a field that holds `old`, where the register's word is `sofar`: an RW field takes the value where it is
in range, a W1C field loses the bits written as one, and every other field keeps its value. -/
def FieldRow.stored (f : FieldRow) (word sofar old : Nat) : Nat :=
  match f.acc with
  | .rw => f.rng.take f.width sofar old (bits word f.lo f.width) % 2 ^ f.width
  | .w1c => old - (old &&& bits word f.lo f.width)
  | _ => old

/-- Two fields share no bit. -/
abbrev FieldRow.Apart (f g : FieldRow) : Prop := g.lo + g.width ≤ f.lo ∨ f.lo + f.width ≤ g.lo

theorem FieldRow.Apart.symm {f g : FieldRow} (h : f.Apart g) : g.Apart f := Or.symm h

/-- The range does not depend on another field of the register. -/
def Rng.own (r : Rng) : Bool :=
  match r with
  | .below _ _ => false
  | _ => true

theorem Rng.take_own {r : Rng} (h : r.own = true) (width a b old new : Nat) : r.take width a old new = r.take width b old new := by
  cases r with
  | below lo w => cases h
  | any | range | signed | pairsLe2 => rfl

theorem FieldRow.stored_own {f : FieldRow} (h : f.rng.own = true) (word a b old : Nat) : f.stored word a old = f.stored word b old := by
  unfold FieldRow.stored
  rw [Rng.take_own h f.width a b]

/-- The field itself holds what the write leaves in it. -/
theorem FieldRow.bits_store_same (f : FieldRow) (word w : Nat) :
    bits (f.store word w) f.lo f.width = f.stored word w (bits w f.lo f.width) := by
  unfold FieldRow.store FieldRow.stored
  cases f.acc with
  | rw => exact bits_putBits_same _ _ _ _
  | w1c =>
    refine (bits_putBits_same _ _ _ _).trans (Nat.mod_eq_of_lt ?_)
    exact Nat.lt_of_le_of_lt (Nat.sub_le _ _) (bits_lt _ _ _)
  | ro | wo | rc => rfl

/-- A field that shares no bit with the field written keeps its value. -/
theorem FieldRow.bits_store_apart {f g : FieldRow} (h : f.Apart g) (word w : Nat) :
    bits (f.store word w) g.lo g.width = bits w g.lo g.width := by
  unfold FieldRow.store
  cases f.acc with
  | rw | w1c => exact bits_putBits_apart _ _ _ _ _ _ h
  | ro | wo | rc => rfl

/-! ## A register's fields under a write -/

/-- A field apart from every field written keeps its value. -/
theorem bits_foldl_store_apart {g : FieldRow} {fs : List FieldRow} (h : ∀ f ∈ fs, f.Apart g) (word w : Nat) :
    bits (fs.foldl (FieldRow.store word) w) g.lo g.width = bits w g.lo g.width := by
  induction fs generalizing w with
  | nil => rfl
  | cons f fs ih =>
    obtain ⟨hf, hfs⟩ := List.forall_mem_cons.1 h
    exact (ih hfs _).trans (FieldRow.bits_store_apart hf word w)

/-- Where a register's fields lie apart and have ranges of their own, the write leaves in each what it leaves in that field alone. -/
theorem bits_foldl_store {g : FieldRow} {fs : List FieldRow} (ha : fs.Pairwise FieldRow.Apart) (ho : ∀ f ∈ fs, f.rng.own = true) (hg : g ∈ fs)
    (word sofar w : Nat) :
    bits (fs.foldl (FieldRow.store word) w) g.lo g.width = g.stored word sofar (bits w g.lo g.width) := by
  induction fs generalizing w with
  | nil => cases hg
  | cons f fs ih =>
    obtain ⟨hf, hfs⟩ := List.pairwise_cons.1 ha
    rcases List.mem_cons.1 hg with rfl | hg'
    · calc bits (fs.foldl (FieldRow.store word) (g.store word w)) g.lo g.width
          = bits (g.store word w) g.lo g.width := bits_foldl_store_apart (fun x hx => (hf x hx).symm) _ _
        _ = g.stored word w (bits w g.lo g.width) := g.bits_store_same word w
        _ = g.stored word sofar (bits w g.lo g.width) := FieldRow.stored_own (ho g hg) _ _ _ _
    · have hkept := FieldRow.bits_store_apart (hf g hg') word w
      rw [List.foldl_cons, ih hfs (fun x hx => ho x (List.mem_cons_of_mem _ hx)) hg', hkept]

/-- A register whose fields fit in its 32 bits, share none, and have ranges of their own. -/
structure RegRow.Laid (r : RegRow) : Prop where
  fits : ∀ f ∈ r.fields, f.lo + f.width ≤ 32
  apart : r.fields.Pairwise FieldRow.Apart
  own : ∀ f ∈ r.fields, f.rng.own = true

theorem findReg_mem {off i k : Nat} {r : RegRow} (h : findReg off = some (r, i, k)) : r ∈ regsOfWindow off := by
  unfold findReg at h
  split at h
  · cases h
  · obtain ⟨x, hx, hr⟩ := List.exists_of_findSome?_eq_some h
    obtain ⟨p, -, hp⟩ := Option.map_eq_some_iff.1 hr
    cases hp
    exact hx

/-- An ordinary write of an assigned register writes its word, field by field. -/
theorem State.storeWord_found (s : State) {off i k : Nat} {r : RegRow} (h : findReg off = some (r, i, k)) (word : Nat) :
    s.storeWord off word = s.setReg off (BitVec.ofNat 32 (r.fields.foldl (FieldRow.store word) (s.reg off).toNat)) := by
  simp only [State.storeWord, h]

/-- What each field of an assigned register holds after an ordinary write. -/
theorem State.bits_storeWord (s : State) {off i k : Nat} {r : RegRow} {f : FieldRow} (h : findReg off = some (r, i, k)) (hr : r.Laid)
    (hf : f ∈ r.fields) (word sofar : Nat) :
    bits ((s.storeWord off word).reg off).toNat f.lo f.width = f.stored word sofar (bits (s.reg off).toNat f.lo f.width) := by
  rw [s.storeWord_found h, State.reg_setReg_same, BitVec.toNat_ofNat, bits_mod_word _ _ _ (hr.fits f hf)]
  exact bits_foldl_store hr.apart hr.own hf word sofar _

/-! ## The windows in which a write only stores -/

/-- The GLB and TAL windows, and the CRU window. -/
def StoringWindow (off : Nat) : Prop := off < 0x200000 ∨ (0x1C00000 ≤ off ∧ off < 0x2000000)

/-- Every register of the GLB, TAL and CRU tables has fields that fit, lie apart and have ranges of their own. -/
theorem laid_storing : ∀ r ∈ regsGlb ++ regsTal ++ regsCru, r.Laid := by
  have hrows : ∀ r ∈ regsGlb ++ regsTal ++ regsCru, (∀ f ∈ r.fields, f.lo + f.width ≤ 32) ∧ r.fields.Pairwise FieldRow.Apart ∧
      ∀ f ∈ r.fields, f.rng.own = true := by decide
  intro r hr
  obtain ⟨hfits, hapart, hown⟩ := hrows r hr
  exact ⟨hfits, hapart, hown⟩

/-- In the GLB and TAL windows a register is of their two tables. -/
theorem regsOfWindow_low {off : Nat} (h : off < 0x200000) : regsOfWindow off = if off < 0x100000 then regsGlb else regsTal := by
  unfold regsOfWindow
  rw [if_pos h]

theorem regsOfWindow_cru {off : Nat} (hlo : 0x1C00000 ≤ off) (hhi : off < 0x2000000) : regsOfWindow off = regsCru := by
  simp (disch := omega) only [regsOfWindow, if_neg, if_pos]

theorem laid_of_storing {off i k : Nat} {r : RegRow} (hw : StoringWindow off) (h : findReg off = some (r, i, k)) : r.Laid := by
  have hmem := findReg_mem h
  refine laid_storing r ?_
  rcases hw with hlow | ⟨hlo, hhi⟩
  · rw [regsOfWindow_low hlow] at hmem
    split at hmem
    · exact List.mem_append_left _ (List.mem_append_left _ hmem)
    · exact List.mem_append_left _ (List.mem_append_right _ hmem)
  · rw [regsOfWindow_cru hlo hhi] at hmem
    exact List.mem_append_right _ hmem

/-- In those windows a write only stores, but for the two registers of TAL that act on one. -/
theorem State.writeBlock_storing (s : State) (src : Src) {off : Nat} (word : Nat) (hw : StoringWindow off) (hcal : off ≠ Reg.talCalCtrl)
    (hwall : off ≠ Reg.talWallCtrl) : s.writeBlock src off word = s.storeWord off word := by
  rcases hw with hw | ⟨hlo, hhi⟩
  · simp only [State.writeBlock, State.writeTal, if_pos hw, if_neg hcal, if_neg hwall, ite_self]
  · simp (disch := omega) only [State.writeBlock, if_neg, if_pos]

/-- The physical function and the Shift boss write whatever register the block answers for. -/
theorem State.writeReg_manages (s : State) {src : Src} {off : Nat} (word : Nat) (hm : manages src = true) (h : (findReg off).isSome = true)
    (ha : s.answers off = true) : s.writeReg src off word = s.writeBlock src off word := by
  have hopen : ¬ ((findReg off).isNone || !s.answers off) = true := by simp [ha, Option.isNone_iff_eq_none, Option.isSome_iff_ne_none.1 h]
  unfold State.writeReg
  rw [if_neg hopen]
  match src, hm with
  | .boss, _ => rfl
  | .fn 0, _ => rfl

theorem aligned_word {off : Nat} (h : off % 4 = 0) : aligned off false = true := by simp [aligned, h]

/-- An aligned 32-bit write is a write of one register. -/
theorem State.writeWide_word (s : State) (src : Src) {off word : Nat} (h : off % 4 = 0) (hw : word < 2 ^ 32) :
    s.writeWide src off word none = s.writeReg src off word := by
  simp only [State.writeWide, Option.isSome_none, aligned_word h, Bool.not_true, Bool.false_eq_true, if_false, Nat.mod_eq_of_lt hw]

/-- Settles O13: in those windows the write is an ordinary one, and leaves in each field what it leaves in that field alone. -/
theorem registerWriteStores : Obligations.RegisterWriteStores := by
  intro boss off word s r i k hfound halign hword hans hwin hcal hwall
  have hm : manages (if boss then .boss else .fn 0) = true := by cases boss <;> rfl
  have hstored : s.writeWide (if boss then .boss else .fn 0) off word none = s.storeWord off word := by
    rw [s.writeWide_word _ halign hword, s.writeReg_manages word hm (by simp [hfound]) hans, s.writeBlock_storing _ word hwin hcal hwall]
  refine ⟨s.storeWord off word, congrArg _ hstored, ?_, ?_⟩
  · intro f hf
    exact s.bits_storeWord hfound (laid_of_storing hwin hfound) hf word _
  · rw [s.storeWord_found hfound]
    exact s.setReg_regsOnly _ _

/-! ## Reads (R4, R10, R421) -/

/-- The state in which a register has lost the bits of a mask; nothing is written where there are none. -/
def State.cleared (s : State) (off mask : Nat) : State :=
  if mask = 0 then s else s.setReg off (s.reg off &&& ~~~(BitVec.ofNat 32 mask))

theorem State.reg_cleared (s : State) (off mask : Nat) : (s.cleared off mask).reg off = s.reg off &&& ~~~(BitVec.ofNat 32 mask) := by
  unfold State.cleared
  split
  · next h => rw [h]; exact (BitVec.and_allOnes).symm
  · exact s.reg_setReg_same _ _

theorem State.cleared_regsOnly (s : State) (off mask : Nat) : RegsOnly s (s.cleared off mask) [off] := by
  unfold State.cleared
  split
  · exact .refl s _
  · exact s.setReg_regsOnly _ _

@[simp] theorem State.cleared_host (s : State) (off mask : Nat) : (s.cleared off mask).host = s.host := by
  unfold State.cleared
  split <;> rfl

/-- A read of a register that its source sees gives the word shown without its WO bits, and clears its RC bits. -/
theorem State.readReg_seen (s : State) {src : Src} (who : Nat × Nat) {off i k : Nat} {r : RegRow} (h : findReg off = some (r, i, k))
    (hsee : s.sees src off = true) (hbeat : off ≠ Reg.talBeatLo) :
    s.readReg src who off = (s.shown who off - (s.shown who off &&& r.mask .wo), s.cleared off (r.mask .rc)) := by
  simp only [State.readReg, h, hsee, Bool.not_true, Bool.false_eq_true, if_false, if_neg hbeat]
  rfl

/-- A read of a register that its source does not see gives zero. -/
theorem State.readReg_unseen (s : State) {src : Src} (who : Nat × Nat) {off : Nat} (hsee : s.sees src off = false) :
    s.readReg src who off = (0, s) := by
  unfold State.readReg
  split
  · rfl
  · rw [hsee]
    rfl

/-- An aligned 32-bit read answers the word of one register. -/
theorem State.answerRead_word (s : State) (src : Src) (who : Nat × Nat) {off : Nat} (h : off % 4 = 0) :
    s.answerRead src who off false = (s.readReg src who off).2.emit (.regData src (leBytes (s.readReg src who off).1 4)) := by
  simp only [State.answerRead, State.readWide, aligned_word h, Bool.not_true, Bool.false_eq_true, if_false]

theorem leBytes_zero (n : Nat) : leBytes 0 n = zeros n := by
  induction n with
  | zero => rfl
  | succ n ih => simp only [leBytes, Nat.zero_div, ih, zeros, List.replicate_succ]

/-- Settles O14: a read of a register in its source's view clears its RC bits, and a read outside it changes nothing. -/
theorem registerReadAnswers : Obligations.RegisterReadAnswers := by
  intro src off s r i k hfound halign hbeat
  simp only [exec_readClearRegisterRead, execReadClearRegisterRead, s.answerRead_word src _ halign]
  constructor
  · intro hsee
    rw [s.readReg_seen _ hfound hsee hbeat]
    refine ⟨_, rfl, ⟨_, rfl, ?_⟩, s.reg_cleared off _, ?_⟩
    · rw [State.emit, State.cleared_host]
    · have hregs := s.cleared_regsOnly off (r.mask .rc)
      rw [← s.cleared_host off (r.mask .rc)]
      exact hregs
  · intro hsee
    rw [s.readReg_unseen _ hsee]
    refine ⟨_, rfl, ?_⟩
    rw [State.emit, leBytes_zero]

/-! ## Other accesses (R10) -/

/-- HIF_ACC_ERR holds its first access until VALID is cleared. -/
theorem State.badAccess_logged (s : State) (src : Src) (off : Nat) (write : Bool) (h : s.rd F.hifAccErr_valid = 1) :
    s.badAccess src off write = s := by
  simp [State.badAccess, State.on, h]

theorem State.badAccess_free (s : State) (src : Src) (off : Nat) (write : Bool) (h : s.rd F.hifAccErr_valid = 0) :
    s.badAccess src off write =
      (((s.wr F.hifAccErr_valid 1).wr F.hifAccErr_offset off).wr F.hifAccErr_func (funcOf src)).wr F.hifAccErr_write (b2n write) := by
  simp [State.badAccess, State.on, h]

/-- The log is of one register. -/
theorem State.badAccess_regsOnly (s : State) (src : Src) (off : Nat) (write : Bool) :
    RegsOnly s (s.badAccess src off write) [F.hifAccErr_valid.off] := by
  unfold State.badAccess
  split
  · exact .refl s _
  · exact (((s.wr_regsOnly F.hifAccErr_valid _).trans (State.wr_regsOnly _ F.hifAccErr_offset _)).trans
      (State.wr_regsOnly _ F.hifAccErr_func _)).trans (State.wr_regsOnly _ F.hifAccErr_write _)

@[simp] theorem State.badAccess_host (s : State) (src : Src) (off : Nat) (write : Bool) : (s.badAccess src off write).host = s.host := by
  unfold State.badAccess
  split <;> rfl

/-- What the log holds of the first access. -/
theorem State.badAccess_fields (s : State) (src : Src) (off : Nat) (write : Bool) (h : s.rd F.hifAccErr_valid = 0) :
    let u := s.badAccess src off write
    u.rd F.hifAccErr_valid = 1 ∧ u.rd F.hifAccErr_offset = off % 2 ^ 26 ∧ u.rd F.hifAccErr_func = funcOf src % 2 ^ 4 ∧
      u.rd F.hifAccErr_write = b2n write % 2 ^ 1 := by
  rw [s.badAccess_free src off write h]
  simp (disch := decide) only [State.rd_wr_apart, State.rd_wr_same]
  exact ⟨rfl, rfl, rfl, rfl⟩

/-- How an access without effect ends: a read is answered with zeros. -/
def State.zerosTo (s : State) (src : Src) (len : Nat) (write : Bool) : State :=
  if write then s else s.emit (.regData src (zeros len))

theorem State.zerosTo_out (s : State) (src : Src) (len : Nat) (write : Bool) :
    (s.zerosTo src len write).host.out = if write then s.host.out else .regData src (zeros len) :: s.host.out := by
  cases write <;> rfl

theorem State.zerosTo_reg (s : State) (src : Src) (len : Nat) (write : Bool) (off : Nat) : (s.zerosTo src len write).reg off = s.reg off := by
  cases write <;> rfl

@[simp] theorem State.zerosTo_rd (s : State) (src : Src) (len : Nat) (write : Bool) (f : FieldRef) :
    (s.zerosTo src len write).rd f = s.rd f := by
  unfold State.rd
  rw [s.zerosTo_reg]

/-- Nothing but the answer changes. -/
theorem State.zerosTo_host (s : State) (src : Src) (len : Nat) (write : Bool) : { s.zerosTo src len write with host := s.host } = s := by
  cases write <;> rfl

/-- An access that is not aligned 32-bit or 64-bit is logged and ends without effect. -/
theorem execUnalignedRegisterAccess_odd (s : State) (src : Src) {off len : Nat} (write : Bool) (h : plainAccess off len = false) :
    execUnalignedRegisterAccess src off len write s = .next ((s.badAccess src off write).zerosTo src len write) := by
  simp [execUnalignedRegisterAccess, h, State.zerosTo]

/-- An aligned one of unassigned offsets ends without effect. -/
theorem execUnalignedRegisterAccess_unassigned (s : State) (src : Src) {off len : Nat} (write : Bool) (h : plainAccess off len = true)
    (hlow : findReg off = none) (hhigh : findReg (off + 4) = none) :
    execUnalignedRegisterAccess src off len write s = .next (s.zerosTo src len write) := by
  simp [execUnalignedRegisterAccess, h, hlow, hhigh, State.zerosTo]

/-- Settles O15: the log takes the first odd access, and an access of unassigned offsets is no odd one. -/
theorem oddAccessIsLogged : Obligations.OddAccessIsLogged := by
  intro src off len write s hoff
  rw [exec_unalignedRegisterAccess]
  constructor
  · intro hodd
    rw [execUnalignedRegisterAccess_odd s src write hodd]
    have hback : { (s.badAccess src off write).zerosTo src len write with host := s.host } = s.badAccess src off write := by
      rw [← s.badAccess_host src off write]
      exact State.zerosTo_host _ _ _ _
    refine ⟨_, rfl, by rw [State.zerosTo_out, State.badAccess_host], fun hfree => ?_, fun hfull => ?_⟩
    · obtain ⟨hvalid, hoffset, hfunc, hwrite⟩ := s.badAccess_fields src off write hfree
      simp only [State.zerosTo_rd, hback]
      refine ⟨hvalid, hoffset.trans (Nat.mod_eq_of_lt hoff), hwrite.trans ?_, hfunc, s.badAccess_regsOnly src off write⟩
      cases write <;> rfl
    · exact hback.trans (s.badAccess_logged src off write hfull)
  · intro hplain hlow hhigh
    rw [execUnalignedRegisterAccess_unassigned s src write hplain hlow hhigh]
    exact ⟨_, rfl, State.zerosTo_out _ _ _ _, State.zerosTo_host _ _ _ _⟩

end Sys2Proof.Machine
end

section
/-! PROOFS. Program time and the limit of waits (R53, R54). -/
namespace Sys2Proof.Machine

/-! ## Fences and barriers that last too long (R53) -/

/-- A strand that waits at a fence or a barrier stands at an instruction of the SYN class. -/
theorem Strand.waitsAt_fence {t : Strand}
    (h : (∃ i, t.wait = .bar i ∨ t.wait = .barFence i) ∨ t.wait = .fence ∨ t.wait = .wfence ∨ t.wait = .cfence) :
    ∃ e, t.waitsAt = some e := by
  unfold Strand.waitsAt
  rcases h with ⟨i, h | h⟩ | h | h | h <;> rw [h] <;> exact ⟨_, rfl⟩

theorem State.limitPassed_iff (s : State) (j : Job) (since : Nat) :
    s.limitPassed j since = true ↔ s.rd (F.actCtrl_fenceLimit j.act) ≠ 0 ∧ since + s.rd (F.actCtrl_fenceLimit j.act) ≤ s.tally.beat := by
  simp only [State.limitPassed, Bool.and_eq_true, bne_iff_ne, decide_eq_true_eq]
  exact Iff.rfl

/-- What FENCE_TIMEOUT does to a strand that waits in vain. -/
theorem execFenceTimeout_waiting {s : State} {strand : Nat} {t : Strand} {j : Job} {e : Nat × Nat × Nat} (ht : s.strand? strand = some t)
    (hj : s.job? t.job = some j) (hd : s.fenceDone t = false) (he : t.waitsAt = some e) :
    execFenceTimeout strand s =
      .next (if s.limitPassed j t.since then s.strandFault strand e.1 e.2.1 e.2.2 cFence 0 else s) := by
  simp only [execFenceTimeout, ht, hj, he, hd, Bool.not_false, Bool.and_true]

/-- Settles O22: past the limit FENCE_TIMEOUT is the strand's fault, and before it nothing. -/
theorem fenceTimeoutFaults : Obligations.FenceTimeoutFaults := by
  intro strand s t j ht hj hd hw limit
  obtain ⟨e, he⟩ := Strand.waitsAt_fence hw
  rw [exec_fenceTimeout, execFenceTimeout_waiting ht hj hd he]
  constructor
  · intro hlim hpast hst
    rw [if_pos ((s.limitPassed_iff j t.since).2 ⟨hlim, hpast⟩)]
    obtain ⟨-, hends, hstatus, -⟩ := State.strandFault_does (cls := e.1) (func := e.2.1) (pc := e.2.2) (cause := cFence) (addr := 0)
      (State.anyStrand_of_strand ht) hj
    exact ⟨_, rfl, hends, _, hstatus hst, rfl, rfl⟩
  · intro hnot
    rw [if_neg]
    rw [State.limitPassed_iff]
    omega

/-! ## WAITB (R54) -/

/-- WAITB_RELEASE of a strand whose beat has come. -/
theorem execWaitbRelease_due {s : State} {strand n p : Nat} {v : Bool} {t : Strand} (ht : s.strand? strand = some t)
    (hw : t.wait = .waitb n p v) (hn : n ≤ s.tally.beat) :
    execWaitbRelease strand s = .next ((s.modStrand strand fun u => { u.setP p v with wait := .no }).fired 1) := by
  have hnow : n ≤ s.now := hn
  simp only [execWaitbRelease, ht, hw, if_pos hnow]

/-- A change of the strand that has moved on is one change of the strand. -/
theorem State.moved_modStrand (s : State) (o : Insn) (t : Strand) (g : Strand → Strand) :
    (s.moved o t).modStrand o.strand g = s.modStrand o.strand fun u => g { u with pc := nextPc t o, wait := .no } := by
  rw [State.moved, State.modStrand_modStrand]
  exact fun _ => rfl

/-- A body that changes only the strand, once it has moved on. -/
theorem issue_becomes {s : State} {f : Form} {o : Insn} {t : Strand} {j : Job} {body : Strand → Job → M Unit} (g : Strand → Strand)
    (h : Issues s f o t j) (hb : (body t j).run (s.moved o t) = .ok () ((s.moved o t).modStrand o.strand g)) (hid : ∀ u, (g u).id = u.id)
    (hend : ∀ u, (g u).ended = u.ended) : CompletesWith (issue f o s body) fun u => StrandBecomes s u o (g (t.after o)) := by
  refine ⟨_, issue_ok h hb, ?_⟩
  rw [State.moved_modStrand]
  exact s.modStrand_becomes o _ h.strand (fun u => hid _) (fun u => hend _)

theorem execTalWaitb_now {s : State} {o : Insn} {t : Strand} {j : Job} (h : Issues s Form.talWaitb o t j)
    (hn : min (t.getS o.a).toNat (deadlineOf j) ≤ s.tally.beat) : CompletesWith (execTalWaitb o s) fun u =>
      StrandBecomes s u o ((t.after o).setP o.dst (decide ((t.getS o.a).toNat ≤ deadlineOf j))) := by
  refine issue_becomes (fun u => u.setP o.dst _) h ?_ (fun u => u.setP_id _ _) (fun u => u.setP_ended _ _)
  rw [M.run_bind_ok (M.run_get _), if_pos (show _ ≤ (s.moved o t).now from hn)]
  rfl

theorem execTalWaitb_waits {s : State} {o : Insn} {t : Strand} {j : Job} (h : Issues s Form.talWaitb o t j)
    (hn : s.tally.beat < min (t.getS o.a).toNat (deadlineOf j)) (hr : (s.moved o t).eventRoom = true) :
    CompletesWith (execTalWaitb o s) fun u => StrandBecomes s u o { t.after o with
      wait := .waitb (min (t.getS o.a).toNat (deadlineOf j)) o.dst (decide ((t.getS o.a).toNat ≤ deadlineOf j)), since := s.tally.beat } := by
  refine issue_becomes (fun u => { u with wait := .waitb _ o.dst _, since := s.tally.beat }) h ?_ (fun _ => rfl) (fun _ => rfl)
  rw [M.run_bind_ok (M.run_get _), if_neg (show ¬ _ ≤ (s.moved o t).now from Nat.not_le.2 hn), M.run_bind_ok (M.run_get _), hr]
  rfl

/-- Settles O20: the value of WAITB is fixed at issue, and its release writes it. -/
theorem beatAsProgramTime : Obligations.BeatAsProgramTime := by
  intro o s t j b d
  refine ⟨fun h => ?_, fun h => ?_, fun h => ?_, fun h hn => ?_, fun h hn hr => ?_, fun n p v ht hw hn => ?_⟩
  · exact scalar_writesS h o.dst fun _ => BitVec.ofNat 64 s.now
  · exact scalar_writesS h o.dst fun _ => BitVec.ofNat 64 s.tally.stable
  · exact scalar_writesS h o.dst fun _ => BitVec.ofNat 64 (s.now % 2 ^ 54 * 1024 + s.tally.sub)
  · obtain ⟨u, hu, hb⟩ := execTalWaitb_now h hn
    exact ⟨u, hu, _, hb, Strand.getP_setP _ _ _, fun m hm => Strand.getP_setP_other _ _ hm, Strand.setP_eta _ _ _⟩
  · exact execTalWaitb_waits h hn hr
  · have hid : ∀ u : Strand, ({ u.setP p v with wait := .no } : Strand).id = u.id := fun u => u.setP_id p v
    have hkeep : ∀ m, ({ t.setP p v with wait := .no } : Strand).getP m = (t.setP p v).getP m := fun _ => rfl
    refine ⟨_, execWaitbRelease_due ht hw hn, { t.setP p v with wait := .no }, ?_, ?_, fun m hm => ?_, ?_, ?_⟩
    · exact s.strand_modStrand o.strand _ ht hid fun u => u.setP_ended p v
    · rw [hkeep, Strand.getP_setP]
    · rw [hkeep, Strand.getP_setP_other _ _ hm]
    · exact congrArg (fun u : Strand => { u with wait := Wait.no }) (t.setP_eta p v)
    · exact s.modStrand_only o.strand _ hid

end Sys2Proof.Machine
end

section
/-! PROOFS. SCL.LD of node memory (R46, R82, R87). -/
namespace Sys2Proof.Machine

/-- A scalar access that passes the checks of R34, R82, R44 and R42 has its address. -/
theorem scalarAt_run {s : State} {j : Job} {v : BitVec 128} {off n : Nat} (write : Bool) (hv : Usable v [0] write)
    (hin : off + n ≤ (decodeDsc v).len) (halign : ((decodeDsc v).base + off) % n = 0)
    (hmay : MayUse s j (if write then .write else .read) ((decodeDsc v).base + off) n) :
    (scalarAt j v off n write).run s = .ok ((decodeDsc v).base + off) s := by
  unfold scalarAt within
  rw [useDsc_pure hv, M.bind_pure, need_pure _ _ (decide_eq_true hin), M.bind_pure]
  simp only []
  rw [need_pure _ _ (beq_iff_eq.2 halign), M.bind_pure, M.run_bind_ok (M.run_get s), M.run_bind_ok (checkAccess_run _ hmay)]
  rfl

/-- A read of memory leaves the stores that wait behind the interlock. -/
theorem State.forward_reads {s u : State} (h : ReadsOnly s u) (strand a : Nat) (b : List Byte) : u.forward strand a b = s.forward strand a b := by
  unfold State.forward
  rw [h.wnz]

/-- Memory that a job may use lies in a stack or in a crew store. -/
theorem locate_of_mayUse {s : State} {j : Job} {r : Right} {a n : Nat} (h : MayUse s j r a n) (hn : 0 < n) :
    (∃ t o, locate a = .stack t o) ∨ ∃ c o, locate a = .crew c o := by
  obtain ⟨p, hp, -⟩ := h a (Nat.le_refl a) (by omega)
  exact physOf_locate hp

/-- SCL.LD of node memory: the read, and the destination written. -/
theorem execSclLd_memory {s : State} {o : Insn} {t : Strand} {j : Job} {n a : Nat} (h : Issues s Form.sclLd o t j) (hn : n = 2 ^ o.fld 0 2)
    (ha : a = (decodeDsc (t.getD o.a)).base + (t.getS o.b).toNat) (hv : Usable (t.getD o.a) [0] false)
    (hin : (t.getS o.b).toNat + n ≤ (decodeDsc (t.getD o.a)).len) (halign : a % n = 0) (hmay : MayUse s j .read a n) (hread : Readable s a n) :
    execSclLd o s = .next (((s.moved o t).readMem 0 a n).2.2.modStrand o.strand fun u =>
      u.setS o.dst (extended o n (leNat (s.forward t.id a (s.readMem 0 a n).1)))) := by
  refine issue_ok (a := ()) h ?_
  have hpos : 0 < n := hn ▸ Nat.two_pow_pos _
  have hsc := scalarAt_run (s := s.moved o t) false hv hin (ha ▸ halign) (ha ▸ hmay.moved o t)
  have hrd : (readOrd a n).run (s.moved o t) = _ := readOrd_run (s := s.moved o t) hread
  have hfwd : ((s.moved o t).readMem 0 a n).2.2.forward t.id a ((s.moved o t).readMem 0 a n).1 = s.forward t.id a (s.readMem 0 a n).1 := by
    rw [State.forward_reads (ReadsOnly.readMem _ _ _ _), State.readMem_moved]
    rfl
  rw [← ha] at hsc
  simp only [← hn]
  rw [M.run_bind_ok hsc]
  rcases locate_of_mayUse hmay hpos with ⟨k, x, e⟩ | ⟨k, x, e⟩ <;>
  · simp only [e]
    rw [M.run_bind_ok hrd, M.run_bind_ok (M.run_get _), hfwd]
    rfl

/-- Settles O10: the strand takes the bytes read, and the read changes no strand and no byte. -/
theorem scalarLoad : Obligations.ScalarLoad := by
  intro o s t j h n a hv hin halign hmay hread v
  have hreads := ReadsOnly.readMem (s.moved o t) 0 a n
  have hstrand : ((s.moved o t).readMem 0 a n).2.2.strand? o.strand = some (t.after o) := by
    unfold State.strand?
    rw [hreads.fil]
    exact s.strand_modStrand o.strand _ h.strand (fun _ => rfl) (fun _ => rfl)
  refine ⟨_, execSclLd_memory h rfl rfl hv hin halign hmay hread, (t.after o).setS o.dst (extended o n v), ?_, ?_, fun m hm => ?_, ?_, fun k hk => ?_, ?_, fun p => ?_⟩
  · exact State.strand_modStrand _ _ _ hstrand (fun u => u.setS_id _ _) (fun u => u.setS_ended _ _)
  · exact Strand.getS_setS _ _ _
  · exact Strand.getS_setS_other _ _ hm
  · exact Strand.setS_eta _ _ _
  · rw [State.anyStrand_modStrand_other _ _ (fun u => u.setS_id _ _) hk]
    unfold State.anyStrand? State.strand?
    rw [hreads.fil]
    exact s.anyStrand_modStrand_other _ (fun _ => rfl) hk
  · exact congrArg (fun u : State => { u with fil := { u.fil with strands := s.fil.strands } }) hreads
  · show MemSt.byte _ p = _
    unfold MemSt.byte
    rw [State.modStrand_mem, hreads.bytes]
    rfl

end Sys2Proof.Machine
end

section
/-! PROOFS. The completion points of engine instructions (R47, R48, R291). -/
namespace Sys2Proof.Machine
open Sys2Proof.Claims

/-! ## One strand set, and nothing else touched -/

/-- A strand of a later state is `t`; every other strand and all of memory are as in the earlier one. -/
structure StrandIs (s u : State) (id : Nat) (t : Strand) : Prop where
  strand : u.strand? id = some t
  others : ∀ k, k ≠ id → u.anyStrand? k = s.anyStrand? k
  mem : u.mem = s.mem

theorem StrandIs.refl {s : State} {id : Nat} {t : Strand} (h : s.strand? id = some t) : StrandIs s s id t := ⟨h, fun _ _ => rfl, rfl⟩

/-- Strands are found in the list of strands alone. -/
theorem State.strand_congr {u w : State} (h : w.fil.strands = u.fil.strands) (k : Nat) : w.strand? k = u.strand? k := by
  unfold State.strand?
  rw [h]

theorem State.anyStrand_congr {u w : State} (h : w.fil.strands = u.fil.strands) (k : Nat) : w.anyStrand? k = u.anyStrand? k := by
  unfold State.anyStrand?
  rw [State.strand_congr h, h]

/-- A step that leaves the strands and memory. -/
theorem StrandIs.congr {s u w : State} {id : Nat} {t : Strand} (h : StrandIs s u id t) (hs : w.fil.strands = u.fil.strands)
    (hm : w.mem = u.mem) : StrandIs s w id t :=
  ⟨(State.strand_congr hs id).trans h.strand, fun k hk => (State.anyStrand_congr hs k).trans (h.others k hk), hm.trans h.mem⟩

/-- A change of the strand. -/
theorem StrandIs.modStrand {s u : State} {id : Nat} {t : Strand} (h : StrandIs s u id t) (f : Strand → Strand) (hid : ∀ v, (f v).id = v.id)
    (hend : ∀ v, (f v).ended = v.ended) : StrandIs s (u.modStrand id f) id (f t) :=
  ⟨u.strand_modStrand id f h.strand hid hend, fun k hk => (u.anyStrand_modStrand_other f hid hk).trans (h.others k hk), h.mem⟩

/-- A handle bound or dropped. -/
theorem StrandIs.bindHandle {s u : State} {id : Nat} {t : Strand} (h : StrandIs s u id t) (reg : Nat) (tile : Option Nat) :
    StrandIs s (u.bindHandle id reg tile) id (t.setT reg tile) := by
  have hb := u.bindHandle_does id reg tile (State.anyStrand_of_strand h.strand)
  exact (h.modStrand (fun v => v.setT reg tile) (fun _ => rfl) fun _ => rfl).congr hb.strands hb.mem

/-! ## Effects that reach no memory -/

/-- One effect on a register of the strand, or on a counter. -/
theorem StrandIs.applyEffect {s u : State} {o : Origin} {t : Strand} {e : Effect} (h : StrandIs s u o.strand t) (he : stays e = true) :
    StrandIs s (u.applyEffect o e) o.strand (onStrand t e) := by
  cases e with
  | setS r v => exact h.modStrand (fun t => t.setS r v) (fun t => t.setS_id r v) fun t => t.setS_ended r v
  | setD r v => exact h.modStrand (fun t => t.setD r v) (fun _ => rfl) fun _ => rfl
  | setP r v => exact h.modStrand (fun t => t.setP r v) (fun t => t.setP_id r v) fun t => t.setP_ended r v
  | setQ r v => exact h.modStrand (fun t => t.setQ r (some v)) (fun _ => rfl) fun _ => rfl
  | bindT r tile => exact h.bindHandle r (some tile)
  | dropT r => exact h.bindHandle r none
  | count off lo w n => exact h.congr rfl rfl
  | telem c n => exact h.congr rfl rfl
  | mem | host | tile | count64 | faultAt | mask => cases he

/-- A list of such effects, in its order. -/
theorem StrandIs.applyEffects {s : State} {o : Origin} {l : List Effect} (hl : ∀ e ∈ l, stays e = true) {u : State} {t : Strand}
    (h : StrandIs s u o.strand t) : StrandIs s (l.foldl (State.applyEffect o) u) o.strand (l.foldl onStrand t) := by
  induction l generalizing u t with
  | nil => exact h
  | cons e l ih =>
    obtain ⟨he, hl⟩ := List.forall_mem_cons.1 hl
    exact ih hl (h.applyEffect he)

/-- The interlock holds no such effect, and register space is not reached. -/
theorem State.holds_of_stays (s : State) {e : Effect} (h : stays e = true) : s.holds e = false := by
  cases e with
  | mem => cases h
  | _ => rfl

theorem State.registerEffect_of_stays (s : State) {e : Effect} (h : stays e = true) : s.registerEffect e = s := by
  cases e with
  | mem => cases h
  | _ => rfl

/-! ## The completion point (R47) -/

/-- Whether an engine finishes an instruction without waiting for anything else. -/
def Gate.open? (g : Gate) (now : Nat) : Bool :=
  match g with
  | .engine => true
  | .commit b => decide (b ≤ now)
  | _ => false

theorem Gate.open_of {g : Gate} {now : Nat} (h : g = .engine ∨ ∃ b, g = .commit b ∧ b ≤ now) : g.open? now = true := by
  rcases h with rfl | ⟨b, rfl, hb⟩
  · rfl
  · exact decide_eq_true hb

theorem Gate.shut_of {g : Gate} {now : Nat} (he : g ≠ .engine) (hc : ∀ b, g = .commit b → now < b) : g.open? now = false := by
  cases g with
  | engine => exact absurd rfl he
  | commit b => exact decide_eq_false (Nat.not_le.2 (hc b rfl))
  | _ => rfl

/-- What ENGINE_COMPLETION does to an instruction in flight. -/
theorem execEngineCompletion_flight {s : State} {strand tag : Nat} {t : Strand} {fl : Inflight} (ht : s.strand? strand = some t)
    (hf : t.flight? tag = some fl) : execEngineCompletion strand tag s = .next (
      if !fl.gate.open? s.tally.beat then s
      else if fl.effects.any s.holds then s.complete strand tag
      else fl.effects.foldl State.registerEffect (s.complete strand tag)) := by
  simp only [execEngineCompletion, State.anyStrand_of_strand ht, Option.bind_some, hf]
  rfl

/-- The state in which a strand's instruction has left its tracking. -/
def State.untracked (s : State) (strand tag : Nat) : State :=
  s.modStrand strand fun u => { u with inflight := u.inflight.filter (·.tag != tag) }

/-- A completion that the interlock does not hold. -/
theorem State.complete_free {s : State} {strand tag : Nat} {t : Strand} {fl : Inflight} (ht : s.strand? strand = some t)
    (hf : t.flight? tag = some fl) (hh : ∀ e ∈ fl.effects, s.holds e = false) :
    s.complete strand tag = (fl.effects.foldl (State.applyEffect ⟨strand, t.job, fl.cls, fl.func, fl.pc⟩) (s.untracked strand tag)).closeOreds := by
  have hany : fl.effects.any s.holds = false := List.any_eq_false.2 fun e he => by simp [hh e he]
  simp only [State.complete, State.anyStrand_of_strand ht, hf, hany]
  rfl

/-- A fold whose every step leaves its state. -/
theorem foldl_eq_self {α β : Type} {f : β → α → β} {l : List α} {b : β} (h : ∀ a ∈ l, f b a = b) : l.foldl f b = b := by
  induction l with
  | nil => rfl
  | cons a l ih =>
    obtain ⟨ha, hl⟩ := List.forall_mem_cons.1 h
    rw [List.foldl_cons, ha, ih hl]

/-- Where the engine is done and nothing holds the effects or goes to register space, they take place. -/
theorem execEngineCompletion_done {s : State} {strand tag : Nat} {t : Strand} {fl : Inflight} (ht : s.strand? strand = some t)
    (hf : t.flight? tag = some fl) (hg : fl.gate.open? s.tally.beat = true) (hh : ∀ e ∈ fl.effects, s.holds e = false)
    (hr : ∀ e ∈ fl.effects, ∀ u : State, u.registerEffect e = u) : execEngineCompletion strand tag s =
      .next (fl.effects.foldl (State.applyEffect ⟨strand, t.job, fl.cls, fl.func, fl.pc⟩) (s.untracked strand tag)).closeOreds := by
  have hany : fl.effects.any s.holds = false := List.any_eq_false.2 fun e he => by simp [hh e he]
  have hfold : ∀ u : State, fl.effects.foldl State.registerEffect u = u := fun u => foldl_eq_self fun e he => hr e he u
  rw [execEngineCompletion_flight ht hf, hg, hany, hfold, State.complete_free ht hf hh]
  rfl

theorem StrandIs.untracked {s : State} {strand : Nat} {t : Strand} (h : s.strand? strand = some t) (tag : Nat) :
    StrandIs s (s.untracked strand tag) strand { t with inflight := t.inflight.filter (·.tag != tag) } :=
  (StrandIs.refl h).modStrand _ (fun _ => rfl) fun _ => rfl

theorem StrandIs.closeOreds {s u : State} {id : Nat} {t : Strand} (h : StrandIs s u id t) : StrandIs s u.closeOreds id t := h.congr rfl rfl

/-! ## Bytes stored in node memory -/

/-- The first byte of a range that can be stored is memory, not register space. -/
theorem registerAt_of_physOf {a : Nat} (h : (physOf a).isSome = true) : registerAt a = none := by
  obtain ⟨p, hp⟩ := Option.isSome_iff_exists.1 h
  unfold registerAt
  rcases physOf_locate hp with ⟨k, x, e⟩ | ⟨k, x, e⟩ <;> rw [e]

/-- An ordinary write's effect where nothing holds or damages the range: the bytes stored, and the strands as they were. -/
theorem State.applyEffect_mem {s : State} (o : Origin) {a : Nat} {data : List Byte} (hw : s.mem.wf = true)
    (hh : s.holder true a data.length = none) (hs : Writable s a data.length) :
    Stores s (s.applyEffect o (.mem 0 a data)) a data ∧ (s.applyEffect o (.mem 0 a data)).fil.strands = s.fil.strands := by
  have hord : Stores s (s.ordWrite a data) a data := by
    unfold State.ordWrite
    rw [hh]
    exact (State.writeMem_stores hw hs).2.1
  have hfil : (s.ordWrite a data).fil = s.fil := s.ordWrite_fil a data .nobody
  cases hreg : registerAt a with
  | none =>
    simp only [State.applyEffect, hreg]
    exact ⟨hord, congrArg FilauxSt.strands hfil⟩
  | some off =>
    have hnil : data = [] := by
      cases data with
      | nil => rfl
      | cons b l =>
        have hfirst := registerAt_of_physOf (hs.1 0 (by simp))
        rw [Nat.add_zero, hreg] at hfirst
        cases hfirst
    subst hnil
    have hstay : ∀ u : State, u.mem = s.mem → Stores s u a [] := fun u hu => ⟨fun i hi => by simp at hi, fun x _ => by rw [hu]⟩
    simp only [State.applyEffect, hreg]
    split
    · exact ⟨hstay _ rfl, rfl⟩
    · have hbad := (s.badAccess_regsOnly .boss off true).2
      exact ⟨hstay _ (by have := congrArg State.mem hbad; exact this), by have := congrArg (fun u : State => u.fil.strands) hbad; exact this⟩

/-- Such an effect is no access of a register, when the write is in order. -/
theorem State.registerEffect_mem {s : State} {a : Nat} {data : List Byte} (hs : Writable s a data.length) (u : State) :
    u.registerEffect (.mem 0 a data) = u := by
  cases data with
  | nil =>
    unfold State.registerEffect
    simp only [List.length_nil, plainAccess]
    split <;> rfl
  | cons b l =>
    have hfirst := registerAt_of_physOf (hs.1 0 (by simp))
    rw [Nat.add_zero] at hfirst
    simp only [State.registerEffect, hfirst]

/-- Settles O30: an open gate lets the effects take place on the strand that no longer tracks the instruction; a shut one leaves the state. -/
theorem engineCompletes : Obligations.EngineCompletes := by
  intro s strand tag t fl ht hf left others
  refine ⟨fun hgate => ⟨fun hall => ?_, fun a data heff hcan hhold hwr => ?_, fun off lo width n heff hfit => ?_⟩, fun he hc => ?_⟩
  · have hstay := List.all_eq_true.1 hall
    have hdone := ((StrandIs.untracked ht tag).applyEffects (o := ⟨strand, t.job, fl.cls, fl.func, fl.pc⟩) hstay).closeOreds
    exact ⟨_, execEngineCompletion_done ht hf (Gate.open_of hgate) (fun e he => s.holds_of_stays (hstay e he))
      (fun e he u => u.registerEffect_of_stays (hstay e he)), hdone.strand, hdone.others, hdone.mem⟩
  · have hmem : ∀ e ∈ fl.effects, e = .mem 0 a data := fun e he => by rw [heff] at he; exact List.mem_singleton.1 he
    have hdone := execEngineCompletion_done ht hf (Gate.open_of hgate)
      (fun e he => by rw [hmem e he]; simp [State.holds, hhold]) (fun e he u => by rw [hmem e he]; exact State.registerEffect_mem hwr u)
    rw [heff] at hdone
    obtain ⟨hst, hsame⟩ := State.applyEffect_mem (s := s.untracked strand tag) ⟨strand, t.job, fl.cls, fl.func, fl.pc⟩
      (State.canonical_mem hcan) hhold hwr
    have hleft := StrandIs.untracked ht tag
    exact ⟨_, hdone, (State.strand_congr hsame strand).trans hleft.strand, fun k hk => (State.anyStrand_congr hsame k).trans (hleft.others k hk), hst⟩
  · have hcnt : ∀ e ∈ fl.effects, stays e = true := fun e he => by rw [heff] at he; rw [List.mem_singleton.1 he]; rfl
    have hdone := execEngineCompletion_done ht hf (Gate.open_of hgate) (fun e he => s.holds_of_stays (hcnt e he))
      (fun e he u => u.registerEffect_of_stays (hcnt e he))
    rw [heff] at hdone
    have hleft := (StrandIs.untracked ht tag).congr (w := ((s.untracked strand tag).bump ⟨off, lo, width⟩ n).closeOreds) rfl rfl
    exact ⟨_, hdone, hleft.strand, hleft.others, hleft.mem, State.rd_bump_same s ⟨off, lo, width⟩ n hfit⟩
  · rw [exec_engineCompletion, execEngineCompletion_flight ht hf, Gate.shut_of he hc]
    rfl

end Sys2Proof.Machine
end

section
/-! PROOFS. The laws of jobs: what a change of one job leaves of the others, the end of a loader call, and the starts of jobs that wait for cores. -/
namespace Sys2Proof.Machine
open Sys2Proof.Claims

/-! ## Jobs found by their identifiers -/

/-- Jobs are found in the list of jobs alone. -/
theorem State.job_congr {s u : State} (h : u.fil.jobs = s.fil.jobs) (id : Nat) : u.job? id = s.job? id := by
  unfold State.job?
  rw [h]

/-- What holds of every job holds of every job after one was changed, where the change makes it hold. -/
theorem State.forall_modJob {s : State} {id : Nat} {f : Job → Job} {P : Job → Prop} (hf : ∀ k ∈ s.fil.jobs, k.id = id → P (f k))
    (h : ∀ k ∈ s.fil.jobs, k.id ≠ id → P k) : ∀ k ∈ (s.modJob id f).fil.jobs, P k := by
  intro k hk
  obtain ⟨a, ha, rfl⟩ := List.mem_map.1 hk
  by_cases he : a.id = id
  · simpa [he] using hf a ha he
  · simpa [he] using h a ha he

/-- A routine is found in the list of routines alone. -/
theorem State.routineOf_congr {s u : State} {j k : Job} (h : u.fil.routines = s.fil.routines) (ha : k.act = j.act)
    (hr : k.desc.routine = j.desc.routine) : u.routineOf k = s.routineOf j := by
  unfold State.routineOf
  rw [h, ha, hr]

/-! ## Starts (R110) -/

/-- A job whose crews have no usable core does not start. -/
theorem State.start_noCores {s : State} {j : Job} (r : Routine) (hc : s.coresOf j.crews = []) (hn : 0 < j.count) : s.start? j r = none := by
  simp only [State.start?, State.idleCores, hc, List.filter_nil, List.take_nil, List.length_nil, if_pos hn]

/-- Nothing starts where every job that waits for cores has none. -/
theorem State.tryStarts_noCores {s : State} (h : ∀ k ∈ s.fil.jobs, k.phase = .cores → s.coresOf k.crews = [] ∧ 0 < k.count) :
    s.tryStarts = s := by
  unfold State.tryStarts
  refine foldl_eq_self fun k hk => ?_
  obtain ⟨hmem, hphase⟩ := List.mem_filter.1 hk
  obtain ⟨hc, hn⟩ := h k hmem (beq_iff_eq.1 hphase)
  cases s.routineOf k with
  | none => rfl
  | some r => simp only [State.start_noCores r hc hn, Option.getD_none]

/-- Nothing starts where no job waits for cores. -/
theorem State.tryStarts_idle {s : State} (h : ∀ k ∈ s.fil.jobs, k.phase ≠ .cores) : s.tryStarts = s :=
  State.tryStarts_noCores fun k hk hp => absurd hp (h k hk)

/-! ## Loader calls (R26) -/

theorem State.loaderCall_some {s : State} {job op : Nat} {j : Job} (h : s.loaderCall job op = some j) :
    s.job? job = some j ∧ j.phase = .loader ∧ j.desc.routine = 0 ∧ j.desc.arg 1 = op := by
  unfold State.loaderCall at h
  split at h
  · next k hk =>
    split at h
    · next hc =>
      cases h
      simp only [Bool.and_eq_true, beq_iff_eq] at hc
      exact ⟨hk, hc.1.1, hc.1.2, hc.2⟩
    · cases h
  · cases h

/-- The end of a loader call gives its job the status, DETAIL, RESULT and result area. -/
theorem State.endLoader_returned {u : State} {job : Nat} {j : Job} (hj : u.job? job = some j) (hp : j.phase = .loader)
    (status detail result : Nat) (ret : List Byte) : Returned (u.endLoader job status detail result ret) j status detail result ret := by
  have hid := State.job_id hj
  subst hid
  have hdone := State.job_modJob (fun k : Job => if k.phase != .loader then k else
    { k with phase := .running, status := status, detail := detail, result := result, ret := ret }) hj (fun k => by split <;> rfl)
  simp only [hp, bne_self_eq_false, Bool.false_eq_true, if_false] at hdone
  exact hdone

theorem State.endLoader_routines (s : State) (job status detail result : Nat) (ret : List Byte) :
    (s.endLoader job status detail result ret).fil.routines = s.fil.routines := rfl

/-- The same where the call's own work has left the jobs. -/
theorem State.endLoader_call {s u : State} {job op : Nat} {j : Job} (h : s.loaderCall job op = some j) (hjobs : u.fil.jobs = s.fil.jobs)
    (status detail result : Nat) (ret : List Byte) : Returned (u.endLoader job status detail result ret) j status detail result ret := by
  obtain ⟨hj, hp, -, -⟩ := State.loaderCall_some h
  exact State.endLoader_returned ((State.job_congr hjobs job).trans hj) hp status detail result ret

end Sys2Proof.Machine
end

section
/-! PROOFS. The loader's calls of routines, tile packs, exports and quotes (R26 to R30, R160, R356, R357, R464). -/
namespace Sys2Proof.Machine
open Sys2Proof.Claims

/-! ## Routines (R27, R30) -/

theorem State.setRegBytes_fil (s : State) (f : Nat → FieldRef) (n : Nat) (b : List Byte) : (s.setRegBytes f n b).fil = s.fil := by
  unfold State.setRegBytes
  refine foldl_keeps (P := fun u : State => u.fil = s.fil) (fun u i hu => ?_) _ rfl
  exact hu

/-- A measurement is no matter of jobs and routines. -/
theorem State.extendMeas_fil (s : State) (m : Nat) (x : List Byte) : (s.extendMeas m x).fil = s.fil := by
  unfold State.extendMeas
  simp only
  split
  · rfl
  · rw [State.wr_fil, State.setRegBytes_fil]
    rfl

theorem State.measureRoutine_fil (s : State) (act : Nat) (img : List Byte) : (s.measureRoutine act img).fil = s.fil := by
  unfold State.measureRoutine
  split <;> exact State.extendMeas_fil s _ _

theorem State.writeMem_fil (s : State) (source a : Nat) (d : List Byte) : (s.writeMem source a d).fil = s.fil :=
  (MemoryOnly.writeMem s source a d).fil

/-- The routine that an image which passes R27 makes. -/
def loadedRoutine (act handle pool : Nat) (b : List Byte) : Routine where
  act := act
  handle := handle
  priv := bitOf (imageHeader b).flags 0
  det := bitOf (imageHeader b).flags 1
  smin := (imageHeader b).smin
  smax := (imageHeader b).smax
  tiles := (imageHeader b).tiles
  qslots := (imageHeader b).qslots
  store := (imageHeader b).store
  entry := (imageHeader b).entry
  code := codeWords (b.drop 64) (imageHeader b).words
  poolAddr := pool
  poolLen := (imageHeader b).pool
  unloaded := false

/-- A routine held. -/
def State.addRoutine (s : State) (r : Routine) : State := { s with fil := { s.fil with routines := s.fil.routines ++ [r] } }

theorem State.addRoutine_jobs (s : State) (r : Routine) : (s.addRoutine r).fil.jobs = s.fil.jobs := rfl
theorem State.addRoutine_routines (s : State) (r : Routine) : (s.addRoutine r).fil.routines = s.fil.routines ++ [r] := rfl

/-- The image of a LOAD_ROUTINE call. -/
def Job.imageBytes (j : Job) : List Byte := padTo 0#8 (if j.desc.arg 2 = 0 then j.desc.argLen else j.desc.arg 3) j.data

theorem execLoadRoutine_refused {s : State} {job : Nat} {j : Job} (h : s.loaderCall job 0 = some j) (hf : s.imageFault j.act j.imageBytes ≠ 0) :
    execLoadRoutine job s = .next (s.endLoader job 0x61 (s.imageFault j.act j.imageBytes) 0 []) := by
  unfold execLoadRoutine
  rw [h]
  exact congrArg _ (if_pos hf)

/-- What LOAD_ROUTINE makes of a charge: its address and state, or nothing. -/
def State.keepRoutine (s : State) (job act handle : Nat) (b : List Byte) (charged : Option (Nat × State)) : State :=
  match charged with
  | none => (if s.poolShort act (Config.nativeBytes b) (imageHeader b).pool then s.wr F.memStatus_poolFull 1 else s).endLoader job 0x61 7 0 []
  | some (pool, t) => (((t.writeMem 0 pool (b.drop (64 + 8 * (imageHeader b).words))).addRoutine (loadedRoutine act handle pool b)).measureRoutine
      act b).endLoader job 0 0 handle []

theorem execLoadRoutine_sound {s : State} {job : Nat} {j : Job} (h : s.loaderCall job 0 = some j) (hf : s.imageFault j.act j.imageBytes = 0) :
    execLoadRoutine job s = .next (s.keepRoutine job j.act (s.newHandle j.act).1 j.imageBytes ((s.newHandle j.act).2.chargeRoutine j.act
      (s.newHandle j.act).1 (Config.nativeBytes j.imageBytes) (imageHeader j.imageBytes).pool)) := by
  unfold execLoadRoutine
  rw [h]
  refine congrArg Host.Outcome.next ((if_neg (not_not.2 hf)).trans ?_)
  rcases s.newHandle j.act with ⟨handle, s1⟩
  unfold Job.imageBytes
  generalize padTo 0#8 (if j.desc.arg 2 = 0 then j.desc.argLen else j.desc.arg 3) j.data = b
  show State.keepRoutine _ _ _ _ _ _ = _
  rcases s1.chargeRoutine j.act handle (Config.nativeBytes b) (imageHeader b).pool with _ | ⟨pool, t⟩
  · rfl
  · rfl

theorem execLoadRoutine_held {s t : State} {job pool : Nat} {j : Job} (h : s.loaderCall job 0 = some j)
    (hf : s.imageFault j.act j.imageBytes = 0) (hc : (s.newHandle j.act).2.chargeRoutine j.act (s.newHandle j.act).1
      (Config.nativeBytes j.imageBytes) (imageHeader j.imageBytes).pool = some (pool, t)) :
    execLoadRoutine job s = .next ((((t.writeMem 0 pool (j.imageBytes.drop (64 + 8 * (imageHeader j.imageBytes).words))).addRoutine
      (loadedRoutine j.act (s.newHandle j.act).1 pool j.imageBytes)).measureRoutine j.act j.imageBytes).endLoader job 0 0
        (s.newHandle j.act).1 []) := by
  rw [execLoadRoutine_sound h hf, hc]
  rfl

/-- LOAD_ROUTINE (R27). -/
theorem loadRoutine_answers (s : State) (job : Nat) (j : Job) (h : s.loaderCall job 0 = some j) :
    let b := padTo 0#8 (if j.desc.arg 2 = 0 then j.desc.argLen else j.desc.arg 3) j.data
    let hd := imageHeader b
    (s.imageFault j.act b ≠ 0 → CompletesWith (exec (.loadRoutine job) s) fun u =>
      Returned u j 0x61 (s.imageFault j.act b) 0 [] ∧ u.fil.routines = s.fil.routines) ∧
    ∀ t : State, s.imageFault j.act b = 0 → hd.pool = 0 →
      (s.newHandle j.act).2.chargeRoutine j.act (s.newHandle j.act).1 (Config.nativeBytes b) 0 = some (0, t) → t.fil.jobs = s.fil.jobs →
      t.fil.routines = s.fil.routines → CompletesWith (exec (.loadRoutine job) s) fun u => Returned u j 0 0 (s.newHandle j.act).1 [] ∧
        ∃ r : Routine, u.fil.routines = s.fil.routines ++ [r] ∧ r.act = j.act ∧ r.handle = (s.newHandle j.act).1 ∧
          r.code = codeWords (b.drop 64) hd.words ∧ r.entry = hd.entry ∧ r.smin = hd.smin ∧ r.smax = hd.smax ∧ r.tiles = hd.tiles ∧
          r.qslots = hd.qslots ∧ r.priv = bitOf hd.flags 0 ∧ r.det = bitOf hd.flags 1 ∧ r.store = hd.store ∧ r.unloaded = false := by
  intro b hd
  refine ⟨fun hf => ⟨_, execLoadRoutine_refused h hf, State.endLoader_call h rfl _ _ _ _, rfl⟩, fun t hf hpool hc hjobs hroutines => ?_⟩
  have hc' : (s.newHandle j.act).2.chargeRoutine j.act (s.newHandle j.act).1 (Config.nativeBytes b) hd.pool = some (0, t) := by
    rw [hpool]
    exact hc
  refine ⟨_, execLoadRoutine_held h hf hc', State.endLoader_call h ?_ _ _ _ _, loadedRoutine j.act (s.newHandle j.act).1 0 b, ?_, rfl, rfl,
    rfl, rfl, rfl, rfl, rfl, rfl, rfl, rfl, rfl, rfl⟩
  · rw [State.measureRoutine_fil, State.addRoutine_jobs, State.writeMem_fil, hjobs]
  · rw [State.endLoader_routines, State.measureRoutine_fil, State.addRoutine_routines, State.writeMem_fil, hroutines]
    rfl

/-! ## Unloads (R30) -/

/-- Whether a routine is the live one that an UNLOAD_ROUTINE call names. -/
def Job.unloads (j : Job) (r : Routine) : Bool := r.act == j.act && r.handle == j.desc.arg 2 && !r.unloaded

theorem Job.unloads_iff (j : Job) (r : Routine) : j.unloads r = true ↔ r.act = j.act ∧ r.handle = j.desc.arg 2 ∧ r.unloaded = false := by
  simp [Job.unloads, and_assoc]

theorem execUnloadRoutine_call {s : State} {job : Nat} {j : Job} (h : s.loaderCall job 1 = some j) :
    execUnloadRoutine job s = .next (if !s.fil.routines.any j.unloads then s.endLoader job 0x61 0x16 0 [] else
      ({ s with fil := { s.fil with routines := updWhere j.unloads (fun r => { r with unloaded := true }) s.fil.routines } }).endLoader job 0 0 0 []) := by
  unfold execUnloadRoutine
  rw [h]
  rfl

/-- UNLOAD_ROUTINE (R30). -/
theorem unloadRoutine_answers (s : State) (job : Nat) (j : Job) (h : s.loaderCall job 1 = some j) :
    let mine := fun r : Routine => r.act = j.act ∧ r.handle = j.desc.arg 2 ∧ r.unloaded = false
    ((∃ r ∈ s.fil.routines, mine r) → CompletesWith (exec (.unloadRoutine job) s) fun u => Returned u j 0 0 0 [] ∧
      u.fil.routines = s.fil.routines.map (fun r => if r.act == j.act && r.handle == j.desc.arg 2 && !r.unloaded then { r with unloaded := true } else r)) ∧
    ((∀ r ∈ s.fil.routines, ¬ mine r) → CompletesWith (exec (.unloadRoutine job) s) fun u =>
      Returned u j 0x61 0x16 0 [] ∧ u.fil.routines = s.fil.routines) := by
  intro mine
  rw [exec_unloadRoutine, execUnloadRoutine_call h]
  constructor
  · rintro ⟨r, hr, hm⟩
    have hany : s.fil.routines.any j.unloads = true := List.any_eq_true.2 ⟨r, hr, (j.unloads_iff r).2 hm⟩
    rw [hany]
    exact ⟨_, rfl, State.endLoader_call h rfl _ _ _ _, rfl⟩
  · intro hnone
    have hany : s.fil.routines.any j.unloads = false := List.any_eq_false.2 fun r hr hm => hnone r hr ((j.unloads_iff r).1 hm)
    rw [hany]
    exact ⟨_, rfl, State.endLoader_call h rfl _ _ _ _, rfl⟩

/-- Whether a routine is an unloaded one of a handle. -/
def Routine.leaves (act handle : Nat) (r : Routine) : Bool := r.act == act && r.handle == handle && r.unloaded

theorem Routine.leaves_iff (act handle : Nat) (r : Routine) : r.leaves act handle = true ↔ r.act = act ∧ r.handle = handle ∧ r.unloaded = true := by
  simp [Routine.leaves, and_assoc]

/-- Whether a job named a handle, and was not refused for it. -/
def Job.uses (act handle : Nat) (j : Job) : Bool := j.act == act && j.desc.routine == handle && !j.noRoutine

theorem Job.uses_iff (act handle : Nat) (j : Job) :
    j.uses act handle = true ↔ j.act = act ∧ j.desc.routine = handle ∧ ¬ (j.status = 0x60 ∧ j.detail = 2) := by
  simp [Job.uses, Job.noRoutine, ← Bool.not_eq_true, and_assoc, imp_iff_not_or]

theorem execRoutineRelease_eq (s : State) (act handle : Nat) : execRoutineRelease act handle s = .next (
    if !s.fil.routines.any (Routine.leaves act handle) || s.fil.jobs.any (Job.uses act handle) then s else
    ({ s with fil := { s.fil with routines := s.fil.routines.filter (!Routine.leaves act handle ·) } }).dropAlloc
      fun k => k == AllocKind.native act handle || k == AllocKind.pool act handle) := rfl

/-- The release of an unloaded routine (R30). -/
theorem routineRelease_answers (s : State) (act handle : Nat) (h : ∃ r ∈ s.fil.routines, r.act = act ∧ r.handle = handle ∧ r.unloaded = true) :
    ((∀ j ∈ s.fil.jobs, j.act = act → j.desc.routine = handle → j.status = 0x60 ∧ j.detail = 2) →
      CompletesWith (exec (.routineRelease act handle) s) fun u =>
        (∀ r, r ∈ u.fil.routines ↔ r ∈ s.fil.routines ∧ ¬ (r.act = act ∧ r.handle = handle ∧ r.unloaded = true)) ∧
        (∀ a ∈ u.fil.allocs, a.kind ≠ .native act handle ∧ a.kind ≠ .pool act handle)) ∧
    ((∃ j ∈ s.fil.jobs, j.act = act ∧ j.desc.routine = handle ∧ ¬ (j.status = 0x60 ∧ j.detail = 2)) →
      exec (.routineRelease act handle) s = .next s) := by
  obtain ⟨r, hr, hm⟩ := h
  have hany : s.fil.routines.any (Routine.leaves act handle) = true := List.any_eq_true.2 ⟨r, hr, (r.leaves_iff act handle).2 hm⟩
  rw [exec_routineRelease, execRoutineRelease_eq, hany]
  constructor
  · intro hjobs
    have hidle : s.fil.jobs.any (Job.uses act handle) = false := List.any_eq_false.2 fun j hj hu => by
      obtain ⟨ha, hh, hn⟩ := (j.uses_iff act handle).1 hu
      exact hn (hjobs j hj ha hh)
    rw [hidle]
    refine ⟨_, rfl, fun q => ?_, fun a ha => ?_⟩
    · refine List.mem_filter.trans (and_congr_right fun _ => ?_)
      rw [← q.leaves_iff act handle, Bool.not_eq_true, Bool.not_eq_true']
    · have hkind := (List.mem_filter.1 ha).2
      simpa using hkind
  · rintro ⟨j, hj, hu⟩
    have hbusy : s.fil.jobs.any (Job.uses act handle) = true := List.any_eq_true.2 ⟨j, hj, (j.uses_iff act handle).2 hu⟩
    rw [hbusy]
    rfl

/-- A loader call of an operation that Table 2.1a does not have. -/
theorem loaderUnknownOperation_answers (s : State) (job op : Nat) (j : Job) (h : s.loaderCall job op = some j) (ho : op = 4 ∨ 13 ≤ op) :
    CompletesWith (exec (.loaderUnknownOperation job) s) fun u => Returned u j 0x61 0x15 0 [] ∧
      { u with fil := { u.fil with jobs := s.fil.jobs } } = s := by
  obtain ⟨hj, -, -, harg⟩ := State.loaderCall_some h
  have hcond : (j.desc.arg 1 = 4 ∨ 13 ≤ j.desc.arg 1) ∧ (s.loaderCall job (j.desc.arg 1)).isSome = true := by
    rw [harg, h]
    exact ⟨ho, rfl⟩
  rw [exec_loaderUnknownOperation]
  unfold execLoaderUnknownOperation
  rw [hj]
  exact ⟨_, congrArg _ (if_pos hcond), State.endLoader_call h rfl _ _ _ _, rfl⟩/-! ## Tile packs (R160) -/

theorem State.endLoader_tiles (s : State) (job status detail result : Nat) (ret : List Byte) :
    (s.endLoader job status detail result ret).fil.tiles = s.fil.tiles := rfl

/-- The bytes of an IMPORT_TILE_PACK call. -/
def Job.packBytes (j : Job) : List Byte := padTo 0#8 (j.desc.arg 3) j.data

/-- The records of its pack. -/
def Job.packRecords (j : Job) : Option (List PackRecord) := readPack (leAt j.packBytes 4 4) (j.packBytes.drop 64)

theorem execImportTilePack_refused {s : State} {job n : Nat} {j : Job} (h : s.loaderCall job 2 = some j)
    (hn : s.packFault j.act j.packBytes j.packRecords = n) (hbig : 32 ≤ n) : execImportTilePack job s = .next (s.endLoader job 0x40 n 0 []) := by
  have hnz : n ≠ 0 := by omega
  have hzero : decide (n = 0) = false := decide_eq_false hnz
  have hsmall : ¬ n ≤ 12 := by omega
  unfold Job.packRecords Job.packBytes at hn
  simp only [execImportTilePack, h, hn, hzero, Bool.false_and, Bool.false_eq_true, if_false, Option.getD_none, if_pos hnz, if_neg hsmall]

/-- A tile's record put among the tiles. -/
def State.addTile (s : State) (x : Tile) : State := { s with fil := { s.fil with tiles := s.fil.tiles ++ [x] } }

theorem State.addTile_jobs (s : State) (x : Tile) : (s.addTile x).fil.jobs = s.fil.jobs := rfl
theorem State.addTile_tiles (s : State) (x : Tile) : (s.addTile x).fil.tiles = s.fil.tiles ++ [x] := rfl

/-- A pack of one record that finds its place makes one tile. -/
theorem State.importAll_one {s t : State} {act a : Nat} {r : PackRecord} (h : s.fresh.allocPool act r.data.length (.tile s.nextId) = (some a, t)) :
    s.importAll act [r] = (true, (t.writeMem 0 a r.data).addTile (r.tile s.nextId act a (t.writeMem 0 a r.data).now)) := by
  simp only [State.importAll, h, State.addTile]

theorem execImportTilePack_one {s t : State} {job a : Nat} {j : Job} {r : PackRecord} (h : s.loaderCall job 2 = some j)
    (hn : s.packFault j.act j.packBytes j.packRecords = 0) (hr : j.packRecords = some [r]) (hraw : r.sectors = 0)
    (ha : s.fresh.allocPool j.act r.data.length (.tile s.nextId) = (some a, t)) :
    execImportTilePack job s = .next (((t.writeMem 0 a r.data).addTile
      (r.tile s.nextId j.act a (t.writeMem 0 a r.data).now)).endLoader job 0 0 0 []) := by
  have hbits : [r].any (fun q => q.sectors != 0) = false := by simp [hraw]
  rw [hr] at hn
  unfold Job.packRecords at hr
  unfold Job.packBytes at hn hr
  simp only [execImportTilePack, h, hn, hr, Option.getD_some, hbits, Bool.and_false, Bool.false_eq_true, if_false,
    Option.getD_none, ne_eq, not_true_eq_false, State.importAll_one ha]

theorem State.writeMem_tally (s : State) (source a : Nat) (d : List Byte) : (s.writeMem source a d).tally = s.tally := by
  have h := congrArg State.tally (MemoryOnly.writeMem s source a d)
  exact h

/-- IMPORT_TILE_PACK (R160). -/
theorem importTilePack_answers (s : State) (job : Nat) (j : Job) (h : s.loaderCall job 2 = some j) :
    let b := padTo 0#8 (j.desc.arg 3) j.data
    let rs := readPack (leAt b 4 4) (b.drop 64)
    (32 ≤ s.packFault j.act b rs → CompletesWith (exec (.importTilePack job) s) fun u =>
      Returned u j 0x40 (s.packFault j.act b rs) 0 [] ∧ u.fil.tiles = s.fil.tiles ∧ u.mem = s.mem) ∧
    ∀ (r : PackRecord) (a : Nat) (t : State), s.packFault j.act b rs = 0 → rs = some [r] → r.sectors = 0 →
      s.fresh.allocPool j.act r.data.length (.tile s.nextId) = (some a, t) → t.fil.jobs = s.fil.jobs → t.mem.wf = true →
      Writable t a r.data.length → t.rd F.pwrStackState_inP3 = 0 → CompletesWith (exec (.importTilePack job) s) fun u =>
        Returned u j 0 0 0 [] ∧ u.fil.tiles = t.fil.tiles ++ [r.tile s.nextId j.act a t.tally.beat] ∧ Stores t u a r.data := by
  intro b rs
  refine ⟨fun hbig => ⟨_, execImportTilePack_refused h rfl hbig, State.endLoader_call h rfl _ _ _ _, rfl, rfl⟩,
    fun r a t hn hrs hraw ha hjobs hwf hwr _ => ⟨_, execImportTilePack_one h hn hrs hraw ha, State.endLoader_call h ?_ _ _ _ _, ?_, ?_⟩⟩
  · rw [State.addTile_jobs, State.writeMem_fil, hjobs]
  · rw [State.endLoader_tiles, State.addTile_tiles, State.writeMem_fil, State.now, State.writeMem_tally]
  · exact (State.writeMem_stores hwf hwr).2.1

/-! ## Exports (R356, R357) -/

theorem execExportRegion_call {s : State} {job : Nat} {j : Job} (h : s.loaderCall job 8 = some j) : execExportRegion job s = .next (
    if s.exportRefused j.act (j.desc.arg 2) (j.desc.arg 3) (j.desc.arg 4) then s.endLoader job 0x61 0x14 0 [] else
    (s.addExport j.act (j.desc.arg 2) (j.desc.arg 3) (j.desc.arg 4)).2.endLoader job 0 0 (s.addExport j.act (j.desc.arg 2) (j.desc.arg 3) (j.desc.arg 4)).1 []) := by
  unfold execExportRegion
  rw [h]

theorem State.addExport_fil (s : State) (act base len rights : Nat) : (s.addExport act base len rights).2.fil = s.fil := rfl
theorem State.addExport_exports (s : State) (act base len rights : Nat) : (s.addExport act base len rights).2.car.exports =
    s.car.exports ++ [⟨act, base, len, rights, (s.addExport act base len rights).1, none⟩] := rfl

/-- EXPORT_REGION (R356). -/
theorem exportRegion_answers (s : State) (job : Nat) (j : Job) (h : s.loaderCall job 8 = some j) :
    (s.exportRefused j.act (j.desc.arg 2) (j.desc.arg 3) (j.desc.arg 4) = true → CompletesWith (exec (.exportRegion job) s) fun u =>
      Returned u j 0x61 0x14 0 [] ∧ u.car = s.car) ∧
    (s.exportRefused j.act (j.desc.arg 2) (j.desc.arg 3) (j.desc.arg 4) = false → CompletesWith (exec (.exportRegion job) s) fun u =>
      ∃ k, Returned u j 0 0 k [] ∧ u.car.exports = s.car.exports ++ [⟨j.act, j.desc.arg 2, j.desc.arg 3, j.desc.arg 4, k, none⟩]) := by
  rw [exec_exportRegion, execExportRegion_call h]
  refine ⟨fun hr => ?_, fun hr => ?_⟩
  · rw [hr]
    exact ⟨_, rfl, State.endLoader_call h rfl _ _ _ _, rfl⟩
  · rw [hr]
    exact ⟨_, rfl, _, State.endLoader_call h (congrArg FilauxSt.jobs (s.addExport_fil _ _ _ _)) _ _ _ _, s.addExport_exports _ _ _ _⟩

/-- Whether a region is the open one that an UNEXPORT_REGION call names. -/
def Job.unexports (j : Job) (e : Export) : Bool := e.act == j.act && e.key == j.desc.arg 2 && e.closing.isNone

theorem execUnexportRegion_none {s : State} {job : Nat} {j : Job} (h : s.loaderCall job 9 = some j) (hf : s.car.exports.find? j.unexports = none) :
    execUnexportRegion job s = .next (s.endLoader job 0x61 0x16 0 []) := by
  unfold Job.unexports at hf
  simp only [execUnexportRegion, h, hf]

theorem execUnexportRegion_found {s : State} {job : Nat} {j : Job} {e : Export} (h : s.loaderCall job 9 = some j)
    (hf : s.car.exports.find? j.unexports = some e) : execUnexportRegion job s = .next ((s.modCar fun c =>
      { c with exports := updWhere (· == e) (fun e => { e with closing := some job }) c.exports }).startInv e.base e.len (.unexport job)) := by
  unfold Job.unexports at hf
  simp only [execUnexportRegion, h, hf]

/-- With no sharer and no request on its way, an invalidation waits for nothing. -/
theorem State.startInv_alone {s : State} (addr len : Nat) (w : InvFor) (hs : s.car.sharers = []) (hr : s.car.reqs = []) :
    (s.startInv addr len w).car.exports = s.car.exports ∧
      (s.startInv addr len w).car.invs = s.car.invs ++ [⟨s.nextId, [], w⟩] ∧ (s.startInv addr len w).fil = s.fil := by
  simp only [State.startInv, hs, hr, List.filter_nil, List.map_nil, List.foldl_nil, List.append_nil]
  exact ⟨rfl, rfl, rfl⟩

/-- UNEXPORT_REGION (R357). -/
theorem unexportRegion_answers (s : State) (job : Nat) (j : Job) (h : s.loaderCall job 9 = some j) :
    ((∀ e ∈ s.car.exports, e.act = j.act → e.key = j.desc.arg 2 → e.closing.isSome = true) →
      CompletesWith (exec (.unexportRegion job) s) fun u => Returned u j 0x61 0x16 0 [] ∧ u.car = s.car) ∧
    (∀ e : Export, (s.car.exports.find? fun e => e.act == j.act && e.key == j.desc.arg 2 && e.closing.isNone) = some e →
      s.car.sharers = [] → s.car.reqs = [] → CompletesWith (exec (.unexportRegion job) s) fun u =>
        u.car.exports = s.car.exports.map (fun x => if x = e then { x with closing := some job } else x) ∧
        u.car.invs = s.car.invs ++ [⟨s.nextId, [], .unexport job⟩] ∧ u.job? job = some j) := by
  refine ⟨fun hnone => ?_, fun e he hs hr => ?_⟩
  · have hf : s.car.exports.find? j.unexports = none := List.find?_eq_none.2 fun e he hu => by
      simp only [Job.unexports, Bool.and_eq_true, beq_iff_eq, Option.isNone_iff_eq_none] at hu
      obtain ⟨⟨ha, hk⟩, hc⟩ := hu
      simpa [hc] using hnone e he ha hk
    exact ⟨_, execUnexportRegion_none h hf, State.endLoader_call h rfl _ _ _ _, rfl⟩
  · obtain ⟨hexports, hinvs, hfil⟩ := State.startInv_alone (s := s.modCar fun c =>
      { c with exports := updWhere (· == e) (fun e => { e with closing := some job }) c.exports }) e.base e.len (.unexport job) hs hr
    refine ⟨_, execUnexportRegion_found h he, ?_, ?_, ?_⟩
    · rw [hexports]
      simp only [State.modCar, updWhere, beq_iff_eq]
    · exact hinvs
    · rw [State.job_congr (congrArg FilauxSt.jobs hfil)]
      exact (State.loaderCall_some h).1

theorem execUnexportComplete_call {s : State} {job : Nat} {j : Job} (h : s.loaderCall job 9 = some j) : execUnexportComplete job s = .next (
    if !s.car.exports.any (·.closing == some job) || (s.car.invs.any fun i => i.wanted == .unexport job && !i.out.isEmpty) then s else
    (s.modCar fun c => { c with exports := (c.exports.filter (·.closing != some job)), invs := (c.invs.filter fun i => !(i.wanted == .unexport job)) }).endLoader job 0 0 0 []) := by
  unfold execUnexportComplete
  rw [h]

/-- The end of an unexport (R357). -/
theorem unexportComplete_answers (s : State) (job : Nat) (j : Job) (h : s.loaderCall job 9 = some j) (he : ∃ e ∈ s.car.exports, e.closing = some job) :
    ((∀ i ∈ s.car.invs, i.wanted = .unexport job → i.out = []) → CompletesWith (exec (.unexportComplete job) s) fun u =>
      Returned u j 0 0 0 [] ∧ u.car.exports = s.car.exports.filter (·.closing != some job) ∧ (∀ i ∈ u.car.invs, i.wanted ≠ .unexport job)) ∧
    ((∃ i ∈ s.car.invs, i.wanted = .unexport job ∧ i.out ≠ []) → exec (.unexportComplete job) s = .next s) := by
  obtain ⟨e, hmem, hclosing⟩ := he
  have hany : s.car.exports.any (·.closing == some job) = true := List.any_eq_true.2 ⟨e, hmem, beq_iff_eq.2 hclosing⟩
  rw [exec_unexportComplete, execUnexportComplete_call h, hany]
  refine ⟨fun hout => ?_, fun ⟨i, hi, hw, ho⟩ => ?_⟩
  · have hdone : (s.car.invs.any fun i => i.wanted == .unexport job && !i.out.isEmpty) = false := List.any_eq_false.2 fun i hi hc => by
      simp only [Bool.and_eq_true, beq_iff_eq] at hc
      simp [hout i hi hc.1] at hc
    rw [hdone]
    refine ⟨_, rfl, State.endLoader_call h rfl _ _ _ _, rfl, fun i hi => ?_⟩
    simpa using (List.mem_filter.1 hi).2
  · have hbusy : (s.car.invs.any fun i => i.wanted == .unexport job && !i.out.isEmpty) = true :=
      List.any_eq_true.2 ⟨i, hi, by simp [hw, ho]⟩
    rw [hbusy]
    rfl

/-! ## Quotes (R464) -/

/-- ATTESTATION_QUOTE over a whole nonce (R464). -/
theorem attestationQuote_answers (s : State) (job : Nat) (j : Job) (h : s.loaderCall job 11 = some j) (hn : 64 ≤ j.data.length) :
    CompletesWith (exec (.attestationQuote job) s) fun u =>
      let b := s.quoteBody j.act (j.desc.arg 2 % 2 ^ 8) (j.data.take 64)
      let sig := Config.ecdsaSign (sha512 b)
      Returned u j 0 0 0 (b ++ padTo 0#8 66 sig.1 ++ padTo 0#8 66 sig.2 ++ zeros 12 ++ s.asy.log.flatten) ∧
        u.ctr 0xD13 = (s.ctr 0xD13 + 1) % 2 ^ 64 ∧ u.regs = s.regs := by
  have hnonce : ∀ rest : List Byte, (j.data ++ rest).take 64 = j.data.take 64 := fun rest => List.take_append_of_le_length hn
  rw [exec_attestationQuote]
  unfold execAttestationQuote
  rw [h]
  simp only [hnonce]
  exact ⟨_, rfl, State.endLoader_call h rfl _ _ _ _, State.ctr_count_same _ _ _, rfl⟩end Sys2Proof.Machine
end

section
/-! PROOFS. Slices, their recomposition, pairs and ledgers (R18, R19, R475, R477, R479). -/
namespace Sys2Proof.Machine
open Sys2Proof.Claims

/-! ## SYS.SLICE (R19) -/

/-- The composition that a SYS.SLICE word describes. -/
def sliceWord (o : Insn) : Slice := sliceOf (o.ext.getD 0 0#64).toNat (o.ext.getD 1 0#64).toNat

/-- A state with one more recomposition registered. -/
def State.registers (s : State) (r : Recompose) : State := { s with fil := { s.fil with recompose := s.fil.recompose ++ [r] } }

/-- SYS.SLICE in time, with room in the event engine, registers its composition and sets its predicate. -/
theorem execSysSlice_registers {o : Insn} {s : State} {t : Strand} {j : Job} (h : Issues s Form.sysSlice o t j) (hp : s.isPriv j = true)
    (hc : t.clear [] (presWrites o) = true) (hb : s.tally.beat + 64 ≤ (t.getS o.b).toNat) (hx : (sliceWord o).num ≠ 0xFF)
    (hr : (s.moved o t).eventRoom = true) :
    ∃ w, execSysSlice o s = .next w ∧ InFlight s w o t (setPres o true) ∧
      { w with fil := { w.fil with strands := (s.moved o t).fil.strands }, nextId := s.nextId } =
        (s.moved o t).registers ⟨(t.getS o.b).toNat, sliceWord o⟩ := by
  have hin : ¬ ((decide ((t.getS o.b).toNat < s.tally.beat + 64) || (sliceWord o).num == 0xFF) = true) := by
    simp only [Bool.or_eq_true, decide_eq_true_eq, beq_iff_eq]
    omega
  refine engine_flight (u := (s.moved o t).registers ⟨(t.getS o.b).toNat, sliceWord o⟩) h hc rfl ?_
  rw [M.run_bind_ok (M.run_get _), need_pure _ _ (show (s.moved o t).isPriv j = true from hp), M.bind_pure]
  refine (M.run_bind_ok (M.run_get _)).trans ?_
  refine (congrArg (fun x : M (List Effect) => x.run (s.moved o t)) (if_neg hin)).trans ?_
  rw [M.run_bind_ok (M.run_get _), hr]
  rfl

/-- Too early, or for number 0xFF, it changes nothing and clears its predicate. -/
theorem execSysSlice_declines {o : Insn} {s : State} {t : Strand} {j : Job} (h : Issues s Form.sysSlice o t j) (hp : s.isPriv j = true)
    (hc : t.clear [] (presWrites o) = true) (hb : (t.getS o.b).toNat < s.tally.beat + 64 ∨ (sliceWord o).num = 0xFF) :
    ∃ w, execSysSlice o s = .next w ∧ InFlight s w o t (setPres o false) ∧
      { w with fil := { w.fil with strands := (s.moved o t).fil.strands }, nextId := s.nextId } = s.moved o t := by
  have hout : (decide ((t.getS o.b).toNat < s.tally.beat + 64) || (sliceWord o).num == 0xFF) = true := by
    simpa only [Bool.or_eq_true, decide_eq_true_eq, beq_iff_eq] using hb
  refine engine_flight h hc rfl ?_
  rw [M.run_bind_ok (M.run_get _), need_pure _ _ (show (s.moved o t).isPriv j = true from hp), M.bind_pure]
  refine (M.run_bind_ok (M.run_get _)).trans ?_
  exact congrArg (fun x : M (List Effect) => x.run (s.moved o t)) (if_pos hout)

/-- SYS.SLICE (R19, R409). -/
theorem sysSlice_answers (o : Insn) (s : State) (t : Strand) (j : Job) (h : Issues s Form.sysSlice o t j) (hp : s.isPriv j = true)
    (hc : t.clear [] (if o.fld 25 3 = 0 then [] else [.p (o.fld 25 3)]) = true) :
    let x := sliceOf (o.ext.getD 0 0#64).toNat (o.ext.getD 1 0#64).toNat
    let beat := (t.getS o.b).toNat
    let pres := fun v => if o.fld 25 3 = 0 then [] else [Effect.setP (o.fld 25 3) v]
    (s.tally.beat + 64 ≤ beat → x.num ≠ 0xFF → (s.moved o t).eventRoom = true → CompletesWith (exec (.sysSlice o) s) fun u =>
      InFlight s u o t (pres true) ∧ u.fil.recompose = s.fil.recompose ++ [⟨beat, x⟩] ∧ u.fil.slices = s.fil.slices ∧ u.mem = s.mem ∧
      u.regs = s.regs) ∧
    (beat < s.tally.beat + 64 ∨ x.num = 0xFF → CompletesWith (exec (.sysSlice o) s) fun u =>
      InFlight s u o t (pres false) ∧ u.fil.recompose = s.fil.recompose ∧ u.mem = s.mem ∧ u.regs = s.regs) := by
  intro x beat pres
  refine ⟨fun hb hx hr => ?_, fun hb => ?_⟩
  · obtain ⟨w, hw, hfl, hrest⟩ := execSysSlice_registers h hp hc hb hx hr
    have hrec := congrArg (fun u : State => u.fil.recompose) hrest
    have hslices := congrArg (fun u : State => u.fil.slices) hrest
    have hmem := congrArg State.mem hrest
    have hregs := congrArg State.regs hrest
    exact ⟨w, hw, hfl, hrec, hslices, hmem, hregs⟩
  · obtain ⟨w, hw, hfl, hrest⟩ := execSysSlice_declines h hp hc hb
    have hrec := congrArg (fun u : State => u.fil.recompose) hrest
    have hmem := congrArg State.mem hrest
    have hregs := congrArg State.regs hrest
    exact ⟨w, hw, hfl, hrec, hmem, hregs⟩

/-! ## Recomposition (R19) -/

theorem State.oldJobs_none {s : State} (h : s.fil.jobs = []) (act num beat : Nat) : s.oldJobs act num beat = false := by
  rw [State.oldJobs, h]
  rfl

theorem State.clearing_none {s : State} (h : s.fil.tiles = []) (act crew : Nat) : s.clearing act crew = false := by
  rw [State.clearing, h]
  rfl

/-- No tile leaves a crew's store where there is none. -/
theorem State.clearCrew_none {s : State} (h : s.fil.tiles = []) (act crew : Nat) : s.clearCrew act crew = s := by
  have hd : s.demotable act crew = [] := by
    rw [State.demotable, h]
    rfl
  rw [State.clearCrew, hd]
  rfl

/-- What crews show is in registers. -/
theorem State.showCrew_onRegs (s : State) (c : Nat) : OnRegs s (s.showCrew c) := by
  unfold State.showCrew
  split <;> exact ((OnRegs.wr s _ _).step_wr _ _).step_wr _ _

theorem State.showCrews_onRegs (s : State) : OnRegs s s.showCrews := by
  unfold State.showCrews
  refine OnRegs.fold (fun u c => ?_) _ s
  split
  · exact .refl u
  · exact u.showCrew_onRegs c

/-- The register of a crew that names its slice, written. -/
def State.crewShows (s : State) (c num act on : Nat) : State :=
  ((s.wr (F.crewSlice_slice c) num).wr (F.crewSlice_act c) act).wr (F.crewSlice_assigned c) on

theorem State.showCrew_some {s : State} {c : Nat} {x : Slice} (h : (s.fil.slices.find? fun x => bitOf x.crews c) = some x) :
    s.showCrew c = s.crewShows c x.num x.act 1 := by
  rw [State.showCrew, h]
  rfl

theorem State.showCrew_none {s : State} {c : Nat} (h : (s.fil.slices.find? fun x => bitOf x.crews c) = none) :
    s.showCrew c = s.crewShows c 0 0 0 := by
  rw [State.showCrew, h]
  rfl

theorem State.crewShows_fields (s : State) (c num act on : Nat) : (s.crewShows c num act on).rd (F.crewSlice_slice c) = num % 2 ^ 8 ∧
    (s.crewShows c num act on).rd (F.crewSlice_act c) = act % 2 ^ 4 ∧ (s.crewShows c num act on).rd (F.crewSlice_assigned c) = on % 2 ^ 1 := by
  unfold State.crewShows
  refine ⟨?_, ?_, ?_⟩ <;>
    simp [State.rd_wr_same, State.rd_wr_apart, F.crewSlice_slice, F.crewSlice_act, F.crewSlice_assigned]

theorem State.reg_crewShows_other (s : State) {c off : Nat} (num act on : Nat) (h : (F.crewSlice_slice c).off ≠ off) :
    (s.crewShows c num act on).reg off = s.reg off := by
  unfold State.crewShows
  rw [State.reg_wr_other _ _ _ (show (F.crewSlice_assigned c).off ≠ off from h), State.reg_wr_other _ _ _ (show (F.crewSlice_act c).off ≠ off from h),
    State.reg_wr_other _ _ _ h]

/-- A register that shows a crew's slice is written for that crew alone. -/
theorem State.reg_showCrew_other (s : State) {c off : Nat} (h : (F.crewSlice_slice c).off ≠ off) : (s.showCrew c).reg off = s.reg off := by
  cases hf : s.fil.slices.find? fun x => bitOf x.crews c with
  | none => rw [State.showCrew_none hf, State.reg_crewShows_other _ _ _ _ h]
  | some x => rw [State.showCrew_some hf, State.reg_crewShows_other _ _ _ _ h]

/-- Whether a crew shows a slice. -/
def State.crewOf (s : State) (c : Nat) (x : Slice) : Prop :=
  s.rd (F.crewSlice_slice c) = x.num ∧ s.rd (F.crewSlice_act c) = x.act ∧ s.on (F.crewSlice_assigned c) = true

theorem State.crewOf_congr {s u : State} {c : Nat} {x : Slice} (h : u.reg (F.crewSlice_slice c).off = s.reg (F.crewSlice_slice c).off)
    (hs : s.crewOf c x) : u.crewOf c x := by
  have hrd : ∀ f : FieldRef, f.off = (F.crewSlice_slice c).off → u.rd f = s.rd f := fun f hf => by
    unfold State.rd
    rw [hf, h]
  obtain ⟨hn, ha, ho⟩ := hs
  refine ⟨(hrd _ rfl).trans hn, (hrd (F.crewSlice_act c) rfl).trans ha, ?_⟩
  unfold State.on at *
  rw [hrd (F.crewSlice_assigned c) rfl]
  exact ho

/-- A crew of the one slice shows it. -/
theorem State.showCrew_shows {s : State} {c : Nat} {x : Slice} (h : s.fil.slices = [x]) (hc : bitOf x.crews c = true) (hn : x.num < 256)
    (ha : x.act < 16) : (s.showCrew c).crewOf c x := by
  have hfind : (s.fil.slices.find? fun x => bitOf x.crews c) = some x := by
    rw [h]
    exact List.find?_cons_of_pos hc
  obtain ⟨h1, h2, h3⟩ := s.crewShows_fields c x.num x.act 1
  rw [State.showCrew_some hfind]
  exact ⟨h1.trans (Nat.mod_eq_of_lt hn), h2.trans (Nat.mod_eq_of_lt ha), beq_iff_eq.2 h3⟩

/-- Crews show the one slice, when none waits to join: each by its own register. -/
theorem State.showCrews_shows {s : State} {x : Slice} (hs : s.fil.slices = [x]) (hj : s.fil.joining = []) (hn : x.num < 256) (ha : x.act < 16)
    {c : Nat} (hc : c < 16) (hm : bitOf x.crews c = true) : s.showCrews.crewOf c x := by
  have hstep : ∀ (u : State) (k : Nat), OnRegs s u → (if u.fil.joining.any (·.res == k) then u else u.showCrew k) = u.showCrew k := by
    intro u k hu
    rw [hu.fil, hj]
    rfl
  have hlist : ∀ (l : List Nat) (u : State), OnRegs s u → (c ∈ l ∨ u.crewOf c x) →
      (l.foldl (fun s c => if s.fil.joining.any (·.res == c) then s else s.showCrew c) u).crewOf c x := by
    intro l
    induction l with
    | nil => exact fun u _ h => h.resolve_left List.not_mem_nil
    | cons k l ih =>
      intro u hu h
      rw [List.foldl_cons, hstep u k hu]
      refine ih _ (hu.trans (u.showCrew_onRegs k)) ?_
      by_cases hk : k = c
      · subst hk
        exact .inr (State.showCrew_shows (by rw [hu.fil, hs]) hm hn ha)
      · refine h.imp (fun hmem => (List.mem_cons.1 hmem).resolve_left (Ne.symm hk)) fun hshown => ?_
        refine State.crewOf_congr (u.reg_showCrew_other ?_) hshown
        simp only [F.crewSlice_slice]
        omega
  exact hlist _ s (.refl s) (.inl (List.mem_range.2 hc))

/-- A recomposition where no job runs, no tile lies in a crew's store, and no resource waits to join. -/
theorem State.recompose1_idle {s : State} (r : Recompose) (hj : s.fil.jobs = []) (ht : s.fil.tiles = []) : s.recompose1 r =
    ({ s with fil := { s.fil with slices := ((s.fil.slices.filter fun y : Slice => !(y.act == r.slice.act && y.num == r.slice.num)).map
      fun y : Slice => y.without r.slice.res) ++ [r.slice] } }).showCrews := by
  have hclear : ∀ l : List Leaving, l.foldl (fun s e => s.clearCrew e.act e.res) s = s := fun l => foldl_eq_self fun e _ => State.clearCrew_none ht _ _
  unfold State.recompose1
  simp only [hclear, State.oldJobs_none hj, State.clearing_none ht, Bool.and_false, Bool.or_false, List.filter_false, List.append_nil]

/-- Nothing starts where there is no job. -/
theorem State.showCrews_tryStarts_idle {s : State} (h : s.fil.jobs = []) : s.showCrews.tryStarts = s.showCrews :=
  State.tryStarts_idle fun k hk => by
    rw [s.showCrews_onRegs.fil, h] at hk
    exact absurd hk List.not_mem_nil

/-- What a recomposition whose beat has come makes of an idle node. -/
def State.recomposed (s : State) (x : Slice) : State :=
  { s with fil := { s.fil with
    recompose := [],
    slices := ((s.fil.slices.filter fun y : Slice => !(y.act == x.act && y.num == x.num)).map fun y : Slice => y.without x.res) ++ [x] } }

/-- The recompositions that are still to take effect. -/
def State.recomposing (s : State) (later : List Recompose) : State := { s with fil := { s.fil with recompose := later } }

theorem execSliceRecompose_eq (s : State) : execSliceRecompose s = .next (
    let p := s.fil.recompose.partition fun r => decide (r.beat ≤ s.now)
    (p.1.foldl State.recompose1 ((s.recomposing p.2).fired p.1.length)).tryStarts) := rfl

theorem execSliceRecompose_idle {s : State} {x : Slice} {b : Nat} (h : s.fil.recompose = [⟨b, x⟩]) (hb : b ≤ s.tally.beat)
    (hj : s.fil.jobs = []) (ht : s.fil.tiles = []) : execSliceRecompose s = .next ((s.recomposed x).fired 1).showCrews := by
  have hnow : b ≤ s.now := hb
  have hdue : (s.fil.recompose.partition fun r => decide (r.beat ≤ s.now)) = ([⟨b, x⟩], []) := by
    rw [h, List.partition_eq_filter_filter]
    simp [hnow]
  have hone : ((s.recomposing []).fired 1).recompose1 ⟨b, x⟩ = ((s.recomposed x).fired 1).showCrews := State.recompose1_idle _ hj ht
  rw [execSliceRecompose_eq, hdue]
  simp only [List.foldl_cons, List.foldl_nil, List.length_cons, List.length_nil, Nat.zero_add]
  rw [hone, State.showCrews_tryStarts_idle (s := (s.recomposed x).fired 1) hj]

/-- The composition's beat on an idle node (R19). -/
theorem sliceRecompose_answers (s : State) (x : Slice) (b : Nat) (h : s.fil.recompose = [⟨b, x⟩]) (hb : b ≤ s.tally.beat)
    (hj : s.fil.jobs = []) (ht : s.fil.tiles = []) (hjoin : s.fil.joining = []) : CompletesWith (exec .sliceRecompose s) fun u =>
      u.fil.recompose = [] ∧ u.fil.slices = ((s.fil.slices.filter fun y => !(y.act == x.act && y.num == x.num)).map fun y => y.without x.res) ++ [x] ∧
      u.fil.joining = [] ∧ (s.fil.slices = [] → ∀ c < 16, x.num < 256 → x.act < 16 → bitOf x.crews c = true →
        u.rd (F.crewSlice_slice c) = x.num ∧ u.rd (F.crewSlice_act c) = x.act ∧ u.on (F.crewSlice_assigned c) = true) := by
  have hfil := (State.showCrews_onRegs ((s.recomposed x).fired 1)).fil
  refine ⟨_, execSliceRecompose_idle h hb hj ht, ?_, ?_, ?_, fun hempty c hc hn ha hm => ?_⟩
  · rw [hfil]
    rfl
  · rw [hfil]
    rfl
  · rw [hfil]
    exact hjoin
  · have hone : ((s.recomposed x).fired 1).fil.slices = [x] := by
      show _ ++ [x] = _
      rw [hempty]
      rfl
    exact State.showCrews_shows hone hjoin hn ha hc hm

/-! ## Resources that join (R19) -/

/-- An old job of the slice that a resource leaves holds it back. -/
theorem State.oldJobs_of {s : State} {act num beat : Nat} (h : ∃ j ∈ s.fil.jobs, j.act = act ∧ j.desc.slice = num ∧ j.desc.routine ≠ 0 ∧
    j.phase ≠ .ended ∧ j.pickup < beat) : s.oldJobs act num beat = true := by
  obtain ⟨j, hj, ha, hn, hr, hp, hb⟩ := h
  exact List.any_eq_true.2 ⟨j, hj, by simp [ha, hn, hr, hp, hb]⟩

/-- Only one resource waits to join: what SLICE_RESOURCE_JOIN finds. -/
theorem joining_one (e : Leaving) : [e].filter (·.res == e.res) = [e] ∧ [e].filter (·.res != e.res) = [] := by simp

/-- What a join leaves of the resources that wait. -/
def State.noneJoins (s : State) : State := { s with fil := { s.fil with joining := [] } }

theorem execSliceResourceJoin_held {s : State} {e : Leaving} (h : s.fil.joining = [e]) (ho : s.oldJobs e.act e.num e.beat = true) :
    execSliceResourceJoin e.res s = .next s := by
  simp only [execSliceResourceJoin, h, (joining_one e).1, List.any_cons, ho, Bool.true_or, Bool.or_true, if_true]

theorem execSliceResourceJoin_idle {s : State} {e : Leaving} (h : s.fil.joining = [e]) (hj : s.fil.jobs = []) (ht : s.fil.tiles = []) :
    execSliceResourceJoin e.res s = .next s.noneJoins.showCrews := by
  have hstarts : s.noneJoins.showCrews.tryStarts = s.noneJoins.showCrews := State.showCrews_tryStarts_idle (s := s.noneJoins) hj
  rw [← hstarts]
  simp only [execSliceResourceJoin, State.noneJoins, h, (joining_one e).1, (joining_one e).2, List.any_cons, List.any_nil, List.isEmpty_cons,
    List.foldl_cons, List.foldl_nil, State.clearCrew_none ht, State.clearing_none ht, State.oldJobs_none hj, ite_self, Bool.or_self,
    Bool.and_false, Bool.false_eq_true, if_false]

/-- SLICE_RESOURCE_JOIN (R19). -/
theorem sliceResourceJoin_answers (s : State) (res act num beat : Nat) (h : s.fil.joining = [⟨res, act, num, beat⟩]) :
    ((∃ j ∈ s.fil.jobs, j.act = act ∧ j.desc.slice = num ∧ j.desc.routine ≠ 0 ∧ j.phase ≠ .ended ∧ j.pickup < beat) →
      exec (.sliceResourceJoin res) s = .next s) ∧
    (s.fil.jobs = [] → s.fil.tiles = [] → CompletesWith (exec (.sliceResourceJoin res) s) fun u =>
      u.fil.joining = [] ∧ u.fil.slices = s.fil.slices ∧ u.mem = s.mem) := by
  refine ⟨fun hold => execSliceResourceJoin_held h (State.oldJobs_of hold), fun hj ht => ?_⟩
  have hregs := s.noneJoins.showCrews_onRegs
  exact ⟨_, execSliceResourceJoin_idle h hj ht, congrArg FilauxSt.joining hregs.fil, (congrArg FilauxSt.slices hregs.fil).trans rfl, hregs.mem⟩

/-! ## Pairs (R475, R477) -/

/-- The pair that a sound block makes. -/
def Job.pairOf (j : Job) (job : Nat) : Pair :=
  ⟨j.act, leAt j.data 1 1, leAt j.data 0 1, leAt j.data 2 1, leAt j.data 4 4, leAt j.data 8 4, leAt j.data 12 4, leAt j.data 16 8,
    leAt j.data 24 4, roundUp (j.pickup + 1024) (leAt j.data 24 4), job, false⟩

/-- A pair registered. -/
def State.addPair (s : State) (p : Pair) : State := { s with fil := { s.fil with pairs := s.fil.pairs ++ [p] } }

theorem execPairSlice_call {s : State} {job : Nat} {j : Job} (remote : Nat) (h : s.loaderCall job 12 = some j) (hp : ∀ p ∈ s.fil.pairs, p.job ≠ job) :
    execPairSlice job remote s = .next (
      if s.pairRefused j.act j.data then s.endLoader job 0x61 0x15 0 [] else
      if !s.members.testBit (j.pairOf job).partner || !s.ledgerUp (j.pairOf job) then s.endLoader job 0x70 0 0 [] else
      if s.ledgerCheck (j.pairOf job) remote ≠ 0 then s.endLoader job (s.ledgerCheck (j.pairOf job) remote) 0 0 [] else
      s.addPair (j.pairOf job)) := by
  have hnone : s.fil.pairs.any (·.job == job) = false := List.any_eq_false.2 fun p hpm he => hp p hpm (beq_iff_eq.1 he)
  unfold execPairSlice
  rw [h]
  refine congrArg Host.Outcome.next ((if_neg (by rw [hnone]; exact Bool.false_ne_true)).trans ?_)
  rfl

/-- PAIR_SLICE (R475). -/
theorem pairSlice_answers (s : State) (job remote : Nat) (j : Job) (h : s.loaderCall job 12 = some j) (hp : ∀ p ∈ s.fil.pairs, p.job ≠ job) :
    let b := j.data
    (s.pairRefused j.act b = true → CompletesWith (exec (.pairSlice job remote) s) fun u => Returned u j 0x61 0x15 0 [] ∧ u.fil.pairs = s.fil.pairs) ∧
    (s.pairRefused j.act b = false →
      (s.members.testBit (leAt b 0 1) = false → CompletesWith (exec (.pairSlice job remote) s) fun u => Returned u j 0x70 0 0 [] ∧ u.fil.pairs = s.fil.pairs) ∧
      (s.members.testBit (leAt b 0 1) = true → leAt b 2 1 = leAt b 0 1 → leAt b 2 1 ≠ s.self →
        (remote = 0 → CompletesWith (exec (.pairSlice job remote) s) fun u => u.job? job = some j ∧ u.fil.pairs = s.fil.pairs ++
          [⟨j.act, leAt b 1 1, leAt b 0 1, leAt b 2 1, leAt b 4 4, leAt b 8 4, leAt b 12 4, leAt b 16 8, leAt b 24 4, roundUp (j.pickup + 1024) (leAt b 24 4), job, false⟩]) ∧
        (remote ≠ 0 → CompletesWith (exec (.pairSlice job remote) s) fun u => Returned u j remote 0 0 [] ∧ u.fil.pairs = s.fil.pairs))) := by
  intro b
  rw [exec_pairSlice, execPairSlice_call remote h hp]
  refine ⟨fun hbad => ?_, fun hgood => ⟨fun hout => ?_, fun hin hledger hself => ?_⟩⟩
  · rw [if_pos hbad]
    exact ⟨_, rfl, State.endLoader_call h rfl _ _ _ _, rfl⟩
  · have habsent : (!s.members.testBit (j.pairOf job).partner || !s.ledgerUp (j.pairOf job)) = true := by
      rw [show s.members.testBit (j.pairOf job).partner = false from hout]
      rfl
    rw [if_neg (Bool.eq_false_iff.1 hgood), if_pos habsent]
    exact ⟨_, rfl, State.endLoader_call h rfl _ _ _ _, rfl⟩
  · have hup : s.ledgerUp (j.pairOf job) = true := by
      have hmem : s.members.testBit (j.pairOf job).ledger = true := by
        rw [show (j.pairOf job).ledger = leAt b 0 1 from hledger]
        exact hin
      simp only [State.ledgerUp, hmem, Bool.or_true, Bool.and_true]
      rfl
    have hthere : ¬ (!s.members.testBit (j.pairOf job).partner || !s.ledgerUp (j.pairOf job)) = true := by
      rw [hup, show s.members.testBit (j.pairOf job).partner = true from hin]
      exact Bool.false_ne_true
    have hcheck : s.ledgerCheck (j.pairOf job) remote = remote := if_pos hself
    rw [if_neg (Bool.eq_false_iff.1 hgood), if_neg hthere, hcheck]
    refine ⟨fun hok => ?_, fun herr => ?_⟩
    · rw [if_neg (not_not.2 hok)]
      exact ⟨_, rfl, (State.loaderCall_some h).1, rfl⟩
    · rw [if_pos herr]
      exact ⟨_, rfl, State.endLoader_call h rfl _ _ _ _, rfl⟩

/-- The pairs with one pair in force in the place of its slice's pair. -/
def State.putPair (s : State) (job : Nat) (p : Pair) : State :=
  { s with fil := { s.fil with
    pairs := (s.fil.pairs.filter fun q : Pair => !(q.act == p.act && q.slice == p.slice && q.job == 0) && q.job != job) ++ [{ p with job := 0 }] } }

theorem execPairTakeEffect_pair {s : State} {job : Nat} {p : Pair} (h : s.fil.pairs.find? (·.job == job) = some p) :
    execPairTakeEffect job s = .next (if job = 0 ∨ s.now < p.start then s else
      (((s.putPair job p).endLoader job 0 0 0 []).fil.jobs.filter fun j => j.phase == .pair && j.act == p.act && j.desc.slice == p.slice).foldl
        (fun s j => s.stagePair j.id) ((s.putPair job p).endLoader job 0 0 0 [])) := by
  unfold execPairTakeEffect
  rw [h]
  rfl

/-- The end of a loader call leaves no job that waits for a pair. -/
theorem State.endLoader_noPair {s : State} (h : ∀ k ∈ s.fil.jobs, k.phase ≠ .pair) (job status detail result : Nat) (ret : List Byte) :
    ∀ k ∈ (s.endLoader job status detail result ret).fil.jobs, k.phase ≠ .pair := by
  refine State.forall_modJob (fun k hk _ => ?_) fun k hk _ => h k hk
  split
  · exact h k hk
  · exact fun hc => by cases hc

/-- The beat of a pair (R477). -/
theorem pairTakeEffect_answers (s : State) (job : Nat) (j : Job) (p : Pair) (hnz : job ≠ 0) (h : s.fil.pairs.find? (·.job == job) = some p)
    (hj : s.job? job = some j) (hl : j.phase = .loader) (hnone : ∀ k ∈ s.fil.jobs, k.phase ≠ .pair) :
    (p.start ≤ s.tally.beat → CompletesWith (exec (.pairTakeEffect job) s) fun u => Returned u j 0 0 0 [] ∧
      u.fil.pairs = (s.fil.pairs.filter fun q => !(q.act == p.act && q.slice == p.slice && q.job == 0) && q.job != job) ++ [{ p with job := 0 }]) ∧
    (s.tally.beat < p.start → exec (.pairTakeEffect job) s = .next s) := by
  rw [exec_pairTakeEffect, execPairTakeEffect_pair h]
  refine ⟨fun hstart => ?_, fun hearly => ?_⟩
  · have hdue : ¬ (job = 0 ∨ s.now < p.start) := not_or.2 ⟨hnz, Nat.not_lt.2 hstart⟩
    have hheld : (((s.putPair job p).endLoader job 0 0 0 []).fil.jobs.filter fun j => j.phase == .pair && j.act == p.act && j.desc.slice == p.slice) = [] :=
      List.filter_eq_nil_iff.2 fun k hk hc => State.endLoader_noPair hnone job 0 0 0 [] k hk (by simp only [Bool.and_eq_true, beq_iff_eq] at hc; exact hc.1.1)
    rw [if_neg hdue, hheld]
    exact ⟨_, rfl, State.endLoader_returned (u := s.putPair job p) hj hl _ _ _ _, rfl⟩
  · rw [if_pos (.inr hearly)]

/-! ## The ledger's argument (R479) -/

/-- A job whose argument is here waits for cores, where its crews have none. -/
theorem State.haveArgument_waits {s : State} {id : Nat} {j : Job} (data : List Byte) (hj : s.job? id = some j) (hr : j.desc.routine ≠ 0)
    (hcores : ∀ k ∈ s.fil.jobs, k.phase = .cores → False) (honly : ∀ k ∈ s.fil.jobs, k.id = id → k = j) (hc : s.coresOf j.crews = [])
    (hn : 0 < j.count) : s.haveArgument id data = s.modJob id fun j => { j with data := data, phase := .cores } := by
  have hstarts : (s.modJob id fun j => { j with data := data, phase := .cores }).tryStarts = _ :=
    State.tryStarts_noCores (State.forall_modJob (fun k hk hid _ => by rw [honly k hk hid]; exact ⟨hc, hn⟩) fun k hk _ hp => (hcores k hk hp).elim)
  unfold State.haveArgument
  rw [hj]
  exact (if_neg hr).trans hstarts

/-- A job that waits for a ledger elsewhere, with what the ledger's node read. -/
theorem State.takeLedger_read {s : State} {j : Job} {p : Pair} (entry half : List Byte) (hid : j.desc.jobId % 256 ≠ 0) (hself : p.ledger ≠ s.self) :
    s.takeLedger j p (some (entry, half)) = match ledgerArgument p j.desc.jobId entry half with
      | some d => ((s.modJob j.id fun j => { j with desc := { j.desc with argLen := d.length } }).haveArgument j.id d).count 0xE03 1
      | none => s.modJob j.id fun j => { j with phase := .ledger } := by
  unfold State.takeLedger
  rw [if_neg hid, if_neg hself]
  rfl

theorem execLedgerArgumentRelease_up {s : State} {job : Nat} {j : Job} {p : Pair} (ledger : Option (List Byte × List Byte)) (hj : s.job? job = some j)
    (hl : j.phase = .ledger) (hp : j.pair = some p) (hup : s.ledgerUp p = true) :
    execLedgerArgumentRelease job ledger s = .next (s.takeLedger j p ledger) := by
  simp only [execLedgerArgumentRelease, hj, hl, hp, hup, if_true]

/-- LEDGER_ARGUMENT_RELEASE (R479). -/
theorem ledgerArgumentRelease_answers (s : State) (job : Nat) (j : Job) (p : Pair) (entry half : List Byte) (hj : s.job? job = some j)
    (hl : j.phase = .ledger) (hp : j.pair = some p) (hbroken : p.broken = false) (hself : p.ledger ≠ s.self)
    (hmem : s.members.testBit p.ledger = true) (hid : j.desc.jobId % 256 ≠ 0) (hjobs : ∀ k ∈ s.fil.jobs, k.phase ≠ .cores ∧ (k.id = job → k = j))
    (hr : j.desc.routine ≠ 0) (hc : s.coresOf j.crews = []) (hn : 0 < j.count) :
    (leAt entry 0 8 + 1 = j.desc.jobId → leAt entry 8 1 ≠ 0xFF →
      CompletesWith (exec (.ledgerArgumentRelease job (some (entry, half))) s) fun u =>
        let d := half.take (min (leAt entry 12 4) p.slot)
        u.job? job = some { j with phase := .cores, data := d, desc := { j.desc with argLen := d.length } } ∧
        u.ctr 0xE03 = (s.ctr 0xE03 + 1) % 2 ^ 64) ∧
    (leAt entry 0 8 + 1 ≠ j.desc.jobId ∨ leAt entry 8 1 = 0xFF →
      CompletesWith (exec (.ledgerArgumentRelease job (some (entry, half))) s) fun u => u.job? job = some j ∧ u.ctr 0xE03 = s.ctr 0xE03) := by
  have hup : s.ledgerUp p = true := by simp [State.ledgerUp, hbroken, hmem]
  have hjid := State.job_id hj
  subst hjid
  rw [exec_ledgerArgumentRelease, execLedgerArgumentRelease_up _ hj hl hp hup, State.takeLedger_read entry half hid hself]
  refine ⟨fun hphase hwin => ?_, fun hnone => ?_⟩
  · rw [show ledgerArgument p j.desc.jobId entry half = _ from if_pos ⟨hphase, hwin⟩]
    set d := half.take (min (leAt entry 12 4) p.slot)
    have hsized := State.job_modJob (fun j : Job => { j with desc := { j.desc with argLen := d.length } }) hj fun _ => rfl
    have hwaits := State.haveArgument_waits d hsized hr
      (State.forall_modJob (fun k hk _ => (hjobs k hk).1) fun k hk _ => (hjobs k hk).1)
      (State.forall_modJob (fun k hk hid _ => by rw [(hjobs k hk).2 hid]) fun k hk hne he => absurd he hne) hc hn
    refine ⟨_, rfl, ?_, ?_⟩
    · show ((_ : State).haveArgument j.id d).job? j.id = _
      rw [hwaits]
      exact State.job_modJob _ hsized fun _ => rfl
    · rw [State.ctr_count_same, hwaits]
      rfl
  · have hlost : ledgerArgument p j.desc.jobId entry half = none := if_neg (by rintro ⟨ha, hb⟩; exact hnone.elim (absurd ha) (fun h => hb h))
    rw [hlost]
    refine ⟨_, rfl, ?_, rfl⟩
    exact (State.job_modJob (fun j : Job => { j with phase := .ledger }) hj fun _ => rfl).trans (by rw [← hl])

/-- Settles O57: each clause is what its command answers. -/
theorem loaderAndSlices : Obligations.LoaderAndSlices :=
  ⟨loadRoutine_answers, unloadRoutine_answers, routineRelease_answers, loaderUnknownOperation_answers, importTilePack_answers,
    fun s job j => ⟨exportRegion_answers s job j, fun h => ⟨(unexportRegion_answers s job j h).1, (unexportRegion_answers s job j h).2,
      unexportComplete_answers s job j h⟩, attestationQuote_answers s job j⟩,
    sysSlice_answers, sliceRecompose_answers, sliceResourceJoin_answers, pairSlice_answers, pairTakeEffect_answers, ledgerArgumentRelease_answers⟩

end Sys2Proof.Machine
end

section
/-! PROOFS. The job rings: polls and descriptors (R428, R57). -/
namespace Sys2Proof.Machine
open Sys2Proof.Claims

/-! ## Rings -/

theorem State.ring_ids (s : State) (act ring : Nat) : (s.ring act ring).act = act ∧ (s.ring act ring).ring = ring := by
  unfold State.ring
  cases h : s.host.rings.find? fun r => r.act == act && r.ring == ring with
  | none => exact ⟨rfl, rfl⟩
  | some r => simpa using List.find?_some h

/-- A ring is found in the list of rings alone. -/
theorem State.ring_congr {s u : State} (h : u.host.rings = s.host.rings) (act ring : Nat) : u.ring act ring = s.ring act ring := by
  unfold State.ring
  rw [h]

theorem State.ring_wr (s : State) (f : FieldRef) (v act ring : Nat) : (s.wr f v).ring act ring = s.ring act ring := State.ring_congr rfl act ring

theorem State.ring_modRing_same (s : State) (act ring : Nat) {f : Ring → Ring} (ha : (f (s.ring act ring)).act = (s.ring act ring).act)
    (hr : (f (s.ring act ring)).ring = (s.ring act ring).ring) : (s.modRing act ring f).ring act ring = f (s.ring act ring) := by
  obtain ⟨h1, h2⟩ := s.ring_ids act ring
  have hfound : ((s.modRing act ring f).host.rings.find? fun r => r.act == act && r.ring == ring) = some (f (s.ring act ring)) :=
    List.find?_cons_of_pos (by rw [ha, hr, h1, h2, beq_self_eq_true, beq_self_eq_true]; rfl)
  rw [State.ring, hfound]
  rfl

theorem State.ring_modRing_other (s : State) {act ring act' ring' : Nat} {f : Ring → Ring} (ha : (f (s.ring act ring)).act = (s.ring act ring).act)
    (hr : (f (s.ring act ring)).ring = (s.ring act ring).ring) (h : act' ≠ act ∨ ring' ≠ ring) :
    (s.modRing act ring f).ring act' ring' = s.ring act' ring' := by
  obtain ⟨h1, h2⟩ := s.ring_ids act ring
  have hne : ((f (s.ring act ring)).act == act' && (f (s.ring act ring)).ring == ring') = false := by
    rw [ha, hr, h1, h2]
    rcases h with h | h <;> simp [Ne.symm h]
  have hother : ∀ r : Ring, (r.act == act' && r.ring == ring') = true → (!(r.act == act && r.ring == ring)) = true := by
    intro r hc
    simp only [Bool.and_eq_true, beq_iff_eq] at hc
    obtain ⟨rfl, rfl⟩ := hc
    rcases h with h | h <;> simp [h]
  have hkept : ((s.host.rings.filter fun r => !(r.act == act && r.ring == ring)).find? fun r => r.act == act' && r.ring == ring') =
      s.host.rings.find? fun r => r.act == act' && r.ring == ring' := by
    rw [List.find?_filter]
    congr 1
    funext r
    cases hc : (r.act == act' && r.ring == ring') with
    | false => simp
    | true => simp [hother r hc]
  have hfound : ((s.modRing act ring f).host.rings.find? fun r => r.act == act' && r.ring == ring') = _ :=
    (List.find?_cons_of_neg (by rw [hne]; exact Bool.false_ne_true)).trans hkept
  rw [State.ring, hfound]
  rfl

/-! ## Polls (R428) -/

/-- The descriptors that a poll takes from a ring. -/
def State.polled (s : State) (act ring : Nat) (words : List Nat) : Nat :=
  min (seqRun (s.ring act ring).next (words.take (min 64 (s.ringSize act ring)))) (s.ringRoom act ring)

/-- A ring from which a poll has taken the descriptors from a number on. -/
def Ring.taken (k n : Nat) (r : Ring) : Ring := { r with next := r.next + n, fetching := r.fetching ++ ((List.range n).map (k + ·)).map (·, none) }

/-- The reads of descriptors that a poll asks for. -/
def State.asks (s : State) (act ring n : Nat) : State :=
  ((List.range n).map ((s.ring act ring).next + ·)).foldl (fun u k => u.emit (.hostRead act (s.rd (F.sqBaseLo_base act ring) * 4096 +
    2 ^ 32 * s.rd (F.sqBaseHi_base act ring) + k % s.ringSize act ring * 128) 128)) s

/-- A poll of a ring that takes some descriptors. -/
def State.takes (s : State) (act ring n : Nat) : State :=
  ((s.asks act ring n).modRing act ring (Ring.taken (s.ring act ring).next n)).wr (F.ringSeq_next act ring) ((s.ring act ring).next + n)

theorem State.pollRing_off {s : State} {act ring : Nat} (words : List Nat) (h : s.on (F.ringCtrl_enable act ring) = false) :
    s.pollRing act ring words = (0, s) := by
  unfold State.pollRing
  rw [h]
  rfl

theorem State.pollRing_on {s : State} {act ring : Nat} (words : List Nat) (h : s.on (F.ringCtrl_enable act ring) = true) :
    s.pollRing act ring words = (s.polled act ring words, s.takes act ring (s.polled act ring words)) := by
  unfold State.pollRing
  exact if_neg (by rw [h]; exact Bool.false_ne_true)

/-- One SEQ word: the descriptor is there, or nothing is. -/
theorem State.polled_one (s : State) (act ring w : Nat) : s.polled act ring [w] =
    min (if w % 2 ^ 32 = (s.ring act ring).next % 2 ^ 32 then 1 else 0) (s.ringRoom act ring) := by
  have hsize : 0 < s.ringSize act ring := by
    unfold State.ringSize
    split
    · exact Nat.two_pow_pos _
    · omega
  have hall : [w].take (min 64 (s.ringSize act ring)) = [w] := List.take_of_length_le (by simp only [List.length_singleton]; omega)
  unfold State.polled
  rw [hall]
  simp only [seqRun, Nat.add_zero]

/-- Where the Midway ring is empty, its part of a poll takes nothing. -/
theorem State.pollMidway_empty {s : State} {act : Nat} (h : (s.ring act 4).entries = []) :
    s.pollMidway act = (0, s.modRing act 4 fun r => { r with next := r.next + 0, entries := r.entries.drop 0 }) := by
  simp only [State.pollMidway, h, List.length_nil, Nat.zero_min, List.take_nil, List.zipIdx_nil, List.foldl_nil]

/-- A poll beat of an act that polls its first ring alone. -/
structure PollsFirst (s : State) (act : Nat) : Prop where
  below : act < 16
  beat : s.pollBeat act = true
  enable : s.on (F.actCtrl_enable act) = true
  halt : s.on (F.actCtrl_halt act) = false
  fn : s.fnOn act = true
  p4 : s.on F.pwrStatus_p4 = false
  reset : s.rst.run = none
  quiet : s.flash.quiet = false
  ost : s.on F.hifOstCtrl_active = false
  ring0 : s.on (F.ringCtrl_enable act 0) = true
  others : ∀ r, 1 ≤ r → r < 4 → s.on (F.ringCtrl_enable act r) = false
  midway : (s.ring act 4).entries = []

/-- A field read in another register than those written. -/
theorem State.on_congr {s u : State} {f : FieldRef} (h : u.reg f.off = s.reg f.off) : u.on f = s.on f := by
  unfold State.on State.rd
  rw [h]

theorem State.asks_onOut (s : State) (act ring n : Nat) : ∃ out, s.asks act ring n = { s with host := { s.host with out := out } } := by
  unfold State.asks
  refine foldl_keeps (P := fun u : State => ∃ out, u = { s with host := { s.host with out := out } }) (fun u k hu => ?_) _ ⟨_, rfl⟩
  obtain ⟨out, rfl⟩ := hu
  exact ⟨_, rfl⟩

theorem State.takes_reg_other (s : State) {act ring off : Nat} (n : Nat) (h : (F.ringSeq_next act ring).off ≠ off) :
    (s.takes act ring n).reg off = s.reg off := by
  obtain ⟨out, hout⟩ := s.asks_onOut act ring n
  rw [State.takes, State.reg_wr_other _ _ _ h, hout]
  rfl

/-- What a poll leaves of the ring it took from. -/
theorem State.takes_ring (s : State) (act ring n : Nat) : (s.takes act ring n).ring act ring = Ring.taken (s.ring act ring).next n (s.ring act ring) := by
  obtain ⟨out, hout⟩ := s.asks_onOut act ring n
  rw [State.takes, State.ring_wr, State.ring_modRing_same _ _ _ rfl rfl, hout]
  rfl

theorem State.takes_ring_midway (s : State) {act ring : Nat} (n : Nat) (h : ring ≠ 4) : (s.takes act ring n).ring act 4 = s.ring act 4 := by
  obtain ⟨out, hout⟩ := s.asks_onOut act ring n
  rw [State.takes, State.ring_wr, State.ring_modRing_other _ rfl rfl (.inr (Ne.symm h)), hout]
  rfl

/-- A poll of the first ring, the other rings being off and the Midway ring empty. -/
theorem execRingPoll_first {s : State} {act : Nat} (h : PollsFirst s act) (w : Nat) : execRingPoll act [[w]] s = .next (
    let n := s.polled act 0 [w]
    let u := (s.takes act 0 n).modRing act 4 fun r => { r with next := r.next + 0, entries := r.entries.drop 0 }
    if n + 0 = 0 then u.count 0xC21 1 else u) := by
  have hpolls : ¬ (act ≥ 16 ∨ (!s.pollBeat act) = true ∨ (!s.on (F.actCtrl_enable act)) = true ∨ s.on (F.actCtrl_halt act) = true ∨ (!s.fnOn act) = true ∨
      s.on F.pwrStatus_p4 = true ∨ s.rst.run.isSome = true ∨ s.flash.quiet = true) := by
    simp [h.below, h.beat, h.enable, h.halt, h.fn, h.p4, h.reset, h.quiet]
  have hoff : ∀ r words, 1 ≤ r → r < 4 → (s.takes act 0 (s.polled act 0 [w])).pollRing act r words = (0, s.takes act 0 (s.polled act 0 [w])) := by
    intro r words h1 h4
    refine State.pollRing_off words ((State.on_congr (State.takes_reg_other s _ ?_)).trans (h.others r h1 h4))
    simp only [F.ringSeq_next, F.ringCtrl_enable]
    omega
  have hmidway : ((s.takes act 0 (s.polled act 0 [w])).ring act 4).entries = [] := by
    rw [State.takes_ring_midway s _ (by decide), h.midway]
  unfold execRingPoll
  refine congrArg Host.Outcome.next ((if_neg hpolls).trans ?_)
  rw [show List.range 4 = [0, 1, 2, 3] from rfl, h.ost]
  simp only [Bool.false_eq_true, false_and, if_false, List.foldl_cons, List.foldl_nil, List.getD_cons_zero, State.pollRing_on _ h.ring0,
    hoff 1 _ (by decide) (by decide), hoff 2 _ (by decide) (by decide), hoff 3 _ (by decide) (by decide), State.pollMidway_empty hmidway,
    Nat.zero_add, Nat.add_zero]

/-- The reads asked for go out, and a poll takes nothing else from the state than the ring. -/
theorem State.takes_rest (s : State) (act ring n : Nat) : (s.takes act ring n).host.out = (s.asks act ring n).host.out ∧
    (s.takes act ring n).fil = s.fil ∧ (s.takes act ring n).telem = s.telem ∧
    (s.takes act ring n).rd (F.ringSeq_next act ring) = ((s.ring act ring).next + n) % 2 ^ 32 := by
  obtain ⟨out, hout⟩ := s.asks_onOut act ring n
  refine ⟨rfl, ?_, ?_, State.rd_wr_same _ _ _ (by simp [F.ringSeq_next])⟩ <;>
  · rw [State.takes, hout]
    rfl

/-- RING_POLL of a ring whose next descriptor is there, or is not (R428). -/
theorem ringPoll_answers (s : State) (act w : Nat) (h : PollsFirst s act) :
    let r := s.ring act 0
    let base := s.rd (F.sqBaseLo_base act 0) * 4096 + 2 ^ 32 * s.rd (F.sqBaseHi_base act 0)
    (w % 2 ^ 32 = r.next % 2 ^ 32 → 0 < s.ringRoom act 0 → CompletesWith (exec (.ringPoll act [[w]]) s) fun u =>
      u.ring act 0 = { r with next := r.next + 1, fetching := r.fetching ++ [(r.next, none)] } ∧
      u.host.out = .hostRead act (base + r.next % s.ringSize act 0 * 128) 128 :: s.host.out ∧
      u.rd (F.ringSeq_next act 0) = (r.next + 1) % 2 ^ 32 ∧ u.fil = s.fil ∧ u.telem = s.telem) ∧
    (w % 2 ^ 32 ≠ r.next % 2 ^ 32 → CompletesWith (exec (.ringPoll act [[w]]) s) fun u =>
      u.host.out = s.host.out ∧ u.ring act 0 = r ∧ u.ctr 0xC21 = (s.ctr 0xC21 + 1) % 2 ^ 64) := by
  intro r base
  have hring : ∀ n, ((s.takes act 0 n).modRing act 4 fun r => { r with next := r.next + 0, entries := r.entries.drop 0 }).ring act 0 = Ring.taken r.next n r :=
    fun n => (State.ring_modRing_other _ rfl rfl (.inr (by decide))).trans (s.takes_ring act 0 n)
  rw [exec_ringPoll, execRingPoll_first h w]
  refine ⟨fun hw hroom => ?_, fun hw => ?_⟩
  · have hn : s.polled act 0 [w] = 1 := by
      rw [State.polled_one, if_pos hw]
      omega
    obtain ⟨hout, hfil, htelem, hrd⟩ := s.takes_rest act 0 1
    rw [hn]
    exact ⟨_, rfl, hring 1, hout, hrd, hfil, htelem⟩
  · have hn : s.polled act 0 [w] = 0 := by
      rw [State.polled_one, if_neg hw, Nat.zero_min]
    obtain ⟨hout, -, htelem, -⟩ := s.takes_rest act 0 0
    rw [hn]
    refine ⟨_, rfl, hout, (State.ring_congr rfl act 0).trans ((hring 0).trans ?_), ?_⟩
    · simp [Ring.taken]
    · have hctr : (s.takes act 0 0).ctr 0xC21 = s.ctr 0xC21 := by
        unfold State.ctr
        rw [htelem]
      exact (State.ctr_count_same _ _ _).trans (congrArg (fun n => (n + 1) % 2 ^ 64) hctr)

end Sys2Proof.Machine
end

section
/-! PROOFS. The path of a job from its pick-up to its start (R57). -/
namespace Sys2Proof.Machine
open Sys2Proof.Claims

/-! ## The stages -/

/-- A routine job whose block is to be read: its strands are counted, and its argument is asked for. -/
def State.asksArgument (s : State) (j : Job) (n : Nat) : State :=
  (s.modJob j.id fun j => { j with count := n }).readFor j j.desc.argAddr j.desc.argLen

theorem State.stageArgument_few {s : State} {j : Job} {r : Routine} (hr : j.desc.routine ≠ 0) (hof : s.routineOf j = some r)
    (hn : s.strandCount j r < r.smin) : s.stageArgument j = s.refuseJob j.id 5 := by
  unfold State.stageArgument
  rw [hof]
  split
  · next h => exact absurd h hr
  · next h _ => cases h
  · next h _ =>
    cases h
    exact if_pos hn

theorem State.stageArgument_reads {s : State} {j : Job} {r : Routine} (hr : j.desc.routine ≠ 0) (hof : s.routineOf j = some r)
    (hn : r.smin ≤ s.strandCount j r) (ho : j.origin = none) (hp : j.pair = none) (ha : 0 < j.desc.argLen) :
    s.stageArgument j = s.asksArgument j (s.strandCount j r) := by
  unfold State.stageArgument
  rw [hof]
  split
  · next h => exact absurd h hr
  · next h _ => cases h
  · next h _ =>
    cases h
    rw [if_neg (Nat.not_lt.2 hn), ho, hp]
    exact if_neg ha.ne'

theorem State.stagePair_none {s : State} {id : Nat} {j : Job} (hj : s.job? id = some j) (hp : j.pair = none) : s.stagePair id = s.stageArgument j := by
  simp only [State.stagePair, hj, hp]

/-- A job with the snapshot and the drift policy that the checks of another, itself as it is found, give it. -/
def Job.fixed (j : Job) (stable : Nat) (k : Job) : Job :=
  { k with
    snapshot := if bitOf j.desc.flags 1 then j.desc.snapshot else stable
    rerun := if bitOf j.desc.flags 4 then bitOf j.desc.flags 5 else decide (j.crews.length > 4) }

theorem State.stageSnapshot_goes {s : State} {id : Nat} {j : Job} (hj : s.job? id = some j)
    (hset : bitOf j.desc.flags 1 = true → j.desc.snapshot ≤ s.tally.stable ∧ s.oldest j.act ≤ j.desc.snapshot) :
    s.stageSnapshot id = (s.modJob id (j.fixed s.tally.stable)).stagePair id := by
  have h1 : ¬ (bitOf j.desc.flags 1 = true ∧ s.tally.stable < j.desc.snapshot) := fun h => Nat.not_lt.2 (hset h.1).1 h.2
  have h2 : ¬ (bitOf j.desc.flags 1 = true ∧ j.desc.snapshot < s.oldest j.act) := fun h => Nat.not_lt.2 (hset h.1).2 h.2
  unfold State.stageSnapshot
  rw [hj]
  exact (if_neg h1).trans (if_neg h2)

theorem State.stageSnapshot_old {s : State} {id : Nat} {j : Job} (hj : s.job? id = some j) (hset : bitOf j.desc.flags 1 = true)
    (hs : j.desc.snapshot ≤ s.tally.stable) (ho : j.desc.snapshot < s.oldest j.act) : s.stageSnapshot id = s.refuseJob id 6 := by
  unfold State.stageSnapshot
  rw [hj]
  exact (if_neg fun h => Nat.not_lt.2 hs h.2).trans (if_pos ⟨hset, ho⟩)

/-- The whole path of a routine job without a pair: its snapshot, its strands, and the read of its argument. -/
theorem State.stageSnapshot_routine {s : State} {id : Nat} {j : Job} {r : Routine} (hj : s.job? id = some j)
    (hset : bitOf j.desc.flags 1 = true → j.desc.snapshot ≤ s.tally.stable ∧ s.oldest j.act ≤ j.desc.snapshot)
    (hr : j.desc.routine ≠ 0) (hof : s.routineOf j = some r) (ho : j.origin = none) (hp : j.pair = none) (ha : 0 < j.desc.argLen) :
    (r.smin ≤ s.strandCount j r → s.stageSnapshot id =
      (s.modJob id (j.fixed s.tally.stable)).asksArgument (j.fixed s.tally.stable j) (s.strandCount j r)) ∧
    (s.strandCount j r < r.smin → s.stageSnapshot id = (s.modJob id (j.fixed s.tally.stable)).refuseJob id 5) := by
  have hfixed : (s.modJob id (j.fixed s.tally.stable)).job? id = some (j.fixed s.tally.stable j) := State.job_modJob _ hj fun _ => rfl
  have hpath := (State.stageSnapshot_goes hj hset).trans (State.stagePair_none hfixed hp)
  have hroutine : (s.modJob id (j.fixed s.tally.stable)).routineOf (j.fixed s.tally.stable j) = some r := (State.routineOf_congr rfl rfl rfl).trans hof
  refine ⟨fun hn => hpath.trans (State.stageArgument_reads hr hroutine hn ho hp ha), fun hn => hpath.trans ?_⟩
  have hid : (j.fixed s.tally.stable j).id = id := State.job_id hfixed
  exact (State.stageArgument_few (j := j.fixed s.tally.stable j) hr hroutine hn).trans (by rw [hid])

/-- A job that ends before any strand ran. -/
def Job.endsEarly (j : Job) (status detail : Nat) : Job := { j with phase := if j.paired then .running else .ended, status := status, detail := detail }

theorem State.job_endEarly {s : State} {id : Nat} {j : Job} (hj : s.job? id = some j) (status detail : Nat) :
    (s.endEarly id status detail).job? id = some (j.endsEarly status detail) := State.job_modJob _ hj fun _ => rfl

theorem State.job_refuseJob {s : State} {id : Nat} {j : Job} (hj : s.job? id = some j) (detail : Nat) :
    (s.refuseJob id detail).job? id = some { j.endsEarly 0x60 detail with snapshot := 0, rerun := false } :=
  State.job_modJob _ (State.job_endEarly hj 0x60 detail) fun _ => rfl

/-! ## The pick-up -/

/-- The jobs of a state, and one more with a number of its own. -/
structure OneMore (s u : State) (j : Job) : Prop where
  jobs : u.fil.jobs = s.fil.jobs ++ [j]
  alone : ∀ k ∈ s.fil.jobs, k.id ≠ j.id

theorem OneMore.job {s u : State} {j : Job} (h : OneMore s u j) : u.job? j.id = some j := by
  have hnone : s.fil.jobs.find? (·.id == j.id) = none := List.find?_eq_none.2 fun k hk he => h.alone k hk (beq_iff_eq.1 he)
  unfold State.job?
  rw [h.jobs, List.find?_append, hnone, Option.none_or]
  exact List.find?_cons_of_pos (beq_self_eq_true j.id)

/-- A change of the new job. -/
theorem OneMore.modJob {s u : State} {j : Job} (h : OneMore s u j) {id : Nat} (hid : id = j.id) (f : Job → Job) (hf : (f j).id = j.id) :
    OneMore s (u.modJob id f) (f j) := by
  subst hid
  have hold : updWhere (·.id == j.id) f s.fil.jobs = s.fil.jobs := by
    unfold updWhere
    refine (List.map_congr_left fun k hk => if_neg fun he => ?_).trans (List.map_id _)
    exact h.alone k hk (beq_iff_eq.1 he)
  have hnew : updWhere (·.id == j.id) f [j] = [f j] := by simp [updWhere]
  refine ⟨?_, fun k hk => by rw [hf]; exact h.alone k hk⟩
  show updWhere _ f u.fil.jobs = _
  rw [h.jobs]
  conv_rhs => rw [← hold, ← hnew]
  exact List.map_append

theorem OneMore.refuseJob {s u : State} {j : Job} (h : OneMore s u j) {id : Nat} (hid : id = j.id) (detail : Nat) :
    OneMore s (u.refuseJob id detail) { j.endsEarly 0x60 detail with snapshot := 0, rerun := false } :=
  (h.modJob hid (fun j => j.endsEarly 0x60 detail) rfl).modJob hid _ rfl

/-- A job picked up from a ring, before its checks. -/
def State.picks (s : State) (act : Nat) (j : Job) : State :=
  ({ s.fresh with fil := { s.fil with jobs := s.fil.jobs ++ [j] } }).count (0xC00 + act) 1

theorem State.picks_oneMore {s : State} (act : Nat) {j : Job} (h : ∀ k ∈ s.fil.jobs, k.id ≠ j.id) : OneMore s (s.picks act j) j := ⟨rfl, h⟩

/-- A job that is no loader call unloads nothing. -/
theorem State.named_picks {s : State} (act : Nat) {j : Job} (a handle : Nat) (hr : j.desc.routine ≠ 0) : (s.picks act j).named? a handle = s.named? a handle := by
  have hnew : (j.act == a && j.desc.routine == 0 && j.desc.arg 1 == 1 && j.desc.arg 2 == handle && j.phase != .ended) = false := by simp [hr]
  unfold State.named?
  rw [show (s.picks act j).fil.jobs = s.fil.jobs ++ [j] from rfl, List.any_append, List.any_cons, hnew]
  simp only [List.any_nil, Bool.or_false]
  rfl

/-- What the checks of a pick-up make of a job (R57). -/
def State.checks (s : State) (act id : Nat) (d : Desc) : State :=
  if d.reserved then s.refuseJob id 1
  else if d.routine ≠ 0 ∧ !s.named? act d.routine then s.refuseJob id 2
  else if d.routine = 0 then
    if d.tooLong then s.refuseJob id 4 else s.stageSnapshot id
  else
    match s.target act d.slice with
    | none => s.refuseJob id 3
    | some (crews, num) =>
      if d.tooLong || decide (d.strands > 64) then s.refuseJob id 4
      else (s.modJob id fun j => { j with crews := crews, desc := { j.desc with slice := num }, pair := s.pairOf act num }).stageSnapshot id

/-- A pick-up from a ring of the host. -/
theorem State.pickUp_host (s : State) {ring : Nat} (act num : Nat) (b : List Byte) (h : ring < 4) : s.pickUp act ring num b none =
    (s.picks act (newJob s.nextId act ring num (readDesc b) s.now none)).checks act s.nextId (readDesc b) := by
  have hring : ¬ (ring = 4 ∧ act = 0 ∧ s.on F.hifOstCtrl_active = true) := fun hc => by omega
  simp only [State.pickUp, if_neg hring, if_pos h]
  rfl

theorem State.checks_reserved {s : State} {d : Desc} (act id : Nat) (h : d.reserved = true) : s.checks act id d = s.refuseJob id 1 := if_pos h

theorem State.checks_unnamed {s : State} {act : Nat} {d : Desc} (id : Nat) (h : d.reserved = false) (hr : d.routine ≠ 0)
    (hn : s.named? act d.routine = false) : s.checks act id d = s.refuseJob id 2 :=
  (if_neg (Bool.eq_false_iff.1 h)).trans (if_pos ⟨hr, by rw [hn]; rfl⟩)

/-- A routine job on its slice, before its snapshot. -/
def State.placed (s : State) (act id : Nat) (crews : List Nat) (num : Nat) : State :=
  s.modJob id fun j => { j with crews := crews, desc := { j.desc with slice := num }, pair := s.pairOf act num }

theorem State.checks_placed {s : State} {act num : Nat} {d : Desc} {crews : List Nat} (id : Nat) (h : d.reserved = false) (hr : d.routine ≠ 0)
    (hn : s.named? act d.routine = true) (ht : s.target act d.slice = some (crews, num)) (hl : d.tooLong = false) (hs : d.strands ≤ 64) :
    s.checks act id d = (s.placed act id crews num).stageSnapshot id := by
  have hshort : ¬ ((d.tooLong || decide (d.strands > 64)) = true) := by
    rw [hl]
    simpa using hs
  have hnamed : ¬ (d.routine ≠ 0 ∧ (!s.named? act d.routine) = true) := by simp [hn]
  refine (if_neg (Bool.eq_false_iff.1 h)).trans ((if_neg hnamed).trans ((if_neg hr).trans ?_))
  rw [ht]
  exact if_neg hshort

/-! ## A descriptor that has been read -/

/-- A ring's descriptor taken off the list of those on their way. -/
def State.takesDescriptor (s : State) (act ring num : Nat) (b : List Byte) : State :=
  (s.modRing act ring fun r => { r with fetching := r.fetching.map fun e => if e.1 = num then (num, some b) else e }).modRing act ring
    fun r => { r with fetching := [] }

theorem State.takesDescriptor_ring (s : State) (act ring num : Nat) (b : List Byte) : ((s.takesDescriptor act ring num b).ring act ring).fetching = [] := by
  rw [State.takesDescriptor, State.ring_modRing_same _ _ _ rfl rfl]

theorem execDescriptorFetchComplete_only {s : State} {act ring num : Nat} (b : List Byte) (h : (s.ring act ring).fetching = [(num, none)]) :
    execDescriptorFetchComplete act ring num b s = .next ((s.takesDescriptor act ring num b).pickUp act ring num b none) := by
  have hwaits : (s.ring act ring).fetching.contains (num, none) = true := by
    rw [h]
    exact List.contains_iff_mem.2 List.mem_cons_self
  have hread : ((s.modRing act ring fun r => { r with fetching := r.fetching.map fun e => if e.1 = num then (num, some b) else e }).ring act
      ring).fetching = [(num, some b)] := by
    rw [State.ring_modRing_same _ _ _ rfl rfl]
    simp [h]
  simp only [execDescriptorFetchComplete, hwaits, Bool.not_true, Bool.false_eq_true, if_false, hread, List.length_cons, List.length_nil, State.pickUpReady]
  rfl

/-- The descriptor's pick-up, from the state without it. -/
theorem execDescriptorFetchComplete_picks {s : State} {act ring num : Nat} (b : List Byte) (hr : ring < 4) (h : (s.ring act ring).fetching = [(num, none)]) :
    execDescriptorFetchComplete act ring num b s = .next (((s.takesDescriptor act ring num b).picks act
      (newJob s.nextId act ring num (readDesc b) s.tally.beat none)).checks act s.nextId (readDesc b)) := by
  rw [execDescriptorFetchComplete_only b h, State.pickUp_host _ act num b hr]
  rfl

theorem OneMore.asksArgument {s u : State} {j k : Job} (h : OneMore s u k) (hid : j.id = k.id) (n : Nat) :
    OneMore s (u.asksArgument j n) { k with count := n, phase := .argument } := by
  obtain ⟨hjobs, halone⟩ := (h.modJob hid (fun j => { j with count := n }) rfl).modJob hid (fun j => { j with phase := .argument }) rfl
  exact ⟨hjobs, halone⟩

/-- A job placed on a slice without a pair. -/
def Job.placed (j : Job) (crews : List Nat) (slice : Nat) : Job := { j with crews := crews, desc := { j.desc with slice := slice }, pair := none }

theorem OneMore.placed {s u : State} {j : Job} (h : OneMore s u j) {id : Nat} (hid : id = j.id) (hpairs : u.fil.pairs = []) (act : Nat) (crews : List Nat)
    (slice : Nat) : OneMore s (u.placed act id crews slice) (j.placed crews slice) := by
  have hnone : u.pairOf act slice = none := by
    unfold State.pairOf
    rw [hpairs]
    rfl
  rw [State.placed, hnone]
  exact h.modJob hid (fun j => j.placed crews slice) rfl

/-- The number of strands that a descriptor gets of a routine on some crews (R31). -/
def State.strandsFor (s : State) (d : Desc) (r : Routine) (crews : List Nat) : Nat :=
  min (min (if d.strands = 0 then r.smax else d.strands) r.smax) (s.coresOf crews).length

/-- A routine job as its argument is asked for. -/
def Job.asking (j : Job) (crews : List Nat) (slice stable n : Nat) : Job :=
  { j with crews := crews, desc := { j.desc with slice := slice }, snapshot := stable, rerun := decide (4 < crews.length), count := n,
           phase := .argument, pair := none }

/-- A descriptor of a routine, picked up: its job asks for its argument, or has too few strands. -/
theorem State.picks_checks_routine {s : State} {j : Job} {r : Routine} {crews : List Nat} {slice : Nat} (hfree : ∀ k ∈ s.fil.jobs, k.id ≠ j.id)
    (hres : j.desc.reserved = false) (hr : j.desc.routine ≠ 0) (hnamed : s.named? j.act j.desc.routine = true)
    (htarget : s.target j.act j.desc.slice = some (crews, slice)) (hlen : j.desc.tooLong = false) (hstrands : j.desc.strands ≤ 64)
    (h1 : bitOf j.desc.flags 1 = false) (h4 : bitOf j.desc.flags 4 = false) (hpairs : s.fil.pairs = []) (hof : s.routineOf j = some r)
    (ha : 0 < j.desc.argLen) (ho : j.origin = none) :
    (r.smin ≤ s.strandsFor j.desc r crews →
      OneMore s ((s.picks j.act j).checks j.act j.id j.desc) (j.asking crews slice s.tally.stable (s.strandsFor j.desc r crews)) ∧
      ((s.picks j.act j).checks j.act j.id j.desc).host.out = .hostRead j.act j.desc.argAddr j.desc.argLen :: s.host.out) ∧
    (s.strandsFor j.desc r crews < r.smin → ∃ k, ((s.picks j.act j).checks j.act j.id j.desc).job? j.id = some k ∧
      k.phase = .ended ∧ k.status = 0x60 ∧ k.detail = 5) := by
  have hplaced := (State.picks_oneMore j.act hfree).placed (id := j.id) rfl hpairs j.act crews slice
  have hfixed := hplaced.modJob (id := j.id) rfl ((j.placed crews slice).fixed s.tally.stable) rfl
  obtain ⟨hgoes, hfew⟩ := State.stageSnapshot_routine hplaced.job (fun hset => absurd hset (Bool.eq_false_iff.1 h1)) hr
    ((State.routineOf_congr rfl rfl rfl).trans hof) ho rfl ha
  have hchecks := State.checks_placed (s := s.picks j.act j) j.id hres hr ((State.named_picks j.act j.act j.desc.routine hr).trans hnamed)
    htarget hlen hstrands
  have hask : ({ (j.placed crews slice).fixed s.tally.stable (j.placed crews slice) with count := s.strandsFor j.desc r crews, phase := .argument } : Job) =
      j.asking crews slice s.tally.stable (s.strandsFor j.desc r crews) := by
    simp [Job.fixed, Job.placed, Job.asking, h1, h4]
  refine ⟨fun hn => ?_, fun hn => ?_⟩
  · have hasked := hfixed.asksArgument (j := (j.placed crews slice).fixed s.tally.stable (j.placed crews slice)) rfl (s.strandsFor j.desc r crews)
    rw [hask] at hasked
    rw [hchecks.trans (hgoes hn)]
    exact ⟨hasked, rfl⟩
  · rw [hchecks.trans (hfew hn)]
    exact ⟨_, State.job_refuseJob hfixed.job 5, rfl, rfl, rfl⟩

/-- DESCRIPTOR_FETCH_COMPLETE of a ring's only descriptor on its way (R57). -/
theorem descriptorFetchComplete_answers (s : State) (act ring num : Nat) (b : List Byte) (hring : ring < 4)
    (hf : (s.ring act ring).fetching = [(num, none)]) (hfree : ∀ j ∈ s.fil.jobs, j.id ≠ s.nextId) :
    let d := readDesc b
    let j := newJob s.nextId act ring num d s.tally.beat none
    ((d.reserved = true → CompletesWith (exec (.descriptorFetchComplete act ring num b) s) fun u =>
        u.fil.jobs = s.fil.jobs ++ [{ j with phase := .ended, status := 0x60, detail := 1 }] ∧
        (u.ring act ring).fetching = [] ∧ u.ctr (0xC00 + act) = (s.ctr (0xC00 + act) + 1) % 2 ^ 64) ∧
      (d.reserved = false → d.routine ≠ 0 → (∀ r ∈ s.fil.routines, r.act = act → r.handle ≠ d.routine) →
        CompletesWith (exec (.descriptorFetchComplete act ring num b) s) fun u =>
          u.fil.jobs = s.fil.jobs ++ [{ j with phase := .ended, status := 0x60, detail := 2 }] ∧ (u.ring act ring).fetching = [])) ∧
    ∀ (r : Routine) (crews : List Nat) (slice : Nat), d.reserved = false → d.routine ≠ 0 → s.named? act d.routine = true →
      s.target act d.slice = some (crews, slice) → d.tooLong = false → d.strands ≤ 64 → bitOf d.flags 1 = false → bitOf d.flags 4 = false →
      s.fil.pairs = [] → s.routineOf j = some r → 0 < d.argLen →
      let n := min (min (if d.strands = 0 then r.smax else d.strands) r.smax) (s.coresOf crews).length
      (r.smin ≤ n → CompletesWith (exec (.descriptorFetchComplete act ring num b) s) fun u =>
        u.fil.jobs = s.fil.jobs ++ [{ j with
          crews := crews, desc := { d with slice := slice }, snapshot := s.tally.stable, rerun := decide (4 < crews.length), count := n }] ∧
        u.host.out = .hostRead act d.argAddr d.argLen :: s.host.out) ∧
      (n < r.smin → CompletesWith (exec (.descriptorFetchComplete act ring num b) s) fun u =>
        ∃ j', u.job? s.nextId = some j' ∧ j'.phase = .ended ∧ j'.status = 0x60 ∧ j'.detail = 5) := by
  intro d j
  rw [exec_descriptorFetchComplete, execDescriptorFetchComplete_picks b hring hf]
  have hgone := s.takesDescriptor_ring act ring num b
  have hone : OneMore s ((s.takesDescriptor act ring num b).picks act j) j := ⟨rfl, hfree⟩
  refine ⟨⟨fun hres => ?_, fun hres hr hnone => ?_⟩, fun r crews slice hres hr hnamed htarget hlen hstrands h1 h4 hpairs hof ha => ?_⟩
  · rw [State.checks_reserved act s.nextId hres]
    exact ⟨_, rfl, (hone.refuseJob rfl 1).jobs, hgone, State.ctr_count_same (_ : State) _ _⟩
  · have hunnamed : ((s.takesDescriptor act ring num b).picks act j).named? act d.routine = false := by
      have hno : (s.fil.routines.any fun r => r.act == act && r.handle == d.routine && !r.unloaded) = false :=
        List.any_eq_false.2 fun r hrm hc => by
          simp only [Bool.and_eq_true, beq_iff_eq] at hc
          exact hnone r hrm hc.1.1 hc.1.2
      refine (State.named_picks act act d.routine hr).trans ?_
      exact congrArg (· && _) hno
    rw [State.checks_unnamed s.nextId hres hr hunnamed]
    exact ⟨_, rfl, (hone.refuseJob rfl 2).jobs, hgone⟩
  · obtain ⟨hasks, hfew⟩ := State.picks_checks_routine (s := s.takesDescriptor act ring num b) (j := j) hfree hres hr hnamed htarget hlen hstrands h1 h4
      hpairs hof ha rfl
    refine ⟨fun hn => ?_, fun hn => ⟨_, rfl, hfew hn⟩⟩
    obtain ⟨hone, hout⟩ := hasks hn
    exact ⟨_, rfl, hone.jobs, hout⟩

end Sys2Proof.Machine
end

section
/-! PROOFS. Failed reads of the host, and the jobs they belong to (R426). -/
namespace Sys2Proof.Machine
open Sys2Proof.Claims

/-! ## Failed reads (R426) -/

theorem RegsOnly.mono {s u : State} {l k : List Nat} (h : RegsOnly s u l) (hl : l ⊆ k) : RegsOnly s u k :=
  ⟨fun off ho => h.1 off fun hm => ho (hl hm), h.2⟩

theorem State.on_of_rd {s : State} {f : FieldRef} {n : Nat} (h : s.rd f = n) : s.on f = (n == 1) := by
  unfold State.on
  rw [h]

/-- A ring that a failed read disables. -/
def State.failsRing (s : State) (act ring : Nat) : State := (s.wr (F.ringCtrl_enable act ring) 0).wr (F.ringStatus_fetchErr act ring) 1

theorem State.failsRing_regsOnly (s : State) (act ring : Nat) :
    RegsOnly s (s.failsRing act ring) [(F.ringCtrl_enable act ring).off, (F.ringStatus_fetchErr act ring).off] :=
  ((s.wr_regsOnly _ _).mono (by simp)).trans ((State.wr_regsOnly _ _ _).mono (by simp))

theorem State.failsRing_on (s : State) (act ring : Nat) : (s.failsRing act ring).on (F.ringCtrl_enable act ring) = false ∧
    (s.failsRing act ring).on (F.ringStatus_fetchErr act ring) = true := by
  refine ⟨State.on_of_rd (n := 0) ?_, State.on_of_rd (n := 1) (State.rd_wr_same _ _ _ (by simp [F.ringStatus_fetchErr]))⟩
  rw [State.failsRing, State.rd_wr_other _ _ _ _ (by simp only [F.ringStatus_fetchErr, F.ringCtrl_enable]; omega),
    State.rd_wr_same _ _ _ (by simp [F.ringCtrl_enable])]
  rfl

/-- Nothing is picked up from a ring with no descriptor on its way. -/
theorem State.pickUpReady_none {s : State} {act ring : Nat} (h : (s.ring act ring).fetching = []) :
    State.pickUpReady act ring (s.ring act ring).fetching.length s = s := by
  rw [h]
  rfl

/-- HOST_READ_ERROR of a ring's own reads (R426). -/
theorem hostReadError_ring (s : State) (act ring num : Nat) (ha : act < 16) (hr : ring < 4) :
    (s.on (F.ringCtrl_enable act ring) = true → CompletesWith (exec (.hostReadError (.seq act ring)) s) fun u =>
      RegsOnly s u [(F.ringCtrl_enable act ring).off, (F.ringStatus_fetchErr act ring).off] ∧
      u.on (F.ringCtrl_enable act ring) = false ∧ u.on (F.ringStatus_fetchErr act ring) = true) ∧
    ((s.ring act ring).fetching = [(num, none)] → CompletesWith (exec (.hostReadError (.descriptor act ring num)) s) fun u =>
      (u.ring act ring).fetching = [] ∧ u.on (F.ringCtrl_enable act ring) = false ∧ u.on (F.ringStatus_fetchErr act ring) = true ∧
      u.fil = s.fil) := by
  obtain ⟨hoff, herr⟩ := s.failsRing_on act ring
  refine ⟨fun hon => ⟨_, congrArg Host.Outcome.next (if_pos ⟨ha, hr, hon⟩), s.failsRing_regsOnly act ring, hoff, herr⟩, fun hf => ?_⟩
  have hwaits : (s.ring act ring).fetching.contains (num, none) = true := by
    rw [hf]
    exact List.contains_iff_mem.2 List.mem_cons_self
  have hring : (((s.failsRing act ring).modRing act ring fun r => { r with fetching := r.fetching.filter (·.1 != num) }).ring act ring).fetching = [] := by
    rw [State.ring_modRing_same _ _ _ rfl rfl]
    show (s.ring act ring).fetching.filter _ = []
    rw [hf]
    simp
  have hexec : execHostReadError (.descriptor act ring num) s =
      .next ((s.failsRing act ring).modRing act ring fun r => { r with fetching := r.fetching.filter (·.1 != num) }) := by
    refine congrArg Host.Outcome.next ((if_neg (by rw [hwaits]; exact Bool.false_ne_true)).trans ?_)
    exact State.pickUpReady_none hring
  exact ⟨_, hexec, hring, hoff, herr, rfl⟩

/-! ## Argument blocks -/

theorem execHostReadError_job {s : State} {job : Nat} {j : Job} (hj : s.job? job = some j) (hp : j.phase = .argument) :
    execHostReadError (.job job) s = .next (s.endEarly job 0x62 (if j.image.isSome then 2 else 0)) := by
  have hwaits : (j.phase == .argument) = true := beq_iff_eq.2 hp
  simp only [execHostReadError, hj, hwaits, if_true]

theorem execHostReadComplete_argument {s : State} {job : Nat} {j : Job} (data : List Byte) (hj : s.job? job = some j) (hp : j.phase = .argument) :
    execHostReadComplete job data s = .next (s.haveArgument job data) := by
  unfold execHostReadComplete
  rw [hj]
  exact congrArg _ (if_pos (beq_iff_eq.2 hp))

/-- The jobs of a state with one in the place of another. -/
def State.swapJob (s : State) (j k : Job) : State := { s with fil := { s.fil with jobs := s.fil.jobs.map fun i => if i = j then k else i } }

/-- A job that no other one shares its number with is changed by its number. -/
theorem State.modJob_only {s : State} {id : Nat} {j : Job} (f : Job → Job) (hid : j.id = id) (honly : ∀ k ∈ s.fil.jobs, k.id = id → k = j) :
    s.modJob id f = s.swapJob j (f j) := by
  have hjobs : updWhere (·.id == id) f s.fil.jobs = s.fil.jobs.map fun i => if i = j then f j else i := by
    refine List.map_congr_left fun k hk => ?_
    by_cases hkid : k.id = id
    · rw [honly k hk hkid, if_pos (beq_iff_eq.2 hid), if_pos rfl]
    · rw [if_neg (fun h => hkid (beq_iff_eq.1 h)), if_neg (fun h => hkid ((congrArg Job.id h).trans hid))]
  unfold State.modJob State.swapJob
  rw [hjobs]

/-- The one job that waits for cores in a state is the one that took another's place. -/
theorem State.swapJob_cores {s : State} {j k : Job} (hk : k.phase = .cores) (hcores : ∀ i ∈ s.fil.jobs, i.phase = .cores → False)
    (hone : s.fil.jobs.count j = 1) : (s.swapJob j k).fil.jobs.filter (·.phase == .cores) = [k] := by
  have hpick : s.fil.jobs.filter ((fun i : Job => i.phase == .cores) ∘ fun i => if i = j then k else i) = [j] := by
    rw [← List.replicate_one, ← hone, ← List.filter_beq]
    refine List.filter_congr fun i hi => ?_
    by_cases h : i = j
    · simp [h, hk]
    · have hne : ¬ i.phase = .cores := hcores i hi
      simp [h, hne]
  show (s.fil.jobs.map _).filter _ = _
  rw [List.filter_map, hpick]
  simp

/-- The one job that waits for cores starts, where it can. -/
theorem State.tryStarts_one {s t : State} {j k : Job} {r : Routine} (hk : k.phase = .cores) (hcores : ∀ i ∈ s.fil.jobs, i.phase = .cores → False)
    (hone : s.fil.jobs.count j = 1) (hof : s.routineOf k = some r) (hstart : (s.swapJob j k).start? k r = some t) : (s.swapJob j k).tryStarts = t := by
  have hof' : (s.swapJob j k).routineOf k = some r := hof
  unfold State.tryStarts
  rw [State.swapJob_cores hk hcores hone, List.foldl_cons, List.foldl_nil, hof']
  exact congrArg (Option.getD · _) hstart

/-- The argument block of a job: it is here, or its read has failed (R57, R426). -/
theorem hostRead_job (s : State) (job : Nat) (j : Job) (hj : s.job? job = some j) (hp : j.phase = .argument) :
    (CompletesWith (exec (.hostReadError (.job job)) s) fun u => u.job? job = some { j with
        phase := if j.paired then .running else .ended, status := 0x62, detail := if j.image.isSome then 2 else 0 } ∧ u.regs = s.regs) ∧
      ∀ data : List Byte,
        (j.desc.routine = 0 → CompletesWith (exec (.hostReadComplete job data) s) fun u =>
          u.job? job = some { j with phase := .loader, data := data } ∧ u.mem = s.mem) ∧
        (j.desc.routine ≠ 0 → (∀ k ∈ s.fil.jobs, k.phase = .cores → False) → (∀ k ∈ s.fil.jobs, k.id = job → k = j) →
          let j' := { j with data := data, phase := .cores }
          let s' := { s with fil := { s.fil with jobs := s.fil.jobs.map fun k => if k = j then j' else k } }
          (s.coresOf j.crews = [] → 0 < j.count → exec (.hostReadComplete job data) s = .next s') ∧
          ∀ (r : Routine) (t : State), s.routineOf j = some r → s.fil.jobs.count j = 1 → s'.start? j' r = some t →
            exec (.hostReadComplete job data) s = .next t) := by
  refine ⟨⟨_, execHostReadError_job hj hp, State.job_endEarly hj _ _, rfl⟩, fun data => ⟨fun hr => ?_, fun hr hcores honly => ?_⟩⟩
  · have hloads : s.haveArgument job data = s.modJob job fun j => { j with data := data, phase := .loader } := by
      unfold State.haveArgument
      rw [hj]
      exact if_pos hr
    rw [exec_hostReadComplete, execHostReadComplete_argument data hj hp, hloads]
    exact ⟨_, rfl, State.job_modJob _ hj fun _ => rfl, rfl⟩
  · have hswap := State.modJob_only (fun j : Job => { j with data := data, phase := .cores }) (State.job_id hj) honly
    rw [exec_hostReadComplete, execHostReadComplete_argument data hj hp]
    refine ⟨fun hc hn => ?_, fun r t hof hone hstart => ?_⟩
    · rw [State.haveArgument_waits data hj hr hcores honly hc hn, hswap]
      rfl
    · have hstarts : s.haveArgument job data = (s.modJob job fun j => { j with data := data, phase := .cores }).tryStarts := by
        unfold State.haveArgument
        rw [hj]
        exact if_neg hr
      rw [hstarts, hswap]
      exact congrArg Host.Outcome.next (State.tryStarts_one rfl hcores hone hof hstart)

end Sys2Proof.Machine
end

section
/-! PROOFS. Holds, deadlines and the ends of jobs (R58, R60, R64). -/
namespace Sys2Proof.Machine
open Sys2Proof.Claims

/-! ## Holds (R58, R64) -/

theorem execJobSnapshotRelease_held {s : State} {job since : Nat} {j : Job} (hj : s.job? job = some j) (hp : j.phase = .snapshot since) :
    execJobSnapshotRelease job s = .next (if j.desc.snapshot ≤ s.tally.stable then s.stageSnapshot job else s) := by
  unfold execJobSnapshotRelease
  rw [hj]
  simp only [hp]

/-- JOB_SNAPSHOT_RELEASE of a job with a snapshot of its own (R58). -/
theorem jobSnapshotRelease_answers (s : State) (job : Nat) (j : Job) (hj : s.job? job = some j) (since : Nat) (hp : j.phase = .snapshot since)
    (hset : bitOf j.desc.flags 1 = true) :
    (s.tally.stable < j.desc.snapshot → exec (.jobSnapshotRelease job) s = .next s) ∧
    (j.desc.snapshot ≤ s.tally.stable → j.desc.snapshot < s.oldest j.act → CompletesWith (exec (.jobSnapshotRelease job) s) fun u =>
      u.job? job = some { j with phase := if j.paired then .running else .ended, status := 0x60, detail := 6, snapshot := 0, rerun := false }) ∧
    ∀ r : Routine, j.desc.snapshot ≤ s.tally.stable → s.oldest j.act ≤ j.desc.snapshot → bitOf j.desc.flags 4 = true → j.desc.routine ≠ 0 →
      s.fil.pairs = [] → j.pair = none → j.origin = none → s.routineOf j = some r → r.smin ≤ s.strandCount j r → 0 < j.desc.argLen →
      CompletesWith (exec (.jobSnapshotRelease job) s) fun u =>
        u.job? job = some { j with phase := .argument, snapshot := j.desc.snapshot, rerun := bitOf j.desc.flags 5, count := s.strandCount j r } ∧
        u.host.out = .hostRead j.act j.desc.argAddr j.desc.argLen :: s.host.out := by
  rw [exec_jobSnapshotRelease, execJobSnapshotRelease_held hj hp]
  refine ⟨fun hearly => ?_, fun hs hold => ?_, fun r hs hnew h4 hr _ hpair ho hof hn ha => ?_⟩
  · rw [if_neg (Nat.not_le.2 hearly)]
  · rw [if_pos hs, State.stageSnapshot_old hj hset hs hold]
    exact ⟨_, rfl, State.job_refuseJob hj 6⟩
  · have hgoes := (State.stageSnapshot_routine hj (fun _ => ⟨hs, hnew⟩) hr hof ho hpair ha).1 hn
    have hfixed : j.fixed s.tally.stable j = { j with snapshot := j.desc.snapshot, rerun := bitOf j.desc.flags 5 } := by
      simp only [Job.fixed, hset, h4, if_true]
    rw [if_pos hs, hgoes]
    refine ⟨_, rfl, ?_, rfl⟩
    have hid : (j.fixed s.tally.stable j).id = job := (State.job_id hj : j.id = job)
    have hjob := State.job_modJob (fun k => { k with phase := .argument }) (State.job_modJob (fun k => { k with count := s.strandCount j r })
      (State.job_modJob (j.fixed s.tally.stable) hj fun _ => rfl) fun _ => rfl) fun _ => rfl
    rw [hfixed] at hjob
    unfold State.asksArgument State.readFor
    rw [hid]
    exact hjob

/-- Whether a held job has waited too long. -/
def State.waitedOut (s : State) (j : Job) : Bool :=
  if bitOf j.desc.flags 2 then s.deadlineHere j else decide (j.pickup + s.rd (F.actSnapWait_beats j.act) ≤ s.now)

theorem State.waitedOut_iff (s : State) (j : Job) : s.waitedOut j = true ↔
    if bitOf j.desc.flags 2 then j.desc.deadline ≤ s.tally.beat else j.pickup + s.rd (F.actSnapWait_beats j.act) ≤ s.tally.beat := by
  unfold State.waitedOut State.deadlineHere
  cases hd : bitOf j.desc.flags 2 with
  | false => exact decide_eq_true_iff
  | true => exact decide_eq_true_iff

/-- JOB_SNAPSHOT_TIMEOUT of a held job (R58). -/
theorem jobSnapshotTimeout_answers (s : State) (job : Nat) (j : Job) (hj : s.job? job = some j)
    (hp : j.phase = .pair ∨ j.phase = .ledger ∨ ∃ since, j.phase = .snapshot since) :
    let past := if bitOf j.desc.flags 2 then j.desc.deadline ≤ s.tally.beat else j.pickup + s.rd (F.actSnapWait_beats j.act) ≤ s.tally.beat
    (past → CompletesWith (exec (.jobSnapshotTimeout job) s) fun u =>
      u.job? job = some { j with phase := if j.paired then .running else .ended, status := 0x30, detail := 1 } ∧ u.regs = s.regs) ∧
    (¬ past → exec (.jobSnapshotTimeout job) s = .next s) := by
  intro past
  have hheld : j.held = true := by
    unfold Job.held
    rcases hp with h | h | ⟨since, h⟩ <;> rw [h]
  have hexec : execJobSnapshotTimeout job s = .next (if j.held && s.waitedOut j then s.endEarly job 0x30 1 else s) := by
    unfold execJobSnapshotTimeout
    rw [hj]
    rfl
  rw [exec_jobSnapshotTimeout, hexec, hheld, Bool.true_and]
  refine ⟨fun h => ?_, fun h => ?_⟩
  · rw [if_pos ((s.waitedOut_iff j).2 h)]
    exact ⟨_, rfl, State.job_endEarly hj _ _, rfl⟩
  · rw [if_neg fun hw => h ((s.waitedOut_iff j).1 hw)]

/-! ## The deadline of a running job (R64) -/

/-- An expansion of a job that is not finished and has a home. -/
def Expansion.unfinished (job : Nat) (e : Expansion) : Bool := e.job == job && !e.done && e.home.isSome

/-- The unfinished expansions of a job go to the expand-at-use path. -/
def State.cutExpansions (s : State) (job : Nat) : State :=
  let s := (s.fil.expansions.filter (Expansion.unfinished job)).foldl (fun s e => s.freeAt (e.home.getD 0)) s
  { s with fil := { s.fil with expansions := updWhere (Expansion.unfinished job) (fun e => { e with home := none }) s.fil.expansions } }

theorem execDeadlineArrival_here {s : State} {job : Nat} {j : Job} (hj : s.job? job = some j) (hp : j.phase = .running) (hc : j.cutDone = false)
    (hd : s.deadlineHere j = true) (hr : ∀ r ∈ s.idx.reranks, r.job ≠ job) :
    execDeadlineArrival job s = .next ((s.modJob job fun j => { j with cutDone := true }).cutExpansions job) := by
  have hgoes : (j.phase != .running || j.cutDone || !s.deadlineHere j) = false := by simp [hp, hc, hd]
  have hnone : s.idx.reranks.filter (·.job == job) = [] := List.filter_eq_nil_iff.2 fun r hrm he => hr r hrm (beq_iff_eq.1 he)
  unfold execDeadlineArrival
  rw [hj]
  refine congrArg Host.Outcome.next ((if_neg (by rw [hgoes]; exact Bool.false_ne_true)).trans ?_)
  show State.cutExpansions (List.foldl _ _ ((s.modJob job _).idx.reranks.filter _)) job = _
  rw [State.modJob_idx, hnone]
  rfl

/-- Two states differ in nothing but what is allocated. -/
def AllocsOnly (s u : State) : Prop := { u with fil := { u.fil with allocs := s.fil.allocs } } = s

theorem AllocsOnly.trans {s u v : State} (h : AllocsOnly s u) (h' : AllocsOnly u v) : AllocsOnly s v := by
  have hv := congrArg (fun x : State => { x with fil := { x.fil with allocs := s.fil.allocs } }) h'
  exact hv.trans h

theorem AllocsOnly.fold {α : Type} {f : State → α → State} (hf : ∀ s a, AllocsOnly s (f s a)) : ∀ (l : List α) (s : State), AllocsOnly s (l.foldl f s)
  | [], _ => rfl
  | a :: l, s => (hf s a).trans (AllocsOnly.fold hf l _)

/-- Homes freed change the allocations alone. -/
theorem State.cutExpansions_rest (s : State) (job : Nat) : (s.cutExpansions job).fil.jobs = s.fil.jobs ∧ (s.cutExpansions job).fil.strands = s.fil.strands ∧
    (s.cutExpansions job).mem = s.mem ∧
    (s.cutExpansions job).fil.expansions = updWhere (Expansion.unfinished job) (fun e => { e with home := none }) s.fil.expansions := by
  have hfreed := AllocsOnly.fold (f := fun (u : State) (e : Expansion) => u.freeAt (e.home.getD 0)) (fun _ _ => rfl)
    (s.fil.expansions.filter (Expansion.unfinished job)) s
  have hjobs := congrArg (fun u : State => u.fil.jobs) hfreed
  have hstrands := congrArg (fun u : State => u.fil.strands) hfreed
  have hmem := congrArg State.mem hfreed
  have hexp := congrArg (fun u : State => u.fil.expansions) hfreed
  exact ⟨hjobs, hstrands, hmem, congrArg (updWhere _ _) hexp⟩

/-- DEADLINE_ARRIVAL of a running job without reranks (R64). -/
theorem deadlineArrival_answers (s : State) (job : Nat) (j : Job) (hj : s.job? job = some j) (hp : j.phase = .running) (hc : j.cutDone = false)
    (hflag : bitOf j.desc.flags 2 = true) (hd : j.desc.deadline ≤ s.tally.beat) (hr : ∀ r ∈ s.idx.reranks, r.job ≠ job) :
    CompletesWith (exec (.deadlineArrival job) s) fun u => u.job? job = some { j with cutDone := true } ∧
      (∀ e ∈ u.fil.expansions, e.job = job → e.done = false → e.home = none) ∧ u.fil.strands = s.fil.strands ∧ u.mem = s.mem := by
  have hhere : s.deadlineHere j = true := by
    rw [State.deadlineHere, hflag]
    exact decide_eq_true hd
  obtain ⟨hjobs, hstrands, hmem, hexp⟩ := (s.modJob job fun j => { j with cutDone := true }).cutExpansions_rest job
  refine ⟨_, execDeadlineArrival_here hj hp hc hhere hr, ?_, fun e he hej hed => ?_, hstrands, hmem⟩
  · rw [State.job_congr hjobs]
    exact State.job_modJob _ hj fun _ => rfl
  · rw [hexp] at he
    obtain ⟨x, -, rfl⟩ := List.mem_map.1 he
    by_cases hx : Expansion.unfinished job x = true
    · rw [if_pos hx]
    · rw [if_neg hx] at hej hed ⊢
      cases hhome : x.home with
      | none => rfl
      | some a => exact absurd (by simp [Expansion.unfinished, hej, hed, hhome]) hx

end Sys2Proof.Machine
end

section
/-! PROOFS. What the end of a job releases, and what it sends (R59, R60, R436). -/
namespace Sys2Proof.Machine
open Sys2Proof.Claims

/-! ## What a release leaves -/

/-- A release of what a job held leaves the jobs, the host's rings and the registers below the acts' windows, and gives no job a strand. -/
structure Releases (s u : State) : Prop where
  jobs : u.fil.jobs = s.fil.jobs
  host : u.host = s.host
  low : ∀ off < 0x800000, u.reg off = s.reg off
  strands : ∀ t ∈ u.fil.strands, ∃ t' ∈ s.fil.strands, t'.job = t.job

theorem Releases.refl (s : State) : Releases s s := ⟨rfl, rfl, fun _ _ => rfl, fun t ht => ⟨t, ht, rfl⟩⟩

theorem Releases.trans {s u v : State} (h : Releases s u) (h' : Releases u v) : Releases s v where
  jobs := h'.jobs.trans h.jobs
  host := h'.host.trans h.host
  low off ho := (h'.low off ho).trans (h.low off ho)
  strands t ht := by
    obtain ⟨t1, h1, e1⟩ := h'.strands t ht
    obtain ⟨t2, h2, e2⟩ := h.strands t1 h1
    exact ⟨t2, h2, e2.trans e1⟩

theorem Releases.fold {α : Type} {f : State → α → State} (hf : ∀ s a, Releases s (f s a)) : ∀ (l : List α) (s : State), Releases s (l.foldl f s)
  | [], s => .refl s
  | a :: l, s => (hf s a).trans (Releases.fold hf l _)

/-- A step that leaves the jobs, the strands, the host and the registers. -/
theorem Releases.step {s u v : State} (h : Releases s u) (hf : v.fil.jobs = u.fil.jobs) (hs : v.fil.strands = u.fil.strands) (hh : v.host = u.host)
    (hr : v.regs = u.regs) : Releases s v where
  jobs := hf.trans h.jobs
  host := hh.trans h.host
  low off ho := by
    rw [← h.low off ho]
    unfold State.reg
    rw [hr]
  strands t ht := h.strands t (hs ▸ ht)

theorem Releases.wr {s u : State} (h : Releases s u) (f : FieldRef) (v : Nat) (hf : 0x800000 ≤ f.off) : Releases s (u.wr f v) :=
  h.trans ⟨rfl, rfl, fun _ ho => State.reg_wr_other _ _ _ (by omega), fun t ht => ⟨t, ht, rfl⟩⟩

theorem Releases.wr64 {s u : State} (h : Releases s u) (f g : FieldRef) (v : Nat) (hf : 0x800000 ≤ f.off) (hg : 0x800000 ≤ g.off) :
    Releases s (u.wr64 f g v) := (h.wr f _ hf).wr g _ hg

/-! ## Tiles and handles -/

theorem Releases.abandonMove (s : State) (m : TierMove) : Releases s (s.abandonMove m) :=
  (((Releases.refl s).step (v := { s with fil := { s.fil with
      moves := s.fil.moves.filter (·.id != m.id), allocs := s.fil.allocs.filter (·.addr != m.target) } }) rfl rfl rfl rfl).wr
    F.memMoveAbandon_count _ (by decide)).step rfl rfl rfl rfl

theorem Releases.removeTile (s : State) (tile : Nat) : Releases s (s.removeTile tile) := by
  unfold State.removeTile
  split
  · exact .refl s
  · exact (Releases.fold (f := State.abandonMove) Releases.abandonMove _ s).step rfl rfl rfl rfl

theorem Releases.settle (s : State) (tile : Nat) : Releases s (s.settle tile) := by
  unfold State.settle
  split
  · exact .refl s
  · split
    · exact .removeTile s tile
    · exact .refl s

theorem Releases.closeExpansion (s : State) (strand reg : Nat) : Releases s (s.closeExpansion strand reg) := by
  unfold State.closeExpansion
  exact (Releases.fold (f := fun (s : State) (e : Expansion) => s.dropAlloc fun k => k == .expansion e.tile)
    (fun s _ => (Releases.refl s).step rfl rfl rfl rfl) _ s).step rfl rfl rfl rfl

theorem Releases.modStrand (s : State) (id : Nat) {f : Strand → Strand} (hf : ∀ t, (f t).job = t.job) : Releases s (s.modStrand id f) := by
  refine ⟨rfl, rfl, fun _ _ => rfl, fun t ht => ?_⟩
  obtain ⟨a, ha, rfl⟩ := List.mem_map.1 ht
  refine ⟨a, ha, ?_⟩
  split
  · exact (hf a).symm
  · rfl

theorem Releases.bindHandle (s : State) (strand reg : Nat) (tile : Option Nat) : Releases s (s.bindHandle strand reg tile) := by
  have hset : Releases s ((s.closeExpansion strand reg).modStrand strand fun u => u.setT reg tile) :=
    (Releases.closeExpansion s strand reg).trans (.modStrand _ _ fun _ => rfl)
  unfold State.bindHandle
  split
  · exact .refl s
  · simp only
    split
    · split
      · exact hset
      · exact hset.trans (.settle _ _)
    · exact hset

theorem Releases.releaseHandles (s : State) (strand : Nat) : Releases s (s.releaseHandles strand) :=
  .fold (fun s r => .bindHandle s strand r none) _ s

/-! ## Views -/

/-- What ADT shows is in its own registers. -/
theorem Releases.adtRefresh (s : State) : Releases s s.adtRefresh := by
  unfold State.adtRefresh
  simp only []
  refine Releases.trans ?_ (Releases.fold (fun s c => (((Releases.refl s).wr _ _ ?_).wr _ _ ?_)) _ _)
  · refine Releases.trans ?_ (Releases.fold (fun s a => ((((Releases.refl s).wr _ _ ?_).wr _ _ ?_).wr _ _ ?_)) _ _)
    · repeat' first
        | with_reducible refine Releases.wr ?_ _ _ (by decide)
        | with_reducible refine Releases.wr64 ?_ _ _ _ (by decide) (by decide)
        | with_reducible exact (Releases.refl s).step rfl rfl rfl rfl
        | split
    · simp only [F.adtActSeg_open]
      omega
    · simp only [F.adtActSeg_attached]
      omega
    · simp only [F.adtActBound_segs]
      omega
  · simp only [F.adtChStatus_dies]
    omega
  · simp only [F.adtChStatus_retired]
    omega

theorem Releases.freeRuns (s : State) (act : Nat) : Releases s (s.freeRuns act) := by
  unfold State.freeRuns
  split
  · exact .refl s
  · simp only
    split
    · exact .refl s
    · refine Releases.trans ?_ (.adtRefresh _)
      refine Releases.trans ?_ (.fold (fun u p => ?_) _ _)
      · exact (Releases.refl s).step rfl rfl rfl rfl
      · split
        · exact (Releases.refl u).step rfl rfl rfl rfl
        · exact .refl u

theorem Releases.closeViews (s : State) (job : Nat) : Releases s (s.closeViews job) := by
  unfold State.closeViews
  simp only
  refine Releases.trans ?_ (.fold (fun u i => ?_) _ _)
  · refine Releases.step (u := List.foldl (fun (s : State) (e : Extent) => s.freeAt e.addr) _ _) ?_ rfl rfl rfl rfl
    refine Releases.trans ?_ (.fold (f := fun (s : State) (e : Extent) => s.freeAt e.addr) (fun u e => (Releases.refl u).step rfl rfl rfl rfl) _ _)
    exact (Releases.refl s).step rfl rfl rfl rfl
  · split
    · exact .refl u
    · exact .freeRuns u _

/-! ## The release of a job -/

/-- A job's end releases what it held, its strands with it. -/
theorem State.releaseJob_does (s : State) (j : Job) : Releases s (s.releaseJob j) ∧ ∀ t ∈ (s.releaseJob j).fil.strands, t.job ≠ j.id := by
  have hhandles : ∀ l : List Nat, Releases s (l.foldl (fun s t => s.releaseHandles t) s) := fun l => .fold Releases.releaseHandles l s
  unfold State.releaseJob
  simp only
  generalize (s.fil.strands.filter (·.job == j.id)).map (·.id) = ids
  generalize hw : (ids.foldl (fun s t => s.releaseHandles t) s).dropAlloc _ = w
  have hreleased : Releases s w := hw ▸ (hhandles ids).step rfl rfl rfl rfl
  refine ⟨(hreleased.trans ?_).trans (.closeViews _ _), fun t ht => ?_⟩
  · exact ⟨rfl, rfl, fun _ _ => rfl, fun t ht => ⟨t, (List.mem_filter.1 ht).1, rfl⟩⟩
  · obtain ⟨t', ht', he⟩ := (Releases.closeViews _ _).strands t ht
    rw [← he]
    simpa using (List.mem_filter.1 ht').2

/-! ## Writes to the host in one piece (R429) -/

/-- A write that stays inside one page leaves in one piece. -/
theorem tlps_page {a : Nat} {d : List Byte} (n : Nat) (hd : 0 < d.length) (hp : d.length ≤ 4096 - a % 4096) : tlps (n + 2) a d = [(a, d)] := by
  have hne : d.isEmpty = false := by
    cases d with
    | nil => exact absurd hd (Nat.lt_irrefl 0)
    | cons => rfl
  simp only [tlps, hne, List.take_of_length_le hp, List.drop_eq_nil_of_le hp, List.isEmpty_nil, Bool.false_eq_true, if_false, if_true]

theorem Offered.sendHost_page {s : State} (fn act cls : Nat) {addr : Nat} {data : List Byte} (relaxed : Bool) (hm : s.host.mute = false)
    (hd : 0 < data.length) (hp : data.length ≤ 4096 - addr % 4096) :
    Offered (s.sendHost fn act cls addr data relaxed) 42 act cls (.hostWrite fn addr data relaxed) := by
  unfold State.sendHost
  rw [if_neg (by rw [hm]; exact Bool.false_ne_true), tlps_page _ hd hp]
  exact Offered.offer _ _ _ _ _ _ _

theorem SendsOnly.jobs {s u : State} (h : SendsOnly s u) : u.fil.jobs = s.fil.jobs := by
  have := congrArg (fun x : State => x.fil.jobs) h
  exact this

/-! ## The end of a job (R60, R436) -/

/-- What a job's completion will state, with its result bytes. -/
def State.ending (s : State) (j : Job) (data : List Byte) : Ending :=
  ⟨(s.outcome j).1, (s.outcome j).2.1, (s.outcome j).2.2, j.snapshot, j.rerun, j.replayed, data⟩

/-- A degraded job counted. -/
def State.degrades (s : State) (j : Job) : State := if bitOf (s.outcome j).2.2 0 then s.bump (F.actDegradeCount_count j.act) 1 else s

theorem State.degrades_releases (s : State) (j : Job) : Releases s (s.degrades j) := by
  unfold State.degrades
  split
  · exact (Releases.refl s).wr _ _ (by simp only [F.actDegradeCount_count]; omega)
  · exact .refl s

/-- Without a pair, a job's end is its release and its result. -/
theorem State.endJob_unpaired {s : State} {j : Job} {data : List Byte}
    (hb : (if noResult (s.outcome j).1 (s.outcome j).2.1 then (some [], s) else s.resultOf j) = (some data, s)) (hp : j.pair = none)
    (hd : j.discard = false) (remote : Option (List Byte × List Byte)) :
    s.endJob j remote = (((s.degrades j).releaseJob j).queueResult j (s.ending j data)).tryStarts := by
  unfold State.endJob State.degrades State.ending
  generalize s.outcome j = o at hb
  obtain ⟨st, dt, mask⟩ := o
  dsimp only at hb
  simp only [hb, hp, hd, Bool.false_eq_true, if_false]

/-- A job's status by R436, where nothing forces its degrade mask. -/
def State.status (s : State) (j : Job) : Nat :=
  if j.status ≠ 0 then j.status else if bitOf j.desc.flags 2 = true ∧ bitOf j.desc.flags 3 = false ∧ j.desc.deadline < s.tally.beat then 0x30
  else if j.soft then 2 else if bitOf j.mask 0 then 1 else 0

theorem State.outcome_free (s : State) {j : Job} (h : bitOf j.desc.flags 6 = false) :
    s.outcome j = (s.status j, if j.status ≠ 0 then j.detail else 0, j.mask) := by
  have hlate : (bitOf j.desc.flags 2 && !bitOf j.desc.flags 3 && decide (j.desc.deadline < s.now)) = true ↔
      bitOf j.desc.flags 2 = true ∧ bitOf j.desc.flags 3 = false ∧ j.desc.deadline < s.tally.beat := by
    simp only [Bool.and_eq_true, Bool.not_eq_true', decide_eq_true_eq, and_assoc]
    exact Iff.rfl
  unfold State.outcome State.status
  simp only [h, Bool.false_and, Bool.false_eq_true, if_false, hlate]
  split_ifs <;> rfl

/-- A job's result on its way to the host. -/
def State.sendsResult (s : State) (j : Job) (data : List Byte) : State :=
  if !data.isEmpty && j.ring != 4 then s.sendHost j.act j.act 2 j.desc.resAddr data (s.on F.hifLinkCtrl_roEn) else s

theorem State.sendsResult_sendsOnly (s : State) (j : Job) (data : List Byte) : SendsOnly s (s.sendsResult j data) := by
  unfold State.sendsResult
  split
  · exact .sendHost s _ _ _ _ _ _
  · exact .refl s

/-- A job as it waits for its completion. -/
def Job.ended (e : Ending) (sent : Nat × Nat) (j : Job) : Job :=
  { j with
    phase := .ended, status := e.status, detail := e.detail, mask := e.mask, snapshot := e.snapshot, rerun := e.rerun
    replayed := e.replayed, ret := e.data, sent := sent }

theorem State.queueResult_eq (s : State) (j : Job) (e : Ending) :
    s.queueResult j e = (s.sendsResult j e.data).modJob j.id (Job.ended e (s.nextId, (s.sendsResult j e.data).nextId)) := rfl

/-- The state after the end of a job: its result is queued from a state that has released what it held, and no other job starts. -/
theorem State.endJob_does {s : State} {j : Job} {data : List Byte}
    (hb : (if noResult (s.outcome j).1 (s.outcome j).2.1 then (some [], s) else s.resultOf j) = (some data, s)) (hp : j.pair = none)
    (hd : j.discard = false) (hcores : ∀ k ∈ s.fil.jobs, k.phase ≠ .cores) (remote : Option (List Byte × List Byte)) :
    ∃ w, Releases s w ∧ (∀ t ∈ w.fil.strands, t.job ≠ j.id) ∧ s.endJob j remote = w.queueResult j (s.ending j data) := by
  obtain ⟨hreleases, hgone⟩ := (s.degrades j).releaseJob_does j
  have hall := (s.degrades_releases j).trans hreleases
  refine ⟨(s.degrades j).releaseJob j, hall, hgone, (State.endJob_unpaired hb hp hd remote).trans (State.tryStarts_idle ?_)⟩
  have hjobs : (((s.degrades j).releaseJob j).sendsResult j (s.ending j data).data).fil.jobs = s.fil.jobs :=
    (State.sendsResult_sendsOnly _ _ _).jobs.trans hall.jobs
  rw [State.queueResult_eq]
  exact State.forall_modJob (fun _ _ _ => by simp [Job.ended]) fun k hk _ => hcores k (hjobs ▸ hk)

theorem State.jobOver_of {s : State} {j : Job} (hp : j.phase = .running) (h : ∀ t ∈ s.fil.strands, t.job = j.id → t.ended = true ∧ t.inflight = []) :
    s.jobOver j = true := by
  unfold State.jobOver
  rw [hp, beq_self_eq_true, Bool.true_and, List.all_eq_true]
  intro t ht
  by_cases hj : t.job = j.id
  · obtain ⟨hend, hfly⟩ := h t ht hj
    simp [hend, hfly]
  · simp [hj]

theorem execJobEnd_over {s : State} {job : Nat} {j : Job} (ledger : Option (List Byte × List Byte)) (hj : s.job? job = some j)
    (ho : s.jobOver j = true) : execJobEnd job ledger s = .next (s.endJob j ledger) := by
  simp only [execJobEnd, hj, ho, if_true]

/-- JOB_END of a job that is over (R60, R436). -/
theorem jobEnd_answers (s : State) (job : Nat) (j : Job) (hj : s.job? job = some j) (hp : j.phase = .running)
    (hstrands : ∀ t ∈ s.fil.strands, t.job = job → t.ended = true ∧ t.inflight = []) (hpair : j.pair = none) (hdiscard : j.discard = false)
    (hcores : ∀ k ∈ s.fil.jobs, k.phase ≠ .cores) (h6 : bitOf j.desc.flags 6 = false) :
    let late := bitOf j.desc.flags 2 = true ∧ bitOf j.desc.flags 3 = false ∧ j.desc.deadline < s.tally.beat
    let status := if j.status ≠ 0 then j.status else if late then 0x30 else if j.soft then 2 else if bitOf j.mask 0 then 1 else 0
    (j.desc.resLen = 0 → ∀ ledger, CompletesWith (exec (.jobEnd job ledger) s) fun u => ∃ sent, u.job? job = some { j with
        phase := .ended, status := status, detail := if j.status ≠ 0 then j.detail else 0, ret := [], sent := sent } ∧
      (∀ t ∈ u.fil.strands, t.job ≠ job)) ∧
    (j.desc.routine = 0 → status = 0 → s.host.mute = false → j.ring < 4 → 0 < (j.ret.take j.desc.resLen).length →
      (j.ret.take j.desc.resLen).length ≤ 4096 - j.desc.resAddr % 4096 → ∀ ledger, CompletesWith (exec (.jobEnd job ledger) s) fun u =>
        Offered u 42 j.act 2 (.hostWrite j.act j.desc.resAddr (j.ret.take j.desc.resLen) (s.on F.hifLinkCtrl_roEn)) ∧
          ∃ j', u.job? job = some j' ∧ j'.phase = .ended ∧ j'.status = 0) := by
  intro late status
  have hjid := State.job_id hj
  subst hjid
  have hout : s.outcome j = (status, if j.status ≠ 0 then j.detail else 0, j.mask) := s.outcome_free h6
  have hover := State.jobOver_of hp hstrands
  have hended : ∀ (w : State) (e : Ending), w.fil.jobs = s.fil.jobs → ∃ sent, (w.queueResult j e).job? j.id = some (Job.ended e sent j) :=
    fun w e hw => ⟨_, State.job_modJob _ ((State.job_congr ((State.sendsResult_sendsOnly w j e.data).jobs.trans hw) _).trans hj) fun _ => rfl⟩
  refine ⟨fun hlen ledger => ?_, fun hr hst hm hring hpos hpage ledger => ?_⟩
  · have hempty : (if noResult (s.outcome j).1 (s.outcome j).2.1 then (some [], s) else s.resultOf j) = (some [], s) := by
      unfold State.resultOf
      rw [hlen]
      simp
    obtain ⟨w, hw, hgone, hend⟩ := State.endJob_does hempty hpair hdiscard hcores ledger
    obtain ⟨sent, hjob⟩ := hended w (s.ending j []) hw.jobs
    refine ⟨_, execJobEnd_over ledger hj hover, sent, ?_, ?_⟩
    · rw [hend, hjob]
      simp only [Job.ended, State.ending, hout]
    · rw [hend]
      exact hgone
  · have hdata : (if noResult (s.outcome j).1 (s.outcome j).2.1 then (some [], s) else s.resultOf j) = (some (j.ret.take j.desc.resLen), s) := by
      unfold State.resultOf
      rw [hout, hst, if_pos hr]
      rfl
    obtain ⟨w, hw, -, hend⟩ := State.endJob_does hdata hpair hdiscard hcores ledger
    obtain ⟨sent, hjob⟩ := hended w (s.ending j (j.ret.take j.desc.resLen)) hw.jobs
    have hro : w.on F.hifLinkCtrl_roEn = s.on F.hifLinkCtrl_roEn := State.on_congr (hw.low _ (by decide))
    have hsends : (!(j.ret.take j.desc.resLen).isEmpty && j.ring != 4) = true := by
      have hne : j.ret.take j.desc.resLen ≠ [] := List.ne_nil_of_length_pos hpos
      have hhost : j.ring ≠ 4 := by omega
      simp only [Bool.and_eq_true, bne_iff_ne, Bool.not_eq_true', List.isEmpty_eq_false_iff]
      exact ⟨hne, hhost⟩
    have hsent : w.sendsResult j (j.ret.take j.desc.resLen) = _ := if_pos hsends
    refine ⟨_, execJobEnd_over ledger hj hover, ?_, _, by rw [hend]; exact hjob, rfl, ?_⟩
    · rw [hend, State.queueResult_eq, ← hro]
      show Offered (w.sendsResult j (j.ret.take j.desc.resLen)) _ _ _ _
      rw [hsent]
      exact Offered.sendHost_page _ _ _ _ (hw.host ▸ hm) hpos hpage
    · exact (congrArg Prod.fst hout).trans hst

end Sys2Proof.Machine
end

section
/-! PROOFS. Completions (R431 to R434). -/
namespace Sys2Proof.Machine
open Sys2Proof.Claims

/-! ## Completions (R431 to R434) -/

theorem leBytes_length (n k : Nat) : (leBytes n k).length = k := by
  induction k generalizing n with
  | zero => rfl
  | succ k ih => exact congrArg Nat.succ (ih _)

theorem length_completionEntry (j : Job) (phase : Bool) : (completionEntry j phase).length = 32 := by
  simp only [completionEntry, List.length_append, leBytes_length]

/-- The host address of a slot of a completion ring. -/
def State.cqSlot (s : State) (act ring k : Nat) : Nat :=
  s.rd (F.cqBaseLo_base act ring) * 4096 + 2 ^ 32 * s.rd (F.cqBaseHi_base act ring) + k % s.ringSize act ring * 32

/-- A completion entry stays inside one page. -/
theorem State.cqSlot_page (s : State) (act ring k : Nat) : 32 ≤ 4096 - s.cqSlot act ring k % 4096 := by
  unfold State.cqSlot
  omega

/-- A state whose next completion is written: its slot is taken, its job is gone, and its entry is on its way. -/
def State.sendsCompletion (s : State) (j : Job) : State :=
  ((s.modRing j.act j.ring fun r => { r with tail := r.tail + 1 }).dropJob j.id).sendHost j.act j.act 1
    (s.cqSlot j.act j.ring (s.ring j.act j.ring).tail)
    (completionEntry j ((s.ring j.act j.ring).tail / s.ringSize j.act j.ring % 2 == 0)) false

theorem State.writeCompletion_host {s : State} {j : Job} (h : j.origin = none) : s.writeCompletion j =
    (((s.sendsCompletion j).wr (F.cqTail_count j.act j.ring) ((s.ring j.act j.ring).tail + 1)).count (0xC10 + j.act) 1).moderate j.act j.ring
      (bitOf j.desc.flags 7) := by
  unfold State.writeCompletion
  simp only [h]
  rfl

/-- A completion without NOTIFY, on a ring that owes no message, signals nothing. -/
theorem State.moderate_quiet {s : State} {act ring : Nat} (h : (s.ring act ring).notify = 0) : s.moderate act ring false = s := by
  unfold State.moderate
  simp only [Bool.false_eq_true, if_false, h]
  rfl

theorem State.sendsCompletion_ring (s : State) (j : Job) : (s.sendsCompletion j).ring j.act j.ring =
    { s.ring j.act j.ring with tail := (s.ring j.act j.ring).tail + 1 } := by
  have hsent := SendsOnly.sendHost ((s.modRing j.act j.ring fun r => { r with tail := r.tail + 1 }).dropJob j.id) j.act j.act 1
    (s.cqSlot j.act j.ring (s.ring j.act j.ring).tail) (completionEntry j ((s.ring j.act j.ring).tail / s.ringSize j.act j.ring % 2 == 0)) false
  exact (State.ring_congr (congrArg HostSt.rings hsent.host) _ _).trans
    (State.ring_modRing_same s j.act j.ring (f := fun r => { r with tail := r.tail + 1 }) rfl rfl)

theorem execCompletionWrite_kept {s : State} {job : Nat} {j : Job} (hj : s.job? job = some j) (hd : j.discard = false) :
    execCompletionWrite job s = .next (if s.mayComplete j then s.writeCompletion j else s) := by
  simp only [execCompletionWrite, hj, hd, Bool.false_and, Bool.false_eq_true, if_false]

/-- COMPLETION_WRITE of a job of a host ring (R431 to R433). -/
theorem completionWrite_answers (s : State) (job : Nat) (j : Job) (hj : s.job? job = some j) :
    (s.mayComplete j = true → j.origin = none → j.discard = false → s.host.mute = false → bitOf j.desc.flags 7 = false →
      (s.ring j.act j.ring).notify = 0 → CompletesWith (exec (.completionWrite job) s) fun u =>
        let r := s.ring j.act j.ring
        let size := s.ringSize j.act j.ring
        Offered u 42 j.act 1 (.hostWrite j.act (s.rd (F.cqBaseLo_base j.act j.ring) * 4096 + 2 ^ 32 * s.rd (F.cqBaseHi_base j.act j.ring) +
          r.tail % size * 32) (completionEntry j (r.tail / size % 2 == 0)) false) ∧
        u.ring j.act j.ring = { r with tail := r.tail + 1 } ∧ u.rd (F.cqTail_count j.act j.ring) = (r.tail + 1) % 2 ^ 32 ∧
        (∀ k ∈ u.fil.jobs, k.id ≠ job) ∧ u.ctr (0xC10 + j.act) = (s.ctr (0xC10 + j.act) + 1) % 2 ^ 64) ∧
    (j.discard = false → (∃ k ∈ s.fil.jobs, k.act = j.act ∧ k.ring = j.ring ∧ k.num < j.num) → bitOf j.desc.flags 0 = false →
      exec (.completionWrite job) s = .next s) := by
  rw [exec_completionWrite]
  refine ⟨fun hmay ho hd hm h7 hn => ?_, fun hd ⟨k, hk, hact, hring, hnum⟩ h0 => ?_⟩
  · have hsent : SendsOnly ((s.modRing j.act j.ring fun r => { r with tail := r.tail + 1 }).dropJob j.id) (s.sendsCompletion j) :=
      .sendHost _ _ _ _ _ _ _
    have hquiet : ((((s.sendsCompletion j).wr (F.cqTail_count j.act j.ring) ((s.ring j.act j.ring).tail + 1)).count (0xC10 + j.act) 1).ring
        j.act j.ring).notify = 0 := by
      exact (congrArg Ring.notify (s.sendsCompletion_ring j)).trans hn
    have hctr : (s.sendsCompletion j).ctr (0xC10 + j.act) = s.ctr (0xC10 + j.act) := by
      unfold State.ctr
      rw [hsent.telem]
      rfl
    rw [execCompletionWrite_kept hj hd, if_pos hmay, State.writeCompletion_host ho, h7, State.moderate_quiet hquiet]
    refine ⟨_, rfl, ?_, ?_, State.rd_wr_same _ _ _ (by simp [F.cqTail_count]), fun k hk => ?_, ?_⟩
    · exact Offered.sendHost_page (s := (s.modRing j.act j.ring fun r => { r with tail := r.tail + 1 }).dropJob j.id) j.act j.act 1 false hm
        (by rw [length_completionEntry]; decide) (by rw [length_completionEntry]; exact s.cqSlot_page _ _ _)
    · exact (State.ring_congr (s := s.sendsCompletion j) rfl _ _).trans (s.sendsCompletion_ring j)
    · have hkept : k ∈ ((s.modRing j.act j.ring fun r => { r with tail := r.tail + 1 }).dropJob j.id).fil.jobs := hsent.jobs ▸ hk
      rw [← State.job_id hj]
      simpa using (List.mem_filter.1 hkept).2
    · exact (State.ctr_count_same _ _ _).trans (congrArg (fun n => (n + 1) % 2 ^ 64) hctr)
  · have hearlier : ((s.ringJobs j.act j.ring).any fun k => decide (k.num < j.num)) = true :=
      List.any_eq_true.2 ⟨k, List.mem_filter.2 ⟨hk, by simp [hact, hring]⟩, decide_eq_true hnum⟩
    have hblocked : s.mayComplete j = false := by
      unfold State.mayComplete
      rw [hearlier, h0]
      simp
    rw [execCompletionWrite_kept hj hd, hblocked]
    rfl

end Sys2Proof.Machine
end

section
/-! PROOFS. The rings' interrupts and controls (R427, R430, R434, R437). -/
namespace Sys2Proof.Machine
open Sys2Proof.Claims

/-! ## Fields after writes -/

theorem State.on_wr_other (s : State) (f g : FieldRef) (v : Nat) (h : f.off ≠ g.off) : (s.wr f v).on g = s.on g :=
  State.on_congr (s.reg_wr_other f v h)

theorem State.on_congr_regs {s u : State} (h : u.regs = s.regs) (f : FieldRef) : u.on f = s.on f := by
  unfold State.on State.rd State.reg
  rw [h]

/-- A bit of a field is the field of that bit. -/
theorem State.testBit_rd (s : State) {f : FieldRef} {i : Nat} (h : i < f.width) : (s.rd f).testBit i = s.on ⟨f.off, f.lo + i, 1⟩ := by
  unfold State.on State.rd
  rw [bits_testBit, decide_eq_true h, Bool.true_and, Nat.testBit_eq_decide_div_mod_eq]
  rfl

/-- The pending bit of a vector. -/
def pbaBit (f v : Nat) : FieldRef := ⟨(F.msixPba_pending f).off, (F.msixPba_pending f).lo + v, 1⟩

theorem State.pending_eq (s : State) {f v : Nat} (h : v < 16) : (s.rd (F.msixPba_pending f)).testBit v = s.on (pbaBit f v) := s.testBit_rd h

theorem State.on_wr_pbaBit (s : State) {f v : Nat} (h : v < 16) (n : Nat) : (s.wr (pbaBit f v) n).on (pbaBit f v) = (n % 2 == 1) :=
  State.on_of_rd (State.rd_wr_same _ _ _ (by simp only [pbaBit, F.msixPba_pending]; omega))

/-! ## Messages (R434, R437) -/

/-- The message of a vector. -/
def State.msixOut (s : State) (f v : Nat) : Out := .msix f v (s.rd64 (F.msixAddrLo_addr f v) (F.msixAddrHi_addr f v)) (s.rd (F.msixData_data f v))

/-- A message that goes out. -/
theorem State.sendMsix_does {s : State} {f : Nat} (v : Nat) (hm : s.host.mute = false) (hf : s.fnOn f = true) :
    Offered (s.sendMsix f v) 42 f 0 (s.msixOut f v) ∧ (s.sendMsix f v).regs = s.regs ∧ (s.sendMsix f v).host = s.host ∧
    (s.sendMsix f v).ctr 0xC20 = (s.ctr 0xC20 + 1) % 2 ^ 64 := by
  have hgoes : s.sendMsix f v = (s.enqueue 42 f 0 none 20 (some (s.msixOut f v))).count 0xC20 1 := by
    unfold State.sendMsix
    rw [hm, hf]
    rfl
  have hsent := SendsOnly.enqueue s 42 f 0 none 20 (some (s.msixOut f v))
  have hctr : (s.enqueue 42 f 0 none 20 (some (s.msixOut f v))).ctr 0xC20 = s.ctr 0xC20 := by
    unfold State.ctr
    rw [hsent.telem]
  rw [hgoes]
  exact ⟨Offered.offer s 42 f 0 none 20 (s.msixOut f v), hsent.regs, hsent.host, (State.ctr_count_same _ _ _).trans (by rw [hctr])⟩

/-- A message that is due on a function whose completions are all sent, while no other waits. -/
theorem State.dueMessage_alone {s : State} {act : Nat} (ring : Nat) (hnone : ∀ q ∈ s.host.rings, q.message = none) (hq : s.queuedCompletions act = []) :
    s.dueMessage act ring = ((s.modRing act ring fun r => { r with notify := 0, message := some 0 }).modRing act ring
      fun r => { r with message := none }).signal act ring := by
  obtain ⟨ha, hr⟩ := s.ring_ids act ring
  have hdue : s.dueMessage act ring = (s.modRing act ring fun r => { r with notify := 0, message := some 0 }).flushMessages := by
    unfold State.dueMessage
    rw [hq]
    rfl
  have hqueue : (s.modRing act ring fun r => { r with notify := 0, message := some 0 }).queuedCompletions act = [] := hq
  rw [hdue]
  unfold State.flushMessages
  rw [show (s.modRing act ring fun r => { r with notify := 0, message := some 0 }).host.rings =
    { s.ring act ring with notify := 0, message := some 0 } :: s.host.rings.filter fun r => !(r.act == act && r.ring == ring) from rfl, List.foldl_cons]
  simp only [ha, hr, hqueue, List.any_nil, Bool.false_eq_true, if_false]
  refine foldl_eq_self fun q hqm => ?_
  rw [hnone q (List.mem_filter.1 hqm).1]

/-- A state in which a ring's message has fallen due and waits no more. -/
def State.signalled (s : State) (act ring : Nat) : State :=
  (s.modRing act ring fun r => { r with notify := 0, message := some 0 }).modRing act ring fun r => { r with message := none }

theorem State.signalled_ring (s : State) (act ring : Nat) : ((s.signalled act ring).ring act ring).notify = 0 := by
  rw [State.signalled, State.ring_modRing_same _ _ _ rfl rfl, State.ring_modRing_same _ _ _ rfl rfl]

/-- MSIX_TIMER_EXPIRY of a ring whose completions are all sent (R434, R437). -/
theorem msixTimerExpiry_answers (s : State) (act ring : Nat) (ha : act < 16) (hr : ring < 4) (hm : s.host.mute = false) (hf : s.fnOn act = true)
    (hn : (s.ring act ring).notify ≠ 0) (ht : s.rd (F.ringMod_timer act ring) ≠ 0)
    (hpast : (s.ring act ring).since + s.rd (F.ringMod_timer act ring) ≤ s.tally.beat) (hnone : ∀ q ∈ s.host.rings, q.message = none)
    (hq : s.queuedCompletions act = []) :
    let v := s.rd (F.ringCtrl_vector act ring)
    (s.on (F.msixCtrl_mask act v) = false → CompletesWith (exec (.msixTimerExpiry act ring) s) fun u => (u.ring act ring).notify = 0 ∧
      Offered u 42 act 0 (s.msixOut act v) ∧ u.regs = s.regs ∧ u.ctr 0xC20 = (s.ctr 0xC20 + 1) % 2 ^ 64) ∧
    (s.on (F.msixCtrl_mask act v) = true → CompletesWith (exec (.msixTimerExpiry act ring) s) fun u => (u.ring act ring).notify = 0 ∧
      (u.rd (F.msixPba_pending act)).testBit v = true ∧ u.rgm = s.rgm) := by
  intro v
  have hv : v < 16 := bits_lt _ _ _
  have hexec : execMsixTimerExpiry act ring s = .next ((s.signalled act ring).signal act ring) :=
    (congrArg Host.Outcome.next (if_pos ⟨ha, hr, hn, ht, hpast⟩)).trans (congrArg _ (State.dueMessage_alone ring hnone hq))
  rw [exec_msixTimerExpiry, hexec]
  refine ⟨fun hmask => ?_, fun hmask => ?_⟩
  · have hsignal : (s.signalled act ring).signal act ring = (s.signalled act ring).sendMsix act v :=
      if_neg (Bool.eq_false_iff.1 hmask)
    obtain ⟨hoffered, hregs, hhost, hctr⟩ := State.sendMsix_does (s := s.signalled act ring) v hm hf
    rw [hsignal]
    exact ⟨_, rfl, (congrArg Ring.notify (State.ring_congr (congrArg HostSt.rings hhost) _ _)).trans (s.signalled_ring act ring), hoffered, hregs, hctr⟩
  · have hsignal : (s.signalled act ring).signal act ring = (s.signalled act ring).wr (pbaBit act v) 1 := if_pos hmask
    rw [hsignal]
    refine ⟨_, rfl, (congrArg Ring.notify (State.ring_wr _ _ _ _ _)).trans (s.signalled_ring act ring), ?_, rfl⟩
    rw [State.pending_eq _ hv, State.on_wr_pbaBit _ hv]
    rfl

/-- MSIX_UNMASK (R437). -/
theorem msixUnmask_answers (s : State) (src : Src) (act v : Nat) (ha : act < 16) (hm : s.host.mute = false) (hf : s.fnOn act = true)
    (hreach : s.reachesOwn src act = true) (hv : v < 16) : CompletesWith (exec (.msixUnmask src act v) s) fun u =>
      u.on (F.msixCtrl_mask act v) = false ∧ (u.rd (F.msixPba_pending act)).testBit v = false ∧
      ((s.rd (F.msixPba_pending act)).testBit v = true → Offered u 42 act 0 (s.msixOut act v)) ∧
      ((s.rd (F.msixPba_pending act)).testBit v = false → u.rgm = s.rgm) := by
  obtain ⟨hmp, hml, hmh, hmd, hmf⟩ : (F.msixCtrl_mask act v).off ≠ (pbaBit act v).off ∧ (F.msixCtrl_mask act v).off ≠ (F.msixAddrLo_addr act v).off ∧
      (F.msixCtrl_mask act v).off ≠ (F.msixAddrHi_addr act v).off ∧ (F.msixCtrl_mask act v).off ≠ (F.msixData_data act v).off ∧
      (F.msixCtrl_mask act v).off ≠ F.hifVfStatus_enabled.off := by
    simp only [pbaBit, F.msixCtrl_mask, F.msixPba_pending, F.msixAddrLo_addr, F.msixAddrHi_addr, F.msixData_data, F.hifVfStatus_enabled]
    omega
  obtain ⟨hpl, hph, hpd, hpf⟩ : (pbaBit act v).off ≠ (F.msixAddrLo_addr act v).off ∧ (pbaBit act v).off ≠ (F.msixAddrHi_addr act v).off ∧
      (pbaBit act v).off ≠ (F.msixData_data act v).off ∧ (pbaBit act v).off ≠ F.hifVfStatus_enabled.off := by
    simp only [pbaBit, F.msixPba_pending, F.msixAddrLo_addr, F.msixAddrHi_addr, F.msixData_data, F.hifVfStatus_enabled]
    omega
  have hreaches : (s.reachesOwn src act && decide (act < 16) && decide (v < 16)) = true := by simp [hreach, ha, hv]
  have hexec : execMsixUnmask src act v s = .next (s.unmask act v) := congrArg Host.Outcome.next (if_pos hreaches)
  have hoff : (s.wr (F.msixCtrl_mask act v) 0).on (F.msixCtrl_mask act v) = false :=
    State.on_of_rd (n := 0) (State.rd_wr_same _ _ _ (by simp [F.msixCtrl_mask]))
  have hbit : (s.wr (F.msixCtrl_mask act v) 0).on (pbaBit act v) = (s.rd (F.msixPba_pending act)).testBit v :=
    (State.on_wr_other _ _ _ _ hmp).trans (State.pending_eq _ hv).symm
  have hunmask : s.unmask act v = if (s.wr (F.msixCtrl_mask act v) 0).on (pbaBit act v) then
      ((s.wr (F.msixCtrl_mask act v) 0).wr (pbaBit act v) 0).sendMsix act v else s.wr (F.msixCtrl_mask act v) 0 := rfl
  rw [exec_msixUnmask, hexec, hunmask, hbit]
  cases hpending : (s.rd (F.msixPba_pending act)).testBit v with
  | false =>
    refine ⟨_, rfl, hoff, ?_, fun h => (Bool.false_ne_true h).elim, fun _ => rfl⟩
    exact (State.pending_eq _ hv).trans (hbit.trans hpending)
  | true =>
    have hfn : ((s.wr (F.msixCtrl_mask act v) 0).wr (pbaBit act v) 0).fnOn act = true := by
      unfold State.fnOn
      rw [State.rd_wr_other _ _ _ _ hpf, State.rd_wr_other _ _ _ _ hmf]
      exact hf
    have hout : ((s.wr (F.msixCtrl_mask act v) 0).wr (pbaBit act v) 0).msixOut act v = s.msixOut act v := by
      simp only [State.msixOut, State.rd64, State.rd_wr_other _ _ _ _ hpl, State.rd_wr_other _ _ _ _ hph, State.rd_wr_other _ _ _ _ hpd,
        State.rd_wr_other _ _ _ _ hml, State.rd_wr_other _ _ _ _ hmh, State.rd_wr_other _ _ _ _ hmd]
    obtain ⟨hoffered, hregs, -, -⟩ := State.sendMsix_does (s := (s.wr (F.msixCtrl_mask act v) 0).wr (pbaBit act v) 0) v hm hfn
    rw [if_pos rfl]
    refine ⟨_, rfl, ?_, ?_, fun _ => hout ▸ hoffered, fun h => (Bool.false_ne_true h.symm).elim⟩
    · exact (State.on_congr_regs hregs _).trans ((State.on_wr_other _ _ _ _ hmp.symm).trans hoff)
    · rw [State.pending_eq _ hv, State.on_congr_regs hregs, State.on_wr_pbaBit _ hv]
      rfl

/-! ## Ring controls (R427, R430) -/

/-- CQ_HEAD is stored. -/
theorem cqHeadWrite_answers (s : State) (src : Src) (act ring count : Nat) (ha : act < 16) (hr : ring < 4) (hreach : s.reachesOwn src act = true) :
    CompletesWith (exec (.cqHeadWrite src act ring count) s) fun u =>
      RegsOnly s u [(F.cqHead_count act ring).off] ∧ u.rd (F.cqHead_count act ring) = count % 2 ^ 32 := by
  have hreaches : (s.reachesOwn src act && decide (act < 16) && decide (ring < 4)) = true := by simp [hreach, ha, hr]
  exact ⟨_, congrArg Host.Outcome.next (if_pos hreaches), s.wr_regsOnly _ _, State.rd_wr_same _ _ _ (by simp [F.cqHead_count])⟩

/-- The fields of RING_CTRL beside ENABLE, written. -/
def State.setsRing (s : State) (act ring v : Nat) : State :=
  ((s.wrIf (F.ringCtrl_sizeLog2 act ring) (!s.on (F.ringCtrl_enable act ring) && decide (6 ≤ bits v 1 5 ∧ bits v 1 5 ≤ 16)) (bits v 1 5)).wrIf
    (F.ringCtrl_inflightMax act ring) (decide (1 ≤ bits v 8 13 ∧ bits v 8 13 ≤ 4096)) (bits v 8 13)).wr (F.ringCtrl_vector act ring) (bits v 21 4)

theorem State.wrIf_regsOnly (s : State) (f : FieldRef) (ok : Bool) (v : Nat) : RegsOnly s (s.wrIf f ok v) [f.off] := by
  unfold State.wrIf
  split
  · exact s.wr_regsOnly f v
  · exact .refl s _

/-- A field written under a condition leaves those of its register that share no bit with it. -/
theorem State.rd_wrIf_apart (s : State) (f g : FieldRef) (ok : Bool) (v : Nat) (ho : f.off = g.off) (hg : g.lo + g.width ≤ 32)
    (ha : g.lo + g.width ≤ f.lo ∨ f.lo + f.width ≤ g.lo) : (s.wrIf f ok v).rd g = s.rd g := by
  unfold State.wrIf
  split
  · exact s.rd_wr_apart f g v ho hg ha
  · rfl

theorem State.setsRing_regsOnly (s : State) (act ring v : Nat) : RegsOnly s (s.setsRing act ring v) [(F.ringCtrl_enable act ring).off] :=
  ((s.wrIf_regsOnly (F.ringCtrl_sizeLog2 act ring) _ _).trans (State.wrIf_regsOnly _ (F.ringCtrl_inflightMax act ring) _ _)).trans
    (State.wr_regsOnly _ (F.ringCtrl_vector act ring) _)

theorem State.setsRing_fields (s : State) (act ring v : Nat) :
    (s.setsRing act ring v).on (F.ringCtrl_enable act ring) = s.on (F.ringCtrl_enable act ring) ∧
    (s.setsRing act ring v).rd (F.ringCtrl_sizeLog2 act ring) =
      (if (!s.on (F.ringCtrl_enable act ring) && decide (6 ≤ bits v 1 5 ∧ bits v 1 5 ≤ 16)) = true then bits v 1 5
        else s.rd (F.ringCtrl_sizeLog2 act ring)) ∧
    (s.setsRing act ring v).rd (F.ringCtrl_vector act ring) = bits v 21 4 := by
  unfold State.setsRing
  refine ⟨?_, ?_, ?_⟩
  · refine State.on_of_rd (n := s.rd (F.ringCtrl_enable act ring)) ?_
    rw [State.rd_wr_apart _ (F.ringCtrl_vector act ring) (F.ringCtrl_enable act ring) _ rfl
        (by simp [F.ringCtrl_enable]) (by simp [F.ringCtrl_enable, F.ringCtrl_vector]),
      State.rd_wrIf_apart _ (F.ringCtrl_inflightMax act ring) (F.ringCtrl_enable act ring) _ _ rfl
        (by simp [F.ringCtrl_enable]) (by simp [F.ringCtrl_enable, F.ringCtrl_inflightMax]),
      State.rd_wrIf_apart _ (F.ringCtrl_sizeLog2 act ring) (F.ringCtrl_enable act ring) _ _ rfl
        (by simp [F.ringCtrl_enable]) (by simp [F.ringCtrl_enable, F.ringCtrl_sizeLog2])]
  · rw [State.rd_wr_apart _ (F.ringCtrl_vector act ring) (F.ringCtrl_sizeLog2 act ring) _ rfl
        (by simp [F.ringCtrl_sizeLog2]) (by simp [F.ringCtrl_sizeLog2, F.ringCtrl_vector]),
      State.rd_wrIf_apart _ (F.ringCtrl_inflightMax act ring) (F.ringCtrl_sizeLog2 act ring) _ _ rfl
        (by simp [F.ringCtrl_sizeLog2]) (by simp [F.ringCtrl_sizeLog2, F.ringCtrl_inflightMax])]
    unfold State.wrIf
    split
    · exact (State.rd_wr_same _ _ _ (by simp [F.ringCtrl_sizeLog2])).trans (Nat.mod_eq_of_lt (bits_lt _ _ _))
    · rfl
  · exact (State.rd_wr_same _ _ _ (by simp [F.ringCtrl_vector])).trans (Nat.mod_eq_of_lt (bits_lt _ _ _))

/-- A ring that starts empty. -/
def State.startsRing (s : State) (act ring : Nat) : State :=
  let s := (((s.wr (F.ringCtrl_enable act ring) 1).wr (F.ringSeq_next act ring) 0).wr (F.cqTail_count act ring) 0).wr (F.cqHead_count act ring) 0
  let s := s.modRing act ring fun r => { r with next := 0, tail := 0, notify := 0, since := 0, message := none }
  { s with host := { s.host with mute := false } }

/-- RING_CTRL's write by its owner. -/
theorem State.writeRingCtrl_owned {s : State} {src : Src} {act ring : Nat} (v : Nat) (ha : act < 16) (hr : ring < 4) (hreach : s.reachesOwn src act = true) :
    s.writeRingCtrl src act ring v =
      if !bitOf v 0 then (s.setsRing act ring v).wr (F.ringCtrl_enable act ring) 0
      else if s.on (F.ringCtrl_enable act ring) || !((s.setsRing act ring v).ringJobs act ring).isEmpty ||
        !((s.setsRing act ring v).ring act ring).fetching.isEmpty || (s.setsRing act ring v).cqUsed act ring != 0 then s.setsRing act ring v
      else (s.setsRing act ring v).startsRing act ring := by
  have howned : ¬ ((!s.reachesOwn src act || decide (act ≥ 16) || decide (ring ≥ 4)) = true) := by simp [hreach, ha, hr]
  exact if_neg howned

/-- The ENABLE bit that a write of RING_CTRL carries leaves its other fields. -/
theorem bits_enableBit (word e : Nat) : bits (putBits word 0 1 e) 1 5 = bits word 1 5 ∧ bits (putBits word 0 1 e) 21 4 = bits word 21 4 :=
  ⟨bits_putBits_apart _ _ _ _ _ _ (.inr (by decide)), bits_putBits_apart _ _ _ _ _ _ (.inr (by decide))⟩

theorem bitOf_enableBit (word e : Nat) : bitOf (putBits word 0 1 e) 0 = e.testBit 0 := by
  unfold bitOf
  rw [putBits_testBit]
  rfl

/-- Writes of SEQ_NEXT, CQ_TAIL and CQ_HEAD leave RING_CTRL. -/
theorem State.startsRing_ctrl (s : State) {act ring : Nat} {f : FieldRef} (hf : f.off = (F.ringCtrl_enable act ring).off) :
    (s.startsRing act ring).rd f = (s.wr (F.ringCtrl_enable act ring) 1).rd f := by
  obtain ⟨hseq, htail, hhead⟩ : (F.ringSeq_next act ring).off ≠ f.off ∧ (F.cqTail_count act ring).off ≠ f.off ∧ (F.cqHead_count act ring).off ≠ f.off := by
    simp only [hf, F.ringCtrl_enable, F.ringSeq_next, F.cqTail_count, F.cqHead_count]
    omega
  exact (State.rd_wr_other _ _ _ _ hhead).trans ((State.rd_wr_other _ _ _ _ htail).trans (State.rd_wr_other _ _ _ _ hseq))

theorem State.startsRing_fields (s : State) (act ring : Nat) :
    (s.startsRing act ring).on (F.ringCtrl_enable act ring) = true ∧
    (s.startsRing act ring).rd (F.ringCtrl_sizeLog2 act ring) = s.rd (F.ringCtrl_sizeLog2 act ring) ∧
    (s.startsRing act ring).rd (F.ringCtrl_vector act ring) = s.rd (F.ringCtrl_vector act ring) ∧
    (s.startsRing act ring).rd (F.cqTail_count act ring) = 0 ∧ (s.startsRing act ring).rd (F.cqHead_count act ring) = 0 := by
  refine ⟨State.on_of_rd (n := 1) ?_, ?_, ?_, ?_, ?_⟩
  · exact (s.startsRing_ctrl rfl).trans (State.rd_wr_same _ _ _ (by simp [F.ringCtrl_enable]))
  · exact (s.startsRing_ctrl (f := F.ringCtrl_sizeLog2 act ring) rfl).trans
      (State.rd_wr_apart _ (F.ringCtrl_enable act ring) (F.ringCtrl_sizeLog2 act ring) _ rfl (by simp [F.ringCtrl_sizeLog2]) (by simp [F.ringCtrl_enable, F.ringCtrl_sizeLog2]))
  · exact (s.startsRing_ctrl (f := F.ringCtrl_vector act ring) rfl).trans
      (State.rd_wr_apart _ (F.ringCtrl_enable act ring) (F.ringCtrl_vector act ring) _ rfl (by simp [F.ringCtrl_vector]) (by simp [F.ringCtrl_enable, F.ringCtrl_vector]))
  · have hne : (F.cqHead_count act ring).off ≠ (F.cqTail_count act ring).off := by
      simp only [F.cqTail_count, F.cqHead_count]
      omega
    exact (State.rd_wr_other _ _ _ _ hne).trans ((State.rd_wr_same _ _ _ (by simp [F.cqTail_count])).trans (Nat.zero_mod _))
  · exact (State.rd_wr_same _ _ _ (by simp [F.cqHead_count])).trans (Nat.zero_mod _)

theorem State.startsRing_ring (s : State) (act ring : Nat) : (s.startsRing act ring).ring act ring =
    { s.ring act ring with next := 0, tail := 0, notify := 0, since := 0, message := none } :=
  State.ring_modRing_same ((((s.wr (F.ringCtrl_enable act ring) 1).wr (F.ringSeq_next act ring) 0).wr (F.cqTail_count act ring) 0).wr
    (F.cqHead_count act ring) 0) act ring (f := fun r => { r with next := 0, tail := 0, notify := 0, since := 0, message := none }) rfl rfl

/-- RING_ENABLE of a ring that is off: it starts where it is idle and empty, and stays off while it has jobs (R430). -/
theorem ringEnable_answers (s : State) (src : Src) (act ring word : Nat) (ha : act < 16) (hr : ring < 4) (hreach : s.reachesOwn src act = true)
    (hmax : bits word 1 5 ≤ 16) (hmin : 6 ≤ bits word 1 5) :
    let r := s.ring act ring
    (s.on (F.ringCtrl_enable act ring) = false → (∀ j ∈ s.fil.jobs, j.act = act → j.ring ≠ ring) → r.fetching = [] →
      s.rd (F.cqHead_count act ring) = s.rd (F.cqTail_count act ring) → CompletesWith (exec (.ringEnable src act ring word) s) fun u =>
        u.on (F.ringCtrl_enable act ring) = true ∧ u.rd (F.ringCtrl_sizeLog2 act ring) = bits word 1 5 ∧
        u.rd (F.ringCtrl_vector act ring) = bits word 21 4 ∧ u.rd (F.cqTail_count act ring) = 0 ∧ u.rd (F.cqHead_count act ring) = 0 ∧
        u.ring act ring = { r with next := 0, tail := 0, notify := 0, since := 0, message := none } ∧ u.fil = s.fil) ∧
    ((∃ j ∈ s.fil.jobs, j.act = act ∧ j.ring = ring) → s.on (F.ringCtrl_enable act ring) = false →
      CompletesWith (exec (.ringEnable src act ring word) s) fun u => u.on (F.ringCtrl_enable act ring) = false ∧ u.host = s.host) := by
  intro r
  obtain ⟨hsize, hvector⟩ := bits_enableBit word 1
  obtain ⟨hsetOn, hsetSize, hsetVector⟩ := s.setsRing_fields act ring (putBits word 0 1 1)
  have hset := s.setsRing_regsOnly act ring (putBits word 0 1 1)
  have honly : OnRegs s (s.setsRing act ring (putBits word 0 1 1)) := hset.2
  have hexec : execRingEnable src act ring word s = .next (s.writeRingCtrl src act ring (putBits word 0 1 1)) := rfl
  rw [exec_ringEnable, hexec, State.writeRingCtrl_owned _ ha hr hreach, bitOf_enableBit]
  refine ⟨fun hoff hidle hf hcq => ?_, fun ⟨j, hj, hact, hring⟩ hoff => ?_⟩
  · have hjobs : (s.setsRing act ring (putBits word 0 1 1)).ringJobs act ring = [] := by
      unfold State.ringJobs
      rw [honly.fil]
      exact List.filter_eq_nil_iff.2 fun j hj hc => by
        simp only [Bool.and_eq_true, beq_iff_eq] at hc
        exact hidle j hj hc.1 hc.2
    have hring : (s.setsRing act ring (putBits word 0 1 1)).ring act ring = r := State.ring_congr (congrArg HostSt.rings honly.host) _ _
    have hused : (s.setsRing act ring (putBits word 0 1 1)).cqUsed act ring = 0 := by
      have hother : ∀ f : FieldRef, f.off ≠ (F.ringCtrl_enable act ring).off → (s.setsRing act ring (putBits word 0 1 1)).rd f = s.rd f := fun f hf => by
        unfold State.rd
        rw [hset.1 f.off (by simpa using hf)]
      unfold State.cqUsed
      rw [hother _ (by simp only [F.cqTail_count, F.ringCtrl_enable]; omega), hother _ (by simp only [F.cqHead_count, F.ringCtrl_enable]; omega), hcq,
        Nat.add_sub_cancel_left, Nat.mod_self]
    have hstarts : (s.on (F.ringCtrl_enable act ring) || !((s.setsRing act ring (putBits word 0 1 1)).ringJobs act ring).isEmpty ||
        !((s.setsRing act ring (putBits word 0 1 1)).ring act ring).fetching.isEmpty ||
        (s.setsRing act ring (putBits word 0 1 1)).cqUsed act ring != 0) = false := by
      rw [hoff, hjobs, hring, hf, hused]
      rfl
    obtain ⟨hon, hs, hv, htail, hhead⟩ := (s.setsRing act ring (putBits word 0 1 1)).startsRing_fields act ring
    have hvalid : (!s.on (F.ringCtrl_enable act ring) && decide (6 ≤ bits word 1 5 ∧ bits word 1 5 ≤ 16)) = true := by simp [hoff, hmin, hmax]
    rw [hsize, if_pos hvalid] at hsetSize
    rw [hstarts]
    exact ⟨_, rfl, hon, hs.trans hsetSize, (hv.trans hsetVector).trans hvector, htail, hhead,
      (State.startsRing_ring _ act ring).trans (by rw [hring]), honly.fil⟩
  · have hjobs : ((s.setsRing act ring (putBits word 0 1 1)).ringJobs act ring).isEmpty = false := by
      have hmem : j ∈ (s.setsRing act ring (putBits word 0 1 1)).ringJobs act ring := List.mem_filter.2 ⟨honly.fil ▸ hj, by simp [hact, hring]⟩
      exact List.isEmpty_eq_false_iff.2 (List.ne_nil_of_mem hmem)
    rw [hjobs, hoff]
    exact ⟨_, rfl, hsetOn.trans hoff, honly.host⟩

/-- RING_DISABLE (R427, R430). -/
theorem ringDisable_answers (s : State) (src : Src) (act ring word : Nat) (ha : act < 16) (hr : ring < 4) (hreach : s.reachesOwn src act = true)
    (hmax : bits word 1 5 ≤ 16) (hmin : 6 ≤ bits word 1 5) : CompletesWith (exec (.ringDisable src act ring word) s) fun u =>
      u.on (F.ringCtrl_enable act ring) = false ∧ RegsOnly s u [(F.ringCtrl_enable act ring).off] ∧
      u.rd (F.ringCtrl_sizeLog2 act ring) =
        if s.on (F.ringCtrl_enable act ring) = true then s.rd (F.ringCtrl_sizeLog2 act ring) else bits word 1 5 := by
  obtain ⟨hsize, -⟩ := bits_enableBit word 0
  obtain ⟨-, hsetSize, -⟩ := s.setsRing_fields act ring (putBits word 0 1 0)
  have hexec : execRingDisable src act ring word s = .next (s.writeRingCtrl src act ring (putBits word 0 1 0)) := rfl
  rw [exec_ringDisable, hexec, State.writeRingCtrl_owned _ ha hr hreach, bitOf_enableBit]
  refine ⟨_, rfl, State.on_of_rd (n := 0) (State.rd_wr_same _ _ _ (by simp [F.ringCtrl_enable])),
    (s.setsRing_regsOnly act ring _).trans (State.wr_regsOnly _ _ _), ?_⟩
  have happart : ((s.setsRing act ring (putBits word 0 1 0)).wr (F.ringCtrl_enable act ring) 0).rd (F.ringCtrl_sizeLog2 act ring) = _ :=
    State.rd_wr_apart _ (F.ringCtrl_enable act ring) (F.ringCtrl_sizeLog2 act ring) _ rfl (by simp [F.ringCtrl_sizeLog2])
      (by simp [F.ringCtrl_enable, F.ringCtrl_sizeLog2])
  refine happart.trans (hsetSize.trans ?_)
  rw [hsize]
  cases s.on (F.ringCtrl_enable act ring) with
  | false => simp [hmin, hmax]
  | true => rfl

/-- Settles O56: each clause is what its command answers. -/
theorem jobRings : Obligations.JobRings := by
  refine ⟨fun s act w hb h1 h2 h3 h4 h5 h6 h7 h8 h9 h10 h11 => ringPoll_answers s act w ⟨hb, h1, h2, h3, h4, h5, h6, h7, h8, h9, h10, h11⟩,
    fun s act ring num b _ hr hf hfree => descriptorFetchComplete_answers s act ring num b hr hf hfree,
    hostReadError_ring, fun s job j hj => ⟨hostRead_job s job j hj, jobSnapshotRelease_answers s job j hj, jobSnapshotTimeout_answers s job j hj,
      deadlineArrival_answers s job j hj, jobEnd_answers s job j hj, completionWrite_answers s job j hj⟩,
    fun s act ring ha hr hm hf => ⟨msixTimerExpiry_answers s act ring ha hr hm hf, fun src v hreach hv => ⟨msixUnmask_answers s src act v ha hm hf hreach hv,
      fun count => cqHeadWrite_answers s src act ring count ha hr hreach, fun word hmax hmin =>
        ⟨(ringEnable_answers s src act ring word ha hr hreach hmax hmin).1, (ringEnable_answers s src act ring word ha hr hreach hmax hmin).2,
          ringDisable_answers s src act ring word ha hr hreach hmax hmin⟩⟩⟩⟩

end Sys2Proof.Machine
end

section
/-! PROOFS. What every instruction command has in common (R76, R78, R79). -/
namespace Sys2Proof.Machine

/-- An engine instruction that makes one tile is issued like every other. -/
theorem tileEngine_issues (f : Form) (o : Insn) (s : State) (reads : List Res) (make : Strand → Job → M TileVal) :
    ∃ body, tileEngine f o s reads make = issue f o s body := ⟨_, rfl⟩

/-- Every instruction command issues its word: its well-formedness is that of its form, which MOV.TALLOC and MOV.TLOADM narrow by a
condition of their own (R89), tested before the issue. -/
theorem exec_word {i : Instr} {f : Form} {o : Insn} (h : i.word? = some (f, o)) (s : State) :
    ∃ (narrow : Bool) (body : Strand → Job → M Unit), i.wf = (f.ok o && narrow) ∧
      exec i s = if narrow then issue f o s body else .refused .reservedEncoding := by
  cases i
  case movTalloc w =>
    cases h
    obtain ⟨body, hbody⟩ := tileEngine_issues Form.movTalloc o s [] _
    refine ⟨o.tileForm, body, rfl, ?_⟩
    rw [← hbody, exec_movTalloc, execMovTalloc]
    cases o.tileForm <;> rfl
  case movTloadm w =>
    cases h
    obtain ⟨body, hbody⟩ := tileEngine_issues Form.movTloadm o s [] _
    refine ⟨o.tileForm, body, rfl, ?_⟩
    rw [← hbody, exec_movTloadm, execMovTloadm]
    cases o.tileForm <;> rfl
  all_goals cases h <;> exact ⟨true, _, (Bool.and_true _).symm, rfl⟩

/-- A word that its form does not take is refused. -/
theorem issue_invalid {f : Form} {o : Insn} (h : f.ok o = false) (s : State) (body : Strand → Job → M Unit) :
    issue f o s body = .refused .reservedEncoding := by
  unfold issue
  rw [h]
  rfl

/-- Settles O3: a word is ill formed by its form, which the issue refuses, or by the tile condition, which is tested before it. -/
theorem invalidWordIsRefused : Obligations.InvalidWordIsRefused := by
  intro i f o s hword hwf
  obtain ⟨narrow, body, hform, hexec⟩ := exec_word hword s
  rw [hexec]
  cases hn : narrow with
  | false => rfl
  | true =>
    rw [hform, hn, Bool.and_true] at hwf
    exact issue_invalid hwf s body

/-- A strand whose predicate test fails moves on, whatever the instruction. -/
theorem issue_skips {s : State} {f : Form} {o : Insn} {t : Strand} {j : Job} (h : ComesTo s f o t j) (hp : predOk t o = false)
    (body : Strand → Job → M Unit) : issue f o s body = .next (s.moved o t) := by
  unfold issue
  rw [h.valid, h.strand]
  simp only [h.job, h.ready, h.engine, h.crew, h.guard, hp]
  rfl

/-- The strand that has moved on, and nothing else changed. -/
theorem State.moved_becomes {s : State} {o : Insn} {t : Strand} (h : s.strand? o.strand = some t) :
    StrandBecomes s (s.moved o t) o (t.after o) :=
  s.modStrand_becomes o (fun u => { u with pc := nextPc t o, wait := .no }) h (fun _ => rfl) fun _ => rfl

/-- Settles O4: a well-formed word is issued, and an issue whose predicate test fails only moves the strand on. -/
theorem failedPredicateDoesNothing : Obligations.FailedPredicateDoesNothing := by
  intro i f o s t j hword hwf h hp
  obtain ⟨narrow, body, hform, hexec⟩ := exec_word hword s
  have hn : narrow = true := (Bool.and_eq_true _ _ ▸ hform ▸ hwf).2
  rw [hexec, hn, if_pos rfl, issue_skips h hp body]
  exact ⟨_, rfl, State.moved_becomes h.strand⟩
end Sys2Proof.Machine
end

section
/-! PROOFS. The scalar functions of Table 3.5 and the moves of descriptors of Table 3.6 (R32, R33, R80, R87 to R89). -/
namespace Sys2Proof.Machine

/-! ## Integers -/

/-- A three-register function writes its value. -/
theorem alu_writesS {s : State} {f : Form} {o : Insn} {t : Strand} {j : Job} {g : DWord → DWord → DWord} {v : DWord} (h : Issues s f o t j)
    (hv : g (t.getS o.a) (t.getS o.b) = v) : CompletesWith (scalar f o s (alu o g)) fun u => WritesS s u o t o.dst v :=
  hv ▸ scalar_writesS h o.dst fun t => g (t.getS o.a) (t.getS o.b)

theorem divu_eq (a b : DWord) : divu a b = if b = 0#64 then 0xFFFFFFFFFFFFFFFF#64 else BitVec.ofNat 64 (a.toNat / b.toNat) := by
  unfold divu
  split
  · decide
  · exact BitVec.udiv_def

theorem remu_eq (a b : DWord) : remu a b = if b = 0#64 then a else BitVec.ofNat 64 (a.toNat % b.toNat) := by
  unfold remu
  split
  · rfl
  · exact BitVec.umod_def

theorem sshiftRight_eq (a b : DWord) : a.sshiftRight (shamt b) = BitVec.ofInt 64 (a.toInt / 2 ^ (b.toNat % 64)) := by
  rw [BitVec.sshiftRight, Int.shiftRight_eq_div_pow]
  rfl

/-- Settles O5: each function writes its value of Table 3.5. -/
theorem scalarIntegerResults : Obligations.ScalarIntegerResults := by
  unfold Obligations.ScalarIntegerResults Claims.integers
  simp only [List.forall_mem_cons]
  refine ⟨fun o s t j h => scalar_writesS h o.dst _, fun o s t j h => scalar_writesS h o.dst _, fun o s t j h => alu_writesS h rfl,
    fun o s t j h => scalar_writesS h o.dst _, fun o s t j h => alu_writesS h rfl, fun o s t j h => alu_writesS h rfl,
    fun o s t j h => alu_writesS h rfl, fun o s t j h => alu_writesS h (divu_eq _ _), fun o s t j h => alu_writesS h (remu_eq _ _),
    fun o s t j h => alu_writesS h rfl, fun o s t j h => alu_writesS h rfl, fun o s t j h => alu_writesS h rfl,
    fun o s t j h => alu_writesS h rfl, fun o s t j h => alu_writesS h rfl, fun o s t j h => alu_writesS h (sshiftRight_eq _ _), ?_⟩
  exact fun e he => nomatch he

/-! ## Binary32 -/

/-- Settles O6: each function rounds once, and its word is zero above bit 31. -/
theorem scalarBinary32Results : Obligations.ScalarBinary32Results := by
  intro o s t j x y
  exact ⟨fun h => alu_writesS h rfl, fun h => alu_writesS h rfl, fun h => scalar_writesS h o.dst _, fun h => scalar_writesS h o.dst _⟩

/-! ## Predicates (R33) -/

theorem cmpCond_eq (c : Nat) (a b : DWord) : cmpCond c a b =
    if c = 0 then decide (a = b) else if c = 1 then decide (a ≠ b) else if c = 2 then decide (a.toInt < b.toInt)
    else if c = 3 then decide (a.toInt ≤ b.toInt) else if c = 4 then decide (a.toNat < b.toNat) else decide (a.toNat ≤ b.toNat) := by
  match c with
  | 0 => rfl
  | 1 => exact (decide_not (p := a = b)).symm
  | 2 | 3 | 4 => rfl
  | n + 5 => rfl

theorem plogOp_eq (c : Nat) (a b : Bool) : plogOp c a b =
    if c = 0 then a && b else if c = 1 then a || b else if c = 2 then xor a b else a && !b := by
  match c with
  | 0 | 1 | 2 => rfl
  | n + 3 => rfl

theorem fcmpCond_eq (c : Nat) (a b : DWord) : fcmpCond c a b =
    if c = 0 then feq (a.toNat % 2 ^ 32) (b.toNat % 2 ^ 32) else if c = 1 then flt (a.toNat % 2 ^ 32) (b.toNat % 2 ^ 32)
    else flt (a.toNat % 2 ^ 32) (b.toNat % 2 ^ 32) || feq (a.toNat % 2 ^ 32) (b.toNat % 2 ^ 32) := by
  match c with
  | 0 | 1 => rfl
  | n + 2 => rfl

/-- A body that writes one scalar register of the strand, once it has moved on. -/
theorem issue_writesS {s : State} {f : Form} {o : Insn} {t : Strand} {j : Job} {body : Strand → Job → M Unit} {n : Nat} {v : DWord}
    (h : Issues s f o t j) (hb : (body t j).run (s.moved o t) = .ok () ((s.moved o t).modStrand o.strand fun u => u.setS n v)) :
    CompletesWith (issue f o s body) fun u => WritesS s u o t n v := by
  obtain ⟨u, hu, hbec⟩ := issue_becomes (fun u => u.setS n v) h hb (fun u => u.setS_id _ _) fun u => u.setS_ended _ _
  exact ⟨u, hu, _, hbec, Strand.getS_setS _ _ _, fun m hm => Strand.getS_setS_other _ _ hm, Strand.setS_eta _ _ _⟩

/-- The same for one descriptor register. -/
theorem issue_writesD {s : State} {f : Form} {o : Insn} {t : Strand} {j : Job} {body : Strand → Job → M Unit} {n : Nat} {v : BitVec 128}
    (h : Issues s f o t j) (hb : (body t j).run (s.moved o t) = .ok () ((s.moved o t).modStrand o.strand fun u => u.setD n v)) :
    CompletesWith (issue f o s body) fun u => WritesD s u o t n v := by
  obtain ⟨u, hu, hbec⟩ := issue_becomes (fun u => u.setD n v) h hb (fun _ => rfl) fun _ => rfl
  exact ⟨u, hu, _, hbec, Strand.getD_setD _ _ _, fun m hm => Strand.getD_setD_other _ _ hm, rfl⟩

/-- SEL, with the predicate that it selects by free. -/
theorem execSclSel_writes {s : State} {o : Insn} {t : Strand} {j : Job} (h : Issues s Form.sclSel o t j)
    (hc : t.clear [.p (o.fld 0 3)] [] = true) :
    CompletesWith (execSclSel o s) fun u => WritesS s u o t o.dst (if t.getP (o.fld 0 3) then t.getS o.a else t.getS o.b) := by
  refine issue_writesS h ?_
  simp only [hc]
  rfl

/-- Settles O7: the predicate functions by their codes, and SEL once its predicate is free. -/
theorem scalarPredicates : Obligations.ScalarPredicates := by
  intro o s t j a b
  refine ⟨fun h => ?_, fun h => ?_, fun h => ?_, execSclSel_writes⟩
  · rw [← cmpCond_eq]
    exact scalar_writesP h o.dst _
  · rw [← plogOp_eq]
    exact scalar_writesP h o.dst _
  · rw [← fcmpCond_eq]
    exact scalar_writesP h o.dst _

/-! ## The binary32 order (R88) -/

/-- A NaN's key is above every number's. -/
theorem fkey_nan {x : Nat} (h : 0x7F800000 < x % 2 ^ 31) : fkey x = 0x80000000 := if_pos h

/-- Settles O8: the order is that of the keys, of which plus infinity's is below the one of all NaNs. -/
theorem binary32Order : Obligations.Binary32Order := by
  refine ⟨by decide, fun x _ hn => ?_, fun x _ y _ hx hy => ?_, fun x _ y _ => ?_⟩
  · have hinf : fkey 0x7F800000 = 0x7F800000 := by decide
    rw [flt, fkey_nan hn, hinf]
    rfl
  · rw [feq, flt, fkey_nan hx, fkey_nan hy]
    decide
  · simp only [flt, feq, decide_eq_true_eq, decide_eq_false_iff_not]
    omega

/-! ## Descriptors (R89) -/

theorem putBits_lt {n lo w k v : Nat} (hn : n < 2 ^ k) (h : lo + w ≤ k) : putBits n lo w v < 2 ^ k := by
  refine Nat.lt_pow_two_of_testBit _ fun i hi => ?_
  rw [putBits_testBit, if_neg (by omega)]
  exact Nat.testBit_lt_two_pow (Nat.lt_of_lt_of_le hn (Nat.pow_le_pow_right (by decide) hi))

theorem toNat_subDsc (v : BitVec 128) (off len : Nat) :
    (subDsc v off len).toNat = putBits (putBits v.toNat 0 46 (bits v.toNat 0 46 + off)) 64 42 len := by
  rw [subDsc, BitVec.toNat_ofNat, Nat.mod_eq_of_lt (putBits_lt (putBits_lt v.isLt (by decide)) (by decide))]

/-- A field of a descriptor apart from BASE and LENGTH. -/
theorem bits_subDsc (v : BitVec 128) (off len : Nat) {lo w : Nat} (hb : 46 ≤ lo) (hl : lo + w ≤ 64 ∨ 106 ≤ lo) :
    bits (subDsc v off len).toNat lo w = bits v.toNat lo w := by
  rw [toNat_subDsc, bits_putBits_apart _ _ _ _ _ _ hl, bits_putBits_apart _ _ _ _ _ _ (.inr hb)]

/-- The descriptor that DSUB forms. -/
theorem decodeDsc_subDsc (v : BitVec 128) (off len : Nat) :
    decodeDsc (subDsc v off len) = { decodeDsc v with base := ((decodeDsc v).base + off) % 2 ^ 46, len := len % 2 ^ 42 } := by
  have hbase : bits (subDsc v off len).toNat 0 46 = (bits v.toNat 0 46 + off) % 2 ^ 46 := by
    rw [toNat_subDsc, bits_putBits_apart _ _ _ _ _ _ (.inl (by decide)), bits_putBits_same]
  have hlen : bits (subDsc v off len).toNat 64 42 = len % 2 ^ 42 := by rw [toNat_subDsc, bits_putBits_same]
  have hro : bitOf (subDsc v off len).toNat 54 = bitOf v.toNat 54 := by
    simp [toNat_subDsc, bitOf, putBits_testBit]
  unfold decodeDsc
  simp only [hbase, hlen, hro, bits_subDsc v off len (lo := 46) (w := 6) (by decide) (by decide),
    bits_subDsc v off len (lo := 52) (w := 2) (by decide) (by decide), bits_subDsc v off len (lo := 106) (w := 14) (by decide) (by decide),
    bits_subDsc v off len (lo := 120) (w := 4) (by decide) (by decide), bits_subDsc v off len (lo := 55) (w := 9) (by decide) (by decide),
    bits_subDsc v off len (lo := 124) (w := 4) (by decide) (by decide)]

theorem decodeDsc_len_lt (v : BitVec 128) : (decodeDsc v).len < 2 ^ 42 := bits_lt _ _ _

/-- DSUB of a usable source within its length. -/
theorem execMovDsub_writes {s : State} {o : Insn} {t : Strand} {j : Job} (h : Issues s Form.movDsub o t j) (hu : Usable (t.getD o.a) [0, 1, 2] false)
    (hin : (t.getS o.b).toNat + (o.ext.getD 0 0#64).toNat ≤ (decodeDsc (t.getD o.a)).len) :
    CompletesWith (execMovDsub o s) fun u =>
      WritesD s u o t o.dst (subDsc (t.getD o.a) (t.getS o.b).toNat (o.ext.getD 0 0#64).toNat) := by
  refine issue_writesD h ?_
  simp only [useDsc_pure hu, M.bind_pure, need_pure _ _ (decide_eq_true hin)]
  rfl

/-- Settles O9: DSUB's new LENGTH is within the source's, so that its field holds it. -/
theorem descriptorMoves : Obligations.DescriptorMoves := by
  intro o s t j
  refine ⟨fun h => scalar_writesD h o.dst _, fun h => scalar_writesS h o.dst _, fun h hu hin => ?_⟩
  obtain ⟨u, hexec, hw⟩ := execMovDsub_writes h hu hin
  have hlt := decodeDsc_len_lt (t.getD o.a)
  refine ⟨u, hexec, _, hw, ?_⟩
  rw [decodeDsc_subDsc, Nat.mod_eq_of_lt (show (o.ext.getD 0 0#64).toNat < 2 ^ 42 by omega)]

end Sys2Proof.Machine
end

section
/-! PROOFS. Control flow and the end of a strand (R50, R80, R82, R86). -/
namespace Sys2Proof.Machine

/-- JMPR to the first word of an instruction. -/
theorem execCtlJmpr_jumps {s : State} {o : Insn} {t : Strand} {j : Job} {r : Routine} (h : Issues s Form.ctlJmpr o t j)
    (hr : s.routineOf j = some r) (hf : firstWord (t.getS o.a).toNat r.code.length r.code 0 = true) :
    CompletesWith (execCtlJmpr o s) fun u => StrandBecomes s u o { t.after o with pc := (t.getS o.a).toNat } := by
  have hr' : (s.moved o t).routineOf j = some r := hr
  refine issue_becomes (Strand.jump (t.getS o.a).toNat) h ?_ (fun _ => rfl) fun _ => rfl
  rw [M.run_bind_ok (M.run_get _)]
  simp only [hr', need_pure _ _ hf]
  rfl

/-- What LOOP makes of its strand. -/
def Strand.loops (o : Insn) (t u : Strand) : Strand :=
  let v := u.setS o.dst (t.getS o.dst - 1#64)
  if v.getS o.dst = 0#64 then v else v.jump (branchTo t o)

theorem Strand.loops_rest (o : Insn) (t u : Strand) : t.loops o u =
    { u.setS o.dst (t.getS o.dst - 1#64) with
      pc := if (u.setS o.dst (t.getS o.dst - 1#64)).getS o.dst = 0#64 then u.pc else branchTo t o } := by
  have hpc : (u.setS o.dst (t.getS o.dst - 1#64)).pc = u.pc := by rw [Strand.setS_eta]
  unfold Strand.loops
  simp only
  split
  · rw [← hpc]
  · rfl

/-- Settles O18: each form's strand after the issue. -/
theorem controlFlow : Obligations.ControlFlow := by
  intro o s t j target onward
  refine ⟨fun h => ?_, fun h => ?_, fun h => ?_, fun r h => execCtlJmpr_jumps h, fun h => ?_⟩
  · exact scalar_becomes h (fun _ u => u) (fun _ => rfl) fun _ => rfl
  · exact scalar_becomes h (fun t u => u.jump (branchTo t o)) (fun _ => rfl) fun _ => rfl
  · obtain ⟨u, hu, hbec⟩ := scalar_becomes h (fun t u => (u.setS o.dst (BitVec.ofNat 64 (nextPc t o))).jump (branchTo t o))
      (fun u => u.setS_id _ _) fun u => u.setS_ended _ _
    refine ⟨u, hu, _, hbec, Strand.getS_setS _ _ _, fun m hm => Strand.getS_setS_other _ _ hm, ?_⟩
    exact congrArg (Strand.jump target) (Strand.setS_eta _ _ _)
  · have hrest := t.loops_rest o
    obtain ⟨u, hu, hbec⟩ := scalar_becomes h (Strand.loops o) (fun u => by rw [hrest]; exact u.setS_id _ _)
      fun u => by rw [hrest]; exact u.setS_ended _ _
    have hget : ∀ m, (t.loops o (t.after o)).getS m = ((t.after o).setS o.dst (t.getS o.dst - 1#64)).getS m := fun m => by rw [hrest]; rfl
    refine ⟨u, hu, _, hbec, (hget _).trans (Strand.getS_setS _ _ _), fun m hm => (hget m).trans (Strand.getS_setS_other _ _ hm), ?_⟩
    rw [hget, hrest, Strand.setS_eta]
    rfl

/-! ## END (R50, R86, R110) -/

/-- A strand's handles released: its registers but the handles, and every other strand, stay. -/
theorem State.releaseHandles_does {s : State} {id : Nat} {t : Strand} (h : s.strand? id = some t) : ∃ g : Strand → Strand,
    (∀ u, (g u).id = u.id) ∧ (∀ u, ∀ r < 32, (g u).getT r = none) ∧ TilesOnly (s.modStrand id g) (s.releaseHandles id) := by
  obtain ⟨g, hg, hdoes⟩ := State.releaseList id (List.range 32) s (by rw [State.anyStrand_of_strand h]; rfl)
  exact ⟨g, fun u => (hg u).1, fun u r hr => (hg u).2.2.2.1 r (List.mem_range.2 hr), hdoes⟩

/-- The end of a strand ends it after the release of its handles. -/
theorem State.endStrand_rest (s : State) (id : Nat) : (s.endStrand id).mem = (s.releaseHandles id).mem ∧ (s.endStrand id).fil.strands =
    updWhere (·.id == id) (fun u => { u with ended := true, wait := .no }) (s.releaseHandles id).fil.strands := by
  unfold State.endStrand
  generalize s.releaseHandles id = w
  exact ⟨rfl, rfl⟩

/-- The end of a strand: it runs no more, and its handles name no tile. -/
theorem State.endStrand_does {s : State} {id : Nat} {t : Strand} (h : s.strand? id = some t) :
    (s.endStrand id).strand? id = none ∧ (s.endStrand id).mem = s.mem ∧
      ∀ v ∈ (s.endStrand id).fil.strands, v.id = id → ∀ r < 32, v.getT r = none := by
  obtain ⟨g, hid, hnone, hdoes⟩ := State.releaseHandles_does h
  have hstrands : (s.endStrand id).fil.strands =
      updWhere (·.id == id) (fun u => { g u with ended := true, wait := .no }) s.fil.strands := by
    have hrel : (s.releaseHandles id).fil.strands = updWhere (·.id == id) g s.fil.strands := hdoes.strands
    rw [(s.endStrand_rest id).2, hrel, updWhere_updWhere]
    exact fun u hu => by rw [hid]; exact hu
  have hended : ∀ v ∈ (s.endStrand id).fil.strands, v.id = id → v.ended = true ∧ ∀ r < 32, v.getT r = none := by
    intro v hv hvid
    rw [hstrands] at hv
    obtain ⟨u, -, rfl⟩ := List.mem_map.1 hv
    by_cases hu : u.id = id
    · simp only [hu, beq_self_eq_true, if_true]
      exact ⟨trivial, hnone u⟩
    · simp only [beq_iff_eq, hu, if_false] at hvid
  refine ⟨List.find?_eq_none.2 fun v hv => ?_, (s.endStrand_rest id).1.trans hdoes.mem, fun v hv hvid => (hended v hv hvid).2⟩
  simp only [Bool.and_eq_true, beq_iff_eq, Bool.not_eq_true', not_and]
  exact fun hvid => by simp [(hended v hv hvid).1]

/-- Settles O19: with nothing in flight the strand ends at once, and otherwise it waits at its end. -/
theorem endOfStrand : Obligations.EndOfStrand := by
  intro o s t j h
  refine ⟨fun hfl => ?_, fun hfl => ?_⟩
  · have hmoved : (s.moved o t).strand? o.strand = some (t.after o) := (State.moved_becomes h.strand).1
    refine ⟨_, issue_ok (a := ()) h ?_, State.endStrand_does (s := s.moved o t) hmoved⟩
    rw [hfl]
    rfl
  · have hne : t.inflight.isEmpty = false := List.isEmpty_eq_false_iff.2 hfl
    refine issue_becomes (fun u => { u with wait := .ending, since := s.tally.beat }) h ?_ (fun _ => rfl) fun _ => rfl
    rw [hne]
    rfl

end Sys2Proof.Machine
end

section
/-! PROOFS. SCL.ST of node memory, misaligned scalar accesses, and the accesses of SYS to registers and counters (R46, R82, R84, R87, R107). -/
namespace Sys2Proof.Machine

/-! ## SCL.ST (R87, R252) -/

theorem getElem_leBytes (n k i : Nat) (h : i < (leBytes n k).length) : (leBytes n k)[i] = BitVec.ofNat 8 (n / 256 ^ i) := by
  induction k generalizing n i with
  | zero => cases h
  | succ k ih =>
    cases i with
    | zero => simp [leBytes]
    | succ i =>
      simp only [leBytes, List.getElem_cons_succ]
      rw [ih, Nat.div_div_eq_div_mul, pow_succ']

/-- An aligned scalar access lies in one block of 64 bytes. -/
theorem aligned_inBlock {a k : Nat} (hk : k < 4) (h : a % 2 ^ k = 0) : a % 64 + 2 ^ k ≤ 64 := by
  interval_cases k <;> omega

/-- SCL.ST of node memory: the store, once the strand has moved on. -/
theorem execSclSt_memory {s : State} {o : Insn} {t : Strand} {j : Job} {n a : Nat} (h : Issues s Form.sclSt o t j) (hn : n = 2 ^ o.fld 0 2)
    (ha : a = (decodeDsc (t.getD o.dst)).base + (t.getS o.b).toNat) (hv : Usable (t.getD o.dst) [0] true)
    (hin : (t.getS o.b).toNat + n ≤ (decodeDsc (t.getD o.dst)).len) (halign : a % n = 0) (hmay : MayUse s j .write a n) :
    execSclSt o s = .next ((s.moved o t).ordWrite a (leBytes (t.getS o.a).toNat n) (.store t.id)) := by
  refine issue_ok (a := ()) h ?_
  have hpos : 0 < n := hn ▸ Nat.two_pow_pos _
  have hsc := scalarAt_run (s := s.moved o t) true hv hin (ha ▸ halign) (ha ▸ hmay.moved o t)
  rw [← ha] at hsc
  simp only [← hn]
  rw [M.run_bind_ok hsc]
  rcases locate_of_mayUse hmay hpos with ⟨k, x, e⟩ | ⟨k, x, e⟩ <;> simp only [e] <;> rfl

/-- Settles O11: an aligned store lies in one block, so that it writes its bytes and no other. -/
theorem scalarStore : Obligations.ScalarStore := by
  intro o s t j h hcan n a hv hin halign hmay hst
  have hlen : (leBytes (t.getS o.a).toNat n).length = n := leBytes_length _ _
  have hpos : 0 < n := Nat.two_pow_pos _
  obtain ⟨p, hp, -⟩ := hmay a (Nat.le_refl a) (by omega)
  have hbyte := fun x => State.ordWrite_byte (s := s.moved o t) (x := x) (.store t.id) (State.canonical_mem hcan)
    (hlen.symm ▸ hst) hp (hlen.symm ▸ hpos) (hlen.symm ▸ aligned_inBlock (Nat.mod_lt _ (by decide)) halign)
  have hfil : ((s.moved o t).ordWrite a (leBytes (t.getS o.a).toNat n) (.store t.id)).fil.strands = (s.moved o t).fil.strands := by
    rw [State.ordWrite_fil]
  obtain ⟨hstrand, hothers, -⟩ := State.moved_becomes h.strand
  refine ⟨_, execSclSt_memory h rfl rfl hv hin halign hmay, p, hp, fun i hi => ?_, fun x hx => ?_, (State.strand_congr hfil _).trans hstrand,
    fun k hk => (State.anyStrand_congr hfil k).trans (hothers k hk)⟩
  · rw [hbyte, dif_pos ⟨by omega, by omega⟩, getElem_leBytes, Nat.add_sub_cancel_left]
  · rw [hbyte, dif_neg (by omega)]
    rfl

/-! ## Misaligned accesses (R82, R84) -/

theorem need_fault {c : Bool} (cause a : Nat) (h : c = false) : need c cause a = (throw (.fault cause a) : M Unit) := by
  unfold need
  rw [h]
  rfl

/-- A scalar access inside its extent at an address that is no multiple of its size. -/
theorem scalarAt_misaligned {s : State} {j : Job} {v : BitVec 128} {off n : Nat} (write : Bool) (hv : Usable v [0] write)
    (hin : off + n ≤ (decodeDsc v).len) (halign : ((decodeDsc v).base + off) % n ≠ 0) :
    (scalarAt j v off n write).run s = .error (.fault cAlign ((decodeDsc v).base + off)) s := by
  unfold scalarAt
  rw [useDsc_pure hv, M.bind_pure, within_pure hin, M.bind_pure]
  simp only []
  rw [need_fault _ _ (beq_eq_false_iff_ne.2 halign), M.run_bind_error (M.run_throw _ _)]

/-- What a fault of the body does to the strand's job, and where no fault was recorded to the act's registers. -/
theorem issue_faults {s : State} {f : Form} {o : Insn} {t : Strand} {j : Job} {c x : Nat} {body : Strand → Job → M Unit} (h : Issues s f o t j)
    (hb : (body t j).run (s.moved o t) = .error (.fault c x) (s.moved o t)) (hj : j.status = 0) : CompletesWith (issue f o s body) fun u =>
      u.mem = s.mem ∧ (∀ v ∈ u.fil.strands, v.job = t.job → v.ended = true) ∧
      (∃ k, u.job? t.job = some k ∧ k.status = (causeStatus c).1 ∧ k.detail = (causeStatus c).2) ∧
      (s.rd (F.actStatus_faulted j.act) = 0 →
        u.rd (F.actStatus_faulted j.act) = 1 ∧ u.rd (F.actFaultCause_cause j.act) = c % 2 ^ 8) := by
  have hstrand := State.anyStrand_of_strand (State.moved_becomes h.strand).1
  obtain ⟨hmem, hends, hstatus, hrec⟩ := State.strandFault_does (s := s.moved o t) (cls := f.cls) (func := f.func) (pc := t.pc) (cause := c) (addr := x)
    hstrand (j := j) h.job
  exact ⟨_, issue_fault h hb, hmem, hends, ⟨_, hstatus hj, rfl, rfl⟩, hrec⟩

/-- Settles O12: the alignment is tested before the mapping and the rights. -/
theorem misalignedScalarAccessFaults : Obligations.MisalignedScalarAccessFaults := by
  intro o s t j load d n a h hv hin halign hj
  cases load with
  | true =>
    refine issue_faults (f := Form.sclLd) (c := cAlign) (x := a) h ?_ hj
    exact M.run_bind_error (scalarAt_misaligned false hv hin halign)
  | false =>
    refine issue_faults (f := Form.sclSt) (c := cAlign) (x := a) h ?_ hj
    exact M.run_bind_error (scalarAt_misaligned true hv hin halign)

/-! ## SYS (R107) -/

/-- SYS.RREG at management level. -/
theorem execSysRreg_reads {s : State} {o : Insn} {t : Strand} {j : Job} (h : Issues s Form.sysRreg o t j) (hp : s.isPriv j = true)
    (halign : (t.getS o.a).toNat % 4 = 0) : execSysRreg o s =
      .next (((s.moved o t).readReg .boss (17, t.id) (t.getS o.a).toNat).2.modStrand o.strand fun x =>
        x.setS o.dst (BitVec.ofNat 64 ((s.moved o t).readReg .boss (17, t.id) (t.getS o.a).toNat).1)) := by
  refine issue_ok (a := ()) h ?_
  rw [M.run_bind_ok (M.run_get _), need_pure _ _ (show (s.moved o t).isPriv j = true from hp), M.bind_pure]
  simp only []
  rw [need_pure _ _ (beq_iff_eq.2 halign), M.bind_pure, M.run_bind_ok (M.run_updGet _ _)]
  rfl

/-- SYS.WREG at management level. -/
theorem execSysWreg_writes {s : State} {o : Insn} {t : Strand} {j : Job} (h : Issues s Form.sysWreg o t j) (hp : s.isPriv j = true)
    (halign : (t.getS o.a).toNat % 4 = 0) : execSysWreg o s =
      .next ((s.moved o t).writeReg .boss (t.getS o.a).toNat ((t.getS o.b).toNat % 2 ^ 32)) := by
  refine issue_ok (a := ()) h ?_
  rw [M.run_bind_ok (M.run_get _), need_pure _ _ (show (s.moved o t).isPriv j = true from hp), M.bind_pure]
  simp only []
  rw [need_pure _ _ (beq_iff_eq.2 halign)]
  rfl

/-- SYS.TELEM at management level. -/
theorem execSysTelem_writes {s : State} {o : Insn} {t : Strand} {j : Job} (h : Issues s Form.sysTelem o t j) (hp : s.isPriv j = true) :
    CompletesWith (execSysTelem o s) fun u => WritesS s u o t o.dst (BitVec.ofNat 64 ((s.moved o t).telemetry (o.fld 0 16))) := by
  refine issue_writesS h ?_
  rw [M.run_bind_ok (M.run_get _), need_pure _ _ (show (s.moved o t).isPriv j = true from hp)]
  rfl

/-- A body that first asks for the management level, below it. -/
theorem issue_belowPriv {s : State} {f : Form} {o : Insn} {t : Strand} {j : Job} (rest : Strand → Job → M Unit) (h : Issues s f o t j)
    (hp : s.isPriv j = false) (hj : j.status = 0) :
    CompletesWith (issue f o s fun t j => do need ((← get).isPriv j) cPriv; rest t j) fun u =>
      (∀ v ∈ u.fil.strands, v.job = t.job → v.ended = true) ∧ ∃ k, u.job? t.job = some k ∧ k.status = 0x12 ∧ k.detail = cPriv := by
  obtain ⟨u, hu, -, hends, hstatus, -⟩ := issue_faults (c := cPriv) (x := 0) (body := fun t j => do need ((← get).isPriv j) cPriv; rest t j) h
    (by rw [M.run_bind_ok (M.run_get _), need_fault _ _ (show (s.moved o t).isPriv j = false from hp), M.run_bind_error (M.run_throw _ _)]) hj
  exact ⟨u, hu, hends, hstatus⟩

/-- Settles O17: each of the three asks for the management level before anything else. -/
theorem sysRegisterAccess : Obligations.SysRegisterAccess := by
  intro o s t j
  refine ⟨fun h hp ha => ⟨_, execSysRreg_reads h hp ha, rfl⟩, fun h hp ha => ⟨_, execSysWreg_writes h hp ha, rfl⟩, execSysTelem_writes, ?_⟩
  simp only [List.forall_mem_cons]
  exact ⟨issue_belowPriv _, issue_belowPriv _, issue_belowPriv _, fun e he => nomatch he⟩

end Sys2Proof.Machine
end

section
/-! PROOFS. MOV.TLOADM of a LIST whose STRIDE does not fit (R89, R207). -/
namespace Sys2Proof.Machine
open Sys2Proof.Tests

/-! ## A LIST whose lane is longer than the range it is loaded from -/

/-- An error that R84 does not put behind the quota passes `quotaFirst`. -/
theorem quotaFirst_fault {α : Type} {c : M α} {s u : State} {k x : Nat} (act crew len : Nat) (hk : (k == cTileCheck || k == cUncorr) = false)
    (h : c.run s = .error (.fault k x) u) : (quotaFirst act crew len c).run s = .error (.fault k x) u := by
  have h' : c s = .error (.fault k x) u := h
  unfold quotaFirst
  show EStateM.tryCatch c _ s = _
  unfold EStateM.tryCatch
  rw [h']
  simp only [hk]
  rfl

/-- An engine instruction of one tile whose body faults before it has changed anything: every strand of its job ends. -/
theorem tileEngine_faults {s : State} {f : Form} {o : Insn} {t : Strand} {j : Job} {c x : Nat} {body : Strand → Job → M TileVal}
    (h : Issues s f o t j) (hb : (body t j).run (s.moved o t) = .error (.fault c x) (s.moved o t))
    (hk : (c == cTileCheck || c == cUncorr) = false) (hj : j.status = 0) :
    CompletesWith (tileEngine f o s [] body) fun u => ∀ v ∈ u.fil.strands, v.job = t.job → v.ended = true := by
  unfold tileEngine engine
  obtain ⟨u, hu, -, hends, -⟩ := issue_faults (c := c) (x := x) (body := fun t j => do
    if !t.clear [] [] then throw .hold
    let e ← (fun t j => do
      let v ← quotaFirst j.act t.crew 4096 (body t j)
      pure [.bindT o.dst (← newTile t j v)] : Strand → Job → M (List Effect)) t j
    launch f o t .engine [] [] e) h
    (by
      simp only [clear_nil]
      exact M.run_bind_error (M.run_bind_error (quotaFirst_fault _ _ _ hk hb))) hj
  exact ⟨u, hu, hends⟩

/-- MOV.TLOADM of a LIST whose length, lanes and stride R207 does not take. -/
theorem execMovTloadm_unfit {s : State} {o : Insn} {t : Strand} {j : Job} (h : Issues s Form.movTloadm o t j) (ho : o.tileForm = true)
    (hf : o.fld 0 4 = 8) (hn : listFits o (decodeDsc (t.getD o.a)).len = false) (hj : j.status = 0) :
    CompletesWith (execMovTloadm o s) fun u => ∀ v ∈ u.fil.strands, v.job = t.job → v.ended = true := by
  unfold execMovTloadm
  rw [ho]
  refine tileEngine_faults (c := cTile) (x := 0) h ?_ (by decide) hj
  simp only [hf]
  rw [need_fault _ _ hn]
  exact M.run_bind_error (M.run_throw _ _)

/-- A strand whose instruction is in flight has not ended. -/
theorem InFlight.running {s u : State} {o : Insn} {t : Strand} {e : List Effect} (h : InFlight s u o t e) :
    ∃ v ∈ u.fil.strands, v.job = t.job ∧ v.ended = false := by
  obtain ⟨⟨fl, -, -, hv⟩, -⟩ := h
  have hv' := hv
  unfold State.strand? at hv
  exact ⟨_, List.mem_of_find?_eq_some hv, rfl, (by simpa using List.find?_some hv : _ ∧ _).2⟩

/-- The word: a LIST of one lane with a STRIDE of 171 slots, which do not fit in 4,096 bytes. -/
def longLane : Insn := word 1 2 0 (8 + 171 * 256)

theorem leNat_zeros (n : Nat) : leNat (List.replicate n 0#8) = 0 := by
  induction n with
  | zero => rfl
  | succ n ih => rw [List.replicate_succ, leNat, ih]; rfl

/-- A slot of zeros. -/
def zeroEntry : Entry := ⟨0, 0, 0, 0, 0, 0⟩

theorem entryAt_zeros (n x : Nat) : entryAt (List.replicate n 0#8) x = zeroEntry := by
  simp [entryAt, leAt, slice, leNat_zeros, zeroEntry]

theorem Entry.bytes_length (e : Entry) : e.bytes.length = 24 := by simp [Entry.bytes, leBytes_length]

/-- A list takes the whole pages that its lanes need (R204). -/
theorem listPages_length (kind stride : Nat) (l : List Entry) : (listPages kind stride [l]).length = ceilDiv (24 * stride) 4096 * 4096 := by
  have hslots : ∀ x ∈ padTo (sentinel kind).bytes stride (l.map Entry.bytes), x.length = 24 := by
    intro x hx
    simp only [padTo, List.mem_append, List.mem_replicate] at hx
    rcases hx with hx | ⟨-, rfl⟩
    · obtain ⟨e, -, rfl⟩ := List.mem_map.1 (List.mem_of_mem_take hx)
      exact e.bytes_length
    · exact Entry.bytes_length _
  have hbody : (padTo (sentinel kind).bytes stride (l.map Entry.bytes)).flatten.length = 24 * stride := by
    rw [List.length_flatten, List.map_congr_left hslots, List.map_const', List.sum_replicate, smul_eq_mul, padTo, List.length_append,
      List.length_take, List.length_replicate]
    omega
  unfold listPages
  simp only [List.flatMap_cons, List.flatMap_nil, List.append_nil, List.length_take, List.length_append, hbody, List.length_flatten,
    List.map_replicate, Entry.bytes_length, List.sum_replicate, smul_eq_mul, ceilDiv]
  omega

theorem readLane_zeros (n : Nat) : readLane 0 (List.replicate n zeroEntry) = some (List.replicate n zeroEntry) := by
  have hz : (zeroEntry != sentinel 0) = true := by decide
  have hlow : zeroEntry.id < 2 ^ 63 ∧ zeroEntry.flags < 8 := by decide
  have hord : zeroEntry.before 0 zeroEntry = false := by decide
  simp only [readLane, List.takeWhile_replicate, hz, if_true, List.length_replicate, List.drop_replicate, Nat.sub_self, List.replicate_zero, List.all_nil,
    List.all_replicate, List.zip_replicate, hlow, hord, decide_true, Bool.not_false, ite_self, Bool.and_true, and_self]

theorem area_zeros : (base.readMem 0 area 4096).1 = List.replicate 4096 0#8 := by
  have hall : ((base.readMem 0 area 4096).1.all (· == 0#8)) = true := by decide +kernel
  exact List.eq_replicate_iff.2 ⟨area_length, fun b hb => beq_iff_eq.1 (List.all_eq_true.1 hall b hb)⟩



/-- What `loadList` makes of one lane over bytes that are zero, however few they are. -/
theorem loadList_zeros {o : Insn} (len n : Nat) (hkind : o.fld 7 1 = 0) (hlanes : o.fld 4 3 = 0) : loadList o len (List.replicate n 0#8) =
    some (listTile 0 (listStride o len) [List.replicate (listStride o len) zeroEntry] [(false, false, Acc320.zero)] none) := by
  simp only [loadList, hkind, hlanes, entryAt_zeros, List.map_const', List.length_range, Nat.zero_add, List.range_one, List.mapM_cons,
    List.mapM_nil, readLane_zeros, Option.pure_def, Option.bind_eq_bind, Option.bind_some, List.map_cons, List.map_nil]

theorem longLane_loads : ∃ v, loadList longLane 4096 (List.replicate 4096 0#8) = some v ∧ v.data.length = 8192 := by
  have hstride : listStride longLane 4096 = 171 := by decide
  refine ⟨_, loadList_zeros 4096 4096 (by decide) (by decide), ?_⟩
  rw [listTile, listPages_length, hstride]
  rfl

/-- The home that R292 gives to a result of 8,192 bytes. -/
def longHome : Nat := crewBase + (crewLen - 8192)

theorem longHome_gap : gapDown 8192 (crewAddr 0 0) (crewAddr 0 crewLen)
    (sortBy (fun a b => decide (a.addr > b.addr)) (allocsIn (crewAddr 0 0) (crewAddr 0 crewLen) homes)) = some longHome := by decide

theorem plain3_quota : plain3.rd (F.memQCrew_kib job0.act) = 49152 := by
  show (base.wr (F.memQCrew_kib 0) 49152).rd (F.memQCrew_kib 0) = 49152
  decide

theorem plain3_allocCrew : plain3.allocCrew job0.act strand3.crew 8192 (.tile plain3.nextId) =
    (some longHome, plain3.addAlloc ⟨longHome, 8192, 0, .tile 100⟩) := by
  unfold State.allocCrew
  dsimp only
  rw [plain3_quota, show plain3.crewUse job0.act = 12288 from (by decide : allocSum _ homes = 12288),
    show roundUp (max 8192 1) 512 = 8192 from rfl, if_neg (by decide), show plain3.fil.allocs = homes from rfl, show strand3.crew = 0 from rfl,
    longHome_gap]
  rfl

theorem plain3_longRoom : RoomAt plain3 strand3 job0 8192 longHome := by
  have hl : (plain3.addAlloc ⟨longHome, 8192, 0, .tile 100⟩).fil.allocs = homes ++ [⟨longHome, 8192, 0, .tile 100⟩] := rfl
  refine ⟨by rw [plain3_allocCrew], ?_, by rw [plain3_allocCrew, hl]; decide,
    writable_of rfl (tiles_unarmed _ _ _) (by decide), tiles_awake _ _ _, rfl, rfl⟩
  rw [plain3_allocCrew, plain3_quota]
  unfold State.crewUse
  rw [hl]
  decide

/-- Refutes O23: the LIST clause leaves out R207's bounds on STRIDE. A lane of 171 slots over one page of zeros meets its premises, since
bytes past the range read as zero in `loadList`, but MOV.TLOADM faults with TILE. -/
theorem not_newTiles : ¬ Obligations.NewTiles := by
  intro holds
  obtain ⟨v, hload, hlen⟩ := longLane_loads
  have hissues : Issues plain3 Form.movTloadm longLane strand3 job0 := tiles_issues (by decide) rfl ⟨rfl, rfl⟩
  have hbase : (decodeDsc (strand3.getD longLane.a)).base = area := by decide
  have hdsc : (decodeDsc (strand3.getD longLane.a)).len = 4096 := by decide
  have hfmt : longLane.fld 0 4 = 8 := by decide
  have hlist := (holds longLane plain3 strand3 job0 longHome (by decide)).2.2 v hissues hfmt
  simp only [hbase, hdsc, hfmt, if_true, raw_eq (s := plain3) rfl area, area_zeros] at hlist
  have hmake := hlist (by decide) (by decide) (by decide) ⟨by unfold Usable; decide, by decide, by decide, by decide,
    area_usable (by decide) 0 4096 (by decide), area_clean _ _ _ 4096⟩ hload (hlen ▸ plain3_longRoom)
  obtain ⟨u, hu, ⟨x, hflight, -⟩, -⟩ := hmake
  obtain ⟨u', hu', hends⟩ := execMovTloadm_unfit hissues (by decide) (by decide) (by decide) rfl
  cases Host.Outcome.next.inj (hu.symm.trans hu')
  obtain ⟨w, hw, hjob, hrun⟩ := hflight.running
  rw [hends w hw hjob] at hrun
  cases hrun

end Sys2Proof.Machine
end

section
/-! PROOFS. The results of the hewers' elementwise instructions (R90, R123 to R126). -/
namespace Sys2Proof.Machine

/-! ## Reads by the hewers -/

theorem NotPromoted.mono {s u : State} {t : Strand} {x : Tile} (h : NotPromoted s t x) (g : TileReads s u) : NotPromoted u t x := by
  unfold NotPromoted
  rw [g.tally]
  exact h

/-- A hewer's read of a tile, by the record that `tileAt` answered, after other reads. -/
theorem useTile_hew {s u : State} {t : Strand} (j : Job) {reg : Nat} {x : Tile} {v : TileVal} (h : AtRest s t reg x v) (hp : NotPromoted s t x)
    (g : TileReads s u) : ∃ w, (useTile t j reg x true).run u = .ok v w ∧ TileReads s w := by
  obtain ⟨w, hw, hg⟩ := useTile_run (j := j) true (h.toAtHome.mono g) fun _ => hp.mono g
  exact ⟨w, hw, g.trans hg⟩

/-- A hewer that is busy in this beat: nothing but its note changes. -/
theorem hewBusy_run (s : State) (t : Strand) : ∃ u, (hewBusy t).run s = .ok () u ∧ TileReads s u ∧ u.fil.tiles = s.fil.tiles := by
  refine ⟨s.mark t.crew, M.run_upd _ _, .mark s t.crew, ?_⟩
  unfold State.mark
  split <;> rfl

/-- The record of a tile at rest, in a state with the same tiles. -/
theorem tileAt_rest {s u : State} {t : Strand} {reg : Nat} {x : Tile} {v : TileVal} (ok : Tile → Bool) (h : AtRest s t reg x v)
    (hu : u.fil.tiles = s.fil.tiles) (hok : ok x = true) : (tileAt t reg ok).run u = .ok x u := by
  refine tileAt_run ok h.handle ?_ hok
  unfold State.tile?
  rw [hu]
  exact h.tile

theorem AtHome.fmt {s : State} {t : Strand} {reg : Nat} {x : Tile} {v : TileVal} (h : AtHome s t reg x v) :
    v.fmt = x.fmt ∧ v.shape = x.shape ∧ v.tscale = x.tscale ∧ v.scales = x.scales ∧ v.info = x.info := by
  obtain ⟨raw, rfl, -⟩ := h.value
  exact ⟨rfl, rfl, rfl, rfl, rfl⟩

/-- An instruction of the hewers that makes a tile of one operand: what its body does with the operand is all that is left to say. -/
theorem hewOne_ok {s : State} {f : Form} {o : Insn} {t : Strand} {j : Job} {x : Tile} {v r : TileVal} {a : Nat} {ok : Tile → Bool}
    {rest : TileVal → M TileVal} (h : Issues s f o t j) (hx : AtRest s t o.a x v) (hp : NotPromoted s t x) (hok : ok x = true)
    (hrest : rest v = pure r) (room : RoomAt s t j r.data.length a) : CompletesWith (tileEngine f o s [] fun t j => do
      hewBusy t
      let x ← tileAt t o.a ok
      let v ← useTile t j o.a x true
      rest v) fun u => MakesTile s u o t r a := by
  obtain ⟨u, hu, g, hg⟩ := hewBusy_run (s.moved o t) t
  obtain ⟨w, hw, gw⟩ := useTile_hew j (hx.moved (t' := t) o) hp g
  refine tileEngine_ok h gw room ?_
  rw [M.run_bind_ok hu, M.run_bind_ok (tileAt_rest ok (hx.moved (t' := t) o) hg hok), M.run_bind_ok hw, hrest]
  rfl

/-- The same with two operands, of which the second is tested against the first. -/
theorem hewTwo_ok {s : State} {f : Form} {o : Insn} {t : Strand} {j : Job} {x y : Tile} {v w r : TileVal} {a : Nat} {ok : Tile → Bool}
    {ok' : Tile → Tile → Bool} {rest : TileVal → TileVal → M TileVal} (h : Issues s f o t j) (hx : AtRest s t o.a x v) (hp : NotPromoted s t x)
    (hy : AtRest s t o.b y w) (hq : NotPromoted s t y) (hok : ok x = true) (hok' : ok' x y = true) (hrest : rest v w = pure r)
    (room : RoomAt s t j r.data.length a) : CompletesWith (tileEngine f o s [] fun t j => do
      hewBusy t
      let x ← tileAt t o.a ok
      let y ← tileAt t o.b (ok' x)
      let v ← useTile t j o.a x true
      let w ← useTile t j o.b y true
      rest v w) fun u => MakesTile s u o t r a := by
  obtain ⟨u, hu, g, hg⟩ := hewBusy_run (s.moved o t) t
  obtain ⟨u1, hu1, g1⟩ := useTile_hew j (hx.moved (t' := t) o) hp g
  obtain ⟨u2, hu2, g2⟩ := useTile_hew j (hy.moved (t' := t) o) hq g1
  refine tileEngine_ok h g2 room ?_
  rw [M.run_bind_ok hu, M.run_bind_ok (tileAt_rest ok (hx.moved (t' := t) o) hg hok),
    M.run_bind_ok (tileAt_rest (ok' x) (hy.moved (t' := t) o) hg hok'), M.run_bind_ok hu1, M.run_bind_ok hu2, hrest]
  rfl

/-! ## EW, ACT, RED and CVT -/

theorem beq_one {n : Nat} : ((n == 1) = true) = (n = 1) := propext beq_iff_eq

/-- Settles O24: one read of each operand, and then a function of what was read. -/
theorem hewerResults : Obligations.HewerResults := by
  intro o s t j x y v w a hx hp
  obtain ⟨hfmt, hshape, htscale, hscales, -⟩ := hx.toAtHome.fmt
  refine ⟨fun h hy hq hf hyf hys room => ?_, fun h hf room => ?_, fun h hf hc room => ?_, fun out h hf hne htx hsx hz hout room => ?_⟩
  · simp only [exec_hewEw, execHewEw]
    refine hewTwo_ok (ok' := fun ra v => v.fmt == ra.fmt && (if o.fld 3 1 == 1 then v.shape == 6 else v.shape == ra.shape)) h hx hp hy hq
      (decide_eq_true hf) ?_ ?_ room
    · simp only [hyf, beq_self_eq_true, Bool.true_and, beq_one]
      split at hys <;> simp [*]
    · simp only [beq_one]
  · simp only [exec_hewAct, execHewAct, useAt, bind_assoc]
    exact hewOne_ok h hx hp (decide_eq_true hf) rfl room
  · simp only [exec_hewRed, execHewRed, useAt, bind_assoc]
    refine hewOne_ok h hx hp (decide_eq_true ⟨hf, ?_⟩) ?_ room
    · by_cases hb : o.fld 0 1 = 1
      · exact .inr (hc hb)
      · exact .inl (beq_eq_false_iff_ne.2 hb)
    · simp only [beq_one]
  · simp only [exec_hewCvt, execHewCvt]
    refine hewOne_ok h hx hp ?_ ?_ room
    · have hinto : (x.fmt == 0 && o.fld 0 2 == 1) = false := by simpa [Prod.ext_iff] using hne
      simp [cvtAccepts, hf, hinto, htx, hsx]
    · rw [need_pure, M.bind_pure, orFault_pure _ _ hout, M.bind_pure]
      simp only [List.all_eq_true, List.mem_range]
      exact fun r hr k hk => hz r hr _ (Nat.le_add_right _ _) (by omega)

end Sys2Proof.Machine
end

section
/-! PROOFS. The results of the crusher's instructions (R94, R152 to R157). -/
namespace Sys2Proof.Machine

/-! ## Where a crew-store home lies (R292) -/

theorem insertBy_perm {α : Type} (lt : α → α → Bool) (a : α) (l : List α) : (insertBy lt a l).Perm (a :: l) := by
  induction l with
  | nil => exact .refl _
  | cons b l ih =>
    unfold insertBy
    split
    · exact (ih.cons b).trans (.swap a b l)
    · exact .refl _

theorem sortBy_perm {α : Type} (lt : α → α → Bool) (l : List α) : (sortBy lt l).Perm l := by
  induction l with
  | nil => exact .refl _
  | cons a l ih => exact (insertBy_perm lt a _).trans (ih.cons a)

/-- A free run lies at or above the bottom of its window, as the allocations in the window do. -/
theorem le_of_gapDown {len lo top x : Nat} {l : List Alloc} (hl : ∀ a ∈ l, lo ≤ a.addr) (h : gapDown len lo top l = some x) : lo ≤ x := by
  induction l generalizing top with
  | nil =>
    unfold gapDown at h
    split at h
    · cases h; omega
    · cases h
  | cons a l ih =>
    have hlo := hl a List.mem_cons_self
    unfold gapDown at h
    split at h
    · cases h; omega
    · exact ih (fun b hb => hl b (List.mem_cons_of_mem _ hb)) h

/-- A result's home in the crew store lies above the pool. -/
theorem RoomAt.above {s : State} {t : Strand} {j : Job} {n a : Nat} (h : RoomAt s t j n a) : crewBase ≤ a := by
  have hplaced := h.placed
  unfold State.allocCrew at hplaced
  simp only at hplaced
  split at hplaced
  · cases hplaced
  · split at hplaced
    next b hgap =>
      cases hplaced
      refine Nat.le_trans (show crewBase ≤ crewAddr t.crew 0 by unfold crewAddr; omega) (le_of_gapDown (fun c hc => ?_) hgap)
      have hin := List.mem_filter.1 ((sortBy_perm _ _).mem_iff.1 hc)
      exact (of_decide_eq_true hin.2).1
    next => cases hplaced

/-! ## Counts -/

/-- A 64-bit counter pair grows modulo 2^64. -/
theorem State.rd64_bump64 (s : State) {lo hi : FieldRef} (n : Nat) (hlo : lo.lo = 0 ∧ lo.width = 32) (hhi : hi.lo = 0 ∧ hi.width = 32)
    (h : lo.off ≠ hi.off) : (s.bump64 lo hi n).rd64 lo hi = (s.rd64 lo hi + n) % 2 ^ 64 := by
  unfold State.bump64 State.wr64 State.rd64
  rw [State.rd_wr_other _ _ _ _ h.symm, State.rd_wr_same _ _ _ (by omega), State.rd_wr_same _ _ _ (by omega), hlo.2, hhi.2]
  omega

/-- What the encoders count of a tile kept raw. -/
def rawRegs : List Nat := [F.cruPackInLo_bytes.off, F.cruPackInHi_bytes.off, F.cruRawKept_count.off]

theorem packCount_counts (n : Nat) : Counts rawRegs fun s => s.packCount n none := by
  refine ⟨fun _ => rfl, fun s off h => ?_⟩
  simp only [rawRegs, List.mem_cons, List.not_mem_nil, or_false, not_or] at h
  simp only [State.packCount, State.bump64, State.wr64]
  rw [State.reg_bump_other _ _ _ (Ne.symm h.2.2), State.reg_wr_other _ _ _ (Ne.symm h.2.1), State.reg_wr_other _ _ _ (Ne.symm h.1)]

theorem packCount_raw (s : State) (n : Nat) : (s.packCount n none).rd F.cruRawKept_count = min (s.rd F.cruRawKept_count + 1) (2 ^ 32 - 1) ∧
    (s.packCount n none).rd64 F.cruPackInLo_bytes F.cruPackInHi_bytes = (s.rd64 F.cruPackInLo_bytes F.cruPackInHi_bytes + n) % 2 ^ 64 := by
  simp only [State.packCount]
  constructor
  · rw [State.rd_bump_same _ _ _ (by decide)]
    simp only [State.bump64, State.wr64]
    rw [State.rd_wr_other _ _ _ _ (by decide), State.rd_wr_other _ _ _ _ (by decide)]
    rfl
  · unfold State.rd64
    rw [State.rd_bump_other _ _ _ _ (by decide), State.rd_bump_other _ _ _ _ (by decide)]
    exact State.rd64_bump64 s n ⟨rfl, rfl⟩ ⟨rfl, rfl⟩ (by decide)

/-- What a damaged stream notes. -/
def damageRegs : List Nat := [F.cruDamage_valid.off, F.cruDamageCount_count.off]

theorem damage_counts (check path act node : Nat) : Counts damageRegs fun s => s.damage check path act node := by
  refine ⟨fun s => ?_, fun s off h => ?_⟩
  · unfold State.damage
    simp only
    split <;> rfl
  · simp only [damageRegs, List.mem_cons, List.not_mem_nil, or_false, not_or] at h
    have hcount := State.reg_bump_other s F.cruDamageCount_count 1 (Ne.symm h.2)
    have hfield : ∀ (u : State) (f : FieldRef) (v : Nat), f.off = F.cruDamage_valid.off → (u.wr f v).reg off = u.reg off :=
      fun u f v hf => State.reg_wr_other u f v (hf ▸ Ne.symm h.1)
    unfold State.damage
    simp only
    split
    · exact hcount
    · simp only [hfield _ _ _ (show F.cruDamage_valid.off = F.cruDamage_valid.off from rfl),
        hfield _ F.cruDamage_check _ rfl, hfield _ F.cruDamage_path _ rfl, hfield _ F.cruDamage_act _ rfl,
        hfield _ F.cruDamage_node _ rfl, hcount]

theorem damage_count (s : State) (check path act node : Nat) :
    (s.damage check path act node).rd F.cruDamageCount_count = min (s.rd F.cruDamageCount_count + 1) (2 ^ 32 - 1) := by
  have hcount := State.rd_bump_same s F.cruDamageCount_count 1 (by decide)
  unfold State.damage
  simp only
  split
  · exact hcount
  · simp only [State.rd_wr_other _ F.cruDamage_valid F.cruDamageCount_count _ (by decide),
      State.rd_wr_other _ F.cruDamage_check F.cruDamageCount_count _ (by decide),
      State.rd_wr_other _ F.cruDamage_path F.cruDamageCount_count _ (by decide),
      State.rd_wr_other _ F.cruDamage_act F.cruDamageCount_count _ (by decide),
      State.rd_wr_other _ F.cruDamage_node F.cruDamageCount_count _ (by decide), hcount]
    rfl

/-- An engine instruction whose body reads and counts in registers. -/
theorem engages_counts_ok {s u : State} {f : Form} {o : Insn} {t : Strand} {j : Job} {reads writes : List Res} {regs : List Nat}
    {body : Strand → Job → M (List Effect)} {e : List Effect} {r : State → State} (h : Issues s f o t j) (hc : t.clear reads writes = true)
    (hr : TileReads (s.moved o t) u) (hk : Counts regs r) (hb : (body t j).run (s.moved o t) = .ok e (r u)) :
    CompletesWith (engine f o s reads writes body) fun w => Engages s w o t e regs ∧ ∀ g : FieldRef, w.rd g = (r u).rd g := by
  refine ⟨_, engine_ok h hc hb, ⟨inFlight_launch h.strand (by rw [hk.fil]; exact hr.strands) _ rfl, fun x => ?_, fun id => ?_,
    fun off ho hm => ?_⟩, fun g => rfl⟩
  · show (r u).mem.byte x = _
    rw [hk.mem, hr.mem]; rfl
  · show ((r u).fil.tiles.find? _).map _ = _
    rw [hk.fil]
    exact hr.tile id
  · show (r u).reg off = _
    rw [hk.2 _ _ hm]
    exact hr.2.1 off ho

/-! ## Streams read by CRU (Table 5.7) -/

/-- A clean range reads the same after tiles were read. -/
theorem TileReads.readMem {s u : State} {a n : Nat} (g : TileReads s u) (hm : isRegister a = false)
    (hc : ∀ b ∈ blocksOf a n, s.mem.check b = .clean) (hp : s.rd F.pwrStackState_inP3 = 0) :
    u.readMem 0 a n = ((s.readMem 0 a n).1, false, u) := by
  have e : (u.readMem 0 a n).1 = (s.readMem 0 a n).1 := by
    unfold State.readMem
    rw [hm, g.mem]
    rfl
  rw [← e, ← readMem_quiet (s := u) hm (by rw [g.mem]; exact hc) (by rw [g.rd _ (by decide)]; exact hp)]

/-- The home of a tile read through any path, while no perturbation waits. -/
theorem homeVia_run {s : State} {t : Strand} {reg : Nat} {x : Tile} {v : TileVal} (path : Nat) (h : AtHome s t reg x v) :
    ∃ raw, v = x.val raw ∧ s.homeVia path x.home x.len x.packed = (.inr raw, s) := by
  obtain ⟨raw, hv, hraw⟩ := h.value
  refine ⟨raw, hv, ?_⟩
  have hq := readMem_quiet h.memory h.clean h.awake
  unfold State.homeVia State.spoilt State.homeRaw
  rw [h.whole]
  cases hpk : x.packed with
  | false =>
    rw [hpk] at hraw
    simp only [Bool.false_eq_true, if_false] at hraw ⊢
    rw [hq, hraw]; rfl
  | true =>
    rw [hpk] at hraw
    simp only [if_true] at hraw
    simp only [if_true, List.find?_nil]
    rw [hq]
    simp only [hraw]
    rfl

/-- CRU reads a tile as it lies at its home. -/
theorem streamAt_run {s : State} {t : Strand} {reg : Nat} {x : Tile} {v : TileVal} (h : AtHome s t reg x v) :
    ∃ raw u, v = x.val raw ∧ (streamAt x).run s = .ok (.inr raw) u ∧ TileReads s u := by
  have g : TileReads s (s.modTile x.id fun u => { u with lastRead := s.now }) := .modTile s _ _ fun _ => rfl
  obtain ⟨raw, hv, hraw⟩ := homeVia_run 0 (h.mono g)
  refine ⟨raw, _, hv, ?_, g⟩
  unfold streamAt
  rw [M.run_bind_ok (M.run_updGet _ _), hraw]
  rfl

/-- A packed tile whose stream, read clean, fails a check of Table 5.5. -/
structure Damaged (s : State) (x : Tile) (check : Nat) : Prop where
  memory : isRegister x.home = false
  clean : ∀ b ∈ blocksOf x.home x.len, s.mem.check b = .clean
  awake : s.rd F.pwrStackState_inP3 = 0
  whole : s.fun_.streams = []
  packed : x.packed = true
  fails : decodeStream false (x.len / 512) (s.readMem 0 x.home x.len).1 = .inl check

/-- CRU finds the damage, and has but read. -/
theorem streamAt_damaged {s : State} {x : Tile} {check : Nat} (h : Damaged s x check) :
    ∃ u, (streamAt x).run s = .ok (.inl check) u ∧ TileReads s u := by
  refine ⟨s.modTile x.id fun u => { u with lastRead := s.now }, ?_, .modTile s _ _ fun _ => rfl⟩
  have g : TileReads s (s.modTile x.id fun u => { u with lastRead := s.now }) := .modTile s _ _ fun _ => rfl
  generalize hu : (s.modTile x.id fun u => { u with lastRead := s.now }) = u at g
  have hread := g.readMem h.memory h.clean h.awake
  have hspoilt : u.spoilt 0 = (none, u) := by
    unfold State.spoilt
    rw [g.fun_, h.whole]
    rfl
  unfold streamAt
  rw [M.run_bind_ok (M.run_updGet _ _), hu]
  unfold State.homeVia State.homeRaw
  simp only [h.packed, if_true, hspoilt, hread, h.fails]
  rfl

theorem Damaged.moved {s : State} {x : Tile} {check : Nat} (o : Insn) (t : Strand) (h : Damaged s x check) : Damaged (s.moved o t) x check :=
  ⟨h.memory, h.clean, h.awake, h.whole, h.packed, by rw [State.readMem_moved]; exact h.fails⟩

/-! ## PACK, UNPACK and CHECK (Table 3.9) -/

/-- A handle's tile that is no list. -/
theorem tileAt_plain {s : State} {t : Strand} {reg : Nat} {x : Tile} (h : t.getT reg = some x.id) (ht : s.tile? x.id = some x) (hfmt : x.fmt ≠ 8) :
    (tileAt t reg fun v => v.fmt != 8).run s = .ok x s :=
  tileAt_run _ h ht (show (x.fmt != 8) = true from bne_iff_ne.2 hfmt)

/-- The tile that a body has just made, among the tiles that it has read. -/
theorem newTile_find {s u w : State} {y : Tile} (g : TileReads s u) (hf : s.tile? y.id = none) (hw : w.fil.tiles = u.fil.tiles ++ [y]) :
    w.tile? y.id = some y := by
  have hnone := g.tile y.id
  rw [hf, Option.map_none, Option.map_eq_none_iff] at hnone
  unfold State.tile? at hnone ⊢
  rw [hw, List.find?_append, hnone]
  simp

/-- PACK of contents that are kept raw: the tile in the crew store, counted once. -/
theorem execCruPack_raw {s : State} {o : Insn} {t : Strand} {j : Job} {x : Tile} {v : TileVal} {a : Nat} (h : Issues s Form.cruPack o t j)
    (hx : AtRest s t o.a x v) (hfmt : x.fmt ≠ 8) (hraw : packTile v.data = none ∨ s.on F.memCtrl_packEn = false)
    (room : RoomAt s t j v.data.length a) : CompletesWith (execCruPack o s) fun u => MakesTile s u o t v a [] (v.data, false) rawRegs ∧
      u.rd F.cruRawKept_count = min (s.rd F.cruRawKept_count + 1) (2 ^ 32 - 1) ∧
      u.rd64 F.cruPackInLo_bytes F.cruPackInHi_bytes = (s.rd64 F.cruPackInLo_bytes F.cruPackInHi_bytes + v.data.length) % 2 ^ 64 := by
  have hx' := hx.moved (t' := t) o
  obtain ⟨u, hu, g⟩ := useTile_run (j := j) false hx'.toAtHome fun hf => by cases hf
  obtain ⟨w, hw, hstr, hst, hreg, htiles, -⟩ := newTile_run g (room.moved o)
  have hk := packCount_counts v.data.length
  have hfind : w.tile? s.nextId = some (tileOf (s.moved o t) j v a) :=
    newTile_find (y := tileOf (s.moved o t) j v a) g (show (s.moved o t).tile? s.nextId = none from room.fresh) htiles
  have hhome : (tileOf (s.moved o t) j v a).pooled = false := decide_eq_false (Nat.not_lt.2 room.above)
  have hpack : ¬ ((packTile v.data).isSome = true ∧ u.on F.memCtrl_packEn = true) := by
    have hon : u.on F.memCtrl_packEn = s.on F.memCtrl_packEn := by
      unfold State.on
      rw [g.rd _ (by decide)]
      rfl
    rintro ⟨h1, h2⟩
    rcases hraw with h0 | h0
    · rw [h0] at h1; cases h1
    · rw [hon, h0] at h2; cases h2
  have hrd : ∀ f : FieldRef, f.off ≠ F.cruAtuseCount_count.off → w.rd f = s.rd f := fun f hf => by
    unfold State.rd
    rw [hreg _ hf]
    rfl
  refine ⟨_, engine_ok (e := [.bindT o.dst s.nextId]) (u := w.packCount v.data.length none) h (clear_nil t) ?_, ?_, ?_⟩
  · rw [M.run_bind_ok (tileAt_plain hx'.handle hx'.tile hfmt), M.run_bind_ok (quotaFirst_ok _ _ _ hu),
      M.run_bind_ok (M.run_get _), if_neg hpack, M.run_bind_ok hw, M.run_bind_ok (M.run_upd _ _)]
    simp only [show w.tile? (s.moved o t).nextId = _ from hfind, Option.any_some, hhome, Bool.and_false, Bool.false_eq_true, if_false]
    rfl
  · refine makesTile_finish _ h.strand room.fresh hstr htiles g.2.2 ⟨rfl, rfl, rfl, rfl, rfl, rfl⟩ hst (fun off ho hm => ?_) rfl rfl
    exact (hk.2 w off hm).trans (hreg off ho)
  · obtain ⟨h1, h2⟩ := packCount_raw w v.data.length
    refine ⟨h1.trans (by rw [hrd _ (by decide)]), h2.trans ?_⟩
    unfold State.rd64
    rw [hrd _ (by decide), hrd _ (by decide)]

/-- PACK of contents that compress, into the pool. -/
theorem execCruPack_packed {s : State} {o : Insn} {t : Strand} {j : Job} {x : Tile} {v : TileVal} {b : List Byte} {a : Nat}
    (h : Issues s Form.cruPack o t j) (hx : AtRest s t o.a x v) (hfmt : x.fmt ≠ 8) (hinfo : x.info = none) (hb : packTile v.data = some b)
    (hen : s.on F.memCtrl_packEn = true) (room : PoolRoomAt s t j b.length a) :
    CompletesWith (execCruPack o s) fun u => MakesTile s u o t v a [] (b, true) packRegs := by
  have hx' := hx.moved (t' := t) o
  obtain ⟨-, -, -, -, hi⟩ := hx.toAtHome.fmt
  obtain ⟨u, hu, g⟩ := useTile_run (j := j) false hx'.toAtHome fun hf => by cases hf
  have hon : u.on F.memCtrl_packEn = true := by
    unfold State.on
    rw [g.rd _ (by decide)]
    exact hen
  refine makesPacked_ok h (clear_nil t) g room hb hen (hi.trans hinfo) fun w hw => ?_
  rw [M.run_bind_ok (tileAt_plain hx'.handle hx'.tile hfmt), M.run_bind_ok (quotaFirst_ok _ _ _ hu),
    M.run_bind_ok (M.run_get _), if_pos ⟨by rw [hb]; rfl, hon⟩, M.run_bind_ok hw]
  rfl

/-- UNPACK of a tile at rest. -/
theorem execCruUnpack_whole {s : State} {o : Insn} {t : Strand} {j : Job} {x : Tile} {v : TileVal} {a : Nat} (h : Issues s Form.cruUnpack o t j)
    (hx : AtRest s t o.a x v) (hfmt : x.fmt ≠ 8) (hc : t.clear [] (presWrites o) = true) (room : RoomAt s t j v.data.length a) :
    CompletesWith (execCruUnpack o s) fun u => MakesTile s u o t v a (setPres o true) := by
  have hx' := hx.moved (t' := t) o
  obtain ⟨raw, u, hv, hu, g⟩ := streamAt_run hx'.toAtHome
  have hcrc : ((x.val raw).crc == x.crc) = true := beq_iff_eq.2 (hv ▸ hx.crc)
  refine makesTile_ok h hc g room fun w hw => ?_
  rw [M.run_bind_ok (tileAt_plain hx'.handle hx'.tile hfmt), M.run_bind_ok (quotaFirst_ok _ _ _ (a := .inr raw) (u := u) ?_)]
  · simp only [← hv]
    rw [M.run_bind_ok hw]
    rfl
  · rw [M.run_bind_ok hu]
    simp only [need_pure _ _ hcrc]
    rfl

/-- UNPACK with PRES of a damaged tile. -/
theorem execCruUnpack_damaged {s : State} {o : Insn} {t : Strand} {j : Job} {x : Tile} {check : Nat} (h : Issues s Form.cruUnpack o t j)
    (ht : t.getT o.a = some x.id) (hx : s.tile? x.id = some x) (hd : Damaged s x check) (hfmt : x.fmt ≠ 8)
    (hc : t.clear [] (presWrites o) = true) (hp : o.fld 25 3 ≠ 0) : CompletesWith (execCruUnpack o s) fun u =>
      Engages s u o t [.dropT o.dst, .setP (o.fld 25 3) false] damageRegs ∧
      u.rd F.cruDamageCount_count = min (s.rd F.cruDamageCount_count + 1) (2 ^ 32 - 1) := by
  obtain ⟨u, hu, g⟩ := streamAt_damaged (hd.moved o t)
  have hx' : (s.moved o t).tile? x.id = some x := hx
  have key : CompletesWith (execCruUnpack o s) fun w => Engages s w o t [.dropT o.dst, .setP (o.fld 25 3) false] damageRegs ∧
      ∀ f : FieldRef, w.rd f = (u.damage check 0 j.act 0).rd f := by
    refine engages_counts_ok (r := fun s => s.damage check 0 j.act 0) h hc g (damage_counts check 0 j.act 0) ?_
    rw [M.run_bind_ok (tileAt_plain ht hx' hfmt), M.run_bind_ok (quotaFirst_ok _ _ _ (a := .inl check) (u := u) (by
      rw [M.run_bind_ok hu]; rfl))]
    simp only
    rw [M.run_bind_ok (M.run_upd _ _)]
    simp only [setPres, hp, if_false]
    rfl
  obtain ⟨w, hw, hen, hrd⟩ := key
  refine ⟨w, hw, hen, ?_⟩
  rw [hrd, damage_count, g.rd _ (by decide)]
  rfl

/-- CHECK of a tile at rest. -/
theorem execCruCheck_whole {s : State} {o : Insn} {t : Strand} {j : Job} {x : Tile} {v : TileVal} (h : Issues s Form.cruCheck o t j)
    (hx : AtRest s t o.a x v) (hfmt : x.fmt ≠ 8) : CompletesWith (execCruCheck o s) fun u => Engages s u o t [.setP o.dst true] := by
  have hx' := hx.moved (t' := t) o
  obtain ⟨raw, u, -, hu, g⟩ := streamAt_run hx'.toAtHome
  refine engages_ok h (clear_nil t) g ?_
  rw [M.run_bind_ok (tileAt_plain hx'.handle hx'.tile hfmt), M.run_bind_ok hu]
  rfl

/-- CHECK of a damaged tile. -/
theorem execCruCheck_damaged {s : State} {o : Insn} {t : Strand} {j : Job} {x : Tile} {check : Nat} (h : Issues s Form.cruCheck o t j)
    (ht : t.getT o.a = some x.id) (hx : s.tile? x.id = some x) (hd : Damaged s x check) (hfmt : x.fmt ≠ 8) :
    CompletesWith (execCruCheck o s) fun u => Engages s u o t [.setP o.dst false] damageRegs ∧
      u.rd F.cruDamageCount_count = min (s.rd F.cruDamageCount_count + 1) (2 ^ 32 - 1) := by
  obtain ⟨u, hu, g⟩ := streamAt_damaged (hd.moved o t)
  have hx' : (s.moved o t).tile? x.id = some x := hx
  have key : CompletesWith (execCruCheck o s) fun w => Engages s w o t [.setP o.dst false] damageRegs ∧
      ∀ f : FieldRef, w.rd f = (u.damage check 0 j.act 0).rd f := by
    refine engages_counts_ok (r := fun s => s.damage check 0 j.act 0) h (clear_nil t) g (damage_counts check 0 j.act 0) ?_
    rw [M.run_bind_ok (tileAt_plain ht hx' hfmt), M.run_bind_ok hu]
    rfl
  obtain ⟨w, hw, hen, hrd⟩ := key
  refine ⟨w, hw, hen, ?_⟩
  rw [hrd, damage_count, g.rd _ (by decide)]
  rfl

/-- Settles O28: the cases of a stream that reads whole and of one that is damaged. -/
theorem crusherResults : Obligations.CrusherResults := by
  intro o s t j x v a hfmt hinfo hact
  refine ⟨fun hx => ⟨fun b h hb hen room => execCruPack_packed h hx hfmt hinfo hb hen room, fun h hraw room => execCruPack_raw h hx hfmt hraw room,
    fun h hc room => execCruUnpack_whole h hx hfmt hc room, fun h => execCruCheck_whole h hx hfmt⟩, ?_⟩
  intro check ht hx hmem hclean hawake hwhole hpacked hfails
  have hd : Damaged s x check := ⟨hmem, hclean, hawake, hwhole, hpacked, hfails⟩
  exact ⟨fun h => execCruCheck_damaged h ht hx hd hfmt, fun h hc hp => execCruUnpack_damaged h ht hx hd hfmt hc hp⟩

end Sys2Proof.Machine
end

section
/-! PROOFS. MOV.COPY, MOV.TSTORE and the instructions on the names of tiles (R89, R160, R207, R293 to R298, R426). -/
namespace Sys2Proof.Machine

/-! ## What an instruction in flight leaves -/

/-- An engine instruction whose body leaves tiles, memory and registers. -/
theorem engages_same {s u : State} {f : Form} {o : Insn} {t : Strand} {j : Job} {reads writes : List Res} {body : Strand → Job → M (List Effect)}
    {e : List Effect} (h : Issues s f o t j) (hc : t.clear reads writes = true) (hfil : u.fil = (s.moved o t).fil) (hmem : u.mem = s.mem)
    (hregs : u.regs = s.regs) (hb : (body t j).run (s.moved o t) = .ok e u) :
    CompletesWith (engine f o s reads writes body) fun w => Engages s w o t e := by
  refine ⟨_, engine_ok h hc hb, inFlight_launch h.strand (congrArg _ hfil) _ rfl, fun x => ?_, fun id => ?_, fun off _ _ => ?_⟩
  · exact congrArg (fun m : MemSt => m.byte x) hmem
  · show (u.fil.tiles.find? _).map _ = _
    rw [hfil]
    rfl
  · exact congrArg (fun r => kvGet 0#32 r off ^^^ resetWord off) hregs

/-- An instruction is in flight with these effects, in a state that has the strand `t'` beside it and otherwise the tiles of `u`; every other
strand and memory are as in `s`. -/
def Launched (s u w : State) (o : Insn) (t' : Strand) (e : List Effect) : Prop :=
  ∃ fl : Inflight, fl.effects = e ∧ fl.gate = .engine ∧ StrandIs s w o.strand { t' with inflight := t'.inflight ++ [fl] } ∧
    w.fil.tiles = u.fil.tiles ∧ w.fil.expansions = u.fil.expansions

theorem Launched.inFlight {s u w : State} {o : Insn} {t : Strand} {e : List Effect} (h : Launched s u w o (t.after o) e) : InFlight s w o t e := by
  obtain ⟨fl, heff, hgate, hw, -⟩ := h
  exact ⟨⟨fl, heff, hgate, hw.strand⟩, hw.others⟩

/-- An engine instruction whose body changes its strand. -/
theorem engine_launches {s u : State} {f : Form} {o : Insn} {t t' : Strand} {j : Job} {reads writes : List Res}
    {body : Strand → Job → M (List Effect)} {e : List Effect} (h : Issues s f o t j) (hc : t.clear reads writes = true)
    (hs : StrandIs s u o.strand t') (hb : (body t j).run (s.moved o t) = .ok e u) :
    CompletesWith (engine f o s reads writes body) fun w => Launched s u w o t' e :=
  ⟨_, engine_ok h hc hb, flightOf f o t u .engine reads writes e, rfl, rfl,
    (hs.congr (w := u.fresh) rfl rfl).modStrand (fun v => { v with inflight := v.inflight ++ [_] }) (fun _ => rfl) fun _ => rfl, rfl, rfl⟩

/-- The strand that has moved on. -/
theorem StrandIs.moved {s : State} {o : Insn} {t : Strand} (h : s.strand? o.strand = some t) : StrandIs s (s.moved o t) o.strand (t.after o) :=
  (StrandIs.refl h).modStrand (fun u => { u with pc := nextPc t o, wait := .no }) (fun _ => rfl) fun _ => rfl

/-! ## MOV.COPY (R89, R426) -/

/-- An access whose every range the job may use passes the checks of R44 and R42. -/
theorem checkAll_run {s : State} {j : Job} (priv : Bool) {l : List (Right × Nat × Nat)} (h : ∀ e ∈ l, MayUse s j e.1 e.2.1 e.2.2) :
    (checkAll j priv l).run s = .ok () s := by
  have hmapped : (checkMapped priv (l.flatMap fun e => probePoints e.2.1 e.2.2)).run s = .ok () s := by
    unfold checkMapped
    split
    next x hx =>
      obtain ⟨e, he, hp⟩ := List.mem_flatMap.1 (List.mem_of_find?_eq_some hx)
      obtain ⟨p, hphys, -⟩ := h e he x (probePoints_in hp).1 (probePoints_in hp).2
      have hbad := List.find?_some hx
      rcases physOf_locate hphys with ⟨k, y, hl⟩ | ⟨k, y, hl⟩ <;> simp [hl] at hbad
    next => rfl
  have hgranted : (checkGranted j (l.flatMap fun e => (probePoints e.2.1 e.2.2).map fun x => (e.1, x))).run s = .ok () s := by
    unfold checkGranted
    rw [M.run_bind_ok (M.run_get s)]
    split
    next e he =>
      obtain ⟨r, hr, hin⟩ := List.mem_flatMap.1 (List.mem_of_find?_eq_some he)
      obtain ⟨x, hx, rfl⟩ := List.mem_map.1 hin
      obtain ⟨p, hphys, hmay⟩ := h r hr x (probePoints_in hx).1 (probePoints_in hx).2
      have hbad := List.find?_some he
      simp [hphys, hmay] at hbad
    next => rfl
  unfold checkAll
  rw [M.run_bind_ok hmapped]
  exact hgranted

theorem registerAt_none {a : Nat} (h : isRegister a = false) : registerAt a = none := by
  unfold isRegister at h
  unfold registerAt
  split <;> simp_all

/-- An engine's read of clean memory. -/
theorem readEngine_quiet {s : State} {a n : Nat} (t : Strand) (hh : s.holder false a n = none) (hm : isRegister a = false)
    (hc : ∀ b ∈ blocksOf a n, s.mem.check b = .clean) (hp : s.rd F.pwrStackState_inP3 = 0) :
    (readEngine t a n).run s = .ok (s.readMem 0 a n).1 s := by
  unfold readEngine
  rw [registerAt_none hm]
  exact readOrd_quiet hh hm hc hp

/-- COPY, once its descriptors and rights are good: what is left is the read. -/
theorem execMovCopy_copies {s u : State} {o : Insn} {t : Strand} {j : Job} {data : Option (List Byte)} {b : List Byte} {n : Nat} {src dst : Dsc}
    (h : Issues s Form.movCopy o t j) (hn : n = (t.getS o.b).toNat) (hsrc : src = decodeDsc (t.getD o.a)) (hdst : dst = decodeDsc (t.getD o.dst))
    (hus : Usable (t.getD o.a) [0, 2] false) (hud : Usable (t.getD o.dst) [0, 2] true) (hls : n ≤ src.len) (hld : n ≤ dst.len)
    (hmd : dst.space = 0 → MayUse s j .write dst.base n) (hms : src.space = 0 → MayUse s j .read src.base n)
    (hb : (copySource t j src n data).run (s.moved o t) = .ok b u) (hfil : u.fil = (s.moved o t).fil) (hmem : u.mem = s.mem)
    (hregs : u.regs = s.regs) : CompletesWith (execMovCopy o data s) fun w =>
      Engages s w o t (if n = 0 then [] else if dst.space = 0 then [.mem 0 dst.base b] else [.host j.act dst.base b]) := by
  subst hn hsrc hdst
  refine engages_same h (clear_nil t) hfil hmem hregs ?_
  simp only []
  rw [useDsc_pure hus, M.bind_pure, useDsc_pure hud, M.bind_pure, within_pure (by omega), M.bind_pure, within_pure (by omega), M.bind_pure,
    M.run_bind_ok (M.run_get _), M.run_bind_ok (checkAll_run _ fun e he => ?_), M.run_bind_ok hb]
  · rfl
  · rcases List.mem_append.1 he with he | he
    · split at he
      next hs => rw [List.mem_singleton.1 he]; exact (hms hs).moved o t
      next => cases he
    · split at he
      next hs => rw [List.mem_singleton.1 he]; exact (hmd hs).moved o t
      next => cases he

/-! ## MOV.TSTORE (R207) -/

theorem strand_id {s : State} {id : Nat} {t : Strand} (h : s.strand? id = some t) : t.id = id := by
  simpa using (by simpa using List.find?_some h : t.id = id ∧ _).1

/-- What TSTORE asks of its descriptor. -/
structure StoresTo (s : State) (t : Strand) (j : Job) (o : Insn) : Prop where
  usable : Usable (t.getD o.dst) [0] true
  fits : 4096 ≤ (decodeDsc (t.getD o.dst)).len
  base : (decodeDsc (t.getD o.dst)).base % 64 = 0
  extent : (decodeDsc (t.getD o.dst)).len % 64 = 0
  granted : MayUse s j .write (decodeDsc (t.getD o.dst)).base 4096

theorem StoresTo.runs {s : State} {t : Strand} {j : Job} {o : Insn} (h : StoresTo s t j o) :
    useDsc (t.getD o.dst) [0] true = (pure (decodeDsc (t.getD o.dst)) : M Dsc) ∧
    within (decodeDsc (t.getD o.dst)) 0 4096 = (pure () : M Unit) ∧
    (block64 j .write (decodeDsc (t.getD o.dst)) 0 4096).run (s.moved o t) = .ok () (s.moved o t) :=
  ⟨useDsc_pure h.usable, within_pure (by have := h.fits; omega), block64_run h.base h.extent (h.granted.moved o t)⟩

/-- TSTORE of a tile that is no list. -/
theorem execMovTstore_raw {s : State} {o : Insn} {t : Strand} {j : Job} {x : Tile} {v : TileVal} (h : Issues s Form.movTstore o t j)
    (hx : AtRest s t o.a x v) (hd : StoresTo s t j o) (hinfo : x.info = none) : CompletesWith (execMovTstore o s) fun u =>
      Engages s u o t [.mem 0 (decodeDsc (t.getD o.dst)).base (slice v.data 0 4096)] := by
  have hx' := hx.moved (t' := t) o
  obtain ⟨hdsc, hin, hblock⟩ := hd.runs
  obtain ⟨u, hu, g⟩ := useTile_run (j := j) false hx'.toAtHome fun hf => by cases hf
  refine engages_ok h (clear_nil t) g ?_
  rw [M.run_bind_ok (tileAt_run _ hx'.handle hx'.tile rfl)]
  simp only [hinfo, Option.isSome_none, Bool.false_eq_true, if_false]
  rw [need_pure _ _ (by decide), M.bind_pure, hdsc, M.bind_pure, hin, M.bind_pure, M.run_bind_ok hblock, M.run_bind_ok hu]
  rfl

/-- A strand that takes note of the pages of a handle's list that it has stored. -/
def Strand.notes (t : Strand) (reg n : Nat) : Strand := { t with stored := kvSet 0 t.stored reg n }

/-- TSTORE of a LIST tile stores its next page, of which the strand takes note. -/
theorem execMovTstore_list {s : State} {o : Insn} {t : Strand} {j : Job} {x : Tile} {v : TileVal} {page : Nat} (h : Issues s Form.movTstore o t j)
    (hx : AtRest s t o.a x v) (hd : StoresTo s t j o) (hinfo : x.info ≠ none) (hp : page = kvGet 0 t.stored o.a) (hpage : page * 4096 < x.len) :
    CompletesWith (execMovTstore o s) fun u =>
      (∃ fl : Inflight, fl.effects = [.mem 0 (decodeDsc (t.getD o.dst)).base (slice v.data (page * 4096) 4096)] ∧ fl.gate = .engine ∧
        u.strand? o.strand = some { t.after o with inflight := t.inflight ++ [fl], stored := kvSet 0 t.stored o.a (page + 1) }) ∧
      (∀ k, k ≠ o.strand → u.anyStrand? k = s.anyStrand? k) ∧ ∀ x, u.mem.byte x = s.mem.byte x := by
  have hx' := hx.moved (t' := t) o
  obtain ⟨hdsc, hin, hblock⟩ := hd.runs
  obtain ⟨u, hu, g⟩ := useTile_run (j := j) false hx'.toAtHome fun hf => by cases hf
  have hs := ((StrandIs.moved h.strand).congr g.strands g.mem).modStrand
    (fun v => v.notes o.a (page + 1)) (fun _ => rfl) fun _ => rfl
  have hid : t.id = o.strand := by simpa using (by simpa using List.find?_some h.strand : t.id = o.strand ∧ _).1
  have key : CompletesWith (execMovTstore o s) fun w => Launched s (u.modStrand o.strand fun v => v.notes o.a (page + 1)) w o
      ((t.after o).notes o.a (page + 1)) [.mem 0 (decodeDsc (t.getD o.dst)).base (slice v.data (page * 4096) 4096)] := by
    refine engine_launches h (clear_nil t) hs ?_
    rw [M.run_bind_ok (tileAt_run _ hx'.handle hx'.tile rfl)]
    simp only [Option.isSome_iff_ne_none.2 hinfo, if_true, ← hp]
    rw [need_pure _ _ (decide_eq_true hpage), M.bind_pure, hdsc, M.bind_pure, hin, M.bind_pure, M.run_bind_ok hblock, M.run_bind_ok hu,
      M.run_bind_ok (M.run_upd _ _), hid]
    rfl
  obtain ⟨w, hw, fl, heff, hgate, hw', -⟩ := key
  exact ⟨w, hw, ⟨fl, heff, hgate, hw'.strand⟩, hw'.others, fun y => congrArg (fun m : MemSt => m.byte y) hw'.mem⟩

/-- Settles O29: the source is read at issue, and the effect in flight carries its bytes. -/
theorem copyAndStore : Obligations.CopyAndStore := by
  intro o s t j
  refine ⟨fun data h hus hud hls hld hmd => ⟨fun hspace hms hread => ?_, fun b hspace hdata hlen => ?_⟩, fun x v h hx hu hf hb he hm =>
    ⟨execMovTstore_raw h hx ⟨hu, hf, hb, he, hm⟩, fun hinfo hpage => execMovTstore_list h hx ⟨hu, hf, hb, he, hm⟩ hinfo rfl hpage⟩⟩
  · obtain ⟨hh, hreg, hclean, hawake⟩ := hread
    have hb := readEngine_quiet (s := s.moved o t) t hh hreg hclean hawake
    rw [State.readMem_moved] at hb
    refine execMovCopy_copies h rfl rfl rfl hus hud hls hld hmd (fun _ => hms) ?_ rfl rfl rfl
    unfold copySource
    rw [if_pos hspace]
    exact hb
  · refine execMovCopy_copies (u := (s.moved o t).emit (.hostRead j.act (decodeDsc (t.getD o.a)).base (t.getS o.b).toNat)) h rfl rfl rfl hus hud hls
      hld hmd (fun h0 => by rw [hspace] at h0; cases h0) ?_ rfl rfl rfl
    unfold copySource
    rw [if_neg (by rw [hspace]; decide), M.run_bind_ok (M.run_upd _ _), hdata]
    simp only [hlen, if_true]
    rfl

end Sys2Proof.Machine
end

section
/-! PROOFS. The names, handles and preferences of tiles: MOV.TOPEN, TSAVE, TFREE, TDROP and TPLACE (R89, R158, R160, R293 to R298). -/
namespace Sys2Proof.Machine

/-! ## What an allocation leaves -/

/-- Two states differ in nothing but allocations, cache copies, registers and counters. -/
def HomesOnly (s u : State) : Prop :=
  { u with regs := s.regs, telem := s.telem, idx := s.idx, fil := { u.fil with allocs := s.fil.allocs } } = s

theorem HomesOnly.trans {s u v : State} (h : HomesOnly s u) (g : HomesOnly u v) : HomesOnly s v := by
  unfold HomesOnly at *
  rw [← h, ← g]

theorem HomesOnly.mem {s u : State} (h : HomesOnly s u) : u.mem = s.mem := by have := congrArg State.mem h; exact this
theorem HomesOnly.strands {s u : State} (h : HomesOnly s u) : u.fil.strands = s.fil.strands := by
  have := congrArg (fun x : State => x.fil.strands) h; exact this
theorem HomesOnly.expansions {s u : State} (h : HomesOnly s u) : u.fil.expansions = s.fil.expansions := by
  have := congrArg (fun x : State => x.fil.expansions) h; exact this

theorem HomesOnly.dropCache (s : State) (act : Nat) : HomesOnly s (s.dropCache act) := by
  unfold State.dropCache
  split <;> rfl

theorem HomesOnly.makeRoom (act len : Nat) (ex : Bool) (n : Nat) (s : State) : HomesOnly s (State.makeRoom act len ex n s) := by
  induction n generalizing s with
  | zero => rfl
  | succ n ih =>
    unfold State.makeRoom
    split
    · rfl
    · exact (HomesOnly.dropCache s act).trans (ih _)

theorem HomesOnly.allocPool (s : State) (act len : Nat) (kind : AllocKind) : HomesOnly s (s.allocPool act len kind).2 := by
  unfold State.allocPool
  simp only
  split
  · rfl
  · split
    · exact .makeRoom ..
    · split <;> exact HomesOnly.trans (.makeRoom ..) rfl

theorem HomesOnly.allocCrew (s : State) (act crew len : Nat) (kind : AllocKind) : HomesOnly s (s.allocCrew act crew len kind).2 := by
  unfold State.allocCrew
  simp only
  split
  · rfl
  · split <;> rfl

theorem HomesOnly.place (s : State) (act crew len : Nat) (kind : AllocKind) : HomesOnly s (s.place act crew len kind).2 := by
  have hc := HomesOnly.allocCrew s act crew len kind
  unfold State.place
  rcases h : s.allocCrew act crew len kind with ⟨_ | a, u⟩
  · rw [h] at hc
    exact hc.trans (.allocPool ..)
  · rw [h] at hc
    exact hc

/-! ## The flip mask (R311) -/

/-- A field write elsewhere leaves the arming of the flip mask. -/
theorem arm_wr (s : State) (f : FieldRef) (v : Nat) (hf : f.off ≠ F.memFlipCtrl_arm.off) :
    (s.wr f v).rd F.memFlipCtrl_arm = s.rd F.memFlipCtrl_arm := State.rd_wr_other _ _ _ _ hf

theorem rd_of_regs {s u : State} (h : u.regs = s.regs) (f : FieldRef) : u.rd f = s.rd f := by
  unfold State.rd State.reg
  rw [h]

theorem arm_bump (s : State) (f : FieldRef) (n : Nat) (hf : f.off ≠ F.memFlipCtrl_arm.off) :
    (s.bump f n).rd F.memFlipCtrl_arm = s.rd F.memFlipCtrl_arm := State.rd_bump_other _ _ _ _ hf

theorem arm_logMem (s : State) (source blk : Nat) (uncorr : Bool) (row bit : Nat) :
    (s.logMem source blk uncorr row bit).rd F.memFlipCtrl_arm = s.rd F.memFlipCtrl_arm := by
  unfold State.logMem
  split
  · rfl
  · extract_lets a s1
    split
    extract_lets s2 s3
    have h1 : s1.rd F.memFlipCtrl_arm = s.rd F.memFlipCtrl_arm :=
      (arm_wr _ F.memErr_source _ (by decide)).trans ((arm_wr _ F.memErr_uncorr _ (by decide)).trans (arm_wr s F.memErr_valid _ (by decide)))
    have h2 : s2.rd F.memFlipCtrl_arm = s1.rd F.memFlipCtrl_arm :=
      (arm_wr _ F.memErr_channel _ (by decide)).trans ((arm_wr _ F.memErr_unit _ (by decide)).trans (arm_wr s1 F.memErr_crew _ (by decide)))
    have h3 : s3.rd F.memFlipCtrl_arm = s2.rd F.memFlipCtrl_arm :=
      (arm_wr _ F.memErr_bit _ (by decide)).trans (arm_wr s2 F.memErr_row _ (by decide))
    rw [arm_wr _ F.memErrAddrHi_addr _ (by decide), arm_wr _ F.memErrAddrLo_addr _ (by decide), h3, h2, h1]

theorem arm_hit (s : State) (blk : Nat) (syn : BitVec 48) : (s.hit blk syn).rd F.memFlipCtrl_arm = s.rd F.memFlipCtrl_arm := by
  unfold State.hit
  extract_lets m r h h1 u
  have hu : u.rd F.memFlipCtrl_arm = s.rd F.memFlipCtrl_arm := rd_of_regs rfl _
  generalize (if r.kind = 0 then 32 else 16) = limit
  clear_value u
  split
  · rfl
  · split
    · exact hu
    · split
      · exact (arm_wr u F.memStatus_rowSparesOut 1 (by decide)).trans hu
      · exact (rd_of_regs rfl _).trans hu

theorem arm_memEvent (s : State) (source blk : Nat) (c : Check) : (s.memEvent source blk c).rd F.memFlipCtrl_arm = s.rd F.memFlipCtrl_arm := by
  have hcorr : ∀ (u : State) (t : Nat), (u.bump (F.wnzCorrected_count t) 1).rd F.memFlipCtrl_arm = u.rd F.memFlipCtrl_arm := fun u t =>
    arm_bump _ _ _ (by unfold F.wnzCorrected_count F.memFlipCtrl_arm; simp only; omega)
  have huncorr : ∀ (u : State) (t : Nat), (u.bump (F.wnzUncorr_count t) 1).rd F.memFlipCtrl_arm = u.rd F.memFlipCtrl_arm := fun u t =>
    arm_bump _ _ _ (by unfold F.wnzUncorr_count F.memFlipCtrl_arm; simp only; omega)
  have hlogged : ∀ (f : FieldRef) (n row bit : Nat) (uncorr : Bool), f.off ≠ F.memFlipCtrl_arm.off →
      (((s.bump f 1).count n 1).logMem source blk uncorr row bit).rd F.memFlipCtrl_arm = s.rd F.memFlipCtrl_arm := fun f n row bit uncorr hf =>
    (arm_logMem _ _ _ _ _ _).trans (arm_bump s f 1 hf)
  unfold State.memEvent
  cases c with
  | clean => rfl
  | data r b =>
    simp only
    split
    · split
      · rw [hcorr, arm_hit, hlogged _ _ _ _ _ (by decide)]
      · rw [arm_hit, hlogged _ _ _ _ _ (by decide)]
    · rw [arm_hit, hlogged _ _ _ _ _ (by decide)]
  | checkBit =>
    simp only
    split
    · split
      · rw [hcorr, arm_hit, hlogged _ _ _ _ _ (by decide)]
      · rw [arm_hit, hlogged _ _ _ _ _ (by decide)]
    · rw [arm_hit, hlogged _ _ _ _ _ (by decide)]
  | uncorrectable =>
    simp only
    split
    · split
      · rw [huncorr, hlogged _ _ _ _ _ (by decide)]
      · rw [hlogged _ _ _ _ _ (by decide)]
    · rw [hlogged _ _ _ _ _ (by decide)]

theorem arm_readMem (s : State) (source a n : Nat) : (s.readMem source a n).2.2.rd F.memFlipCtrl_arm = s.rd F.memFlipCtrl_arm := by
  unfold State.readMem
  split
  · rfl
  · refine foldl_keeps (P := fun u : State => u.rd F.memFlipCtrl_arm = s.rd F.memFlipCtrl_arm) (fun u b hu => (arm_memEvent _ _ _ _).trans hu) _ ?_
    split
    · rfl
    · exact State.rd_touch _ _ _ _ (by decide) (by decide)

/-- A write with the flip mask not armed does not arm it. -/
theorem unarmed_writeMem {s : State} (source a : Nat) (d : List Byte) (h : s.rd F.memFlipCtrl_arm = 0) :
    (s.writeMem source a d).rd F.memFlipCtrl_arm = 0 := by
  have piece : ∀ (u : State) (p : Nat) (b : List Byte), u.rd F.memFlipCtrl_arm = 0 → (u.writePiece source p b).rd F.memFlipCtrl_arm = 0 := by
    intro u p b hu
    have hev := (arm_memEvent u source (p / 64) (u.mem.check (p / 64))).trans hu
    unfold State.writePiece
    simp only
    split
    · exact hu
    · split
      · rw [State.flipBlock_off (by exact hu)]
        exact hu
      · rw [State.flipBlock_off (by exact hev)]
        exact hev
  unfold State.writeMem
  refine foldl_keeps (P := fun u : State => u.rd F.memFlipCtrl_arm = 0) (fun u e hu => ?_) _ ?_
  · split
    · exact piece u _ _ hu
    · exact hu
  · rw [State.rd_touch _ _ _ _ (by decide) (by decide)]
    exact h

/-! ## What a demotion leaves -/

/-- Two states have the same strands, expansions and tiles, the later has used no fewer identifiers, and it has not armed the flip mask. -/
structure Steady (s u : State) : Prop where
  strands : u.fil.strands = s.fil.strands
  expansions : u.fil.expansions = s.fil.expansions
  tiles : u.fil.tiles = s.fil.tiles
  ids : s.nextId ≤ u.nextId
  unarmed : s.rd F.memFlipCtrl_arm = 0 → u.rd F.memFlipCtrl_arm = 0

theorem Steady.trans {s u v : State} (h : Steady s u) (g : Steady u v) : Steady s v :=
  ⟨g.strands.trans h.strands, g.expansions.trans h.expansions, g.tiles.trans h.tiles, h.ids.trans g.ids, fun hs => g.unarmed (h.unarmed hs)⟩

theorem Steady.refl (s : State) : Steady s s := ⟨rfl, rfl, rfl, Nat.le_refl _, id⟩

theorem Steady.of_fil {s u : State} (h : u.fil = s.fil) (hid : u.nextId = s.nextId)
    (harm : s.rd F.memFlipCtrl_arm = 0 → u.rd F.memFlipCtrl_arm = 0) : Steady s u :=
  ⟨by rw [h], by rw [h], by rw [h], hid ▸ Nat.le_refl _, harm⟩

theorem Steady.of_homes {s u : State} (h : HomesOnly s u) (harm : u.rd F.memFlipCtrl_arm = s.rd F.memFlipCtrl_arm) : Steady s u :=
  ⟨h.strands, h.expansions, by have := congrArg (fun x : State => x.fil.tiles) h; exact this,
    by have := congrArg State.nextId h; exact Nat.le_of_eq this.symm, fun hs => harm.trans hs⟩

theorem arm_makeRoom (act len : Nat) (ex : Bool) (n : Nat) (s : State) :
    (State.makeRoom act len ex n s).rd F.memFlipCtrl_arm = s.rd F.memFlipCtrl_arm := by
  induction n generalizing s with
  | zero => rfl
  | succ n ih =>
    unfold State.makeRoom
    split
    · rfl
    · rw [ih]
      unfold State.dropCache
      split <;> rfl

theorem Steady.allocPool (s : State) (act len : Nat) (kind : AllocKind) : Steady s (s.allocPool act len kind).2 := by
  refine .of_homes (.allocPool ..) ?_
  unfold State.allocPool
  simp only
  split
  · rfl
  · split
    · exact arm_makeRoom ..
    · split
      · exact arm_makeRoom ..
      · exact (arm_wr _ _ _ (by decide)).trans (arm_makeRoom ..)

theorem Steady.allocCrew (s : State) (act crew len : Nat) (kind : AllocKind) : Steady s (s.allocCrew act crew len kind).2 := by
  refine .of_homes (.allocCrew ..) ?_
  unfold State.allocCrew
  simp only
  split
  · rfl
  · split <;> rfl

theorem Steady.damage (s : State) (check path act node : Nat) : Steady s (s.damage check path act node) :=
  have hk := damage_counts check path act node
  .of_fil (hk.fil s) (hk.nextId s) fun h => (hk.rd s F.memFlipCtrl_arm (by decide)).trans h

theorem Steady.packCount (s : State) (n : Nat) (out : Option Nat) : Steady s (s.packCount n out) := by
  cases out with
  | none => exact .of_fil rfl rfl fun h => ((packCount_counts n).rd s F.memFlipCtrl_arm (by decide)).trans h
  | some k =>
    refine .of_fil rfl rfl fun h => ?_
    unfold State.rd at *
    rw [packCount_reg _ _ _ (by decide)]
    exact h

theorem Steady.moveDamage (s : State) (act : Nat) (check : Option Nat) : Steady s (s.moveDamage act check) := by
  unfold State.moveDamage
  split
  · exact .refl s
  · exact Steady.trans (u := (s.draw 3).2) (.of_fil rfl rfl id) (.damage _ _ _ _ _)

theorem Steady.writeMem (s : State) (source a : Nat) (d : List Byte) : Steady s (s.writeMem source a d) := by
  have h := MemoryOnly.writeMem s source a d
  exact .of_fil h.fil (by have := congrArg State.nextId h; exact this) (unarmed_writeMem source a d)

theorem Steady.homeRaw (s : State) (source addr len : Nat) (packed : Bool) : Steady s (s.homeRaw source addr len packed).2 := by
  have h : Steady s (s.readMem source addr len).2.2 := by
    have hr := ReadsOnly.readMem s source addr len
    exact .of_fil hr.memoryOnly.fil (by have := congrArg State.nextId hr; exact this) fun ha => (arm_readMem _ _ _ _).trans ha
  unfold State.homeRaw
  simp only
  split
  · exact h
  · split
    · exact h
    · split <;> exact h

/-- A move that begins, or fails to. -/
theorem Steady.startMove (s : State) (x : Tile) (toCrew : Option Nat) : Steady s (s.startMove x toCrew) := by
  have placed : ∀ p : Option Nat × State, (match toCrew with
      | some c => s.fresh.allocCrew x.act c (s.moveLen x toCrew.isNone) (.move s.nextId)
      | none => s.fresh.allocPool x.act (s.moveLen x toCrew.isNone) (.move s.nextId)) = p → Steady s p.2 := by
    have hfresh : Steady s s.fresh := ⟨rfl, rfl, rfl, Nat.le_succ _, id⟩
    rintro p rfl
    cases toCrew with
    | none => exact hfresh.trans (.allocPool s.fresh _ _ _)
    | some c => exact hfresh.trans (.allocCrew s.fresh _ _ _ _)
  unfold State.startMove
  simp only
  split
  next u h => exact placed _ h
  next a u h =>
    have hr := (placed _ h).trans (.homeRaw u 3 x.home x.len x.packed)
    split
    next c w hraw =>
      rw [hraw] at hr
      refine (hr.trans (.moveDamage w x.act c)).trans ⟨rfl, rfl, rfl, Nat.le_refl _, fun ha => ?_⟩
      exact (arm_bump _ F.memMoveAbandon_count 1 (by decide)).trans ha
    next raw w hraw =>
      rw [hraw] at hr
      have hw := hr.trans (.writeMem w 3 a (homeForm w (x.val raw) toCrew.isNone).1)
      split
      · exact (hw.trans (.packCount _ _ _)).trans ⟨rfl, rfl, rfl, Nat.le_refl _, id⟩
      · exact hw.trans ⟨rfl, rfl, rfl, Nat.le_refl _, id⟩

theorem Steady.demote (act crew : Nat) (l : List Tile) (s : State) : Steady s (State.demote act crew l s) := by
  induction l generalizing s with
  | nil => exact .refl s
  | cons x l ih =>
    unfold State.demote
    split
    · exact (Steady.startMove s x none).trans (ih _)
    · exact .refl s

theorem Steady.tierManage (s : State) (act crew : Nat) : Steady s (s.tierManage act crew) := .demote _ _ _ _

/-! ## What allocations come to -/

theorem allocSum_cons (p : Alloc → Bool) (a : Alloc) (l : List Alloc) : allocSum p (a :: l) = (if p a then a.len else 0) + allocSum p l := by
  have key : ∀ (l : List Alloc) (n : Nat), l.foldl (fun n a => n + a.len) n = n + l.foldl (fun n a => n + a.len) 0 := by
    intro l
    induction l with
    | nil => intro n; rfl
    | cons b l ih => intro n; rw [List.foldl_cons, ih, List.foldl_cons, ih (0 + b.len)]; omega
  unfold allocSum
  rw [List.filter_cons]
  split
  · rw [List.foldl_cons, key]; omega
  · omega

theorem allocSum_append (p : Alloc → Bool) (l m : List Alloc) : allocSum p (l ++ m) = allocSum p l + allocSum p m := by
  induction l with
  | nil => simp [allocSum]
  | cons a l ih => rw [List.cons_append, allocSum_cons, allocSum_cons, ih]; omega

theorem allocSum_sublist (p : Alloc → Bool) {l m : List Alloc} (h : l.Sublist m) : allocSum p l ≤ allocSum p m := by
  induction h with
  | slnil => exact Nat.le_refl _
  | cons a _ ih => rw [allocSum_cons]; omega
  | cons_cons a _ ih => rw [allocSum_cons, allocSum_cons]; omega

/-- At most `n` bytes more are allocated, of whatever sort, and the crew quotas are as they were. -/
def Takes (n : Nat) (s u : State) : Prop :=
  (∀ p, allocSum p u.fil.allocs ≤ allocSum p s.fil.allocs + n) ∧ ∀ act, u.rd (F.memQCrew_kib act) = s.rd (F.memQCrew_kib act)

theorem Takes.trans {n m : Nat} {s u v : State} (h : Takes n s u) (g : Takes m u v) : Takes (n + m) s v :=
  ⟨fun p => by have := h.1 p; have := g.1 p; omega, fun act => (g.2 act).trans (h.2 act)⟩

theorem Takes.of_sublist {s u : State} (h : u.fil.allocs.Sublist s.fil.allocs) (hr : ∀ act, u.rd (F.memQCrew_kib act) = s.rd (F.memQCrew_kib act)) :
    Takes 0 s u := ⟨fun p => allocSum_sublist p h, hr⟩

theorem Takes.refl (s : State) : Takes 0 s s := .of_sublist (List.Sublist.refl _) fun _ => rfl

/-- Nothing is demoted where the store has had room for what was taken, and a mebibyte more. -/
theorem Takes.tierManage {n : Nat} {s u : State} {act crew : Nat} (h : Takes n s u)
    (hq : s.crewUse act + n + 2 ^ 20 ≤ s.rd (F.memQCrew_kib act) * 1024)
    (hs : allocSum (fun _ => true) (allocsIn (crewAddr crew 0) (crewAddr crew crewLen) s.fil.allocs) + n + 2 ^ 20 ≤ crewLen) :
    u.tierManage act crew = u := by
  have hin : ∀ l : List Alloc, allocSum (fun _ => true) (allocsIn (crewAddr crew 0) (crewAddr crew crewLen) l) =
      allocSum (fun a => decide (crewAddr crew 0 ≤ a.addr ∧ a.addr < crewAddr crew crewLen)) l := by
    intro l
    unfold allocSum allocsIn
    rw [List.filter_filter]
    simp
  have huse := h.1 fun a => !a.pooled && a.isTile && a.act == act
  have hsum := h.1 fun a => decide (crewAddr crew 0 ≤ a.addr ∧ a.addr < crewAddr crew crewLen)
  refine tierManage_quiet ?_ ?_
  · rw [h.2]
    unfold State.crewUse at *
    omega
  · rw [hin] at hs ⊢
    omega


theorem crewQuota_wr (s : State) (act : Nat) (f : FieldRef) (v : Nat) (hf : f.off < (F.memQCrew_kib 0).off) :
    (s.wr f v).rd (F.memQCrew_kib act) = s.rd (F.memQCrew_kib act) := by
  refine State.rd_wr_other _ _ _ _ ?_
  unfold F.memQCrew_kib at *
  simp only at *
  omega

theorem Takes.dropCache (s : State) (act : Nat) : Takes 0 s (s.dropCache act) := by
  unfold State.dropCache
  split
  · exact .refl s
  · exact .of_sublist List.filter_sublist fun _ => rfl

theorem Takes.makeRoom (act len : Nat) (ex : Bool) (n : Nat) (s : State) : Takes 0 s (State.makeRoom act len ex n s) := by
  induction n generalizing s with
  | zero => exact .refl s
  | succ n ih =>
    unfold State.makeRoom
    split
    · exact .refl s
    · exact (Takes.dropCache s act).trans (ih _)

theorem Takes.addAlloc (s : State) (a : Alloc) : Takes a.len s (s.addAlloc a) := by
  refine ⟨fun p => ?_, fun _ => rfl⟩
  unfold State.addAlloc
  simp only [allocSum_append, allocSum_cons]
  split <;> simp [allocSum]

theorem Takes.mono {n m : Nat} {s u : State} (h : Takes n s u) (hn : n ≤ m) : Takes m s u :=
  ⟨fun p => (h.1 p).trans (Nat.add_le_add_left hn _), h.2⟩

theorem Takes.poolFull (s : State) : Takes 0 s (s.wr F.memStatus_poolFull 1) :=
  ⟨fun _ => Nat.le_refl _, fun act => crewQuota_wr s act _ _ (by decide)⟩

theorem Takes.allocPool (s : State) (act len : Nat) (kind : AllocKind) :
    Takes (roundUp (max len 1) 512) s (s.allocPool act len kind).2 := by
  have hroom := Takes.makeRoom act (roundUp (max len 1) 512) (Alloc.isExpansion ⟨0, 0, 0, kind⟩) s.idx.caches.length s
  unfold State.allocPool
  simp only
  split
  · exact (Takes.refl s).mono (Nat.zero_le _)
  · split
    · exact hroom.mono (Nat.zero_le _)
    · split
      · exact (hroom.trans (.addAlloc _ _)).mono (Nat.le_of_eq (Nat.zero_add _))
      · exact (hroom.trans (.poolFull _)).mono (Nat.zero_le _)

theorem Takes.allocCrew (s : State) (act crew len : Nat) (kind : AllocKind) :
    Takes (roundUp (max len 1) 512) s (s.allocCrew act crew len kind).2 ∧
    ((s.allocCrew act crew len kind).1 = none → (s.allocCrew act crew len kind).2 = s) := by
  unfold State.allocCrew
  simp only
  split
  · exact ⟨(Takes.refl s).mono (Nat.zero_le _), fun _ => rfl⟩
  · split
    · exact ⟨.addAlloc _ _, fun h => by cases h⟩
    · exact ⟨(Takes.refl s).mono (Nat.zero_le _), fun _ => rfl⟩

/-- A datum takes no more than its whole sectors, wherever it is placed. -/
theorem Takes.place (s : State) (act crew len : Nat) (kind : AllocKind) : Takes (roundUp (max len 1) 512) s (s.place act crew len kind).2 := by
  obtain ⟨hcrew, hnone⟩ := Takes.allocCrew s act crew len kind
  unfold State.place
  rcases h : s.allocCrew act crew len kind with ⟨_ | a, u⟩
  · rw [h] at hnone
    cases hnone rfl
    exact .allocPool ..
  · rw [h] at hcrew
    exact hcrew

/-! ## What a handle's binding frees -/

theorem Takes.foldl {α : Type} {f : State → α → State} (hf : ∀ s a, Takes 0 s (f s a)) : ∀ (l : List α) (s : State), Takes 0 s (l.foldl f s)
  | [], s => .refl s
  | a :: l, s => (hf s a).trans (Takes.foldl hf l (f s a))

theorem Takes.freeAt (s : State) (a : Nat) : Takes 0 s (s.freeAt a) := .of_sublist List.filter_sublist fun _ => rfl
theorem Takes.dropAlloc (s : State) (p : AllocKind → Bool) : Takes 0 s (s.dropAlloc p) := .of_sublist List.filter_sublist fun _ => rfl

theorem Takes.abandonMove (s : State) (m : TierMove) : Takes 0 s (s.abandonMove m) :=
  .of_sublist List.filter_sublist fun act => crewQuota_wr _ act F.memMoveAbandon_count _ (by decide)

theorem Takes.removeTile (s : State) (tile : Nat) : Takes 0 s (s.removeTile tile) := by
  unfold State.removeTile
  split
  · exact .refl s
  next x _ =>
    exact (((Takes.foldl Takes.abandonMove _ s).trans (.freeAt _ x.home)).trans (.dropAlloc _ fun k => k == .expansion tile)).trans
      (.of_sublist (List.Sublist.refl _) fun _ => rfl)

theorem Takes.settle (s : State) (tile : Nat) : Takes 0 s (s.settle tile) := by
  unfold State.settle
  split
  · exact .refl s
  · split
    · exact .removeTile s tile
    · exact .refl s

theorem Takes.closeExpansion (s : State) (strand reg : Nat) : Takes 0 s (s.closeExpansion strand reg) := by
  unfold State.closeExpansion
  exact (Takes.foldl (f := fun (s : State) (e : Expansion) => s.dropAlloc fun k => k == .expansion e.tile)
    (fun s e => .dropAlloc s _) _ s).trans (.of_sublist (List.Sublist.refl _) fun _ => rfl)

theorem Takes.bindHandle (s : State) (strand reg : Nat) (tile : Option Nat) : Takes 0 s (s.bindHandle strand reg tile) := by
  have h1 : Takes 0 s ((s.closeExpansion strand reg).modStrand strand fun u => u.setT reg tile) := Takes.closeExpansion s strand reg
  unfold State.bindHandle
  split
  · exact .refl s
  · simp only
    split
    · split
      · exact h1
      · exact h1.trans (.settle _ _)
    · exact h1

/-! ## Expansions (R158) -/

theorem State.openExpansion_takes (s : State) (x : Tile) (strand reg job crew : Nat) : Takes 4096 s (s.openExpansion x strand reg job crew) := by
  unfold State.openExpansion
  simp only
  split
  · split
    · exact (Takes.refl s).mono (Nat.zero_le _)
    · exact Takes.place _ _ _ 4096 _
  · exact Takes.place _ _ _ 4096 _

/-- An expansion of the tile knows the handle, strands and memory stay. -/
theorem State.openExpansion_does (s : State) (x : Tile) (strand reg job crew : Nat) :
    (s.openExpansion x strand reg job crew).fil.strands = s.fil.strands ∧ (s.openExpansion x strand reg job crew).mem = s.mem ∧
    ∃ e ∈ (s.openExpansion x strand reg job crew).fil.expansions, e.tile = x.id ∧ (strand, reg) ∈ e.handles := by
  have handled : ∀ e : Expansion, s.fil.expansions.find? (fun e => e.tile == x.id) = some e →
      ∃ d ∈ updWhere (fun e => e.tile == x.id) (fun e => { e with handles := e.handles ++ [(strand, reg)] }) s.fil.expansions,
        d.tile = x.id ∧ (strand, reg) ∈ d.handles := by
    intro e he
    have htile : (e.tile == x.id) = true := by simpa using List.find?_some he
    refine ⟨_, List.mem_map.2 ⟨e, List.mem_of_find?_eq_some he, if_pos htile⟩, beq_iff_eq.1 htile, ?_⟩
    simp
  unfold State.openExpansion
  simp only
  split
  next e he =>
    split
    · exact ⟨rfl, rfl, handled e he⟩
    · obtain ⟨d, hd, hdt, hdh⟩ := handled e he
      have hp := HomesOnly.place ({ s with fil := { s.fil with
        expansions := updWhere (fun e => e.tile == x.id) (fun e => { e with handles := e.handles ++ [(strand, reg)] }) s.fil.expansions } } : State)
        x.act crew 4096 (.expansion x.id)
      refine ⟨hp.strands, hp.mem, _, List.mem_map.2 ⟨d, hp.expansions ▸ hd, rfl⟩, ?_⟩
      split <;> exact ⟨hdt, hdh⟩
  next =>
    have hp := HomesOnly.place s x.act crew 4096 (.expansion x.id)
    exact ⟨hp.strands, hp.mem, _, List.mem_append_right _ List.mem_cons_self, rfl, by simp⟩

/-! ## TOPEN, TFREE, TDROP and TPLACE -/

/-- A tile changed keeps its place. -/
theorem State.tile_modTile {s : State} {id : Nat} {x : Tile} (h : s.tile? id = some x) (f : Tile → Tile) (hf : ∀ y, (f y).id = y.id) :
    (s.modTile id f).tile? id = some (f x) := by
  have hid : (x.id == id) = true := by simpa [State.tile?] using List.find?_some h
  unfold State.tile? State.modTile at *
  rw [find_updWhere _ _ _ _ (fun a => by split <;> simp [hf]), h, Option.map_some, if_pos hid]

/-- The state in which TOPEN has bound its handle. -/
def State.opened (s : State) (o : Insn) (t : Strand) (x : Tile) : State := (s.moved o t).bindHandle o.strand o.dst (some x.id)

/-- The same with the expansion, before the tier manager's demotions. -/
def State.expanding (s : State) (o : Insn) (t : Strand) (j : Job) (x : Tile) : State :=
  (s.opened o t x).openExpansion x o.strand o.dst j.id t.crew

theorem State.opened_is {s : State} {o : Insn} {t : Strand} (h : s.strand? o.strand = some t) (x : Tile) :
    StrandIs s (s.opened o t x) o.strand ((t.after o).setT o.dst (some x.id)) := (StrandIs.moved h).bindHandle o.dst (some x.id)

theorem Issues.strand_id {s : State} {f : Form} {o : Insn} {t : Strand} {j : Job} (h : Issues s f o t j) : t.id = o.strand :=
  (by simpa using List.find?_some h.strand : t.id = o.strand ∧ _).1

/-- TOPEN without an expansion. -/
theorem execMovTopen_binds {s : State} {o : Insn} {t : Strand} {j : Job} {x : Tile} (h : Issues s Form.movTopen o t j)
    (hx : s.tileNamed j.act (t.getS o.a).toNat = some x) (hat : ¬ (o.fld 0 1 = 1 ∧ x.packed = true)) :
    CompletesWith (execMovTopen o s) fun w => Launched s (s.opened o t x) w o ((t.after o).setT o.dst (some x.id)) [] := by
  refine engine_launches h (clear_nil t) (State.opened_is h.strand x) ?_
  rw [M.run_bind_ok (M.run_get _), orFault_pure _ _ (show (s.moved o t).tileNamed j.act (t.getS o.a).toNat = some x from hx), M.bind_pure,
    M.run_bind_ok (M.run_upd _ _), if_neg hat, h.strand_id]
  rfl

/-- What TOPEN has done once it is in flight, with an expansion. -/
structure Expands (s w : State) (o : Insn) (t : Strand) (j : Job) (x : Tile) : Prop where
  strand : ∃ fl : Inflight, w.strand? o.strand = some { (t.after o).setT o.dst (some x.id) with inflight := t.inflight ++ [fl] }
  handle : ∃ e ∈ w.fil.expansions, e.tile = x.id ∧ (o.strand, o.dst) ∈ e.handles
  mem : w.mem = ((s.expanding o t j x).tierManage x.act t.crew).mem

/-- TOPEN with an expansion. -/
theorem execMovTopen_expands {s : State} {o : Insn} {t : Strand} {j : Job} {x : Tile} (h : Issues s Form.movTopen o t j)
    (hx : s.tileNamed j.act (t.getS o.a).toNat = some x) (hat : o.fld 0 1 = 1 ∧ x.packed = true) :
    CompletesWith (execMovTopen o s) fun w => Expands s w o t j x := by
  obtain ⟨hstrands, hmem, e, he, hknows⟩ := (s.opened o t x).openExpansion_does x o.strand o.dst j.id t.crew
  have htier := Steady.tierManage (s.expanding o t j x) x.act t.crew
  have hs := (State.opened_is h.strand x).modStrand (fun v => { v with
    inflight := v.inflight ++ [flightOf Form.movTopen o t ((s.expanding o t j x).tierManage x.act t.crew) .engine [] [] []] })
    (fun _ => rfl) fun _ => rfl
  refine ⟨_, engine_ok (e := []) (u := (s.expanding o t j x).tierManage x.act t.crew) h (clear_nil t) ?_,
    ⟨_, (State.strand_congr ?_ _).trans hs.strand⟩, ⟨e, htier.expansions ▸ he, hknows⟩, rfl⟩
  · rw [M.run_bind_ok (M.run_get _), orFault_pure _ _ (show (s.moved o t).tileNamed j.act (t.getS o.a).toNat = some x from hx), M.bind_pure,
      M.run_bind_ok (M.run_upd _ _), if_pos hat, M.run_bind_ok (M.run_upd _ _), h.strand_id]
    rfl
  · show updWhere _ _ _ = updWhere _ _ _
    exact congrArg _ (htier.strands.trans hstrands)

/-- An expansion that leaves the crew store room demotes nothing, so that memory stays. -/
theorem expanding_mem {s : State} {o : Insn} {t : Strand} {j : Job} {x : Tile} (ht : s.strand? o.strand = some t)
    (hact : x.act = j.act) (hq : s.crewUse j.act + 4096 + 2 ^ 20 ≤ s.rd (F.memQCrew_kib j.act) * 1024)
    (hs : allocSum (fun _ => true) (allocsIn (crewAddr t.crew 0) (crewAddr t.crew crewLen) s.fil.allocs) + 4096 + 2 ^ 20 ≤ crewLen) :
    ((s.expanding o t j x).tierManage x.act t.crew).mem = s.mem := by
  have htakes : Takes 4096 s (s.expanding o t j x) :=
    (Takes.bindHandle (s.moved o t) o.strand o.dst (some x.id)).trans (State.openExpansion_takes _ x o.strand o.dst j.id t.crew)
  rw [htakes.tierManage (hact ▸ hq) hs]
  exact ((s.opened o t x).openExpansion_does x o.strand o.dst j.id t.crew).2.1.trans (State.opened_is ht x).mem

/-- TFREE. -/
theorem execMovTfree_drops {s : State} {o : Insn} {t : Strand} {j : Job} (h : Issues s Form.movTfree o t j) (hc : t.clear [] [.t o.a] = true) :
    CompletesWith (execMovTfree o s) fun u => Engages s u o t [.dropT o.a] := engages_same h hc rfl rfl rfl rfl

/-- TDROP. -/
theorem execMovTdrop_marks {s : State} {o : Insn} {t : Strand} {j : Job} {x : Tile} (h : Issues s Form.movTdrop o t j)
    (hx : s.tileNamed j.act (t.getS o.a).toNat = some x) : CompletesWith (execMovTdrop o s) fun w =>
      Launched s ((s.moved o t).modTile x.id fun u => { u with dropping := true }) w o (t.after o) [] := by
  refine engine_launches h (clear_nil t) ((StrandIs.moved h.strand).congr rfl rfl) ?_
  rw [M.run_bind_ok (M.run_get _), orFault_pure _ _ (show (s.moved o t).tileNamed j.act (t.getS o.a).toNat = some x from hx), M.bind_pure,
    M.run_bind_ok (M.run_upd _ _)]
  rfl

/-- TPLACE. -/
theorem execMovTplace_prefers {s : State} {o : Insn} {t : Strand} {j : Job} {x : Tile} (h : Issues s Form.movTplace o t j)
    (hx : s.tile? x.id = some x) (ht : t.getT o.a = some x.id) : CompletesWith (execMovTplace o s) fun w =>
      Launched s ((s.moved o t).modTile x.id fun u => { u with pref := o.fld 0 2 }) w o (t.after o) [] := by
  refine engine_launches h (clear_nil t) ((StrandIs.moved h.strand).congr rfl rfl) ?_
  rw [M.run_bind_ok (tileAt_run (s := s.moved o t) _ ht hx rfl), M.run_bind_ok (M.run_upd _ _)]
  rfl

/-! ## TSAVE -/

theorem Tile.withName_id (x : Tile) (name : Nat) : (x.withName name).id = x.id := by
  unfold Tile.withName
  split <;> rfl

/-- TSAVE without PACK. -/
theorem execMovTsave_names {s : State} {o : Insn} {t : Strand} {j : Job} {x : Tile} (h : Issues s Form.movTsave o t j)
    (hx : s.tile? x.id = some x) (ht : t.getT o.a = some x.id) (hpack : o.fld 0 1 = 0) : CompletesWith (execMovTsave o s) fun w =>
      Launched s ((s.moved o t).modTile x.id fun u => u.withName (s.savedName x)) w o (t.after o)
        [.setS o.dst (BitVec.ofNat 64 (s.savedName x))] := by
  refine engine_launches h (clear_nil t) ((StrandIs.moved h.strand).congr rfl rfl) ?_
  rw [M.run_bind_ok (tileAt_run (s := s.moved o t) _ ht hx rfl), M.run_bind_ok (M.run_get _)]
  simp only [hpack]
  rfl


/-- The pool home that R292 gives to packed contents. -/
theorem allocPool_run {s u : State} {t : Strand} {j : Job} {n a : Nat} (g : TileReads s u) (room : PoolRoomAt s t j n a) (k : AllocKind)
    (hk : Alloc.isExpansion ⟨0, 0, 0, k⟩ = false) :
    u.fresh.allocPool j.act n k = (some a, u.fresh.addAlloc ⟨a, roundUp (max n 1) 512, j.act, k⟩) := by
  obtain ⟨hquota, hbest, hgap⟩ := poolGap_reads (u := u.fresh) (s := s) g.allocs (fun f hf => g.rd f hf) room.act (roundUp (max n 1) 512) false
  have hfit : u.fresh.quotaFits j.act (roundUp (max n 1) 512) false = true := hquota.trans room.fits
  unfold State.allocPool State.poolRun
  simp only [hk, Bool.false_and, Bool.false_eq_true, if_false]
  rw [makeRoom_fits hfit, hfit, hbest, hgap, room.placed]
  rfl

/-- The registers that the packed home leaves are those but the counts of packed bytes. -/
theorem packCount_rd {s : State} {n k : Nat} (f : FieldRef) (hf : f.off ∉ packRegs) : (s.packCount n (some k)).rd f = s.rd f := by
  unfold State.rd
  rw [packCount_reg _ _ _ hf]

/-- Contents that compress homed in the pool. -/
theorem homedPacked_run {s u : State} {t : Strand} {j : Job} {v : TileVal} {b : List Byte} {a : Nat} (g : TileReads s u)
    (room : PoolRoomAt s t j b.length a) (hp : packTile v.data = some b) (hen : s.on F.memCtrl_packEn = true) (hi : v.info = none)
    (id : Nat) (k : AllocKind) (hk : Alloc.isExpansion ⟨0, 0, 0, k⟩ = false) :
    ∃ m, u.fresh.homed id j.act t.crew v true k = (some { packedOf s j v a b.length with id := id }, m) ∧
      m.fil.strands = s.fil.strands ∧ m.fil.tiles = u.fil.tiles ∧ Stores s m a b := by
  generalize hd : u.fresh.addAlloc ⟨a, roundUp (max b.length 1) 512, j.act, k⟩ = d
  have hon : ∀ w : State, w.rd F.memCtrl_packEn = s.rd F.memCtrl_packEn → w.on F.memCtrl_packEn = true := fun w hw => by
    unfold State.on at *
    rw [hw]
    exact hen
  have drd : ∀ f, f.off ≠ F.cruAtuseCount_count.off → d.rd f = s.rd f := hd ▸ fun f hf => g.rd f hf
  have hform : ∀ w : State, w.rd F.memCtrl_packEn = s.rd F.memCtrl_packEn → homeForm w v true = (b, true) := fun w hw => by
    unfold homeForm
    simp [hon w hw, hi, hp]
  have crd : ∀ f, f.off ≠ F.cruAtuseCount_count.off → f.off ∉ packRegs → (d.packCount v.data.length (some b.length)).rd f = s.rd f :=
    fun f h1 h2 => (packCount_rd f h2).trans (drd f h1)
  have cmem : (d.packCount v.data.length (some b.length)).mem = s.mem := by
    show d.mem = s.mem
    rw [← hd]
    exact g.mem
  have hwrite : Writable (d.packCount v.data.length (some b.length)) a b.length :=
    ⟨room.stores.1, (crd _ (by decide) (by decide)).trans room.stores.2.1, by rw [cmem]; exact room.stores.2.2⟩
  obtain ⟨-, hst, -, -, -⟩ := State.writeMem_stores (source := 0) (by rw [cmem]; exact room.canonical) hwrite
  refine ⟨(d.packCount v.data.length (some b.length)).writeMem 0 a b, ?_, ?_, ?_, hst.1, fun x hx => (hst.2 x hx).trans (by rw [cmem])⟩
  · unfold State.homed State.homeFor
    simp only [if_true]
    rw [hform u.fresh (g.rd _ (by decide))]
    simp only
    rw [allocPool_run g room k hk, hd]
    simp only
    rw [hform d (drd _ (by decide)), hon d (drd _ (by decide)), hi]
    have hnow : ((d.packCount v.data.length (some b.length)).writeMem 0 a b).now = s.tally.beat := by
      unfold State.now
      rw [State.writeMem_tally]
      show d.tally.beat = _
      rw [← hd]
      exact congrArg TallySt.beat g.tally
    simp only [Bool.true_and, Option.isNone_none, if_true, hnow]
    rfl
  · rw [State.writeMem_fil]
    show d.fil.strands = _
    rw [← hd]
    exact g.strands
  · rw [State.writeMem_fil]
    show d.fil.tiles = _
    rw [← hd]
    rfl

theorem Tile.withName_still (x : Tile) (name : Nat) : (x.withName name).still = x.still.withName name := by
  unfold Tile.withName
  rw [show x.still.names = x.names from rfl]
  split <;> rfl

/-- TSAVE with PACK: the packed stream lies in the pool, and the instruction in flight makes it the tile's home. -/
theorem execMovTsave_packs {s : State} {o : Insn} {t : Strand} {j : Job} {x : Tile} {v : TileVal} {b : List Byte} {a : Nat}
    (h : Issues s Form.movTsave o t j) (hat : o.fld 0 1 = 1) (hx : AtRest s t o.a x v) (hi : v.info = none) (hp : packTile v.data = some b)
    (hen : s.on F.memCtrl_packEn = true) (room : PoolRoomAt s t j b.length a) : CompletesWith (execMovTsave o s) fun u =>
      (∃ y : Tile, InFlight s u o t [.tile y, .setS o.dst (BitVec.ofNat 64 (s.savedName x))] ∧
        y.id = x.id ∧ y.val v.data = v ∧ y.crc = x.crc ∧ y.home = a ∧ y.len = b.length ∧ y.packed = true) ∧
      (u.tile? x.id).map Tile.still = some (x.withName (s.savedName x)).still ∧ Stores s u a b := by
  have hx' := hx.moved (t' := t) o
  obtain ⟨u, hu, g⟩ := useTile_run (j := j) false hx'.toAtHome fun hf => by cases hf
  have room' : PoolRoomAt (s.moved o t) t j b.length a :=
    ⟨room.act, room.fits, room.placed, room.quota, room.spare, room.pool, room.stores, room.awake, room.canonical, room.fresh⟩
  obtain ⟨m, hm, hstrands, htiles, hst⟩ := homedPacked_run g room' hp hen hi x.id (.move u.nextId) rfl
  have htile : ∃ y, m.tile? x.id = some y ∧ y.still = x.still := by
    have hsame := g.tile x.id
    rw [hx'.tile] at hsame
    unfold State.tile? at hsame ⊢
    rw [htiles]
    cases hfind : u.fil.tiles.find? (fun y => y.id == x.id) with
    | none => rw [hfind] at hsame; cases hsame
    | some y => rw [hfind] at hsame; exact ⟨y, rfl, by simpa using hsame⟩
  obtain ⟨y, hy, hstill⟩ := htile
  let home : Tile := { packedOf (s.moved o t) j v a b.length with id := x.id, crc := x.crc }
  refine ⟨_, engine_ok (e := [.tile home, .setS o.dst (BitVec.ofNat 64 (s.savedName x))])
    (u := m.modTile x.id fun u => u.withName (s.savedName x)) h (clear_nil t) ?_, ⟨home, ?_, rfl, ?_, rfl, rfl, rfl, rfl⟩, ?_, hst⟩
  · rw [M.run_bind_ok (tileAt_run _ hx'.handle hx'.tile rfl), M.run_bind_ok (M.run_get _)]
    simp only [hat, if_true]
    rw [M.run_bind_ok (quotaFirst_ok _ _ _ hu), M.run_bind_ok (M.run_get _), M.run_bind_ok (M.run_updGet _ _), hm]
    rfl
  · exact inFlight_launch (w := m.modTile x.id fun u => u.withName (s.savedName x)) h.strand hstrands (flightOf Form.movTsave o t
      (m.modTile x.id fun u => u.withName (s.savedName x)) .engine [] [] [.tile home, .setS o.dst (BitVec.ofNat 64 (s.savedName x))]) rfl
  · show TileVal.mk v.fmt v.shape v.data v.tscale v.bs v.axis v.scales none = v
    rw [← hi]
  · have hnamed := State.tile_modTile hy (fun u => u.withName (s.savedName x)) fun z => z.withName_id _
    show ((m.modTile x.id fun u => u.withName (s.savedName x)).tile? x.id).map Tile.still = _
    rw [hnamed, Option.map_some, Tile.withName_still, hstill, Tile.withName_still]

/-- An instruction in flight whose body has changed one tile. -/
theorem Launched.changesTile {s w : State} {o : Insn} {t : Strand} {x : Tile} {f : Tile → Tile} {e : List Effect}
    (hl : Launched s ((s.moved o t).modTile x.id f) w o (t.after o) e) (hx : s.tile? x.id = some x) (hf : ∀ y, (f y).id = y.id) :
    InFlight s w o t e ∧ w.tile? x.id = some (f x) ∧ w.mem = s.mem := by
  have hfl := hl.inFlight
  obtain ⟨fl, -, -, hw, htiles, -⟩ := hl
  refine ⟨hfl, ?_, hw.mem⟩
  rw [← State.tile_modTile (s := s.moved o t) hx f hf]
  unfold State.tile?
  rw [htiles]

/-- Settles O31: each instruction acts on one handle, name or preference, and all but PACK's stream and demotions leave memory. -/
theorem tileNames : Obligations.TileNames := by
  intro o s t j x hx
  refine ⟨fun h hnamed => ?_, fun h ht => ⟨fun hpack => ?_, fun v b a hat hrest hi hp hen room => execMovTsave_packs h hat hrest hi hp hen room⟩,
    execMovTfree_drops, fun h hnamed => ?_, fun h ht => ?_⟩
  · by_cases hat : o.fld 0 1 = 1 ∧ x.packed = true
    · obtain ⟨w, hw, ⟨fl, hstrand⟩, hhandle, hmem⟩ := execMovTopen_expands h hnamed hat
      have hact : x.act = j.act := by
        have := List.find?_some hnamed
        simp only [Bool.and_eq_true, beq_iff_eq] at this
        exact this.1.1
      refine ⟨w, hw, ⟨?_, ?_⟩, fun hspare => ?_, fun _ _ => hhandle⟩
      · rw [hstrand]; simp
      · rw [State.anyStrand_of_strand hstrand]
        exact congrArg some (Strand.getT_setT _ _ _)
      · obtain ⟨hq, hs⟩ := hspare hat.1 hat.2
        rw [hmem]
        exact expanding_mem h.strand hact hq hs
    · obtain ⟨w, hw, fl, -, -, hs, -⟩ := execMovTopen_binds h hnamed hat
      refine ⟨w, hw, ⟨?_, ?_⟩, fun _ => hs.mem, fun h1 h2 => absurd ⟨h1, h2⟩ hat⟩
      · rw [hs.strand]; simp [Strand.setT, Strand.after]
      · rw [State.anyStrand_of_strand hs.strand]
        exact congrArg some (Strand.getT_setT _ _ _)
  · obtain ⟨w, hw, hl⟩ := execMovTsave_names h hx ht hpack
    exact ⟨w, hw, hl.changesTile hx fun y => y.withName_id _⟩
  · obtain ⟨w, hw, hl⟩ := execMovTdrop_marks h hnamed
    exact ⟨w, hw, hl.changesTile hx fun _ => rfl⟩
  · obtain ⟨w, hw, hl⟩ := execMovTplace_prefers h hx ht
    exact ⟨w, hw, hl.changesTile hx fun _ => rfl⟩

end Sys2Proof.Machine
end

section
/-! PROOFS. Ordered reductions: SYN.ORED, HEW.ORED and the timeout of a slot (R53, R91, R92). -/
namespace Sys2Proof.Machine
open Sys2Proof.Claims

/-! ## The contributors of a scalar slot -/

/-- A contributor takes the result of its slot and goes on. -/
def Strand.takes (v : DWord) (c : Contrib) (t : Strand) : Strand := { t.setS c.tag v with wait := .no }

/-- The contributors of a list take the result. -/
def State.reduces (v : DWord) (l : List Contrib) (s : State) : State := l.foldl (fun s c => s.modStrand c.strand (Strand.takes v c)) s

theorem Strand.takes_id (v : DWord) (c : Contrib) (t : Strand) : (t.takes v c).id = t.id := t.setS_id _ _
theorem Strand.takes_ended (v : DWord) (c : Contrib) (t : Strand) : (t.takes v c).ended = t.ended := t.setS_ended _ _

theorem State.reduces_other {v : DWord} {l : List Contrib} {s : State} {k : Nat} (h : ∀ d ∈ l, d.strand ≠ k) :
    (s.reduces v l).anyStrand? k = s.anyStrand? k ∧ (s.reduces v l).strand? k = s.strand? k := by
  unfold State.reduces
  induction l generalizing s with
  | nil => exact ⟨rfl, rfl⟩
  | cons c l ih =>
    obtain ⟨hc, hl⟩ := List.forall_mem_cons.1 h
    obtain ⟨h1, h2⟩ := ih (s := s.modStrand c.strand (Strand.takes v c)) hl
    exact ⟨h1.trans (s.anyStrand_modStrand_other _ (fun t => t.takes_id v c) (Ne.symm hc)),
      h2.trans (s.strand_modStrand_other _ (fun t => t.takes_id v c) (Ne.symm hc))⟩

theorem State.reduces_member {v : DWord} {l : List Contrib} {s : State} {d : Contrib} {t : Strand} (hn : (l.map (·.strand)).Nodup) (hd : d ∈ l)
    (ht : s.strand? d.strand = some t) : (s.reduces v l).strand? d.strand = some (t.takes v d) := by
  induction l generalizing s with
  | nil => cases hd
  | cons c l ih =>
    rw [List.map_cons, List.nodup_cons] at hn
    obtain ⟨hc, hl⟩ := hn
    have hne : ∀ e ∈ l, e.strand ≠ c.strand := fun e he heq => hc (List.mem_map.2 ⟨e, he, heq⟩)
    rcases List.mem_cons.1 hd with rfl | hd
    · exact (State.reduces_other (s := s.modStrand d.strand (Strand.takes v d)) hne).2.trans
        (s.strand_modStrand _ _ ht (fun t => t.takes_id v d) fun t => t.takes_ended v d)
    · exact ih hl hd ((s.strand_modStrand_other _ (fun t => t.takes_id v c) (hne d hd)).trans ht)

theorem State.reduces_rest (v : DWord) (l : List Contrib) (s : State) :
    { s.reduces v l with fil := { (s.reduces v l).fil with strands := s.fil.strands } } = s := by
  unfold State.reduces
  exact foldl_keeps (f := fun (s : State) c => s.modStrand c.strand (Strand.takes v c))
    (P := fun u : State => { u with fil := { u.fil with strands := s.fil.strands } } = s) (fun u c hu => hu) l rfl

/-! ## SYN.ORED -/

/-- The strand of SYN.ORED waits in its slot. -/
def State.contributed (s : State) (o : Insn) (t : Strand) (r : Ored) : State :=
  ((s.moved o t).withOred r.job r.hew r.slot r).modStrand o.strand fun u => { u with wait := .ored r.slot o.dst, since := s.tally.beat }

/-- A complete slot is closed. -/
def State.closes (s : State) (job : Nat) (hew : Bool) (slot : Nat) : State :=
  { s with fil := { s.fil with oreds := s.fil.oreds.filter fun q => !(q.job == job && q.hew == hew && q.slot == slot) } }

theorem State.ored_closes (s : State) (job : Nat) (hew : Bool) (slot : Nat) : (s.closes job hew slot).ored? job hew slot = none := by
  unfold State.ored? State.closes
  simp only [List.find?_eq_none, List.mem_filter, Bool.not_eq_true']
  exact fun q hq => by simp [hq.2]

theorem State.contributed_is {s : State} {o : Insn} {t : Strand} (h : s.strand? o.strand = some t) (r : Ored) :
    StrandIs s (s.contributed o t r) o.strand { t.after o with wait := .ored r.slot o.dst, since := s.tally.beat } :=
  ((StrandIs.moved h).congr (w := (s.moved o t).withOred r.job r.hew r.slot r) rfl rfl).modStrand
    (fun u => { u with wait := .ored r.slot o.dst, since := s.tally.beat }) (fun _ => rfl) fun _ => rfl

theorem State.contributed_other {s : State} {o : Insn} {t : Strand} {r : Ored} {k : Nat} (h : k ≠ o.strand) :
    (s.contributed o t r).strand? k = s.strand? k :=
  (State.strand_modStrand_other _ (fun u => { u with wait := .ored r.slot o.dst, since := s.tally.beat }) (fun _ => rfl) h).trans
    (s.strand_modStrand_other (fun u => { u with pc := nextPc t o, wait := .no }) (fun _ => rfl) h)

/-- The number of contributors, the slot and the operation in the extension word of an ORED. -/
def oredCount (o : Insn) : Nat := bits (o.ext.getD 0 0#64).toNat 0 16
def oredSlot (o : Insn) : Nat := bits (o.ext.getD 0 0#64).toNat 16 4
def oredFn (o : Insn) : Nat := bits (o.ext.getD 0 0#64).toNat 20 2

/-- The contribution of a SYN.ORED. -/
def synContrib (o : Insn) (t : Strand) : Contrib := ⟨(t.getS o.b).toNat, [(t.getS o.a).toNat], t.id, o.dst⟩

/-- A slot with one more contribution. -/
def Ored.plus (r : Ored) (c : Contrib) : Ored := { r with contribs := r.contribs ++ [c] }

/-- The slot that takes a contribution: the open one, or a new one (R92). -/
structure SlotFor (s : State) (j : Job) (o : Insn) (t : Strand) (hew : Bool) (op shape : Nat) (r : Ored) : Prop where
  opened : r = (s.ored? j.id hew (oredSlot o)).getD ⟨j.id, hew, oredSlot o, oredCount o, op, 0, shape, s.tally.beat, []⟩
  accepts : r.accepts (oredCount o) op 0 shape (t.getS o.b).toNat

theorem SlotFor.fields {s : State} {j : Job} {o : Insn} {t : Strand} {hew : Bool} {op shape : Nat} {r : Ored}
    (h : SlotFor s j o t hew op shape r) : r.job = j.id ∧ r.hew = hew ∧ r.slot = oredSlot o := ored_fields h.opened

theorem SlotFor.count {s : State} {j : Job} {o : Insn} {t : Strand} {hew : Bool} {op shape : Nat} {r : Ored}
    (h : SlotFor s j o t hew op shape r) : r.n = oredCount o := h.accepts.2.1

/-- SYN.ORED with a contribution that its slot accepts. -/
theorem execSynOred_contributes {s : State} {o : Insn} {t : Strand} {j : Job} {r all : Ored} (h : Issues s Form.synOred o t j)
    (hr : SlotFor s j o t false (oredFn o) 0 r) (hall : all = r.plus (synContrib o t)) :
    execSynOred o s = .next (if all.contribs.length = oredCount o
      then ((s.contributed o t all).reduces (BitVec.ofNat 64 all.scalarResult) all.contribs).closes j.id false (oredSlot o)
      else s.contributed o t all) := by
  obtain ⟨hjob, hhew, hslot⟩ := hr.fields
  subst hall
  refine issue_ok (a := ()) h ?_
  refine (M.run_bind_ok (contribute_run (s := s.moved o t) (c := synContrib o t) hr.opened hr.accepts)).trans ?_
  refine (M.run_bind_ok (M.run_upd _ _)).trans ?_
  have hstate : (((s.moved o t).withOred j.id false (oredSlot o) (r.plus (synContrib o t))).modStrand o.strand fun u => { u with
      wait := .ored (oredSlot o) o.dst, since := ((s.moved o t).withOred j.id false (oredSlot o) (r.plus (synContrib o t))).now }) =
      s.contributed o t (r.plus (synContrib o t)) := by
    unfold State.contributed
    rw [show (r.plus (synContrib o t)).job = j.id from hjob, show (r.plus (synContrib o t)).hew = false from hhew,
      show (r.plus (synContrib o t)).slot = oredSlot o from hslot]
    rfl
  rw [← hr.count]
  by_cases hlen : (r.plus (synContrib o t)).contribs.length = r.n
  · rw [if_pos hlen, ← hstate]
    refine (congrArg (fun m : M Unit => m.run _) (if_pos hlen)).trans ?_
    rfl
  · rw [if_neg hlen, ← hstate]
    refine (congrArg (fun m : M Unit => m.run _) (if_neg hlen)).trans ?_
    rfl

/-- SYN.ORED while contributions are missing: the strand waits. -/
theorem execSynOred_waits {s : State} {o : Insn} {t : Strand} {j : Job} {r all : Ored} (h : Issues s Form.synOred o t j)
    (hr : SlotFor s j o t false (oredFn o) 0 r) (hall : all = r.plus (synContrib o t)) (hlen : all.contribs.length ≠ oredCount o) :
    CompletesWith (execSynOred o s) fun u => u.strand? o.strand = some { t.after o with wait := .ored (oredSlot o) o.dst, since := s.tally.beat } ∧
      (∀ k, k ≠ o.strand → u.anyStrand? k = s.anyStrand? k) ∧ u.ored? j.id false (oredSlot o) = some all ∧
      { u with fil := { u.fil with strands := s.fil.strands, oreds := s.fil.oreds } } = s := by
  have hrun := execSynOred_contributes h hr hall
  rw [if_neg hlen] at hrun
  obtain ⟨hjob, hhew, hslot⟩ := hr.fields
  have hs := State.contributed_is h.strand all
  have hored := ored_withOred (s := s.moved o t) (r := all) rfl rfl rfl
  subst hall
  rw [show (r.plus (synContrib o t)).job = j.id from hjob, show (r.plus (synContrib o t)).hew = false from hhew,
    show (r.plus (synContrib o t)).slot = oredSlot o from hslot] at hored
  refine ⟨_, hrun, ?_, hs.others, ?_, rfl⟩
  · rw [hs.strand, show (r.plus (synContrib o t)).slot = oredSlot o from hslot]
  · unfold State.contributed
    rw [show (r.plus (synContrib o t)).job = j.id from hjob, show (r.plus (synContrib o t)).hew = false from hhew,
      show (r.plus (synContrib o t)).slot = oredSlot o from hslot]
    exact hored

/-- The last SYN.ORED of a slot: every contributor takes the result. -/
theorem execSynOred_completes {s : State} {o : Insn} {t : Strand} {j : Job} {r all : Ored} (h : Issues s Form.synOred o t j)
    (hr : SlotFor s j o t false (oredFn o) 0 r) (hall : all = r.plus (synContrib o t)) (hlen : all.contribs.length = oredCount o)
    (hnodup : (all.contribs.map (·.strand)).Nodup) {value : DWord} (hvalue : value = BitVec.ofNat 64 all.scalarResult) :
    CompletesWith (execSynOred o s) fun u => u.strand? o.strand = some { (t.after o).setS o.dst value with since := s.tally.beat } ∧
      (∀ d ∈ r.contribs, ∀ v, s.strand? d.strand = some v → u.strand? d.strand = some { v.setS d.tag value with wait := .no }) ∧
      (∀ k, (∀ d ∈ all.contribs, d.strand ≠ k) → u.anyStrand? k = s.anyStrand? k) ∧ u.ored? j.id false (oredSlot o) = none ∧
      { u with fil := { u.fil with strands := s.fil.strands, oreds := s.fil.oreds } } = s := by
  have hrun := execSynOred_contributes h hr hall
  rw [if_pos hlen, ← hvalue] at hrun
  have hs := State.contributed_is h.strand all
  have hid : t.id = o.strand := h.strand_id
  have hcontribs : all.contribs = r.contribs ++ [synContrib o t] := by rw [hall]; rfl
  have hlast : synContrib o t ∈ all.contribs := hcontribs ▸ List.mem_append_right _ List.mem_cons_self
  refine ⟨_, hrun, ?_, fun d hd v hv => ?_, fun k hk => ?_, State.ored_closes _ _ _ _, ?_⟩
  · have hown := State.reduces_member (v := value) (d := synContrib o t) hnodup hlast (show _ = _ from hid ▸ hs.strand)
    rw [show (synContrib o t).strand = o.strand from hid] at hown
    refine hown.trans (congrArg some ?_)
    rw [Strand.takes, show (synContrib o t).tag = o.dst from rfl]
    unfold Strand.setS
    split <;> rfl
  · have hne : d.strand ≠ o.strand := by
      rw [hcontribs, List.map_append, List.nodup_append] at hnodup
      exact fun he => hnodup.2.2 _ (List.mem_map.2 ⟨d, hd, rfl⟩) t.id (by simp [synContrib]) (he.trans hid.symm)
    refine State.reduces_member (v := value) hnodup (hcontribs ▸ List.mem_append_left _ hd) ?_
    exact (State.contributed_other hne).trans hv
  · refine (State.reduces_other hk).1.trans (hs.others k fun hko => hk _ hlast ?_)
    exact hid.trans hko.symm
  · have hrest := State.reduces_rest value all.contribs (s.contributed o t all)
    exact congrArg (fun u : State => { u with fil := { u.fil with strands := s.fil.strands, oreds := s.fil.oreds } }) hrest

/-! ## HEW.ORED -/

/-- The contribution of a HEW.ORED: the values of its tile with one zero and one NaN. -/
def hewContrib (o : Insn) (t : Strand) (v : TileVal) (tag : Nat) : Contrib := ⟨(t.getS o.b).toNat, (codesOf 0 v.data).map (tidy 0), t.id, tag⟩

/-- HEW.ORED in flight. -/
def hewFlight (o : Insn) (t : Strand) (s : State) : Inflight := flightOf Form.hewOred o t s (.ored (oredSlot o)) [] [] []

/-- The state of HEW.ORED in flight, after the read `u`. -/
def State.hewLaunched (u : State) (o : Insn) (t : Strand) (r : Ored) : State :=
  (u.withOred r.job r.hew r.slot r).fresh.modStrand o.strand fun v =>
    { v with inflight := v.inflight ++ [hewFlight o t (u.withOred r.job r.hew r.slot r)] }

theorem SlotFor.reads {s u : State} {j : Job} {o : Insn} {t : Strand} {hew : Bool} {op shape : Nat} {r : Ored}
    (h : SlotFor s j o t hew op shape r) (g : TileReads (s.moved o t) u) : SlotFor u j o t hew op shape r := by
  have horeds : u.fil.oreds = s.fil.oreds := by have := congrArg (fun x : State => x.fil.oreds) g.1; exact this
  have hbeat : u.tally.beat = s.tally.beat := congrArg TallySt.beat g.tally
  refine ⟨?_, h.accepts⟩
  unfold State.ored?
  rw [horeds, hbeat]
  exact h.opened

theorem SlotFor.contributes {s : State} {j : Job} {o : Insn} {t : Strand} {hew : Bool} {op shape : Nat} {r : Ored}
    (h : SlotFor s j o t hew op shape r) (c : Contrib) (hc : c.idx = (t.getS o.b).toNat) :
    (contribute j.id hew (oredSlot o) (oredCount o) op 0 shape c).run s = .ok (r.plus c) (s.withOred r.job r.hew r.slot (r.plus c)) := by
  obtain ⟨hjob, hhew, hslot⟩ := h.fields
  rw [hjob, hhew, hslot]
  exact contribute_run h.opened (hc ▸ h.accepts)

/-- HEW.ORED of an FP32 tile, with a contribution that its slot accepts. -/
theorem execHewOred_contributes {s : State} {o : Insn} {t : Strand} {j : Job} {x : Tile} {v : TileVal} {r : Ored}
    (h : Issues s Form.hewOred o t j) (hx : AtRest s t o.a x v) (hp : NotPromoted s t x) (hfmt : x.fmt = 0)
    (hr : SlotFor s j o t true 0 x.shape r) : ∃ u, TileReads (s.moved o t) u ∧
      let all := r.plus (hewContrib o t v s.nextId)
      execHewOred o s = .next (if all.contribs.length = oredCount o then (u.hewLaunched o t all).finishOred all else u.hewLaunched o t all) := by
  obtain ⟨u0, hu0, g0, htiles⟩ := hewBusy_run (s.moved o t) t
  obtain ⟨u, hu, g⟩ := useTile_hew j (hx.moved (t' := t) o) hp g0
  have hid : u.nextId = s.nextId := g.nextId
  refine ⟨u, g, issue_ok (a := ()) h ?_⟩
  refine (M.run_bind_ok hu0).trans ?_
  refine (M.run_bind_ok (tileAt_rest (fun v => v.fmt == 0) (hx.moved (t' := t) o) htiles (beq_iff_eq.2 hfmt))).trans ?_
  have hearly := (hr.reads g0).contributes ⟨(t.getS o.b).toNat, [], t.id, 0⟩ rfl
  refine (M.run_bind_ok (quotaFirst_ok _ _ _ (a := v) (u := u) ?_)).trans ?_
  · refine (M.run_bind_ok (M.run_get _)).trans ((M.run_bind_ok hearly).trans ((M.run_bind_ok (M.run_set _ _)).trans hu))
  refine (M.run_bind_ok (M.run_get _)).trans ?_
  have hlate := (hr.reads g).contributes (hewContrib o t v u.nextId) rfl
  refine (M.run_bind_ok hlate).trans ?_
  rw [hid]
  have hlaunch : (launch Form.hewOred o t (.ored (oredSlot o)) [] [] []).run
      (u.withOred r.job r.hew r.slot (r.plus (hewContrib o t v s.nextId))) =
      .ok () (u.hewLaunched o t (r.plus (hewContrib o t v s.nextId))) := M.run_upd _ _
  refine (M.run_bind_ok hlaunch).trans ?_
  rw [← hr.count]
  by_cases hlen : (r.plus (hewContrib o t v s.nextId)).contribs.length = r.n
  · rw [if_pos hlen]
    exact (congrArg (fun m : M Unit => m.run _) (if_pos hlen)).trans rfl
  · rw [if_neg hlen]
    exact (congrArg (fun m : M Unit => m.run _) (if_neg hlen)).trans rfl

/-- What HEW.ORED in flight has left. -/
structure Contributed (s w : State) (o : Insn) (t : Strand) (j : Job) (v : TileVal) (r : Ored) (fl : Inflight) : Prop where
  gate : fl.gate = .ored (oredSlot o)
  effects : fl.effects = []
  writes : fl.writes = [.t o.dst]
  tag : fl.tag = s.nextId
  strand : StrandIs s w o.strand { t.after o with inflight := t.inflight ++ [fl] }
  slot : w.ored? j.id true (oredSlot o) = some (r.plus (hewContrib o t v fl.tag))
  allocs : w.fil.allocs = s.fil.allocs
  regs : ∀ off, off ≠ F.cruAtuseCount_count.off → w.reg off = s.reg off

theorem State.hewLaunched_does {s u : State} {o : Insn} {t : Strand} {j : Job} {v : TileVal} {x : Tile} {r : Ored}
    (ht : s.strand? o.strand = some t) (hr : SlotFor s j o t true 0 x.shape r) (g : TileReads (s.moved o t) u) :
    Contributed s (u.hewLaunched o t (r.plus (hewContrib o t v s.nextId))) o t j v r
      (hewFlight o t (u.withOred r.job r.hew r.slot (r.plus (hewContrib o t v s.nextId)))) := by
  obtain ⟨hjob, hhew, hslot⟩ := hr.fields
  have htag : u.nextId = s.nextId := g.nextId
  refine ⟨rfl, rfl, rfl, htag, ?_, ?_, g.allocs, g.2.1⟩
  · exact (((StrandIs.moved ht).congr g.strands g.mem).congr (w := (u.withOred r.job r.hew r.slot (r.plus (hewContrib o t v s.nextId))).fresh)
      rfl rfl).modStrand (fun v => { v with inflight := v.inflight ++ [_] }) (fun _ => rfl) fun _ => rfl
  · have hored := ored_withOred (s := u) (job := r.job) (hew := r.hew) (slot := r.slot) (r := r.plus (hewContrib o t v s.nextId)) rfl rfl rfl
    rw [← hjob, ← hhew, ← hslot]
    refine Eq.trans hored ?_
    show some (r.plus (hewContrib o t v s.nextId)) = some (r.plus (hewContrib o t v u.nextId))
    rw [htag]

/-- HEW.ORED while contributions are missing. -/
theorem execHewOred_waits {s : State} {o : Insn} {t : Strand} {j : Job} {x : Tile} {v : TileVal} {r : Ored}
    (h : Issues s Form.hewOred o t j) (hx : AtRest s t o.a x v) (hp : NotPromoted s t x) (hfmt : x.fmt = 0)
    (hr : SlotFor s j o t true 0 x.shape r) (hlen : r.contribs.length + 1 ≠ oredCount o) : CompletesWith (execHewOred o s) fun u =>
      ∃ fl, Contributed s u o t j v r fl := by
  obtain ⟨u, g, hrun⟩ := execHewOred_contributes h hx hp hfmt hr
  simp only [Ored.plus, List.length_append, List.length_cons, List.length_nil, Nat.zero_add, if_neg hlen] at hrun
  exact ⟨_, hrun, _, State.hewLaunched_does h.strand hr g⟩

/-- The last HEW.ORED of a slot. -/
theorem execHewOred_completes {s : State} {o : Insn} {t : Strand} {j : Job} {x : Tile} {v : TileVal} {r : Ored}
    (h : Issues s Form.hewOred o t j) (hx : AtRest s t o.a x v) (hp : NotPromoted s t x) (hfmt : x.fmt = 0)
    (hr : SlotFor s j o t true 0 x.shape r) (hlen : r.contribs.length + 1 = oredCount o) : CompletesWith (execHewOred o s) fun u =>
      ∃ w fl, Contributed s w o t j v r fl ∧ u = w.finishOred (r.plus (hewContrib o t v fl.tag)) := by
  obtain ⟨u, g, hrun⟩ := execHewOred_contributes h hx hp hfmt hr
  have hcount : (r.plus (hewContrib o t v s.nextId)).contribs.length = oredCount o := by simp [Ored.plus, hlen]
  simp only [if_pos hcount] at hrun
  have hdoes := State.hewLaunched_does (v := v) h.strand hr g
  exact ⟨_, hrun, _, _, hdoes, by rw [hdoes.tag]⟩

/-! ## A result for one contributor -/

/-- A result tile is made, and then the store is managed. -/
theorem makeTile_of_newTile {s w : State} {t : Strand} {j : Job} {v : TileVal} {id : Nat} (h : (newTile t j v).run s = .ok id w) :
    ∃ m, s.makeTile j.act t.crew v false = (some id, m) ∧ m.tierManage j.act t.crew = w := by
  unfold newTile at h
  rw [M.run_bind_ok (M.run_updGet _ _)] at h
  rcases hmk : s.makeTile j.act t.crew v false with ⟨_ | k, m⟩
  · rw [hmk] at h
    cases h
  · rw [hmk] at h
    have heq : EStateM.Result.ok k (m.tierManage j.act t.crew) = (.ok id w : EStateM.Result Fail State Nat) := h
    cases heq
    exact ⟨m, rfl, rfl⟩

/-- A contributor in flight takes the result into a tile of its own. -/
theorem oredResult_eq {s m : State} {t : Strand} {j : Job} {f : Inflight} {c : Contrib} {v : TileVal} {n id : Nat}
    (ht : s.anyStrand? c.strand = some t) (hj : s.job? t.job = some j) (hf : t.flight? c.tag = some f) (hw : f.writes = [.t n])
    (hm : s.makeTile j.act t.crew v false = (some id, m)) :
    s.oredResult v c = (m.tierManage j.act t.crew).regate c.strand c.tag .engine [.bindT n id] := by
  unfold State.oredResult
  simp only [ht, hj, hf, hw, hm]
  rfl

theorem RoomAt.launched {s u : State} {o : Insn} {t : Strand} {j : Job} {n a : Nat} (room : RoomAt s.fresh t j n a)
    (g : TileReads (s.moved o t) u) (r : Ored) : RoomAt (u.hewLaunched o t r) t j n a := by
  have hfresh : TileReads (s.moved o t).fresh u.fresh := ⟨congrArg State.fresh g.1, g.2.1, g.2.2⟩
  have hmoved : RoomAt (s.moved o t).fresh t j n a := room.moved o
  have hread : RoomAt u.fresh t j n a := hmoved.counts hfresh (regs := []) (r := id) ⟨fun _ => rfl, fun _ _ _ => rfl⟩
    List.not_mem_nil List.not_mem_nil List.not_mem_nil
  exact hread.same rfl rfl rfl rfl rfl

/-- The result of one contribution is what it contributed. -/
theorem tileResult_alone (r : Ored) (c : Contrib) (h : r.contribs = []) :
    (r.plus c).tileResult = plainTile 0 r.shape (ofCodes 0 c.vals) := by
  unfold Ored.tileResult Ored.ordered Ored.plus
  rw [h]
  rfl

/-- A new tile is claimed of the strands, the tiles, memory and the registers alone. -/
theorem MakesTile.congr {s u w : State} {o : Insn} {t : Strand} {v : TileVal} {a : Nat} (h : MakesTile s u o t v a) (hfil : w.fil.tiles = u.fil.tiles)
    (hmem : w.mem = u.mem) (hreg : w.regs = u.regs) (hown : w.strand? o.strand = u.strand? o.strand)
    (hothers : ∀ k, k ≠ o.strand → w.anyStrand? k = u.anyStrand? k) : MakesTile s w o t v a := by
  have htile : ∀ id, w.tile? id = u.tile? id := fun id => by unfold State.tile?; rw [hfil]
  obtain ⟨⟨x, ⟨⟨fl, he, hg, hs⟩, ho⟩, hx, hval, hcrc, hhome, hlen, hpacked, hold⟩, ⟨hdata, hrest⟩, hr⟩ := h
  refine ⟨⟨x, ⟨⟨fl, he, hg, hown.trans hs⟩, fun k hk => (hothers k hk).trans (ho k hk)⟩, (htile _).trans hx, hval, hcrc, hhome, hlen, hpacked,
    fun id y hy => ?_⟩, ⟨fun i hi => ?_, fun b hb => ?_⟩, fun off h1 h2 => ?_⟩
  · rw [htile]
    exact hold id y hy
  · rw [← hdata i hi]
    unfold State.byteAt
    rw [hmem]
  · rw [hmem]
    exact hrest b hb
  · rw [← hr off h1 h2]
    unfold State.reg
    rw [hreg]

/-- The last instruction in flight, with a new gate and one more effect. -/
theorem updWhere_last {l : List Inflight} {fl : Inflight} {tag : Nat} (f : Inflight → Inflight) (hl : ∀ g ∈ l, g.tag ≠ tag) (hfl : fl.tag = tag) :
    updWhere (·.tag == tag) f (l ++ [fl]) = l ++ [f fl] := by
  unfold updWhere
  rw [List.map_append, List.map_cons, List.map_nil, if_pos (beq_iff_eq.2 hfl)]
  congr 1
  exact List.map_congr_left (fun g hg => if_neg (by simpa using hl g hg)) |>.trans (List.map_id' l)

/-- An instruction in flight whose gate and effects are replaced. -/
def Inflight.regated (g : Gate) (e : List Effect) (f : Inflight) : Inflight := { f with gate := g, effects := f.effects ++ e }

/-- A strand with an instruction in flight that is regated. -/
def Strand.regates (tag : Nat) (g : Gate) (e : List Effect) (t : Strand) : Strand :=
  { t with inflight := updWhere (·.tag == tag) (Inflight.regated g e) t.inflight }

theorem StrandIs.regate {s u : State} {id : Nat} {t : Strand} (h : StrandIs s u id t) (tag : Nat) (g : Gate) (e : List Effect) :
    StrandIs s (u.regate id tag g e) id (t.regates tag g e) := h.modStrand (Strand.regates tag g e) (fun _ => rfl) fun _ => rfl

/-- The tile of a contributor in flight, once it is made, as the claims say it. -/
theorem Contributed.makesTile {s w u : State} {o : Insn} {t : Strand} {j : Job} {v val : TileVal} {r : Ored} {fl : Inflight} {a : Nat}
    (h : Contributed s w o t j v r fl) (ht : s.strand? o.strand = some t) (htag : ∀ f ∈ t.inflight, f.tag ≠ s.nextId)
    (hnext : w.nextId = s.fresh.nextId) (hold : w.fil.tiles.map Tile.still = s.fil.tiles.map Tile.still) (hfresh : s.fresh.tile? s.fresh.nextId = none)
    (hstrands : u.fil.strands = w.fil.strands) (htiles : u.fil.tiles = w.fil.tiles ++ [tileOf w j val a]) (hstores : Stores w u a val.data)
    (hregs : ∀ off, off ≠ F.cruAtuseCount_count.off → u.reg off = w.reg off) :
    MakesTile s (u.regate o.strand s.nextId .engine [.bindT o.dst w.nextId]) o t val a := by
  have hstored : Stores s.fresh u a val.data := ⟨hstores.1, fun b hb => (hstores.2 b hb).trans (by rw [h.strand.mem]; rfl)⟩
  have hreg : ∀ off, off ≠ F.cruAtuseCount_count.off → off ∉ ([] : List Nat) → u.reg off = s.fresh.reg off := fun off hoff _ =>
    (hregs off hoff).trans (h.regs off hoff)
  have heffects : (fl.regated .engine [.bindT o.dst w.nextId]).effects = [.bindT o.dst s.fresh.nextId] := by
    unfold Inflight.regated
    rw [h.effects, hnext]
    rfl
  have hin := (StrandIs.moved ht).congr (w := { u with mem := s.mem, fil := { u.fil with strands := (s.moved o t).fil.strands } }) rfl rfl
  have hlaunch := hin.modStrand (fun v => { v with inflight := v.inflight ++ [fl.regated .engine [.bindT o.dst w.nextId]] })
    (fun _ => rfl) fun _ => rfl
  have hout := (h.strand.congr (w := { u with mem := w.mem }) hstrands rfl).regate s.nextId .engine [.bindT o.dst w.nextId]
  have hown : ({ t.after o with inflight := t.inflight ++ [fl] } : Strand).regates s.nextId .engine [.bindT o.dst w.nextId] =
      { t.after o with inflight := t.inflight ++ [fl.regated .engine [.bindT o.dst w.nextId]] } := by
    unfold Strand.regates
    rw [updWhere_last _ htag h.tag]
  have hmakes : MakesTile s.fresh _ o t val a := makesTile_finish (w := { u with fil := { u.fil with strands := (s.moved o t).fil.strands } })
    (a := a) (x := tileOf w j val a) (more := []) (home := (val.data, false)) (regs := []) (fl.regated .engine [.bindT o.dst w.nextId]) ht hfresh
    rfl htiles hold ⟨hnext, rfl, rfl, rfl, rfl, rfl⟩ hstored hreg rfl heffects
  exact MakesTile.congr (s := s) hmakes rfl rfl rfl (hout.strand.trans ((congrArg some hown).trans hlaunch.strand.symm))
    fun k hk => (hout.others k hk).trans (hlaunch.others k hk).symm

/-- HEW.ORED as the only contributor of its slot makes a tile of its own values. -/
theorem execHewOred_alone {s : State} {o : Insn} {t : Strand} {j : Job} {x : Tile} {v val : TileVal} {r : Ored} {a : Nat}
    (h : Issues s Form.hewOred o t j) (hx : AtRest s t o.a x v) (hp : NotPromoted s t x) (hfmt : x.fmt = 0)
    (hr : SlotFor s j o t true 0 x.shape r) (hn : oredCount o = 1) (hnone : r.contribs = []) (htag : ∀ f ∈ t.inflight, f.tag ≠ s.nextId)
    (hval : val = plainTile 0 x.shape (ofCodes 0 ((codesOf 0 v.data).map (tidy 0)))) (room : RoomAt s.fresh t j val.data.length a) :
    CompletesWith (execHewOred o s) fun u => MakesTile s u o t val a := by
  obtain ⟨u, g, hrun⟩ := execHewOred_contributes h hx hp hfmt hr
  have hcount : (r.plus (hewContrib o t v s.nextId)).contribs.length = oredCount o := by simp [Ored.plus, hnone, hn]
  simp only [if_pos hcount] at hrun
  have hdoes := State.hewLaunched_does (v := v) h.strand hr g
  have hroom := room.launched g (r.plus (hewContrib o t v s.nextId))
  generalize hw : u.hewLaunched o t (r.plus (hewContrib o t v s.nextId)) = w at hrun hdoes hroom
  have htiles : w.fil.tiles = u.fil.tiles := by rw [← hw]; rfl
  have hjobs : w.fil.jobs = s.fil.jobs := by
    rw [← hw]
    have hread := congrArg (fun x : State => x.fil.jobs) g.1
    exact hread
  have hnext : w.nextId = s.nextId + 1 := by
    rw [← hw]
    exact congrArg Nat.succ (g.nextId)
  generalize hewFlight o t (u.withOred r.job r.hew r.slot (r.plus (hewContrib o t v s.nextId))) = fl at hdoes
  obtain ⟨w2, hmake, hstr2, hst2, hreg2, htiles2, -, -, -⟩ := newTile_run (.refl w) hroom
  obtain ⟨m, hm, hmw⟩ := makeTile_of_newTile hmake
  have hflight : ({ t.after o with inflight := t.inflight ++ [fl] } : Strand).flight? s.nextId = some fl := by
    unfold Strand.flight?
    rw [List.find?_append, List.find?_eq_none.2 fun f hf => by simpa using htag f hf]
    simp [hdoes.tag]
  have hres : w.finishOred (r.plus (hewContrib o t v s.nextId)) = w2.regate o.strand s.nextId .engine [.bindT o.dst w.nextId] := by
    have hone : (r.plus (hewContrib o t v s.nextId)).contribs = [hewContrib o t v s.nextId] := by simp [Ored.plus, hnone]
    have hstrand : w.anyStrand? (hewContrib o t v s.nextId).strand = some { t.after o with inflight := t.inflight ++ [fl] } := by
      rw [show (hewContrib o t v s.nextId).strand = o.strand from h.strand_id]
      exact State.anyStrand_of_strand hdoes.strand.strand
    have hjob : w.job? t.job = some j := by
      unfold State.job?
      rw [hjobs]
      exact h.job
    unfold State.finishOred
    rw [hone, List.foldl_cons, List.foldl_nil, tileResult_alone _ _ hnone, show r.shape = x.shape from hr.accepts.2.2.2.2.1]
    rw [← hmw, ← show (hewContrib o t v s.nextId).strand = o.strand from h.strand_id]
    exact oredResult_eq (c := hewContrib o t v s.nextId) (t := { t.after o with inflight := t.inflight ++ [fl] }) hstrand hjob hflight hdoes.writes (hval ▸ hm)
  rw [hrun, hres]
  exact ⟨_, rfl, hdoes.makesTile h.strand htag hnext (htiles ▸ g.2.2) room.fresh hstr2 htiles2 hst2 hreg2⟩

/-! ## The result for every contributor -/

theorem Steady.homeFor (s : State) (act crew : Nat) (v : TileVal) (toPool : Bool) (kind : AllocKind) :
    Steady s (s.homeFor act crew v toPool kind).2 := by
  have hcrew : Steady s (if toPool then (none, s) else s.allocCrew act crew v.data.length kind).2 := by
    cases toPool with
    | true => exact .refl s
    | false => exact .allocCrew s act crew v.data.length kind
  unfold State.homeFor
  split
  next a u h => rwa [h] at hcrew
  next u h =>
    rw [h] at hcrew
    have hpool := hcrew.trans (.allocPool u act (homeForm u v true).1.length kind)
    split
    next b w hw => rwa [hw] at hpool
    next w hw => rwa [hw] at hpool

/-- Contents that are placed: the record has their checksum, format and shape. -/
theorem State.homed_does {s m : State} {id act crew : Nat} {v : TileVal} {toPool : Bool} {kind : AllocKind} {y : Tile}
    (h : s.homed id act crew v toPool kind = (some y, m)) :
    Steady s m ∧ y.id = id ∧ y.crc = v.crc ∧ y.fmt = v.fmt ∧ y.shape = v.shape := by
  have hplace := Steady.homeFor s act crew v toPool kind
  unfold State.homed at h
  split at h
  next u _ => cases h
  next a pool u hu =>
    rw [hu] at hplace
    simp only [Prod.mk.injEq, Option.some.injEq] at h
    obtain ⟨rfl, rfl⟩ := h
    refine ⟨?_, rfl, rfl, rfl, rfl⟩
    split
    · exact (hplace.trans (.packCount _ _ _)).trans (.writeMem _ _ _ _)
    · exact hplace.trans (.writeMem _ _ _ _)

/-- What a new tile leaves while the flip mask is not armed. -/
structure NewTile (s m : State) (v : TileVal) (y : Tile) : Prop where
  id : y.id = s.nextId
  crc : y.crc = v.crc
  fmt : y.fmt = v.fmt
  shape : y.shape = v.shape
  tiles : m.fil.tiles = s.fil.tiles ++ [y]
  strands : m.fil.strands = s.fil.strands
  ids : s.nextId < m.nextId
  unarmed : m.rd F.memFlipCtrl_arm = 0

theorem State.makeTile_does {s m : State} {act crew id : Nat} {v : TileVal} {toPool : Bool} (harm : s.rd F.memFlipCtrl_arm = 0)
    (h : s.makeTile act crew v toPool = (some id, m)) : id = s.nextId ∧ ∃ y, NewTile s m v y := by
  unfold State.makeTile at h
  simp only at h
  split at h
  next u _ => cases h
  next y u hy =>
    simp only [Prod.mk.injEq, Option.some.injEq] at h
    obtain ⟨rfl, rfl⟩ := h
    unfold State.produce at hy
    split at hy
    next u' _ => cases hy
    next y' u' hy' =>
      obtain ⟨hsteady, hid, hcrc, hfmt, hshape⟩ := State.homed_does hy'
      have hflip : u'.flipCrc crew y'.crc = (y'.crc, u') := by
        unfold State.flipCrc State.on
        rw [hsteady.unarmed harm]
        rfl
      rw [hflip] at hy
      simp only [Prod.mk.injEq, Option.some.injEq] at hy
      obtain ⟨rfl, rfl⟩ := hy
      have hids : s.nextId + 1 ≤ u'.nextId := hsteady.ids
      exact ⟨rfl, y', hid, hcrc, hfmt, hshape, congrArg (· ++ [y']) hsteady.tiles, hsteady.strands, hids, hsteady.unarmed harm⟩

theorem NewTile.manages {s m : State} {v : TileVal} {y : Tile} (h : NewTile s m v y) (act crew : Nat) : NewTile s (m.tierManage act crew) v y :=
  have hm := Steady.tierManage m act crew
  ⟨h.id, h.crc, h.fmt, h.shape, hm.tiles.trans h.tiles, hm.strands.trans h.strands, Nat.lt_of_lt_of_le h.ids hm.ids, hm.unarmed h.unarmed⟩

/-- What the result of one contributor leaves. -/
structure Resulted (s u : State) (v : TileVal) (c : Contrib) : Prop where
  made : ∃ t f n y m, s.strand? c.strand = some t ∧ t.flight? c.tag = some f ∧ f.writes = [.t n] ∧ NewTile s m v y ∧
    u = m.regate c.strand c.tag .engine [.bindT n y.id]

theorem Placed.results {v : TileVal} {c : Contrib} {l : List Contrib} {w : State} (harm : w.rd F.memFlipCtrl_arm = 0)
    (h : Placed v (c :: l) w) : Resulted w (w.oredResult v c) v c := by
  obtain ⟨⟨t, j, f, n, ht, hj, hf, hw, hroom⟩, -⟩ := h
  rcases hm : w.makeTile j.act t.crew v false with ⟨_ | id, m⟩
  · rw [hm] at hroom
    cases hroom
  · obtain ⟨hid, y, hy⟩ := State.makeTile_does harm hm
    refine ⟨t, f, n, y, m.tierManage j.act t.crew, ht, hf, hw, hy.manages _ _, ?_⟩
    rw [hy.id, ← hid]
    exact oredResult_eq (State.anyStrand_of_strand ht) hj hf hw hm

theorem Strand.flight_regates (t : Strand) (tag k : Nat) (g : Gate) (e : List Effect) :
    (t.regates tag g e).flight? k = (t.flight? k).map fun f => if f.tag == tag then f.regated g e else f := by
  refine find_updWhere (·.tag == k) (·.tag == tag) (Inflight.regated g e) t.inflight fun f => ?_
  split <;> rfl

theorem Strand.flight_tag {t : Strand} {k : Nat} {f : Inflight} (h : t.flight? k = some f) : f.tag = k := by simpa using List.find?_some h

namespace Resulted

variable {s u : State} {v : TileVal} {c : Contrib}

/-- The result of one contributor leaves every other instruction in flight. -/
theorem keeps_flight (h : Resulted s u v c) {k tag : Nat} {t : Strand} {f : Inflight} (hne : (k, tag) ≠ (c.strand, c.tag))
    (ht : s.strand? k = some t) (hf : t.flight? tag = some f) : ∃ t', u.strand? k = some t' ∧ t'.flight? tag = some f := by
  obtain ⟨tc, fc, n, y, m, htc, -, -, hy, rfl⟩ := h.made
  have hm : m.strand? k = some t := (State.strand_congr hy.strands k).trans ht
  by_cases hk : k = c.strand
  · subst hk
    refine ⟨_, ((StrandIs.refl hm).regate c.tag .engine [.bindT n y.id]).strand, ?_⟩
    have htag : f.tag ≠ c.tag := fun he => hne (by rw [← he, Strand.flight_tag hf])
    rw [Strand.flight_regates, hf, Option.map_some, if_neg (by simpa using htag)]
  · exact ⟨t, (m.strand_modStrand_other (Strand.regates c.tag .engine [.bindT n y.id]) (fun _ => rfl) hk).trans hm, hf⟩

/-- The contributor itself can complete, and will bind its handle to the new tile. -/
theorem own_flight (h : Resulted s u v c) (hids : ∀ x ∈ s.fil.tiles, x.id < s.nextId) {t : Strand} {f : Inflight} (ht : s.strand? c.strand = some t)
    (hf : t.flight? c.tag = some f) : ∃ t' n id y, u.strand? c.strand = some t' ∧ f.writes = [.t n] ∧
      t'.flight? c.tag = some { f with gate := .engine, effects := f.effects ++ [.bindT n id] } ∧ u.tile? id = some y ∧ s.tile? id = none ∧
      y.crc = v.crc ∧ y.fmt = v.fmt ∧ y.shape = v.shape := by
  obtain ⟨tc, fc, n, y, m, htc, hfc, hw, hy, rfl⟩ := h.made
  cases htc.symm.trans ht
  cases hfc.symm.trans hf
  have hm : m.strand? c.strand = some t := (State.strand_congr hy.strands _).trans ht
  have hnone : s.tile? y.id = none := List.find?_eq_none.2 fun x hx => by
    have hlt := hids x hx
    have heq := hy.id
    simp only [beq_iff_eq]
    omega
  refine ⟨_, n, y.id, y, ((StrandIs.refl hm).regate c.tag .engine [.bindT n y.id]).strand, hw, ?_, ?_, hnone, hy.crc, hy.fmt, hy.shape⟩
  · rw [Strand.flight_regates, hf, Option.map_some, if_pos (beq_iff_eq.2 (Strand.flight_tag hf))]
    rfl
  · show m.fil.tiles.find? _ = _
    rw [hy.tiles, List.find?_append, show s.fil.tiles.find? (·.id == y.id) = none from hnone]
    simp

theorem keeps_tile (h : Resulted s u v c) {id : Nat} {x : Tile} (hx : s.tile? id = some x) : u.tile? id = some x := by
  obtain ⟨-, -, n, y, m, -, -, -, hy, rfl⟩ := h.made
  show m.fil.tiles.find? _ = _
  rw [hy.tiles, List.find?_append, show s.fil.tiles.find? (·.id == id) = some x from hx]
  rfl

theorem old_tile (h : Resulted s u v c) {id : Nat} (hx : u.tile? id = none) : s.tile? id = none := by
  cases ho : s.tile? id with
  | none => rfl
  | some y => exact absurd ((h.keeps_tile ho).symm.trans hx) nofun

theorem ids (h : Resulted s u v c) (hids : ∀ x ∈ s.fil.tiles, x.id < s.nextId) : ∀ x ∈ u.fil.tiles, x.id < u.nextId := by
  obtain ⟨-, -, n, y, m, -, -, -, hy, rfl⟩ := h.made
  intro x hx
  have hlt : s.nextId < m.nextId := hy.ids
  rw [show (m.regate c.strand c.tag .engine [.bindT n y.id]).fil.tiles = s.fil.tiles ++ [y] from hy.tiles] at hx
  rcases List.mem_append.1 hx with hx | hx
  · exact (hids x hx).trans hlt
  · rw [List.mem_singleton.1 hx, hy.id]
    exact hlt

theorem unarmed (h : Resulted s u v c) : u.rd F.memFlipCtrl_arm = 0 := by
  obtain ⟨-, -, n, y, m, -, -, -, hy, rfl⟩ := h.made
  exact hy.unarmed

end Resulted

/-- The results of a list of contributors leave the instructions in flight that are not theirs, and the tiles that were there. -/
theorem Placed.keeps {v : TileVal} {l : List Contrib} {w : State} (harm : w.rd F.memFlipCtrl_arm = 0) (h : Placed v l w) :
    (∀ (k tag : Nat) (t : Strand) (f : Inflight), (∀ c ∈ l, (k, tag) ≠ (c.strand, c.tag)) → w.strand? k = some t → t.flight? tag = some f →
      ∃ t', (l.foldl (State.oredResult v) w).strand? k = some t' ∧ t'.flight? tag = some f) ∧
    ∀ (id : Nat) (x : Tile), w.tile? id = some x → (l.foldl (State.oredResult v) w).tile? id = some x := by
  induction l generalizing w with
  | nil => exact ⟨fun k tag t f _ ht hf => ⟨t, ht, hf⟩, fun id x hx => hx⟩
  | cons c l ih =>
    have hc := Placed.results harm h
    obtain ⟨hflight, htile⟩ := ih hc.unarmed h.2
    refine ⟨fun k tag t f hne ht hf => ?_, fun id x hx => htile id x (hc.keeps_tile hx)⟩
    obtain ⟨hne, hl⟩ := List.forall_mem_cons.1 hne
    obtain ⟨t', ht', hf'⟩ := hc.keeps_flight hne ht hf
    exact hflight k tag t' f hl ht' hf'

/-- Every contributor that has a place can complete with a tile of its own. -/
theorem Placed.own_flights {v : TileVal} {l : List Contrib} {w : State} (hn : (l.map fun c => (c.strand, c.tag)).Nodup)
    (hids : ∀ x ∈ w.fil.tiles, x.id < w.nextId) (harm : w.rd F.memFlipCtrl_arm = 0) (h : Placed v l w) : ∀ c ∈ l, ∀ (t : Strand) (f : Inflight),
      w.strand? c.strand = some t → t.flight? c.tag = some f → ∃ (t' : Strand) (n id : Nat) (y : Tile),
        (l.foldl (State.oredResult v) w).strand? c.strand = some t' ∧ f.writes = [.t n] ∧
        t'.flight? c.tag = some { f with gate := .engine, effects := f.effects ++ [.bindT n id] } ∧
        (l.foldl (State.oredResult v) w).tile? id = some y ∧ w.tile? id = none ∧ y.crc = v.crc ∧ y.fmt = v.fmt ∧ y.shape = v.shape := by
  induction l generalizing w with
  | nil => nofun
  | cons d l ih =>
    have hd := Placed.results harm h
    rw [List.map_cons, List.nodup_cons] at hn
    have hother : ∀ c ∈ l, (d.strand, d.tag) ≠ (c.strand, c.tag) := fun c hc heq => hn.1 (List.mem_map.2 ⟨c, hc, heq.symm⟩)
    intro c hc t f ht hf
    rcases List.mem_cons.1 hc with rfl | hc
    · obtain ⟨t', n, id, y, ht', hw, hf', hy, hnone, hval⟩ := hd.own_flight hids ht hf
      obtain ⟨hflight, htile⟩ := Placed.keeps hd.unarmed h.2
      obtain ⟨t'', ht'', hf''⟩ := hflight _ _ _ _ hother ht' hf'
      exact ⟨t'', n, id, y, ht'', hw, hf'', htile id y hy, hnone, hval⟩
    · obtain ⟨t1, ht1, hf1⟩ := hd.keeps_flight (hother c hc).symm ht hf
      obtain ⟨t', n, id, y, ht', hw, hf', hy, hnone, hval⟩ := ih hn.2 (hd.ids hids) hd.unarmed h.2 c hc t1 f ht1 hf1
      exact ⟨t', n, id, y, ht', hw, hf', hy, hd.old_tile hnone, hval⟩

/-! ## The timeout of a slot (R53) -/

/-- An incomplete slot past the limit: the strand of its first contribution faults. -/
theorem execOredSlotTimeout_faults {s : State} {job slot : Nat} {hew : Bool} {r : Ored} {j : Job} {c : Contrib} {l : List Contrib} {t : Strand}
    (hr : s.ored? job hew slot = some r) (hj : s.job? job = some j) (hc : r.contribs = c :: l) (hlen : r.contribs.length ≠ r.n)
    (ht : s.anyStrand? c.strand = some t) (hp : s.limitPassed j r.since = true) : ∃ cls func pc,
      execOredSlotTimeout job hew slot s = .next (s.strandFault c.strand cls func pc cFence 0) := by
  have hguard : ¬ (r.contribs.length = r.n ∨ (!s.limitPassed j r.since) = true) := by simp [hlen, hp]
  unfold execOredSlotTimeout
  simp only [hr, hj]
  split
  next hnil => cases hnil.symm.trans hc
  next d k hcons =>
    cases hcons.symm.trans hc
    rw [if_neg hguard]
    simp only [ht]
    cases hew with
    | true => exact ⟨_, _, _, rfl⟩
    | false => exact ⟨_, _, _, rfl⟩

/-- Before the limit nothing changes. -/
theorem execOredSlotTimeout_early {s : State} {job slot : Nat} {hew : Bool} {r : Ored} {j : Job} (hr : s.ored? job hew slot = some r)
    (hj : s.job? job = some j) (hp : s.limitPassed j r.since = false) : execOredSlotTimeout job hew slot s = .next s := by
  unfold execOredSlotTimeout
  simp only [hr, hj]
  split
  · rfl
  · rw [if_pos (Or.inr (by rw [hp]; rfl))]

/-- Settles O33: a slot keeps its contributions until the last one, which gives every contributor the result. -/
theorem orderedReductions : Obligations.OrderedReductions := by
  refine ⟨fun o s t j => ⟨fun h hfits => ?_, fun x v a h hx hp hfmt hfits => ?_⟩, fun w v l hn hids harm hplaced => Placed.own_flights hn hids harm hplaced,
    fun job slot hew s r j c l t hr hj hc hlen ht htj => ⟨fun h0 hpassed hstatus => ?_, fun hearly => ?_⟩⟩
  · have hr : SlotFor s j o t false (oredFn o) 0 _ := ⟨rfl, hfits⟩
    refine ⟨fun hmissing => execSynOred_waits h hr rfl hmissing, fun hlast hnodup => execSynOred_completes h hr rfl hlast hnodup ?_⟩
    unfold Ored.scalarResult Ored.ordered
    rw [List.map_map, show (Ored.plus _ _).op = oredFn o from hr.accepts.2.2.1]
    rfl
  · have hr : SlotFor s j o t true 0 x.shape _ := ⟨rfl, hfits⟩
    refine ⟨fun hmissing => ?_, fun hlast => ?_, fun hone hnone htag room => execHewOred_alone h hx hp hfmt hr hone hnone htag rfl room⟩
    · obtain ⟨u, hrun, fl, hu⟩ := execHewOred_waits h hx hp hfmt hr hmissing
      exact ⟨u, hrun, ⟨fl, hu.gate, hu.effects, hu.strand.strand, hu.slot⟩, hu.strand.others, hu.strand.mem, hu.regs⟩
    · obtain ⟨u, hrun, w, fl, hw, hu⟩ := execHewOred_completes h hx hp hfmt hr hlast
      refine ⟨u, hrun, w, fl, hw.gate, hw.effects, hw.writes, hw.strand.strand, hw.strand.others, hw.strand.mem, hw.allocs, hw.slot, hu.trans ?_⟩
      unfold State.finishOred Ored.tileResult Ored.ordered
      rw [show (Ored.plus _ _).shape = x.shape from hr.accepts.2.2.2.2.1]
      rfl
  · obtain ⟨cls, func, pc, hrun⟩ := execOredSlotTimeout_faults hr hj hc hlen ht ((s.limitPassed_iff j r.since).2 ⟨h0, hpassed⟩)
    obtain ⟨hmem, hends, hfailed, -⟩ := State.strandFault_does (cls := cls) (func := func) (pc := pc) (cause := cFence) (addr := 0) ht
      (htj.symm ▸ hj)
    exact ⟨_, hrun, htj ▸ hends, ⟨_, htj ▸ hfailed hstatus, rfl, rfl⟩, hmem⟩
  · refine execOredSlotTimeout_early hr hj (Bool.eq_false_iff.2 fun hp => ?_)
    have hpassed := (s.limitPassed_iff j r.since).1 hp
    omega

end Sys2Proof.Machine
end

section
/-! PROOFS. Scans, tombstones, routes and the opening of a version (R97, R98, R173, R184, R191, R218, R219). -/
namespace Sys2Proof.Machine
open Sys2Proof.Claims

/-! ## SLU.SCAN (R97, R218, R219) -/

/-- An engine instruction that makes one tile, and tracks further reads. -/
theorem tileEngine_makes {s u : State} {f : Form} {o : Insn} {t : Strand} {j : Job} {v : TileVal} {a : Nat} {reads : List Res}
    {body : Strand → Job → M TileVal} (h : Issues s f o t j) (hc : t.clear reads [] = true) (hr : TileReads (s.moved o t) u)
    (room : RoomAt s t j v.data.length a) (hb : (body t j).run (s.moved o t) = .ok v u) :
    CompletesWith (tileEngine f o s reads body) fun w => MakesTile s w o t v a := by
  unfold tileEngine
  refine makesTile_ok h hc hr room fun w hw => ?_
  rw [M.run_bind_ok (quotaFirst_ok _ _ _ hb), M.run_bind_ok hw]
  rfl

/-- A cage whose slots are all of the scan's code. -/
theorem cageSlots_run {u : State} {t : Strand} {o : Insn} {qs : List Slot} (h : (List.range (o.fld 0 4)).map t.getQ = qs.map some)
    (hq : ∀ q ∈ qs, q.code = o.fld 4 2 ∧ q.subq8 = (o.fld 6 1 == 1)) : (cageSlots t o).run u = .ok qs u := by
  unfold cageSlots
  rw [M.run_bind_ok (slots_run h), need_pure _ _ (by
    rw [List.all_eq_true]
    exact fun q hm => by simp [hq q hm])]
  rfl

/-- The candidates of a scan: none in an empty view, and else those of the side list. -/
def scanCands (s : State) (d : Dsc) (b : List Byte) (snap : Nat) : List Cand × Nat :=
  if d.len = 0 then ([], 0) else sideCands s d.base b (d.len / 128) snap

theorem sideCands_moved (s : State) (o : Insn) (t : Strand) (a : Nat) (b : List Byte) (n snap : Nat) :
    sideCands (s.moved o t) a b n snap = sideCands s a b n snap := by
  unfold sideCands
  rfl

theorem execSluScan_makes {s : State} {o : Insn} {t : Strand} {j : Job} {a : Nat} {qs : List Slot} {b : List Byte} {cs : List Cand × Nat} {v : TileVal}
    (h : Issues s Form.sluScan o t j) (hstable : (t.getS 62).toNat ≤ s.tally.stable) (hold : s.oldest j.act ≤ (t.getS 62).toNat)
    (hc : t.clear (cageReads o) [] = true) (hslots : (List.range (o.fld 0 4)).map t.getQ = qs.map some)
    (hq : ∀ q ∈ qs, q.code = o.fld 4 2 ∧ q.subq8 = (o.fld 6 1 == 1))
    (hview : if (decodeDsc (t.getD o.a)).len = 0 then Usable (t.getD o.a) [0] false true ∧ b = []
      else OnBlocks (t.getD o.a) ∧ ReadsView s j (t.getD o.a) (decodeDsc (t.getD o.a)).len b)
    (hcs : cs = scanCands s (decodeDsc (t.getD o.a)) b (t.getS 62).toNat) (hv : v = scanList s.self (o.fld 8 13) (o.fld 7 1 == 1) qs cs.1)
    (room : RoomAt s t j v.data.length a) : CompletesWith (execSluScan o s) fun u =>
      MakesTile s u o t v a [.telem 0x406 (overflows v), .telem 0x407 cs.2] := by
  refine makesTile_ok h hc (.refl _) room fun w hw => ?_
  have hdsc : useDsc (t.getD o.a) [0] false true = (pure (decodeDsc (t.getD o.a)) : M Dsc) := by
    split at hview
    · exact useDsc_pure hview.1
    · exact (hview.2.runs o t).1 true
  subst hv
  refine (M.run_bind_ok (snapshotFor_run 6 0 o hstable)).trans ?_
  refine (M.run_bind_ok (cageSlots_run hslots hq)).trans ?_
  rw [hdsc, M.bind_pure]
  refine (M.run_bind_ok (M.run_get _)).trans ?_
  rw [need_pure _ _ (decide_eq_true (show (s.moved o t).oldest j.act ≤ _ from hold)), M.bind_pure]
  have hrest : ∀ c, c = cs → (do
      let v := scanList (← get).self (o.fld 8 13) (o.fld 7 1 == 1) qs c.1
      let id ← newTile t j v
      pure [.bindT o.dst id, .telem 0x406 (overflows v), .telem 0x407 c.2] : M (List Effect)).run (s.moved o t) = .ok (.bindT o.dst s.nextId ::
        [.telem 0x406 (overflows (scanList s.self (o.fld 8 13) (o.fld 7 1 == 1) qs cs.1)), .telem 0x407 cs.2]) w := by
    rintro c rfl
    rw [M.run_bind_ok (M.run_get _), show (s.moved o t).self = s.self from rfl]
    simp only []
    rw [M.run_bind_ok hw]
    rfl
  by_cases hlen : (decodeDsc (t.getD o.a)).len = 0
  · refine (congrArg (fun m : M (List Effect) => m.run _) (if_pos hlen)).trans ?_
    exact hrest ([], 0) (by rw [hcs, scanCands, if_pos hlen])
  · rw [if_neg hlen] at hview
    obtain ⟨hblocks, hreads⟩ := hview
    obtain ⟨-, -, hblock, -, hwait, -, hmem⟩ := hreads.runs o t
    refine (congrArg (fun m : M (List Effect) => m.run _) (if_neg hlen)).trans ?_
    rw [M.run_bind_ok (hblock hblocks), M.run_bind_ok hwait, M.run_bind_ok (M.run_get _), hmem]
    refine (M.run_bind_ok (M.run_set _ _)).trans ?_
    exact hrest (sideCands (s.moved o t) (decodeDsc (t.getD o.a)).base b ((decodeDsc (t.getD o.a)).len / 128) (t.getS 62).toNat)
      (by rw [hcs, scanCands, if_neg hlen, sideCands_moved])

/-! ## IDX.TOMB (R184, R512) -/

theorem TileReads.holder {s u : State} (g : TileReads s u) (write : Bool) (a n : Nat) : u.holder write a n = s.holder write a n := by
  have hwnz := congrArg State.wnz g.1
  unfold State.holder State.rangeHolder State.portHolder
  rw [show u.wnz = s.wnz from hwnz]

/-- The entries of a list with beats that no tombstone removes, lane by lane. -/
def untombed (ts : List Tomb) (v : TileVal) (l : ListInfo) (bs : List (List (Option Nat))) : List (List (Entry × Option Nat)) :=
  (lanesOf v l).zipIdx.map fun e => (e.1.1.zip (bs.getD e.2 [])).filter fun e => !tombed ts e.1.id e.2

/-- The list that IDX.TOMB makes. -/
def tombList (ts : List Tomb) (v : TileVal) (l : ListInfo) (bs : List (List (Option Nat))) : TileVal :=
  listTile l.kind l.stride ((untombed ts v l bs).map fun e => e.map (·.1)) ((lanesOf v l).map (·.2))
    (some ((untombed ts v l bs).map fun e => e.map (·.2)))

theorem tombList_eq (ts : List Tomb) (v : TileVal) (l : ListInfo) (bs : List (List (Option Nat))) :
    (let ls := (lanesOf v l).zipIdx.map fun e => ((e.1.1.zip (bs.getD e.2 [])).filter (fun x => !tombed ts x.1.id x.2), e.1.2)
     listTile l.kind l.stride (ls.map fun x => x.1.map (·.1)) (ls.map (·.2)) (some (ls.map fun x => x.1.map (·.2)))) = tombList ts v l bs := by
  have hdirs : (lanesOf v l).zipIdx.map (fun e => e.1.2) = (lanesOf v l).map (·.2) := by
    conv_rhs => rw [← List.zipIdx_map_fst 0 (lanesOf v l), List.map_map]
    rfl
  unfold tombList untombed
  simp only [List.map_map, ← hdirs]
  rfl

/-- The tombstones of a view that a snapshot sees. -/
def tombsAt (b : List Byte) (snap : Nat) : List Tomb := (tombsOf b).filter fun x => decide (x.commit ≤ snap)

theorem execIdxTomb_makes {s : State} {o : Insn} {t : Strand} {j : Job} {a : Nat} {x : Tile} {v : TileVal} {l : ListInfo}
    {bs : List (List (Option Nat))} {b : List Byte} {out : TileVal} (h : Issues s Form.idxTomb o t j)
    (hstable : (t.getS 62).toNat ≤ s.tally.stable) (hold : s.oldest j.act ≤ (t.getS 62).toNat) (hc : t.clear [.s 62] [] = true)
    (hx : AtRest s t o.a x v) (hfmt : x.fmt = 8) (hl : v.info = some l) (hbs : l.beats = some bs)
    (hview : if (decodeDsc (t.getD o.b)).len = 0 then Usable (t.getD o.b) [0] false true ∧ b = []
      else ReadsView s j (t.getD o.b) (decodeDsc (t.getD o.b)).len b)
    (hout : out = tombList (tombsAt b (t.getS 62).toNat) v l bs) (room : RoomAt s t j out.data.length a) :
    CompletesWith (execIdxTomb o s) fun u => MakesTile s u o t out a := by
  have hinfo : x.info = some l := hx.fmt.2.2.2.2.symm.trans hl
  have hok : (x.fmt == 8 && match x.info with
      | some l => l.beats.isSome
      | none => false) = true := by simp only [hfmt, hinfo, hbs]; rfl
  obtain ⟨u, hu, g⟩ := useTile_run (j := j) false (hx.toAtHome.moved (t' := t) o) nofun
  have hdsc : useDsc (t.getD o.b) [0] false true = (pure (decodeDsc (t.getD o.b)) : M Dsc) := by
    split at hview
    · exact useDsc_pure hview.1
    · exact (hview.runs o t).1 true
  refine tileEngine_makes h hc g room ?_
  refine (M.run_bind_ok (snapshotFor_run 9 5 o hstable)).trans ?_
  refine (M.run_bind_ok (tileAt_run _ hx.handle (show (s.moved o t).tile? x.id = some x from hx.tile) hok)).trans ?_
  rw [hdsc, M.bind_pure]
  refine (M.run_bind_ok (M.run_get _)).trans ?_
  rw [need_pure _ _ (decide_eq_true (show (s.moved o t).oldest j.act ≤ _ from hold)), M.bind_pure]
  have hrest : ∀ ts : List Tomb, (do
      let l ← orFault v.info cTile
      let beats ← orFault l.beats cTile
      let ls := (lanesOf v l).zipIdx.map fun e => ((e.1.1.zip (beats.getD e.2 [])).filter (fun x => !tombed ts x.1.id x.2), e.1.2)
      pure (listTile l.kind l.stride (ls.map fun x => x.1.map (·.1)) (ls.map (·.2)) (some (ls.map fun x => x.1.map (·.2)))) : M TileVal).run u =
      .ok (tombList ts v l bs) u := fun ts => by
    rw [orFault_pure _ _ hl, M.bind_pure, orFault_pure _ _ hbs, M.bind_pure, ← tombList_eq]
    rfl
  by_cases hlen : (decodeDsc (t.getD o.b)).len = 0
  · rw [if_pos hlen] at hview
    refine (congrArg (fun m : M TileVal => m.run _) (if_neg (not_not.2 hlen))).trans ?_
    refine (M.run_bind_ok hu).trans ?_
    refine (congrArg (fun m : M TileVal => m.run _) (if_pos hlen)).trans ?_
    rw [hout, hview.2]
    exact hrest []
  · rw [if_neg hlen] at hview
    obtain ⟨-, -, -, hcheck, hwait, hread, hmem⟩ := hview.runs o t
    obtain ⟨-, -, -, hheld, hreg, hclean, hawake, hb⟩ := hview
    have hquiet : (readOrd (decodeDsc (t.getD o.b)).base (decodeDsc (t.getD o.b)).len).run u = .ok b u := by
      rw [readOrd_quiet ((g.holder _ _ _).trans hheld) hreg (by rw [g.mem]; exact hclean) ((g.rd _ (by decide)).trans hawake), g.readMem hreg hclean hawake, hmem]
    refine (congrArg (fun m : M TileVal => m.run _) (if_pos hlen)).trans ?_
    refine (M.run_bind_ok (M.run_get _)).trans ?_
    refine (M.run_bind_ok (hcheck _)).trans ?_
    refine (M.run_bind_ok hwait).trans ?_
    refine (M.run_bind_ok hu).trans ?_
    refine (congrArg (fun m : M TileVal => m.run _) (if_neg hlen)).trans ?_
    refine (M.run_bind_ok hquiet).trans ?_
    rw [hout]
    exact hrest (tombsAt b (t.getS 62).toNat)

/-! ## IDX.ROUTE (R191, R201) -/

/-- The list of the seams that a snapshot's graph finds for a query. -/
def routeList (i : Index) (snap nprobe : Nat) (q : List Nat) : TileVal :=
  let found := match i.graphAt snap with
    | some g => i.route g q nprobe (·.retiredAt snap)
    | none => []
  listTile 1 nprobe [found.map fun x => ⟨x.1, 0, x.2.homeAt snap, 0, x.2.seam, 0⟩] [(false, false, Acc320.zero)] none

theorem TileReads.oldest {s u : State} (g : TileReads s u) (act : Nat) : u.oldest act = s.oldest act := by
  have hidx := congrArg State.idx g.1
  unfold State.oldest State.index?
  rw [show u.idx = s.idx from hidx, g.tally]

theorem indexOf_run {s : State} {j : Job} {i : Index} (cause : Nat) (h : s.index? j.act = some i) : (indexOf j cause).run s = .ok i s := by
  unfold indexOf
  rw [M.run_bind_ok (M.run_get s), orFault_pure _ _ h]
  rfl

theorem execIdxRoute_makes {s : State} {o : Insn} {t : Strand} {j : Job} {a : Nat} {i : Index} {q : List Nat} {out : TileVal}
    (h : Issues s Form.idxRoute o t j) (hstable : (t.getS 62).toNat ≤ s.tally.stable) (hold : s.oldest j.act ≤ (t.getS 62).toNat)
    (hi : s.index? j.act = some i) (hq : VectorAt s t j o.a i.dim q) (hc : t.clear (.s 62 :: (vecHandles o.a i.dim).map Res.t) [] = true)
    (hout : out = routeList i (t.getS 62).toNat (o.fld 0 12) q) (room : RoomAt s t j out.data.length a) :
    CompletesWith (execIdxRoute o s) fun u => MakesTile s u o t out a := by
  obtain ⟨u, hu, g⟩ := vectorAt_run o hq
  have hreads : s.vecReads o.strand o.a = (vecHandles o.a i.dim).map Res.t := by
    unfold State.vecReads
    rw [h.strand, Option.bind_some, h.job, Option.bind_some, hi]
  refine tileEngine_makes h (by rw [hreads]; exact hc) g room ?_
  refine (M.run_bind_ok (snapshotFor_run 9 1 o hstable)).trans ?_
  refine (M.run_bind_ok (indexOf_run cTile (show (s.moved o t).index? j.act = some i from hi))).trans ?_
  refine (M.run_bind_ok hu).trans ?_
  have hfresh : ¬ (t.getS 62).toNat < u.oldest j.act := by
    rw [g.oldest]
    exact Nat.not_lt.2 hold
  refine (M.run_bind_ok (M.run_get _)).trans ?_
  rw [hout]
  simp only [if_neg hfresh]
  rfl

/-! ## IDX.OPEN (R173, R511) -/

/-- The view of a version that IDX.OPEN gives: codes, attributes, or the side entries or tombstones after its watermark. -/
def openedView (sel : Nat) (i : Index) (x : Seam) (v : Version) : Nat × Nat :=
  match sel with
  | 0 => (v.codeAt, v.npad * i.codeBytes)
  | 1 => (v.attrAt i, v.npad * i.attrRatio)
  | 2 => (x.recAt false v.sideSeq, (x.nextSide - v.sideSeq) * 128)
  | _ => (x.recAt true v.tombSeq, (x.nextTomb - v.tombSeq) * 32)

theorem openedView_eq (sel : Nat) (i : Index) (x : Seam) (v : Version) : openedView sel i x v =
    if sel = 0 then (v.codeAt, v.npad * i.codeBytes) else if sel = 1 then (v.attrAt i, v.npad * i.attrRatio)
    else if sel = 2 then (x.recAt false v.sideSeq, (x.nextSide - v.sideSeq) * 128)
    else (x.recAt true v.tombSeq, (x.nextTomb - v.tombSeq) * 32) := by
  unfold openedView
  split <;> simp_all

/-- A version that a snapshot sees. -/
theorem State.visible_of {s : State} {act seam snap : Nat} {i : Index} {g : Graph} {r : HfRec} {x : Seam} {v : Version}
    (hi : s.index? act = some i) (hg : i.graphAt snap = some g) (hr : g.rec? seam = some r) (hx : i.seam? seam = some x)
    (hold : s.oldest act ≤ snap) (hhome : r.homeAt snap = s.self) (hretired : r.retiredAt snap = false)
    (hv : x.versions.find? (fun v => decide (v.cut ≤ snap ∧ v.publish ≤ s.tally.beat)) = some v) : s.visible act seam snap = some (i, x, v) := by
  have hseen : ¬ (snap < s.oldest act || r.homeAt snap != s.self || r.retiredAt snap) = true := by simp [hhome, hretired, hold]
  unfold State.visible
  simp only [hi, hg, hr, hx, Option.bind_eq_bind, Option.bind_some]
  rw [if_neg hseen]
  exact (congrArg (Option.bind · _) hv).trans rfl

/-- A job put among readers. -/
def putReader (job : Nat) (l : List Nat) : List Nat := if l.contains job then l else l ++ [job]

theorem mem_putReader (job : Nat) (l : List Nat) : job ∈ putReader job l := by
  unfold putReader
  split
  next h => simpa using h
  next => simp

/-- A seam with a job among the readers of a version and of the current extents. -/
def Seam.readBy (num job : Nat) (x : Seam) : Seam :=
  { x with
    versions := updWhere (·.num == num) (fun v => { v with readers := putReader job v.readers }) x.versions
    side := { x.side with readers := putReader job x.side.readers }
    tomb := { x.tomb with readers := putReader job x.tomb.readers } }

theorem State.addReader_seam {s : State} {act seam num job : Nat} {i : Index} {x : Seam} (hi : s.index? act = some i) (hx : i.seam? seam = some x) :
    ((s.addReader act seam num job).index? act).bind (·.seam? seam) = some (x.readBy num job) := by
  have hact : i.act = act := by simpa using List.find?_some hi
  have hseam : x.seam = seam := by simpa using List.find?_some hx
  have hindex : (s.addReader act seam num job).index? act = some { i with seams := updWhere (·.seam == seam) (Seam.readBy num job) i.seams } := by
    refine (find_updWhere (·.act == act) (·.act == act) (fun i : Index => { i with seams := updWhere (·.seam == seam) (Seam.readBy num job) i.seams })
      s.idx.indexes fun i => by split <;> rfl).trans ?_
    rw [show s.idx.indexes.find? (·.act == act) = some i from hi, Option.map_some, if_pos (beq_iff_eq.2 hact)]
  rw [hindex, Option.bind_some]
  refine (find_updWhere (·.seam == seam) (·.seam == seam) (Seam.readBy num job) i.seams fun x => by split <;> rfl).trans ?_
  rw [show i.seams.find? (·.seam == seam) = some x from hx, Option.map_some, if_pos (beq_iff_eq.2 hseam)]

theorem Seam.readBy_version {x : Seam} {v : Version} (job : Nat) (h : v ∈ x.versions) :
    ∃ w ∈ (x.readBy v.num job).versions, w.num = v.num ∧ job ∈ w.readers :=
  ⟨{ v with readers := putReader job v.readers }, List.mem_map.2 ⟨v, h, if_pos (beq_iff_eq.2 rfl)⟩, rfl, mem_putReader _ _⟩

/-- A version opened: its view is noted for the job, which is among the readers. -/
def State.opens (s : State) (j : Job) (seam : Nat) (v : Version) (view : Nat × Nat) : State :=
  let s := s.addReader j.act seam v.num j.id
  { s with idx := { s.idx with opened := s.idx.opened ++ [(j.id, view.1, view.2)] } }

theorem execIdxOpen_opens {s : State} {o : Insn} {t : Strand} {j : Job} {i : Index} {x : Seam} {v : Version} {view : Nat × Nat}
    (h : Issues s Form.idxOpen o t j) (hc : t.clear [.s 62] (presWrites o) = true) (hstable : (t.getS 62).toNat ≤ s.tally.stable)
    (hv : s.visible j.act (t.getS o.a).toNat (t.getS 62).toNat = some (i, x, v)) (hview : view = openedView (o.fld 0 2) i x v) :
    ∃ w, execIdxOpen o s = .next w ∧ InFlight s w o t (.setD o.dst (encodeDsc view.1 view.2 true) :: setPres o true) ∧
      { w with fil := { w.fil with strands := ((s.moved o t).opens j (t.getS o.a).toNat v view).fil.strands },
               nextId := ((s.moved o t).opens j (t.getS o.a).toNat v view).nextId } = (s.moved o t).opens j (t.getS o.a).toNat v view := by
  refine engine_flight h hc (by rfl) ?_
  refine (M.run_bind_ok (snapshotFor_run 9 0 o hstable)).trans ?_
  refine (M.run_bind_ok (M.run_get _)).trans ?_
  have hmoved : (s.moved o t).visible j.act (t.getS o.a).toNat (t.getS 62).toNat = some (i, x, v) := hv
  rw [hmoved, hview]
  rfl

/-- IDX.OPEN of a seam that the snapshot does not open on this node. -/
theorem execIdxOpen_absent {s : State} {o : Insn} {t : Strand} {j : Job} (h : Issues s Form.idxOpen o t j)
    (hc : t.clear [.s 62] (presWrites o) = true) (hstable : (t.getS 62).toNat ≤ s.tally.stable)
    (hv : s.visible j.act (t.getS o.a).toNat (t.getS 62).toNat = none) :
    ∃ w, execIdxOpen o s = .next w ∧ InFlight s w o t (.setD o.dst 0#128 :: setPres o false) ∧
      { w with fil := { w.fil with strands := (s.moved o t).fil.strands }, nextId := (s.moved o t).nextId } = s.moved o t := by
  refine engine_flight h hc rfl ?_
  refine (M.run_bind_ok (snapshotFor_run 9 0 o hstable)).trans ?_
  refine (M.run_bind_ok (M.run_get _)).trans ?_
  have hmoved : (s.moved o t).visible j.act (t.getS o.a).toNat (t.getS 62).toNat = none := hv
  rw [hmoved]
  rfl

/-- Settles O35: each search instruction is run over its operands, which are read where they stand. -/
theorem scanResults : Obligations.ScanResults := by
  refine ⟨fun o s t j a hstable hold => ⟨fun qs b h hc hslots hq hview room => ?_, fun x v l bs b h hc hx hfmt hl hbs hview room => ?_,
    fun i q h hi hq hc room => ?_, fun i g r x v h hc hi hg hr hx hhome hretired hv => ?_⟩, fun o s t j h hc hstable hnone => ?_⟩
  · exact execSluScan_makes h hstable hold hc hslots hq hview rfl rfl room
  · exact execIdxTomb_makes h hstable hold hc hx hfmt hl hbs hview rfl room
  · exact execIdxRoute_makes h hstable hold hi hq hc rfl room
  · have hvis := State.visible_of hi hg hr hx hold hhome hretired hv
    obtain ⟨w, hrun, hin, hrest⟩ := execIdxOpen_opens h hc hstable hvis (openedView_eq (o.fld 0 2) i x v).symm
    have hidx := congrArg State.idx hrest
    change w.idx = _ at hidx
    have hseam := State.addReader_seam (s := s) (num := v.num) (job := j.id) hi hx
    refine ⟨w, hrun, hin, by rw [hidx]; rfl, ⟨x.readBy v.num j.id, ?_, mem_putReader _ _, mem_putReader _ _,
      Seam.readBy_version j.id (List.mem_of_find?_eq_some hv)⟩, ?_⟩
    · unfold State.index? at *
      rw [hidx]
      exact hseam
    · have := congrArg (fun u : State => { u with idx := s.idx, nextId := s.nextId, fil := { u.fil with strands := s.fil.strands } }) hrest
      exact this
  · obtain ⟨w, hrun, hin, hrest⟩ := execIdxOpen_absent h hc hstable hnone
    have := congrArg (fun u : State => { u with nextId := s.nextId, fil := { u.fil with strands := s.fil.strands } }) hrest
    exact ⟨w, hrun, hin, this⟩

end Sys2Proof.Machine
end

section
/-! PROOFS. The issue of WNZ instructions to the dispatcher (R96, R97, R232, R233, R268, R270). -/
namespace Sys2Proof.Machine
open Sys2Proof.Claims

/-! ## The dispatcher (R233) -/

/-- An operation as the dispatcher takes it. -/
def takenOp (u : State) (f : Form) (o : Insn) (j : Job) (op : WnzOp) : WnzOp :=
  { op with id := u.nextId, act := j.act, job := j.id, func := f.func, imm := o.imm.toNat, strand := o.strand, tag := u.nextId + 1, issued := u.now }

/-- An instruction in flight that waits for its operation, which stands at the dispatcher. -/
def State.dispatches (u : State) (f : Form) (o : Insn) (t : Strand) (j : Job) (op : WnzOp) (reads : List Res) (effects : List Effect) : State :=
  let s := u.fresh.fresh.modStrand o.strand fun v =>
    { v with inflight := v.inflight ++ [flightOf f o t u.fresh (.winze u.nextId) reads [] effects] }
  { s with wnz := { s.wnz with ops := s.wnz.ops ++ [takenOp u f o j op] } }

theorem dispatch_run (u : State) (f : Form) (o : Insn) (t : Strand) (j : Job) (op : WnzOp) (reads : List Res) (effects : List Effect) :
    (dispatch f o t j op reads effects).run u = .ok () (u.dispatches f o t j op reads effects) := by
  unfold dispatch
  rw [M.run_bind_ok (M.run_get u), M.run_bind_ok (M.run_get u), M.run_bind_ok (M.run_upd _ _), M.run_bind_ok (M.run_get _)]
  rfl

theorem State.dispatches_does {s u : State} {o : Insn} {t : Strand} (f : Form) (j : Job) {op : WnzOp} (reads : List Res) (effects : List Effect)
    (ht : s.strand? o.strand = some t) (hs : u.fil.strands = (s.moved o t).fil.strands) (hw : u.wnz = s.wnz) (hr : op.registered = false) :
    Dispatched s (u.dispatches f o t j op reads effects) o t j f (takenOp u f o j op) effects := by
  have hin := ((StrandIs.moved ht).congr (w := { u.fresh.fresh with mem := s.mem }) hs rfl).modStrand
    (fun v => { v with inflight := v.inflight ++ [flightOf f o t u.fresh (.winze u.nextId) reads [] effects] }) (fun _ => rfl) fun _ => rfl
  refine ⟨⟨_, rfl, rfl, rfl, hin.strand⟩, hin.others, ?_, rfl, rfl, rfl, rfl, rfl, hr⟩
  unfold State.dispatches
  simp only [State.modStrand, State.fresh, hw]

theorem State.dispatches_rest (s : State) (f : Form) (o : Insn) (t : Strand) (j : Job) (op : WnzOp) (reads : List Res) (effects : List Effect) :
    { (s.moved o t).dispatches f o t j op reads effects with
      nextId := s.nextId
      wnz := s.wnz
      fil := { ((s.moved o t).dispatches f o t j op reads effects).fil with strands := s.fil.strands } } = s := by
  unfold State.dispatches State.moved State.modStrand State.fresh
  rfl

/-! ## Operands (R82, R96, R232) -/

theorem alignedAll_pure {l : List (Right × Dsc)} (h : ∀ e ∈ l, e.2.base % 64 = 0 ∧ e.2.len % 64 = 0) :
    l.forM (fun e => aligned64 e.2 0) = (pure () : M Unit) := by
  induction l with
  | nil => rfl
  | cons e l ih =>
    obtain ⟨he, hl⟩ := List.forall_mem_cons.1 h
    have hone : aligned64 e.2 0 = (pure () : M Unit) := need_pure _ _ (decide_eq_true he)
    show (aligned64 e.2 0 >>= fun _ => l.forM fun e => aligned64 e.2 0) = _
    rw [hone, M.bind_pure, ih hl]

/-- The operands of a WNZ instruction that are aligned and granted pass. -/
theorem winzeRights_run {u : State} {j : Job} {l : List (Right × Dsc)} (h : ∀ e ∈ l, e.2.len ≠ 0 → (e.2.base % 64 = 0 ∧ e.2.len % 64 = 0) ∧
    MayUse u j e.1 e.2.base e.2.len ∧ MayUse u j .winze e.2.base e.2.len) : (winzeRights j l).run u = .ok () u := by
  have hkept : ∀ e ∈ l.filter (·.2.len != 0), (e.2.base % 64 = 0 ∧ e.2.len % 64 = 0) ∧
      MayUse u j e.1 e.2.base e.2.len ∧ MayUse u j .winze e.2.base e.2.len := fun e he =>
    h e (List.mem_filter.1 he).1 (by simpa using (List.mem_filter.1 he).2)
  unfold winzeRights
  simp only []
  rw [alignedAll_pure fun e he => (hkept e he).1, M.bind_pure, M.run_bind_ok (M.run_get _)]
  refine checkAll_run _ fun e he => ?_
  obtain ⟨d, hd, hin⟩ := List.mem_flatMap.1 he
  obtain ⟨-, hright, hwinze⟩ := hkept d hd
  rcases List.mem_cons.1 hin with rfl | hin
  · exact hright
  · rw [List.mem_singleton.1 hin]
    exact hwinze

/-- An operand that passes R96 and R232, as the checks see it once the strand has moved on. -/
theorem WinzeOperand.passes {s : State} {j : Job} {v : BitVec 128} {r : Right} {crew : Bool} (h : WinzeOperand s j v r crew) (o : Insn) (t : Strand) :
    ((decodeDsc v).base % 64 = 0 ∧ (decodeDsc v).len % 64 = 0) ∧ MayUse (s.moved o t) j r (decodeDsc v).base (decodeDsc v).len ∧
    MayUse (s.moved o t) j .winze (decodeDsc v).base (decodeDsc v).len := by
  obtain ⟨-, hblocks, hmay, hwinze, -⟩ := h
  exact ⟨hblocks, hmay.moved o t, hwinze.moved o t⟩

/-! ## BAG, GATHER and UPD (R268, R270) -/

/-- A table with no swap pending is looked up as it stands. -/
theorem State.lookup_run {s : State} {act num : Nat} {tb : Table} (h : s.table? act num = some tb) (hswap : tb.swap = none) :
    s.lookup act num = (some tb, s) := by
  have hsame : s.swapTable act num = s := by
    unfold State.swapTable
    rw [h, Option.bind_some, hswap]
    rfl
  unfold State.lookup
  simp only [hsame, h]

/-- The operation of a table function. -/
def tableWnz (dst : Bool) (d e : Dsc) (tb : Table) : WnzOp :=
  { WnzOp.blank with
    srcs := if dst then [(d.base, d.len), (tb.base, tb.len)] else [(d.base, d.len)]
    dsts := if dst then [(e.base, e.len)] else [(tb.base, tb.len)]
    table := tb.num, version := tb.version, base := tb.base, len := tb.len, rowBytes := tb.rowBytes }

/-- The table that an instruction names is found, with no undefinition pending, and is accepted. -/
theorem tableFound_run {s : State} {act num : Nat} {tb : Table} {accept : Table → Bool} (htb : s.table? act num = some tb) (hswap : tb.swap = none)
    (hundef : tb.undef = none) (hacc : accept tb = true) (rest : Table → M Unit) : (do
      let tb ← orFault (← updGet fun s => s.lookup act num) cDescriptor
      need (!(← get).undefining tb && accept tb) cDescriptor
      rest tb : M Unit).run s = (rest tb).run s := by
  have hlookup : (updGet fun s => s.lookup act num).run s = .ok (some tb) s := by rw [M.run_updGet, State.lookup_run htb hswap]
  have hundefining : (!s.undefining tb && accept tb) = true := by
    unfold State.undefining
    rw [hundef, hacc]
    rfl
  rw [M.run_bind_ok hlookup, orFault_pure _ _ rfl, M.bind_pure, M.run_bind_ok (M.run_get s), need_pure _ _ hundefining, M.bind_pure]

/-- A table function whose operands pass. -/
theorem tableOp_dispatches {s : State} {f : Form} {o : Insn} {t : Strand} {j : Job} {tb : Table} {dst : Bool} {accept : Table → Bool}
    (h : Issues s f o t j) (htb : s.table? j.act (o.fld 0 8) = some tb) (hswap : tb.swap = none) (hundef : tb.undef = none)
    (hsrc : WinzeOperand s j (t.getD o.a) .read true) (hdst : dst = true → WinzeOperand s j (t.getD o.dst) .write true) (hacc : accept tb = true) :
    tableOp f o s dst accept = .next ((s.moved o t).dispatches f o t j
      (tableWnz dst (decodeDsc (t.getD o.a)) (decodeDsc (t.getD o.dst)) tb) [] []) := by
  refine issue_ok (a := ()) h ?_
  simp only []
  rw [useDsc_pure (show Usable (t.getD o.a) [0] false from hsrc.1), M.bind_pure]
  cases dst with
  | false =>
    refine (congrArg (fun m : M Unit => m.run _) (if_neg Bool.false_ne_true)).trans ?_
    refine (tableFound_run (s := s.moved o t) htb hswap hundef hacc _).trans ?_
    refine (M.run_bind_ok (winzeRights_run fun e he _ => ?_)).trans ?_
    · rw [List.mem_singleton.1 he]
      exact hsrc.passes o t
    rw [need_pure _ _ hsrc.2.2.2.2, M.bind_pure]
    exact dispatch_run _ _ _ _ _ _ _ _
  | true =>
    have hd := hdst rfl
    refine (congrArg (fun m : M Unit => m.run _) (if_pos rfl)).trans ?_
    rw [useDsc_pure (show Usable (t.getD o.dst) [0] true from hd.1), M.bind_pure]
    refine (tableFound_run (s := s.moved o t) htb hswap hundef hacc _).trans ?_
    refine (M.run_bind_ok (winzeRights_run fun e he _ => ?_)).trans ?_
    · rcases List.mem_cons.1 he with rfl | he
      · exact hsrc.passes o t
      · rw [List.mem_singleton.1 he]
        exact hd.passes o t
    rw [need_pure _ _ hsrc.2.2.2.2, M.bind_pure]
    simp only []
    rw [need_pure _ _ hd.2.2.2.2, M.bind_pure]
    exact dispatch_run _ _ _ _ _ _ _ _

/-- The operation of a table function stands at the dispatcher with the table's version and extent. -/
theorem tableWnz_names {s : State} {o : Insn} {t : Strand} {j : Job} (ht : s.strand? o.strand = some t) (f : Form) (dst : Bool) (d e : Dsc)
    (tb : Table) : let op := takenOp (s.moved o t) f o j (tableWnz dst d e tb)
      let u := (s.moved o t).dispatches f o t j (tableWnz dst d e tb) [] []
      Dispatched s u o t j f op [] ∧ op.table = tb.num ∧ op.version = tb.version ∧ op.base = tb.base ∧ op.len = tb.len ∧
      op.rowBytes = tb.rowBytes ∧ op.listed = false ∧ op.parts = [] ∧
      { u with nextId := s.nextId, wnz := s.wnz, fil := { u.fil with strands := s.fil.strands } } = s := by
  intro op u
  have hdoes := State.dispatches_does (u := s.moved o t) (op := tableWnz dst d e tb) f j [] [] ht rfl rfl rfl
  exact ⟨hdoes, rfl, rfl, rfl, rfl, rfl, rfl, rfl, s.dispatches_rest f o t j _ [] []⟩

/-! ## SCAN (R96, R97, R241) -/

/-- A tile placed for an output that is still to come. -/
def reservedTile (s : State) (j : Job) (v : TileVal) (a : Nat) : Tile := { tileOf s j v a with crc := 0 }

theorem reservedTile_found {s m : State} {j : Job} {v : TileVal} {a : Nat} (h : m.fil.tiles = s.fil.tiles ++ [reservedTile s j v a])
    (hfresh : s.tile? s.nextId = none) : m.tile? s.nextId = some (reservedTile s j v a) := by
  unfold State.tile? at *
  rw [h, List.find?_append, hfresh]
  simp [reservedTile, tileOf]

/-- A reserved tile takes its place in the crew store, and no demotion follows. -/
theorem reserveTile_run {s : State} {t : Strand} {j : Job} {v : TileVal} {a : Nat} (room : RoomAt s t j v.data.length a) :
    ∃ m, s.reserveTile j.act t.crew v = (some s.nextId, m) ∧ m.tierManage j.act t.crew = m ∧ m.fil.tiles = s.fil.tiles ++ [reservedTile s j v a] ∧
      m.fil.strands = s.fil.strands ∧ m.wnz = s.wnz ∧ m.mem = s.mem := by
  obtain ⟨hplace, hallocs⟩ := allocCrew_reads (u := s.fresh) (s := s) j.act t.crew v.data.length (.tile s.nextId) rfl rfl
  have honly := allocCrew_only s.fresh j.act t.crew v.data.length (.tile s.nextId)
  rw [room.placed] at hplace
  generalize hp : s.fresh.allocCrew j.act t.crew v.data.length (.tile s.nextId) = p at hplace hallocs honly
  obtain ⟨_, m⟩ := p
  simp only at hplace hallocs honly
  subst hplace
  have htiles := congrArg (fun x : State => x.fil.tiles) honly
  have hstrands := congrArg (fun x : State => x.fil.strands) honly
  have hregs := congrArg State.regs honly
  have hbeat := congrArg State.tally honly
  have hwnz := congrArg State.wnz honly
  have hmem := congrArg State.mem honly
  refine ⟨{ m with fil := { m.fil with tiles := m.fil.tiles ++ [reservedTile s j v a] } }, ?_, tierManage_quiet ?_ ?_, congrArg (· ++ [_]) htiles,
    hstrands, hwnz, hmem⟩
  · unfold State.reserveTile State.homeFor
    simp only [Bool.false_eq_true, if_false, hp]
    unfold reservedTile tileOf State.now
    rw [show m.tally = s.tally from hbeat]
  · show allocSum _ m.fil.allocs + 2 ^ 20 ≤ State.rd m _ * 1024
    rw [hallocs, rd_of_regs (s := s) (u := m) hregs]
    exact room.quota
  · show allocSum _ (allocsIn _ _ m.fil.allocs) + 2 ^ 20 ≤ crewLen
    rw [hallocs]
    exact room.spare

/-- The beat of the seam version that a scan reads, or a free value. -/
def State.scanCut (s : State) (act addr : Nat) : Nat × State :=
  match s.cutAt act addr with
  | some c => (c, s)
  | none => s.draw 64

theorem State.scanCut_does (s : State) (act addr : Nat) : { (s.scanCut act addr).2 with free := s.free } = s ∧
    ∀ c, s.cutAt act addr = some c → (s.scanCut act addr).1 = c := by
  unfold State.scanCut
  split
  next c h => exact ⟨rfl, fun d hd => by rw [h] at hd; exact Option.some.inj hd⟩
  next h => exact ⟨rfl, fun d hd => by rw [h] at hd; cases hd⟩

/-- The views of a scan: both empty, or placed in the stack view of one stack with lengths that match. -/
def ScanViews (s : State) (j : Job) (v w : BitVec 128) (cb : Nat) : Prop :=
  if (decodeDsc v).len = 0 then (decodeDsc w).len = 0 ∧ Usable v [0] false true ∧ Usable w [0] false true else
    WinzeOperand s j v .read false ∧ WinzeOperand s j w .read false ∧ stackView ≤ (decodeDsc v).base ∧ stackView ≤ (decodeDsc w).base ∧
    stackOf (decodeDsc v).base = stackOf (decodeDsc w).base ∧ (decodeDsc v).len % cb = 0 ∧
    ((decodeDsc w).len = 26 * ((decodeDsc v).len / cb) ∨ (decodeDsc w).len = 30 * ((decodeDsc v).len / cb))

/-- The operation of a scan. -/
def scanWnz (d e : Dsc) (cb : Nat) (qs : List Slot) (tile cut : Nat) : WnzOp :=
  { WnzOp.blank with
    srcs := if d.len = 0 then [] else [(d.base, d.len), (e.base, e.len)]
    listed := true
    parts := if d.len = 0 then [] else [⟨stackOf d.base, .dispatcher, [], d.len / cb, 0, [], 0⟩]
    slots := qs, tile := tile, cut := cut }

theorem Usable.emptyToo {v : BitVec 128} {spaces : List Nat} {write : Bool} (h : Usable v spaces write) : Usable v spaces write true := by
  obtain ⟨hlen, hrest⟩ := h
  exact ⟨.inl (hlen.resolve_right fun he => Bool.false_ne_true he.1), hrest⟩

theorem Usable.nonempty {v : BitVec 128} {spaces : List Nat} {write : Bool} (h : Usable v spaces write) : (decodeDsc v).len ≠ 0 :=
  h.1.resolve_right fun he => Bool.false_ne_true he.1

theorem ScanViews.usable {s : State} {j : Job} {v w : BitVec 128} {cb : Nat} (h : ScanViews s j v w cb) :
    Usable v [0] false true ∧ Usable w [0] false true ∧ (((decodeDsc v).len == 0) == ((decodeDsc w).len == 0)) = true := by
  unfold ScanViews at h
  split at h
  next h0 => exact ⟨h.2.1, h.2.2, by rw [h0, h.1]; rfl⟩
  next h0 =>
    obtain ⟨hv, hw, -⟩ := h
    have hw0 : (decodeDsc w).len ≠ 0 := Usable.nonempty (write := false) hw.1
    exact ⟨Usable.emptyToo hv.1, Usable.emptyToo hw.1, by simp [h0, hw0]⟩

theorem ScanViews.operand {s : State} {j : Job} {v w : BitVec 128} {cb : Nat} (h : ScanViews s j v w cb) :
    ((decodeDsc v).len ≠ 0 → WinzeOperand s j v .read false) ∧ ((decodeDsc w).len ≠ 0 → WinzeOperand s j w .read false) := by
  unfold ScanViews at h
  split at h
  next h0 => exact ⟨fun hv => absurd h0 hv, fun hw => absurd h.1 hw⟩
  next => exact ⟨fun _ => h.1, fun _ => h.2.1⟩

theorem execWnzScan_dispatches {s : State} {o : Insn} {t : Strand} {j : Job} {qs : List Slot} {a cb : Nat} {v : TileVal} (h : Issues s Form.wnzScan o t j)
    (hc : t.clear ((List.range (o.fld 0 4)).map Res.q) [] = true) (hslots : (List.range (o.fld 0 4)).map t.getQ = qs.map some)
    (hq : ∀ q ∈ qs, q.code = o.fld 4 2 ∧ q.subq8 = (o.fld 6 1 == 1)) (hcb : cb = 16 * 2 ^ o.fld 4 2)
    (hviews : ScanViews s j (t.getD o.a) (t.getD o.b) cb) (hv : v = scanList s.self (o.fld 8 13) false qs [])
    (room : RoomAt s t j v.data.length a) : ∃ (m : State) (cut : Nat), execWnzScan o s = .next (m.dispatches Form.wnzScan o t j
        (scanWnz (decodeDsc (t.getD o.a)) (decodeDsc (t.getD o.b)) cb qs s.nextId cut) ((List.range (o.fld 0 4)).map Res.q) [.bindT o.dst s.nextId]) ∧
      m.fil.tiles = s.fil.tiles ++ [reservedTile s j v a] ∧ m.fil.strands = (s.moved o t).fil.strands ∧ m.wnz = s.wnz ∧ m.mem = s.mem ∧
      ∀ c, s.cutAt j.act (decodeDsc (t.getD o.a)).base = some c → cut = c := by
  obtain ⟨hua, hub, hempty⟩ := hviews.usable
  have hcut : (updGet fun s => s.scanCut j.act (decodeDsc (t.getD o.a)).base).run (s.moved o t) = .ok
      ((s.moved o t).scanCut j.act (decodeDsc (t.getD o.a)).base).1 ((s.moved o t).scanCut j.act (decodeDsc (t.getD o.a)).base).2 := M.run_updGet _ _
  obtain ⟨hfree, hcuts⟩ := (s.moved o t).scanCut_does j.act (decodeDsc (t.getD o.a)).base
  generalize (s.moved o t).scanCut j.act (decodeDsc (t.getD o.a)).base = p at hcut hfree hcuts
  have hmem := congrArg State.mem hfree
  have hregs := congrArg State.regs hfree
  have hfil := congrArg State.fil hfree
  have hwnz := congrArg State.wnz hfree
  have hid := congrArg State.nextId hfree
  have hbeat := congrArg State.tally hfree
  change p.2.mem = s.mem at hmem
  change p.2.regs = s.regs at hregs
  change p.2.fil = (s.moved o t).fil at hfil
  change p.2.wnz = s.wnz at hwnz
  change p.2.nextId = s.nextId at hid
  change p.2.tally = s.tally at hbeat
  obtain ⟨m, hreserve, hquiet, htiles, hstrands, hmwnz, hmmem⟩ := reserveTile_run
    (room.same (u := p.2) hmem hregs (by rw [hfil]; rfl) (by rw [hfil]; rfl) hid)
  refine ⟨m, p.1, issue_ok (a := ()) h ?_, ?_, hstrands.trans (by rw [hfil]), hmwnz.trans hwnz, hmmem.trans hmem, hcuts⟩
  · have hrest : (do
        let cut ← updGet fun s => s.scanCut j.act (decodeDsc (t.getD o.a)).base
        let blank := scanList s.self (o.fld 8 13) false qs []
        match ← updGet fun s => s.reserveTile j.act t.crew blank with
        | none => throw (.fault cQuota 0)
        | some tile =>
          upd fun s => s.tierManage j.act t.crew
          dispatch Form.wnzScan o t j (scanWnz (decodeDsc (t.getD o.a)) (decodeDsc (t.getD o.b)) cb qs tile cut)
            ((List.range (o.fld 0 4)).map Res.q) [.bindT o.dst tile] : M Unit).run (s.moved o t) = .ok () (m.dispatches Form.wnzScan o t j
        (scanWnz (decodeDsc (t.getD o.a)) (decodeDsc (t.getD o.b)) cb qs s.nextId p.1) ((List.range (o.fld 0 4)).map Res.q) [.bindT o.dst s.nextId]) := by
      rw [M.run_bind_ok hcut]
      simp only [← hv]
      rw [M.run_bind_ok (M.run_updGet _ _), hreserve, hid]
      simp only []
      rw [M.run_bind_ok (M.run_upd _ _), hquiet, dispatch_run]
    simp only [hc]
    refine (M.run_bind_ok (cageSlots_run hslots hq)).trans ?_
    rw [useDsc_pure hua, M.bind_pure, useDsc_pure hub, M.bind_pure, need_pure _ _ hempty, M.bind_pure]
    refine (M.run_bind_ok (winzeRights_run fun e he hlen => ?_)).trans ?_
    · rcases List.mem_cons.1 he with rfl | he
      · exact (hviews.operand.1 hlen).passes o t
      · obtain rfl := List.mem_singleton.1 he
        exact (hviews.operand.2 hlen).passes o t
    subst hcb
    by_cases hlen : (decodeDsc (t.getD o.a)).len = 0
    · exact (congrArg (fun m : M Unit => m.run _) (if_neg (not_not.2 hlen))).trans hrest
    · refine (congrArg (fun m : M Unit => m.run _) (if_pos hlen)).trans ?_
      unfold ScanViews at hviews
      rw [if_neg hlen] at hviews
      obtain ⟨hv, hw, hva, hwa, hstack, hmod, hwide⟩ := hviews
      rw [need_pure _ _ ?_, M.bind_pure, need_pure _ _ (decide_eq_true ⟨hmod, hwide⟩), M.bind_pure]
      · exact hrest
      · obtain ⟨-, -, -, -, hv⟩ := hv
        obtain ⟨-, -, -, -, hw⟩ := hw
        rw [hv, hw, decide_eq_true hva, decide_eq_true hwa, hstack, beq_self_eq_true]
        rfl
  · rw [htiles, hfil]
    unfold reservedTile tileOf
    rw [hid, hbeat]
    rfl

/-- Settles O39: the operands pass, and what the dispatcher takes is the operation that the instruction names. -/
theorem winzeIssue : Obligations.WinzeIssue := by
  intro o s t j
  refine ⟨fun tb htb hswap hundef hsrc => ?_, fun qs a h hc hslots hq hviews room => ?_⟩
  · refine ⟨fun h hdst => ?_, fun h hdst => ?_, fun h hacc => ?_⟩
    · exact ⟨_, tableOp_dispatches h htb hswap hundef hsrc (fun _ => hdst) rfl, _, tableWnz_names h.strand Form.wnzBag true _ _ tb, rfl, rfl⟩
    · exact ⟨_, tableOp_dispatches h htb hswap hundef hsrc (fun _ => hdst) rfl, _, tableWnz_names h.strand Form.wnzGather true _ _ tb, rfl, rfl⟩
    · exact ⟨_, tableOp_dispatches h htb hswap hundef hsrc nofun hacc, _,
        tableWnz_names h.strand Form.wnzUpd false _ (decodeDsc (t.getD o.dst)) tb, rfl, rfl⟩
  · obtain ⟨m, cut, hrun, htiles, hstrands, hwnz, hmem, hcut⟩ := execWnzScan_dispatches h hc hslots hq rfl hviews rfl room
    have hdoes := State.dispatches_does Form.wnzScan j (op := scanWnz (decodeDsc (t.getD o.a)) (decodeDsc (t.getD o.b)) (16 * 2 ^ o.fld 4 2) qs s.nextId cut)
      ((List.range (o.fld 0 4)).map Res.q) [.bindT o.dst s.nextId] h.strand hstrands hwnz rfl
    refine ⟨_, hrun, _, reservedTile s j (scanList s.self (o.fld 8 13) false qs []) a, hdoes, rfl, ?_, rfl, rfl, room.fresh, rfl, rfl, rfl, ?_, hcut, hmem⟩
    · exact reservedTile_found (m := m) htiles room.fresh
    · show List.map _ (if (decodeDsc (t.getD o.a)).len = 0 then [] else _) = _
      split <;> rfl

end Sys2Proof.Machine
end

section
/-! PROOFS. CAR instructions on the memory of another member: their requests, and reading copies (R105, R362 to R367). -/
namespace Sys2Proof.Machine
open Sys2Proof.Claims

/-! ## Requests that go out at once (R362, R367) -/

/-- A request of a strand to a node goes onto its link over `chan` at once. -/
structure Sendable (s : State) (strand node chan : Nat) : Prop where
  stays : s.leavingSoon node = false
  free : kvGet 0 s.fun_.reqHolds node ≤ s.tally.beat
  link : s.linkFor s.self node = some chan
  sent : ∀ r ∈ s.car.reqs, r.strand = strand → r.pkt.dst = node → r.onWay = true

/-- A state with the Carousel's sequence numbers and requests and the Ringmaster's queues of another. -/
def State.unsent (s u : State) : State :=
  { u with car := { u.car with seqs := s.car.seqs, reqs := s.car.reqs }
           rgm := s.rgm
           nextId := s.nextId
           fil := { u.fil with busy := s.fil.busy } }

/-- Two states differ in nothing but the Carousel's sequence numbers and requests and the Ringmaster's queues, where nothing is lost. -/
structure SendsReqs (s u : State) : Prop where
  only : s.unsent u = s
  offered : ∀ chan act cls out, Offered s chan act cls out → Offered u chan act cls out

/-- Requests that stand in the record of `u` after those of `s`, and on the link. -/
structure Requested (s u : State) (strand tag chan : Nat) (l : List (Packet × Wants)) : Prop extends SendsReqs s u where
  recorded : ∃ new, u.car.reqs = s.car.reqs ++ new ∧ new.map (fun r => (({ r.pkt with seq := 0 } : Packet), r.wants)) = l ∧
    ∀ r ∈ new, r.onWay = true ∧ r.strand = strand ∧ r.tag = tag ∧ r.killed = false ∧
      Offered u chan r.pkt.act (if r.pkt.vc = 2 then 2 else 1) (.packet r.pkt)

theorem SendsReqs.refl (s : State) : SendsReqs s s := ⟨rfl, fun _ _ _ _ h => h⟩

theorem SendsReqs.trans {s u v : State} (h : SendsReqs s u) (g : SendsReqs u v) : SendsReqs s v := by
  refine ⟨?_, fun chan act cls out hs => g.offered _ _ _ _ (h.offered _ _ _ _ hs)⟩
  have hv := congrArg (State.unsent s) g.only
  exact hv.trans h.only

/-- A state with the same routes, holds and departures, and no more requests that wait, sends as well. -/
theorem Sendable.congr {s u : State} {strand node chan : Nat} (h : Sendable s strand node chan) (hregs : u.regs = s.regs) (hbeat : u.tally = s.tally)
    (hfun : u.fun_ = s.fun_) (hchanges : u.car.changes = s.car.changes) (hrings : u.car.lostRings = s.car.lostRings)
    (hreqs : ∀ r ∈ u.car.reqs, r.strand = strand → r.pkt.dst = node → r.onWay = true) : Sendable u strand node chan := by
  have hrd := rd_of_regs (s := s) (u := u) hregs
  refine ⟨?_, by rw [hfun, hbeat]; exact h.free, ?_, hreqs⟩
  · have hstays := h.stays
    unfold State.leavingSoon State.now at *
    rw [hchanges, hbeat]
    exact hstays
  · rw [State.linkFor_keeps (fun f _ => hrd f) hrings, show u.self = s.self from hrd _]
    exact h.link

theorem Requested.sendable {s u : State} {strand tag chan node chan' strand' : Nat} {l : List (Packet × Wants)} (h : Requested s u strand tag chan l)
    (hs : Sendable s strand' node chan') : Sendable u strand' node chan' := by
  have hregs := congrArg State.regs h.only
  have hbeat := congrArg State.tally h.only
  have hfun := congrArg State.fun_ h.only
  have hchanges := congrArg (fun x : State => x.car.changes) h.only
  have hrings := congrArg (fun x : State => x.car.lostRings) h.only
  obtain ⟨new, hreqs, -, hnew⟩ := h.recorded
  refine hs.congr hregs hbeat hfun hchanges hrings fun r hr hstrand hdst => ?_
  rw [hreqs] at hr
  rcases List.mem_append.1 hr with hr | hr
  · exact hs.sent r hr hstrand hdst
  · exact (hnew r hr).1

theorem Requested.nil (s : State) (strand tag chan : Nat) : Requested s s strand tag chan [] :=
  ⟨.refl s, [], (List.append_nil _).symm, rfl, fun _ hr => absurd hr List.not_mem_nil⟩

theorem Requested.append {s u v : State} {strand tag chan : Nat} {l m : List (Packet × Wants)} (h : Requested s u strand tag chan l)
    (g : Requested u v strand tag chan m) : Requested s v strand tag chan (l ++ m) := by
  obtain ⟨new, hreqs, hmap, hnew⟩ := h.recorded
  obtain ⟨new', hreqs', hmap', hnew'⟩ := g.recorded
  refine ⟨h.toSendsReqs.trans g.toSendsReqs, new ++ new', by rw [hreqs', hreqs, List.append_assoc], by rw [List.map_append, hmap, hmap'],
    fun r hr => ?_⟩
  rcases List.mem_append.1 hr with hr | hr
  · obtain ⟨hway, hstrand, htag, hkilled, hoff⟩ := hnew r hr
    exact ⟨hway, hstrand, htag, hkilled, g.offered _ _ _ _ hoff⟩
  · exact hnew' r hr

/-- A request as it is recorded, with its sequence number, when it goes out at once. -/
def requestOf (s : State) (p : Packet) (strand tag : Nat) (w : Wants) : Request :=
  ⟨{ p with seq := kvGet 0 s.car.seqs (p.dst * 4 + p.vc) }, strand, tag, s.now, 0, w, false, true⟩

/-- A state that has recorded a request. -/
def State.records (s : State) (p : Packet) (strand tag : Nat) (w : Wants) : State :=
  s.modCar fun c => { c with
    seqs := kvSet 0 c.seqs (p.dst * 4 + p.vc) ((kvGet 0 s.car.seqs (p.dst * 4 + p.vc) + 1) % 2 ^ 32)
    reqs := c.reqs ++ [requestOf s p strand tag w] }

/-- A request that goes out at once. -/
theorem State.request_does {s : State} {p : Packet} {strand chan : Nat} (tag : Nat) (w : Wants) (h : Sendable s strand p.dst chan) (hsrc : p.src = s.self) :
    Requested s (s.request p strand tag w) strand tag chan [({ p with seq := 0 }, w)] := by
  have hgo : s.mayGo { p with seq := kvGet 0 s.car.seqs (p.dst * 4 + p.vc) } strand s.car.reqs = true := by
    have hearlier : (s.car.reqs.any fun r => r.strand == strand && r.pkt.dst == p.dst && r.pkt.vc == 0 && !r.onWay) = false := by
      refine List.any_eq_false.2 fun r hr => ?_
      have hsent := h.sent r hr
      simp only [Bool.and_eq_true, beq_iff_eq, Bool.not_eq_true', not_and]
      exact fun hs => by simp [hsent hs.1.1 hs.1.2]
    unfold State.mayGo
    simp only [h.stays, hsrc, h.link, hearlier, Bool.and_false, Option.isSome_some, Bool.not_false, Bool.and_true]
  have hrun : s.request p strand tag w = (s.records p strand tag w).enqueue chan p.act (if p.vc = 2 then 2 else 1) none (32 + p.data.length)
      (some (.packet { p with seq := kvGet 0 s.car.seqs (p.dst * 4 + p.vc) })) := by
    have hfree : ¬ (p.vc = 0 ∧ s.now < kvGet 0 s.fun_.reqHolds p.dst) := fun hheld => absurd hheld.2 (Nat.not_lt.2 h.free)
    have hlink : (s.records p strand tag w).linkFor p.src p.dst = some chan := by
      rw [State.linkFor_keeps (s := s) (u := s.records p strand tag w) (fun _ _ => rfl) rfl, hsrc]
      exact h.link
    unfold State.request
    simp only [hgo, if_true]
    refine (if_neg hfree).trans ?_
    unfold State.sendPacket
    exact (congrArg (fun l : Option Nat => match l with
      | some l => (s.records p strand tag w).enqueue l p.act (if p.vc = 2 then 2 else 1) none (32 + p.data.length)
          (some (.packet { p with seq := kvGet 0 s.car.seqs (p.dst * 4 + p.vc) }))
      | none => s.records p strand tag w) hlink)
  rw [hrun]
  have honly := SendsOnly.enqueue (s.records p strand tag w) chan p.act (if p.vc = 2 then 2 else 1) none (32 + p.data.length)
    (some (.packet { p with seq := kvGet 0 s.car.seqs (p.dst * 4 + p.vc) }))
  refine ⟨⟨?_, fun chan' act cls out hoff => Offered.enqueue (s := s.records p strand tag w) hoff _ _ _ _ _ _⟩, [requestOf s p strand tag w], ?_, rfl, ?_⟩
  · exact (congrArg (State.unsent s) honly :)
  · exact congrArg CarSt.reqs honly.car
  · rintro r hr
    rw [List.mem_singleton.1 hr]
    exact ⟨rfl, rfl, rfl, rfl, Offered.offer _ _ _ _ _ _ _⟩

/-- Requests one after another. -/
def State.requests (s : State) (l : List (Packet × Wants)) (strand tag : Nat) : State := l.foldl (fun s e => s.request e.1 strand tag e.2) s

theorem State.requests_does {s : State} {l : List (Packet × Wants)} {strand node chan : Nat} (tag : Nat) (h : Sendable s strand node chan)
    (hl : ∀ e ∈ l, e.1.src = s.self ∧ e.1.dst = node) :
    Requested s (s.requests l strand tag) strand tag chan (l.map fun e => ({ e.1 with seq := 0 }, e.2)) := by
  induction l generalizing s with
  | nil => exact .nil s strand tag chan
  | cons e l ih =>
    obtain ⟨⟨hsrc, hdst⟩, hl⟩ := List.forall_mem_cons.1 hl
    have hone := State.request_does (p := e.1) tag e.2 (hdst ▸ h) hsrc
    have hself : (s.request e.1 strand tag e.2).self = s.self := rd_of_regs (congrArg State.regs hone.only :) _
    exact hone.append (ih (hone.sendable h) fun d hd => by rw [hself]; exact hl d hd)

/-! ## The instruction in flight (R105, R362) -/

/-- A CAR instruction in flight that waits for the answers to its requests. -/
def State.atRack (u : State) (f : Form) (o : Insn) (t : Strand) : State :=
  u.fresh.modStrand o.strand fun v => { v with inflight := v.inflight ++ [flightOf f o t u (.rack u.nextId) [] [] []] }

theorem launch_rack (u : State) (f : Form) (o : Insn) (t : Strand) : (launch f o t (.rack u.nextId) [] [] []).run u = .ok () (u.atRack f o t) :=
  M.run_upd _ _

/-- What a rack operand at another member asks of the node, once the strand has moved on. -/
theorem Remote.sendable {s u : State} {t : Strand} {v : BitVec 128} {write : Bool} {chan : Nat} (h : Remote s t v write chan) (hregs : u.regs = s.regs)
    (hbeat : u.tally = s.tally) (hfun : u.fun_ = s.fun_) (hchanges : u.car.changes = s.car.changes) (hrings : u.car.lostRings = s.car.lostRings)
    (hreqs : ∀ r ∈ u.car.reqs, ∃ q ∈ s.car.reqs, r.strand = q.strand ∧ r.pkt = q.pkt ∧ r.onWay = q.onWay) :
    Sendable u t.id (decodeDsc v).node chan := by
  obtain ⟨-, -, -, hstays, hfree, hlink, -, hsent⟩ := h
  refine Sendable.congr (s := s) ⟨hstays, hfree, hlink, hsent⟩ hregs hbeat hfun hchanges hrings fun r hr hstrand hdst => ?_
  obtain ⟨q, hq, hstrandq, hpkt, hway⟩ := hreqs r hr
  exact hway.trans (hsent q hq (hstrandq.symm.trans hstrand) (by rw [← hpkt]; exact hdst))

/-- A rack operand at another member leaves room for one more CAR instruction of the strand. -/
theorem Remote.room {s : State} {t : Strand} {v : BitVec 128} {write : Bool} {chan : Nat} (h : Remote s t v write chan) :
    (t.inflight.filter (·.cls == 11)).length < 64 := by
  obtain ⟨-, -, -, -, -, -, hroom, -⟩ := h
  exact hroom

/-- The requests of an instruction in flight, as the claims say them. -/
theorem Requested.asked {s w v u : State} {o : Insn} {t : Strand} {fl : Inflight} {chan : Nat} {c : CarSt} {l : List (Packet × Wants)}
    (h : Requested w v t.id fl.tag chan l) (hstrand : StrandIs s u o.strand { t.after o with inflight := t.inflight ++ [fl] })
    (hgate : fl.gate = .rack fl.tag) (heffects : fl.effects = []) (hreqs : w.car.reqs = c.reqs) (hcopies : w.car.copies = c.copies)
    (hcar : u.car = v.car) (hrgm : u.rgm = v.rgm) : Asked s u o t chan c l := by
  obtain ⟨new, hnew, hmap, hall⟩ := h.recorded
  have hkept := congrArg (fun x : State => x.car.copies) h.only
  have hoffered : ∀ chan act cls out, Offered v chan act cls out → Offered u chan act cls out := fun _ _ _ _ hv => by
    unfold Offered at *
    rw [hrgm]
    exact hv
  refine ⟨⟨fl, hgate, heffects, hstrand.strand, new, by rw [hcar, ← hreqs]; exact hnew, hmap, fun r hr => ?_⟩, hstrand.others,
    fun a => by rw [hstrand.mem], by rw [hcar]; exact Eq.trans hkept hcopies⟩
  obtain ⟨-, hstr, htag, hkilled, hoff⟩ := hall r hr
  exact ⟨hstr, htag, hkilled, hoffered _ _ _ _ hoff⟩

/-- A request is recorded where one was made. -/
theorem Requested.any_recorded {s u : State} {strand tag chan : Nat} {l : List (Packet × Wants)} (h : Requested s u strand tag chan l) (hl : l ≠ []) :
    (u.car.reqs.any fun r => r.strand == strand && r.tag == tag) = true := by
  obtain ⟨new, hreqs, hmap, hnew⟩ := h.recorded
  obtain ⟨r, hr⟩ := List.exists_mem_of_ne_nil new fun hnil => hl (by rw [← hmap, hnil]; rfl)
  obtain ⟨-, hstrand, htag, -⟩ := hnew r hr
  rw [hreqs]
  exact List.any_eq_true.2 ⟨r, List.mem_append_right _ hr, by simp [hstrand, htag]⟩

/-- Requests leave the strands and memory. -/
theorem Requested.strandIs {s w u : State} {id strand tag chan : Nat} {t : Strand} {l : List (Packet × Wants)} (h : Requested w u strand tag chan l)
    (hs : StrandIs s w id t) : StrandIs s u id t :=
  have hstrands := congrArg (fun x : State => x.fil.strands) h.only
  have hmem := congrArg State.mem h.only
  hs.congr hstrands hmem

/-- A CAR instruction of a strand with room for one more. -/
theorem carIssue_ok {s u : State} {f : Form} {o : Insn} {t : Strand} {j : Job} {a : Unit} {body : Strand → Job → M Unit} (h : Issues s f o t j)
    (hroom : (t.inflight.filter (·.cls == 11)).length < 64) (hb : (body t j).run (s.moved o t) = .ok a u) : carIssue f o s body = .next u := by
  refine issue_ok (a := a) h ?_
  exact (congrArg (fun m : M Unit => m.run _) (if_neg (Nat.not_le.2 hroom))).trans hb

theorem onCarousel_run {u : State} {d : Dsc} (hnode : d.node ≠ u.self) (hmember : u.members.testBit d.node = true) :
    (onCarousel d).run u = .ok () u := by
  unfold onCarousel
  rw [M.run_bind_ok (M.run_get u), need_pure _ _ (by rw [if_neg hnode, hmember]; rfl)]
  rfl

/-- A single request to another member. -/
theorem oneRequest_run {u : State} (f : Form) (o : Insn) (t : Strand) {p : Packet} (w : Wants) (own : Nat → List Effect) (h : p.dst ≠ u.self) :
    (oneRequest f o t p w own).run u = .ok () ((u.atRack f o t).request p t.id u.nextId w) := by
  unfold oneRequest
  rw [M.run_bind_ok (M.run_get u)]
  refine (congrArg (fun m : M Unit => m.run _) (if_neg h)).trans ?_
  exact (M.run_bind_ok (launch_rack u f o t)).trans rfl

/-- A single request of an instruction in flight, as the claims say it. -/
theorem oneRequest_asked {s u : State} {f : Form} {o : Insn} {t : Strand} {p : Packet} {w : Wants} {chan : Nat} (ht : s.strand? o.strand = some t)
    (hstrands : u.fil.strands = (s.moved o t).fil.strands) (hmem : u.mem = s.mem) (hsend : Sendable u t.id p.dst chan) (hsrc : p.src = u.self)
    (hseq : p.seq = 0) : Asked s ((u.atRack f o t).request p t.id u.nextId w) o t chan u.car [(p, w)] := by
  have hlaunched : StrandIs s (u.atRack f o t) o.strand { t.after o with inflight := t.inflight ++ [flightOf f o t u (.rack u.nextId) [] [] []] } :=
    ((StrandIs.moved ht).congr (w := u.fresh) hstrands hmem).modStrand
      (fun v => { v with inflight := v.inflight ++ [flightOf f o t u (.rack u.nextId) [] [] []] }) (fun _ => rfl) fun _ => rfl
  have hreq := State.request_does (s := u.atRack f o t) u.nextId w (hsend.congr rfl rfl rfl rfl rfl hsend.sent) hsrc
  rw [show ({ p with seq := 0 } : Packet) = p by rw [← hseq]] at hreq
  exact Requested.asked (w := u.atRack f o t) (fl := flightOf f o t u (.rack u.nextId) [] [] []) hreq (hreq.strandIs hlaunched) rfl rfl rfl rfl rfl rfl

/-! ## CAR.LD and CAR.INV (R105, R362) -/

theorem execCarLd_asks {s : State} {o : Insn} {t : Strand} {j : Job} {chan : Nat} (h : Issues s Form.carLd o t j)
    (hr : Remote s t (t.getD o.a) false chan) (hin : (t.getS o.b).toNat + 2 ^ o.fld 0 2 ≤ (decodeDsc (t.getD o.a)).len)
    (halign : ((decodeDsc (t.getD o.a)).base + (t.getS o.b).toNat) % 2 ^ o.fld 0 2 = 0) : CompletesWith (execCarLd o s) fun u =>
      Asked s u o t chan s.car [({ s.packetTo .ld 0 (decodeDsc (t.getD o.a)).node j.act (keyOf o)
        ((decodeDsc (t.getD o.a)).base + (t.getS o.b).toNat) (2 ^ o.fld 0 2) with size := o.fld 0 2 }, .load o.dst)] := by
  have hsend := Remote.sendable (u := s.moved o t) hr rfl rfl rfl rfl rfl fun r hm => ⟨r, hm, rfl, rfl, rfl⟩
  obtain ⟨huse, hnode, hmember, -, -, -, hroom, -⟩ := hr
  refine ⟨_, carIssue_ok (a := ()) h hroom ?_, oneRequest_asked (f := Form.carLd) (u := s.moved o t) h.strand rfl rfl hsend rfl rfl⟩
  simp only []
  rw [useDsc_pure huse, M.bind_pure, within_pure hin, M.bind_pure, carAligned, need_pure _ _ (decide_eq_true halign), M.bind_pure,
    M.run_bind_ok (onCarousel_run (u := s.moved o t) hnode hmember)]
  refine (M.run_bind_ok (M.run_get _)).trans ?_
  exact oneRequest_run _ _ _ _ _ hnode

theorem execCarInv_asks {s : State} {o : Insn} {t : Strand} {j : Job} {chan : Nat} (h : Issues s Form.carInv o t j)
    (hr : Remote s t (t.getD o.a) false chan) : CompletesWith (execCarInv o s) fun u =>
      Asked s u o t chan s.car [(s.packetTo .inv 0 (decodeDsc (t.getD o.a)).node j.act (keyOf o) (decodeDsc (t.getD o.a)).base
        (decodeDsc (t.getD o.a)).len, .done)] := by
  have hsend := Remote.sendable (u := s.moved o t) hr rfl rfl rfl rfl rfl fun r hm => ⟨r, hm, rfl, rfl, rfl⟩
  obtain ⟨huse, hnode, hmember, -, -, -, hroom, -⟩ := hr
  refine ⟨_, carIssue_ok (a := ()) h hroom ?_, oneRequest_asked (f := Form.carInv) (u := s.moved o t) h.strand rfl rfl hsend rfl rfl⟩
  rw [useDsc_pure huse, M.bind_pure, M.run_bind_ok (onCarousel_run (u := s.moved o t) hnode hmember)]
  refine (M.run_bind_ok (M.run_get _)).trans ?_
  refine (congrArg (fun m : M Unit => m.run _) (if_neg (show (decodeDsc (t.getD o.a)).node ≠ (s.moved o t).self from hnode))).trans ?_
  exact (M.run_bind_ok (launch_rack _ _ _ _)).trans rfl

/-! ## CAR.ST, CAR.ATOM and CAR.ATOMN (R361, R366) -/

/-- A request marked so that its fill is not kept is the request that it was. -/
theorem State.dropCopies_reqs {s : State} {node a n : Nat} {r : Request} (h : r ∈ (s.dropCopies node a n).car.reqs) :
    ∃ q ∈ s.car.reqs, r.strand = q.strand ∧ r.pkt = q.pkt ∧ r.onWay = q.onWay := by
  obtain ⟨q, hq, hr⟩ := List.mem_map.1 (show r ∈ updWhere _ _ s.car.reqs from h)
  refine ⟨q, hq, ?_⟩
  rw [← hr]
  split <;> exact ⟨rfl, rfl, rfl⟩

/-- A single request that writes: this node's copies of what it writes are dropped first. -/
theorem writingRequest_asked {s : State} {f : Form} {o : Insn} {t : Strand} {v : BitVec 128} {p : Packet} {n chan : Nat} (w : Wants)
    (own : Nat → List Effect) (ht : s.strand? o.strand = some t) (hr : Remote s t v true chan) (hdst : p.dst = (decodeDsc v).node)
    (hsrc : p.src = s.self) (hseq : p.seq = 0) : ∃ u, (do
        if p.dst ≠ (← get).self then upd fun s => s.dropCopies p.dst p.addr n
        oneRequest f o t p w own : M Unit).run (s.moved o t) = .ok () u ∧ Asked s u o t chan (s.dropCopies p.dst p.addr n).car [(p, w)] := by
  have hsend := Remote.sendable (u := (s.moved o t).dropCopies p.dst p.addr n) hr rfl rfl rfl rfl rfl fun r hm =>
    State.dropCopies_reqs (s := s.moved o t) hm
  obtain ⟨-, hnode, -⟩ := hr
  have hself : p.dst ≠ (s.moved o t).self := hdst ▸ hnode
  refine ⟨_, ?_, oneRequest_asked (f := f) (u := (s.moved o t).dropCopies p.dst p.addr n) ht rfl rfl (hdst ▸ hsend) hsrc hseq⟩
  rw [M.run_bind_ok (M.run_get _)]
  refine (congrArg (fun m : M Unit => m.run _) (if_pos hself)).trans ?_
  exact (M.run_bind_ok (M.run_upd _ _)).trans (oneRequest_run (u := (s.moved o t).dropCopies p.dst p.addr n) f o t w own hself)

theorem execCarSt_asks {s : State} {o : Insn} {t : Strand} {j : Job} {chan a n : Nat} (h : Issues s Form.carSt o t j)
    (hr : Remote s t (t.getD o.dst) true chan) (hn : n = 2 ^ o.fld 0 2) (ha : a = (decodeDsc (t.getD o.dst)).base + (t.getS o.b).toNat)
    (hin : (t.getS o.b).toNat + n ≤ (decodeDsc (t.getD o.dst)).len) (halign : a % n = 0) : CompletesWith (execCarSt o s) fun u =>
      Asked s u o t chan (s.dropCopies (decodeDsc (t.getD o.dst)).node a n).car
        [({ s.packetTo .st 0 (decodeDsc (t.getD o.dst)).node j.act (keyOf o) a n with size := o.fld 0 2, data := leBytes (t.getS o.a).toNat n },
          .done)] := by
  subst hn ha
  obtain ⟨u, hu, hasked⟩ := writingRequest_asked (f := Form.carSt) (n := 2 ^ o.fld 0 2)
    (p := { s.packetTo .st 0 (decodeDsc (t.getD o.dst)).node j.act (keyOf o) ((decodeDsc (t.getD o.dst)).base + (t.getS o.b).toNat) (2 ^ o.fld 0 2) with
      size := o.fld 0 2, data := leBytes (t.getS o.a).toNat (2 ^ o.fld 0 2) }) .done (fun _ => []) h.strand hr rfl rfl rfl
  obtain ⟨huse, hnode, hmember, -, -, -, hroom, -⟩ := hr
  refine ⟨u, carIssue_ok (a := ()) h hroom ?_, hasked⟩
  simp only []
  rw [useDsc_pure huse, M.bind_pure, within_pure hin, M.bind_pure, carAligned, need_pure _ _ (decide_eq_true halign), M.bind_pure,
    M.run_bind_ok (onCarousel_run (u := s.moved o t) hnode hmember)]
  refine (M.run_bind_ok (M.run_get _)).trans ?_
  exact hu

/-- The packet of an atomic at another member. -/
def atomPacket (s : State) (op : PktOp) (o : Insn) (t : Strand) (j : Job) (d : Dsc) : Packet :=
  { s.packetTo op 0 d.node j.act (keyOf o) d.base (if o.fld 4 1 == 1 then 8 else 4) with
    wide := o.fld 4 1 == 1, size := if o.fld 4 1 == 1 then 3 else 2, aux := o.fld 0 4, opnd := (t.getS o.b).toNat,
    cmp := (o.ext.getD 1 0#64).toNat }

theorem atomBody_asks {s : State} {f : Form} {op : PktOp} {o : Insn} {t : Strand} {j : Job} {chan : Nat} (ht : s.strand? o.strand = some t)
    (hr : Remote s t (t.getD o.a) true chan) (hin : (if o.fld 4 1 == 1 then 8 else 4) ≤ (decodeDsc (t.getD o.a)).len)
    (halign : (decodeDsc (t.getD o.a)).base % (if o.fld 4 1 == 1 then 8 else 4) = 0) : ∃ u, (atomBody f op o t j).run (s.moved o t) = .ok () u ∧
      Asked s u o t chan (s.dropCopies (decodeDsc (t.getD o.a)).node (decodeDsc (t.getD o.a)).base (if o.fld 4 1 == 1 then 8 else 4)).car
        [(atomPacket s op o t j (decodeDsc (t.getD o.a)), if op == .atom then .old o.dst else .done)] := by
  obtain ⟨u, hu, hasked⟩ := writingRequest_asked (f := f) (n := if o.fld 4 1 == 1 then 8 else 4) (p := atomPacket s op o t j (decodeDsc (t.getD o.a)))
    (if op == .atom then .old o.dst else .done) (fun v => if op == .atom then [.setS o.dst (BitVec.ofNat 64 v)] else []) ht hr rfl rfl rfl
  obtain ⟨huse, hnode, hmember, -⟩ := hr
  refine ⟨u, ?_, hasked⟩
  unfold atomBody
  simp only []
  rw [useDsc_pure huse, M.bind_pure, within_pure (by rw [Nat.zero_add]; exact hin), M.bind_pure, carAligned,
    need_pure _ _ (decide_eq_true halign), M.bind_pure, M.run_bind_ok (onCarousel_run (u := s.moved o t) hnode hmember)]
  refine (M.run_bind_ok (M.run_get _)).trans ?_
  exact hu

/-! ## CAR.PUT (R105, R360) -/

theorem StrandIs.atRack {s u : State} {f : Form} {o : Insn} {t : Strand} (ht : s.strand? o.strand = some t)
    (hstrands : u.fil.strands = (s.moved o t).fil.strands) (hmem : u.mem = s.mem) :
    StrandIs s (u.atRack f o t) o.strand { t.after o with inflight := t.inflight ++ [flightOf f o t u (.rack u.nextId) [] [] []] } :=
  ((StrandIs.moved ht).congr (w := u.fresh) hstrands hmem).modStrand
    (fun v => { v with inflight := v.inflight ++ [flightOf f o t u (.rack u.nextId) [] [] []] }) (fun _ => rfl) fun _ => rfl

/-- The packet of a piece of a PUT. -/
def putPacket (s : State) (o : Insn) (j : Job) (d : Dsc) (b : List Byte) (e : Nat × Nat × Nat) : Packet :=
  { s.packetTo .put 2 d.node j.act (keyOf o) e.1 (slice b e.2.1 e.2.2).length with data := slice b e.2.1 e.2.2, squeeze := o.fld 0 1 == 1 }

/-- What a PUT asks of its operands. -/
structure PutOperands (s : State) (o : Insn) (t : Strand) (j : Job) (n chan : Nat) : Prop where
  remote : Remote s t (t.getD o.dst) true chan
  usable : Usable (t.getD o.a) [0] false
  fits : n ≤ (decodeDsc (t.getD o.dst)).len
  source : n ≤ (decodeDsc (t.getD o.a)).len
  granted : MayUse s j .read (decodeDsc (t.getD o.a)).base n
  quiet : Quiet s (decodeDsc (t.getD o.a)).base n

/-- CAR.PUT once its operands have passed and its bytes are read. -/
theorem execCarPut_reads {s u : State} {o : Insn} {t : Strand} {j : Job} {n chan : Nat} {b : List Byte} {a : Unit} (h : Issues s Form.carPut o t j)
    (hn : n = (t.getS o.b).toNat) (hp : PutOperands s o t j n chan) (hb : b = (s.readMem 0 (decodeDsc (t.getD o.a)).base n).1)
    (hrest : (if n = 0 then launch Form.carPut o t .engine [] [] [] else do
      launch Form.carPut o t (.rack s.nextId) [] [] []
      upd fun s => s.dropCopies (decodeDsc (t.getD o.dst)).node (decodeDsc (t.getD o.dst)).base n
      upd fun w => w.requests ((cutRange false (n / 4096 + 2) (decodeDsc (t.getD o.dst)).base 0 n).map fun e =>
        (putPacket s o j (decodeDsc (t.getD o.dst)) b e, .done)) t.id s.nextId).run (s.moved o t) = .ok a u) :
    execCarPut o s = .next u := by
  obtain ⟨⟨huse, hnode, hmember, -, -, -, hroom, -⟩, hsource, hfits, hlen, hmay, hquiet⟩ := hp
  obtain ⟨hheld, hreg, hclean, hawake⟩ := hquiet
  have hread := readEngine_quiet (s := s.moved o t) t hheld hreg hclean hawake
  rw [State.readMem_moved, ← hb] at hread
  refine carIssue_ok (a := a) h hroom ?_
  simp only [← hn]
  rw [useDsc_pure hsource, M.bind_pure, useDsc_pure huse, M.bind_pure, within_pure (by omega), M.bind_pure, within_pure (by omega), M.bind_pure,
    M.run_bind_ok (onCarousel_run (u := s.moved o t) hnode hmember)]
  refine (M.run_bind_ok (M.run_get _)).trans ?_
  refine (M.run_bind_ok (checkAccess_run _ (hmay.moved o t))).trans ?_
  refine (M.run_bind_ok hread).trans ?_
  refine (M.run_bind_ok (M.run_get _)).trans ?_
  by_cases h0 : n = 0
  · rw [if_pos h0] at hrest
    exact (congrArg (fun m : M Unit => m.run _) (if_pos h0)).trans hrest
  · rw [if_neg h0] at hrest
    refine (congrArg (fun m : M Unit => m.run _) (if_neg h0)).trans ?_
    refine (congrArg (fun m : M Unit => m.run _) (if_neg (show (decodeDsc (t.getD o.dst)).node ≠ (s.moved o t).self from hnode))).trans ?_
    unfold State.requests at hrest
    simp only [List.foldl_map] at hrest
    exact hrest

theorem execCarPut_asks {s : State} {o : Insn} {t : Strand} {j : Job} {n chan : Nat} {b : List Byte} (h : Issues s Form.carPut o t j)
    (hn : n = (t.getS o.b).toNat) (hp : PutOperands s o t j n chan) (hb : b = (s.readMem 0 (decodeDsc (t.getD o.a)).base n).1) (hpos : 0 < n) :
    CompletesWith (execCarPut o s) fun u => Asked s u o t chan (s.dropCopies (decodeDsc (t.getD o.dst)).node (decodeDsc (t.getD o.dst)).base n).car
      ((cutRange false (n / 4096 + 2) (decodeDsc (t.getD o.dst)).base 0 n).map fun e => (putPacket s o j (decodeDsc (t.getD o.dst)) b e, .done)) := by
  have hrun := execCarPut_reads (a := ()) (u := (((s.moved o t).atRack Form.carPut o t).dropCopies (decodeDsc (t.getD o.dst)).node
    (decodeDsc (t.getD o.dst)).base n).requests _ t.id s.nextId) h hn hp hb (by rw [if_neg (by omega)]; rfl)
  have hsend := Remote.sendable (u := ((s.moved o t).atRack Form.carPut o t).dropCopies (decodeDsc (t.getD o.dst)).node
    (decodeDsc (t.getD o.dst)).base n) hp.remote rfl rfl rfl rfl rfl fun r hm => State.dropCopies_reqs (s := (s.moved o t).atRack Form.carPut o t) hm
  have hreq := State.requests_does s.nextId hsend (l := (cutRange false (n / 4096 + 2) (decodeDsc (t.getD o.dst)).base 0 n).map fun e =>
    (putPacket s o j (decodeDsc (t.getD o.dst)) b e, .done)) fun e he => by
      obtain ⟨c, -, rfl⟩ := List.mem_map.1 he
      exact ⟨rfl, rfl⟩
  rw [List.map_map] at hreq
  have hstrand := (StrandIs.atRack (u := s.moved o t) (f := Form.carPut) h.strand rfl rfl).congr (w := ((s.moved o t).atRack Form.carPut o t).dropCopies
    (decodeDsc (t.getD o.dst)).node (decodeDsc (t.getD o.dst)).base n) rfl rfl
  exact ⟨_, hrun, Requested.asked (fl := flightOf Form.carPut o t (s.moved o t) (.rack s.nextId) [] [] []) hreq (hreq.strandIs hstrand) rfl rfl
    rfl rfl rfl rfl⟩

theorem execCarPut_none {s : State} {o : Insn} {t : Strand} {j : Job} {n chan : Nat} (h : Issues s Form.carPut o t j)
    (hn : n = (t.getS o.b).toNat) (hp : PutOperands s o t j n chan) (h0 : n = 0) :
    CompletesWith (execCarPut o s) fun u => InFlight s u o t [] ∧ u.mem = s.mem ∧ u.car = s.car := by
  refine ⟨_, execCarPut_reads (a := ()) h hn hp rfl (by rw [if_pos h0]; exact M.run_upd _ _),
    inFlight_launch h.strand (w := s.moved o t) rfl (flightOf Form.carPut o t (s.moved o t) .engine [] [] []) rfl, rfl, rfl⟩

/-! ## CAR.GET (R105, R360, R363) -/

/-- The packet of a piece of a GET. -/
def getPacket (s : State) (o : Insn) (j : Job) (d : Dsc) (e : Nat × Nat × Nat) : Packet :=
  { s.packetTo .get 0 d.node j.act (keyOf o) e.1 e.2.2 with copyOk := o.fld 0 1 == 1 }

/-- The pieces of a GET of `n` bytes: page by page where the answers may be kept. -/
def getCuts (o : Insn) (d : Dsc) (n : Nat) : List (Nat × Nat × Nat) := cutRange (o.fld 0 1 == 1) (n / 4096 + 2) d.base 0 n

/-- What a GET asks of its operands. -/
structure GetOperands (s : State) (o : Insn) (t : Strand) (j : Job) (n chan : Nat) : Prop where
  remote : Remote s t (t.getD o.a) false chan
  usable : Usable (t.getD o.dst) [0] true
  fits : n ≤ (decodeDsc (t.getD o.dst)).len
  source : n ≤ (decodeDsc (t.getD o.a)).len
  granted : MayUse s j .write (decodeDsc (t.getD o.dst)).base n

/-- CAR.GET once its operands have passed. -/
theorem execCarGet_passes {s u : State} {o : Insn} {t : Strand} {j : Job} {n chan : Nat} {a : Unit} (h : Issues s Form.carGet o t j)
    (hn : n = (t.getS o.b).toNat) (hp : GetOperands s o t j n chan)
    (hrest : (if n = 0 then launch Form.carGet o t .engine [] [] [] else do
      launch Form.carGet o t (.rack s.nextId) [] [] []
      (getCuts o (decodeDsc (t.getD o.a)) n).forM fun e => getPiece t s.nextId (getPacket s o j (decodeDsc (t.getD o.a)) e)
        ((decodeDsc (t.getD o.dst)).base + e.2.1)
      upd fun w => w.rackDone t.id s.nextId []).run (s.moved o t) = .ok a u) : execCarGet o s = .next u := by
  obtain ⟨⟨huse, hnode, hmember, -, -, -, hroom, -⟩, hdest, hfits, hlen, hmay⟩ := hp
  refine carIssue_ok (a := a) h hroom ?_
  simp only [← hn]
  rw [useDsc_pure hdest, M.bind_pure, useDsc_pure huse, M.bind_pure, within_pure (by omega), M.bind_pure, within_pure (by omega), M.bind_pure,
    M.run_bind_ok (onCarousel_run (u := s.moved o t) hnode hmember)]
  refine (M.run_bind_ok (M.run_get _)).trans ?_
  refine (M.run_bind_ok (checkAccess_run _ (hmay.moved o t))).trans ?_
  refine (M.run_bind_ok (M.run_get _)).trans ?_
  by_cases h0 : n = 0
  · rw [if_pos h0] at hrest
    exact (congrArg (fun m : M Unit => m.run _) (if_pos h0)).trans hrest
  · rw [if_neg h0] at hrest
    refine (congrArg (fun m : M Unit => m.run _) (if_neg h0)).trans ?_
    refine (congrArg (fun m : M Unit => m.run _) (if_neg (show (decodeDsc (t.getD o.a)).node ≠ (s.moved o t).self from hnode))).trans ?_
    exact hrest

theorem execCarGet_none {s : State} {o : Insn} {t : Strand} {j : Job} {n chan : Nat} (h : Issues s Form.carGet o t j)
    (hn : n = (t.getS o.b).toNat) (hp : GetOperands s o t j n chan) (h0 : n = 0) :
    CompletesWith (execCarGet o s) fun u => InFlight s u o t [] ∧ u.mem = s.mem ∧ u.car = s.car := by
  refine ⟨_, execCarGet_passes (a := ()) h hn hp (by rw [if_pos h0]; exact M.run_upd _ _),
    inFlight_launch h.strand (w := s.moved o t) rfl (flightOf Form.carGet o t (s.moved o t) .engine [] [] []) rfl, rfl, rfl⟩

theorem State.request_copies (s : State) (p : Packet) (strand tag : Nat) (w : Wants) :
    (s.request p strand tag w).car.copies = s.car.copies := by
  unfold State.request State.sendReq
  simp only []
  split
  · split
    · rfl
    · rw [(SendsOnly.sendPacket _ _).car]
      rfl
  · rfl

/-- Pieces that no copy serves are asked for. -/
theorem getPieces_run {α : Type} {u : State} {t : Strand} {tag : Nat} {l : List α} (p : α → Packet) (dst : α → Nat)
    (h : ∀ e ∈ l, (p e).copyOk = true → u.copyOf (p e).dst (p e).addr (p e).act (p e).key = none) :
    (l.forM fun e => getPiece t tag (p e) (dst e)).run u = .ok () (u.requests (l.map fun e => (p e, .get (dst e))) t.id tag) := by
  induction l generalizing u with
  | nil => rfl
  | cons e l ih =>
    obtain ⟨he, hl⟩ := List.forall_mem_cons.1 h
    have hnone : (if (p e).copyOk then u.copyOf (p e).dst (p e).addr (p e).act (p e).key else none) = none := by
      split
      next hok => exact he hok
      next => rfl
    have hone : (getPiece t tag (p e) (dst e)).run u = .ok () (u.request (p e) t.id tag (.get (dst e))) := by
      unfold getPiece
      rw [M.run_bind_ok (M.run_get u), hnone]
      exact M.run_upd _ _
    show (getPiece t tag (p e) (dst e) >>= fun _ => l.forM fun e => getPiece t tag (p e) (dst e)).run u = _
    rw [M.run_bind_ok hone, ih fun d hd hok => ?_]
    · rfl
    · unfold State.copyOf
      rw [State.request_copies]
      exact hl d hd hok

/-- A range of some bytes is cut into at least one piece. -/
theorem cutRange_ne_nil (paged : Bool) (fuel a off : Nat) {n : Nat} (h : 0 < n) : cutRange paged (fuel + 1) a off n ≠ [] := by
  unfold cutRange
  rw [if_neg (by omega)]
  exact List.cons_ne_nil _ _

/-- The instruction of a strand that went into flight last, regated. -/
theorem StrandIs.regate_last {s u : State} {o : Insn} {t : Strand} {fl : Inflight} {tag : Nat}
    (h : StrandIs s u o.strand { t.after o with inflight := t.inflight ++ [fl] }) (hid : t.id = o.strand) (hl : ∀ x ∈ t.inflight, x.tag ≠ tag)
    (htag : fl.tag = tag) (g : Gate) (e : List Effect) :
    StrandIs s (u.regate t.id tag g e) o.strand { t.after o with inflight := t.inflight ++ [fl.regated g e] } := by
  have hdone := h.regate tag g e
  unfold Strand.regates at hdone
  rw [updWhere_last _ hl htag] at hdone
  rw [hid]
  exact hdone

/-- What comes of an instruction whose last piece is dealt with: it waits while a request of its is recorded. -/
theorem StrandIs.rackDone {s u : State} {o : Insn} {t : Strand} {fl : Inflight} {tag : Nat} {g : Gate}
    (h : StrandIs s u o.strand { t.after o with inflight := t.inflight ++ [fl] }) (hid : t.id = o.strand) (hl : ∀ x ∈ t.inflight, x.tag ≠ tag)
    (htag : fl.tag = tag) (hg : (if u.car.reqs.any fun r => r.strand == t.id && r.tag == tag then .rack tag else .engine) = g) (e : List Effect) :
    StrandIs s (u.rackDone t.id tag e) o.strand { t.after o with inflight := t.inflight ++ [fl.regated g e] } := by
  have hrack : u.rackDone t.id tag e = u.regate t.id tag g e := by
    rw [← hg]
    rfl
  rw [hrack]
  exact h.regate_last hid hl htag g e

/-- CAR.GET of pieces that no copy serves asks for them all. -/
theorem execCarGet_asks {s : State} {o : Insn} {t : Strand} {j : Job} {n chan : Nat} (h : Issues s Form.carGet o t j)
    (hn : n = (t.getS o.b).toNat) (hp : GetOperands s o t j n chan) (htags : ∀ x ∈ t.inflight, x.tag < s.nextId) (hpos : 0 < n)
    (hmiss : ∀ p ∈ getCuts o (decodeDsc (t.getD o.a)) n, (o.fld 0 1 == 1) = true → s.copyOf (decodeDsc (t.getD o.a)).node p.1 j.act (keyOf o) = none) :
    CompletesWith (execCarGet o s) fun u => Asked s u o t chan s.car ((getCuts o (decodeDsc (t.getD o.a)) n).map fun e =>
      (getPacket s o j (decodeDsc (t.getD o.a)) e, .get ((decodeDsc (t.getD o.dst)).base + e.2.1))) := by
  have hpieces := getPieces_run (u := (s.moved o t).atRack Form.carGet o t) (t := t) (tag := s.nextId)
    (l := getCuts o (decodeDsc (t.getD o.a)) n) (getPacket s o j (decodeDsc (t.getD o.a))) (fun e => (decodeDsc (t.getD o.dst)).base + e.2.1) hmiss
  have hsend := Remote.sendable (u := (s.moved o t).atRack Form.carGet o t) hp.remote rfl rfl rfl rfl rfl fun r hm => ⟨r, hm, rfl, rfl, rfl⟩
  have hreq := State.requests_does s.nextId hsend (l := (getCuts o (decodeDsc (t.getD o.a)) n).map fun e =>
    (getPacket s o j (decodeDsc (t.getD o.a)) e, .get ((decodeDsc (t.getD o.dst)).base + e.2.1))) fun e he => by
      obtain ⟨c, -, rfl⟩ := List.mem_map.1 he
      exact ⟨rfl, rfl⟩
  rw [List.map_map] at hreq
  have hstrand := StrandIs.rackDone (hreq.strandIs (StrandIs.atRack (u := s.moved o t) (f := Form.carGet) h.strand rfl rfl)) h.strand_id
    (tag := s.nextId) (fun x hx => Nat.ne_of_lt (htags x hx)) rfl (if_pos (hreq.any_recorded fun hnil =>
      cutRange_ne_nil _ (n / 4096 + 1) _ 0 hpos (List.map_eq_nil_iff.1 hnil))) []
  generalize hw : ((s.moved o t).atRack Form.carGet o t).requests _ t.id s.nextId = w at hpieces hreq hstrand
  refine ⟨w.rackDone t.id s.nextId [], execCarGet_passes (a := ()) h hn hp ?_, Requested.asked (fl := (flightOf Form.carGet o t (s.moved o t)
    (.rack s.nextId) [] [] []).regated (.rack s.nextId) []) hreq hstrand rfl rfl rfl rfl rfl rfl⟩
  rw [if_neg (by omega)]
  exact (M.run_bind_ok (launch_rack (s.moved o t) _ _ _)).trans ((M.run_bind_ok hpieces).trans (M.run_upd _ _))

/-- A piece that a copy serves: its bytes are read from the copy store, and that copy is the one used last. -/
def State.copyServes (u : State) (c : CopyPage) (strand tag dst : Nat) (b : List Byte) : State :=
  ((u.useCopy c).count 0x912 1).regate strand tag (.rack tag) [.mem 0 dst b]

theorem getPiece_copy {u : State} {t : Strand} (tag dst : Nat) {p : Packet} {c : CopyPage} {b : List Byte} (hok : p.copyOk = true)
    (hc : u.copyOf p.dst p.addr p.act p.key = some c) (hread : (readOrd (c.addr + p.addr % 4096) p.len).run u = .ok b u) :
    (getPiece t tag p dst).run u = .ok () (u.copyServes c t.id tag dst b) := by
  unfold getPiece
  rw [M.run_bind_ok (M.run_get u), if_pos hok, hc]
  exact (M.run_bind_ok hread).trans (M.run_upd _ _)

/-- A range that lies in one page is one piece. -/
theorem cutRange_page {a n : Nat} (fuel off : Nat) (hpos : 0 < n) (hpage : a % 4096 + n ≤ 4096) : cutRange true (fuel + 2) a off n = [(a, off, n)] := by
  have hlen : min n (4096 - a % 4096) = n := Nat.min_eq_left (by omega)
  unfold cutRange
  rw [if_neg (by omega), if_pos rfl, hlen]
  simp only [Nat.sub_self]
  unfold cutRange
  rfl

/-- CAR.GET of a part of one page that the copy store holds. -/
theorem execCarGet_copy {s : State} {o : Insn} {t : Strand} {j : Job} {n chan : Nat} {c : CopyPage} (h : Issues s Form.carGet o t j)
    (hn : n = (t.getS o.b).toNat) (hp : GetOperands s o t j n chan) (htags : ∀ x ∈ t.inflight, x.tag < s.nextId)
    (hreqs : ∀ r ∈ s.car.reqs, r.tag < s.nextId) (hpos : 0 < n) (hcopy : (o.fld 0 1 == 1) = true)
    (hpage : (decodeDsc (t.getD o.a)).base % 4096 + n ≤ 4096)
    (hc : s.copyOf (decodeDsc (t.getD o.a)).node (decodeDsc (t.getD o.a)).base j.act (keyOf o) = some c)
    (hquiet : Quiet s (c.addr + (decodeDsc (t.getD o.a)).base % 4096) n) : CompletesWith (execCarGet o s) fun u =>
      InFlight s u o t [.mem 0 (decodeDsc (t.getD o.dst)).base (s.readMem 0 (c.addr + (decodeDsc (t.getD o.a)).base % 4096) n).1] ∧
      u.mem = s.mem ∧ u.car.copies = c :: s.car.copies.filter (· != c) ∧ u.ctr 0x912 = (s.ctr 0x912 + 1) % 2 ^ 64 ∧ u.car.reqs = s.car.reqs := by
  obtain ⟨hheld, hreg, hclean, hawake⟩ := hquiet
  have hcuts : getCuts o (decodeDsc (t.getD o.a)) n = [((decodeDsc (t.getD o.a)).base, 0, n)] := by
    unfold getCuts
    rw [hcopy]
    exact cutRange_page _ 0 hpos hpage
  have hbytes : (((s.moved o t).atRack Form.carGet o t).readMem 0 (c.addr + (decodeDsc (t.getD o.a)).base % 4096) n).1 =
      (s.readMem 0 (c.addr + (decodeDsc (t.getD o.a)).base % 4096) n).1 := by
    unfold State.readMem
    rw [hreg]
    rfl
  have hread := readOrd_quiet (s := (s.moved o t).atRack Form.carGet o t) hheld hreg hclean hawake
  rw [hbytes] at hread
  generalize (s.readMem 0 (c.addr + (decodeDsc (t.getD o.a)).base % 4096) n).1 = b at hread
  have hpiece := getPiece_copy (u := (s.moved o t).atRack Form.carGet o t) (t := t) s.nextId (decodeDsc (t.getD o.dst)).base
    (p := getPacket s o j (decodeDsc (t.getD o.a)) ((decodeDsc (t.getD o.a)).base, 0, n)) hcopy hc hread
  have hlaunched := StrandIs.atRack (u := s.moved o t) (f := Form.carGet) h.strand rfl rfl
  have hnew : ∀ x ∈ t.inflight, x.tag ≠ s.nextId := fun x hx => Nat.ne_of_lt (htags x hx)
  have hserved := (hlaunched.congr (w := (((s.moved o t).atRack Form.carGet o t).useCopy c).count 0x912 1) rfl rfl).regate_last h.strand_id hnew rfl
    (.rack s.nextId) [.mem 0 (decodeDsc (t.getD o.dst)).base b]
  have hnone : (s.car.reqs.any fun r => r.strand == t.id && r.tag == s.nextId) = false := List.any_eq_false.2 fun r hr => by
    have hlt := hreqs r hr
    simp only [Bool.and_eq_true, beq_iff_eq, not_and]
    omega
  have hdone := StrandIs.rackDone (u := ((s.moved o t).atRack Form.carGet o t).copyServes c t.id s.nextId (decodeDsc (t.getD o.dst)).base b) hserved
    h.strand_id hnew rfl (g := .engine) (by exact if_neg (by rw [Bool.not_eq_true]; exact hnone)) []
  refine ⟨_, execCarGet_passes (a := ()) h hn hp ?_, ⟨⟨_, rfl, rfl, hdone.strand⟩, hdone.others⟩, hdone.mem, rfl,
    State.ctr_count_same (((s.moved o t).atRack Form.carGet o t).useCopy c) 0x912 1, rfl⟩
  rw [if_neg (by omega), hcuts]
  refine (M.run_bind_ok (launch_rack (s.moved o t) _ _ _)).trans ?_
  refine (M.run_bind_ok ((M.run_bind_ok hpiece).trans (M.run_pure _ _))).trans ?_
  exact M.run_upd _ _

/-- Settles O47: each request is recorded with its sequence number and offered to the link of its route. -/
theorem rackRequests : Obligations.RackRequests := by
  intro o s t j chan
  refine ⟨fun hr => ⟨fun h hin halign => execCarLd_asks h hr hin halign, fun h => execCarInv_asks h hr, fun h hd hfits hlen hmay htags hreqs => ?_⟩,
    fun hr => ⟨fun h hin halign => execCarSt_asks h hr rfl rfl hin halign, fun h hs hfits hlen hmay hquiet => ?_⟩, fun hr hin halign =>
    ⟨fun h => ?_, fun h => ?_⟩⟩
  · have hp : GetOperands s o t j _ chan := ⟨hr, hd, hfits, hlen, hmay⟩
    exact ⟨fun hpos hmiss => execCarGet_asks h rfl hp htags hpos hmiss, fun c hpos hcopy hpage hc hquiet =>
      execCarGet_copy h rfl hp htags hreqs hpos hcopy hpage hc hquiet, fun h0 => execCarGet_none h rfl hp h0⟩
  · have hp : PutOperands s o t j _ chan := ⟨hr, hs, hfits, hlen, hmay, hquiet⟩
    exact ⟨fun hpos => execCarPut_asks h rfl hp rfl hpos, fun h0 => execCarPut_none h rfl hp h0⟩
  · obtain ⟨u, hu, hasked⟩ := atomBody_asks (f := Form.carAtom) (op := .atom) (j := j) h.strand hr hin halign
    exact ⟨u, carIssue_ok h (Remote.room hr) hu, hasked⟩
  · obtain ⟨u, hu, hasked⟩ := atomBody_asks (f := Form.carAtomn) (op := .atomn) (j := j) h.strand hr hin halign
    exact ⟨u, carIssue_ok h (Remote.room hr) hu, hasked⟩

end Sys2Proof.Machine
end

section
/-! PROOFS. Matrix multiplication by the hewers (R119 to R121, R129). -/
namespace Sys2Proof.Machine

/-- The product of MMA in an accumulator format, added to an accumulator where there is one, and how many elements saturated (R120, R121). -/
def mmaProduct (af : Nat) (d : Option TileVal) (v w : TileVal) (ta tb : Bool) : TileVal × Nat :=
  if af = 6 then mmaInt d v w ta tb else (mmaFp d v w ta tb, 0)

/-- What MMA counts for its crew at its completion point. -/
def mmaCounts (crew n : Nat) : List Effect :=
  [.count (F.crewSatCount_count crew).off (F.crewSatCount_count crew).lo (F.crewSatCount_count crew).width n,
    .count64 (F.crewMmaLo_count crew).off (F.crewMmaHi_count crew).off 1]

/-- The operands of an MMA: two tiles at rest that R119 accepts, whose reading promotes neither. -/
structure MmaOperands (s : State) (t : Strand) (o : Insn) (x y : Tile) (v w : TileVal) : Prop where
  left : AtRest s t o.a x v
  right : AtRest s t o.b y w
  leftStays : NotPromoted s t x
  rightStays : NotPromoted s t y
  accepted : mmaAccepts v w (o.fld 0 1 == 1) (o.fld 1 1 == 1) = true
  leftScales : v.badScale = false
  rightScales : w.badScale = false

namespace MmaOperands
variable {s : State} {t : Strand} {o : Insn} {x y : Tile} {v w : TileVal}

theorem moved (h : MmaOperands s t o x y v w) : MmaOperands (s.moved o t) t o x y v w :=
  ⟨h.left.moved o, h.right.moved o, h.leftStays, h.rightStays, h.accepted, h.leftScales, h.rightScales⟩

/-- What R119 asks is a matter of the operands' records. -/
theorem records (h : MmaOperands s t o x y v w) : mmaAccepts (x.val []) (y.val []) (o.fld 0 1 == 1) (o.fld 1 1 == 1) = true ∧
    (!((x.val []).badScale || (y.val []).badScale)) = true ∧ accFmt (x.val []) (y.val []) = accFmt v w := by
  obtain ⟨hx, hy, -, -, hacc, hv, hw⟩ := h
  obtain ⟨_, rfl, -⟩ := hx.value
  obtain ⟨_, rfl, -⟩ := hy.value
  refine ⟨hacc, ?_, rfl⟩
  rw [show (x.val []).badScale = false from hv, show (y.val []).badScale = false from hw]
  rfl

/-- MMA's checks pass: what it does with the operands' records is all that is left to run. -/
theorem checks_run {α : Type} (h : MmaOperands s t o x y v w) (rest : Tile → Tile → M α) :
    ∃ u, TileReads s u ∧ u.fil.tiles = s.fil.tiles ∧ (do
      hewBusy t
      let ra ← tileAt t o.a
      let rb ← tileAt t o.b
      need (mmaAccepts (ra.val []) (rb.val []) (o.fld 0 1 == 1) (o.fld 1 1 == 1)) cTile
      need (!((ra.val []).badScale || (rb.val []).badScale)) cTile
      rest ra rb : M α).run s = (rest x y).run u := by
  obtain ⟨u, hu, g, htiles⟩ := hewBusy_run s t
  obtain ⟨hacc, hscale, -⟩ := h.records
  refine ⟨u, g, htiles, ?_⟩
  rw [M.run_bind_ok hu, M.run_bind_ok (tileAt_rest _ h.left htiles rfl), M.run_bind_ok (tileAt_rest _ h.right htiles rfl),
    need_pure _ _ hacc, M.bind_pure, need_pure _ _ hscale, M.bind_pure]

/-- The operands read at use: what is made of them is all that is left to run. -/
theorem reads_run {u : State} {p : TileVal × Nat} {rest : TileVal → TileVal → M (TileVal × Nat)} (j : Job) (crew : Nat)
    (h : MmaOperands s t o x y v w) (g : TileReads s u) (hrest : ∀ m, TileReads s m → ∃ n, TileReads s n ∧ (rest v w).run m = .ok p n) :
    ∃ n, TileReads s n ∧ (quotaFirst j.act crew 4096 do
      let a ← useTile t j o.a x true
      let b ← useTile t j o.b y true
      rest a b).run u = .ok p n := by
  obtain ⟨u1, hu1, g1⟩ := useTile_hew j h.left h.leftStays g
  obtain ⟨u2, hu2, g2⟩ := useTile_hew j h.right h.rightStays g1
  obtain ⟨n, gn, hn⟩ := hrest u2 g2
  refine ⟨n, gn, quotaFirst_ok _ _ _ ?_⟩
  rw [M.run_bind_ok hu1, M.run_bind_ok hu2, hn]

end MmaOperands

/-- MMA with ZERO makes a new tile of the product. -/
theorem execHewMma_makes {s : State} {o : Insn} {t : Strand} {j : Job} {x y : Tile} {v w : TileVal} {a : Nat} {p : TileVal × Nat}
    (h : Issues s Form.hewMma o t j) (ops : MmaOperands s t o x y v w) (hzero : o.fld 2 1 = 1)
    (hprod : mmaProduct (accFmt v w) none v w (o.fld 0 1 == 1) (o.fld 1 1 == 1) = p) (room : RoomAt s t j p.1.data.length a) :
    CompletesWith (execHewMma o s) fun u => MakesTile s u o t p.1 a (mmaCounts t.crew p.2) := by
  obtain ⟨u, g, -, hchecks⟩ := ops.moved.checks_run (α := List Effect) _
  obtain ⟨n, gn, hreads⟩ := ops.moved.reads_run (rest := fun a b => pure (mmaProduct (accFmt (x.val []) (y.val [])) none a b
      (o.fld 0 1 == 1) (o.fld 1 1 == 1))) j t.crew g fun m gm => ⟨m, gm, by rw [ops.records.2.2, hprod]; rfl⟩
  unfold execHewMma
  simp only [hzero, beq_self_eq_true, if_true]
  refine makesTile_ok h (clear_nil t) gn room fun m hm => hchecks.trans ?_
  refine (M.run_bind_ok hreads).trans ?_
  exact (M.run_bind_ok hm).trans rfl

/-- MMA without ZERO gives its accumulator's tile new contents. -/
theorem execHewMma_rewrites {s : State} {o : Insn} {t : Strand} {j : Job} {x y z : Tile} {v w acc : TileVal} {a : Nat} {p : TileVal × Nat}
    (h : Issues s Form.hewMma o t j) (ops : MmaOperands s t o x y v w) (hzero : o.fld 2 1 = 0) (hc : t.clear [.t o.dst] [] = true)
    (hz : AtRest s t o.dst z acc) (hstays : NotPromoted s t z) (hfmt : z.fmt = accFmt v w) (hshape : z.shape = 0)
    (hprod : mmaProduct (accFmt v w) (some acc) v w (o.fld 0 1 == 1) (o.fld 1 1 == 1) = p) (room : RoomAt s t j p.1.data.length a) :
    CompletesWith (execHewMma o s) fun u => RewritesTile s u o t z p.1 a (mmaCounts t.crew p.2) := by
  have hz' : AtRest (s.moved o t) t o.dst z acc := hz.moved o
  obtain ⟨-, -, haf⟩ := ops.records
  obtain ⟨u, g, htiles, hchecks⟩ := ops.moved.checks_run (α := List Effect) _
  obtain ⟨n, gn, hreads⟩ := ops.moved.reads_run (p := p) (rest := fun a b => do
      let c ← useTile t j o.dst z true
      pure (mmaProduct (accFmt (x.val []) (y.val [])) (some c) a b (o.fld 0 1 == 1) (o.fld 1 1 == 1))) j t.crew g fun m gm => by
    obtain ⟨k, hk, gk⟩ := useTile_hew j hz' hstays gm
    exact ⟨k, gk, (M.run_bind_ok hk).trans (by rw [haf, hprod]; rfl)⟩
  have hacc := tileAt_rest (fun c => c.fmt == accFmt (x.val []) (y.val []) && c.shape == 0) hz' htiles
    (by rw [haf, hfmt, hshape, beq_self_eq_true]; rfl)
  unfold execHewMma
  simp only [hzero, Nat.reduceBEq, Bool.false_eq_true, if_false]
  refine rewritesTile_ok h hc gn room fun m e hm => hchecks.trans ?_
  refine (M.run_bind_ok hacc).trans ?_
  refine (M.run_bind_ok hreads).trans ?_
  exact (M.run_bind_ok hm).trans rfl

/-- Settles O25: the operands pass and are read, and the product goes into a new tile or into new contents of the accumulator. -/
theorem matrixMultiply : Obligations.MatrixMultiply := by
  intro o s t j x y z v w acc a h ta tb product sat counts hx hy hp hq hacc hv hw
  have ops : MmaOperands s t o x y v w := ⟨hx, hy, hp, hq, hacc, hv, hw⟩
  exact ⟨fun hzero room => execHewMma_makes h ops hzero rfl room,
    fun hzero hc hz hstays hfmt hshape room => execHewMma_rewrites h ops hzero hc hz hstays hfmt hshape rfl room⟩

end Sys2Proof.Machine
end

section
/-! PROOFS. Distances to a tile's rows, and the rerank of a list by the vectors that arrive (R127, R202, R224, R225). -/
namespace Sys2Proof.Machine

/-! ## Writes that disturb nothing -/

/-- A write of a writable range with no stack asleep changes memory alone, and leaves the flip mask unarmed. -/
theorem State.writeMem_awake {s : State} {source a : Nat} {data : List Byte} (hw : s.mem.wf = true) (h : Writable s a data.length)
    (hawake : s.rd F.pwrStackState_inP3 = 0) : Stores s (s.writeMem source a data) a data ∧ { s.writeMem source a data with mem := s.mem } = s := by
  obtain ⟨-, hstores, -, -, honly⟩ := State.writeMem_stores (source := source) hw h
  have htouch : s.touch a data.length = s := by
    unfold State.touch
    rw [if_pos hawake]
  rw [htouch] at honly
  exact ⟨hstores, honly⟩

/-- A flip mask that is not armed leaves a checksum as it is. -/
theorem State.flipCrc_unarmed {s : State} (crew crc : Nat) (h : s.rd F.memFlipCtrl_arm = 0) : s.flipCrc crew crc = (crc, s) := by
  have harm : s.on F.memFlipCtrl_arm = false := by
    unfold State.on
    rw [h]
    rfl
  unfold State.flipCrc
  rw [harm]
  rfl

theorem Stores.congr {s u s' u' : State} {a : Nat} {data : List Byte} (h : Stores s u a data) (hs : s'.mem = s.mem) (hu : u'.mem = u.mem) :
    Stores s' u' a data := by
  unfold Stores State.byteAt at *
  rw [hs, hu]
  exact h

theorem Writable.congr {s u : State} {a n : Nat} (h : Writable s a n) (hm : u.mem = s.mem)
    (harm : u.rd F.memFlipCtrl_arm = s.rd F.memFlipCtrl_arm) : Writable u a n := by
  unfold Writable at *
  rw [hm, harm]
  exact h

/-! ## The tier moves of a tile, abandoned (R295) -/

theorem State.abandonMoves_tiles (s : State) (tile : Nat) : (s.abandonMoves tile).fil.tiles = s.fil.tiles :=
  foldl_keeps (f := State.abandonMove) (P := fun u => u.fil.tiles = s.fil.tiles) (fun _ _ h => h) _ rfl

theorem State.abandonMoves_rd (s : State) (tile : Nat) (f : FieldRef) (h : F.memMoveAbandon_count.off ≠ f.off) :
    (s.abandonMoves tile).rd f = s.rd f := by
  have hone : ∀ (u : State) (m : TierMove), (u.abandonMove m).rd f = u.rd f := fun u m => by
    unfold State.rd
    rw [show (u.abandonMove m).reg f.off = (u.bump F.memMoveAbandon_count 1).reg f.off from rfl, State.reg_bump_other _ _ _ h]
  exact foldl_keeps (f := State.abandonMove) (P := fun u => u.rd f = s.rd f) (fun u m hu => (hone u m).trans hu) _ rfl

/-! ## The end of a rerank (R224, R225) -/

/-- The entries of a rerank whose vectors have arrived, in the order of R100. -/
def Rerank.results (r : Rerank) (i : Index) : List Entry := sortBy (Entry.before 1) ((List.range r.entries.length).map (r.score i))

/-- The list that a rerank gives. -/
def Rerank.list (r : Rerank) (i : Index) : TileVal := listTile 1 r.stride [r.results i] [(false, false, Acc320.zero)] none

/-- What the results of a rerank note in its job. -/
def State.rerankNotes (s : State) (job : Nat) (es : List Entry) : State :=
  let s := if es.any (bitOf ·.flags 2) then s.setMask job 4 else s
  if es.any (bitOf ·.flags 1) then s.softOutcome job else s

theorem State.rerankNotes_only (s : State) (job : Nat) (es : List Entry) :
    { s.rerankNotes job es with fil := { (s.rerankNotes job es).fil with jobs := s.fil.jobs } } = s := by
  unfold State.rerankNotes
  simp only []
  split <;> split <;> rfl

/-- The state with a rerank's list in its tile, before its instruction can complete. -/
def State.rerankListed (s : State) (r : Rerank) (i : Index) (x : Tile) : State :=
  let p := ((s.abandonMoves x.id).writeMem 0 x.home (r.list i).data).flipCrc
    (((((s.abandonMoves x.id).writeMem 0 x.home (r.list i).data).anyStrand? r.strand).map (·.crew)).getD 16) (r.list i).crc
  let u := (p.2.modTile x.id fun y => { y with crc := p.1, info := (r.list i).info }).rerankNotes r.job (r.results i)
  { u with idx := { u.idx with reranks := u.idx.reranks.filter (·.id != r.id) } }

section
variable {s : State} {r : Rerank}

theorem State.tryRerank_waits (h : s.idx.reranks.find? (·.id == r.id) = some r) (hc : r.complete = false) : s.tryRerank r.id = s := by
  unfold State.tryRerank
  rw [h]
  simp only [hc]
  rfl

theorem State.tryRerank_ends {i : Index} {x : Tile} (h : s.idx.reranks.find? (·.id == r.id) = some r) (hc : r.complete = true) (hcut : r.cut = none)
    (hi : s.index? r.act = some i) (hx : s.tile? r.tile = some x) :
    s.tryRerank r.id = (s.rerankListed r i x).regate r.strand r.tag .engine [] := by
  unfold State.tryRerank
  rw [h]
  simp only [hc, hi, hx, hcut]
  rfl

/-- The list of a rerank goes into its tile, and nothing else but its job, the moves of the tile and the rerank itself changes. -/
theorem State.rerankListed_does {i : Index} {x : Tile} (hx : s.tile? r.tile = some x) (hw : Writable s x.home (r.list i).data.length)
    (hwf : s.mem.wf = true) (hawake : s.rd F.pwrStackState_inP3 = 0) :
    Stores s (s.rerankListed r i x) x.home (r.list i).data ∧ (s.rerankListed r i x).fil.strands = s.fil.strands ∧
    (s.rerankListed r i x).tile? r.tile = some { x with crc := (r.list i).crc, info := (r.list i).info } ∧
    (s.rerankListed r i x).idx.reranks = s.idx.reranks.filter (·.id != r.id) := by
  have hmoves := TilesOnly.abandonMoves s x.id
  have htiles := s.abandonMoves_tiles x.id
  have harm := s.abandonMoves_rd x.id F.memFlipCtrl_arm (by decide)
  have hstack := s.abandonMoves_rd x.id F.pwrStackState_inP3 (by decide)
  unfold State.rerankListed
  generalize s.abandonMoves x.id = m at *
  obtain ⟨hstores, honly⟩ := State.writeMem_awake (source := 0) (hmoves.mem ▸ hwf) (hw.congr hmoves.mem harm) (hstack.trans hawake)
  generalize m.writeMem 0 x.home (r.list i).data = w at *
  have hwarm : w.rd F.memFlipCtrl_arm = 0 := by
    have hregs := congrArg State.regs honly
    rw [rd_of_regs (u := w) (s := m) hregs, harm]
    exact hw.2.1
  simp only [State.flipCrc_unarmed _ _ hwarm]
  have hnotes := (w.modTile x.id fun y => { y with crc := (r.list i).crc, info := (r.list i).info }).rerankNotes_only r.job (r.results i)
  generalize (w.modTile x.id fun y => { y with crc := (r.list i).crc, info := (r.list i).info }).rerankNotes r.job (r.results i) = u at *
  have hwfil : w.fil = m.fil := by have h := congrArg State.fil honly; exact h
  have hmidx : m.idx = s.idx := by have h := congrArg State.idx (show _ = s from hmoves); exact h
  have hwidx : w.idx = m.idx := by have h := congrArg State.idx honly; exact h
  have humem : u.mem = w.mem := by have h := congrArg State.mem hnotes; exact h
  have huidx : u.idx = w.idx := by have h := congrArg State.idx hnotes; exact h
  have hustrands : u.fil.strands = w.fil.strands := by have h := congrArg (fun v : State => v.fil.strands) hnotes; exact h
  have hutiles : u.fil.tiles = (w.modTile x.id fun y => { y with crc := (r.list i).crc, info := (r.list i).info }).fil.tiles := by
    have h := congrArg (fun v : State => v.fil.tiles) hnotes; exact h
  refine ⟨hstores.congr hmoves.mem.symm humem, ?_, ?_, ?_⟩
  · show u.fil.strands = _
    rw [hustrands, hwfil, hmoves.strands]
  · have hid : x.id = r.tile := by simpa using List.find?_some hx
    show u.fil.tiles.find? _ = _
    rw [hutiles]
    unfold State.modTile
    simp only []
    rw [hwfil, htiles, find_updWhere, show s.fil.tiles.find? (·.id == r.tile) = some x from hx, Option.map_some, if_pos (beq_iff_eq.2 rfl)]
    intro y
    split <;> rfl
  · show u.idx.reranks.filter _ = _
    rw [huidx, hwidx, hmidx]

/-- The instruction of a rerank that is listed can complete. -/
theorem State.rerankListed_completes {i : Index} {x : Tile} (hx : s.tile? r.tile = some x) (hw : Writable s x.home (r.list i).data.length)
    (hwf : s.mem.wf = true) (hawake : s.rd F.pwrStackState_inP3 = 0) :
    let u := (s.rerankListed r i x).regate r.strand r.tag .engine []
    Stores s u x.home (r.list i).data ∧ u.tile? r.tile = some { x with crc := (r.list i).crc, info := (r.list i).info } ∧
    u.idx.reranks.find? (·.id == r.id) = none ∧
    ∀ v : Strand, s.strand? r.strand = some v → ∃ v', u.strand? r.strand = some v' ∧ v' = { v with inflight := v'.inflight } ∧
      v'.inflight = v.inflight.map fun fl => if fl.tag = r.tag then { fl with gate := .engine } else fl := by
  obtain ⟨hstores, hstrands, htile, hreranks⟩ := State.rerankListed_does hx hw hwf hawake
  generalize s.rerankListed r i x = u at *
  refine ⟨hstores, htile, ?_, fun v hv => ⟨v.regates r.tag .engine [], ?_, rfl, ?_⟩⟩
  · show u.idx.reranks.find? _ = none
    rw [hreranks, List.find?_eq_none]
    intro q hq
    simpa using (List.mem_filter.1 hq).2
  · exact u.strand_modStrand r.strand (Strand.regates r.tag .engine []) ((State.strand_congr hstrands _).trans hv) (fun _ => rfl) fun _ => rfl
  · refine List.map_congr_left fun fl _ => ?_
    simp [Inflight.regated]

/-! ## The arrival of a vector (R224) -/

/-- A fetch whose vector has arrived: what this node served, or what another node sent. -/
def Fetch.arrives (f : Fetch) (own : Prop) [Decidable own] (vec : Option (List Byte)) (cached : Bool) : Fetch :=
  if own then { f with arrived := true } else ⟨true, true, vec, cached⟩

theorem updAt_const {α : Type} (l : List α) (i : Nat) (a : α) : updAt l i (fun _ => a) = l.set i a := by
  induction l generalizing i with
  | nil => rfl
  | cons b l ih =>
    cases i with
    | zero => rfl
    | succ i => exact congrArg (b :: ·) (ih i)

/-- A rerank with one fetch replaced. -/
def Rerank.withFetch (r : Rerank) (pos : Nat) (f : Fetch) : Rerank := { r with fetches := r.fetches.set pos f }

theorem State.modRerank_find {id : Nat} {g : Rerank → Rerank} (h : s.idx.reranks.find? (·.id == id) = some r) (hid : ∀ q, (g q).id = q.id) :
    (s.modRerank id g).idx.reranks.find? (·.id == id) = some (g r) := by
  refine (find_updWhere (·.id == id) (·.id == id) g s.idx.reranks fun q => ?_).trans ?_
  · split <;> simp [hid]
  · rw [h, Option.map_some, if_pos (List.find?_some h)]

theorem execRerankFetchArrive_arrives {pos : Nat} {f : Fetch} {vec : Option (List Byte)} {cached : Bool}
    (h : s.idx.reranks.find? (·.id == r.id) = some r) (hf : r.fetches[pos]? = some f) (hnew : f.arrived = false)
    (hserved : (entryAt (r.entries.getD pos []) 0).node = s.self → f.served = true) :
    execRerankFetchArrive r.id pos vec cached s = .next ((s.modRerank r.id fun q =>
      q.withFetch pos (f.arrives ((entryAt (r.entries.getD pos []) 0).node = s.self) vec cached)).tryRerank r.id) := by
  have hgo : (f.arrived || ((entryAt (r.entries.getD pos []) 0).node == s.self && !f.served)) = false := by simpa [hnew] using hserved
  unfold execRerankFetchArrive
  simp only [h, hf, hgo, updAt_const]
  rfl

end

/-! ## DIST of a numeric tile (R127) -/

theorem execSluDist_makes {s : State} {o : Insn} {t : Strand} {j : Job} {a : Nat} {y : Tile} {w out : TileVal} {q : List Nat}
    (h : Issues s Form.sluDist o t j) (hstable : (t.getS 62).toNat ≤ s.tally.stable) (hy : AtRest s t o.b y w) (hfmt : isNumeric y.fmt = true)
    (hq : VectorAt s t j o.a (shapeCols y.fmt y.shape) q)
    (hc : t.clear (.s 62 :: (vecHandles o.a (shapeCols y.fmt y.shape)).map Res.t) [] = true) (hout : tileDistances (o.fld 0 2) q w = out)
    (room : RoomAt s t j out.data.length a) : CompletesWith (execSluDist o s) fun u => MakesTile s u o t out a := by
  have hlist : ¬ y.fmt = 8 := by
    rintro h8
    rw [h8] at hfmt
    cases hfmt
  obtain ⟨u, hu, g⟩ := vectorAt_run o hq
  obtain ⟨n, hn, gn⟩ := useTile_run (j := j) false ((hy.toAtHome.moved (t' := t) o).mono g) nofun
  have gn' := g.trans gn
  have hread : (do
      let q ← vectorAt t j o.a (shapeCols y.fmt y.shape)
      let w ← useTile t j o.b y
      pure (tileDistances (o.fld 0 2) q w) : M TileVal).run (s.moved o t) = .ok out n := by
    rw [M.run_bind_ok hu, M.run_bind_ok hn, hout]
    rfl
  obtain ⟨m, hm, hstrands, hstores, hregs, htiles, -⟩ := newTile_run gn' (room.moved o)
  have hrun := makesTile_finish (home := (out.data, false)) (regs := []) (v := out) (a := a)
    (flightOf Form.sluDist o t m .engine (.s 62 :: (vecHandles o.a (shapeCols y.fmt y.shape)).map Res.t) [] [.bindT o.dst s.nextId])
    h.strand room.fresh hstrands
    htiles gn'.2.2 ⟨rfl, rfl, rfl, rfl, rfl, rfl⟩ hstores (fun off ho _ => hregs off ho) rfl rfl
  refine ⟨_, issue_ok (a := ()) h ?_, hrun⟩
  refine (M.run_bind_ok (snapshotFor_run 6 1 o hstable)).trans ?_
  refine (M.run_bind_ok (tileAt_run _ hy.handle (show (s.moved o t).tile? y.id = some y from hy.tile) (by rw [hfmt]; rfl))).trans ?_
  refine (congrArg (fun m : M Unit => m.run _) (if_neg hlist)).trans ?_
  simp only [hc]
  refine (M.run_bind_ok (quotaFirst_ok _ _ _ hread)).trans ?_
  exact (M.run_bind_ok hm).trans rfl

/-! ## A result tile that waits for its contents (R241) -/

/-- A tile placed for an output that is still to come: nothing but the allocations, the tiles and the next identifier changes. -/
theorem State.reserveTile_rest {s : State} {t : Strand} {j : Job} {v : TileVal} {a : Nat} (room : RoomAt s t j v.data.length a) :
    let m := (s.reserveTile j.act t.crew v).2
    { m with nextId := s.nextId, fil := { m.fil with allocs := s.fil.allocs, tiles := s.fil.tiles } } = s ∧ m.nextId = s.nextId + 1 ∧
    m.fil.allocs = (s.allocCrew j.act t.crew v.data.length (.tile s.nextId)).2.fil.allocs := by
  obtain ⟨hplace, hallocs⟩ := allocCrew_reads (u := s.fresh) (s := s) j.act t.crew v.data.length (.tile s.nextId) rfl rfl
  have honly := allocCrew_only s.fresh j.act t.crew v.data.length (.tile s.nextId)
  rw [room.placed] at hplace
  unfold State.reserveTile State.homeFor
  simp only [Bool.false_eq_true, if_false]
  generalize s.fresh.allocCrew j.act t.crew v.data.length (.tile s.nextId) = p at *
  obtain ⟨_, m⟩ := p
  simp only at hplace hallocs honly
  subst hplace
  refine ⟨?_, ?_, hallocs⟩
  · have h := congrArg (fun u : State => { u with nextId := s.nextId, fil := { u.fil with tiles := s.fil.tiles } }) honly
    exact h
  · have h := congrArg State.nextId honly
    exact h

/-- A blank result tile made in the crew store. -/
theorem newBlank_run {s : State} {t : Strand} {j : Job} {v : TileVal} {a : Nat} (room : RoomAt s t j v.data.length a) :
    ∃ w, (newBlank t j v).run s = .ok s.nextId w ∧ Stores s w a v.data ∧ w.nextId = s.nextId + 1 ∧
      { w with mem := s.mem, nextId := s.nextId, fil := { w.fil with allocs := s.fil.allocs, tiles := s.fil.tiles } } = s := by
  obtain ⟨m, hreserve, -, htiles, -, -, hmem⟩ := reserveTile_run room
  obtain ⟨hrest, hnext, hallocs⟩ := State.reserveTile_rest room
  have hfound := reservedTile_found htiles room.fresh
  rw [hreserve] at hrest hnext hallocs
  simp only at hrest hnext hallocs
  have hregs : m.regs = s.regs := by have h := congrArg State.regs hrest; exact h
  obtain ⟨hstores, honly⟩ := State.writeMem_awake (s := m) (source := 0) (a := a) (data := v.data) (hmem ▸ room.canonical)
    (room.stores.congr hmem (rd_of_regs hregs _)) ((rd_of_regs hregs _).trans room.awake)
  have hrun : (newBlank t j v).run s = .ok s.nextId ((m.writeMem 0 a v.data).tierManage j.act t.crew) := by
    unfold newBlank
    rw [M.run_bind_ok (M.run_updGet _ _), hreserve]
    simp only []
    rw [M.run_bind_ok (M.run_upd _ _), hfound, M.run_bind_ok (M.run_upd _ _)]
    rfl
  generalize m.writeMem 0 a v.data = w at *
  have hwfil : w.fil = m.fil := by have h := congrArg State.fil honly; exact h
  have hwregs : w.regs = s.regs := by have h := (congrArg State.regs honly).trans hregs; exact h
  have hwnext : w.nextId = m.nextId := by have h := congrArg State.nextId honly; exact h
  refine ⟨w, ?_, hstores.congr hmem.symm rfl, hwnext.trans hnext, ?_⟩
  · rw [hrun, tierManage_quiet]
    · unfold State.crewUse
      rw [hwfil, hallocs, rd_of_regs hwregs]
      exact room.quota
    · rw [hwfil, hallocs]
      exact room.spare
  · have hmade := congrArg (fun u : State => { u with
      mem := s.mem
      nextId := s.nextId
      fil := { u.fil with allocs := s.fil.allocs, tiles := s.fil.tiles } }) honly
    have hplaced := congrArg (fun u : State => { u with mem := s.mem }) hrest
    exact hmade.trans hplaced

/-! ## DIST of a list of estimates (R224, R225) -/

/-- What DIST of a list asks: a list of estimates at rest, a query of the index's dimension, a slot q0 of its metric, no forced or late cut,
and an entry whose vector is still needed. -/
structure RerankOperands (s : State) (o : Insn) (t : Strand) (j : Job) (y : Tile) (w : TileVal) (l : ListInfo) (i : Index) (q0 : Slot)
    (q : List Nat) : Prop where
  tile : AtRest s t o.b y w
  fmt : y.fmt = 8
  info : w.info = some l
  kind : l.kind = 0
  lane : l.dirs.length = 1
  index : s.index? j.act = some i
  query : VectorAt s t j o.a i.dim q
  clear : t.clear (.q 0 :: .s 62 :: (vecHandles o.a i.dim).map Res.t) [] = true
  slot : t.getQ 0 = some q0
  metric : q0.metric = o.fld 0 2
  unforced : bitOf j.desc.flags 6 = false
  early : s.late j = false
  needed : ∃ e ∈ laneEntries w l 0, bitOf e.flags 1 = false
  fresh : ∀ r ∈ s.idx.reranks, r.id ≠ s.nextId + 1

/-- The rerank that DIST begins for a list without a forced cut: no vector has arrived. -/
def rerankOf (t : Strand) (j : Job) (tile stride : Nat) (query : List Nat) (es : List Entry) (q : Slot) (id tag : Nat) : Rerank :=
  ⟨id, j.act, j.id, t.id, tag, tile, stride, query, es.map Entry.bytes, q.scale, q.bias, q.metric,
    es.map fun e => ⟨false, bitOf e.flags 1, none, false⟩, none⟩

/-- The vectors of a list asked for at their homes. -/
def State.asksVectors (s : State) (act id : Nat) (es : List Entry) : State :=
  es.zipIdx.foldl (fun s e =>
    if bitOf e.1.flags 1 || e.1.node == s.self then s else s.sendNode e.1.node act 1 none 16 (.fetch e.1.node act e.1.loc id e.2)) s

theorem State.asksVectors_sends (s : State) (act id : Nat) (es : List Entry) : SendsOnly s (s.asksVectors act id es) := by
  refine SendsOnly.fold (fun s e => ?_) _ _
  split
  · exact .refl s
  · exact .sendNode s _ _ _ _ _ _

theorem entryUncorr_bytes (e : Entry) : entryUncorr e.bytes = bitOf e.flags 1 := by
  have h7 : slice e.bytes 7 1 = leBytes e.flags 1 := by
    simp [slice, Entry.bytes, leBytes]
  unfold entryUncorr leAt
  rw [h7]
  simp only [leBytes, leNat, bitOf, BitVec.toNat_ofNat, Nat.mul_zero, Nat.add_zero]
  rw [Nat.testBit_mod_two_pow]
  rfl

/-- A rerank with an entry whose vector is still needed is not complete. -/
theorem rerankOf_waits {t : Strand} {j : Job} {tile stride : Nat} {query : List Nat} {es : List Entry} {q : Slot} {id tag : Nat}
    (h : ∃ e ∈ es, bitOf e.flags 1 = false) : (rerankOf t j tile stride query es q id tag).complete = false := by
  obtain ⟨e, he, hneeded⟩ := h
  obtain ⟨p, hp, rfl⟩ := List.mem_iff_getElem.1 he
  refine List.all_eq_false.2 ⟨p, ?_, ?_⟩
  · simpa [rerankOf] using hp
  · unfold Rerank.settled rerankOf
    simp [hp, entryUncorr_bytes, hneeded]

/-- The state of DIST of a list once its rerank waits: its instruction is in flight, and the vectors are asked for. -/
def State.reranks (b : State) (o : Insn) (t : Strand) (r : Rerank) (reads : List Res) : State :=
  let s := b.fresh.fresh.modStrand o.strand fun v =>
    { v with inflight := v.inflight ++ [flightOf Form.sluDist o t b.fresh (.rerank r.id) reads [] [.bindT o.dst r.tile]] }
  { s with idx := { s.idx with reranks := s.idx.reranks ++ [r] } }

/-- The rerank that DIST begins is the one of its identifier, and it waits. -/
theorem State.reranks_waits {b v : State} {o : Insn} {t : Strand} {r : Rerank} {reads : List Res} (hid : r.id = b.nextId)
    (hnew : ∀ q ∈ b.idx.reranks, q.id ≠ b.nextId) (hc : r.complete = false) (h : SendsOnly (b.reranks o t r reads) v) :
    v.tryRerank b.nextId = v := by
  rw [← hid] at hnew ⊢
  refine State.tryRerank_waits ?_ hc
  rw [h.idx]
  show (b.idx.reranks ++ [r]).find? _ = _
  rw [List.find?_append, List.find?_eq_none.2 fun q hq => by simpa using hnew q hq]
  simp

/-- The instruction of a rerank is in flight, and it waits for the rerank. -/
theorem State.reranks_flight {s b v : State} {o : Insn} {t : Strand} {r : Rerank} {reads : List Res} (ht : s.strand? o.strand = some t)
    (hb : b.fil.strands = (s.moved o t).fil.strands) (h : SendsOnly (b.reranks o t r reads) v) :
    v.strand? o.strand = some { t.after o with
      inflight := t.inflight ++ [flightOf Form.sluDist o t b.fresh (.rerank r.id) reads [] [.bindT o.dst r.tile]] } ∧
    ∀ k, k ≠ o.strand → v.anyStrand? k = s.anyStrand? k := by
  have hin := ((StrandIs.moved ht).congr (w := { b.fresh.fresh with mem := s.mem }) hb rfl).modStrand
    (fun v => { v with inflight := v.inflight ++ [flightOf Form.sluDist o t b.fresh (.rerank r.id) reads [] [.bindT o.dst r.tile]] })
    (fun _ => rfl) fun _ => rfl
  exact ⟨(State.strand_congr h.strands _).trans hin.strand, fun k hk => (State.anyStrand_congr h.strands k).trans (hin.others k hk)⟩

/-- What DIST of a list does once its query and its list are read: the rerank of its entries waits. -/
theorem distList_waits {s m b : State} {o : Insn} {t : Strand} {j : Job} {y : Tile} {w : TileVal} {l : ListInfo} {i : Index} {q0 : Slot}
    {q : List Nat} {tile : Nat} {r : Rerank} (ops : RerankOperands s o t j y w l i q0 q) (hread : (do
      let query ← vectorAt t j o.a i.dim
      pure (query, ← useTile t j o.b y) : M (List Nat × TileVal)).run (s.moved o t) = .ok (q, w) m)
    (hblank : (newBlank t j (listTile 1 l.stride [laneEntries w l 0] [(false, false, Acc320.zero)] none)).run m = .ok tile b)
    (htally : b.tally = s.tally) (hidx : b.idx = s.idx) (hnext : b.nextId = s.nextId + 1)
    (hr : rerankOf t j tile l.stride q (laneEntries w l 0) q0 b.nextId (b.nextId + 1) = r) :
    ∃ v reads, (distList o t j y).run (s.moved o t) = .ok () v ∧ SendsOnly (b.reranks o t r reads) v := by
  obtain ⟨-, -, hl, -, -, hi, -, -, hq0, hmetric, hforced, hlate, hneeded, hnew⟩ := ops
  rw [← hidx, ← hnext] at hnew
  have hslot : slotAt t 0 = (pure q0 : M Slot) := orFault_pure _ _ hq0
  have hsends := (b.reranks o t r (.q 0 :: .s 62 :: b.fresh.vecReads o.strand o.a)).asksVectors_sends j.act b.nextId (laneEntries w l 0)
  have hwaits := State.reranks_waits (by rw [← hr]; rfl) hnew (hr ▸ rerankOf_waits hneeded) hsends
  have hfetches : (laneEntries w l 0).zipIdx.map (fun e => (⟨false, bitOf e.1.flags 1, none, false⟩ : Fetch)) =
      (laneEntries w l 0).map fun e => ⟨false, bitOf e.flags 1, none, false⟩ := by
    conv_rhs => rw [← List.zipIdx_map_fst 0 (laneEntries w l 0), List.map_map]
    rfl
  refine ⟨_, _, ?_, hsends⟩
  unfold distList
  refine (M.run_bind_ok (indexOf_run cTile (show (s.moved o t).index? j.act = some i from hi))).trans ?_
  rw [hslot, M.bind_pure, need_pure _ _ (beq_iff_eq.2 hmetric), M.bind_pure]
  refine (M.run_bind_ok (quotaFirst_ok _ _ _ hread)).trans ?_
  simp only [orFault_pure _ _ hl, M.bind_pure, hforced, Bool.false_and, Bool.false_eq_true, if_false, Bool.or_false]
  refine (M.run_bind_ok hblank).trans ?_
  refine (M.run_bind_ok (M.run_get _)).trans ?_
  refine (M.run_bind_ok (M.run_set _ _)).trans ?_
  refine (M.run_bind_ok (M.run_get _)).trans ?_
  rw [hfetches]
  refine (M.run_bind_ok (M.run_upd _ _)).trans ?_
  refine (M.run_bind_ok (M.run_upd _ _)).trans ?_
  refine (M.run_bind_ok (M.run_upd _ _)).trans ?_
  generalize hv : (b.reranks o t r (.q 0 :: .s 62 :: b.fresh.vecReads o.strand o.a)).asksVectors j.act b.nextId
    (laneEntries w l 0) = v at hsends hwaits ⊢
  have hlate' : ¬ v.late j = true := by
    unfold State.late State.now at *
    rw [hsends.tally, show (b.reranks o t r _).tally = b.tally from rfl, htally]
    exact ne_true_of_eq_false hlate
  subst hr
  refine (congrArg (fun x => EStateM.run _ x) hv).trans ?_
  refine (M.run_bind_ok (M.run_upd _ _)).trans ?_
  rw [if_neg hlate', M.run_upd, hwaits]

theorem TileReads.idx {s u : State} (h : TileReads s u) : u.idx = s.idx := by have := congrArg State.idx h.1; exact this

theorem RoomAt.reads {s u : State} {t : Strand} {j : Job} {n a : Nat} (h : RoomAt s t j n a) (g : TileReads s u) : RoomAt u t j n a :=
  h.counts g (regs := []) (r := id) ⟨fun _ => rfl, fun _ _ _ => rfl⟩ List.not_mem_nil List.not_mem_nil List.not_mem_nil

/-- DIST of a list of estimates reads its query and its list, makes a blank result tile, and leaves the rerank waiting. -/
theorem execSluDist_reranks {s : State} {o : Insn} {t : Strand} {j : Job} {a : Nat} {y : Tile} {w : TileVal} {l : ListInfo} {i : Index} {q0 : Slot}
    {q : List Nat} {blank : TileVal} (h : Issues s Form.sluDist o t j) (hstable : (t.getS 62).toNat ≤ s.tally.stable)
    (ops : RerankOperands s o t j y w l i q0 q) (hv : listTile 1 l.stride [laneEntries w l 0] [(false, false, Acc320.zero)] none = blank)
    (room : RoomAt s t j blank.data.length a) : ∃ b v reads, execSluDist o s = .next v ∧
      SendsOnly (b.reranks o t (rerankOf t j s.nextId l.stride q (laneEntries w l 0) q0 (s.nextId + 1) (s.nextId + 2)) reads) v ∧
      b.fil.strands = (s.moved o t).fil.strands ∧ b.idx = s.idx ∧ b.nextId = s.nextId + 1 ∧ Stores s b a blank.data := by
  subst hv
  have hy := ops.tile
  obtain ⟨u, hu, g⟩ := vectorAt_run o ops.query
  obtain ⟨n, hn, gn⟩ := useTile_run (j := j) false ((hy.toAtHome.moved (t' := t) o).mono g) nofun
  have gn' := g.trans gn
  have hread : (do
      let query ← vectorAt t j o.a i.dim
      pure (query, ← useTile t j o.b y) : M (List Nat × TileVal)).run (s.moved o t) = .ok (q, w) n := by
    rw [M.run_bind_ok hu, M.run_bind_ok hn]
    rfl
  obtain ⟨b, hblank, hstores, hnext, honly⟩ := newBlank_run ((room.moved (t' := t) o).reads gn')
  have hbidx : b.idx = s.idx := by
    have h := congrArg State.idx honly
    exact h.trans gn'.idx
  have hbtally : b.tally = s.tally := by
    have h := congrArg State.tally honly
    exact h.trans gn'.tally
  have hbstrands : b.fil.strands = n.fil.strands := by
    have h := congrArg (fun v : State => v.fil.strands) honly
    exact h
  have hbnext : b.nextId = s.nextId + 1 := hnext.trans (congrArg (· + 1) gn'.nextId)
  obtain ⟨v, reads, hrun, hsends⟩ := distList_waits ops hread hblank hbtally hbidx hbnext rfl
  rw [gn'.nextId, hbnext] at hsends
  refine ⟨b, v, reads, issue_ok (a := ()) h ?_, hsends, hbstrands.trans gn'.strands, hbidx, hbnext, hstores.congr gn'.mem.symm rfl⟩
  have hok : (isNumeric y.fmt || (y.fmt == 8 && match y.info with
      | some l => l.kind == 0 && l.dirs.length == 1
      | none => false)) = true := by
    rw [ops.fmt, ← hy.toAtHome.fmt.2.2.2.2, ops.info]
    simp only [ops.kind, ops.lane]
    rfl
  have hvec : s.vecReads o.strand o.a = (vecHandles o.a i.dim).map Res.t := by
    unfold State.vecReads
    rw [h.strand, Option.bind_some, h.job, Option.bind_some, ops.index]
  refine (M.run_bind_ok (snapshotFor_run 6 1 o hstable)).trans ?_
  refine (M.run_bind_ok (tileAt_run _ hy.handle (show (s.moved o t).tile? y.id = some y from hy.tile) hok)).trans ?_
  refine (congrArg (fun m : M Unit => m.run _) (if_pos ops.fmt)).trans ?_
  simp only [hvec, ops.clear]
  exact hrun

/-- Settles O36: DIST reads its operands and makes its tile or its rerank, and an arrival fills one fetch of a rerank, of which the last
one gives the list. -/
theorem distanceResults : Obligations.DistanceResults := by
  refine ⟨fun o s t j y w q a h hstable hy => ⟨fun hfmt hq hc room => execSluDist_makes h hstable hy hfmt hq hc rfl room, ?_⟩, ?_⟩
  · intro i l q0 hfmt hl hkind hdirs hi hq hc hq0 hmetric hforced hlate es hneeded hnew blank room
    obtain ⟨b, v, reads, hrun, hsends, hstrands, hidx, hnext, hstores⟩ := execSluDist_reranks h hstable
      ⟨hy, hfmt, hl, hkind, hdirs, hi, hq, hc, hq0, hmetric, hforced, hlate, hneeded, hnew⟩ rfl room
    obtain ⟨hown, hothers⟩ := State.reranks_flight h.strand hstrands hsends
    refine ⟨v, hrun, _, _, ?_, rfl, rfl, rfl, rfl, rfl, rfl, ?_, List.length_map _, ?_, rfl, rfl, rfl, hown, hothers,
      hstores.congr rfl hsends.mem⟩
    · rw [hsends.idx, ← hidx]
      rfl
    · intro f hin
      obtain ⟨_, -, rfl⟩ := List.mem_map.1 hin
      exact ⟨rfl, rfl⟩
    · exact congrArg (· + 1) hnext.symm
  · intro s r pos f vec cached hr hf harr e g r' hserved
    have hrun := execRerankFetchArrive_arrives (vec := vec) (cached := cached) hr hf harr hserved
    have hfind : (s.modRerank r.id fun q => q.withFetch pos g).idx.reranks.find? (·.id == r'.id) = some r' :=
      State.modRerank_find hr fun _ => rfl
    refine ⟨fun hwaits => ⟨_, hrun.trans (congrArg _ (State.tryRerank_waits (r := r') hfind hwaits)), hfind, rfl⟩, ?_⟩
    intro i x hc hcut hi hx list hw hwf hawake
    obtain ⟨hstores, htile, hgone, hstrand⟩ := State.rerankListed_completes (s := s.modRerank r.id fun q => q.withFetch pos g) (r := r') (i := i)
      hx (hw.congr rfl rfl) hwf hawake
    exact ⟨_, hrun.trans (congrArg _ (State.tryRerank_ends (r := r') hfind hc hcut hi hx)), hstores.congr rfl rfl, htile, hgone, hstrand⟩

end Sys2Proof.Machine
end

section
/-! PROOFS. The results of the quantiser's instructions: PREPASS, CVT, SPLIT and DRIFT (R138 to R148). -/
namespace Sys2Proof.Machine

/-! ## Scale tiles read at use (R140) -/

/-- The scale tile of a handle, read at use after other tiles were read. -/
theorem scaleAt_run {s u : State} {t : Strand} {reg : Nat} {y : Tile} {w : TileVal} {sc : ScaleTile} (j : Job) (h : AtRest s t reg y w)
    (hfmt : y.fmt = 7) (hread : readScale w.data = some sc) (g : TileReads s u) :
    ∃ n, (scaleAt t j reg).run u = .ok sc n ∧ TileReads s n := by
  obtain ⟨n, hn, gn⟩ := useAt_run (j := j) (fun v => v.fmt == 7) h g fun z hz => by
    have hzfmt := congrArg Tile.fmt hz
    exact beq_iff_eq.2 (hzfmt.trans hfmt)
  refine ⟨n, ?_, g.trans gn⟩
  unfold scaleAt
  rw [M.run_bind_ok hn, orFault_pure _ _ hread]
  rfl

/-- A tile read at use by another unit than a hewer, after other tiles were read. -/
theorem useTile_plain {s u : State} {t : Strand} {reg : Nat} {x : Tile} {v : TileVal} (j : Job) (h : AtRest s t reg x v) (g : TileReads s u) :
    ∃ n, (useTile t j reg x).run u = .ok v n ∧ TileReads s n := by
  obtain ⟨n, hn, gn⟩ := useTile_run (j := j) false (h.toAtHome.mono g) nofun
  exact ⟨n, hn, g.trans gn⟩

/-- A source of the prepass is of no narrow format. -/
theorem isScaled_of_wideSource {x : Tile} (h : wideSource x = true) : isScaled x.fmt = false := by
  obtain ⟨hfmt, -⟩ : x.fmt ≤ 1 ∧ _ := of_decide_eq_true h
  exact decide_eq_false fun hs => absurd (hs.1.trans hfmt) (by decide)

/-- A field's count that grows by `n` at the completion point. -/
def countAtEnd (f : FieldRef) (n : Nat) : Effect := .count f.off f.lo f.width n

/-! ## PREPASS (R141, R151) -/

/-- PREPASS makes a new tile of the image of the source's scale tile. -/
theorem execQntPrepass_makes {s : State} {o : Insn} {t : Strand} {j : Job} {x : Tile} {v : TileVal} {p : ScaleTile} {a : Nat}
    (h : Issues s Form.qntPrepass o t j) (hx : AtRest s t o.a x v) (hwide : wideSource x = true)
    (hp : prepass v (o.fld 0 4) (o.fld 4 3) (o.fld 7 1 == 1) = p) (room : RoomAt s t j (plainTile 7 0 p.bytes).data.length a) :
    CompletesWith (execQntPrepass o s) fun u => MakesTile s u o t (plainTile 7 0 p.bytes) a
      [countAtEnd F.cruQntNonfiniteCount_count (b2n (p.nonfinite != 0))] := by
  obtain ⟨n, hn, gn⟩ := useAt_run (j := j) wideSource (hx.moved (t' := t) o) (.refl _) fun z hz =>
    (show wideSource z.still = wideSource x.still from congrArg wideSource hz).trans hwide
  unfold execQntPrepass
  refine makesTile_ok h (clear_nil t) gn room fun m hm => ?_
  refine (M.run_bind_ok (quotaFirst_ok (a := p) (u := n) _ _ _ ?_)).trans ((M.run_bind_ok hm).trans rfl)
  rw [M.run_bind_ok hn, hp]
  rfl

/-! ## CVT and SPLIT (R143 to R145) -/

/-- The operands of CVT and SPLIT: a source at rest, and a scale tile at rest of its shape that R140 accepts. -/
structure ScaledBy (s : State) (t : Strand) (o : Insn) (x y : Tile) (v w : TileVal) (sc : ScaleTile) : Prop where
  source : AtRest s t o.a x v
  scale : AtRest s t o.b y w
  fmt : y.fmt = 7
  read : readScale w.data = some sc
  shape : x.shape = sc.shape

theorem ScaledBy.moved {s : State} {t : Strand} {o : Insn} {x y : Tile} {v w : TileVal} {sc : ScaleTile} (h : ScaledBy s t o x y v w sc) :
    ScaledBy (s.moved o t) t o x y v w sc := ⟨h.source.moved o, h.scale.moved o, h.fmt, h.read, h.shape⟩

/-- What CVT gives of a source of a format: its payload with the scale tile's scales where it is scaled already, and else the quantised
payload, with how many elements saturated (R143, R144). -/
def converted (sc : ScaleTile) (fmt : Nat) (v : TileVal) : Option (TileVal × Nat) :=
  if isScaled fmt then some (withScales sc v.data, 0)
  else (Narrow.ofFmt sc.qfmt).bind fun nf => (quantise sc nf v).map fun p => (withScales sc p.1, p.2)

theorem converted_scaled {sc : ScaleTile} {fmt : Nat} (v : TileVal) (h : isScaled fmt = true) :
    converted sc fmt v = some (withScales sc v.data, 0) := if_pos h

theorem converted_wide {sc : ScaleTile} {x : Tile} {v : TileVal} {nf : Narrow} {d : List Byte} {n : Nat} (h : wideSource x = true)
    (hnf : Narrow.ofFmt sc.qfmt = some nf) (hq : quantise sc nf v = some (d, n)) : converted sc x.fmt v = some (withScales sc d, n) := by
  unfold converted
  rw [isScaled_of_wideSource h, hnf, Option.bind_some, hq]
  rfl

/-- The last step of CVT's body is that function of what was read. -/
theorem converted_run {sc : ScaleTile} {fmt : Nat} {v : TileVal} {p : TileVal × Nat} (h : converted sc fmt v = some p) :
    (if isScaled fmt then pure (withScales sc v.data, 0) else do
      let nf ← orFault (Narrow.ofFmt sc.qfmt) cTile
      let (d, n) ← orFault (quantise sc nf v) cTile
      pure (withScales sc d, n) : M (TileVal × Nat)) = pure p := by
  unfold converted at h
  split at h
  next hs =>
    rw [if_pos hs, Option.some.inj h]
  next hs =>
    obtain ⟨nf, hnf, hmap⟩ := Option.bind_eq_some_iff.1 h
    obtain ⟨q, hq, rfl⟩ := Option.map_eq_some_iff.1 hmap
    rw [if_neg hs, orFault_pure _ _ hnf, M.bind_pure, orFault_pure _ _ hq, M.bind_pure]

/-- CVT makes a new tile of what it converts its source to. -/
theorem execQntCvt_makes {s : State} {o : Insn} {t : Strand} {j : Job} {x y : Tile} {v w : TileVal} {sc : ScaleTile} {p : TileVal × Nat} {a : Nat}
    (h : Issues s Form.qntCvt o t j) (ops : ScaledBy s t o x y v w sc)
    (hfits : (wideSource x = true ∧ shapeCols x.fmt x.shape = sc.cols) ∨ (isScaled x.fmt = true ∧ x.fmt = sc.qfmt))
    (hval : converted sc x.fmt v = some p) (room : RoomAt s t j p.1.data.length a) :
    CompletesWith (execQntCvt o s) fun u => MakesTile s u o t p.1 a
      [countAtEnd F.cruQntSatCount_count p.2] := by
  have ops' := ops.moved
  obtain ⟨n, hn, gn⟩ := scaleAt_run j ops'.scale ops'.fmt ops'.read (.refl _)
  obtain ⟨m, hm, gm⟩ := useTile_plain j ops'.source gn
  have hin : (wideSource x || isScaled x.fmt) = true := by
    rcases hfits with ⟨hwide, -⟩ | ⟨hs, -⟩
    · rw [hwide, Bool.true_or]
    · rw [hs, Bool.or_true]
  have hfmt : (x.fmt == sc.qfmt || wideSource x) = true := by
    rcases hfits with ⟨hwide, -⟩ | ⟨-, hq⟩
    · rw [hwide, Bool.or_true]
    · rw [beq_iff_eq.2 hq, Bool.true_or]
  have hcols : (isScaled x.fmt || shapeCols x.fmt x.shape == sc.cols) = true := by
    rcases hfits with ⟨-, hc⟩ | ⟨hs, -⟩
    · rw [beq_iff_eq.2 hc, Bool.or_true]
    · rw [hs, Bool.true_or]
  unfold execQntCvt
  refine makesTile_ok h (clear_nil t) gm room fun k hk => ?_
  refine (M.run_bind_ok (tileAt_rest _ ops'.source rfl hin)).trans ?_
  refine (M.run_bind_ok (quotaFirst_ok (a := p) (u := m) _ _ _ ?_)).trans ((M.run_bind_ok hk).trans rfl)
  rw [M.run_bind_ok hn, need_pure _ _ hfmt, M.bind_pure, need_pure _ _ (beq_iff_eq.2 ops'.shape), M.bind_pure, need_pure _ _ hcols,
    M.bind_pure, M.run_bind_ok hm]
  exact congrArg (fun c => EStateM.run c m) (converted_run hval)

/-- The BF16 tile of a source's outlier channels (R145). -/
def outliers (sc : ScaleTile) (v : TileVal) : TileVal :=
  let cols := shapeCols v.fmt v.shape
  let into := shapeCols 1 v.shape
  plainTile 1 v.shape (ofCodes 1 ((List.range 2048).map fun n => if n % into ∈ sc.mask then
    roundBf16 (f32 (widen v.fmt ((codesOf v.fmt v.data).toArray.getD (n / into * cols + n % into) 0))) else 0))

/-- SPLIT makes a new tile of its source's outlier channels. -/
theorem execQntSplit_makes {s : State} {o : Insn} {t : Strand} {j : Job} {x y : Tile} {v w : TileVal} {sc : ScaleTile} {a : Nat}
    (h : Issues s Form.qntSplit o t j) (ops : ScaledBy s t o x y v w sc) (hwide : wideSource x = true)
    (hcols : shapeCols x.fmt x.shape = sc.cols) (room : RoomAt s t j (outliers sc v).data.length a) :
    CompletesWith (execQntSplit o s) fun u => MakesTile s u o t (outliers sc v) a := by
  have ops' := ops.moved
  obtain ⟨n, hn, gn⟩ := scaleAt_run j ops'.scale ops'.fmt ops'.read (.refl _)
  obtain ⟨m, hm, gm⟩ := useTile_plain j ops'.source gn
  unfold execQntSplit
  refine tileEngine_ok h gm room ?_
  rw [M.run_bind_ok (tileAt_rest _ ops'.source rfl hwide), M.run_bind_ok hn,
    need_pure _ _ (by rw [beq_iff_eq.2 ops'.shape, beq_iff_eq.2 hcols]; rfl), M.bind_pure, M.run_bind_ok hm]
  simp only [outliers, List.contains_iff_mem]
  rfl

/-- Settles O26: PREPASS, CVT and SPLIT read their operands, and the new tile is a function of what was read. -/
theorem quantiserResults : Obligations.QuantiserResults := by
  intro o s t j x y v w a hx
  refine ⟨fun h hwide room => ?_, fun sc hy hfmt hread hshape => ?_⟩
  · have hmakes := execQntPrepass_makes h hx (decide_eq_true hwide) rfl room
    simp only [b2n, bne_iff_ne] at hmakes
    exact hmakes
  · have ops : ScaledBy s t o x y v w sc := ⟨hx, hy, hfmt, hread, hshape⟩
    exact ⟨fun h hs hq room => execQntCvt_makes h ops (.inr ⟨hs, hq⟩) (converted_scaled v hs) room,
      fun nf d n h hwide hcols hnf hq room => execQntCvt_makes h ops (.inl ⟨decide_eq_true hwide, hcols⟩)
        (converted_wide (decide_eq_true hwide) hnf hq) room,
      fun h hwide hcols room => execQntSplit_makes h ops (decide_eq_true hwide) hcols room⟩

/-! ## DRIFT (R146 to R148) -/

/-- The operands of DRIFT: two scale tiles at rest that R140 accepts, of one format, shape, block size and number of columns. -/
structure DriftOperands (s : State) (t : Strand) (o : Insn) (x y : Tile) (v w : TileVal) (m c : ScaleTile) : Prop where
  measured : AtRest s t o.a x v
  calibration : AtRest s t o.b y w
  measuredFmt : x.fmt = 7
  calibrationFmt : y.fmt = 7
  measuredRead : readScale v.data = some m
  calibrationRead : readScale w.data = some c
  qfmt : m.qfmt = c.qfmt
  shape : m.shape = c.shape
  bs : m.bs = c.bs
  cols : m.cols = c.cols

namespace DriftOperands
variable {s : State} {t : Strand} {o : Insn} {x y : Tile} {v w : TileVal} {m c : ScaleTile}

theorem moved (h : DriftOperands s t o x y v w m c) : DriftOperands (s.moved o t) t o x y v w m c :=
  ⟨h.measured.moved o, h.calibration.moved o, h.measuredFmt, h.calibrationFmt, h.measuredRead, h.calibrationRead, h.qfmt, h.shape, h.bs, h.cols⟩

/-- DRIFT reads its two scale tiles, which agree. -/
theorem reads_run (h : DriftOperands s t o x y v w m c) (j : Job) (crew : Nat) : ∃ u, TileReads s u ∧
    (tileAt t o.b fun v => v.fmt == 7).run s = .ok y s ∧ (quotaFirst j.act crew 4096 do
      let a ← scaleAt t j o.a
      let b ← scaleAt t j o.b
      need (a.qfmt == b.qfmt && a.shape == b.shape && a.bs == b.bs && a.cols == b.cols) cTile
      pure (a, b)).run s = .ok (m, c) u := by
  obtain ⟨n, hn, gn⟩ := scaleAt_run j h.measured h.measuredFmt h.measuredRead (.refl _)
  obtain ⟨u, hu, gu⟩ := scaleAt_run j h.calibration h.calibrationFmt h.calibrationRead gn
  have hagree : (m.qfmt == c.qfmt && m.shape == c.shape && m.bs == c.bs && m.cols == c.cols) = true := by
    rw [h.qfmt, h.shape, h.bs, h.cols]
    simp only [beq_self_eq_true, Bool.and_self]
  refine ⟨u, gu, tileAt_rest _ h.calibration rfl (beq_iff_eq.2 h.calibrationFmt), quotaFirst_ok _ _ _ ?_⟩
  rw [M.run_bind_ok hn, M.run_bind_ok hu, need_pure _ _ hagree, M.bind_pure]
  rfl

end DriftOperands

section
variable {s : State} {o : Insn} {t : Strand} {j : Job} {x y : Tile} {v w : TileVal} {m c : ScaleTile}

/-- DRIFT that finds no drift clears its predicate. -/
theorem execQntDrift_stays (h : Issues s Form.qntDrift o t j) (hc : t.clear [] [.t o.b] = true) (ops : DriftOperands s t o x y v w m c)
    (hd : drifted m c = false) : CompletesWith (execQntDrift o s) fun u => Engages s u o t [.setP o.dst false] := by
  obtain ⟨u, g, hcal, hreads⟩ := ops.moved.reads_run j t.crew
  refine engages_ok h hc g ((M.run_bind_ok hcal).trans ((M.run_bind_ok hreads).trans ?_))
  dsimp only
  rw [hd]
  rfl

/-- DRIFT that finds one in a job under RERUN sets its predicate. -/
theorem execQntDrift_reruns (h : Issues s Form.qntDrift o t j) (hc : t.clear [] [.t o.b] = true) (ops : DriftOperands s t o x y v w m c)
    (hd : drifted m c = true) (hj : j.rerun = true) : CompletesWith (execQntDrift o s) fun u => Engages s u o t
      [.setP o.dst true, countAtEnd F.cruQntDriftCount_count 1, countAtEnd F.cruQntRerunCount_count 1] := by
  obtain ⟨u, g, hcal, hreads⟩ := ops.moved.reads_run j t.crew
  refine engages_ok h hc g ((M.run_bind_ok hcal).trans ((M.run_bind_ok hreads).trans ?_))
  dsimp only
  rw [hd, hj]
  rfl

/-- DRIFT that finds one in a job under ADAPT gives the calibration tile new contents. -/
theorem execQntDrift_adapts {a : Nat} (h : Issues s Form.qntDrift o t j) (hc : t.clear [] [.t o.b] = true) (ops : DriftOperands s t o x y v w m c)
    (hd : drifted m c = true) (hj : j.rerun = false) (room : RoomAt s t j (plainTile 7 y.shape (adapted m c).bytes).data.length a) :
    CompletesWith (execQntDrift o s) fun u => RewritesTile s u o t y (plainTile 7 y.shape (adapted m c).bytes) a
      [.setP o.dst false, countAtEnd F.cruQntDriftCount_count 1, countAtEnd F.cruQntAdaptCount_count 1] := by
  obtain ⟨u, g, hcal, hreads⟩ := ops.moved.reads_run j t.crew
  refine rewritesTile_ok h hc g room fun n e hn => (M.run_bind_ok hcal).trans ((M.run_bind_ok hreads).trans ?_)
  dsimp only
  rw [hd, hj]
  exact (M.run_bind_ok hn).trans rfl

end

/-- Settles O27: DRIFT reads its two scale tiles, and then the cases are R146's and the job's. -/
theorem driftAnswers : Obligations.DriftAnswers := by
  intro o s t j x y v w m c a h hc hx hy hxf hyf hm hcal hq hs hb hk
  have ops : DriftOperands s t o x y v w m c := ⟨hx, hy, hxf, hyf, hm, hcal, hq, hs, hb, hk⟩
  exact ⟨execQntDrift_stays h hc ops, execQntDrift_reruns h hc ops, execQntDrift_adapts h hc ops⟩

end Sys2Proof.Machine
end

section
/-! PROOFS. The ends of expansions, of dropped tiles and of the moves of tiles (R158, R291, R293 to R295, R298). -/
namespace Sys2Proof.Machine

/-! ## Expansions (R158) -/

/-- An expansion as its end leaves it. -/
def Expansion.ended (home : Option Nat) (done : Bool) (e : Expansion) : Expansion := { e with home := home, done := done }

/-- The end of a tile's expansion noted. -/
def State.endExpansion (s : State) (tile : Nat) (home : Option Nat) (done : Bool) : State :=
  { s with fil := { s.fil with expansions := updWhere (·.tile == tile) (Expansion.ended home done) s.fil.expansions } }

theorem State.endExpansion_find {s : State} {tile : Nat} {e : Expansion} (h : s.fil.expansions.find? (fun e => e.tile == tile) = some e)
    (home : Option Nat) (done : Bool) :
    (s.endExpansion tile home done).fil.expansions.find? (fun e => e.tile == tile) = some (e.ended home done) := by
  refine (find_updWhere (·.tile == tile) (·.tile == tile) (Expansion.ended home done) _ fun d => by split <;> rfl).trans ?_
  rw [h, Option.map_some, if_pos (List.find?_some h)]

/-- An unfinished expansion with a home, whose tile reads whole, takes the raw contents. -/
theorem execExpansionComplete_writes {tile a : Nat} {s : State} {e : Expansion} {x : Tile} {raw : List Byte}
    (he : s.fil.expansions.find? (fun e => e.tile == tile) = some e) (hx : s.tile? tile = some x) (ha : e.home = some a) (hd : e.done = false)
    (hread : s.homeVia 1 x.home x.len x.packed = (.inr raw, s)) :
    execExpansionComplete tile s = .next ((s.writeMem 0 a raw).endExpansion tile (some a) true) := by
  unfold execExpansionComplete
  simp only [he, hx, ha, hd, hread]
  rfl

/-! ## Dropped tiles (R158, R298) -/

theorem State.removeTile_gone (s : State) (tile : Nat) : (s.removeTile tile).tile? tile = none := by
  unfold State.removeTile
  split
  next h => exact h
  next =>
    refine List.find?_eq_none.2 fun x hx => ?_
    have hne := (List.mem_filter.1 hx).2
    exact bne_iff_ne.1 hne ∘ beq_iff_eq.1

theorem execTileDelete_removes {tile : Nat} {s : State} {x : Tile} (hx : s.tile? tile = some x) (hdrop : x.dropping = true)
    (hnamed : s.named tile = false) (hexp : ∀ e ∈ s.fil.expansions, e.tile ≠ tile) : execTileDelete tile s = .next (s.removeTile tile) := by
  have hnone : s.fil.expansions.any (·.tile == tile) = false :=
    List.any_eq_false.2 fun e he => hexp e he ∘ beq_iff_eq.1
  unfold execTileDelete
  simp only [hx, hdrop, hnamed, hnone]
  rfl

/-! ## Flips (R294, R295) -/

theorem State.abandonMove_gone (s : State) (m : TierMove) : ∀ k ∈ (s.abandonMove m).fil.moves, k.id ≠ m.id :=
  fun _ hk => bne_iff_ne.1 (List.mem_filter.1 hk).2

/-- A tile that a move homes at its target, in the target's form. -/
def Tile.movedBy (m : TierMove) (x : Tile) : Tile := { x with home := m.target, len := m.len, packed := m.packed }

/-- A move noted as flipped, and counted. -/
def State.noteFlip (s : State) (id : Nat) : State :=
  State.count { s with fil := { s.fil with moves := updWhere (·.id == id) (fun m => { m with flipped := true }) s.fil.moves } } 0x704 1

/-- The state after the flip of a tile's move. -/
def State.flipped (s : State) (m : TierMove) (x : Tile) : State :=
  (((s.rekind x.home (.old m.id)).rekind m.target (.tile x.id)).modTile x.id (Tile.movedBy m)).noteFlip m.id

section
variable {s : State} {id : Nat} {m : TierMove} {x : Tile} {raw : List Byte}
  (hm : s.fil.moves.find? (fun m => m.id == id && !m.flipped) = some m)
include hm

/-- The move that an identifier names has that identifier. -/
theorem State.unflipped_id : m.id = id := by
  have hid := List.find?_some hm
  exact beq_iff_eq.1 (Bool.and_eq_true_iff.1 hid).1

theorem execTierMoveFlip_flips (hx : s.tile? m.tile = some x) (hread : s.homeRaw 3 m.target m.len m.packed = (.inr raw, s))
    (hcrc : (x.val raw).crc = x.crc) : execTierMoveFlip id s = .next (s.flipped m x) := by
  obtain rfl := State.unflipped_id hm
  unfold execTierMoveFlip
  simp only [hm, hx, hread, hcrc, bne_self_eq_false, Bool.false_eq_true, if_false]
  rfl

theorem execTierMoveFlip_abandons (hx : s.tile? m.tile = some x) (hread : s.homeRaw 3 m.target m.len m.packed = (.inr raw, s))
    (hcrc : (x.val raw).crc ≠ x.crc) : execTierMoveFlip id s = .next (s.abandonMove m) := by
  unfold execTierMoveFlip
  simp only [hm, hx, hread, bne_iff_ne.2 hcrc, if_true]

end

theorem State.flipped_tile {s : State} {m : TierMove} {x : Tile} (hx : s.tile? m.tile = some x) :
    (s.flipped m x).tile? m.tile = some (x.movedBy m) := by
  have hid : x.id = m.tile := by simpa [State.tile?] using List.find?_some hx
  have hmod := State.tile_modTile (s := (s.rekind x.home (.old m.id)).rekind m.target (.tile x.id)) hx (Tile.movedBy m) fun _ => rfl
  unfold State.flipped
  rw [hid] at hmod ⊢
  exact hmod

theorem State.flipped_count (s : State) (m : TierMove) (x : Tile) : (s.flipped m x).ctr 0x704 = (s.ctr 0x704 + 1) % 2 ^ 64 :=
  State.ctr_count_same _ _ _

theorem TilesOnly.rekind (s : State) (addr : Nat) (k : AllocKind) : TilesOnly s (s.rekind addr k) := rfl
theorem TilesOnly.modTile (s : State) (id : Nat) (f : Tile → Tile) : TilesOnly s (s.modTile id f) := rfl
theorem TilesOnly.noteFlip (s : State) (id : Nat) : TilesOnly s (s.noteFlip id) := rfl

theorem State.flipped_tilesOnly (s : State) (m : TierMove) (x : Tile) : TilesOnly s (s.flipped m x) :=
  (((TilesOnly.rekind _ _ _).trans (.rekind _ _ _)).trans (.modTile _ _ _)).trans (.noteFlip _ _)

/-! ## Releases (R291, R294) -/

theorem State.dropAlloc_old (s : State) (id : Nat) : ∀ k ∈ (s.dropAlloc fun k => k == .old id).fil.allocs, k.kind ≠ .old id := by
  intro k hk
  have hne := (List.mem_filter.1 hk).2
  simpa using hne

/-- The source of a flipped move goes with the move, which has flipped. -/
theorem execTierSourceRelease_releases (id : Nat) (s : State) : CompletesWith (execTierSourceRelease id s) fun u =>
    (∀ m ∈ u.fil.moves, m.id = id → m.flipped = false) ∧ (∀ k ∈ u.fil.allocs, k.kind ≠ .old id) ∧ TilesOnly s u := by
  refine ⟨_, rfl, fun m hm hid => ?_, s.dropAlloc_old id, rfl⟩
  have hkept := (List.mem_filter.1 hm).2
  simpa [hid] using hkept

theorem execTileHomeRelease_releases {id : Nat} {s : State} (h : ∀ m ∈ s.fil.moves, m.id ≠ id) :
    execTileHomeRelease id s = .next (s.dropAlloc fun k => k == .old id) := by
  have hnone : s.fil.moves.any (·.id == id) = false := List.any_eq_false.2 fun m hm => h m hm ∘ beq_iff_eq.1
  unfold execTileHomeRelease
  rw [hnone]
  rfl

/-- Settles O32: each event's state is one change of the tiles, of their homes and of their moves. -/
theorem tileMoves : Obligations.TileMoves := by
  refine ⟨?_, ?_, ?_, execTierSourceRelease_releases, ?_⟩
  · intro tile a s e x raw he hx ha hd hread hwf hw
    have hfil := s.writeMem_fil 0 a raw
    obtain ⟨-, hstores, -⟩ := State.writeMem_stores (source := 0) hwf hw
    refine ⟨_, execExpansionComplete_writes he hx ha hd hread, ?_, hstores.congr rfl rfl, ?_, ?_⟩
    · exact State.endExpansion_find (s := s.writeMem 0 a raw) (hfil ▸ he) (some a) true
    · exact congrArg (·.tiles) hfil
    · exact congrArg (·.strands) hfil
  · intro tile s x hx hdrop hnamed hexp
    exact ⟨_, execTileDelete_removes hx hdrop hnamed hexp, s.removeTile_gone tile, .removeTile s tile⟩
  · intro id s m x raw hm hx hread
    refine ⟨fun hcrc => ⟨_, execTierMoveFlip_flips hm hx hread hcrc, State.flipped_tile hx, rfl, s.flipped_count m x, s.flipped_tilesOnly m x⟩,
      fun hcrc => ⟨_, execTierMoveFlip_abandons hm hx hread hcrc, hx, ?_, rfl⟩⟩
    rw [← State.unflipped_id hm]
    exact s.abandonMove_gone m
  · intro id s h
    exact ⟨_, execTileHomeRelease_releases h, s.dropAlloc_old id, rfl⟩

end Sys2Proof.Machine
end

section
/-! PROOFS. Query slots: TBL.BUILD, LOAD, FILTER, THRESH and STORE (R39, R176 to R179, R202). -/
namespace Sys2Proof.Machine

/-! ## The operands of TBL -/

/-- An engine's read of a tile at use notes when it was, and counts nothing. -/
theorem useTile_notes {s : State} {t : Strand} {j : Job} {reg : Nat} {x : Tile} {v : TileVal} (h : AtHome s t reg x v) :
    (useTile t j reg x).run s = .ok v (s.modTile x.id fun y => { y with lastRead := s.now }) := by
  have hex : (s.fil.expansions.find? fun e => e.tile == x.id && e.handles.contains (t.id, reg)) = none := by
    refine List.find?_eq_none.2 fun e he => ?_
    simp only [Bool.and_eq_true, beq_iff_eq, List.contains_eq_mem, decide_eq_true_eq, not_and]
    exact h.direct e he
  obtain ⟨raw, hv, hr⟩ := readHome_run j (h.mono (.modTile s x.id (fun y => { y with lastRead := s.now }) fun _ => rfl))
  unfold useTile
  rw [M.run_bind_ok (M.run_get s)]
  dsimp only
  rw [M.run_bind_ok (M.run_upd _ _), hex]
  refine (M.run_bind_ok hr).trans ?_
  rw [need_pure _ _ (by rw [← hv, h.crc]; exact beq_self_eq_true _), M.bind_pure, hv]
  rfl

/-- Tiles read at use one after another change no register. -/
theorem vecUses_quiet {s : State} {t : Strand} {j : Job} {x : Nat → Tile} {v : Nat → TileVal} {l : List Nat}
    (h : ∀ n ∈ l, AtHome s t n (x n) (v n)) (u : State) (hu : TileReads s u) :
    ∃ w, ((l.map fun n => (n, x n)).mapM fun e => useTile t j e.1 e.2).run u = .ok (l.map v) w ∧ TileReads s w ∧ w.regs = u.regs := by
  induction l generalizing u with
  | nil => exact ⟨u, rfl, hu, rfl⟩
  | cons n l ih =>
    have hstep : TileReads u (u.modTile (x n).id fun y => { y with lastRead := u.now }) := .modTile u _ _ fun _ => rfl
    obtain ⟨w, hrun, g, hregs⟩ := ih (fun m hm => h m (List.mem_cons_of_mem _ hm)) _ (hu.trans hstep)
    refine ⟨w, ?_, g, hregs⟩
    rw [List.map_cons, List.mapM_cons, M.run_bind_ok (useTile_notes ((h n List.mem_cons_self).mono hu)), M.run_bind_ok hrun]
    rfl

/-- The tiles of a vector operand are found first, with nothing changed, and its elements are then read from them, with no register
changed. -/
theorem vectorParts_run {s : State} {t : Strand} {j : Job} {reg dim : Nat} {vals : List Nat} (o : Insn) (h : VectorAt s t j reg dim vals) :
    ∃ recs u, (vectorTiles t j reg dim).run (s.moved o t) = .ok recs (s.moved o t) ∧
      (vectorData t j dim recs).run (s.moved o t) = .ok vals u ∧ TileReads (s.moved o t) u ∧ u.regs = s.regs := by
  obtain ⟨r, x, v, hr, hv, hvals⟩ := h
  have hrest : ∀ n ∈ vecHandles reg dim, AtRest (s.moved o t) t n (x n) (v n) ∧ (x n).fmt = 0 ∧ (x n).shape = 6 := fun n hn =>
    ⟨(hv n hn).2.2.1.moved (t' := t) o, (hv n hn).2.2.2⟩
  obtain ⟨u, hu, g, hregs⟩ := vecUses_quiet (j := j) (fun n hn => (hrest n hn).1.toAtHome) (s.moved o t) (.refl _)
  refine ⟨(vecHandles reg dim).map fun n => (n, x n), u, ?_, ?_, g, hregs⟩
  · have hlimit : ((vecHandles reg dim).all fun n => decide (n < 32 ∧ n < r.tiles)) = true :=
      List.all_eq_true.2 fun n hn => decide_eq_true ⟨(hv n hn).1, (hv n hn).2.1⟩
    unfold vectorTiles
    rw [M.run_bind_ok (M.run_get _), show (s.moved o t).routineOf j = some r from hr]
    simp only []
    rw [need_pure _ _ hlimit, M.bind_pure]
    exact vecTiles_run hrest
  · unfold vectorData
    rw [M.run_bind_ok hu, hvals]
    simp only [List.flatMap_map]
    rfl

/-- The tiles that an instruction tracks for a vector operand, in an act with an index (R48). -/
theorem Issues.vecReads {s : State} {f : Form} {o : Insn} {t : Strand} {j : Job} {i : Index} (h : Issues s f o t j)
    (hi : s.index? j.act = some i) (reg : Nat) : s.vecReads o.strand reg = (vecHandles reg i.dim).map Res.t := by
  unfold State.vecReads
  rw [h.strand, Option.bind_some, h.job, Option.bind_some, hi]

theorem slotAt_pure {t : Strand} {reg : Nat} {q : Slot} (h : t.getQ reg = some q) : slotAt t reg = (pure q : M Slot) := orFault_pure _ _ h

/-- An index is found in the state in which the body runs. -/
theorem indexOf_moved {s : State} {j : Job} {i : Index} (o : Insn) (t : Strand) (h : s.index? j.act = some i) :
    (indexOf j).run (s.moved o t) = .ok i (s.moved o t) := indexOf_run cTile h

/-- A view that can be read, read after tiles were. -/
theorem ReadsView.readOrd_after {s u : State} {j : Job} {v : BitVec 128} {n : Nat} {b : List Byte} {o : Insn} {t : Strand}
    (h : ReadsView s j v n b) (g : TileReads (s.moved o t) u) : (readOrd (decodeDsc v).base n).run u = .ok b u := by
  obtain ⟨-, -, -, -, -, -, hmem⟩ := h.runs o t
  obtain ⟨-, -, -, hheld, hreg, hclean, hawake, -⟩ := h
  rw [readOrd_quiet ((g.holder _ _ _).trans hheld) hreg (by rw [g.mem]; exact hclean) ((g.rd _ (by decide)).trans hawake),
    g.readMem hreg hclean hawake, hmem]

/-! ## The instructions -/

theorem execTblBuild_engages {s : State} {o : Insn} {t : Strand} {j : Job} {i : Index} {q : List Nat} {b : List Byte} {slot : Slot}
    (h : Issues s Form.tblBuild o t j) (hi : s.index? j.act = some i) (hc : t.clear ((vecHandles o.a i.dim).map Res.t) [] = true)
    (hcode : o.fld 0 2 = i.code) (hsub : (o.fld 2 1 == 1) = i.subq8) (hq : VectorAt s t j o.a i.dim q)
    (hb : ReadsView s j (t.getD o.b) (nsubOf i.code i.subq8 * ksOf i.subq8 * (i.dim / nsubOf i.code i.subq8) * 4) b)
    (hslot : buildSlot i q (codesOf 0 b) = some slot) :
    CompletesWith (execTblBuild o s) fun u => Engages s u o t [.setQ o.dst slot] := by
  obtain ⟨recs, u, htiles, hdata, g, -⟩ := vectorParts_run o hq
  obtain ⟨hdsc, hin, -, hcheck, hwait, -⟩ := hb.runs o t
  refine engages_ok h (by rw [h.vecReads hi]; exact hc) g ?_
  refine (M.run_bind_ok (indexOf_moved o t hi)).trans ?_
  rw [need_pure _ _ (by simp [hcode, hsub]), M.bind_pure, M.run_bind_ok htiles]
  simp only []
  rw [hdsc, M.bind_pure, hin, M.bind_pure]
  refine (M.run_bind_ok (M.run_get _)).trans ?_
  rw [M.run_bind_ok (hcheck _), M.run_bind_ok hwait, M.run_bind_ok hdata, M.run_bind_ok (hb.readOrd_after g), orFault_pure _ _ hslot]
  rfl

theorem execTblLoad_engages {s : State} {o : Insn} {t : Strand} {j : Job} {i : Index} {b : List Byte} {slot : Slot}
    (h : Issues s Form.tblLoad o t j) (hi : s.index? j.act = some i) (hblocks : OnBlocks (t.getD o.a))
    (hb : ReadsView s j (t.getD o.a) i.slotLen b) (hslot : readSlot i b = some slot) :
    CompletesWith (execTblLoad o s) fun u => Engages s u o t [.setQ o.dst slot] := by
  obtain ⟨hdsc, hin, hblock, -, -, hread, -⟩ := hb.runs o t
  refine engages_ok h (clear_nil t) (.refl _) ?_
  refine (M.run_bind_ok (indexOf_moved o t hi)).trans ?_
  rw [hdsc, M.bind_pure, hin, M.bind_pure, M.run_bind_ok (hblock hblocks), M.run_bind_ok hread, orFault_pure _ _ hslot]
  rfl

theorem execTblFilter_engages {s : State} {o : Insn} {t : Strand} {j : Job} {b : List Byte} {slot : Slot}
    (h : Issues s Form.tblFilter o t j) (hq : t.getQ o.dst = some slot) (hblocks : OnBlocks (t.getD o.a))
    (hb : ReadsView s j (t.getD o.a) 128 b) (hok : filterOk b = true) :
    CompletesWith (execTblFilter o s) fun u => Engages s u o t [.setQ o.dst { slot with filter := b }] := by
  obtain ⟨hdsc, hin, hblock, -, -, hread, -⟩ := hb.runs o t
  refine engages_ok h (clear_nil t) (.refl _) ?_
  rw [slotAt_pure hq, M.bind_pure, hdsc, M.bind_pure, hin, M.bind_pure, M.run_bind_ok (hblock hblocks), M.run_bind_ok hread, need_pure _ _ hok]
  rfl

theorem execTblThresh_engages {s : State} {o : Insn} {t : Strand} {j : Job} {slot : Slot} (h : Issues s Form.tblThresh o t j)
    (hq : t.getQ o.dst = some slot) : CompletesWith (execTblThresh o s) fun u =>
      Engages s u o t [.setQ o.dst { slot with thresh := (t.getS o.a).toNat % 2 ^ 32 }] := by
  refine engages_ok h (clear_nil t) (.refl _) ?_
  rw [slotAt_pure hq]
  rfl

theorem execTblStore_engages {s : State} {o : Insn} {t : Strand} {j : Job} {slot : Slot} (h : Issues s Form.tblStore o t j)
    (hq : t.getQ o.a = some slot) (hd : Usable (t.getD o.dst) [0] true) (hlen : slot.image.length ≤ (decodeDsc (t.getD o.dst)).len)
    (hblocks : OnBlocks (t.getD o.dst)) (hmay : MayUse s j .write (decodeDsc (t.getD o.dst)).base slot.image.length) :
    CompletesWith (execTblStore o s) fun u => Engages s u o t [.mem 0 (decodeDsc (t.getD o.dst)).base slot.image] := by
  refine engages_ok h (clear_nil t) (.refl _) ?_
  rw [slotAt_pure hq, M.bind_pure]
  simp only []
  rw [useDsc_pure hd, M.bind_pure, within_pure (by rw [Nat.zero_add]; exact hlen), M.bind_pure,
    M.run_bind_ok (block64_run hblocks.1 hblocks.2 (hmay.moved o t))]
  rfl

/-- Settles O38: each instruction's body reads its operands, which leaves memory and tiles, and answers its one effect. -/
theorem slotResults : Obligations.SlotResults := fun _ _ _ _ _ =>
  ⟨fun _ _ _ => execTblBuild_engages, fun _ _ => execTblLoad_engages, fun _ _ => execTblFilter_engages, fun _ => execTblThresh_engages,
    fun _ => execTblStore_engages⟩

end Sys2Proof.Machine
end

section
/-! PROOFS. The laws of control traffic (R369), and of changes of an act's index, of its seams and of the records in its graphs (R165, R515). -/
namespace Sys2Proof.Machine
open Sys2Proof.Claims

/-! ## Control traffic (R369) -/

/-- Two states differ in nothing but the counters and what leaves the node. -/
def TellsOnly (s u : State) : Prop := { u with telem := s.telem, host := { u.host with out := s.host.out } } = s

theorem TellsOnly.refl (s : State) : TellsOnly s s := rfl
theorem TellsOnly.trans {s t u : State} (h : TellsOnly s t) (g : TellsOnly t u) : TellsOnly s u := by
  unfold TellsOnly at *
  rw [← h, ← g]
theorem TellsOnly.count (s : State) (c n : Nat) : TellsOnly s (s.count c n) := rfl
theorem TellsOnly.emit (s : State) (o : Out) : TellsOnly s (s.emit o) := rfl

theorem TellsOnly.regs {s u : State} (h : TellsOnly s u) : u.regs = s.regs := by have := congrArg State.regs h; exact this
theorem TellsOnly.mem {s u : State} (h : TellsOnly s u) : u.mem = s.mem := by have := congrArg State.mem h; exact this
theorem TellsOnly.fil {s u : State} (h : TellsOnly s u) : u.fil = s.fil := by have := congrArg State.fil h; exact this
theorem TellsOnly.idx {s u : State} (h : TellsOnly s u) : u.idx = s.idx := by have := congrArg State.idx h; exact this
theorem TellsOnly.car {s u : State} (h : TellsOnly s u) : u.car = s.car := by have := congrArg State.car h; exact this
theorem TellsOnly.tally {s u : State} (h : TellsOnly s u) : u.tally = s.tally := by have := congrArg State.tally h; exact this

/-- What reads registers alone is the same in a state of the same registers. -/
theorem TellsOnly.self {s u : State} (h : TellsOnly s u) : u.self = s.self := rd_of_regs h.regs _

theorem State.bcastLink_congr {s u : State} (h : u.regs = s.regs) : u.bcastLink = s.bcastLink := by
  unfold State.bcastLink State.lit State.members State.rd64
  simp only [rd_of_regs h]

/-- Counters grown one after another for a list of links. -/
theorem State.countLinks_does (n : Nat) (l : List Nat) (s : State) :
    let u := l.foldl (fun s k => (s.count (0x900 + k) n).count (0xA00 + k) n) s
    { u with telem := s.telem } = s ∧ ∀ c < 0x900, u.ctr c = s.ctr c := by
  induction l generalizing s with
  | nil => exact ⟨rfl, fun _ _ => rfl⟩
  | cons k l ih =>
    obtain ⟨hrest, hctr⟩ := ih ((s.count (0x900 + k) n).count (0xA00 + k) n)
    refine ⟨?_, fun c hc => ?_⟩
    · exact congrArg (fun u : State => { u with telem := s.telem }) hrest
    · refine (hctr c hc).trans ?_
      rw [State.ctr_count_other _ _ (by omega), State.ctr_count_other _ _ (by omega)]

theorem State.ctl_telem (s : State) (kind : Nat) (links : List Nat) (o : Out) :
    { s.ctl kind links o with telem := s.telem } = s.emit o := (State.countLinks_does _ links (s.emit o)).1

theorem State.ctl_out (s : State) (kind : Nat) (links : List Nat) (o : Out) : (s.ctl kind links o).host.out = o :: s.host.out :=
  congrArg (fun u : State => u.host.out) (s.ctl_telem kind links o)

theorem State.ctl_ctr (s : State) (kind : Nat) (links : List Nat) (o : Out) {c : Nat} (h : c < 0x900) : (s.ctl kind links o).ctr c = s.ctr c :=
  (State.countLinks_does _ links (s.emit o)).2 c h

theorem TellsOnly.ctl (s : State) (kind : Nat) (links : List Nat) (o : Out) : TellsOnly s (s.ctl kind links o) := by
  have := congrArg (fun u : State => { u with host := { u.host with out := s.host.out } }) (s.ctl_telem kind links o)
  exact this

theorem State.ctlIn_telem (s : State) (kind : Nat) : { s.ctlIn kind with telem := s.telem } = s := by
  unfold State.ctlIn
  split <;> rfl

theorem State.ctlIn_host (s : State) (kind : Nat) : (s.ctlIn kind).host = s.host := by
  have := congrArg State.host (s.ctlIn_telem kind)
  exact this

theorem TellsOnly.ctlIn (s : State) (kind : Nat) : TellsOnly s (s.ctlIn kind) := by
  have := congrArg (fun u : State => { u with host := { u.host with out := s.host.out } }) (s.ctlIn_telem kind)
  exact this

theorem TellsOnly.tell (s : State) (b : Bcast) : TellsOnly s (s.tell b) := .ctl s _ _ _
theorem TellsOnly.tellAck (s : State) (b : Bcast) : TellsOnly s (s.tellAck b) := .ctl s _ _ _
theorem TellsOnly.relay (s : State) (b : Bcast) : TellsOnly s (s.relay b) := (TellsOnly.ctlIn s 3).trans (.tell _ b)
theorem TellsOnly.heard (s : State) (b : Bcast) : TellsOnly s (s.heard b) := (TellsOnly.relay s b).trans (.tellAck _ b)

@[simp] theorem State.tell_idx (s : State) (b : Bcast) : (s.tell b).idx = s.idx := (TellsOnly.tell s b).idx
@[simp] theorem State.relay_idx (s : State) (b : Bcast) : (s.relay b).idx = s.idx := (TellsOnly.relay s b).idx
@[simp] theorem State.heard_idx (s : State) (b : Bcast) : (s.heard b).idx = s.idx := (TellsOnly.heard s b).idx

theorem State.tell_out (s : State) (b : Bcast) : (s.tell b).host.out = .bcast s.bcastLink b :: s.host.out := s.ctl_out _ _ _

theorem State.tell_ctr (s : State) (b : Bcast) {c : Nat} (h : c < 0x900) : (s.tell b).ctr c = s.ctr c := s.ctl_ctr _ _ _ h

theorem State.relay_out (s : State) (b : Bcast) : (s.relay b).host.out = .bcast s.bcastLink b :: s.host.out := by
  unfold State.relay
  rw [State.tell_out, State.ctlIn_host, State.bcastLink_congr (TellsOnly.ctlIn s 3).regs]

theorem State.heard_out (s : State) (b : Bcast) :
    (s.heard b).host.out = .bcastAck s.bcastLink b :: .bcast s.bcastLink b :: s.host.out := by
  unfold State.heard State.tellAck
  rw [State.ctl_out, State.relay_out, State.bcastLink_congr (TellsOnly.relay s b).regs]

/-! ## An act's index -/

theorem State.index_congr {s u : State} (h : u.idx.indexes = s.idx.indexes) (act : Nat) : u.index? act = s.index? act :=
  congrArg (List.find? fun i : Index => i.act == act) h

theorem State.seam_congr {s u : State} (h : u.idx.indexes = s.idx.indexes) (act seam : Nat) : u.seam? act seam = s.seam? act seam :=
  congrArg (Option.bind · _) (State.index_congr h act)

theorem State.index_act {s : State} {act : Nat} {i : Index} (h : s.index? act = some i) : i.act = act := by
  simpa using List.find?_some h

theorem State.seam_num {s : State} {act seam : Nat} {x : Seam} (h : s.seam? act seam = some x) : x.seam = seam := by
  obtain ⟨i, -, hx⟩ := Option.bind_eq_some_iff.1 h
  simpa using List.find?_some hx

theorem State.seam_of_index {s : State} {act : Nat} {i : Index} (h : s.index? act = some i) (seam : Nat) : s.seam? act seam = i.seam? seam :=
  congrArg (Option.bind · _) h

theorem State.index_modIndex {s : State} {act : Nat} {i : Index} (h : s.index? act = some i) (f : Index → Index)
    (hf : ∀ k, (f k).act = k.act) : (s.modIndex act f).index? act = some (f i) := by
  refine (find_updWhere (·.act == act) (·.act == act) f s.idx.indexes fun k => by split <;> simp [hf]).trans ?_
  rw [show s.idx.indexes.find? (·.act == act) = some i from h, Option.map_some, if_pos (beq_iff_eq.2 (State.index_act h))]

/-! ## Seams -/

theorem State.index_modSeam {s : State} {act : Nat} {i : Index} (h : s.index? act = some i) (seam : Nat) (f : Seam → Seam) :
    (s.modSeam act seam f).index? act = some { i with seams := updWhere (·.seam == seam) f i.seams } :=
  State.index_modIndex h _ fun _ => rfl

theorem State.seam_modSeam {s : State} {act seam : Nat} {x : Seam} (h : s.seam? act seam = some x) (f : Seam → Seam)
    (hf : ∀ y, (f y).seam = y.seam) : (s.modSeam act seam f).seam? act seam = some (f x) := by
  obtain ⟨i, hi, hx⟩ := Option.bind_eq_some_iff.1 h
  rw [State.seam_of_index (State.index_modSeam hi seam f)]
  refine (find_updWhere (·.seam == seam) (·.seam == seam) f i.seams fun y => by split <;> simp [hf]).trans ?_
  rw [show i.seams.find? (·.seam == seam) = some x from hx, Option.map_some, if_pos (beq_iff_eq.2 (State.seam_num h))]

/-! ## Records (R515) -/

theorem recChanged_eq (i : Index) (seam : Nat) (f : HfRec → HfRec) :
    recChanged i seam f = { i with graphs := i.graphs.map fun g => { g with recs := updWhere (·.seam == seam) f g.recs } } := by
  simp only [recChanged, updWhere, beq_iff_eq]

theorem State.index_modRec {s : State} {act : Nat} {i : Index} (h : s.index? act = some i) (seam : Nat) (f : HfRec → HfRec) :
    (s.modRec act seam f).index? act = some (recChanged i seam f) := by
  rw [recChanged_eq]
  exact State.index_modIndex h _ fun _ => rfl

theorem State.seam_modRec {s : State} {act : Nat} {i : Index} (h : s.index? act = some i) (seam : Nat) (f : HfRec → HfRec) :
    (s.modRec act seam f).seam? act seam = s.seam? act seam := by
  rw [State.seam_of_index (State.index_modRec h seam f), State.seam_of_index h]
  rfl

theorem Graph.rec_updWhere (g : Graph) (seam : Nat) {f : HfRec → HfRec} (hf : ∀ r, (f r).seam = r.seam) :
    ({ g with recs := updWhere (·.seam == seam) f g.recs } : Graph).rec? seam = (g.rec? seam).map f := by
  refine (find_updWhere (·.seam == seam) (·.seam == seam) f g.recs fun r => by split <;> simp [hf]).trans ?_
  cases h : g.rec? seam with
  | none => rw [show g.recs.find? (·.seam == seam) = none from h]; rfl
  | some r =>
    rw [show g.recs.find? (·.seam == seam) = some r from h]
    exact congrArg some (if_pos (List.find?_some h))

theorem Index.recAny_recChanged (i : Index) (seam : Nat) {f : HfRec → HfRec} (hf : ∀ r, (f r).seam = r.seam) :
    (recChanged i seam f).recAny seam = (i.recAny seam).map f := by
  rw [recChanged_eq]
  unfold Index.recAny
  rw [List.findSome?_map]
  induction i.graphs with
  | nil => rfl
  | cons g gs ih =>
    simp only [List.findSome?_cons, Function.comp_apply, Graph.rec_updWhere g seam hf]
    cases g.rec? seam with
    | none => exact ih
    | some r => rfl

/-! ## Pending backfills (R192) -/

/-- The beat of a seam's pending backfill that no move of its record reaches: the beat asked for where no graph has a record. -/
def Index.clearBeat (i : Index) (seam beat : Nat) : Nat := ((i.recAny seam).map (·.backfillBeat beat)).getD beat

theorem State.avoidMoves_rebalances (s : State) (act seam : Nat) : (s.avoidMoves act seam).idx.rebalances = s.idx.rebalances := by
  unfold State.avoidMoves State.postpone
  split
  · split <;> rfl
  · rfl

theorem State.avoidMoves_host (s : State) (act seam : Nat) : (s.avoidMoves act seam).host = s.host := by
  unfold State.avoidMoves State.postpone
  split
  · split <;> rfl
  · rfl

theorem State.index_avoidMoves {s : State} {act : Nat} {i : Index} (h : s.index? act = some i) (seam : Nat) :
    ∃ l, (s.avoidMoves act seam).index? act = some { i with seams := l } := by
  unfold State.avoidMoves State.postpone
  split
  · split
    · exact ⟨i.seams, h⟩
    · exact ⟨_, State.index_modSeam (s := s.count 0x303 1) h seam _⟩
  · exact ⟨i.seams, h⟩

theorem State.seam_avoidMoves {s : State} {act seam f : Nat} {i : Index} {x : Seam} (hi : s.index? act = some i) (hx : s.seam? act seam = some x)
    (hf : x.backfill = some f) : (s.avoidMoves act seam).seam? act seam = some { x with backfill := some (i.clearBeat seam f) } := by
  have hback : (s.seam? act seam).bind (·.backfill) = some f := by rw [hx, Option.bind_some, hf]
  have hkept : x = { x with backfill := some f } := by rw [← hf]
  unfold State.avoidMoves Index.clearBeat
  rw [hi, Option.bind_some, hback]
  cases hr : i.recAny seam with
  | none => exact hx.trans (congrArg some hkept)
  | some r =>
    simp only [Option.map_some, Option.getD_some]
    split
    next hstays => rw [hstays, ← hkept]; exact hx
    next =>
      unfold State.postpone
      rw [hi, Option.bind_some, hr, Option.map_some, Option.getD_some]
      exact State.seam_modSeam (s := s.count 0x303 1) hx _ fun _ => rfl

/-! ## Freed storage (R186, R190) -/

/-- An act without runs has none to free. -/
theorem State.freeRuns_none {s : State} {act : Nat} {i : Index} (h : s.index? act = some i) (hr : i.runs = []) : s.freeRuns act = s := by
  unfold State.freeRuns
  rw [h]
  simp only [hr, List.partition_eq_filter_filter, List.filter_nil, List.isEmpty_nil, if_true]

/-- A seam whose act has no runs, released. -/
def State.withoutSeam (s : State) (act seam : Nat) : State :=
  (s.dropAlloc fun k => k == .index act seam).modIndex act fun i => { i with seams := i.seams.filter (·.seam != seam) }

theorem State.index_withoutSeam {s : State} {act : Nat} {i : Index} (h : s.index? act = some i) (seam : Nat) :
    (s.withoutSeam act seam).index? act = some { i with seams := i.seams.filter (·.seam != seam) } :=
  State.index_modIndex (s := s.dropAlloc _) h _ fun _ => rfl

theorem State.releaseSeam_noRuns {s : State} {act : Nat} {i : Index} (h : s.index? act = some i) (hr : i.runs = []) (seam : Nat) :
    s.releaseSeam act seam = s.withoutSeam act seam :=
  State.freeRuns_none (State.index_withoutSeam h seam) hr

theorem Index.seam_filtered (i : Index) (seam : Nat) : ({ i with seams := i.seams.filter (·.seam != seam) } : Index).seam? seam = none := by
  refine List.find?_eq_none.2 fun x hx => ?_
  have hne := (List.mem_filter.1 hx).2
  simpa using hne

end Sys2Proof.Machine
end

section
/-! PROOFS. Rebalances: their announcement, the bulk copy, READY and CANCEL, the close of the source and its release (R192 to R196). -/
namespace Sys2Proof.Machine
open Sys2Proof.Claims

/-! ## Moves in a seam's record (R194) -/

theorem HfRec.addMove_seam (target beat : Nat) (r : HfRec) : (r.addMove target beat).seam = r.seam := by
  unfold HfRec.addMove
  split <;> rfl

/-! ## The announcement (R192 step 1) -/

/-- An announced move in the records of its seam. -/
def State.announced (s : State) (act seam source target beat : Nat) : State :=
  ((s.heard (.pending act seam source target beat)).modRec act seam (HfRec.addMove target beat)).avoidMoves act seam

theorem State.announced_backfill {s : State} {act seam f : Nat} {i : Index} {x : Seam} {r : HfRec} (hi : s.index? act = some i)
    (hx : s.seam? act seam = some x) (hr : i.recAny seam = some r) (hf : x.backfill = some f) (source target beat : Nat) :
    (s.announced act seam source target beat).seam? act seam = some { x with backfill := some ((r.addMove target beat).backfillBeat f) } := by
  have hheard : (s.heard (.pending act seam source target beat)).index? act = some i :=
    (State.index_congr (congrArg _ (s.heard_idx _)) act).trans hi
  have hseam : ((s.heard (.pending act seam source target beat)).modRec act seam (HfRec.addMove target beat)).seam? act seam = some x :=
    (State.seam_modRec hheard seam _).trans ((State.seam_congr (congrArg _ (s.heard_idx _)) act seam).trans hx)
  refine (State.seam_avoidMoves (State.index_modRec hheard seam _) hseam hf).trans ?_
  rw [Index.clearBeat, Index.recAny_recChanged i seam (HfRec.addMove_seam target beat), hr]
  rfl

theorem State.announced_graphs {s : State} {act : Nat} {i : Index} (hi : s.index? act = some i) (seam source target beat : Nat) :
    ((s.announced act seam source target beat).index? act).map (·.graphs) = some (recChanged i seam (HfRec.addMove target beat)).graphs := by
  have hheard : (s.heard (.pending act seam source target beat)).index? act = some i :=
    (State.index_congr (congrArg _ (s.heard_idx _)) act).trans hi
  obtain ⟨l, hl⟩ := State.index_avoidMoves (State.index_modRec hheard seam (HfRec.addMove target beat)) seam
  exact (congrArg (Option.map _) hl).trans rfl

theorem State.announced_out (s : State) (act seam source target beat : Nat) : (s.announced act seam source target beat).host.out =
    .bcastAck s.bcastLink (.pending act seam source target beat) :: .bcast s.bcastLink (.pending act seam source target beat) :: s.host.out := by
  unfold State.announced
  rw [State.avoidMoves_host]
  exact s.heard_out _

theorem State.announced_rebalances (s : State) (act seam source target beat : Nat) :
    (s.announced act seam source target beat).idx.rebalances = s.idx.rebalances := by
  unfold State.announced
  rw [State.avoidMoves_rebalances]
  show (s.heard (.pending act seam source target beat)).idx.rebalances = _
  rw [State.heard_idx]

theorem State.announced_self (s : State) (act seam source target beat : Nat) : (s.announced act seam source target beat).self = s.self := by
  unfold State.announced
  refine Eq.trans ?_ (TellsOnly.heard s (.pending act seam source target beat)).self
  unfold State.avoidMoves State.postpone
  split
  · split <;> rfl
  · rfl

/-- A move that a node makes itself, entered among its rebalances. -/
def State.withMove (s : State) (m : Rebalance) : State := { s with idx := { s.idx with rebalances := s.idx.rebalances ++ [m] } }

theorem execRebalancePendingReceive_eq (s : State) (act seam source target beat : Nat) :
    execRebalancePendingReceive act seam source target beat s = .next (if target = s.self ∨ source = s.self
      then (s.announced act seam source target beat).withMove ⟨act, seam, source, target, beat, false, false, false, source == s.self⟩
      else s.announced act seam source target beat) := by
  rw [← s.announced_self act seam source target beat]
  rfl

theorem execRebalancePendingReceive_enters {s : State} {act : Nat} {i : Index} (hi : s.index? act = some i) (seam source target beat : Nat) :
    CompletesWith (execRebalancePendingReceive act seam source target beat s) fun u =>
      (u.index? act).map (·.graphs) = some (recChanged i seam (HfRec.addMove target beat)).graphs ∧
      (∀ x r f, s.seam? act seam = some x → i.recAny seam = some r → x.backfill = some f →
        u.seam? act seam = some { x with backfill := some ((r.addMove target beat).backfillBeat f) }) ∧
      u.host.out = .bcastAck s.bcastLink (.pending act seam source target beat) :: .bcast s.bcastLink (.pending act seam source target beat) ::
        s.host.out ∧
      u.idx.rebalances = if target = s.self ∨ source = s.self
        then s.idx.rebalances ++ [⟨act, seam, source, target, beat, false, false, false, source == s.self⟩] else s.idx.rebalances := by
  refine ⟨_, execRebalancePendingReceive_eq s act seam source target beat, ?_⟩
  have hgraphs := State.announced_graphs hi seam source target beat
  have hout := s.announced_out act seam source target beat
  have hmoves := s.announced_rebalances act seam source target beat
  split
  · exact ⟨hgraphs, fun x r f hx hr hf => State.announced_backfill hi hx hr hf source target beat, hout, congrArg (· ++ _) hmoves⟩
  · exact ⟨hgraphs, fun x r f hx hr hf => State.announced_backfill hi hx hr hf source target beat, hout, hmoves⟩

/-! ## The bulk copy (R192 step 2) -/

theorem execRebalanceCopyReceive_makes {c : SeamCopy} {s w : State} {i : Index} (hi : s.index? c.act = some i) (hx : s.seam? c.act c.seam = none)
    (hmine : ∃ m ∈ s.idx.rebalances, m.act = c.act ∧ m.seam = c.seam ∧ m.target = s.self ∧ m.source ≠ s.self) (hw : s.createSeam i c = some w) :
    execRebalanceCopyReceive c s = .next (w.modMove (fun m => m.act == c.act && m.seam == c.seam && m.target == s.self && m.source != s.self)
      fun m => { m with copied := true }) := by
  obtain ⟨m, hm, ha, hs, ht, hsrc⟩ := hmine
  have hany : s.idx.rebalances.any (fun m => m.act == c.act && m.seam == c.seam && m.target == s.self && m.source != s.self) = true :=
    List.any_eq_true.2 ⟨m, hm, by simp [ha, hs, ht, hsrc]⟩
  unfold execRebalanceCopyReceive
  simp only [hany, Bool.not_true, Bool.false_eq_true, if_false, hi, hx, hw]

/-! ## READY -/

theorem execRebalanceReady_tells {s : State} {act seam : Nat} {i : Index} {m : Rebalance} {r : HfRec} (hi : s.index? act = some i)
    (hm : m ∈ s.idx.rebalances) (ha : m.act = act) (hs : m.seam = seam) (ht : m.target = s.self) (hc : m.copied = true)
    (hr : i.recAny seam = some r) (hb : m.beat ∈ r.moveBeats) (hready : r.moveReady m.beat = false) :
    execRebalanceReady act seam s = .next ((s.tell (.ready act seam)).modRec act seam HfRec.markReady) := by
  have hany : s.idx.rebalances.any (fun m => m.act == act && m.seam == seam && m.target == s.self && m.copied &&
      (some r).any fun r => r.moveBeats.contains m.beat && !r.moveReady m.beat) = true :=
    List.any_eq_true.2 ⟨m, hm, by simp [ha, hs, ht, hc, hb, hready]⟩
  unfold execRebalanceReady
  simp only [hi, Option.bind_some, hr, hany, if_true]

/-! ## CANCEL -/

/-- A move that this node does not take as its target ends with nothing released. -/
theorem State.cancelMove_source {s : State} {act seam beat : Nat} {m : Rebalance} (hm : s.pendingMove act seam beat = some m)
    (ht : m.target ≠ s.self) : s.cancelMove act seam beat = (s.modRec act seam (HfRec.cancelMove beat)).dropMove (· == m) := by
  unfold State.cancelMove
  rw [hm]
  refine if_neg ?_
  rw [Bool.and_eq_true, Bool.and_eq_true, beq_iff_eq]
  exact fun h => ht h.1.1

theorem State.pendingMove_congr {s u : State} (h : u.idx = s.idx) (act seam beat : Nat) :
    u.pendingMove act seam beat = s.pendingMove act seam beat := by
  unfold State.pendingMove
  rw [h]

theorem State.pendingMove_some {s : State} {act seam beat : Nat} {m : Rebalance} (h : s.pendingMove act seam beat = some m) :
    m ∈ s.idx.rebalances ∧ m.act = act ∧ m.seam = seam ∧ m.beat = beat ∧ m.closed = false ∧ m.closeSeen = false := by
  refine ⟨List.mem_of_find?_eq_some h, ?_⟩
  have hp := List.find?_some h
  simp only [Bool.and_eq_true, beq_iff_eq, Bool.not_eq_true'] at hp
  obtain ⟨⟨⟨⟨ha, hs⟩, hb⟩, hc⟩, hseen⟩ := hp
  exact ⟨ha, hs, hb, hc, hseen⟩

/-- What a cancellation of a move does to a node that has heard of it, in a state that has told of it. -/
theorem State.cancelMove_tells {s u : State} {act seam : Nat} {i : Index} {m : Rebalance} (hi : s.index? act = some i) (g : TellsOnly s u)
    (hm : s.pendingMove act seam m.beat = some m) (ht : m.target ≠ s.self) :
    (u.cancelMove act seam m.beat).index? act = some (recChanged i seam (HfRec.cancelMove m.beat)) ∧
      (u.cancelMove act seam m.beat).idx.rebalances = s.idx.rebalances.filter (· != m) ∧
      (u.cancelMove act seam m.beat).host = u.host ∧ (u.cancelMove act seam m.beat).telem = u.telem := by
  have hindex : u.index? act = some i := (State.index_congr (congrArg _ g.idx) act).trans hi
  rw [State.cancelMove_source ((State.pendingMove_congr g.idx _ _ _).trans hm) (by rw [g.self]; exact ht)]
  refine ⟨State.index_modRec hindex seam (HfRec.cancelMove m.beat), ?_, rfl, rfl⟩
  rw [← g.idx]
  rfl

/-- The one rebalance of a seam that satisfies a test. -/
theorem State.sourceMove_only {s : State} {act seam : Nat} {m : Rebalance} {p : Rebalance → Bool} (hm : m ∈ s.idx.rebalances) (ha : m.act = act)
    (hs : m.seam = seam) (hsrc : m.source = s.self) (hp : p m = true) (hone : ∀ k ∈ s.idx.rebalances, k.act = act → k.seam = seam → k = m) :
    s.sourceMove act seam p = some m := by
  unfold State.sourceMove
  cases hk : s.idx.rebalances.find? (fun m => m.act == act && m.seam == seam && m.source == s.self && p m) with
  | none =>
    have hno := List.find?_eq_none.1 hk m hm
    simp [ha, hs, hsrc, hp] at hno
  | some k =>
    have hpk := List.find?_some hk
    simp only [Bool.and_eq_true, beq_iff_eq] at hpk
    rw [hone k (List.mem_of_find?_eq_some hk) hpk.1.1.1 hpk.1.1.2]

theorem execRebalanceCancel_sends {s : State} {act seam : Nat} {m : Rebalance} (hm : s.pendingMove act seam m.beat = some m)
    (hone : ∀ k ∈ s.idx.rebalances, k.act = act → k.seam = seam → k = m) (hsrc : m.source = s.self) (hb : m.beat ≤ s.tally.beat + 16)
    (hready : s.moveReady act seam m.beat = false) :
    execRebalanceCancel act seam s = .next (((s.tell (.cancel act seam m.beat)).cancelMove act seam m.beat).count 0x306 1) := by
  obtain ⟨hmem, ha, hs, -, hc, -⟩ := State.pendingMove_some hm
  have htest : (decide (m.beat ≤ s.now + 16) && !m.closed && !s.moveReady act seam m.beat) = true := by
    rw [hc, hready, decide_eq_true (show m.beat ≤ s.now + 16 from hb)]
    rfl
  unfold execRebalanceCancel
  rw [State.sourceMove_only (p := fun m => decide (m.beat ≤ s.now + 16) && !m.closed && !s.moveReady act seam m.beat) hmem ha hs hsrc htest hone]
  rfl

/-! ## The close of the source (R192 step 4) -/

/-- The first rebalance with this node as its source, where it satisfies a test. -/
theorem State.sourceMove_first {s : State} {act seam : Nat} {m : Rebalance} {p : Rebalance → Bool} (h : s.sourceOf act seam = some m)
    (hp : p m = true) : s.sourceMove act seam p = some m := by
  unfold State.sourceOf at h
  unfold State.sourceMove
  rw [List.find?_eq_some_iff_append] at h ⊢
  obtain ⟨htest, before, after, hl, hbefore⟩ := h
  refine ⟨by rw [htest, hp]; rfl, before, after, hl, fun k hk => ?_⟩
  have hno := hbefore k hk
  simp only [Bool.not_eq_true'] at hno ⊢
  rw [hno]
  rfl

/-- A source's move closed. -/
def State.closeMove (s : State) (m : Rebalance) : State := s.modMove (· == m) fun m => { m with closed := true }

theorem State.retryHeld_none {s : State} (h : s.idx.heldApps = []) : s.retryHeld = s := by
  unfold State.retryHeld
  rw [h]
  exact congrArg (fun l => { s with idx := { s.idx with heldApps := l } }) h.symm

theorem execRebalanceForwardStart_closes {s : State} {act seam : Nat} {m : Rebalance} {x : Seam} (hm : s.sourceOf act seam = some m)
    (hx : s.seam? act seam = some x) (hb : m.beat ≤ s.tally.beat + 1) (hc : m.closed = false) (hready : s.moveReady act seam m.beat = true)
    (hheld : s.idx.heldApps = []) :
    execRebalanceForwardStart act seam s = .next (((s.closeMove m).sendNode m.target act 1 none 16
      (.closeMarker m.target act seam x.backfill)).modSeam act seam fun x => { x with forwarding := true, backfill := none }) := by
  have htest : (decide (m.beat ≤ s.now + 1) && !m.closed && s.moveReady act seam m.beat) = true := by
    rw [hc, hready, decide_eq_true (show m.beat ≤ s.now + 1 from hb)]
    rfl
  unfold execRebalanceForwardStart
  rw [State.sourceMove_first (p := fun m => decide (m.beat ≤ s.now + 1) && !m.closed && s.moveReady act seam m.beat) hm htest, hx]
  refine congrArg _ (State.retryHeld_none ?_)
  have hsent := (SendsOnly.sendNode (s.closeMove m) m.target act 1 none 16 (.closeMarker m.target act seam x.backfill)).idx
  exact (congrArg IndexSt.heldApps hsent).trans hheld

theorem execRebalanceForwardStart_forwards {s : State} {act seam chan : Nat} {m : Rebalance} {x : Seam} (hm : s.sourceOf act seam = some m)
    (hx : s.seam? act seam = some x) (hb : m.beat ≤ s.tally.beat + 1) (hc : m.closed = false) (hready : s.moveReady act seam m.beat = true)
    (hheld : s.idx.heldApps = []) (hlink : s.linkFor s.self m.target = some chan) :
    CompletesWith (execRebalanceForwardStart act seam s) fun u =>
      u.seam? act seam = some { x with forwarding := true, backfill := none } ∧
      (u.idx.rebalances = s.idx.rebalances.map fun k => if k = m then { m with closed := true } else k) ∧
      Offered u chan act 1 (.closeMarker m.target act seam x.backfill) := by
  have hsent := (SendsOnly.sendNode (s.closeMove m) m.target act 1 none 16 (.closeMarker m.target act seam x.backfill)).idx
  refine ⟨_, execRebalanceForwardStart_closes hm hx hb hc hready hheld, ?_, ?_, ?_⟩
  · exact State.seam_modSeam ((State.seam_congr (congrArg _ hsent) act seam).trans hx) _ fun _ => rfl
  · refine (congrArg IndexSt.rebalances hsent).trans (List.map_congr_left fun k _ => ?_)
    by_cases hk : k = m
    · subst hk
      simp
    · simp [hk]
  · have hroute : (s.closeMove m).linkFor (s.closeMove m).self m.target = s.linkFor s.self m.target :=
      State.linkFor_same (s := s) (u := s.closeMove m) (fun _ _ => rfl) rfl s.self m.target
    exact Offered.sendNode (s := s.closeMove m) none 16 _ (hroute.trans hlink)

/-! ## The close marker -/

/-- The seam of a marker takes its records itself, and the marker's backfill. -/
def State.takeOver (s : State) (act seam : Nat) : Option Nat → State
  | some f => (s.modSeam act seam fun x => { x with backfill := some f, forwarding := false }).avoidMoves act seam
  | none => s.modSeam act seam fun x => { x with forwarding := false }

/-- The moves of a seam into this node whose marker has come. -/
def State.seeClose (s : State) (act seam : Nat) : State :=
  s.modMove (fun m => m.act == act && m.seam == seam && m.target == s.self) fun m => { m with closeSeen := true }

theorem State.takeOver_rebalances (s : State) (act seam : Nat) (backfill : Option Nat) :
    (s.takeOver act seam backfill).idx.rebalances = s.idx.rebalances := by
  cases backfill with
  | none => rfl
  | some f => exact State.avoidMoves_rebalances _ act seam

theorem State.takeOver_regs (s : State) (act seam : Nat) (backfill : Option Nat) : (s.takeOver act seam backfill).regs = s.regs := by
  cases backfill with
  | none => rfl
  | some f =>
    unfold State.takeOver State.avoidMoves State.postpone
    simp only []
    split
    · split <;> rfl
    · rfl

theorem State.sourceOf_congr {s u : State} (hm : u.idx.rebalances = s.idx.rebalances) (hr : u.self = s.self) (act seam : Nat) :
    u.sourceOf act seam = s.sourceOf act seam := by
  unfold State.sourceOf
  rw [hm, hr]

theorem State.sourceOf_seeClose {s : State} {act seam : Nat} (h : s.sourceOf act seam = none) : (s.seeClose act seam).sourceOf act seam = none := by
  refine (find_updWhere (fun r : Rebalance => r.act == act && r.seam == seam && r.source == s.self) _ _ s.idx.rebalances fun k => by
    split <;> rfl).trans ?_
  rw [show s.idx.rebalances.find? (fun r => r.act == act && r.seam == seam && r.source == s.self) = none from h]
  rfl

theorem execCloseMarkerReceive_notes {s : State} {act seam : Nat} (h : s.sourceOf act seam = none) (backfill : Option Nat) :
    execCloseMarkerReceive act seam backfill s = .next ((s.seeClose act seam).takeOver act seam backfill) := by
  have hnone : ((s.seeClose act seam).takeOver act seam backfill).sourceOf act seam = none :=
    (State.sourceOf_congr (State.takeOver_rebalances _ act seam backfill) (rd_of_regs (State.takeOver_regs _ act seam backfill) _) act seam).trans
      (State.sourceOf_seeClose h)
  have hbody : execCloseMarkerReceive act seam backfill s =
      .next (match ((s.seeClose act seam).takeOver act seam backfill).sourceOf act seam with
        | some m => ((s.seeClose act seam).takeOver act seam backfill).sendCopy act seam m.target none
        | none => (s.seeClose act seam).takeOver act seam backfill) := by
    cases backfill <;> rfl
  rw [hbody, hnone]

theorem State.seam_takeOver {s : State} {act seam : Nat} {i : Index} {x : Seam} (hi : s.index? act = some i) (hx : s.seam? act seam = some x)
    (backfill : Option Nat) : (s.takeOver act seam backfill).seam? act seam = some (match backfill with
      | some f => { x with backfill := some (i.clearBeat seam f), forwarding := false }
      | none => { x with forwarding := false }) := by
  cases backfill with
  | none => exact State.seam_modSeam hx _ fun _ => rfl
  | some f =>
    exact State.seam_avoidMoves (State.index_modSeam hi seam _) (State.seam_modSeam hx (fun x => { x with backfill := some f, forwarding := false })
      fun _ => rfl) rfl

theorem execCloseMarkerReceive_takes {s : State} {act seam : Nat} {i : Index} (hi : s.index? act = some i) (h : s.sourceOf act seam = none)
    (backfill : Option Nat) : CompletesWith (execCloseMarkerReceive act seam backfill s) fun u =>
      (u.idx.rebalances = s.idx.rebalances.map fun m =>
        if m.act = act ∧ m.seam = seam ∧ m.target = s.self then { m with closeSeen := true } else m) ∧
      ∀ x, s.seam? act seam = some x → u.seam? act seam = some (match backfill with
        | some f => { x with backfill := some (((i.recAny seam).map (·.backfillBeat f)).getD f), forwarding := false }
        | none => { x with forwarding := false }) := by
  refine ⟨_, execCloseMarkerReceive_notes h backfill, ?_, fun x hx => State.seam_takeOver (s := s.seeClose act seam) hi hx backfill⟩
  refine (State.takeOver_rebalances _ act seam backfill).trans (List.map_congr_left fun m _ => ?_)
  simp only [Bool.and_eq_true, beq_iff_eq, and_assoc]

/-! ## The release (R192 step 5, R196) -/

/-- A seam that only a dropped move and a home elsewhere speak of is needed no more. -/
theorem State.needsSeam_dropped {s : State} {act seam : Nat} {i : Index} {m : Rebalance} {r : HfRec} (hi : s.index? act = some i)
    (hr : i.recAny seam = some r) (hhome : r.homeAt (s.tally.beat + 1) ≠ s.self)
    (hone : ∀ k ∈ s.idx.rebalances, k.act = act → k.seam = seam → k = m) : (s.dropMove (· == m)).needsSeam act seam = false := by
  unfold State.needsSeam
  rw [show (s.dropMove (· == m)).index? act = some i from hi, Option.bind_some, hr, Bool.or_eq_false_iff]
  refine ⟨List.any_eq_false.2 fun k hk => ?_, ?_⟩
  · obtain ⟨hmem, hne⟩ := List.mem_filter.1 hk
    intro hp
    simp only [Bool.and_eq_true, beq_iff_eq] at hp
    simp [hone k hmem hp.1.1 hp.1.2] at hne
  · exact beq_eq_false_iff_ne.2 hhome

/-- The source's state once it has released a seam: the move has gone, with the seam. -/
def State.leftSeam (s : State) (act seam : Nat) (m : Rebalance) : State := (s.dropMove (· == m)).withoutSeam act seam

/-- The source of a seam's first move, which has closed, releases the seam and tells of it. -/
theorem execRebalanceRelease_leaves {s : State} {act seam : Nat} {i : Index} {m : Rebalance} {x : Seam} {r : HfRec} (hi : s.index? act = some i)
    (hm : s.sourceOf act seam = some m) (hx : s.seam? act seam = some x) (hc : m.closed = true) (hb : m.beat ≤ s.oldest act)
    (hread : x.read = false) (hruns : i.runs = []) (hr : i.recAny seam = some r) (hnext : r.nextBeat = m.beat)
    (hhome : r.homeAt (s.tally.beat + 1) ≠ s.self) (hone : ∀ k ∈ s.idx.rebalances, k.act = act → k.seam = seam → k = m) :
    execRebalanceRelease act seam s =
      .next ((((s.leftSeam act seam m).tell (.released act seam)).modRec act seam HfRec.settleMove).count 0x305 1) := by
  have hfirst : ((s.index? act).bind (·.recAny seam)).any (fun r => r.nextBeat != m.beat) = false := by
    rw [hi, Option.bind_some, hr]
    exact bne_eq_false_iff_eq.2 hnext
  have hpast : (!m.closed || decide (s.oldest act < m.beat) || x.read) = false := by
    rw [hc, hread, decide_eq_false (Nat.not_lt.2 hb)]
    rfl
  have hdropped : (s.dropMove (· == m)).index? act = some i := hi
  unfold execRebalanceRelease
  simp only [hm, hx, hfirst, hpast, State.needsSeam_dropped hi hr hhome hone, Bool.false_eq_true, if_false,
    State.releaseSeam_noRuns hdropped hruns]
  rfl

theorem execRebalanceRelease_releases {s : State} {act seam : Nat} {i : Index} {m : Rebalance} {x : Seam} {r : HfRec} (hi : s.index? act = some i)
    (hm : s.sourceOf act seam = some m) (hx : s.seam? act seam = some x) (hc : m.closed = true) (hb : m.beat ≤ s.oldest act)
    (hread : x.read = false) (hruns : i.runs = []) (hr : i.recAny seam = some r) (hnext : r.nextBeat = m.beat)
    (hhome : r.homeAt (s.tally.beat + 1) ≠ s.self) (hone : ∀ k ∈ s.idx.rebalances, k.act = act → k.seam = seam → k = m) :
    CompletesWith (execRebalanceRelease act seam s) fun u => u.seam? act seam = none ∧ u.idx.rebalances = s.idx.rebalances.filter (· != m) ∧
      (u.index? act).map (·.graphs) = some (recChanged i seam HfRec.settleMove).graphs ∧
      u.host.out = .bcast s.bcastLink (.released act seam) :: s.host.out ∧ u.ctr 0x305 = (s.ctr 0x305 + 1) % 2 ^ 64 := by
  have htold : ((s.leftSeam act seam m).tell (.released act seam)).idx = (s.leftSeam act seam m).idx := State.tell_idx _ _
  have hindex : ((s.leftSeam act seam m).tell (.released act seam)).index? act = some { i with seams := i.seams.filter (·.seam != seam) } :=
    (State.index_congr (congrArg _ htold) act).trans (State.index_withoutSeam (s := s.dropMove (· == m)) hi seam)
  refine ⟨_, execRebalanceRelease_leaves hi hm hx hc hb hread hruns hr hnext hhome hone, ?_, ?_, ?_, ?_, ?_⟩
  · refine (State.seam_modRec hindex seam HfRec.settleMove).trans ((State.seam_of_index hindex seam).trans ?_)
    exact i.seam_filtered seam
  · exact congrArg IndexSt.rebalances htold
  · exact congrArg (Option.map (·.graphs)) (State.index_modRec hindex seam HfRec.settleMove)
  · exact State.tell_out _ _
  · refine (State.ctr_count_same _ _ _).trans ?_
    exact congrArg (fun n => (n + 1) % 2 ^ 64) (State.tell_ctr (s.leftSeam act seam m) (.released act seam) (by decide))

/-- The word of a release, heard by a node that is not the seam's source. -/
theorem execRebalanceRelease_hears {s : State} {act seam : Nat} (h : s.sourceOf act seam = none) :
    execRebalanceRelease act seam s = .next (s.hearReleased act seam) := by
  unfold execRebalanceRelease
  rw [h]

theorem execRebalanceRelease_settles {s : State} {act seam : Nat} {i : Index} (hi : s.index? act = some i) (h : s.sourceOf act seam = none) :
    CompletesWith (execRebalanceRelease act seam s) fun u =>
      u.index? act = some (recChanged i seam fun r => if r.nextBeat = 0 ∨ r.ready = false then r else r.settleMove) ∧
      u.host.out = .bcast s.bcastLink (.released act seam) :: s.host.out ∧
      u.idx.rebalances = s.idx.rebalances.filter fun m => !(m.act == act && m.seam == seam && m.target == s.self && m.closeSeen) := by
  have hheard : ((s.relay (.released act seam)).dropMove fun m => m.act == act && m.seam == seam && m.target == s.self && m.closeSeen).index? act =
      some i := (State.index_congr (congrArg _ (s.relay_idx _)) act).trans hi
  refine ⟨_, execRebalanceRelease_hears h, ?_, s.relay_out _, ?_⟩
  · refine (State.index_modRec hheard seam _).trans ?_
    simp only [Bool.not_eq_true']
  · exact congrArg (fun l : IndexSt => l.rebalances.filter _) (s.relay_idx _)

/-- Settles O45: an event at a time, each from the one state that it answers. -/
theorem rebalances : Obligations.Rebalances := by
  intro s act seam i hi
  refine ⟨execRebalancePendingReceive_enters hi seam, ?_, ?_, ?_, ?_, ?_, ?_⟩
  · rintro c w rfl rfl hx hmine hw hmoves
    refine ⟨_, execRebalanceCopyReceive_makes hi hx hmine hw, rfl, rfl, ?_⟩
    refine (congrArg (updWhere _ _) hmoves).trans (List.map_congr_left fun m _ => ?_)
    simp only [Bool.and_eq_true, beq_iff_eq, bne_iff_ne, and_assoc]
  · intro m r hm ha hs ht hc hr hb hready
    have htold : (s.tell (.ready act seam)).index? act = some i := (State.index_congr (congrArg _ (s.tell_idx _)) act).trans hi
    exact ⟨_, execRebalanceReady_tells hi hm ha hs ht hc hr hb hready, State.index_modRec htold seam _, s.tell_out _⟩
  · have hheard : (s.relay (.ready act seam)).index? act = some i := (State.index_congr (congrArg _ (s.relay_idx _)) act).trans hi
    refine ⟨_, rfl, State.index_modRec hheard seam _, s.relay_out _, ?_⟩
    have htells := TellsOnly.relay s (.ready act seam)
    exact congrArg (fun u : State => { u with idx := { u.idx with indexes := s.idx.indexes } }) htells
  · intro m hm ht
    constructor
    · obtain ⟨hindex, hmoves, hhost, -⟩ := State.cancelMove_tells hi (.relay s (.cancel act seam m.beat)) hm ht
      exact ⟨_, rfl, hindex, hmoves, (congrArg HostSt.out hhost).trans (s.relay_out _)⟩
    · intro hone hsrc hb hready
      obtain ⟨hindex, hmoves, hhost, htelem⟩ := State.cancelMove_tells hi (.tell s (.cancel act seam m.beat)) hm ht
      refine ⟨_, execRebalanceCancel_sends hm hone hsrc hb hready, hindex, hmoves, (congrArg HostSt.out hhost).trans (s.tell_out _), ?_⟩
      refine (State.ctr_count_same _ _ _).trans (congrArg (fun n => (n + 1) % 2 ^ 64) ?_)
      exact (congrArg (fun l => kvGet 0 l 0x306) htelem).trans (s.tell_ctr _ (by decide))
  · intro m x hm hx
    exact ⟨fun chan hb hc hready hheld hlink => execRebalanceForwardStart_forwards hm hx hb hc hready hheld hlink,
      fun r hc hb hread hruns hr hnext hhome hone => execRebalanceRelease_releases hi hm hx hc hb hread hruns hr hnext hhome hone⟩
  · exact fun h => ⟨execCloseMarkerReceive_takes hi h, execRebalanceRelease_settles hi h⟩

end Sys2Proof.Machine
end

section
/-! PROOFS. Records of seams: IDX.APPEND, APPENDX and DELETE, handed to the index engine (R185, R186). -/
namespace Sys2Proof.Machine
open Sys2Proof.Claims

/-! ## The handover (R185) -/

theorem TileReads.car {s u : State} (h : TileReads s u) : u.car = s.car := by have := congrArg State.car h.1; exact this

/-- The home of a record depends on the index and the beat alone. -/
theorem State.homeFor_congr {s u : State} (hidx : u.idx = s.idx) (hbeat : u.tally = s.tally) (act seam : Nat) :
    u.homeFor' act seam = s.homeFor' act seam := by
  unfold State.homeFor' State.index? State.now
  rw [hidx, hbeat]

/-- What the instruction writes once its record is answered. -/
def recordEffects (o : Insn) : List Effect := .setS o.dst 0#64 :: setPres o true

/-- The instruction in flight that waits for its record's answer. -/
def recordFlight (f : Form) (o : Insn) (t : Strand) (u : State) (reads : List Res) : Inflight :=
  flightOf f o t u (.append 0) reads (presWrites o) (recordEffects o)

/-- The state in which the instruction is in flight and its record not yet handed over. -/
def State.handing (u : State) (f : Form) (o : Insn) (t : Strand) (reads : List Res) : State :=
  u.fresh.modStrand o.strand fun v => { v with inflight := v.inflight ++ [recordFlight f o t u reads] }

/-- A record that names the instruction that sent it. -/
def State.signed (u : State) (t : Strand) (r : SeamRecord) : SeamRecord := { r with node := u.self, strand := t.id, tag := u.nextId }

/-- The state once the record has gone to its home, this node or another. -/
def State.handed (u : State) (f : Form) (o : Insn) (t : Strand) (reads : List Res) (r : SeamRecord) (home : Nat) : State :=
  if home = u.self then (u.handing f o t reads).takeRecord (u.signed t r) else (u.handing f o t reads).sendSeamRecord home (u.signed t r)

theorem sendRecord_run (u : State) (f : Form) (o : Insn) (t : Strand) (reads : List Res) (r : SeamRecord) (home : Nat) :
    (sendRecord f o t reads r home).run u = .ok () (u.handed f o t reads r home) := rfl

/-- The strand of the instruction, in flight. -/
theorem StrandIs.handing {s u : State} {f : Form} {o : Insn} {t : Strand} (ht : s.strand? o.strand = some t) (g : TileReads (s.moved o t) u)
    (reads : List Res) :
    StrandIs s (u.handing f o t reads) o.strand { t.after o with inflight := t.inflight ++ [recordFlight f o t u reads] } := by
  exact (((StrandIs.moved ht).congr g.strands g.mem).congr (w := u.fresh) rfl rfl).modStrand _ (fun _ => rfl) fun _ => rfl

/-- A record that leaves for another node. -/
theorem State.handed_sent {s u : State} {f : Form} {o : Insn} {t : Strand} {home chan : Nat} (ht : s.strand? o.strand = some t)
    (g : TileReads (s.moved o t) u) (reads : List Res) (r : SeamRecord) (hhome : home ≠ s.self) (hlink : s.linkFor s.self home = some chan) :
    RecordSent s (u.handed f o t reads r home) o t chan home r (recordEffects o) := by
  have hself : u.self = s.self := g.rd F.glbNodeId_node (by decide)
  have hgoes := SendsOnly.sendNode (u.handing f o t reads) home r.act 1 none (64 + 4 * r.vec.length + r.raw.length) (.record home (u.signed t r))
  have hroute : (u.handing f o t reads).linkFor (u.handing f o t reads).self home = some chan := by
    rw [show (u.handing f o t reads).self = s.self from hself, ← hlink]
    exact State.linkFor_same (s := s) (u := u.handing f o t reads) (fun k hk => g.rd k hk) g.car s.self home
  have hstrand := (StrandIs.handing (f := f) ht g reads).congr hgoes.strands hgoes.mem
  unfold State.handed
  rw [if_neg (by rw [hself]; exact hhome)]
  refine ⟨⟨recordFlight f o t u reads, rfl, rfl, hstrand.strand, ?_⟩, fun a => ?_, ?_⟩
  · have hoffered := Offered.sendNode (act := r.act) (cls := 1) none (64 + 4 * r.vec.length + r.raw.length) (.record home (u.signed t r)) hroute
    rw [← hself]
    exact hoffered
  · rw [← hstrand.mem]
    rfl
  · exact hgoes.idx.trans g.idx

/-! ## The instructions -/

theorem lateVector_run {s u : State} {t : Strand} {j : Job} {reg dim : Nat} {x : List Nat} (h : (vectorAt t j reg dim).run s = .ok x u) :
    (lateVector t j reg dim).run s = .ok (x, none) u := by
  have hbody : ((vectorAt t j reg dim >>= fun x => pure (x, none)) : M (List Nat × Option Fail)).run s = .ok (x, none) u := M.run_bind_ok h
  have hbody' : ((vectorAt t j reg dim >>= fun x => pure (x, none)) : M (List Nat × Option Fail)) s = .ok (x, none) u := hbody
  show EStateM.tryCatch _ _ s = _
  unfold EStateM.tryCatch
  rw [hbody']

/-- The record of an append. -/
def appendRecord (o : Insn) (j : Job) (seam extra : Nat) (x : List Nat) : SeamRecord :=
  ⟨j.act, seam, false, (o.ext.getD 0 0#64).toNat, (o.ext.getD 1 0#64).toNat, extra, x, 0, 0, 0, []⟩

/-- An append of a valid ID to a seam that it names hands its record over. -/
theorem appendBody_hands {s : State} {f : Form} {o : Insn} {t : Strand} {j : Job} {i : Index} {reads : List Res} {x : List Nat} {seam home : Nat}
    (extra : Nat) (h : Issues s f o t j) (hc : t.clear reads (presWrites o) = true) (hi : s.index? j.act = some i)
    (hx : VectorAt s t j o.a i.dim x) (hid : bitOf (o.ext.getD 0 0#64).toNat 63 = false) (hseam : seam = (t.getS o.b).toNat)
    (hnamed : seam ≠ 0xFFFFFFFF) (hhome : s.homeFor' j.act seam = some home) :
    ∃ u, TileReads (s.moved o t) u ∧ u.regs = s.regs ∧ appendBody f o extra reads s = .next (u.handed f o t reads (appendRecord o j seam extra x) home) := by
  obtain ⟨recs, u, htiles, hdata, g, hregs⟩ := vectorParts_run o hx
  have hrun : (vectorAt t j o.a i.dim).run (s.moved o t) = .ok x u := (M.run_bind_ok htiles).trans hdata
  refine ⟨u, g, hregs, issue_ok h (a := ()) ?_⟩
  subst hseam
  have hindex : (s.moved o t).index? j.act = some i := hi
  have hfound : (s.moved o t).homeFor' j.act (t.getS o.b).toNat = some home := hhome
  simp only [hc, Bool.not_true, Bool.false_eq_true, if_false]
  refine (M.run_bind_ok (M.run_get _)).trans ?_
  simp only [hindex]
  refine (M.run_bind_ok (lateVector_run hrun)).trans ?_
  simp only [hid, Bool.false_eq_true, if_false, if_neg hnamed, hfound]
  exact sendRecord_run u f o t reads (appendRecord o j _ extra x) home

/-- A delete hands its record over. -/
theorem execIdxDelete_hands {s : State} {o : Insn} {t : Strand} {j : Job} {seam home : Nat} (h : Issues s Form.idxDelete o t j)
    (hc : t.clear [] (presWrites o) = true) (hseam : seam = (t.getS o.a).toNat) (hhome : s.homeFor' j.act seam = some home) :
    execIdxDelete o s = .next ((s.moved o t).handed Form.idxDelete o t []
      ⟨j.act, seam, true, (t.getS o.b).toNat, 0, 0, [], 0, 0, 0, []⟩ home) := by
  refine issue_ok h (a := ()) ?_
  subst hseam
  have hfound : (s.moved o t).homeFor' j.act (t.getS o.a).toNat = some home := hhome
  simp only [hc, Bool.not_true, Bool.false_eq_true, if_false]
  refine (M.run_bind_ok (M.run_get _)).trans ?_
  simp only [hfound]
  exact sendRecord_run _ _ _ _ _ _ _

end Sys2Proof.Machine
end

section
/-! PROOFS. A record that commits at its home: its entry in the list, its answer, and a delete (R185, R186, R180, R181). -/
namespace Sys2Proof.Machine
open Sys2Proof.Claims

/-! ## A record that commits -/

theorem State.mustHold_congr {s u : State} (hidx : u.idx = s.idx) (hbeat : u.tally = s.tally) (hregs : u.regs = s.regs) (r : SeamRecord)
    (t : Strand) (v : State) : u.mustHold (v.signed t r) = s.mustHold r := by
  unfold State.mustHold State.seam? State.index? State.now
  rw [hidx, hbeat, show u.self = s.self from rd_of_regs hregs _]
  rfl

/-- A record commits as well where only what it does not look at has changed, and once it names its instruction. -/
theorem CommitsHere.signed {s u : State} {i : Index} {x : Seam} {r : SeamRecord} (h : CommitsHere s i x r) (hidx : u.idx = s.idx)
    (hbeat : u.tally = s.tally) (hregs : u.regs = s.regs) (v : State) (t : Strand) : CommitsHere u i x (v.signed t r) := by
  have hlist : u.idx.indexes = s.idx.indexes := congrArg _ hidx
  obtain ⟨hi, hx, hhome, hforward, hsource, hheld, hentries, hroom⟩ := h
  refine ⟨(State.index_congr hlist _).trans hi, (State.seam_congr hlist _ _).trans hx, ?_, hforward,
    (State.sourceOf_congr (congrArg _ hidx) (rd_of_regs hregs _) _ _).trans hsource, (State.mustHold_congr hidx hbeat hregs r t v).trans hheld, ?_, hroom⟩
  · rw [show u.self = s.self from rd_of_regs hregs _]
    exact (State.homeFor_congr hidx hbeat _ _).trans hhome
  · unfold State.entriesHeld
    rw [hlist]
    exact hentries

/-- The seam of a record that commits is mapped, and not retired at the record's beat. -/
theorem CommitsHere.mapped {s : State} {i : Index} {x : Seam} {r : SeamRecord} (h : CommitsHere s i x r) :
    ∃ e, i.recNow s.now r.seam = some e ∧ e.retiredAt (s.now + 1) = false := by
  obtain ⟨hi, -, hhome, -⟩ := h
  obtain ⟨e, he, hlive⟩ := Option.bind_eq_some_iff.1 hhome
  rw [hi, Option.bind_some] at he
  refine ⟨e, he, ?_⟩
  cases hr : e.retiredAt (s.now + 1) with
  | false => rfl
  | true => simp [hr] at hlive

theorem State.takeRecord_commits {s w : State} {i : Index} {x : Seam} {r : SeamRecord} {c : Nat} (h : CommitsHere s i x r) (hraw : r.raw = [])
    (hc : s.commitRecord r = (.inr c, w)) : s.takeRecord r = w.answer r 0 c := by
  obtain ⟨-, hx, -, -, hsource, hheld, -, -⟩ := h
  unfold State.takeRecord
  simp only [hraw, List.isEmpty_nil, Bool.not_true, Bool.false_eq_true, if_false, hx, hsource, hheld, hc]
  cases s.away x <;> rfl

theorem State.room_within {s : State} {x : Seam} {tomb : Bool} (h : x.next tomb < (x.ext tomb).first + (x.ext tomb).cap) :
    s.room x tomb = (true, s) := by
  unfold State.room
  rw [if_pos h]

/-! ## Its entry (R185) -/

/-- A seam with one record more in a list. -/
def Seam.counted (tomb : Bool) (x : Seam) : Seam := if tomb then { x with nextTomb := x.nextTomb + 1 } else { x with nextSide := x.nextSide + 1 }

theorem Seam.counted_seam (tomb : Bool) (x : Seam) : (x.counted tomb).seam = x.seam := by
  unfold Seam.counted
  split <;> rfl

/-- The index with a record's entry counted in its seam, and noted as written in this beat. -/
def IndexSt.entered (r : SeamRecord) (d : IndexSt) : IndexSt :=
  { d with
    indexes := updWhere (·.act == r.act) (fun i => { i with seams := updWhere (·.seam == r.seam) (Seam.counted r.tomb) i.seams }) d.indexes
    written := d.written ++ [(r.act, r.seam, r.id)] }

/-- The state with a record in its list, and noted as written in this beat. -/
def State.entered (s : State) (r : SeamRecord) (b : List Byte) : State :=
  let u := s.putRecord r.act r.seam r.tomb b
  { u with idx := { u.idx with written := u.idx.written ++ [(r.act, r.seam, r.id)] } }

/-- A record put in its list, over the state with its bytes in memory. -/
theorem State.putRecord_eq {s : State} {act seam : Nat} {x : Seam} (hx : s.seam? act seam = some x) (tomb : Bool) (b : List Byte) :
    s.putRecord act seam tomb b =
      ((s.writeMem 0 (x.recAt tomb (x.next tomb)) b).journal (.entry act seam tomb b)).modSeam act seam (Seam.counted tomb) := by
  unfold State.putRecord
  rw [hx]
  rfl

/-- A record's bytes are stored in its list, and nothing but memory, the journal and the index has changed. -/
structure Entered (s u : State) (x : Seam) (r : SeamRecord) (b : List Byte) : Prop where
  stores : Stores s u (x.recAt r.tomb (x.next r.tomb)) b
  idx : u.idx = IndexSt.entered r s.idx
  only : { u with mem := s.mem, flash := s.flash, idx := s.idx } = s

theorem State.entered_does {s : State} {x : Seam} {r : SeamRecord} {b : List Byte} (hx : s.seam? r.act r.seam = some x)
    (hwf : s.mem.wf = true) (hw : Writable s (x.recAt r.tomb (x.next r.tomb)) b.length) (hawake : s.rd F.pwrStackState_inP3 = 0) :
    Entered s (s.entered r b) x r b := by
  obtain ⟨hstores, honly⟩ := State.writeMem_awake (source := 0) hwf hw hawake
  unfold State.entered
  rw [State.putRecord_eq hx]
  generalize s.writeMem 0 (x.recAt r.tomb (x.next r.tomb)) b = w at hstores honly
  have hidx : w.idx = s.idx := by have := congrArg State.idx honly; exact this
  refine ⟨hstores, congrArg (IndexSt.entered r) hidx, ?_⟩
  have := congrArg (fun u : State => { u with flash := s.flash, idx := s.idx }) honly
  exact this

namespace Entered

variable {s u : State} {x : Seam} {r : SeamRecord} {b : List Byte}

theorem regs (h : Entered s u x r b) : u.regs = s.regs := by have := congrArg State.regs h.only; exact this
theorem fil (h : Entered s u x r b) : u.fil = s.fil := by have := congrArg State.fil h.only; exact this
theorem telem (h : Entered s u x r b) : u.telem = s.telem := by have := congrArg State.telem h.only; exact this

theorem index (h : Entered s u x r b) {i : Index} (hi : s.index? r.act = some i) :
    u.index? r.act = some { i with seams := updWhere (·.seam == r.seam) (Seam.counted r.tomb) i.seams } :=
  (State.index_congr (s := s.modSeam r.act r.seam (Seam.counted r.tomb)) (by rw [h.idx]; rfl) _).trans (State.index_modSeam hi _ _)

theorem seam (h : Entered s u x r b) (hx : s.seam? r.act r.seam = some x) : u.seam? r.act r.seam = some (x.counted r.tomb) :=
  (State.seam_congr (s := s.modSeam r.act r.seam (Seam.counted r.tomb)) (by rw [h.idx]; rfl) _ _).trans
    (State.seam_modSeam hx _ fun y => y.counted_seam r.tomb)

/-- No rebalance of which this node is the source passes an entry on. -/
theorem sourceOf (h : Entered s u x r b) (hs : s.sourceOf r.act r.seam = none) : u.sourceOf r.act r.seam = none :=
  (State.sourceOf_congr (by rw [h.idx]; rfl) (rd_of_regs h.regs _) _ _).trans hs

end Entered

/-! ## Its answer -/

/-- An instruction in flight whose record has committed. -/
def Inflight.committed (o : Insn) (commit : Nat) (f : Inflight) : Inflight :=
  { f with gate := .commit commit, effects := .setS o.dst (BitVec.ofNat 64 commit) :: setPres o true }

/-- A strand whose instruction in flight has had its answer. -/
def Strand.commits (o : Insn) (tag commit : Nat) (t : Strand) : Strand :=
  { t with inflight := updWhere (·.tag == tag) (Inflight.committed o commit) t.inflight }

/-- The answer of a record that has committed goes to the instruction that waits for it. -/
theorem State.answerHere_commits {s : State} {o : Insn} {v : Strand} {fl : Inflight} (hs : s.anyStrand? o.strand = some v)
    (hfind : v.flight? fl.tag = some fl) (heffects : fl.effects = recordEffects o) (commit : Nat) :
    s.answerHere o.strand fl.tag 0 commit = s.modStrand o.strand (Strand.commits o fl.tag commit) := by
  have hwritten : cUnmapped ≠ 0 := by decide
  unfold State.answerHere
  rw [hs, Option.bind_some, hfind]
  show _ = s.modStrand o.strand fun v => { v with inflight := updWhere (·.tag == fl.tag) (fun f => f.committed o commit) v.inflight }
  simp only [heffects, Inflight.committed, recordEffects, setPres, hwritten.symm, false_and, if_false, true_or, if_true, decide_true]
  split <;> rfl

/-- The answer goes to the instruction that went into flight last. -/
theorem State.answerHere_last {s : State} {o : Insn} {t : Strand} {fl : Inflight}
    (hs : s.strand? o.strand = some { t.after o with inflight := t.inflight ++ [fl] }) (hold : ∀ f ∈ t.inflight, f.tag ≠ fl.tag)
    (heffects : fl.effects = recordEffects o) (commit : Nat) :
    (s.answerHere o.strand fl.tag 0 commit).strand? o.strand = some { t.after o with inflight := t.inflight ++ [fl.committed o commit] } ∧
    { s.answerHere o.strand fl.tag 0 commit with fil := s.fil } = s := by
  have hfind : (t.inflight ++ [fl]).find? (·.tag == fl.tag) = some fl := by
    rw [List.find?_append, List.find?_eq_none.2 fun f hf => by simpa using hold f hf, Option.none_or]
    exact List.find?_cons_of_pos (beq_self_eq_true _)
  rw [State.answerHere_commits (State.anyStrand_of_strand hs) hfind heffects]
  refine ⟨(s.strand_modStrand _ (Strand.commits o fl.tag commit) hs (fun _ => rfl) fun _ => rfl).trans ?_, rfl⟩
  unfold Strand.commits
  rw [updWhere_last _ hold rfl]

/-! ## The instruction at its record's home -/

/-- The instruction will write the beat at which its record has committed, and set PRES, when that beat comes. -/
def AwaitsCommit (u : State) (o : Insn) (t : Strand) (commit : Nat) : Prop :=
  ∃ fl : Inflight, u.strand? o.strand = some { t.after o with inflight := t.inflight ++ [fl] } ∧ fl.gate = .commit commit ∧
    fl.effects = .setS o.dst (BitVec.ofNat 64 commit) :: setPres o true

/-- A record handed over at its home that commits: its instruction has its answer, and else the state is the one that the record left. -/
theorem State.handed_commits {s u w : State} {f : Form} {o : Insn} {t : Strand} {reads : List Res} {i : Index} {x : Seam} {r : SeamRecord} {c : Nat}
    (ht : s.strand? o.strand = some t) (g : TileReads (s.moved o t) u) (hregs : u.regs = s.regs) (htags : ∀ f ∈ t.inflight, f.tag < s.nextId)
    (hhere : CommitsHere s i x r) (hraw : r.raw = []) (hc : (u.handing f o t reads).commitRecord (u.signed t r) = (.inr c, w))
    (hstrands : w.fil.strands = (u.handing f o t reads).fil.strands) (hself : w.self = s.self) :
    AwaitsCommit (u.handed f o t reads r s.self) o t c ∧ (u.handed f o t reads r s.self).mem = w.mem ∧
      (u.handed f o t reads r s.self).idx = w.idx ∧ (u.handed f o t reads r s.self).telem = w.telem := by
  have hhome : u.self = s.self := rd_of_regs hregs _
  have hcommits := State.takeRecord_commits (CommitsHere.signed (u := u.handing f o t reads) hhere g.idx g.tally hregs u t) hraw hc
  have hhanded : u.handed f o t reads r s.self = w.answerHere o.strand (recordFlight f o t u reads).tag 0 c := by
    unfold State.handed State.answer at *
    rw [if_pos hhome.symm, hcommits, if_pos (show (u.signed t r).node = w.self from hhome.trans hself.symm)]
    exact congrArg (fun k => w.answerHere k u.nextId 0 c) (strand_id ht)
  have hflight := ((StrandIs.handing (f := f) ht g reads).strand)
  rw [hhanded]
  obtain ⟨hlast, honly⟩ := State.answerHere_last (fl := recordFlight f o t u reads) ((State.strand_congr hstrands _).trans hflight)
    (fun k hk => by
      have hlt := htags k hk
      have hnext : u.nextId = s.nextId := g.nextId
      show k.tag ≠ u.nextId
      omega) rfl c
  refine ⟨⟨_, hlast, rfl, rfl⟩, ?_, ?_, ?_⟩
  · have := congrArg State.mem honly; exact this
  · have := congrArg State.idx honly; exact this
  · have := congrArg State.telem honly; exact this

/-! ## A delete (R186) -/

theorem State.commitRecord_tomb {s : State} {i : Index} {x : Seam} {r : SeamRecord} (h : CommitsHere s i x r) (ht : r.tomb = true)
    (he : Entered (s.count 0x301 1) ((s.count 0x301 1).entered r (tombBytes r.id (s.now + 1) x.nextTomb)) x r
      (tombBytes r.id (s.now + 1) x.nextTomb)) :
    s.commitRecord r = (.inr (s.now + 1), (s.count 0x301 1).entered r (tombBytes r.id (s.now + 1) x.nextTomb)) := by
  obtain ⟨e, hmapped, hlive⟩ := CommitsHere.mapped h
  obtain ⟨hi, hx, -, -, hsource, -, hentries, hroom⟩ := h
  have hpassed := he.sourceOf hsource
  unfold State.entered at *
  unfold State.commitRecord
  simp only [hi, hx, hmapped, hlive, Bool.false_eq_true, if_false, if_neg (Nat.not_le.2 hentries), State.room_within hroom]
  simp only [ht, if_true] at hpassed ⊢
  rw [hpassed]

/-- The record of a delete. -/
def deleteRecord (o : Insn) (t : Strand) (j : Job) (seam : Nat) : SeamRecord := ⟨j.act, seam, true, (t.getS o.b).toNat, 0, 0, [], 0, 0, 0, []⟩

theorem execIdxDelete_commits {s : State} {o : Insn} {t : Strand} {j : Job} {i : Index} {x : Seam} {seam : Nat} (h : Issues s Form.idxDelete o t j)
    (hc : t.clear [] (presWrites o) = true) (hseam : seam = (t.getS o.a).toNat) (hhere : CommitsHere s i x (deleteRecord o t j seam))
    (hwf : s.mem.wf = true) (hawake : s.rd F.pwrStackState_inP3 = 0) (htags : ∀ f ∈ t.inflight, f.tag < s.nextId)
    (hw : Writable s (x.recAt true x.nextTomb) (tombBytes (deleteRecord o t j seam).id (s.tally.beat + 1) x.nextTomb).length) :
    CompletesWith (execIdxDelete o s) fun u =>
      Stores s u (x.recAt true x.nextTomb) (tombBytes (deleteRecord o t j seam).id (s.tally.beat + 1) x.nextTomb) ∧
      u.ctr 0x301 = (s.ctr 0x301 + 1) % 2 ^ 64 ∧ u.seam? j.act seam = some { x with nextTomb := x.nextTomb + 1 } ∧
      AwaitsCommit u o t (s.tally.beat + 1) := by
  have hcommits := CommitsHere.signed (u := (s.moved o t).handing Form.idxDelete o t []) hhere rfl rfl rfl (s.moved o t) t
  have ⟨_, hx, _⟩ := hcommits
  have ⟨_, _, hhome, _⟩ := hhere
  have hentered := State.entered_does (s := ((s.moved o t).handing Form.idxDelete o t []).count 0x301 1)
    (r := (s.moved o t).signed t (deleteRecord o t j seam)) (b := tombBytes (deleteRecord o t j seam).id (s.tally.beat + 1) x.nextTomb)
    hx hwf hw hawake
  obtain ⟨hawaits, hmem, hidx, htelem⟩ := State.handed_commits h.strand (.refl _) rfl htags hhere rfl (State.commitRecord_tomb hcommits rfl hentered)
    (congrArg _ hentered.fil) (rd_of_regs hentered.regs _)
  generalize hu : (s.moved o t).handed Form.idxDelete o t [] (deleteRecord o t j seam) s.self = u at hawaits hmem hidx htelem
  refine ⟨u, ?_, hentered.stores.congr rfl hmem, ?_, ?_, hawaits⟩
  · rw [← hu]
    exact execIdxDelete_hands h hc hseam hhome
  · exact (congrArg (fun l => kvGet 0 l 0x301) (htelem.trans hentered.telem)).trans (State.ctr_count_same _ _ _)
  · exact (State.seam_congr (congrArg _ hidx) _ _).trans (hentered.seam hx)

end Sys2Proof.Machine
end

section
/-! PROOFS. An append that commits at its home: the vector's copy, its run, its pages and its entry (R185, R21, R328, R187). -/
namespace Sys2Proof.Machine
open Sys2Proof.Claims

/-! ## Writes to sound memory -/

/-- Every block reads clean, no channel is dead, no stack sleeps, and the flip mask is not armed: a write of any bytes stores them. -/
structure Sturdy (s : State) : Prop where
  blocks : ∀ b, s.mem.check b = .clean ∧ s.mem.dead b = false
  calm : Calm s
  awake : s.rd F.pwrStackState_inP3 = 0

theorem Sound.sturdy {s : State} (h : Sound s) : Sturdy s := by
  obtain ⟨hblocks, harm, hawake, hcanonical⟩ := h
  exact ⟨hblocks, ⟨State.canonical_mem hcanonical, harm⟩, hawake⟩

namespace Sturdy

variable {s u : State}

theorem congr (h : Sturdy s) (hm : u.mem = s.mem) (harm : u.rd F.memFlipCtrl_arm = s.rd F.memFlipCtrl_arm)
    (hawake : u.rd F.pwrStackState_inP3 = s.rd F.pwrStackState_inP3) : Sturdy u :=
  ⟨by rw [hm]; exact h.blocks, ⟨by rw [hm]; exact h.calm.wf, harm.trans h.calm.disarmed⟩, hawake.trans h.awake⟩

theorem congr_regs (h : Sturdy s) (hm : u.mem = s.mem) (hr : u.regs = s.regs) : Sturdy u := h.congr hm (rd_of_regs hr _) (rd_of_regs hr _)

theorem writable (h : Sturdy s) {a n : Nat} (ha : ∀ k < n, (physOf (a + k)).isSome = true) : Writable s a n :=
  ⟨ha, h.calm.disarmed, fun b _ => ⟨(h.blocks b).2, (h.blocks b).1⟩⟩

theorem writePiece (h : Sturdy s) (source p : Nat) (d : List Byte) :
    Sturdy (s.writePiece source p d) ∧ { s.writePiece source p d with mem := s.mem } = s := by
  obtain ⟨hclean, halive⟩ := h.blocks (p / 64)
  obtain ⟨hcalm, hdead, hcheck, honly⟩ := State.writePiece_keeps (source := source) (data := d) h.calm halive hclean
  have hregs : (s.writePiece source p d).regs = s.regs := by have := congrArg State.regs honly; exact this
  exact ⟨⟨fun b => ⟨hcheck b (h.blocks b).1, (hdead b).trans (h.blocks b).2⟩, hcalm, (rd_of_regs hregs _).trans h.awake⟩, honly⟩

/-- Bytes written anywhere leave memory sound, and change nothing else. -/
theorem writeMem (h : Sturdy s) (source a : Nat) (d : List Byte) :
    Sturdy (s.writeMem source a d) ∧ { s.writeMem source a d with mem := s.mem } = s := by
  have htouch : s.touch a d.length = s := by
    unfold State.touch
    rw [if_pos h.awake]
  unfold State.writeMem
  rw [htouch]
  refine foldl_keeps (P := fun u : State => Sturdy u ∧ { u with mem := s.mem } = s) (fun u e ⟨hu, honly⟩ => ?_) _ ⟨h, rfl⟩
  cases physOf e.1 with
  | none => exact ⟨hu, honly⟩
  | some p =>
    obtain ⟨hkept, hpiece⟩ := hu.writePiece source p e.2
    exact ⟨hkept, (congrArg (fun w : State => { w with mem := s.mem }) hpiece).trans honly⟩

end Sturdy

/-! ## The cache copy (R21, R299, R300) -/

theorem packTile_length {b c : List Byte} (h : packTile b = some c) : c.length ≤ 4096 := by
  unfold packTile at h
  dsimp only at h
  generalize (if isFill b then fillForm b else codedForm b) = f at h
  split at h
  next => simp at h
  next hshort =>
    obtain rfl := Option.some.inj h
    rw [padTo, List.length_append, List.length_replicate, List.length_take]
    omega

/-- The streams of a copy take no more than its pieces of 4,096 bytes. -/
theorem copyStreams_length (n : Nat) (b : List Byte) : ((copyStreams n b).flatMap (·.1)).length ≤ roundUp b.length 4096 := by
  induction n generalizing b with
  | zero => exact Nat.zero_le _
  | succ n ih =>
    unfold copyStreams
    cases hb : b.isEmpty with
    | true => exact Nat.zero_le _
    | false =>
      have hpos : 0 < b.length := List.length_pos_iff.2 (by simpa using hb)
      have hrest := ih (b.drop 4096)
      rw [List.length_drop] at hrest
      simp only [Bool.false_eq_true, if_false, List.flatMap_cons, List.length_append]
      cases hp : packTile (b.take 4096) with
      | none =>
        have hpiece := List.length_take_le 4096 b
        simp only
        unfold roundUp ceilDiv at *
        omega
      | some c =>
        have hpiece := packTile_length hp
        simp only
        unfold roundUp ceilDiv at *
        omega

theorem State.quotaFits_le {s : State} {act n k : Nat} (h : s.quotaFits act n false = true) (hk : k ≤ n) : s.quotaFits act k false = true := by
  unfold State.quotaFits at *
  simp only [Bool.false_eq_true, if_false, Bool.and_eq_true, decide_eq_true_eq] at *
  omega

theorem fitCache_fits {s : State} {act len : Nat} (h : s.cacheUse act + len ≤ s.rd (F.memQCache_kib act) * 1024) (n : Nat) :
    State.fitCache act len n s = s := by
  cases n with
  | zero => rfl
  | succ n =>
    unfold State.fitCache
    rw [if_pos h]

/-- A charge that the quota and the best stack have room for is placed, with nothing dropped. -/
theorem State.allocPool_fits {s : State} {act len a : Nat} {kind : AllocKind} (hkind : Alloc.isExpansion ⟨0, 0, 0, kind⟩ = false)
    (hquota : s.quotaFits act (roundUp (max len 1) 512) false = true) (hgap : s.poolGap s.bestStack (roundUp (max len 1) 512) = some a) :
    s.allocPool act len kind = (some a, s.addAlloc ⟨a, roundUp (max len 1) 512, act, kind⟩) := by
  unfold State.allocPool State.poolRun
  simp only [hkind, Bool.false_and, Bool.false_eq_true, if_false, makeRoom_fits hquota, hquota, Bool.not_true, hgap]

/-- Counting packed bytes changes registers of the CRU alone. -/
theorem packCount_keeps (s : State) (n : Nat) (out : Option Nat) : { s.packCount n out with regs := s.regs } = s ∧
    ∀ off, off ∉ packRegs ++ rawRegs → (s.packCount n out).reg off = s.reg off := by
  cases out with
  | none => exact ⟨(packCount_counts n).1 s, fun off h => (packCount_counts n).2 s off fun hr => h (List.mem_append_right _ hr)⟩
  | some k => exact ⟨packCount_only s n k, fun off h => packCount_reg s n k fun hr => h (List.mem_append_left _ hr)⟩

/-- Packed pieces counted one after another. -/
theorem packCounts_keep {α : Type} (n : α → Nat) (out : α → Option Nat) (l : List α) (s : State) :
    { l.foldl (fun s p => s.packCount (n p) (out p)) s with regs := s.regs } = s ∧
    ∀ off, off ∉ packRegs ++ rawRegs → (l.foldl (fun s p => s.packCount (n p) (out p)) s).reg off = s.reg off := by
  refine foldl_keeps (P := fun u : State => { u with regs := s.regs } = s ∧ ∀ off, off ∉ packRegs ++ rawRegs → u.reg off = s.reg off)
    (fun u p ⟨honly, hreg⟩ => ?_) l ⟨rfl, fun _ _ => rfl⟩
  obtain ⟨hstep, hkept⟩ := packCount_keeps u (n p) (out p)
  exact ⟨(congrArg (fun w : State => { w with regs := s.regs }) hstep).trans honly, fun off h => (hkept off h).trans (hreg off h)⟩

/-- A state with all that a vector's copy changes taken from an earlier one. -/
def State.uncopied (s u : State) : State :=
  { u with regs := s.regs, mem := s.mem, nextId := s.nextId, fil := { u.fil with allocs := s.fil.allocs }, idx := s.idx }

/-- A vector's copy is recorded and written, and its charge and counts made. -/
structure Copied (s u : State) (act unit : Nat) : Prop where
  copy : ∃ c, u.idx = { s.idx with caches := s.idx.caches ++ [c] } ∧ c.act = act ∧ c.page = unit / 256 ∧ c.unit = unit % 256 ∧ c.durable = false
  only : s.uncopied u = s
  rd : ∀ f : FieldRef, f.off ∉ packRegs ++ rawRegs → u.rd f = s.rd f
  sturdy : Sturdy u

theorem State.cacheCopy_copies {s : State} {act : Nat} {i : Index} {b : List Byte} (hroom : CopyRoom s act i) (hb : b.length = i.vecBytes)
    (hs : Sturdy s) (unit : Nat) : ∃ u, s.cacheCopy act unit b = (true, u) ∧ Copied s u act unit := by
  obtain ⟨hcache, hquota, hgap⟩ := hroom
  have hlen := copyStreams_length (b.length / 4096 + 1) b
  generalize hps : copyStreams (b.length / 4096 + 1) b = ps at hlen
  have hle : roundUp (max (ps.flatMap (·.1)).length 1) 512 ≤ roundUp (max i.vecBytes 1) 4096 := by
    rw [hb] at hlen
    unfold roundUp ceilDiv at *
    omega
  have hpos : 0 < roundUp (max (ps.flatMap (·.1)).length 1) 512 := by
    unfold roundUp ceilDiv
    omega
  obtain ⟨a, ha⟩ := hgap _ hpos hle
  have halloc : s.fresh.allocPool act (ps.flatMap (·.1)).length (.cache act s.nextId) =
      (some a, s.fresh.addAlloc ⟨a, roundUp (max (ps.flatMap (·.1)).length 1) 512, act, .cache act s.nextId⟩) :=
    State.allocPool_fits rfl (State.quotaFits_le (s := s.fresh) hquota hle) ha
  have hcopy := fitCache_fits (s := s) (act := act) (len := roundUp (max (ps.flatMap (·.1)).length 1) 512) (by omega) s.idx.caches.length
  generalize hv : s.fresh.addAlloc _ = v at halloc
  have hcounts := packCounts_keep (fun p : (List Byte × Bool) × Nat => min 4096 (b.length - 4096 * p.2))
    (fun p => if p.1.2 then some p.1.1.length else none) ps.zipIdx v
  unfold State.cacheCopy
  simp only [hps, hcopy, halloc]
  generalize ps.zipIdx.foldl _ v = w at hcounts
  obtain ⟨honly, hreg⟩ := hcounts
  have hrd : ∀ f : FieldRef, f.off ∉ packRegs ++ rawRegs → w.rd f = s.rd f := fun f hf => by
    unfold State.rd
    rw [hreg f.off hf, ← hv]
    rfl
  have hmem : w.mem = s.mem := (congrArg State.mem honly).trans (by rw [← hv]; rfl)
  have hidx : w.idx = s.idx := (congrArg State.idx honly).trans (by rw [← hv]; rfl)
  obtain ⟨hsturdy, hwrite⟩ := (hs.congr hmem (hrd _ (by decide)) (hrd _ (by decide))).writeMem 0 a (ps.flatMap (·.1))
  generalize w.writeMem 0 a _ = x at hsturdy hwrite
  have hx : x.regs = w.regs := by have := congrArg State.regs hwrite; exact this
  have hxidx : x.idx = s.idx := Eq.trans (by have := congrArg State.idx hwrite; exact this) hidx
  refine ⟨_, rfl, ⟨_, by rw [hxidx], rfl, rfl, rfl, rfl⟩, ?_, fun f hf => (rd_of_regs hx f).trans (hrd f hf), hsturdy.congr_regs rfl rfl⟩
  calc s.uncopied x
    _ = s.uncopied w := by have := congrArg s.uncopied hwrite; exact this
    _ = s.uncopied v := by have := congrArg s.uncopied honly; exact this
    _ = s := by rw [← hv]; rfl

/-! ## The vector, its run and its pages (R172, R185, R328) -/

theorem Index.stored_length (i : Index) (x : List Nat) (scale nan : Nat) : (i.stored x scale nan).length = i.vecBytes := by
  unfold Index.stored padTo
  simp only [List.length_append, List.length_take, List.length_replicate]
  omega

/-- The scale, and what stands for a NaN, of a vector that is not stored as BF16 are free values. -/
theorem State.storeVec_draws (s : State) {i : Index} (h : i.vfmt ≠ 1) (x : List Nat) :
    s.storeVec i x = ((1 + (s.draw 16).1 % 0x7F7F, i.stored x (1 + (s.draw 16).1 % 0x7F7F) ((s.draw 16).2.draw 8).1), ((s.draw 16).2.draw 8).2) := by
  unfold State.storeVec
  rw [if_neg h]

theorem State.storeVec_does (s : State) (i : Index) (x : List Nat) :
    (s.storeVec i x).1.2.length = i.vecBytes ∧ (i.vfmt = 1 → (s.storeVec i x).1.1 = 0x3F80) ∧ (s.storeVec i x).2 = { s with free := (s.storeVec i x).2.free } := by
  by_cases h : i.vfmt = 1
  · rw [show s.storeVec i x = ((0x3F80, i.stored x 0x3F80 0), s) from if_pos h]
    exact ⟨i.stored_length x 0x3F80 0, fun _ => rfl, rfl⟩
  · rw [s.storeVec_draws h]
    exact ⟨i.stored_length x _ _, fun h1 => absurd h1 h, rfl⟩

/-- Two states differ in nothing but the indexes. -/
def IndexesOnly (s u : State) : Prop := { u with idx := { u.idx with indexes := s.idx.indexes } } = s

theorem IndexesOnly.trans {s t u : State} (h : IndexesOnly s t) (g : IndexesOnly t u) : IndexesOnly s u := by
  unfold IndexesOnly at *
  have := congrArg (fun w : State => { w with idx := { w.idx with indexes := s.idx.indexes } }) g
  exact this.trans h

theorem IndexesOnly.modIndex (s : State) (act : Nat) (f : Index → Index) : IndexesOnly s (s.modIndex act f) := rfl

/-- Gathered bytes change the pages that wait of the act's index, and nothing else. -/
theorem State.gather_does (act : Nat) (n p o : Nat) (b : List Byte) (s : State) {i : Index} (hi : s.index? act = some i) :
    IndexesOnly s (State.gather act n p o b s) ∧ ∃ d, (State.gather act n p o b s).index? act = some { i with dirty := d } := by
  induction n generalizing p o b s i with
  | zero => exact ⟨rfl, i.dirty, hi⟩
  | succ n ih =>
    unfold State.gather
    cases hb : b.isEmpty with
    | true => exact ⟨rfl, i.dirty, hi⟩
    | false =>
      simp only [Bool.false_eq_true, if_false]
      generalize hw : s.modIndex act _ = w
      have hpage : IndexesOnly s w ∧ ∃ d, w.index? act = some { i with dirty := d } := by
        rw [← hw]
        exact ⟨.modIndex s act _, _, State.index_modIndex hi _ fun _ => rfl⟩
      obtain ⟨hfirst, d, hd⟩ := hpage
      obtain ⟨hrest, e, he⟩ := ih (p + 1) 0 (b.drop (pageBytes - o)) w hd
      exact ⟨hfirst.trans hrest, e, he⟩

/-- A vector's run taken, and its bytes gathered into its pages. -/
def State.runTaken (s : State) (act run : Nat) (b : List Byte) : State :=
  State.gather act (b.length / pageBytes + 2) (run / 256) (run % 256 * 64) b
    (s.modIndex act fun i => { i with runs := i.runs ++ [(run, i.vecBytes / 64)] })

theorem State.runTaken_does {s : State} {act : Nat} {i : Index} (hi : s.index? act = some i) (run : Nat) (b : List Byte) :
    IndexesOnly s (s.runTaken act run b) ∧
    ∃ d, (s.runTaken act run b).index? act = some { i with runs := i.runs ++ [(run, i.vecBytes / 64)], dirty := d } := by
  obtain ⟨honly, hd⟩ := State.gather_does act (b.length / pageBytes + 2) (run / 256) (run % 256 * 64) b _
    (State.index_modIndex hi (fun i => { i with runs := i.runs ++ [(run, i.vecBytes / 64)] }) fun _ => rfl)
  exact ⟨(IndexesOnly.modIndex s act _).trans honly, hd⟩

/-! ## The automatic backfill (R187) -/

/-- A backfill of a seam may have been scheduled and counted, and nothing else has changed. -/
structure Scheduled (s u : State) (act seam : Nat) : Prop where
  only : { u with telem := s.telem, idx := { u.idx with indexes := s.idx.indexes } } = s
  ctr : ∀ c < 0x303, u.ctr c = s.ctr c
  index : ∀ i, s.index? act = some i → ∃ l, u.index? act = some { i with seams := l }
  seam : ∀ x, s.seam? act seam = some x → ∃ f, u.seam? act seam = some { x with backfill := f }

namespace Scheduled

variable {s t u : State} {act seam : Nat}

theorem refl (s : State) (act seam : Nat) : Scheduled s s act seam :=
  ⟨rfl, fun _ _ => rfl, fun i hi => ⟨i.seams, hi⟩, fun x hx => ⟨x.backfill, hx⟩⟩

theorem trans (h : Scheduled s t act seam) (g : Scheduled t u act seam) : Scheduled s u act seam := by
  refine ⟨?_, fun c hc => (g.ctr c hc).trans (h.ctr c hc), fun i hi => ?_, fun x hx => ?_⟩
  · have := congrArg (fun w : State => { w with telem := s.telem, idx := { w.idx with indexes := s.idx.indexes } }) g.only
    exact Eq.trans this h.only
  · obtain ⟨l, hl⟩ := h.index i hi
    obtain ⟨l', hl'⟩ := g.index _ hl
    exact ⟨l', hl'⟩
  · obtain ⟨f, hf⟩ := h.seam x hx
    obtain ⟨f', hf'⟩ := g.seam _ hf
    exact ⟨f', hf'⟩

theorem count (s : State) (act seam : Nat) {c : Nat} (hc : 0x303 ≤ c) (n : Nat) : Scheduled s (s.count c n) act seam :=
  ⟨rfl, fun k hk => State.ctr_count_other s n (by omega), fun i hi => ⟨i.seams, hi⟩, fun x hx => ⟨x.backfill, hx⟩⟩

theorem modSeam (s : State) (act seam : Nat) (f : Option Nat) : Scheduled s (s.modSeam act seam fun x => { x with backfill := f }) act seam :=
  ⟨rfl, fun _ _ => rfl, fun _ hi => ⟨_, State.index_modSeam hi seam _⟩, fun _ hx => ⟨f, State.seam_modSeam hx _ fun _ => rfl⟩⟩

end Scheduled

theorem State.scheduleBackfill_does (s : State) (act seam beat : Nat) : Scheduled s (s.scheduleBackfill act seam beat).2 act seam := by
  unfold State.scheduleBackfill
  split
  · exact .refl s act seam
  · dsimp only
    split
    · exact .refl s act seam
    · split
      · exact .refl s act seam
      · refine Scheduled.trans (t := if _ then s else s.count 0x303 1) ?_ (.modSeam _ act seam _)
        split
        · exact .refl s act seam
        · exact .count s act seam (by decide) 1

theorem State.autoBackfill_does (s : State) (act seam : Nat) : Scheduled s (s.autoBackfill act seam) act seam := by
  unfold State.autoBackfill
  split
  · dsimp only
    split
    · split
      · exact s.scheduleBackfill_does act seam _
      · exact (s.scheduleBackfill_does act seam _).trans (.count _ act seam (by decide) 1)
    · split
      · exact s.scheduleBackfill_does act seam _
      · exact .refl s act seam
  · exact .refl s act seam

/-! ## The append (R185) -/

theorem CopyRoom.congr {s u : State} {act : Nat} {i : Index} (h : CopyRoom s act i) (hallocs : u.fil.allocs = s.fil.allocs)
    (hregs : u.regs = s.regs) : CopyRoom u act i := by
  unfold CopyRoom State.cacheUse State.quotaFits State.stackUse State.expandUse State.bestStack State.poolGap State.poolFree at *
  simp only [rd_of_regs hregs, hallocs]
  exact h

/-- The side-list entry of an append (Table 6.8a). -/
def Index.entryOf (i : Index) (r : SeamRecord) (run scale commit : Nat) : VEntry :=
  ⟨r.id, r.attr, run / 256 + (run % 256) * 2 ^ 36 + scale * 2 ^ 48, if i.extra then r.extra else 0, commit % 2 ^ 16, i.encode r.vec⟩

theorem sideBytes_length (e : VEntry) (commit seq : Nat) : (sideBytes e commit seq).length = 128 := by
  unfold sideBytes zeros padTo
  simp only [List.length_append, leBytes_length, List.length_replicate, List.length_take]
  omega

theorem State.commitRecord_side {s w v : State} {i : Index} {x : Seam} {r : SeamRecord} {run scale : Nat} {vec : List Byte} (h : CommitsHere s i x r)
    (ht : r.tomb = false) (hopen : s.flash.readOnly = false) (hrun : s.freeRun i = some run) (hvec : s.storeVec i r.vec = ((scale, vec), v))
    (hcopy : v.cacheCopy r.act run vec = (true, w))
    (hsource : (((w.runTaken r.act run vec).count 0x300 1).entered r
      (sideBytes (i.entryOf r run scale (s.now + 1)) (s.now + 1) x.nextSide)).sourceOf r.act r.seam = none) :
    s.commitRecord r = (.inr (s.now + 1), (((w.runTaken r.act run vec).count 0x300 1).entered r
      (sideBytes (i.entryOf r run scale (s.now + 1)) (s.now + 1) x.nextSide)).autoBackfill r.act r.seam) := by
  obtain ⟨e, hmapped, hlive⟩ := CommitsHere.mapped h
  obtain ⟨hi, hx, -, -, -, -, hentries, hroom⟩ := h
  unfold State.entered at *
  unfold State.commitRecord
  simp only [hi, hx, hmapped, hlive, Bool.false_eq_true, if_false, if_neg (Nat.not_le.2 hentries), State.room_within hroom, hopen,
    Option.getD_some, hrun, hvec, hcopy]
  simp only [ht, Bool.false_eq_true, if_false] at hsource ⊢
  unfold State.runTaken Index.entryOf at *
  rw [hsource]

/-- What an append that commits leaves of its seam and its index in `u`: its entry, its vector's run and cache copy, and its count. -/
structure Appended (s u : State) (i : Index) (x : Seam) (r : SeamRecord) (run : Nat) : Prop where
  entry : ∃ scale : Nat, (i.vfmt = 1 → scale = 0x3F80) ∧ ∀ k < 128, u.byteAt (x.recAt false x.nextSide + k) =
    (sideBytes (i.entryOf r run scale (s.tally.beat + 1)) (s.tally.beat + 1) x.nextSide).getD k 0#8
  counted : u.ctr 0x300 = (s.ctr 0x300 + 1) % 2 ^ 64
  runs : (u.index? r.act).map (·.runs) = some (i.runs ++ [(run, i.vecBytes / 64)])
  seam : ∃ z, u.seam? r.act r.seam = some z ∧ z.nextSide = x.nextSide + 1 ∧ z.side = x.side ∧ z.versions = x.versions
  cache : ∃ c ∈ u.idx.caches, c.act = r.act ∧ c.page * 256 + c.unit = run ∧ c.durable = false

/-- What an append leaves does not depend on the instruction that its record names. -/
theorem Appended.congr {s u s' u' v : State} {t : Strand} {i : Index} {x : Seam} {r : SeamRecord} {run : Nat} (h : Appended s u i x (v.signed t r) run)
    (hbeat : s.tally = s'.tally) (htelem : s.telem = s'.telem) (hmem : u'.mem = u.mem) (hidx : u'.idx = u.idx) (hcounts : u'.telem = u.telem) :
    Appended s' u' i x r run := by
  obtain ⟨hentry, hcounted, hruns, hseam, hcache⟩ := h
  have hlist : u'.idx.indexes = u.idx.indexes := congrArg _ hidx
  refine ⟨?_, ?_, (congrArg _ (State.index_congr hlist _)).trans hruns, ?_, by rw [hidx]; exact hcache⟩
  · unfold State.byteAt at *
    rw [hmem, ← hbeat]
    exact hentry
  · unfold State.ctr at *
    rw [hcounts, ← htelem]
    exact hcounted
  · rw [State.seam_congr hlist]
    exact hseam

/-- In `u`, the vector of an append has its cache copy, its run and its bytes in their pages, and nothing that its entry needs has changed. -/
structure TakesRun (s u : State) (act : Nat) (i : Index) (run : Nat) : Prop where
  sturdy : Sturdy u
  self : u.self = s.self
  moves : u.idx.rebalances = s.idx.rebalances
  telem : u.telem = s.telem
  strands : u.fil.strands = s.fil.strands
  index : ∃ d, u.index? act = some { i with runs := i.runs ++ [(run, i.vecBytes / 64)], dirty := d }
  cache : ∃ c ∈ u.idx.caches, c.act = act ∧ c.page * 256 + c.unit = run ∧ c.durable = false

theorem Copied.takesRun {s w : State} {act run : Nat} {i : Index} (h : Copied s w act run) (hi : s.index? act = some i) (b : List Byte) :
    TakesRun s (w.runTaken act run b) act i run := by
  obtain ⟨c, hidx, hact, hpage, hunit, hdurable⟩ := h.copy
  obtain ⟨honly, hindex⟩ := State.runTaken_does ((State.index_congr (by rw [hidx]) act).trans hi) run b
  generalize w.runTaken act run b = z at honly hindex
  have hmem : z.mem = w.mem := by have := congrArg State.mem honly; exact this
  have hregs : z.regs = w.regs := by have := congrArg State.regs honly; exact this
  have hkept : { z.idx with indexes := w.idx.indexes } = w.idx := by have := congrArg State.idx honly; exact this
  refine ⟨h.sturdy.congr_regs hmem hregs, (rd_of_regs hregs _).trans (h.rd F.glbNodeId_node (by decide)), ?_, ?_, ?_, hindex, c, ?_, hact, ?_, hdurable⟩
  · exact Eq.trans (by have := congrArg IndexSt.rebalances hkept; exact this) (by rw [hidx])
  · exact Eq.trans (by have := congrArg State.telem honly; exact this) (by have := congrArg State.telem h.only; exact this)
  · exact Eq.trans (by have := congrArg (fun u : State => u.fil.strands) honly; exact this)
      (by have := congrArg (fun u : State => u.fil.strands) h.only; exact this)
  · rw [show z.idx.caches = w.idx.caches by have := congrArg IndexSt.caches hkept; exact this, hidx]
    exact List.mem_append_right _ (List.mem_singleton_self c)
  · rw [hpage, hunit]
    omega

/-- A seam of an index that takes a run is as it was. -/
theorem TakesRun.seam {s u : State} {act run : Nat} {i : Index} (h : TakesRun s u act i run) (hi : s.index? act = some i) (seam : Nat) :
    u.seam? act seam = s.seam? act seam := by
  obtain ⟨d, hd⟩ := h.index
  rw [State.seam_of_index hd, State.seam_of_index hi]
  rfl

/-- The entry of an append whose vector has its run, and what follows it. -/
theorem Entered.appended {s z u : State} {i : Index} {x : Seam} {r : SeamRecord} {run scale : Nat} (hrun : TakesRun s z r.act i run)
    (hx : z.seam? r.act r.seam = some x) (ht : r.tomb = false) (hscale : i.vfmt = 1 → scale = 0x3F80)
    (h : Entered (z.count 0x300 1) u x r (sideBytes (i.entryOf r run scale (s.tally.beat + 1)) (s.tally.beat + 1) x.nextSide)) :
    Appended s (u.autoBackfill r.act r.seam) i x r run := by
  have hsched := u.autoBackfill_does r.act r.seam
  have hmem : (u.autoBackfill r.act r.seam).mem = u.mem := by have := congrArg State.mem hsched.only; exact this
  obtain ⟨hsturdy, -, -, htelem, -, ⟨d, hd⟩, hcache⟩ := hrun
  refine ⟨⟨scale, hscale, fun k hk => ?_⟩, ?_, ?_, ?_, ?_⟩
  · have hbyte := h.stores.1 k (by rw [sideBytes_length]; exact hk)
    rw [ht] at hbyte
    unfold State.byteAt at *
    rw [hmem]
    exact hbyte
  · refine (hsched.ctr 0x300 (by decide)).trans ((congrArg (fun l => kvGet 0 l 0x300) h.telem).trans ((State.ctr_count_same _ _ _).trans ?_))
    exact congrArg (fun l => (kvGet 0 l 0x300 + 1) % 2 ^ 64) htelem
  · obtain ⟨l, hl⟩ := hsched.index _ (h.index hd)
    rw [hl]
    rfl
  · obtain ⟨f, hf⟩ := hsched.seam _ (h.seam hx)
    refine ⟨_, hf, ?_⟩
    rw [ht]
    exact ⟨rfl, rfl, rfl⟩
  · obtain ⟨c, hc, hwhat⟩ := hcache
    refine ⟨c, ?_, hwhat⟩
    have hkept : (u.autoBackfill r.act r.seam).idx.caches = u.idx.caches := by
      have := congrArg (fun w : State => w.idx.caches) hsched.only
      exact this
    rw [hkept, h.idx]
    exact hc

theorem State.commitRecord_appends {s : State} {i : Index} {x : Seam} {r : SeamRecord} {run : Nat} (h : CommitsHere s i x r) (ht : r.tomb = false)
    (hs : Sturdy s) (hroom : CopyRoom s r.act i) (hopen : s.flash.readOnly = false) (hrun : s.freeRun i = some run)
    (hphys : ∀ k < 128, (physOf (x.recAt false x.nextSide + k)).isSome = true) :
    ∃ u, s.commitRecord r = (.inr (s.now + 1), u) ∧ Appended s u i x r run ∧ u.fil.strands = s.fil.strands ∧ u.self = s.self := by
  have ⟨hi, hx, _, _, hsource, _⟩ := h
  obtain ⟨hlen, hscale, hv⟩ := s.storeVec_does i r.vec
  generalize hvec : s.storeVec i r.vec = e at hlen hscale hv
  obtain ⟨⟨scale, vec⟩, v⟩ := e
  dsimp only at hlen hscale hv
  obtain ⟨w, hcopy, hcopied⟩ := State.cacheCopy_copies (CopyRoom.congr (u := v) hroom (by rw [hv]) (by rw [hv])) hlen
    (hs.congr_regs (u := v) (by rw [hv]) (by rw [hv])) run
  have htakes : TakesRun s (w.runTaken r.act run vec) r.act i run := by
    have hfrom := hcopied.takesRun (i := i) (by rw [hv]; exact hi) vec
    rw [hv] at hfrom
    exact ⟨hfrom.sturdy, hfrom.self, hfrom.moves, hfrom.telem, hfrom.strands, hfrom.index, hfrom.cache⟩
  have hcommit := State.commitRecord_side h ht hopen hrun hvec hcopy
  generalize w.runTaken r.act run vec = z at htakes hcommit
  have hxz : z.seam? r.act r.seam = some x := (htakes.seam hi r.seam).trans hx
  have hsturdy : Sturdy (z.count 0x300 1) := htakes.sturdy.congr_regs rfl rfl
  have hentered := State.entered_does (s := z.count 0x300 1) (r := r) (x := x)
    (b := sideBytes (i.entryOf r run scale (s.now + 1)) (s.now + 1) x.nextSide) hxz hsturdy.calm.wf
    (hsturdy.writable (by rw [ht, sideBytes_length]; exact hphys)) hsturdy.awake
  have hsched := State.autoBackfill_does ((z.count 0x300 1).entered r (sideBytes (i.entryOf r run scale (s.now + 1)) (s.now + 1) x.nextSide)) r.act r.seam
  refine ⟨_, hcommit (hentered.sourceOf ((State.sourceOf_congr (s := s) htakes.moves htakes.self _ _).trans hsource)),
    hentered.appended htakes hxz ht hscale, ?_, ?_⟩
  · refine Eq.trans (by have := congrArg (fun u : State => u.fil.strands) hsched.only; exact this) ?_
    exact (congrArg FilauxSt.strands hentered.fil).trans htakes.strands
  · have hregs := (show _ = _ by have := congrArg State.regs hsched.only; exact this).trans hentered.regs
    exact (rd_of_regs hregs _).trans htakes.self

/-- An append at its seam's home. -/
theorem State.handed_appends {s u : State} {f : Form} {o : Insn} {t : Strand} {reads : List Res} {i : Index} {x : Seam} {r : SeamRecord}
    {run : Nat} (ht : s.strand? o.strand = some t) (g : TileReads (s.moved o t) u) (hregs : u.regs = s.regs)
    (htags : ∀ f ∈ t.inflight, f.tag < s.nextId) (hhere : CommitsHere s i x r) (hraw : r.raw = []) (htomb : r.tomb = false) (hsound : Sound s)
    (hroom : CopyRoom s r.act i) (hopen : s.flash.readOnly = false) (hrun : s.freeRun i = some run)
    (hphys : ∀ k < 128, (physOf (x.recAt false x.nextSide + k)).isSome = true) :
    Appended s (u.handed f o t reads r s.self) i x r run ∧ AwaitsCommit (u.handed f o t reads r s.self) o t (s.tally.beat + 1) := by
  have hflash : (u.handing f o t reads).flash = s.flash := by have := congrArg State.flash g.1; exact this
  have htelem : (u.handing f o t reads).telem = s.telem := by have := congrArg State.telem g.1; exact this
  have htally : (u.handing f o t reads).tally = s.tally := g.tally
  obtain ⟨w, hcommit, happended, hstrands, hself⟩ := State.commitRecord_appends (r := u.signed t r)
    (CommitsHere.signed (u := u.handing f o t reads) hhere g.idx g.tally hregs u t) htomb
    (Sound.sturdy hsound |>.congr_regs g.mem hregs) (CopyRoom.congr (u := u.handing f o t reads) hroom g.allocs hregs) (by rw [hflash]; exact hopen)
    (by unfold State.freeRun at *; rw [hflash]; exact hrun) hphys
  obtain ⟨hawaits, hmem, hidx, hcounts⟩ := State.handed_commits ht g hregs htags hhere hraw hcommit hstrands (hself.trans (rd_of_regs hregs _))
  rw [show (u.handing f o t reads).now = s.tally.beat from congrArg TallySt.beat htally] at hawaits
  exact ⟨happended.congr htally htelem hmem hidx hcounts, hawaits⟩

end Sys2Proof.Machine
end

section
/-! PROOFS. Held and forwarded records, page writes and committed beats (R187, R192, R328, R181), and the settlement of O43. -/
namespace Sys2Proof.Machine
open Sys2Proof.Claims

/-! ## Records that are held, or that a source has committed (R187, R192) -/

theorem execAppendRelease_takes {s : State} {act seam k : Nat} {x : Seam} {r : SeamRecord} (hx : s.seam? act seam = some x)
    (hroom : x.beyond < 131072) (hheld : s.idx.heldApps = [⟨k, r⟩]) :
    execAppendRelease act seam s = .next (({ s with idx := { s.idx with heldApps := [] } } : State).takeRecord r) := by
  unfold execAppendRelease State.retryHeld
  simp only [hx, hroom, if_true, hheld]
  rfl

/-- A record that comes as its source has committed it, next in its list, is stored as it came. -/
theorem State.takeRecord_raw {s : State} {r : SeamRecord} {x : Seam} (hraw : r.raw ≠ []) (hx : s.seam? r.act r.seam = some x)
    (hseq : leAt r.raw (if r.tomb then 0x10 else 0x20) 8 = x.next r.tomb) (hroom : x.next r.tomb < (x.ext r.tomb).first + (x.ext r.tomb).cap) :
    s.takeRecord r = s.putRecord r.act r.seam r.tomb r.raw := by
  unfold State.takeRecord State.storeRaw
  simp only [List.isEmpty_eq_false_iff.2 hraw, Bool.not_false, if_true, hx, hseq, ne_eq, not_true_eq_false, if_false, State.room_within hroom]

theorem execForwardedRecordReceive_stores {s : State} {r : SeamRecord} {x : Seam} (hraw : r.raw ≠ []) (hx : s.seam? r.act r.seam = some x)
    (hseq : leAt r.raw (if r.tomb then 0x10 else 0x20) 8 = x.next r.tomb) (hroom : x.next r.tomb < (x.ext r.tomb).first + (x.ext r.tomb).cap)
    (hwf : s.mem.wf = true) (hw : Writable s (x.recAt r.tomb (x.next r.tomb)) r.raw.length) :
    CompletesWith (execForwardedRecordReceive r s) fun u => Stores s u (x.recAt r.tomb (x.next r.tomb)) r.raw ∧
      u.seam? r.act r.seam = some (x.counted r.tomb) := by
  have hkept : (s.writeMem 0 (x.recAt r.tomb (x.next r.tomb)) r.raw).idx = s.idx := by
    have := congrArg State.idx (MemoryOnly.writeMem s 0 (x.recAt r.tomb (x.next r.tomb)) r.raw)
    exact this
  refine ⟨_, rfl, ?_⟩
  rw [State.takeRecord_raw hraw hx hseq hroom, State.putRecord_eq hx]
  exact ⟨(State.writeMem_stores hwf hw).2.1,
    State.seam_modSeam ((State.seam_congr (congrArg IndexSt.indexes hkept) _ _).trans hx) _ fun y => y.counted_seam r.tomb⟩

/-! ## Page writes of the vector area (R328) -/

/-- A page write with this sequence number and contents is on its way. -/
def PageOnWay (s : State) (wseq act page : Nat) (data : List Byte) : Prop :=
  ∃ w ∈ s.flash.writes, w.wseq = wseq ∧ w.act = act ∧ w.page = page ∧ w.data = data

theorem PageOnWay.congr {s u : State} {wseq act page : Nat} {data : List Byte} (h : PageOnWay s wseq act page data)
    (hw : u.flash.writes = s.flash.writes) : PageOnWay u wseq act page data := by
  unfold PageOnWay
  rw [hw]
  exact h

/-- A page write on its way is there still after a write has its place. -/
theorem PageOnWay.place {s : State} {wseq act page : Nat} {data : List Byte} (h : PageOnWay s wseq act page data) (n : Nat) (slc : Bool) (pl : Place) :
    PageOnWay (s.modFlash fun f => { f with
      writes := updWhere (·.wseq == n) (fun w => { w with started := true, slc := slc, place := pl }) f.writes }) wseq act page data := by
  obtain ⟨w, hw, hwhat⟩ := h
  refine ⟨_, List.mem_map_of_mem hw, ?_⟩
  split <;> exact hwhat

/-- A write of any number that starts leaves the others on their way, and takes no sequence number. -/
theorem State.startWrite_keeps {s : State} {wseq act page : Nat} {data : List Byte} (h : PageOnWay s wseq act page data) (n : Nat) (slc : Bool) :
    MediaOnly s (s.startWrite n slc) ∧ (s.startWrite n slc).flash.wseq = s.flash.wseq ∧ PageOnWay (s.startWrite n slc) wseq act page data := by
  unfold State.startWrite
  split
  next => exact ⟨.refl s, rfl, h⟩
  next v hv =>
    split
    next => exact ⟨.refl s, rfl, h⟩
    next pl u hslot =>
      have htaken : MediaOnly s u ∧ u.flash.wseq = s.flash.wseq ∧ u.flash.writes = s.flash.writes := by
        refine ⟨.takeSlot hslot, ?_⟩
        obtain ⟨e, he, hpair⟩ := Option.map_eq_some_iff.1 hslot
        obtain ⟨x, -, rfl⟩ := Option.map_eq_some_iff.1 he
        obtain rfl := congrArg Prod.snd hpair
        exact ⟨rfl, rfl⟩
      obtain ⟨honly, hseq, hwrites⟩ := htaken
      dsimp only
      have hplaced := (h.congr hwrites).place n slc pl
      generalize hv : u.modFlash _ = z at hplaced
      have hz : MediaOnly u z ∧ z.flash.wseq = u.flash.wseq := by rw [← hv]; exact ⟨rfl, rfl⟩
      have hflash : (z.transfer false pl v.act (if v.strand = 0 then 2 else 1) n 0 none).flash = z.flash := (SendsOnly.enqueue z _ _ _ _ _ _).flash
      exact ⟨honly.trans (hz.1.trans (.transfer _ _ _ _ _ _ _ _)), by rw [hflash, hz.2, hseq], hplaced.congr (by rw [hflash])⟩

/-- The status registers refreshed leave what is on its way. -/
theorem PageOnWay.adtRefresh {s u : State} {wseq act page : Nat} {data : List Byte} (h : PageOnWay u wseq act page data) (hs : MediaOnly s u)
    (hseq : u.flash.wseq = wseq) : MediaOnly s u.adtRefresh ∧ u.adtRefresh.flash.wseq = wseq ∧ PageOnWay u.adtRefresh wseq act page data := by
  have honly := hs.trans (.adtRefresh u)
  have hflash := u.adtRefresh_does.flash
  generalize u.adtRefresh = w at honly hflash
  exact ⟨honly, (congrArg FlashSt.wseq hflash).trans hseq, h.congr (Eq.trans (congrArg FlashSt.writes hflash) rfl)⟩

/-- A page write that arrives takes the next sequence number and is on its way. -/
theorem State.pageArrives_does (s : State) (act page : Nat) (data : List Byte) (strand tag : Nat) :
    MediaOnly s (s.pageArrives act page data strand tag) ∧ (s.pageArrives act page data strand tag).flash.wseq = s.flash.wseq + 1 ∧
      PageOnWay (s.pageArrives act page data strand tag) (s.flash.wseq + 1) act page data := by
  unfold State.pageArrives
  dsimp only
  generalize hv : s.modFlash _ = v
  have harrived : PageOnWay v (s.flash.wseq + 1) act page data ∧ v.flash.wseq = s.flash.wseq + 1 ∧ MediaOnly s v := by
    rw [← hv]
    exact ⟨⟨_, List.mem_append_right _ (List.mem_singleton_self _), rfl, rfl, rfl, rfl⟩, rfl, rfl⟩
  obtain ⟨hway, hseq, honly⟩ := harrived
  split
  next slc _ =>
    obtain ⟨hstart, hkept, hthere⟩ := State.startWrite_keeps hway (s.flash.wseq + 1) slc
    exact hthere.adtRefresh (honly.trans hstart) (hkept.trans hseq)
  next => exact hway.adtRefresh honly hseq

/-- An act's index without a page that has left the index engine. -/
def State.pageSent (s : State) (act page : Nat) : State := s.modIndex act fun i => { i with dirty := i.dirty.filter (·.1 != page) }

theorem execVectorPageWrite_sends {s : State} {act page : Nat} {i : Index} {d : Nat × List Byte} (hi : s.index? act = some i)
    (hd : i.dirty.find? (·.1 == page) = some d) (hquiet : s.flash.quiet = false) (hdue : i.pageFull page = true ∨ s.tally.beat % 2048 = 0)
    (haccepts : s.flash.accepts act page false = true) :
    execVectorPageWrite act page s = .next (((s.pageSent act page).pageArrives act page d.2 0 0).count 0x801 1) := by
  have hfound : s.idx.indexes.find? (·.act == act) = some i := hi
  have hnow : (!s.flash.quiet && (i.pageFull page || s.now % 2048 == 0)) = true := by
    rw [hquiet, Bool.not_false, Bool.true_and, Bool.or_eq_true, beq_iff_eq]
    exact hdue
  have hgoes : (s.flash.accepts act page false && !s.flash.quiet) = true := by rw [haccepts, hquiet]; rfl
  unfold execVectorPageWrite State.flushVector State.pageSent State.modIndex
  simp only [hfound, hnow, if_true, Option.bind_some, hd, hgoes]

/-- A page that has left its act's index is on its way, and counted. -/
theorem State.pageSent_counted {s u : State} {act page : Nat} {i : Index} {data : List Byte} (hi : s.index? act = some i)
    (honly : MediaOnly (s.pageSent act page) u) (hseq : u.flash.wseq = (s.pageSent act page).flash.wseq + 1)
    (hway : PageOnWay u ((s.pageSent act page).flash.wseq + 1) act page data) :
    (u.count 0x801 1).index? act = some { i with dirty := i.dirty.filter (·.1 != page) } ∧
      (u.count 0x801 1).flash.wseq = s.flash.wseq + 1 ∧ PageOnWay (u.count 0x801 1) (s.flash.wseq + 1) act page data := by
  have hsent : (s.pageSent act page).index? act = some { i with dirty := i.dirty.filter (·.1 != page) } := State.index_modIndex hi _ fun _ => rfl
  have hidx : (u.count 0x801 1).idx = (s.pageSent act page).idx := honly.idx
  exact ⟨(State.index_congr (congrArg IndexSt.indexes hidx) act).trans hsent, hseq, hway.congr rfl⟩

theorem execVectorPageWrite_writes {s : State} {act page : Nat} {i : Index} {d : Nat × List Byte} (hi : s.index? act = some i)
    (hd : i.dirty.find? (·.1 == page) = some d) (hquiet : s.flash.quiet = false) (hdue : i.pageFull page = true ∨ s.tally.beat % 2048 = 0)
    (haccepts : s.flash.accepts act page false = true) :
    CompletesWith (execVectorPageWrite act page s) fun u => u.index? act = some { i with dirty := i.dirty.filter (·.1 != page) } ∧
      u.flash.wseq = s.flash.wseq + 1 ∧ PageOnWay u (s.flash.wseq + 1) act page d.2 := by
  obtain ⟨honly, hseq, hway⟩ := State.pageArrives_does (s.pageSent act page) act page d.2 0 0
  exact ⟨_, execVectorPageWrite_sends hi hd hquiet hdue haccepts, State.pageSent_counted hi honly hseq hway⟩

/-! ## Committed beats (R181) -/

theorem execCommittedBeatReceive_enters {s : State} {node beat : Nat} (hmember : s.isMember = true) (hnode : node ≠ s.position)
    (hthere : s.members.testBit node = true) :
    CompletesWith (execCommittedBeatReceive node beat s) fun u => u.tally.published = (node, beat) :: s.tally.published.filter (·.1 != node) ∧
      u.car.joins = s.car.joins.filter (·.1 != node) ∧
      { u with car := { u.car with joins := s.car.joins }, tally := { u.tally with published := s.tally.published }, telem := s.telem } = s := by
  have hbody : execCommittedBeatReceive node beat s = .next (((s.modCar fun c => { c with joins := c.joins.filter (·.1 != node) }).ctlIn 1).modTally
      fun t => { t with published := (node, beat) :: t.published.filter (·.1 != node) }) := by
    unfold execCommittedBeatReceive
    simp [hmember, hnode, hthere]
  have hcounted := (s.modCar fun c => { c with joins := c.joins.filter (·.1 != node) }).ctlIn_telem 1
  rw [hbody]
  generalize State.ctlIn _ 1 = v at hcounted
  have htally : v.tally = s.tally := by have := congrArg State.tally hcounted; exact this
  have hcar : v.car = { s.car with joins := s.car.joins.filter (·.1 != node) } := by have := congrArg State.car hcounted; exact this
  refine ⟨_, rfl, ?_, congrArg CarSt.joins hcar, ?_⟩
  · exact congrArg (fun t : TallySt => (node, beat) :: t.published.filter (·.1 != node)) htally
  · have hrest := congrArg (fun u : State => { u with
      car := { u.car with joins := s.car.joins }, tally := { u.tally with published := s.tally.published }, telem := s.telem }) hcounted
    exact hrest

/-! ## The appends at another node's seam, and at this one's -/

/-- The clauses of an append to a seam homed elsewhere, for either of its forms. -/
theorem appendBody_sends {s : State} {f : Form} {o : Insn} {t : Strand} {j : Job} {i : Index} {x : List Nat} {seam home chan : Nat} (extra : Nat)
    (h : Issues s f o t j) (hi : s.index? j.act = some i) (hhome : s.homeFor' j.act seam = some home) (hother : home ≠ s.self)
    (hlink : s.linkFor s.self home = some chan) (hid : bitOf (o.ext.getD 0 0#64).toNat 63 = false) (hseam : seam = (t.getS o.b).toNat)
    (hnamed : seam ≠ 0xFFFFFFFF) (hx : VectorAt s t j o.a i.dim x) (hc : t.clear ((vecHandles o.a i.dim).map Res.t) (presWrites o) = true) :
    CompletesWith (appendBody f o extra (s.vecReads o.strand o.a) s) fun u =>
      RecordSent s u o t chan home (appendRecord o j seam extra x) (recordEffects o) := by
  obtain ⟨u, g, -, hrun⟩ := appendBody_hands (reads := s.vecReads o.strand o.a) extra h (by rw [h.vecReads hi]; exact hc) hi hx hid hseam hnamed hhome
  exact ⟨_, hrun, State.handed_sent h.strand g _ _ hother hlink⟩

/-- The clauses of an append to a seam homed here, for either of its forms. -/
theorem appendBody_commits {s : State} {f : Form} {o : Insn} {t : Strand} {j : Job} {i : Index} {y : Seam} {x : List Nat} {seam run : Nat} (extra : Nat)
    (h : Issues s f o t j) (hhere : CommitsHere s i y (appendRecord o j seam extra x)) (hid : bitOf (o.ext.getD 0 0#64).toNat 63 = false)
    (hseam : seam = (t.getS o.b).toNat) (hnamed : seam ≠ 0xFFFFFFFF) (hx : VectorAt s t j o.a i.dim x)
    (hc : t.clear ((vecHandles o.a i.dim).map Res.t) (presWrites o) = true) (htags : ∀ f ∈ t.inflight, f.tag < s.nextId) (hsound : Sound s)
    (hroom : CopyRoom s j.act i) (hopen : s.flash.readOnly = false) (hrun : s.freeRun i = some run)
    (hphys : ∀ k < 128, (physOf (y.recAt false y.nextSide + k)).isSome = true) :
    CompletesWith (appendBody f o extra (s.vecReads o.strand o.a) s) fun u =>
      Appended s u i y (appendRecord o j seam extra x) run ∧ AwaitsCommit u o t (s.tally.beat + 1) := by
  have ⟨hi, _, hhome, _⟩ := hhere
  obtain ⟨u, g, hregs, hhands⟩ := appendBody_hands (reads := s.vecReads o.strand o.a) extra h (by rw [h.vecReads hi]; exact hc) hi hx hid hseam hnamed hhome
  exact ⟨_, hhands, State.handed_appends h.strand g hregs htags hhere rfl rfl hsound hroom hopen hrun hphys⟩

/-- Settles O43: each instruction hands its record over, to another node or to this one, where the record commits, and each event is
settled from the one state that it answers. -/
theorem indexWrites : Obligations.IndexWrites := by
  refine ⟨fun o s t j i => ⟨?_, ?_, ?_⟩, ?_, ?_, ?_, ?_⟩
  · rintro id seam home chan x hi hhome hother hlink rfl hid hseam hnamed hx hc
    exact ⟨fun h => appendBody_sends 0 h hi hhome hother hlink hid hseam hnamed hx hc,
      fun h => appendBody_sends _ h hi hhome hother hlink hid hseam hnamed hx hc⟩
  · rintro id seam run x y rfl hid hseam hnamed - hx hc htags hsound hroom hopen hrun hphys
    refine ⟨fun h hhere => ?_, fun h hhere => ?_⟩
    · obtain ⟨u, hu, ⟨⟨scale, hscale, hbytes⟩, hcounted, hruns, hentered, hcache⟩, hawaits⟩ :=
        appendBody_commits 0 h hhere hid hseam hnamed hx hc htags hsound hroom hopen hrun hphys
      exact ⟨u, hu, scale, hscale, hbytes, hcounted, hruns, hentered, hcache, hawaits⟩
    · obtain ⟨u, hu, ⟨⟨scale, hscale, hbytes⟩, hcounted, hruns, hentered, hcache⟩, hawaits⟩ :=
        appendBody_commits _ h hhere hid hseam hnamed hx hc htags hsound hroom hopen hrun hphys
      exact ⟨u, hu, scale, hscale, hbytes, hcounted, hruns, hentered, hcache, hawaits⟩
  · intro home seam h hseam hhome hc
    refine ⟨fun chan hother hlink => ?_, ?_⟩
    · exact ⟨_, execIdxDelete_hands h hc hseam hhome, State.handed_sent h.strand (.refl _) _ _ hother hlink⟩
    · rintro x rfl hhere hcanonical hawake htags b hw
      exact execIdxDelete_commits h hc hseam hhere (State.canonical_mem hcanonical) hawake htags hw
  · intro s act seam x k r hx hroom hheld
    exact execAppendRelease_takes hx hroom hheld
  · intro s r x hraw hx hseq hroom hcanonical hw
    exact execForwardedRecordReceive_stores hraw hx hseq hroom (State.canonical_mem hcanonical) hw
  · intro s act page i d hi hd hquiet hdue haccepts
    exact execVectorPageWrite_writes hi hd hquiet hdue haccepts
  · intro s node beat hmember hnode hthere
    exact execCommittedBeatReceive_enters hmember hnode hthere

end Sys2Proof.Machine
end

section
/-! PROOFS. A backfill of a seam whose own act is not the act of its index (R188, R192). -/
namespace Sys2Proof.Machine
open Sys2Proof.Tests

/-! ## A seam that names another act -/

/-- The seam that is held in the index of act 0 and names act 1, with a backfill that is due. -/
def straySeam : Seam := { filling with act := 1 }

/-- The index of act 0 that holds it. -/
def strayHome : Index := { index1 with seams := [straySeam] }

/-- The index of act 1, whose record of the seam has its home at node 1. -/
def strayAway : Index :=
  { index0 with act := 1, graphs := [⟨0, 0, 1, [stk], true, [1, 0, 0, 1, 0], [5], true, [{ rec5 with home := 1 }]⟩], seams := [] }

/-- A state with both, in which act 1 moves its seam of that number away from this node. -/
def stray : State :=
  { loads 0 [] [] with idx := { winze.idx with indexes := [strayHome, strayAway], rebalances := [{ moveOut with act := 1 }] } }

theorem stray_away : stray.away straySeam = true := by decide

/-- What the cut reads, and the space that the new version takes at the top of stack 0. -/
def strayAlloc : Option Nat × State :=
  ((stray.fired 1).sensedSeam strayHome straySeam version0 version0.sideSeq version0.tombSeq).allocPool 0 128 (.index 0 5)
def strayPlace : Nat := stackAddr 0 stackLen - 512

theorem strayAlloc_place : strayAlloc.1 = some strayPlace := by decide +kernel
theorem strayAlloc_eq : strayAlloc = (some strayPlace, strayAlloc.2) :=
  Prod.mk.eta.symm.trans (congrArg (·, strayAlloc.2) strayAlloc_place)
theorem strayAlloc_mem : strayAlloc.2.mem = MemSt.empty := by decide +kernel
theorem strayAlloc_idx : strayAlloc.2.idx = stray.idx := by decide +kernel
theorem strayAlloc_unarmed : strayAlloc.2.rd F.memFlipCtrl_arm = 0 := by decide +kernel

theorem strayAlloc_writable {n : Nat} (h : n ≤ 512) : Writable strayAlloc.2 strayPlace n := by
  refine ⟨fun i hi => ?_, strayAlloc_unarmed, fun b _ => ⟨empty_alive strayAlloc_mem b, empty_clean strayAlloc_mem b⟩⟩
  have hplace : strayPlace = 0x100000000000 + (0x2000000000 - 512) := by decide
  rw [physOf_stack (by omega) (by omega)]
  rfl

/-- Its version is empty, and its lists hold nothing behind it. -/
theorem stray_entries : backfillEntries (stray.versionEntries strayHome version0)
    ((stray.sideFrom strayHome straySeam version0.sideSeq).filter fun e => decide (e.2 ≤ 0))
    ((tombsOf (stray.listBytes straySeam true version0.tombSeq)).filter fun t => decide (t.commit ≤ 0)) = [] := by decide +kernel

/-- A seam that its own act's record puts elsewhere is not cut. -/
theorem stray_stays : execBackfillCut 0 5 stray = .next stray := by
  have hindex : stray.index? 0 = some strayHome := rfl
  have hseam : stray.seam? 0 5 = some straySeam := rfl
  unfold execBackfillCut
  simp only [hindex, hseam, stray_away, Bool.or_true, if_true]
  rfl

/-- Refutes O44: the clause of a backfill's cut takes the seam by the act of its index, and the model asks for moves under the seam's own
act, which no premise ties to it. A seam of act 0 that names act 1, whose seam of that number moves away, is not cut. -/
theorem not_indexVersions : ¬ Obligations.IndexVersions := by
  intro holds
  have hcut := ((holds.2.2.1 stray 0 0 strayHome rfl).2.2 5 straySeam rfl).1 0 strayPlace version0 [] strayAlloc.2
  simp only [stray_entries, Version.len, List.length_nil, show roundUp 0 32 = 0 from rfl, Nat.zero_mul, Nat.add_zero] at hcut
  obtain ⟨u, hu, hseam, -⟩ := hcut rfl (Nat.le_refl 0) rfl rfl rfl (by decide) (by decide) strayAlloc_eq
    (by rw [strayAlloc_mem]; rfl) (strayAlloc_writable (by decide +kernel)) strayAlloc_idx
  cases Host.Outcome.next.inj (hu.symm.trans stray_stays)
  cases hseam

end Sys2Proof.Machine
end

section
/-! PROOFS. The jig: lists cut, merged and summed (R220 to R223). -/
namespace Sys2Proof.Machine

/-- The lanes of a list that a jig instruction takes: each by itself, or all as one. -/
def jigLanes (o : Insn) (v : TileVal) (l : ListInfo) : List JigLane :=
  if o.fld 13 1 = 1 then lanesOf v l else [oneLane (lanesOf v l)]

/-- The list that TOPK makes: every lane merged with an empty one. -/
def topList (o : Insn) (v : TileVal) (l : ListInfo) : TileVal :=
  jigList l.kind (o.fld 0 13) ((jigLanes o v l).map fun e => mergeLane l.kind (o.fld 0 13) e ([], false, false, Acc320.zero))

/-- The list that MERGE makes of two. -/
def mergedList (o : Insn) (v w : TileVal) (l m : ListInfo) : TileVal :=
  jigList l.kind (o.fld 0 13) (List.zipWith (mergeLane l.kind (o.fld 0 13)) (jigLanes o v l) (jigLanes o w m))

section
variable {s : State} {o : Insn} {t : Strand} {j : Job} {x y : Tile} {v w : TileVal} {l m : ListInfo} {a : Nat}

/-- A list's record has the list's directory. -/
theorem AtRest.info {n : Nat} (h : AtRest s t n x v) (hl : v.info = some l) : x.info = some l := by
  obtain ⟨-, -, -, -, hinfo⟩ := h.fmt
  exact hinfo.symm.trans hl

/-- The record of a LIST tile, found before the tile is read. -/
theorem listRecord_run {n : Nat} (h : AtRest s t n x v) (hfmt : x.fmt = 8) :
    (tileAt t n fun u => u.fmt == 8).run (s.moved o t) = .ok x (s.moved o t) :=
  tileAt_rest _ h rfl (beq_iff_eq.2 hfmt)

theorem execJigTopk_makes (h : Issues s Form.jigTopk o t j) (hx : AtRest s t o.a x v) (hfmt : x.fmt = 8) (hl : v.info = some l)
    (room : RoomAt s t j (topList o v l).data.length a) : CompletesWith (execJigTopk o s) fun u => MakesTile s u o t (topList o v l) a := by
  obtain ⟨u, hu, g⟩ := listAt_run (j := j) (hx.moved (t' := t) o) (.refl _) hfmt hl
  refine tileEngine_makes h (clear_nil t) g room ?_
  rw [M.run_bind_ok hu]
  rfl

theorem execJigMerge_makes (h : Issues s Form.jigMerge o t j) (hx : AtRest s t o.a x v) (hxf : x.fmt = 8) (hl : v.info = some l)
    (hy : AtRest s t o.b y w) (hyf : y.fmt = 8) (hm : w.info = some m) (hkind : m.kind = l.kind) (hlen : m.dirs.length = l.dirs.length)
    (room : RoomAt s t j (mergedList o v w l m).data.length a) :
    CompletesWith (execJigMerge o s) fun u => MakesTile s u o t (mergedList o v w l m) a := by
  obtain ⟨u, hu, g⟩ := listAt_run (j := j) (hx.moved (t' := t) o) (.refl _) hxf hl
  obtain ⟨n, hn, gn⟩ := listAt_run (j := j) (hy.moved (t' := t) o) g hyf hm
  have hsame : (match x.info, y.info with
      | some x, some y => x.kind == y.kind && x.dirs.length == y.dirs.length
      | _, _ => false) = true := by
    simp [hx.info hl, hy.info hm, hkind, hlen]
  refine tileEngine_makes h (clear_nil t) (g.trans gn) room ?_
  refine (M.run_bind_ok (listRecord_run hx hxf)).trans ?_
  refine (M.run_bind_ok (listRecord_run hy hyf)).trans ?_
  refine (congrArg (fun m : M Unit => (m >>= _).run _) (need_pure _ _ hsame)).trans ?_
  rw [M.bind_pure]
  exact (M.run_bind_ok hu).trans ((M.run_bind_ok hn).trans rfl)

/-- The once-rounded exact sums of a lane: of its entries, and above it of what it left. -/
def laneSums (v : TileVal) (l : ListInfo) (lane : Nat) (d : LaneDir) : Nat :=
  (exactAcc ((laneEntries v l lane).map fun e => distTerm l.kind e.dist)).round + 2 ^ 32 * d.left.round

theorem execJigSums_engages {d : LaneDir} (h : Issues s Form.jigSums o t j) (hx : AtRest s t o.a x v) (hfmt : x.fmt = 8)
    (hl : v.info = some l) (hd : l.dirs[o.fld 0 3]? = some d) :
    CompletesWith (execJigSums o s) fun u => Engages s u o t [.setS o.dst (BitVec.ofNat 64 (laneSums v l (o.fld 0 3) d))] := by
  obtain ⟨u, hu, g⟩ := listAt_run (j := j) (hx.moved (t' := t) o) (.refl _) hfmt hl
  refine engages_ok h (clear_nil t) g ?_
  refine (M.run_bind_ok (listRecord_run hx hfmt)).trans ?_
  rw [orFault_pure _ _ (hx.info hl), M.bind_pure, orFault_pure _ _ hd, M.bind_pure]
  exact (M.run_bind_ok hu).trans rfl

end

/-- Settles O34: each instruction reads its lists where they lie, and what it makes is a function of their lanes. -/
theorem listResults : Obligations.ListResults := by
  intro o s t j x y v w l m a hx hfmt hl
  exact ⟨fun h room => execJigTopk_makes h hx hfmt hl room,
    fun h hy hyf hm hkind hlen room => execJigMerge_makes h hx hfmt hl hy hyf hm hkind hlen room,
    fun d h hd => execJigSums_engages h hx hfmt hl hd⟩

end Sys2Proof.Machine
end

section
/-! PROOFS. The serving of full vectors (R224, R330), and the release of a strand that waited for its snapshot (R201, R230). -/
namespace Sys2Proof.Machine

/-! ## The serving of a vector -/

/-- Pages read one after another. -/
theorem MediaOnly.readPages (act page : Nat) (media : List Nat) {s : State} : ∀ (l : List Nat) (a : List (List Byte × Bool) × State), MediaOnly s a.2 →
    MediaOnly s (l.foldl (fun (a : List (List Byte × Bool) × State) k =>
      let (p, s) := a.2.readPage act (page + k) (media.getD k 0)
      (a.1 ++ [p], s)) a).2
  | [], _, h => h
  | _ :: l, a, h => MediaOnly.readPages act page media l _ (h.trans (.readPage a.2 act _ _))

/-- What serves a vector from flash, where no cache copy gives it. -/
def State.flashVec (s : State) (i : Index) (act page unit : Nat) (media : List Nat) : (Option (List Byte) × Bool) × State :=
  let n := (unit * 64 + i.vecBytes - 1) / pageBytes + 1
  if !((List.range n).all fun k => decide (page + k < 2 ^ 36) && s.flash.accepts act (page + k) true) then ((none, false), s) else
  let (ps, s) := (List.range n).foldl (fun (a : List (List Byte × Bool) × State) k =>
    let (p, s) := a.2.readPage act (page + k) (media.getD k 0)
    (a.1 ++ [p], s)) ([], s)
  let s := s.count 0x800 n
  if ps.any (·.2) then ((none, false), s) else
  ((some (slice (ps.flatMap (·.1)) (unit * 64) i.vecBytes), false), s)

theorem MediaOnly.flashVec (s : State) (i : Index) (act page unit : Nat) (media : List Nat) :
    MediaOnly s (s.flashVec i act page unit media).2 := by
  have hread := MediaOnly.readPages act page media (List.range ((unit * 64 + i.vecBytes - 1) / pageBytes + 1)) ([], s) (.refl s)
  unfold State.flashVec
  simp only
  split
  · exact .refl s
  · split <;> exact hread.trans (.count _ _ _)

/-- A vector served from a cache copy or from flash changes nothing but what reads of memory and flash count, log and queue. -/
theorem MediaOnly.serveVec (s : State) (act loc : Nat) (media : List Nat) : MediaOnly s (s.serveVec act loc media).2 := by
  have hflash (i : Index) (u : State) (h : MediaOnly s u) :
      MediaOnly s (u.flashVec i act (loc % 2 ^ 36) (bits loc 36 8) media).2 := h.trans (.flashVec _ _ _ _ _ _)
  have hcount : MediaOnly s (s.count 0x408 1) := .count _ _ _
  unfold State.serveVec
  generalize s.count 0x408 1 = w at hcount
  simp only
  split
  · exact hcount
  next i _ =>
    split
    · exact hflash i w hcount
    next c _ =>
      have hread := hcount.trans (ReadsOnly.readMem w 0 c.addr ((c.streams.map (·.1)).sum)).media
      split
      · exact hflash i _ hread
      · split
        · exact hread.trans (.count _ _ _)
        · exact hflash i _ hread
        · exact hflash i _ (hread.trans ((MediaOnly.draw _ _).trans (.damage _ _ _ _ _)))

/-- The state in which a vector has been served and the flash shows what it has started. -/
def State.served (s : State) (act loc : Nat) (media : List Nat) : State := (s.serveVec act loc media).2.adtRefresh

theorem MediaOnly.served (s : State) (act loc : Nat) (media : List Nat) : MediaOnly s (s.served act loc media) :=
  (MediaOnly.serveVec s act loc media).trans (.adtRefresh _)

/-- What a serving gives goes out to the node that asked. -/
theorem execRerankFetchServe_asked {s : State} {node act loc : Nat} (id pos : Nat) {media : List Nat} (hheld : s.fun_.fetchHold ≤ s.tally.beat)
    (hnode : node ≠ s.self) (hquiet : s.flash.quiet = true → (s.serveVec act loc media).1.2 = true) :
    execRerankFetchServe node act loc id pos media s = .next ((s.served act loc media).sendNode node act 2 none
      (((s.serveVec act loc media).1.1.getD []).length) (.vector node id pos (s.serveVec act loc media).1.1 (s.serveVec act loc media).1.2)) := by
  unfold execRerankFetchServe State.served
  generalize s.serveVec act loc media = got at *
  obtain ⟨⟨v, c⟩, u⟩ := got
  have hgo : ¬ (s.flash.quiet && !c) = true := by simpa using hquiet
  refine congrArg Host.Outcome.next ((if_neg (Nat.not_lt.2 hheld)).trans ((if_pos hnode).trans ?_))
  exact if_neg hgo

theorem updAt_get {α : Type} (f : α → α) {l : List α} {i : Nat} {a : α} (h : l[i]? = some a) : updAt l i f = l.set i (f a) := by
  induction l generalizing i with
  | nil => cases h
  | cons b l ih =>
    cases i with
    | zero => cases h; rfl
    | succ i => exact congrArg (b :: ·) (ih h)

/-- A fetch that this node has served: the vector or its loss, and whether a cache copy gave it. -/
def Fetch.serves (f : Fetch) (got : Option (List Byte) × Bool) : Fetch := { f with served := true, vec := got.1, cached := got.2 }

/-- A rerank with one of its fetches served. -/
def Rerank.serves (pos : Nat) (got : Option (List Byte) × Bool) (r : Rerank) : Rerank :=
  { r with fetches := updAt r.fetches pos fun f => f.serves got }

/-- What a serving gives to a rerank of this node is held in it as served. -/
theorem execRerankFetchServe_own {s : State} (act loc : Nat) {id pos : Nat} {media : List Nat} {r : Rerank} {f : Fetch} {e : Entry}
    (hheld : s.fun_.fetchHold ≤ s.tally.beat) (hr : s.idx.reranks.find? (·.id == id) = some r) (hf : r.fetches[pos]? = some f)
    (hserved : f.served = false) (harrived : f.arrived = false) (he : entryAt (r.entries.getD pos []) 0 = e) (hown : e.node = s.self)
    (hquiet : s.flash.quiet = true → (s.serveVec r.act e.loc media).1.2 = true) :
    execRerankFetchServe s.self act loc id pos media s = .next ((s.served r.act e.loc media).modRerank id
      (Rerank.serves pos (s.serveVec r.act e.loc media).1)) := by
  have hfirst : ¬ (f.served || f.arrived || e.node != s.self) = true := by simp [hserved, harrived, hown]
  unfold execRerankFetchServe State.served
  refine congrArg Host.Outcome.next ((if_neg (Nat.not_lt.2 hheld)).trans ((if_neg (not_not.2 rfl)).trans ?_))
  simp only [hr, hf, he]
  refine (if_neg hfirst).trans ?_
  generalize s.serveVec r.act e.loc media = got at *
  obtain ⟨⟨v, c⟩, u⟩ := got
  exact if_neg (show ¬ (s.flash.quiet && !c) = true by simpa using hquiet)

/-- A rerank changed where a serving has left the index engine: the reranks alone are others. -/
theorem MediaOnly.modRerank {s u : State} (h : MediaOnly s u) (id : Nat) (g : Rerank → Rerank) :
    MediaOnly s { u.modRerank id g with idx := { (u.modRerank id g).idx with reranks := s.idx.reranks } } := by
  have hsame : { u.modRerank id g with idx := { (u.modRerank id g).idx with reranks := s.idx.reranks } } = u := by
    rw [← h.idx]
    rfl
  rw [hsame]
  exact h

/-! ## The release of a strand that waits for its snapshot -/

/-- The strand that waited goes on, and its beats of waiting are counted. -/
def State.resumed (s : State) (strand : Nat) (t : Strand) : State :=
  (s.modStrand strand fun u => { u with wait := .no }).count 0x40B (s.tally.beat - t.since)

/-- The instruction with which a strand waits for its snapshot, run. -/
def snapshotRun (c f : Nat) (o : Insn) (s : State) : Host.Outcome State Fault Refusal :=
  match c, f with
  | 6, 0 => execSluScan o s
  | 6, _ => execSluDist o s
  | _, 0 => execIdxOpen o s
  | _, 1 => execIdxRoute o s
  | _, _ => execIdxTomb o s

theorem execSnapshotWaitRelease_eq {s : State} {strand c f : Nat} {o : Insn} {t : Strand} (h : s.strand? strand = some t)
    (hw : t.wait = .snapshot c f o) : execSnapshotWaitRelease strand s =
      if (t.getS 62).toNat > s.tally.stable then .next s else snapshotRun c f o (s.resumed strand t) := by
  unfold execSnapshotWaitRelease
  simp only [h, hw]
  rfl

/-- A well-formed word that is issued is answered with a next state. -/
theorem issue_completes {f : Form} {o : Insn} (h : f.ok o = true) (s : State) (body : Strand → Job → M Unit) : Completes (issue f o s body) := by
  unfold issue
  rw [h]
  simp only [Bool.not_true, Bool.false_eq_true, if_false]
  split
  · exact ⟨_, rfl⟩
  · split
    · exact ⟨_, rfl⟩
    · iterate 6
        split
        · exact ⟨_, rfl⟩
      exact ⟨_, rfl⟩

/-- Settles O37: a fetch is served to the node that asked or to the rerank that waits, and a strand goes on with the instruction it waits with. -/
theorem vectorFetches : Obligations.VectorFetches := by
  refine ⟨fun node act loc id pos media s hheld => ⟨fun hnode => ?_, ?_⟩, fun strand c f o s t ht hwait => ⟨fun hearly => ?_, fun hstable => ?_⟩⟩
  · intro got l hquiet hlink
    exact ⟨_, execRerankFetchServe_asked id pos hheld hnode hquiet, Offered.sendNode none _ _ hlink,
      (MediaOnly.served s act loc media).trans (SendsOnly.sendNode _ _ _ _ _ _ _).media⟩
  · rintro r f rfl hr hf hserved harrived hown got hquiet
    have hgot := MediaOnly.served s r.act (entryAt (r.entries.getD pos []) 0).loc media
    refine ⟨_, execRerankFetchServe_own act loc hheld hr hf hserved harrived rfl hown hquiet, ?_, hgot.modRerank _ _⟩
    refine (State.modRerank_find (g := Rerank.serves pos got.1) (by rw [hgot.idx]; exact hr) fun _ => rfl).trans ?_
    rw [Rerank.serves, updAt_get _ hf]
    rfl
  · rw [exec_snapshotWaitRelease, execSnapshotWaitRelease_eq ht hwait, if_pos hearly]
  · rw [exec_snapshotWaitRelease, execSnapshotWaitRelease_eq ht hwait, if_neg (Nat.not_lt.2 hstable)]
    refine ⟨?_, ?_, ?_, ?_, ?_⟩ <;> (rintro rfl rfl; exact ⟨rfl, fun hok => issue_completes hok _ _⟩)

end Sys2Proof.Machine
end

section
/-! PROOFS. Exchanges and cages: an exchange opened, a probe admitted and a cage closed (R208 to R214). -/
namespace Sys2Proof.Machine
open Sys2Proof.Claims

/-! ## What an ordinary write leaves alone -/

theorem State.ordWrite_idx (s : State) (a : Nat) (d : List Byte) (whose : HeldFor) : (s.ordWrite a d whose).idx = s.idx := by
  have := congrArg State.idx (MemoryOnly.ordWrite s a d whose); exact this

theorem State.ordWrite_tally (s : State) (a : Nat) (d : List Byte) (whose : HeldFor) : (s.ordWrite a d whose).tally = s.tally := by
  have := congrArg State.tally (MemoryOnly.ordWrite s a d whose); exact this

/-! ## Opening an exchange (R208, R356) -/

/-- An exchange entered, under the key of its export. -/
def State.exchanged (s : State) (e : Exchange) (h : List Byte) : State :=
  let s := s.writeMem 0 e.base (exchangeArea e h)
  { s with idx := { s.idx with exchanges := s.idx.exchanges ++ [e] } }

theorem State.exchanged_does {s : State} {e : Exchange} {h : List Byte} {a : Nat} (hbase : e.base = a) (hwf : s.mem.wf = true)
    (hw : Writable s a (exchangeArea e h).length) : Stores s (s.exchanged e h) a (exchangeArea e h) ∧
    (s.exchanged e h).idx.exchanges = s.idx.exchanges ++ [e] ∧ (s.exchanged e h).car = s.car ∧ (s.exchanged e h).fil = s.fil := by
  subst hbase
  have hwrite := MemoryOnly.writeMem s 0 e.base (exchangeArea e h)
  have hidx := congrArg State.idx hwrite
  have hcar := congrArg State.car hwrite
  obtain ⟨-, hstores, -⟩ := State.writeMem_stores (source := 0) hwf hw
  exact ⟨hstores, congrArg (fun i : IndexSt => i.exchanges ++ [e]) hidx, hcar, hwrite.fil⟩

/-- The base of an exchange that a header lays out is that of its area. -/
theorem readExchange_base {act base len key : Nat} {h : List Byte} {e : Exchange} (he : readExchange act base len key h = some e) :
    e.base = base := by
  unfold readExchange at he
  simp only at he
  split at he
  · cases he
    rfl
  · cases he

section
variable {s : State} {job : Nat} {j : Job} {e : Exchange}

/-- What a call of OPEN_EXCHANGE must find: its area free of Winze ranges and readable, with a header in range, aligned, in one region,
fit for an export, and no exchange of the act open. -/
structure OpensExchange (s : State) (job : Nat) (j : Job) (e : Exchange) : Prop where
  call : s.loaderCall job 5 = some j
  free : s.holder true (j.desc.arg 2) (j.desc.arg 3) = none
  memory : isRegister (j.desc.arg 2) = false
  clean : ∀ b ∈ blocksOf (j.desc.arg 2) 0x40, s.mem.check b = .clean
  awake : s.rd F.pwrStackState_inP3 = 0
  header : readExchange j.act (j.desc.arg 2) (j.desc.arg 3) 0 (s.readMem 0 (j.desc.arg 2) 0x40).1 = some e
  aligned : j.desc.arg 2 % 4096 = 0
  region : s.oneRegion j.act (j.desc.arg 2) (j.desc.arg 3) = true
  exports : s.exportRefused j.act (j.desc.arg 2) (roundUp (j.desc.arg 3) 4096) 7 = false
  unopened : ∀ x ∈ s.idx.exchanges, x.act ≠ j.act

/-- The area of the call exported with its key. -/
def State.exportsArea (s : State) (j : Job) : Nat × State := s.addExport j.act (j.desc.arg 2) (roundUp (j.desc.arg 3) 4096) 7

theorem execOpenExchange_opens (h : OpensExchange s job j e) : execOpenExchange job s = .next (((s.exportsArea j).2.exchanged
    { e with key := (s.exportsArea j).1 } (s.readMem 0 (j.desc.arg 2) 0x40).1).endLoader job 0 0 (s.exportsArea j).1 []) := by
  have hopen : s.idx.exchanges.any (·.act == j.act) = false := List.any_eq_false.2 fun x hx => by simpa using h.unopened x hx
  have hread := readMem_quiet h.memory h.clean h.awake
  have hheader := h.header
  have hbase := readExchange_base hheader
  generalize (s.readMem 0 (j.desc.arg 2) 0x40).1 = b at hread hheader ⊢
  unfold execOpenExchange State.exchanged State.exportsArea
  simp only [h.call, h.free, hread, hheader, h.aligned, h.region, h.exports, hopen, hbase]
  rfl

theorem execOpenExchange_answers (h : OpensExchange s job j e) (hwf : s.mem.wf = true)
    (hw : ∀ key, Writable s (j.desc.arg 2) (exchangeArea { e with key := key } (s.readMem 0 (j.desc.arg 2) 0x40).1).length) :
    CompletesWith (execOpenExchange job s) fun u => ∃ key, u.idx.exchanges = s.idx.exchanges ++ [{ e with key := key }] ∧
      u.car.exports = s.car.exports ++ [⟨j.act, j.desc.arg 2, roundUp (j.desc.arg 3) 4096, 7, key, none⟩] ∧
      Stores s u (j.desc.arg 2) (exchangeArea { e with key := key } (s.readMem 0 (j.desc.arg 2) 0x40).1) ∧ Returned u j 0 0 key [] := by
  have hbase := readExchange_base h.header
  obtain ⟨hstores, hexchanges, hcar, hfil⟩ := State.exchanged_does (s := (s.exportsArea j).2) (e := { e with key := (s.exportsArea j).1 }) hbase hwf (hw _)
  refine ⟨_, execOpenExchange_opens h, _, hexchanges, ?_, hstores, ?_⟩
  · exact congrArg CarSt.exports hcar
  · exact State.endLoader_call h.call (congrArg FilauxSt.jobs hfil) _ _ _ _

end

/-! ## When a cage closes (R213) -/

/-- What the least of some numbers satisfies, where a minimum satisfies it as soon as one of the two does. -/
theorem foldl_min_any {α : Type} {p : Nat → Bool} (hp : ∀ a b, p (min a b) = (p a || p b)) (f : α → Nat) (l : List α) (m : Option Nat) :
    (l.foldl (fun m a => some ((m.map (min · (f a))).getD (f a))) m).any p = (m.any p || l.any fun a => p (f a)) := by
  induction l generalizing m with
  | nil => exact (Bool.or_false _).symm
  | cons a l ih =>
    rw [List.foldl_cons, ih, List.any_cons]
    cases m with
    | none => rfl
    | some x => exact (congrArg (· || _) (hp x (f a))).trans (Bool.or_assoc _ _ _)

section
variable {e : Exchange} {c : Cage} {now : Nat}

/-- The guard of a cage has come when that of one of its lanes has. -/
theorem Cage.guardBeat_le (n : Nat) : (c.guardBeat e).any (fun g => decide (g ≤ n)) = c.lanes.any fun l => decide (l.deadline - e.guard ≤ n) :=
  foldl_min_any (p := fun g => decide (g ≤ n)) (fun a b => by rw [← Bool.decide_or, decide_eq_decide, min_le_iff]) (fun l : Lane => l.deadline - e.guard) c.lanes none

theorem Cage.guardBeat_lt (n : Nat) : (c.guardBeat e).any (fun g => decide (g < n)) = c.lanes.any fun l => decide (l.deadline - e.guard < n) :=
  foldl_min_any (p := fun g => decide (g < n)) (fun a b => by rw [← Bool.decide_or, decide_eq_decide, min_lt_iff]) (fun l : Lane => l.deadline - e.guard) c.lanes none

/-- Why an open cage of fewer than eight lanes closes: its wait, unless a guard came before it, and else a guard. -/
theorem Cage.due_open (hopen : c.closing = none) (hlanes : c.lanes.length ≠ 8) : c.due e now =
    if c.opened + e.wait ≤ now ∧ !(c.lanes.any (fun l => decide (l.deadline - e.guard ≤ now)) &&
      c.lanes.any fun l => decide (l.deadline - e.guard < c.opened + e.wait)) then some 1
    else if c.lanes.any fun l => decide (l.deadline - e.guard ≤ now) then some 2 else none := by
  unfold Cage.due
  simp only [hopen, hlanes, Cage.guardBeat_le, Cage.guardBeat_lt]
  rfl

/-- A cage that has waited closes for it, where no lane's guard came before. -/
theorem Cage.due_wait (hopen : c.closing = none) (hlanes : c.lanes.length ≠ 8) (hwait : c.opened + e.wait ≤ now)
    (hguard : ∀ l ∈ c.lanes, c.opened + e.wait ≤ l.deadline - e.guard) : c.due e now = some 1 := by
  have hearly : (c.lanes.any fun l => decide (l.deadline - e.guard < c.opened + e.wait)) = false :=
    List.any_eq_false.2 fun l hl => by simpa using hguard l hl
  rw [Cage.due_open hopen hlanes, hearly, Bool.and_false, if_pos ⟨hwait, rfl⟩]

/-- A cage that has not waited closes for a lane whose guard has come. -/
theorem Cage.due_guard (hopen : c.closing = none) (hlanes : c.lanes.length ≠ 8) (hwait : now < c.opened + e.wait)
    (hguard : ∃ l ∈ c.lanes, l.deadline ≤ now + e.guard) : c.due e now = some 2 := by
  obtain ⟨l, hl, hdue⟩ := hguard
  have hcome : (c.lanes.any fun l => decide (l.deadline - e.guard ≤ now)) = true :=
    List.any_eq_true.2 ⟨l, hl, decide_eq_true (Nat.sub_le_iff_le_add.2 hdue)⟩
  rw [Cage.due_open hopen hlanes, if_neg fun h => absurd h.1 (Nat.not_le.2 hwait), if_pos hcome]

/-- Before both it stays open. -/
theorem Cage.due_none (hopen : c.closing = none) (hlanes : c.lanes.length ≠ 8) (hwait : now < c.opened + e.wait)
    (hguard : ∀ l ∈ c.lanes, now + e.guard < l.deadline) : c.due e now = none := by
  have hcome : (c.lanes.any fun l => decide (l.deadline - e.guard ≤ now)) = false := List.any_eq_false.2 fun l hl => by
    have := hguard l hl
    simp only [decide_eq_true_eq]
    omega
  rw [Cage.due_open hopen hlanes, if_neg fun h => absurd h.1 (Nat.not_le.2 hwait), hcome]
  rfl

end

/-! ## The closing of a cage (R210, R214) -/

section
variable {s : State} {act : Nat} {e : Exchange} {c : Cage}

/-- What closes now of the one cage of an act. -/
theorem State.closeDue_one (hx : s.exchange? act = some e) (hc : s.idx.cages.filter (·.act == act) = [c]) :
    s.closeDue act = ((c.due e s.now).map fun k => s.closeCage c k).getD s := by
  unfold State.closeDue
  simp only [hx, hc]
  show (match c.due e s.now with
    | some k => s.closeCage c k
    | none => s) = _
  cases c.due e s.now <;> rfl

/-- The state with a cage's record written at the tail and the tail advanced in the header. -/
def State.recorded (s : State) (e : Exchange) (c : Cage) (why : Nat) : State :=
  (s.ordWrite (e.base + 0x3000 + e.tail % e.entries * 64)
    (cageRecord c.seam why ((c.lanes.map (·.depth)).foldl max 0) c.snapshot c.lanes e.tail)).ordWrite (e.base + 0x20) (leBytes (e.tail + 1) 8)

theorem State.recorded_idx (why : Nat) : (s.recorded e c why).idx = s.idx := by
  unfold State.recorded
  rw [State.ordWrite_idx, State.ordWrite_idx]

/-- The only item that passes a test, removed: those unlike it are left. -/
theorem erase_of_filter {α : Type} [DecidableEq α] {p : α → Bool} {l : List α} {a : α} (h : l.filter p = [a]) : l.erase a = l.filter (· != a) := by
  have ha : p a = true := (List.mem_filter.1 (h ▸ List.mem_singleton_self a)).2
  induction l with
  | nil => rfl
  | cons b l ih =>
    cases hb : p b with
    | true =>
      obtain ⟨rfl, hrest⟩ := List.cons.inj ((List.filter_cons_of_pos hb).symm.trans h)
      have hgone : ∀ x ∈ l, (x != b) = true := fun x hx => bne_iff_ne.2 fun e => List.filter_eq_nil_iff.1 hrest x hx (e ▸ hb)
      rw [List.erase_cons_head, List.filter_cons_of_neg (by simp), List.filter_eq_self.2 hgone]
    | false =>
      have hne : b ≠ a := fun e => Bool.false_ne_true (hb.symm.trans (e ▸ ha))
      rw [List.erase_cons_tail (by simpa using hne), List.filter_cons_of_pos (by simpa using hne),
        ih ((List.filter_cons_of_neg (by simp [hb])).symm.trans h)]

/-- The index engine with a cage's record entered: its tail advanced, and the cage gone. -/
def IndexSt.closed (i : IndexSt) (c : Cage) : IndexSt :=
  { i with exchanges := updWhere (·.act == c.act) (fun e => { e with tail := e.tail + 1 }) i.exchanges, cages := i.cages.erase c }

theorem State.closeCage_eq {why : Nat} (hx : s.exchange? c.act = some e) (hroom : s.ringFull e = false) (hwhy : why = 1 ∨ why = 2) :
    s.closeCage c why = (({ s.recorded e c why with idx := (s.recorded e c why).idx.closed c } : State).count (0x401 + why) 1).count 0x404 c.lanes.length := by
  unfold State.closeCage State.writeCage
  simp only [hx, hroom]
  obtain rfl | rfl := hwhy <;> rfl

theorem State.closeCage_closes {why : Nat} (hx : s.exchange? act = some e) (hroom : s.ringFull e = false)
    (hc : s.idx.cages.filter (·.act == act) = [c]) (hwhy : why = 1 ∨ why = 2) :
    (s.closeCage c why).mem = (s.recorded e c why).mem ∧ (s.closeCage c why).idx.cages = s.idx.cages.filter (· != c) ∧
    (s.closeCage c why).exchange? act = some { e with tail := e.tail + 1 } ∧
    (s.closeCage c why).ctr (0x401 + why) = ((s.recorded e c why).ctr (0x401 + why) + 1) % 2 ^ 64 := by
  have hmem : c ∈ s.idx.cages.filter (·.act == act) := hc ▸ List.mem_singleton_self c
  obtain rfl : c.act = act := by simpa using (List.mem_filter.1 hmem).2
  have hact : e.act = c.act := by simpa using List.find?_some hx
  rw [State.closeCage_eq hx hroom hwhy]
  refine ⟨rfl, ?_, ?_, ?_⟩
  · show (s.recorded e c why).idx.cages.erase c = _
    rw [State.recorded_idx, erase_of_filter hc]
  · refine (find_updWhere (·.act == c.act) (·.act == c.act) (fun e : Exchange => { e with tail := e.tail + 1 }) (s.recorded e c why).idx.exchanges
      fun x => by split <;> rfl).trans ?_
    rw [State.recorded_idx, show s.idx.exchanges.find? (·.act == c.act) = some e from hx, Option.map_some, if_pos (beq_iff_eq.2 hact)]
  · rw [State.ctr_count_other _ _ (by omega), State.ctr_count_same]
    rfl

end

/-! ## The admission of a probe (R209, R212) -/

/-- What the index engine reads of clean memory counts and logs nothing. -/
theorem State.sensed_clean {s : State} (h : ∀ k, s.mem.check k = .clean) (a n : Nat) : s.sensed a n = s :=
  foldl_eq_self fun k _ => by rw [h k]; rfl

/-- A range of which one number alone is kept. -/
theorem filterMap_range_one {β : Type} {f : Nat → Option β} {w : Nat} {c : β} : ∀ {n : Nat},
    (∀ k < n, f k = if k = w then some c else none) → (List.range n).filterMap f = if w < n then [c] else []
  | 0, _ => rfl
  | n + 1, h => by
    rw [List.range_succ, List.filterMap_append, filterMap_range_one fun k hk => h k (Nat.lt_succ_of_lt hk), List.filterMap_cons, h n (Nat.lt_succ_self n)]
    obtain hlt | rfl | hgt := Nat.lt_trichotomy n w
    · simp [hlt.ne, show ¬ w < n by omega, show ¬ w < n + 1 by omega]
    · simp
    · simp [hgt.ne', hgt, show w < n + 1 by omega]

/-- The SUMMARY words of an exchange that are not zero, with their numbers. -/
def State.summary (s : State) (e : Exchange) : List (Nat × Nat) :=
  (List.range 128).filterMap fun w =>
    let v := leNat (s.peek (e.base + 0x1000 + 8 * w) 8)
    if v = 0 then none else some (w, v)

/-- The new probes that SUMMARY words name, in order. -/
def newProbes (words : List (Nat × Nat)) : List (Nat × Nat) :=
  words.flatMap fun x => ((List.range 64).filter x.2.testBit).map fun b => (x.1, b)

/-- A SUMMARY word written back without the bits of the probes taken. -/
def State.clearTaken (e : Exchange) (taken : List (Nat × Nat)) (s : State) (x : Nat × Nat) : State :=
  let clear := ((taken.filter (·.1 == x.1)).map fun t => 2 ^ t.2).sum
  if clear = 0 then s else s.ordWrite (e.base + 0x1000 + 8 * x.1) (leBytes (x.2 - clear) 8)

/-- The state in which a probe's seam has opened a cage with its lane. -/
def State.cageOpened (s : State) (act seam snapshot : Nat) (l : Lane) : State :=
  { s.count 0x400 1 with idx := { s.idx with cages := s.idx.cages ++ [⟨act, seam, snapshot, s.tally.beat, [l], none⟩] } }

section
variable {s : State} {act : Nat} {e : Exchange}

theorem execCageAdmission_eq (hx : s.exchange? act = some e) (hclean : ∀ k, s.mem.check k = .clean) : execCageAdmission act s =
    .next (((s.summary e).foldl (State.clearTaken e (State.takeProbes act (newProbes (s.summary e)) s []).2)
      (State.takeProbes act (newProbes (s.summary e)) s []).1).closeDue act) := by
  unfold execCageAdmission
  simp only [hx, State.sensed_clean hclean]
  rfl

/-- One SUMMARY bit set: one word that is not zero, and one new probe. -/
theorem State.summary_one {w b : Nat} (hw : w < 128)
    (h : ∀ k < 128, leNat (s.peek (e.base + 0x1000 + 8 * k) 8) = if k = w then 2 ^ b else 0) : s.summary e = [(w, 2 ^ b)] := by
  refine (filterMap_range_one (w := w) (c := (w, 2 ^ b)) fun k hk => ?_).trans (if_pos hw)
  simp only [h k hk]
  by_cases hkw : k = w
  · simp [hkw]
  · simp [hkw]

theorem newProbes_one (w : Nat) {b : Nat} (hb : b < 64) : newProbes [(w, 2 ^ b)] = [(w, b)] := by
  have hbits : (List.range 64).filter (2 ^ b).testBit = [b] := by
    rw [← List.filterMap_eq_filter]
    refine (filterMap_range_one (w := b) (c := b) fun k _ => ?_).trans (if_pos hb)
    by_cases hk : k = b
    · simp [hk]
    · simp [Nat.testBit_two_pow, hk, Ne.symm hk]
  simp [newProbes, hbits]

/-- Of the cages of an act that has none, none passes a test. -/
theorem State.noCages_filter {p : Cage → Bool} (hnone : ∀ c ∈ s.idx.cages, c.act ≠ act) (hp : ∀ c, p c = true → c.act = act) :
    s.idx.cages.filter p = [] := List.filter_eq_nil_iff.2 fun c hc h => hnone c hc (hp c h)

/-- A seam of an act without cages opens one. -/
theorem State.admitSeam_opens {p : Probe} (source slot seam idx : Nat) (hnone : ∀ c ∈ s.idx.cages, c.act ≠ act) :
    s.admitSeam act source slot p seam idx = s.cageOpened act seam p.snapshot ⟨slot, source, idx, p.depth, p.deadline, p.filtered⟩ := by
  have hopen : s.idx.cages.filter (fun c => c.act == act && c.closing.isNone) = [] :=
    State.noCages_filter hnone fun c h => beq_iff_eq.1 (Bool.and_eq_true_iff.1 h).1
  unfold State.admitSeam
  refine (if_neg fun hany => ?_).trans ?_
  · obtain ⟨c, hc, hfits⟩ := List.any_eq_true.1 hany
    simp [hnone c hc] at hfits
  · simp only [State.count_idx, hopen]
    rfl

/-- A probe of one seam at a snapshot that is kept, taken from clean memory. -/
theorem State.takeProbe_opens {source slot seam idx : Nat} {p : Probe} (hact : e.act = act) (hclean : ∀ k, s.mem.check k = .clean)
    (hp : readProbe e (s.index? act) source slot (s.peek (e.base + e.intake + (source * 128 + slot) * e.slotBytes) e.slotBytes) = p)
    (hok : p.ok = true) (hkept : s.oldest act ≤ p.snapshot) (hseams : p.seams = [(seam, idx)]) (hnone : ∀ c ∈ s.idx.cages, c.act ≠ act) :
    s.takeProbe e source slot = s.cageOpened act seam p.snapshot ⟨slot, source, idx, p.depth, p.deadline, p.filtered⟩ := by
  subst hact
  have htaken : (p.ok && decide (s.oldest e.act ≤ p.snapshot)) = true := by simp [hok, hkept]
  unfold State.takeProbe
  simp only [hp, State.sensed_clean hclean, htaken, hseams]
  exact State.admitSeam_opens source slot seam idx hnone

@[simp] theorem State.cageOpened_cages (act seam snapshot : Nat) (l : Lane) : (s.cageOpened act seam snapshot l).idx.cages =
    s.idx.cages ++ [⟨act, seam, snapshot, s.tally.beat, [l], none⟩] := rfl
@[simp] theorem State.cageOpened_mem (act seam snapshot : Nat) (l : Lane) : (s.cageOpened act seam snapshot l).mem = s.mem := rfl

/-- The cages of an act that had none, after one has opened. -/
theorem State.cageOpened_only (seam snapshot : Nat) (l : Lane) (hnone : ∀ c ∈ s.idx.cages, c.act ≠ act) :
    (s.cageOpened act seam snapshot l).idx.cages.filter (·.act == act) = [⟨act, seam, snapshot, s.tally.beat, [l], none⟩] := by
  rw [State.cageOpened_cages, List.filter_append, State.noCages_filter hnone fun c h => beq_iff_eq.1 h]
  simp

/-- How full a ring is depends on memory alone. -/
theorem State.ringUsed_congr {u : State} (h : u.mem = s.mem) : u.ringUsed e = s.ringUsed e := by
  unfold State.ringUsed State.peek
  rw [h]

/-- An act without cages books no record of its ring, and neither does its first open cage. -/
theorem State.cageOpened_room (seam snapshot : Nat) (l : Lane) (hx : s.exchange? act = some e) (hact : e.act = act) (hroom : s.ringFull e = false)
    (hnone : ∀ c ∈ s.idx.cages, c.act ≠ act) : s.ringBooked e < e.entries ∧ (s.cageOpened act seam snapshot l).cageRoom act = true := by
  subst hact
  have hfree : s.ringUsed e < e.entries := by simpa [State.ringFull] using hroom
  have hclosing : s.idx.cages.filter (fun c => c.act == e.act && c.closing.isSome) = [] :=
    State.noCages_filter hnone fun c h => beq_iff_eq.1 (Bool.and_eq_true_iff.1 h).1
  have hopen : s.idx.cages.filter (fun c => c.act == e.act && c.closing.isNone) = [] :=
    State.noCages_filter hnone fun c h => beq_iff_eq.1 (Bool.and_eq_true_iff.1 h).1
  have hbooked : s.ringBooked e = s.ringUsed e := by
    unfold State.ringBooked
    rw [hclosing, List.length_nil, Nat.add_zero]
  have hbooked' : (s.cageOpened e.act seam snapshot l).ringBooked e = s.ringUsed e := by
    unfold State.ringBooked
    rw [State.ringUsed_congr (State.cageOpened_mem ..), State.cageOpened_cages, List.filter_append, hclosing]
    simp
  have hlimit : ((s.cageOpened e.act seam snapshot l).idx.cages.filter fun c => c.act == e.act && c.closing.isNone).length ≤ 4096 := by
    rw [State.cageOpened_cages, List.filter_append, hopen]
    simp
  have hx' : (s.cageOpened e.act seam snapshot l).exchange? e.act = some e := hx
  refine ⟨hbooked ▸ hfree, ?_⟩
  unfold State.cageRoom
  rw [hx']
  exact Bool.and_eq_true_iff.2 ⟨decide_eq_true (hbooked'.trans_le hfree.le), decide_eq_true hlimit⟩

theorem State.takeProbes_one {x : Nat × Nat} {u : State} (hx : s.exchange? act = some e) (hbooked : s.ringBooked e < e.entries)
    (hu : s.takeProbe e (x.1 / 2) (x.1 % 2 * 64 + x.2) = u) (hroom : u.cageRoom act = true) : State.takeProbes act [x] s [] = (u, [x]) := by
  unfold State.takeProbes
  simp only [hx, hu, hroom]
  exact if_neg (Nat.not_le.2 hbooked)

/-- The SUMMARY bit of the one probe taken is cleared. -/
theorem State.clearTaken_one (w b : Nat) : s.clearTaken e [(w, b)] (w, 2 ^ b) = s.ordWrite (e.base + 0x1000 + 8 * w) (leBytes 0 8) := by
  unfold State.clearTaken
  simp

/-- A cage just opened, with its lane's guard still to come, does not close. -/
theorem State.closeDue_opened {u : State} {seam snapshot : Nat} {l : Lane} (hx : u.exchange? act = some e)
    (hc : u.idx.cages.filter (·.act == act) = [⟨act, seam, snapshot, u.tally.beat, [l], none⟩]) (hwait : 0 < e.wait)
    (hguard : u.tally.beat + e.guard < l.deadline) : u.closeDue act = u := by
  have hdue : Cage.due e u.now ⟨act, seam, snapshot, u.tally.beat, [l], none⟩ = none :=
    Cage.due_none rfl (by simp) (Nat.lt_add_of_pos_right hwait) fun k hk => by
      rw [List.mem_singleton.1 hk]
      exact hguard
  rw [State.closeDue_one hx hc, hdue]
  rfl

/-- The one new probe admitted: its cage opens and stays open, and its SUMMARY bit is cleared. -/
theorem execCageAdmission_opens {w b seam idx : Nat} {p : Probe} (hx : s.exchange? act = some e) (hroom : s.ringFull e = false) (hw : w < 128)
    (hb : b < 64) (hact : e.act = act) (hwait : 0 < e.wait) (hclean : ∀ k, s.mem.check k = .clean)
    (hsummary : ∀ k < 128, leNat (s.peek (e.base + 0x1000 + 8 * k) 8) = if k = w then 2 ^ b else 0) (hnone : ∀ c ∈ s.idx.cages, c.act ≠ act)
    (hp : readProbe e (s.index? act) (w / 2) (w % 2 * 64 + b)
      (s.peek (e.base + e.intake + (w / 2 * 128 + (w % 2 * 64 + b)) * e.slotBytes) e.slotBytes) = p)
    (hok : p.ok = true) (hkept : s.oldest act ≤ p.snapshot) (hseams : p.seams = [(seam, idx)]) (hguard : s.tally.beat + e.guard < p.deadline) :
    execCageAdmission act s = .next ((s.cageOpened act seam p.snapshot ⟨w % 2 * 64 + b, w / 2, idx, p.depth, p.deadline, p.filtered⟩).ordWrite
      (e.base + 0x1000 + 8 * w) (leBytes 0 8)) := by
  have htaken := State.takeProbe_opens hact hclean hp hok hkept hseams hnone
  generalize hl : (⟨w % 2 * 64 + b, w / 2, idx, p.depth, p.deadline, p.filtered⟩ : Lane) = l at htaken ⊢
  have hdeadline : l.deadline = p.deadline := hl ▸ rfl
  obtain ⟨hbooked, hroom'⟩ := State.cageOpened_room seam p.snapshot l hx hact hroom hnone
  rw [execCageAdmission_eq hx hclean, State.summary_one hw hsummary, newProbes_one w hb, State.takeProbes_one (x := (w, b)) hx hbooked htaken hroom',
    List.foldl_cons, List.foldl_nil, State.clearTaken_one]
  refine congrArg Host.Outcome.next (State.closeDue_opened (e := e) (seam := seam) (snapshot := p.snapshot) (l := l) ?_ ?_ hwait ?_)
  · rw [State.exchange?, State.ordWrite_idx]
    exact hx
  · rw [State.ordWrite_idx, State.ordWrite_tally]
    exact State.cageOpened_only seam p.snapshot l hnone
  · rw [State.ordWrite_tally, hdeadline]
    exact hguard

end

/-- Settles O46: a call that finds all it needs opens the exchange, the one cage of an act closes when it is due, and the one new probe
opens a cage. -/
theorem exchangesAndCages : Obligations.ExchangesAndCages := by
  refine ⟨?_, ?_, ?_⟩
  · intro s job j e hcall base h hfree hmemory hclean hawake hheader haligned hregion hexports hnone hcanonical hw
    obtain ⟨hj, -⟩ := State.loaderCall_some hcall
    obtain ⟨u, hu, key, hexchanges, hcar, hstores, hjob⟩ := execOpenExchange_answers
      ⟨hcall, hfree, hmemory, hclean, hawake, hheader, haligned, hregion, hexports, hnone⟩ (State.canonical_mem hcanonical) hw
    exact ⟨u, hu, key, hexchanges, hcar, hstores, (State.job_id hj) ▸ hjob⟩
  · intro s act e c hx hroom hc hopen hlanes tail closed
    have hcloses {why : Nat} (hwhy : why = 1 ∨ why = 2) := State.closeCage_closes hx hroom hc hwhy
    have hrun {why : Nat} (hdue : c.due e s.now = some why) : s.closeDue act = s.closeCage c why := by
      rw [State.closeDue_one hx hc, hdue]
      rfl
    refine ⟨fun hwait hguard => ?_, fun hwait hguard => ?_⟩
    · exact ⟨_, congrArg Host.Outcome.next (hrun (Cage.due_wait hopen hlanes.ne hwait hguard)), hcloses (.inl rfl)⟩
    · exact ⟨_, congrArg Host.Outcome.next (hrun (Cage.due_guard hopen hlanes.ne hwait hguard)), hcloses (.inr rfl)⟩
  · intro s act e w b seam idx hx hroom hw hb hact hwait hclean hsummary hnone source slot p hok hkept hseams hguard opened
    exact execCageAdmission_opens hx hroom hw hb hact hwait hclean hsummary hnone rfl hok hkept hseams hguard

end Sys2Proof.Machine
end

section
/-! PROOFS. Winze operations on their way: registration, queues, commands, chunks of scans, completion points, and the units of a stack (R233, R235,
R239 to R241, R250 to R253, R256, R257, R261). -/
namespace Sys2Proof.Machine
open Sys2Proof.Claims

/-! ## Operations and their parts, found -/

section
variable {s u : State} {id stack : Nat} {op : WnzOp} {p : WnzPart}

theorem State.op_id (h : s.op? id = some op) : op.id = id := by simpa using List.find?_some h

theorem State.op_modOp {f : WnzOp → WnzOp} (h : s.op? id = some op) (hf : ∀ o, (f o).id = o.id) : (s.modOp id f).op? id = some (f op) := by
  refine (find_updWhere (·.id == id) (·.id == id) f s.wnz.ops fun o => by split <;> simp [hf]).trans ?_
  rw [show s.wnz.ops.find? (·.id == id) = some op from h, Option.map_some, if_pos (List.find?_some h)]

theorem State.op_modOp_other {f : WnzOp → WnzOp} {k : Nat} (hf : ∀ o, (f o).id = o.id) (hk : k ≠ id) : (s.modOp id f).op? k = s.op? k := by
  refine (find_updWhere (·.id == k) (·.id == id) f s.wnz.ops fun o => by split <;> simp [hf]).trans ?_
  show (s.op? k).map _ = s.op? k
  cases h : s.op? k with
  | none => rfl
  | some o => simp [State.op_id h, hk]

/-- The part of an operation on a stack. -/
def State.part? (s : State) (id stack : Nat) : Option WnzPart := (s.op? id).bind fun o => o.parts.find? (·.stack == stack)

theorem State.part_of (h : s.op? id = some op) : s.part? id stack = op.parts.find? (·.stack == stack) := by
  unfold State.part?
  rw [h]
  rfl

/-- Operations are found in the list of operations alone. -/
theorem State.op_congr (h : u.wnz.ops = s.wnz.ops) : u.op? id = s.op? id := by
  unfold State.op?
  rw [h]

/-- An operation with its part on a stack changed. -/
def WnzOp.withPart (stack : Nat) (f : WnzPart → WnzPart) (o : WnzOp) : WnzOp := { o with parts := updWhere (·.stack == stack) f o.parts }

theorem WnzOp.withPart_find {f : WnzPart → WnzPart} (h : op.parts.find? (·.stack == stack) = some p) (hf : ∀ q, (f q).stack = q.stack) :
    (op.withPart stack f).parts.find? (·.stack == stack) = some (f p) := by
  refine (find_updWhere (·.stack == stack) (·.stack == stack) f op.parts fun q => by split <;> simp [hf]).trans ?_
  rw [h, Option.map_some, if_pos (List.find?_some h)]

theorem State.op_modPart {f : WnzPart → WnzPart} (h : s.op? id = some op) : (s.modPart id stack f).op? id = some (op.withPart stack f) :=
  State.op_modOp (f := WnzOp.withPart stack f) h fun _ => rfl

theorem State.part_modPart {f : WnzPart → WnzPart} (h : s.op? id = some op) (hp : op.parts.find? (·.stack == stack) = some p)
    (hf : ∀ q, (f q).stack = q.stack) : (s.modPart id stack f).part? id stack = some (f p) :=
  (State.part_of (State.op_modPart h)).trans (WnzOp.withPart_find hp hf)

/-- An operation and its part as the events of a part look for them. -/
theorem State.opPart (h : s.op? id = some op) (hp : op.parts.find? (·.stack == stack) = some p) :
    ((s.op? id).bind fun o => (o.parts.find? (·.stack == stack)).map fun p => (o, p)) = some (op, p) := by
  rw [h, Option.bind_some, hp]
  rfl

end

/-! ## Registration (R233, R250, R253) -/

/-- A key counted on in a list of keys and values, once for each time that it is listed. -/
theorem kvGet_foldl_next (f : Nat → Nat) {keys : List Nat} (hkeys : keys.Nodup) (l : List (Nat × Nat)) (k : Nat) :
    kvGet 0 (keys.foldl (fun l st => kvSet 0 l st (f (kvGet 0 l st))) l) k = if k ∈ keys then f (kvGet 0 l k) else kvGet 0 l k := by
  induction keys generalizing l with
  | nil => rfl
  | cons a keys ih =>
    obtain ⟨hnew, hrest⟩ := List.nodup_cons.1 hkeys
    rw [List.foldl_cons, ih hrest]
    by_cases hk : k = a
    · subst hk
      simp [hnew, kvGet_kvSet_same]
    · simp [hk, kvGet_kvSet_other (Ne.symm hk)]

theorem kvGet_map_keys (f : Nat → Nat) {keys : List Nat} {k : Nat} (h : k ∈ keys) : kvGet 0 (keys.map fun st => (st, f st)) k = f k := by
  induction keys with
  | nil => cases h
  | cons a keys ih =>
    rw [List.map_cons]
    by_cases hk : a = k
    · simp [kvGet, hk]
    · rw [kvGet, if_neg hk]
      exact ih ((List.mem_cons.1 h).resolve_left (Ne.symm hk))

/-- The stacks that an operation touches. -/
def WnzOp.stacks (o : WnzOp) : List Nat := (List.range 24).filter fun st => (o.srcs ++ o.dsts).any fun r => (stacksOf r.1 r.2).contains st

theorem WnzOp.mem_stacks (o : WnzOp) {st : Nat} (h : st < 24) :
    st ∈ o.stacks ↔ ((o.srcs ++ o.dsts).any fun r => (stacksOf r.1 r.2).contains st) = true := by
  unfold WnzOp.stacks
  rw [List.mem_filter, List.mem_range]
  exact and_iff_right h

theorem WnzOp.stacks_nodup (o : WnzOp) : o.stacks.Nodup := List.nodup_range.filter _

/-- The sequence number that follows another (Table 8.2). -/
def nextSeq (n : Nat) : Nat := (n + 1) % 2 ^ 32

/-- An operation registered in a state: the next in the order of registration, with a sequence number of each stack that it touches. -/
def WnzOp.registeredIn (s : State) (seqs : List (Nat × Nat)) (o : WnzOp) : WnzOp :=
  { o with registered := true, order := s.nextId, regBeat := s.tally.beat, seqs := seqs }

/-- The sequence numbers that an operation takes. -/
def State.seqsFor (s : State) (o : WnzOp) : List (Nat × Nat) := o.stacks.map fun st => (st, nextSeq (kvGet 0 s.wnz.seqs st))

/-- The state in which an operation has been registered. -/
def State.registersOp (s : State) (o : WnzOp) : State :=
  let r := (s.modOp o.id (WnzOp.registeredIn s (s.seqsFor o))).fresh
  { r with wnz := { r.wnz with seqs := o.stacks.foldl (fun l st => kvSet 0 l st (nextSeq (kvGet 0 l st))) s.wnz.seqs } }

/-- Where every registered operation has its list, none is read. -/
theorem State.readLists_listed {s : State} (h : ∀ o ∈ s.wnz.ops, o.registered = true → o.listed = true) : s.readLists = s := by
  have hnone : (s.wnz.ops.filter fun o => o.registered && !o.listed) = [] := List.filter_eq_nil_iff.2 fun o ho => by
    have := h o ho
    cases hr : o.registered <;> simp_all
  unfold State.readLists
  rw [hnone]
  rfl

section
variable {s : State} {id : Nat} {op : WnzOp}

/-- The registration of an operation without a list to read, when it is the first of its strand. -/
theorem execWinzeRegistrationPoint_registers (h : s.op? id = some op) (hnew : op.registered = false) (hlisted : op.listed = true)
    (hfirst : ∀ p ∈ s.wnz.ops, p.strand = op.strand → p.registered = true ∨ p.id = id) (hfit : s.rangesFit op = true)
    (hlists : ∀ p ∈ s.wnz.ops, p.id = id ∨ p.registered = false ∨ p.listed = true) (hids : (s.wnz.ops.map (·.id)).Nodup) :
    execWinzeRegistrationPoint id s = .next (s.registersOp op) := by
  obtain rfl := State.op_id h
  have hmem : op ∈ s.wnz.ops := List.mem_of_find?_eq_some h
  have hfound : (s.wnz.ops.find? fun p => p.strand == op.strand && !p.registered).map (·.id) = some op.id := by
    obtain ⟨q, hq⟩ := Option.isSome_iff_exists.1 (List.find?_isSome.2 ⟨op, hmem, by simp [hnew]⟩ :
      (s.wnz.ops.find? fun p => p.strand == op.strand && !p.registered).isSome = true)
    have hqs : q.strand = op.strand ∧ q.registered = false := by simpa using List.find?_some hq
    have hqid := (hfirst q (List.mem_of_find?_eq_some hq) hqs.1).resolve_left (by simp [hqs.2])
    rw [hq, Option.map_some, hqid]
  have hread : (s.registersOp op).readLists = s.registersOp op := State.readLists_listed fun o ho hreg => by
    obtain ⟨q, hq, rfl⟩ := List.mem_map.1 (show o ∈ updWhere (·.id == op.id) (WnzOp.registeredIn s (s.seqsFor op)) s.wnz.ops from ho)
    by_cases hqid : q.id = op.id
    · obtain rfl : q = op := List.inj_on_of_nodup_map hids hq hmem hqid
      simpa [WnzOp.registeredIn] using hlisted
    · have hother := (hlists q hq).resolve_left hqid
      rw [if_neg (by simpa using hqid)] at hreg ⊢
      exact hother.resolve_left (by simp [hreg])
  unfold execWinzeRegistrationPoint
  simp only [h, hfound, hnew, hfit]
  exact congrArg Host.Outcome.next ((if_neg (by simp)).trans hread)

theorem State.registersOp_does (h : s.op? id = some op) : (s.registersOp op).op? id = some (op.registeredIn s (s.seqsFor op)) ∧
    (∀ k, k ≠ id → (s.registersOp op).op? k = s.op? k) ∧
    (∀ st < 24, kvGet 0 (s.registersOp op).wnz.seqs st = if (op.srcs ++ op.dsts).any (fun r => (stacksOf r.1 r.2).contains st)
      then nextSeq (kvGet 0 s.wnz.seqs st) else kvGet 0 s.wnz.seqs st) ∧
    { s.registersOp op with
      nextId := s.nextId
      wnz := { (s.registersOp op).wnz with ops := s.wnz.ops, seqs := s.wnz.seqs } } = s := by
  obtain rfl := State.op_id h
  refine ⟨State.op_modOp h fun _ => rfl, fun k hk => State.op_modOp_other (fun _ => rfl) hk, fun st hst => ?_, rfl⟩
  refine (kvGet_foldl_next nextSeq op.stacks_nodup s.wnz.seqs st).trans ?_
  simp only [op.mem_stacks hst]

theorem State.seqsFor_get {st : Nat} (hst : st < 24) (h : ((op.srcs ++ op.dsts).any fun r => (stacksOf r.1 r.2).contains st) = true) :
    kvGet 0 (s.seqsFor op) st = nextSeq (kvGet 0 s.wnz.seqs st) :=
  kvGet_map_keys (fun st => nextSeq (kvGet 0 s.wnz.seqs st)) ((op.mem_stacks hst).2 h)

end

/-! ## Queues and commands (R233, R235) -/

section
variable {s : State} {id stack : Nat} {op : WnzOp} {p : WnzPart}

/-- A part that goes to its stack's queue, with its command. -/
def WnzPart.queues (o : WnzOp) (seq ret : Nat) (p : WnzPart) : WnzPart := { p with stands := .queued, cmd := o.command p seq ret }

theorem execWinzeCommandQueued_queues (h : s.op? id = some op) (hp : op.parts.find? (·.stack == stack) = some p) (hreg : op.registered = true)
    (hlisted : op.listed = true) (hstands : p.stands = .dispatcher) (hdrain : s.on (F.wnzCtrl_drain stack) = false)
    (hroom : s.queuedOn stack none < 64) (hact : s.queuedOn stack (some op.act) < s.rd (F.wnzCtrl_actMax stack)) :
    execWinzeCommandQueued id stack s = .next ((s.draw 33).2.modPart id stack (WnzPart.queues op (kvGet 0 op.seqs stack) (s.draw 33).1)) := by
  have hfull : decide (64 ≤ s.queuedOn stack none ∨ s.rd (F.wnzCtrl_actMax stack) ≤ s.queuedOn stack (some op.act)) = false :=
    decide_eq_false (by omega)
  unfold execWinzeCommandQueued
  simp only [State.opPart h hp, hreg, hlisted, hstands, hdrain, hfull]
  rfl


theorem execWinzeCommandArrival_resends {cmd : List Byte} (h : s.op? id = some op) (hp : op.parts.find? (·.stack == stack) = some p)
    (hstands : p.stands = .queued) (hcmd : cmd.length ≠ 64 ∨ leAt cmd 0x3C 4 ≠ crc32c (cmd.take 0x3C)) :
    execWinzeCommandArrival id stack cmd s = .next (s.bump (F.wnzResend_count stack) 1) := by
  unfold execWinzeCommandArrival
  simp only [h, Option.bind_some, hp, hstands]
  exact congrArg Host.Outcome.next (if_pos hcmd)

/-- A part whose command has arrived, at its place in the order of arrival. -/
def WnzPart.arrives (order : Nat) (p : WnzPart) : WnzPart := { p with stands := .arrived, order := order }

theorem execWinzeCommandArrival_arrives {cmd : List Byte} (h : s.op? id = some op) (hp : op.parts.find? (·.stack == stack) = some p)
    (hstands : p.stands = .queued) (hlen : cmd.length = 64) (hcrc : leAt cmd 0x3C 4 = crc32c (cmd.take 0x3C)) (hcmd : cmd = p.cmd) :
    execWinzeCommandArrival id stack cmd s = .next ((s.modPart id stack (WnzPart.arrives s.nextId)).fresh.takeCommands) := by
  have hright : ¬ (cmd.length ≠ 64 ∨ leAt cmd 0x3C 4 ≠ crc32c (cmd.take 0x3C)) := fun hwrong => hwrong.elim (· hlen) (· hcrc)
  unfold execWinzeCommandArrival
  simp only [h, Option.bind_some, hp, hstands]
  exact congrArg Host.Outcome.next ((if_neg hright).trans (if_neg (not_not_intro hcmd)))

/-- A part that a unit takes. -/
def WnzPart.runs (q : WnzPart) : WnzPart := { q with stands := .running }

/-- An operation whose arrived parts run, unless it is blocked. -/
def State.taken (s : State) (o : WnzOp) : WnzOp :=
  if s.wnzBlocked o then o else { o with parts := updWhere (·.stands == .arrived) WnzPart.runs o.parts }

@[simp] theorem State.taken_id (s : State) (o : WnzOp) : (s.taken o).id = o.id := by
  unfold State.taken
  split <;> rfl

theorem State.taken_arrived {q : WnzPart} (hq : op.parts.find? (·.stack == stack) = some q) (harrived : q.stands = .arrived) :
    (s.taken op).parts.find? (·.stack == stack) = some { q with stands := if s.wnzBlocked op then .arrived else .running } := by
  unfold State.taken
  split
  · rw [hq, ← harrived]
  · refine (find_updWhere (·.stack == stack) (·.stands == .arrived) WnzPart.runs op.parts fun a => by split <;> rfl).trans ?_
    rw [hq, Option.map_some, harrived]
    rfl

/-- What the units take is decided by the operations alone; the units at work are marked. -/
theorem State.takeCommands_does (s : State) : s.takeCommands.wnz.ops = s.wnz.ops.map s.taken ∧ s.takeCommands.mem = s.mem ∧
    s.takeCommands.regs = s.regs := by
  unfold State.takeCommands
  refine foldl_keeps (P := fun u : State => u.wnz.ops = s.wnz.ops.map s.taken ∧ u.mem = s.mem ∧ u.regs = s.regs) (fun u q hu => ?_) _ ⟨rfl, rfl, rfl⟩
  unfold State.mark
  split <;> exact hu

theorem State.op_takeCommands (h : s.op? id = some op) : s.takeCommands.op? id = some (s.taken op) := by
  unfold State.op?
  rw [s.takeCommands_does.1, List.find?_map, show (fun o : WnzOp => o.id == id) ∘ s.taken = fun o => o.id == id from funext fun o => by simp,
    show s.wnz.ops.find? (·.id == id) = some op from h, Option.map_some]

/-- Only ranges and registrations block an operation, not where parts stand. -/
theorem State.wnzBlocked_modPart (f : WnzPart → WnzPart) : (s.modPart id stack f).fresh.wnzBlocked (op.withPart stack f) = s.wnzBlocked op :=
  any_updWhere (fun b : WnzOp => b.registered && decide (b.order < op.order) && op.conflicts b) (·.id == id) (WnzOp.withPart stack f) s.wnz.ops fun _ => rfl

/-- A command that arrives as it was sent: its part runs, or waits for the operations that block its own. -/
theorem State.arrival_does (h : s.op? id = some op) (hp : op.parts.find? (·.stack == stack) = some p) :
    let u := (s.modPart id stack (WnzPart.arrives s.nextId)).fresh.takeCommands
    u.mem = s.mem ∧ u.regs = s.regs ∧ u.part? id stack = some { p with
      order := s.nextId, stands := if s.wnzBlocked op then .arrived else .running } := by
  have hop : (s.modPart id stack (WnzPart.arrives s.nextId)).fresh.op? id = some (op.withPart stack (WnzPart.arrives s.nextId)) := State.op_modPart h
  have hpart := WnzOp.withPart_find (f := WnzPart.arrives s.nextId) hp fun _ => rfl
  obtain ⟨-, hmem, hregs⟩ := (s.modPart id stack (WnzPart.arrives s.nextId)).fresh.takeCommands_does
  refine ⟨hmem, hregs, (State.part_of (State.op_takeCommands hop)).trans ((State.taken_arrived hpart rfl).trans ?_)⟩
  rw [State.wnzBlocked_modPart]
  rfl

end

/-! ## Chunks of a scan (R239, R240) -/

theorem ReadsOnly.bump64 (s : State) (lo hi : FieldRef) (n : Nat) : ReadsOnly s (s.bump64 lo hi n) := rfl

/-- What the units read for a chunk of a scan changes no byte of memory and no operation. -/
theorem ReadsOnly.scanChunk (s : State) (o : WnzOp) (p : WnzPart) (n : Nat) : ReadsOnly s (s.scanChunk o p n) := by
  have hread : ∀ (u : State) (a k : Nat), ReadsOnly s u → ReadsOnly s (u.readMem 1 a k).2.2 := fun u a k h => h.trans (ReadsOnly.readMem u 1 a k)
  have hids : ∀ (u : State) (l : List Nat) (at_ : Nat → Nat) (k : Nat), ReadsOnly s u →
      ReadsOnly s (l.foldl (fun u b => (u.readMem 1 (at_ b) k).2.2) u) := fun u l at_ k h => foldl_keeps (fun u _ hu => hread u _ _ hu) l h
  unfold State.scanChunk
  simp only []
  refine ReadsOnly.trans ?_ (ReadsOnly.bump64 _ _ _ _)
  refine hread _ _ _ ?_
  split
  · exact hread _ _ _ (hids _ _ _ _ (hread _ _ _ (.refl s)))
  · exact hids _ _ _ _ (hread _ _ _ (.refl s))

section
variable {s : State} {id stack unit : Nat} {op : WnzOp} {p : WnzPart}

/-- A part with a chunk done. -/
def WnzPart.chunkDone (n : Nat) (last : Bool) (q : WnzPart) : WnzPart :=
  { q with next := q.next + n, stands := if last then .done else q.stands }

theorem execWinzeChunkComplete_scan (h : s.op? id = some op) (hp : op.parts.find? (·.stack == stack) = some p) (hscan : op.func = 0)
    (hruns : p.stands = .running) (hunit : s.on (F.wnzStatus_relay stack) = true ∨ bitOf (s.usableUnits stack) unit = true) (hcool : s.pins.hot = []) :
    let n := min 4096 (p.count - p.next)
    let u := (s.scanChunk op p n).modPart id stack (WnzPart.chunkDone n (decide (p.next + n = p.count)))
    execWinzeChunkComplete id stack unit s =
      .next (if decide (p.next + n = p.count) then u.bump64 (F.wnzCmdLo_count stack) (F.wnzCmdHi_count stack) 1 else u) := by
  have hable : (s.on (F.wnzStatus_relay stack) || bitOf (s.usableUnits stack) unit) = true := Bool.or_eq_true_iff.2 hunit
  unfold execWinzeChunkComplete
  simp only [State.opPart h hp, hruns, hable, hscan, hcool]
  rfl

/-- A chunk of a scan: no byte of memory changes, and the part has come that far. -/
theorem execWinzeChunkComplete_does (h : s.op? id = some op) (hp : op.parts.find? (·.stack == stack) = some p) (hscan : op.func = 0)
    (hruns : p.stands = .running) (hunit : s.on (F.wnzStatus_relay stack) = true ∨ bitOf (s.usableUnits stack) unit = true) (hcool : s.pins.hot = []) :
    let n := min 4096 (p.count - p.next)
    CompletesWith (execWinzeChunkComplete id stack unit s) fun u => (∀ a, u.mem.byte a = s.mem.byte a) ∧
      u.part? id stack = some { p with next := p.next + n, stands := if p.next + n = p.count then .done else .running } := by
  intro n
  have hreads := ReadsOnly.scanChunk s op p n
  refine ⟨_, execWinzeChunkComplete_scan h hp hscan hruns hunit hcool, ?_⟩
  generalize s.scanChunk op p n = m at *
  have hbytes : ∀ a, m.mem.byte a = s.mem.byte a := fun a => by unfold MemSt.byte; rw [hreads.bytes]
  have hop : m.op? id = some op := (State.op_congr (by rw [hreads.wnz])).trans h
  have hpart := State.part_modPart (f := WnzPart.chunkDone n (decide (p.next + n = p.count))) hop hp fun _ => rfl
  have hstands : WnzPart.chunkDone n (decide (p.next + n = p.count)) p =
      { p with next := p.next + n, stands := if p.next + n = p.count then .done else .running } := by
    unfold WnzPart.chunkDone
    rw [hruns]
    simp only [decide_eq_true_eq]
  rw [hstands] at hpart
  split
  · exact ⟨hbytes, hpart⟩
  · exact ⟨hbytes, hpart⟩

end

/-! ## Completion (R233, R241, R246, R252) -/

/-- Nothing of the Winze units is left in a state: no operation, no held write, and no BAR2 read that waits. -/
structure WinzeIdle (s : State) : Prop where
  ops : s.wnz.ops = []
  held : s.wnz.held = []
  reads : s.host.reads = []

/-- Then nothing waits for the ranges that a completion releases. -/
theorem WinzeIdle.released {s : State} (h : WinzeIdle s) : s.applyHeldWrites.serveReads.readLists.takeCommands = s := by
  have hheld : s.applyHeldWrites = s := by
    have hdrain : s.drainHeld = s := by
      unfold State.drainHeld
      rw [h.held]
      show ({ s with wnz := { s.wnz with held := [] } } : State) = s
      rw [← h.held]
    unfold State.applyHeldWrites
    rw [hdrain, h.held]
    rfl
  have hreads : s.serveReads = s := by
    unfold State.serveReads
    simp only [h.reads, List.filter_nil, List.foldl_nil]
    rw [← h.reads]
  have htake : s.takeCommands = s := by
    unfold State.takeCommands
    simp only [h.ops, List.map_nil, List.flatMap_nil, List.filter_nil, List.foldl_nil]
    rw [← h.ops]
  have hlists : s.readLists = s := State.readLists_listed fun o ho => absurd (h.ops ▸ ho) (by simp)
  rw [hheld, hreads, hlists, htake]

/-- A regated instruction leaves its strand's tracking as one that was not. -/
theorem State.untracked_regate (s : State) (strand tag : Nat) (g : Gate) (e : List Effect) :
    (s.regate strand tag g e).untracked strand tag = s.untracked strand tag := by
  have hfilter : ∀ l : List Inflight, (updWhere (·.tag == tag) (Inflight.regated g e) l).filter (·.tag != tag) = l.filter (·.tag != tag) := fun l => by
    induction l with
    | nil => rfl
    | cons f l ih =>
      unfold updWhere at *
      rw [List.map_cons, List.filter_cons, List.filter_cons, ih]
      by_cases hf : f.tag = tag
      · simp [hf, Inflight.regated]
      · simp [hf]
  refine (State.modStrand_modStrand s strand (Strand.regates tag g e) (fun u => { u with inflight := u.inflight.filter (·.tag != tag) }) fun _ => rfl).trans ?_
  unfold Strand.regates State.untracked
  simp only [hfilter]

/-- The completion of an instruction that its operation has let go, with effects that nothing holds. -/
theorem State.regate_complete {s : State} {strand tag : Nat} {t : Strand} {fl : Inflight} (ht : s.strand? strand = some t) (hf : t.flight? tag = some fl)
    (hstay : ∀ e ∈ fl.effects, stays e = true) : (s.regate strand tag .engine []).complete strand tag =
      (fl.effects.foldl (State.applyEffect ⟨strand, t.job, fl.cls, fl.func, fl.pc⟩) (s.untracked strand tag)).closeOreds := by
  have ht' := ((StrandIs.refl ht).regate tag .engine []).strand
  have hf' : (t.regates tag .engine []).flight? tag = some (fl.regated .engine []) := by
    rw [Strand.flight_regates, hf, Option.map_some, if_pos (beq_iff_eq.2 (Strand.flight_tag hf))]
  have heffects : (fl.regated .engine []).effects = fl.effects := List.append_nil _
  rw [State.complete_free ht' hf' (by rw [heffects]; exact fun e he => State.holds_of_stays _ (hstay e he)), heffects, State.untracked_regate]
  rfl

theorem TilesOnly.wnz {s u : State} (h : TilesOnly s u) : u.wnz = s.wnz := by
  have e := congrArg State.wnz (show _ = s from h)
  exact e
theorem TilesOnly.host {s u : State} (h : TilesOnly s u) : u.host = s.host := by
  have e := congrArg State.host (show _ = s from h)
  exact e

/-- The state that an operation leaves when it is done: its output written, and its ranges released. -/
def State.opGone (s : State) (o : WnzOp) : State :=
  let w := s.writeOutput o
  { w with wnz := { w.wnz with ops := w.wnz.ops.filter (·.id != o.id) } }

section
variable {s : State} {op : WnzOp}

theorem execWinzeCompletionPoint_done {id : Nat} (h : s.op? id = some op) (hreg : op.registered = true) (hlisted : op.listed = true)
    (hparts : ∀ q ∈ op.parts, q.stands = .done) (hheld : s.opHeld op = false) (hbad : op.bad = []) (hscale : op.badScale = []) :
    execWinzeCompletionPoint id s =
      let m := if op.func = 0 then s.opGone op else (s.opGone op).lookupDone op
      .next (((m.regate op.strand op.tag .engine []).complete op.strand op.tag).applyHeldWrites.serveReads.readLists.takeCommands) := by
  obtain rfl := State.op_id h
  have hall : op.parts.all (·.stands == .done) = true := List.all_eq_true.2 fun q hq => by simp [hparts q hq]
  unfold execWinzeCompletionPoint
  simp only [h, hreg, hlisted, hall, hheld, hbad, hscale]
  rfl

/-! ### UPD -/

/-- UPD has no output of its own: its units have written the rows. -/
theorem State.writeOutput_update (hupd : op.func = 2) : s.writeOutput op = s := by
  unfold State.writeOutput
  simp only [hupd]
  split
  · rename_i h
    cases h
  · split <;> rfl

/-- The lookup of a table's current version ends. -/
theorem State.table_lookupDone {tb : Table} (h : s.table? op.act op.table = some tb) (hver : op.version = tb.version) :
    (s.lookupDone op).table? op.act op.table = some { tb with lastDone := s.tally.beat } := by
  unfold State.lookupDone State.modTable State.table?
  refine (find_updWhere _ _ _ _ fun a => ?_).trans ?_
  · split
    · simp only []
      split
      · rfl
      · split <;> rfl
    · rfl
  · rw [show s.wnz.tables.find? (fun t => t.act == op.act && t.num == op.table) = some tb from h, Option.map_some, if_pos (List.find?_some h)]
    simp only [hver, if_true]
    rfl

/-- The only operation of the node, with its parts done: nothing holds it, nothing waits for its ranges, no row was damaged, and its
instruction is in flight. -/
structure OpDone (s : State) (op : WnzOp) (t : Strand) (fl : Inflight) : Prop where
  only : s.wnz.ops = [op]
  registered : op.registered = true
  listed : op.listed = true
  parts : ∀ q ∈ op.parts, q.stands = .done
  unheld : s.opHeld op = false
  held : s.wnz.held = []
  reads : s.host.reads = []
  bad : op.bad = []
  badScale : op.badScale = []
  strand : s.strand? op.strand = some t
  flight : t.flight? op.tag = some fl

section
variable {t : Strand} {fl : Inflight} {id : Nat}

/-- Once such an operation's output `w` is written, and its table's lookup has ended in `m`, only its instruction is left to complete. -/
theorem OpDone.completes (h : OpDone s op t fl) (hid : s.op? id = some op) {m : State} (hm : m = if op.func = 0 then s.opGone op else (s.opGone op).lookupDone op)
    (hstrands : m.fil.strands = s.fil.strands) (hstay : ∀ e ∈ fl.effects, stays e = true)
    (hidle : WinzeIdle (fl.effects.foldl (State.applyEffect ⟨op.strand, t.job, fl.cls, fl.func, fl.pc⟩) (m.untracked op.strand op.tag))) :
    execWinzeCompletionPoint id s =
      .next (fl.effects.foldl (State.applyEffect ⟨op.strand, t.job, fl.cls, fl.func, fl.pc⟩) (m.untracked op.strand op.tag)).closeOreds := by
  rw [execWinzeCompletionPoint_done hid h.registered h.listed h.parts h.unheld h.bad h.badScale]
  simp only [← hm]
  rw [State.regate_complete ((State.strand_congr hstrands _).trans h.strand) h.flight hstay]
  exact congrArg Host.Outcome.next (WinzeIdle.released ⟨hidle.ops, hidle.held, hidle.reads⟩)

/-- An update is done: the end of its lookup is marked, and memory and registers are as its units left them. -/
theorem OpDone.update (h : OpDone s op t fl) (hid : s.op? id = some op) (hupd : op.func = 2) (heff : fl.effects = []) {tb : Table}
    (htb : s.table? op.act op.table = some tb) (hver : op.version = tb.version) : CompletesWith (execWinzeCompletionPoint id s) fun u =>
      u.wnz.ops = [] ∧ u.strand? op.strand = some { t with inflight := t.inflight.filter (fun f => f.tag != op.tag) } ∧ u.mem = s.mem ∧
      u.regs = s.regs ∧ u.table? op.act op.table = some { tb with lastDone := s.tally.beat } := by
  have hops : (s.opGone op).wnz.ops = [] := by
    unfold State.opGone
    simp only [State.writeOutput_update hupd, h.only]
    simp
  have hgone : s.opGone op = { s with wnz := { s.wnz with ops := (s.opGone op).wnz.ops } } := by
    unfold State.opGone
    rw [State.writeOutput_update hupd]
  have htable : (s.opGone op).table? op.act op.table = some tb := by rw [hgone]; exact htb
  have hlast := State.table_lookupDone htable hver
  rw [show (s.opGone op).tally.beat = s.tally.beat from by rw [hgone]] at hlast
  have hstrands : ((s.opGone op).lookupDone op).fil.strands = s.fil.strands := by rw [hgone]; rfl
  have hrun := h.completes (m := (s.opGone op).lookupDone op) hid (by rw [hupd]; rfl) hstrands (by rw [heff]; nofun) (by
    rw [heff]
    exact ⟨hops, by rw [hgone]; exact h.held, by rw [hgone]; exact h.reads⟩)
  rw [heff] at hrun
  have hleft := (StrandIs.untracked ((State.strand_congr hstrands _).trans h.strand) op.tag).closeOreds
  exact ⟨_, hrun, hops, hleft.strand, hleft.mem.trans (by rw [hgone]; rfl), show ((s.opGone op).lookupDone op).regs = s.regs by rw [hgone]; rfl, hlast⟩

/-! ### SCAN -/

/-- The list of a scan goes into the tile that was reserved for it. -/
theorem State.writeOutput_scan (hscan : op.func = 0) {x : Tile} (hx : s.tile? op.tile = some x) (hwf : s.mem.wf = true)
    (hw : Writable s x.home (s.scanOutput op).1.data.length) : Stores s (s.writeOutput op) x.home (s.scanOutput op).1.data ∧
    (s.writeOutput op).fil.strands = s.fil.strands ∧ (s.writeOutput op).wnz = s.wnz ∧ (s.writeOutput op).host = s.host := by
  have hstores := (State.writeMem_stores (source := 1) hwf hw).2.1
  have honly := MemoryOnly.writeMem s 1 x.home (s.scanOutput op).1.data
  unfold State.writeOutput State.fillTile
  simp only [hscan, if_true, hx]
  exact ⟨hstores, show (State.writeMem ..).fil.strands = _ by rw [honly.fil], honly.wnz, honly.host⟩

/-- A scan is done: its list is in its tile, which its handle names. -/
theorem OpDone.scan (h : OpDone s op t fl) (hid : s.op? id = some op) (hscan : op.func = 0) {x : Tile} {r : Nat} (hx : s.tile? op.tile = some x)
    (heff : fl.effects = [.bindT r op.tile]) (hwf : s.mem.wf = true) (hw : Writable s x.home (s.scanOutput op).1.data.length) :
    CompletesWith (execWinzeCompletionPoint id s) fun u => u.wnz.ops = [] ∧
      u.strand? op.strand = some (({ t with inflight := t.inflight.filter (fun f => f.tag != op.tag) } : Strand).setT r (some op.tile)) ∧
      Stores s u x.home (s.scanOutput op).1.data := by
  obtain ⟨hstores, hstrands, hwnz, hhost⟩ := State.writeOutput_scan hscan hx hwf hw
  have hops : (s.opGone op).wnz.ops = [] := by
    unfold State.opGone
    simp only [hwnz, h.only]
    simp
  have hheld : (s.opGone op).wnz.held = [] := (congrArg (·.held) hwnz).trans h.held
  have hreads : (s.opGone op).host.reads = [] := (congrArg (·.reads) hhost).trans h.reads
  have hleft := StrandIs.untracked (s := s.opGone op) ((State.strand_congr hstrands op.strand).trans h.strand) op.tag
  have hbinds := State.bindHandle_does _ op.strand r (some op.tile) (State.anyStrand_of_strand hleft.strand)
  have hrun := h.completes (m := s.opGone op) hid (by rw [hscan]; rfl) hstrands (by rw [heff]; simp [stays]) (by
    rw [heff]
    exact ⟨(congrArg (·.ops) hbinds.wnz).trans hops, (congrArg (·.held) hbinds.wnz).trans hheld, (congrArg (·.reads) hbinds.host).trans hreads⟩)
  rw [heff] at hrun
  have hbound := (hleft.bindHandle r (some op.tile)).closeOreds
  exact ⟨_, hrun, (congrArg (·.ops) hbinds.wnz).trans hops, hbound.strand, hstores.congr rfl hbound.mem⟩

end
end

/-! ## The units of a stack (R256, R257, R261) -/

section
variable (s : State) (st : Nat)

theorem State.countWnz_regsOnly : RegsOnly s (s.countWnz st) [(F.wnzStatus_units st).off] :=
  (s.wr_regsOnly (F.wnzStatus_units st) _).trans (State.wr_regsOnly _ (F.wnzStatus_relay st) _)

theorem wnzUnitMap_off_ne : (F.wnzUnitMap_enabled st).off ≠ (F.wnzStatus_units st).off := by
  show 0x1400004 + st * 0x4000 ≠ 0x1400000 + st * 0x4000
  omega

/-- Where the fields of the unit map lie. -/
theorem wnzUnitMap_layout : (F.wnzUnitMap_enabled st).lo + (F.wnzUnitMap_enabled st).width ≤ (F.wnzUnitMap_failed st).lo ∧
    (F.wnzUnitMap_enabled st).lo + (F.wnzUnitMap_enabled st).width ≤ 32 ∧ (F.wnzUnitMap_failed st).lo + (F.wnzUnitMap_failed st).width ≤ 32 := by
  simp [F.wnzUnitMap_enabled, F.wnzUnitMap_failed]

/-- Where SPARE_USED lies in WNZ_STATUS. -/
theorem wnzStatus_layout : (F.wnzStatus_units st).lo + (F.wnzStatus_units st).width ≤ (F.wnzStatus_spareUsed st).lo ∧
    (F.wnzStatus_spareUsed st).lo + (F.wnzStatus_spareUsed st).width ≤ (F.wnzStatus_relay st).lo ∧
    (F.wnzStatus_spareUsed st).lo + (F.wnzStatus_spareUsed st).width ≤ 32 := by
  simp [F.wnzStatus_units, F.wnzStatus_spareUsed, F.wnzStatus_relay]

/-- WNZ_STATUS follows the unit map, which keeps its bits. -/
theorem State.rd_countWnz_map {f : FieldRef} (h : (F.wnzUnitMap_enabled st).off = f.off) : (s.countWnz st).rd f = s.rd f := by
  have hne : (F.wnzStatus_units st).off ≠ f.off := h ▸ (wnzUnitMap_off_ne st).symm
  exact (State.rd_wr_other _ (F.wnzStatus_relay st) f _ hne).trans (s.rd_wr_other (F.wnzStatus_units st) f _ hne)

theorem State.rd_countWnz_spareUsed : (s.countWnz st).rd (F.wnzStatus_spareUsed st) = s.rd (F.wnzStatus_spareUsed st) := by
  obtain ⟨hunits, hrelay, hfits⟩ := wnzStatus_layout st
  exact (State.rd_wr_apart _ (F.wnzStatus_relay st) (F.wnzStatus_spareUsed st) _ rfl hfits (.inl hrelay)).trans
    (s.rd_wr_apart (F.wnzStatus_units st) (F.wnzStatus_spareUsed st) _ rfl hfits (.inr hunits))

end

section
variable {s : State} {st unit : Nat}

/-- The unit map of a stack after a unit has failed: it is out of service where the spare is used. -/
def State.unitMarked (s : State) (st unit : Nat) : State :=
  let m := s.wr (F.wnzUnitMap_failed st) (s.rd (F.wnzUnitMap_failed st) + 2 ^ unit)
  if s.on (F.wnzStatus_spareUsed st) then m.wr (F.wnzUnitMap_enabled st) (s.rd (F.wnzUnitMap_enabled st) - 2 ^ unit) else m

theorem State.unitMarked_regsOnly (s : State) (st unit : Nat) : RegsOnly s (s.unitMarked st unit) [(F.wnzUnitMap_enabled st).off] := by
  unfold State.unitMarked
  simp only []
  split
  · exact (s.wr_regsOnly (F.wnzUnitMap_failed st) _).trans (State.wr_regsOnly _ (F.wnzUnitMap_enabled st) _)
  · exact s.wr_regsOnly (F.wnzUnitMap_failed st) _

theorem State.rd_lt (s : State) (f : FieldRef) : s.rd f < 2 ^ f.width := bits_lt _ _ _

theorem State.unitMarked_fields (hunit : unit ≤ 4) (hwell : bitOf (s.rd (F.wnzUnitMap_failed st)) unit = false) :
    bitOf ((s.unitMarked st unit).rd (F.wnzUnitMap_failed st)) unit = true ∧
    (s.unitMarked st unit).rd (F.wnzUnitMap_enabled st) = if s.on (F.wnzStatus_spareUsed st) then s.rd (F.wnzUnitMap_enabled st) - 2 ^ unit
      else s.rd (F.wnzUnitMap_enabled st) := by
  obtain ⟨hapart, hfitsE, hfitsF⟩ := wnzUnitMap_layout st
  have hfailed : bitOf ((s.wr (F.wnzUnitMap_failed st) (s.rd (F.wnzUnitMap_failed st) + 2 ^ unit)).rd (F.wnzUnitMap_failed st)) unit = true := by
    unfold bitOf at *
    rw [State.rd_wr_same _ _ _ hfitsF, Nat.testBit_mod_two_pow, Nat.add_comm, Nat.testBit_two_pow_add_eq, hwell]
    simp [F.wnzUnitMap_failed, Nat.lt_succ_of_le hunit]
  have henabled := s.rd_wr_apart (F.wnzUnitMap_failed st) (F.wnzUnitMap_enabled st) (s.rd (F.wnzUnitMap_failed st) + 2 ^ unit) rfl hfitsE (.inl hapart)
  unfold State.unitMarked
  simp only []
  split
  · refine ⟨?_, ?_⟩
    · rw [State.rd_wr_apart _ (F.wnzUnitMap_enabled st) (F.wnzUnitMap_failed st) _ rfl hfitsF (.inr hapart)]
      exact hfailed
    · rw [State.rd_wr_same _ _ _ hfitsE]
      exact Nat.mod_eq_of_lt (Nat.lt_of_le_of_lt (Nat.sub_le _ _) (s.rd_lt _))
  · exact ⟨hfailed, henabled⟩

theorem execWinzeUnitFailure_marks (hst : st < 24) (hunit : unit ≤ 4) (hon : bitOf (s.rd (F.wnzUnitMap_enabled st)) unit = true)
    (hwell : bitOf (s.rd (F.wnzUnitMap_failed st)) unit = false) : execWinzeUnitFailure st unit s = .next ((s.unitMarked st unit).countWnz st) := by
  have hgo : ¬ (st ≥ 24 ∨ unit > 4 ∨ (!bitOf (s.rd (F.wnzUnitMap_enabled st)) unit) = true ∨ bitOf (s.rd (F.wnzUnitMap_failed st)) unit = true) := by
    rw [hon, hwell]
    simp only [Bool.not_true, Bool.false_eq_true, or_false]
    omega
  have hspare : ∀ v, (s.wr (F.wnzUnitMap_failed st) v).on (F.wnzStatus_spareUsed st) = s.on (F.wnzStatus_spareUsed st) := fun v => by
    unfold State.on
    rw [State.rd_wr_other _ (F.wnzUnitMap_failed st) (F.wnzStatus_spareUsed st) _ (wnzUnitMap_off_ne st)]
  unfold execWinzeUnitFailure State.failUnit
  simp only [if_neg hgo, hspare]
  rfl

/-- The registers of a stack after a unit was retired for the spare. -/
def State.unitSpared (s : State) (st unit : Nat) : State :=
  (s.wr (F.wnzUnitMap_enabled st) (s.rd (F.wnzUnitMap_enabled st) - 2 ^ unit + 2 ^ 4)).wr (F.wnzStatus_spareUsed st) 1

theorem State.unitSpared_regsOnly (s : State) (st unit : Nat) :
    RegsOnly s (s.unitSpared st unit) [(F.wnzUnitMap_enabled st).off, (F.wnzStatus_units st).off] :=
  ((s.wr_regsOnly (F.wnzUnitMap_enabled st) _).mono (by simp)).trans ((State.wr_regsOnly _ (F.wnzStatus_spareUsed st) _).mono
    (List.subset_cons_self (F.wnzUnitMap_enabled st).off [(F.wnzStatus_units st).off]))

theorem State.unitSpared_fields (hspare : bitOf (s.rd (F.wnzUnitMap_enabled st)) 4 = false) :
    (s.unitSpared st unit).rd (F.wnzUnitMap_enabled st) = s.rd (F.wnzUnitMap_enabled st) - 2 ^ unit + 2 ^ 4 ∧
    (s.unitSpared st unit).rd (F.wnzStatus_spareUsed st) = 1 := by
  have hlow : s.rd (F.wnzUnitMap_enabled st) < 16 := by
    have hwidth : s.rd (F.wnzUnitMap_enabled st) < 2 ^ 5 := s.rd_lt _
    unfold bitOf at hspare
    rw [Nat.testBit_eq_decide_div_mod_eq, decide_eq_false_iff_not] at hspare
    omega
  obtain ⟨-, hfits, -⟩ := wnzUnitMap_layout st
  refine ⟨?_, State.rd_wr_same _ (F.wnzStatus_spareUsed st) 1 (wnzStatus_layout st).2.2⟩
  unfold State.unitSpared
  rw [State.rd_wr_other _ (F.wnzStatus_spareUsed st) (F.wnzUnitMap_enabled st) _ (wnzUnitMap_off_ne st).symm, State.rd_wr_same _ _ _ hfits]
  have hleft : s.rd (F.wnzUnitMap_enabled st) - 2 ^ unit < 16 := Nat.lt_of_le_of_lt (Nat.sub_le _ _) hlow
  exact Nat.mod_eq_of_lt (Nat.add_lt_add_right hleft 16)

theorem execWinzeSpare_spares {src : Src} (hst : st < 24) (hunit : unit ≤ 4) (hsrc : manages src = true) (hawake : s.rd F.pwrStatus_p4 = 0)
    (hon : bitOf (s.rd (F.wnzUnitMap_enabled st)) unit = true) (hfree : s.rd (F.wnzStatus_spareUsed st) = 0) :
    execWinzeSpare src st unit s = .next ((s.unitSpared st unit).countWnz st) := by
  have hreach : s.reaches src = true := by simp [State.reaches, State.on, hsrc, hawake]
  have hgo : ¬ (st ≥ 24 ∨ unit > 4 ∨ (!bitOf (s.rd (F.wnzUnitMap_enabled st)) unit) = true ∨ s.on (F.wnzStatus_spareUsed st) = true) := by
    rw [hon, State.on, hfree]
    simp only [Bool.not_true, Bool.false_eq_true, Nat.reduceBEq, or_false]
    omega
  unfold execWinzeSpare State.spareUnit
  simp only [hreach, if_neg hgo]
  rfl

end

/-- Settles O40: each event is run by its own equation above, and what it leaves is read off the lemma on that event's state. -/
theorem winzeProgress : Obligations.WinzeProgress := by
  refine ⟨?_, ?_, ?_⟩
  · intro id s op h hnew hlisted hfirst hfit hlists hids
    obtain ⟨hop, hothers, hseqs, honly⟩ := State.registersOp_does h
    exact ⟨_, execWinzeRegistrationPoint_registers h hnew hlisted hfirst hfit hlists hids,
      ⟨s.seqsFor op, hop, fun st hst htouch => State.seqsFor_get hst htouch⟩, hothers, hseqs, honly⟩
  · intro id stack s op p h hp part partsOnly
    refine ⟨fun hreg hlisted hstands hdrain hroom hact => ?_, fun cmd hstands => ⟨fun hcmd => ?_, fun hlen hcrc hcmd => ?_⟩,
      fun unit hscan hruns hunit hcool => ?_, fun t fl honly hreg hlisted hparts hunheld hheld hreads hbad hscale ht hfl => ?_⟩
    · exact ⟨_, execWinzeCommandQueued_queues h hp hreg hlisted hstands hdrain hroom hact, rfl, (s.draw 33).1,
        Nat.mod_lt _ (Nat.two_pow_pos 33), State.part_modPart (s := (s.draw 33).2) h hp fun _ => rfl⟩
    · exact ⟨_, execWinzeCommandArrival_resends h hp hstands hcmd, s.wr_regsOnly (F.wnzResend_count stack) _,
        s.rd_bump_same (F.wnzResend_count stack) 1 (Nat.le_refl 32)⟩
    · exact ⟨_, execWinzeCommandArrival_arrives h hp hstands hlen hcrc hcmd, State.arrival_does h hp⟩
    · exact execWinzeChunkComplete_does h hp hscan hruns hunit hcool
    · have hdone : OpDone s op t fl := ⟨honly, hreg, hlisted, hparts, hunheld, hheld, hreads, hbad, hscale, ht, hfl⟩
      exact ⟨fun hupd heff tb htb hver => hdone.update h hupd heff htb hver, fun hscan x r hx heff hwf hw => hdone.scan h hscan hx heff hwf hw⟩
  · intro st unit s hst hunit en map
    refine ⟨fun hon hwell => ?_, fun src hsrc hawake hon hfree hspare hlt => ?_⟩
    · obtain ⟨hfailed, henabled⟩ := State.unitMarked_fields (st := st) hunit hwell
      refine ⟨_, execWinzeUnitFailure_marks hst hunit hon hwell, ?_, ?_, ?_⟩
      · exact ((s.unitMarked_regsOnly st unit).mono (by simp [map])).trans ((State.countWnz_regsOnly _ st).mono (by simp [map]))
      · rw [State.rd_countWnz_map (f := F.wnzUnitMap_failed st) _ st rfl]
        exact hfailed
      · rw [State.rd_countWnz_map _ st rfl]
        exact henabled
    · obtain ⟨henabled, hused⟩ := State.unitSpared_fields (unit := unit) hspare
      refine ⟨_, execWinzeSpare_spares hst hunit hsrc hawake hon hfree, ?_, ?_, ?_⟩
      · exact (s.unitSpared_regsOnly st unit).trans ((State.countWnz_regsOnly _ st).mono (by simp))
      · rw [State.rd_countWnz_map _ st rfl]
        exact henabled
      · rw [State.rd_countWnz_spareUsed]
        exact hused

end Sys2Proof.Machine
end

section
/-! PROOFS. Embedding tables in the state: a table found after it was changed, moves and swaps that come due, and what a table command leaves
alone (R263, R277, R279, R282). -/
namespace Sys2Proof.Machine
open Sys2Proof.Claims

/-! ## Tables found -/

section
variable {s u : State} {act num : Nat} {tb : Table}

theorem State.table_key (h : s.table? act num = some tb) : tb.act = act ∧ tb.num = num := by
  simpa using List.find?_some h

/-- A table is found under its own act and number. -/
theorem State.table_own (h : s.table? act num = some tb) : s.table? tb.act tb.num = some tb := by
  obtain ⟨rfl, rfl⟩ := State.table_key h
  exact h

/-- Tables are found in the list of tables alone. -/
theorem State.table_congr (h : u.wnz.tables = s.wnz.tables) : u.table? act num = s.table? act num := by
  unfold State.table?
  rw [h]

/-- A table after a change that keeps its act and its number. -/
theorem State.table_modTable {f : Table → Table} (h : s.table? act num = some tb) (hf : ∀ t, (f t).act = t.act ∧ (f t).num = t.num) :
    (s.modTable act num f).table? act num = some (f tb) := by
  refine (find_updWhere _ (fun t => t.act == act && t.num == num) f s.wnz.tables fun t => ?_).trans ?_
  · split
    · simp only [(hf t).1, (hf t).2]
    · rfl
  · rw [show s.wnz.tables.find? (fun t => t.act == act && t.num == num) = some tb from h, Option.map_some, if_pos (List.find?_some h)]

/-- A table after a change of every table that keeps their acts and numbers. -/
theorem State.table_mapTables {f : Table → Table} (h : s.table? act num = some tb) (hf : ∀ t, (f t).act = t.act ∧ (f t).num = t.num)
    (hu : u.wnz.tables = s.wnz.tables.map f) : u.table? act num = some (f tb) := by
  have hkey : ((fun t : Table => t.act == act && t.num == num) ∘ f) = fun t => t.act == act && t.num == num := by
    funext t
    simp only [Function.comp_apply, (hf t).1, (hf t).2]
  unfold State.table?
  rw [hu, List.find?_map, hkey]
  exact congrArg (Option.map f) h

/-- No table has a key once the tables with it are gone. -/
theorem State.table_removed (hu : u.wnz.tables = s.wnz.tables.filter fun t => !(t.act == act && t.num == num)) : u.table? act num = none := by
  unfold State.table?
  rw [hu, List.find?_eq_none]
  intro t ht hkey
  have hgone := (List.mem_filter.1 ht).2
  rw [hkey] at hgone
  cases hgone

end

/-! ## Counters -/

/-- The beats that fire count in their own counter. -/
theorem State.ctr_fired (s : State) {c : Nat} (n : Nat) (h : 0xB39 ≠ c) : (s.fired n).ctr c = s.ctr c := State.ctr_count_other s n h

/-! ## Flips and swaps that come due -/

section
variable {s : State} {act num : Nat} {t : Table}

/-- A table on which nothing moves has no flip to make. -/
theorem State.flipTable_still (upTo : Nat) (h : s.table? act num = some t) (hstill : t.moves = [])
    (hlists : ∀ o ∈ s.wnz.ops, o.registered = true → o.listed = true) : s.flipTable act num upTo = s.fired 0 := by
  unfold State.flipTable
  simp only [h, hstill]
  exact State.readLists_listed (s := s.fired 0) hlists

/-- A table whose swap has come: its extent and version replaced, its directory empty, and the old extent kept while it is looked up. -/
def Table.swapsTo (busy : Bool) (base len : Nat) (t : Table) : Table :=
  { t with
    olds := if busy then ⟨t.version, t.base, t.len, t.dir⟩ :: t.olds else t.olds
    version := t.version + 1, base := base, len := len, dir := [], swap := none
    ver := if busy then some 0 else if t.lastDone = 0 then none else some t.lastDone
    lastDone := 0 }

theorem State.swapTable_swaps {beat base len : Nat} (h : s.table? act num = some t) (hswap : t.swap = some (beat, base, len))
    (hdue : beat ≤ s.tally.beat) (hstill : t.moves = []) (hlists : ∀ o ∈ s.wnz.ops, o.registered = true → o.listed = true) :
    s.swapTable act num = (((s.fired 0).modTable act num
      (Table.swapsTo (s.wnz.ops.any fun o => o.looksUp act num t.version) base len)).count 0x606 1).fired 1 := by
  unfold State.swapTable
  simp only [h, Option.bind_some, hswap, Option.map_some]
  rw [if_neg (show ¬ s.now < beat from Nat.not_lt.2 hdue), State.flipTable_still _ h hstill hlists, hstill]
  exact State.readLists_listed (s := (((s.fired 0).modTable act num _).count 0x606 1).fired 1) hlists

/-- A table one of whose moves has flipped to a place of its own, with no record held at it. -/
def Table.flips (m : RowMove) (t : Table) : Table :=
  { t with
    moves := t.moves.filter (· != m)
    dir := t.dir.filter (·.1 != m.row) ++ [(m.row, m.target)]
    blocks := updWhere (·.job == m.job) (fun b => { b with flipped := b.flipped + 1 }) t.blocks }

/-- A table that holds no record at a row. -/
def Table.releases (row : Nat) (t : Table) : Table := { t with held := t.held.filter (·.row != row) }

theorem Table.flips_only {m : RowMove} (honly : t.moves = [m]) (hheld : t.held = []) : (t.flips m).releases m.row =
    { t with
      moves := []
      dir := t.dir.filter (·.1 != m.row) ++ [(m.row, m.target)]
      blocks := updWhere (·.job == m.job) (fun b => { b with flipped := b.flipped + 1 }) t.blocks } := by
  simp [Table.flips, Table.releases, honly, hheld]

theorem State.flipRowMove_flips {m : RowMove} (hheld : t.held = []) (haway : physOf (t.base + m.row * t.rowBytes) ≠ physOf m.target) :
    s.flipRowMove t m =
      ((s.modTable t.act t.num (Table.flips m)).modTable t.act t.num (Table.releases m.row)).count 0x602 1 := by
  unfold State.flipRowMove State.releaseHeld
  simp only [hheld, if_neg (Ne.symm haway)]
  rfl

/-- The only move of a table is due, with its copy complete. -/
theorem State.flipTable_flips {m : RowMove} {upTo : Nat} (h : s.table? t.act t.num = some t) (honly : t.moves = [m]) (hdue : m.flip ≤ upTo)
    (hcopied : m.stage = 2) (hheld : t.held = []) (haway : physOf (t.base + m.row * t.rowBytes) ≠ physOf m.target)
    (hlists : ∀ o ∈ s.wnz.ops, o.registered = true → o.listed = true) :
    s.flipTable t.act t.num upTo = (((s.fired 1).modTable t.act t.num (Table.flips m)).modTable t.act t.num (Table.releases m.row)).count 0x602 1 := by
  have hfound : (s.fired 1).table? t.act t.num = some t := h
  have hfired : ([m].map (·.job)).eraseDups.length = 1 := rfl
  unfold State.flipTable
  simp only [h, honly, List.filter_cons, decide_eq_true hdue, if_true, List.filter_nil, hfired, List.foldl_cons, List.foldl_nil, hfound, hcopied,
    State.flipRowMove_flips hheld haway]
  exact State.readLists_listed (s := (((s.fired 1).modTable ..).modTable ..).count 0x602 1) hlists

end

end Sys2Proof.Machine
end

section
/-! PROOFS. TBL.TDEF, SWAP and VER (R263, R282, R104). -/
namespace Sys2Proof.Machine
open Sys2Proof.Claims

/-- An engine instruction whose body may change the Winze units' state, beside what `engages_same` allows. -/
theorem engages_wnz {s u : State} {f : Form} {o : Insn} {t : Strand} {j : Job} {reads writes : List Res} {body : Strand → Job → M (List Effect)}
    {e : List Effect} (h : Issues s f o t j) (hc : t.clear reads writes = true) (hfil : u.fil = (s.moved o t).fil) (hmem : u.mem = s.mem)
    (hregs : u.regs = s.regs) (hb : (body t j).run (s.moved o t) = .ok e u) :
    CompletesWith (engine f o s reads writes body) fun w => Engages s w o t e ∧ w.wnz = u.wnz := by
  obtain ⟨w, hw, hengages⟩ := engages_same h hc hfil hmem hregs hb
  cases (engine_ok h hc hb).symm.trans hw
  exact ⟨_, hw, hengages, rfl⟩

section
variable {s : State} {o : Insn} {t : Strand} {j : Job} {tb : Table}

/-- A table as TBL.TDEF makes it. -/
def newTable (act num fmt : Nat) (d : Dsc) : Table :=
  ⟨act, num, fmt, d.stride, d.base, d.len, 0, [], [], [], [], none, [], 0, none, Load.none, Load.none, 2 ^ 64, [], none⟩

theorem execTblTdef_defines (h : Issues s Form.tblTdef o t j) (hd : Usable (t.getD o.a) [0] false) (helem : (decodeDsc (t.getD o.a)).elem = 0)
    (hrow : rowElemsOk (o.fld 8 4) (decodeDsc (t.getD o.a)).stride = true)
    (hbase : (decodeDsc (t.getD o.a)).base % rowBytesOf (o.fld 8 4) (decodeDsc (t.getD o.a)).stride = 0)
    (hlen : (decodeDsc (t.getD o.a)).len % rowBytesOf (o.fld 8 4) (decodeDsc (t.getD o.a)).stride = 0)
    (hextent : s.extentOk j.act (decodeDsc (t.getD o.a)).base (decodeDsc (t.getD o.a)).len = true) (hnew : s.table? j.act (o.fld 0 8) = none) :
    CompletesWith (execTblTdef o s) fun u => Engages s u o t [] ∧
      u.wnz = { s.wnz with tables := s.wnz.tables ++ [newTable j.act (o.fld 0 8) (o.fld 8 4) (decodeDsc (t.getD o.a))] } := by
  refine engages_wnz (u := { s.moved o t with wnz := _ }) h (clear_nil t) rfl rfl rfl ?_
  simp only []
  rw [useDsc_pure hd, M.bind_pure, need_pure _ _ (by simp [helem, hrow, hbase, hlen]), M.bind_pure]
  refine (M.run_bind_ok (M.run_get _)).trans ?_
  rw [need_pure _ _ (by
    rw [show (s.moved o t).extentOk j.act (decodeDsc (t.getD o.a)).base (decodeDsc (t.getD o.a)).len = true from hextent,
      show (s.moved o t).table? j.act (o.fld 0 8) = none from hnew]
    rfl), M.bind_pure]
  rfl

/-- A table with a swap pending. -/
def Table.swapsAt (beat base len : Nat) (t : Table) : Table := { t with swap := some (beat, base, len) }

/-- An extent that R282 accepts for the replacement of a table: aligned and placed as the table's, and clear of it and of every moved row. -/
structure SwapExtent (s : State) (act : Nat) (d : Dsc) (tb : Table) : Prop where
  base : d.base % tb.rowBytes = 0
  len : d.len % tb.rowBytes = 0
  extent : s.extentOk act d.base d.len = true
  apart : rangesMeet d.base d.len tb.base tb.len = false
  moved : ∀ u ∈ s.wnz.tables, (∀ e ∈ u.dir, rangesMeet d.base d.len e.2 u.rowBytes = false) ∧
    ∀ m ∈ u.moves, rangesMeet d.base d.len m.target u.rowBytes = false

theorem SwapExtent.clear {act : Nat} {d : Dsc} (h : SwapExtent s act d tb) : (s.wnz.tables.all fun u =>
    !(u.dir.any fun e => rangesMeet d.base d.len e.2 u.rowBytes) && !(u.moves.any fun m => rangesMeet d.base d.len m.target u.rowBytes)) = true := by
  refine List.all_eq_true.2 fun u hu => ?_
  obtain ⟨hdir, hmoves⟩ := h.moved u hu
  rw [List.any_eq_false.2 fun e he => by simp [hdir e he], List.any_eq_false.2 fun m hm => by simp [hmoves m hm]]
  rfl

/-- A swap entered at a beat, where the beat is far enough ahead. -/
def State.schedulesSwap (s : State) (act num beat base len : Nat) : State :=
  if beat < s.now + 16 then s else s.modTable act num (Table.swapsAt beat base len)

theorem State.schedulesSwap_early {act num beat base len : Nat} (h : beat < s.tally.beat + 16) : s.schedulesSwap act num beat base len = s := if_pos h

theorem State.schedulesSwap_late {act num beat base len : Nat} (h : s.tally.beat + 16 ≤ beat) :
    s.schedulesSwap act num beat base len = s.modTable act num (Table.swapsAt beat base len) := if_neg (Nat.not_lt.2 h)

theorem execTblSwap_schedules (h : Issues s Form.tblSwap o t j) (hc : t.clear [] (presWrites o) = true) (hd : Usable (t.getD o.a) [0] false)
    (htb : s.table? j.act (o.fld 0 8) = some tb) (hswap : tb.swap = none) (hext : SwapExtent s j.act (decodeDsc (t.getD o.a)) tb)
    (hroom : s.tally.beat + 16 ≤ (t.getS o.b).toNat → (s.moved o t).eventRoom = true) :
    CompletesWith (execTblSwap o s) fun u => Engages s u o t (setPres o (decide (s.tally.beat + 16 ≤ (t.getS o.b).toNat))) ∧
      u.wnz = ((s.moved o t).schedulesSwap j.act (o.fld 0 8) (t.getS o.b).toNat (decodeDsc (t.getD o.a)).base (decodeDsc (t.getD o.a)).len).wnz := by
  refine engages_wnz h hc ?_ ?_ ?_ ?_
  case refine_4 =>
    have hnow : (s.moved o t).now = s.tally.beat := rfl
    have hplaced : (s.moved o t).extentOk j.act (decodeDsc (t.getD o.a)).base (decodeDsc (t.getD o.a)).len = true := hext.extent
    simp only []
    rw [useDsc_pure hd, M.bind_pure]
    refine (M.run_bind_ok (M.run_updGet _ _)).trans ?_
    rw [State.lookup_run (s := s.moved o t) htb hswap]
    simp only []
    rw [orFault_pure _ _ rfl, M.bind_pure]
    refine (M.run_bind_ok (M.run_get _)).trans ?_
    rw [need_pure _ _ (by
      rw [hswap, hext.base, hext.len, hplaced, hext.apart, show (s.moved o t).wnz.tables = s.wnz.tables from rfl, hext.clear]
      rfl), M.bind_pure]
    by_cases hearly : (t.getS o.b).toNat < s.tally.beat + 16
    · rw [State.schedulesSwap_early (s := s.moved o t) hearly, hnow, if_pos hearly, decide_eq_false (Nat.not_le.2 hearly)]
      rfl
    · have hlate := Nat.not_lt.1 hearly
      rw [State.schedulesSwap_late (s := s.moved o t) hlate, hnow, if_neg hearly, hroom hlate, decide_eq_true hlate]
      rfl
  all_goals
    unfold State.schedulesSwap
    split <;> rfl

theorem execTblVer_answers {b : Nat} (h : Issues s Form.tblVer o t j) (htb : s.table? j.act (o.fld 0 8) = some tb) (hswap : tb.swap = none)
    (hver : tb.ver = some b) : CompletesWith (execTblVer o s) fun u => Engages s u o t [.setS o.dst (BitVec.ofNat 64 b)] := by
  refine engages_same (u := s.moved o t) h (clear_nil t) rfl rfl rfl ?_
  refine (M.run_bind_ok (M.run_updGet _ _)).trans ?_
  rw [State.lookup_run (s := s.moved o t) htb hswap, Option.bind_some, hver]
  rfl

/-- Where no version has been replaced, TBL.VER draws what it writes. -/
theorem execTblVer_draws (h : Issues s Form.tblVer o t j) (htb : s.table? j.act (o.fld 0 8) = some tb) (hswap : tb.swap = none)
    (hver : tb.ver = none) : CompletesWith (execTblVer o s) fun u =>
      Engages s u o t [.setS o.dst (BitVec.ofNat 64 ((s.moved o t).draw 64).1)] := by
  refine engages_same (u := ((s.moved o t).draw 64).2) h (clear_nil t) rfl rfl rfl ?_
  refine (M.run_bind_ok (M.run_updGet _ _)).trans ?_
  rw [State.lookup_run (s := s.moved o t) htb hswap, Option.bind_some, hver]
  rfl

end

/-- Settles O41: each instruction's body passes its checks, and the one that defines or replaces changes the table's record at issue. -/
theorem tableDefinitions : Obligations.TableDefinitions := by
  intro o s t j d num
  refine ⟨fun h hd helem hrow hbase hlen hextent hnew => ?_, fun tb h hc hd htb hswap hbase hlen hextent hapart hmoved => ?_,
    fun tb h htb hswap => ⟨fun b hver => execTblVer_answers h htb hswap hver, fun hver => ?_⟩⟩
  · obtain ⟨u, hu, hengages, hwnz⟩ := execTblTdef_defines h hd helem hrow hbase hlen hextent hnew
    exact ⟨u, hu, hengages, newTable j.act num (o.fld 8 4) d, congrArg (·.tables) hwnz, rfl, rfl, rfl, rfl, rfl, rfl, rfl, rfl, rfl, rfl⟩
  · have hext : SwapExtent s j.act d tb := ⟨hbase, hlen, hextent, hapart, hmoved⟩
    refine ⟨fun hearly => ?_, fun hlate hroom => ?_⟩
    · obtain ⟨u, hu, hengages, hwnz⟩ := execTblSwap_schedules h hc hd htb hswap hext fun hlate => absurd hearly (Nat.not_lt.2 hlate)
      rw [decide_eq_false (Nat.not_le.2 hearly)] at hengages
      rw [State.schedulesSwap_early (s := s.moved o t) hearly] at hwnz
      exact ⟨u, hu, hengages, hwnz⟩
    · obtain ⟨u, hu, hengages, hwnz⟩ := execTblSwap_schedules h hc hd htb hswap hext fun _ => hroom
      rw [decide_eq_true hlate] at hengages
      rw [State.schedulesSwap_late (s := s.moved o t) hlate] at hwnz
      have hfound := State.table_modTable (s := s.moved o t) (f := Table.swapsAt (t.getS o.b).toNat d.base d.len) htb fun _ => ⟨rfl, rfl⟩
      exact ⟨u, hu, hengages, (State.table_congr (congrArg (·.tables) hwnz)).trans hfound⟩
  · obtain ⟨u, hu, hengages⟩ := execTblVer_draws h htb hswap hver
    exact ⟨u, hu, _, hengages⟩

end Sys2Proof.Machine
end

section
/-! PROOFS. Table control: swaps, MIGRATE, REPORT and UNDEFINE, the stages of a migration, and the load windows (R274 to R279, R282). -/
namespace Sys2Proof.Machine
open Sys2Proof.Claims

/-! ## A swap that comes due (R282) -/

/-- A swap that comes due counts itself and replaces its table. -/
theorem execTableSwapEvent_swaps {s : State} {act num beat base len : Nat} {tb : Table} (h : s.table? act num = some tb)
    (hswap : tb.swap = some (beat, base, len)) (hdue : beat ≤ s.tally.beat) (hstill : tb.moves = [])
    (hlists : ∀ o ∈ s.wnz.ops, o.registered = true → o.listed = true) :
    CompletesWith (execTableSwapEvent act num s) fun u => TablesOnly s u ∧ u.ctr 0x606 = (s.ctr 0x606 + 1) % 2 ^ 64 ∧
      u.table? act num = some (Table.swapsTo (s.wnz.ops.any fun o => o.looksUp act num tb.version) base len tb) := by
  refine ⟨_, congrArg Host.Outcome.next (State.swapTable_swaps h hswap hdue hstill hlists), rfl, ?_, ?_⟩
  · rw [State.ctr_fired _ 1 (by decide), State.ctr_count_same]
    exact congrArg (fun n => (n + 1) % 2 ^ 64) (State.ctr_fired s 0 (by decide))
  · exact State.table_modTable (s := s.fired 0) h fun _ => ⟨rfl, rfl⟩

/-! ## Loader calls of table control (R274) -/

section
variable {s : State} {job op : Nat} {j : Job} {t : Table}

theorem tableCall_found (h : TableCall s job op j t) : s.table? t.act t.num = some t := by
  obtain ⟨-, -, hblock, -⟩ := h
  unfold State.tableBlock at hblock
  obtain ⟨-, hnamed⟩ := Option.ite_none_right_eq_some.1 hblock
  obtain ⟨t', ht, heq⟩ := Option.map_eq_some_iff.1 hnamed
  cases heq
  exact State.table_own ht

/-- A call that stands at its block runs its operation. -/
theorem tableCall_runs (h : TableCall s job op j t) (run : State → Job → Table → State) : s.tableCall job op run = run s j t := by
  obtain ⟨hcall, hnamed, hblock, hfree⟩ := h
  have hwaits : (s.wnz.tables.any fun t => t.undef == some job || t.blocks.any (·.job == job)) = false := by
    refine List.any_eq_false.2 fun u hu => ?_
    obtain ⟨hundef, hblocks⟩ := hfree u hu
    rw [beq_eq_false_iff_ne.2 hundef, List.any_eq_false.2 fun b hb => by simpa using hblocks b hb]
    decide
  unfold State.tableCall
  simp only [hcall, hnamed, ne_eq, not_true, false_and, if_false, hblock, hwaits]
  rfl

/-- The call ends with what it returns, in a state that has the jobs of the call. -/
theorem tableCall_ends {u : State} (h : s.job? job = some j) (hphase : j.phase = .loader) (hjobs : u.fil.jobs = s.fil.jobs) (result : Nat)
    (ret : List Byte) : (u.endLoader job 0 0 result ret).job? job =
      some { j with phase := .running, status := 0, detail := 0, result := result, ret := ret } := by
  obtain rfl := State.job_id h
  exact State.endLoader_returned ((State.job_congr hjobs j.id).trans h) hphase 0 0 result ret

/-! ### MIGRATE (R278) -/

/-- A table with a move for each row of a block, and the block. -/
def Table.takesMoves (job flip : Nat) (rows : List (Nat × Nat)) (t : Table) : Table :=
  { t with
    moves := t.moves ++ rows.map fun m => ⟨m.1, t.rowAt t.version m.1, m.2, flip, job, 0⟩
    blocks := t.blocks ++ [⟨job, flip, 0⟩] }

theorem Table.takesMoves_rows (job flip : Nat) (rows : List (Nat × Nat)) (t : Table) :
    (t.takesMoves job flip rows).moves.map (fun m => (m.row, m.target)) = t.moves.map (fun m => (m.row, m.target)) ++ rows := by
  simp [Table.takesMoves, Function.comp_def]

theorem eraseDups_of_nodup {α : Type} [BEq α] [LawfulBEq α] {l : List α} (h : l.Nodup) : l.eraseDups = l := by
  induction l with
  | nil => rfl
  | cons a l ih =>
    obtain ⟨hnew, hrest⟩ := List.nodup_cons.1 h
    have hall : l.filter (fun b => !b == a) = l := List.filter_eq_self.2 fun b hb => by
      simpa using fun heq : b = a => hnew (heq ▸ hb)
    rw [List.eraseDups_cons, hall, ih hrest]

/-- A block of rows that R278 step 1 accepts: its flip beat is in the window of the call and before any swap, no row is refused or named twice,
no two targets meet, and the directory and the event engine have room. -/
structure MovesAccepted (s : State) (j : Job) (t : Table) (flip : Nat) (rows : List (Nat × Nat)) : Prop where
  window : j.pickup + 64 ≤ flip ∧ flip ≤ j.pickup + 65536
  swap : ∀ x, t.swap = some x → flip < x.1
  accepted : ∀ m ∈ rows, s.moveRefused t m.1 m.2 = false
  once : (rows.map (·.1)).Nodup
  apart : ∀ a ∈ rows.zipIdx, ∀ b ∈ rows.zipIdx, a.2 ≠ b.2 → rangesMeet a.1.2 t.rowBytes b.1.2 t.rowBytes = false
  room : s.movesRoom t (rows.map (·.1)) = true
  event : s.eventRoom = true

theorem MovesAccepted.clear {flip : Nat} {rows : List (Nat × Nat)} (h : MovesAccepted s j t flip rows) :
    (rows.zipIdx.any fun a => rows.zipIdx.any fun b => a.2 != b.2 && rangesMeet a.1.2 t.rowBytes b.1.2 t.rowBytes) = false := by
  refine List.any_eq_false.2 fun a ha => ?_
  rw [List.any_eq_false.2 fun b hb => ?_]
  · decide
  · by_cases hne : a.2 = b.2
    · simp [hne]
    · simp [h.apart a ha b hb hne]

theorem execTableMigrate_moves (h : TableCall s job 0 j t) (hok : MovesAccepted s j t (leAt j.data 8 8) (migrateRows j.data)) :
    execTableMigrate job s = .next (s.modTable t.act t.num (Table.takesMoves job (leAt j.data 8 8) (migrateRows j.data))) := by
  have hwindow : ¬ (leAt j.data 8 8 < j.pickup + 64 ∨ j.pickup + 65536 < leAt j.data 8 8) := by
    have := hok.window
    omega
  have hrows : ((migrateRows j.data).any fun m => s.moveRefused t m.1 m.2) = false :=
    List.any_eq_false.2 fun m hm => by simp [hok.accepted m hm]
  have honce : ((migrateRows j.data).map (·.1)).eraseDups.length = (migrateRows j.data).length := by
    rw [eraseDups_of_nodup hok.once, List.length_map]
  unfold execTableMigrate
  rw [tableCall_runs h]
  refine congrArg Host.Outcome.next ((if_neg ?_).trans ((if_neg ?_).trans (if_neg ?_)))
  · simp only [Bool.or_eq_true, not_or, Bool.not_eq_true]
    refine ⟨⟨⟨⟨decide_eq_false hwindow, ?_⟩, hrows⟩, by simp [honce]⟩, hok.clear⟩
    split
    · exact decide_eq_false (Nat.not_le.2 (hok.swap _ ‹_›))
    · rfl
  · simp [hok.room]
  · simp [hok.event]

/-! ### REPORT (R276) -/

theorem State.loadReport_congr {u : State} (h : u.wnz = s.wnz) (start : Nat) : u.loadReport t start = s.loadReport t start := by
  unfold State.loadReport State.tracked
  rw [h]

theorem State.windowStart_same (s : State) (t : Table) : (s.windowStart t).2.wnz = s.wnz ∧ (s.windowStart t).2.fil = s.fil := by
  unfold State.windowStart
  split
  · exact ⟨rfl, rfl⟩
  · split <;> exact ⟨rfl, rfl⟩

theorem execTableReport_reports (h : TableCall s job 1 j t) (hroom : 1856 ≤ j.desc.resLen) : execTableReport job s =
    .next ((s.windowStart t).2.endLoader job 0 0 0 (s.loadReport t (s.windowStart t).1)) := by
  unfold execTableReport
  rw [tableCall_runs h]
  simp only [if_neg (Nat.not_lt.2 hroom), State.loadReport_congr (State.windowStart_same s t).1]

/-! ### UNDEFINE (R275) -/

/-- A table that an UNDEFINE waits for. -/
def Table.undefines (job : Nat) (t : Table) : Table := { t with undef := some job }

theorem execTableUndefine_marks (h : TableCall s job 2 j t) (hfree : t.undef = none) :
    execTableUndefine job s = .next (s.modTable t.act t.num (Table.undefines job)) := by
  unfold execTableUndefine
  rw [tableCall_runs h]
  simp only [hfree]
  rfl

/-- The state without a table. -/
def State.dropTable (s : State) (act num : Nat) : State :=
  { s with wnz := { s.wnz with tables := s.wnz.tables.filter fun u => !(u.act == act && u.num == num) } }

/-- Nothing looks the table up and nothing of it moves: it goes, and its call ends. -/
theorem execTableUndefineEffect_drops (h : s.table? t.act t.num = some t) (hundef : t.undef = some job) (hstill : t.moves = [])
    (hblocks : t.blocks = []) (hswap : t.swap = none) (hidle : ∀ o ∈ s.wnz.ops, o.act = t.act → o.table = t.num → o.func = 0) :
    execTableUndefineEffect t.act t.num s = .next ((s.dropTable t.act t.num).endLoader job 0 0 0 []) := by
  have hunused : (s.wnz.ops.any fun o => o.func != 0 && o.act == t.act && o.table == t.num) = false := by
    refine List.any_eq_false.2 fun o ho hbusy => ?_
    simp only [Bool.and_eq_true, bne_iff_ne, beq_iff_eq] at hbusy
    obtain ⟨⟨hlookup, hact⟩, hnum⟩ := hbusy
    exact hlookup (hidle o ho hact hnum)
  unfold execTableUndefineEffect
  simp only [h, hundef, hunused, hstill, hblocks, hswap]
  rfl

/-! ### The end of a block (R278 step 6) -/

/-- A table without the blocks of a job. -/
def Table.endsBlock (job : Nat) (t : Table) : Table := { t with blocks := t.blocks.filter (·.job != job) }

theorem execMigrationSourceRelease_ends {b : MoveBlock} (h : s.table? t.act t.num = some t) (hb : t.blocks.find? (·.job == job) = some b)
    (hdue : b.flip ≤ s.tally.beat) (hover : ∀ m ∈ t.moves, m.job ≠ job)
    (hlater : ∀ o ∈ s.wnz.ops, o.act = t.act → o.table = t.num → o.registered = true → b.flip ≤ o.regBeat) :
    execMigrationSourceRelease t.act t.num job s = .next ((s.modTable t.act t.num (Table.endsBlock job)).endLoader job 0 0 b.flipped []) := by
  have hmoves : (t.moves.any (·.job == job)) = false := List.any_eq_false.2 fun m hm => by simpa using hover m hm
  have hearly : (s.wnz.ops.any fun o =>
      o.func != 0 && o.act == t.act && o.table == t.num && o.registered && decide (o.regBeat < b.flip)) = false := by
    refine List.any_eq_false.2 fun o ho hbusy => ?_
    simp only [Bool.and_eq_true, beq_iff_eq, decide_eq_true_eq] at hbusy
    obtain ⟨⟨⟨⟨-, hact⟩, hnum⟩, hreg⟩, hbefore⟩ := hbusy
    exact Nat.not_lt.2 (hlater o ho hact hnum hreg) hbefore
  have hnow : decide (s.now < b.flip) = false := decide_eq_false (Nat.not_lt.2 hdue)
  unfold execMigrationSourceRelease
  simp only [h, Option.bind_some, hb, Option.map_some, hmoves, hearly, hnow]
  rfl

end

/-! ## The stages of a move (R278) -/

section
variable {s : State} {t : Table}

/-- A table whose waiting rows enter MOVING. -/
def Table.entersMoving (t : Table) : Table :=
  { t with moves := updWhere (·.stage == 0) (fun m => { m with stage := 1, source := t.rowAt t.version m.row }) t.moves }

theorem execMigrationMovingEnter_enters (hidle : ∀ o ∈ s.wnz.ops, o.act = t.act → o.table = t.num → o.registered = true → o.func ≠ 2) :
    execMigrationMovingEnter t.act t.num s = .next (s.modTable t.act t.num Table.entersMoving) := by
  have hnone : (s.wnz.ops.any fun o => o.func == 2 && o.act == t.act && o.table == t.num && o.registered) = false := by
    refine List.any_eq_false.2 fun o ho hbusy => ?_
    simp only [Bool.and_eq_true, beq_iff_eq] at hbusy
    obtain ⟨⟨⟨hupd, hact⟩, hnum⟩, hreg⟩ := hbusy
    exact hidle o ho hact hnum hreg hupd
  unfold execMigrationMovingEnter
  simp only [hnone]
  rfl

/-- A clean range that no sleeping stack holds is read with nothing counted or logged. -/
theorem State.readMem_clean (source : Nat) {a n : Nat} (hmem : isRegister a = false) (hclean : ∀ b ∈ blocksOf a n, s.mem.check b = .clean)
    (hawake : s.rd F.pwrStackState_inP3 = 0) : s.readMem source a n = ((s.readMem source a n).1, false, s) := by
  have hsound : (blocksOf a n).any (fun b => s.mem.check b == .uncorrectable) = false :=
    List.any_eq_false.2 fun b hb => by rw [hclean b hb]; decide
  have hquiet : (blocksOf a n).foldl (fun u b => u.memEvent source b (u.mem.check b)) s = s :=
    foldl_eq_self fun b hb => by rw [hclean b hb]; rfl
  have htouch : (if source = 2 then s else s.touch a n) = s := by
    split
    · rfl
    · unfold State.touch; rw [if_pos hawake]
  unfold State.readMem
  simp only [hmem, Bool.false_eq_true, if_false, htouch, hsound]
  rw [hquiet]

/-- A table one of whose rows has been copied. -/
def Table.copies (row : Nat) (t : Table) : Table := { t with moves := updWhere (·.row == row) (fun m => { m with stage := 2 }) t.moves }

theorem execMigrationCopyComplete_copies {m : RowMove} (h : s.table? t.act t.num = some t)
    (hm : t.moves.find? (fun x => x.row == m.row && x.stage == 1) = some m) (hahead : s.tally.beat < m.flip)
    (hclean : ∀ b ∈ blocksOf m.source t.rowBytes, s.mem.check b = .clean) (hmem : isRegister m.source = false)
    (hawake : s.rd F.pwrStackState_inP3 = 0) : execMigrationCopyComplete t.act t.num m.row s =
      .next ((s.writeMem 3 m.target (s.readMem 3 m.source t.rowBytes).1).modTable t.act t.num (Table.copies m.row)) := by
  unfold execMigrationCopyComplete
  rw [h, Option.bind_some, hm]
  simp only [Option.map_some]
  rw [if_neg (show ¬ m.flip ≤ s.now from Nat.not_le.2 hahead), State.readMem_clean 3 hmem hclean hawake]
  rfl

end

/-! ## Load windows (R276) -/

/-- A table whose window has closed at a beat. -/
def Table.closesWindow (now : Nat) (t : Table) : Table :=
  if t.lastStart = now - 65536 then t else { t with
    lastLoad := t.load, load := Load.none, lastStart := now - 65536
    lastHomes := t.load.hot.foldl (fun l e => kvSet 0 l e.1 (stackOf (t.rowAt t.version e.1))) [] }

theorem Table.closesWindow_key (now : Nat) (t : Table) : (t.closesWindow now).act = t.act ∧ (t.closesWindow now).num = t.num := by
  unfold Table.closesWindow
  split <;> exact ⟨rfl, rfl⟩

theorem Table.closesWindow_load {now : Nat} {t : Table} (h : t.lastStart ≠ now - 65536) : (t.closesWindow now).lastLoad = t.load ∧
    (t.closesWindow now).load = ⟨[], [], []⟩ ∧ (t.closesWindow now).lastStart = now - 65536 := by
  unfold Table.closesWindow
  rw [if_neg h]
  exact ⟨rfl, rfl, rfl⟩

theorem execLoadWindowEnd_closes {s : State} (hbound : s.tally.beat % 65536 = 0) (hlater : s.tally.beat ≠ 0) : execLoadWindowEnd s =
    .next { s with wnz := { s.wnz with tables := s.wnz.tables.map (Table.closesWindow s.tally.beat) } } := by
  have hgo : ¬ (s.now % 65536 ≠ 0 ∨ s.now = 0) := by
    rintro (h | h)
    · exact h hbound
    · exact hlater h
  unfold execLoadWindowEnd
  rw [if_neg hgo]
  rfl

/-! ## The settlement of O42 -/

theorem updWhere_beq {α : Type} (g : α → Nat) (k : Nat) (f : α → α) (l : List α) :
    updWhere (fun a => g a == k) f l = l.map fun a => if g a = k then f a else a := by
  unfold updWhere
  simp only [beq_iff_eq]

/-- Settles O42: each event is run by its own equation above, and what it leaves is read off the table that the equation names. -/
theorem tableControl : Obligations.TableControl := by
  refine ⟨?_, ?_, ?_, ?_⟩
  · intro s act num tb beat base len h hswap hdue hstill hlists
    obtain ⟨u, hu, honly, hctr, htable⟩ := execTableSwapEvent_swaps h hswap hdue hstill hlists
    exact ⟨u, hu, honly, hctr, _, htable, rfl, rfl, rfl, rfl, rfl, rfl⟩
  · intro s job j t ended
    refine ⟨fun h hwindow hswap hrows honce hapart hroom hevent => ?_, fun h hroom => ?_, fun h hfree => ?_, fun hj hphase h =>
      ⟨fun hundef hstill hblocks hswap hidle => ?_, fun b hb hdue hover hlater => ?_⟩⟩
    · exact ⟨_, execTableMigrate_moves h ⟨hwindow, hswap, hrows, honce, hapart, hroom, hevent⟩, rfl, _,
        State.table_modTable (tableCall_found h) fun _ => ⟨rfl, rfl⟩, Table.takesMoves_rows _ _ _ _, rfl, rfl⟩
    · obtain ⟨hj, hphase, -, -⟩ := State.loaderCall_some h.1
      exact ⟨_, execTableReport_reports h hroom, rfl,
        tableCall_ends hj hphase (congrArg (·.jobs) (State.windowStart_same s t).2) _ _⟩
    · exact ⟨_, execTableUndefine_marks h hfree, rfl, State.table_modTable (tableCall_found h) fun _ => ⟨rfl, rfl⟩⟩
    · exact ⟨_, execTableUndefineEffect_drops h hundef hstill hblocks hswap hidle, rfl, State.table_removed (s := s) rfl,
        tableCall_ends hj hphase rfl _ _⟩
    · exact ⟨_, execMigrationSourceRelease_ends h hb hdue hover hlater, rfl, tableCall_ends hj hphase rfl _ _,
        State.table_modTable h fun _ => ⟨rfl, rfl⟩⟩
  · intro s t h
    refine ⟨fun hidle => ?_, fun m hm hahead hcanonical hclean hmem hawake hw => ?_, fun m honly hdue hcopied hheld haway hlists => ?_⟩
    · refine ⟨_, execMigrationMovingEnter_enters hidle, rfl, ?_⟩
      rw [← updWhere_beq RowMove.stage 0]
      exact State.table_modTable h fun _ => ⟨rfl, rfl⟩
    · obtain ⟨-, hstores, -⟩ := State.writeMem_stores (source := 3) (State.canonical_mem hcanonical) hw
      refine ⟨_, execMigrationCopyComplete_copies h hm hahead hclean hmem hawake, hstores.congr rfl rfl, ?_⟩
      rw [← updWhere_beq RowMove.row m.row]
      refine State.table_modTable ?_ fun _ => ⟨rfl, rfl⟩
      exact (State.table_congr (congrArg (·.tables) (MemoryOnly.writeMem s 3 m.target _).wnz)).trans h
    · refine ⟨_, congrArg Host.Outcome.next (State.flipTable_flips h honly hdue hcopied hheld haway hlists), rfl, ?_, ?_⟩
      · rw [State.ctr_count_same]
        exact congrArg (fun n => (n + 1) % 2 ^ 64) (State.ctr_fired s 1 (by decide))
      · rw [← updWhere_beq MoveBlock.job m.job, ← Table.flips_only honly hheld]
        exact State.table_modTable (State.table_modTable (s := s.fired 1) h fun _ => ⟨rfl, rfl⟩) fun _ => ⟨rfl, rfl⟩
  · intro s hbound hlater
    refine ⟨_, execLoadWindowEnd_closes hbound hlater, rfl, fun act num t h hopen => ⟨_, ?_, Table.closesWindow_load hopen⟩⟩
    exact State.table_mapTables h (Table.closesWindow_key _) rfl

end Sys2Proof.Machine
end

section
/-! PROOFS. Quotas and the pool boundary (R286, R287, R300), scrubbing (R306), and rows (R308). -/
namespace Sys2Proof.Machine

/-! ## Ordinary writes of a named field (R4) -/

theorem RegsOnly.rd {s u : State} {l : List Nat} (h : RegsOnly s u l) {f : FieldRef} (hf : f.off ∉ l) : u.rd f = s.rd f := by
  unfold State.rd
  rw [h.1 _ hf]

theorem RegsOnly.on {s u : State} {l : List Nat} (h : RegsOnly s u l) {f : FieldRef} (hf : f.off ∉ l) : u.on f = s.on f :=
  State.on_congr (h.1 _ hf)

theorem RegsOnly.mem {s u : State} {l : List Nat} (h : RegsOnly s u l) : u.mem = s.mem := by
  rw [← h.2]

theorem RegsOnly.idx {s u : State} {l : List Nat} (h : RegsOnly s u l) : u.idx = s.idx := by
  rw [← h.2]

theorem RegsOnly.fil {s u : State} {l : List Nat} (h : RegsOnly s u l) : u.fil = s.fil := by
  rw [← h.2]

theorem RegsOnly.host {s u : State} {l : List Nat} (h : RegsOnly s u l) : u.host = s.host := by
  rw [← h.2]

theorem RegsOnly.telem {s u : State} {l : List Nat} (h : RegsOnly s u l) : u.telem = s.telem := by
  rw [← h.2]

/-- Counters are no registers. -/
theorem State.rd_count (s : State) (c n : Nat) (f : FieldRef) : (s.count c n).rd f = s.rd f := rfl

theorem State.storeWord_regsOnly (s : State) (off word : Nat) : RegsOnly s (s.storeWord off word) [off] := by
  unfold State.storeWord
  split
  · exact .refl s _
  · exact s.setReg_regsOnly _ _

/-- The register tables have an RW field of this place and range. -/
def FieldRef.listed (f : FieldRef) (rng : Rng) : Bool :=
  match findReg f.off with
  | none => false
  | some (r, _, _) => r.fields.any fun g => g.lo == f.lo && g.width == f.width && g.acc == .rw && g.rng == rng

/-- A field that a write stores by its range: listed so, in a window whose registers have fields that fit, lie apart and have ranges of their
own. -/
structure FieldRef.Stores (f : FieldRef) (rng : Rng) : Prop where
  laid : ∀ r ∈ regsOfWindow f.off, r.Laid
  listed : f.listed rng = true

/-- Such a field takes the value that is written, where it is in range. -/
theorem State.rd_storeWord (s : State) {f : FieldRef} {rng : Rng} (h : f.Stores rng) (word : Nat) :
    (s.storeWord f.off word).rd f = rng.take f.width 0 (s.rd f) (bits word f.lo f.width) % 2 ^ f.width := by
  have hlisted := h.listed
  unfold FieldRef.listed at hlisted
  split at hlisted
  · cases hlisted
  · next r i k hfound =>
    simp only [Bool.and_eq_true, List.any_eq_true, beq_iff_eq] at hlisted
    obtain ⟨g, hg, ⟨⟨hlo, hwidth⟩, hacc⟩, hrng⟩ := hlisted
    have hbits := s.bits_storeWord hfound (h.laid r (findReg_mem hfound)) hg word 0
    simp only [FieldRow.stored, hacc, hrng, hlo, hwidth] at hbits
    exact hbits

/-- Every register of the MEM and FUN tables has fields that fit, lie apart and have ranges of their own. -/
theorem laid_upkeep : ∀ r ∈ regsMem ++ regsFun, r.Laid := by
  have hrows : ∀ r ∈ regsMem ++ regsFun, (∀ f ∈ r.fields, f.lo + f.width ≤ 32) ∧ r.fields.Pairwise FieldRow.Apart ∧
      ∀ f ∈ r.fields, f.rng.own = true := by decide
  intro r hr
  obtain ⟨hfits, hapart, hown⟩ := hrows r hr
  exact ⟨hfits, hapart, hown⟩

theorem laid_mem {off : Nat} (hlo : 0x1800000 ≤ off) (hhi : off < 0x1C00000) : ∀ r ∈ regsOfWindow off, r.Laid := by
  simp (disch := omega) only [regsOfWindow, if_neg, if_pos]
  exact fun r hr => laid_upkeep r (List.mem_append_left _ hr)

theorem laid_fun {off : Nat} (hlo : 0x3C00000 ≤ off) (hhi : off < 0x3E00000) : ∀ r ∈ regsOfWindow off, r.Laid := by
  simp (disch := omega) only [regsOfWindow, if_neg, if_pos]
  exact fun r hr => laid_upkeep r (List.mem_append_right _ hr)

/-! ## Quotas (R287, R300) -/

theorem memQuotas_listed : ∀ act < 16, (F.memQStack_kib act).listed (.range 0 0xC0000000) = true ∧
    (F.memQCrew_kib act).listed (.range 0 786432) = true := by decide

theorem memQStack_stores {act : Nat} (h : act < 16) : (F.memQStack_kib act).Stores (.range 0 0xC0000000) :=
  ⟨laid_mem (by simp only [F.memQStack_kib]; omega) (by simp only [F.memQStack_kib]; omega), (memQuotas_listed act h).1⟩

theorem memQCrew_stores {act : Nat} (h : act < 16) : (F.memQCrew_kib act).Stores (.range 0 786432) :=
  ⟨laid_mem (by simp only [F.memQCrew_kib]; omega) (by simp only [F.memQCrew_kib]; omega), (memQuotas_listed act h).2⟩

/-- With no cache copy to drop and no tile to demote, nothing follows a quota write. -/
theorem State.applyQuotas_idle {s : State} (hcaches : s.idx.caches = []) (htiles : s.fil.tiles = []) (act : Nat) : s.applyQuotas act = s := by
  have htrim : State.trimCaches act s.idx.caches.length s = s := by rw [hcaches]; rfl
  unfold State.applyQuotas
  rw [htrim]
  refine foldl_eq_self fun crew _ => ?_
  unfold State.tierManage State.demotable
  rw [htiles]
  rfl

theorem execQuotaWrite_stores {s : State} {src : Src} {act kind : Nat} (hreach : s.reaches src = true) (hact : act < 16) (hkind : kind < 4)
    (hcaches : s.idx.caches = []) (htiles : s.fil.tiles = []) (word : Nat) :
    execQuotaWrite src act kind word s = .next (s.storeWord (quotaReg act kind) word) := by
  have honly := s.storeWord_regsOnly (quotaReg act kind) word
  have hidle : (s.storeWord (quotaReg act kind) word).applyQuotas act = s.storeWord (quotaReg act kind) word :=
    State.applyQuotas_idle (honly.idx ▸ hcaches) (honly.fil ▸ htiles) act
  simp only [execQuotaWrite, hreach, hact, hkind, hidle, decide_true, Bool.and_self, if_true]

/-- A quota takes a value of its range, and keeps its own at any other. -/
theorem quotaWrite_takes {s : State} {src : Src} {act kind : Nat} {f : FieldRef} {top : Nat} (hreach : s.reaches src = true) (hact : act < 16)
    (hkind : kind < 4) (hcaches : s.idx.caches = []) (htiles : s.fil.tiles = []) (hreg : quotaReg act kind = f.off) (hlo : f.lo = 0)
    (hf : f.Stores (.range 0 top)) {word : Nat} (hword : word < 2 ^ f.width) :
    CompletesWith (exec (.quotaWrite src act kind word) s) fun u => RegsOnly s u [f.off] ∧ u.rd f = if word ≤ top then word else s.rd f := by
  refine ⟨_, execQuotaWrite_stores hreach hact hkind hcaches htiles word, hreg ▸ s.storeWord_regsOnly _ word, ?_⟩
  have hbits : bits word f.lo f.width = word := by simp [bits, hlo, Nat.mod_eq_of_lt hword]
  rw [hreg, s.rd_storeWord hf, hbits]
  simp only [Rng.take, Nat.zero_le, true_and]
  split
  · exact Nat.mod_eq_of_lt hword
  · exact Nat.mod_eq_of_lt (s.rd_lt f)

/-! ## The pool boundary (R287) -/

/-- Whether the pool boundary may be moved: no act is enabled or has a live job, and no allocation is in the way. -/
def State.PoolFree (s : State) (gib : Nat) : Prop :=
  (∀ a, 1 ≤ a → a < 16 → s.on (F.actCtrl_enable a) = false ∧ ∀ j ∈ s.fil.jobs, j.act = a → j.phase = .ended) ∧
    ∀ x ∈ s.fil.allocs, x.pooled = true → (128 - gib) * 2 ^ 30 ≤ (x.addr - 0x100000000000) % 0x2000000000

/-- An act is idle where each of its jobs is over. -/
theorem State.liveJobs_isEmpty (s : State) (act : Nat) : (s.liveJobs act).isEmpty = true ↔ ∀ j ∈ s.fil.jobs, j.act = act → j.phase = .ended := by
  simp [State.liveJobs, List.filter_eq_nil_iff]

theorem State.poolMayBe_iff (s : State) (gib : Nat) : s.poolMayBe gib = true ↔ s.PoolFree gib := by
  have hallocs : (s.fil.allocs.all fun a => !a.pooled || decide ((128 - gib) * 2 ^ 30 ≤ (a.addr - stackView) % stackLen)) = true ↔
      ∀ x ∈ s.fil.allocs, x.pooled = true → (128 - gib) * 2 ^ 30 ≤ (x.addr - 0x100000000000) % 0x2000000000 := by
    simp only [List.all_eq_true, Bool.or_eq_true, Bool.not_eq_true', decide_eq_true_eq, ← Bool.not_eq_true, ← imp_iff_not_or]
    rfl
  have hacts : ((List.range 15).all fun a => !s.on (F.actCtrl_enable (a + 1)) && (s.liveJobs (a + 1)).isEmpty) = true ↔
      ∀ a, 1 ≤ a → a < 16 → s.on (F.actCtrl_enable a) = false ∧ ∀ j ∈ s.fil.jobs, j.act = a → j.phase = .ended := by
    simp only [List.all_eq_true, List.mem_range, Bool.and_eq_true, Bool.not_eq_true', State.liveJobs_isEmpty]
    constructor
    · intro h a hlo hhi
      have ha := h (a - 1) (by omega)
      rwa [Nat.sub_add_cancel hlo] at ha
    · intro h a ha
      exact h (a + 1) (by omega) (by omega)
  unfold State.poolMayBe State.PoolFree
  rw [Bool.and_eq_true, hacts, hallocs]

theorem execMemPoolWrite_writes {s : State} {src : Src} {gib : Nat} (hreach : s.reaches src = true) (hgib : gib < 256) :
    execMemPoolWrite src gib s = .next (s.writePool gib) := by
  simp only [execMemPoolWrite, hreach, if_true, Nat.mod_eq_of_lt hgib]

theorem State.writePool_moves {s : State} {gib : Nat} (hfree : s.PoolFree gib) (hgib : gib ≤ 128) : s.writePool gib = s.wr F.memPool_gib gib := by
  simp only [State.writePool, (s.poolMayBe_iff gib).2 hfree, Bool.not_true, Bool.false_eq_true, if_false, if_neg (Nat.not_lt.2 hgib)]

theorem State.writePool_tooLarge {s : State} {gib : Nat} (hfree : s.PoolFree gib) (hgib : 128 < gib) : s.writePool gib = s := by
  simp only [State.writePool, (s.poolMayBe_iff gib).2 hfree, Bool.not_true, Bool.false_eq_true, if_false, if_pos hgib]

theorem State.writePool_refused {s : State} {gib : Nat} (hbusy : ¬ s.PoolFree gib) : s.writePool gib = s.wr F.memStatus_poolRefused 1 := by
  have hno : s.poolMayBe gib = false := Bool.eq_false_iff.2 fun h => hbusy ((s.poolMayBe_iff gib).1 h)
  simp only [State.writePool, hno, Bool.not_false, if_true]

/-- The three answers of MEM_POOL. -/
theorem memPoolWrite_answers {s : State} {src : Src} {gib : Nat} (hreach : s.reaches src = true) (hgib : gib < 256) :
    (s.PoolFree gib → gib ≤ 128 → CompletesWith (exec (.memPoolWrite src gib) s) fun u => RegsOnly s u [F.memPool_gib.off] ∧ u.rd F.memPool_gib = gib) ∧
    (s.PoolFree gib → 128 < gib → exec (.memPoolWrite src gib) s = .next s) ∧
    (¬ s.PoolFree gib → CompletesWith (exec (.memPoolWrite src gib) s) fun u =>
      RegsOnly s u [F.memStatus_poolRefused.off] ∧ u.on F.memStatus_poolRefused = true) := by
  rw [exec_memPoolWrite, execMemPoolWrite_writes hreach hgib]
  refine ⟨fun hfree hle => ?_, fun hfree hlt => by rw [State.writePool_tooLarge hfree hlt], fun hbusy => ?_⟩
  · rw [State.writePool_moves hfree hle]
    exact ⟨_, rfl, s.wr_regsOnly _ _, (s.rd_wr_same F.memPool_gib gib (by decide)).trans (Nat.mod_eq_of_lt hgib)⟩
  · rw [State.writePool_refused hbusy]
    exact ⟨_, rfl, s.wr_regsOnly _ _, State.on_of_rd (s.rd_wr_same F.memStatus_poolRefused 1 (by decide))⟩

/-! ## Scrubbing (R306) -/

/-- A clean block is not rewritten, and nothing is counted. -/
theorem State.rewrite_clean {s : State} {b : Nat} (hclean : s.mem.check b = .clean) (source : Nat) (lose : Bool) : s.rewrite source lose b = s := by
  unfold State.rewrite
  rw [hclean]
  rfl

/-- A clean block that no Winze operation writes is left as it is. -/
theorem State.scrubBlock_clean {s : State} {b : Nat} (hclean : s.mem.check b = .clean) (hfree : s.holder false (b * 64) 64 = none) :
    s.scrubBlock b = s := by
  unfold State.scrubBlock
  rw [hfree]
  cases s.holder true (b * 64) 64 with
  | none => exact State.rewrite_clean hclean 2 false
  | some o => simp only [hclean]

/-- A round over clean memory counts at most the end of a pass. -/
theorem State.scrub_clean {s : State} (h : ∀ b, s.mem.check b = .clean ∧ s.holder false (b * 64) 64 = none) :
    s.scrub = if (s.now + 4096) % 2 ^ s.rd F.memScrub_pStack = 0 then s.count 0x703 1 else s := by
  unfold State.scrub
  extract_lets p q n m i k stack sram u
  have hu : u = s := foldl_eq_self fun b _ => State.scrubBlock_clean (h b).1 (h b).2
  rw [hu]

theorem scrubRound_leaves {s : State} (hen : s.on F.memCtrl_scrubEn = true) (hbeat : s.tally.beat % 4096 = 0)
    (hclean : ∀ b, s.mem.check b = .clean ∧ s.holder false (b * 64) 64 = none) :
    CompletesWith (exec .scrubRound s) fun u => u.mem = s.mem ∧ u.regs = s.regs ∧ u.ctr 0xB39 = (s.ctr 0xB39 + 1) % 2 ^ 64 := by
  have hrun : execScrubRound s = .next (s.scrub.fired 1) := congrArg Host.Outcome.next (if_pos ⟨hbeat, hen⟩)
  rw [exec_scrubRound, hrun, State.scrub_clean hclean]
  refine ⟨_, rfl, ?_⟩
  split
  · exact ⟨rfl, rfl, (State.ctr_count_same _ 0xB39 1).trans (by rw [State.ctr_count_other s 1 (by decide)])⟩
  · exact ⟨rfl, rfl, s.ctr_count_same 0xB39 1⟩

/-! ## Rows (R308) -/

/-- The memories after a row's copy: it is served from its spare, and its hits are gone. -/
def MemSt.spareRow (m : MemSt) (row : RowId) : MemSt :=
  { m with retiring := m.retiring.filter (· != row), retired := row :: m.retired, hits := m.hits.filter (·.row != row) }

theorem execRowRetireFlip_flips {s : State} {row : RowId} (hrow : row ∈ s.mem.retiring) (hclean : ∀ b ∈ row.blocks, s.mem.check b = .clean) :
    execRowRetireFlip row.kind row.unit row.sub row.row s = .next (({ s with mem := s.mem.spareRow row }).countRetired row) := by
  have hcopied : row.blocks.foldl (fun u b => u.rewrite 3 true b) s = s := foldl_eq_self fun b hb => State.rewrite_clean (hclean b hb) 3 true
  simp only [execRowRetireFlip, List.contains_iff_mem.2 hrow, Bool.not_true, Bool.false_eq_true, if_false, hcopied]
  rfl

/-- Of the memories, only the count of the period changes with a retired row. -/
theorem State.countRetired_mem (s : State) (row : RowId) : ∃ period, (s.countRetired row).mem = { s.mem with period := period } := by
  unfold State.countRetired
  simp only []
  split <;> exact ⟨_, rfl⟩

theorem State.countRetired_ctr (s : State) (row : RowId) : (s.countRetired row).ctr 0x702 = (s.ctr 0x702 + 1) % 2 ^ 64 := by
  rw [← s.ctr_count_same 0x702 1]
  unfold State.countRetired
  simp only []
  split <;> rfl

theorem State.countRetired_regs (s : State) {row : RowId} (hkind : row.kind = 0) : (s.countRetired row).regs =
    (((s.count 0x702 1).bump F.memRowsRetired_stack 1).wr (F.memStackStatus_rowSparesMin row.unit) ((s.count 0x702 1).rowSparesMin 0 row.unit)).regs := by
  simp only [State.countRetired, hkind, if_true]

/-- A retired row of a stack is counted in MEM_ROWS_RETIRED. -/
theorem State.countRetired_stack (s : State) {row : RowId} (hkind : row.kind = 0) :
    (s.countRetired row).rd F.memRowsRetired_stack = min (s.rd F.memRowsRetired_stack + 1) 65535 := by
  have hoff : (F.memStackStatus_rowSparesMin row.unit).off ≠ F.memRowsRetired_stack.off := by
    simp only [F.memStackStatus_rowSparesMin, F.memRowsRetired_stack]
    omega
  rw [rd_of_regs (s.countRetired_regs hkind), State.rd_wr_other _ _ _ _ hoff, State.rd_bump_same _ F.memRowsRetired_stack 1 (by decide), State.rd_count]
  rfl

theorem rowRetireFlip_serves {s : State} {row : RowId} (hrow : row ∈ s.mem.retiring) (hclean : ∀ b ∈ row.blocks, s.mem.check b = .clean) :
    CompletesWith (exec (.rowRetireFlip row.kind row.unit row.sub row.row) s) fun u =>
      u.mem.retired = row :: s.mem.retired ∧ u.mem.retiring = s.mem.retiring.filter (· != row) ∧ (∀ h ∈ u.mem.hits, h.row ≠ row) ∧
      u.mem.bytes = s.mem.bytes ∧ u.mem.syn = s.mem.syn ∧ u.ctr 0x702 = (s.ctr 0x702 + 1) % 2 ^ 64 ∧
      (row.kind = 0 → u.rd F.memRowsRetired_stack = min (s.rd F.memRowsRetired_stack + 1) 65535) := by
  obtain ⟨period, hmem⟩ := State.countRetired_mem { s with mem := s.mem.spareRow row } row
  refine ⟨_, execRowRetireFlip_flips hrow hclean, by rw [hmem]; rfl, by rw [hmem]; rfl, fun h hh => ?_, by rw [hmem]; rfl, by rw [hmem]; rfl,
    State.countRetired_ctr _ row, State.countRetired_stack _⟩
  rw [hmem] at hh
  exact bne_iff_ne.1 (List.mem_filter.1 hh).2

/-- A period's boundary clears the hits of the rows that it is for, and a stack's also what was retired in the period. -/
theorem hitPeriodBoundary_clears (s : State) : CompletesWith (exec .hitPeriodBoundary s) fun u =>
    (∀ h, h ∈ u.mem.hits ↔ h ∈ s.mem.hits ∧ ¬ (h.row.kind = 0 ∧ s.tally.beat % 2 ^ s.rd F.memScrub_pStack = 0) ∧
      ¬ (h.row.kind = 1 ∧ s.tally.beat % 2 ^ s.rd F.memScrub_qSram = 0)) ∧
    (s.tally.beat % 2 ^ s.rd F.memScrub_pStack = 0 → u.mem.period = []) ∧ { u with mem := s.mem } = s := by
  refine ⟨_, rfl, fun h => ?_, fun hp => if_pos hp, rfl⟩
  show h ∈ s.mem.hits.filter _ ↔ _
  rw [List.mem_filter]
  by_cases hp : s.tally.beat % 2 ^ s.rd F.memScrub_pStack = 0 <;> by_cases hq : s.tally.beat % 2 ^ s.rd F.memScrub_qSram = 0 <;>
    simp [State.now, hp, hq]

end Sys2Proof.Machine
end

section
/-! PROOFS. The channels of a stack: sparing by copy and at once, failures (R309, R310), and the arming of the flip mask (R311). -/
namespace Sys2Proof.Machine

/-! ## Requests (R309) -/

/-- A stack takes a sparing request of one of its channels where it has a spare and no copy runs. -/
theorem State.mayspare_iff (s : State) (st ch : Nat) : s.mayspare st ch = true ↔
    st < 24 ∧ ch < 32 ∧ 0 < s.rd (F.memStackStatus_sparesLeft st) ∧ ∀ c ∈ s.mem.copies, c.1 ≠ st := by
  simp [State.mayspare, and_assoc]

/-- A request that the stack does not take has no effect in either mode. -/
theorem memSpare_ignored {s : State} {st ch : Nat}
    (h : 24 ≤ st ∨ 32 ≤ ch ∨ s.rd (F.memStackStatus_sparesLeft st) = 0 ∨ ∃ c ∈ s.mem.copies, c.1 = st) (src : Src) :
    exec (.memSpareCopy src st ch) s = .next s ∧ exec (.memSpareDead src st ch) s = .next s := by
  have hno : s.mayspare st ch = false := Bool.eq_false_iff.2 fun hyes => by
    obtain ⟨hst, hch, hleft, hcopies⟩ := (s.mayspare_iff st ch).1 hyes
    rcases h with h | h | h | ⟨c, hc, he⟩
    · omega
    · omega
    · omega
    · exact hcopies c hc he
  constructor
  · simp only [exec_memSpareCopy, execMemSpareCopy, State.spareCopy, hno, Bool.not_false, if_true, ite_self]
  · simp only [exec_memSpareDead, execMemSpareDead, State.spareDead, hno, Bool.not_false, if_true, ite_self]

/-! ## The registers of a stack -/

theorem memStackStatus_ne_sub (st : Nat) : (F.memStackStatus_sparesLeft st).off ≠ (F.memStackSub_sub0 st).off := by
  simp only [F.memStackStatus_sparesLeft, F.memStackSub_sub0]
  omega

theorem memStackStatus_ne_status (st : Nat) : (F.memStackStatus_sparesLeft st).off ≠ F.memStatus_copying.off := by
  simp only [F.memStackStatus_sparesLeft, F.memStatus_copying]
  omega

/-- Beside the count of spares, a spare that takes a channel changes only MEM_STACKs_SUB. -/
theorem State.takeSpare_regsOnly (s : State) (st ch : Nat) :
    RegsOnly (s.wr (F.memStackStatus_sparesLeft st) (s.rd (F.memStackStatus_sparesLeft st) - 1)) (s.takeSpare st ch) [(F.memStackSub_sub0 st).off] := by
  unfold State.takeSpare
  simp only []
  split
  · exact (State.wr_regsOnly _ (F.memStackSub_sub0 st) _).trans (State.wr_regsOnly _ (F.memStackSub_sub0Valid st) _)
  · refine .trans (.trans ?_ (State.wr_regsOnly _ (F.memStackSub_sub1 st) _)) (State.wr_regsOnly _ (F.memStackSub_sub1Valid st) _)
    split
    · exact State.wr_regsOnly _ (F.memStackSub_sub0Valid st) _
    · exact .refl _ _

/-- A spare that takes a channel is a spare less. -/
theorem State.takeSpare_left (s : State) (st ch : Nat) :
    (s.takeSpare st ch).rd (F.memStackStatus_sparesLeft st) = s.rd (F.memStackStatus_sparesLeft st) - 1 := by
  have hleft : s.rd (F.memStackStatus_sparesLeft st) < 4 := s.rd_lt (F.memStackStatus_sparesLeft st)
  rw [(s.takeSpare_regsOnly st ch).rd (by simpa using memStackStatus_ne_sub st), State.rd_wr_same _ _ _ (by simp [F.memStackStatus_sparesLeft])]
  exact Nat.mod_eq_of_lt (Nat.lt_of_le_of_lt (Nat.sub_le _ _) hleft)

theorem State.takeSpare_mem (s : State) (st ch : Nat) : (s.takeSpare st ch).mem = s.mem := (s.takeSpare_regsOnly st ch).mem

/-! ## Copy mode (R309) -/

/-- The registers that show whether and which channel of a stack is copied, and whether any is. -/
def State.showCopy (s : State) (st on ch any : Nat) : State :=
  ((s.wr F.memStatus_copying any).wr (F.memStackStatus_copying st) on).wr (F.memStackStatus_copyCh st) ch

theorem State.showCopy_fields (s : State) (st on any : Nat) {ch : Nat} (hch : ch < 32) :
    (s.showCopy st on ch any).rd F.memStatus_copying = any % 2 ∧ (s.showCopy st on ch any).rd (F.memStackStatus_copying st) = on % 2 ∧
    (s.showCopy st on ch any).rd (F.memStackStatus_copyCh st) = ch ∧
    (s.showCopy st on ch any).rd (F.memStackStatus_sparesLeft st) = s.rd (F.memStackStatus_sparesLeft st) := by
  unfold State.showCopy
  simp (disch := grind [F.memStatus_copying, F.memStackStatus_copying, F.memStackStatus_copyCh, F.memStackStatus_sparesLeft]) only
    [State.rd_wr_other, State.rd_wr_apart, State.rd_wr_same]
  exact ⟨rfl, rfl, Nat.mod_eq_of_lt hch, trivial⟩

theorem execMemSpareCopy_begins {s : State} {src : Src} {st ch : Nat} (hreach : s.reaches src = true) (hmay : s.mayspare st ch = true) :
    execMemSpareCopy src st ch s = .next (({ s with mem := { s.mem with copies := s.mem.copies ++ [(st, ch)] } } : State).showCopy st 1 ch 1) := by
  simp only [execMemSpareCopy, hreach, if_true, State.spareCopy, hmay, Bool.not_true, Bool.false_eq_true, if_false]
  rfl

/-! ## Dead mode (R309) -/

/-- The memories after a channel went over to a spare with every lost-map bit set. -/
def MemSt.loseChannel (m : MemSt) (st ch : Nat) : MemSt :=
  { m with
    syn := m.syn.filter fun e => !inChan st ch e.1
    lostX := m.lostX.filter fun e => !inChan st ch e.1
    lostCh := if m.lostCh.contains (st, ch) then m.lostCh else m.lostCh ++ [(st, ch)] }

theorem execMemSpareDead_loses {s : State} {src : Src} {st ch : Nat} (hreach : s.reaches src = true) (hmay : s.mayspare st ch = true) :
    execMemSpareDead src st ch s = .next { s.takeSpare st ch with mem := s.mem.loseChannel st ch } := by
  simp only [execMemSpareDead, hreach, if_true, State.spareDead, hmay, Bool.not_true, Bool.false_eq_true, if_false, s.takeSpare_mem]
  rfl

theorem inChan_iff (st ch b : Nat) : inChan st ch b = true ↔ blockChan b = some (st, ch) := beq_iff_eq

/-- The channel itself is lost, and each other channel is lost where it was. -/
theorem MemSt.loseChannel_lostCh (m : MemSt) (st ch : Nat) (c : Nat × Nat) :
    (m.loseChannel st ch).lostCh.contains c = (m.lostCh.contains c || decide (c = (st, ch))) := by
  unfold MemSt.loseChannel
  by_cases hc : c = (st, ch)
  · subst hc
    simp only [decide_true, Bool.or_true]
    split
    · next h => exact h
    · simp
  · simp only [hc, decide_false, Bool.or_false]
    split
    · rfl
    · simp [List.contains_eq_mem, hc]

/-- What is listed block by block is no longer listed for the channel, and stays for each other block. -/
theorem kvGet_outside {α : Type} (d : α) (l : List (Nat × α)) (st ch b : Nat) :
    kvGet d (l.filter fun e => !inChan st ch e.1) b = if blockChan b = some (st, ch) then d else kvGet d l b := by
  split
  · next h =>
    have hin : inChan st ch b = true := (inChan_iff st ch b).2 h
    induction l with
    | nil => rfl
    | cons e t ih =>
      by_cases he : e.1 = b
      · rw [List.filter_cons_of_neg (by simp [he, hin])]
        exact ih
      · rw [List.filter_cons]
        split
        · simp only [kvGet, he, if_false]
          exact ih
        · exact ih
  · next h =>
    have hout : inChan st ch b = false := Bool.eq_false_iff.2 fun hin => h ((inChan_iff st ch b).1 hin)
    exact kvGet_filter (p := fun n => !inChan st ch n) (by simp [hout])

/-- Each block of the channel is lost. -/
theorem MemSt.loseChannel_lost (m : MemSt) {st ch b : Nat} (h : blockChan b = some (st, ch)) : (m.loseChannel st ch).lost b = true := by
  have hbase := m.loseChannel_lostCh st ch (st, ch)
  have hx : kvGet false (m.loseChannel st ch).lostX b = false := (kvGet_outside false m.lostX st ch b).trans (if_pos h)
  unfold MemSt.lost
  simp only [h, hbase, hx, decide_true, Bool.or_true]
  rfl

/-- Each other block is lost where it was. -/
theorem MemSt.loseChannel_lost_other (m : MemSt) {st ch b : Nat} (h : blockChan b ≠ some (st, ch)) : (m.loseChannel st ch).lost b = m.lost b := by
  have hx : kvGet false (m.loseChannel st ch).lostX b = kvGet false m.lostX b := (kvGet_outside false m.lostX st ch b).trans (if_neg h)
  unfold MemSt.lost
  rw [hx]
  cases hb : blockChan b with
  | none => rfl
  | some c =>
    have hc : c ≠ (st, ch) := fun e => h (hb.trans (congrArg some e))
    simp only [m.loseChannel_lostCh st ch c, hc, decide_false, Bool.or_false]

theorem MemSt.check_of_lost {m : MemSt} {b : Nat} (h : m.lost b = true) : m.check b = .uncorrectable := by
  unfold MemSt.check
  rw [h, Bool.or_true, if_pos rfl]

theorem MemSt.loseChannel_check (m : MemSt) (st ch b : Nat) :
    (blockChan b = some (st, ch) → (m.loseChannel st ch).check b = .uncorrectable) ∧
    (blockChan b ≠ some (st, ch) → (m.loseChannel st ch).check b = m.check b) := by
  refine ⟨fun h => MemSt.check_of_lost (m.loseChannel_lost h), fun h => ?_⟩
  have hsyn : kvGet 0#48 (m.loseChannel st ch).syn b = kvGet 0#48 m.syn b := (kvGet_outside 0#48 m.syn st ch b).trans (if_neg h)
  unfold MemSt.check
  rw [m.loseChannel_lost_other h, hsyn]
  rfl

/-- What a request that the stack takes does in each mode. -/
theorem memSpare_answers {s : State} {src : Src} {st ch : Nat} (hreach : s.reaches src = true) (hst : st < 24) (hch : ch < 32)
    (hleft : 0 < s.rd (F.memStackStatus_sparesLeft st)) (hcopies : ∀ c ∈ s.mem.copies, c.1 ≠ st) :
    (CompletesWith (exec (.memSpareCopy src st ch) s) fun u => u.mem = { s.mem with copies := s.mem.copies ++ [(st, ch)] } ∧
      u.on F.memStatus_copying = true ∧ u.on (F.memStackStatus_copying st) = true ∧ u.rd (F.memStackStatus_copyCh st) = ch ∧
      u.rd (F.memStackStatus_sparesLeft st) = s.rd (F.memStackStatus_sparesLeft st)) ∧
    (CompletesWith (exec (.memSpareDead src st ch) s) fun u => u.rd (F.memStackStatus_sparesLeft st) = s.rd (F.memStackStatus_sparesLeft st) - 1 ∧
      u.mem.bytes = s.mem.bytes ∧ ∀ b, (blockChan b = some (st, ch) → u.mem.check b = .uncorrectable) ∧
        (blockChan b ≠ some (st, ch) → u.mem.check b = s.mem.check b)) := by
  have hmay := (s.mayspare_iff st ch).2 ⟨hst, hch, hleft, hcopies⟩
  obtain ⟨hany, hon, hchan, hkept⟩ := State.showCopy_fields { s with mem := { s.mem with copies := s.mem.copies ++ [(st, ch)] } } st 1 1 hch
  exact ⟨⟨_, execMemSpareCopy_begins hreach hmay, rfl, State.on_of_rd hany, State.on_of_rd hon, hchan, hkept⟩,
    ⟨_, execMemSpareDead_loses hreach hmay, s.takeSpare_left st ch, rfl, s.mem.loseChannel_check st ch⟩⟩

/-! ## The end of a copy (R309, R302) -/

/-- MEM_ERR and its address are the registers of the log. -/
theorem State.logMem_regsOnly (s : State) (source blk : Nat) (uncorr : Bool) (row bit : Nat) :
    RegsOnly s (s.logMem source blk uncorr row bit) [F.memErr_valid.off, F.memErrAddrLo_addr.off, F.memErrAddrHi_addr.off] := by
  have hwr : ∀ (u : State) (f : FieldRef) (v : Nat), f.off ∈ [F.memErr_valid.off, F.memErrAddrLo_addr.off, F.memErrAddrHi_addr.off] →
      RegsOnly u (u.wr f v) [F.memErr_valid.off, F.memErrAddrLo_addr.off, F.memErrAddrHi_addr.off] := fun u f v hf =>
    (u.wr_regsOnly f v).mono (by simpa using hf)
  unfold State.logMem
  split
  · exact .refl s _
  · simp only []
    repeat refine .trans ?_ (hwr _ _ _ (by decide))
    exact .refl s _

/-- What the copy of a channel counts and logs of blocks that it cannot read. -/
def State.countUnread (s : State) (n : Nat) (low : Option Nat) : State :=
  match low with
  | some b => ((s.bump F.memUncorrCount_count n).count 0x701 n).logMem 3 b true 0 0
  | none => s

theorem State.countUnread_mem (s : State) (n : Nat) (low : Option Nat) : (s.countUnread n low).mem = s.mem := by
  cases low with
  | none => rfl
  | some b => exact (State.logMem_regsOnly ..).mem

theorem State.countUnread_left (s : State) (n : Nat) (low : Option Nat) (st : Nat) :
    (s.countUnread n low).rd (F.memStackStatus_sparesLeft st) = s.rd (F.memStackStatus_sparesLeft st) := by
  cases low with
  | none => rfl
  | some b =>
    have hlog : (F.memStackStatus_sparesLeft st).off ∉ [F.memErr_valid.off, F.memErrAddrLo_addr.off, F.memErrAddrHi_addr.off] := by
      simp only [F.memStackStatus_sparesLeft, F.memErr_valid, F.memErrAddrLo_addr, F.memErrAddrHi_addr, List.mem_cons, List.not_mem_nil, or_false]
      omega
    have hcount : F.memUncorrCount_count.off ≠ (F.memStackStatus_sparesLeft st).off := by
      simp only [F.memStackStatus_sparesLeft, F.memUncorrCount_count]
      omega
    exact ((State.logMem_regsOnly ..).rd hlog).trans (s.rd_bump_other _ _ n hcount)

/-- The state after a copy: the mapping has flipped to the spare, and no copy is left that runs. -/
def State.copyFlipped (s : State) (st ch : Nat) : State :=
  (((s.takeSpare st ch).wr (F.memStackStatus_copying st) 0).wr (F.memStackStatus_copyCh st) 0).wr F.memStatus_copying 0

theorem State.copyFlipped_fields (s : State) (st ch : Nat) :
    (s.copyFlipped st ch).rd (F.memStackStatus_sparesLeft st) = s.rd (F.memStackStatus_sparesLeft st) - 1 ∧
    (s.copyFlipped st ch).rd F.memStatus_copying = 0 ∧ (s.copyFlipped st ch).rd (F.memStackStatus_copying st) = 0 := by
  unfold State.copyFlipped
  simp (disch := grind [F.memStatus_copying, F.memStackStatus_copying, F.memStackStatus_copyCh, F.memStackStatus_sparesLeft]) only
    [State.rd_wr_other, State.rd_wr_apart, State.rd_wr_same, State.takeSpare_left]
  exact ⟨trivial, rfl, rfl⟩

/-- At the end of a stack's only copy the mapping flips, with what could not be read counted. -/
theorem execChannelSpareFlip_flips {s : State} {st ch : Nat} (hcopies : s.mem.copies = [(st, ch)]) (hsyn : s.mem.syn = []) :
    ∃ n low, execChannelSpareFlip st s =
      .next (({ s.countUnread n low with mem := { (s.countUnread n low).mem with copies := [] } } : State).copyFlipped st ch) := by
  have hfind : s.mem.copies.find? (·.1 == st) = some (st, ch) := by rw [hcopies]; simp
  refine ⟨(s.mem.lostOnly st ch).1, (s.mem.lostOnly st ch).2, ?_⟩
  have hnone : (s.countUnread (s.mem.lostOnly st ch).1 (s.mem.lostOnly st ch).2).mem.copies.filter (·.1 != st) = [] := by
    rw [State.countUnread_mem, hcopies]
    simp
  have hrun : execChannelSpareFlip st s = .next (
      let u := s.countUnread (s.mem.lostOnly st ch).1 (s.mem.lostOnly st ch).2
      let t := { u with mem := { u.mem with copies := u.mem.copies.filter (·.1 != st) } }
      (((t.takeSpare st ch).wr (F.memStackStatus_copying st) 0).wr (F.memStackStatus_copyCh st) 0).wr F.memStatus_copying
        (b2n (!(t.takeSpare st ch).mem.copies.isEmpty))) := by
    unfold execChannelSpareFlip
    simp only [hfind, hsyn, List.map_nil, List.filter_nil, List.foldl_nil]
    rfl
  rw [hrun]
  simp only [hnone, State.takeSpare_mem]
  rfl

theorem channelSpareFlip_flips {s : State} {st ch : Nat} (hcopies : s.mem.copies = [(st, ch)]) (hsyn : s.mem.syn = []) :
    CompletesWith (exec (.channelSpareFlip st) s) fun u => u.mem = { s.mem with copies := [] } ∧
      u.rd (F.memStackStatus_sparesLeft st) = s.rd (F.memStackStatus_sparesLeft st) - 1 ∧ u.on F.memStatus_copying = false ∧
      u.on (F.memStackStatus_copying st) = false := by
  obtain ⟨n, low, hrun⟩ := execChannelSpareFlip_flips hcopies hsyn
  have hleft := s.countUnread_left n low st
  have hmem := s.countUnread_mem n low
  generalize s.countUnread n low = t at hrun hleft hmem
  obtain ⟨hspares, hany, hon⟩ := State.copyFlipped_fields { t with mem := { t.mem with copies := [] } } st ch
  refine ⟨_, hrun, ?_, hspares.trans (congrArg (· - 1) hleft), State.on_of_rd hany, State.on_of_rd hon⟩
  rw [← hmem]
  exact State.takeSpare_mem _ st ch

/-! ## Failures (R310) -/

/-- The registers of a stack with a dead channel, of which `low` is the lowest. -/
def State.showDead (s : State) (st low : Nat) : State :=
  ((s.wr (F.memStackStatus_dead st) 1).wr (F.memStackStatus_deadCh st) low).wr F.memStatus_channelDead 1

theorem State.showDead_fields (s : State) (st low : Nat) :
    (s.showDead st low).rd (F.memStackStatus_dead st) = 1 ∧ (s.showDead st low).rd F.memStatus_channelDead = 1 := by
  unfold State.showDead
  simp (disch := grind [F.memStatus_channelDead, F.memStackStatus_dead, F.memStackStatus_deadCh]) only
    [State.rd_wr_other, State.rd_wr_apart, State.rd_wr_same]
  exact ⟨rfl, rfl⟩

/-- Each block of a dead channel is uncorrectable. -/
theorem MemSt.check_of_dead {m : MemSt} {st ch b : Nat} (h : (st, ch) ∈ m.deadCh) (hb : blockChan b = some (st, ch)) :
    m.check b = .uncorrectable := by
  have hdead : m.dead b = true := by
    unfold MemSt.dead
    rw [hb]
    exact List.contains_iff_mem.2 h
  unfold MemSt.check
  rw [hdead, Bool.true_or, if_pos rfl]

theorem channelFailure_dies {s : State} {st ch : Nat} (hst : st < 24) (hch : ch < 32) (hleft : s.rd (F.memStackStatus_sparesLeft st) = 0)
    (hlive : (st, ch) ∉ s.mem.deadCh) : CompletesWith (exec (.channelFailure st ch) s) fun u => u.on (F.memStackStatus_dead st) = true ∧
      u.on F.memStatus_channelDead = true ∧ u.mem = { s.mem with deadCh := s.mem.deadCh ++ [(st, ch)] } ∧
      ∀ b, blockChan b = some (st, ch) → u.mem.check b = .uncorrectable := by
  have hgo : ¬ (st ≥ 24 ∨ ch ≥ 32 ∨ 0 < s.rd (F.memStackStatus_sparesLeft st) ∨ s.mem.deadCh.contains (st, ch) = true) := by
    rw [List.contains_iff_mem]
    simp only [hlive, or_false]
    omega
  obtain ⟨hdead, hany⟩ := State.showDead_fields { s with mem := { s.mem with deadCh := s.mem.deadCh ++ [(st, ch)] } } st
    (if s.on (F.memStackStatus_dead st) then min ch (s.rd (F.memStackStatus_deadCh st)) else ch)
  exact ⟨_, congrArg Host.Outcome.next (if_neg hgo), State.on_of_rd hdead, State.on_of_rd hany, rfl,
    fun b hb => MemSt.check_of_dead (List.mem_append_right _ (List.mem_singleton.2 rfl)) hb⟩

/-! ## The flip mask (R311) -/

theorem memFlipCtrl_stores : F.memFlipCtrl_arm.Stores .any ∧ F.memFlipCtrl_kind.Stores (.range 0 2) :=
  have hlaid := laid_mem (off := F.memFlipCtrl_arm.off) (by decide) (by decide)
  ⟨⟨hlaid, by decide⟩, ⟨hlaid, by decide⟩⟩

/-- A write of MEM_FLIP_CTRL changes only that register. -/
theorem State.writeFlipCtrl_regsOnly (s : State) (word : Nat) : RegsOnly s (s.writeFlipCtrl word) [F.memFlipCtrl_arm.off] := by
  have hunit : ∀ (u : State) (p : Prop) [Decidable p] (v : Nat), RegsOnly u (if p then u else u.wr F.memFlipCtrl_unit v) [F.memFlipCtrl_arm.off] := by
    intro u p _ v
    split
    · exact .refl u _
    · exact u.wr_regsOnly F.memFlipCtrl_unit v
  unfold State.writeFlipCtrl
  simp only []
  split
  · exact ((s.storeWord_regsOnly _ word).trans (hunit _ _ _)).trans (State.wr_regsOnly _ F.memFlipCtrl_arm 0)
  · exact (s.storeWord_regsOnly _ word).trans (hunit _ _ _)

/-- UNIT may be put back, which leaves ARM and KIND as they were stored. -/
theorem State.rd_unitKept (s : State) (p : Prop) [Decidable p] (v : Nat) {f : FieldRef} (hf : f = F.memFlipCtrl_arm ∨ f = F.memFlipCtrl_kind) :
    (if p then s else s.wr F.memFlipCtrl_unit v).rd f = s.rd f := by
  split
  · rfl
  · rcases hf with rfl | rfl
    · exact s.rd_wr_apart F.memFlipCtrl_unit F.memFlipCtrl_arm v rfl (by decide) (by decide)
    · exact s.rd_wr_apart F.memFlipCtrl_unit F.memFlipCtrl_kind v rfl (by decide) (by decide)

theorem State.writeFlipCtrl_fields (s : State) (word : Nat) :
    (s.writeFlipCtrl word).on F.memFlipCtrl_arm = (bitOf word 0 && decide (bits word 1 2 ≠ 3)) ∧
    (bits word 1 2 ≠ 3 → (s.writeFlipCtrl word).rd F.memFlipCtrl_kind = bits word 1 2) := by
  obtain ⟨harm, hkind⟩ := memFlipCtrl_stores
  have hstored : (s.storeWord Reg.memFlipCtrl word).on F.memFlipCtrl_arm = bitOf word 0 := by
    refine (State.on_of_rd (s.rd_storeWord harm word)).trans ?_
    rw [bitOf, Nat.testBit_eq_decide_div_mod_eq]
    exact congrArg (· == 1) (Nat.mod_mod _ _)
  have htaken : bits word 1 2 ≠ 3 → (s.storeWord Reg.memFlipCtrl word).rd F.memFlipCtrl_kind = bits word 1 2 := fun h => by
    have hrange : 0 ≤ bits word 1 2 ∧ bits word 1 2 ≤ 2 := by have := bits_lt word 1 2; omega
    exact ((s.rd_storeWord hkind word).trans (congrArg (· % 4) (if_pos hrange))).trans (Nat.mod_eq_of_lt (bits_lt word 1 2))
  unfold State.writeFlipCtrl
  simp only []
  split
  · next h =>
    refine ⟨?_, fun hne => absurd h.1 hne⟩
    rw [State.on_of_rd (State.rd_wr_same _ F.memFlipCtrl_arm 0 (by decide)), h.1]
    simp
  · next h =>
    refine ⟨?_, fun hne => (State.rd_unitKept _ _ _ (.inr rfl)).trans (htaken hne)⟩
    rw [State.on_of_rd (State.rd_unitKept _ _ _ (.inl rfl)), ← State.on, hstored]
    cases hbit : bitOf word 0 with
    | false => rfl
    | true => simpa [hbit] using h

theorem flipMaskArm_arms {s : State} {src : Src} (hreach : s.reaches src = true) (word : Nat) :
    (bits word 1 2 ≠ 3 → CompletesWith (exec (.flipMaskArm src word) s) fun u =>
      RegsOnly s u [F.memFlipCtrl_arm.off] ∧ u.on F.memFlipCtrl_arm = true ∧ u.rd F.memFlipCtrl_kind = bits word 1 2) ∧
    (bits word 1 2 = 3 → CompletesWith (exec (.flipMaskArm src word) s) fun u => u.on F.memFlipCtrl_arm = false) := by
  have hrun : exec (.flipMaskArm src word) s = .next (s.writeFlipCtrl (putBits word 0 1 1)) := congrArg Host.Outcome.next (if_pos hreach)
  have hbit : bitOf (putBits word 0 1 1) 0 = true := (putBits_testBit word 0 1 1 0).trans rfl
  have hkind : bits (putBits word 0 1 1) 1 2 = bits word 1 2 := bits_putBits_apart word 0 1 1 1 2 (.inr (Nat.le_refl 1))
  obtain ⟨harm, hstored⟩ := s.writeFlipCtrl_fields (putBits word 0 1 1)
  rw [hbit, hkind] at harm
  rw [hkind] at hstored
  rw [hrun]
  refine ⟨fun h => ⟨_, rfl, s.writeFlipCtrl_regsOnly _, ?_, hstored h⟩, fun h => ⟨_, rfl, ?_⟩⟩
  · exact harm.trans (by rw [decide_eq_true h]; rfl)
  · exact harm.trans (by rw [h]; rfl)

end Sys2Proof.Machine
end

section
/-! PROOFS. The spares and failures of hewers and control cores (R130, R131, R135). -/
namespace Sys2Proof.Machine

/-! ## Maps of units -/

theorem bits_one (m k : Nat) : bits m k 1 = (m.testBit k).toNat := by
  rw [bits, Nat.testBit_eq_decide_div_mod_eq]
  rcases Nat.mod_two_eq_zero_or_one (m / 2 ^ k) with h | h <;> simp [h]

/-- A bit that is set is cleared by taking its power away. -/
theorem testBit_sub_two_pow {m k : Nat} (h : m.testBit k = true) (i : Nat) : (m - 2 ^ k).testBit i = (m.testBit i && i != k) := by
  have hput : m - 2 ^ k = putBits m k 1 0 := by simp [putBits, bits_one, h]
  rw [hput, putBits_testBit]
  by_cases hi : i = k
  · simp [hi]
  · have hout : ¬ (k ≤ i ∧ i < k + 1) := by omega
    rw [if_neg hout]
    simp [hi, bne]

/-- A bit that is clear is set by adding its power. -/
theorem testBit_add_two_pow {m k : Nat} (h : m.testBit k = false) (i : Nat) : (m + 2 ^ k).testBit i = (m.testBit i || i == k) := by
  have hput : m + 2 ^ k = putBits m k 1 1 := by simp [putBits, bits_one, h]
  rw [hput, putBits_testBit]
  by_cases hi : i = k
  · simp [hi]
  · have hout : ¬ (k ≤ i ∧ i < k + 1) := by omega
    rw [if_neg hout]
    simp [hi]

section
variable {s : State} {f : FieldRef} {k spare : Nat}

/-- The bits of a field that was written. -/
theorem State.testBit_rd_wr (s : State) (v i : Nat) (hf : f.lo + f.width ≤ 32) :
    ((s.wr f v).rd f).testBit i = (decide (i < f.width) && v.testBit i) := by
  rw [State.rd_wr_same _ _ _ hf, Nat.testBit_mod_two_pow]

/-- A field has no bits past its width. -/
theorem State.testBit_rd_width (s : State) (f : FieldRef) (i : Nat) : (decide (i < f.width) && (s.rd f).testBit i) = (s.rd f).testBit i := by
  unfold State.rd
  rw [bits_testBit, ← Bool.and_assoc, Bool.and_self]

/-- A unit retired from a map. -/
theorem State.testBit_retired (hf : f.lo + f.width ≤ 32) (hk : (s.rd f).testBit k = true) (i : Nat) :
    ((s.wr f (s.rd f - 2 ^ k)).rd f).testBit i = ((s.rd f).testBit i && i != k) := by
  rw [s.testBit_rd_wr _ i hf, testBit_sub_two_pow hk, ← Bool.and_assoc, s.testBit_rd_width]

/-- A unit entered in a map. -/
theorem State.testBit_entered (hf : f.lo + f.width ≤ 32) (hk : (s.rd f).testBit k = false) (hwidth : k < f.width) (i : Nat) :
    ((s.wr f (s.rd f + 2 ^ k)).rd f).testBit i = ((s.rd f).testBit i || i == k) := by
  rw [s.testBit_rd_wr _ i hf, testBit_add_two_pow hk, Bool.and_or_distrib_left, s.testBit_rd_width]
  by_cases hi : i = k
  · simp [hi, hwidth]
  · simp [beq_eq_false_iff_ne.2 hi]

/-- A unit whose place the spare takes. -/
theorem State.testBit_replaced (hf : f.lo + f.width ≤ 32) (hk : (s.rd f).testBit k = true) (hspare : (s.rd f).testBit spare = false)
    (hwidth : spare < f.width) (i : Nat) :
    ((s.wr f (s.rd f - 2 ^ k + 2 ^ spare)).rd f).testBit i = (((s.rd f).testBit i && i != k) || i == spare) := by
  have hclear : (s.rd f - 2 ^ k).testBit spare = false := by rw [testBit_sub_two_pow hk, hspare, Bool.false_and]
  rw [s.testBit_rd_wr _ i hf, testBit_add_two_pow hclear, testBit_sub_two_pow hk, Bool.and_or_distrib_left, ← Bool.and_assoc, s.testBit_rd_width]
  by_cases hi : i = spare
  · simp [hi, hwidth]
  · simp [beq_eq_false_iff_ne.2 hi]

end

/-! ## The registers of a crew -/

section
variable (s : State) (c : Nat)

theorem State.countUnits_regsOnly : RegsOnly s (s.countUnits c) [(F.crewStatus_cores c).off] :=
  ((s.wr_regsOnly (F.crewStatus_hewers c) _).trans (State.wr_regsOnly _ (F.crewStatus_cores c) _)).trans (State.wr_regsOnly _ (F.crewStatus_online c) _)

@[simp] theorem State.countUnits_fil : (s.countUnits c).fil = s.fil := rfl

/-- The counts of a crew's units leave what is said of its spares. -/
theorem State.countUnits_spares : (s.countUnits c).on (F.crewStatus_hewSpareUsed c) = s.on (F.crewStatus_hewSpareUsed c) ∧
    (s.countUnits c).on (F.crewStatus_coreSpareUsed c) = s.on (F.crewStatus_coreSpareUsed c) := by
  unfold State.countUnits State.on
  extract_lets h k hews cores
  simp (disch := grind [F.crewStatus_hewers, F.crewStatus_cores, F.crewStatus_online, F.crewStatus_hewSpareUsed, F.crewStatus_coreSpareUsed]) only
    [State.rd_wr_apart]
  exact ⟨trivial, trivial⟩

/-- The maps of a crew are registers of their own. -/
theorem crewMaps_off : (F.crewHewMap_enabled c).off ∉ [(F.crewStatus_cores c).off] ∧ (F.crewHewFailed_failed c).off ∉ [(F.crewStatus_cores c).off] ∧
    (F.crewCoreMap_enabled c).off ∉ [(F.crewStatus_cores c).off] ∧ (F.crewHewFailed_failed c).off ≠ (F.crewHewMap_enabled c).off := by
  simp only [F.crewHewMap_enabled, F.crewHewFailed_failed, F.crewCoreMap_enabled, F.crewStatus_cores, List.mem_singleton]
  omega

end

section
variable {s : State} {c k : Nat}

/-! ## Hewers (R130) -/

/-- The registers after a hewer was retired for the spare. -/
def State.hewerSpared (s : State) (c k : Nat) : State :=
  (s.wr (F.crewHewMap_enabled c) (s.rd (F.crewHewMap_enabled c) - 2 ^ k + 2 ^ 12)).wr (F.crewStatus_hewSpareUsed c) 1

theorem State.spareHewer_spares (hc : c < 16) (hk : k ≤ 12) (hon : (s.rd (F.crewHewMap_enabled c)).testBit k = true)
    (hfree : s.on (F.crewStatus_hewSpareUsed c) = false) : s.spareHewer c k = (s.hewerSpared c k).countUnits c := by
  have hgo : ¬ (k > 12 ∨ c ≥ 16 ∨ (!bitOf (s.rd (F.crewHewMap_enabled c)) k) = true ∨ s.on (F.crewStatus_hewSpareUsed c) = true) := by
    rw [bitOf, hon, hfree]
    simp only [Bool.not_true, Bool.false_eq_true, or_false]
    omega
  exact if_neg hgo

/-- A spare hewer is brought in once, and only for one in service. -/
theorem State.spareHewer_refused (h : s.on (F.crewStatus_hewSpareUsed c) = true ∨ (s.rd (F.crewHewMap_enabled c)).testBit k = false) :
    s.spareHewer c k = s := by
  refine if_pos ?_
  rcases h with h | h
  · exact .inr (.inr (.inr h))
  · exact .inr (.inr (.inl (by rw [bitOf, h]; rfl)))

/-- What the spare of a hewer leaves. -/
theorem State.spareHewer_does (hc : c < 16) (hk : k ≤ 12) (hon : (s.rd (F.crewHewMap_enabled c)).testBit k = true)
    (hspare : (s.rd (F.crewHewMap_enabled c)).testBit 12 = false) (hfree : s.on (F.crewStatus_hewSpareUsed c) = false) :
    RegsOnly s (s.spareHewer c k) [(F.crewHewMap_enabled c).off, (F.crewStatus_hewSpareUsed c).off] ∧
    (s.spareHewer c k).on (F.crewStatus_hewSpareUsed c) = true ∧
    ∀ i, ((s.spareHewer c k).rd (F.crewHewMap_enabled c)).testBit i = (((s.rd (F.crewHewMap_enabled c)).testBit i && i != k) || i == 12) := by
  obtain ⟨hmap, -, -, -⟩ := crewMaps_off c
  have hne : (F.crewStatus_hewSpareUsed c).off ≠ (F.crewHewMap_enabled c).off := fun e => hmap (List.mem_singleton.2 e.symm)
  rw [State.spareHewer_spares hc hk hon hfree]
  refine ⟨.trans (.trans ((s.wr_regsOnly (F.crewHewMap_enabled c) _).mono (by simp)) ((State.wr_regsOnly _ (F.crewStatus_hewSpareUsed c) 1).mono
    (by simp))) ((State.countUnits_regsOnly _ c).mono (List.subset_cons_self _ _)), ?_, fun i => ?_⟩
  · exact ((State.countUnits_spares _ c).1).trans (State.on_of_rd (State.rd_wr_same _ _ 1 (by simp [F.crewStatus_hewSpareUsed])))
  · rw [(State.countUnits_regsOnly _ c).rd hmap, State.hewerSpared, State.rd_wr_other _ _ _ _ hne]
    exact State.testBit_replaced (by simp [F.crewHewMap_enabled]) hon hspare (by simp [F.crewHewMap_enabled]) i

/-- The registers after a hewer has failed: it is out of service where the spare is used. -/
def State.hewerFailed (s : State) (c k : Nat) : State :=
  let t := s.wr (F.crewHewFailed_failed c) (s.rd (F.crewHewFailed_failed c) + 2 ^ k)
  if s.on (F.crewStatus_hewSpareUsed c) then t.wr (F.crewHewMap_enabled c) (s.rd (F.crewHewMap_enabled c) - 2 ^ k) else t

theorem State.failHewer_marks (hc : c < 16) (hk : k ≤ 12) (hon : (s.rd (F.crewHewMap_enabled c)).testBit k = true)
    (hwell : (s.rd (F.crewHewFailed_failed c)).testBit k = false) : s.failHewer c k = (s.hewerFailed c k).countUnits c := by
  have hgo : ¬ (c ≥ 16 ∨ k > 12 ∨ (!bitOf (s.rd (F.crewHewMap_enabled c)) k) = true ∨ bitOf (s.rd (F.crewHewFailed_failed c)) k = true) := by
    rw [bitOf, bitOf, hon, hwell]
    simp only [Bool.not_true, Bool.false_eq_true, or_false]
    omega
  obtain ⟨-, hfailed, -, -⟩ := crewMaps_off c
  have hne : (F.crewHewFailed_failed c).off ≠ (F.crewStatus_hewSpareUsed c).off := fun e => hfailed (List.mem_singleton.2 e)
  unfold State.failHewer State.hewerFailed
  simp only [if_neg hgo, State.on_wr_other _ _ (F.crewStatus_hewSpareUsed c) _ hne]

/-- A unit that fails leaves service where the spare is used. -/
theorem testBit_leaves (used : Bool) (m k i : Nat) : (m.testBit i && !(used && i == k)) = if used = true then m.testBit i && i != k else m.testBit i := by
  cases used <;> simp [bne]

theorem State.hewerFailed_fields (hk : k ≤ 12) (hon : (s.rd (F.crewHewMap_enabled c)).testBit k = true)
    (hwell : (s.rd (F.crewHewFailed_failed c)).testBit k = false) :
    (∀ i, ((s.hewerFailed c k).rd (F.crewHewFailed_failed c)).testBit i = ((s.rd (F.crewHewFailed_failed c)).testBit i || i == k)) ∧
    ∀ i, ((s.hewerFailed c k).rd (F.crewHewMap_enabled c)).testBit i =
      ((s.rd (F.crewHewMap_enabled c)).testBit i && !(s.on (F.crewStatus_hewSpareUsed c) && i == k)) := by
  obtain ⟨-, -, -, hne⟩ := crewMaps_off c
  have hmark := State.testBit_entered (s := s) (f := F.crewHewFailed_failed c) (by simp [F.crewHewFailed_failed]) hwell (Nat.lt_succ_of_le hk)
  have hkept := s.rd_wr_other (F.crewHewFailed_failed c) (F.crewHewMap_enabled c) (s.rd (F.crewHewFailed_failed c) + 2 ^ k) hne
  unfold State.hewerFailed
  simp only [testBit_leaves]
  split
  · refine ⟨fun i => by rw [State.rd_wr_other _ _ _ _ hne.symm]; exact hmark i, fun i => ?_⟩
    rw [← hkept] at hon ⊢
    exact State.testBit_retired (by simp [F.crewHewMap_enabled]) hon i
  · exact ⟨hmark, fun i => by rw [hkept]⟩

theorem hewerFailure_marks (hc : c < 16) (hk : k ≤ 12) (hon : (s.rd (F.crewHewMap_enabled c)).testBit k = true)
    (hwell : (s.rd (F.crewHewFailed_failed c)).testBit k = false) : CompletesWith (exec (.hewerFailure c k) s) fun u =>
      (∀ i, (u.rd (F.crewHewFailed_failed c)).testBit i = ((s.rd (F.crewHewFailed_failed c)).testBit i || i == k)) ∧
      ∀ i, (u.rd (F.crewHewMap_enabled c)).testBit i = ((s.rd (F.crewHewMap_enabled c)).testBit i && !(s.on (F.crewStatus_hewSpareUsed c) && i == k)) := by
  obtain ⟨hmap, hfailed, -, -⟩ := crewMaps_off c
  obtain ⟨hmarked, hleft⟩ := State.hewerFailed_fields hk hon hwell
  have honly := (s.hewerFailed c k).countUnits_regsOnly c
  refine ⟨_, congrArg Host.Outcome.next (State.failHewer_marks hc hk hon hwell), fun i => ?_, fun i => ?_⟩
  · rw [honly.rd hfailed]; exact hmarked i
  · rw [honly.rd hmap]; exact hleft i

/-! ## Control cores (R131, R135) -/

/-- The registers after a control core was retired for the spare. -/
def State.coreSpared (s : State) (c k : Nat) : State :=
  (s.wr (F.crewCoreMap_enabled c) (s.rd (F.crewCoreMap_enabled c) - 2 ^ k + 2 ^ 4)).wr (F.crewStatus_coreSpareUsed c) 1

theorem State.coreSpared_fields (hon : (s.rd (F.crewCoreMap_enabled c)).testBit k = true) (hspare : (s.rd (F.crewCoreMap_enabled c)).testBit 4 = false) :
    (s.coreSpared c k).on (F.crewStatus_coreSpareUsed c) = true ∧
    ∀ i, ((s.coreSpared c k).rd (F.crewCoreMap_enabled c)).testBit i = (((s.rd (F.crewCoreMap_enabled c)).testBit i && i != k) || i == 4) := by
  obtain ⟨-, -, hmap, -⟩ := crewMaps_off c
  have hne : (F.crewStatus_coreSpareUsed c).off ≠ (F.crewCoreMap_enabled c).off := fun e => hmap (List.mem_singleton.2 e.symm)
  refine ⟨State.on_of_rd (State.rd_wr_same _ _ 1 (by simp [F.crewStatus_coreSpareUsed])), fun i => ?_⟩
  rw [State.coreSpared, State.rd_wr_other _ _ _ _ hne]
  exact State.testBit_replaced (by simp [F.crewCoreMap_enabled]) hon hspare (by simp [F.crewCoreMap_enabled]) i

/-- The strands of a control core go on at the spare. -/
def State.strandsMoved (s : State) (c k : Nat) : State :=
  { s with fil := { s.fil with strands := updWhere (fun t => t.crew == c && t.core == k) (fun t => { t with core := 4 }) s.fil.strands } }

theorem State.strandsMoved_strands (s : State) (c k : Nat) :
    (s.strandsMoved c k).fil.strands = s.fil.strands.map fun t => if t.crew = c ∧ t.core = k then { t with core := 4 } else t := by
  simp only [State.strandsMoved, updWhere, Bool.and_eq_true, beq_iff_eq]

@[simp] theorem State.strandsMoved_rd (s : State) (c k : Nat) (f : FieldRef) : (s.strandsMoved c k).rd f = s.rd f := rfl
@[simp] theorem State.strandsMoved_on (s : State) (c k : Nat) (f : FieldRef) : (s.strandsMoved c k).on f = s.on f := rfl

theorem State.spareCore_spares (hc : c < 16) (hk : k ≤ 4) (hon : (s.rd (F.crewCoreMap_enabled c)).testBit k = true)
    (hfree : s.on (F.crewStatus_coreSpareUsed c) = false) (hidle : ∀ j ∈ s.fil.jobs, j.phase ≠ .cores) :
    s.spareCore c k = ((s.coreSpared c k).countUnits c).strandsMoved c k := by
  have hgo : ¬ (k > 4 ∨ c ≥ 16 ∨ (!bitOf (s.rd (F.crewCoreMap_enabled c)) k) = true ∨ s.on (F.crewStatus_coreSpareUsed c) = true) := by
    rw [bitOf, hon, hfree]
    simp only [Bool.not_true, Bool.false_eq_true, or_false]
    omega
  have hrun : s.spareCore c k = (((s.coreSpared c k).countUnits c).strandsMoved c k).tryStarts := if_neg hgo
  rw [hrun, State.tryStarts_idle (s := ((s.coreSpared c k).countUnits c).strandsMoved c k) hidle]

theorem crewCoreSpare_spares {src : Src} (hreach : s.reaches src = true) (hc : c < 16) (hk : k ≤ 4)
    (hon : (s.rd (F.crewCoreMap_enabled c)).testBit k = true) (hspare : (s.rd (F.crewCoreMap_enabled c)).testBit 4 = false)
    (hfree : s.on (F.crewStatus_coreSpareUsed c) = false) (hidle : ∀ j ∈ s.fil.jobs, j.phase ≠ .cores) :
    CompletesWith (exec (.crewCoreSpare src c k) s) fun u => u.on (F.crewStatus_coreSpareUsed c) = true ∧
      (∀ i, (u.rd (F.crewCoreMap_enabled c)).testBit i = (((s.rd (F.crewCoreMap_enabled c)).testBit i && i != k) || i == 4)) ∧
      u.fil.strands = s.fil.strands.map (fun t => if t.crew = c ∧ t.core = k then { t with core := 4 } else t) := by
  obtain ⟨-, -, hmap, -⟩ := crewMaps_off c
  obtain ⟨hused, henabled⟩ := State.coreSpared_fields hon hspare
  have hrun : exec (.crewCoreSpare src c k) s = .next (((s.coreSpared c k).countUnits c).strandsMoved c k) := by
    rw [exec_crewCoreSpare, execCrewCoreSpare, if_pos hreach, State.spareCore_spares hc hk hon hfree hidle]
  refine ⟨_, hrun, ?_, fun i => ?_, ?_⟩
  · rw [State.strandsMoved_on, (State.countUnits_spares _ c).2]; exact hused
  · rw [State.strandsMoved_rd, (State.countUnits_regsOnly _ c).rd hmap]; exact henabled i
  · rw [State.strandsMoved_strands, State.countUnits_fil]; rfl

/-- The registers after a control core has failed: it is out of service where the spare is used. -/
def State.coreFailed (s : State) (c k : Nat) : State :=
  let t := s.wr (F.crewCoreMap_failed c) (s.rd (F.crewCoreMap_failed c) + 2 ^ k)
  if s.on (F.crewStatus_coreSpareUsed c) then t.wr (F.crewCoreMap_enabled c) (s.rd (F.crewCoreMap_enabled c) - 2 ^ k) else t

/-- A core on which no strand runs fails without any job that ends. -/
theorem State.failCore_marks (hc : c < 16) (hk : k ≤ 4) (hon : (s.rd (F.crewCoreMap_enabled c)).testBit k = true)
    (hwell : (s.rd (F.crewCoreMap_failed c)).testBit k = false) (hidle : ∀ t ∈ s.fil.strands, t.crew = c → t.core = k → t.ended = true) :
    s.failCore c k = (s.coreFailed c k).countUnits c := by
  have hgo : ¬ (c ≥ 16 ∨ k > 4 ∨ (!bitOf (s.rd (F.crewCoreMap_enabled c)) k) = true ∨ bitOf (s.rd (F.crewCoreMap_failed c)) k = true) := by
    rw [bitOf, bitOf, hon, hwell]
    simp only [Bool.not_true, Bool.false_eq_true, or_false]
    omega
  have hnone : (s.fil.strands.filter fun t => t.crew == c && t.core == k && !t.ended) = [] := by
    refine List.filter_eq_nil_iff.2 fun t ht h => ?_
    simp only [Bool.and_eq_true, beq_iff_eq, Bool.not_eq_true'] at h
    obtain ⟨⟨hcrew, hcore⟩, hended⟩ := h
    rw [hidle t ht hcrew hcore] at hended
    cases hended
  have hne : (F.crewCoreMap_failed c).off ≠ (F.crewStatus_coreSpareUsed c).off := fun e => (crewMaps_off c).2.2.1 (List.mem_singleton.2 e)
  unfold State.failCore State.coreFailed
  simp only [if_neg hgo, State.on_wr_other _ _ (F.crewStatus_coreSpareUsed c) _ hne, State.countUnits_fil, State.wr_fil, hnone, List.map_nil,
    List.eraseDups_nil, List.foldl_nil]
  cases s.on (F.crewStatus_coreSpareUsed c) <;> simp

theorem State.coreFailed_fields (hk : k ≤ 4) (hon : (s.rd (F.crewCoreMap_enabled c)).testBit k = true)
    (hwell : (s.rd (F.crewCoreMap_failed c)).testBit k = false) :
    (∀ i, ((s.coreFailed c k).rd (F.crewCoreMap_failed c)).testBit i = ((s.rd (F.crewCoreMap_failed c)).testBit i || i == k)) ∧
    ∀ i, ((s.coreFailed c k).rd (F.crewCoreMap_enabled c)).testBit i =
      ((s.rd (F.crewCoreMap_enabled c)).testBit i && !(s.on (F.crewStatus_coreSpareUsed c) && i == k)) := by
  have hmark := State.testBit_entered (s := s) (f := F.crewCoreMap_failed c) (by simp [F.crewCoreMap_failed]) hwell (Nat.lt_succ_of_le hk)
  have hkept := s.rd_wr_apart (F.crewCoreMap_failed c) (F.crewCoreMap_enabled c) (s.rd (F.crewCoreMap_failed c) + 2 ^ k) rfl
    (by simp [F.crewCoreMap_enabled]) (by simp [F.crewCoreMap_enabled, F.crewCoreMap_failed])
  unfold State.coreFailed
  simp only [testBit_leaves]
  split
  · refine ⟨fun i => ?_, fun i => ?_⟩
    · rw [State.rd_wr_apart _ (F.crewCoreMap_enabled c) (F.crewCoreMap_failed c) _ rfl (by simp [F.crewCoreMap_failed])
        (by simp [F.crewCoreMap_enabled, F.crewCoreMap_failed])]
      exact hmark i
    · rw [← hkept] at hon ⊢
      exact State.testBit_retired (by simp [F.crewCoreMap_enabled]) hon i
  · exact ⟨hmark, fun i => by rw [hkept]⟩

theorem controlCoreFailure_marks (hc : c < 16) (hk : k ≤ 4) (hon : (s.rd (F.crewCoreMap_enabled c)).testBit k = true)
    (hwell : (s.rd (F.crewCoreMap_failed c)).testBit k = false) (hidle : ∀ t ∈ s.fil.strands, t.crew = c → t.core = k → t.ended = true) :
    CompletesWith (exec (.controlCoreFailure c k) s) fun u =>
      (∀ i, (u.rd (F.crewCoreMap_failed c)).testBit i = ((s.rd (F.crewCoreMap_failed c)).testBit i || i == k)) ∧
      ∀ i, (u.rd (F.crewCoreMap_enabled c)).testBit i = ((s.rd (F.crewCoreMap_enabled c)).testBit i && !(s.on (F.crewStatus_coreSpareUsed c) && i == k)) := by
  obtain ⟨-, -, hmap, -⟩ := crewMaps_off c
  obtain ⟨hmarked, hleft⟩ := State.coreFailed_fields hk hon hwell
  have honly := (s.coreFailed c k).countUnits_regsOnly c
  refine ⟨_, congrArg Host.Outcome.next (State.failCore_marks hc hk hon hwell hidle), fun i => ?_, fun i => ?_⟩
  · rw [honly.rd (f := F.crewCoreMap_failed c) hmap]; exact hmarked i
  · rw [honly.rd hmap]; exact hleft i

end

end Sys2Proof.Machine
end

section
/-! PROOFS. The Shift boss's decisions (R472, R483): the log of spares and ALERT_N, a hewer that is spared by itself, and the node's leave. -/
namespace Sys2Proof.Machine
/-! ## The log of spares and ALERT_N -/

/-- The log of spares once it holds a decision. -/
def State.spareLogged (s : State) (kind unit index : Nat) (exhausted : Bool) : State :=
  ((((s.wr F.funSpareLog_valid 1).wr F.funSpareLog_kind kind).wr F.funSpareLog_unit unit).wr F.funSpareLog_index index).wr F.funSpareLog_exhausted
    (b2n exhausted)

theorem State.logSpare_free {s : State} (h : s.on F.funSpareLog_valid = false) (kind unit index : Nat) (exhausted : Bool) :
    s.logSpare kind unit index exhausted = s.spareLogged kind unit index exhausted := by
  simp only [State.logSpare, h, Bool.false_eq_true, if_false]
  rfl

theorem State.spareLogged_regsOnly (s : State) (kind unit index : Nat) (exhausted : Bool) :
    RegsOnly s (s.spareLogged kind unit index exhausted) [F.funSpareLog_valid.off] :=
  ((((s.wr_regsOnly F.funSpareLog_valid 1).trans (State.wr_regsOnly _ F.funSpareLog_kind _)).trans (State.wr_regsOnly _ F.funSpareLog_unit _)).trans
    (State.wr_regsOnly _ F.funSpareLog_index _)).trans (State.wr_regsOnly _ F.funSpareLog_exhausted _)

theorem State.spareLogged_fields (s : State) {kind unit index : Nat} (hk : kind < 8) (hu : unit < 32) (hi : index < 32) (exhausted : Bool) :
    let u := s.spareLogged kind unit index exhausted
    u.on F.funSpareLog_valid = true ∧ u.rd F.funSpareLog_kind = kind ∧ u.rd F.funSpareLog_unit = unit ∧ u.rd F.funSpareLog_index = index ∧
      u.on F.funSpareLog_exhausted = exhausted := by
  unfold State.spareLogged State.on
  simp (disch := decide) only [State.rd_wr_apart, State.rd_wr_same]
  refine ⟨rfl, Nat.mod_eq_of_lt hk, Nat.mod_eq_of_lt hu, Nat.mod_eq_of_lt hi, ?_⟩
  cases exhausted <;> rfl

/-- A decision that exhausts the spares, or a leave, asserts ALERT_N. -/
theorem State.spareLogged_alerting (s : State) {kind unit index : Nat} (hk : kind < 8) (hu : unit < 32) (hi : index < 32) {exhausted : Bool}
    (h : exhausted = true ∨ kind = 7) : (s.spareLogged kind unit index exhausted).alerting = true := by
  obtain ⟨hvalid, hkind, -, -, hexhausted⟩ := s.spareLogged_fields hk hu hi exhausted
  unfold State.alerting
  rw [hvalid, hkind, hexhausted]
  rcases h with rfl | rfl <;> simp

/-- ALERT_N is not asserted while no cause stands and the log is free. -/
theorem State.alerting_quiet {s : State} (hlog : s.on F.funSpareLog_valid = false) (hpins : s.pins.alerts = []) : s.alerting = false := by
  simp [State.alerting, hlog, hpins]

/-- Beside what leaves the node, ALERT_N changes nothing. -/
theorem State.alerted_same (s : State) (f : State → State) : (s.alerted f).regs = (f s).regs ∧ (s.alerted f).telem = (f s).telem ∧
    (s.alerted f).car = (f s).car := by
  unfold State.alerted
  extract_lets t
  split
  · exact ⟨rfl, rfl, rfl⟩
  · exact ⟨rfl, rfl, rfl⟩

/-- A change that asserts ALERT_N sends it. -/
theorem State.alerted_out {s : State} {f : State → State} (hquiet : s.alerting = false) (hloud : (f s).alerting = true) :
    (s.alerted f).host.out = .alert false true :: (f s).host.out := by
  simp only [State.alerted, hquiet, hloud, Bool.true_eq_false, if_false]
  rfl

/-! ## A hewer spared by itself (R483) -/

section
variable {s : State} {c h fails : Nat} {dead : Bool}

/-- With AUTO_EN a failed hewer wants its crew's spare. -/
theorem State.autoSpare_hewer (hauto : s.on F.funSparePolicy_autoEn = true) (hc : c < 16) (hh : h < 12)
    (hbad : (s.rd (F.crewHewFailed_failed c)).testBit h = true) :
    s.autoSpare 0 c h fails dead = s.wantSpare 0 c h (1 - s.rd (F.crewStatus_hewSpareUsed c)) (·.spareHewer c h) := by
  have hgo : ¬ (c ≥ 16 ∨ h > 12 ∨ (!(true || (bitOf (s.rd (F.crewHewMap_enabled c)) h && decide (s.rd F.funSparePolicy_testFails ≤ fails)))) = true) := by
    simp only [Bool.true_or, Bool.not_true, Bool.false_eq_true, or_false]
    omega
  have hfailed : bitOf (s.rd (F.crewHewFailed_failed c)) h = true := hbad
  simp only [State.autoSpare, hauto, Bool.not_true, Bool.false_eq_true, if_false, hfailed, if_neg hgo]

/-- With its spare free the hewer is spared, which is counted and logged as the last one's. -/
theorem State.autoSpare_free (hauto : s.on F.funSparePolicy_autoEn = true) (hc : c < 16) (hh : h < 12)
    (hbad : (s.rd (F.crewHewFailed_failed c)).testBit h = true) (hlog : s.on F.funSpareLog_valid = false)
    (hon : (s.rd (F.crewHewMap_enabled c)).testBit h = true) (hspare : (s.rd (F.crewHewMap_enabled c)).testBit 12 = false)
    (hfree : s.on (F.crewStatus_hewSpareUsed c) = false) :
    s.autoSpare 0 c h fails dead = ((s.spareHewer c h).count 0xE07 1).spareLogged 0 c h true := by
  have hused : s.rd (F.crewStatus_hewSpareUsed c) = 0 := by
    have hlt : s.rd (F.crewStatus_hewSpareUsed c) < 2 := s.rd_lt (F.crewStatus_hewSpareUsed c)
    have hne : s.rd (F.crewStatus_hewSpareUsed c) ≠ 1 := beq_eq_false_iff_ne.1 hfree
    omega
  obtain ⟨honly, -, -⟩ := State.spareHewer_does hc (by omega) hon hspare hfree
  have hkept : ((s.spareHewer c h).count 0xE07 1).on F.funSpareLog_valid = false :=
    (honly.on (f := F.funSpareLog_valid) (by
      simp only [F.crewHewMap_enabled, F.crewStatus_hewSpareUsed, F.funSpareLog_valid, List.mem_cons, List.not_mem_nil, or_false]
      omega)).trans hlog
  rw [State.autoSpare_hewer hauto hc hh hbad, hused, State.wantSpare, if_neg (by decide), State.logSpare_free hkept]
  rfl

/-- With the spare in use it is only logged that none is left. -/
theorem State.autoSpare_exhausted (hauto : s.on F.funSparePolicy_autoEn = true) (hc : c < 16) (hh : h < 12)
    (hbad : (s.rd (F.crewHewFailed_failed c)).testBit h = true) (hlog : s.on F.funSpareLog_valid = false)
    (hused : s.on (F.crewStatus_hewSpareUsed c) = true) : s.autoSpare 0 c h fails dead = s.spareLogged 0 c h true := by
  rw [State.autoSpare_hewer hauto hc hh hbad, beq_iff_eq.1 hused, State.wantSpare, if_pos rfl, State.logSpare_free hlog]

/-- What the log holds of a hewer for which no further spare is left. -/
def SpareLog (u : State) (c h : Nat) : Prop :=
  u.on F.funSpareLog_valid = true ∧ u.rd F.funSpareLog_kind = 0 ∧ u.rd F.funSpareLog_unit = c ∧ u.rd F.funSpareLog_index = h ∧
    u.on F.funSpareLog_exhausted = true

/-- A decision that ends in the log is logged there, changes no other register after it, and alerts. -/
theorem State.alerted_logged {t : State} (hc : c < 16) (hh : h < 12) (hlog : s.on F.funSpareLog_valid = false)
    (hrun : s.autoSpare 0 c h fails dead = t.spareLogged 0 c h true) (hout : t.host.out = s.host.out) :
    let u := s.alerted (·.autoSpare 0 c h fails dead)
    SpareLog u c h ∧ (∀ f : FieldRef, f.off ≠ F.funSpareLog_valid.off → u.rd f = t.rd f) ∧ (∀ n, u.ctr n = t.ctr n) ∧
      (s.pins.alerts = [] → u.host.out = .alert false true :: s.host.out) := by
  obtain ⟨hregs, htelem, -⟩ := s.alerted_same (·.autoSpare 0 c h fails dead)
  simp only [hrun] at hregs htelem
  have honly := t.spareLogged_regsOnly 0 c h true
  obtain ⟨hvalid, hkind, hunit, hindex, hexhausted⟩ := t.spareLogged_fields (kind := 0) (by decide) (by omega : c < 32) (by omega : h < 32) true
  have hloud := t.spareLogged_alerting (kind := 0) (by decide) (by omega : c < 32) (by omega : h < 32) (.inl rfl : true = true ∨ 0 = 7)
  refine ⟨⟨?_, ?_, ?_, ?_, ?_⟩, fun f hf => ?_, fun n => ?_, fun hpins => ?_⟩
  · exact (State.on_congr_regs hregs _).trans hvalid
  · exact (rd_of_regs hregs _).trans hkind
  · exact (rd_of_regs hregs _).trans hunit
  · exact (rd_of_regs hregs _).trans hindex
  · exact (State.on_congr_regs hregs _).trans hexhausted
  · exact (rd_of_regs hregs f).trans (honly.rd (by simpa using hf))
  · exact congrArg (kvGet 0 · n) htelem
  · rw [State.alerted_out (State.alerting_quiet hlog hpins) (hrun ▸ hloud), hrun]
    exact congrArg (_ :: ·) hout

theorem execAutoSpare_hewer (h : s.on (F.crewStatus_hewSpareUsed c) = false ∨ popcount (s.rd (F.crewHewMap_enabled c)) 13 ≠ 12) (k : Nat) :
    execAutoSpare 0 c k fails dead s = .next (s.alerted (·.autoSpare 0 c k fails dead)) := by
  have hno : s.spared 0 c k = false := by
    simp only [State.spared]
    rcases h with h | h
    · rw [h]; rfl
    · rw [decide_eq_false h, Bool.and_false]
  exact congrArg Host.Outcome.next (if_neg (by rw [hno]; decide))

/-- A failed hewer is spared by itself where its crew's spare is free. -/
theorem autoSpare_spares (hauto : s.on F.funSparePolicy_autoEn = true) (hc : c < 16) (hh : h < 12)
    (hbad : (s.rd (F.crewHewFailed_failed c)).testBit h = true) (hlog : s.on F.funSpareLog_valid = false)
    (hon : (s.rd (F.crewHewMap_enabled c)).testBit h = true) (hspare : (s.rd (F.crewHewMap_enabled c)).testBit 12 = false)
    (hfree : s.on (F.crewStatus_hewSpareUsed c) = false) : CompletesWith (exec (.autoSpare 0 c h fails dead) s) fun u =>
      SpareLog u c h ∧ u.on (F.crewStatus_hewSpareUsed c) = true ∧ u.ctr 0xE07 = (s.ctr 0xE07 + 1) % 2 ^ 64 ∧
      (∀ i, (u.rd (F.crewHewMap_enabled c)).testBit i = (((s.rd (F.crewHewMap_enabled c)).testBit i && i != h) || i == 12)) ∧
      (s.pins.alerts = [] → u.host.out = .alert false true :: s.host.out) := by
  have hmap : (F.crewHewMap_enabled c).off ≠ F.funSpareLog_valid.off := by simp only [F.crewHewMap_enabled, F.funSpareLog_valid]; omega
  have hstatus : (F.crewStatus_hewSpareUsed c).off ≠ F.funSpareLog_valid.off := by simp only [F.crewStatus_hewSpareUsed, F.funSpareLog_valid]; omega
  obtain ⟨honly, hused, hswapped⟩ := State.spareHewer_does hc (by omega) hon hspare hfree
  have hrun := State.autoSpare_free (fails := fails) (dead := dead) hauto hc hh hbad hlog hon hspare hfree
  have hhost : ((s.spareHewer c h).count 0xE07 1).host.out = s.host.out := congrArg HostSt.out honly.host
  have hctr : ((s.spareHewer c h).count 0xE07 1).ctr 0xE07 = (s.ctr 0xE07 + 1) % 2 ^ 64 :=
    ((s.spareHewer c h).ctr_count_same 0xE07 1).trans (congrArg (fun l => (kvGet 0 l 0xE07 + 1) % 2 ^ 64) honly.telem)
  obtain ⟨hlogged, hrd, hcount, hout⟩ := State.alerted_logged hc hh hlog hrun hhost
  exact ⟨_, execAutoSpare_hewer (.inl hfree) h, hlogged, (congrArg (· == 1) (hrd _ hstatus)).trans hused, (hcount _).trans hctr,
    fun i => (congrArg (Nat.testBit · i) (hrd _ hmap)).trans (hswapped i), hout⟩

/-- A failed hewer whose crew's spare is in use stays, and the log says that none is left. -/
theorem autoSpare_exhausts (hauto : s.on F.funSparePolicy_autoEn = true) (hc : c < 16) (hh : h < 12)
    (hbad : (s.rd (F.crewHewFailed_failed c)).testBit h = true) (hlog : s.on F.funSpareLog_valid = false)
    (hused : s.on (F.crewStatus_hewSpareUsed c) = true) (hcount : popcount (s.rd (F.crewHewMap_enabled c)) 13 ≠ 12) :
    CompletesWith (exec (.autoSpare 0 c h fails dead) s) fun u => SpareLog u c h ∧ u.rd (F.crewHewMap_enabled c) = s.rd (F.crewHewMap_enabled c) ∧
      (s.pins.alerts = [] → u.host.out = .alert false true :: s.host.out) := by
  have hmap : (F.crewHewMap_enabled c).off ≠ F.funSpareLog_valid.off := by simp only [F.crewHewMap_enabled, F.funSpareLog_valid]; omega
  have hrun := State.autoSpare_exhausted (fails := fails) (dead := dead) hauto hc hh hbad hlog hused
  obtain ⟨hlogged, hrd, -, hout⟩ := State.alerted_logged hc hh hlog hrun rfl
  exact ⟨_, execAutoSpare_hewer (.inr hcount) h, hlogged, hrd _ hmap, hout⟩

end

/-! ## Leaving the Carousel (R472) -/

/-- Flash that is read-only, and a relay stack with a dead channel, are conditions of Table 17.1. -/
theorem State.mustLeave_of {s : State} (h : s.on F.adtStatus_readOnly = true ∨
    ∃ t < 24, s.on (F.wnzStatus_relay t) = true ∧ s.on (F.memStackStatus_dead t) = true) : s.mustLeave = true := by
  unfold State.mustLeave
  simp only [Bool.or_eq_true]
  rcases h with h | ⟨t, ht, hrelay, hdead⟩
  · exact .inl (.inl (.inr h))
  · refine .inl (.inl (.inl (.inr (List.any_eq_true.2 ⟨t, List.mem_range.2 ht, ?_⟩))))
    rw [hrelay, hdead]
    rfl

/-- A broadcast leaves the node on the ring of broadcasts, and enters no membership change. -/
theorem State.broadcast_sends (s : State) (b : Bcast) : (s.broadcast b).host.out = .bcast s.bcastLink b :: s.host.out ∧
    (s.broadcast b).car.changes = s.car.changes ∧ (s.broadcast b).regs = s.regs := by
  have honly := TellsOnly.tell s b
  have hout := s.tell_out b
  have hchanges : (s.tell b).car.changes = s.car.changes := congrArg CarSt.changes honly.car
  unfold State.broadcast
  simp only []
  split
  · exact ⟨hout, hchanges, honly.regs⟩
  · exact ⟨hout, hchanges, honly.regs⟩

/-- What a planned leave tells the others. -/
def State.leaveTold (s : State) : Bcast :=
  .enter s.position (s.tally.beat + 1024) s.tally.beat (s.rd F.carCfg_size) (s.rd F.carCfg_pairEn) s.members true

/-- A member's planned leave is broadcast and entered, and the member is leaving. -/
theorem State.planLeave_does {s : State} (h : s.carState = 3) : s.planLeave.carState = 4 ∧
    s.planLeave.on F.funSpareLog_valid = s.on F.funSpareLog_valid ∧
    Claims.Entered s s.planLeave ⟨1, s.position, s.tally.beat + 1024, none⟩ [.bcast s.bcastLink s.leaveTold] := by
  obtain ⟨hout, hchanges, hregs⟩ := s.broadcast_sends s.leaveTold
  have hplan : s.planLeave =
      ((s.broadcast s.leaveTold).wr F.carStatus_state 4).addChange ⟨1, (s.broadcast s.leaveTold).position, s.tally.beat + 1024, none⟩ :=
    if_neg (not_not.2 h)
  have hposition : (s.broadcast s.leaveTold).position = s.position := rd_of_regs hregs _
  rw [hplan, hposition]
  generalize s.broadcast s.leaveTold = t at *
  refine ⟨t.rd_wr_same F.carStatus_state 4 (by decide), ?_, congrArg (· ++ _) hchanges, hout⟩
  exact (t.on_wr_other F.carStatus_state F.funSpareLog_valid 4 (by decide)).trans (State.on_congr_regs hregs _)

/-- A member for which a condition of Table 17.1 holds plans its leave, with KIND 7 in the log and ALERT_N. -/
theorem firmwareNodeLeave_leaves {s : State} (hmember : s.carState = 3) (hlog : s.on F.funSpareLog_valid = false) (hpins : s.pins.alerts = [])
    (h : s.on F.adtStatus_readOnly = true ∨ ∃ t < 24, s.on (F.wnzStatus_relay t) = true ∧ s.on (F.memStackStatus_dead t) = true) :
    CompletesWith (exec .firmwareNodeLeave s) fun u => u.carState = 4 ∧ u.on F.funSpareLog_valid = true ∧ u.rd F.funSpareLog_kind = 7 ∧
      Claims.Entered s u ⟨1, s.position, s.tally.beat + 1024, none⟩ [.alert false true, .bcast s.bcastLink s.leaveTold] := by
  obtain ⟨hstate, hkept, hchanges, hout⟩ := State.planLeave_does hmember
  have hplan : s.planLeave.logSpare 7 0 0 false = s.planLeave.spareLogged 7 0 0 false := State.logSpare_free (hkept.trans hlog) 7 0 0 false
  have hloud := s.planLeave.spareLogged_alerting (kind := 7) (unit := 0) (index := 0) (exhausted := false) (by decide) (by decide) (by decide) (.inr rfl)
  obtain ⟨hvalid, hkind, -⟩ := s.planLeave.spareLogged_fields (kind := 7) (unit := 0) (index := 0) (by decide) (by decide) (by decide) false
  have honly := s.planLeave.spareLogged_regsOnly 7 0 0 false
  obtain ⟨hregs, -, hcar⟩ := s.alerted_same fun u => u.planLeave.logSpare 7 0 0 false
  simp only [hplan] at hregs hcar
  refine ⟨_, congrArg Host.Outcome.next (if_pos ⟨hmember, State.mustLeave_of h⟩), ?_, ?_, ?_, ?_, ?_⟩
  · exact ((rd_of_regs hregs F.carStatus_state).trans (honly.rd (f := F.carStatus_state) (by decide))).trans hstate
  · exact (State.on_congr_regs hregs _).trans hvalid
  · exact (rd_of_regs hregs _).trans hkind
  · exact (congrArg CarSt.changes hcar).trans hchanges
  · rw [State.alerted_out (State.alerting_quiet hlog hpins) (by rw [hplan]; exact hloud), hplan]
    exact congrArg (_ :: ·) hout

end Sys2Proof.Machine
end

section
/-! PROOFS. The Funhouse (R484, R490): its key, and the arming, disarming and firing of a slot; and with these the statement about upkeep and
spares. -/
namespace Sys2Proof.Machine

/-! ## The key (R484) -/

theorem funhouseEnable_answers {s : State} {src : Src} (hreach : s.reaches src = true) (word : Nat) :
    (bits word 16 16 = 0x6A5C → CompletesWith (exec (.funhouseEnable src word) s) fun u =>
      RegsOnly s u [F.funCtrl_en.off] ∧ u.rd F.funCtrl_en = bits word 0 1) ∧
    (bits word 16 16 ≠ 0x6A5C → exec (.funhouseEnable src word) s = .next s) := by
  have hrun : exec (.funhouseEnable src word) s = .next (s.writeFunCtrl word) := congrArg Host.Outcome.next (if_pos hreach)
  rw [hrun]
  refine ⟨fun h => ?_, fun h => congrArg Host.Outcome.next (if_neg h)⟩
  rw [State.writeFunCtrl, if_pos h]
  exact ⟨_, rfl, s.wr_regsOnly _ _, (s.rd_wr_same F.funCtrl_en _ (by decide)).trans (Nat.mod_eq_of_lt (bits_lt word 0 1))⟩

/-! ## A slot armed and disarmed (R490) -/

section
variable {s : State} {n : Nat}

theorem funPCtrl_listed : ∀ n < 16, (F.funPCtrl_arm n).listed .any = true ∧ (F.funPCtrl_kind n).listed .any = true ∧
    (F.funPCtrl_count n).listed (.range 1 255) = true := by decide

theorem funPCtrl_stores (hn : n < 16) : (F.funPCtrl_arm n).Stores .any ∧ (F.funPCtrl_kind n).Stores .any ∧
    (F.funPCtrl_count n).Stores (.range 1 255) := by
  have hlaid := laid_fun (off := (F.funPCtrl_arm n).off) (by simp only [F.funPCtrl_arm]; omega) (by simp only [F.funPCtrl_arm]; omega)
  obtain ⟨harm, hkind, hcount⟩ := funPCtrl_listed n hn
  exact ⟨⟨hlaid, harm⟩, ⟨hlaid, hkind⟩, ⟨hlaid, hcount⟩⟩

theorem funPCtrl_ne_left (n : Nat) : (F.funPLeft_left n).off ≠ (F.funPCtrl_arm n).off := by
  simp only [F.funPLeft_left, F.funPCtrl_arm]
  omega

/-- What a write of a slot's control stores. -/
theorem State.storeSlot_fields (s : State) (hn : n < 16) {word : Nat} (hcount : 1 ≤ bits word 8 8) :
    (s.storeWord (Reg.funPCtrl n) word).rd (F.funPCtrl_arm n) = bits word 0 1 ∧
    (s.storeWord (Reg.funPCtrl n) word).rd (F.funPCtrl_kind n) = bits word 1 5 ∧
    (s.storeWord (Reg.funPCtrl n) word).rd (F.funPCtrl_count n) = bits word 8 8 := by
  obtain ⟨harm, hkind, hcounts⟩ := funPCtrl_stores hn
  have hrange : 1 ≤ bits word 8 8 ∧ bits word 8 8 ≤ 255 := ⟨hcount, Nat.le_of_lt_succ (bits_lt word 8 8)⟩
  exact ⟨(s.rd_storeWord harm word).trans (Nat.mod_eq_of_lt (bits_lt word 0 1)), (s.rd_storeWord hkind word).trans (Nat.mod_eq_of_lt (bits_lt word 1 5)),
    ((s.rd_storeWord hcounts word).trans (congrArg (· % 2 ^ 8) (if_pos hrange))).trans (Nat.mod_eq_of_lt (bits_lt word 8 8))⟩

/-- A slot that is not armed takes the write, and with ARM and a KIND of Table 17.5 is set to fire COUNT times. -/
theorem State.writeSlot_arms (hn : n < 16) (hoff : s.on (F.funPCtrl_arm n) = false) {word : Nat} (hbit : word.testBit 0 = true)
    (hkind : bits word 1 5 < 16) (hcount : 1 ≤ bits word 8 8) :
    s.writeSlot n word = (s.storeWord (Reg.funPCtrl n) word).wr (F.funPLeft_left n) (bits word 8 8) := by
  obtain ⟨-, hstored, hcounts⟩ := s.storeSlot_fields hn hcount
  simp only [State.writeSlot, if_neg (Nat.not_le.2 hn), hoff, bitOf, hbit, hstored, hcounts, if_neg (Nat.not_le.2 hkind), Bool.not_true,
    Bool.false_eq_true, if_false]

/-- An armed slot takes its disarming. -/
theorem State.writeSlot_disarms (hn : n < 16) (hon : s.on (F.funPCtrl_arm n) = true) {word : Nat} (hbit : word.testBit 0 = false) :
    s.writeSlot n word = (s.wr (F.funPCtrl_arm n) 0).wr (F.funPLeft_left n) 0 := by
  simp only [State.writeSlot, if_neg (Nat.not_le.2 hn), hon, bitOf, hbit, if_true, Bool.false_eq_true, if_false]

/-- It takes nothing else. -/
theorem State.writeSlot_kept (hn : n < 16) (hon : s.on (F.funPCtrl_arm n) = true) {word : Nat} (hbit : word.testBit 0 = true) :
    s.writeSlot n word = s := by
  simp only [State.writeSlot, if_neg (Nat.not_le.2 hn), hon, bitOf, hbit, if_true]

theorem perturbationArm_answers {src : Src} (hreach : s.reaches src = true) (hn : n < 16) (word : Nat) :
    (s.on (F.funPCtrl_arm n) = false → word.testBit 0 = true → bits word 1 5 < 16 → 1 ≤ bits word 8 8 →
      CompletesWith (exec (.perturbationArm src n word) s) fun u => RegsOnly s u [(F.funPCtrl_arm n).off, (F.funPLeft_left n).off] ∧
        u.on (F.funPCtrl_arm n) = true ∧ u.rd (F.funPCtrl_kind n) = bits word 1 5 ∧ u.rd (F.funPLeft_left n) = bits word 8 8) ∧
    (s.on (F.funPCtrl_arm n) = true → word.testBit 0 = false →
      CompletesWith (exec (.perturbationArm src n word) s) fun u => RegsOnly s u [(F.funPCtrl_arm n).off, (F.funPLeft_left n).off] ∧
        u.on (F.funPCtrl_arm n) = false ∧ u.rd (F.funPLeft_left n) = 0 ∧ u.rd (F.funPCtrl_kind n) = s.rd (F.funPCtrl_kind n)) ∧
    (s.on (F.funPCtrl_arm n) = true → word.testBit 0 = true → exec (.perturbationArm src n word) s = .next s) := by
  have hne := funPCtrl_ne_left n
  have hleft : ∀ (u : State) (v : Nat), v < 256 → (u.wr (F.funPLeft_left n) v).rd (F.funPLeft_left n) = v := fun u v hv =>
    (u.rd_wr_same _ _ (by simp [F.funPLeft_left])).trans (Nat.mod_eq_of_lt hv)
  have hrun : exec (.perturbationArm src n word) s = .next (s.writeSlot n word) := congrArg Host.Outcome.next (if_pos hreach)
  rw [hrun]
  refine ⟨fun hoff hbit hkind hcount => ?_, fun hon hbit => ?_, fun hon hbit => by rw [State.writeSlot_kept hn hon hbit]⟩
  · obtain ⟨harm, hstored, -⟩ := s.storeSlot_fields hn hcount
    rw [State.writeSlot_arms hn hoff hbit hkind hcount]
    refine ⟨_, rfl, ((s.storeWord_regsOnly _ word).mono (List.cons_subset_cons _ (List.nil_subset _))).trans
      ((State.wr_regsOnly _ (F.funPLeft_left n) _).mono (List.subset_cons_self _ _)), ?_, ?_, hleft _ _ (bits_lt word 8 8)⟩
    · rw [State.on_wr_other _ _ _ _ hne, State.on_of_rd harm, bits_one, hbit]
      rfl
    · exact (State.rd_wr_other _ (F.funPLeft_left n) (F.funPCtrl_kind n) _ hne).trans hstored
  · rw [State.writeSlot_disarms hn hon hbit]
    refine ⟨_, rfl, ((s.wr_regsOnly (F.funPCtrl_arm n) 0).mono (List.cons_subset_cons _ (List.nil_subset _))).trans
      ((State.wr_regsOnly _ (F.funPLeft_left n) 0).mono (List.subset_cons_self _ _)), ?_, hleft _ 0 (by decide), ?_⟩
    · rw [State.on_wr_other _ _ _ _ hne]
      exact State.on_of_rd (s.rd_wr_same _ 0 (by simp [F.funPCtrl_arm]))
    · refine (State.rd_wr_other _ (F.funPLeft_left n) (F.funPCtrl_kind n) _ hne).trans ?_
      exact s.rd_wr_apart (F.funPCtrl_arm n) (F.funPCtrl_kind n) 0 rfl (by simp [F.funPCtrl_kind]) (by simp [F.funPCtrl_arm, F.funPCtrl_kind])

/-! ## A slot fires (R484) -/

/-- The registers and the count of a firing. -/
def State.slotFired (s : State) (n : Nat) : State :=
  let t := (((s.wr ⟨F.funStatus_fired.off, n, 1⟩ 1).wr F.funStatus_touched 1).count 0xE04 1).wr (F.funPLeft_left n) (s.rd (F.funPLeft_left n) - 1)
  if s.rd (F.funPLeft_left n) = 1 then t.wr (F.funPCtrl_arm n) 0 else t

/-- Without EN, and before its beat, a slot does not fire. -/
theorem execPerturbationFire_waits (h : s.on F.funCtrl_en = false ∨ s.tally.beat < s.rd64 (F.funPBeatLo_beat n) (F.funPBeatHi_beat n)) (act : Nat) :
    execPerturbationFire n act s = .next s := by
  refine congrArg Host.Outcome.next (if_pos ?_)
  rcases h with h | h
  · exact .inr (.inl (by rw [h]; rfl))
  · exact .inr (.inr (.inr (.inl h)))

theorem execPerturbationFire_fires {act : Nat} (hn : n < 16) (hen : s.on F.funCtrl_en = true) (hon : s.on (F.funPCtrl_arm n) = true)
    (hdue : s.rd64 (F.funPBeatLo_beat n) (F.funPBeatHi_beat n) ≤ s.tally.beat) (hleft : 0 < s.rd (F.funPLeft_left n))
    (hact : s.on (F.funPCtrl_actMatch n) = true → act = s.rd (F.funPCtrl_act n)) :
    execPerturbationFire n act s = .next ((s.slotFired n).perturb ((s.slotFired n).rd (F.funPCtrl_kind n)) ((s.slotFired n).rd (F.funPTarget_target n))
      ((s.slotFired n).rd (F.funPParam_param n))) := by
  have hgo : ¬ (n ≥ 16 ∨ (!s.on F.funCtrl_en) = true ∨ (!s.on (F.funPCtrl_arm n)) = true ∨
      s.now < s.rd64 (F.funPBeatLo_beat n) (F.funPBeatHi_beat n) ∨ s.rd (F.funPLeft_left n) = 0 ∨
      (s.on (F.funPCtrl_actMatch n) = true ∧ act ≠ s.rd (F.funPCtrl_act n))) := by
    rw [hen, hon]
    rintro (h | h | h | h | h | ⟨hmatch, hne⟩)
    · omega
    · cases h
    · cases h
    · exact Nat.not_lt.2 hdue h
    · omega
    · exact hne (hact hmatch)
  exact congrArg Host.Outcome.next (if_neg hgo)

/-- The registers of a firing, before a slot that has fired for the last time disarms. -/
theorem State.slotFired_reads (s : State) (hn : n < 16) (left : Nat) :
    let t := (((s.wr ⟨F.funStatus_fired.off, n, 1⟩ 1).wr F.funStatus_touched 1).count 0xE04 1).wr (F.funPLeft_left n) left
    t.rd (F.funPLeft_left n) = left % 256 ∧ t.rd ⟨F.funStatus_fired.off, n, 1⟩ = 1 ∧
    ∀ f : FieldRef, f.off ≠ F.funStatus_fired.off → f.off ≠ (F.funPLeft_left n).off → t.rd f = s.rd f := by
  intro t
  have hstatus : (F.funPLeft_left n).off ≠ F.funStatus_fired.off := by simp only [F.funPLeft_left, F.funStatus_fired]; omega
  have hapart : n + 1 ≤ F.funStatus_touched.lo ∨ F.funStatus_touched.lo + F.funStatus_touched.width ≤ n := .inl hn
  refine ⟨State.rd_wr_same _ (F.funPLeft_left n) left (by simp [F.funPLeft_left]), ?_, fun f hf hl => ?_⟩
  · rw [State.rd_wr_other _ (F.funPLeft_left n) ⟨F.funStatus_fired.off, n, 1⟩ left hstatus, State.rd_count,
      State.rd_wr_apart _ F.funStatus_touched ⟨F.funStatus_fired.off, n, 1⟩ 1 rfl (by simp only; omega) hapart]
    exact s.rd_wr_same ⟨F.funStatus_fired.off, n, 1⟩ 1 (by simp only; omega)
  · rw [State.rd_wr_other _ (F.funPLeft_left n) f left hl.symm, State.rd_count, State.rd_wr_other _ F.funStatus_touched f 1 hf.symm,
      s.rd_wr_other ⟨F.funStatus_fired.off, n, 1⟩ f 1 hf.symm]

/-- What a firing leaves: a firing less, ARM while one is left, the slot's bit in FUN_STATUS, and what the slot names. -/
theorem State.slotFired_fields (s : State) (hn : n < 16) (hleft : 0 < s.rd (F.funPLeft_left n)) (hon : s.on (F.funPCtrl_arm n) = true) :
    (s.slotFired n).rd (F.funPLeft_left n) = s.rd (F.funPLeft_left n) - 1 ∧
    (s.slotFired n).on (F.funPCtrl_arm n) = decide (1 < s.rd (F.funPLeft_left n)) ∧
    ((s.slotFired n).rd F.funStatus_fired).testBit n = true ∧
    (s.slotFired n).rd (F.funPCtrl_kind n) = s.rd (F.funPCtrl_kind n) ∧
    (s.slotFired n).rd (F.funPTarget_target n) = s.rd (F.funPTarget_target n) ∧
    (s.slotFired n).rd (F.funPParam_param n) = s.rd (F.funPParam_param n) := by
  have hwidth : s.rd (F.funPLeft_left n) < 256 := s.rd_lt (F.funPLeft_left n)
  obtain ⟨hone, hbit, hkept⟩ := s.slotFired_reads hn (s.rd (F.funPLeft_left n) - 1)
  have hless := hone.trans (Nat.mod_eq_of_lt (by omega))
  have harm := hkept (F.funPCtrl_arm n) (by grind [F.funPCtrl_arm, F.funStatus_fired]) (by grind [F.funPCtrl_arm, F.funPLeft_left])
  have hkind := hkept (F.funPCtrl_kind n) (by grind [F.funPCtrl_kind, F.funStatus_fired]) (by grind [F.funPCtrl_kind, F.funPLeft_left])
  have htarget := hkept (F.funPTarget_target n) (by grind [F.funPTarget_target, F.funStatus_fired]) (by grind [F.funPTarget_target, F.funPLeft_left])
  have hparam := hkept (F.funPParam_param n) (by grind [F.funPParam_param, F.funStatus_fired]) (by grind [F.funPParam_param, F.funPLeft_left])
  have hfired : ∀ u : State, (u.rd F.funStatus_fired).testBit n = u.on ⟨F.funStatus_fired.off, n, 1⟩ := fun u => by
    rw [u.testBit_rd (f := F.funStatus_fired) hn, show F.funStatus_fired.lo + n = n from Nat.zero_add n]
  unfold State.slotFired
  simp only [hfired]
  split
  · next hlast =>
    have hother : ∀ (u : State) (f : FieldRef), f.off ≠ (F.funPCtrl_arm n).off → (u.wr (F.funPCtrl_arm n) 0).rd f = u.rd f := fun u f hf =>
      u.rd_wr_other _ f 0 hf.symm
    refine ⟨?_, ?_, State.on_of_rd (n := 1) ?_, ?_, ?_, ?_⟩
    · rw [hother _ _ (funPCtrl_ne_left n)]; exact hless
    · rw [hlast]; exact State.on_of_rd (State.rd_wr_same _ (F.funPCtrl_arm n) 0 (by simp [F.funPCtrl_arm]))
    · rw [hother _ _ (by grind [F.funPCtrl_arm, F.funStatus_fired])]; exact hbit
    · exact (State.rd_wr_apart _ (F.funPCtrl_arm n) (F.funPCtrl_kind n) 0 rfl (by simp [F.funPCtrl_kind])
        (by simp [F.funPCtrl_arm, F.funPCtrl_kind])).trans hkind
    · rw [hother _ _ (by grind [F.funPCtrl_arm, F.funPTarget_target])]; exact htarget
    · rw [hother _ _ (by grind [F.funPCtrl_arm, F.funPParam_param])]; exact hparam
  · next hmore =>
    refine ⟨hless, ?_, State.on_of_rd hbit, hkind, htarget, hparam⟩
    rw [decide_eq_true (by omega : 1 < s.rd (F.funPLeft_left n))]
    exact (State.on_of_rd harm).trans hon

/-- A firing changes registers and counts one; nothing else. -/
theorem State.slotFired_same (s : State) (n : Nat) : { s.slotFired n with regs := s.regs, telem := s.telem } = s ∧
    (s.slotFired n).ctr 0xE04 = (s.ctr 0xE04 + 1) % 2 ^ 64 := by
  rw [← s.ctr_count_same 0xE04 1]
  unfold State.slotFired
  simp only []
  split <;> exact ⟨rfl, rfl⟩

/-- KIND 1 stalls the crew that TARGET names for PARAM beats. -/
theorem perturbationFire_stalls {act : Nat} (hn : n < 16) (hen : s.on F.funCtrl_en = true) (hon : s.on (F.funPCtrl_arm n) = true)
    (hdue : s.rd64 (F.funPBeatLo_beat n) (F.funPBeatHi_beat n) ≤ s.tally.beat) (hleft : 0 < s.rd (F.funPLeft_left n))
    (hact : s.on (F.funPCtrl_actMatch n) = true → act = s.rd (F.funPCtrl_act n)) (hkind : s.rd (F.funPCtrl_kind n) = 1) :
    CompletesWith (exec (.perturbationFire n act) s) fun u => u.rd (F.funPLeft_left n) = s.rd (F.funPLeft_left n) - 1 ∧
      u.on (F.funPCtrl_arm n) = decide (1 < s.rd (F.funPLeft_left n)) ∧ (u.rd F.funStatus_fired).testBit n = true ∧
      u.ctr 0xE04 = (s.ctr 0xE04 + 1) % 2 ^ 64 ∧
      u.fun_ = { s.fun_ with stalls := kvSet 0 s.fun_.stalls (s.rd (F.funPTarget_target n)) (s.tally.beat + s.rd (F.funPParam_param n)) } ∧
      u.mem = s.mem ∧ u.fil = s.fil := by
  obtain ⟨hless, harm, hfired, hkept, htarget, hparam⟩ := s.slotFired_fields hn hleft hon
  obtain ⟨hsame, hcount⟩ := s.slotFired_same n
  have hrun := execPerturbationFire_fires hn hen hon hdue hleft hact
  rw [hkept, hkind, htarget, hparam] at hrun
  generalize s.slotFired n = t at hless harm hfired hsame hcount hrun
  obtain ⟨htally, hfun, hmem, hfil⟩ : t.tally = s.tally ∧ t.fun_ = s.fun_ ∧ t.mem = s.mem ∧ t.fil = s.fil := by
    rw [← hsame]
    exact ⟨rfl, rfl, rfl, rfl⟩
  refine ⟨_, hrun, hless, harm, hfired, hcount, ?_, hmem, hfil⟩
  rw [← hfun, ← htally]
  rfl

end

/-- Settles O55: each family of commands is answered by its lemma above. -/
theorem upkeepAndSpares : Obligations.UpkeepAndSpares := by
  refine ⟨?quotas, ?pool, ?scrub, ?rows, ?period, ?requests, ?channels, ?flip, ?crews, ?decisions, ?leave, ?funhouse⟩
  case quotas =>
    intro s src act word hreach hact hcaches htiles
    have hstack := quotaWrite_takes (kind := 0) (word := word) hreach hact (by decide) hcaches htiles rfl rfl (memQStack_stores hact)
    have hcrew := quotaWrite_takes (kind := 2) (word := word) hreach hact (by decide) hcaches htiles rfl rfl (memQCrew_stores hact)
    refine ⟨fun hword => ?_, fun hword => ?_, fun hout hword => ?_⟩
    · obtain ⟨u, hu, honly, hrd⟩ := hstack (Nat.lt_of_le_of_lt hword (by decide : 0xC0000000 < 2 ^ 32))
      exact ⟨u, hu, honly, hrd.trans (if_pos hword)⟩
    · obtain ⟨u, hu, honly, hrd⟩ := hcrew (Nat.lt_of_le_of_lt hword (by decide : 786432 < 2 ^ 20))
      exact ⟨u, hu, honly, hrd.trans (if_pos hword)⟩
    · obtain ⟨u, hu, -, hrd⟩ := hcrew hword
      exact ⟨u, hu, hrd.trans (if_neg (Nat.not_le.2 hout))⟩
  case pool => exact fun s src gib hreach hgib => memPoolWrite_answers hreach hgib
  case scrub => exact fun s hen hbeat hclean => scrubRound_leaves hen hbeat hclean
  case rows => exact fun s row hrow hclean _ => rowRetireFlip_serves hrow hclean
  case period => exact hitPeriodBoundary_clears
  case requests =>
    exact fun s src st ch hreach => ⟨fun hst hch hleft hcopies => memSpare_answers hreach hst hch hleft hcopies, fun h => memSpare_ignored h src⟩
  case channels =>
    exact fun s st ch hst hch => ⟨fun hcopies hsyn _ => channelSpareFlip_flips hcopies hsyn, fun hleft hlive => channelFailure_dies hst hch hleft hlive⟩
  case flip => exact fun s src word hreach => flipMaskArm_arms hreach word
  case crews =>
    intro s src c k hreach hc
    refine ⟨fun hon hspare hfree hk => ?_, fun h => ?_, fun hon hspare hfree hk hidle => crewCoreSpare_spares hreach hc hk hon hspare hfree hidle,
      fun hon hwell hk => hewerFailure_marks hc hk hon hwell, fun hon hwell hk hidle => controlCoreFailure_marks hc hk hon hwell hidle⟩
    · exact ⟨_, congrArg Host.Outcome.next (if_pos hreach), State.spareHewer_does hc hk hon hspare hfree⟩
    · rw [exec_crewHewerSpare, execCrewHewerSpare, State.spareHewer_refused h, ite_self]
  case decisions =>
    exact fun s c h fails dead hauto hc hh hbad hlog => ⟨fun hon hspare hfree => autoSpare_spares hauto hc hh hbad hlog hon hspare hfree,
      fun hused hcount => autoSpare_exhausts hauto hc hh hbad hlog hused hcount⟩
  case leave => exact fun s hmember hlog hpins h => firmwareNodeLeave_leaves hmember hlog hpins h
  case funhouse =>
    intro s src word slot hreach
    obtain ⟨hkey, hwrong⟩ := funhouseEnable_answers hreach word
    refine ⟨hkey, hwrong, fun hslot => ?_⟩
    obtain ⟨harms, hdisarms, hkept⟩ := perturbationArm_answers hreach hslot word
    exact ⟨harms, hdisarms, hkept, fun act hon => ⟨fun h => execPerturbationFire_waits h act,
      fun hen hdue hleft hact hkind => perturbationFire_stalls hslot hen hon hdue hleft hact hkind⟩⟩

end Sys2Proof.Machine
end
